-- ==== Sys2Proof/Word.lean ====
section
/-! DEFINITION. The word types of the Syron Y1: 32-bit words, bytes, 96-bit lane masks, pointers and instruction words. -/

namespace Sys2Proof

/-- A 32-bit register word (R75). -/
abbrev Word := BitVec 32

/-- A byte of memory. -/
abbrev Byte := BitVec 8

/-- A set of logical lanes, lane `L` at bit `L` (R104). -/
abbrev Lanes := BitVec 96

/-- A 96-bit pointer: RANK 95:84, SPACE 83:80, ADDR 79:0 (R59). -/
abbrev Ptr := BitVec 96

/-- A 96-bit instruction word (R49). -/
abbrev IWord := BitVec 96

/-- Every lane of a group (R104). -/
def Lanes.all : Lanes := BitVec.allOnes 96

/-- The number of set bits of a mask. -/
def popc {w : Nat} (x : BitVec w) : Nat := (List.range w).countP fun i => x.getLsbD i

/-- The set bits of a mask, ascending. -/
def bitsOf {w : Nat} (x : BitVec w) : List Nat := (List.range w).filter fun i => x.getLsbD i

/-- A mask from a test of each bit. -/
def maskOf (w : Nat) (f : Nat → Bool) : BitVec w :=
  (List.range w).foldl (fun m i => if f i then m ||| (1#w <<< i) else m) 0

/-- Sign extension of the low `n` bits of a word to 32 bits (R47, sext). -/
def sextLow (n : Nat) (x : Word) : Word :=
  if n = 0 then 0 else (x <<< (32 - n)).sshiftRight (32 - n)

/-- Zero extension of the low `n` bits of a word to 32 bits (R47, zext). -/
def zextLow (n : Nat) (x : Word) : Word := (x <<< (32 - n)) >>> (32 - n)

end Sys2Proof
end

