-- ==== Sys2Proof/Config.lean ====
section
/-! DEFINITION. What an implementation fixes and the spec leaves open. The opaque constants have no body: nothing can evaluate them
or prove a value of them, so a claim about a free value holds for every value. Each is named in the assumption log. -/

namespace Sys2Proof

/-- The five special functions whose bits the spec does not publish (R98). -/
inductive SfuFn where
  | exp2 | log2 | sin | cos | tanh
  deriving DecidableEq, Repr

namespace Config

/-- The n-th free number drawn (latencies beyond the table's minimum, choices of an implementation; assumption 16). -/
opaque freeNat : Nat → Nat

/-- The n-th free datum drawn (answers of other modules; assumption 1). -/
opaque freeBits : Nat → BitVec 128

/-- What another module answers about the rights to an address at a moment of the run (R142; assumption 1). -/
opaque remoteRight : Nat → Nat → Nat

/-- Whether the host sets or clears FORCED in a context when the outside world's clock advances (R172; assumption 69). -/
opaque forcedChoice : Nat → Nat

/-- Which clock domain advances at the n-th tick (assumption 8). -/
opaque clockChoice : Nat → Nat

/-- Which of the codes within 2 ulp the one fixed approximation of FEXP2, FLOG2, FSIN, FCOS and FTANH gives for an operand (R98;
assumption 10). -/
opaque sfuPick : SfuFn → Word → Nat

/-- The tag of a message: KMAC256 under the management key, the keys numbered (R383; assumption 11). -/
opaque kmac256 : Nat → List Byte → List Byte

/-- The number of the management key after a firmware update, which may replace it (R383; assumption 11). -/
opaque nextKey : List Byte → Nat → Nat

/-- The serial number of the module (R381; assumption 135). -/
opaque serial : List Byte

/-- How far above its old value a firmware update raises the counter (R380; assumption 134). -/
opaque counterRaise : List Byte → Nat

/-- The signature that a firmware image carries (R380; assumption 11). -/
opaque imageSig : List Byte → List Byte

/-- The leaf index of the signature that a firmware image carries (R380; assumption 11). -/
opaque imageLeaf : List Byte → Nat

/-- SHAKE256-256 (R381; assumption 11). -/
opaque shake256 : List Byte → List Byte

/-- XMSS verification of an image's signature under the fused root: whether it is accepted (R380; assumption 11). -/
opaque xmssAccepts : List Byte → List Byte → Nat → Bool

/-- The signature of a quote's contents with a leaf of the attestation key (R381; assumption 11). -/
opaque quoteSign : List Byte → Nat → List Byte

/-- The number of modules this model holds is one, of this number (bits 79:62 of an address; assumption 1). -/
def thisModule : Nat := 0

/-- Bytes of a scratchpad (chapter 1, Table 3). -/
def scratchBytes : Nat := 524288

/-- Registers of a core's main register file (R15). -/
def coreRegs : Nat := 1024

end Config

end Sys2Proof
end

