-- ==== Sys2Proof/Syntax.lean ====
section
/-! DEFINITION. The syntax of Yaljor instructions and of the module's other steps: one constructor of `Instr` for each row of the
opcode table. An instruction's constructor carries its decoded fields; a step that is no instruction carries what names it
(the core, the operation, the context slot) or the datum the outside world supplies. -/

namespace Sys2Proof

/-! ## Common fields -/

/-- A guard (R54, Table 2). `p false 7` is the unguarded encoding. -/
inductive Guard where
  | p (neg : Bool) (i : Fin 8)
  | q (neg : Bool) (i : Fin 8)
  deriving DecidableEq, Repr

/-- The hints and the guard every standard instruction carries (R51). -/
structure Hdr where
  wait : BitVec 12
  setf : Option (Fin 12)
  dist : BitVec 3
  grd  : Guard
  deriving DecidableEq, Repr

/-- A 10-bit operand field (R55, Table 3). -/
inductive Opnd where
  | v (n : Fin 256)
  | o (n : Fin 8)
  | l (n : Fin 4)
  | c (n : Fin 64)
  | zero
  | lane
  | plane
  | gid
  | s (n : Fin 128)
  | imm (x : BitVec 8)
  deriving DecidableEq, Repr

/-- Rounding modes (R80, Table 3). -/
inductive RMode where
  | rne | rz | ru | rd
  deriving DecidableEq, Repr

/-- Conditions of SCMP, PCMP and VCMP (chapter 5, Table 8). -/
inductive Cond where
  | eq | ne | lt | le | gt | ge | ltu | leu | gtu | geu
  deriving DecidableEq, Repr

/-- Conditions of FCMP (chapter 6, Table 8). -/
inductive FCond where
  | eq | ne | lt | le | gt | ge | un | ord
  deriving DecidableEq, Repr

/-- Element widths of the vector integer instructions (R122, Table 4). -/
inductive ElemW where
  | w32 | w16 | w8
  deriving DecidableEq, Repr

/-- Element types of the vector floating-point instructions (R123, Table 6). -/
inductive FType where
  | f32 | f16 | bf16
  deriving DecidableEq, Repr

/-- Formats of CVT and CVTEF (R124, Table 10). -/
inductive Fmt where
  | f32 | f16 | bf16 | e4m3 | e5m2 | i32 | i8 | i4
  deriving DecidableEq, Repr

/-- Access widths (R155, Table 8). -/
inductive Width where
  | b | bs | h | hs | w | d | q
  deriving DecidableEq, Repr

/-- Scopes (R213). -/
inductive Scope where
  | grp | crew | core | gang | dev | sys
  deriving DecidableEq, Repr

/-- Orderings of atomics and fences (chapter 10, Table 3). -/
inductive Ord where
  | rlx | acq | rel | ar
  deriving DecidableEq, Repr

/-- Prediction modes (R147, Table 4). -/
inductive PMode where
  | last | stride | hold | zero
  deriving DecidableEq, Repr

/-- Functions of PLOG (chapter 5, Table 9). -/
inductive PFn where
  | and | or | xor | andn | orn | nand | nor | xnor | not
  deriving DecidableEq, Repr

/-- Forms of PMOV (chapter 5, Table 10). -/
inductive PForm where
  | p | fromv | froms | tos | q
  deriving DecidableEq, Repr

/-- Fields of PFLD (chapter 5, Table 11). -/
inductive PField where
  | lo | mid | hi | space | rank | module
  deriving DecidableEq, Repr

/-- Modes of SHFL (R130). -/
inductive ShMode where
  | idx | up | down | xor
  deriving DecidableEq, Repr

/-- Operations of VRED and VSCAN (chapter 6, Table 12). -/
inductive RedOp where
  | add | min | max | umin | umax | and | or | xor | fadd | fmin | fmax
  deriving DecidableEq, Repr

/-- Operations of ATOM and ATOMS (R214, Table 2). -/
inductive AtomOp where
  | add | and | or | xor | min | max | umin | umax | xchg | cas | fadd
  deriving DecidableEq, Repr

/-- Conditions of WAITA (R222, Table 7). -/
inductive WCond where
  | eq | ne | geu | any
  deriving DecidableEq, Repr

/-- The holder classes a token instruction may act for (R196, HC). -/
inductive HC where
  | grp | crew | gang | leg | core
  deriving DecidableEq, Repr

/-- Operations of a matrix task (R241, Table 6). -/
inductive TaskOp where
  | bf16 | f16 | f8 | i8 | i8i4 | i4i8 | i4 | bfp
  deriving DecidableEq, Repr

/-- Items of MSTAT (R275, Table 6). -/
inductive MItem where
  | sticky | corr | terr | checks | voids | tests
  deriving DecidableEq, Repr

/-- Masks KSTAT reads (chapter 8, Table 8). -/
inductive KFn where
  | sum | opn | ready | flt
  deriving DecidableEq, Repr

/-- Kinds of FINJ (R345, Table 15). -/
inductive FKind where
  | core | lane | strip | poison
  deriving DecidableEq, Repr

/-- Special registers (R74, Table 11). -/
inductive SReg where
  | groupid | crewid | gangrank | legid | coreno | corecnt | dieno | lmap | passes | hmap | coretab | toposeq | topochg
  | cyclo | cychi | flog | kpol | xmode | ksamp | ksticky | kerr | wl | splseed | tcfg | acstat | mten | mtol
  | pwallow | thallow | step | energy | crewst | trapinfo
  deriving DecidableEq, Repr

/-! ## Decoded fields, one structure for each shape of encoding -/

/-- TRAIL (R70): hints and the prefetch displacement. -/
structure TrailA where
  wait : BitVec 12
  setf : Option (Fin 12)
  pfd  : BitVec 24
  deriving DecidableEq, Repr

/-- An instruction with no operand. -/
structure NoA where
  h : Hdr
  deriving DecidableEq, Repr

/-- A branch in the wide displacement form (R71). -/
structure BrA where
  h : Hdr
  disp : BitVec 24
  deriving DecidableEq, Repr

/-- LOOP and CALL: a scalar destination and a displacement. -/
structure BrDA where
  h : Hdr
  d : Opnd
  disp : BitVec 24
  deriving DecidableEq, Repr

/-- One source and no destination (BRX, RET, LIMSET's source, TRAP). -/
structure SrcA where
  h : Hdr
  a : Opnd
  deriving DecidableEq, Repr

/-- One destination and no source (SPLQ). -/
structure DstA where
  h : Hdr
  d : Opnd
  deriving DecidableEq, Repr

/-- A destination and one source. -/
structure UnA where
  h : Hdr
  d : Opnd
  a : Opnd
  deriving DecidableEq, Repr

/-- A destination and two sources. -/
structure BinA where
  h : Hdr
  d : Opnd
  a : Opnd
  b : Opnd
  deriving DecidableEq, Repr

/-- Scalar two-source operations (chapter 5, Table 7). -/
structure SBinA where
  h : Hdr
  d : Opnd
  a : Opnd
  b : Opnd
  zx : Bool
  u : Bool
  deriving DecidableEq, Repr

/-- Scalar and vector moves: one source with a zero-extension bit. -/
structure MovA where
  h : Hdr
  d : Opnd
  a : Opnd
  zx : Bool
  deriving DecidableEq, Repr

/-- Bit-field instructions: position, length − 1 and the sign bit. -/
structure BfA where
  h : Hdr
  d : Opnd
  a : Opnd
  pos : BitVec 5
  lenM1 : BitVec 5
  sgn : Bool
  deriving DecidableEq, Repr

/-- SCMP and VCMP: the destination predicate index, the condition and two sources. -/
structure CmpA where
  h : Hdr
  cond : Cond
  d : Fin 8
  a : Opnd
  b : Opnd
  zx : Bool
  deriving DecidableEq, Repr

/-- SSEL and VSEL: two sources and the selecting predicate. -/
structure SelA where
  h : Hdr
  d : Opnd
  a : Opnd
  b : Opnd
  c : Fin 8
  neg : Bool
  zx : Bool
  deriving DecidableEq, Repr

/-- PLOG. -/
structure PlogA where
  h : Hdr
  fn : PFn
  q : Bool
  d : Fin 8
  a : Fin 8
  b : Fin 8
  deriving DecidableEq, Repr

/-- PMOV: the operands named by the form (chapter 5, Table 10). -/
inductive PMovOps where
  | p (d a : Fin 8)
  | fromv (d : Fin 8) (a : Opnd)
  | froms (d : Fin 8) (a : Fin 126)
  | tos (d : Fin 126) (a : Fin 8)
  | q (d a : Fin 8)
  deriving DecidableEq, Repr

/-- PMOV. -/
structure PmovA where
  h : Hdr
  ops : PMovOps
  deriving DecidableEq, Repr

/-- PANY and PALL. -/
structure PqA where
  h : Hdr
  d : Fin 8
  a : Fin 8
  deriving DecidableEq, Repr

/-- PCNT and BALLOT sources: a register destination and a predicate. -/
structure PsA where
  h : Hdr
  d : Opnd
  a : Fin 8
  deriving DecidableEq, Repr

/-- A pointer triple: three scalar registers for the group, or three vector registers per lane (R34). -/
inductive Triple where
  | s (n : Fin 126)
  | v (n : Fin 254)
  deriving DecidableEq, Repr

/-- PADD. -/
structure PaddA where
  h : Hdr
  d : Triple
  a : Triple
  b : Opnd
  deriving DecidableEq, Repr

/-- PTAG. -/
structure PtagA where
  h : Hdr
  d : Triple
  a : Triple
  b : Opnd
  space : BitVec 4
  deriving DecidableEq, Repr

/-- PFLD. -/
structure PfldA where
  h : Hdr
  field : PField
  d : Opnd
  a : Triple
  deriving DecidableEq, Repr

/-- PCMP: the q index (without V) or the p index (with V). -/
structure PcmpA where
  h : Hdr
  cond : Cond
  d : Fin 8
  a : Triple
  b : Triple
  deriving DecidableEq, Repr

/-- Vector integer instructions (R122). -/
structure VA where
  h : Hdr
  d : Opnd
  a : Opnd
  b : Opnd
  zx : Bool
  u : Bool
  elem : ElemW
  sat : Bool
  ub : Bool
  deriving DecidableEq, Repr

/-- Vector floating-point instructions (R123). -/
structure FA where
  h : Hdr
  d : Opnd
  a : Opnd
  b : Opnd
  rm : RMode
  typ : FType
  sat : Bool
  na : Bool
  nc : Bool
  deriving DecidableEq, Repr

/-- FCMP. -/
structure FcmpA where
  h : Hdr
  cond : FCond
  d : Fin 8
  a : Opnd
  b : Opnd
  deriving DecidableEq, Repr

/-- CVT and CVTEF (R124). `b` is CVTEF's residual destination and `zero` for CVT. -/
structure CvtA where
  h : Hdr
  d : Opnd
  a : Opnd
  b : Opnd
  src : Fmt
  dst : Fmt
  rm : RMode
  sat : Bool
  eix : BitVec 3
  deriving DecidableEq, Repr

/-- QBLK and DQBLK (R126). -/
structure BlkA where
  h : Hdr
  d : Opnd
  a : Opnd
  b : Opnd
  w : BitVec 4
  rm : RMode
  deriving DecidableEq, Repr

/-- UNPK4. -/
structure UnpkA where
  h : Hdr
  d : Opnd
  a : Opnd
  f : Bool
  idx : BitVec 3
  deriving DecidableEq, Repr

/-- SHFL. -/
structure ShflA where
  h : Hdr
  mode : ShMode
  seg : Fin 6
  d : Opnd
  a : Opnd
  b : Opnd
  deriving DecidableEq, Repr

/-- VBCAST. -/
structure BcastA where
  h : Hdr
  seg : Fin 6
  d : Opnd
  a : Opnd
  b : Opnd
  deriving DecidableEq, Repr

/-- VRED and VSCAN. -/
structure RedA where
  h : Hdr
  op : RedOp
  seg : Fin 6
  rm : RMode
  excl : Bool
  d : Opnd
  a : Opnd
  deriving DecidableEq, Repr

/-- BALLOT. -/
structure BallotA where
  h : Hdr
  seg : Fin 6
  d : Opnd
  a : Fin 8
  deriving DecidableEq, Repr

/-- LD, LDG and LDS (chapter 7, Table 9). `lsel` 0 is demand, 1–6 name wl1–wl6, 7 takes the limit from `b`, and then `ofs8`
is the offset in widths. -/
structure LdA where
  h : Hdr
  d : Opnd
  a : Triple
  b : Opnd
  width : Width
  acq : Bool
  scope : Scope
  train : Bool
  fp : Bool
  pmode : PMode
  slot : Fin 4
  lsel : Fin 8
  ofs8 : BitVec 8
  deriving DecidableEq, Repr

/-- ST, STG and STS. -/
structure StA where
  h : Hdr
  d : Opnd
  a : Triple
  b : Opnd
  width : Width
  rel : Bool
  scope : Scope
  deriving DecidableEq, Repr

/-- PREF. -/
structure PrefA where
  h : Hdr
  home : Bool
  a : Triple
  b : Opnd
  deriving DecidableEq, Repr

/-- LIMSET. -/
structure LimA where
  h : Hdr
  n : Fin 7
  a : Opnd
  deriving DecidableEq, Repr

/-- The register or predicate a guess instruction names. -/
inductive KReg where
  | r (x : Opnd)
  | p (i : Fin 8)
  deriving DecidableEq, Repr

/-- KTEST: `anyLane` writes q, otherwise p. -/
structure KtestA where
  h : Hdr
  anyLane : Bool
  d : Fin 8
  a : KReg
  deriving DecidableEq, Repr

/-- KDEMAND, KACCEPT, KABANDON and KMARK. -/
structure KsetA where
  h : Hdr
  d : KReg
  deriving DecidableEq, Repr

/-- KSTAT. -/
structure KstatA where
  h : Hdr
  fn : KFn
  d : Fin 128
  a : Opnd
  deriving DecidableEq, Repr

/-- The token instructions but TKQUERY (R196). `d` is the status q register. -/
structure TkA where
  h : Hdr
  hc : HC
  d : Option (Fin 7)
  a : Fin 126
  b : Opnd
  deriving DecidableEq, Repr

/-- TKQUERY: `self` is none for the entry form. -/
structure TkqA where
  h : Hdr
  self : Option HC
  d : Fin 128
  a : Fin 126
  deriving DecidableEq, Repr

/-- ATOM and ATOMS (R214). -/
structure AtomA where
  h : Hdr
  op : AtomOp
  d : Opnd
  a : Fin 126
  b : Opnd
  dbl : Bool
  zx : Bool
  ord : Ord
  scope : Scope
  cmp : Opnd
  deriving DecidableEq, Repr

/-- BAR and GBAR. -/
structure BarA where
  h : Hdr
  n : Fin 4
  deriving DecidableEq, Repr

/-- WPARR. -/
structure WparrA where
  h : Hdr
  scope : Scope
  d : Opnd
  a : Fin 126
  deriving DecidableEq, Repr

/-- WPWAIT and WAITA. `cond` is none for WPWAIT. -/
structure WaitA where
  h : Hdr
  cond : WCond
  scope : Scope
  zx : Bool
  lsel : Fin 7
  d : Opnd
  a : Fin 126
  b : Opnd
  deriving DecidableEq, Repr

/-- FENCE. -/
structure FenceA where
  h : Hdr
  ord : Ord
  scope : Scope
  deriving DecidableEq, Repr

/-- TLD and TST (chapter 11, Table 8). -/
structure TileMemA where
  h : Hdr
  aon : Bool
  scope : Scope
  lsel : Fin 7
  status : Option (Fin 7)
  t : Fin 16
  a : Fin 126
  b : Opnd
  deriving DecidableEq, Repr

/-- TZERO, TMOV and TXP. -/
structure TileA where
  h : Hdr
  d : Fin 16
  a : Fin 16
  deriving DecidableEq, Repr

/-- MTASK. -/
structure MtaskA where
  h : Hdr
  op : TaskOp
  ta : Bool
  tb : Bool
  acc : Bool
  d : Fin 32
  a : Fin 16
  b : Fin 16
  shape : Opnd
  deriving DecidableEq, Repr

/-- MTASKM: offset and count. -/
structure MtaskmA where
  h : Hdr
  a : Opnd
  b : Opnd
  deriving DecidableEq, Repr

/-- A bank selector (R256). -/
inductive BankSel where
  | a (n : Fin 32)
  | s (n : Fin 128)
  deriving DecidableEq, Repr

/-- ACALLOC and ACFREE. -/
structure AcMaskA where
  h : Hdr
  d : Option (Fin 7)
  a : Opnd
  deriving DecidableEq, Repr

/-- ACBAND. -/
structure AcBandA where
  h : Hdr
  d : BankSel
  a : Opnd
  b : Opnd
  deriving DecidableEq, Repr

/-- ACDRAIN and ACLOAD: `r` is the register (destination or source). -/
structure AcMoveA where
  h : Hdr
  bank : BankSel
  r : Opnd
  win : Opnd
  w : Fin 4
  i : Bool
  deriving DecidableEq, Repr

/-- ACZERO. -/
structure AcZeroA where
  h : Hdr
  d : BankSel
  a : Opnd
  deriving DecidableEq, Repr

/-- ACSCALE. -/
structure AcScaleA where
  h : Hdr
  d : BankSel
  a : BankSel
  b : Opnd
  sc : Opnd
  f : BitVec 5
  nM1 : BitVec 5
  deriving DecidableEq, Repr

/-- MSTAT. -/
structure MstatA where
  h : Hdr
  item : MItem
  clr : Bool
  d : Fin 128
  deriving DecidableEq, Repr

/-- MCHECK: `a` is none for .SELF. -/
structure McheckA where
  h : Hdr
  d : Opnd
  a : Option BankSel
  deriving DecidableEq, Repr

/-- COPY (R284). -/
structure CopyA where
  h : Hdr
  m : Bool
  cw : Bool
  cdst : Bool
  scope : Scope
  d : Fin 126
  a : Fin 126
  b : Opnd
  c : Fin 126
  deriving DecidableEq, Repr

/-- MSEND (R292). -/
structure MsendA where
  h : Hdr
  d : Option (Fin 7)
  sp : Bool
  tag : Bool
  wordsM1 : BitVec 6
  a : Opnd
  b : Opnd
  tagv : Opnd
  deriving DecidableEq, Repr

/-- RINGSET (R291). -/
structure RingA where
  h : Hdr
  d : Option (Fin 7)
  ring : Fin 8
  a : Opnd
  b : Opnd
  deriving DecidableEq, Repr

/-- ARM (R293). -/
structure ArmA where
  h : Hdr
  d : Option (Fin 7)
  a : Fin 126
  b : Fin 126
  tag : Opnd
  deriving DecidableEq, Repr

/-- A status register and one source: DISARM, ASGO. -/
structure St1A where
  h : Hdr
  d : Option (Fin 7)
  a : Opnd
  deriving DecidableEq, Repr

/-- ASDEF. -/
structure AsdefA where
  h : Hdr
  d : Option (Fin 7)
  stream : Fin 8
  a : Opnd
  deriving DecidableEq, Repr

/-- QPOP (R299). -/
structure QpopA where
  h : Hdr
  vec : Bool
  d : Opnd
  queue : Fin 8
  fp : Bool
  pmode : PMode
  slot : Fin 4
  lsel : Fin 7
  deriving DecidableEq, Repr

/-- GATTACH. -/
structure GattA where
  h : Hdr
  d : Option (Fin 7)
  a : Opnd
  b : Opnd
  deriving DecidableEq, Repr

/-- GDETACH. -/
structure GdetA where
  h : Hdr
  d : Option (Fin 7)
  deriving DecidableEq, Repr

/-- SRD. -/
structure SrdA where
  h : Hdr
  sel : SReg
  d : Opnd
  idx : Opnd
  deriving DecidableEq, Repr

/-- SWR. -/
structure SwrA where
  h : Hdr
  sel : SReg
  a : Opnd
  idx : Opnd
  deriving DecidableEq, Repr

/-- TRAP. -/
structure TrapA where
  h : Hdr
  code : BitVec 8
  deriving DecidableEq, Repr

/-- SPAWN. -/
structure SpawnA where
  h : Hdr
  d : Option (Fin 7)
  a : Fin 249
  disp : BitVec 24
  deriving DecidableEq, Repr

/-- LAUNCH. -/
structure LaunchA where
  h : Hdr
  d : Option (Fin 7)
  a : Fin 126
  b : Opnd
  deriving DecidableEq, Repr

/-- TBINV. -/
structure TbinvA where
  h : Hdr
  ctx : Opnd
  a : Fin 126
  k : Opnd
  deriving DecidableEq, Repr

/-- PLACEW. -/
structure PlacewA where
  h : Hdr
  d : Option (Fin 7)
  key : Opnd
  entry : Opnd
  deriving DecidableEq, Repr

/-- The first operand of FINJ: a key, or the pointer triple of .POISON. -/
inductive FinjOp where
  | key (a : Opnd)
  | triple (n : Fin 126)
  deriving DecidableEq, Repr

/-- FINJ. -/
structure FinjA where
  h : Hdr
  kind : FKind
  a : FinjOp
  b : Opnd
  deriving DecidableEq, Repr

/-! ## Data of the other steps -/

/-- A counted unit (R346, Table 1). Cores are numbered die × 192 + core. -/
inductive UnitId where
  | lane (core : Nat) (lane : Fin 32)
  | strip (core : Nat) (strip : Fin 8)
  | core (core : Nat)
  | slice (die : Fin 4) (slice : Fin 64)
  | port (n : Fin 32)
  | bnd (die : Fin 4) (group : Nat)
  deriving DecidableEq, Repr

/-- A management datagram (R382, R383): the address and the UDP port it is sent to, its header fields as sent, its payload and its tag. -/
structure Dgram where
  dst : BitVec 32
  udp : BitVec 16
  ver : BitVec 8
  op : BitVec 8
  len : BitVec 16
  seq : BitVec 64
  status : BitVec 8
  payload : List Byte
  tag : List Byte
  deriving DecidableEq, Repr

/-- Where an uncorrected error lies: a lane of a v, o, l or p register or a scalar register of a group slot, a word of a crew's scratchpad,
an element of an accumulator bank, a word of a tile, a byte of a line of the core's L1, a 128-byte line at home. -/
inductive ErrLoc where
  | vreg (slot : Nat) (r : Fin 256) (lane : Nat)
  | oreg (slot : Nat) (r : Fin 8) (lane : Nat)
  | lreg (slot : Nat) (r : Fin 4) (lane : Nat)
  | preg (slot : Nat) (r : Fin 7) (lane : Nat)
  | sreg (slot : Nat) (n : Nat)
  | scratch (ctx crew word : Nat)
  | bank (n row col : Nat)
  | tile (n word : Nat)
  | l1 (pa : Nat)
  | home (line : Nat)
  deriving DecidableEq, Repr

/-- A frame the management port received (R382, R383). -/
inductive Frame where
  | dgram (x : Dgram)
  | arp (ip : BitVec 32) (replyTo : BitVec 48)
  | echo (dst src : BitVec 32) (data : List Byte)
  | lease (ip : BitVec 32) (prefixLen : Nat)
  deriving DecidableEq, Repr

/-- An inbound PCI Express request (R377): the root port, the requester, the local address, and a posted write's data or the byte
count of a read; `peer` says that it names what lies below the other root port (R376). `admitted` is the context slot under which a read that
waits was admitted (R378) with the number of its arrival; a request that arrives has none. -/
structure Tlp where
  port : Fin 2
  bus : BitVec 8
  dev : BitVec 5
  func : BitVec 3
  addr : Nat
  relaxed : Bool
  wr : Option (List Byte)
  len : Nat
  peer : Bool
  admitted : Option (Nat × Nat)
  deriving DecidableEq, Repr

/-- A boot image as the ROM or a firmware commit sees it: the bytes and the leaf index of its XMSS signature (R380). -/
structure Image where
  bytes : List Byte
  leaf : Nat
  sig : List Byte
  deriving DecidableEq, Repr

/-- The steps of the module: one constructor for each row of the opcode table. -/
inductive Instr where
  -- chapter 5
  | nop (x : NoA)
  | trail (x : TrailA)
  | bra (x : BrA)
  | brd (x : BrA)
  | brx (x : SrcA)
  | call (x : BrDA)
  | ret (x : SrcA)
  | loop (x : BrDA)
  | splq (x : DstA)
  | exit (x : NoA)
  | sadd (x : SBinA)
  | ssub (x : SBinA)
  | smul (x : SBinA)
  | smulh (x : SBinA)
  | smad (x : SBinA)
  | sdiv (x : SBinA)
  | sand (x : SBinA)
  | sor (x : SBinA)
  | sxor (x : SBinA)
  | sshl (x : SBinA)
  | sshr (x : SBinA)
  | ssar (x : SBinA)
  | smin (x : SBinA)
  | smax (x : SBinA)
  | sabs (x : UnA)
  | smov (x : MovA)
  | ssel (x : SelA)
  | scmp (x : CmpA)
  | spopc (x : UnA)
  | sclz (x : UnA)
  | sbfe (x : BfA)
  | sbfi (x : BfA)
  | plog (x : PlogA)
  | pmov (x : PmovA)
  | pany (x : PqA)
  | pall (x : PqA)
  | pcnt (x : PsA)
  | padd (x : PaddA)
  | ptag (x : PtagA)
  | pfld (x : PfldA)
  | pcmp (x : PcmpA)
  -- chapter 6
  | vadd (x : VA)
  | vsub (x : VA)
  | vmul (x : VA)
  | vmulh (x : VA)
  | vmad (x : VA)
  | vand (x : VA)
  | vor (x : VA)
  | vxor (x : VA)
  | vnot (x : VA)
  | vshl (x : VA)
  | vshr (x : VA)
  | vsar (x : VA)
  | vmin (x : VA)
  | vmax (x : VA)
  | vabs (x : VA)
  | vneg (x : VA)
  | vcmp (x : CmpA)
  | vsel (x : SelA)
  | vmov (x : VA)
  | vpopc (x : VA)
  | vclz (x : VA)
  | vbfe (x : BfA)
  | vbfi (x : BfA)
  | vdot4 (x : VA)
  | fadd (x : FA)
  | fsub (x : FA)
  | fmul (x : FA)
  | ffma (x : FA)
  | fmin (x : FA)
  | fmax (x : FA)
  | fcmp (x : FcmpA)
  | fclass (x : UnA)
  | fscale (x : FA)
  | frnd (x : FA)
  | fdot2 (x : FA)
  | frcp (x : UnA)
  | frsq (x : UnA)
  | fsqrt (x : UnA)
  | fexp2 (x : UnA)
  | flog2 (x : UnA)
  | fsin (x : UnA)
  | fcos (x : UnA)
  | ftanh (x : UnA)
  | cvt (x : CvtA)
  | cvtef (x : CvtA)
  | qblk (x : BlkA)
  | dqblk (x : BlkA)
  | pack4 (x : BinA)
  | unpk4 (x : UnpkA)
  | shfl (x : ShflA)
  | vbcast (x : BcastA)
  | vred (x : RedA)
  | vscan (x : RedA)
  | ballot (x : BallotA)
  -- chapter 7
  | ld (x : LdA)
  | st (x : StA)
  | lds (x : LdA)
  | sts (x : StA)
  | ldg (x : LdA)
  | stg (x : StA)
  | ldl (x : BinA)
  | stl (x : BinA)
  | pref (x : PrefA)
  | limset (x : LimA)
  -- chapter 8
  | ktest (x : KtestA)
  | kdemand (x : KsetA)
  | kaccept (x : KsetA)
  | kabandon (x : KsetA)
  | kmark (x : KsetA)
  | kstat (x : KstatA)
  -- chapter 9
  | tklend (x : TkA)
  | tkret (x : TkA)
  | tktake (x : TkA)
  | tksplit (x : TkA)
  | tkjoin (x : TkA)
  | tkshare (x : TkA)
  | tkunshare (x : TkA)
  | tkhome (x : TkA)
  | tkunhome (x : TkA)
  | tkquery (x : TkqA)
  | tkadopt (x : TkA)
  -- chapter 10
  | atom (x : AtomA)
  | atoms (x : AtomA)
  | bar (x : BarA)
  | gbar (x : BarA)
  | wparr (x : WparrA)
  | wpwait (x : WaitA)
  | waita (x : WaitA)
  | fence (x : FenceA)
  -- chapters 11 and 12
  | tld (x : TileMemA)
  | tst (x : TileMemA)
  | tzero (x : TileA)
  | tmov (x : TileA)
  | txp (x : TileA)
  | mtask (x : MtaskA)
  | mtaskm (x : MtaskmA)
  | acalloc (x : AcMaskA)
  | acfree (x : AcMaskA)
  | acband (x : AcBandA)
  | acdrain (x : AcMoveA)
  | acload (x : AcMoveA)
  | aczero (x : AcZeroA)
  | acscale (x : AcScaleA)
  | mstat (x : MstatA)
  | mcheck (x : McheckA)
  -- chapter 13
  | copy (x : CopyA)
  | msend (x : MsendA)
  | ringset (x : RingA)
  | arm (x : ArmA)
  | disarm (x : St1A)
  | asdef (x : AsdefA)
  | asgo (x : St1A)
  | asstop (x : UnA)
  | qpop (x : QpopA)
  | gattach (x : GattA)
  | gdetach (x : GdetA)
  -- chapter 15
  | srd (x : SrdA)
  | swr (x : SwrA)
  | trap (x : TrapA)
  | spawn (x : SpawnA)
  | launch (x : LaunchA)
  | tbinv (x : TbinvA)
  | placew (x : PlacewA)
  | finj (x : FinjA)
  -- steps that are no instruction of a code image
  | groupPick (core : Nat)
  | runLimitEnd (core slot : Nat)
  | icacheLineArrival (core : Nat)
  | resultLanding (core slot id : Nat)
  | limitExpiry (core op : Nat)
  | loadLanding (core op : Nat)
  | lateValueArrival (core op : Nat)
  | pageWalkComplete (quad walk : Nat)
  | accessCheckComplete (core op : Nat)
  | storeBufferDrain (ctx crew : Nat)
  | barArrivalRegister (core op : Nat)
  | gbarArrivalRegister (core op : Nat)
  | monitorReread (core op : Nat)
  | waitLimitExpiry (core op : Nat)
  | aonLimitExpiry (core op : Nat)
  | tokenOpAtHome (core op : Nat)
  | tktakeComplete (core op : Nat)
  | lentStallRelease (core op : Nat)
  | tileOpComplete (core op : Nat)
  | taskStart (core task : Nat)
  | taskComplete (core task : Nat)
  | engineSelfTest (core engine : Nat)
  | engineFaultPause (core eslot : Nat)
  | engineOpComplete (core eslot : Nat)
  | packetNack (core packet : Nat) (unserved : List Nat)
  | packetResend (core packet : Nat)
  | messageArrival (core packet : Nat)
  | taggedMessageArrival (core packet : Nat)
  | streamElementRead (core stream : Nat)
  | streamElementArrival (core stream elem : Nat)
  | gdetachComplete (core op : Nat)
  | crewExitRelease (ctx crew : Nat)
  | legAdmission (ctx : Nat)
  | crewStart (ctx crew : Nat)
  | gangReservation (ctx gang : Nat)
  | legComplete (ctx leg : Nat)
  | preemptDeadlineExpiry (ctx quad : Nat)
  | quiescePoint (core : Nat)
  | crewSave (ctx crew : Nat)
  | errorEvent (u : UnitId) (corrected : Bool) (loc : Option ErrLoc)
  | errorWindowExpiry (die : Nat)
  | coreLoss (core : Nat)
  | crewRelaunch (ctx crew : Nat)
  | grantUpdate (quad : Nat) (grants : List (BitVec 8))
  | groupUnpark (core : Nat)
  | stepRaise (quad : Nat)
  | stepLower (quad : Nat)
  | voltageFall (quad : Nat)
  | gddrTempReport (dev : Nat) (celsius : BitVec 8)
  | thermalCapStep (quad : Nat) (junctions : List (BitVec 8))
  | quadrantJoin (quad : Nat) (junctions : List (BitVec 8))
  | quadrantCalibrated (quad : Nat)
  | powerUp (stages : List Image)
  | faultRecordWrite (ctx : Nat)
  | faultRecordEnable (ctx : Nat) (val : Word)
  | contextReset (ctx : Nat)
  | preemptRequest (ctx : Nat)
  | queueLeg (ctx hart : Nat) (val : Word)
  | hostTbinv (ctx : Nat) (val : Word)
  | tlbInvalidateComplete (inv : Nat)
  | placeValueWrite (ctx : Nat) (val : Word)
  | tokenOwn (ctx hart : Nat) (val : Word)
  | tokenRelease (ctx hart : Nat) (val : Word)
  | tokenHome (ctx hart : Nat) (val : Word)
  | tokenUnhome (ctx hart : Nat) (val : Word)
  | debugStep (ctx : Nat) (val : Word)
  | resumeGroup (ctx : Nat)
  | resumeCore (ctx : Nat)
  | resumeEngine (ctx : Nat)
  | suspendCrew (ctx : Nat)
  | restoreCrew (ctx : Nat)
  | registerWrite (offset : Nat) (val : Word)
  | hostMemoryAccess (hart pa : Nat) (wr : Option (List Byte)) (len : Nat)
  | inboundRequest (x : Tlp)
  | postedWriteRelease (id : Nat)
  | pcieLinkTraining (port : Fin 2) (up : Bool) (rate lanes : Nat) (err : Bool)
  | mgmtAutoNegotiation (up : Bool)
  -- frames of the management port, which wait in the state, and the step of an OPC that Table 8 leaves unassigned
  | mgmtReadTemperatures
  | mgmtReadEvents
  | mgmtSetStepCap
  | mgmtSetHotlim
  | mgmtResetModule
  | mgmtFirmwareChunk
  | mgmtFirmwareCommit
  | mgmtQuote
  | mgmtSetAddress
  | mgmtUnknownOp
  | mgmtArp
  | mgmtIcmpEcho
  | mgmtDhcp
  | unassignedOpcode
  deriving DecidableEq, Repr

end Sys2Proof
end

