-- ==== Sys2Proof/Machine/State.lean ====
section
/-! DEFINITION. The state of one Syron Y1 module as plain data: cores with their groups, contexts with their crews and legs, quadrants,
physical memory, the register window, the management controller, and what is still to happen (`agenda`, `inputs`). The reset
values are those of the rules cited; where the spec gives none, the assumption log names the value. -/

namespace Sys2Proof.Machine

open Sys2Proof

/-! ## Why a step can stop -/

/-- Ways the machine can stop that no rule of the spec describes. -/
inductive Fault where
  /-- Raised by every instruction of a code image when no group stands at the issue slot. `step` never gives an instruction
  to `exec` in such a state. Safe: nothing is claimed of it. -/
  | noIssuer
  deriving DecidableEq, Repr

/-- A step that the state offers no occasion for. -/
inductive Refusal where
  /-- Raised by no meaning; the dispatcher's name for an instruction without one. Safe. -/
  | notModelled (mnemonic : String)
  /-- Raised by an event when the state holds nothing it could be the event of (a landing with no result in flight, a command
  of a context slot that does not exist). Safe: the module has no such step in such a state. -/
  | notEnabled (event : String)
  deriving DecidableEq, Repr

/-! ## Memory -/

/-- Sparse bytes by address, strictly rising, no byte equal to what an unlisted address reads as. -/
abbrev Memory := List Host.Cell

/-- What an unlisted byte reads as (assumption 2). -/
def Memory.unlisted : Byte := 0

/-! ## Causes (R336, Table 12) -/

/-- A fault cause. -/
inductive Cause where
  | illOp | illEnc | illRun | priv | illPtr | align | page | tableUe | prot | tokNone | tokRo | tokLent | tokOrphan
  | gangGone | kConsume | kFaulted | tileCfg | acmUnalloc | acmBand | ueData | brimUe | topo | trap | brk | preemptKill
  deriving DecidableEq, Repr

/-! ## Registers of a group -/

/-- A register element with its K mark (R75). -/
structure Elem where
  val : Word
  k : Bool
  deriving DecidableEq, Repr

/-- A vector register: one element a lane. -/
abbrev VReg := Vector Elem 96

/-- A predicate register: a value and a K mark a lane. -/
structure PReg where
  val : Lanes
  k : Lanes
  deriving DecidableEq, Repr

/-- A completion flag (R64): whether it is set, the first cycle in which it satisfies a WAIT, and the newest claimant. -/
structure Flag where
  isSet : Bool
  since : Nat
  owner : Nat
  deriving DecidableEq, Repr

/-- A vector register by class and index. -/
inductive VecName where
  | v (n : Nat)
  | o (n : Nat)
  | l (n : Nat)
  deriving DecidableEq, Repr

/-- One register write that will become visible; the last three set or clear marks alone (R177). -/
inductive RegWrite where
  | vec (r : VecName) (mask : Lanes) (x : VReg)
  | sreg (n : Nat) (e : Elem)
  | pred (n : Nat) (mask val k : Lanes)
  | qbit (n : Nat) (b : Bool)
  | xmask (split i : Nat) (w : Word)
  | spec (sel : SReg) (idx : Nat) (w : Word)
  | vmark (r : VecName) (mask : Lanes) (k : Bool)
  | smark (n : Nat) (k : Bool)
  | pmark (n : Nat) (mask : Lanes) (k : Bool)
  deriving DecidableEq, Repr

/-- A result in flight (R62, R63): `due` is the cycle at whose start it becomes visible; `flagSince` the first cycle in which its
flag satisfies a WAIT; `claims` lists the guess lanes a KDEMAND delivers. -/
structure Pend where
  id : Nat
  due : Nat
  ws : List RegWrite
  setf : Option (Fin 12)
  flagSince : Nat
  claims : List (Nat × Nat)
  deriving DecidableEq, Repr

/-- A deferral-stack entry (R106); `at'` is the cycle of its push, which orders the entries of all splits (chapter 15, Table 3c). -/
structure Deferred where
  pc : Word
  f : Lanes
  o : Lanes
  at' : Nat
  deriving DecidableEq, Repr

/-- A live split-table entry (R104). `stack` has its top first; it issues nothing before the cycle `notBefore` and is not ready before `readyFrom`
(chapter 5, Table 4); `runIds` are the results issued in the open run (R70). -/
structure Split where
  pc : Word
  m : Lanes
  o : Lanes
  wait : BitVec 12
  inRun : Bool
  runLen : Nat
  lvalid : BitVec 4
  stack : List Deferred
  notBefore : Nat
  readyFrom : Nat
  runIds : List Nat
  deriving DecidableEq, Repr

/-- A trailer whose flag waits on the results of its run (R70). -/
structure TrailWait where
  flag : Fin 12
  owner : Nat
  ids : List Nat
  deriving DecidableEq, Repr

/-! ## Dead reckoning -/

/-- One lane of a reckon slot (R161). -/
structure RLane where
  v : Word
  d : Word
  valid : Bool
  deriving DecidableEq, Repr

/-- The state of a guessed lane (R164). The value is what the late-value buffer holds. -/
inductive GState where
  | outstanding
  | arrived (val : List Word) (since : Nat)
  | faulted (cause : Cause)
  deriving DecidableEq, Repr

/-- A guessed lane of an open entry; `w` is the width of its access, which for a QPOP is that of its element. -/
structure GLane where
  lane : Nat
  ptr : Ptr
  w : Width
  st : GState
  deriving DecidableEq, Repr

/-- The register an entry names. -/
inductive GDest where
  | vec (r : VecName)
  | s (n : Nat)
  | none
  deriving DecidableEq, Repr

/-- An entry of the open-guess table (R164). `landed` is false while its load is in flight. -/
structure Guess where
  id : Nat
  dest : GDest
  nregs : Nat
  slot : Fin 4
  fp : Bool
  width : Width
  landed : Bool
  lanes : List GLane
  deriving DecidableEq, Repr

/-- A guess to be compared when its true value arrives (R174). -/
structure Sample where
  id : Nat
  lane : Nat
  reg : Nat
  g : Word
  fp : Bool
  deriving DecidableEq, Repr

/-! ## Groups -/

/-- The registers of a group (R104, R105). `s` holds s0–s124; xm0–xm2 read the executing split's mask. -/
structure GRegs where
  v : Vector VReg 256
  o : Vector VReg 8
  l : Vector VReg 4
  s : Vector Elem 125
  p : Vector PReg 7
  q : BitVec 7
  c : Vector Word 64
  flags : Vector Flag 12
  deriving DecidableEq, Repr

/-- The per-group special registers (R74). -/
structure GSpec where
  kpol : Word
  ksamp : Word
  ksticky : Word
  kerr : Vector Word 4
  wl : Vector Word 6
  splseed : BitVec 16
  topochg : Bool
  trapinfo : Vector Word 8
  deriving DecidableEq, Repr

/-- A group context (R104). `recent` holds the results of the last cycle in which one became visible (R63); `kretry` is the PC of a KDEMAND
that K_FAULTED stopped (R176); `ueRegs`, `ueS` and `ueP` are the uncorrectable lanes and registers (R355). -/
structure Group where
  ctx : Nat
  crew : Nat
  pos : Nat
  budget : Nat
  regs : GRegs
  spec : GSpec
  splits : Vector (Option Split) 4
  cur : Option (Fin 4)
  runStart : Nat
  lastE : Nat
  pend : List Pend
  recent : List Pend
  trails : List TrailWait
  slots : Vector (Vector RLane 96) 4
  guesses : List Guess
  samples : List Sample
  guessCount : Nat
  hints : List Word
  parked : Option Nat
  withheld : Nat
  stopped : Bool
  resuming : Bool
  kretry : Option Word
  holdUntil : Nat
  ending : Bool
  ueRegs : List (VecName × Nat)
  ueS : List Nat
  ueP : List (Nat × Nat)
  deriving DecidableEq, Repr

/-! ## Accesses in flight -/

/-- One access of an operation: a lane's pointer with what it carries and what came back, `km` the spill mark of each word read.
`mark` says that its data is marked under FAULT (R171). `lim` is the cycle of its limit, `arr` the cycle its true value arrives in. `direct`
says that a QPOP reads the address itself (R299). -/
structure Acc where
  lane : Nat
  ptr : Ptr
  nbytes : Nat
  data : BitVec 128
  cmp : BitVec 64
  mark : Bool
  lim : Option Nat
  start : Nat
  res : BitVec 128
  km : BitVec 4
  arr : Option Nat
  dlv : Bool
  direct : Bool
  cause : Option Cause
  deriving DecidableEq, Repr

/-- Where an operation stands. -/
inductive Stage where
  /-- Waiting for its checks and its turn (R144, R152). -/
  | check
  /-- Stalled on a LENT region (R187). -/
  | lent
  /-- On its way to a home slice, or waiting there (R194, R201). -/
  | home
  /-- Waiting on a condition: a barrier phase, a monitored word, a hazard. -/
  | waiting
  /-- Performed; its landing is in flight. -/
  | performed
  /-- In the operand log of a stalled core, or logged by a late stop (R144). -/
  | logged
  deriving DecidableEq, Repr

/-- An operation of a group that has issued and not completed. `args` are scalar operands captured at issue, `vargs` a vector
operand captured at issue, `data` the bytes a TLD.AON has read. `acq` says that it has stalled on a LENT region, which makes it an acquire
(R187). -/
structure Op where
  id : Nat
  slot : Nat
  split : Nat
  pc : Word
  ins : Instr
  t : Nat
  active : Lanes
  args : List Word
  vargs : List VReg
  accs : List Acc
  stage : Stage
  setf : Option (Fin 12)
  due : Nat
  limit : Option Nat
  last : Word
  firstRead : Option Nat
  cause : Option Cause
  data : List Byte
  acq : Bool
  deriving DecidableEq, Repr

/-! ## Caches, translations and pins -/

/-- A translation cached by a TLB (R140). -/
structure Tlbe where
  ctx : Nat
  va : Nat
  log2 : Nat
  pa : Nat
  w : Bool
  x : Bool
  h : Bool
  deriving DecidableEq, Repr

/-- A page walk in flight (R140). `keep` says that its fault is kept for a fetch, an engine or an instruction that is no access. -/
structure Walk where
  id : Nat
  core : Nat
  ctx : Nat
  va : Nat
  keep : Bool
  deriving DecidableEq, Repr

/-- The fault of a walk, kept for the one who asked until the cycle after. -/
structure BadWalk where
  ctx : Nat
  va : Nat
  cause : Cause
  at' : Nat
  deriving DecidableEq, Repr

/-- A line of an L1 data cache (R385). `ue` marks the bytes that came from an uncorrectable line of home; `fill` is the cycle its fill lands
in, and `by'` the load and the start of the pass that missed (R154). -/
structure Line where
  ctx : Nat
  va : Nat
  pa : Nat
  data : BitVec 1024
  dirty : Bool
  ue : BitVec 128
  fill : Nat
  by' : Nat × Nat
  deriving DecidableEq, Repr

/-- A region's entry in a token cache (R183): `ready` is the cycle its read from home arrives in. -/
structure TokE where
  ctx : Nat
  base : Nat
  ready : Nat
  deriving DecidableEq, Repr

/-- A share pin in a token cache (R185). -/
structure Pin where
  ctx : Nat
  base : Nat
  holder : Word
  crew : Nat
  deriving DecidableEq, Repr

/-! ## Matrix array -/

/-- A tile register (R229). `ue` lists words with an uncorrectable error (R233). -/
structure Tile where
  cfg : Word
  owner : Option (Nat × Nat)
  data : Memory
  ue : List Nat
  deriving DecidableEq, Repr

/-- The check rectangle of a bank (R254). -/
inductive Rect where
  | rect (m n : Nat)
  | void
  deriving DecidableEq, Repr

/-- An accumulator bank (R254, Table 1). -/
structure Bank where
  data : Vector (Vector Word 64) 32
  owner : Option (Nat × Nat)
  isInt : Bool
  rows : Vector (Option Nat) 32
  rect : Rect
  brimRow : Vector Word 32
  brimCol : Vector Word 64
  pend : Bool
  bad : Bool
  freeing : Bool
  ue : List (Nat × Nat)
  deriving DecidableEq, Repr

/-- A matrix task in a tenant's window (R240). Tiles and bank are physical; `ends` is the cycle it completes in, once started. -/
structure Task where
  id : Nat
  slot : Nat
  crew : Nat
  op : TaskOp
  ta : Bool
  tb : Bool
  acc : Bool
  bank : Nat
  tai : Nat
  tbi : Nat
  m : Nat
  n : Nat
  kk : Nat
  kofs : Nat
  arow : Nat
  bcol : Nat
  flag : Option (Fin 12)
  cword : Option (Nat × Word)
  engine : Nat
  ends : Option Nat
  cancelled : Bool
  deriving DecidableEq, Repr

/-- The MSTAT items of a tenant (R275). -/
structure MStat where
  sticky : BitVec 6
  corr : Word
  terr : Word
  checks : Word
  voids : Word
  tests : Word
  deriving DecidableEq, Repr

/-- An engine of the array: the cycle it is free from, the tasks since its last self-test, and the self-tests still to end, each said
to be forced or not (R247, R276). -/
structure MEngine where
  freeAt : Nat
  count : Nat
  tests : List Bool
  deriving DecidableEq, Repr

/-- A tenant of the array (R227). -/
structure Tenant where
  ctx : Nat
  window : List Task
  sti : BitVec 4
  ulps : BitVec 16
  mstat : MStat
  deriving DecidableEq, Repr

/-- A forced self-test (R276): its operation, the engines still to run, the strips failed so far. -/
structure Forced where
  op : Nat
  todo : List Nat
  failed : BitVec 8
  deriving DecidableEq, Repr

/-! ## Engines, streams and packets -/

/-- A destination of a COPY: the words it has received, the cycle from which its own completion word may be written and whether it is
written (R284). -/
structure Branch where
  dst : Ptr
  got : Nat
  wordAt : Option Nat
  told : Bool
  deriving DecidableEq, Repr

/-- What a packet of a COPY still owes to a branch: the words of the packet the branch has received, the cycle the packet arrives in
(none after a drop, until it is sent again), its drops, the cycle it is sent again in, and whether it is on the escape channel (R286, R287). -/
structure Fork where
  branch : Nat
  got : Nat
  due : Option Nat
  drops : Nat
  back : Nat
  escape : Bool
  deriving DecidableEq, Repr

/-- A packet of a COPY in a core's copy buffer (R285, R286): its first word, the words it carries, the branches it still owes, and the cycle
of the acknowledgement once it owes none. -/
structure Flight where
  id : Nat
  first : Nat
  data : List Word
  forks : List Fork
  acked : Option Nat
  deriving DecidableEq, Repr

/-- A running COPY (R277). `paused` is the fault it stands at (R280); `before` numbers its group's earlier accesses (R278); `from'` is the
cycle its first flit can move in, `sent` the words that have moved and `open'` those among them whose packet has not left; `wordAt` is
the cycle from which its completion word may be written. -/
structure EngOp where
  id : Nat
  slot : Nat
  crew : Nat
  ctx : Nat
  pc : Word
  args : CopyA
  src : Ptr
  words : Nat
  cOff : Nat
  cVal : Word
  branches : List Branch
  from' : Nat
  sent : Nat
  open' : List Word
  flights : List Flight
  paused : Option (Cause × Ptr)
  setf : Option (Fin 12)
  wordAt : Option Nat
  before : List Nat
  deriving DecidableEq, Repr

/-- An element of a queue (R296): the stream it came from, its address, its size code, and a value with its mark or a marker's
cause; neither while its read is in flight. -/
structure QElem where
  id : Nat
  stream : Nat
  ptr : Ptr
  esz : Nat
  val : Option Word
  k : Bool
  cause : Option Cause
  deriving DecidableEq, Repr

/-- A stream (R295). `next` counts the elements generated; `before` numbers its group's accesses before the ASGO (R297). -/
structure Stream where
  slot : Nat
  desc : Vector Word 16
  running : Bool
  finished : Bool
  next : Nat
  before : List Nat
  deriving DecidableEq, Repr

/-- A queue of the affine address engine. -/
structure Queue where
  claim : Option Nat
  elems : List QElem
  deriving DecidableEq, Repr

/-- A message packet of a core (R286, R292): the engine slot it holds, where it goes, the scratchpad offset its payload is still to be
taken from, whether it is in the copy buffer, what it carries, its group's earlier accesses, its drops, and whether it is on the escape
channel. -/
structure Packet where
  id : Nat
  eslot : Nat
  slot : Nat
  crew : Nat
  ctx : Nat
  setf : Option (Fin 12)
  status : Option (Fin 7)
  tag : Option (BitVec 18 × BitVec 16)
  rank : Nat
  ring : Nat
  words : Nat
  take : Option Nat
  sent : Bool
  payload : List Word
  before : List Nat
  drops : Nat
  escape : Bool
  deriving DecidableEq, Repr

/-! ## Cores -/

/-- The caches of a core. -/
structure Caches where
  tlb : List Tlbe
  l1 : List Line
  tok : List TokE
  pins : List Pin
  deriving DecidableEq, Repr

/-- The matrix part of a core. -/
structure Matrix where
  tiles : Vector Tile 16
  banks : Vector Bank 32
  engines : Vector MEngine 2
  tenants : List Tenant
  fenced : BitVec 8
  stripPend : BitVec 8
  forced : List Forced
  deriving DecidableEq, Repr

/-- The cycles from which the units of a core are free (R61). -/
structure Units where
  scalar : Nat
  vec : Nat
  lsu : Nat
  acc : Nat
  deriving DecidableEq, Repr

/-- A core (chapter 1, Table 3). `stalled` is the cycle a stall began in and `stallers` the group slots whose faults the host is to service
(R144); `frozen` is the line an instruction-cache miss waits for (R103); `badWalks` are faults of walks just ended (R140); `flit` is the
last cycle in which the copy engine moved a flit, with the slot it moved it for (R283); `acks` are the cycles in which packets of
operations that are over will be acknowledged (R286). -/
structure Core where
  enabled : Bool
  lmap : BitVec 32
  lanePend : BitVec 32
  exact : Vector Bool 16
  groups : Vector (Option Group) 32
  lastPick : Nat
  units : Units
  allow : Int
  grant : BitVec 8
  energy : Word
  stalled : Option Nat
  stallers : List Nat
  frozen : Option Nat
  slips : Nat
  caches : Caches
  ops : List Op
  mx : Matrix
  eng : Vector (Option EngOp) 64
  streams : Vector (Option Stream) 8
  queues : Vector Queue 8
  packets : List Packet
  badWalks : List BadWalk
  flit : Nat × Nat
  acks : List Nat
  deriving DecidableEq, Repr

/-! ## Quadrants -/

/-- An entry of a frequency log (R365). -/
structure FlogE where
  count : BitVec 64
  seq : BitVec 16
  valid : Bool
  step : BitVec 5
  deriving DecidableEq, Repr

/-- A quadrant: its rail (R362–R363), its temperatures (R366–R368), its shared caches, the walks under way and those that queue (R140).
`raiseAt` is the quadrant cycle in which the raise under way began, `falling` the steps whose voltages the regulator still has to fall to, oldest
first, and `heat` the junctions as last measured, none before the first measurement. -/
structure Quad where
  joined : Bool
  calibrated : Bool
  cur : BitVec 5
  volt : BitVec 5
  raising : Option (BitVec 5)
  raiseAt : Nat
  falling : List (BitVec 5)
  hostCap : BitVec 5
  thermCap : BitVec 5
  hotlim : BitVec 8
  temp : BitVec 8
  cool : BitVec 12
  heat : List (BitVec 8)
  flog : Vector FlogE 64
  flogSeq : BitVec 16
  tlb : List Tlbe
  walks : List Walk
  walkQ : List Walk
  icache : List Nat
  deriving DecidableEq, Repr

/-! ## Contexts -/

/-- The state of a region (R182). -/
inductive RState where
  | free | owned | shared | homed | lent | orphaned
  deriving DecidableEq, Repr

/-- A region with an entry (R178, Table 3). -/
structure Region where
  base : Nat
  k : Nat
  st : RState
  owner : Word
  lender : Word
  shares : Nat
  hcore : Option Nat
  deriving DecidableEq, Repr

/-- Shares a holder has been granted of one region (R185). -/
structure Share where
  base : Nat
  holder : Word
  count : Nat
  deriving DecidableEq, Repr

/-- A store-buffer entry (R352): a 32-byte block of local address and its physical address, its byte mask and bytes. -/
structure SBEntry where
  blk : Nat
  pa : Nat
  mask : BitVec 32
  data : BitVec 256
  deriving DecidableEq, Repr

/-- A crew barrier (R216): the phase and the positions arrived. -/
structure Bar where
  phase : Bool
  arrived : List Nat
  deriving DecidableEq, Repr

/-- A flush that no instruction asked for, under way on a core (R188): the cycle it ends in, and the regions it takes from their owner. -/
structure Flushing where
  core : Nat
  ends : Nat
  bases : List Nat
  deriving DecidableEq, Repr

/-- A crew's place in its gang window (R300). -/
inductive Att where
  | never
  | attached (a b : Nat)
  | detached
  deriving DecidableEq, Repr

/-- A receive ring (R289). -/
structure Ring where
  base : Nat
  cfg : Word
  deriving DecidableEq, Repr

/-- Where a crew stands in its life (R319, R304, R329, R350). `leaving` is an exit whose flushes are under way (R191). -/
inductive CrewSt where
  | waiting
  | resident
  | held
  | leaving
  | suspending
  | suspended (slot : Nat)
  | relaunch
  deriving DecidableEq, Repr

/-- What the model keeps of a suspended group beside its record in memory: the cancelled instructions that issue again at its restore
and the flags they will set, the number of instructions in its open run, the widths of the lanes of its open entries, uncorrectable registers,
and a change of the place table. -/
structure SavedG where
  pos : Nat
  ops : List Op
  pend : List Pend
  trails : List TrailWait
  owners : Vector Nat 12
  runIds : List Nat
  runLen : Nat
  kretry : Option Word
  widths : List (List (Nat × Width))
  ueRegs : List (VecName × Nat)
  ueS : List Nat
  ueP : List (Nat × Nat)
  topo : Bool
  deriving DecidableEq, Repr

/-- What the model keeps of a suspended crew beside its slot: its groups, whether its context was the core's second tenant, the
uncorrectable words of its tiles and banks, the accesses before the ASGO of each of its streams (R297), and the stream and size of each
element of its queues. -/
structure Saved where
  groups : List SavedG
  second : Bool
  tiles : List (Nat × List Nat)
  banks : List (Nat × List (Nat × Nat))
  streams : List (Nat × List Nat)
  elems : List (Nat × List (Nat × Nat))
  deriving DecidableEq, Repr

/-- A crew (chapter 1, Table 7). `gone` holds the latest value of each byte of another module that its stores have sent there (R143);
`flush` is a flush that its start, its exit or its suspension waits for (R188, R190, R191, R193). -/
structure Crew where
  id : Nat
  leg : Nat
  rank : Nat
  gang : Nat
  grank : Nat
  root : Bool
  st : CrewSt
  core : Nat
  dealt : Option Nat
  left : Option Nat
  slots : Vector (Option Nat) 16
  base : Nat
  size : Nat
  scratch : Memory
  spill : List Nat
  ueWords : List Nat
  committed : Bool
  reason : BitVec 4
  rollbacks : Nat
  sbuf : List SBEntry
  gone : List (Nat × Byte)
  flush : Option Flushing
  bars : Vector Bar 4
  gbars : Vector Bar 2
  att : Att
  rings : Vector (Option Ring) 8
  lentPiece : Vector (Option Nat) 8
  kept : Saved
  deriving DecidableEq, Repr

/-- A grant of a launch record (R317). -/
structure Grant where
  ptr : Ptr
  k : Nat
  mode : Fin 3
  deriving DecidableEq, Repr

/-- A launch record as read (R317, Table 1), with its bytes and its constant table. -/
structure LRec where
  bytes : List Byte
  addr : Ptr
  code : Ptr
  entry : Word
  crews : Nat
  gang : Nat
  scr : Nat
  regs : Nat
  grps : Nat
  edges : Nat
  done : Option Ptr
  deal : Option Ptr
  root : Bool
  seqchk : Bool
  seq : Word
  next : Option Ptr
  grants : List Grant
  consts : Vector Word 64
  deriving DecidableEq, Repr

/-- A queued or running leg (R322). `count` replaces the record's crew count when it is not 0 (R342), `consts3` its first three constant
words (R294). `deal` is resolved to physical cores at admission (R350); `flush` is the flush of its grants, which its admission waits for
(R190). -/
structure Leg where
  id : Nat
  lr : LRec
  count : Nat
  consts3 : Option Ptr
  launcher : Word
  pending : Nat
  admitted : Bool
  deal : List (Nat × Nat)
  flush : Option Flushing
  started : Nat
  exited : Nat
  alive : Nat
  status : BitVec 4
  tagEntry : Option (BitVec 16 × Nat)
  deriving DecidableEq, Repr

/-- An armed tag (R293). -/
structure Tag where
  tag : BitVec 16
  crew : Nat
  launcher : Word
  record : Ptr
  ring : Ptr
  done : List Nat
  deriving DecidableEq, Repr

/-- A fault record (R375, Table 2). -/
structure FRec where
  w : Vector Word 8
  deriving DecidableEq, Repr

/-- The writable fields of a context block (R371, Table 1). -/
structure CtxRegs where
  state : BitVec 4
  system : Bool
  preempt : Bool
  en : Bool
  ptroot : Word
  ptrooth : Word
  tokbase : Word
  tokbaseh : Word
  toksz : Word
  savebase : Word
  savebaseh : Word
  frbase : Word
  frbaseh : Word
  frlog2n : Word
  frtail : Word
  frhead : Word
  msiaddr : Word
  msiaddrh : Word
  msidata : Word
  deadline : Word
  qptr0 : Word
  qptr1 : Word
  iptr : Vector Word 3
  ibusy : Bool
  plidx : Word
  plval : Word
  plstat : Bool
  tptr : Vector Word 3
  tbusy : Bool
  tfail : Bool
  tk : BitVec 6
  dscore : BitVec 16
  dsgrp : BitVec 5
  dsspl : BitVec 3
  ctlcore : BitVec 16
  ctlslot : BitVec 6
  ctlarg : Word
  cbusy : Bool
  cfail : Bool
  savelog2n : Word
  deriving DecidableEq, Repr

/-- A context slot of the module. -/
structure Ctx where
  regs : CtxRegs
  place : Vector Word 768
  toposeq : Word
  exact : Bool
  forced : Bool
  votes : Vector (BitVec 5) 16
  regions : List Region
  shares : List Share
  queue : List Leg
  legs : List Leg
  crews : List Crew
  tags : List Tag
  records : List FRec
  frseq : BitVec 16
  nextCrew : Nat
  nextLeg : Nat
  nextGang : Nat
  deadlines : List (Nat × Nat)
  reservations : List (Nat × List Nat)
  deriving DecidableEq, Repr

/-! ## The module -/

/-- A clock domain: a quadrant's cycles, a die's 100 MHz reference clock, a rail's 50 MHz regulator clock, the outside world's. -/
inductive Clk where
  | quad (q : Nat)
  | ref (d : Nat)
  | reg (q : Nat)
  | ext
  deriving DecidableEq, Repr

/-- Something that will happen when its clock reaches `due`. -/
structure Due where
  clk : Clk
  at' : Nat
  ev : Instr
  deriving DecidableEq, Repr

/-- The instruction about to issue (R100). -/
structure Slot where
  core : Nat
  slot : Nat
  split : Fin 4
  deriving DecidableEq, Repr

/-- Something the module sends to the outside world. -/
inductive Output where
  | msi (addr : BitVec 64) (data : Word)
  | aer (port : Fin 2)
  | completion (port : Fin 2) (data : Option (List Byte))
  | peer (x : Tlp)
  | hostRead (hart : Nat) (data : List Byte)
  | hostInterrupt (ctx : Nat)
  | mgmtReply (op : BitVec 8) (seq : BitVec 64) (status : BitVec 8) (payload : List Byte) (tag : List Byte)
  | arpReply (ip : BitVec 32) (mac : BitVec 48)
  | echoReply (dst : BitVec 32) (data : List Byte)
  | machineCheck (die : Nat)
  | remote (core : Nat) (op : Nat)
  | stepReport (issued : Bool)
  deriving DecidableEq, Repr

/-- A posted write held at the ingress (R379). -/
structure Posted where
  id : Nat
  port : Fin 2
  req : BitVec 16
  ctx : Nat
  addr : Nat
  relaxed : Bool
  data : List Byte
  deriving DecidableEq, Repr

/-- A TLB invalidation under way (R343). -/
structure Inv where
  id : Nat
  ctx : Nat
  base : Nat
  log2 : Nat
  asker : Option (Nat × Nat)
  deriving DecidableEq, Repr

/-- A poisoned page table (R141): its address and size, the bytes written since, and the contexts the host has been told of. -/
structure PoisonT where
  base : Nat
  size : Nat
  fresh : List Nat
  told : List Nat
  deriving DecidableEq, Repr

/-- Where a monitored word is read (R221): at home, in a core's L1 or its crew's store buffer, in a scratchpad. -/
inductive Spot where
  | home (pa : Nat)
  | core (c ctx crew va pa : Nat)
  | scratch (ctx crew off : Nat)
  deriving DecidableEq, Repr

/-- A word that an operation of a core monitors, and the values that writes performed there have given it since its last read, each with the
cycle of that core. -/
structure Watch where
  core : Nat
  id : Nat
  spot : Spot
  seen : List (Nat × Word)
  deriving DecidableEq, Repr

/-- An event record (R384, Table 7). -/
structure EvRec where
  unit : BitVec 8
  die : BitVec 8
  number : BitVec 16
  cls : BitVec 8
  count : BitVec 8
  window : Word
  deriving DecidableEq, Repr

/-- The management controller and the boot chain (R380–R384). -/
structure Mgmt where
  flash : List Image
  booted : Bool
  inbox : List Frame
  lastSeq : Option (BitVec 64)
  staged : Memory
  stagedLen : Nat
  counter : Nat
  log : List (List Byte)
  quoted : List (List Byte × List Byte)
  quotes : Nat
  key : Nat
  ip : BitVec 32
  prefixLen : Nat
  isStatic : Bool
  linkUp : Bool
  gddrTemp : Vector (BitVec 8) 32
  gddrDouble : BitVec 32
  deriving DecidableEq, Repr

/-- A root port (R376). -/
structure Pcie where
  up : Bool
  flit : Bool
  rate : Nat
  lanes : Nat
  deriving DecidableEq, Repr

/-- The reliability controllers (R346–R347): events counted in the open window, the windows gone by, the records kept. -/
structure Rel where
  counts : List (UnitId × Nat)
  lasting : List UnitId
  window : Vector Nat 4
  events : List EvRec
  dropped : Nat
  deriving DecidableEq, Repr

/-- What is to happen and when. `free` counts the free values drawn; `ids` names operations; `steps` are the Sextant steps under way, one a core at
most, each with the number of its instruction once that has issued (R114). -/
structure Sched where
  quadClk : Vector Nat 16
  refClk : Vector Nat 4
  regClk : Vector Nat 16
  extClk : Nat
  agenda : List Due
  todo : List Nat
  issue : Option Slot
  inputs : List Instr
  outputs : List Output
  ids : Nat
  free : Nat
  ticks : Nat
  steps : List (Slot × Option Nat)
  deriving DecidableEq, Repr

/-- The module. -/
structure State where
  sch : Sched
  cores : Vector Core 768
  quads : Vector Quad 16
  ctxs : Vector Ctx 16
  mem : Memory
  ueLines : List Nat
  poisoned : List PoisonT
  slices : BitVec 256
  inbound : Vector Word 256
  posted : List Posted
  invs : List Inv
  watch : List Watch
  rel : Rel
  mgmt : Mgmt
  pcie : Vector Pcie 2
  deriving DecidableEq, Repr

/-! ## Reset -/

/-- A clear element. -/
def Elem.zero : Elem := ⟨0, false⟩

/-- A vector register of clear zeros. -/
def VReg.zero : VReg := Vector.replicate 96 Elem.zero

/-- A tile as a tenant finds it (R232). -/
def Tile.reset : Tile := ⟨0, none, [], []⟩

/-- A bank no crew owns. -/
def Bank.reset : Bank :=
  { data := Vector.replicate 32 (Vector.replicate 64 0), owner := none, isInt := false, rows := Vector.replicate 32 none,
    rect := .rect 32 64, brimRow := Vector.replicate 32 0, brimCol := Vector.replicate 64 0, pend := false, bad := false,
    freeing := false, ue := [] }

/-- The matrix part of a core at reset (R228: FENCED is a fuse value; assumption 4). -/
def Matrix.reset : Matrix :=
  { tiles := Vector.replicate 16 Tile.reset, banks := Vector.replicate 32 Bank.reset, engines := Vector.replicate 2 ⟨0, 0, []⟩,
    tenants := [], fenced := 0, stripPend := 0, forced := [] }

/-- A core at reset: LMAP and the core map are fuse values (assumptions 3 and 5); ALLOW and ENERGY as R359 gives; GRANT as
assumption 6. -/
def Core.reset : Core :=
  { enabled := true, lmap := 0xFFFFFFFF, lanePend := 0, exact := Vector.replicate 16 true, groups := Vector.replicate 32 none,
    lastPick := 31, units := ⟨0, 0, 0, 0⟩, allow := 0xFFFFF, grant := 0, energy := 0, stalled := none, stallers := [], frozen := none, slips := 0,
    caches := ⟨[], [], [], []⟩, ops := [], mx := Matrix.reset, eng := Vector.replicate 64 none,
    streams := Vector.replicate 8 none, queues := Vector.replicate 8 ⟨none, []⟩, packets := [], badWalks := [], flit := (0, 63), acks := [] }

/-- A quadrant at module reset (R362, R365, R367, R368): steps 8, caps 19, HOTLIM 95, log entry 0. -/
def Quad.reset : Quad :=
  { joined := false, calibrated := false, cur := 8, volt := 8, raising := none, raiseAt := 0, falling := [], hostCap := 19, thermCap := 19,
    hotlim := 95, temp := 0, cool := 0, heat := [],
    flog := (Vector.replicate 64 ⟨0, 0, false, 0⟩).set 0 ⟨0, 0, true, 8⟩, flogSeq := 0, tlb := [], walks := [], walkQ := [], icache := [] }

/-- A context block at reset (R371, Table 1). -/
def CtxRegs.reset : CtxRegs :=
  { state := 0, system := false, preempt := false, en := false, ptroot := 0, ptrooth := 0, tokbase := 0, tokbaseh := 0, toksz := 0,
    savebase := 0, savebaseh := 0, frbase := 0, frbaseh := 0, frlog2n := 0, frtail := 0, frhead := 0, msiaddr := 0, msiaddrh := 0,
    msidata := 0, deadline := 0xFFFFFFFF, qptr0 := 0, qptr1 := 0, iptr := Vector.replicate 3 0, ibusy := false, plidx := 0, plval := 0,
    plstat := false, tptr := Vector.replicate 3 0, tbusy := false, tfail := false, tk := 0, dscore := 0, dsgrp := 0, dsspl := 7,
    ctlcore := 0, ctlslot := 0, ctlarg := 0, cbusy := false, cfail := false, savelog2n := 0 }

/-- A context slot at reset: an empty place table (R333), TOPOSEQ 1 (Table 11), votes 16 (R362), FORCED 1 during reduced service
(R370). -/
def Ctx.reset : Ctx :=
  { regs := CtxRegs.reset, place := Vector.replicate 768 0, toposeq := 1, exact := false, forced := true,
    votes := Vector.replicate 16 16, regions := [], shares := [], queue := [], legs := [], crews := [], tags := [], records := [],
    frseq := 0, nextCrew := 0, nextLeg := 0, nextGang := 0, deadlines := [], reservations := [] }

/-- The management controller at power-on (assumption 7). -/
def Mgmt.reset : Mgmt :=
  { flash := [], booted := false, inbox := [], lastSeq := none, staged := [], stagedLen := 0, counter := 0, log := [], quoted := [], quotes := 0, key := 0, ip := 0,
    prefixLen := 0, isStatic := false, linkUp := false, gddrTemp := Vector.replicate 32 0, gddrDouble := 0 }

/-- Nothing scheduled, every clock at 0. -/
def Sched.reset : Sched :=
  { quadClk := Vector.replicate 16 0, refClk := Vector.replicate 4 0, regClk := Vector.replicate 16 0, extClk := 0, agenda := [],
    todo := [], issue := none, inputs := [], outputs := [], ids := 0, free := 0, ticks := 0, steps := [] }

/-- The module right after reset. -/
def State.reset : State :=
  { sch := Sched.reset, cores := Vector.replicate 768 Core.reset, quads := Vector.replicate 16 Quad.reset,
    ctxs := Vector.replicate 16 Ctx.reset, mem := [], ueLines := [], poisoned := [], slices := 0, inbound := Vector.replicate 256 0,
    posted := [], invs := [], watch := [], rel := ⟨[], [], Vector.replicate 4 0, [], 0⟩, mgmt := Mgmt.reset,
    pcie := Vector.replicate 2 ⟨false, false, 0, 0⟩ }

end Sys2Proof.Machine
end

