-- ==== Sys2Proof/Machine/Ops.lean ====
section
/-! DEFINITION. The named operations over the state: bytes of a sparse memory, the homes of cores, groups, contexts and crews, the
agenda, fault records, and taking an exception: a stop (R112, R337) and a serviced fault (R144). -/

namespace Sys2Proof.Machine

open Sys2Proof

/-! ## Sparse memory -/

namespace Memory

/-- The byte at an address. -/
def read : Memory → Nat → Byte
  | [], _ => unlisted
  | (k, b) :: m, a => if k = a then b else if a < k then unlisted else read m a

/-- A byte stored, the canonical form kept. -/
def write : Memory → Nat → Byte → Memory
  | [], a, x => if x = unlisted then [] else [(a, x)]
  | (k, b) :: m, a, x =>
    if a < k then (if x = unlisted then (k, b) :: m else (a, x) :: (k, b) :: m)
    else if a = k then (if x = unlisted then m else (a, x) :: m)
    else (k, b) :: write m a x

/-- Addresses strictly rising from above `lo`, and no byte equal to what an unlisted address reads as. -/
def wfFrom (lo : Nat) : Memory → Bool
  | [] => true
  | (k, b) :: m => lo ≤ k && b != unlisted && wfFrom (k + 1) m

/-- The canonical form. -/
def wf (m : Memory) : Bool := wfFrom 0 m

/-- Bytes in ascending address order. -/
def readBytes (m : Memory) (a n : Nat) : List Byte := (List.range n).map fun i => m.read (a + i)

/-- Bytes stored in ascending address order. -/
def writeBytes (m : Memory) (a : Nat) : List Byte → Memory
  | [] => m
  | b :: bs => writeBytes (m.write a b) (a + 1) bs

end Memory

/-- Little-endian bytes as a number. -/
def leNat : List Byte → Nat
  | [] => 0
  | b :: bs => b.toNat + 256 * leNat bs

/-- A number as `n` little-endian bytes. -/
def leBytes : Nat → Nat → List Byte
  | 0, _ => []
  | n + 1, x => BitVec.ofNat 8 x :: leBytes n (x / 256)

namespace Memory

/-- `n` bytes as a little-endian number. -/
def readNat (m : Memory) (a n : Nat) : Nat := leNat (m.readBytes a n)

/-- A little-endian number stored in `n` bytes. -/
def writeNat (m : Memory) (a n x : Nat) : Memory := m.writeBytes a (leBytes n x)

/-- A 32-bit word. -/
def readWord (m : Memory) (a : Nat) : Word := BitVec.ofNat 32 (m.readNat a 4)

/-- A 32-bit word stored. -/
def writeWord (m : Memory) (a : Nat) (x : Word) : Memory := m.writeNat a 4 x.toNat

end Memory

/-! ## Homes of the parts of the state -/

namespace State

/-- A core by its number (die × 192 + core). -/
def core (s : State) (c : Nat) : Core := s.cores[c]?.getD Core.reset

/-- The state with a core replaced. -/
def setCore (s : State) (c : Nat) (k : Core) : State := { s with cores := s.cores.setIfInBounds c k }

/-- The state with a core changed. -/
def modCore (s : State) (c : Nat) (f : Core → Core) : State := s.setCore c (f (s.core c))

/-- A quadrant. -/
def quad (s : State) (q : Nat) : Quad := s.quads[q]?.getD Quad.reset

/-- The state with a quadrant changed. -/
def modQuad (s : State) (q : Nat) (f : Quad → Quad) : State := { s with quads := s.quads.setIfInBounds q (f (s.quad q)) }

/-- A context slot. -/
def ctx (s : State) (n : Nat) : Ctx := s.ctxs[n]?.getD Ctx.reset

/-- The state with a context changed. -/
def modCtx (s : State) (n : Nat) (f : Ctx → Ctx) : State := { s with ctxs := s.ctxs.setIfInBounds n (f (s.ctx n)) }

/-- The state with the schedule changed. -/
def modSch (s : State) (f : Sched → Sched) : State := { s with sch := f s.sch }

end State

/-- The quadrant of a core (R10). -/
def quadOf (c : Nat) : Nat := c / 48

/-- The die of a core. -/
def dieOf (c : Nat) : Nat := c / 192

namespace State

/-- The cycle count of a core's quadrant (R364). -/
def now (s : State) (c : Nat) : Nat := s.sch.quadClk[quadOf c]?.getD 0

/-- A group context of a core. -/
def group? (s : State) (c g : Nat) : Option Group := ((s.core c).groups[g]?).join

/-- The state with a group context replaced. -/
def setGroup (s : State) (c g : Nat) (x : Option Group) : State :=
  s.modCore c fun k => { k with groups := k.groups.setIfInBounds g x }

/-- The state with a group changed. -/
def modGroup (s : State) (c g : Nat) (f : Group → Group) : State := s.setGroup c g ((s.group? c g).map f)

/-- A crew of a context. -/
def crew? (s : State) (ctx id : Nat) : Option Crew := (s.ctx ctx).crews.find? fun k => k.id == id

/-- The state with a crew changed. -/
def modCrew (s : State) (ctx id : Nat) (f : Crew → Crew) : State :=
  s.modCtx ctx fun x => { x with crews := x.crews.map fun k => if k.id = id then f k else k }

/-- A leg of a context, queued or running. -/
def leg? (s : State) (ctx id : Nat) : Option Leg := (s.ctx ctx).legs.find? fun k => k.id == id

/-- The state with a leg changed. -/
def modLeg (s : State) (ctx id : Nat) (f : Leg → Leg) : State :=
  s.modCtx ctx fun x => { x with legs := x.legs.map fun k => if k.id = id then f k else k }

/-- An operation of a core. -/
def op? (s : State) (c id : Nat) : Option Op := (s.core c).ops.find? fun o => o.id == id

/-- The state with an operation changed. -/
def modOp (s : State) (c id : Nat) (f : Op → Op) : State :=
  s.modCore c fun k => { k with ops := k.ops.map fun o => if o.id = id then f o else o }

/-- The state without an operation; what it monitored is watched no more. -/
def dropOp (s : State) (c id : Nat) : State :=
  let s : State := { s with watch := s.watch.filter fun w => w.core != c || w.id != id }
  s.modCore c fun k => { k with ops := k.ops.filter fun o => o.id != id }

/-- The state with an operation added, youngest last. -/
def addOp (s : State) (c : Nat) (o : Op) : State := s.modCore c fun k => { k with ops := k.ops ++ [o] }

/-- The state with an operation put back at the place its number gives it among those of its core. -/
def insertOp (s : State) (c : Nat) (o : Op) : State :=
  s.modCore c fun k => { k with ops := k.ops.filter (fun q => q.id < o.id) ++ [o] ++ k.ops.filter fun q => o.id < q.id }

/-- The Sextant step under way on a core. -/
def stepOn (s : State) (c : Nat) : Option (Slot × Option Nat) := s.sch.steps.find? fun t => t.1.core == c

/-- The Sextant step of a core replaced, or over. -/
def setStep (s : State) (c : Nat) (x : Option (Slot × Option Nat)) : State :=
  s.modSch fun h => { h with steps := h.steps.filter (fun t => t.1.core != c) ++ x.toList }

/-! ## The agenda and the free values -/

/-- The reading of a clock. -/
def clock (s : State) : Clk → Nat
  | .quad q => s.sch.quadClk[q]?.getD 0
  | .ref d => s.sch.refClk[d]?.getD 0
  | .reg q => s.sch.regClk[q]?.getD 0
  | .ext => s.sch.extClk

/-- The state with an event due when a clock reads `t`. -/
def post (s : State) (k : Clk) (t : Nat) (ev : Instr) : State := s.modSch fun h => { h with agenda := h.agenda ++ [⟨k, t, ev⟩] }

/-- An event due in a core's quadrant. -/
def postQ (s : State) (c t : Nat) (ev : Instr) : State := s.post (.quad (quadOf c)) t ev

/-- An event due at once. -/
def postNow (s : State) (ev : Instr) : State := s.post .ext s.sch.extClk ev

/-- Something sent to the outside world. -/
def emit (s : State) (o : Output) : State := s.modSch fun h => { h with outputs := h.outputs ++ [o] }

/-- A fresh operation number. -/
def fresh (s : State) : Nat × State := (s.sch.ids, s.modSch fun h => { h with ids := h.ids + 1 })

/-- A free number, and the state in which it is drawn. -/
def freeNat (s : State) : Nat × State := (Config.freeNat s.sch.free, s.modSch fun h => { h with free := h.free + 1 })

/-- A free datum, and the state in which it is drawn. -/
def freeBits (s : State) : BitVec 128 × State := (Config.freeBits s.sch.free, s.modSch fun h => { h with free := h.free + 1 })

/-- A latency: the table's least figure and a free number more (R27; assumption 9). -/
def latency (s : State) (least : Nat) : Nat × State := let (n, s) := s.freeNat; (least + n, s)

end State

/-! ## Lanes and passes (R16, R17) -/

/-- G, the good lanes of a core. -/
def Core.good (k : Core) : Nat := popc k.lmap

/-- P, the passes of a core. -/
def Core.passes (k : Core) : Nat := (96 + k.good - 1) / max 1 k.good

/-- The pass a logical lane runs in. -/
def Core.passOf (k : Core) (lane : Nat) : Nat := lane / max 1 k.good

/-- The physical lane of a logical lane. -/
def Core.physLane (k : Core) (lane : Nat) : Nat := ((bitsOf k.lmap)[lane % max 1 k.good]?).getD 0

/-! ## Places (R333 to R335) -/

/-- The physical core a place-table entry names, when it is valid. -/
def placeCore (e : Word) : Option Nat :=
  if e.getLsbD 31 then some ((e.extractLsb' 19 2).toNat * 192 + (e.extractLsb' 11 8).toNat) else none

/-- The logical cores of a context in order. -/
def Ctx.places (x : Ctx) : List (Nat × Word) := (x.place.toList.zipIdx.filter fun (e, _) => e.getLsbD 31).map fun (e, i) => (i, e)

/-- CORECNT. -/
def Ctx.corecnt (x : Ctx) : Nat := x.places.length

/-- The physical core of a logical core. -/
def Ctx.physical (x : Ctx) (n : Nat) : Option Nat := (x.place[n]?).bind placeCore

/-- The logical number of a physical core. -/
def Ctx.logical (x : Ctx) (c : Nat) : Option Nat := (x.places.find? fun (_, e) => placeCore e == some c).map (·.1)

/-! ## Causes (Table 12) -/

/-- The code of a cause. -/
def Cause.code : Cause → BitVec 8
  | .illOp => 0x01 | .illEnc => 0x02 | .illRun => 0x03 | .priv => 0x04 | .illPtr => 0x13 | .align => 0x12 | .page => 0x10
  | .tableUe => 0x19 | .prot => 0x11 | .tokNone => 0x14 | .tokRo => 0x15 | .tokLent => 0x16 | .tokOrphan => 0x17
  | .gangGone => 0x18 | .kConsume => 0x20 | .kFaulted => 0x21 | .tileCfg => 0x32 | .acmUnalloc => 0x30 | .acmBand => 0x31
  | .ueData => 0x40 | .brimUe => 0x41 | .topo => 0x61 | .trap => 0x50 | .brk => 0x51 | .preemptKill => 0x60

/-- The rank of a cause; TRAP, BREAK and PREEMPT_KILL have none and come last (R336). -/
def Cause.rank : Cause → Nat
  | .illOp => 1 | .illEnc => 2 | .illRun => 3 | .priv => 4 | .illPtr => 5 | .align => 6 | .page => 7 | .tableUe => 8 | .prot => 9
  | .tokNone => 10 | .tokRo => 11 | .tokLent => 12 | .tokOrphan => 13 | .gangGone => 14 | .kConsume => 15 | .kFaulted => 16
  | .tileCfg => 17 | .acmUnalloc => 18 | .acmBand => 19 | .ueData => 20 | .brimUe => 21 | .topo => 22 | .trap => 23 | .brk => 24
  | .preemptKill => 25

/-- Causes of a demand access that are serviced with a core stall (R144); TOK_LENT stops the group (R186). -/
def Cause.serviced : Cause → Bool
  | .page | .prot | .tokNone | .tokRo | .tokOrphan | .tableUe => true
  | _ => false

/-- The cause of lowest rank among those of the lanes. -/
def worst (cs : List (Nat × Cause)) : Option Cause :=
  cs.foldl (fun b (_, c) => match b with
    | none => some c
    | some d => if c.rank < d.rank then some c else some d) none

/-! ## Faults and their report (R336, R337, R375) -/

/-- What a fault reports. -/
structure Report where
  cause : Cause
  detail : BitVec 8 := 0
  orig : BitVec 8 := 0
  scalar : Bool := false
  cmask : Lanes := 0
  omask : Lanes := 0
  pc : Word := 0
  ptr : Ptr := 0
  deriving DecidableEq, Repr

/-- The report of lanes' causes (R337). -/
def Report.ofLanes (cs : List (Nat × Cause)) (pc : Word) (ptr : Ptr) : Option Report :=
  (worst cs).map fun c =>
    { cause := c, pc := pc, ptr := ptr,
      cmask := maskOf 96 fun l => cs.any fun (m, d) => m == l && d == c,
      omask := maskOf 96 fun l => cs.any fun (m, d) => m == l && d != c }

/-- The lowest lane of a mask, 0 when it is empty. -/
def lowestLane (m : Lanes) : Nat := (bitsOf m).head?.getD 0

/-- TRAPINFO index 0 to 7 (Table 13). -/
def Report.trapinfo (r : Report) : Vector Word 8 :=
  #v[r.detail ++ r.orig ++ BitVec.ofBool r.scalar ++ BitVec.ofNat 7 (lowestLane r.cmask) ++ r.cause.code,
    r.cmask.extractLsb' 0 32, r.cmask.extractLsb' 32 32, r.cmask.extractLsb' 64 32,
    r.omask.extractLsb' 0 32, r.omask.extractLsb' 32 32, r.omask.extractLsb' 64 32, r.pc]

/-- An access that could not start before a cycle: its latency counts from there. -/
def Acc.restart (a : Acc) (now : Nat) : Acc := { a with start := max a.start now }

namespace State

/-- A fault record added to a context's waiting records (R375, Table 2); FAULT_RECORD_WRITE writes it. -/
def record (s : State) (ctx : Nat) (w0 pc : Word) (unit : BitVec 16) (slot : Nat) (id : Word) (ptr : Ptr) (kind : Nat) : State :=
  let x := s.ctx ctx
  let r : FRec :=
    ⟨#v[w0, pc, unit ++ (0#2 ++ BitVec.ofNat 6 slot ++ 0#8), id, ptr.extractLsb' 0 32, ptr.extractLsb' 32 32, ptr.extractLsb' 64 32,
      BitVec.ofNat 3 kind ++ 0#13 ++ x.frseq]⟩
  (s.modCtx ctx fun x => { x with records := x.records ++ [r], frseq := x.frseq + 1 }).postNow (.faultRecordWrite ctx)

/-- The logical number of a core in a context, 0xFFFF when it has none. -/
def coreNo (s : State) (ctx c : Nat) : BitVec 16 := BitVec.ofNat 16 (((s.ctx ctx).logical c).getD 0xFFFF)

/-- CREWID of a crew (Table 6). -/
def crewIdWord (s : State) (ctx id : Nat) : Word :=
  match s.crew? ctx id with
  | some k => BitVec.ofBool k.root ++ 0#11 ++ BitVec.ofNat 20 id
  | none => BitVec.ofNat 32 id

/-- TAKING AN EXCEPTION that stops a group (R112, R337): the group stops with its open run kept, TRAPINFO holds the report, and a
record of KIND 0 goes to the host. The program counter stays at the instruction that the group resumes with. -/
def takeStop (s : State) (c g : Nat) (r : Report) : State :=
  match s.group? c g with
  | none => s
  | some G =>
    let s := s.modGroup c g fun G => { G with stopped := true, resuming := false, spec := { G.spec with trapinfo := r.trapinfo } }
    s.record G.ctx r.trapinfo[0] r.pc (s.coreNo G.ctx c) g (s.crewIdWord G.ctx G.crew) r.ptr 0

/-- TAKING AN EXCEPTION that is serviced (R144): TRAPINFO holds the report, the core stalls from this cycle, and a record of KIND 1
goes to the host. What is logged stays in the core's operations. -/
def takeServiced (s : State) (c g : Nat) (r : Report) : State :=
  match s.group? c g with
  | none => s
  | some G =>
    let s := s.modGroup c g fun G => { G with spec := { G.spec with trapinfo := r.trapinfo } }
    let s := s.modCore c fun k => { k with stalled := some (k.stalled.getD (s.now c)), stallers := g :: k.stallers.filter (· != g) }
    s.record G.ctx r.trapinfo[0] r.pc (s.coreNo G.ctx c) g (s.crewIdWord G.ctx G.crew) r.ptr 1


/-- An operation whose accesses start anew in this cycle. -/
def restartOp (s : State) (c id : Nat) : State := s.modOp c id fun o => { o with accs := o.accs.map fun a => a.restart (s.now c) }

/-- The logged operations of a core asked again from their logged sources (R145), and the lanes of limited loads whose target had left
(R167). -/
def reask (s : State) (c : Nat) (f : Op → Bool) : State :=
  ((s.core c).ops.filter fun o => (o.stage == .logged || o.cause == some .gangGone) && f o).foldl (fun s o =>
    ((s.modOp c o.id fun o =>
      { o with stage := if o.stage = .logged then .check else o.stage, cause := o.cause.filter (· != .gangGone) }).restartOp c o.id).postQ c
        (s.now c + 1) (.accessCheckComplete c o.id)) s

/-- A core that no group's entry stalls any longer goes on, and the accesses it has logged issue again but for those of stopped groups
(R145, R146). -/
def stallOver (s : State) (c : Nat) : State :=
  if (s.core c).stalled.isNone || !(s.core c).stallers.isEmpty then s
  else (s.modCore c fun k => { k with stalled := none }).reask c fun o => !(s.group? c o.slot).any fun G => G.stopped

/-- A group slot no longer stalls its core. -/
def unstall (s : State) (c g : Nat) : State :=
  (s.modCore c fun k => { k with stallers := k.stallers.filter (· != g) }).stallOver c

/-- The return from a stop (R112, R373): the group is no longer stopped and waits for a place among the open runs (R100). -/
def resumeStop (s : State) (c g : Nat) : State := s.modGroup c g fun G => { G with stopped := false, resuming := true }

end State

end Sys2Proof.Machine
end

