-- ==== Sys2Proof/Machine/Rail.lean ====
section
/-! DEFINITION. Steps, votes and rails (R362 to R365): the target of a quadrant's rail, and what sets the rail moving. -/

namespace Sys2Proof.Machine

open Sys2Proof

/-- Whether a crew stands on a core. -/
def Crew.onCore (k : Crew) : Bool :=
  match k.st with
  | .resident | .held | .leaving | .suspending => true
  | _ => false

/-- The cool clusters of a quadrant: those whose hottest junction, as last measured, lies more than 10 °C below the hot limit (R367). -/
def coolOf (heat : List (BitVec 8)) (hotlim : BitVec 8) : BitVec 12 :=
  maskOf 12 fun i => (heat[i]?).any fun j => decide (j.toNat + 10 < hotlim.toNat)

/-- CAP of STEP: 8 in reduced service, else the smaller of the two caps (R368, R370). -/
def Quad.cap (q : Quad) : BitVec 5 := if q.calibrated then (if q.hostCap ≤ q.thermCap then q.hostCap else q.thermCap) else 8

namespace State

/-- The contexts that take part in a rail's vote (R362). -/
def voters (s : State) (q : Nat) : List Nat :=
  (List.range 16).filter fun x => (s.ctx x).crews.any fun k => k.onCore && quadOf k.core == q

/-- A context's vote on a rail. -/
def vote (s : State) (x q : Nat) : BitVec 5 := (s.ctx x).votes[q]?.getD 16

/-- TARGET (R362): CAP in reduced service; then the highest vote of those taking part, 4 with none, within CAP. -/
def target (s : State) (q : Nat) : BitVec 5 :=
  let cap := (s.quad q).cap
  if !(s.quad q).calibrated then cap
  else
    let top := (s.voters q).foldl (fun m x => if m ≤ s.vote x q then s.vote x q else m) 4
    if top ≤ cap then top else cap

/-- A reading of a quadrant's regulator clock. -/
def regNow (s : State) (q : Nat) : Nat := s.clock (.reg q)

/-- R363: a rail that is not at its target starts to move: a raise waits for the voltage, up to 1,024 regulator cycles a step, unless
the held voltage serves it; a lowering comes at once. What comes at once comes with the quadrant's next cycle, and a raise begun in this very
cycle begins anew, so that the votes of one cycle count together (R362). -/
def rail (s : State) (q : Nat) : State :=
  let x := s.quad q
  let t := s.target q
  let now := s.clock (.quad q)
  if !x.joined then s
  else if t < x.cur then (s.modQuad q fun x => { x with raising := none }).post (.quad q) (now + 1) (.stepLower q)
  else if t = x.cur then s.modQuad q fun x => { x with raising := none }
  else if x.raising.isSome && x.raiseAt != now then s
  else
    let s := s.modSch fun h => { h with agenda := h.agenda.filter fun d => d.ev != .stepRaise q }
    let s := s.modQuad q fun x => { x with raising := some t, raiseAt := now }
    if t ≤ x.volt then s.post (.quad q) (now + 1) (.stepRaise q)
    else
      let (n, s) := s.freeNat
      s.post (.reg q) (s.regNow q + n % (1024 * (t.toNat - x.volt.toNat) + 1)) (.stepRaise q)

/-- A step applied to every core of a quadrant in one cycle, with its entry in the frequency log (R365). -/
def applyStep (s : State) (q : Nat) (step : BitVec 5) : State :=
  s.modQuad q fun x =>
    let n := x.flogSeq + 1
    { x with cur := step, flogSeq := n,
             flog := x.flog.setIfInBounds (n.toNat % 64) ⟨BitVec.ofNat 64 (s.clock (.quad q)), n, true, step⟩ }

end State

end Sys2Proof.Machine
end

