-- ==== Sys2Proof/WellFormed.lean ====
section
/-! DEFINITION. Which instructions are well formed: the guard kinds, operand kinds and combinations of fields that R52 to R58 and the
encoding tables of each chapter accept. What only the issuing group can decide (its register budget, its l valid bits) is checked
at issue. -/

namespace Sys2Proof

/-! ## Guards (R54, R73) -/

/-- The unguarded encoding 0b0_0111. -/
def Guard.always : Guard := .p false 7

/-- The guard is unguarded or a q guard. -/
def Guard.okQ (g : Guard) : Bool :=
  match g with
  | .q _ _ => true
  | .p n i => !n && i == 7

/-- The guard is unguarded or a p guard. -/
def Guard.okP (g : Guard) : Bool :=
  match g with
  | .q _ _ => false
  | .p _ _ => true

/-- A guard of the p kind that is not the unguarded encoding. -/
def Guard.isP (g : Guard) : Bool := !g.okQ

/-! ## Operand kinds (R55, R56) -/

namespace Opnd

/-- An s register. -/
def isS : Opnd → Bool
  | .s _ => true
  | _ => false

/-- An s or c register. -/
def isSC : Opnd → Bool
  | .s _ | .c _ => true
  | _ => false

/-- An s register, a c register or zero. -/
def isSCZ : Opnd → Bool
  | .s _ | .c _ | .zero => true
  | _ => false

/-- An s register, a c register or an immediate. -/
def isSCI : Opnd → Bool
  | .s _ | .c _ | .imm _ => true
  | _ => false

/-- An s register, a c register, zero or an immediate. -/
def isSCZI : Opnd → Bool
  | .s _ | .c _ | .zero | .imm _ => true
  | _ => false

/-- An immediate. -/
def isImm : Opnd → Bool
  | .imm _ => true
  | _ => false

/-- A scalar source (R56): s, c, zero, group id or immediate. -/
def srcS : Opnd → Bool
  | .s _ | .c _ | .zero | .gid | .imm _ => true
  | _ => false

/-- A scalar destination: an s register or zero. -/
def dstS : Opnd → Bool
  | .s _ | .zero => true
  | _ => false

/-- A v register. -/
def isV : Opnd → Bool
  | .v _ => true
  | _ => false

/-- A v or o register. -/
def isVO : Opnd → Bool
  | .v _ | .o _ => true
  | _ => false

/-- A v, o or l register, or zero: a short-class vector destination. -/
def dstV : Opnd → Bool
  | .v _ | .o _ | .l _ | .zero => true
  | _ => false

/-- A v or o register, or zero: a long-class vector destination (R68). -/
def dstL : Opnd → Bool
  | .v _ | .o _ | .zero => true
  | _ => false

/-- A v, o or s register. -/
def isVOS : Opnd → Bool
  | .v _ | .o _ | .s _ => true
  | _ => false

/-- A v, o, l or s register. -/
def isVOLS : Opnd → Bool
  | .v _ | .o _ | .l _ | .s _ => true
  | _ => false

/-- A floating-point source: any, but the E4M3 NaN immediates (R57). -/
def fpOk : Opnd → Bool
  | .imm x => x != 0x7F && x != 0xFF
  | _ => true

/-- An immediate whose E4M3 value E5M2 holds exactly. -/
def e5m2Ok : Opnd → Bool
  | .imm x => (x.extractLsb' 3 4 == 0#4) || !x.getLsbD 0
  | _ => true

/-- An s register up to `n`. -/
def sUpTo (n : Nat) : Opnd → Bool
  | .s i => i.val ≤ n
  | _ => false

/-- A v register up to `n`. -/
def vUpTo (n : Nat) : Opnd → Bool
  | .v i => i.val ≤ n
  | _ => false

end Opnd

/-! ## Formats and widths -/

/-- Registers an access of the width moves per lane. -/
def Width.regs : Width → Nat
  | .d => 2
  | .q => 4
  | _ => 1

/-- Bytes an access of the width moves per lane (R155). -/
def Width.bytes : Width → Nat
  | .b | .bs => 1
  | .h | .hs => 2
  | .w => 4
  | .d => 8
  | .q => 16

/-- Sign-extending widths. -/
def Width.signed : Width → Bool
  | .bs | .hs => true
  | _ => false

/-- Bits of a conversion format (R124, Table 10). -/
def Fmt.bits : Fmt → Nat
  | .f32 | .i32 => 32
  | .f16 | .bf16 => 16
  | .e4m3 | .e5m2 | .i8 => 8
  | .i4 => 4

/-- A floating-point format. -/
def Fmt.isFp : Fmt → Bool
  | .f32 | .f16 | .bf16 | .e4m3 | .e5m2 => true
  | _ => false

/-- The conversion pairs CVT accepts. -/
def Fmt.cvtPair (src dst : Fmt) : Bool :=
  match src, dst with
  | .f16, .f32 | .bf16, .f32 | .e4m3, .f32 | .e5m2, .f32 | .i32, .f32 | .i8, .f32 => true
  | .f32, .f16 | .f32, .bf16 | .f32, .e4m3 | .f32, .e5m2 | .f32, .i32 | .f32, .i8 | .f32, .i4 => true
  | _, _ => false

/-- Pairs whose conversion is exact, so that RM must be 0. -/
def Fmt.exactPair (src dst : Fmt) : Bool := dst == .f32 && src != .i32

/-- The element indices a pair of formats has (R124). -/
def Fmt.eixMax (src dst : Fmt) : Nat :=
  match min src.bits dst.bits with
  | 16 => 1
  | 8 => 3
  | 4 => 7
  | _ => 0

/-! ## Special registers (R74, Table 11) -/

/-- Registers SWR may name. -/
def SReg.writable : SReg → Bool
  | .topochg | .kpol | .xmode | .ksamp | .ksticky | .kerr | .wl | .splseed | .tcfg | .mten | .mtol | .step => true
  | _ => false

/-- Registers that take an index. -/
def SReg.indexed : SReg → Bool
  | .hmap | .coretab | .flog | .kerr | .wl | .tcfg | .trapinfo => true
  | _ => false

/-! ## Shapes -/

/-- Scalar two-source operations; `u` says whether .U is allowed. -/
def SBinA.wf (x : SBinA) (u : Bool) : Bool :=
  x.h.grd.okQ && x.d.dstS && x.a.srcS && x.b.srcS && (u || !x.u)

/-- Scalar one-source operations. -/
def UnA.wfS (x : UnA) : Bool := x.h.grd.okQ && x.d.dstS && x.a.srcS

/-- A bit field within the word. -/
def BfA.fits (x : BfA) : Bool := x.pos.toNat + x.lenM1.toNat + 1 ≤ 32

/-- Vector integer instructions: which MOD bits beyond ZX are accepted (R122, Table 5). -/
def VA.wf (x : VA) (zx u elem sat ub two : Bool) : Bool :=
  x.d.dstV && (zx || !x.zx) && (u || !x.u) && (elem || x.elem == .w32) && (sat || !x.sat) && (ub || !x.ub) &&
    (two || x.b == .v 0)

/-- Vector floating-point instructions (R123, Table 7). `fpB` says that B is a floating-point source, `two` that B is one at
all. -/
def FA.wf (x : FA) (rm sat neg two fpB : Bool) : Bool :=
  x.d.dstV && x.a.fpOk && (rm || x.rm == .rne) && (sat || !x.sat) && (neg || (!x.na && !x.nc)) &&
    (if two then !fpB || x.b.fpOk else x.b == .v 0)

/-- Special functions: FP32, a long-class destination. -/
def UnA.wfF (x : UnA) : Bool := x.d.dstL && x.a.fpOk

/-- The reckoning combinations of chapter 7, Table 5. `gather` says that LSEL 7 is allowed. -/
def reckOk (width : Width) (acq train fp : Bool) (pmode : PMode) (slot : Fin 4) (lsel : Nat) (b : Opnd) (gather : Bool) : Bool :=
  (if lsel = 0 then
    if train then width.bytes ≤ 4 && pmode == .last
    else slot == 0 && !fp && pmode == .last
  else
    !train && !acq &&
      (width.bytes ≤ 4 || (slot == 0 && !fp && (pmode == .hold || pmode == .zero)))) &&
  (!fp || width == .w) && (lsel != 7 || (gather && b.isV))

/-- Vector loads; `g` for LDG. -/
def LdA.wfV (x : LdA) (g : Bool) : Bool :=
  (match x.a with
    | .s _ => !g
    | .v _ => g) &&
  (!g || !x.acq) && (x.acq || x.scope == .grp) &&
  (match x.width with
    | .d => x.d.vUpTo 254
    | .q => x.d.vUpTo 252
    | _ => x.d.dstL) &&
  reckOk x.width x.acq x.train x.fp x.pmode x.slot x.lsel.val x.b true && (x.lsel == 7 || x.ofs8 == 0)

/-- Scalar loads. -/
def LdA.wfS (x : LdA) : Bool :=
  (match x.a with
    | .s _ => true
    | .v _ => false) &&
  x.b.isSCZI && (x.acq || x.scope == .grp) &&
  (match x.width with
    | .d => x.d.sUpTo 123
    | .q => x.d.sUpTo 121
    | _ => x.d.sUpTo 124) &&
  reckOk x.width x.acq x.train x.fp x.pmode x.slot x.lsel.val x.b false && x.ofs8 == 0

/-- Vector stores; `g` for STG. -/
def StA.wfV (x : StA) (g : Bool) : Bool :=
  (match x.a with
    | .s _ => !g
    | .v _ => g) &&
  (!g || !x.rel) && (x.rel || x.scope == .grp) && !x.width.signed &&
  (match x.width with
    | .d => x.d.vUpTo 254
    | .q => x.d.vUpTo 252
    | _ => true)

/-- Scalar stores. -/
def StA.wfS (x : StA) : Bool :=
  (match x.a with
    | .s _ => true
    | .v _ => false) &&
  x.b.isSCZI && (x.rel || x.scope == .grp) && !x.width.signed &&
  (match x.d with
    | .s i => match x.width with
      | .d => i.val ≤ 123
      | .q => i.val ≤ 121
      | _ => i.val ≤ 124
    | .c _ | .zero | .imm _ => true
    | _ => false)

/-- Token instructions; `bk` says whether B names something, `all` whether all five classes are allowed. -/
def TkA.wf (x : TkA) (b : Opnd → Bool) (all : Bool) : Bool :=
  x.h.grd.okQ && b x.b && (all || x.hc == .grp || x.hc == .crew || x.hc == .core)

/-- Recipient ids. -/
def TkA.noB (b : Opnd) : Bool := b == .v 0

/-- Atomics: the operands of R214; `s` for ATOMS. -/
def AtomA.wf (x : AtomA) (s : Bool) : Bool :=
  (x.ord != .rlx || x.scope == .grp) && (x.op == .cas || (!x.zx && x.cmp == .v 0)) && (x.op != .fadd || !x.dbl) &&
  (if s then x.b.isSCZI && x.d.sUpTo (if x.dbl then 123 else 124) &&
      (x.op != .cas || (if x.dbl then x.cmp.sUpTo 123 || x.cmp.isImm else x.cmp.isSCZI))
    else (if x.dbl then x.d.vUpTo 254 else x.d.isVO) &&
      (x.op != .cas || !x.dbl || x.cmp.vUpTo 254 || x.cmp.isImm))

/-- Waits. -/
def WaitA.wf (x : WaitA) : Bool := x.h.grd.okQ && x.b.isSCZI && (x.d.sUpTo 124 || x.d == .zero)

/-- A destination sN with N ≤ 124, or zero. -/
def WparrA.wf (x : WparrA) : Bool := x.h.grd.okQ && (x.d.sUpTo 124 || x.d == .zero)

/-- TLD and TST: with .AON a limited TLD names a status; TST has neither. -/
def TileMemA.wf (x : TileMemA) (load : Bool) : Bool :=
  x.h.grd.okQ && x.b.isSCZI && (x.aon || (x.scope == .grp && x.lsel == 0 && x.status.isNone)) &&
    (if load then x.lsel == 0 || x.status.isSome else x.lsel == 0 && x.status.isNone)

/-- CVT. -/
def CvtA.wf (x : CvtA) : Bool :=
  x.d.dstV && x.b == .v 0 && x.src.cvtPair x.dst && (!x.src.isFp || x.a.fpOk) && (x.src != .e5m2 || x.a.e5m2Ok) &&
    (!x.src.exactPair x.dst || x.rm == .rne) && (!x.sat || (x.dst.isFp && x.dst != .f32)) &&
    x.eix.toNat ≤ x.src.eixMax x.dst

/-- CVTEF. -/
def CvtA.wfEf (x : CvtA) : Bool :=
  x.d.dstV && x.b.dstV && x.b != x.d && x.b != x.a && x.a.fpOk && x.src == .f32 && x.dst != .f32 && x.dst != .i32 &&
    x.rm == .rne && (!x.sat || x.dst.isFp) && x.eix.toNat ≤ x.src.eixMax x.dst

/-- QBLK and DQBLK. -/
def BlkA.wf (x : BlkA) (q : Bool) : Bool :=
  x.d.isVO && x.a.isVO && x.b.isVO && 2 ≤ x.w.toNat && x.w.toNat ≤ 8 && (if q then x.b != x.d else x.rm == .rne)

/-- VRED and VSCAN. -/
def RedA.wf (x : RedA) (scan : Bool) : Bool :=
  x.d.dstL && (x.op == .fadd || x.rm == .rne) && (scan || !x.excl) &&
    (match x.op with
      | .fadd | .fmin | .fmax => x.a.fpOk
      | _ => true)

/-- A guess instruction's register. -/
def KReg.ok (r : KReg) (f : Opnd → Bool) (dstP : Bool) : Bool :=
  match r with
  | .r x => f x
  | .p i => dstP && i != 7

/-! ## The predicate -/

/-- Whether an instruction is well formed. Steps that are no instruction of a code image always are. -/
def Instr.wf : Instr → Bool
  | .nop _ | .exit _ | .trail _ => true
  | .bra x => x.h.grd.okQ
  | .brd x => x.h.grd.okP
  | .brx x | .ret x => x.h.grd.okQ && x.a.isSC
  | .call x => x.h.grd.okQ && x.d.dstS
  | .loop x => x.h.grd.okQ && x.d.isS
  | .splq x => x.h.grd.okQ && x.d.dstS
  | .sadd x | .ssub x | .smul x | .smad x | .sand x | .sor x | .sxor x | .sshl x | .sshr x | .ssar x => x.wf false
  | .smulh x | .sdiv x | .smin x | .smax x => x.wf true
  | .sabs x | .spopc x | .sclz x => x.wfS
  | .smov x => x.h.grd.okQ && x.d.dstS && x.a.srcS
  | .ssel x => x.h.grd.okQ && x.d.dstS && x.a.srcS && x.b.srcS
  | .scmp x => x.h.grd.okQ && x.d != 7 && x.a.srcS && x.b.srcS
  | .sbfe x => x.h.grd.okQ && x.d.dstS && x.a.srcS && x.fits
  | .sbfi x => x.h.grd.okQ && x.d.dstS && x.a.srcS && x.fits && !x.sgn
  | .plog x => x.d != 7 && (!x.q || x.h.grd.okQ) && (x.fn != .not || x.b == 0)
  | .pmov x => match x.ops with
    | .p d _ | .fromv d _ | .froms d _ => d != 7
    | .tos _ _ => true
    | .q d _ => d != 7 && x.h.grd.okQ
  | .pany x | .pall x => x.d != 7
  | .pcnt x => x.d.dstS
  | .padd x => match x.d, x.a with
    | .s _, .s _ => x.h.grd.okQ && x.b.srcS
    | .v _, .v _ => true
    | _, _ => false
  | .ptag x => x.space.toNat ≤ 4 && (match x.d, x.a with
    | .s _, .s _ => x.h.grd.okQ && x.b.srcS
    | .v _, .v _ => true
    | _, _ => false)
  | .pfld x => match x.a with
    | .s _ => x.h.grd.okQ && x.d.dstS
    | .v _ => x.d.isV || x.d == .zero
  | .pcmp x => x.d != 7 && (match x.cond with
      | .eq | .ne | .ltu | .leu | .gtu | .geu => true
      | _ => false) && (match x.a, x.b with
      | .s _, .s _ => x.h.grd.okQ
      | .v _, .v _ => true
      | _, _ => false)
  | .vadd x | .vsub x => x.wf true true true true false true
  | .vmul x | .vmad x | .vand x | .vor x | .vxor x | .vshl x | .vshr x | .vsar x => x.wf true false false false false true
  | .vmulh x => x.wf true true false false false true
  | .vnot x | .vpopc x | .vclz x => x.wf false false false false false false
  | .vmin x | .vmax x => x.wf true true true false false true
  | .vabs x | .vneg x => x.wf false false true true false false
  | .vmov x => x.wf true false false false false false
  | .vdot4 x => x.wf false true false true true true
  | .vcmp x => x.d != 7
  | .vsel x => x.d.dstV
  | .vbfe x => x.d.dstV && x.fits
  | .vbfi x => x.d.dstV && x.fits && !x.sgn
  | .fadd x | .fsub x | .fmul x => x.wf true true false true true
  | .ffma x => x.wf true true true true true
  | .fmin x | .fmax x => x.wf false false false true true
  | .fcmp x => x.d != 7 && x.a.fpOk && x.b.fpOk
  | .fclass x => x.d.dstV && x.a.fpOk
  | .fscale x => x.wf true true false true false
  | .frnd x => x.wf true false false false false
  | .fdot2 x => x.wf true true false true true && x.typ != .f32
  | .frcp x | .frsq x | .fsqrt x | .fexp2 x | .flog2 x | .fsin x | .fcos x | .ftanh x => x.wfF
  | .cvt x => x.wf
  | .cvtef x => x.wfEf
  | .qblk x => x.wf true
  | .dqblk x => x.wf false
  | .pack4 x => x.d.dstV
  | .unpk4 x => x.d.dstV && (x.f || x.idx.toNat ≤ 1)
  | .shfl x => x.d.dstL
  | .vbcast x => x.d.dstL && x.b.srcS
  | .vred x => x.wf false
  | .vscan x => x.wf true
  | .ballot x => x.d.dstL
  | .ld x => x.wfV false
  | .ldg x => x.wfV true
  | .lds x => x.wfS
  | .st x => x.wfV false
  | .stg x => x.wfV true
  | .sts x => x.wfS
  | .ldl x | .stl x => x.d.isVO && x.a.isSCZI && x.b.isSCZI
  | .pref _ => true
  | .limset x => x.h.grd.okQ && x.n != 0 && x.a.isSCI
  | .ktest x => x.d != 7 && (match x.a with
    | .r o => o.isVOLS
    | .p _ => true)
  | .kdemand x => x.d.ok Opnd.isVOS false
  | .kaccept x | .kmark x => x.d.ok Opnd.isVOS true
  | .kabandon x => x.d.ok Opnd.isVOS false
  | .kstat x => x.h.grd.okQ && (match x.fn with
    | .sum => x.d.val ≤ 124 && x.a == .v 0
    | _ => x.d.val ≤ 122 && x.a.isVOS)
  | .tklend x | .tkshare x => x.wf Opnd.isSC false
  | .tkret x | .tkhome x | .tkunhome x => x.wf TkA.noB false
  | .tktake x | .tkunshare x => x.wf TkA.noB true
  | .tksplit x | .tkjoin x => x.wf Opnd.isSCI false
  | .tkquery x => x.h.grd.okQ && (match x.self with
    | none => x.d.val ≤ 121
    | some _ => x.d.val ≤ 124 && x.a == 0)
  | .tkadopt x => x.wf TkA.noB false && x.hc == .crew
  | .atom x => x.wf false
  | .atoms x => x.wf true
  | .bar x => x.h.grd.okQ
  | .gbar x => x.h.grd.okQ && x.n.val ≤ 1
  | .wparr x => x.wf
  | .wpwait x => x.wf && x.cond == .eq && !x.zx
  | .waita x => x.wf
  | .fence x => x.h.grd.okQ && x.ord != .rlx
  | .tld x => x.wf true
  | .tst x => x.wf false
  | .tzero x => x.h.grd.okQ && x.a == 0
  | .tmov x | .txp x => x.h.grd.okQ
  | .mtask x => x.h.grd.okQ && x.shape.isSC
  | .mtaskm x => x.h.grd.okQ && x.a.isSCZI && x.b.isSCZI
  | .acalloc x | .acfree x => x.h.grd.okQ && x.a.isSCZI
  | .acband x => x.h.grd.okQ && x.a.isSCZI && x.b.isSCZI
  | .acdrain x => x.r.isVO && x.win.isSCZI && !x.i
  | .acload x => x.win.isSCZI
  | .aczero x => x.h.grd.okQ && x.a.isSCZI
  | .acscale x => x.h.grd.okQ && x.b.isVO && x.sc.isSCI && x.sc.fpOk
  | .mstat x => x.h.grd.okQ
  | .mcheck x => x.h.grd.okQ && x.d.dstS
  | .copy x => x.h.grd.okQ && x.b.isSCI && (x.m || x.cw || x.c == 0) && (x.cw || x.scope == .grp) && (!x.cdst || x.cw)
  | .msend x => x.h.grd.okQ && x.b.isSCI && (if x.tag then x.tagv.isSCI else x.tagv == .v 0) &&
      (if x.sp then x.a.isSCI else x.wordsM1.toNat ≤ 15 && x.a.sUpTo (124 - x.wordsM1.toNat))
  | .ringset x => x.h.grd.okQ && x.a.isSCI && x.b.isSCI
  | .arm x => x.h.grd.okQ && x.tag.isSCI
  | .disarm x => x.h.grd.okQ && x.a.isSCI
  | .asdef x => x.h.grd.okQ && x.a.isSCI
  | .asgo x => x.h.grd.okQ && x.a.srcS
  | .asstop x => x.h.grd.okQ && x.d.dstS && x.a.srcS
  | .qpop x => (if x.vec then x.d.isVO else x.d.sUpTo 124) &&
      reckOk .w false false x.fp x.pmode x.slot x.lsel.val (.v 0) false &&
      (!x.vec || x.lsel == 0 || x.pmode == .hold || x.pmode == .zero)
  | .gattach x => x.h.grd.okQ && x.a.srcS && x.b.srcS
  | .gdetach x => x.h.grd.okQ
  | .srd x => x.h.grd.okQ && x.d.dstS && (if x.sel.indexed then x.idx.isSCZI else x.idx == .v 0)
  | .swr x => x.h.grd.okQ && x.sel.writable && x.a.isSCZI && (if x.sel.indexed then x.idx.isSCZI else x.idx == .v 0)
  | .trap x => x.h.grd.okQ
  | .spawn _ => true
  | .launch x => x.b.isSCZ
  | .tbinv x => x.h.grd.okQ && x.ctx.isSCI && x.k.isSCI
  | .placew x => x.h.grd.okQ && x.key.isSC && x.entry.isSCZ
  | .finj x => x.h.grd.okQ && (match x.kind, x.a with
    | .core, .key k => k.srcS && x.b == .v 0
    | .lane, .key k | .strip, .key k => k.srcS && x.b.isSCZI
    | .poison, .triple _ => x.b == .v 0
    | _, _ => false)
  | _ => true

/-- Whether the constructor is an instruction of a code image (a row of chapter 3, Table 8). -/
def Instr.isCode : Instr → Bool
  | .groupPick .. | .runLimitEnd .. | .icacheLineArrival .. | .resultLanding .. | .limitExpiry .. | .loadLanding ..
  | .lateValueArrival .. | .pageWalkComplete .. | .accessCheckComplete .. | .storeBufferDrain .. | .barArrivalRegister ..
  | .gbarArrivalRegister .. | .monitorReread .. | .waitLimitExpiry .. | .aonLimitExpiry .. | .tokenOpAtHome ..
  | .tktakeComplete .. | .lentStallRelease .. | .tileOpComplete .. | .taskStart .. | .taskComplete .. | .engineSelfTest ..
  | .engineFaultPause .. | .engineOpComplete .. | .packetNack .. | .packetResend .. | .messageArrival ..
  | .taggedMessageArrival .. | .streamElementRead .. | .streamElementArrival .. | .gdetachComplete .. | .crewExitRelease ..
  | .legAdmission .. | .crewStart .. | .gangReservation .. | .legComplete .. | .preemptDeadlineExpiry .. | .quiescePoint ..
  | .crewSave .. | .errorEvent .. | .errorWindowExpiry .. | .coreLoss .. | .crewRelaunch .. | .grantUpdate .. | .groupUnpark ..
  | .stepRaise .. | .stepLower .. | .voltageFall .. | .gddrTempReport .. | .thermalCapStep .. | .quadrantJoin ..
  | .quadrantCalibrated .. | .powerUp .. | .faultRecordWrite .. | .faultRecordEnable .. | .contextReset .. | .preemptRequest ..
  | .queueLeg .. | .hostTbinv .. | .tlbInvalidateComplete .. | .placeValueWrite .. | .tokenOwn .. | .tokenRelease ..
  | .tokenHome .. | .tokenUnhome .. | .debugStep .. | .resumeGroup .. | .resumeCore .. | .resumeEngine .. | .suspendCrew ..
  | .restoreCrew .. | .registerWrite .. | .hostMemoryAccess .. | .inboundRequest .. | .postedWriteRelease ..
  | .mgmtReadTemperatures | .mgmtReadEvents | .mgmtSetStepCap | .mgmtSetHotlim | .mgmtResetModule | .mgmtFirmwareChunk
  | .mgmtFirmwareCommit | .mgmtQuote | .mgmtSetAddress | .mgmtUnknownOp | .mgmtArp | .mgmtIcmpEcho | .mgmtDhcp
  | .unassignedOpcode | .pcieLinkTraining .. | .mgmtAutoNegotiation .. => false
  | _ => true

end Sys2Proof
end

