-- ==== Sys2Proof/Machine/Number.lean ====
section
/-! DEFINITION. Number formats and exact arithmetic (chapter 4): a value is a NaN, an infinity, or a signed integer times a power
of two; every operation is computed exactly and narrowed once by `roundFp` (R81). -/

namespace Sys2Proof


/-! ## Formats (R76, R77, Table 1) -/

/-- A floating-point format: exponent bits, mantissa bits, bias, and whether it is E4M3. -/
structure FpF where
  eb : Nat
  mb : Nat
  bias : Nat
  e4m3 : Bool
  deriving DecidableEq, Repr

/-- FP32. -/
def FpF.f32 : FpF := ⟨8, 23, 127, false⟩
/-- FP16. -/
def FpF.f16 : FpF := ⟨5, 10, 15, false⟩
/-- BF16. -/
def FpF.bf16 : FpF := ⟨8, 7, 127, false⟩
/-- FP8 E4M3. -/
def FpF.e4 : FpF := ⟨4, 3, 7, true⟩
/-- FP8 E5M2. -/
def FpF.e5 : FpF := ⟨5, 2, 15, false⟩

/-- Bits of the format. -/
def FpF.bits (f : FpF) : Nat := 1 + f.eb + f.mb

/-- The sign bit. -/
def FpF.signBit (f : FpF) (neg : Bool) : Nat := if neg then 2 ^ (f.eb + f.mb) else 0

/-- The canonical NaN (Table 1). -/
def FpF.canon (f : FpF) : Nat := if f.e4m3 then 0x7F else (2 ^ f.eb - 1) * 2 ^ f.mb + 2 ^ (f.mb - 1)

/-- The largest finite value (Table 1). -/
def FpF.maxCode (f : FpF) (neg : Bool) : Nat :=
  f.signBit neg + (if f.e4m3 then 0x7E else (2 ^ f.eb - 1) * 2 ^ f.mb - 1)

/-- The infinity, or the sign-keeping NaN of E4M3 (Table 4). -/
def FpF.infCode (f : FpF) (neg : Bool) : Nat := f.signBit neg + (if f.e4m3 then 0x7F else (2 ^ f.eb - 1) * 2 ^ f.mb)

/-- A floating-point value; `fin neg m e` is (−1)^neg × m × 2^e. -/
inductive FVal where
  | nan
  | inf (neg : Bool)
  | fin (neg : Bool) (m : Nat) (e : Int)
  deriving DecidableEq, Repr

/-- The value of a code (R76, R77). -/
def FpF.val (f : FpF) (x : Nat) : FVal :=
  let neg := (x / 2 ^ (f.eb + f.mb)) % 2 = 1
  let e := (x / 2 ^ f.mb) % 2 ^ f.eb
  let m := x % 2 ^ f.mb
  if f.e4m3 && e == 15 && m == 7 then .nan
  else if !f.e4m3 && e == 2 ^ f.eb - 1 then if m = 0 then .inf neg else .nan
  else if e = 0 then .fin neg m (1 - (f.bias : Int) - f.mb)
  else .fin neg (2 ^ f.mb + m) ((e : Int) - f.bias - f.mb)

/-! ## Rounding (R81, Tables 3 and 4) -/

/-- Whether a magnitude with kept part `q`, remainder `rem` of `2 ^ sh` and a tail below it is rounded up. -/
def roundsUp (rm : RMode) (neg : Bool) (q rem sh : Nat) (tail : Bool) : Bool :=
  let inexact := rem != 0 || tail
  match rm with
  | .rne => (2 * rem > 2 ^ sh) || (2 * rem == 2 ^ sh && (tail || q % 2 == 1))
  | .rz => false
  | .ru => inexact && !neg
  | .rd => inexact && neg

/-- Table 4: the overflow result. -/
def FpF.overflow (f : FpF) (rm : RMode) (sat neg : Bool) : Nat :=
  if sat then f.maxCode neg
  else match rm with
    | .rne => f.infCode neg
    | .rz => f.maxCode neg
    | .ru => if neg then f.maxCode neg else f.infCode neg
    | .rd => if neg then f.infCode neg else f.maxCode neg

/-- R81 for a finite magnitude `m × 2^e`, with `tail` for a nonzero part below it (then `m` has bits enough). -/
def FpF.roundFin (f : FpF) (rm : RMode) (sat neg : Bool) (m : Nat) (e : Int) (tail : Bool) : Nat :=
  if m = 0 then f.signBit neg
  else
    let top : Int := e + Nat.log2 m
    let g : Int := max (top - f.mb) (1 - (f.bias : Int) - f.mb)
    let q : Nat :=
      if g ≤ e then m * 2 ^ (e - g).toNat
      else
        let sh := (g - e).toNat
        let q := m / 2 ^ sh
        if roundsUp rm neg q (m % 2 ^ sh) sh tail then q + 1 else q
    let (q, g) := if q = 2 ^ (f.mb + 1) then (2 ^ f.mb, g + 1) else (q, g)
    if q < 2 ^ f.mb then f.signBit neg + q
    else
      let ef := (g + f.mb + f.bias).toNat
      let big := if f.e4m3 then ef > 15 || (ef == 15 && q - 2 ^ f.mb == 7) else ef ≥ 2 ^ f.eb - 1
      if big then f.overflow rm sat neg else f.signBit neg + ef * 2 ^ f.mb + (q - 2 ^ f.mb)

/-- R81: an exact value to a format. -/
def FpF.round (f : FpF) (rm : RMode) (sat : Bool) : FVal → Nat
  | .nan => f.canon
  | .inf neg => if f.e4m3 || sat then f.overflow rm sat neg else f.infCode neg
  | .fin neg m e => f.roundFin rm sat neg m e false

/-- An exact value rounded to an integer in a mode. -/
def roundInt (rm : RMode) (neg : Bool) (m : Nat) (e : Int) : Int :=
  let q : Nat :=
    if 0 ≤ e then m * 2 ^ e.toNat
    else
      let sh := (-e).toNat
      let q := m / 2 ^ sh
      if roundsUp rm neg q (m % 2 ^ sh) sh false then q + 1 else q
  if neg then -(q : Int) else q

/-! ## Exact operations -/

namespace FVal

/-- The sign. -/
def neg? : FVal → Bool
  | .nan => false
  | .inf n => n
  | .fin n _ _ => n

/-- The value with its sign flipped when `b`. -/
def flip (b : Bool) : FVal → FVal
  | .nan => .nan
  | .inf n => .inf (n != b)
  | .fin n m e => .fin (n != b) m e

/-- A zero. -/
def isZero : FVal → Bool
  | .fin _ 0 _ => true
  | _ => false

/-- A NaN. -/
def isNan : FVal → Bool
  | .nan => true
  | _ => false

/-- An infinity of a sign. -/
def isInf (n : Bool) : FVal → Bool
  | .inf m => m == n
  | _ => false

/-- The exact product: ∞ × 0 and NaN operands give NaN. -/
def mul (x y : FVal) : FVal :=
  match x, y with
  | .nan, _ | _, .nan => .nan
  | .inf a, .inf b => .inf (a != b)
  | .inf a, .fin b m _ | .fin b m _, .inf a => if m = 0 then .nan else .inf (a != b)
  | .fin a m e, .fin b n d => .fin (a != b) (m * n) (e + d)

/-- The least exponent of the finite terms. -/
def minExp : List FVal → Int
  | [] => 0
  | .fin _ _ e :: xs => xs.foldl (fun a x => match x with
      | .fin _ _ d => min a d
      | _ => a) e
  | _ :: xs => minExp xs

/-- A finite term as an integer multiple of 2^g. -/
def scaled (g : Int) : FVal → Int
  | .fin n m e => let k : Int := m * 2 ^ (e - g).toNat; if n then -k else k
  | _ => 0

/-- The exact sum of terms; a zero sum has the sign R82 gives, all terms alike in sign being the two-operand rule carried
through. R95 for the special values. -/
def sum (rm : RMode) (xs : List FVal) : FVal :=
  if xs.any isNan || (xs.any (isInf true) && xs.any (isInf false)) then .nan
  else if xs.any (isInf true) then .inf true
  else if xs.any (isInf false) then .inf false
  else
    let g := minExp xs
    let k : Int := xs.foldl (fun a x => a + x.scaled g) 0
    if k = 0 then
      if xs.all (fun x => x.isZero && x.neg?) then .fin true 0 0
      else if xs.all (fun x => x.isZero && !x.neg?) then .fin false 0 0
      else .fin (rm == .rd) 0 0
    else .fin (k < 0) k.natAbs g

/-- Exact comparison of two values that are not NaN, with −0 = +0. -/
def lt (x y : FVal) : Bool :=
  match x, y with
  | .nan, _ | _, .nan => false
  | .inf a, .inf b => a && !b
  | .inf a, .fin .. => a
  | .fin .., .inf b => !b
  | .fin .., .fin .. => let g := minExp [x, y]; x.scaled g < y.scaled g

/-- Equality, with −0 = +0. -/
def eq (x y : FVal) : Bool := !x.isNan && !y.isNan && !x.lt y && !y.lt x

/-- FMIN's order: −0 below +0. -/
def below (x y : FVal) : Bool := x.lt y || (x.isZero && y.isZero && x.neg? && !y.neg?)

/-- `x × 2^b`. Beyond ±1000 every finite format has overflowed or underflowed. -/
def scale (b : Int) : FVal → FVal
  | .fin n m e => .fin n m (e + max (-1000) (min 1000 b))
  | x => x

/-- An integer. -/
def ofInt (k : Int) : FVal := .fin (k < 0) k.natAbs 0

/-- Rounded to an integral value, the sign kept. -/
def integral (rm : RMode) : FVal → FVal
  | .fin n m e => .fin n (roundInt rm n m e).natAbs 0
  | x => x

end FVal

/-! ## Operations on FP32 words -/

/-- The value of an FP32 word. -/
def f32 (x : Word) : FVal := FpF.f32.val x.toNat

/-- A value rounded to an FP32 word. -/
def toF32 (rm : RMode) (sat : Bool) (v : FVal) : Word := BitVec.ofNat 32 (FpF.f32.round rm sat v)

/-- FP32 addition. -/
def fadd32 (rm : RMode) (x y : Word) : Word := toF32 rm false (FVal.sum rm [f32 x, f32 y])

/-- FMIN and FMAX on codes of a format: one NaN yields the other operand, two yield the canonical NaN. -/
def FpF.minMax (f : FpF) (isMax : Bool) (x y : Nat) : Nat :=
  let a := f.val x
  let b := f.val y
  if a.isNan then (if b.isNan then f.canon else y)
  else if b.isNan then x
  else if isMax then (if a.below b then y else x) else (if b.below a then y else x)

/-- The formats of the vector floating-point types. -/
def FType.fmt : FType → FpF
  | .f32 => .f32
  | .f16 => .f16
  | .bf16 => .bf16

/-- An operation on each element of a lane (R75, R84). -/
def elems (t : FType) (f : Nat → Word) : Word :=
  match t with
  | .f32 => f 0
  | _ => zextLow 16 (f 0) ||| (f 1 <<< 16)

/-- Element `i` of a lane, as a code. -/
def elemOf (t : FType) (i : Nat) (x : Word) : Nat :=
  match t with
  | .f32 => x.toNat
  | _ => (x.toNat / 2 ^ (16 * i)) % 65536

/-- An E4M3 immediate widened to an element type, in both halves when packed (R92). -/
def immF (t : FType) (x : BitVec 8) : Word :=
  let c := BitVec.ofNat 32 (t.fmt.round .rne false (FpF.e4.val x.toNat))
  match t with
  | .f32 => c
  | _ => c ||| (c <<< 16)

/-! ## Correctly rounded functions (R98) -/

/-- The integer square root of a number below 2^160. -/
def isqrt (n : Nat) : Nat := (List.range 80).foldr (fun i r => if (r + 2 ^ i) * (r + 2 ^ i) ≤ n then r + 2 ^ i else r) 0

/-- 1 / x. -/
def frcp32 (x : Word) : Word :=
  match f32 x with
  | .nan => BitVec.ofNat 32 FpF.f32.canon
  | .inf n => BitVec.ofNat 32 (FpF.f32.signBit n)
  | .fin n m e =>
    if m = 0 then BitVec.ofNat 32 (FpF.f32.infCode n)
    else BitVec.ofNat 32 (FpF.f32.roundFin .rne false n (2 ^ 80 / m) (-80 - e) (2 ^ 80 % m != 0))

/-- √x. -/
def fsqrt32 (x : Word) : Word :=
  match f32 x with
  | .nan => BitVec.ofNat 32 FpF.f32.canon
  | .inf n => if n then BitVec.ofNat 32 FpF.f32.canon else BitVec.ofNat 32 (FpF.f32.infCode false)
  | .fin n m e =>
    if m = 0 then x
    else if n then BitVec.ofNat 32 FpF.f32.canon
    else
      let par := (e % 2).toNat
      let k := m * 2 ^ (60 + par)
      let r := isqrt k
      BitVec.ofNat 32 (FpF.f32.roundFin .rne false false r ((e - par - 60) / 2) (r * r != k))

/-- 1 / √x. -/
def frsq32 (x : Word) : Word :=
  match f32 x with
  | .nan => BitVec.ofNat 32 FpF.f32.canon
  | .inf n => if n then BitVec.ofNat 32 FpF.f32.canon else 0
  | .fin n m e =>
    if m = 0 then BitVec.ofNat 32 (FpF.f32.infCode n)
    else if n then BitVec.ofNat 32 FpF.f32.canon
    else
      let par := (e % 2).toNat
      let d := m * 2 ^ par
      let r := isqrt (2 ^ 120 / d)
      BitVec.ofNat 32 (FpF.f32.roundFin .rne false false r (-60 - (e - par) / 2) (r * r * d != 2 ^ 120))

/-! ## Integer and block formats -/

/-- An integer limited to a range. -/
def clampInt (lo hi x : Int) : Int := max lo (min hi x)

/-- A value converted to an integer with saturation (R91, Table 6): NaN gives 0. -/
def toIntSat (rm : RMode) (lo hi : Int) : FVal → Int
  | .nan => 0
  | .inf n => if n then lo else hi
  | .fin n m e => clampInt lo hi (roundInt rm n m (min e 200))

/-- A signed field of a word. -/
def sfield (x : Word) (lo n : Nat) : Int := (sextLow n (x >>> lo)).toInt

/-- R90: sixteen FP32 words to a block of `w`-bit mantissas and its exponent. -/
def toBlock (w : Nat) (rm : RMode) (xs : List Word) : List Int × Nat :=
  let vs := xs.map f32
  if vs.any (fun v => v.isNan || v.isInf true || v.isInf false) then (vs.map fun _ => 0, 255)
  else
    let es := vs.filterMap fun v => match v with
      | .fin _ m e => if m = 0 then none else some (e + Nat.log2 m)
      | _ => none
    match es with
    | [] => (vs.map fun _ => 0, 0)
    | e0 :: rest =>
      let big := rest.foldl max e0
      let e := (max 0 (big + 127)).toNat
      let lim : Int := 2 ^ (w - 1) - 1
      (vs.map fun v => match v with
        | .fin n m d => clampInt (-lim) lim (roundInt rm n m (d - ((e : Int) - 127 - (w - 2))))
        | _ => 0, e)

/-- The mantissa image of a block (R88). -/
def blockImage (w : Nat) (ms : List Int) : Nat :=
  ms.zipIdx.foldl (fun a (m, i) => a + (m % 2 ^ w).toNat * 2 ^ (i * w)) 0

/-- A block mantissa as it is read (R89): the reserved code reads as 0; the flag says that it was reserved. -/
def readMant (w : Nat) (code : Nat) : Int × Bool :=
  if code = 2 ^ (w - 1) then (0, true) else (if code < 2 ^ (w - 1) then code else (code : Int) - 2 ^ w, false)

/-- The value of a block element (R88). -/
def blockVal (w e : Nat) (m : Int) : FVal := .fin (m < 0) m.natAbs ((e : Int) - 127 - (w - 2))

/-! ## Conversions (R91, R124) -/

/-- The floating-point format of a conversion format. -/
def Fmt.fp : Fmt → FpF
  | .f16 => .f16
  | .bf16 => .bf16
  | .e4m3 => .e4
  | .e5m2 => .e5
  | _ => .f32

/-- The range of an integer conversion format (R85, R86). -/
def Fmt.range : Fmt → Int × Int
  | .i8 => (-128, 127)
  | .i4 => (-7, 7)
  | _ => (-2 ^ 31, 2 ^ 31 - 1)

/-- The value of an element in a conversion's source format. -/
def Fmt.valOf (f : Fmt) (x : Nat) : FVal :=
  match f with
  | .i32 => .ofInt (BitVec.ofNat 32 x).toInt
  | .i8 => .ofInt (BitVec.ofNat 8 x).toInt
  | .i4 => .ofInt (BitVec.ofNat 4 x).toInt
  | _ => f.fp.val x

/-- A value narrowed to a conversion's destination format, as a code. -/
def Fmt.narrow (f : Fmt) (rm : RMode) (sat : Bool) (v : FVal) : Nat :=
  match f with
  | .i32 | .i8 | .i4 => (toIntSat rm f.range.1 f.range.2 v % 2 ^ f.bits).toNat
  | _ => f.fp.round rm sat v

/-- Element `i` of a lane, `n` bits wide. -/
def getElem (n i : Nat) (x : Word) : Nat := (x.toNat / 2 ^ (n * i)) % 2 ^ n

/-- A lane with element `i` replaced. -/
def setElem (n i : Nat) (x : Word) (v : Nat) : Word :=
  let mask : Word := BitVec.ofNat 32 ((2 ^ n - 1) * 2 ^ (n * i))
  (x &&& ~~~mask) ||| (BitVec.ofNat 32 (v * 2 ^ (n * i)) &&& mask)

/-- CVT's lane result: `d` is the destination before it. -/
def cvtLane (src dst : Fmt) (rm : RMode) (sat : Bool) (eix : Nat) (a d : Word) : Word :=
  let v := src.valOf (getElem src.bits (if src.bits < 32 then eix else 0) a)
  let c := dst.narrow rm sat v
  if dst.bits < 32 then setElem dst.bits eix d c else BitVec.ofNat 32 c

/-- CVTEF's residual (R125): the FP32 difference between the source and the narrowed value; an infinite narrowed value gives the
opposite infinity, a NaN the canonical NaN. -/
def cvtefResidual (dst : Fmt) (sat : Bool) (a : Word) : Word :=
  let n := dst.valOf (dst.narrow .rne sat (f32 a))
  match f32 a, n with
  | .nan, _ => toF32 .rne false .nan
  | _, .inf _ => toF32 .rne false (n.flip true)
  | x, n => toF32 .rne false (FVal.sum .rne [x, n.flip true])

/-- An immediate source of CVT fills every element of the lane in the source format. -/
def cvtImm (src : Fmt) (x : BitVec 8) : Word :=
  let v := FpF.e4.val x.toNat
  let rep8 (c : Nat) : Word := BitVec.ofNat 32 (c * 0x01010101)
  match src with
  | .f32 => immF .f32 x
  | .f16 => immF .f16 x
  | .bf16 => immF .bf16 x
  | .e4m3 | .i8 => rep8 x.toNat
  | .e5m2 => rep8 (FpF.e5.round .rne false v)
  | .i32 | .i4 => x.signExtend 32

/-! ## Comparisons and classes -/

/-- FCMP's conditions (chapter 6, Table 8). -/
def FCond.holds (c : FCond) (x y : FVal) : Bool :=
  let un := x.isNan || y.isNan
  match c with
  | .eq => x.eq y
  | .ne => un || !x.eq y
  | .lt => x.lt y
  | .le => !un && !y.lt x
  | .gt => y.lt x
  | .ge => !un && !x.lt y
  | .un => un
  | .ord => !un

/-- FCLASS's word (chapter 6, Table 9). -/
def fclass32 (x : Word) : Word :=
  match f32 x with
  | .nan => 1 <<< 8
  | .inf n => if n then 1 else 1 <<< 7
  | .fin n m _ =>
    if m = 0 then (if n then 1 <<< 3 else 1 <<< 4)
    else if m < 2 ^ 23 then (if n then 1 <<< 2 else 1 <<< 5)
    else if n then 1 <<< 1 else 1 <<< 6

/-- The conditions of SCMP and VCMP (chapter 5, Table 8). -/
def Cond.holds (c : Cond) (x y : Word) : Bool :=
  match c with
  | .eq => x == y
  | .ne => x != y
  | .lt => x.slt y
  | .le => x.sle y
  | .gt => y.slt x
  | .ge => y.sle x
  | .ltu => x.ult y
  | .leu => x.ule y
  | .gtu => y.ult x
  | .geu => y.ule x

end Sys2Proof
end

