-- ==== Sys2Proof/Machine/Flags.lean ====
section
/-! DEFINITION. Completion flags and results in flight (R62 to R66), and what a register write does when it becomes visible, the
guess lanes it closes among it (R165). -/

namespace Sys2Proof.Machine

open Sys2Proof

/-! ## Registers -/

namespace GRegs

/-- A vector register. -/
def vec (r : GRegs) : VecName → VReg
  | .v n => r.v[n]?.getD VReg.zero
  | .o n => r.o[n]?.getD VReg.zero
  | .l n => r.l[n]?.getD VReg.zero

/-- The lanes of a mask of a vector register replaced. -/
def setVec (r : GRegs) (n : VecName) (mask : Lanes) (x : VReg) : GRegs :=
  let mix (old : VReg) : VReg := Vector.ofFn fun i => if mask.getLsbD i.val then x[i] else old[i]
  match n with
  | .v k => { r with v := r.v.setIfInBounds k (mix (r.vec n)) }
  | .o k => { r with o := r.o.setIfInBounds k (mix (r.vec n)) }
  | .l k => { r with l := r.l.setIfInBounds k (mix (r.vec n)) }

/-- A predicate register; p7 is all-true without a mark. -/
def pred (r : GRegs) (n : Nat) : PReg := r.p[n]?.getD ⟨Lanes.all, 0⟩

/-- A q register; q7 is true. -/
def qbit (r : GRegs) (n : Nat) : Bool := if n < 7 then r.q.getLsbD n else true

end GRegs

/-- A lane of a vector register. -/
def VReg.at (x : VReg) (lane : Nat) : Elem := x[lane]?.getD Elem.zero

/-- A vector register with one element in every lane. -/
def VReg.splat (e : Elem) : VReg := Vector.replicate 96 e

/-- A vector register from a function of the lane. -/
def VReg.of (f : Nat → Elem) : VReg := Vector.ofFn fun i => f i.val

/-- The lanes whose mark is set. -/
def VReg.marks (x : VReg) : Lanes := maskOf 96 fun i => (x.at i).k

/-! ## Guess lanes (R164 to R166) -/

/-- Whether an entry's destination range includes a register. -/
def Guess.covers (e : Guess) (r : GDest) : Bool :=
  match e.dest, r with
  | .vec (.v n), .vec (.v m) => n ≤ m && m < n + e.nregs
  | .vec a, .vec b => a == b
  | .s n, .s m => n ≤ m && m < n + e.nregs
  | _, _ => false

/-- The group with lanes of open entries closed; an entry with no lane left frees. -/
def Group.closeLanes (G : Group) (ps : List (Nat × Nat)) : Group :=
  let cut (e : Guess) : Guess := { e with lanes := e.lanes.filter fun l => !ps.contains (e.id, l.lane) }
  { G with guesses := (G.guesses.map cut).filter (fun e => !e.landed || !e.lanes.isEmpty) }

/-- The open entry lanes that a write to a register in some lanes closes. -/
def Group.hits (G : Group) (r : GDest) (mask : Lanes) : List (Nat × Nat) :=
  (G.guesses.filter fun e => e.landed && e.covers r).flatMap fun e =>
    (e.lanes.filter fun l => mask.getLsbD l.lane).map fun l => (e.id, l.lane)

/-- The entry lanes closed by a register write (R165). -/
def Group.closedBy (G : Group) : RegWrite → List (Nat × Nat)
  | .vec r mask _ => G.hits (.vec r) mask
  | .sreg n _ => G.hits (.s n) 1
  | _ => []

/-! ## Special registers of a group that a write lands in -/

/-- KPOL's two-bit field as stored: 0b10 and 0b11 store 0b00 (Table 3 of chapter 8). -/
def kpolStore (w : Word) : Word :=
  let f (lo : Nat) : Word := if (w >>> lo) &&& 3 = 1 then 1 <<< lo else 0
  f 0 ||| f 2 ||| f 4

/-- The group's special registers after a write (R339): read-only fields ignore it, and write-1-clears fields clear. -/
def GSpec.write (x : GSpec) (sel : SReg) (idx : Nat) (w : Word) : GSpec :=
  match sel with
  | .kpol => { x with kpol := kpolStore w }
  | .ksamp => { x with ksamp := w &&& 0x1F }
  | .ksticky => { x with ksticky := x.ksticky &&& ~~~w }
  | .kerr => { x with kerr := x.kerr.setIfInBounds idx w }
  | .wl => { x with wl := x.wl.setIfInBounds (idx - 1) w }
  | .splseed => { x with splseed := if w.extractLsb' 0 16 = 0 then 0xACE1 else w.extractLsb' 0 16 }
  | .topochg => { x with topochg := x.topochg && !w.getLsbD 0 }
  | _ => x

/-! ## Writes becoming visible -/

/-- The words of a lane mask. -/
def maskWord (m : Lanes) (i : Nat) : Word := m.extractLsb' (32 * i) 32

/-- A lane mask with one word replaced. -/
def setMaskWord (m : Lanes) (i : Nat) (w : Word) : Lanes :=
  (m &&& ~~~((0xFFFFFFFF : Lanes) <<< (32 * i))) ||| (w.zeroExtend 96 <<< (32 * i))

/-- One register write made visible (R62, R63); fresh data carries no uncorrectable error. A write to xm sets M := value and O for its split (R105). -/
def Group.applyWrite (G : Group) : RegWrite → Group
  | .vec r mask x =>
    { G with regs := G.regs.setVec r mask x, ueRegs := G.ueRegs.filter fun u => !(u.1 == r && mask.getLsbD u.2) }
  | .sreg n e => { G with regs := { G.regs with s := G.regs.s.setIfInBounds n e }, ueS := G.ueS.filter (· != n) }
  | .pred n mask val k =>
    let old := G.regs.pred n
    { G with regs := { G.regs with
        p := G.regs.p.setIfInBounds n ⟨(old.val &&& ~~~mask) ||| (val &&& mask), (old.k &&& ~~~mask) ||| (k &&& mask)⟩ },
             ueP := G.ueP.filter fun u => !(u.1 == n && mask.getLsbD u.2) }
  | .qbit n b =>
    { G with regs := { G.regs with q := if b then G.regs.q ||| (1#7 <<< n) else G.regs.q &&& ~~~(1#7 <<< n) } }
  | .xmask split i w =>
    { G with splits := G.splits.setIfInBounds split ((G.splits[split]?.join).map fun S => { S with m := setMaskWord S.m i w &&& S.o }) }
  | .vmark r mask k =>
    { G with regs := G.regs.setVec r mask (Vector.ofFn fun i => ⟨((G.regs.vec r).at i.val).val, k⟩) }
  | .smark n k => { G with regs := { G.regs with s := G.regs.s.setIfInBounds n ⟨(G.regs.s[n]?.getD Elem.zero).val, k⟩ } }
  | .pmark n mask k =>
    let old := G.regs.pred n
    { G with regs := { G.regs with p := G.regs.p.setIfInBounds n ⟨old.val, if k then old.k ||| mask else old.k &&& ~~~mask⟩ } }
  | .spec sel idx w =>
    let G := { G with spec := G.spec.write sel idx w }
    if sel == .ksamp then { G with guessCount := 0 } else G

/-! ## Flags (R64) -/

/-- A flag. -/
def GRegs.flag (r : GRegs) (f : Fin 12) : Flag := r.flags[f]

/-- The flag cleared by an instruction that names it at its issue. -/
def Group.claimFlag (G : Group) (f : Option (Fin 12)) (id : Nat) : Group :=
  match f with
  | none => G
  | some f => { G with regs := { G.regs with flags := G.regs.flags.set f ⟨false, 0, id⟩ } }

/-- The flag set for its newest claimant, satisfying a WAIT from a cycle on; an earlier claimant does not set it. -/
def Group.raiseFlag (G : Group) (f : Option (Fin 12)) (id since : Nat) : Group :=
  match f with
  | none => G
  | some f =>
    if (G.regs.flag f).owner = id then
      { G with regs := { G.regs with flags := G.regs.flags.set f ⟨true, since, id⟩ } }
    else G

/-- Whether every flag of a WAIT is set in a cycle (R65). -/
def GRegs.waitMet (r : GRegs) (wait : BitVec 12) (now : Nat) : Bool :=
  (List.finRange 12).all fun f => !wait.getLsbD f.val || ((r.flag f).isSet && (r.flag f).since ≤ now)

/-- A trailer's flag is set when no result of its run is still in flight (R70). -/
def Group.settleTrails (G : Group) (now : Nat) : Group :=
  let done (t : TrailWait) : Bool := !t.ids.any fun i => G.pend.any fun p => p.id == i && (!p.ws.isEmpty || p.claims.isEmpty)
  let G' := (G.trails.filter done).foldl (fun G t => G.raiseFlag (some t.flag) t.owner now) G
  { G' with trails := G.trails.filter fun t => !done t }

/-- Whether a write is one of a special register; the others give a register the value they carry, however often they are made. -/
def RegWrite.isSpec : RegWrite → Bool
  | .spec .. => true
  | _ => false

/-- The register writes of later-issued results that became visible in a cycle, in issue order (R63). -/
def Group.laterWrites (G : Group) (id due : Nat) : List RegWrite :=
  (((G.recent.filter fun q => q.due == due && id < q.id).mergeSort fun a b => a.id ≤ b.id).flatMap (·.ws)).filter fun w => !w.isSpec

/-- A result's writes made visible in cycle `due`; where a later-issued result became visible in that cycle, its value remains (R63). -/
def Group.show (G : Group) (p : Pend) (due : Nat) : Group :=
  let G' := (p.ws ++ G.laterWrites p.id due).foldl Group.applyWrite G
  { G' with recent := { p with due := due } :: G'.recent.filter fun q => q.due == due }

/-- A result lands: its writes become visible in order, its flag is set, what KDEMAND delivered closes, and the guess lanes its
writes touch close at the end of the cycle (R62 to R64, R165). -/
def Group.land (G : Group) (p : Pend) : Group :=
  let hit := (p.ws.flatMap G.closedBy).filter fun x => !p.claims.contains x
  let G := if p.ws.isEmpty then G else G.show p p.due
  let G := { G with pend := G.pend.filter fun q => q.id != p.id }
  let G := G.raiseFlag p.setf p.id p.flagSince
  let G := G.closeLanes p.claims
  let G := if p.flagSince ≤ p.due then G.closeLanes hit
    else if hit.isEmpty then G
    else { G with pend := G.pend ++ [{ id := p.id, due := p.flagSince, ws := [], setf := none, flagSince := p.flagSince, claims := hit }] }
  G.settleTrails (max p.flagSince p.due)

end Sys2Proof.Machine
end

