-- ==== Sys2Proof/Machine/Mem.lean ====
section
/-! DEFINITION. Where an access goes and what it finds: page walks (R136 to R141), regions, holders and rights (R178 to R187), the
pointer spaces (R60, R134), the L1, the store buffer and home (R143, R352 to R354, R385). -/

namespace Sys2Proof.Machine

open Sys2Proof

/-! ## Pointers (R59) -/

/-- RANK. -/
def Ptr.rank (p : Ptr) : Nat := (p.extractLsb' 84 12).toNat
/-- SPACE. -/
def Ptr.space (p : Ptr) : Nat := (p.extractLsb' 80 4).toNat
/-- ADDR. -/
def Ptr.addr (p : Ptr) : Nat := (p.extractLsb' 0 80).toNat
/-- The home module of a space-0 address. -/
def Ptr.module (p : Ptr) : Nat := (p.extractLsb' 62 18).toNat
/-- The local address of a space-0 address. -/
def Ptr.local (p : Ptr) : Nat := (p.extractLsb' 0 62).toNat

/-- A pointer advanced by a signed number of bytes, as PADD advances it. -/
def Ptr.advance (p : Ptr) (b : Int) : Ptr :=
  if Ptr.space p = 0 then
    (p &&& ~~~((2 ^ 62 - 1 : Nat) : Ptr)) ||| BitVec.ofNat 96 (((Ptr.local p : Int) + b) % 2 ^ 62).toNat
  else (p &&& ~~~((2 ^ 80 - 1 : Nat) : Ptr)) ||| BitVec.ofNat 96 (((Ptr.addr p : Int) + b) % 2 ^ 80).toNat

/-- A pointer from three words, lowest first. -/
def ptrOf (a b c : Word) : Ptr := c ++ b ++ a

/-! ## Physical addresses (R12, R139) -/

/-- Whether a physical address is one of the map of R139. -/
def inMap (pa : Nat) : Bool :=
  if pa / 2 ^ 48 = 1 then pa % 2 ^ 48 < 2 ^ 32 else pa < 2 ^ 37

/-- The home die of a physical address. -/
def homeDie (pa : Nat) : Nat := if pa / 2 ^ 48 = 1 then pa / 2 ^ 30 % 4 else pa / 2 ^ 35 % 4

/-- The slice index of R12 before fencing. -/
def homeIndex (pa : Nat) : Nat :=
  [7, 13, 19, 25, 31, 37, 43].foldl (fun h k => h ^^^ (pa / 2 ^ k % 64)) 0

/-- The home slice after fencing (R13): the lowest unfenced slice of the quadrant, else of the next quadrant. `fenced` holds bit
64 × die + slice. None when the die has no slice left. -/
def homeSlice (fenced : BitVec 256) (pa : Nat) : Option Nat :=
  let d := homeDie pa
  let h := homeIndex pa
  let isF (i : Nat) : Bool := fenced.getLsbD (64 * d + i)
  if !isF h then some (64 * d + h)
  else
    let qs := (List.range 4).map fun i => (h / 16 + i) % 4
    (qs.flatMap fun q => ((List.range 16).map fun j => 16 * q + j).filter fun i => !isF i).head?.map fun i => 64 * d + i

/-! ## Page walks (R136 to R138, R141) -/

/-- A level of the tree: the low bit indexed, the bits, the table's size, and the leaf sizes allowed with their SIZE codes. -/
structure Level where
  lo : Nat
  bits : Nat
  size : Nat
  leaves : List (Nat × Nat)
  deriving DecidableEq, Repr

/-- Table 2, from level 5 to level 1. -/
def levels : List Level :=
  [⟨52, 10, 16384, []⟩, ⟨42, 10, 16384, []⟩, ⟨32, 10, 16384, [(4, 32)]⟩, ⟨21, 11, 32768, [(2, 21), (3, 26)]⟩,
    ⟨12, 9, 8192, [(0, 12), (1, 16)]⟩]

/-- What a walk gives: a translation, or a fault with the poisoned table it met, if any. -/
inductive Walked where
  | ok (e : Tlbe)
  | fault (c : Cause) (poison : Option (Nat × Nat))
  deriving DecidableEq, Repr

/-- Whether a table is poisoned: the host has not rewritten every byte of it since (R141). -/
def isPoisoned (ps : List PoisonT) (base : Nat) : Bool := ps.any fun p => p.base == base

/-- The walk from a table at the head level. -/
def walkFrom (m : Memory) (ue : List Nat) (ps : List PoisonT) (ctx va table : Nat) : List Level → Walked
  | [] => .fault .page none
  | l :: ls =>
    if table % l.size != 0 || !inMap table then .fault .page none
    else
      let a := table + 16 * (va / 2 ^ l.lo % 2 ^ l.bits)
      if isPoisoned ps table then .fault .tableUe (some (table, l.size))
      else if ue.contains (a / 128) then .fault .tableUe (some (table, l.size))
      else
        let e := m.readNat a 8
        let bit (i : Nat) : Bool := e / 2 ^ i % 2 == 1
        let pa := e / 2 ^ 12 % 2 ^ 37 * 2 ^ 12
        let sz := e / 2 ^ 5 % 8
        if !bit 0 || e / 2 ^ 49 != 0 || e / 2 ^ 8 % 16 != 0 || sz ≥ 5 then .fault .page none
        else if bit 1 then
          match l.leaves.find? fun x => x.1 == sz with
          | none => .fault .page none
          | some (_, log2) =>
            if !inMap pa || pa % 2 ^ log2 != 0 || (log2 == 32 && pa / 2 ^ 48 == 1) then .fault .page none
            else .ok ⟨ctx, va / 2 ^ log2 * 2 ^ log2, log2, pa, bit 2, bit 3, bit 4⟩
        else if sz != 0 then .fault .page none
        else walkFrom m ue ps ctx va pa ls

/-- The root table of a context (R371, PTROOT). -/
def CtxRegs.root (r : CtxRegs) : Nat := (r.ptrooth &&& 0x1FFFF).toNat * 2 ^ 32 + (r.ptroot &&& 0xFFFFC000).toNat

/-- Whether a cached translation serves an address. -/
def Tlbe.serves (e : Tlbe) (ctx va : Nat) : Bool := e.ctx == ctx && va / 2 ^ e.log2 * 2 ^ e.log2 == e.va

/-- The physical address of an address a translation serves. -/
def Tlbe.phys (e : Tlbe) (va : Nat) : Nat := e.pa + va % 2 ^ e.log2

namespace State

/-- The walk of a context's tree. -/
def walk (s : State) (ctx va : Nat) : Walked := walkFrom s.mem s.ueLines s.poisoned ctx va (s.ctx ctx).regs.root levels

/-- A cached translation of a core, or of its quadrant. -/
def cached (s : State) (c ctx va : Nat) : Option Tlbe :=
  match (s.core c).caches.tlb.find? fun e => e.serves ctx va with
  | some e => some e
  | none => (s.quad (quadOf c)).tlb.find? fun e => e.serves ctx va

/-- The list with an item added; when it holds `cap`, one item goes, the implementation choosing which. -/
def keep {α : Type} (n : Nat) (cap : Nat) (x : α) (xs : List α) : List α :=
  if xs.length < cap then x :: xs else x :: xs.eraseIdx (n % max 1 xs.length)

/-- A translation cached in a core's L1 TLB and its quadrant's L2 TLB (R140). -/
def fillTlb (s : State) (c : Nat) (e : Tlbe) : State :=
  let (n, s) := s.freeNat
  let s := s.modCore c fun k => { k with caches := { k.caches with tlb := keep n 512 e (k.caches.tlb.filter (· != e)) } }
  s.modQuad (quadOf c) fun q => { q with tlb := keep n 16384 e (q.tlb.filter (· != e)) }

/-- A poisoned table: later walks of it fault until the host has rewritten it, and the host is told once of every context whose walk
meets it (R141). -/
def poison (s : State) (ctx base size : Nat) : State :=
  match s.poisoned.find? fun p => p.base == base with
  | none =>
    let s : State := { s with poisoned := s.poisoned ++ [⟨base, size, [], [ctx]⟩] }
    s.emit (.hostInterrupt ctx)
  | some p =>
    if p.told.contains ctx then s
    else
      let s : State := { s with poisoned := s.poisoned.map fun q => if q.base = base then { q with told := ctx :: q.told } else q }
      s.emit (.hostInterrupt ctx)

/-- A walk with what it does to a table it finds uncorrectable (R141). -/
def walkMark (s : State) (ctx va : Nat) : Walked × State :=
  match s.walk ctx va with
  | .fault k (some (b, z)) => (.fault k (some (b, z)), s.poison ctx b z)
  | w => (w, s)

/-- The walks a quadrant's page walker runs at once (R140). -/
def walkers : Nat := 64

/-- A page walk started for a core, after `n` cycles and one; when the walker is full the miss queues in order of arrival (R140). -/
def beginWalk (s : State) (w : Walk) (n : Nat) : State :=
  let q := quadOf w.core
  if (s.quad q).walks.length < walkers then
    (s.modQuad q fun x => { x with walks := x.walks ++ [w] }).postQ w.core (s.now w.core + 1 + n) (.pageWalkComplete q w.id)
  else s.modQuad q fun x => { x with walkQ := x.walkQ ++ [w] }

/-- Whether a miss of a core to a page is with the page walker already. -/
def walking (s : State) (c ctx va : Nat) (kept : Bool) : Bool :=
  let x := s.quad (quadOf c)
  (x.walks ++ x.walkQ).any fun w => w.core == c && w.ctx == ctx && w.va / 4096 == va / 4096 && w.keep == kept

/-- A walk for a page an access of a core has missed in the TLBs, unless one is under way for that page. -/
def startWalk (s : State) (c ctx va : Nat) : State :=
  if s.walking c ctx va false then s
  else
    let (id, s) := s.fresh
    let (n, s) := s.freeNat
    s.beginWalk ⟨id, c, ctx, va, false⟩ n

/-- How a translation for one who is no access fares. -/
inductive Trans where
  | ok (e : Tlbe)
  | bad (c : Cause)
  | wait
  deriving DecidableEq, Repr

/-- A translation for a core's fetch, an engine or an instruction that is no access: cached, or by a walk of the quadrant's page
walker, whose fault is kept for it; the walk takes a free time (R140; assumption 9). -/
def translate (s : State) (c ctx va : Nat) : Trans × State :=
  match s.cached c ctx va with
  | some e => (.ok e, s)
  | none => match (s.core c).badWalks.find? fun b => b.ctx == ctx && b.va / 4096 == va / 4096 && s.now c ≤ b.at' + 1 with
    | some b => (.bad b.cause, s)
    | none =>
      if s.walking c ctx va true then (.wait, s)
      else
        let (n, s) := s.freeNat
        if n = 0 && (s.quad (quadOf c)).walks.length < walkers then match s.walkMark ctx va with
          | (.ok e, s) => (.ok e, s.fillTlb c e)
          | (.fault k _, s) => (.bad k, s)
        else
          let (id, s) := s.fresh
          (.wait, s.beginWalk ⟨id, c, ctx, va, true⟩ (n - 1))

end State

/-! ## Holders (R179 to R181) -/

/-- A holder id. -/
def holderId (cls ctx idx : Nat) : Word := BitVec.ofNat 32 (cls * 2 ^ 28 + ctx * 2 ^ 24 + idx % 2 ^ 24)

/-- The class of a holder id. -/
def holderClass (h : Word) : Nat := (h.extractLsb' 28 4).toNat
/-- The context field of a holder id. -/
def holderCtx (h : Word) : Nat := (h.extractLsb' 24 4).toNat
/-- The index field of a holder id. -/
def holderIndex (h : Word) : Nat := (h.extractLsb' 0 24).toNat

/-- The id that names no holder. -/
def noHolder : Word := 0xFFFFFFFF

/-- Who acts: a group on a core, or an engine operation it issued, in the slot `eng`; `num` is the number of the operation that acts, if
it has issued: what issued later is not there for it (R194). -/
structure Who where
  c : Nat
  ctx : Nat
  crew : Nat
  pos : Nat
  eng : Option Nat
  num : Option Nat
  deriving DecidableEq, Repr

/-- A group as one who acts. -/
def Group.who (G : Group) (c : Nat) : Who := ⟨c, G.ctx, G.crew, G.pos, none, none⟩

namespace State

/-- The holders that cover one who acts (R181): group, crew, core, gang, leg, module, and the engine operation itself. -/
def covering (s : State) (w : Who) : List Word :=
  let k := s.crew? w.ctx w.crew
  (match w.eng with
    | some e => [holderId 5 w.ctx ((((s.ctx w.ctx).logical w.c).getD 0) * 64 + e)]
    | none => []) ++
  [holderId 0 w.ctx (w.crew * 16 + w.pos), holderId 1 w.ctx w.crew, holderId 4 w.ctx (((s.ctx w.ctx).logical w.c).getD 0),
    holderId 2 w.ctx ((k.map (·.gang)).getD 0), holderId 3 w.ctx ((k.map (·.leg)).getD 0), holderId 6 w.ctx Config.thisModule]

/-- The id of the holder of a class that covers one who acts (R196). -/
def holderOf (s : State) (w : Who) (h : HC) : Word :=
  let k := s.crew? w.ctx w.crew
  match h with
  | .grp => holderId 0 w.ctx (w.crew * 16 + w.pos)
  | .crew => holderId 1 w.ctx w.crew
  | .gang => holderId 2 w.ctx ((k.map (·.gang)).getD 0)
  | .leg => holderId 3 w.ctx ((k.map (·.leg)).getD 0)
  | .core => holderId 4 w.ctx (((s.ctx w.ctx).logical w.c).getD 0)

/-- The group of an operation as one who acts. -/
def opWho (s : State) (c : Nat) (o : Op) : Who :=
  { ((s.group? c o.slot).map (·.who c)).getD ⟨c, 0, 0, 0, none, none⟩ with num := some o.id }

end State

/-- The holder class a token instruction acts for. -/
def tokClass : Instr → HC
  | .tklend x | .tkret x | .tktake x | .tksplit x | .tkjoin x | .tkshare x | .tkunshare x | .tkhome x | .tkunhome x | .tkadopt x => x.hc
  | _ => .crew

/-! ## Regions (R178, R182) -/

/-- Whether a region holds a local address. -/
def Region.holds (r : Region) (a : Nat) : Bool := r.base ≤ a && a < r.base + 2 ^ r.k

/-- The region of a context that holds a local address. -/
def Ctx.region? (x : Ctx) (a : Nat) : Option Region := x.regions.find? fun r => r.holds a

/-- A context with the region at a base replaced. -/
def Ctx.setRegion (x : Ctx) (r : Region) : Ctx := { x with regions := x.regions.map fun q => if q.base = r.base then r else q }

/-- The entries a context's area holds at most (R182). -/
def Ctx.capacity (x : Ctx) : Nat := if x.regs.toksz.toNat < 6 then 0 else 2 ^ (x.regs.toksz.toNat - 6)

/-- What an access may do (R142, R186). -/
inductive Right where
  /-- Served in the core's L1 (a region its holder owns or shares). -/
  | cache
  /-- Served at home: a HOMED region, or a page with W = 0. -/
  | home (homed : Bool)
  /-- Waits for a LENT region, or for one on its way to HOMED, to arrive. -/
  | stall
  | fault (c : Cause)
  deriving DecidableEq, Repr

/-- Table 4 for a region's state as the issuing core sees it. -/
def rightsOf (st : RState) (ownerCovers pinned store : Bool) : Right :=
  match st with
  | .free => .fault .tokNone
  | .owned => if ownerCovers then .cache else .fault .tokNone
  | .shared => if ownerCovers || pinned then (if store then .fault .tokRo else .cache) else .fault .tokNone
  | .homed => .home true
  | .lent => if ownerCovers then .stall else .fault .tokLent
  | .orphaned => .fault .tokOrphan

/-- What a token instruction in flight on the issuing core has already changed for that core (R194, Table 5). -/
inductive InFlight where
  | none
  | lend (recipient : Word)
  | share
  | home
  deriving DecidableEq, Repr

/-- The mode of the grant of a queued leg whose flush of a region is under way (R190). -/
def Leg.granting (l : Leg) (base : Nat) : Option (Fin 3) :=
  if l.flush.any fun f => f.bases.contains base then (l.lr.grants.find? fun g => Ptr.local g.ptr == base).map (·.mode) else none

namespace State

/-- What changes a region for the accesses of its owner's core before home has recorded it: the oldest token instruction of the owner in
flight on that core that issued before the access (Table 5), or a grant of the owner's whose flush is under way (R190). -/
def inFlight (s : State) (w : Who) (r : Region) : InFlight :=
  let x := s.ctx w.ctx
  (((s.core w.c).ops.findSome? fun o =>
    if (o.stage == .home || o.stage == .check) && o.last == BitVec.ofNat 32 w.ctx && w.num.all (o.id < ·) &&
        s.holderOf (s.opWho w.c o) (tokClass o.ins) == r.owner && (o.accs.any fun a =>
          Ptr.module a.ptr == Config.thisModule && r.holds (Ptr.local a.ptr)) then
      match o.ins with
      | .tklend _ => some (InFlight.lend (o.args[0]?.getD noHolder))
      | .tkshare _ => some .share
      | .tkhome _ => some .home
      | _ => none
    else none).or (x.queue.findSome? fun l => (l.granting r.base).bind fun m =>
      if m = 2 then some .home else if m = 1 then some .share else none)).getD .none

/-- The rights of one who acts to an address, its page being writable (R186). -/
def rights (s : State) (w : Who) (a : Nat) (store : Bool) : Right :=
  match (s.ctx w.ctx).region? a with
  | none => .fault .tokNone
  | some r =>
    let cov := s.covering w
    let own := cov.contains r.owner
    let pin := (s.core w.c).caches.pins.any fun p => p.ctx == w.ctx && p.base == r.base && cov.contains p.holder
    match s.inFlight w r with
    | .lend h => if own && r.st == .owned then rightsOf .lent (cov.contains h) pin store else rightsOf r.st own pin store
    | .share => if own && r.st == .owned then rightsOf .shared own pin store else rightsOf r.st own pin store
    | .home => if own && r.st == .owned then .stall else rightsOf r.st own pin store
    | .none => rightsOf r.st own pin store

end State

/-! ## Monitored words (R221, R222) -/

namespace State

/-- A monitored word has been given a value: the operations that watch its place see it. -/
def note (s : State) (hit : Spot → Bool) (value : State → Spot → Word) : State :=
  if s.watch.isEmpty then s
  else { s with watch := s.watch.map fun w => if hit w.spot then { w with seen := w.seen ++ [(s.now w.core, value s w.spot)] } else w }

end State

/-! ## The bytes of home (R12, R348) -/

/-- The 128-byte lines that a list of addresses covers whole. -/
def wholeLines (xs : List (Nat × Byte)) : List Nat :=
  let ls := (xs.map fun x => x.1 / 128).dedup
  ls.filter fun l => (List.range 128).all fun i => xs.any fun x => x.1 == 128 * l + i

namespace State

/-- The word at home that an operation monitors. -/
def homeWord (s : State) : Spot → Word
  | .home pa => s.mem.readWord pa
  | _ => 0

/-- Bytes written at home; a store of a whole line clears its uncorrectable mark (R345, R348). -/
def homeWrite (s : State) (xs : List (Nat × Byte)) : State :=
  let s : State := { s with
    mem := xs.foldl (fun m x => m.write x.1 x.2) s.mem,
    ueLines := if s.ueLines.isEmpty then [] else
      let w := wholeLines xs
      s.ueLines.filter fun l => !w.contains l }
  s.note (fun p => match p with
    | .home pa => xs.any fun x => pa ≤ x.1 && x.1 < pa + 4
    | _ => false) homeWord

/-- Consecutive bytes written at home. Floor and far memory of a die with no slice left has no home (R13); the spec says no more of it, and
here its bytes stay as they are and are served as before (assumption 112). -/
def homeWriteAt (s : State) (pa : Nat) (bs : List Byte) : State := s.homeWrite (bs.zipIdx.map fun (b, i) => (pa + i, b))

/-- Whether the line of an address is uncorrectable at home. -/
def ueAt (s : State) (pa : Nat) : Bool := s.ueLines.contains (pa / 128)

end State

/-! ## L1 lines (R385) -/

/-- Byte `i` of a line. -/
def Line.byte (l : Line) (i : Nat) : Byte := l.data.extractLsb' (8 * i) 8

/-- A line with byte `i` replaced. -/
def Line.setByte (l : Line) (i : Nat) (b : Byte) : Line :=
  { l with dirty := true, ue := l.ue &&& ~~~(1#128 <<< i),
           data := (l.data &&& ~~~((0xFF : BitVec 1024) <<< (8 * i))) ||| (b.zeroExtend 1024 <<< (8 * i)) }

/-- The bytes of a line with their physical addresses, but those that are uncorrectable. -/
def Line.bytes (l : Line) : List (Nat × Byte) :=
  ((List.range 128).filter fun i => !l.ue.getLsbD i).map fun i => (l.pa + i, l.byte i)

/-- A line as home holds it. -/
def homeLine (m : Memory) (ue : Bool) (ctx va pa : Nat) : Line :=
  let base := pa / 128 * 128
  ⟨ctx, va / 128 * 128, base, BitVec.ofNat 1024 (m.readNat base 128), false, if ue then BitVec.allOnes 128 else 0, 0, (0, 0)⟩

/-- Lines of an L1 data cache: 256 KiB of 128-byte lines (chapter 1, Table 3). -/
def l1Lines : Nat := 2048

namespace State

/-- The line of a physical address in a core's L1. -/
def l1? (s : State) (c pa : Nat) : Option Line := (s.core c).caches.l1.find? fun l => l.pa == pa / 128 * 128

/-- The L1 of a core replaced. -/
def setL1 (s : State) (c : Nat) (ls : List Line) : State :=
  s.modCore c fun k => { k with caches := { k.caches with l1 := ls } }

/-- A byte's latest store in the buffer of the crew that acts, if one is there. -/
def buffered (s : State) (w : Who) (va : Nat) : Option Byte :=
  ((s.crew? w.ctx w.crew).bind fun k => k.sbuf.find? fun e => e.blk == va / 32 * 32 && e.mask.getLsbD (va % 32)).map fun e =>
    e.data.extractLsb' (8 * (va % 32)) 8

/-- A byte that another, committed crew of a core has stored and whose buffer still drains into that core's L1: it is performed for every
thread of the core (R152, R310, R354). -/
def draining (s : State) (w : Who) (va : Nat) : Option Byte :=
  (s.ctx w.ctx).crews.findSome? fun k =>
    if k.committed && k.core == w.c && k.onCore && k.id != w.crew then s.buffered { w with crew := k.id } va else none

/-- A byte as a group of a crew reads it: its latest store in the buffer, else what its core's L1 and the draining buffers of the core hold
when the region is cached, else home. -/
def byte0 (s : State) (w : Who) (va pa : Nat) (cached : Bool) : Byte :=
  match s.buffered w va with
  | some b => b
  | none => if cached then match s.draining w va, s.l1? w.c pa with
      | some b, _ => b
      | none, some l => l.byte (pa % 128)
      | none, none => s.mem.read pa
    else s.mem.read pa

/-- Whether a byte that a group of a crew reads is uncorrectable. -/
def ueByte0 (s : State) (w : Who) (va pa : Nat) (cached : Bool) : Bool :=
  let home := if cached then match s.l1? w.c pa with
      | some l => l.ue.getLsbD (pa % 128) && (s.draining w va).isNone
      | none => s.ueAt pa && (s.draining w va).isNone
    else s.ueAt pa
  home && (s.buffered w va).isNone

/-- A line brought into a core's L1, evicting one when it is full: a dirty victim is written back first (R385). -/
def fillL1 (s : State) (c ctx va pa : Nat) : State :=
  match s.l1? c pa with
  | some _ => s
  | none =>
    let new := homeLine s.mem (s.ueAt pa) ctx va pa
    let ls := (s.core c).caches.l1
    if ls.length < l1Lines then s.setL1 c (new :: ls)
    else
      let (n, s) := s.freeNat
      let i := n % max 1 ls.length
      match ls[i]? with
      | some v => (if v.dirty then s.homeWrite v.bytes else s).setL1 c (new :: ls.eraseIdx i)
      | none => s.setL1 c (new :: ls)

/-- A byte that a group of a crew on a core reads of a place in that core's L1: its latest store in the crew's buffer, else the L1, else
home. -/
def coreByte (s : State) (c ctx crew va pa : Nat) : Byte := s.byte0 ⟨c, ctx, crew, 0, none, none⟩ va pa true

/-- The word of a core's L1 or store buffer that an operation monitors. -/
def coreWord (s : State) : Spot → Word
  | .core c ctx crew va pa => BitVec.ofNat 32 (leNat ((List.range 4).map fun i => s.coreByte c ctx crew (va + i) (pa + i)))
  | _ => 0

/-- Bytes written into a core's L1, which the line's region allows (R143). -/
def l1Write (s : State) (c ctx va pa : Nat) (bs : List Byte) : State :=
  let s := s.fillL1 c ctx va pa
  (s.setL1 c ((s.core c).caches.l1.map fun l =>
    if l.pa = pa / 128 * 128 then bs.zipIdx.foldl (fun l (b, i) => l.setByte (pa % 128 + i) b) l else l)).note
      (fun p => match p with
        | .core d _ _ _ a => d == c && a < pa + bs.length && pa < a + 4
        | _ => false) coreWord

/-- R188: a region's dirty lines of a core written back, and its lines invalidated, or with `onlyDirty` the dirty ones. -/
def flushRegion (s : State) (c ctx base k : Nat) (onlyDirty : Bool) : State :=
  let mine (l : Line) : Bool := l.ctx == ctx && base ≤ l.va && l.va < base + 2 ^ k
  let ls := (s.core c).caches.l1
  let s := (ls.filter fun l => mine l && l.dirty).foldl (fun s l => s.homeWrite l.bytes) s
  s.setL1 c (ls.filter fun l => !(mine l && (l.dirty || !onlyDirty)))

/-- A region's lines of a core dropped without a write. -/
def dropLines (s : State) (c ctx base k : Nat) : State :=
  s.setL1 c ((s.core c).caches.l1.filter fun l => !(l.ctx == ctx && base ≤ l.va && l.va < base + 2 ^ k))

end State

/-! ## Store buffers (R352 to R354) -/

/-- The bytes of an entry with their offsets in the block. -/
def SBEntry.bytes (e : SBEntry) : List (Nat × Byte) := (bitsOf e.mask).map fun i => (i, e.data.extractLsb' (8 * i) 8)

/-- A byte merged into an entry. -/
def SBEntry.put (e : SBEntry) (i : Nat) (b : Byte) : SBEntry :=
  { e with mask := e.mask ||| (1#32 <<< i),
           data := (e.data &&& ~~~((0xFF : BitVec 256) <<< (8 * i))) ||| (b.zeroExtend 256 <<< (8 * i)) }

namespace State

/-- The number a byte of another module has among the local addresses of a store buffer's blocks: above them all. -/
def remoteBlk (a : Nat) : Nat := 2 ^ 80 + a

/-- The core a single-core holder is on (Table 2). -/
def holderCore (s : State) (h : Word) : Option Nat :=
  let ctx := holderCtx h
  match holderClass h with
  | 0 => (s.crew? ctx (holderIndex h / 16)).map (·.core)
  | 1 => (s.crew? ctx (holderIndex h)).map (·.core)
  | 4 => (s.ctx ctx).physical (holderIndex h)
  | 5 => (s.ctx ctx).physical (holderIndex h / 64)
  | _ => none

/-- Bytes of a crew's store that leave for another module, by their numbers there: the module is told, and the crew knows them (R143). -/
def sendRemote (s : State) (w : Who) (xs : List (Nat × Byte)) : State :=
  let blk := (xs.head?.map (·.1)).getD 0
  (s.emit (.remote w.c blk)).modCrew w.ctx w.crew fun k => { k with gone := xs ++ k.gone.filter fun c => !xs.any fun x => x.1 == c.1 }

/-- A buffered entry goes where its region's state now sends it (R354): that of a region a holder of this core owns, OWNED, into the L1 of
the crew's core; any other home, and into the line of it that this L1 holds; one of another module to that module. -/
def drainEntry (s : State) (w : Who) (e : SBEntry) : State :=
  if remoteBlk 0 ≤ e.blk then s.sendRemote w (e.bytes.map fun (i, b) => (e.blk + i, b))
  else
  let here : Bool := ((s.ctx w.ctx).region? e.blk).any fun (r : Region) => r.st == .owned && s.holderCore r.owner == some w.c
  let l1 (s : State) : State := e.bytes.foldl (fun s (i, b) => s.l1Write w.c w.ctx (e.blk + i) (e.pa + i) [b]) s
  if here then l1 s
  else
    let s := s.homeWrite (e.bytes.map fun (i, b) => (e.pa + i, b))
    if (s.l1? w.c e.pa).isSome then l1 s else s

/-- One entry drained, oldest first. -/
def drainOne (s : State) (ctx crew : Nat) : State :=
  match s.crew? ctx crew with
  | none => s
  | some k => match k.sbuf with
    | [] => s
    | e :: rest => (s.drainEntry ⟨k.core, ctx, crew, 0, none, none⟩ e).modCrew ctx crew fun k => { k with sbuf := rest }

/-- The whole buffer drained. -/
def drainAll (s : State) (ctx crew : Nat) : State :=
  match s.crew? ctx crew with
  | none => s
  | some k => (k.sbuf.foldl (fun s e => s.drainEntry ⟨k.core, ctx, crew, 0, none, none⟩ e) s).modCrew ctx crew fun k => { k with sbuf := [] }

/-- R353, R354: the crew commits, once, and its buffer begins to drain one entry a cycle. -/
def commit (s : State) (ctx crew : Nat) (reason : BitVec 4) : State :=
  match s.crew? ctx crew with
  | none => s
  | some k =>
    if k.committed then s
    else
      let s := s.modCrew ctx crew fun k => { k with committed := true, reason := reason }
      if k.sbuf.isEmpty then s else s.postQ k.core (s.now k.core + 1) (.storeBufferDrain ctx crew)

/-- A crew's entry of a block drained before its turn. -/
def drainBlock (s : State) (w : Who) (blk : Nat) : State :=
  match s.crew? w.ctx w.crew with
  | none => s
  | some k => match k.sbuf.find? (fun (e : SBEntry) => e.blk == blk) with
    | none => s
    | some e => (s.drainEntry w e).modCrew w.ctx w.crew fun k => { k with sbuf := k.sbuf.filter fun (e : SBEntry) => e.blk != blk }

/-- Bytes of a store of a committed crew, or to a HOMED region: any entry of the block in its buffer, or in that of another committed crew of
its core, goes first (R143, R306). -/
def storeThrough (s : State) (w : Who) (va pa : Nat) (bs : List Byte) (cached : Bool) : State :=
  let blk := va / 32 * 32
  let s := ((s.ctx w.ctx).crews.filter fun k => k.committed && k.core == w.c && k.onCore && k.id != w.crew && remoteBlk 0 > va).foldl
    (fun (s : State) k => s.drainBlock { w with crew := k.id } blk) s
  let s := s.drainBlock w blk
  if remoteBlk 0 ≤ va then s.sendRemote w (bs.zipIdx.map fun (b, i) => (va + i, b))
  else if cached then s.l1Write w.c w.ctx va pa bs else s.homeWriteAt pa bs

/-- A space-0 store of bytes within one 32-byte block (R143, R352, R353): into the store buffer while the crew is uncommitted, else
to the L1 or home. A store to a HOMED region commits the crew first, and so does one that finds the buffer full. -/
def store0 (s : State) (w : Who) (va pa : Nat) (bs : List Byte) (homed : Bool) : State :=
  if homed then (s.commit w.ctx w.crew 2).storeThrough w va pa bs false
  else match s.crew? w.ctx w.crew with
    | none => s.storeThrough w va pa bs true
    | some k =>
      if k.committed then s.storeThrough w va pa bs true
      else
        let blk := va / 32 * 32
        let put (e : SBEntry) : SBEntry := bs.zipIdx.foldl (fun e (b, i) => e.put (va % 32 + i) b) e
        let seen (s : State) : State := s.note (fun p => match p with
          | .core d x y a _ => d == w.c && x == w.ctx && y == w.crew && a < va + bs.length && va < a + 4
          | _ => false) coreWord
        if k.sbuf.any (fun (e : SBEntry) => e.blk == blk) then
          seen (s.modCrew w.ctx w.crew fun k => { k with sbuf := k.sbuf.map fun e => if e.blk = blk then put e else e })
        else if k.sbuf.length < 512 then
          seen (s.modCrew w.ctx w.crew fun k => { k with sbuf := k.sbuf ++ [put ⟨blk, pa / 32 * 32, 0, 0⟩] })
        else (s.commit w.ctx w.crew 5).storeThrough w va pa bs true

end State

/-! ## Scratchpads (R134, R157, R158) -/

/-- Bytes of a crew's allocation written; every word touched loses its spill mark. -/
def Crew.writeScratch (k : Crew) (off : Nat) (bs : List Byte) : Crew :=
  { k with scratch := k.scratch.writeBytes off bs,
           spill := k.spill.filter fun w => !(off / 4 ≤ w && w ≤ (off + bs.length - 1) / 4),
           ueWords := k.ueWords.filter fun w => !(off ≤ 4 * w && 4 * w + 4 ≤ off + bs.length) }

/-- The spill marks of the words of a range. -/
def Crew.spilled (k : Crew) (off n : Nat) : BitVec 4 := maskOf 4 fun i => 4 * i < n && k.spill.contains (off / 4 + i)

/-- Whether any word of a range is uncorrectable. -/
def Crew.ueIn (k : Crew) (off n : Nat) : Bool := k.ueWords.any fun w => off / 4 ≤ w && w ≤ (off + n - 1) / 4

namespace State

/-- The word of a scratchpad that an operation monitors. -/
def scratchWord (s : State) : Spot → Word
  | .scratch ctx crew off => ((s.crew? ctx crew).map fun k => k.scratch.readWord off).getD 0
  | _ => 0

/-- Bytes written into a crew's allocation. -/
def scratchWrite (s : State) (ctx crew off : Nat) (bs : List Byte) : State :=
  (s.modCrew ctx crew fun k => k.writeScratch off bs).note (fun p => match p with
    | .scratch x y a => x == ctx && y == crew && a < off + bs.length && off < a + 4
    | _ => false) scratchWord

end State

/-! ## Where an effective pointer leads (R60, R134, R300) -/

/-- The place of an access. -/
inductive Place where
  /-- A gang member that has not attached yet: the access waits (R300). -/
  | wait
  /-- Space 0 of this module, a local address. -/
  | global (a : Nat)
  /-- Space 0 of another module: the address with its module. -/
  | remote (a : Nat)
  /-- A crew's allocation, at an offset. -/
  | scratch (crew : Nat) (off : Nat)
  /-- The launch record and constant table. -/
  | record (off : Nat)
  deriving DecidableEq, Repr

namespace State

/-- The crew of a gang with a member index. -/
def member (s : State) (ctx gang rank : Nat) : Option Crew := (s.ctx ctx).crews.find? fun k => k.gang == gang && k.grank == rank

/-- The number of crews of a crew's gang, as its launch record gives it. -/
def gangSize (s : State) (ctx : Nat) (k : Crew) : Nat := ((s.leg? ctx k.leg).map (·.lr.gang)).getD 1

/-- The physical core of a position in the reader's logical cluster. -/
def peerCore (s : State) (ctx c rank : Nat) : Option Nat :=
  let x := s.ctx ctx
  match x.places.find? fun (_, e) => placeCore e == some c with
  | none => none
  | some (_, e) =>
    (x.places.find? fun (_, f) => f.extractLsb' 25 6 == e.extractLsb' 25 6 && f.extractLsb' 19 2 == e.extractLsb' 19 2 &&
      (f.extractLsb' 23 2).toNat == rank).bind fun (_, f) => placeCore f

/-- R60 and R134 for `n` bytes at a pointer: the place, or the cause. `store` covers stores, atomics and token operations. -/
def route (s : State) (w : Who) (p : Ptr) (n : Nat) (store : Bool) : Except Cause Place :=
  let off := Ptr.addr p
  match s.crew? w.ctx w.crew with
  | none => .error .illPtr
  | some k => match Ptr.space p with
    | 0 =>
      if Ptr.rank p != 0 then .error .illPtr
      else if Ptr.module p = Config.thisModule then .ok (.global (Ptr.local p)) else .ok (.remote (Ptr.addr p))
    | 1 => if off + n ≤ k.size then .ok (.scratch k.id off) else .error .prot
    | 2 =>
      if Ptr.rank p ≥ s.gangSize w.ctx k then .error .illPtr
      else if k.att == .detached then .error .gangGone
      else match s.member w.ctx k.gang (Ptr.rank p) with
        | none => .error .gangGone
        | some m => match m.att with
          | .attached a b =>
            if off + n ≤ b then (match m.st with
              | .suspended _ => .ok .wait
              | _ => .ok (.scratch m.id (a + off)))
            else .error .prot
          | .detached => .error .gangGone
          | .never => .ok .wait
    | 3 =>
      if Ptr.rank p > 3 then .error .illPtr
      else match s.peerCore w.ctx w.c (Ptr.rank p) with
        | none => .error .illPtr
        | some c =>
          match (s.ctx w.ctx).crews.find? fun m => m.core == c && m.onCore && m.base ≤ off && off + n ≤ m.base + m.size with
          | some m => .ok (.scratch m.id (off - m.base))
          | none => .error .prot
    | 4 => if store then .error .prot else if off + n ≤ 512 then .ok (.record off) else .error .prot
    | _ => .error .illPtr

/-- The launch record and constant table as space 4 reads them (R134). -/
def recordByte (s : State) (w : Who) (off : Nat) : Byte :=
  match (s.crew? w.ctx w.crew).bind fun k => s.leg? w.ctx k.leg with
  | none => 0
  | some l =>
    if off < 256 then l.lr.bytes[off]?.getD 0
    else ((l.lr.consts[(off - 256) / 4]?).getD 0).extractLsb' (8 * (off % 4)) 8

end State

end Sys2Proof.Machine
end

