-- ==== Sys2Proof/Machine/Tok.lean ====
section
/-! DEFINITION. Region operations at home (R182 to R208): splitting and joining, pins and shares, the token cache, what a grant does,
and how tokens pass when a group or a crew ends or a core fails. -/

namespace Sys2Proof.Machine

open Sys2Proof

/-! ## Regions of a context -/

/-- The region with a base. -/
def Ctx.regionAt (x : Ctx) (base : Nat) : Option Region := x.regions.find? fun r => r.base == base

/-- R202: a region replaced by 2^b pieces that copy its state, owner, lender and caching core. -/
def Ctx.splitRegion (x : Ctx) (r : Region) (b : Nat) : Ctx :=
  { x with regions := (x.regions.filter fun q => q.base != r.base) ++
      (List.range (2 ^ b)).map fun i => { r with base := r.base + i * 2 ^ (r.k - b), k := r.k - b, shares := 0 } }

/-- The pieces of size 2^k that make up an aligned block of 2^(k+b). -/
def Ctx.pieces (x : Ctx) (block k b : Nat) : List Region :=
  x.regions.filter fun q => q.k == k && block ≤ q.base && q.base < block + 2 ^ (k + b)

/-- R202: the buddies of a region joined, when every one exists with its state, owner and lender and no share. -/
def Ctx.joinRegion (x : Ctx) (r : Region) (b : Nat) : Option Ctx :=
  let block := r.base / 2 ^ (r.k + b) * 2 ^ (r.k + b)
  let ps := x.pieces block r.k b
  if ps.length = 2 ^ b ∧ ps.all (fun q => q.st == r.st && q.owner == r.owner && q.lender == r.lender && q.shares == 0) then
    some { x with regions := (x.regions.filter fun q => !(q.k == r.k && block ≤ q.base && q.base < block + 2 ^ (r.k + b))) ++
      [{ r with base := block, k := r.k + b, shares := 0, hcore := none }] }
  else none

/-- Whether a cached entry is that of a region. -/
def TokE.isOf (e : TokE) (ctx base : Nat) : Bool := e.ctx == ctx && e.base == base

/-- Pins that go with a crew: those of a core holder and of an engine operation do not (R191, R193). -/
def Pin.ofCrew (p : Pin) (ctx crew : Nat) : Bool := p.ctx == ctx && p.crew == crew && !(holderClass p.holder ∈ [4, 5])

/-- Whether a holder is a crew or one of its groups. -/
def ofCrew (ctx crew : Nat) (h : Word) : Bool :=
  (holderClass h == 0 && holderCtx h == ctx && holderIndex h / 16 == crew) || (h == holderId 1 ctx crew)

/-- Who has a region after a crew's exit (R191): its lender when the crew borrowed it, else the launcher, one that the crew lent to itself
among them. -/
def heir (ctx crew : Nat) (launcher : Word) (r : Region) : Word :=
  if r.lender = noHolder ∨ ofCrew ctx crew r.lender then launcher else r.lender

namespace State

/-! ## The token cache (R183) -/

/-- A core's caches changed. -/
def modCaches (s : State) (c : Nat) (f : Caches → Caches) : State := s.modCore c fun k => { k with caches := f k.caches }

/-- The entry of a region invalidated at the core that caches it. -/
def dropTok (s : State) (ctx : Nat) (r : Region) : State :=
  match r.hcore with
  | some c => s.modCaches c fun k => { k with tok := k.tok.filter fun e => !e.isOf ctx r.base }
  | none => s

/-- A use of a region's entry on a core: the cycle from which its rights are known, 0 when they were, and the state with the entry most
recently used. The core caches the entries of regions whose owner is on it, and a pin shows its rights by itself; the entry of any other
region is read at home each time. A miss reads the entry at home, where it arrives in cycle `miss`, evicts the least recently used one
when entries and pins are 256, and sets HCORE for the owner's core. -/
def useTok (s : State) (c ctx : Nat) (r : Region) (miss : Nat) : Nat × State :=
  let k := (s.core c).caches
  if s.holderCore r.owner != some c then (if k.pins.any fun p => p.ctx == ctx && p.base == r.base then 0 else miss, s)
  else
    let old := k.tok.find? fun e => e.isOf ctx r.base
    let ready := match old with
      | some e => e.ready
      | none => miss
    let rest := k.tok.filter fun e => !e.isOf ctx r.base
    let rest := if old.isSome || rest.length + k.pins.length < 256 then rest else rest.dropLast
    let s := s.modCaches c fun k => { k with tok := ⟨ctx, r.base, ready⟩ :: rest }
    let s := if r.st = .owned && r.hcore.isNone then s.modCtx ctx fun x => x.setRegion { r with hcore := some c } else s
    (ready, s)

/-- Operations that wait on the state of a region are told that one has changed: stalls on LENT regions (R187), and TKTAKEs
(R201). -/
def wakeRegions (s : State) : State :=
  let wakes (c : Nat) (o : Op) : Option Instr :=
    match o.stage, o.ins with
    | .lent, _ => some (.lentStallRelease c o.id)
    | .waiting, .tktake _ => some (.tktakeComplete c o.id)
    | _, _ => none
  (List.range 768).foldl (fun s c => ((s.core c).ops.filterMap (wakes c)).foldl (fun s e => s.postQ c (s.now c) e) s) s

/-! ## Pins and shares (R185, R203, R204) -/

/-- Whether a core has room for one more pin of a holder on a region. -/
def pinRoom (s : State) (c ctx base : Nat) (h : Word) : Bool :=
  let ps := (s.core c).caches.pins
  ps.any (fun p => p.ctx == ctx && p.base == base && p.holder == h) || ps.length < 64

/-- A pin put into a core's token cache, which takes the place of an entry when all 256 are in use; a core holds at most 64. -/
def addPin (s : State) (c : Nat) (p : Pin) : State :=
  s.modCaches c fun k =>
    if k.pins.contains p || 64 ≤ k.pins.length then k
    else { k with pins := k.pins ++ [p], tok := k.tok.take (255 - k.pins.length) }

/-- Pins of a core released, with the lines of their regions in its L1 (R184, R316). -/
def dropPins (s : State) (c : Nat) (f : Pin → Bool) : State :=
  let s := ((s.core c).caches.pins.filter f).foldl (fun s p => match (s.ctx p.ctx).regionAt p.base with
    | some r => s.dropLines c p.ctx r.base r.k
    | none => s) s
  s.modCaches c fun k => { k with pins := k.pins.filter fun p => !f p }

/-- The regions a holder's share list holds. -/
def shareList (s : State) (ctx : Nat) (h : Word) : List Nat := ((s.ctx ctx).shares.filter fun x => x.holder == h).map (·.base)

/-- Whether a share can be granted: SHARES below its limit, and a free pin or list place (Table 7). -/
def shareRoom (s : State) (ctx : Nat) (r : Region) (h : Word) : Bool :=
  r.shares < 65535 &&
    (if holderClass h ∈ [2, 3, 6] then (s.shareList ctx h).contains r.base || (s.shareList ctx h).length < 8
    else match s.holderCore h with
      | some c => s.pinRoom c ctx r.base h
      | none => false)

/-- R203, steps 3 and 4: a share granted. The pin of a crew or of a group is that of its crew. -/
def grantShare (s : State) (ctx : Nat) (r : Region) (h : Word) : State :=
  let s := (s.dropTok ctx r).modCtx ctx fun x =>
    { x.setRegion { r with st := .shared, shares := r.shares + 1 } with
      shares := if x.shares.any (fun y => y.base == r.base && y.holder == h) then
          x.shares.map fun y => if y.base = r.base ∧ y.holder = h then { y with count := y.count + 1 } else y
        else x.shares ++ [⟨r.base, h, 1⟩] }
  if holderClass h ∈ [2, 3, 6] then s
  else match s.holderCore h with
    | some c => s.addPin c ⟨ctx, r.base, h, if holderClass h = 0 then holderIndex h / 16 else holderIndex h⟩
    | none => s

/-- The cores that hold a pin of a holder on a region. -/
def pinCores (s : State) (ctx base : Nat) (h : Word) : List Nat :=
  (List.range 768).filter fun c => (s.core c).caches.pins.any fun p => p.ctx == ctx && p.base == base && p.holder == h

/-- A holder's pins on a region released, with the lines of it in those cores' L1s. -/
def releasePins (s : State) (ctx : Nat) (r : Region) (h : Word) : State :=
  (s.pinCores ctx r.base h).foldl (fun s c => s.dropPins c fun p => p.ctx == ctx && p.base == r.base && p.holder == h) s

/-- R204: `n` shares of a holder returned; the pins stay until its last. -/
def returnShare (s : State) (ctx : Nat) (r : Region) (h : Word) (n : Nat) : State :=
  match (s.ctx ctx).shares.find? fun y => y.base == r.base && y.holder == h with
  | none => s
  | some y =>
    let last := y.count ≤ n
    let s := if last then s.releasePins ctx r h else s
    (s.dropTok ctx r).modCtx ctx fun x =>
      let left := r.shares - min n y.count
      { x.setRegion { r with shares := left, st := if left = 0 && r.st = .shared then .owned else r.st } with
        shares := (x.shares.map fun z => if z.base = r.base ∧ z.holder = h then { z with count := z.count - n } else z).filter
          fun z => z.count != 0 }

/-! ## Passing tokens on (R191 to R193) -/

/-- A region given to a holder: what lines of it a core still has are dropped, its entry is invalidated, and it has the new owner and
lender. A flush comes before (R188). -/
def passRegion (s : State) (ctx : Nat) (c : Nat) (r : Region) (owner lender : Word) : State :=
  ((s.dropLines c ctx r.base r.k).dropTok ctx r).modCtx ctx fun x => x.setRegion { r with owner := owner, lender := lender, hcore := none }

/-- The regions of a context that a holder owns or has lent pass to another holder, their entries changed at the cores that cache them
(R183). -/
def passAll (s : State) (ctx : Nat) (h k : Word) : State :=
  let s := ((s.ctx ctx).regions.filter fun r => r.owner == h || r.lender == h).foldl (fun s r => s.dropTok ctx r) s
  s.modCtx ctx fun x =>
    { x with regions := x.regions.map fun r =>
        { r with owner := if r.owner = h then k else r.owner, lender := if r.lender = h then k else r.lender } }

/-- The regions an engine operation still holds pass to its crew when it ends (R277). Of a share granted to the operation no rule says what
becomes of it then: it stays granted, and its pin with it (assumption 127). -/
def passEng (s : State) (c e ctx crew : Nat) : State :=
  s.passAll ctx (holderId 5 ctx ((((s.ctx ctx).logical c).getD 0) * 64 + e)) (holderId 1 ctx crew)

/-- R191 at a group's end: its regions pass to its crew, those it lent out return to its crew, and its pins are released. A group's
share is its pin (R185), so the shares it holds are returned. -/
def groupTokens (s : State) (ctx crew pos : Nat) : State :=
  let g := holderId 0 ctx (crew * 16 + pos)
  let s := s.passAll ctx g (holderId 1 ctx crew)
  ((s.shareList ctx g).foldl (fun s b => match (s.ctx ctx).regionAt b with
    | some r => s.returnShare ctx r g 65535
    | none => s) s).wakeRegions

/-- R191 at a crew's exit, its flushes being over: borrowed regions return to their lenders and the rest pass to the leg's launcher; regions
lent out get that launcher as lender; pins are released and crew-held shares returned. What groups of it still hold passes to it first. -/
def crewTokens (s : State) (ctx crew : Nat) (launcher : Word) : State :=
  let h := holderId 1 ctx crew
  match s.crew? ctx crew with
  | none => s
  | some q =>
    let s := (List.range 16).foldl (fun s i => s.groupTokens ctx crew i) s
    let s := (s.ctx ctx).regions.foldl (fun s r =>
      if r.owner = h then s.passRegion ctx q.core r (heir ctx crew launcher r) noHolder else s) s
    let s := s.passAll ctx h launcher
    let s := (s.shareList ctx h).foldl (fun s b => match (s.ctx ctx).regionAt b with
      | some r => s.returnShare ctx r h 65535
      | none => s) s
    (s.dropPins q.core fun p => p.ofCrew ctx crew).wakeRegions

/-- R192 for one region: it becomes ORPHANED, its entry is invalidated, and every share of it ends. -/
def orphan (s : State) (ctx : Nat) (r : Region) : State :=
  let s := s.dropTok ctx r
  let s := ((s.ctx ctx).shares.filter fun y => y.base == r.base).foldl (fun s y => s.releasePins ctx r y.holder) s
  s.modCtx ctx fun x =>
    { x.setRegion { r with st := .orphaned, shares := 0, hcore := none } with shares := x.shares.filter fun y => y.base != r.base }

/-- R192: the tokens of a context after a core failed. `keeps` are its crews that are relaunched, `lost` the committed ones, `flushing`
the regions whose flush from the core had not finished: a lend, a return, or a crew's exit or start. -/
def failTokens (s : State) (ctx c : Nat) (keeps lost flushing : List Nat) : State :=
  let onCore (h : Word) : Bool :=
    holderCtx h == ctx && (s.holderCore h == some c || (holderClass h == 0 && lost.contains (holderIndex h / 16)) ||
      (holderClass h == 1 && lost.contains (holderIndex h)))
  let kept (h : Word) : Bool :=
    (holderClass h == 0 && keeps.contains (holderIndex h / 16)) || (holderClass h == 1 && keeps.contains (holderIndex h))
  let s := (s.ctx ctx).regions.foldl (fun s r =>
    if (r.st == .lent && flushing.contains r.base) || (onCore r.owner && !kept r.owner && r.st != .free) then s.orphan ctx r
    else if kept r.owner then s.modCtx ctx fun x => x.setRegion { r with hcore := none }
    else s) s
  let gone := (s.ctx ctx).shares.filter fun y => onCore y.holder && !kept y.holder
  let s := gone.foldl (fun s y => match (s.ctx ctx).regionAt y.base with
    | some r => s.returnShare ctx r y.holder 65535
    | none => s) s
  s.modCaches c fun k => { k with tok := k.tok.filter fun p => p.ctx != ctx, pins := k.pins.filter fun p => p.ctx != ctx }

/-- R193: a suspended crew's regions, flushed before, leave its core's caches, and its pins are released. -/
def suspendTokens (s : State) (ctx crew : Nat) : State :=
  match s.crew? ctx crew with
  | none => s
  | some q =>
    let s := (s.ctx ctx).regions.foldl (fun s r =>
      if ofCrew ctx crew r.owner then s.passRegion ctx q.core r r.owner r.lender else s) s
    s.dropPins q.core fun p => p.ofCrew ctx crew

/-- R193 at a restore: HCORE of the crew's regions becomes the new core; a HOMED or LENT region has none (R200, R205). -/
def restoreTokens (s : State) (ctx crew c : Nat) : State :=
  s.modCtx ctx fun x =>
    { x with regions := x.regions.map fun r => if ofCrew ctx crew r.owner && (r.st == .owned || r.st == .shared) then { r with hcore := some c } else r }

/-- The holders whose shares give a crew a pin on its core: its gang, its leg and the module (R185), and after a rollback itself and its
groups, whose shares passed to the relaunch (R192). -/
def pinHolders (ctx crew gang leg : Nat) : List Word :=
  [holderId 2 ctx gang, holderId 3 ctx leg, holderId 6 ctx Config.thisModule, holderId 1 ctx crew] ++
    (List.range 16).map fun i => holderId 0 ctx (crew * 16 + i)

/-- The pins a crew needs on its core when it starts (R185). -/
def pinsNeeded (s : State) (ctx : Nat) (k : Crew) : Nat :=
  let hs := pinHolders ctx k.id k.gang k.leg
  (s.ctx ctx).shares.countP fun y => hs.contains y.holder

/-- The pins a crew receives on its core when it starts (R185, R192). -/
def startPins (s : State) (ctx crew gang leg c : Nat) : State :=
  let hs := pinHolders ctx crew gang leg
  (s.ctx ctx).shares.foldl (fun s y => if hs.contains y.holder then s.addPin c ⟨ctx, y.base, y.holder, crew⟩ else s) s

end State

end Sys2Proof.Machine
end

