-- ==== Sys2Proof/Machine/Life.lean ====
section
/-! DEFINITION. The lives of groups, crews and legs: how a group starts (R321), what its end leaves behind (R191, R216, R218, R232,
R257, R258), rollback (R356, R357), abort (R358), consumption of an uncorrectable datum (R355), and room on a core (R15, R227). -/

namespace Sys2Proof.Machine

open Sys2Proof

/-! ## Landing -/

namespace State

/-- A result, or a bare flag, that lands in cycle `lam`: it is visible from that cycle on, and its flag satisfies a WAIT from the next
(R63, R64). -/
def landAt (s : State) (c g id : Nat) (setf : Option (Fin 12)) (ws : List RegWrite) (lam : Nat) : State :=
  (s.modGroup c g fun G =>
    { G with pend := (G.pend.filter fun p => p.id != id) ++ [⟨id, lam, ws, setf, lam + 1, []⟩] }).postQ c lam (.resultLanding c g id)

/-- An operation that ends with a landing in cycle `lam`. -/
def finishOp (s : State) (c : Nat) (o : Op) (ws : List RegWrite) (lam : Nat) : State :=
  (s.dropOp c o.id).landAt c o.slot o.id o.setf ws lam

end State

/-! ## A group's start (R321) -/

/-- GROUPID (chapter 15, Table 5). -/
def groupIdWord (rank slot pos : Nat) : Word := BitVec.ofNat 32 (rank % 65536 * 65536 + slot * 32 + pos)

/-- SPLSEED at reset (chapter 5, Table 1). -/
def seedOf (gid : Word) : BitVec 16 :=
  let x := 0xACE1 ^^^ gid.extractLsb' 0 16
  if x = 0 then 0xACE1 else x

/-- A split as a group starts with, at a PC. -/
def Split.start (pc : Word) (from_ : Nat) : Split :=
  { pc := pc, m := Lanes.all, o := Lanes.all, wait := 0, inRun := false, runLen := 0, lvalid := 0, stack := [], notBefore := from_,
    readyFrom := from_, runIds := [] }

/-- The registers of a starting group. -/
def GRegs.start (consts : Vector Word 64) : GRegs :=
  { v := Vector.replicate 256 VReg.zero, o := Vector.replicate 8 VReg.zero, l := Vector.replicate 4 VReg.zero,
    s := Vector.replicate 125 Elem.zero, p := Vector.replicate 7 ⟨0, 0⟩, q := 0, c := consts,
    flags := Vector.replicate 12 ⟨true, 0, 0⟩ }

/-- The special registers of a starting group. -/
def GSpec.start (gid : Word) : GSpec :=
  { kpol := 0, ksamp := 0, ksticky := 0, kerr := Vector.replicate 4 0, wl := Vector.replicate 6 0xFFFFFFFF, splseed := seedOf gid,
    topochg := false, trapinfo := Vector.replicate 8 0 }

/-- A group at its start. -/
def Group.start (ctx crew pos budget : Nat) (gid : Word) (consts : Vector Word 64) (pc : Word) (from_ : Nat) : Group :=
  { ctx := ctx, crew := crew, pos := pos, budget := budget, regs := GRegs.start consts, spec := GSpec.start gid,
    splits := (Vector.replicate 4 none).set 0 (some (Split.start pc from_)), cur := none, runStart := 0, lastE := 0, pend := [],
    recent := [], trails := [], slots := Vector.replicate 4 (Vector.replicate 96 ⟨0, 0, false⟩), guesses := [], samples := [], guessCount := 0,
    hints := [], parked := none, withheld := 0, stopped := false, resuming := false, kretry := none, holdUntil := from_,
    ending := false, ueRegs := [], ueS := [], ueP := [] }

/-! ## Room on a core -/

namespace State

/-- The crews that hold room on a core, with their contexts: those that stand there, and those a reservation holds a place for. -/
def crewsOn (s : State) (c : Nat) : List (Nat × Crew) :=
  (List.range 16).flatMap fun x =>
    let C := s.ctx x
    (C.crews.filter fun k => k.core == c && (k.onCore || (C.reservations.any fun r => r.1 == k.gang && r.2.contains k.id))).map fun k => (x, k)

/-- The group contexts a core has free (R15). -/
def freeSlots (s : State) (c : Nat) : List Nat := (List.range 32).filter fun g => (s.group? c g).isNone

/-- The registers its groups hold (R15). -/
def regsUsed (s : State) (c : Nat) : Nat :=
  ((List.range 32).map fun g => match s.group? c g with
    | some G => G.budget
    | none => 0).foldl (· + ·) 0

/-- Groups and registers of crews that a reservation holds a place for and that have not started. -/
def reserved (s : State) (c : Nat) : Nat × Nat :=
  (s.crewsOn c).foldl (fun (a : Nat × Nat) (x, k) =>
    if k.onCore then a
    else match s.leg? x k.leg with
      | some l => (a.1 + l.lr.grps, a.2 + l.lr.grps * l.lr.regs)
      | none => a) (0, 0)

/-- The lowest place for `n` bytes among the allocations of a core's scratchpad. -/
def placeScratch (s : State) (c n : Nat) : Option Nat :=
  let used := (s.crewsOn c).map fun (_, k) => (k.base, k.size)
  let ok (b : Nat) : Bool := b + n ≤ Config.scratchBytes && used.all fun (a, z) => b + n ≤ a || a + z ≤ b
  if n = 0 then some 0 else ((0 :: used.map fun (a, z) => a + z).filter ok).min?

/-- The tiles of a list returned to TCFG 0 with zero bytes. -/
def clearTiles (s : State) (c : Nat) (ts : List Nat) : State :=
  s.modCore c fun k => { k with mx := { k.mx with tiles := ts.foldl (fun v t => v.setIfInBounds t Tile.reset) k.mx.tiles } }

/-- Whether a context may use a core's array: it is a tenant, or it may become one (R227, R255). -/
def tenantOk (s : State) (c ctx : Nat) : Bool :=
  let m := (s.core c).mx
  match m.tenants with
  | [] => true
  | [t] => t.ctx == ctx ||
      ((List.range 8).all (fun i => (m.tiles[8 + i]?.getD Tile.reset).cfg.extractLsb' 28 4 == 0) &&
        (List.range 16).all (fun i => ((m.banks[16 + i]?).map (·.owner)).getD none == none) &&
        !t.window.any fun w => w.ends.isSome && w.engine == 1)
  | ts => ts.any fun t => t.ctx == ctx

/-- A context arrives at a core's array, its tiles clear (R227, R232), MTEN and MTOL at their resets. -/
def joinTenant (s : State) (c ctx : Nat) : State :=
  let m := (s.core c).mx
  if m.tenants.any fun t => t.ctx == ctx then s
  else
    let s := s.clearTiles c (if m.tenants.isEmpty then List.range 16 else (List.range 8).map (8 + ·))
    s.modCore c fun k => { k with mx := { k.mx with tenants := k.mx.tenants ++ [⟨ctx, [], 4, 16, ⟨0, 0, 0, 0, 0, 0⟩⟩] } }

/-- A context without crews on a core leaves its array. -/
def leaveTenant (s : State) (c ctx : Nat) : State :=
  let s := s.rail (quadOf c)
  if (s.crewsOn c).any fun (x, _) => x == ctx then s
  else
    let ts := (s.core c).mx.tenants
    let second := match ts with
      | [_, b] => b.ctx == ctx
      | _ => false
    let s := s.modCore c fun k => { k with mx := { k.mx with tenants := ts.filter fun t => t.ctx != ctx } }
    if second then s.clearTiles c ((List.range 8).map (8 + ·)) else s

/-- The pins that crews a reservation holds a place for on a core, and that have not started, will need there (R185). -/
def pinsReserved (s : State) (c : Nat) : Nat :=
  (s.crewsOn c).foldl (fun n (x, k) => if k.onCore then n else n + s.pinsNeeded x k) 0

/-- Whether a whole crew of a leg has room on a core (R15, R185, R227, R323). -/
def hasRoom (s : State) (ctx c : Nat) (l : Leg) (q : Crew) : Bool :=
  let k := s.core c
  let (g, r) := s.reserved c
  k.enabled && 16 ≤ k.good && ((s.ctx ctx).logical c).isSome &&
    g + l.lr.grps ≤ (s.freeSlots c).length && s.regsUsed c + r + l.lr.grps * l.lr.regs ≤ Config.coreRegs &&
    (s.placeScratch c l.lr.scr).isSome && s.tenantOk c ctx &&
    k.caches.pins.length + s.pinsReserved c + s.pinsNeeded ctx q ≤ 64

/-! ## Barriers (R216 to R218) -/

/-- The positions of a crew's groups that have not ended. -/
def livePos (k : Crew) : List Nat := (List.range 16).filter fun p => ((k.slots[p]?).join).isSome

/-- The positions of a crew's groups that still have a split: the expected set of its barriers (R216). -/
def expected (s : State) (k : Crew) : List Nat :=
  (livePos k).filter fun p => (((k.slots[p]?).join).bind (s.group? k.core)).any fun G => !G.ending

/-- The waiting barrier operations of a crew's groups. -/
def barOps (s : State) (ctx : Nat) (k : Crew) (f : Instr → Bool) : List Op :=
  (s.core k.core).ops.filter fun o => o.stage == .waiting && f o.ins &&
    match s.group? k.core o.slot with
    | some G => G.ctx == ctx && G.crew == k.id
    | none => false

/-- The phase of a crew barrier completes when the arrivals cover the groups that have not ended: the phase flips and each flag is
set 4 cycles later. -/
def barCheck (s : State) (ctx crew n : Nat) : State :=
  match s.crew? ctx crew with
  | none => s
  | some k =>
    let b := k.bars[n]?.getD ⟨false, []⟩
    let live := s.expected k
    if live.isEmpty || b.arrived.isEmpty || !live.all b.arrived.contains then s
    else
      let s := s.modCrew ctx crew fun k => { k with bars := k.bars.setIfInBounds n ⟨!b.phase, []⟩ }
      (s.barOps ctx k fun i => match i with
        | .bar x => x.n.val == n
        | _ => false).foldl (fun s o => s.finishOp k.core o [] (s.now k.core + 4)) s

/-- The least delay of a gang barrier's flags from one core to another: one die 80, and 120 for each crossing beyond the first. -/
def gbarDelay (a b : Nat) : Nat := 80 + 120 * (let d := (dieOf a ^^^ dieOf b); if d = 3 then 1 else 0)

/-- The phase of a gang barrier completes when every attached member has arrived (R218). `last` is the core of the last arrival. -/
def gangCheck (s : State) (ctx gang n last : Nat) : State :=
  let here (k : Crew) : Bool := match k.st with
    | .resident | .suspending | .suspended _ => true
    | _ => false
  let ms := (s.ctx ctx).crews.filter fun k => k.gang == gang && here k &&
    match k.att with
    | .attached .. => true
    | _ => false
  let arr (k : Crew) : Bool :=
    let b := k.gbars[n]?.getD ⟨false, []⟩
    let live := s.expected k
    !live.isEmpty && live.all b.arrived.contains
  if ms.isEmpty || !ms.all arr then s
  else
    ms.foldl (fun s k =>
      let flip (b : Bar) : Bar := ⟨!b.phase, []⟩
      let s := s.modCrew ctx k.id fun k => { k with gbars := k.gbars.setIfInBounds n (flip (k.gbars[n]?.getD ⟨false, []⟩)) }
      let (d, s) := if ms.length = 1 then (4, s) else s.latency (gbarDelay last k.core)
      (s.barOps ctx k fun i => match i with
        | .gbar x => x.n.val == n
        | _ => false).foldl (fun s o => s.finishOp k.core o [] (s.now k.core + d)) s) s

/-! ## Releasing what a crew holds -/

/-- Accumulator banks and tiles of a crew released (R232, R257): a tile's TCFG returns to 0 and its bytes stay. -/
def releaseArray (s : State) (c ctx crew : Nat) : State :=
  s.modCore c fun k => { k with mx := { k.mx with
    tiles := k.mx.tiles.map fun t => if t.owner = some (ctx, crew) then { t with cfg := 0, owner := none } else t,
    banks := k.mx.banks.map fun b =>
      if b.owner = some (ctx, crew) then { b with owner := none, rows := Vector.replicate 32 none, freeing := false } else b } }

/-- The tasks of a crew cancelled: those not started leave, and those started have their results discarded (R249). -/
def cancelTasks (s : State) (c ctx crew : Nat) : State :=
  s.modCore c fun k => { k with mx := { k.mx with tenants := k.mx.tenants.map fun t =>
    if t.ctx = ctx then { t with window := (t.window.filter fun w => w.crew != crew || w.ends.isSome).map fun w =>
      if w.crew = crew then { w with cancelled := true } else w }
    else t } }

/-- Engine operations and packets of a crew cancelled, what they hold passing to the crew; its streams dropped. -/
def cancelEngines (s : State) (c ctx crew : Nat) (slots : List Nat) : State :=
  let runs (e : Nat) : Bool := (((s.core c).eng[e]?).join).any (fun x => x.ctx == ctx && x.crew == crew) ||
    (s.core c).packets.any fun p => p.eslot == e && p.ctx == ctx && p.crew == crew
  let s := ((List.range 64).filter runs).foldl (fun s e => s.passEng c e ctx crew) s
  s.modCore c fun k =>
    { k with
      eng := k.eng.map fun e => match e with
        | some x => if x.ctx = ctx && x.crew == crew then none else e
        | none => none,
      packets := k.packets.filter fun p => !(p.ctx == ctx && p.crew == crew),
      streams := k.streams.map fun x => match x with
        | some y => if slots.contains y.slot then none else x
        | none => none,
      queues := k.queues.map fun q => match q.claim with
        | some g => if slots.contains g then ⟨none, []⟩ else q
        | none => q }

/-- The streams of a group dropped. -/
def dropStreams (s : State) (c g : Nat) : State :=
  s.modCore c fun k =>
    { k with
      streams := k.streams.map fun x => match x with
        | some y => if y.slot = g then none else x
        | none => none,
      queues := k.queues.map fun q => if q.claim = some g then ⟨none, []⟩ else q }

/-- The groups of a crew taken from its core, with what they have in flight. -/
def dropGroups (s : State) (ctx crew : Nat) : State :=
  match s.crew? ctx crew with
  | none => s
  | some k =>
    let slots := (List.range 16).filterMap fun p => (k.slots[p]?).join
    let s := ((s.core k.core).ops.filter fun o => slots.contains o.slot).foldl (fun s o => s.dropOp k.core o.id) s
    let s := slots.foldl (fun s g => (s.setGroup k.core g none).unstall k.core g) s
    let s := s.modSch fun h => match h.issue with
      | some i => if i.core = k.core && slots.contains i.slot then { h with issue := none } else h
      | none => h
    let s := s.cancelEngines k.core ctx crew slots
    (s.cancelTasks k.core ctx crew).modCrew ctx crew fun k => { k with slots := Vector.replicate 16 none }

/-- Gangs of a context with crews that wait for room ask again (R325). -/
def retryGangs (s : State) (ctx : Nat) : State :=
  let x := s.ctx ctx
  let gs := ((x.crews.filter fun k => k.st == .waiting && !x.reservations.any fun r => r.1 == k.gang).map (·.gang)).dedup
  let rs := (x.crews.filter fun k => k.st == .relaunch).map (·.id)
  let s := rs.foldl (fun s id => s.postNow (.crewRelaunch ctx id)) s
  gs.foldl (fun s g => s.postNow (.gangReservation ctx g)) s

/-- A context without a resident crew is idle: PREEMPT reads 0 again (R371). -/
def settleIdle (s : State) (ctx : Nat) : State :=
  let x := s.ctx ctx
  if x.crews.any (fun k => k.onCore || x.reservations.any fun r => r.2.contains k.id) then s
  else s.modCtx ctx fun x => { x with regs := { x.regs with state := 0, preempt := false }, deadlines := [] }

/-- The gangs of every context ask again. -/
def retryAll (s : State) : State :=
  (List.range 16).foldl (fun s x => if (s.ctx x).crews.isEmpty && (s.ctx x).regs.state = 0 then s else (s.settleIdle x).retryGangs x) s

/-- A crew leaves its leg; the leg completes when its last crew has (R326). -/
def leaveLeg (s : State) (ctx leg : Nat) : State :=
  let s := s.modLeg ctx leg fun l => { l with alive := l.alive - 1, exited := if l.status = 0 then l.exited + 1 else l.exited }
  match s.leg? ctx leg with
  | some l => if l.alive = 0 then s.postNow (.legComplete ctx leg) else s
  | none => s

/-- R191, R257, R304, R354: the end of a crew's exit, its flushes being over. Its tokens pass on and its units are released. -/
def releaseCrew (s : State) (ctx crew : Nat) : State :=
  match s.crew? ctx crew with
  | none => s
  | some k =>
    let launcher := ((s.leg? ctx k.leg).map (·.launcher)).getD noHolder
    let s := s.crewTokens ctx crew launcher
    let s := s.releaseArray k.core ctx crew
    let s := s.modCtx ctx fun x =>
      { x with crews := x.crews.filter fun q => q.id != crew, tags := x.tags.filter fun t => t.crew != crew }
    let s := s.leaveTenant k.core ctx
    (s.leaveLeg ctx k.leg).retryAll

/-- A crew leaves its leg, at its exit or at an abort (R191, R304, R354, R358): it detaches, its buffer drains, and its tokens go on from there,
with flushes that take time (R188). A crew that leaves is committed: what it has drained is not run again (assumption 131). -/
def startLeave (s : State) (ctx crew : Nat) : State :=
  match s.crew? ctx crew with
  | none => s
  | some k =>
    let out : Att → Att
      | .attached .. => .detached
      | a => a
    let s := (s.drainAll ctx crew).modCrew ctx crew fun k => { k with st := .leaving, att := out k.att, committed := true, flush := none }
    let s := (List.range 16).foldl (fun s i => s.groupTokens ctx crew i) s
    s.postQ k.core (s.now k.core) (.crewExitRelease ctx crew)

/-- Whether an attached crew's exit is held: some peer of its gang is attached and neither detached nor exited (R304). -/
def heldByPeers (s : State) (ctx : Nat) (k : Crew) : Bool :=
  (s.ctx ctx).crews.any fun m => m.gang == k.gang && m.id != k.id && m.st != .held && m.st != .leaving && m.att != .detached

/-- The members of a gang whose exit is held ask again. -/
def retryHeld (s : State) (ctx gang : Nat) : State :=
  (((s.ctx ctx).crews.filter fun m => m.gang == gang && m.st == .held).map (·.id)).foldl
    (fun s id => s.postNow (.crewExitRelease ctx id)) s

/-- A crew's last group has ended: it exits, or is held while it is attached (R304). -/
def crewEnd (s : State) (ctx crew : Nat) : State :=
  match s.crew? ctx crew with
  | none => s
  | some k => match k.att with
    | .attached .. =>
      let s := s.modCrew ctx crew fun k => { k with st := .held }
      let s := [0, 1].foldl (fun s n => s.gangCheck ctx k.gang n k.core) s
      s.retryHeld ctx k.gang
    | _ => (s.startLeave ctx crew).retryHeld ctx k.gang

/-- R104, R191, R216, R258: a group ends, no split being left. Its regions pass to its crew, its rows have no holder, and it leaves the
barriers. -/
def leaveGroup (s : State) (c g : Nat) : State :=
  match s.group? c g with
  | none => s
  | some G =>
    let s := s.groupTokens G.ctx G.crew G.pos
    let bare (b : Bank) : Bank :=
      if b.owner = some (G.ctx, G.crew) then { b with rows := b.rows.map fun r => if r = some G.pos then none else r } else b
    let atBar (o : Op) : Bool := o.slot == g && match o.ins with
      | .bar _ | .gbar _ => true
      | _ => false
    let s := s.modCore c fun k =>
      { k with mx := { k.mx with banks := k.mx.banks.map bare }, ops := k.ops.filter fun o => !atBar o }
    let s := s.modCrew G.ctx G.crew fun k =>
      { k with bars := k.bars.map fun b => { b with arrived := b.arrived.filter (· != G.pos) },
               gbars := k.gbars.map fun b => { b with arrived := b.arrived.filter (· != G.pos) } }
    let s := (List.range 4).foldl (fun s n => s.barCheck G.ctx G.crew n) s
    match s.crew? G.ctx G.crew with
    | none => s
    | some k => [0, 1].foldl (fun s n => s.gangCheck G.ctx k.gang n c) s

/-- The context of a group that has ended frees; with its crew's last group the crew ends. -/
def endGroup (s : State) (c g : Nat) : State :=
  match s.group? c g with
  | none => s
  | some G =>
    let s := ((s.setGroup c g none).unstall c g).dropStreams c g
    let s := s.modCrew G.ctx G.crew fun k => { k with slots := k.slots.setIfInBounds G.pos none }
    match s.crew? G.ctx G.crew with
    | none => s
    | some k => if (livePos k).isEmpty then s.crewEnd G.ctx G.crew else s.retryAll

/-- Whether an engine operation or a message of a group is still under way. -/
def enginesOf (k : Core) (g ctx crew : Nat) : Bool :=
  k.eng.toList.any (fun e => match e with
    | some x => x.slot == g && x.ctx == ctx && x.crew == crew
    | none => false) || k.packets.any fun p => p.slot == g && p.ctx == ctx && p.crew == crew

/-- The context of a group that has no split left frees once everything it has in flight has landed (EXIT). -/
def tryEndGroup (s : State) (c g : Nat) : State :=
  match s.group? c g with
  | some G =>
    if G.ending && G.pend.isEmpty && !(s.core c).ops.any (fun o => o.slot == g) && !enginesOf (s.core c) g G.ctx G.crew then
      s.endGroup c g
    else s
  | none => s

/-! ## Rollback and abort (R351, R355 to R358) -/

/-- R358 for one crew of an aborted leg. One that is leaving already goes on with it, unless its core was lost. -/
def abortCrew (s : State) (ctx : Nat) (k : Crew) (launcher : Word) (lost : Option Nat) : State :=
  let asleep : Bool := match k.st with
    | .suspended _ => true
    | _ => false
  let live : Bool := k.onCore && lost != some k.core
  if live && k.st == .leaving then s
  else
    let s := s.dropGroups ctx k.id
    if live && k.committed then s.startLeave ctx k.id
    else
      let s := if asleep then s.crewTokens ctx k.id launcher
        else if k.onCore && k.committed then s
        else (s.modCrew ctx k.id fun k => { k with sbuf := [] }).crewTokens ctx k.id launcher
      let s := if k.onCore then s.releaseArray k.core ctx k.id else s
      let s := s.modCtx ctx fun x =>
        { x with crews := x.crews.filter fun q => q.id != k.id, tags := x.tags.filter fun t => t.crew != k.id }
      if k.onCore then s.leaveTenant k.core ctx else s

/-- R358: a leg aborted. `lost` is the core that was lost, if one was. The leg completes once its committed crews on live cores have flushed and
passed their regions on; a leg that was aborted before is reported no second time. -/
def abortLeg (s : State) (ctx leg crew : Nat) (cause : Cause) (lost : Option Nat) : State :=
  match s.leg? ctx leg with
  | none => s
  | some l =>
    let core := ((s.crew? ctx crew).map (·.core)).getD 0
    let ks := (s.ctx ctx).crews.filter fun k => k.leg == leg
    let s := ks.foldl (fun s k => s.abortCrew ctx k l.launcher lost) s
    let s := s.modCtx ctx fun x => { x with reservations := (x.reservations.map fun r =>
      (r.1, r.2.filter fun i => x.crews.any fun k => k.id == i)).filter fun r => !r.2.isEmpty }
    let left := ((s.ctx ctx).crews.filter fun k => k.leg == leg).length
    let s := s.modLeg ctx leg fun l => { l with alive := left, status := 3 }
    let s := if l.status = 3 then s
      else s.record ctx (BitVec.ofNat 32 cause.code.toNat) 0 (s.coreNo ctx core) 0 (BitVec.ofNat 32 leg) 0 2
    (if left = 0 then s.postNow (.legComplete ctx leg) else s).retryAll

/-- R356 for one crew: its buffer dropped, its units released, its tokens kept for the relaunch. -/
def rollOne (s : State) (ctx crew : Nat) : State :=
  match s.crew? ctx crew with
  | none => s
  | some k =>
    let s := (s.dropGroups ctx crew).releaseArray k.core ctx crew
    let s := s.dropPins k.core fun p => p.ofCrew ctx crew
    let s := (s.ctx ctx).regions.foldl (fun s r =>
      if ofCrew ctx crew r.owner then ((s.dropLines k.core ctx r.base r.k).dropTok ctx r).modCtx ctx fun x => x.setRegion { r with hcore := none }
      else s) s
    let s := s.modCtx ctx fun x => { x with tags := x.tags.filter fun t => t.crew != crew }
    let s := s.modCrew ctx crew fun k =>
      { k with st := .relaunch, left := some k.core, scratch := [], spill := [], ueWords := [], committed := false, reason := 0,
               rollbacks := k.rollbacks + 1, sbuf := [], flush := none, bars := Vector.replicate 4 ⟨false, []⟩, gbars := Vector.replicate 2 ⟨false, []⟩,
               att := .never, rings := Vector.replicate 8 none }
    (List.range 16).foldl (fun s x => s.retryGangs x) (s.leaveTenant k.core ctx)

/-- R351, R356, R357: a crew rolled back, with the attached members of its gang; the leg is aborted when one of them is committed, or
at a third rollback. A member that stands on the same lost core is rolled back with the first, and not again (R349, R357). -/
def rollback (s : State) (ctx crew : Nat) (cause : Cause) (lost : Option Nat) : State :=
  match s.crew? ctx crew with
  | none => s
  | some k =>
    let att (m : Crew) : Bool := match m.att with
      | .attached .. => true
      | _ => false
    let gone : Bool := match k.st with
      | .relaunch => true
      | _ => false
    let ms := if gone then [] else if att k then (s.ctx ctx).crews.filter fun m => m.gang == k.gang && att m else [k]
    if ms.any (fun m => m.committed || m.rollbacks ≥ 2) then s.abortLeg ctx k.leg crew cause lost
    else ms.foldl (fun s m => s.rollOne ctx m.id) s

/-- R355: a crew consumes an uncorrectable datum. -/
def consume (s : State) (ctx crew : Nat) (cause : Cause) : State :=
  match s.crew? ctx crew with
  | none => s
  | some k => if k.committed then s.abortLeg ctx k.leg crew cause none else s.rollback ctx crew cause none

end State

end Sys2Proof.Machine
end

