-- ==== Sys2Proof/Machine/Operands.lean ====
section
/-! DEFINITION. The instruction about to issue and what it reads: guards and the active set (R54, R110, R111), every operand form
(R55 to R58), pointers, destinations, and the registers an instruction uses (R52, R68). -/

namespace Sys2Proof.Machine

open Sys2Proof

/-- An instruction about to issue: where its group stands, the split, the cycle, the passes, its number; `off` are lanes kept out of its
active set, their guard being marked (R110). -/
structure Iss where
  s : State
  c : Nat
  g : Nat
  sp : Fin 4
  G : Group
  S : Split
  t : Nat
  P : Nat
  id : Nat
  h : Hdr
  off : Lanes

namespace State

/-- The instruction at the issue slot, with the hints and the guard its word carries. -/
def issuer (s : State) (h : Hdr) : Option Iss :=
  match s.sch.issue with
  | none => none
  | some i => match s.group? i.core i.slot with
    | none => none
    | some G => match G.splits[i.split] with
      | none => none
      | some S =>
        let (id, s) := s.fresh
        some { s := s, c := i.core, g := i.slot, sp := i.split, G := G, S := S, t := s.now i.core, P := (s.core i.core).passes,
               id := id, h := h, off := 0 }

end State

namespace Iss

/-- The one who acts. -/
def who (I : Iss) : Who := I.G.who I.c

/-- The issuing crew. -/
def crew (I : Iss) : Option Crew := I.s.crew? I.G.ctx I.G.crew

/-- GROUPID of the group. -/
def gid (I : Iss) : Word := groupIdWord ((I.crew.map (·.rank)).getD 0) I.g I.G.pos

/-! ## Guards -/

/-- The lanes in which a guard holds, among all lanes. -/
def guardLanes (I : Iss) : Lanes :=
  match I.h.grd with
  | .p neg i => let v := (I.G.regs.pred i).val; if neg then ~~~v else v
  | .q neg i => if I.G.regs.qbit i != neg then Lanes.all else 0

/-- Whether a q guard holds; a p guard does not decide it. -/
def qok (I : Iss) : Bool :=
  match I.h.grd with
  | .p _ _ => true
  | .q neg i => I.G.regs.qbit i != neg

/-- The active set: the lanes of M in which the guard holds. -/
def active (I : Iss) : Lanes := I.S.m &&& I.guardLanes &&& ~~~I.off

/-- KPOL says USE for a consumer class: branch at bit 0, store at bit 2, ingest at bit 4 (chapter 8, Table 3). -/
def uses (I : Iss) (lo : Nat) : Bool := (I.G.spec.kpol >>> lo) &&& 3 = 1

/-- A report of a cause that belongs to the group. -/
def scalar (I : Iss) (c : Cause) (ptr : Ptr := 0) : Report := { cause := c, scalar := true, pc := I.S.pc, ptr := ptr }

/-- A report of a cause that lanes raised. -/
def lanes (I : Iss) (c : Cause) (m : Lanes) (ptr : Ptr := 0) : Report := { cause := c, cmask := m, pc := I.S.pc, ptr := ptr }

/-- K_CONSUME for the group as a whole: its scalar operand is marked (R171). -/
def kAll (I : Iss) : Report := { cause := .kConsume, scalar := true, cmask := I.S.m, pc := I.S.pc }

/-- R110: the marked lanes of a p guard within M, under FAULT. -/
def guardMarks (I : Iss) : Lanes :=
  match I.h.grd with
  | .p _ i => if I.uses 0 then 0 else (I.G.regs.pred i).k &&& I.S.m
  | .q _ _ => 0

/-! ## Sources -/

/-- A scalar register; s125 to s127 read the split's mask and are never marked (R105). -/
def sreg (I : Iss) (n : Nat) : Elem :=
  if n < 125 then I.G.regs.s[n]?.getD Elem.zero else ⟨maskWord I.S.m (n - 125), false⟩

/-- A constant register. -/
def creg (I : Iss) (n : Nat) : Word := I.G.regs.c[n]?.getD 0

/-- An integer immediate: sign-extended, or zero-extended under ZX (R57). -/
def imm (zx : Bool) (x : BitVec 8) : Word := if zx then x.zeroExtend 32 else x.signExtend 32

/-- A scalar source (R56). -/
def sval (I : Iss) (zx : Bool) : Opnd → Elem
  | .s n => I.sreg n
  | .c n => ⟨I.creg n, false⟩
  | .gid => ⟨I.gid, false⟩
  | .imm x => ⟨imm zx x, false⟩
  | _ => Elem.zero

/-- A vector source with integer immediates (R55, R56). -/
def vsrc (I : Iss) (zx : Bool) : Opnd → VReg
  | .v n => I.G.regs.vec (.v n)
  | .o n => I.G.regs.vec (.o n)
  | .l n => I.G.regs.vec (.l n)
  | .lane => VReg.of fun i => ⟨BitVec.ofNat 32 i, false⟩
  | .plane => VReg.of fun i => ⟨BitVec.ofNat 32 ((I.s.core I.c).physLane i), false⟩
  | o => VReg.splat (I.sval zx o)

/-- A vector source with floating-point immediates (R57, R92). -/
def fsrc (I : Iss) (t : FType) : Opnd → VReg
  | .imm x => VReg.splat ⟨immF t x, false⟩
  | o => I.vsrc false o

/-- A predicate register. -/
def pred (I : Iss) (i : Fin 8) : PReg := I.G.regs.pred i

/-- A q register. -/
def q (I : Iss) (i : Fin 8) : Bool := I.G.regs.qbit i

/-- The pointer in a scalar triple, and whether any of its registers is marked. -/
def striple (I : Iss) (n : Nat) : Ptr × Bool :=
  let a := I.sreg n
  let b := I.sreg (n + 1)
  let c := I.sreg (n + 2)
  (ptrOf a.val b.val c.val, a.k || b.k || c.k)

/-- The pointer of a lane in a vector triple, and whether any of its elements is marked. -/
def vtriple (I : Iss) (n lane : Nat) : Ptr × Bool :=
  let a := (I.G.regs.vec (.v n)).at lane
  let b := (I.G.regs.vec (.v (n + 1))).at lane
  let c := (I.G.regs.vec (.v (n + 2))).at lane
  (ptrOf a.val b.val c.val, a.k || b.k || c.k)

/-- The pointer of a lane in a triple. -/
def triple (I : Iss) (x : Triple) (lane : Nat) : Ptr × Bool :=
  match x with
  | .s n => I.striple n
  | .v n => I.vtriple n lane

/-! ## Destinations -/

/-- The vector register a destination names. -/
def dvec : Opnd → Option VecName
  | .v n => some (.v n)
  | .o n => some (.o n)
  | .l n => some (.l n)
  | _ => none

/-- The writes of a vector destination in some lanes; zero discards. -/
def wvec (d : Opnd) (mask : Lanes) (x : VReg) : List RegWrite :=
  match dvec d with
  | some r => [.vec r mask x]
  | none => []

/-- The write of a scalar register; s125 to s127 set the split's mask (R105). -/
def wsreg (I : Iss) (n : Nat) (e : Elem) : RegWrite := if n < 125 then .sreg n e else .xmask I.sp (n - 125) e.val

/-- The writes of a scalar destination; zero discards. -/
def wscal (I : Iss) (d : Opnd) (e : Elem) : List RegWrite :=
  match d with
  | .s n => [I.wsreg n e]
  | _ => []

/-- Whether a destination is one of xm0 to xm2. -/
def isXm : Opnd → Bool
  | .s n => 125 ≤ n.val
  | _ => false

/-- R105: a marked value written to xm0 to xm2 is a branch-class consumer. -/
def xmFault (I : Iss) (d : Opnd) (k : Bool) : Option Report := if k && isXm d && !I.uses 0 then some I.kAll else none

/-- The write of a status register (R196, R282, R338). -/
def wstat (d : Option (Fin 7)) (b : Bool) : List RegWrite :=
  match d with
  | some i => [.qbit i b]
  | none => []

end Iss

/-! ## What an instruction uses -/

/-- The registers an instruction reads and writes, beyond single operands as ranges: `vr` of v registers read, `vw` of v registers
written, `sr` of s registers read, `pr` the p registers read. `names` holds the operands of which the instruction itself says which lanes it
reads (R116, R272); `all` says that it acts for its group or its crew, whatever lanes are active (R111, R197, R248, R267). -/
structure Use where
  reads : List Opnd := []
  names : List Opnd := []
  all : Bool := false
  dsts : List Opnd := []
  vr : List (Nat × Nat) := []
  vw : List (Nat × Nat) := []
  sr : List (Nat × Nat) := []
  pr : List (Fin 8) := []

namespace Use

/-- The range of a triple. -/
def ofTriple (u : Use) : Triple → Use
  | .s n => { u with sr := (n.val, 3) :: u.sr }
  | .v n => { u with vr := (n.val, 3) :: u.vr }

/-- The range of consecutive registers starting at an operand. -/
def range (o : Opnd) (n : Nat) : List (Nat × Nat) :=
  match o with
  | .v i => [(i.val, n)]
  | _ => []

/-- Every v register named lies below the budget (R52). -/
def inBudget (u : Use) (b : Nat) : Bool :=
  (u.reads ++ u.names ++ u.dsts).all (fun o => match o with
    | .v n => n.val < b
    | _ => true) && (u.vr ++ u.vw).all fun (a, n) => a + n ≤ b

/-- Every l register read is valid in the open run (R68). -/
def lReady (u : Use) (valid : BitVec 4) : Bool :=
  (u.reads ++ u.names).all fun o => match o with
    | .l n => valid.getLsbD n
    | _ => true

/-- The l registers named as destinations. -/
def lSet (u : Use) : BitVec 4 :=
  u.dsts.foldl (fun m o => match o with
    | .l n => m ||| (1#4 <<< n.val)
    | _ => m) 0

/-- The vector registers read. -/
def vecs (u : Use) : List VecName :=
  u.reads.filterMap Iss.dvec ++ u.vr.flatMap fun (a, n) => (List.range n).map fun i => VecName.v (a + i)

/-- The scalar registers read. -/
def scalars (u : Use) : List Nat :=
  (u.reads.filterMap fun o => match o with
    | .s n => some n.val
    | _ => none) ++ u.sr.flatMap fun (a, n) => (List.range n).map fun i => a + i

end Use

/-- Whether an instruction reads a register with an uncorrectable error (R355): a vector or p register in an active lane, a scalar register
where it has an effect, its p guard in a lane of M. A false q guard reads nothing; nor does an empty active set, but for the instructions
that act for their group (R111). The operands that an instruction reads in lanes of its own choosing it tests itself. -/
def Iss.meetsUe (I : Iss) (u : Use) : Bool :=
  if I.G.ueRegs.isEmpty && I.G.ueS.isEmpty && I.G.ueP.isEmpty then false
  else
    let act := I.active
    let acts := if u.all then I.qok else act != 0
    let grd := match I.h.grd with
      | .p _ i => I.G.ueP.any fun x => x.1 == i.val && I.S.m.getLsbD x.2
      | .q _ _ => false
    grd || (acts && (I.G.ueRegs.any (fun x => u.vecs.contains x.1 && act.getLsbD x.2) || I.G.ueS.any u.scalars.contains ||
      I.G.ueP.any fun x => u.pr.any (fun i => i.val == x.1) && act.getLsbD x.2))

/-- Whether some of these lanes of an operand hold an uncorrectable word (R116, R355). -/
def Iss.badLanes (I : Iss) (o : Opnd) (m : Lanes) : Bool :=
  match Iss.dvec o with
  | some r => I.G.ueRegs.any fun u => u.1 == r && m.getLsbD u.2
  | none => false

/-- Whether some of the s registers that a use names hold an uncorrectable word. -/
def Iss.badScalars (I : Iss) (u : Use) : Bool := I.G.ueS.any u.scalars.contains

end Sys2Proof.Machine
end

