-- ==== Sys2Proof/Machine/Issue.lean ====
section
/-! DEFINITION. Issuing an instruction: the checks every instruction meets (R52, R68, R110, R355), what an instruction hands over when
it takes effect, and the effect of that on its split, its group and its core (R61 to R70, R104 to R108, R359). -/

namespace Sys2Proof.Machine

open Sys2Proof

/-- The units an instruction may hold (R61, R115, R153, R269). -/
inductive FU where
  | none | scalar | vec | lsu | acc
  deriving DecidableEq, Repr

/-- When what an instruction does is complete. -/
inductive Comp where
  /-- Short class with required DIST `q`: visible in cycle E + 1 + q (R62). -/
  | short (q : Nat)
  /-- Long class, landing in a cycle and visible from it on (R63). -/
  | long (lam : Nat)
  /-- A result that lands at the end of cycle `lam` and is read from the next (chapter 5, Table 4: readers need DIST 1), its flag set earlier,
  in cycle `cyc` (LOOP, CALL). -/
  | early (lam cyc : Nat)
  /-- No register result; the flag is set in a cycle. -/
  | flag (cyc : Nat)
  /-- An operation of the core completes it; `result` says whether it writes a register. -/
  | later (result : Bool)
  deriving DecidableEq, Repr

/-- What becomes of the split (R67, R106). -/
inductive Flow where
  | next
  | jump (pc : Word) (from_ : Nat)
  | fork (e : Fin 4) (pc : Word) (taken : Lanes)
  | defer (pc : Word) (taken : Lanes)
  | trail (wait : BitVec 12)
  | retire (r : Lanes)
  deriving DecidableEq, Repr

/-- What an instruction hands over when it takes effect: `after` stops its group once it has taken effect, `claims` are the guess lanes
its landing closes. -/
structure Eff where
  ws : List RegWrite := []
  comp : Comp := .short 0
  flow : Flow := .next
  occ : Nat := 1
  unit : FU := .none
  charge : Nat := 1
  lset : BitVec 4 := 0
  after : Option Report := none
  serviced : Option Report := none
  claims : List (Nat × Nat) := []

/-- How an instruction ends its issue: it stops its group without effect, its crew consumes an uncorrectable datum, it is held again, or
it takes effect. `stopOn` stops on a state that remembers something for the next issue. -/
inductive Res where
  | stop (r : Report)
  | stopOn (s : State) (r : Report)
  | ue (c : Cause)
  | hold (s : State)
  | done (s : State) (e : Eff)

/-! ## Splits -/

/-- A group with a split changed. -/
def Group.modSplit (G : Group) (sp : Fin 4) (f : Split → Split) : Group :=
  { G with splits := G.splits.set sp ((G.splits[sp]).map f) }

/-- The live splits of a group. -/
def Group.live (G : Group) : List (Fin 4) := (List.finRange 4).filter fun i => (G.splits[i]).isSome

/-- The cost of a merge is paid by the whole group (R107, R108). -/
def Group.hold (G : Group) (now cost : Nat) : Group := { G with holdUntil := max G.holdUntil (now + 1) + cost }

/-- R108: a split that arrived at a run boundary merges with the splits that stand at one with its PC, both stacks being empty. -/
def Group.mergeAt (G : Group) (sp : Fin 4) (now P : Nat) : Group :=
  match G.splits[sp] with
  | none => G
  | some S =>
    let meets (T : Split) : Bool := !T.inRun && T.pc == S.pc && T.stack.isEmpty
    let others := (List.finRange 4).filter fun i => i != sp && match G.splits[i] with
      | some T => meets T
      | none => false
    if !meets S || others.isEmpty then G
    else
      let all := (List.finRange 4).filter fun i => i == sp || others.contains i
      let low := all.head?.getD sp
      let ts := all.filterMap fun i => G.splits[i]
      let join (A B : Split) : Split :=
        { A with m := A.m ||| B.m, o := A.o ||| B.o, wait := A.wait ||| B.wait, notBefore := max A.notBefore B.notBefore,
                 readyFrom := max A.readyFrom B.readyFrom }
      let M : Split := ts.foldl join S
      let G := { G with splits := (all.foldl (fun (v : Vector (Option Split) 4) (i : Fin 4) => v.set i none) G.splits).set low (some M) }
      G.hold now ((2 + P) * others.length)

/-- A run ends: the split stands at a run boundary with an entry WAIT (R67, R68). -/
def Group.endRun (G : Group) (sp : Fin 4) (wait : BitVec 12) (now P : Nat) : Group :=
  let G := { G.modSplit sp fun S => { S with inRun := false, runLen := 0, lvalid := 0, runIds := [], wait := wait } with cur := none }
  G.mergeAt sp now P

/-- R104, R107: a split whose owned set is empty takes its top deferred entry, or ends. -/
def Group.emptied (G : Group) (sp : Fin 4) : Group :=
  match G.splits[sp] with
  | none => G
  | some S =>
    if S.o != 0 then G
    else match S.stack with
      | [] => { G with splits := G.splits.set sp none, ending := (G.splits.set sp none).toList.all (·.isNone) }
      | d :: ds => G.modSplit sp fun S => { S with pc := d.pc, m := d.f, o := d.o, stack := ds }

/-- What becomes of the split after an instruction that issued in cycle `now`. -/
def Group.flow (G : Group) (sp : Fin 4) (f : Flow) (now P : Nat) : Group :=
  match f with
  | .next => G
  | .jump pc from_ => (G.modSplit sp fun S => { S with pc := pc, notBefore := from_ }).endRun sp 0 now P
  | .fork e pc taken =>
    match G.splits[sp] with
    | none => G
    | some S =>
      let new : Split := { Split.start pc (now + 2) with m := taken, o := taken }
      let G := G.modSplit sp fun S => { S with m := S.m &&& ~~~taken, o := S.o &&& ~~~taken }
      ({ G with splits := G.splits.set e (some new) }).mergeAt e now P
  | .defer pc taken =>
    (G.modSplit sp fun S =>
      { S with stack := ⟨S.pc, S.m &&& ~~~taken, S.o &&& ~~~taken, now⟩ :: S.stack, m := taken, o := taken, pc := pc,
               notBefore := now + 2 }).endRun sp 0 now P
  | .trail wait => G.endRun sp wait now P
  | .retire r =>
    let G := G.closeLanes (G.guesses.flatMap fun e => (e.lanes.filter fun l => r.getLsbD l.lane).map fun l => (e.id, l.lane))
    let G := G.modSplit sp fun S => { S with m := S.m &&& ~~~r, o := S.o &&& ~~~r }
    let G := { G.modSplit sp fun S => { S with inRun := false, runLen := 0, lvalid := 0, runIds := [], wait := 0 } with cur := none }
    (G.emptied sp).mergeAt sp now P

/-! ## Taking effect -/

/-- The instruction's last cycle E (R61). -/
def Iss.last (I : Iss) (e : Eff) : Nat := I.t + e.occ - 1

/-- A result in flight. -/
def Group.fly (G : Group) (p : Pend) : Group := { G with pend := G.pend ++ [p] }

/-- Whether an effect leaves a result in flight that its run counts (R70). -/
def Eff.hasResult (e : Eff) : Bool :=
  match e.comp with
  | .short _ | .long _ | .early .. => !e.ws.isEmpty
  | .flag _ => false
  | .later r => r

/-- A split that goes on to the next instruction of its run. -/
def Iss.goOn (I : Iss) (e : Eff) (S : Split) : Split :=
  { S with pc := S.pc + 1, runLen := S.runLen + 1, lvalid := S.lvalid ||| e.lset,
           runIds := if e.hasResult then I.id :: S.runIds else S.runIds }

/-- The group with its flag claimed, its split gone on and its last cycle noted. -/
def Iss.moved (I : Iss) (e : Eff) (G : Group) : Group :=
  { (G.claimFlag I.h.setf I.id).modSplit I.sp (I.goOn e) with lastE := I.last e }

/-- The results of an effect in flight, or its flag raised (R62 to R64). -/
def Iss.sent (I : Iss) (e : Eff) (G : Group) : Group :=
  let quiet := e.ws.isEmpty && I.h.setf.isNone
  match e.comp with
  | .short q => if quiet then G else G.fly ⟨I.id, I.last e + 1 + q, e.ws, I.h.setf, I.last e + 2 + q, []⟩
  | .long lam => if quiet then G else G.fly ⟨I.id, lam, e.ws, I.h.setf, lam + 1, e.claims⟩
  | .early lam cyc =>
    let G := G.raiseFlag I.h.setf I.id (cyc + 1)
    if e.ws.isEmpty then G else G.fly ⟨I.id, lam + 1, e.ws, none, lam + 1, []⟩
  | .flag cyc => G.raiseFlag I.h.setf I.id (cyc + 1)
  | .later r => if r then G.fly ⟨I.id, 0, [], none, 0, []⟩ else G

/-- A trailer's flag waits for the results of its run (R70). -/
def Iss.trailed (I : Iss) (e : Eff) (G : Group) : Group :=
  match e.flow, I.h.setf with
  | .trail _, some f => ({ G with trails := G.trails ++ [TrailWait.mk f I.id I.S.runIds] } : Group).settleTrails (I.t + 1)
  | _, _ => G

/-- The group after an instruction took effect: its flag, its results in flight, its split. -/
def Iss.group (I : Iss) (e : Eff) (G : Group) : Group :=
  I.trailed e ((I.sent e (I.moved e G)).flow I.sp e.flow I.t I.P)

/-- The landing of an instruction's results put on the agenda. -/
def Iss.agenda (I : Iss) (e : Eff) (s : State) : State :=
  if e.ws.isEmpty && I.h.setf.isNone then s
  else match e.comp with
    | .short q => s.postQ I.c (I.last e + 1 + q) (.resultLanding I.c I.g I.id)
    | .long lam => s.postQ I.c lam (.resultLanding I.c I.g I.id)
    | .early lam _ => if e.ws.isEmpty then s else s.postQ I.c (lam + 1) (.resultLanding I.c I.g I.id)
    | _ => s

/-- The charge of an issue (R359). -/
def Core.pay (k : Core) (n : Nat) : Core :=
  { k with allow := max (-8388608) (k.allow - n), energy := k.energy + BitVec.ofNat 32 n }

/-- A unit held until a cycle. -/
def Units.hold (u : Units) (f : FU) (until_ : Nat) : Units :=
  match f with
  | .none => u
  | .scalar => { u with scalar := until_ }
  | .vec => { u with vec := until_ }
  | .lsu => { u with lsu := until_ }
  | .acc => { u with acc := until_ }

/-- Nothing at the issue slot. -/
def State.clearIssue (s : State) : State := s.modSch fun h => { h with issue := none }

/-- What an effect does at once: the issue slot is clear, the group goes on, its results are in flight and its unit is held. -/
def Iss.took (I : Iss) (s : State) (e : Eff) : State :=
  (I.agenda e (s.clearIssue.modGroup I.c I.g (I.group e))).modCore I.c fun k =>
    { k.pay e.charge with units := k.units.hold e.unit (I.last e + 1) }

/-- A run of 24 instructions ends (R69). -/
def Iss.limit (I : Iss) (s : State) : State :=
  match (s.group? I.c I.g).bind fun G => G.splits[I.sp] with
  | some S => if S.inRun && S.runLen ≥ 24 then s.postNow (.runLimitEnd I.c I.g) else s
  | none => s

/-- An effect's fault: serviced, or a stop after it. -/
def Iss.faults (I : Iss) (s : State) (e : Eff) : State :=
  let s := match e.serviced with
    | some r => s.takeServiced I.c I.g r
    | none => s
  match e.after with
  | some r => s.takeStop I.c I.g r
  | none => s

/-- A group whose last lane retired ends (R107). -/
def Iss.ended (I : Iss) (s : State) (e : Eff) : State :=
  match e.flow with
  | .retire _ => if (s.group? I.c I.g).any fun G => G.ending then (s.leaveGroup I.c I.g).tryEndGroup I.c I.g else s
  | _ => s

/-- AN INSTRUCTION TAKES EFFECT. -/
def Iss.commit (I : Iss) (s : State) (e : Eff) : State := I.ended (I.faults (I.limit (I.took s e)) e) e

/-- An instruction that a fault stops has no effect (R112). -/
def Iss.halt (I : Iss) (r : Report) : State := I.s.clearIssue.takeStop I.c I.g r

/-- The checks that come before an instruction's own: its registers against the budget, and the l registers it reads. -/
def Iss.pre (I : Iss) (u : Use) : Option Report :=
  if !u.inBudget I.G.budget then some (I.scalar .illEnc)
  else if !u.lReady I.S.lvalid then some (I.scalar .illRun)
  else none

/-- A report with lanes that raised K_CONSUME for their guard beside it: the cause of lowest rank is reported (R110, R336, R337). -/
def Iss.beside (I : Iss) (r : Report) (k : Lanes) : Report :=
  if r.cause = .kConsume then { r with cmask := r.cmask ||| k }
  else if r.cause.rank < Cause.kConsume.rank then { r with omask := r.omask ||| k }
  else { I.lanes .kConsume k with omask := r.cmask ||| r.omask }

/-- A marked guard's lanes in the operand log, where they raise K_CONSUME again when the access issues again (R145, R337). -/
def Iss.logMarks (I : Iss) (s : State) (k : Lanes) : State :=
  s.modOp I.c I.id fun o => { o with accs := o.accs ++ (bitsOf k).map fun l =>
    { lane := l, ptr := 0, nbytes := 1, data := 0, cmp := 0, mark := false, lim := none, start := I.t, res := 0, km := 0, arr := none,
      dlv := false, direct := false, cause := some .kConsume } }

/-- What an instruction does whose guard is marked in some lanes under FAULT: its own causes count in the others (R110, R336). -/
def Iss.markedGuard (I : Iss) (k : Lanes) (body : Iss → Res) : Res :=
  if k = 0 then body I
  else match body { I with off := k } with
    | .stop r => .stop (I.beside r k)
    | .stopOn s r => .stopOn s (I.beside r k)
    | .done s e => match e.serviced with
      | some r => .done (I.logMarks s k) { e with serviced := some (I.beside r k) }
      | none => .stop (I.lanes .kConsume k)
    | _ => .stop (I.lanes .kConsume k)

/-- An uncorrectable register read, which ranks after every other cause of the instruction (R336, R355): it is consumed unless a cause of
the instruction stops or logs it. -/
def Res.orUe (I : Iss) : Res → Res
  | .done s e =>
    if e.serviced.isSome then .done (s.modOp I.c I.id fun o => { o with cause := some .ueData }) e else .ue .ueData
  | r => r

/-- The same, where the instruction reads an uncorrectable word in lanes of its own choosing. -/
def Res.orUeIf (I : Iss) (bad : Bool) (r : Res) : Res := if bad then r.orUe I else r

/-- What an instruction that uses some registers does at its issue. -/
def Iss.outcome (I : Iss) (u : Use) (body : Iss → Res) : Res :=
  match I.pre u with
  | some r => .stop r
  | none =>
    (I.markedGuard I.guardMarks body).orUeIf I (I.meetsUe u)

/-- A Sextant step whose instruction is held has not issued it (R114). -/
def State.unstep (s : State) (c g : Nat) : State :=
  s.modSch fun h => { h with steps := h.steps.map fun t => if t.1.core = c ∧ t.1.slot = g then (t.1, none) else t }

/-- A Sextant step whose instruction never issues ends, and reports so (R114). -/
def State.stepVoid (s : State) (c g : Nat) : State :=
  match s.stepOn c with
  | some (t, _) => if t.slot = g then (s.setStep c none).emit (.stepReport false) else s
  | none => s

/-- A Sextant step that ends at its instruction's issue ends, and reports so (R114). -/
def State.stepIssued (s : State) (c g : Nat) : State :=
  match s.stepOn c with
  | some (t, _) => if t.slot = g then (s.setStep c none).emit (.stepReport true) else s
  | none => s

/-- An instruction held at issue (R164, R176, R234, R243, R277): its run stays open and its group issues nothing in this cycle. A run
that was open before is passed over for another (R100). -/
def Iss.held (I : Iss) (s : State) : State :=
  let s := (s.clearIssue.modGroup I.c I.g fun G => { G with holdUntil := max G.holdUntil (I.t + 1) }).unstep I.c I.g
  if I.G.runStart < I.t then s.modSch fun h => { h with todo := I.c :: h.todo } else s

/-- The state after an instruction's issue. -/
def Iss.finish (I : Iss) : Res → State
  | .stop r => I.halt r
  | .stopOn s r => s.clearIssue.takeStop I.c I.g r
  | .hold s => I.held s
  | .ue c => I.s.clearIssue.consume I.G.ctx I.G.crew c
  | .done s e => I.commit s e

/-- An instruction that uses some registers issues with a body. -/
def issue (h : Hdr) (u : Use) (s : State) (body : Iss → Res) : Host.Outcome State Fault Refusal :=
  match s.issuer h with
  | none => .fault .noIssuer
  | some I => .next (I.finish (I.outcome u body))

/-! ## Shapes of effects -/

namespace Iss

/-- The issue takes effect on the state as it stands. -/
def ok (I : Iss) (e : Eff) : Res := .done I.s e

/-- A scalar instruction with a scalar result (R62): the write, when the guard holds, or K_CONSUME for a marked write to xm. -/
def scalarOp (I : Iss) (occ : Nat) (d : Opnd) (e : Elem) : Res :=
  if !I.qok then I.ok { occ := occ, unit := .scalar }
  else match I.xmFault d e.k with
    | some r => .stop r
    | none => I.ok { ws := I.wscal d e, occ := occ, unit := .scalar }

/-- A short-class vector instruction: its result in the active lanes, with required DIST `q` and a charge a pass. -/
def vectorOp (I : Iss) (q charge : Nat) (d : Opnd) (x : VReg) (u : Use) : Res :=
  I.ok { ws := wvec d I.active x, comp := .short q, occ := I.P, unit := .vec, charge := charge * I.P, lset := u.lSet }

/-- A long-class vector instruction that lands in cycle t + `lat`. -/
def vectorLong (I : Iss) (lat charge : Nat) (ws : List RegWrite) : Res :=
  I.ok { ws := ws, comp := .long (I.t + lat), occ := I.P, unit := .vec, charge := charge * I.P }

end Iss

end Sys2Proof.Machine
end

