-- ==== Sys2Proof/Machine/Scalar.lean ====
section
/-! DEFINITION. Scalar integer instructions (chapter 5, Tables 7 and 8). -/

namespace Sys2Proof.Machine

open Sys2Proof

/-- A two-source scalar operation: its value from a, b and, where it reads it, d. -/
def scalarBin (x : SBinA) (occ : Nat) (readsD : Bool) (f : Word → Word → Word → Word) (s : State) :
    Host.Outcome State Fault Refusal :=
  issue x.h { reads := if readsD then [x.a, x.b, x.d] else [x.a, x.b], all := true } s fun I =>
    let a := I.sval x.zx x.a
    let b := I.sval x.zx x.b
    let d := I.sval false x.d
    I.scalarOp occ x.d ⟨f a.val b.val d.val, a.k || b.k || (readsD && d.k)⟩

/-- A one-source scalar operation. -/
def scalarUn (h : Hdr) (d a : Opnd) (zx : Bool) (f : Word → Word) (s : State) : Host.Outcome State Fault Refusal :=
  issue h { reads := [a], all := true } s fun I =>
    let a := I.sval zx a
    I.scalarOp 1 d ⟨f a.val, a.k⟩

/-! ## The values -/

/-- The high word of the 64-bit product. -/
def mulHigh (u : Bool) (a b : Word) : Word :=
  if u then BitVec.ofNat 32 (a.toNat * b.toNat / 2 ^ 32) else BitVec.ofInt 32 (a.toInt * b.toInt / 2 ^ 32)

/-- SDIV's quotient, rounded toward zero. -/
def quotient (u : Bool) (a b : Word) : Word :=
  if b = 0 then 0xFFFFFFFF
  else if u then BitVec.ofNat 32 (a.toNat / b.toNat)
  else BitVec.ofInt 32 (a.toInt.tdiv b.toInt)

/-- Left shift; 0 when the amount is 32 or more. -/
def shl (a b : Word) : Word := if b.toNat ≥ 32 then 0 else a <<< b.toNat

/-- Right shift; 0 when the amount is 32 or more. -/
def shr (a b : Word) : Word := if b.toNat ≥ 32 then 0 else a >>> b.toNat

/-- Arithmetic right shift; 32 copies of the sign when the amount is 32 or more. -/
def sar (a b : Word) : Word := a.sshiftRight (min b.toNat 32)

/-- The smaller word. -/
def minW (u : Bool) (a b : Word) : Word := if (if u then a.ult b else a.slt b) then a else b

/-- The larger word. -/
def maxW (u : Bool) (a b : Word) : Word := if (if u then a.ult b else a.slt b) then b else a

/-- The absolute value; −2^31 gives 0x8000_0000. -/
def absW (a : Word) : Word := if a.msb then -a else a

/-- The number of 1 bits. -/
def popW (a : Word) : Word := BitVec.ofNat 32 (popc a)

/-- Leading zeros; 32 for 0. -/
def clzW (a : Word) : Word := if a = 0 then 32 else BitVec.ofNat 32 (31 - Nat.log2 a.toNat)

/-- A bit field of `n` bits at `p`, sign- or zero-extended. -/
def bfe (sgn : Bool) (p n : Nat) (a : Word) : Word := if sgn then sextLow n (a >>> p) else zextLow n (a >>> p)

/-- The low `n` bits of `a` placed at `p` of `d`. -/
def bfi (p n : Nat) (a d : Word) : Word :=
  let m : Word := zextLow n 0xFFFFFFFF <<< p
  (d &&& ~~~m) ||| ((a <<< p) &&& m)

/-! ## The instructions -/

/-- SADD: a + b. -/
def execSadd (x : SBinA) (s : State) : Host.Outcome State Fault Refusal := scalarBin x 1 false (fun a b _ => a + b) s
/-- SSUB: a − b. -/
def execSsub (x : SBinA) (s : State) : Host.Outcome State Fault Refusal := scalarBin x 1 false (fun a b _ => a - b) s
/-- SMUL: a × b. -/
def execSmul (x : SBinA) (s : State) : Host.Outcome State Fault Refusal := scalarBin x 2 false (fun a b _ => a * b) s
/-- SMULH: the high word of the product. -/
def execSmulh (x : SBinA) (s : State) : Host.Outcome State Fault Refusal := scalarBin x 2 false (fun a b _ => mulHigh x.u a b) s
/-- SMAD: a × b + d. -/
def execSmad (x : SBinA) (s : State) : Host.Outcome State Fault Refusal := scalarBin x 2 true (fun a b d => a * b + d) s
/-- SDIV: the quotient. -/
def execSdiv (x : SBinA) (s : State) : Host.Outcome State Fault Refusal := scalarBin x 12 false (fun a b _ => quotient x.u a b) s
/-- SAND. -/
def execSand (x : SBinA) (s : State) : Host.Outcome State Fault Refusal := scalarBin x 1 false (fun a b _ => a &&& b) s
/-- SOR. -/
def execSor (x : SBinA) (s : State) : Host.Outcome State Fault Refusal := scalarBin x 1 false (fun a b _ => a ||| b) s
/-- SXOR. -/
def execSxor (x : SBinA) (s : State) : Host.Outcome State Fault Refusal := scalarBin x 1 false (fun a b _ => a ^^^ b) s
/-- SSHL. -/
def execSshl (x : SBinA) (s : State) : Host.Outcome State Fault Refusal := scalarBin x 1 false (fun a b _ => shl a b) s
/-- SSHR. -/
def execSshr (x : SBinA) (s : State) : Host.Outcome State Fault Refusal := scalarBin x 1 false (fun a b _ => shr a b) s
/-- SSAR. -/
def execSsar (x : SBinA) (s : State) : Host.Outcome State Fault Refusal := scalarBin x 1 false (fun a b _ => sar a b) s
/-- SMIN. -/
def execSmin (x : SBinA) (s : State) : Host.Outcome State Fault Refusal := scalarBin x 1 false (fun a b _ => minW x.u a b) s
/-- SMAX. -/
def execSmax (x : SBinA) (s : State) : Host.Outcome State Fault Refusal := scalarBin x 1 false (fun a b _ => maxW x.u a b) s
/-- SABS. -/
def execSabs (x : UnA) (s : State) : Host.Outcome State Fault Refusal := scalarUn x.h x.d x.a false absW s
/-- SMOV. -/
def execSmov (x : MovA) (s : State) : Host.Outcome State Fault Refusal := scalarUn x.h x.d x.a x.zx id s
/-- SPOPC. -/
def execSpopc (x : UnA) (s : State) : Host.Outcome State Fault Refusal := scalarUn x.h x.d x.a false popW s
/-- SCLZ. -/
def execSclz (x : UnA) (s : State) : Host.Outcome State Fault Refusal := scalarUn x.h x.d x.a false clzW s

/-- SSEL: a or b, as a q register says. -/
def execSsel (x : SelA) (s : State) : Host.Outcome State Fault Refusal :=
  issue x.h { reads := [x.a, x.b], all := true } s fun I =>
    I.scalarOp 1 x.d (if I.q x.c != x.neg then I.sval x.zx x.a else I.sval x.zx x.b)

/-- SCMP: a condition to a q register. -/
def execScmp (x : CmpA) (s : State) : Host.Outcome State Fault Refusal :=
  issue x.h { reads := [x.a, x.b], all := true } s fun I =>
    let a := I.sval x.zx x.a
    let b := I.sval x.zx x.b
    if !I.qok then I.ok { unit := .scalar }
    else if (a.k || b.k) && !I.uses 0 then .stop I.kAll
    else I.ok { ws := [.qbit x.d (x.cond.holds a.val b.val)], unit := .scalar }

/-- SBFE: a bit field of a. -/
def execSbfe (x : BfA) (s : State) : Host.Outcome State Fault Refusal :=
  scalarUn x.h x.d x.a false (bfe x.sgn x.pos.toNat (x.lenM1.toNat + 1)) s

/-- SBFI: the low bits of a placed in d. -/
def execSbfi (x : BfA) (s : State) : Host.Outcome State Fault Refusal :=
  issue x.h { reads := [x.a, x.d], all := true } s fun I =>
    let a := I.sval false x.a
    let d := I.sval false x.d
    I.scalarOp 1 x.d ⟨bfi x.pos.toNat (x.lenM1.toNat + 1) a.val d.val, a.k || d.k⟩

end Sys2Proof.Machine
end

