-- ==== Sys2Proof/Machine/Cross.lean ====
section
/-! DEFINITION. Cross-lane instructions (chapter 6, R129 to R133): SHFL, VBCAST, VRED, VSCAN, BALLOT. -/

namespace Sys2Proof.Machine

open Sys2Proof

/-- Lanes of a segment (R129). -/
def segW (seg : Fin 6) : Nat := if seg = 0 then 96 else 2 ^ seg.val

/-- The lowest lane of the segment a lane lies in. -/
def segBase (w lane : Nat) : Nat := lane - lane % w

/-- The source position of SHFL (R130). -/
def ShMode.pos (m : ShMode) (i n : Nat) : Int :=
  match m with
  | .idx => n
  | .up => (i : Int) - n
  | .down => (i : Int) + n
  | .xor => ((i ^^^ n : Nat) : Int)

/-- The lane a position names, or the lane itself when the position lies outside the segment. -/
def segSrc (w lane : Nat) (j : Int) : Nat := if 0 ≤ j && j < w then segBase w lane + j.toNat else lane

/-- The lanes that the active lanes of a cross-lane instruction name (R116). -/
def Iss.named (I : Iss) (src : Nat → Nat) : Lanes := (bitsOf I.active).foldl (fun m l => m ||| (1#96 <<< src l)) 0

/-- SHFL (R130); the lanes of a it reads are those that its active lanes name, active or not (R116). R57 names signed integer, ZX and floating-point operations; of an immediate data operand here the spec says nothing, and it is
sign-extended (assumption 118). -/
def execShfl (x : ShflA) (s : State) : Host.Outcome State Fault Refusal :=
  issue x.h { reads := [x.b], names := [x.a], dsts := [x.d] } s fun I =>
    let a := I.vsrc false x.a
    let b := I.vsrc false x.b
    let w := segW x.seg
    let src (l : Nat) : Nat := segSrc w l (ShMode.pos x.mode (l % w) ((b.at l).val.extractLsb' 0 7).toNat)
    (I.vectorLong (4 + 2 * I.P) 4 (Iss.wvec x.d I.active (VReg.of fun l =>
      ⟨(a.at (src l)).val, (a.at (src l)).k || (b.at l).k⟩))).orUeIf I (I.badLanes x.a (I.named src))

/-- VBCAST (R130), which reads the lane of a that it names, active or not (R116). Whether b of b mod W is signed the spec leaves open: it is read unsigned, and an immediate a is sign-extended
(assumption 118). -/
def execVbcast (x : BcastA) (s : State) : Host.Outcome State Fault Refusal :=
  issue x.h { reads := [x.b], names := [x.a], dsts := [x.d] } s fun I =>
    let a := I.vsrc false x.a
    let b := I.sval false x.b
    let w := segW x.seg
    let src (l : Nat) : Nat := segSrc w l (b.val.toNat % w : Nat)
    (I.vectorLong (4 + 2 * I.P) 4 (Iss.wvec x.d I.active (VReg.of fun l =>
      ⟨(a.at (src l)).val, (a.at (src l)).k || b.k⟩))).orUeIf I (I.badLanes x.a (I.named src))

/-- An operation of VRED and VSCAN on two words (Table 12). -/
def RedOp.apply (o : RedOp) (rm : RMode) (a b : Word) : Word :=
  match o with
  | .add => a + b
  | .min => minW false a b
  | .max => maxW false a b
  | .umin => minW true a b
  | .umax => maxW true a b
  | .and => a &&& b
  | .or => a ||| b
  | .xor => a ^^^ b
  | .fadd => fadd32 rm a b
  | .fmin => BitVec.ofNat 32 (FpF.f32.minMax false a.toNat b.toNat)
  | .fmax => BitVec.ofNat 32 (FpF.f32.minMax true a.toNat b.toNat)

/-- The exclusive identity (Table 12). -/
def RedOp.identity (o : RedOp) : Word :=
  match o with
  | .min => 0x7FFFFFFF
  | .max => 0x80000000
  | .umin | .and => 0xFFFFFFFF
  | .fmin => 0x7F800000
  | .fmax => 0xFF800000
  | _ => 0

/-- Two partial results combined; one that comes from no active lane leaves the other unchanged. -/
def RedOp.combine (o : RedOp) (rm : RMode) (a b : Option Elem) : Option Elem :=
  match a, b with
  | none, y => y
  | x, none => x
  | some p, some q => some ⟨RedOp.apply o rm p.val q.val, p.k || q.k⟩

/-- The fixed tree over 2^n positions from a lane on (R131). -/
def RedOp.tree (o : RedOp) (rm : RMode) (f : Nat → Option Elem) : Nat → Nat → Option Elem
  | 0, base => f base
  | n + 1, base => RedOp.combine o rm (RedOp.tree o rm f n base) (RedOp.tree o rm f n (base + 2 ^ n))

/-- The reduction of a segment (R131). -/
def RedOp.segment (o : RedOp) (rm : RMode) (seg : Fin 6) (f : Nat → Option Elem) (base : Nat) : Option Elem :=
  if seg = 0 then
    RedOp.combine o rm (RedOp.combine o rm (RedOp.tree o rm f 5 0) (RedOp.tree o rm f 5 32)) (RedOp.tree o rm f 5 64)
  else RedOp.tree o rm f seg.val base

/-- The active lanes of a source. -/
def Iss.live (I : Iss) (a : VReg) (l : Nat) : Option Elem := if I.active.getLsbD l then some (a.at l) else none

/-- A source of VRED and VSCAN: FP operations read a floating-point immediate. R57 names signed integer, ZX and floating-point operations: of
an immediate under UMIN, UMAX, AND, OR or XOR it says nothing, and it is sign-extended there too (assumption 118). -/
def Iss.rsrc (I : Iss) (o : RedOp) (a : Opnd) : VReg :=
  match o with
  | .fadd | .fmin | .fmax => I.fsrc .f32 a
  | _ => I.vsrc false a

/-- VRED (R131). -/
def execVred (x : RedA) (s : State) : Host.Outcome State Fault Refusal :=
  issue x.h { reads := [x.a], dsts := [x.d] } s fun I =>
    let a := I.rsrc x.op x.a
    let w := segW x.seg
    let r : List (Nat × Option Elem) :=
      (List.range (96 / w)).map fun j => (j * w, RedOp.segment x.op x.rm x.seg (I.live a) (j * w))
    I.vectorLong (5 + 2 * I.P) 4 (Iss.wvec x.d I.active (VReg.of fun l =>
      ((r.find? fun p => p.1 == segBase w l).bind (·.2)).getD Elem.zero))

/-- The running values of VSCAN through a segment's lanes, each with the value the lane receives (R132). -/
def scanFrom (o : RedOp) (rm : RMode) (excl : Bool) (f : Nat → Option Elem) : Option Elem → List Nat → List (Nat × Elem)
  | _, [] => []
  | r, l :: ls => match f l with
    | none => scanFrom o rm excl f r ls
    | some e =>
      let r' := RedOp.combine o rm r (some e)
      (l, if excl then r.getD ⟨RedOp.identity o, false⟩ else r'.getD e) :: scanFrom o rm excl f r' ls

/-- VSCAN (R132). -/
def execVscan (x : RedA) (s : State) : Host.Outcome State Fault Refusal :=
  issue x.h { reads := [x.a], dsts := [x.d] } s fun I =>
    let a := I.rsrc x.op x.a
    let w := segW x.seg
    let r := (List.range (96 / w)).flatMap fun j =>
      scanFrom x.op x.rm x.excl (I.live a) none ((List.range w).map fun i => j * w + i)
    I.vectorLong (4 + 2 * I.P) 4 (Iss.wvec x.d I.active (VReg.of fun l =>
      ((r.find? fun p => p.1 == l).map (·.2)).getD Elem.zero))

/-- BALLOT's word for a lane (R133). -/
def ballotWord (w : Nat) (bits : Lanes) (lane : Nat) : Word :=
  let b := if w = 96 then lane / 32 * 32 else segBase w lane
  let n := min w 32
  BitVec.ofNat 32 ((bits.toNat / 2 ^ b) % 2 ^ n)

/-- BALLOT (R133). -/
def execBallot (x : BallotA) (s : State) : Host.Outcome State Fault Refusal :=
  issue x.h { dsts := [x.d], pr := [x.a] } s fun I =>
    let p := I.pred x.a
    let w := segW x.seg
    I.vectorLong (4 + 2 * I.P) 4 (Iss.wvec x.d I.active (VReg.of fun l =>
      ⟨ballotWord w (p.val &&& I.active) l, ballotWord w (p.k &&& I.active) l != 0⟩))

end Sys2Proof.Machine
end

