-- ==== Sys2Proof/Machine/Access.lean ====
section
/-! DEFINITION. What every access shares: what it finds at its pointer (R134, R135, R142, R186), its checks at issue and after its
walks and token reads (R144), the order in which accesses are performed (R152, R169, R212), reads, writes and latencies. -/

namespace Sys2Proof.Machine

open Sys2Proof

/-! ## What an access finds -/

/-- What an access finds at its pointer. -/
inductive Look where
  /-- A region the core may cache: local and physical address. -/
  | l1 (va pa : Nat)
  /-- Served at home: a HOMED region, or a page with W = 0. -/
  | home (va pa : Nat) (homed : Bool)
  | scratch (crew off : Nat)
  | record (off : Nat)
  /-- An address of another module; `homed` says that its region is HOMED there. -/
  | remote (a : Nat) (homed : Bool)
  /-- A gang member that has not attached (R300). -/
  | wait
  /-- A LENT region (R187). -/
  | lent
  /-- The page of a local address is in no TLB. -/
  | walk (va : Nat)
  | bad (c : Cause)
  deriving DecidableEq, Repr

/-- Crossings beyond the first between two dies, in cycles (R8, Table 10 of chapter 1). -/
def hops (a b : Nat) : Nat := if a ^^^ b = 3 then 120 else 0

namespace State

/-- The checks of R60, R134 for spaces 1 to 4, and R135, for `n` bytes that must lie at a multiple of `al`. -/
def early (s : State) (w : Who) (p : Ptr) (n al : Nat) (store : Bool) : Option Cause :=
  match s.route w p n store with
  | .error .illPtr => some .illPtr
  | r =>
    if Ptr.addr p % al != 0 then some .align
    else match r with
      | .error c => some c
      | .ok _ => none

/-- What an access finds at an address of another module, which answers for its pages and its regions: a free choice among what R142 and
R186 allow (assumption 1). -/
def remoteLook (s : State) (a : Nat) (store : Bool) : Look :=
  match Config.remoteRight a s.sch.ticks % 10 with
  | 1 => .bad .page
  | 2 => .bad .tableUe
  | 3 => .bad .prot
  | 4 => .bad .tokNone
  | 5 => if store then .bad .tokRo else .remote a true
  | 6 => .bad .tokLent
  | 7 => .bad .tokOrphan
  | 8 => .remote a true
  | _ => .remote a false

/-- What an access finds at a local address whose translation is known (R142, R186). -/
def lookPage (s : State) (w : Who) (a : Nat) (e : Tlbe) (store : Bool) : Look :=
  if e.h then .bad .prot
  else if !e.w then (if store then .bad .prot else .home a (e.phys a) false)
  else match s.rights w a store with
    | .cache => .l1 a (e.phys a)
    | .home _ => .home a (e.phys a) true
    | .stall => .lent
    | .fault c => .bad c

/-- What an access of `n` bytes at a multiple of `al` finds; `store` covers stores, atomics and token operations. -/
def lookAl (s : State) (w : Who) (p : Ptr) (n al : Nat) (store : Bool) : Look :=
  match s.early w p n al store with
  | some c => .bad c
  | none => match s.route w p n store with
    | .error c => .bad c
    | .ok .wait => .wait
    | .ok (.remote a) => s.remoteLook a store
    | .ok (.scratch k o) => .scratch k o
    | .ok (.record o) => .record o
    | .ok (.global a) => match s.cached w.c w.ctx a with
      | none => .walk a
      | some e => s.lookPage w a e store

/-- What an access of `n` bytes at a multiple of `al` will find, its page's translation being in a TLB or not. -/
def lookAhead (s : State) (w : Who) (p : Ptr) (n al : Nat) (store : Bool) : Look :=
  match s.lookAl w p n al store with
  | .walk a => match s.walk w.ctx a with
    | .ok e => s.lookPage w a e store
    | .fault c _ => .bad c
  | l => l

/-- What a naturally aligned access of `n` bytes finds. -/
def look (s : State) (w : Who) (p : Ptr) (n : Nat) (store : Bool) : Look := s.lookAl w p n n store

/-! ## Latencies (chapter 1, Table 10; R154, R183) -/

/-- The least latency of a read that home serves: a free choice between a hit of the home slice and floor or far memory, which the slice
caches out of sight of programs (R14, R27). -/
def homeReach (s : State) (c pa : Nat) : Nat × State :=
  let (n, s) := s.freeNat
  ((if n % 2 = 0 then 80 else if pa / 2 ^ 48 = 1 then 150 else 450) + hops (dieOf c) (homeDie pa), s)

/-- Whether the store buffer of the crew that acts holds every byte of a range. -/
def allBuffered (s : State) (w : Who) (va n : Nat) : Bool := (List.range n).all fun i => (s.buffered w (va + i)).isSome

/-- The least latency of a load of `n` bytes from what it finds. -/
def reach (s : State) (w : Who) (l : Look) (n : Nat) : Nat × State :=
  match l with
  | .l1 va pa => if (s.l1? w.c pa).isSome || s.allBuffered w va n then (20, s) else s.homeReach w.c pa
  | .home _ pa _ => s.homeReach w.c pa
  | .scratch k _ => match s.crew? w.ctx k with
    | some m => (if m.core = w.c then 14 else 80 + hops (dieOf w.c) (dieOf m.core), s)
    | none => (14, s)
  | .record _ => (20, s)
  | .remote a _ => (if s.allBuffered w (remoteBlk a) n then 20 else 3000, s)
  | _ => (0, s)

/-- The least latency of a store (Table 7). -/
def storeReach (s : State) (w : Who) (l : Look) : Nat :=
  match l with
  | .l1 .. => 20
  | .home _ pa _ => 80 + hops (dieOf w.c) (homeDie pa)
  | .remote .. => if (s.crew? w.ctx w.crew).any fun k => !k.committed then 20 else 3000
  | l => (s.reach w l 1).1

/-- The cycle from which an access the core serves can start, its region's rights being known (R183): `start` on a hit of the token cache,
later while the entry is being read at home. -/
def tokenStart (s : State) (w : Who) (l : Look) (start : Nat) : Nat × State :=
  match l with
  | .l1 va pa => match (s.ctx w.ctx).region? va with
    | some r =>
      let (n, s) := s.freeNat
      let (t, s) := s.useTok w.c w.ctx r (start + 80 + hops (dieOf w.c) (homeDie pa) + n)
      (max start t, s)
    | none => (start, s)
  | _ => (start, s)

/-- The line that an access finds in a core's L1. -/
def lineOf (s : State) (c : Nat) (l : Look) : Option Line :=
  match l with
  | .l1 _ pa => s.l1? c pa
  | _ => none

/-- A line of a core's L1 whose fill lands in cycle `t`, the miss being that of the load `id` in the pass that starts in cycle `start`. -/
def filling (s : State) (c : Nat) (l : Look) (t id start : Nat) : State :=
  match l with
  | .l1 _ pa => s.setL1 c ((s.core c).caches.l1.map fun x => if x.pa = pa / 128 * 128 then { x with fill := t, by' := (id, start) } else x)
  | _ => s

/-! ## Reading and writing -/

/-- A byte of another module as a crew reads it (R143): its latest store, buffered or gone there, else a free value `x`; of a HOMED region,
which others may have written since, the store that has gone there or the free value, by a free choice (assumption 1). -/
def remoteByte (s : State) (w : Who) (a : Nat) (homed keep : Bool) (x : Byte) : Byte :=
  match s.buffered w (remoteBlk a) with
  | some b => b
  | none => match (s.crew? w.ctx w.crew).bind fun k => k.gone.find? fun c => c.1 == remoteBlk a with
    | some c => if homed && !keep then x else c.2
    | none => x

/-- `n` bytes read: the value, whether a byte is uncorrectable, and the spill marks of its words (R143, R158). What another module
holds is a free value (assumption 1). -/
def readAt (s : State) (w : Who) (l : Look) (n : Nat) : (BitVec 128 × Bool × BitVec 4) × State :=
  let num (bs : List Byte) : BitVec 128 := BitVec.ofNat 128 (leNat bs)
  match l with
  | .l1 va pa =>
    let s := s.fillL1 w.c w.ctx va pa
    ((num ((List.range n).map fun i => s.byte0 w (va + i) (pa + i) true),
      (List.range n).any fun i => s.ueByte0 w (va + i) (pa + i) true, 0), s)
  | .home va pa _ =>
    ((num ((List.range n).map fun i => s.byte0 w (va + i) (pa + i) false),
      (List.range n).any fun i => s.ueByte0 w (va + i) (pa + i) false, 0), s)
  | .scratch k o => match s.crew? w.ctx k with
    | some m => ((num (m.scratch.readBytes o n), m.ueIn o n, m.spilled o n), s)
    | none => ((0, false, 0), s)
  | .record o => ((num ((List.range n).map fun i => s.recordByte w (o + i)), false, 0), s)
  | .remote a homed =>
    let (x, s) := s.freeBits
    let (y, s) := s.freeBits
    ((num ((List.range n).map fun i => s.remoteByte w (a + i) homed (y.getLsbD i) (x.extractLsb' (8 * i) 8)), false, 0), s)
  | _ => ((0, false, 0), s)

/-- Bytes written by a store, but those of HOMED regions. -/
def writeAt (s : State) (w : Who) (l : Look) (bs : List Byte) : State :=
  match l with
  | .l1 va pa => s.store0 w va pa bs false
  | .scratch k o => s.scratchWrite w.ctx k o bs
  | .remote a homed => s.store0 w (remoteBlk a) 0 bs homed
  | _ => s

/-- The stores of one instruction to HOMED regions, in ascending lane order: the crew commits first (R143). -/
def writeHomed (s : State) (w : Who) (xs : List (Nat × Nat × List Byte)) : State :=
  if xs.isEmpty then s
  else
    let s := (s.commit w.ctx w.crew 2)
    let blks := xs.map fun x => x.1 / 32 * 32
    let s := match s.crew? w.ctx w.crew with
      | none => s
      | some k =>
        let es := k.sbuf.filter fun (e : SBEntry) => blks.contains e.blk
        (es.foldl (fun (s : State) e => s.drainEntry w e) s).modCrew w.ctx w.crew fun k =>
          { k with sbuf := k.sbuf.filter fun (e : SBEntry) => !blks.contains e.blk }
    s.homeWrite (xs.flatMap fun x => x.2.2.zipIdx.map fun (b, i) => (x.2.1 + i, b))

end State

/-! ## The accesses of an instruction -/

/-- What an instruction's accesses do: whether they need a store's rights, and what they order. -/
structure AccMode where
  store : Bool
  acq : Bool
  rel : Option Scope
  deriving DecidableEq, Repr

/-- The accesses of an instruction; none for an instruction that is no access of its group. -/
def accMode : Instr → Option AccMode
  | .ld x | .lds x => some ⟨false, x.acq, none⟩
  | .ldg _ | .ldl _ => some ⟨false, false, none⟩
  | .st x | .sts x => some ⟨true, false, if x.rel then some x.scope else none⟩
  | .stg _ | .stl _ => some ⟨true, false, none⟩
  | .atom x | .atoms x =>
    some ⟨true, x.ord == .acq || x.ord == .ar, if x.ord == .rel || x.ord == .ar then some x.scope else none⟩
  | .wparr x => some ⟨true, false, some x.scope⟩
  | .tld x => some ⟨false, x.aon, none⟩
  | .tst x => some ⟨true, false, if x.aon then some x.scope else none⟩
  | .wpwait _ | .waita _ => some ⟨false, false, none⟩
  | _ => none

/-- Whether an instruction is an atomic. -/
def isAtomic : Instr → Bool
  | .atom _ | .atoms _ | .wparr _ => true
  | _ => false

/-- A scope that reaches beyond the core (R152). -/
def scopeWide : Scope → Bool
  | .gang | .dev | .sys => true
  | _ => false

/-- Whether an instruction is a token operation at home (R196). -/
def isToken : Instr → Bool
  | .tklend _ | .tkret _ | .tktake _ | .tksplit _ | .tkjoin _ | .tkshare _ | .tkunshare _ | .tkhome _ | .tkunhome _ | .tkquery _
  | .tkadopt _ => true
  | _ => false

/-- Whether a token operation is an acquire (R201, R206, R208). -/
def tokAcquires : Instr → Bool
  | .tktake _ | .tkunhome _ | .tkadopt _ => true
  | _ => false

/-- Whether later accesses of its core meet what a token operation in flight has already changed for them (Table 5 of chapter 9). -/
def tokSeen : Instr → Bool
  | .tklend _ | .tkshare _ | .tkhome _ => true
  | _ => false

/-- Whether an access's faults are the group's: it is one access for the whole group, or a token operation (R197). -/
def accScalar : Instr → Bool
  | .lds _ | .sts _ | .atoms _ | .wparr _ | .wpwait _ | .waita _ | .tld _ | .tst _ | .copy _ | .launch _ => true
  | .qpop x => !x.vec
  | .tklend _ | .tkret _ | .tktake _ | .tksplit _ | .tkjoin _ | .tkshare _ | .tkunshare _ | .tkhome _ | .tkunhome _ | .tkquery _
  | .tkadopt _ => true
  | _ => false

/-- The alignment of an access: natural, but for the parts of a tile's image (R235). -/
def accAlign (i : Instr) (n : Nat) : Nat :=
  match i with
  | .tld _ | .tst _ => 1
  | _ => n

/-- Causes that hide behind the guess of a limited load (R167). -/
def Cause.hides : Cause → Bool
  | .page | .prot | .tokNone | .tokRo | .tokLent | .tokOrphan | .tableUe => true
  | _ => false

/-- The report of accesses that failed (R337). -/
def accReport (ins : Instr) (pc : Word) (accs : List Acc) (cs : List (Nat × Cause)) : Option Report :=
  let at' (c : Cause) : Ptr :=
    match cs.find? fun x => x.2 == c with
    | some (l, _) => ((accs.find? fun a => a.lane == l).map (·.ptr)).getD 0
    | none => 0
  match Report.ofLanes cs pc 0 with
  | none => none
  | some r => some (if accScalar ins then { cause := r.cause, scalar := true, pc := pc, ptr := at' r.cause }
      else { r with ptr := at' r.cause })

/-- The accesses of an operation have read or written (R152): those of a limited load when every lane has read at its source or failed, landed
or not (R169); that of a wait at its first read. -/
def Op.reached (o : Op) : Bool :=
  (o.stage == .performed && !o.accs.any fun a => a.lim.isSome) ||
    (!o.accs.isEmpty && o.accs.all fun a => a.arr.isSome || a.cause.isSome)

/-- A wait whose word has not satisfied it yet (R221, R222). -/
def Op.watching (o : Op) : Bool :=
  o.stage == .waiting && match o.ins with
    | .wpwait _ | .waita _ => true
    | _ => false

/-- An operation is performed: its accesses have read or written, and a wait has made the read that completes it (R221). -/
def Op.done (o : Op) : Bool := o.reached && !o.watching

/-- A token operation whose new state is not recorded at its core yet (R195). -/
def Op.tokOpen (o : Op) (now : Nat) : Bool := isToken o.ins && !(o.stage == .performed && o.due ≤ now)

/-- The cycle an operation's accesses count from: that of its issue, or a later one in which all of them started anew. -/
def Op.restarted (o : Op) : Nat :=
  match o.accs with
  | [] => o.t
  | a :: as => if as.all (fun b => b.start == a.start) && !as.isEmpty then max o.t a.start else o.t

namespace Iss

/-- One access of an instruction: a lane's pointer, and a mark on its address operands (R156). -/
def acc (_I : Iss) (lane : Nat) (start : Nat) (p : Ptr) (k : Bool) (n : Nat) : Acc :=
  { lane := lane, ptr := p, nbytes := n, data := 0, cmp := 0, mark := false, lim := none, start := start, res := 0, km := 0, arr := none,
    dlv := false, direct := false, cause := if k then some .kConsume else none }

/-- The accesses of the active lanes: base, offset and start in the lane's pass (R153). -/
def laneAccs (I : Iss) (t : Triple) (off : Nat → Int × Bool) (n : Nat) : List Acc :=
  (bitsOf I.active).map fun l =>
    let (p, k) := I.triple t l
    let (d, m) := off l
    I.acc l (I.t + (I.s.core I.c).passOf l) (Ptr.advance p d) (k || m) n

/-- The one access of a scalar access instruction, made when the active set is not empty. -/
def oneAcc (I : Iss) (a : Nat) (off : Elem) (n : Nat) : List Acc :=
  if I.active = 0 then []
  else
    let (p, k) := I.striple a
    [I.acc 0 I.t (Ptr.advance p off.val.toInt) (k || off.k) n]

/-- The causes found at issue (R144): marked addresses, then R60, R134 and R135, and the lanes of `extra`. -/
def accCauses (I : Iss) (accs : List Acc) (al : Nat → Nat) (store : Bool) (extra : List Nat) : List (Nat × Cause) :=
  accs.filterMap fun a => match a.cause with
    | some c => some (a.lane, c)
    | none => match I.s.early I.who a.ptr a.nbytes (al a.nbytes) store with
      | some c => some (a.lane, c)
      | none => if extra.contains a.lane then some (a.lane, .kConsume) else none

/-- The operation of an access instruction. -/
def op (I : Iss) (ins : Instr) (accs : List Acc) : Op :=
  { id := I.id, slot := I.g, split := I.sp.val, pc := I.S.pc, ins := ins, t := I.t, active := I.active, args := [], vargs := [],
    accs := accs, stage := .check, setf := I.h.setf, due := 0, limit := none, last := 0, firstRead := none, cause := none, data := [], acq := false }

/-- The scratchpad a pointer of spaces 1 to 3 reaches, by its core, and the byte of it. -/
def scratchOf (I : Iss) (p : Ptr) : Nat × Nat :=
  match I.s.route I.who p 1 false with
  | .ok (.scratch k o) => ((I.s.crew? I.G.ctx k).map fun m => (m.core, m.base + o)).getD (768, o)
  | _ => (768 + Ptr.rank p, Ptr.addr p)

/-- Occupancy of an access instruction's passes (R153): distinct 128-byte lines of spaces 0 and 4, and the worst bank conflict of a
scratchpad. -/
def occupancy (I : Iss) (accs : List Acc) : Nat :=
  let k := I.s.core I.c
  let pass (i : Nat) : Nat :=
    let xs := accs.filter fun a => k.passOf a.lane == i
    let lines := ((xs.filter fun a => Ptr.space a.ptr == 0 || Ptr.space a.ptr == 4).map fun a =>
      (Ptr.space a.ptr, Ptr.addr a.ptr / 128)).dedup.length
    let words := ((xs.filter fun a => Ptr.space a.ptr ≥ 1 && Ptr.space a.ptr ≤ 3).flatMap fun a =>
      let at' := I.scratchOf a.ptr
      (List.range ((a.nbytes + 3) / 4)).map fun j => (at'.1, at'.2 / 4 + j)).dedup
    let bank := (words.map fun w => words.countP fun v => v.1 == w.1 && v.2 % 32 == w.2 % 32).foldl max 0
    max 1 ((lines + bank + 1) / 2)
  ((List.range I.P).map pass).foldl (· + ·) 0

/-- The checks of an access come in the cycle after its issue at the earliest: an access that leaves its scratchpad is performed a free
number of cycles later. -/
def startChecks (s : State) (c t : Nat) (o : Op) : State :=
  let (n, s) := if o.accs.all fun a => Ptr.space a.ptr == 1 then (0, s) else s.freeNat
  s.postQ c (t + 1 + n) (.accessCheckComplete c o.id)

/-- An access instruction that issues: with no access it sets its flag at t; a stopping cause stops it; a serviced one puts it into
the operand log (R144); else its checks go on. -/
def access (I : Iss) (o : Op) (store : Bool) (extra : List Nat) (e : Eff) : Res :=
  if o.accs.isEmpty then I.ok { e with comp := .flag I.t }
  else
    let cs := I.accCauses o.accs (accAlign o.ins) store extra
    let o := { o with accs := o.accs.map fun a => { a with mark := extra.contains a.lane } }
    match accReport o.ins I.S.pc o.accs cs with
    | none => .done (startChecks (I.s.addOp I.c o) I.c I.t o) e
    | some r =>
      if r.cause.serviced then .done (I.s.addOp I.c { o with stage := .logged }) { e with serviced := some r }
      else .stop r

end Iss

/-! ## Order (R152, R169, R212) -/

namespace State

/-- The location of a pointer, so that two pointers to one byte have one location. -/
def location (s : State) (w : Who) (p : Ptr) : Nat × Nat :=
  match s.route w p 1 false with
  | .ok (.global a) => (0, a)
  | .ok (.scratch k o) => (k + 2, o)
  | _ => (1, p.toNat)

/-- Whether two accesses touch one byte. -/
def overlap (s : State) (w : Who) (a b : Acc) : Bool :=
  let x := s.location w a.ptr
  let y := s.location w b.ptr
  x.1 == y.1 && x.2 < y.2 + b.nbytes && y.2 < x.2 + a.nbytes

/-- The accesses of a group issued before an operation. -/
def olderOps (s : State) (c : Nat) (o : Op) : List Op :=
  ((s.core c).ops.takeWhile fun q => q.id != o.id).filter fun q => q.slot == o.slot && (accMode q.ins).isSome

/-- The token operations a group issued before an operation, their new state not yet recorded (R195). -/
def olderToks (s : State) (c : Nat) (o : Op) : List Op :=
  ((s.core c).ops.takeWhile fun q => q.id != o.id).filter fun q => q.slot == o.slot && q.tokOpen (s.now c)

/-- Whether an access touches the region that a token operation names. -/
def onRegionOf (s : State) (w : Who) (q : Op) (a : Acc) : Bool :=
  Ptr.space a.ptr == 0 && q.accs.any fun b =>
    if Ptr.module b.ptr = Config.thisModule then
      Ptr.module a.ptr == Config.thisModule &&
        ((s.ctx w.ctx).region? (Ptr.local b.ptr)).any fun (r : Region) => r.holds (Ptr.local a.ptr)
    else Ptr.module a.ptr == Ptr.module b.ptr

/-- Whether an access must wait for a token operation of its group: one on its region, or an acquire (R195, R201, R206, R208). While a TKTAKE
waits for its condition it holds the accesses to its region alone, since its group goes on (R201; assumption 122). -/
def tokHolds (s : State) (w : Who) (toks : List Op) (a : Acc) : Bool :=
  toks.any fun q => (tokAcquires q.ins && q.stage != .waiting) || ((match q.ins with
    | .tkquery _ => false
    | _ => true) && s.onRegionOf w q a)

/-- Whether an access must wait for a token operation before its rights are even judged: one whose effect Table 5 lets no access see
first. -/
def tokFirst (s : State) (w : Who) (toks : List Op) (a : Acc) : Bool :=
  toks.any fun q => !tokSeen q.ins && (match q.ins with
    | .tkquery _ => false
    | _ => true) && s.onRegionOf w q a

/-- The point at which an atomic is performed (R209). -/
def point (s : State) (w : Who) (p : Ptr) : Nat × Nat :=
  match s.look w p 4 true with
  | .l1 .. => (0, 0)
  | .home _ pa _ => (1, (homeSlice s.slices pa).getD 0)
  | .scratch k _ => (2, k)
  | .remote .. => (3, Ptr.module p)
  | _ => (4, 0)

/-- Whether an access of an operation must wait for older ones: one on the same bytes, an acquire, an access stalled on a LENT region
(R187), an atomic at the same point or at one not known yet (R212). A wait holds none after its first read: code that needs its acquire waits
on its flag (R223). -/
def laneWaits (s : State) (w : Who) (o : Op) (older : List Op) (a : Acc) : Bool :=
  older.any fun q => !q.reached &&
    (((accMode q.ins).map (·.acq)).getD false || q.acq ||
      (isAtomic o.ins && isAtomic q.ins && q.accs.any fun b =>
        let x := s.point w b.ptr
        x.1 == 4 || x == s.point w a.ptr) ||
      q.accs.any fun b => b.arr.isNone && b.cause.isNone && s.overlap w a b)

/-- Whether a release may be performed: every earlier access of its group is performed at its scope (R152, R169). -/
def released (s : State) (w : Who) (older : List Op) (sc : Scope) : Bool :=
  older.all Op.done && (!scopeWide sc || ((s.crew? w.ctx w.crew).map fun k => k.sbuf.isEmpty).getD true)

/-- The packets a core's copy buffer keeps until they are acknowledged (R286). -/
def inBuffer (s : State) (c : Nat) : Nat :=
  let k := s.core c
  (k.eng.toList.map fun e => (e.map fun x => x.flights.length).getD 0).foldl (· + ·) 0 +
    k.packets.countP (·.sent) + k.acks.countP (s.now c < ·)

/-- Whether a core's network interface can send no new packet (R286). -/
def bufferFull (s : State) (c : Nat) : Bool := s.inBuffer c ≥ 128

/-- Whether an access leaves its core: its home or its crew is elsewhere, and no store buffer takes a store of it. -/
def leaves (s : State) (w : Who) (l : Look) (store : Bool) : Bool :=
  let kept : Bool := store && (s.crew? w.ctx w.crew).any fun k => !k.committed
  match l with
  | .home .. => true
  | .remote _ homed => homed || !kept
  | .l1 _ pa => (s.l1? w.c pa).isNone && !kept
  | .scratch k _ => (s.crew? w.ctx k).any fun m => m.core != w.c
  | _ => false

/-- The checks of a demand access that take time: which lanes fail, whether it must ask again, or what each lane finds. -/
inductive Gate where
  | go (xs : List (Acc × Look))
  | again
  | lent
  | fail (cs : List (Nat × Cause))

/-- The causes of a demand access that its issue would find (R144, R145): marked addresses, R60, R134, R135, and marked data. -/
def issueCauses (s : State) (w : Who) (o : Op) (m : AccMode) : List (Nat × Cause) :=
  o.accs.filterMap fun a =>
    if a.cause = some .kConsume then some (a.lane, .kConsume)
    else match s.early w a.ptr a.nbytes (accAlign o.ins a.nbytes) m.store with
      | some k => some (a.lane, k)
      | none => if a.mark then some (a.lane, .kConsume) else none

/-- The checks of a demand access in every active lane, and its turn (R144, R152, R195): what its issue would find comes first, as when it
issues again (R145). -/
def gate (s : State) (c : Nat) (o : Op) (m : AccMode) : Gate × State :=
  let w := s.opWho c o
  let fresh := s.issueCauses w o m
  let xs := o.accs.map fun a => (a, match a.cause with
    | some k => Look.bad k
    | none => s.lookAl w a.ptr a.nbytes (accAlign o.ins a.nbytes) m.store)
  let walks := xs.filterMap fun x => match x.2 with
    | .walk va => some va
    | _ => none
  let bad := xs.filterMap fun x => match x.2 with
    | .bad k => some (x.1.lane, k)
    | _ => none
  let older := s.olderOps c o
  let toks := s.olderToks c o
  let late := (match m.rel with
    | some sc => !s.released w older sc
    | none => false) || o.accs.any (s.laneWaits w o older) || o.accs.any (s.tokHolds w toks)
  if !fresh.isEmpty then (.fail fresh, s)
  else if o.accs.any (s.tokFirst w toks) then (.again, s.restartOp c o.id)
  else if !walks.isEmpty then (.again, walks.foldl (fun s va => s.startWalk c w.ctx va) (s.restartOp c o.id))
  else if !bad.isEmpty then (.fail bad, s)
  else if xs.any (fun x => x.2 == .lent) then (.lent, s)
  else if xs.any (fun x => x.2 == .wait) then (.again, s.restartOp c o.id)
  else if late || (s.bufferFull c && xs.any fun x => s.leaves w x.2 m.store) then (.again, s)
  else (.go xs, s)

/-- An operation asks again in the next cycle. -/
def askAgain (s : State) (c : Nat) (o : Op) : State := s.postQ c (s.now c + 1) (.accessCheckComplete c o.id)

/-- Whether a cause of an operation is serviced (R144): a token instruction's TOK causes stop its group (R197). -/
def Op.serviced (o : Op) (k : Cause) : Bool :=
  let tok : Bool := match k with
    | .tokNone | .tokRo | .tokLent | .tokOrphan => true
    | _ => false
  k.serviced && !(tok && isToken o.ins)

/-- A demand access that failed goes into the operand log, and its exception is taken (R144). The marks of its addresses stay in the log. -/
def demandFault (s : State) (c : Nat) (o : Op) (cs : List (Nat × Cause)) : State :=
  let s := s.modOp c o.id fun o =>
    { o with stage := .logged, accs := o.accs.map fun a => { a with cause := a.cause.filter (· == .kConsume) } }
  match accReport o.ins o.pc o.accs cs with
  | none => s
  | some r => if Op.serviced o r.cause then s.takeServiced c o.slot r else s.takeStop c o.slot r

/-- A demand access whose checks are done goes on with `k`. -/
def demand (s : State) (c : Nat) (o : Op) (m : AccMode) (k : State → List (Acc × Look) → State) : State :=
  match s.gate c o m with
  | (.again, s) => s.askAgain c o
  | (.lent, s) => s.modOp c o.id fun o => { o with stage := .lent, acq := true }
  | (.fail cs, s) => s.demandFault c o cs
  | (.go xs, s) =>
    if o.cause = some .ueData then
      let w := s.opWho c o
      s.consume w.ctx w.crew .ueData
    else k s xs

/-- An operation is performed, and lands in cycle `lam` with its writes. -/
def perform (s : State) (c : Nat) (o : Op) (ws : List RegWrite) (lam : Nat) : State :=
  (s.modOp c o.id fun o => { o with stage := .performed, due := lam }).landAt c o.slot o.id o.setf ws lam

end State

/-- LENT_STALL_RELEASE (R187): the access goes on with its checks. -/
def execLentStallRelease (c id : Nat) (s : State) : Host.Outcome State Fault Refusal :=
  match s.op? c id with
  | some o =>
    if o.stage = .lent then
      .next (((s.modOp c id fun o => { o with stage := .check }).restartOp c id).postQ c (s.now c) (.accessCheckComplete c id))
    else .refused (.notEnabled "LENT_STALL_RELEASE")
  | none => .refused (.notEnabled "LENT_STALL_RELEASE")

/-- The miss that has queued longest takes a walk that has come free (R140). -/
def State.nextWalk (s : State) (q : Nat) : State :=
  match (s.quad q).walkQ with
  | [] => s
  | w :: ws =>
    let (n, s) := s.freeNat
    (s.modQuad q fun x => { x with walkQ := ws }).beginWalk w n

/-- PAGE_WALK_COMPLETE (R140, R141): the TLBs are filled, or the accesses that waited on the walk fail with its cause; the fault of a kept
walk is kept for the one who asks. -/
def execPageWalkComplete (q id : Nat) (s : State) : Host.Outcome State Fault Refusal :=
  match (s.quad q).walks.find? fun w => w.id == id with
  | none => .refused (.notEnabled "PAGE_WALK_COMPLETE")
  | some w =>
    let s := (s.modQuad q fun x => { x with walks := x.walks.filter fun v => v.id != id }).nextWalk q
    match s.walkMark w.ctx w.va with
    | (.ok e, s) => .next (s.fillTlb w.core e)
    | (.fault k _, s) =>
      if w.keep then
        .next (s.modCore w.core fun x =>
          { x with badWalks := ⟨w.ctx, w.va, k, s.now w.core⟩ :: x.badWalks.filter fun b => s.now w.core ≤ b.at' + 1 })
      else
      let mark (o : Op) : Op :=
        if (s.opWho w.core o).ctx = w.ctx && (o.stage == .check || o.stage == .lent || o.stage == .performed) then
          { o with accs := o.accs.map fun a =>
              if a.cause.isNone && a.arr.isNone && Ptr.space a.ptr == 0 && Ptr.module a.ptr == Config.thisModule &&
                Ptr.local a.ptr / 4096 == w.va / 4096 then { a with cause := some k } else a }
        else o
      .next (s.modCore w.core fun x => { x with ops := x.ops.map mark })

end Sys2Proof.Machine
end

