-- ==== Sys2Proof/Machine/Load.lean ====
section
/-! DEFINITION. Loads (R144, R147 to R149, R153 to R157): LD, LDG, LDS and LDL, and what becomes of a limited load: its arrivals, its
limits, its landing, its reckon slot (R161 to R163), its open guesses (R164 to R168) and its samples (R173, R174). -/

namespace Sys2Proof.Machine

open Sys2Proof

/-! ## Load fields -/

/-- What a load that may name a reckon slot does with its values. -/
structure LdInfo where
  width : Width
  slot : Fin 4
  fp : Bool
  pmode : PMode
  trains : Bool
  dest : GDest
  deriving DecidableEq, Repr

/-- The destination a register operand names. -/
def gdest : Opnd → GDest
  | .v n => .vec (.v n)
  | .o n => .vec (.o n)
  | .l n => .vec (.l n)
  | .s n => .s n
  | _ => .none

/-- The reckoning fields of a load (R147); a slot takes true values of limited loads and of training loads (R162). -/
def ldInfo : Instr → Option LdInfo
  | .ld x | .ldg x | .lds x =>
    some ⟨x.width, x.slot, x.fp, x.pmode, x.width.bytes ≤ 4 && (x.train || x.lsel != 0), gdest x.d⟩
  | .qpop x => some ⟨.w, x.slot, x.fp, x.pmode, x.lsel != 0, gdest x.d⟩
  | _ => none

/-- Register `j` of a value read: zero-extended, or sign-extended under .BS and .HS. -/
def loadWord (wd : Width) (x : BitVec 128) (j : Nat) : Word :=
  let r := x.extractLsb' (32 * j) 32
  if wd.signed then sextLow (8 * wd.bytes) r else r

/-- The words of a value read. -/
def loadWords (wd : Width) (x : BitVec 128) : List Word := (List.range wd.regs).map (loadWord wd x)

/-- The register `j` places after a destination. -/
def GDest.reg (d : GDest) (j : Nat) : GDest :=
  match d with
  | .vec (.v n) => .vec (.v (n + j))
  | .s n => .s (n + j)
  | d => d

/-- The write of elements of lanes to a register of a destination. -/
def GDest.write (d : GDest) (mask : Lanes) (f : Nat → Elem) : List RegWrite :=
  match d with
  | .vec r => [.vec r mask (VReg.of f)]
  | .s n => if mask = 0 then [] else [.sreg n (f 0)]
  | .none => []

/-- A destination's element as the group holds it. -/
def GDest.read (d : GDest) (r : GRegs) (lane : Nat) : Elem :=
  match d with
  | .vec v => (r.vec v).at lane
  | .s n => r.s[n]?.getD Elem.zero
  | .none => Elem.zero

/-! ## Reckon slots and samples -/

/-- R162: a true value reaches a lane of a slot. -/
def RLane.update (r : RLane) (fp : Bool) (x : Word) : RLane :=
  if !r.valid then ⟨x, 0, true⟩
  else ⟨x, if fp then fadd32 .rne x (r.v ^^^ 0x80000000) else x - r.v, true⟩

/-- R163: the reckoned value; `old` is the destination's contents. -/
def RLane.reckon (r : RLane) (m : PMode) (fp : Bool) (old : Word) : Word :=
  match m with
  | .last => if r.valid then r.v else 0
  | .stride => if !r.valid then 0 else if fp then fadd32 .rne r.v r.d else r.v + r.d
  | .hold => old
  | .zero => 0

/-- A lane of a slot. -/
def Group.rlane (G : Group) (slot : Fin 4) (lane : Nat) : RLane := (G.slots[slot])[lane]?.getD ⟨0, 0, false⟩

/-- The group with a true value in its slot. -/
def Group.train (G : Group) (i : LdInfo) (lane : Nat) (x : Word) : Group :=
  if i.trains then
    { G with slots := G.slots.set i.slot ((G.slots[i.slot]).setIfInBounds lane ((G.rlane i.slot lane).update i.fp x)) }
  else G

/-- R174: the order of a pattern. -/
def sampleOrd (fp : Bool) (y : Word) : Int :=
  if fp then (if y.msb then -((y &&& 0x7FFFFFFF).toNat : Int) else y.toNat) else y.toInt

/-- A sum limited to 0xFFFF_FFFF. -/
def sat32 (x : Nat) : Word := BitVec.ofNat 32 (min x 0xFFFFFFFF)

/-- R174: a sampled guess compared with its true value. -/
def Group.compare (G : Group) (fp : Bool) (g x : Word) : Group :=
  let dist := min (sampleOrd fp g - sampleOrd fp x).natAbs 0xFFFFFFFF
  let k := G.spec.kerr
  { G with spec := { G.spec with kerr :=
      #v[sat32 (k[0].toNat + 1), if g = x then k[1] else sat32 (k[1].toNat + 1),
        BitVec.ofNat 32 (max k[2].toNat dist), sat32 (k[3].toNat + dist)] } }

/-- R173: a guess delivered, sampled when the guess count says so. `true?` is its true value when that has arrived, and `drop` says
that its lane is FAULTED. -/
def Group.sample (G : Group) (id lane reg : Nat) (fp : Bool) (g : Word) (true? : Option Word) (drop : Bool) : Group :=
  let take := G.guessCount % 2 ^ (G.spec.ksamp &&& 31).toNat = 0
  let G := { G with guessCount := G.guessCount + 1 }
  if !take || drop then G
  else match true? with
    | some x => G.compare fp g x
    | none => { G with samples := G.samples ++ [⟨id, lane, reg, g, fp⟩] }

/-- The true value of a lane arrives: its samples are compared (R174). -/
def Group.settle (G : Group) (id lane : Nat) (xs : List Word) : Group :=
  let mine (p : Sample) : Bool := p.id == id && p.lane == lane
  let G' := (G.samples.filter mine).foldl (fun (G : Group) p => G.compare p.fp p.g (xs[p.reg]?.getD 0)) G
  { G' with samples := G'.samples.filter fun p => !mine p }

/-- The lane of an open entry in a new state. -/
def Group.setGuess (G : Group) (id lane : Nat) (st : GState) : Group :=
  { G with guesses := G.guesses.map fun e =>
      if e.id = id then { e with lanes := e.lanes.map fun l => if l.lane = lane then { l with st := st } else l } else e }

/-- A lane of an open entry is FAULTED; what was sampled of it is not compared (R168, R174). -/
def Group.failGuess (G : Group) (id lane : Nat) (k : Cause) : Group :=
  { G.setGuess id lane (.faulted k) with samples := G.samples.filter fun p => !(p.id == id && p.lane == lane) }

/-- The lanes that no EXIT has retired. -/
def Group.aliveLanes (G : Group) : Lanes :=
  G.splits.toList.foldl (fun m x => match x with
    | some S => S.stack.foldl (fun m d => m ||| d.o) (m ||| S.o)
    | none => m) 0

/-! ## Performing a load -/

namespace State

/-- One access of an operation read at its source: the access with its value and the cycle of its arrival. A lane that finds its line
already being filled takes its data from that fill: with it, when the pass itself missed, else at the earliest in the cycle after
(R154). -/
def readAcc (s : State) (c : Nat) (w : Who) (id : Nat) (a : Acc) (l : Look) : Acc × State :=
  let (lat, s) := s.reach w l a.nbytes
  let (from_, s) := s.tokenStart w l a.start
  let (n, s) := s.freeNat
  let own := from_ + lat + n
  let line := s.lineOf c l
  let at' := match line with
    | some x => if x.by' = (id, a.start) then x.fill else if own ≤ x.fill then x.fill + 1 else own
    | none => own
  let ((x, ue, k), s) := s.readAt w l a.nbytes
  let s := if line.isNone then s.filling c l at' id a.start else s
  ({ a with res := x, km := k, arr := some (max (s.now c) at'), cause := if ue then some .ueData else none }, s)

/-- The arrival of the latest of some accesses, in this cycle at the earliest. -/
def latest (s : State) (c : Nat) (accs : List Acc) : Nat := accs.foldl (fun m a => max m (a.arr.getD 0)) (s.now c)

/-- The arrivals of some accesses put on the agenda: a load may land with one, and slots and guesses take it from the next cycle on
(R176). -/
def postArrivals (s : State) (c id : Nat) (accs : List Acc) : State :=
  ((accs.filterMap fun a => a.arr).dedup).foldl (fun s t =>
    (s.postQ c t (.lateValueArrival c id)).postQ c (t + 1) (.lateValueArrival c id)) s

/-- The writes of a load's landing from its accesses: K is the spill mark. -/
def loadWrites (i : LdInfo) (active : Lanes) (accs : List Acc) : List RegWrite :=
  (List.range i.width.regs).flatMap fun j => (i.dest.reg j).write active fun l =>
    match accs.find? fun a => a.lane == l with
    | some a => ⟨loadWord i.width a.res j, a.km.getLsbD j⟩
    | none => Elem.zero

/-- A demand load reads every lane (R144): an uncorrectable datum is consumed (R355); else it lands with its latest lane. -/
def loadGo (s : State) (c : Nat) (o : Op) (i : LdInfo) (xs : List (Acc × Look)) : State :=
  let w := s.opWho c o
  let (accs, s) := xs.foldl (fun (p : List Acc × State) x =>
    let (a, s) := p.2.readAcc c w o.id x.1 x.2
    (p.1 ++ [a], s)) ([], s)
  if accs.any fun a => a.cause.isSome then s.consume w.ctx w.crew .ueData
  else
    let s := s.modOp c o.id fun o => { o with accs := accs.map fun a => { a with dlv := !i.trains } }
    let s := if i.trains then s.postArrivals c o.id accs else s
    s.perform c o (loadWrites i o.active accs) (s.latest c accs)

/-- LDL lands at t + P + 13 (Table 7). -/
def ldlGo (s : State) (c : Nat) (o : Op) (dest : GDest) (xs : List (Acc × Look)) : State :=
  let w := s.opWho c o
  let (accs, s) := xs.foldl (fun (p : List Acc × State) x =>
    let (a, s) := p.2.readAcc c w o.id x.1 x.2
    (p.1 ++ [{ a with dlv := true }], s)) ([], s)
  if accs.any fun a => a.cause.isSome then s.consume w.ctx w.crew .ueData
  else
    let s := s.modOp c o.id fun o => { o with accs := accs }
    s.perform c o (loadWrites ⟨.w, 0, false, .last, false, dest⟩ o.active accs) (max (s.now c) (o.restarted + (s.core c).passes + 13))

/-- How a lane of a limited load fares: done with, to be tried again, stalled on a LENT region, or failed with a cause that hides behind no
guess. -/
inductive Tried where
  | done
  | again
  | lent
  | hard (c : Cause)
  deriving DecidableEq, Repr

/-- Whether a lane of a limited load is closed: the load has landed, and no open entry has the lane (R164 to R166). -/
def laneShut (s : State) (c : Nat) (o : Op) (a : Acc) : Bool :=
  o.stage == .performed && !((s.group? c o.slot).any fun G => G.guesses.any fun e => e.id == o.id && e.lanes.any fun l => l.lane == a.lane)

/-- A lane of a limited load is tried: read, failed behind its guess (R167) or closed, so that its fault is discarded (R166), or to be tried
again. -/
def tryLane (s : State) (c : Nat) (w : Who) (o : Op) (older toks : List Op) (a : Acc) : Acc × Tried × State :=
  let mild (k : Cause) : Bool := k.hides || s.laneShut c o a
  if a.arr.isSome || a.cause.any mild then (a, .done, s)
  else if s.tokFirst w toks a then (a.restart (s.now c), .again, s)
  else match (match a.cause with
      | some k => Look.bad k
      | none => s.look w a.ptr a.nbytes false) with
    | .bad k => if mild k then ({ a with cause := some k }, .done, s) else ({ a with cause := none }, .hard k, s)
    | .walk va => (a.restart (s.now c), .again, s.startWalk c w.ctx va)
    | .lent => (a.restart (s.now c), .lent, s)
    | .wait => (a.restart (s.now c), .again, s)
    | l =>
      if s.laneWaits w o older a || s.tokHolds w toks a || (s.bufferFull c && s.leaves w l false) then (a, .again, s)
      else
        let (a, s) := s.readAcc c w o.id a l
        (a, .done, s)

/-- A cause found late that hides behind no guess: the group stops before its next issue, and the lanes are tried again when the host
resumes it (R144, R167). -/
def hardFault (s : State) (c : Nat) (o : Op) (cs : List (Nat × Cause)) : State :=
  match accReport o.ins o.pc o.accs cs with
  | none => s
  | some r => (s.modOp c o.id fun o => { o with cause := some .gangGone }).takeStop c o.slot r

/-- The checks of a limited load's lanes, each on its own (R148). -/
def limitedGo (s : State) (c : Nat) (o : Op) : State :=
  let w := s.opWho c o
  let older := s.olderOps c o
  let toks := s.olderToks c o
  let (accs, rs, s) := o.accs.foldl (fun (p : List Acc × List (Nat × Tried) × State) a =>
    let (a, r, s) := p.2.2.tryLane c w o older toks a
    (p.1 ++ [a], p.2.1 ++ [(a.lane, r)], s)) ([], [], s)
  let fresh := accs.filter fun a => a.arr.isSome && !(o.accs.any fun b => b.lane == a.lane && b.arr.isSome)
  let s := (s.modOp c o.id fun o => { o with accs := accs, acq := o.acq || rs.any fun r => r.2 == .lent }).postArrivals c o.id fresh
  let s := if o.stage != .performed then s
    else s.modGroup c o.slot fun G =>
      (accs.filter fun a => a.arr.isNone && a.cause.isSome).foldl (fun G a => G.failGuess o.id a.lane (a.cause.getD .page)) G
  let hard := rs.filterMap fun r => match r.2 with
    | .hard k => some (r.1, k)
    | _ => none
  if !hard.isEmpty then s.hardFault c o hard
  else if rs.any fun r => r.2 == .again || r.2 == .lent then s.askAgain c o
  else s

/-! ## Arrivals, limits, landings -/

/-- The elements a QPOP takes of its queue (R299). -/
def popCount : Instr → Nat
  | .qpop x => if x.vec then 96 else 1
  | _ => 0

/-- Nothing of an operation is still to come. -/
def opOver (o : Op) : Bool :=
  o.stage == .performed && ((ldInfo o.ins).isNone || o.accs.all fun a => a.dlv || (a.arr.isNone && a.cause.isSome)) &&
    popCount o.ins ≤ o.firstRead.getD 0

/-- Operations of a group that are over leave, once their results have landed. -/
def retireOps (s : State) (c g : Nat) : State :=
  let left (o : Op) : Bool := ((s.group? c g).map fun G => G.pend.any fun p => p.id == o.id).getD false
  (s.modCore c fun k => { k with ops := k.ops.filter fun o => o.slot != g || !opOver o || left o }).tryEndGroup c g

/-- A lane's true value is delivered: to its slot, its samples and its open guess (R162, R166, R168, R174). R162 says that a limited QPOP uses
lane 0 of its slot, R299 that a scalar one reckons from lane 0; of a QPOP.V neither says which lanes its elements train: here element L trains
lane L (assumption 125). -/
def deliverLane (G : Group) (o : Op) (i : LdInfo) (now : Nat) (a : Acc) : Group :=
  match a.cause with
  | some k => G.failGuess o.id a.lane k
  | none =>
    let xs := loadWords i.width a.res
    ((G.train i a.lane (xs.headD 0)).settle o.id a.lane xs).setGuess o.id a.lane (.arrived xs now)

/-- Every arrival of a group that is due takes effect, older loads first (R162). -/
def deliver (s : State) (c g : Nat) : State :=
  let now := s.now c
  let due (a : Acc) : Bool := !a.dlv && match a.arr with
    | some t => t + 1 ≤ now
    | none => false
  (s.core c).ops.foldl (fun s o =>
    if o.slot != g || !o.accs.any due then s
    else match ldInfo o.ins with
      | none => s
      | some i =>
        let s := s.modGroup c g fun G => (o.accs.filter due).foldl (fun G a => deliverLane G o i now a) G
        s.modOp c o.id fun o => { o with accs := o.accs.map fun a => if due a then { a with dlv := true } else a }) s

end State

/-- A limited load that has not landed. -/
def Op.limited (o : Op) : Bool := o.stage == .check && o.accs.any fun a => a.lim.isSome

/-- Whether every lane has its answer by the start of a cycle (R148). -/
def Op.answered (o : Op) (now : Nat) : Bool :=
  o.accs.all fun a => a.arr.any (· ≤ now) || a.lim.any (· ≤ now)

/-- LATE_VALUE_ARRIVAL (R162, R166): true values have arrived; a load whose last answer is one of them lands. -/
def execLateValueArrival (c id : Nat) (s : State) : Host.Outcome State Fault Refusal :=
  match s.op? c id with
  | none => .refused (.notEnabled "LATE_VALUE_ARRIVAL")
  | some o =>
    let now := s.now c
    let s := s.deliver c o.slot
    let landing := (s.core c).ops.filter fun q => q.slot == o.slot && q.limited && q.answered now
    .next ((landing.foldl (fun s q => s.postQ c now (.loadLanding c q.id)) s).retireOps c o.slot)

/-- LIMIT_EXPIRY (R148): a lane's limit has passed; when every lane has its answer the load lands. -/
def execLimitExpiry (c id : Nat) (s : State) : Host.Outcome State Fault Refusal :=
  match s.op? c id with
  | none => .refused (.notEnabled "LIMIT_EXPIRY")
  | some o =>
    let now := s.now c
    .next (if o.limited && o.answered now then s.postQ c now (.loadLanding c id) else s)

/-- Whether a lane's true value answers it: it arrived by its limit, without an error (R148). -/
def Acc.inTime (a : Acc) : Bool :=
  a.cause.isNone && match a.arr, a.lim with
    | some t, some l => t ≤ l
    | some _, none => true
    | none, _ => false

/-- The width that a size code of an element stands for. -/
def eszWidth (z : Nat) : Width :=
  match z with
  | 0 => .b
  | 1 => .bs
  | 2 => .h
  | 3 => .hs
  | _ => .w

/-- The width of a lane's access: a QPOP's is that of the element it has taken, a word while it has none. -/
def accWidth (ins : Instr) (i : LdInfo) (a : Acc) : Width :=
  match ins with
  | .qpop _ => if a.cmp = 0 then .w else eszWidth a.data.toNat
  | _ => i.width

/-- The entry of a limited load at its landing (R164): its guessed lanes, those an EXIT has retired meanwhile left out (R165), and their
states. The one access of a scalar load uses lane 0, which may have exited before the load issued; `args` says so. -/
def Op.openLanes (o : Op) (i : LdInfo) (alive : Lanes) (now : Nat) : List GLane :=
  (o.accs.filter fun a => !a.inTime && (alive.getLsbD a.lane || o.args == [1])).map fun a =>
    ⟨a.lane, a.ptr, accWidth o.ins i a, match a.cause, a.arr with
      | some k, none => .faulted k
      | some k, some t => if t + 1 ≤ now then .faulted k else .outstanding
      | none, some _ => if a.dlv then .arrived (loadWords i.width a.res) now else .outstanding
      | none, none => .outstanding⟩

/-- The element a limited load gives a register of a lane (R148, R163). -/
def Group.answer (G : Group) (i : LdInfo) (j : Nat) (a : Acc) : Elem :=
  if a.inTime then ⟨loadWord i.width a.res j, a.km.getLsbD j⟩
  else ⟨(G.rlane i.slot a.lane).reckon i.pmode i.fp (((i.dest.reg j).read G.regs a.lane).val), true⟩

/-- LOAD_LANDING (R148): the load lands once, with true values and reckoned values; its entry opens or frees, and its guesses are
offered to sampling. The slot it reckons from holds what arrived in earlier cycles. -/
def execLoadLanding (c id : Nat) (s : State) : Host.Outcome State Fault Refusal :=
  let s := match s.op? c id with
    | some o => s.deliver c o.slot
    | none => s
  match s.op? c id with
  | none => .refused (.notEnabled "LOAD_LANDING")
  | some o => match ldInfo o.ins, s.group? c o.slot with
    | some i, some G =>
      let now := s.now c
      if !(o.limited && o.answered now) then .refused (.notEnabled "LOAD_LANDING")
      else
        let nregs := i.width.regs
        let elem (j l : Nat) : Elem := match o.accs.find? fun a => a.lane == l with
          | some a => G.answer i j a
          | none => Elem.zero
        let ws := (List.range nregs).flatMap fun j => (i.dest.reg j).write o.active (elem j)
        let lanes := o.openLanes i G.aliveLanes now
        let entry : Guess := ⟨id, i.dest, nregs, i.slot, i.fp, i.width, true, lanes⟩
        let G1 := G.land { id := id, due := now, ws := ws, setf := o.setf, flagSince := now + 1, claims := [] }
        let opens := !lanes.isEmpty && i.dest != .none
        let G2 := { G1 with guesses := G1.guesses.filter (fun e => e.id != id) ++ (if opens then [entry] else []) }
        let G3 := if i.dest = .none then G2
          else (o.accs.filter fun a => !a.inTime).foldl (fun (G' : Group) a =>
            (List.range nregs).foldl (fun (G' : Group) j =>
              G'.sample id a.lane j (i.fp && nregs == 1) (G.answer i j a).val
                (if a.dlv && a.cause.isNone then some (loadWord i.width a.res j) else none)
                (a.cause.isSome && (a.arr.isNone || a.dlv))) G') G2
        let s := s.setGroup c o.slot (some G3)
        let s := if G3.pend.any fun p => p.id == id then s.postQ c (now + 1) (.resultLanding c o.slot id) else s
        .next ((s.modOp c id fun o => { o with stage := .performed, accs := o.accs }).retireOps c o.slot)
    | _, _ => .refused (.notEnabled "LOAD_LANDING")

/-- RESULT_LANDING (R63, R64): a result in flight becomes visible and sets its flag. -/
def execResultLanding (c g id : Nat) (s : State) : Host.Outcome State Fault Refusal :=
  match s.group? c g with
  | none => .refused (.notEnabled "RESULT_LANDING")
  | some G => match G.pend.find? fun p => p.id == id with
    | none => .refused (.notEnabled "RESULT_LANDING")
    | some p =>
      let s := s.setGroup c g (some (G.land p))
      let s := if p.flagSince ≤ p.due then s else s.postQ c p.flagSince (.resultLanding c g id)
      .next (s.retireOps c g)

/-! ## The load instructions -/

/-- EXACT as a context reads it on a core: held at 1 while the host has FORCED set (R172, Table 5). -/
def State.exactAt (s : State) (c ctx : Nat) : Bool := (s.ctx ctx).forced || (((s.core c).exact[ctx]?).getD true)

namespace Iss

/-- What a limited load to a scalar register remembers of its issue: that lane 0 had exited before it. -/
def lane0Gone (I : Iss) (d : GDest) : List Word :=
  match d with
  | .s _ => if I.G.aliveLanes.getLsbD 0 then [] else [1]
  | _ => []

/-- A load issued (R147 to R149): limited when its selector is not 0 and EXACT reads 0; then it takes an entry of the open-guess
table and hides its lanes' faults. -/
def load (I : Iss) (ins : Instr) (x : LdA) (accs : List Acc) (lim : Nat → Nat) (occ : Nat) : Res :=
  let d := gdest x.d
  let e : Eff := { comp := .later (d != .none), occ := occ, unit := .lsu, charge := 2 + 2 * occ }
  if x.lsel = 0 || I.s.exactAt I.c I.G.ctx then I.access (I.op ins accs) false [] e
  else
    let cs := I.accCauses accs (fun n => n) false []
    let hard := cs.filter fun p => !p.2.hides
    match accReport ins I.S.pc accs hard with
    | some r => .stop (if r.scalar then r else { r with omask := (maskOf 96 fun l => cs.any fun p => p.1 == l) &&& ~~~r.cmask })
    | none =>
      let mark (a : Acc) : Acc :=
        { a with lim := some (I.t + max 4 (lim a.lane)), cause := (cs.find? fun p => p.1 == a.lane).map (·.2) }
      let accs := accs.map mark
      if accs.isEmpty then I.access (I.op ins accs) false [] e
      else if I.G.guesses.length ≥ 16 then .hold I.s
      else
        let o : Op := { I.op ins accs with args := I.lane0Gone d }
        let s := startChecks (I.s.addOp I.c o) I.c I.t o
        let s := ((accs.filterMap fun a => a.lim).dedup).foldl (fun s t => s.postQ I.c t (.limitExpiry I.c I.id)) s
        let s := s.modGroup I.c I.g fun G =>
          { G with guesses := G.guesses ++ [⟨I.id, d, x.width.regs, x.slot, x.fp, x.width, false, []⟩] }
        .done s e

/-- The limit wlN holds. -/
def wlim (I : Iss) (n : Nat) : Nat := ((I.G.spec.wl[n - 1]?).getD 0).toNat

/-- LD and LDG. -/
def loadV (I : Iss) (ins : Instr) (x : LdA) : Res :=
  let b := I.vsrc false x.b
  let off (l : Nat) : Int × Bool :=
    if x.lsel = 7 then (x.ofs8.toInt * x.width.bytes, false) else ((b.at l).val.toInt, (b.at l).k)
  let accs := I.laneAccs x.a off x.width.bytes
  I.load ins x accs (fun l => if x.lsel = 7 then (b.at l).val.toNat else I.wlim x.lsel.val) (I.occupancy accs)

end Iss

/-- The registers LD and LDG use. -/
def LdA.use (x : LdA) : Use := Use.ofTriple { reads := [x.b], dsts := [x.d], vw := Use.range x.d x.width.regs } x.a

/-- LD (R148). -/
def execLd (x : LdA) (s : State) : Host.Outcome State Fault Refusal := issue x.h (LdA.use x) s fun I => I.loadV (.ld x) x

/-- LDG: a pointer a lane. -/
def execLdg (x : LdA) (s : State) : Host.Outcome State Fault Refusal := issue x.h (LdA.use x) s fun I => I.loadV (.ldg x) x

/-- LDS: one access for the group; lane 0 of its slot. -/
def execLds (x : LdA) (s : State) : Host.Outcome State Fault Refusal :=
  issue x.h (Use.ofTriple { reads := [x.b] } x.a) s fun I =>
    match x.a with
    | .s n => I.load (.lds x) x (I.oneAcc n (I.sval false x.b) x.width.bytes) (fun _ => I.wlim x.lsel.val) 1
    | .v _ => .stop (I.scalar .illEnc)

namespace Iss

/-- The accesses of LDL and STL (R157): own scratchpad bytes a + 384 × b + 4L. -/
def rowAccs (I : Iss) (a b : Opnd) : List Acc :=
  let a := I.sval true a
  let b := I.sval true b
  (bitsOf I.active).map fun l =>
    I.acc l (I.t + (I.s.core I.c).passOf l) (BitVec.ofNat 96 (2 ^ 80 + a.val.toNat + 384 * b.val.toNat + 4 * l)) (a.k || b.k) 4

end Iss

/-- LDL (R157): restores a register with its marks. -/
def execLdl (x : BinA) (s : State) : Host.Outcome State Fault Refusal :=
  issue x.h { reads := [x.a, x.b], dsts := [x.d] } s fun I =>
    I.access (I.op (.ldl x) (I.rowAccs x.a x.b)) false []
      { comp := .later (gdest x.d != .none), occ := I.P, unit := .lsu, charge := 2 + 2 * I.P }

end Sys2Proof.Machine
end

