-- ==== Sys2Proof/Machine/Store.lean ====
section
/-! DEFINITION. Stores (R143, R152 to R158): ST, STG, STS and STL; prefetch (R159); load limits (R160). -/

namespace Sys2Proof.Machine

open Sys2Proof

/-! ## Performing a store -/

namespace State

/-- The accesses of a store performed, in ascending lane order; those to HOMED regions go to home together. -/
def storeBytes (s : State) (w : Who) (xs : List (Acc × Look)) : State :=
  let bytes (a : Acc) : List Byte := leBytes a.nbytes a.data.toNat
  let s := xs.foldl (fun (s : State) x => s.writeAt w x.2 (bytes x.1)) s
  s.writeHomed w (xs.filterMap fun x => match x.2 with
    | .home va pa _ => some (va, pa, bytes x.1)
    | _ => none)

/-- The cycle in which a store is performed at its level (Table 7): `wide` for a release beyond the core. -/
def storeLam (s : State) (c : Nat) (w : Who) (xs : List (Acc × Look)) (wide : Bool) : Nat × State :=
  xs.foldl (fun (p : Nat × State) x =>
    let (from_, s) := p.2.tokenStart w x.2 x.1.start
    let least := match x.2 with
      | .l1 _ pa => if wide then 80 + hops (dieOf c) (homeDie pa) else 20
      | l => s.storeReach w l
    let (n, s) := s.freeNat
    (max p.1 (from_ + least + n), s)) (s.now c, s)

/-- Whether another module answers that an address lies in a region that a core or engine operation owns: a free choice (assumption 1). -/
def remoteHeld (s : State) (a : Nat) : Bool := Config.remoteRight a s.sch.ticks / 10 % 2 == 1

/-- Why a store or an atomic commits its crew, from what its accesses find (R143, R210, R353): a HOMED region, an atomic to a region that
no group or crew owns, a store buffer without an entry for it. -/
def commitWhy (s : State) (w : Who) (atomic : Bool) (xs : List Look) : Option (BitVec 4) :=
  let homed (l : Look) : Bool := match l with
    | .home .. | .remote _ true => true
    | _ => false
  let held (l : Look) : Bool := match l with
    | .l1 va _ => ((s.ctx w.ctx).region? va).any fun r => !(holderClass r.owner ∈ [0, 1])
    | .remote a false => s.remoteHeld a
    | _ => false
  let blks := (xs.filterMap fun l => match l with
    | .l1 va _ => some (va / 32 * 32)
    | .remote a false => some (remoteBlk a / 32 * 32)
    | _ => none).dedup
  if xs.any homed then some 2
  else if atomic && xs.any held then some 3
  else if (s.crew? w.ctx w.crew).any fun k => 512 < k.sbuf.length + blks.countP fun b => !k.sbuf.any fun e => e.blk == b then some 5
  else none

/-- The crew commits when a store or an atomic that issues is such an event and none of its accesses will fail; one whose accesses cannot be
judged yet commits it when it is performed (R354). -/
def commitAhead (s : State) (w : Who) (ins : Instr) (accs : List Acc) : State :=
  let xs := accs.map fun a => s.lookAhead w a.ptr a.nbytes (accAlign ins a.nbytes) true
  let bad (l : Look) : Bool := match l with
    | .bad _ => true
    | _ => false
  if xs.any bad then s
  else match s.commitWhy w (isAtomic ins) xs with
    | some r => s.commit w.ctx w.crew r
    | none => s

/-- Marked data escaped under USE: KESC (Table 4 of chapter 8). -/
def escape (s : State) (c g : Nat) (esc : Bool) : State :=
  if esc then s.modGroup c g fun G => { G with spec := { G.spec with ksticky := G.spec.ksticky ||| 1 } } else s

/-- A store whose checks are done. -/
def storeGo (s : State) (c : Nat) (o : Op) (xs : List (Acc × Look)) : State :=
  let w := s.opWho c o
  let wide := match (accMode o.ins).bind (·.rel) with
    | some sc => scopeWide sc
    | none => false
  let (lam, s) := s.storeLam c w xs wide
  let s := (s.storeBytes w xs).escape c o.slot (o.args == [1])
  s.perform c o [] lam

/-- STL writes each lane's element with its mark, and completes at t + P + 13 (R157). -/
def stlGo (s : State) (c : Nat) (o : Op) (xs : List (Acc × Look)) : State :=
  let w := s.opWho c o
  let s := s.storeBytes w xs
  let marked := (xs.filter fun x => x.1.km.getLsbD 0).filterMap fun x => match x.2 with
    | .scratch _ off => some (off / 4)
    | _ => none
  let s := s.modCrew w.ctx w.crew fun k => { k with spill := marked.filter (fun m => !k.spill.contains m) ++ k.spill }
  s.perform c o [] (max (s.now c) (o.restarted + (s.core c).passes + 13))

end State

/-! ## The store instructions -/

namespace Iss

/-- The data of a lane: consecutive registers from the one named, lowest first, and whether one is marked. -/
def dataV (I : Iss) (d : Opnd) (n lane : Nat) : BitVec 128 × Bool :=
  match d with
  | .v r =>
    let e (j : Nat) : Elem := (I.G.regs.vec (.v (r.val + j))).at lane
    ((List.range n).foldl (fun (x : BitVec 128) j => x ||| ((e j).val.zeroExtend 128 <<< (32 * j))) 0, (List.range n).any fun j => (e j).k)
  | d =>
    let e := (I.vsrc false d).at lane
    (e.val.zeroExtend 128, e.k)

/-- The data of a scalar store. -/
def dataS (I : Iss) (d : Opnd) (n : Nat) : BitVec 128 × Bool :=
  match d with
  | .s r =>
    let e (j : Nat) : Elem := I.sreg (r.val + j)
    ((List.range n).foldl (fun (x : BitVec 128) j => x ||| ((e j).val.zeroExtend 128 <<< (32 * j))) 0, (List.range n).any fun j => (e j).k)
  | d =>
    let e := I.sval false d
    (e.val.zeroExtend 128, e.k)

/-- The commitment of a crew by a store or an atomic that issues (R152, R353, R354). -/
def commits (I : Iss) (ins : Instr) (accs : List Acc) : Res → Res
  | .done s e =>
    if accs.isEmpty then .done s e
    else
      let s := match (accMode ins).bind (·.rel) with
        | some sc => if scopeWide sc then s.commit I.G.ctx I.G.crew 1 else s
        | none => s
      .done (if e.serviced.isSome then s else s.commitAhead I.who ins accs) e
  | r => r

/-- A store issued: marked data faults under FAULT and escapes under USE (R171). -/
def store (I : Iss) (ins : Instr) (accs : List Acc) (marked : List Nat) (occ : Nat) : Res :=
  let use := I.uses 2
  let e : Eff := { comp := .later false, occ := occ, unit := .lsu, charge := 2 + 2 * occ }
  let o : Op := { I.op ins accs with args := if use && !marked.isEmpty then [1] else [] }
  I.commits ins accs (I.access o true (if use then [] else marked) e)

/-- ST and STG. -/
def storeV (I : Iss) (ins : Instr) (x : StA) : Res :=
  let b := I.vsrc false x.b
  let accs := (I.laneAccs x.a (fun l => ((b.at l).val.toInt, (b.at l).k)) x.width.bytes).map fun a =>
    { a with data := (I.dataV x.d x.width.regs a.lane).1 }
  I.store ins accs ((accs.filter fun a => (I.dataV x.d x.width.regs a.lane).2).map (·.lane)) (I.occupancy accs)

end Iss

/-- The registers ST and STG use. -/
def StA.use (x : StA) : Use := Use.ofTriple { reads := [x.b, x.d], vr := Use.range x.d x.width.regs } x.a

/-- ST. -/
def execSt (x : StA) (s : State) : Host.Outcome State Fault Refusal := issue x.h (StA.use x) s fun I => I.storeV (.st x) x

/-- STG. -/
def execStg (x : StA) (s : State) : Host.Outcome State Fault Refusal := issue x.h (StA.use x) s fun I => I.storeV (.stg x) x

/-- STS: one access for the group. -/
def execSts (x : StA) (s : State) : Host.Outcome State Fault Refusal :=
  let sr : List (Nat × Nat) := match x.d with
    | .s n => [(n.val, x.width.regs)]
    | _ => []
  issue x.h (Use.ofTriple { reads := [x.b, x.d], sr := sr } x.a) s fun I =>
    match x.a with
    | .s n =>
      let (v, k) := I.dataS x.d x.width.regs
      let accs := (I.oneAcc n (I.sval false x.b) x.width.bytes).map fun a => { a with data := v }
      I.store (.sts x) accs (if k then accs.map (·.lane) else []) 1
    | .v _ => .stop (I.scalar .illEnc)

/-- STL (R157): spills a register with its marks. -/
def execStl (x : BinA) (s : State) : Host.Outcome State Fault Refusal :=
  issue x.h { reads := [x.a, x.b, x.d] } s fun I =>
    let d := I.vsrc false x.d
    let accs := (I.rowAccs x.a x.b).map fun a =>
      { a with data := (d.at a.lane).val.zeroExtend 128, km := if (d.at a.lane).k then 1 else 0 }
    I.access (I.op (.stl x) accs) true [] { comp := .later false, occ := I.P, unit := .lsu, charge := 2 + 2 * I.P }

/-! ## PREF and LIMSET -/

/-- The prefetch of one lane's line (R159): a lane that would fault is dropped. When the line is in the L1 the spec does not say: it is there
in the cycle in which PREF issues (assumption 119). -/
def State.prefetchLine (s : State) (w : Who) (home : Bool) (p : Ptr) : State :=
  match s.look w p 1 false with
  | .l1 va pa => if home then s else s.fillL1 w.c w.ctx va pa
  | _ => s

/-- PREF (R159). -/
def execPref (x : PrefA) (s : State) : Host.Outcome State Fault Refusal :=
  issue x.h (Use.ofTriple { reads := [x.b] } x.a) s fun I =>
    let b := I.vsrc false x.b
    let accs := I.laneAccs x.a (fun l => ((b.at l).val.toInt, (b.at l).k)) 1
    let marked := accs.filterMap fun a => a.cause.map fun c => (a.lane, c)
    let occ := match x.a with
      | .s _ => 1
      | .v _ => I.occupancy accs
    match accReport (.pref x) I.S.pc accs marked with
    | some r => .stop r
    | none =>
      .done (accs.foldl (fun (s : State) a => s.prefetchLine I.who x.home a.ptr) I.s)
        { comp := .flag I.t, occ := occ, unit := .lsu, charge := 2 + 2 * occ }

/-- LIMSET (R160). -/
def execLimset (x : LimA) (s : State) : Host.Outcome State Fault Refusal :=
  issue x.h { reads := [x.a], all := true } s fun I =>
    let a := I.sval true x.a
    if !I.qok then I.ok { unit := .lsu, charge := 4 }
    else if a.k then .stop I.kAll
    else I.ok { ws := [.spec .wl x.n.val a.val], unit := .lsu, charge := 4 }

end Sys2Proof.Machine
end

