-- ==== Sys2Proof/Machine/Guess.lean ====
section
/-! DEFINITION. Guess instructions (chapter 8, R176, R177): KTEST, KDEMAND, KACCEPT, KABANDON, KMARK and KSTAT. -/

namespace Sys2Proof.Machine

open Sys2Proof

/-! ## Marks of a register -/

/-- The lanes a register's mark stands in: a scalar register's single mark stands in every lane. -/
def Iss.regMarks (I : Iss) : KReg → Lanes
  | .r (.s n) => if (I.sreg n).k then Lanes.all else 0
  | .r x => (I.vsrc false x).marks
  | .p i => (I.pred i).k

/-- KTEST. -/
def execKtest (x : KtestA) (s : State) : Host.Outcome State Fault Refusal :=
  let u : Use := match x.a with
    | .r a => { reads := [a] }
    | .p i => { pr := [i] }
  issue x.h u s fun I =>
    let k := I.regMarks x.a
    let wide := match x.a with
      | .r (.s _) => false
      | _ => true
    I.ok { ws := if !x.anyLane then [.pred x.d I.active k 0] else if I.qok then [.qbit x.d (k &&& I.active != 0)] else [], occ := I.P, unit := .vec,
           charge := if wide then 2 * I.P else 1 }

/-! ## Open entry lanes -/

/-- The open entry lanes of a register in some lanes, with their entries; lane 0 for a scalar register. -/
def Group.openOf (G : Group) (r : GDest) (act : Lanes) : List (Guess × GLane) :=
  let m : Lanes := match r with
    | .s _ => if act = 0 then 0 else 1
    | _ => act
  (G.guesses.filter fun e => e.landed && e.covers r).flatMap fun e => (e.lanes.filter fun l => m.getLsbD l.lane).map fun l => (e, l)

/-- Whether an arrival counts in a cycle: arrivals in cycle c count from c + 1 (R176). -/
def GState.outstanding? : GState → Bool
  | .outstanding => true
  | _ => false

/-- The cause of a FAULTED lane. -/
def GState.fault? : GState → Option Cause
  | .faulted c => some c
  | _ => none

/-- The value of an ARRIVED lane. -/
def GState.value? : GState → Option (List Word)
  | .arrived v _ => some v
  | _ => none

/-- The instruction by which a FAULTED lane of an entry is read again as a demand access (R176), in the width of its access. -/
def Guess.again (e : Guess) (width : Width) : Instr :=
  .ldg { h := ⟨0, none, 0, .p false 7⟩, d := .zero, a := .v 0, b := .v 0, width := width, acq := false, scope := .grp, train := false,
         fp := e.fp, pmode := .last, slot := e.slot, lsel := 1, ofs8 := 0 }

/-- A FAULTED lane of an entry reissued from its recorded pointer: it becomes OUTSTANDING (R176). Where its load is still there, the lane keeps
what it knows of its element. -/
def Iss.retryLane (I : Iss) (s : State) (p : Guess × GLane) : State :=
  let (e, l) := p
  let old := (s.op? I.c e.id).bind fun o => o.accs.find? fun b => b.lane == l.lane
  let a : Acc := { (old.getD (I.acc l.lane I.t l.ptr false l.w.bytes)) with
    start := I.t, ptr := l.ptr, nbytes := l.w.bytes, res := 0, km := 0, arr := none, dlv := false, direct := true, cause := none }
  let s := s.modGroup I.c I.g fun G => G.setGuess e.id l.lane .outstanding
  let s := match s.op? I.c e.id with
    | some _ => s.modOp I.c e.id fun o => { o with accs := o.accs.filter (fun (b : Acc) => b.lane != l.lane) ++ [a] }
    | none => s.insertOp I.c { I.op (e.again l.w) [a] with id := e.id, stage := .performed, setf := none }
  s.postQ I.c (I.t + 1) (.accessCheckComplete I.c e.id)

/-- The report of K_FAULTED (R176). -/
def Iss.kFaulted (I : Iss) (fs : List (Nat × Cause)) (ptr : Ptr) : Option Report :=
  (Report.ofLanes fs I.S.pc ptr).map fun r => { r with cause := .kFaulted, orig := r.cause.code }

/-- The delivery of KDEMAND: every register of each claimed range receives its true value with a clear mark. -/
def deliveries (ps : List (Guess × GLane)) : List RegWrite :=
  ps.flatMap fun (e, l) => (List.range e.nregs).flatMap fun j =>
    (e.dest.reg j).write (1#96 <<< l.lane) fun _ => ⟨((l.st.value?.getD [])[j]?).getD 0, false⟩

/-- KDEMAND (R176): held while a lane is OUTSTANDING; lanes that a resume finds FAULTED are reissued, and the instruction is held
again. A Sextant step of it ends at its issue (R114). -/
def execKdemand (x : KsetA) (s : State) : Host.Outcome State Fault Refusal :=
  issue x.h { dsts := match x.d with
    | .r d => [d]
    | .p _ => [] } s fun I =>
    let r := match x.d with
      | .r d => gdest d
      | .p _ => .none
    let ps := I.G.openOf r I.active
    let fs := ps.filterMap fun (_, l) => l.st.fault?.map fun c => (l.lane, c)
    if ps.any fun p => p.2.st.outstanding? then .hold I.s
    else if fs.any fun f => f.2 == .ueData then .ue .ueData
    else if !fs.isEmpty && I.G.kretry == some I.S.pc then
      let s := (ps.filter fun p => p.2.st.fault?.isSome).foldl I.retryLane (I.s.modGroup I.c I.g fun G => { G with kretry := none })
      .hold s
    else
      let ptr := ((ps.find? fun p => p.2.st.fault?.isSome).map fun p => p.2.ptr).getD 0
      match I.kFaulted fs ptr with
      | some r => .stopOn (I.s.modGroup I.c I.g fun G => { G with kretry := some I.S.pc }) r
      | none =>
        .done ((I.s.modGroup I.c I.g fun G => { G with kretry := none }).stepIssued I.c I.g)
          { comp := .long (I.t + 2), ws := deliveries ps, unit := .lsu, charge := 4, claims := ps.map fun p => (p.1.id, p.2.lane) }

/-! ## KACCEPT, KABANDON, KMARK (R177) -/

/-- The marks of a register's active lanes set or cleared; its value stays. -/
def Iss.setMark (I : Iss) (d : KReg) (k : Bool) : List RegWrite :=
  match d with
  | .r (.s n) => if I.active = 0 then [] else [.smark n k]
  | .r x => match Iss.dvec x with
    | some r => [.vmark r I.active k]
    | none => []
  | .p i => [.pmark i I.active k]

/-- The occupancy and the charge of KACCEPT and KMARK. -/
def Iss.markEff (I : Iss) (d : KReg) : Eff :=
  match d with
  | .r (.s _) => { unit := .scalar }
  | _ => { occ := I.P, unit := .vec, charge := 2 * I.P }

/-- The registers a guess instruction names. -/
def KReg.use : KReg → Use
  | .r d => { dsts := [d] }
  | .p _ => {}

/-- The entry lanes a KACCEPT or a KABANDON closes. -/
def Iss.closes (I : Iss) (d : KReg) : List (Nat × Nat) :=
  match d with
  | .r x => (I.G.openOf (gdest x) I.active).map fun p => (p.1.id, p.2.lane)
  | .p _ => []

/-- KACCEPT: clears marks and closes open lanes. -/
def execKaccept (x : KsetA) (s : State) : Host.Outcome State Fault Refusal :=
  issue x.h (KReg.use x.d) s fun I =>
    .done (I.s.modGroup I.c I.g fun G => G.closeLanes (I.closes x.d)) { I.markEff x.d with ws := I.setMark x.d false }

/-- KABANDON: closes open lanes; its flag is set at t + 1. -/
def execKabandon (x : KsetA) (s : State) : Host.Outcome State Fault Refusal :=
  issue x.h (KReg.use x.d) s fun I =>
    .done (I.s.modGroup I.c I.g fun G => G.closeLanes (I.closes x.d)) { comp := .flag (I.t + 1), unit := .lsu, charge := 4 }

/-- KMARK: sets marks. -/
def execKmark (x : KsetA) (s : State) : Host.Outcome State Fault Refusal :=
  issue x.h (KReg.use x.d) s fun I => I.ok { I.markEff x.d with ws := I.setMark x.d true }

/-! ## KSTAT -/

/-- The word of KSTAT.SUM (Table 9). -/
def Group.kstatSum (G : Group) : Word :=
  let out (e : Guess) : Bool := e.landed && e.lanes.any fun l => l.st.outstanding?
  let arr (e : Guess) : Bool := e.landed && !e.lanes.isEmpty && e.lanes.all fun l => l.st.value?.isSome
  let flt (e : Guess) : Bool := e.landed && e.lanes.any fun l => l.st.fault?.isSome
  BitVec.ofNat 32 ((if G.guesses.length ≥ 16 then 2 ^ 31 else 0) + G.guesses.countP out * 2 ^ 24 + G.guesses.countP arr * 2 ^ 16 +
    G.guesses.countP flt * 2 ^ 8 + G.guesses.length)

/-- The lane mask of KSTAT's other functions. -/
def Iss.kstatMask (I : Iss) (f : KFn) (a : Opnd) : Lanes :=
  let ps := I.G.openOf (gdest a) Lanes.all
  let ok (l : GLane) : Bool := match f with
    | .ready => l.st.value?.isSome
    | .flt => l.st.fault?.isSome
    | _ => true
  maskOf 96 fun i => ps.any fun p => p.2.lane == i && ok p.2

/-- KSTAT. -/
def execKstat (x : KstatA) (s : State) : Host.Outcome State Fault Refusal :=
  issue x.h { dsts := match x.fn with
    | .sum => []
    | _ => [x.a] } s fun I =>
    let ws : List RegWrite := match x.fn with
      | .sum => [I.wsreg x.d ⟨I.G.kstatSum, false⟩]
      | f => (List.range 3).map fun j => I.wsreg (x.d.val + j) ⟨maskWord (I.kstatMask f x.a) j, false⟩
    I.ok { ws := if I.qok then ws else [], unit := .scalar }

end Sys2Proof.Machine
end

