-- ==== Sys2Proof/Machine/Token.lean ====
section
/-! DEFINITION. Token instructions (chapter 9, R194 to R208): their checks, their turn at home, and their completion. -/

namespace Sys2Proof.Machine

open Sys2Proof

/-! ## The instruction's fields -/

/-- The status register of a token instruction. -/
def tokStatus : Instr → Option (Fin 7)
  | .tklend x | .tkret x | .tktake x | .tksplit x | .tkjoin x | .tkshare x | .tkunshare x | .tkhome x | .tkunhome x | .tkadopt x => x.d
  | _ => none

/-- The holders that cover a holder class of one who acts, that holder first (R181, R206). R181 speaks of groups and engine operations alone:
that the module covers a core, and a gang's leg and the module its gang, is the model's choice (assumption 120). -/
def State.coverOf (s : State) (w : Who) (h : HC) : List Word :=
  let wide := match h with
    | .grp => [HC.grp, .crew, .core, .gang, .leg]
    | .crew => [.crew, .core, .gang, .leg]
    | .core => [.core]
    | .gang => [.gang, .leg]
    | .leg => [.leg]
  wide.map (s.holderOf w) ++ [holderId 6 w.ctx Config.thisModule]

/-- Whether a recipient id may receive a TKLEND, or a TKSHARE (R197, R200, R203). -/
def recipientOk (share : Bool) (ctx : Nat) (h : Word) : Bool :=
  holderCtx h == ctx && (if share then holderClass h ≤ 6 else [0, 1, 4, 5].contains (holderClass h))

namespace Iss

/-- The holder for which a token instruction acts. -/
def caller (I : Iss) (ins : Instr) : Word := I.s.holderOf I.who (tokClass ins)

/-- Whether a token instruction commits its crew (R189). -/
def tokCommits (I : Iss) (ins : Instr) (b : Word) : Bool :=
  match ins with
  | .tklend _ => b != I.caller ins
  | .tkret _ | .tkhome _ => true
  | .tkshare _ => holderClass b ∈ [2, 3, 6] || I.s.holderCore b != some I.c
  | _ => false

end Iss

namespace State

/-- The cause that a token instruction's pointer raises before its translation (R60, R134, R197). -/
def tokPlace (s : State) (w : Who) (p : Ptr) : Option Cause :=
  match Ptr.space p with
  | 0 => match s.route w p 1 true with
    | .error c => some c
    | .ok _ => none
  | 4 => some .prot
  | _ => some .illPtr

/-- The causes of a token instruction's operands, at its issue and when it issues again (R145, R171, R197): a marked operand raises K_CONSUME
and nothing else. -/
def tokCauses (s : State) (w : Who) (ins : Instr) (a : Acc) (b : Word) : List (Nat × Cause) :=
  let bad : Bool := match ins with
    | .tklend _ => !recipientOk false w.ctx b
    | .tkshare _ => !recipientOk true w.ctx b
    | _ => false
  ((match a.cause with
    | some k => [k]
    | none => (s.tokPlace w a.ptr).toList) ++ (if a.mark then [.kConsume] else if bad then [.prot] else [])).map fun k => (0, k)

end State

namespace Iss

/-- A token instruction issued: its operands and its pointer are checked, and it goes on its way to home. -/
def token (I : Iss) (ins : Instr) (a : Fin 126) (b : Elem) (root : Bool) : Res :=
  let (p, k) := I.striple a
  let e : Eff := { comp := .later ((tokStatus ins).isSome || (match ins with
    | .tkquery _ => true
    | _ => false)), unit := .lsu, charge := 4 }
  if !I.qok then I.ok { e with comp := .flag I.t }
  else if root && !((I.crew.map (·.root)).getD false) then .stop (I.scalar .priv)
  else
    let acc := { I.acc 0 I.t p k 1 with mark := b.k }
    let o : Op := { I.op ins [acc] with args := [b.val], last := BitVec.ofNat 32 I.G.ctx }
    match worst (I.s.tokCauses I.who ins acc b.val) with
    | some .kConsume => .stop I.kAll
    | some c =>
      let r := I.scalar c p
      if c.serviced then .done (I.s.addOp I.c { o with stage := .logged }) { e with serviced := some r } else .stop r
    | none =>
      let s := (I.s.addOp I.c o).postQ I.c (I.t + 1) (.accessCheckComplete I.c I.id)
      .done (if I.tokCommits ins b.val then s.commit I.G.ctx I.G.crew 4 else s) e

end Iss

/-! ## On the way to home -/

namespace State

/-- Whether a token instruction waits before it goes home: one that is a release for every earlier access of its group, and for the drain of
a committed crew's buffer (R189); any other for the earlier accesses to its region (R195). -/
def tokWaits (s : State) (c : Nat) (o : Op) (w : Who) : Bool :=
  let older := s.olderOps c o
  match o.ins with
  | .tklend _ | .tkret _ | .tkhome _ | .tkshare _ =>
    !older.all Op.done || ((s.crew? w.ctx w.crew).any fun k => k.committed && !k.sbuf.isEmpty)
  | _ => older.any fun q => !q.reached && q.accs.any (s.onRegionOf w o)

/-- The checks and waits of a token instruction before it reaches home (R189, R195, R197, R286). -/
def tokenCheck (s : State) (c : Nat) (o : Op) : State :=
  match o.accs.head? with
  | none => s
  | some a =>
    let w := s.opWho c o
    let home (s : State) : State :=
      if s.tokWaits c o w || s.bufferFull c then s.askAgain c o
      else
        let (n, s) := s.freeNat
        (s.modOp c o.id fun o => { o with stage := .home, due := s.now c - 1 }).postQ c (s.now c + 1 + n) (.tokenOpAtHome c o.id)
    let walked : Option Cause := match a.cause with
      | some .kConsume => none
      | k => k
    match s.tokCauses w o.ins { a with cause := a.cause.filter (· == .kConsume) } (o.args.headD 0), walked with
    | x :: xs, _ => (s.demandFault c o (x :: xs)).wakeRegions
    | [], some k => (s.demandFault c o [(0, k)]).wakeRegions
    | [], none =>
      if Ptr.module a.ptr ≠ Config.thisModule then match s.remoteLook (Ptr.addr a.ptr) true with
        | .bad .page => (s.demandFault c o [(0, .page)]).wakeRegions
        | .bad .tableUe => (s.demandFault c o [(0, .tableUe)]).wakeRegions
        | .bad .prot => (s.demandFault c o [(0, .prot)]).wakeRegions
        | _ => home s
      else match s.cached c w.ctx (Ptr.local a.ptr) with
        | none => (s.startWalk c w.ctx (Ptr.local a.ptr)).askAgain c o
        | some e => if e.h || !e.w then (s.demandFault c o [(0, .prot)]).wakeRegions else home s

/-! ## At home -/

/-- What the current state of a region makes of a token instruction: a cause, or what it does (R200 to R208). -/
inductive TokDo where
  | stop (c : Cause)
  | refuse
  /-- A flush of the caller's core, with the region as it is meanwhile, and as it is afterwards. -/
  | flush (onlyDirty : Bool) (during after : Region)
  | share (r : Region)
  | unshare (r : Region)
  | take (r : Region)
  | orphan
  | wait
  | split (r : Region) (b : Nat)
  | join (x : Ctx) (b : Nat)
  | set (r : Region)
  | noChange
  | query (r : Option Region)

/-- The requirement every owner's operation has: the caller owns the region, which is not LENT (Table 5, R200). -/
def ownCause (r : Option Region) (caller : Word) : Except Cause Region :=
  match r with
  | none => .error .tokNone
  | some r => match r.st with
    | .free => .error .tokNone
    | .orphaned => .error .tokOrphan
    | .lent => .error (if r.owner = caller then .tokLent else .tokNone)
    | _ => if r.owner = caller then .ok r else .error .tokNone

/-- The requirement of TKSPLIT and TKJOIN (R202): the caller owns the region, OWNED or HOMED; else the cause is that of Table 4 for a store of
its group. For one who does not own a HOMED region Table 4 names none, and the cause is TOK_NONE (assumption 121). -/
def splitCause (s : State) (w : Who) (r : Option Region) (caller : Word) : Except Cause Region :=
  match r with
  | none => .error .tokNone
  | some r => match r.st with
    | .free => .error .tokNone
    | .orphaned => .error .tokOrphan
    | .lent => .error .tokLent
    | .shared =>
      let cov := s.covering w
      let pin := (s.core w.c).caches.pins.any fun p => p.ctx == w.ctx && p.base == r.base && cov.contains p.holder
      .error (if cov.contains r.owner || pin then .tokRo else .tokNone)
    | .owned | .homed => if r.owner = caller then .ok r else .error .tokNone

/-- Whether the caller holds a region (R201). Which shares count beside its own the rule says of a share list that covers it: a pin of another
single-core holder, its crew's for a .GRP caller, does not (assumption 120). -/
def holdsNow (s : State) (w : Who) (caller : Word) (r : Region) : Bool :=
  (r.st == .owned && r.owner == caller) ||
    (r.st == .shared && (((s.ctx w.ctx).shares.any fun y => y.base == r.base && (y.holder == caller ||
      (holderClass y.holder ∈ [2, 3, 6] && (s.covering w).contains y.holder)))))

/-- What a token instruction does at home. For a TKUNHOME of a region that is neither HOMED nor ORPHANED the spec names no cause: it is TOK_NONE
(assumption 121). -/
def tokDo (s : State) (w : Who) (ins : Instr) (p : Ptr) (b : Word) : TokDo :=
  let caller := s.holderOf w (tokClass ins)
  let x := s.ctx w.ctx
  let r? := x.region? (Ptr.local p)
  match ins with
  | .tklend _ => match ownCause r? caller with
    | .error k => .stop k
    | .ok r =>
      if r.st = .homed then .stop .tokNone
      else if r.shares > 0 || r.st == .shared then .stop .tokRo
      else if r.lender ≠ noHolder then .stop .tokLent
      else if b = caller then .refuse
      else
        let q := { r with st := .lent, owner := b, lender := caller, hcore := none }
        .flush false q { q with st := .owned }
  | .tkret _ => match ownCause r? caller with
    | .error k => .stop k
    | .ok r =>
      if r.st = .homed ∨ r.lender = noHolder then .stop .tokNone
      else if r.shares > 0 || r.st == .shared then .stop .tokRo
      else
        let q := { r with st := .lent, owner := r.lender, lender := noHolder, hcore := none }
        .flush false q { q with st := .owned }
  | .tktake _ => match r? with
    | none => .wait
    | some r =>
      if r.st = .orphaned then .orphan
      else if s.holdsNow w caller r then .take r else .wait
  | .tksplit _ => match s.splitCause w r? caller with
    | .error k => .stop k
    | .ok r =>
      if r.shares > 0 then .stop .tokRo
      else
        let k := b.toInt
        if k < 1 || 20 < k || (r.k : Int) - k < 12 || x.regions.length + (2 ^ k.toNat - 1) > x.capacity then .refuse
        else .split r k.toNat
  | .tkjoin _ => match s.splitCause w r? caller with
    | .error k => .stop k
    | .ok r =>
      if r.shares > 0 then .stop .tokRo
      else
        let k := b.toInt
        if k < 1 || 20 < k || 32 < (r.k : Int) + k then .refuse
        else match x.joinRegion r k.toNat with
          | none => .refuse
          | some _ => .join x k.toNat
  | .tkshare _ => match ownCause r? caller with
    | .error k => .stop k
    | .ok r =>
      if r.st = .homed then .stop .tokNone
      else if s.shareRoom w.ctx r b then .share r else .refuse
  | .tkunshare _ => match r? with
    | none => .stop .tokNone
    | some r => match r.st with
      | .free => .stop .tokNone
      | .orphaned => .stop .tokOrphan
      | .lent => .stop .tokLent
      | _ => if x.shares.any fun y => y.base == r.base && y.holder == caller then .unshare r else .stop .tokNone
  | .tkhome _ =>
    if r?.any fun r => r.st == .homed && r.owner == caller then .noChange
    else match ownCause r? caller with
      | .error k => .stop k
      | .ok r =>
        if r.shares > 0 || r.st == .shared then .stop .tokRo
        else if r.lender ≠ noHolder then .stop .tokLent
        else .flush false r { r with st := .homed, hcore := none }
  | .tkunhome _ => match r? with
    | none => .stop .tokNone
    | some r => match r.st with
      | .orphaned => .stop .tokOrphan
      | .homed =>
        if (s.coverOf w (tokClass ins)).contains r.owner then .set { r with st := .owned, owner := caller, hcore := some w.c }
        else .stop .tokNone
      | _ => .stop .tokNone
  | .tkadopt _ => match r? with
    | none => .refuse
    | some r =>
      if r.st = .free ∨ r.st = .orphaned then
        .set { r with st := .owned, owner := caller, lender := noHolder, shares := 0, hcore := some w.c }
      else .refuse
  | _ => .query r?

/-- The four words of an entry (Table 3). -/
def entryWords (r : Option Region) : List Word :=
  match r with
  | none => [0, 0, 0xFFFFFFFF, 0xFFFFFFFF]
  | some r =>
    let st : Nat := match r.st with
      | .free => 0 | .owned => 1 | .shared => 2 | .homed => 3 | .lent => 4 | .orphaned => 5
    let hc : Nat := match r.hcore with
      | some c => Config.thisModule * 1024 + c
      | none => 2 ^ 28 - 1
    let low := 1 + st * 16 + r.k * 128 + hc * 2 ^ 20 + r.shares * 2 ^ 48
    [BitVec.ofNat 32 low, BitVec.ofNat 32 (low / 2 ^ 32), if r.st = .free then 0xFFFFFFFF else r.owner, r.lender]

/-- Lines of a region in a core's L1, or its dirty ones. -/
def linesOf (s : State) (c ctx : Nat) (r : Region) (onlyDirty : Bool) : Nat :=
  (s.core c).caches.l1.countP fun l => l.ctx == ctx && r.base ≤ l.va && l.va < r.base + 2 ^ r.k && (l.dirty || !onlyDirty)

/-- A token instruction that completes: its status, `h` cycles from its start at the least and never before now. Whatever it did, what waits
on its region looks again. -/
def tokenEnd (s : State) (c : Nat) (o : Op) (ws : List RegWrite) (h : Nat) : State :=
  let (n, s) := s.freeNat
  (s.perform c o ws (max (s.now c) (o.due + h + n))).wakeRegions

/-- The status of a token instruction (R196). -/
def tokWs (o : Op) (b : Bool) : List RegWrite := Iss.wstat (tokStatus o.ins) b

/-- Accesses to a region that a core issued before operation `id`, and has not performed, hold its flush back (R188), and so do the stores
to it in the buffer of another crew of that core, which no drain of the caller's takes home (R306; assumption 123). An access in the operand
log counts while it has a right to the region, but for one of a crew that is being suspended, which leaves the core with it. -/
def flushWaits (s : State) (c : Nat) (w : Who) (id : Nat) (r : Region) : Bool :=
  let on (a : Acc) : Bool := a.arr.isNone && Ptr.space a.ptr == 0 && Ptr.module a.ptr == Config.thisModule && r.holds (Ptr.local a.ptr)
  let may (q : Op) (a : Acc) : Bool :=
    let v := s.opWho c q
    q.stage != .logged || (!((s.crew? v.ctx v.crew).any fun k => k.st == .suspending) &&
      match s.rights v (Ptr.local a.ptr) (((accMode q.ins).map (·.store)).getD false) with
      | .fault _ => false
      | _ => true)
  ((s.core c).ops.any fun q => q.id < id && (accMode q.ins).isSome && !q.reached && (s.opWho c q).ctx == w.ctx &&
    q.accs.any fun a => on a && may q a) ||
  (s.ctx w.ctx).crews.any fun k => k.id != w.crew && k.core == c && k.onCore && k.sbuf.any fun e => r.holds e.blk

/-- Whether a flush of a region is under way that ends in a state home has not recorded yet: that of a TKHOME, or of a grant. -/
def homingR (s : State) (ctx : Nat) (r : Region) : Bool :=
  (s.cores.toList.any fun k => k.ops.any fun o =>
    o.stage == .home && o.firstRead.isSome && (match o.ins with
      | .tkhome _ => true
      | _ => false) && o.last == BitVec.ofNat 32 ctx && o.accs.any fun b => r.holds (Ptr.local b.ptr)) ||
  (s.ctx ctx).queue.any fun l => (l.granting r.base).isSome

/-- Whether home must let no other operation on a region go between such a flush and its new state: of one that holds an address (R14, R194). -/
def homing (s : State) (ctx a : Nat) : Bool := ((s.ctx ctx).region? a).any (s.homingR ctx)

/-- The same of any region of a block. -/
def homingIn (s : State) (ctx base k : Nat) : Bool :=
  ((s.ctx ctx).regions.filter fun r => r.base < base + 2 ^ k && base < r.base + 2 ^ r.k).any (s.homingR ctx)

/-- Whether a token instruction waits at home for the end of another's flush: on the region it names, and a TKJOIN on each piece too. -/
def homeBusy (s : State) (ctx : Nat) (o : Op) (a : Nat) : Bool :=
  s.homing ctx a || match o.ins, (s.ctx ctx).region? a with
    | .tkjoin _, some r =>
      let b := (o.args.headD 0).toInt.toNat
      b ≤ 20 && s.homingIn ctx (a / 2 ^ (r.k + b) * 2 ^ (r.k + b)) (r.k + b)
    | _, _ => false

/-- Whether an access to a region that home served as HOMED, issued before operation `n`, has not completed (R198). -/
def homedOpen (s : State) (ctx n : Nat) (r : Region) : Bool :=
  (List.range 768).any fun c => (s.core c).ops.any fun q =>
    q.id < n && (accMode q.ins).isSome && (s.opWho c q).ctx == ctx &&
      q.accs.any fun a => Ptr.space a.ptr == 0 && Ptr.module a.ptr == Config.thisModule && r.holds (Ptr.local a.ptr) &&
        ((q.stage == .performed && s.now c < q.due) || a.arr.any (s.now c < ·))

/-- A take of a share that a share list holds for the caller and that no pin of its core shows: its entry is loaded as a pin of that holder
(R201; assumption 120). -/
def takePin (s : State) (w : Who) (caller : Word) (r : Region) : State :=
  let cov := s.covering w
  if r.st != .shared || ((s.core w.c).caches.pins.any fun p => p.ctx == w.ctx && p.base == r.base && cov.contains p.holder) then s
  else match (s.ctx w.ctx).shares.find? fun y => y.base == r.base && holderClass y.holder ∈ [2, 3, 6] && (y.holder == caller || cov.contains y.holder) with
    | some y => s.addPin w.c ⟨w.ctx, r.base, y.holder, w.crew⟩
    | none => s

/-- The crossings beyond the first to the home of a token operation's region. -/
def tokFar (s : State) (c ctx : Nat) (p : Ptr) : Nat :=
  hops (dieOf c) (match s.walk ctx (Ptr.local p) with
    | .ok e => homeDie (e.phys (Ptr.local p))
    | .fault .. => dieOf c)

/-- A token instruction at home, its region being `r`'s (R194, R200 to R208). -/
def tokenAct (s : State) (c : Nat) (o : Op) (w : Who) (d : TokDo) (far : Nat) : State :=
  let h := 100 + far
  let caller := s.holderOf w (tokClass o.ins)
  match d with
  | .stop k => (s.demandFault c o [(0, k)]).wakeRegions
  | .refuse => s.tokenEnd c o (tokWs o false) h
  | .noChange => s.tokenEnd c o (tokWs o true) h
  | .flush d during after =>
    if s.flushWaits c w o.id during then s.postQ c (s.now c + 1) (.tokenOpAtHome c o.id)
    else
      let n := s.linesOf c w.ctx during d
      let old := ((s.ctx w.ctx).regionAt during.base).getD during
      let s := ((s.dropTok w.ctx old).flushRegion c w.ctx during.base during.k d).modCtx w.ctx fun x => x.setRegion during
      let homed : Word := if after.st = .homed then 1 else 0
      (s.modOp c o.id fun o =>
        { o with firstRead := some n, limit := some during.base, args := o.args ++ [homed, BitVec.ofNat 32 during.k] }).postQ c (s.now c + n) (.tokenOpAtHome c o.id)
  | .share r =>
    if s.flushWaits c w o.id r then s.postQ c (s.now c + 1) (.tokenOpAtHome c o.id)
    else
      let n := s.linesOf c w.ctx r true
      let s := (s.flushRegion c w.ctx r.base r.k true).grantShare w.ctx r (o.args.headD 0)
      s.tokenEnd c o (tokWs o true) (h + n + 80)
  | .unshare r =>
    let n := (s.pinCores w.ctx r.base caller).foldl (fun m k => max m (s.linesOf k w.ctx r false)) 0
    ((s.returnShare w.ctx r caller 1).tokenEnd c o (tokWs o true) (h + n)).retryAll
  | .take r => (((s.useTok c w.ctx r (s.now c + h)).2).takePin w caller r).tokenEnd c o (tokWs o true) h
  | .orphan =>
    let s := s.perform c o (tokWs o false) (s.now c)
    s.takeStop c o.slot { cause := .tokOrphan, scalar := true, pc := o.pc, ptr := ((o.accs.head?).map (·.ptr)).getD 0 }
  | .wait => s.modOp c o.id fun o => { o with stage := .waiting }
  | .split r b =>
    let s := (s.dropTok w.ctx r).modCtx w.ctx fun x => x.splitRegion r b
    s.tokenEnd c o (tokWs o true) (h + 2 ^ b)
  | .join x b => match x.region? (Ptr.local (((o.accs.head?).map (·.ptr)).getD 0)) with
    | none => s
    | some r => match x.joinRegion r b with
      | none => s.tokenEnd c o (tokWs o false) h
      | some y =>
        let s := (x.pieces (r.base / 2 ^ (r.k + b) * 2 ^ (r.k + b)) r.k b).foldl (fun s q => s.dropTok w.ctx q) s
        (s.modCtx w.ctx fun _ => y).tokenEnd c o (tokWs o true) (h + 2 ^ b)
  | .set r =>
    let n := s.sch.ids
    let s := s.modCtx w.ctx fun x => { x.setRegion r with shares := x.shares.filter fun y => y.base != r.base }
    if s.homedOpen w.ctx n r then
      (s.modOp c o.id fun o => { o with firstRead := some 0, limit := some n }).postQ c (s.now c + 1) (.tokenOpAtHome c o.id)
    else s.tokenEnd c o (tokWs o true) h
  | .query r =>
    let ws : List RegWrite := match o.ins with
      | .tkquery x => (entryWords r).zipIdx.map fun (v, i) => .sreg (x.d.val + i) ⟨v, false⟩
      | _ => []
    s.tokenEnd c o ws (80 + far)

/-- The later visits of an operation. One that took a region back from home waits for the HOMED accesses that home serialised before it (R198);
for one that flushed the region's new state is recorded (R200, R205). -/
def tokenSettle (s : State) (c : Nat) (o : Op) (w : Who) (n far : Nat) : State :=
  if (match o.ins with
      | .tkunhome _ => true
      | _ => false) && ((s.ctx w.ctx).region? (Ptr.local (((o.accs.head?).map (·.ptr)).getD 0))).any (s.homedOpen w.ctx (o.limit.getD 0)) then
    s.postQ c (s.now c + 1) (.tokenOpAtHome c o.id)
  else
  let homed := o.args[1]?.getD 0 == 1
  let s := match (s.ctx w.ctx).region? (Ptr.local (((o.accs.head?).map (·.ptr)).getD 0)) with
    | none => s
    | some r =>
      if homed then
        if r.st = RState.owned && r.owner = s.holderOf w (tokClass o.ins) && o.limit == some r.base &&
            o.args[2]? == some (BitVec.ofNat 32 r.k) then
          s.modCtx w.ctx fun x => x.setRegion { r with st := .homed, hcore := none }
        else s
      else match o.ins with
        | .tklend _ | .tkret _ => if r.st = RState.lent then s.modCtx w.ctx fun x => x.setRegion { r with st := .owned } else s
        | _ => s
  s.tokenEnd c o (tokWs o true) (100 + far + n)

end State

/-- The TOK causes that a token instruction of some kind can meet. -/
def tokMeets (i : Instr) (k : Cause) : Bool :=
  match i with
  | .tkquery _ | .tkadopt _ => false
  | .tktake _ => k == .tokOrphan
  | .tkunhome _ => k == .tokNone || k == .tokOrphan
  | _ => true

/-- A token instruction at the home of another module: what that module finds, and the status it answers, are free (assumption 1). A region of it
may change hands, so that what the crew has stored there is no longer known to be its latest value. -/
def State.tokenRemote (s : State) (c : Nat) (o : Op) (a : Acc) : State :=
  let (x, s) := s.freeBits
  let w := s.opWho c o
  let s := match o.ins with
    | .tkquery _ => s
    | _ => s.modCrew w.ctx w.crew fun k => { k with gone := k.gone.filter fun b => b.1 / 2 ^ 62 % 2 ^ 18 != Ptr.module a.ptr }
  let ws : List RegWrite := match o.ins with
    | .tkquery y => (List.range 4).map fun i => .sreg (y.d.val + i) ⟨x.extractLsb' (32 * i) 32, false⟩
    | _ => State.tokWs o (x.getLsbD 0)
  match s.remoteLook (Ptr.addr a.ptr) true, o.ins with
  | .bad .tokOrphan, .tktake _ => s.tokenAct c o (s.opWho c o) .orphan 0
  | .bad k, i =>
    if tokMeets i k && k ∈ [.tokNone, .tokRo, .tokLent, .tokOrphan] then (s.demandFault c o [(0, k)]).wakeRegions else s.tokenEnd c o ws 3000
  | _, _ => s.tokenEnd c o ws 3000

/-- TOKEN_OP_AT_HOME (R194): a token instruction is serialised at home. -/
def execTokenOpAtHome (c id : Nat) (s : State) : Host.Outcome State Fault Refusal :=
  match s.op? c id with
  | none => .refused (.notEnabled "TOKEN_OP_AT_HOME")
  | some o =>
    if o.stage ≠ .home then .refused (.notEnabled "TOKEN_OP_AT_HOME")
    else match o.accs.head? with
      | none => .refused (.notEnabled "TOKEN_OP_AT_HOME")
      | some a =>
        let w := s.opWho c o
        if Ptr.module a.ptr ≠ Config.thisModule then .next (s.tokenRemote c o a)
        else
          let far := s.tokFar c w.ctx a.ptr
          match o.firstRead with
          | some n => .next (s.tokenSettle c o w n far)
          | none =>
            if s.homeBusy w.ctx o (Ptr.local a.ptr) then .next (s.postQ c (s.now c + 1) (.tokenOpAtHome c id))
            else .next (s.tokenAct c o w (s.tokDo w o.ins a.ptr (o.args.headD 0)) far)

/-- TKTAKE_COMPLETE (R201): a region has changed, and a waiting TKTAKE looks again. -/
def execTktakeComplete (c id : Nat) (s : State) : Host.Outcome State Fault Refusal :=
  match s.op? c id with
  | none => .refused (.notEnabled "TKTAKE_COMPLETE")
  | some o => match o.stage, o.accs.head? with
    | .waiting, some a =>
      let w := s.opWho c o
      let o := { o with due := s.now c }
      if s.homing w.ctx (Ptr.local a.ptr) then .next (s.postQ c (s.now c + 1) (.tktakeComplete c id))
      else .next (s.tokenAct c o w (s.tokDo w o.ins a.ptr 0) (s.tokFar c w.ctx a.ptr))
    | _, _ => .refused (.notEnabled "TKTAKE_COMPLETE")

/-! ## The instructions -/

/-- The registers a token instruction uses. -/
def TkA.use (x : TkA) : Use := { reads := [x.b], all := true, sr := [(x.a.val, 3)] }

/-- TKLEND (R200). -/
def execTklend (x : TkA) (s : State) : Host.Outcome State Fault Refusal :=
  issue x.h (TkA.use x) s fun I => I.token (.tklend x) x.a (I.sval false x.b) false

/-- TKRET (R200). -/
def execTkret (x : TkA) (s : State) : Host.Outcome State Fault Refusal :=
  issue x.h { all := true, sr := [(x.a.val, 3)] } s fun I => I.token (.tkret x) x.a Elem.zero false

/-- TKTAKE (R201): when the core's token cache already shows the caller holding, it completes at t + 20; not while a token instruction of the
owner in flight on the core has given the region away (Table 5). -/
def execTktake (x : TkA) (s : State) : Host.Outcome State Fault Refusal :=
  issue x.h { all := true, sr := [(x.a.val, 3)] } s fun I =>
    let (p, k) := I.striple x.a
    let r? := (I.s.ctx I.G.ctx).region? (Ptr.local p)
    let k' := (I.s.core I.c).caches
    let now := r?.any fun r => Ptr.space p == 0 && Ptr.rank p == 0 && Ptr.module p == Config.thisModule && I.s.holdsNow I.who (I.caller (.tktake x)) r && I.s.inFlight I.who r == .none &&
      (k'.tok.any (fun e => e.isOf I.G.ctx r.base && e.ready ≤ I.t) || k'.pins.any fun q => q.ctx == I.G.ctx && q.base == r.base) &&
      ((I.s.cached I.c I.G.ctx (Ptr.local p)).any fun e => e.w && !e.h)
    if I.qok && !k && now then
      I.ok { ws := Iss.wstat x.d true, comp := .long (I.t + 20), unit := .lsu, charge := 4 }
    else I.token (.tktake x) x.a Elem.zero false

/-- TKSPLIT (R202). -/
def execTksplit (x : TkA) (s : State) : Host.Outcome State Fault Refusal :=
  issue x.h (TkA.use x) s fun I => I.token (.tksplit x) x.a (I.sval false x.b) false

/-- TKJOIN (R202). -/
def execTkjoin (x : TkA) (s : State) : Host.Outcome State Fault Refusal :=
  issue x.h (TkA.use x) s fun I => I.token (.tkjoin x) x.a (I.sval false x.b) false

/-- TKSHARE (R203). -/
def execTkshare (x : TkA) (s : State) : Host.Outcome State Fault Refusal :=
  issue x.h (TkA.use x) s fun I => I.token (.tkshare x) x.a (I.sval false x.b) false

/-- TKUNSHARE (R204). -/
def execTkunshare (x : TkA) (s : State) : Host.Outcome State Fault Refusal :=
  issue x.h { all := true, sr := [(x.a.val, 3)] } s fun I => I.token (.tkunshare x) x.a Elem.zero false

/-- TKHOME (R205). -/
def execTkhome (x : TkA) (s : State) : Host.Outcome State Fault Refusal :=
  issue x.h { all := true, sr := [(x.a.val, 3)] } s fun I => I.token (.tkhome x) x.a Elem.zero false

/-- TKUNHOME (R206). -/
def execTkunhome (x : TkA) (s : State) : Host.Outcome State Fault Refusal :=
  issue x.h { all := true, sr := [(x.a.val, 3)] } s fun I => I.token (.tkunhome x) x.a Elem.zero false

/-- TKQUERY (R207): an entry read at home, or the caller's holder id. -/
def execTkquery (x : TkqA) (s : State) : Host.Outcome State Fault Refusal :=
  issue x.h (match x.self with
    | some _ => {}
    | none => { all := true, sr := [(x.a.val, 3)] }) s fun I =>
    match x.self with
    | some h =>
      I.ok { ws := if I.qok then [I.wsreg x.d ⟨I.s.holderOf I.who h, false⟩] else [], comp := .long (I.t + 2), unit := .lsu, charge := 4 }
    | none => I.token (.tkquery x) x.a Elem.zero false

/-- TKADOPT (R208): the root crew alone may issue it. -/
def execTkadopt (x : TkA) (s : State) : Host.Outcome State Fault Refusal :=
  issue x.h { all := true, sr := [(x.a.val, 3)] } s fun I => I.token (.tkadopt x) x.a Elem.zero true

end Sys2Proof.Machine
end

