-- ==== Sys2Proof/Machine/Sync.lean ====
section
/-! DEFINITION. Atomic and synchronisation instructions (chapter 10): ATOM, ATOMS, BAR, GBAR, WPARR, WPWAIT, WAITA and FENCE. -/

namespace Sys2Proof.Machine

open Sys2Proof

/-! ## Atomics (R209 to R215) -/

/-- The new value of Table 2 from the old value, the operand and the comparand, `n` bits wide. -/
def AtomOp.apply (op : AtomOp) (n : Nat) (m x cmp : BitVec 64) : BitVec 64 :=
  let lo (v : BitVec 64) : BitVec 64 := BitVec.ofNat 64 (v.toNat % 2 ^ n)
  let sg (v : BitVec 64) : Int := (BitVec.ofNat n v.toNat).toInt
  match op with
  | .add => lo (m + x)
  | .and => lo (m &&& x)
  | .or => lo (m ||| x)
  | .xor => lo (m ^^^ x)
  | .min => if sg x < sg m then lo x else lo m
  | .max => if sg m < sg x then lo x else lo m
  | .umin => if (lo x).toNat < (lo m).toNat then lo x else lo m
  | .umax => if (lo m).toNat < (lo x).toNat then lo x else lo m
  | .xchg => lo x
  | .cas => if lo m = lo cmp then lo x else lo m
  | .fadd => (fadd32 .rne (m.extractLsb' 0 32) (x.extractLsb' 0 32)).zeroExtend 64

/-- R220: a waypoint word after an arrival. -/
def wpArrive (w : Word) : Word :=
  let target := (w.extractLsb' 16 15).toNat
  let count := (w.extractLsb' 0 16).toNat + 1
  if count ≥ max target 1 then (w &&& 0x7FFF0000) ||| (~~~w &&& 0x80000000)
  else (w &&& 0xFFFF0000) ||| BitVec.ofNat 32 count

/-- The new value of an atomic instruction's access. -/
def atomNew (i : Instr) (m x cmp : BitVec 64) : BitVec 64 :=
  match i with
  | .atom a | .atoms a => AtomOp.apply a.op (if a.dbl then 64 else 32) m x cmp
  | .wparr _ => (wpArrive (m.extractLsb' 0 32)).zeroExtend 64
  | _ => m

/-- Whether an atomic adds floating-point numbers. -/
def atomFadd : Instr → Bool
  | .atom a | .atoms a => a.op == .fadd
  | _ => false

/-- The destination of an atomic, and its registers. -/
def atomDest : Instr → GDest × Nat
  | .atom a | .atoms a => (gdest a.d, if a.dbl then 2 else 1)
  | .wparr a => (gdest a.d, 1)
  | _ => (.none, 1)

namespace State

/-- Table 5: the least latency at an execution point. -/
def atomReach (s : State) (w : Who) (l : Look) : Nat :=
  match l with
  | .l1 .. => 24
  | .scratch k _ => match s.crew? w.ctx k with
    | some m => if m.core = w.c then 18 else 80 + hops (dieOf w.c) (dieOf m.core)
    | none => 18
  | .home _ pa _ => 84 + hops (dieOf w.c) (homeDie pa)
  | _ => 3000

/-- R210: an atomic that its issue has not let commit its crew commits it before it is performed. -/
def atomCommit (s : State) (w : Who) (l : Look) : State :=
  match s.commitWhy w true [l] with
  | some r => s.commit w.ctx w.crew r
  | none => s

/-- One access of an atomic performed: the access with its old value and the cycle its result is there (R211). `before` counts the
earlier lanes on the same word. -/
def atomOne (s : State) (c : Nat) (w : Who) (i : Instr) (before : Nat) (a : Acc) (l : Look) : Acc × State :=
  let s := s.atomCommit w l
  let extra := match l with
    | .l1 .. => 2 * before
    | .scratch k _ => if (s.crew? w.ctx k).any fun m => m.core == w.c then 2 * before else 0
    | _ => 0
  let lat := s.atomReach w l + extra + (if atomFadd i then 4 else 0)
  let (from_, s) := s.tokenStart w l a.start
  let (n, s) := s.freeNat
  let filled := match s.lineOf c l with
    | some x => x.fill + 1
    | none => 0
  let ((m, _, k), s) := s.readAt w l a.nbytes
  let new := atomNew i (m.extractLsb' 0 64) (a.data.extractLsb' 0 64) a.cmp
  let bs := leBytes a.nbytes new.toNat
  let s := match l with
    | .home va pa _ => s.writeHomed w [(va, pa, bs)]
    | l => s.writeAt w l bs
  ({ a with res := m, km := match l with
      | .scratch .. => k
      | _ => 0, arr := some (max (max (s.now c) filled) (from_ + lat + n)), dlv := true }, s)

/-- Whether any access would read an uncorrectable datum. -/
def anyUe (s : State) (w : Who) (xs : List (Acc × Look)) : Bool := xs.any fun x => (s.readAt w x.2 x.1.nbytes).1.2.1

/-- An atomic whose checks are done (R211, R212, R215). -/
def atomGo (s : State) (c : Nat) (o : Op) (xs : List (Acc × Look)) : State :=
  let w := s.opWho c o
  if s.anyUe w xs then s.consume w.ctx w.crew .ueData
  else
    let (accs, s) := xs.foldl (fun (p : List Acc × State) x =>
      let before := p.1.countP fun b => s.location w b.ptr == s.location w x.1.ptr
      let (a, s) := p.2.atomOne c w o.ins before x.1 x.2
      (p.1 ++ [a], s)) ([], s)
    let same (q : Op) : Bool := isAtomic q.ins && q.stage == .performed && q.accs.any fun b =>
      let x := s.point w b.ptr
      x.1 == 4 || accs.any fun a => s.point w a.ptr == x
    let after := ((s.olderOps c o).filter same).foldl (fun m q => max m q.due) 0
    let (d, n) := atomDest o.ins
    let mask : Lanes := match d with
      | .s _ => 1
      | _ => o.active
    let ws := (List.range n).flatMap fun j => (d.reg j).write mask fun l =>
      match accs.find? fun a => a.lane == l with
      | some a => ⟨a.res.extractLsb' (32 * j) 32, if isWparr o.ins then false else a.km.getLsbD j⟩
      | none => Elem.zero
    let s := s.modOp c o.id fun o => { o with accs := accs }
    s.perform c o ws (max after (s.latest c accs))
where
  /-- WPARR's result carries no mark. -/
  isWparr : Instr → Bool
    | .wparr _ => true
    | _ => false

end State

namespace Iss

/-- Two words as a 64-bit operand. -/
def pair (a b : Elem) (dbl : Bool) : BitVec 64 × Bool :=
  if dbl then (b.val ++ a.val, a.k || b.k) else (a.val.zeroExtend 64, a.k)

/-- A lane's operand in a vector register, or in a pair. -/
def laneOperand (I : Iss) (zx : Bool) (d : Opnd) (dbl : Bool) (lane : Nat) : BitVec 64 × Bool :=
  match d with
  | .v n => pair ((I.G.regs.vec (.v n)).at lane) ((I.G.regs.vec (.v (n.val + 1))).at lane) dbl
  | d => let e := (I.vsrc zx d).at lane; pair e e dbl

/-- A scalar operand, or a pair of them. -/
def scalarOperand (I : Iss) (zx : Bool) (d : Opnd) (dbl : Bool) : BitVec 64 × Bool :=
  match d with
  | .s n => pair (I.sreg n) (I.sreg (n.val + 1)) dbl
  | d => let e := I.sval zx d; pair e e dbl

/-- An atomic issued (R215): marked operands fault. -/
def atomic (I : Iss) (ins : Instr) (accs : List Acc) (marked : List Nat) (occ : Nat) : Res :=
  let e : Eff := { comp := .later ((atomDest ins).1 != .none), occ := occ, unit := .lsu, charge := 2 + 2 * occ }
  I.commits ins accs (I.access (I.op ins accs) true marked e)

end Iss

/-- The registers ATOM uses. -/
def AtomA.use (x : AtomA) : Use :=
  let n := if x.dbl then 2 else 1
  let cmp : List Opnd := if x.op == .cas then [x.cmp] else []
  { reads := [x.b, x.d] ++ cmp, vr := Use.range x.d n ++ (if x.op == .cas then Use.range x.cmp n else []), vw := Use.range x.d n,
    sr := [(x.a.val, 3)] }

/-- ATOM (R215). -/
def execAtom (x : AtomA) (s : State) : Host.Outcome State Fault Refusal :=
  issue x.h (AtomA.use x) s fun I =>
    let b := I.vsrc false x.b
    let cas := x.op == .cas
    let accs := (I.laneAccs (.s x.a) (fun l => ((b.at l).val.toInt, (b.at l).k)) (if x.dbl then 8 else 4)).map fun a =>
      { a with data := (I.laneOperand false x.d x.dbl a.lane).1.zeroExtend 128, cmp := (I.laneOperand x.zx x.cmp x.dbl a.lane).1 }
    let marked := (accs.filter fun a => (I.laneOperand false x.d x.dbl a.lane).2 || (cas && (I.laneOperand x.zx x.cmp x.dbl a.lane).2)).map
      (·.lane)
    I.atomic (.atom x) accs marked (I.occupancy accs)

/-- ATOMS (R215): one access for the group. -/
def execAtoms (x : AtomA) (s : State) : Host.Outcome State Fault Refusal :=
  let n := if x.dbl then 2 else 1
  let rng (d : Opnd) : List (Nat × Nat) := match d with
    | .s i => [(i.val, n)]
    | _ => []
  issue x.h { reads := [x.b], sr := (x.a.val, 3) :: rng x.d ++ (if x.op == .cas then rng x.cmp else []) } s fun I =>
    let (v, k) := I.scalarOperand false x.d x.dbl
    let (m, j) := I.scalarOperand x.zx x.cmp x.dbl
    let accs := (I.oneAcc x.a (I.sval false x.b) (if x.dbl then 8 else 4)).map fun a => { a with data := v.zeroExtend 128, cmp := m }
    I.atomic (.atoms x) accs (if k || (x.op == .cas && j) then accs.map (·.lane) else []) 1

/-- The one access of WPARR, WPWAIT and WAITA, made under an empty execute mask too. -/
def Iss.wordAcc (I : Iss) (a : Fin 126) : List Acc :=
  let (p, k) := I.striple a
  [I.acc 0 I.t p k 4]

/-- WPARR (R220). -/
def execWparr (x : WparrA) (s : State) : Host.Outcome State Fault Refusal :=
  issue x.h { all := true, sr := [(x.a.val, 3)] } s fun I =>
    if !I.qok then I.ok { comp := .flag I.t, unit := .lsu, charge := 4 } else I.atomic (.wparr x) (I.wordAcc x.a) [] 1

/-! ## Barriers (R216 to R218) -/

/-- The BARs or GBARs of a group at one barrier that an arrival of theirs registers: a group holds at most one pending arrival per barrier, and
every one it has issued joins it (R217, R218). -/
def State.arriveOps (s : State) (c slot : Nat) (mine : Instr → Bool) : State :=
  s.modCore c fun k => { k with ops := k.ops.map fun q => if q.slot = slot ∧ mine q.ins ∧ q.stage = .check then { q with stage := .waiting } else q }

/-- Whether an instruction is a BAR at a barrier. -/
def isBar (n : Nat) : Instr → Bool
  | .bar x => x.n.val == n
  | _ => false

/-- Whether an instruction is a GBAR at a gang barrier. -/
def isGbar (n : Nat) : Instr → Bool
  | .gbar x => x.n.val == n
  | _ => false

/-- BAR (R216, R217): a group whose arrival is registered in the open phase joins it; one whose arrival is pending joins it as it registers. -/
def execBar (x : BarA) (s : State) : Host.Outcome State Fault Refusal :=
  issue x.h {} s fun I =>
    if !I.qok then I.ok { comp := .flag I.t, unit := .lsu, charge := 4 }
    else
      let arrived := I.crew.any fun k => ((k.bars[x.n.val]?).getD ⟨false, []⟩).arrived.contains I.G.pos
      let o := I.op (.bar x) []
      let s := if arrived then I.s.addOp I.c { o with stage := .waiting }
        else (I.s.addOp I.c o).postQ I.c (I.t + 1) (.barArrivalRegister I.c I.id)
      .done s { comp := .later false, unit := .lsu, charge := 4 }

/-- BAR_ARRIVAL_REGISTER (R216): the arrival registers once every earlier access of the group is performed. -/
def execBarArrivalRegister (c id : Nat) (s : State) : Host.Outcome State Fault Refusal :=
  match s.op? c id with
  | none => .refused (.notEnabled "BAR_ARRIVAL_REGISTER")
  | some o => match o.ins, s.group? c o.slot with
    | .bar x, some G =>
      if o.stage ≠ .check then .refused (.notEnabled "BAR_ARRIVAL_REGISTER")
      else if !(s.olderOps c o).all Op.done then .next (s.postQ c (s.now c + 1) (.barArrivalRegister c id))
      else
        let arrive (b : Bar) : Bar := if b.arrived.contains G.pos then b else { b with arrived := G.pos :: b.arrived }
        let s := s.arriveOps c o.slot (isBar x.n.val)
        let s := s.modCrew G.ctx G.crew fun k =>
          { k with bars := k.bars.setIfInBounds x.n.val (arrive ((k.bars[x.n.val]?).getD ⟨false, []⟩)) }
        .next (s.barCheck G.ctx G.crew x.n.val)
    | _, _ => .refused (.notEnabled "BAR_ARRIVAL_REGISTER")

/-- Whether a crew is attached to its gang window. -/
def Att.now? : Att → Bool
  | .attached .. => true
  | _ => false

/-- GBAR (R218): commits the crew; one of a crew that is not attached joins no gang. A group whose arrival is registered in the open phase joins
it; one whose arrival is pending joins it as it registers. -/
def execGbar (x : BarA) (s : State) : Host.Outcome State Fault Refusal :=
  issue x.h {} s fun I =>
    if !I.qok then I.ok { comp := .flag I.t, unit := .lsu, charge := 4 }
    else
      let s := I.s.commit I.G.ctx I.G.crew 1
      if !(I.crew.any fun k => k.att.now?) then .done s { comp := .flag (I.t + 1), unit := .lsu, charge := 4 }
      else
        let arrived := I.crew.any fun k => ((k.gbars[x.n.val]?).getD ⟨false, []⟩).arrived.contains I.G.pos
        let o := I.op (.gbar x) []
        let s := if arrived then s.addOp I.c { o with stage := .waiting }
          else (s.addOp I.c o).postQ I.c (I.t + 1) (.gbarArrivalRegister I.c I.id)
        .done s { comp := .later false, unit := .lsu, charge := 4 }

/-- GBAR_ARRIVAL_REGISTER (R218): a group's release conditions are met. -/
def execGbarArrivalRegister (c id : Nat) (s : State) : Host.Outcome State Fault Refusal :=
  match s.op? c id with
  | none => .refused (.notEnabled "GBAR_ARRIVAL_REGISTER")
  | some o => match o.ins, s.group? c o.slot with
    | .gbar x, some G =>
      if o.stage ≠ .check then .refused (.notEnabled "GBAR_ARRIVAL_REGISTER")
      else if !s.released (G.who c) (s.olderOps c o) .gang then .next (s.postQ c (s.now c + 1) (.gbarArrivalRegister c id))
      else
        let arrive (b : Bar) : Bar := if b.arrived.contains G.pos then b else { b with arrived := G.pos :: b.arrived }
        let s := s.arriveOps c o.slot (isGbar x.n.val)
        let s := s.modCrew G.ctx G.crew fun k =>
          { k with gbars := k.gbars.setIfInBounds x.n.val (arrive ((k.gbars[x.n.val]?).getD ⟨false, []⟩)) }
        .next (s.gangCheck G.ctx (((s.crew? G.ctx G.crew).map (·.gang)).getD 0) x.n.val c)
    | _, _ => .refused (.notEnabled "GBAR_ARRIVAL_REGISTER")

/-! ## WPWAIT and WAITA (R221 to R223) -/

/-- Whether a word satisfies a wait. -/
def waitMet (i : Instr) (w b : Word) : Bool :=
  match i with
  | .wpwait _ => w.getLsbD 31 != b.getLsbD 31
  | .waita x => match x.cond with
    | .eq => w == b
    | .ne => w != b
    | .geu => b.toNat ≤ w.toNat
    | .any => w &&& b != 0
  | _ => true

/-- The destination of a wait. -/
def waitDest : Instr → GDest
  | .wpwait x | .waita x => gdest x.d
  | _ => .none

namespace State

/-- The place of a monitored word. -/
def spotOf (w : Who) : Look → Option Spot
  | .l1 va pa => some (.core w.c w.ctx w.crew va pa)
  | .home _ pa _ => some (.home pa)
  | .scratch k o => some (.scratch w.ctx k o)
  | _ => none

/-- What an operation monitors: one place, of which it has seen no write yet, or none. -/
def setWatch (s : State) (c id : Nat) (p : Option Spot) : State :=
  { s with watch := (s.watch.filter fun w => w.core != c || w.id != id) ++ (p.map fun x => Watch.mk c id x []).toList }

/-- A wait that completes with a word, landing in cycle `lam`. Whether a spill mark of a scratchpad word marks the result the spec does not say
(R158 speaks of loads, R221 and R222 of neither): the K mark is written clear (assumption 128). -/
def waitEnd (s : State) (c : Nat) (o : Op) (w : Word) (lam : Nat) : State :=
  (s.setWatch c o.id none).perform c o ((waitDest o.ins).write 1 fun _ => ⟨w, false⟩) (max (s.now c) lam)

/-- The first of some words read that satisfies a wait completes it: 4 cycles after its write at an L1 or scratchpad, 80 or more at home
(R223), and not before the landing of the first read. -/
def waitTry (s : State) (c : Nat) (o : Op) (p : Option Spot) (vs : List (Nat × Word)) : Option State :=
  match vs.find? fun v => waitMet o.ins v.2 (o.args.headD 0) with
  | none => none
  | some (t, v) =>
    let (n, s') := s.freeNat
    let (d, s) := match p with
      | some (.home pa) => (80 + hops (dieOf c) (homeDie pa) + n, s')
      | some _ => (4, s)
      | none => (3000 + n, s')
    some (s.waitEnd c o v (max (o.firstRead.getD 0) (t + d)))

/-- The first read of a wait (R221): it completes when the word satisfies it, or when its limit has passed; else the word is monitored. -/
def waitGo (s : State) (c : Nat) (o : Op) (xs : List (Acc × Look)) : State :=
  match xs.head? with
  | none => s
  | some (a, l) =>
    let w := s.opWho c o
    let (a, s) := s.readAcc c w o.id a l
    if a.cause.isSome then s.consume w.ctx w.crew .ueData
    else
      let v := a.res.extractLsb' 0 32
      let lam := a.arr.getD (s.now c)
      if waitMet o.ins v (o.args.headD 0) then s.waitEnd c o v lam
      else if o.limit.any fun t => t ≤ s.now c then s.waitEnd c o v (max lam (o.limit.getD 0))
      else
        ((s.setWatch c o.id (spotOf w l)).modOp c o.id fun o =>
          { o with stage := .waiting, accs := [a], last := v, firstRead := some lam }).postQ c (s.now c + 1) (.monitorReread c o.id)

end State

/-- MONITOR_REREAD (R221): the word as every write performed since has left it, and as it is now. -/
def execMonitorReread (c id : Nat) (s : State) : Host.Outcome State Fault Refusal :=
  match s.op? c id with
  | none => .refused (.notEnabled "MONITOR_REREAD")
  | some o => match o.stage, o.accs.head? with
    | .waiting, some a =>
      let w := s.opWho c o
      let again (s : State) : State := s.postQ c (s.now c + 1) (.monitorReread c id)
      let seen := s.watch.find? fun x => x.core == c && x.id == id
      match s.waitTry c o (seen.map (·.spot)) ((seen.map (·.seen)).getD []) with
      | some s => .next s
      | none => match s.look w a.ptr a.nbytes false with
        | .walk va => .next (again (s.startWalk c w.ctx va))
        | .lent | .wait => .next (again s)
        | .bad k =>
          let s := (s.setWatch c id none).modOp c id fun o => { o with accs := o.accs.map fun a => { a with arr := none } }
          .next (s.demandFault c o [(0, k)])
        | l =>
          let ((x, ue, _), s) := s.readAt w l a.nbytes
          if ue then .next (s.consume w.ctx w.crew .ueData)
          else
            let v := x.extractLsb' 0 32
            match s.waitTry c o (State.spotOf w l) [(s.now c, v)] with
            | some s => .next s
            | none => .next (again ((s.setWatch c id (State.spotOf w l)).modOp c id fun o => { o with last := v }))
    | _, _ => .refused (.notEnabled "MONITOR_REREAD")

/-- WAIT_LIMIT_EXPIRY (R221): a wait completes at its limit with the last word it read, unless a word written before satisfied it. -/
def execWaitLimitExpiry (c id : Nat) (s : State) : Host.Outcome State Fault Refusal :=
  match s.op? c id with
  | none => .refused (.notEnabled "WAIT_LIMIT_EXPIRY")
  | some o =>
    if o.stage = .waiting ∧ o.limit.any (· ≤ s.now c) then
      let seen := s.watch.find? fun x => x.core == c && x.id == id
      let vs := (seen.map (·.seen)).getD []
      match s.waitTry c o (seen.map (·.spot)) vs with
      | some s => .next s
      | none => .next (s.waitEnd c o ((vs.getLast?.map (·.2)).getD o.last) (max (o.limit.getD 0) (o.firstRead.getD 0)))
    else .refused (.notEnabled "WAIT_LIMIT_EXPIRY")

/-- Whether an operation holds its group's address monitor: a wait that has not completed (R223). -/
def monitors (o : Op) (now : Nat) : Bool :=
  !(o.stage == .performed && o.due ≤ now) && match o.ins with
    | .wpwait _ | .waita _ => true
    | _ => false

/-- The limit of a wait on the agenda. -/
def State.postWaitLimit (s : State) (c : Nat) (o : Op) : State :=
  match o.limit with
  | some t => s.postQ c t (.waitLimitExpiry c o.id)
  | none => s

/-- WPWAIT and WAITA issued; a second one is held while the group's address monitor is in use. Which cause is reported where b is marked and
the pointer fails too the spec does not say: a marked b comes first (assumption 55). -/
def Iss.wait (I : Iss) (ins : Instr) (x : WaitA) : Res :=
  let e : Eff := { comp := .later (gdest x.d != .none), unit := .lsu, charge := 4 }
  let b := I.sval x.zx x.b
  if !I.qok then I.ok { e with comp := .flag I.t }
  else if b.k then .stop I.kAll
  else if (I.s.core I.c).ops.any fun q => q.slot == I.g && monitors q I.t then .hold I.s
  else
    let lim := if x.lsel = 0 then none else some (I.t + max 4 (I.wlim x.lsel.val))
    let o := { I.op ins (I.wordAcc x.a) with args := [b.val], limit := lim }
    match I.access o false [] e with
    | .done s e => .done (s.postWaitLimit I.c o) e
    | r => r

/-- WPWAIT (R221). -/
def execWpwait (x : WaitA) (s : State) : Host.Outcome State Fault Refusal :=
  issue x.h { reads := [x.b], all := true, sr := [(x.a.val, 3)] } s fun I => I.wait (.wpwait x) x

/-- WAITA (R222). -/
def execWaita (x : WaitA) (s : State) : Host.Outcome State Fault Refusal :=
  issue x.h { reads := [x.b], all := true, sr := [(x.a.val, 3)] } s fun I => I.wait (.waita x) x

/-! ## FENCE (R224) -/

/-- Whether an order releases, and whether it acquires. -/
def Ord.releases : Ord → Bool
  | .rel | .ar => true
  | _ => false

/-- Whether an order acquires. -/
def Ord.acquires : Ord → Bool
  | .acq | .ar => true
  | _ => false

/-- What a FENCE.ACQ waits for of an earlier access: a load has read its value, an atomic has landed; it does not wait for stores (R224). -/
def Op.acquired (o : Op) (now : Nat) : Bool :=
  if isAtomic o.ins then o.stage == .performed && o.due ≤ now
  else o.done || ((accMode o.ins).map (·.store)).getD false

/-- A fence completes when its group's earlier accesses are performed at its scope, and for an acquire its loads have read and its atomics
have landed. -/
def State.fenceCheck (s : State) (c : Nat) (o : Op) : State :=
  match o.ins with
  | .fence x =>
    let older := s.olderOps c o
    let ok := (!Ord.releases x.ord || s.released (s.opWho c o) older x.scope) &&
      (!Ord.acquires x.ord || older.all fun q => q.acquired (s.now c))
    if ok then s.finishOp c o [] (s.now c) else s.askAgain c o
  | _ => s

/-- FENCE (R224). -/
def execFence (x : FenceA) (s : State) : Host.Outcome State Fault Refusal :=
  issue x.h {} s fun I =>
    if !I.qok then I.ok { comp := .flag I.t, unit := .lsu, charge := 4 }
    else
      let s := (I.s.addOp I.c { I.op (.fence x) [] with stage := .waiting }).postQ I.c (I.t + 1) (.accessCheckComplete I.c I.id)
      .done (if Ord.releases x.ord && scopeWide x.scope then s.commit I.G.ctx I.G.crew 1 else s)
        { comp := .later false, unit := .lsu, charge := 4 }

end Sys2Proof.Machine
end

