-- ==== Sys2Proof/Machine/Tile.lean ====
section
/-! DEFINITION. Tiles (chapter 11): configurations (R229 to R232), the order among a tenant's operations (R234, R259), and TLD, TST,
TZERO, TMOV and TXP. -/

namespace Sys2Proof.Machine

open Sys2Proof

/-! ## Configurations (R229 to R231) -/

/-- The parts of a TCFG word, with what R230 makes of them. -/
structure TCfg where
  fmt : Nat
  bw : Nat
  c : Nat
  r : Nat
  deriving DecidableEq, Repr

/-- A TCFG word read. -/
def tcfg (w : Word) : TCfg :=
  ⟨(w.extractLsb' 28 4).toNat, (w.extractLsb' 25 3).toNat, (w.extractLsb' 17 8).toNat + 1, (w.extractLsb' 10 7).toNat + 1⟩

namespace TCfg

/-- Element width in bits. -/
def e (x : TCfg) : Nat :=
  match x.fmt with
  | 1 | 2 => 16
  | 3 | 4 | 5 => 8
  | 6 => 4
  | _ => x.bw + 2

/-- Row bytes. -/
def rb (x : TCfg) : Nat := if x.fmt = 7 then x.c / 16 * (2 * x.e) else x.c * x.e / 8

/-- Exponent bytes of a row. -/
def eb (x : TCfg) : Nat := if x.fmt = 7 then x.c / 16 else 0

/-- The tile's size in bytes. -/
def size (x : TCfg) : Nat := x.r * x.rb + x.r * x.eb

/-- Whether the configuration is valid (R230). -/
def valid (x : TCfg) : Bool :=
  1 ≤ x.fmt && x.fmt ≤ 7 && (if x.fmt = 7 then x.bw ≤ 6 else x.bw == 0) && (x.fmt != 6 || x.c % 2 == 0) &&
    (x.fmt != 7 || x.c % 16 == 0) && x.size ≤ 8192

/-- The row length of a memory image (R235). -/
def rowLen (x : TCfg) : Nat := x.rb + x.eb

/-- Where byte `j` of row `i` of the memory image lies in the tile (R231, R235). -/
def place (x : TCfg) (i j : Nat) : Nat := if j < x.rb then i * x.rb + j else x.r * x.rb + i * x.eb + (j - x.rb)

/-- The places of the memory image's bytes, in order. -/
def places (x : TCfg) : List Nat := (List.range x.r).flatMap fun i => (List.range x.rowLen).map (x.place i)

end TCfg

/-- The TCFG word kept of a written one (Table 2): bits 9 to 1 read 0, bit 0 is VALID. -/
def tcfgStore (w : Word) : Word := (w &&& 0xFFFFFC00) ||| (if (tcfg w).valid then 1 else 0)

/-- The fields that decide whether two configurations are one: FMT, BW, CM1 and RM1. -/
def sameCfg (a b : Word) : Bool := a &&& 0xFFFFFC00 == b &&& 0xFFFFFC00

/-! ## A tenant's names (R227, R255) -/

namespace Core

/-- A tile of a core. -/
def tile (k : Core) (n : Nat) : Tile := k.mx.tiles[n]?.getD Tile.reset

/-- A bank of a core. -/
def bank (k : Core) (n : Nat) : Bank := k.mx.banks[n]?.getD Bank.reset

/-- Whether a context is the second tenant of a core's array. -/
def second (k : Core) (ctx : Nat) : Bool :=
  match k.mx.tenants with
  | [_, b] => b.ctx == ctx
  | _ => false

/-- The physical tile that a tile number of a context names. -/
def tileOf (k : Core) (ctx n : Nat) : Option Nat :=
  if k.mx.tenants.length < 2 then some n else if n < 8 then some (if k.second ctx then 8 + n else n) else none

/-- The physical bank that a bank number of a context names. -/
def bankOf (k : Core) (ctx n : Nat) : Option Nat :=
  if k.mx.tenants.length < 2 then some n else if n < 16 then some (if k.second ctx then 16 + n else n) else none

/-- The number by which a context names a physical bank. -/
def bankName (k : Core) (ctx p : Nat) : Nat := if k.second ctx then p - 16 else p

/-- The number by which a context names a physical tile. -/
def tileName (k : Core) (ctx p : Nat) : Nat := if k.second ctx then p - 8 else p

/-- A tenant of a core. -/
def tenant? (k : Core) (ctx : Nat) : Option Tenant := k.mx.tenants.find? fun t => t.ctx == ctx

/-- A core with a tenant changed. -/
def modTenant (k : Core) (ctx : Nat) (f : Tenant → Tenant) : Core :=
  { k with mx := { k.mx with tenants := k.mx.tenants.map fun t => if t.ctx = ctx then f t else t } }

/-- A core with a tile changed. -/
def modTile (k : Core) (n : Nat) (f : Tile → Tile) : Core :=
  { k with mx := { k.mx with tiles := k.mx.tiles.setIfInBounds n (f (k.tile n)) } }

/-- A core with a bank changed. -/
def modBank (k : Core) (n : Nat) (f : Bank → Bank) : Core :=
  { k with mx := { k.mx with banks := k.mx.banks.setIfInBounds n (f (k.bank n)) } }

/-- The cause that a tile number raises for a crew: outside the tenant's range, not valid, or another crew's (R229, R230, R232). -/
def tileFault (k : Core) (ctx crew n : Nat) : Option Cause :=
  match k.tileOf ctx n with
  | none => some .tileCfg
  | some p => if (k.tile p).owner != some (ctx, crew) || !(tcfg (k.tile p).cfg).valid then some .tileCfg else none

/-- The cause that a bank number raises for a crew: outside the tenant's range, or not owned (R256, R257). -/
def bankFault (k : Core) (ctx crew n : Nat) : Option Cause :=
  match k.bankOf ctx n with
  | none => some .acmUnalloc
  | some p => if (k.bank p).owner != some (ctx, crew) || (k.bank p).freeing then some .acmUnalloc else none

/-- The engines that serve a context (R227). -/
def engines (k : Core) (ctx : Nat) : List Nat := if k.mx.tenants.length < 2 then [0, 1] else if k.second ctx then [1] else [0]

end Core

/-- A sticky bit of a tenant's MSTAT set (Table 6 of chapter 12). -/
def Tenant.stick (t : Tenant) (bit : Nat) : Tenant := { t with mstat := { t.mstat with sticky := t.mstat.sticky ||| (1#6 <<< bit) } }

/-! ## Order within a tenant (R234, R259) -/

/-- What an operation of the array reads and writes: tiles by their physical number, banks after them. -/
structure Sets where
  reads : List Nat
  writes : List Nat
  deriving DecidableEq, Repr

/-- A bank in a set. -/
def bankKey (b : Nat) : Nat := 16 + b

/-- Whether a bank's next reader runs a check (R261). -/
def Bank.checks (b : Bank) : Bool := b.pend && b.rect != .void

/-- The sets of an instruction's operation (Table 3; Table 2 of chapter 12). `args` holds its physical tiles or banks, and after them a 1 once
it has run a check: a check writes the bank it reads. What an MTASKM will start is known once it has accepted its tasks: until then it
holds all that its tenant issued after it. -/
def opSets (k : Core) (o : Op) : Sets :=
  let a (i : Nat) : Nat := (o.args[i]?.getD 0).toNat
  let chk (b n : Nat) : List Nat := if (k.bank b).checks || a n == 1 then [bankKey b] else []
  match o.ins with
  | .tld _ | .tzero _ => ⟨[], [a 0]⟩
  | .tst _ => ⟨[a 0], []⟩
  | .tmov _ | .txp _ => ⟨[a 1], [a 0]⟩
  | .acalloc _ | .acfree _ => ⟨[], o.args.map fun w => bankKey w.toNat⟩
  | .acdrain _ => ⟨[bankKey (a 0)], chk (a 0) 2⟩
  | .acload _ | .aczero _ => ⟨[], [bankKey (a 0)]⟩
  | .acscale _ => ⟨[bankKey (a 1)], bankKey (a 0) :: chk (a 1) 3⟩
  | .mcheck x => if x.a.isSome then ⟨[bankKey (a 0)], [bankKey (a 0)]⟩ else ⟨[], []⟩
  | .mtaskm _ => if o.stage == .logged then ⟨[], []⟩ else ⟨[], List.range 48⟩
  | _ => ⟨[], []⟩

/-- The number that places an operation in the order of issue: an MTASKM comes after the tasks it accepts, whose numbers follow its
own. -/
def arrayId (o : Op) : Nat :=
  match o.ins with
  | .mtaskm _ => o.id + ((o.args[1]?).getD 0).toNat + ((o.args[2]?).getD 0).toNat
  | _ => o.id

/-- The sets of a task. -/
def Task.sets (t : Task) : Sets := ⟨[t.tai, t.tbi] ++ (if t.acc then [bankKey t.bank] else []), [bankKey t.bank]⟩

/-- The cycle in which a TST has read the last byte of its tile, once it has: there it finishes for the tracking (Table 3). -/
def Op.tileRead (o : Op) : Option Nat :=
  match o.ins with
  | .tst x =>
    if x.aon then (if o.stage == .home then some 0 else if o.firstRead == some 2 then some o.due else none)
    else if o.stage == .home then (o.accs.head?).bind (·.arr) else none
  | _ => none

/-- The context of an operation's group. -/
def Core.opCtx (k : Core) (o : Op) : Option Nat := ((k.groups[o.slot]?).join).map (·.ctx)

/-- The unfinished operations of a tenant in a cycle: number, sets, and the cycle in which each finishes when that is known. -/
def Core.arrayOps (k : Core) (ctx now : Nat) : List (Nat × Sets × Option Nat) :=
  ((k.ops.filter fun o => k.opCtx o == some ctx && !o.tileRead.any (· < now)).map fun o =>
      (arrayId o, opSets k o, if o.stage == .home || o.stage == .performed then some o.due else none)) ++
    (k.mx.tenants.filter fun t => t.ctx == ctx).flatMap fun t => t.window.map fun w => (w.id, w.sets, w.ends)

/-- Whether two operations with these sets may not run side by side (R234). -/
def Sets.clash (x y : Sets) : Bool :=
  y.writes.any (fun n => x.reads.contains n || x.writes.contains n) || y.reads.any fun n => x.writes.contains n

/-- Whether an operation may start: now, later in this cycle when what holds it finished in the last, or not yet. -/
inductive Turn where
  | go | soon | later
  deriving DecidableEq, Repr

/-- The turn of an operation of a tenant with a number and sets (R234). -/
def Core.turn (k : Core) (ctx now id : Nat) (x : Sets) : Turn :=
  let holds := (k.arrayOps ctx now).filter fun p => p.1 < id && x.clash p.2.1
  if holds.isEmpty then .go
  else if holds.all fun p => match p.2.2 with
      | some d => d < now
      | none => false
    then .soon else .later

/-! ## Reading and writing tiles (R233) -/

/-- The bytes of a tile at some places; those of a word with an uncorrectable error read as zeros. -/
def Tile.bytesAt (t : Tile) (ps : List Nat) : List Byte := ps.map fun p => if t.ue.contains (p / 4) then 0 else t.data.read p

/-- Whether a place read lies in a word with an uncorrectable error, and the first such place. -/
def Tile.ueAt (t : Tile) (ps : List Nat) : Option Nat := ps.find? fun p => t.ue.contains (p / 4)

/-- Bytes written at places of a tile; a word written whole is no longer uncorrectable. -/
def Tile.put (t : Tile) (ps : List Nat) (bs : List Byte) : Tile :=
  { t with data := (ps.zip bs).foldl (fun m x => m.write x.1 x.2) t.data,
           ue := t.ue.filter fun w => !((List.range 4).all fun i => ps.contains (4 * w + i)) }

/-- The coordinates of the first element that a byte of a tile is part of. -/
def TCfg.coord (x : TCfg) (p : Nat) : Nat × Nat :=
  let p := p / 4 * 4
  if p < x.r * x.rb then
    let q := p % max 1 x.rb
    (p / max 1 x.rb, if x.fmt = 7 then q / (2 * x.e) * 16 + q % (2 * x.e) * 8 / x.e else q * 8 / x.e)
  else
    let q := p - x.r * x.rb
    (q / max 1 x.eb, q % max 1 x.eb * 16)

/-- R233: the reader of an uncorrectable word sets the tile-error bit, and the first such element is logged. -/
def Core.logTile (k : Core) (ctx p byte : Nat) : Core :=
  let (row, col) := (tcfg (k.tile p).cfg).coord byte
  k.modTenant ctx fun t =>
    let t := t.stick 1
    if t.mstat.terr.getLsbD 31 then t
    else
      let w := BitVec.ofNat 32 (2 ^ 31 + k.tileName ctx p % 16 * 2 ^ 24 + row % 128 * 2 ^ 17 + col % 256 * 2 ^ 8)
      { t with mstat := { t.mstat with terr := w } }

/-- The uncorrectable words among some places of a tile that is read: the first is logged, and the core counts the event (R233, R346). -/
def State.noteTile (s : State) (c ctx p : Nat) (ps : List Nat) : State :=
  match ((s.core c).tile p).ueAt ps with
  | some b => (s.modCore c fun k => k.logTile ctx p b).postNow (.errorEvent (.core c) false none)
  | none => s

/-- Places of a tile read, with the log of an uncorrectable word. -/
def State.readTile (s : State) (c ctx p : Nat) (ps : List Nat) : List Byte × State :=
  (((s.core c).tile p).bytesAt ps, s.noteTile c ctx p ps)

/-! ## TLD and TST at issue (R235, R236, R248, R250) -/

/-- A span of an image cut where a multiple of 16 bytes begins: starts and lengths. -/
def cut16 : Nat → Nat → Nat → List (Nat × Nat)
  | 0, _, _ => []
  | f + 1, a, n =>
    if n = 0 then []
    else
      let m := min n (16 - a % 16)
      (a, m) :: cut16 f (a + m) (n - m)

/-- The parts of an image's rows as offsets from its first byte. -/
def imageParts (x : TCfg) (base pitch : Nat) : List (Nat × Nat) :=
  (List.range x.r).flatMap fun i => (cut16 (x.rowLen + 1) (base + i * pitch) x.rowLen).map fun (a, m) => (a - base, m)

namespace Iss

/-- The cause that a tile number raises. -/
def tileFault (I : Iss) (n : Nat) : Option Cause := (I.s.core I.c).tileFault I.G.ctx I.G.crew n

/-- The physical tile of a number that raises no cause. -/
def phys (I : Iss) (n : Nat) : Nat := ((I.s.core I.c).tileOf I.G.ctx n).getD 0

/-- A stop of the group for the cause of lowest rank. -/
def scalarWorst (I : Iss) (cs : List Cause) (ptr : Ptr) : Option Report := (worst (cs.map fun c => (0, c))).map fun c => I.scalar c ptr

/-- The parts of the image of a TLD or TST, the header of an .AON form before them. -/
def tileAccs (I : Iss) (x : TileMemA) (p : Ptr) (cfg : TCfg) (pitch : Nat) : List Acc :=
  let first := if x.aon then Ptr.advance p 8 else p
  (if x.aon then [I.acc 0 I.t p false 4, I.acc 0 I.t (Ptr.advance p 4) false 4] else []) ++
    (imageParts cfg (Ptr.addr first) pitch).map fun a => I.acc 0 I.t (Ptr.advance first a.1) false a.2

/-- The causes of the operands of a TLD or TST (R235, R248): a marked operand raises K_CONSUME and nothing else. -/
def tileOperands (x : TileMemA) (p : Ptr × Bool) (b : Elem) (cfg : Option TCfg) : List Cause :=
  (if p.2 || b.k then [.kConsume] else []) ++
    (if (!p.2 && Ptr.addr p.1 % (if x.aon then 8 else 4) != 0) || (!b.k && b.val.toNat % 4 != 0) then [.align] else []) ++
    (if !b.k && cfg.any fun y => y.r > 1 && b.val.toNat < y.rowLen then [.tileCfg] else [])

/-- TLD and TST issued: the operands, the tile, and the image's bounds are checked; the rest waits for its walks and its turn, which may come
in the issue cycle. -/
def tileMem (I : Iss) (ins : Instr) (x : TileMemA) (store : Bool) : Res :=
  let (p, k) := I.striple x.a
  let b := I.sval true x.b
  let e : Eff := { comp := .later x.status.isSome, unit := .lsu, charge := 4 }
  if !I.qok then I.ok { e with comp := .flag I.t }
  else
    let tf := I.tileFault x.t
    let cfg := tcfg ((I.s.core I.c).tile (I.phys x.t)).cfg
    let charge := 4 + (cfg.size + 63) / 64
    let accs := if k || b.k || tf.isSome then [] else I.tileAccs x p cfg b.val.toNat
    let found := I.accCauses accs (fun _ => 1) store []
    let cs := tf.toList ++ tileOperands x (p, k) b (if tf.isNone then some cfg else none) ++ found.map (·.2)
    let lim := if x.lsel = 0 || I.s.exactAt I.c I.G.ctx then none else some (I.t + max 4 (I.wlim x.lsel.val))
    let o : Op := { I.op ins accs with args := [BitVec.ofNat 32 (I.phys x.t)], limit := lim }
    match worst (cs.map fun c => (0, c)) with
    | some .kConsume => .stop I.kAll
    | some w =>
      let at' := if (found.head?).any fun f => f.2 == w then
          accs.find? fun a => (I.s.early I.who a.ptr a.nbytes 1 store).isSome else none
      let r := I.scalar w ((at'.map (·.ptr)).getD p)
      if r.cause.serviced then .done (I.s.addOp I.c { o with stage := .logged }) { e with charge := charge, serviced := some r } else .stop r
    | none =>
      let (n, s) := if accs.all fun a => Ptr.space a.ptr == 1 then (0, I.s) else I.s.freeNat
      let s := (s.addOp I.c o).postQ I.c (I.t + n) (.accessCheckComplete I.c I.id)
      let s := match lim with
        | some t => s.postQ I.c t (.aonLimitExpiry I.c I.id)
        | none => s
      if store then I.commits ins accs (.done s { e with charge := charge }) else .done s { e with charge := charge }

end Iss

/-! ## TLD and TST at work -/

namespace State

/-- An operation of the array that finishes in cycle `lam` (R234): TILE_OP_COMPLETE follows at its end. -/
def tileDone (s : State) (c : Nat) (o : Op) (lam : Nat) : State :=
  (s.modOp c o.id fun o => { o with stage := .home, due := lam, accs := o.accs.map fun a => { a with arr := some (s.now c), dlv := true } }).postQ
    c (lam + 1) (.tileOpComplete c o.id)

/-- The latency of the slowest place of an image (R250). -/
def tileReach (s : State) (w : Who) (xs : List (Acc × Look)) (store : Bool) : Nat × State :=
  xs.foldl (fun (p : Nat × State) x =>
    let (r, s) := if store then (p.2.storeReach w x.2, p.2) else p.2.reach w x.2 x.1.nbytes
    (max p.1 r, s)) (0, s)

/-- The cycles of a tile's move: its slowest latency, for an .AON form with its two header accesses, and the lines or half-lines moved
(R250). -/
def tileTime (s : State) (w : Who) (xs : List (Acc × Look)) (size : Nat) (store aon : Bool) : Nat × State :=
  let (x, s) := s.tileReach w xs store
  let lines := ((xs.filter fun p => Ptr.space p.1.ptr == 0).map fun p => Ptr.addr p.1.ptr / 128).dedup.length
  let n := if lines = 0 then (size + 63) / 64 else lines
  let (f, s) := s.freeNat
  ((if aon then 3 * x else x) + n + f, s)

/-- The parts of an image read in order: the bytes, whether one is uncorrectable, and whether a spill mark is read. -/
def readParts (s : State) (w : Who) (xs : List (Acc × Look)) : (List Byte × Bool × Bool) × State :=
  xs.foldl (fun (p : (List Byte × Bool × Bool) × State) x =>
    let ((v, ue, k), s) := p.2.readAt w x.2 x.1.nbytes
    ((p.1.1 ++ leBytes x.1.nbytes v.toNat, p.1.2.1 || ue, p.1.2.2 || k != 0), s)) (([], false, false), s)

/-- The parts of an image with the bytes each stores. -/
def partData : List (Acc × Look) → List Byte → List (Acc × Look)
  | [], _ => []
  | (a, l) :: xs, bs => ({ a with data := BitVec.ofNat 128 (leNat (bs.take a.nbytes)) }, l) :: partData xs (bs.drop a.nbytes)

/-- The ingest check of words that a TLD reads (R237): under FAULT it stops, under USE marked words escape, and `k` goes on. -/
def ingest (s : State) (c : Nat) (o : Op) (marked : Bool) (k : State → State) : State :=
  let use := (s.group? c o.slot).any fun G => G.spec.kpol.extractLsb' 4 2 == 1#2
  if marked && !use then s.demandFault c o [(0, .kConsume)] else k (s.escape c o.slot marked)

/-- The tile an operation names, and its configuration. -/
def opTile (s : State) (c : Nat) (o : Op) : Nat × TCfg :=
  let p := (o.args.headD 0).toNat
  (p, tcfg ((s.core c).tile p).cfg)

/-- A plain TLD or TST whose checks and turn have come. -/
def tileGo (s : State) (c : Nat) (o : Op) (xs : List (Acc × Look)) : State :=
  let w := s.opWho c o
  let (p, cfg) := s.opTile c o
  match o.ins with
  | .tst _ =>
    let (d, s) := s.tileTime w xs cfg.size true false
    let (bs, s) := s.readTile c w.ctx p cfg.places
    (s.storeBytes w (partData xs bs)).tileDone c o (s.now c + d)
  | _ =>
    let (d, s) := s.tileTime w xs cfg.size false false
    let ((bs, ue, sm), s) := s.readParts w xs
    if ue then s.consume w.ctx w.crew .ueData
    else s.ingest c o sm fun s => (s.modCore c fun k => k.modTile p fun t => t.put cfg.places bs).tileDone c o (s.now c + d)

/-- The next phase of an .AON operation, in the next cycle. -/
def phase (s : State) (c : Nat) (o : Op) (n : Nat) (last : Word) (data : List Byte) : State :=
  (s.modOp c o.id fun o => { o with firstRead := some n, last := last, data := data }).askAgain c o

/-- TST.AON (R238): the claim, the rows and the configuration, the release and the second increment, each in a cycle of its own. -/
def tstAon (s : State) (c : Nat) (o : Op) (sc : Scope) (xs : List (Acc × Look)) : State :=
  let w := s.opWho c o
  let (p, cfg) := s.opTile c o
  match xs with
  | v :: cw :: rows =>
    let ((x, ue, _), s1) := s.readAt w v.2 4
    let ver := x.extractLsb' 0 32
    let put (s : State) (n : Word) : State :=
      let s := s.atomCommit w v.2
      s.storeBytes w [({ v.1 with data := n.zeroExtend 128 }, v.2)]
    match o.firstRead.getD 0 with
    | 0 =>
      if ue then s1.consume w.ctx w.crew .ueData
      else if ver.getLsbD 0 then s1.askAgain c o
      else (put s1 (ver + 1)).phase c o 1 ver []
    | 1 =>
      let (bs, s) := s.readTile c w.ctx p cfg.places
      let s := s.storeBytes w (partData rows bs)
      let s := s.storeBytes w [({ cw.1 with data := ((s.core c).tile p).cfg.zeroExtend 128 }, cw.2)]
      (s.modOp c o.id fun o => { o with due := s.now c }).phase c o 2 o.last []
    | _ =>
      if s.released w (s.olderOps c o) sc then
        let (d, s) := s1.tileTime w xs cfg.size true true
        (put s (ver + 1)).tileDone c o (max (s.now c) (s.now c - 2 + d))
      else s.askAgain c o
  | _ => s

/-- The status register's write at the end of a TLD.AON. -/
def aonStatus (i : Instr) (b : Bool) : List RegWrite :=
  match i with
  | .tld x => Iss.wstat x.status b
  | _ => []

/-- The end of a TLD.AON in cycle `lam`: its tile and its status (R239), which is visible from that cycle on (R63). -/
def aonEnd (s : State) (c : Nat) (o : Op) (data : List Byte) (status : Bool) (lam : Nat) : State :=
  let (p, cfg) := s.opTile c o
  let s := if data.isEmpty then s else s.modCore c fun k => k.modTile p fun t => t.put cfg.places data
  let s := s.tileDone c o lam
  if aonStatus o.ins status = [] then s else s.landAt c o.slot o.id none (aonStatus o.ins status) lam

/-- TLD.AON (R239): the version, the configuration, the rows, and the version again, each read in a cycle of its own. A success that would come
after the limit is none: the operation then stays for its AON_LIMIT_EXPIRY. -/
def tldAon (s : State) (c : Nat) (o : Op) (xs : List (Acc × Look)) : State :=
  let w := s.opWho c o
  let (p, cfg) := s.opTile c o
  match xs with
  | v :: cw :: rows =>
    let ((x, ue, km), s1) := s.readAt w v.2 4
    let ver := x.extractLsb' 0 32
    if ue then s1.consume w.ctx w.crew .ueData
    else s1.ingest c o (km != 0) fun s1 => match o.firstRead.getD 0 with
      | 0 =>
        if ver.getLsbD 0 then s1.askAgain c o
        else
          let ((y, ue, km), s) := s1.readAt w cw.2 4
          if ue then s.consume w.ctx w.crew .ueData
          else s.ingest c o (km != 0) fun s =>
            if sameCfg (y.extractLsb' 0 32) ((s.core c).tile p).cfg then s.phase c o 1 ver o.data else s.demandFault c o [(0, .tileCfg)]
      | 1 =>
        let ((bs, ue, sm), s) := s.readParts w rows
        if ue then s.consume w.ctx w.crew .ueData else s.ingest c o sm fun s => s.phase c o 2 o.last bs
      | _ =>
        if ver = o.last then
          let (d, s) := s1.tileTime w xs cfg.size false true
          let lam := max (s.now c) (s.now c - 2 + d)
          if o.limit.any (· < lam) then s else s.aonEnd c o o.data true lam
        else s1.phase c o 0 0 o.data
  | _ => s

/-- TLD and TST: their turn among the tenant's operations, then their checks (R234, R236). A TLD.AON whose limit has passed in the operand log
completes when it is asked again (R239). -/
def tileCheck (s : State) (c : Nat) (o : Op) (x : TileMemA) (store : Bool) : State :=
  if x.aon && !store && o.limit.any (· < s.now c) then s.aonEnd c o o.data false (s.now c)
  else match (s.core c).turn (s.opWho c o).ctx (s.now c) o.id (opSets (s.core c) o) with
  | .soon => s.postQ c (s.now c) (.accessCheckComplete c o.id)
  | .later => s.askAgain c o
  | .go =>
    s.demand c o ⟨store, false, none⟩ fun s xs =>
      if !x.aon then s.tileGo c o xs else if store then s.tstAon c o x.scope xs else s.tldAon c o xs

end State

/-- AON_LIMIT_EXPIRY (R239): a TLD.AON that has not succeeded completes with status 0. -/
def execAonLimitExpiry (c id : Nat) (s : State) : Host.Outcome State Fault Refusal :=
  match s.op? c id with
  | none => .refused (.notEnabled "AON_LIMIT_EXPIRY")
  | some o =>
    if (o.stage = .check ∨ o.stage = .lent) ∧ o.limit.any (· ≤ s.now c) then .next (s.aonEnd c o o.data false (s.now c))
    else .refused (.notEnabled "AON_LIMIT_EXPIRY")

/-- TILE_OP_COMPLETE (R234, R250, R251): an operation of the tile file is complete, and its flag is set. -/
def execTileOpComplete (c id : Nat) (s : State) : Host.Outcome State Fault Refusal :=
  match s.op? c id with
  | none => .refused (.notEnabled "TILE_OP_COMPLETE")
  | some o =>
    if o.stage ≠ .home then .refused (.notEnabled "TILE_OP_COMPLETE")
    else
      let now := s.now c
      let s := (s.dropOp c id).modGroup c o.slot fun G =>
        G.land { id := id, due := now, ws := [], setf := o.setf, flagSince := now, claims := [] }
      .next (s.tryEndGroup c o.slot)

/-! ## TZERO, TMOV, TXP (R251) -/

/-- Element (i, j) of a tile as its code. -/
def Tile.code (t : Tile) (x : TCfg) (i j : Nat) : Nat :=
  let bit := j * x.e
  let a := i * x.rb + bit / 8
  leNat (t.bytesAt [a, a + 1]) / 2 ^ (bit % 8) % 2 ^ x.e

/-- The bytes of a transposed tile of configuration `y`, from a tile of configuration `x`. -/
def transposed (t : Tile) (x y : TCfg) : List Byte :=
  (List.range y.r).flatMap fun i => (List.range y.rb).map fun b =>
    let per := 8 / x.e
    if x.e ≥ 8 then
      let j := b * 8 / x.e
      BitVec.ofNat 8 (t.code x j i / 2 ^ (b * 8 % x.e))
    else BitVec.ofNat 8 ((List.range per).foldl (fun a q => a + t.code x (b * per + q) i * 2 ^ (q * x.e)) 0)

/-- The work of TZERO, TMOV and TXP once their turn has come. A TMOV of a tile to itself has no effect beyond its ordering. -/
def State.tileWork (s : State) (c : Nat) (o : Op) : State :=
  match (s.core c).turn (s.opWho c o).ctx (s.now c) o.id (opSets (s.core c) o) with
  | .soon => s.postQ c (s.now c) (.accessCheckComplete c o.id)
  | .later => s.askAgain c o
  | .go =>
    let ctx := (s.opWho c o).ctx
    let k := s.core c
    let d := (o.args.headD 0).toNat
    let a := ((o.args[1]?).getD 0).toNat
    let x := tcfg (k.tile a).cfg
    let y := tcfg (k.tile d).cfg
    match o.ins with
    | .tzero _ => (s.modCore c fun k => k.modTile d fun t => { t with data := [], ue := [] }).tileDone c o (s.now c + 2 + (y.size + 255) / 256)
    | .tmov _ =>
      let lam := s.now c + 2 + (x.size + 255) / 256
      if a = d then s.tileDone c o lam
      else
        let ps := List.range x.size
        let (bs, s) := s.readTile c ctx a ps
        (s.modCore c fun k => k.modTile d fun t => t.put ps bs).tileDone c o lam
    | _ =>
      ((s.noteTile c ctx a (List.range x.size)).modCore c fun k => k.modTile d fun t => t.put (List.range y.size) (transposed (k.tile a) x y)).tileDone c o
        (s.now c + 4 + (x.size + 127) / 128)

namespace Iss

/-- A tile-file operation issued: `bad` says what besides the tiles makes it TILE_CFG. -/
def tileOp (I : Iss) (ins : Instr) (ts : List Nat) (bad : Bool) (charge : Nat) : Res :=
  let e : Eff := { comp := .later false, unit := .acc, charge := charge }
  if !I.qok then I.ok { e with comp := .flag I.t }
  else if ts.any (fun n => (I.tileFault n).isSome) || bad then .stop (I.scalar .tileCfg)
  else
    let o : Op := { I.op ins [] with args := ts.map fun n => BitVec.ofNat 32 (I.phys n), stage := .waiting }
    .done ((I.s.addOp I.c o).postQ I.c I.t (.accessCheckComplete I.c I.id)) e

/-- The configuration of a tile number. -/
def cfgOf (I : Iss) (n : Nat) : TCfg := tcfg ((I.s.core I.c).tile (I.phys n)).cfg

end Iss

/-- TLD (R250). -/
def execTld (x : TileMemA) (s : State) : Host.Outcome State Fault Refusal :=
  issue x.h { reads := [x.b], all := true, sr := [(x.a.val, 3)] } s fun I => I.tileMem (.tld x) x false

/-- TST (R250). -/
def execTst (x : TileMemA) (s : State) : Host.Outcome State Fault Refusal :=
  issue x.h { reads := [x.b], all := true, sr := [(x.a.val, 3)] } s fun I => I.tileMem (.tst x) x true

/-- TZERO (R251). -/
def execTzero (x : TileA) (s : State) : Host.Outcome State Fault Refusal :=
  issue x.h {} s fun I => I.tileOp (.tzero x) [x.d] false (4 + ((I.cfgOf x.d).size + 255) / 256)

/-- TMOV (R251). -/
def execTmov (x : TileA) (s : State) : Host.Outcome State Fault Refusal :=
  issue x.h {} s fun I =>
    I.tileOp (.tmov x) [x.d, x.a] (I.cfgOf x.d != I.cfgOf x.a) (4 + ((I.cfgOf x.a).size + 255) / 256)

/-- TXP (R251). -/
def execTxp (x : TileA) (s : State) : Host.Outcome State Fault Refusal :=
  issue x.h {} s fun I =>
    let d := I.cfgOf x.d
    let a := I.cfgOf x.a
    I.tileOp (.txp x) [x.d, x.a] (x.d == x.a || d.fmt != a.fmt || d.r != a.c || d.c != a.r || a.fmt == 7) (4 + (a.size + 255) / 256)

end Sys2Proof.Machine
end

