-- ==== Sys2Proof/Machine/Task.lean ====
section
/-! DEFINITION. Matrix tasks (chapters 4 and 11): the record and its checks (R240 to R243), acceptance, start and completion
(R243 to R245), the sums in the order the array forms them (R93 to R97), the brims (R246) and the self-test (R247). -/

namespace Sys2Proof.Machine

open Sys2Proof

/-! ## Task records (R240 to R242) -/

/-- A task record as read. -/
structure TRec where
  op : TaskOp
  ta : Bool
  tb : Bool
  acc : Bool
  bank : Nat
  tai : Nat
  tbi : Nat
  m : Nat
  n : Nat
  kk : Nat
  kofs : Nat
  arow : Nat
  bcol : Nat
  flag : Option (Fin 12)
  cword : Option (Nat × Word)
  deriving DecidableEq, Repr

/-- The operation of a code of Table 6. -/
def taskOpOf : Nat → Option TaskOp
  | 0 => some .bf16 | 1 => some .f16 | 2 => some .f8 | 3 => some .i8 | 4 => some .i8i4 | 5 => some .i4i8 | 6 => some .i4
  | 7 => some .bfp | _ => none

/-- A record with the fields of its shape word. -/
def TRec.shaped (r : TRec) (w : Word) : TRec :=
  { r with m := (w.extractLsb' 0 5).toNat + 1, n := (w.extractLsb' 5 6).toNat + 1, kk := (w.extractLsb' 11 8).toNat + 1,
           kofs := (w.extractLsb' 19 8).toNat }

/-- A record of 16 words (Table 5); none when a reserved bit is set or a code is reserved. -/
def readRecord (ws : List Word) : Option TRec :=
  let w (i : Nat) : Word := ws[i]?.getD 0
  let f := (w 0).extractLsb' 10 4
  let rest := (List.range 11).all fun i => w (5 + i) == 0
  if w 0 &&& 0xE000C080 != 0 || w 1 &&& 0x00800000 != 0 || w 2 >>> 11 != 0 || !rest then none
  else match taskOpOf ((w 0).extractLsb' 0 4).toNat, (if h : f.toNat < 12 then some (Fin.mk f.toNat h) else none) with
    | some op, some flag =>
      let r : TRec := ⟨op, (w 0).getLsbD 4, (w 0).getLsbD 5, (w 0).getLsbD 6, ((w 0).extractLsb' 24 5).toNat,
        ((w 0).extractLsb' 16 4).toNat, ((w 0).extractLsb' 20 4).toNat, 0, 0, 0, 0, ((w 1).extractLsb' 16 7).toNat,
        ((w 1).extractLsb' 24 8).toNat, if (w 0).getLsbD 8 then some flag else none,
        if (w 0).getLsbD 9 then some ((w 3).toNat, w 4) else none⟩
      some (r.shaped (((w 2).extractLsb' 0 11).zeroExtend 32 <<< 16 ||| ((w 1).extractLsb' 0 16).zeroExtend 32))
    | _, _ => none

/-- The formats an operation takes of its A and its B tile (Table 6). -/
def TaskOp.takes (op : TaskOp) (a b : Nat) : Bool :=
  match op with
  | .bf16 => a == 1 && b == 1
  | .f16 => a == 2 && b == 2
  | .f8 => (a == 3 || a == 4) && (b == 3 || b == 4)
  | .i8 => a == 5 && b == 5
  | .i8i4 => a == 5 && b == 6
  | .i4i8 => a == 6 && b == 5
  | .i4 => a == 6 && b == 6
  | .bfp => a == 7 && b == 7

/-- Whether an operation leaves int32 words in its bank. -/
def TaskOp.isInt : TaskOp → Bool
  | .bf16 | .f16 | .f8 => false
  | _ => true

/-- The array cycles of a row pass (Table 6); `wb` is the width of the B tile's elements. -/
def TaskOp.cycles (op : TaskOp) (k wb : Nat) : Nat :=
  match op with
  | .bf16 | .f16 => k
  | .f8 | .i8 | .i4i8 => (k + 1) / 2
  | .i8i4 | .i4 => (k + 3) / 4
  | .bfp => wb

/-- The rows and columns of a tile that a task needs, its indices exchanged when `t`: whether `i0 + i` rows and `j0 + j` columns lie
inside it (R242). -/
def TCfg.covers (x : TCfg) (t : Bool) (i j : Nat) : Bool := if t then j ≤ x.r && i ≤ x.c else i ≤ x.r && j ≤ x.c

namespace Core

/-- The cause for which a record is not accepted (R240 to R243). -/
def taskFault (k : Core) (ctx crew size : Nat) (r : TRec) : Option Cause :=
  let cfg (n : Nat) : TCfg := tcfg (k.tile ((k.tileOf ctx n).getD 0)).cfg
  let a := cfg r.tai
  let b := cfg r.tbi
  let word := match r.cword with
    | some (o, _) => o % 4 == 0 && o + 4 ≤ size
    | none => true
  if (k.tileFault ctx crew r.tai).isSome || (k.tileFault ctx crew r.tbi).isSome || !word || !TaskOp.takes r.op a.fmt b.fmt ||
      !a.covers r.ta (r.arow + r.m) (r.kofs + r.kk) || !b.covers r.tb (r.kofs + r.kk) (r.bcol + r.n) ||
      (r.op == .bfp && (r.kk != 16 || r.kofs % 16 != 0 || r.ta || !r.tb)) then
    some .tileCfg
  else k.bankFault ctx crew r.bank

/-- The array cycles of a record's row pass. -/
def recCycles (k : Core) (ctx : Nat) (r : TRec) : Nat :=
  TaskOp.cycles r.op r.kk (tcfg (k.tile ((k.tileOf ctx r.tbi).getD 0)).cfg).e

/-- The charge of a task (chapter 16, Table 5). -/
def taskCharge (k : Core) (ctx : Nat) (r : TRec) : Nat := (r.m * r.n * k.recCycles ctx r + 63) / 64

/-- The entries of a tenant's window in use, those that an MTASKM has claimed among them (R243, R253). -/
def windowUse (k : Core) (ctx : Nat) (mine : Op → Bool) : Nat :=
  ((k.tenant? ctx).map fun t => t.window.length).getD 0 +
    ((k.ops.filter mine).map fun o => match o.ins with
      | .mtaskm _ => ((o.args[1]?).getD 0).toNat - o.firstRead.getD 0
      | _ => 0).foldl (· + ·) 0

/-- The unfenced strips of an engine: strips 0 to 3 are engine 0's, 4 to 7 engine 1's. -/
def strips (k : Core) (e : Nat) : List Nat := ((List.range 4).map (4 * e + ·)).filter fun i => !k.mx.fenced.getLsbD i

/-- An engine of a core. -/
def engine (k : Core) (e : Nat) : MEngine := k.mx.engines[e]?.getD ⟨0, 0, []⟩

/-- A core with an engine changed. -/
def modEngine (k : Core) (e : Nat) (f : MEngine → MEngine) : Core :=
  { k with mx := { k.mx with engines := k.mx.engines.setIfInBounds e (f (k.engine e)) } }

end Core

namespace State

/-- A task accepted with a number (R243, R245): it enters the tenant's window, its flag is claimed, and it may start from now on. -/
def acceptTask (s : State) (c : Nat) (ctx crew slot id : Nat) (r : TRec) : State :=
  let k := s.core c
  let t : Task :=
    { id := id, slot := slot, crew := crew, op := r.op, ta := r.ta, tb := r.tb, acc := r.acc, bank := (k.bankOf ctx r.bank).getD 0,
      tai := (k.tileOf ctx r.tai).getD 0, tbi := (k.tileOf ctx r.tbi).getD 0, m := r.m, n := r.n, kk := r.kk, kofs := r.kofs,
      arow := r.arow, bcol := r.bcol, flag := r.flag, cword := r.cword, engine := 0, ends := none, cancelled := false }
  ((s.setCore c (k.modTenant ctx fun x => { x with window := x.window ++ [t] })).modGroup c slot fun G =>
    G.claimFlag r.flag id).postQ c (s.now c) (.taskStart c id)

end State

/-- Whether an operation of a core is a context's. -/
def State.sameCtx (s : State) (c ctx : Nat) (o : Op) : Bool := (s.opWho c o).ctx == ctx

/-! ## MTASK -/

/-- The record that an MTASK stands for. -/
def MtaskA.record (x : MtaskA) (shape : Word) : TRec :=
  TRec.shaped ⟨x.op, x.ta, x.tb, x.acc, x.d.val, x.a.val, x.b.val, 0, 0, 0, 0, 0, 0, x.h.setf, none⟩ shape

/-- MTASK (R252). Whether one whose record fails while the window is full faults at once or after its hold the spec does not say: it faults at
once (assumption 130). -/
def execMtask (x : MtaskA) (s : State) : Host.Outcome State Fault Refusal :=
  issue x.h { reads := [x.shape], all := true } s fun I =>
    let k := I.s.core I.c
    let w := I.sval false x.shape
    let r := MtaskA.record x w.val
    if !I.qok then I.ok { comp := .flag I.t, unit := .acc, charge := k.taskCharge I.G.ctx r }
    else if w.k then .stop I.kAll
    else if w.val >>> 27 != 0 then .stop (I.scalar .tileCfg)
    else match k.taskFault I.G.ctx I.G.crew ((I.crew.map (·.size)).getD 0) r with
      | some c => .stop (I.scalar c)
      | none =>
        if k.windowUse I.G.ctx (I.s.sameCtx I.c I.G.ctx) ≥ 16 then .hold I.s
        else .done (I.s.acceptTask I.c I.G.ctx I.G.crew I.g I.id r) { comp := .later false, unit := .acc, charge := k.taskCharge I.G.ctx r }

/-! ## MTASKM (R253) -/

/-- Own-scratchpad pointer. -/
def ownPtr (off : Nat) : Ptr := BitVec.ofNat 96 (2 ^ 80 + off % 2 ^ 80)

/-- The causes of the operands of an MTASKM: an offset, a count, which of them is marked, and the size of the crew's allocation. A marked
operand raises K_CONSUME and nothing else (R171, R243). -/
def taskmCauses (off n : Nat) (ka kb : Bool) (size : Nat) : List Cause :=
  (if ka || kb then [.kConsume] else []) ++ (if !ka && off % 64 != 0 then [.align] else []) ++
    (if !ka && !kb && off + 64 * n > size then [.prot] else []) ++ (if !kb && (n = 0 || n > 16) then [.tileCfg] else [])

/-- The words of a record among bytes. -/
def recordWords (bs : List Byte) (i : Nat) : List Word :=
  (List.range 16).map fun j => BitVec.ofNat 32 (leNat ((bs.drop (64 * i + 4 * j)).take 4))

namespace State

/-- An operation whose exception is taken after its issue: it goes into the operand log, and runs again from it (R144). -/
def opFault (s : State) (c : Nat) (o : Op) (r : Report) : State :=
  let s := s.modOp c o.id fun o => { o with stage := .logged }
  if r.cause.serviced then s.takeServiced c o.slot r else s.takeStop c o.slot r

/-- The cause for which record `i` of an MTASKM fails. A record with an uncorrectable word is not read as a record: it is consumed where no
other one fails (R266). -/
def recordFault (s : State) (c : Nat) (w : Who) (m : Crew) (off : Nat) (bs : List Byte) (i : Nat) : Option Cause :=
  if (List.range 16).any fun j => m.spill.contains ((off + 64 * i) / 4 + j) then some .kConsume
  else if m.ueIn (off + 64 * i) 64 then none
  else match readRecord (recordWords bs i) with
    | none => some .tileCfg
    | some r => (s.core c).taskFault w.ctx w.crew m.size r

/-- The charge of the records of an MTASKM, as they stand in the scratchpad (chapter 16, Table 5). -/
def taskmCharge (s : State) (c : Nat) (w : Who) (off n : Nat) : Nat :=
  match s.crew? w.ctx w.crew with
  | none => 0
  | some m =>
    if off + 64 * n > m.size then 0
    else
      let bs := m.scratch.readBytes off (64 * n)
      ((List.range n).map fun i => match readRecord (recordWords bs i) with
        | some r => (s.core c).taskCharge w.ctx r
        | none => 0).foldl (· + ·) 0

/-- An MTASKM at work: its records are read in the order of R152 and checked, then accepted in consecutive cycles. A record whose bank an
ACFREE has given up since its check is not accepted (R257): the records accepted before it stay, and it issues again from that one. -/
def taskmWork (s : State) (c : Nat) (o : Op) : State :=
  let w := s.opWho c o
  let off := (o.args.headD 0).toNat
  let n := ((o.args[1]?).getD 0).toNat
  match s.crew? w.ctx w.crew with
  | none => s
  | some m =>
    if o.stage = .waiting then
      let i := o.firstRead.getD 0
      let past := ((o.args[2]?).getD 0).toNat
      match readRecord (recordWords o.data i) with
      | none => s.askAgain c o
      | some r => match (s.core c).bankFault w.ctx w.crew r.bank with
      | some k =>
        (s.modOp c o.id fun o => { o with args := [BitVec.ofNat 32 (off + 64 * i), BitVec.ofNat 32 (n - i), BitVec.ofNat 32 (past + i)], firstRead := none }).opFault c o
          { cause := k, detail := BitVec.ofNat 8 (past + i), scalar := true, pc := o.pc, ptr := ownPtr (off + 64 * i) }
      | none =>
      let s := s.acceptTask c w.ctx w.crew o.slot (o.id + 1 + past + i) r
      if i + 1 ≥ n then s.finishOp c o [] (s.now c)
      else (s.modOp c o.id fun o => { o with firstRead := some (i + 1) }).askAgain c o
    else
      let a : Acc := { lane := 0, ptr := ownPtr off, nbytes := 64 * n, data := 0, cmp := 0, mark := false, lim := none, start := o.t, res := 0, km := 0,
                       arr := none, dlv := false, direct := false, cause := none }
      match worst ((taskmCauses off n false false m.size).map fun k => (0, k)) with
      | some k => s.opFault c o { cause := k, scalar := true, pc := o.pc, ptr := ownPtr off }
      | none =>
        if s.laneWaits w o (s.olderOps c o) a then s.askAgain c o
        else
          let past := ((o.args[2]?).getD 0).toNat
          let bs := m.scratch.readBytes off (64 * n)
          match (List.range n).findSome? fun i => (s.recordFault c w m off bs i).map fun k => (i, k) with
          | some (i, k) =>
            s.opFault c o { cause := k, detail := BitVec.ofNat 8 (past + i), scalar := true, pc := o.pc, ptr := ownPtr (off + 64 * i) }
          | none =>
            if m.ueIn off (64 * n) then s.consume w.ctx w.crew .ueData
            else (s.modOp c o.id fun o => { o with stage := .waiting, data := bs, firstRead := some 0 }).postQ c (max (s.now c + 1) (o.t + 15))
              (.accessCheckComplete c o.id)

/-- `n` numbers drawn. -/
def skipIds (s : State) (n : Nat) : State := s.modSch fun h => { h with ids := h.ids + n }

end State

/-- MTASKM (R253). It is charged at its issue for its records as they stand then (assumption 129). R243 has its causes stop the group, and PROT
among them is one that Table 12 services with a core stall: it is serviced (assumption 129). -/
def execMtaskm (x : MtaskmA) (s : State) : Host.Outcome State Fault Refusal :=
  issue x.h { reads := [x.a, x.b], all := true } s fun I =>
    let a := I.sval true x.a
    let b := I.sval true x.b
    let e : Eff := { comp := .later false, unit := .acc, charge := I.s.taskmCharge I.c I.who a.val.toNat (min 16 b.val.toNat) }
    let o : Op := { I.op (.mtaskm x) [] with args := [a.val, b.val] }
    if !I.qok then I.ok { e with comp := .flag I.t }
    else match worst ((taskmCauses a.val.toNat b.val.toNat a.k b.k ((I.crew.map (·.size)).getD 0)).map fun k => (0, k)) with
      | some .kConsume => .stop I.kAll
      | some k =>
        let r := I.scalar k (ownPtr a.val.toNat)
        if k.serviced then
          .done ((I.s.skipIds (min 16 b.val.toNat)).addOp I.c { o with stage := .logged }) { e with serviced := some r }
        else .stop r
      | none =>
        if (I.s.core I.c).windowUse I.G.ctx (I.s.sameCtx I.c I.G.ctx) + b.val.toNat > 16 then .hold I.s
        else .done (((I.s.skipIds b.val.toNat).addOp I.c o).postQ I.c (I.t + 1) (.accessCheckComplete I.c I.id)) e

/-! ## Operands of a task -/

/-- A format of a floating-point tile. -/
def tileFp : Nat → FpF
  | 1 => .bf16 | 2 => .f16 | 3 => .e4 | _ => .e5

/-- Whether element (i, j) of a tile lies in a word with an uncorrectable error, which then reads as zeros (R233). -/
def Tile.ueElem (t : Tile) (x : TCfg) (i j : Nat) : Bool :=
  let a := i * x.rb * 8 + j * x.e
  t.ue.contains (a / 32) || t.ue.contains ((a + x.e - 1) / 32)

/-- Element (i, j) of a tile as a floating-point value. -/
def Tile.fp (t : Tile) (x : TCfg) (i j : Nat) : FVal := if t.ueElem x i j then .fin false 0 0 else (tileFp x.fmt).val (t.code x i j)

/-- Element (i, j) of a tile as an integer or a mantissa, and whether a reserved code or a poisoned block was read (R87, R89). -/
def Tile.int (t : Tile) (x : TCfg) (i j : Nat) : Int × Bool :=
  if t.ueElem x i j then (0, false)
  else
    let code := t.code x i j
    if x.fmt = 5 then ((BitVec.ofNat 8 code).toInt, false)
    else if x.fmt = 6 then readMant 4 code
    else if (t.bytesAt [x.r * x.rb + i * x.eb + j / 16]).headD 0 = 255 then (0, true)
    else readMant x.e code

/-- The places of a tile that the elements of an operand lie at, their exponents among them. -/
def TCfg.operandPlaces (x : TCfg) (is js : List Nat) : List Nat :=
  is.flatMap fun i => js.flatMap fun j =>
    let a := i * x.rb * 8 + j * x.e
    [a / 8, (a + x.e - 1) / 8] ++ (if x.fmt = 7 then [x.r * x.rb + i * x.eb + j / 16] else [])

/-- An operand of a task: the rows over k of its A, or the columns over k of its B. `f` reads an element; `exch` exchanges row and
column. -/
def operand {α : Type} (f : Nat → Nat → α) (exch : Bool) (first n kofs k : Nat) : List (List α) :=
  (List.range n).map fun i => (List.range k).map fun q => if exch then f (kofs + q) (first + i) else f (first + i) (kofs + q)

/-! ## Sums (R93 to R97, R246) -/

/-- One step: the exact sum of the products added to the accumulator, rounded once (R93, R95). -/
def fpStep (acc : Word) (ps : List (FVal × FVal)) (pad : Bool) : Word :=
  toF32 .rne false (FVal.sum .rne (f32 acc :: (ps.map fun p => p.1.mul p.2) ++ (if pad then [.fin false 0 0] else [])))

/-- An element in steps of `n` products, in ascending order; products beyond K count as +0 (R93, R94). -/
def fpDot (n : Nat) (acc : Word) (a b : List FVal) : Word :=
  let ps := a.zip b
  (List.range ((ps.length + n - 1) / max 1 n)).foldl (fun acc i =>
    let q := (ps.drop (n * i)).take n
    fpStep acc q (q.length < n)) acc

/-- An integer element (R96, R97): the exact sum modulo 2^32. -/
def intDot (acc : Word) (a b : List Int) : Word := acc + BitVec.ofInt 32 ((a.zip b).foldl (fun x p => x + p.1 * p.2) 0)

/-- Exact sums over the rows of an operand, one for each k. -/
def fpSums (rows : List (List FVal)) (k : Nat) : List FVal :=
  (List.range k).map fun q => FVal.sum .rne (rows.map fun r => r[q]?.getD (.fin false 0 0))

/-- Exact integer sums over the rows of an operand, one for each k. -/
def intSums (rows : List (List Int)) (k : Nat) : List Int :=
  (List.range k).map fun q => (rows.map fun r => r[q]?.getD 0).foldl (· + ·) 0

/-- What a task computes: its words by row and column, its brims, and whether a reserved code was read. -/
structure Product where
  words : List (List Word)
  brimRow : List Word
  brimCol : List Word
  n8 : Bool
  deriving DecidableEq, Repr

/-- A word of a bank. -/
def Bank.at (b : Bank) (i j : Nat) : Word := ((b.data[i]?).bind fun r => r[j]?).getD 0

/-- Row `r` of a bank, the words outside the first `n` left out. -/
def Bank.row (b : Bank) (i n : Nat) : List Word := (List.range n).map (b.at i)

/-- The brim cells a task starts from: zero, or the bank's when it accumulates in the bank's kind and rectangle (R246, R260). -/
def Task.keeps (t : Task) (b : Bank) : Bool := t.acc && b.isInt == TaskOp.isInt t.op && b.rect == .rect t.m t.n

/-- The sums of a task. -/
def Task.product (t : Task) (A B : Tile) (bank : Bank) : Product :=
  let x := tcfg A.cfg
  let y := tcfg B.cfg
  let old (i j : Nat) : Word := if t.acc then bank.at i j else 0
  let keep := t.keeps bank
  let r0 (i : Nat) : Word := if keep then bank.brimRow[i]?.getD 0 else 0
  let c0 (j : Nat) : Word := if keep then bank.brimCol[j]?.getD 0 else 0
  if TaskOp.isInt t.op then
    let a := operand (A.int x) t.ta t.arow t.m t.kofs t.kk
    let b := operand (B.int y) (!t.tb) t.bcol t.n t.kofs t.kk
    let av := a.map fun r => r.map (·.1)
    let bv := b.map fun r => r.map (·.1)
    let sa := intSums av t.kk
    let sb := intSums bv t.kk
    ⟨av.zipIdx.map fun (r, i) => bv.zipIdx.map fun (q, j) => intDot (old i j) r q, av.zipIdx.map fun (r, i) => intDot (r0 i) r sb,
      bv.zipIdx.map fun (q, j) => intDot (c0 j) sa q, (a ++ b).any fun r => r.any (·.2)⟩
  else
    let n := if t.op = .f8 then 16 else 8
    let a := operand (A.fp x) t.ta t.arow t.m t.kofs t.kk
    let b := operand (B.fp y) (!t.tb) t.bcol t.n t.kofs t.kk
    let sa := fpSums a t.kk
    let sb := fpSums b t.kk
    ⟨a.zipIdx.map fun (r, i) => b.zipIdx.map fun (q, j) => fpDot n (old i j) r q, a.zipIdx.map fun (r, i) => fpDot n (r0 i) r sb,
      b.zipIdx.map fun (q, j) => fpDot n (c0 j) sa q, false⟩

/-- A bank after a task (R242, R260). -/
def Bank.after (b : Bank) (t : Task) (p : Product) : Bank :=
  let hit (i j : Nat) : Option Word := (p.words[i]?).bind fun r => r[j]?
  { b with
    data := Vector.ofFn fun i => Vector.ofFn fun j => (hit i.val j.val).getD (b.at i.val j.val), isInt := TaskOp.isInt t.op, pend := true,
    rect := if !t.acc then .rect t.m t.n else if t.keeps b then b.rect else .void,
    brimRow := if t.acc && !t.keeps b then b.brimRow else Vector.ofFn fun i => p.brimRow[i.val]?.getD 0,
    brimCol := if t.acc && !t.keeps b then b.brimCol else Vector.ofFn fun j => p.brimCol[j.val]?.getD 0,
    ue := b.ue.filter fun u => (hit u.1 u.2).isNone }

/-! ## Start and completion (R243 to R245) -/

namespace Core

/-- The engine a task of a tenant could take in a cycle: the lowest of the tenant's that is free and has a strip left. -/
def freeEngine (k : Core) (ctx now : Nat) : Option Nat :=
  (k.engines ctx).find? fun e => (k.engine e).freeAt ≤ now && !(k.strips e).isEmpty

/-- Whether an accepted task could start in a cycle. -/
def canStart (k : Core) (ctx now : Nat) (t : Task) : Bool :=
  t.ends.isNone && (k.freeEngine ctx now).isSome && k.turn ctx now t.id t.sets == .go

/-- The tenant in whose window a task stands, and the task. -/
def task? (k : Core) (id : Nat) : Option (Nat × Task) :=
  k.mx.tenants.findSome? fun x => (x.window.find? fun t => t.id == id).map fun t => (x.ctx, t)

end Core

namespace State

/-- A task starts on an engine (R228, R244, R247). -/
def startTask (s : State) (c ctx : Nat) (t : Task) (e : Nat) : State :=
  let k := s.core c
  let now := s.now c
  let rows := 8 * (k.strips e).length
  let busy := now + (t.m + rows - 1) / max 1 rows * TaskOp.cycles t.op t.kk (tcfg (k.tile t.tbi).cfg).e
  let sti := ((k.tenant? ctx).map fun x => x.sti.toNat).getD 4
  let test := (k.engine e).count + 1 ≥ 2 ^ (sti + 4)
  let k := k.modEngine e fun x =>
    if test then { freeAt := busy + 24, count := 0, tests := x.tests ++ [false] } else { x with freeAt := busy, count := x.count + 1 }
  let k := k.modTenant ctx fun x =>
    { x with window := x.window.map fun w => if w.id = t.id then { w with engine := e, ends := some (busy + 70) } else w }
  let s := (s.setCore c k).postQ c (busy + 71) (.taskComplete c t.id)
  if test then s.postQ c (busy + 23) (.engineSelfTest c e) else s

end State

namespace Core

/-- Strips with a lasting fault fenced on the engines that are free, so before their next task; the tenants they serve see it
(R228, R247). -/
def fenceDue (k : Core) (now : Nat) : Core :=
  let due : BitVec 8 := maskOf 8 fun i => k.mx.stripPend.getLsbD i && (k.engine (i / 4)).freeAt ≤ now
  let seen (t : Tenant) : Bool := (k.engines t.ctx).any fun e => (List.range 4).any fun j => due.getLsbD (4 * e + j)
  { k with mx := { k.mx with fenced := k.mx.fenced ||| due, stripPend := k.mx.stripPend &&& ~~~due,
                             tenants := k.mx.tenants.map fun t => if seen t then t.stick 5 else t } }

/-- Whether every engine that serves some tenant has lost all its strips (R228, R348). -/
def armless (k : Core) : Bool :=
  let none' (es : List Nat) : Bool := es.all fun e => (k.strips e).isEmpty
  none' [0, 1] || k.mx.tenants.any fun t => none' (k.engines t.ctx)

end Core

/-- Pending strip fences of a core applied; a core without strips for a tenant is lost (R348). -/
def State.fenceStrips (s : State) (c : Nat) : State :=
  let k := (s.core c).fenceDue (s.now c)
  let s := s.setCore c k
  if k.enabled && k.armless then s.postNow (.coreLoss c) else s

/-- TASK_START (R243): the oldest task of the tenant that can start does, on its lowest free engine; a task that cannot asks again in
the next cycle. -/
def execTaskStart (c id : Nat) (s : State) : Host.Outcome State Fault Refusal :=
  let now := s.now c
  match (s.core c).task? id with
  | none => .refused (.notEnabled "TASK_START")
  | some (ctx, t) =>
    if t.ends.isSome then .refused (.notEnabled "TASK_START")
    else
      let s := s.fenceStrips c
      let k := s.core c
      let w := ((k.tenant? ctx).map fun x => x.window).getD []
      match w.find? (k.canStart ctx now), k.freeEngine ctx now with
      | some u, some e =>
        let s := s.startTask c ctx u e
        .next (if u.id = id then s else s.postQ c now (.taskStart c id))
      | _, _ => .next (s.postQ c (if k.turn ctx now t.id t.sets == .soon then now else now + 1) (.taskStart c id))

namespace State

/-- What a task's completion signals (R245): its flag, and its completion word. -/
def taskSignal (s : State) (c ctx : Nat) (t : Task) : State :=
  let s := s.modGroup c t.slot fun G => if G.ctx = ctx ∧ G.crew = t.crew then G.raiseFlag t.flag t.id (s.now c) else G
  match t.cword with
  | some (o, v) => s.scratchWrite ctx t.crew o (leBytes 4 v.toNat)
  | none => s

end State

/-- TASK_COMPLETE (R244 to R246, R260): the bank, its brims and PEND, then the flag and the completion word. The bank of a crew that
has left it takes nothing (R249, R257); a reserved code that the array read is noted in the tenant's MSTAT all the same (R87). -/
def execTaskComplete (c id : Nat) (s : State) : Host.Outcome State Fault Refusal :=
  let k := s.core c
  match k.task? id with
  | none => .refused (.notEnabled "TASK_COMPLETE")
  | some (ctx, t) =>
    if t.ends.isNone then .refused (.notEnabled "TASK_COMPLETE")
    else
      let A := k.tile t.tai
      let B := k.tile t.tbi
      let b := k.bank t.bank
      let span (f n : Nat) : List Nat := (List.range n).map (f + ·)
      let ra := span t.arow t.m
      let rk := span t.kofs t.kk
      let cb := span t.bcol t.n
      let pa := if t.ta then (tcfg A.cfg).operandPlaces rk ra else (tcfg A.cfg).operandPlaces ra rk
      let pb := if t.tb then (tcfg B.cfg).operandPlaces cb rk else (tcfg B.cfg).operandPlaces rk cb
      let s := s.noteTile c ctx t.tai (if A.ue.isEmpty then [] else pa)
      let s := s.noteTile c ctx t.tbi (if B.ue.isEmpty then [] else pb)
      let k := (s.core c).modTenant ctx fun x => { x with window := x.window.filter fun w => w.id != id }
      let s := s.setCore c k
      let s := if t.engine = 1 then s.retryAll else s
      let p := t.product A B b
      let s := if p.n8 then s.modCore c fun k => k.modTenant ctx fun x => x.stick 0 else s
      if t.cancelled || b.owner != some (ctx, t.crew) then .next (if t.cancelled then s else s.taskSignal c ctx t)
      else if t.acc && b.ue.any (fun u => u.1 < t.m && u.2 < t.n) then .next (s.consume ctx t.crew .ueData)
      else .next ((s.modCore c fun k => k.modBank t.bank fun b => b.after t p).taskSignal c ctx t)

/-! ## Self-tests (R247, R276) -/

/-- One test counted for the tenant an engine serves, with its failures. -/
def Core.tallyTest (k : Core) (e : Nat) (failed : BitVec 8) : Core :=
  { k with mx := { k.mx with tenants := k.mx.tenants.map fun t =>
    if (k.engines t.ctx).contains e then
      let t := { t with mstat := { t.mstat with tests := sat32 (t.mstat.tests.toNat + 1) } }
      if failed = 0 then t else t.stick 4
    else t } }

/-- ENGINE_SELF_TEST (R247, R276): a test ends, in the last of its 24 cycles, so that a strip whose fault it makes lasting is fenced before the
engine's next task. The strips that failed it are a free value (nothing in the spec says which fail); each
counts one uncorrected event. A forced test that was the last of its MCHECK ends it. -/
def execEngineSelfTest (c e : Nat) (s : State) : Host.Outcome State Fault Refusal :=
  match (s.core c).engine e |>.tests with
  | [] => .refused (.notEnabled "ENGINE_SELF_TEST")
  | forced :: rest =>
    let (x, s) := s.freeBits
    let strips := (s.core c).strips e
    let failed : BitVec 8 := maskOf 8 fun i => strips.contains i && x.getLsbD i
    let s := s.modCore c fun k => (k.modEngine e fun m => { m with tests := rest }).tallyTest e failed
    let s := (bitsOf failed).foldl (fun s i => s.postNow (.errorEvent (.strip c (BitVec.ofNat 3 i).toFin) false none)) s
    if !forced then .next s
    else match (s.core c).mx.forced.find? fun f => f.todo.contains e with
      | none => .next s
      | some f =>
        let f' : Forced := { f with todo := f.todo.filter (· != e), failed := f.failed ||| failed }
        if f'.todo.isEmpty then
          let s := s.modCore c fun k => { k with mx := { k.mx with forced := k.mx.forced.filter fun g => g.op != f.op } }
          match s.op? c f.op with
          | some o => match o.ins with
            | .mcheck x => .next (s.finishOp c o (match x.d with
                | .s n => if n.val < 125 then [.sreg n.val ⟨f'.failed.zeroExtend 32, false⟩]
                  else [.xmask o.split (n.val - 125) (f'.failed.zeroExtend 32)]
                | _ => []) (s.now c))
            | _ => .next s
          | none => .next s
        else .next (s.modCore c fun k =>
          { k with mx := { k.mx with forced := k.mx.forced.map fun g => if g.op = f.op then f' else g } })

end Sys2Proof.Machine
end

