-- ==== Sys2Proof/Machine/Acc.lean ====
section
/-! DEFINITION. Accumulator banks (chapter 12): the brim check (R261 to R264), ACALLOC, ACFREE, ACBAND, ACDRAIN, ACLOAD, ACZERO, ACSCALE,
MSTAT and MCHECK. -/

namespace Sys2Proof.Machine

open Sys2Proof

/-! ## The brim check (R261 to R264) -/

/-- The exponent field of an FP32 word. -/
def expField (x : Word) : Nat := (x.extractLsb' 23 8).toNat

/-- One ulp of a finite FP32 word, in units of 2^−149 (R98). -/
def ulpUnits (x : Word) : Nat := 2 ^ (max 1 (expField x) - 1)

/-- A finite FP32 word in units of 2^−149. -/
def fpUnits (x : Word) : Int :=
  let m := (x.extractLsb' 0 23).toNat + (if expField x = 0 then 0 else 2 ^ 23)
  let k : Int := m * ulpUnits x
  if x.msb then -k else k

/-- Whether a sum and a brim cell differ beyond the tolerance (R261). -/
def brimFails (isInt : Bool) (ulps : Nat) (sum brim : Word) : Bool :=
  if isInt then sum != brim
  else expField sum != 255 && expField brim != 255 &&
    (fpUnits sum - fpUnits brim).natAbs > ulps * max (ulpUnits sum) (ulpUnits brim)

/-- The sum of some words of a kind: exact and rounded once, or modulo 2^32. -/
def sumWords (isInt : Bool) (xs : List Word) : Word :=
  if isInt then xs.foldl (· + ·) 0 else toF32 .rne false (FVal.sum .rne (xs.map f32))

namespace Bank

/-- Column `j` of the first `n` rows of a bank. -/
def col (b : Bank) (j n : Nat) : List Word := (List.range n).map fun i => b.at i j

/-- A bank with one word replaced. -/
def put (b : Bank) (i j : Nat) (w : Word) : Bank :=
  { b with data := b.data.setIfInBounds i ((b.data[i]?.getD (Vector.replicate 64 0)).setIfInBounds j w),
           ue := b.ue.filter (· != (i, j)) }

/-- A bank with the brims of its rectangle recomputed (R264). -/
def rebrim (b : Bank) : Bank :=
  match b.rect with
  | .void => b
  | .rect m n =>
    { b with
      brimRow := Vector.ofFn fun i => if i.val < m then sumWords b.isInt (b.row i.val n) else b.brimRow[i],
      brimCol := Vector.ofFn fun j => if j.val < n then sumWords b.isInt (b.col j.val m) else b.brimCol[j] }

end Bank

/-- What a check found: whether it ran, whether the bank can go on, whether it corrected, and the failing rows and columns. -/
structure Checked where
  bank : Bank
  ran : Bool
  good : Bool
  corrected : Bool
  rows : Nat
  cols : Nat
  deriving DecidableEq, Repr

/-- The check of a bank, and how its mismatches are settled (R261, R262). -/
def Bank.check (b : Bank) (ulps : Nat) : Checked :=
  match b.rect with
  | .void => ⟨{ b with pend := false }, false, true, false, 0, 0⟩
  | .rect m n =>
    let b := { b with pend := false }
    let rs := (List.range m).filter fun i => brimFails b.isInt ulps (sumWords b.isInt (b.row i n)) (b.brimRow[i]?.getD 0)
    let cs := (List.range n).filter fun j => brimFails b.isInt ulps (sumWords b.isInt (b.col j m)) (b.brimCol[j]?.getD 0)
    let r (b : Bank) (good fixed : Bool) : Checked := ⟨b, true, good, fixed, rs.length, cs.length⟩
    match rs, cs with
    | [], [] => r b true false
    | [i], [j] =>
      let brim := b.brimRow[i]?.getD 0
      let fixed := if b.isInt then b.at i j + (brim - sumWords true (b.row i n))
        else toF32 .rne false (FVal.sum .rne [f32 (b.at i j), f32 brim, (FVal.sum .rne ((b.row i n).map f32)).flip true])
      r (b.put i j fixed) true true
    | [i], [] => r { b with brimRow := b.brimRow.setIfInBounds i (sumWords b.isInt (b.row i n)) } true true
    | [], [j] => r { b with brimCol := b.brimCol.setIfInBounds j (sumWords b.isInt (b.col j m)) } true true
    | _, _ => r { b with bad := true } false false

/-- A tenant's counters after a check. -/
def Tenant.tally (t : Tenant) (x : Checked) : Tenant :=
  let up (w : Word) : Word := sat32 (w.toNat + 1)
  if !x.ran then ({ t with mstat := { t.mstat with voids := up t.mstat.voids } } : Tenant).stick 3
  else
    let t := { t with mstat := { t.mstat with checks := up t.mstat.checks } }
    if x.corrected then ({ t with mstat := { t.mstat with corr := up t.mstat.corr } } : Tenant).stick 2 else t

/-- The words of a bank that a check reads. -/
def Bank.checkUe (b : Bank) : Bool :=
  match b.rect with
  | .void => false
  | .rect m n => b.ue.any fun u => u.1 < m && u.2 < n

namespace State

/-- A check of a bank run for a crew: the state, what it found, and the cause that its crew consumes, if any (R262, R355). -/
def bankCheck (s : State) (c ctx p : Nat) : State × Checked × Option Cause :=
  let k := s.core c
  let b := k.bank p
  let x := b.check (((k.tenant? ctx).map fun t => t.ulps.toNat).getD 16)
  if b.checkUe then (s, x, some .ueData)
  else
    let s := s.setCore c ((k.modBank p fun _ => x.bank).modTenant ctx fun t => t.tally x)
    let s := if x.corrected then s.postNow (.errorEvent (.core c) true none) else s
    if x.good then (s, x, none) else (s.postNow (.errorEvent (.core c) false none), x, some .brimUe)

/-- The checks that come before an instruction's effect on some banks (R261, R263): BAD banks, then pending checks. `k` goes on with
the checks that ran. -/
def withChecks (s : State) (c : Nat) (o : Op) (banks : List Nat) (k : State → Nat → State) : State :=
  let w := s.opWho c o
  if banks.any fun p => ((s.core c).bank p).bad then s.consume w.ctx w.crew .brimUe
  else
    let (s, n, fault) := banks.foldl (fun (a : State × Nat × Option Cause) p =>
      if a.2.2.isSome || !((a.1.core c).bank p).pend then a
      else
        let (s, x, f) := a.1.bankCheck c w.ctx p
        (s, if x.ran then a.2.1 + 1 else a.2.1, f)) (s, 0, none)
    match fault with
    | some f => s.consume w.ctx w.crew f
    | none => k (if n = 0 then s else s.modOp c o.id fun o => { o with args := o.args ++ [1] }) n

/-- An operation of a bank has its effect and finishes in cycle `lam` with its writes. -/
def accDone (s : State) (c : Nat) (o : Op) (ws : List RegWrite) (lam : Nat) : State :=
  (s.modOp c o.id fun o => { o with stage := .performed, due := lam }).landAt c o.slot o.id o.setf ws lam

end State

/-! ## Operands -/

/-- The rows of a range word (R271). -/
def rangeRows (w : Word) : List Nat :=
  let f := (w.extractLsb' 0 5).toNat
  (List.range ((w.extractLsb' 8 5).toNat + 1)).map (f + ·) |>.filter (· < 32)

/-- The element of a lane in a window of width `wd`, inside the bank (R272). -/
def windowAt (win : Word) (wd lane : Nat) : Option (Nat × Nat) :=
  let i := (win.extractLsb' 0 5).toNat + lane / wd
  let j := (win.extractLsb' 8 6).toNat + lane % wd
  if i < 32 && j < 64 then some (i, j) else none

/-- The width of a window's code. -/
def windowWidth (w : Fin 4) : Nat := 16 * (w.val + 1)

namespace Iss

/-- A bank selector's number, and whether its register is marked (R256). -/
def bankSel (I : Iss) : BankSel → Nat × Bool
  | .a n => (n.val, false)
  | .s n => let e := I.sreg n.val; ((e.val.extractLsb' 0 5).toNat, e.k)

/-- The cause a bank number raises. -/
def bankFault (I : Iss) (n : Nat) : Option Cause := (I.s.core I.c).bankFault I.G.ctx I.G.crew n

/-- The physical bank of a number that raises no cause. -/
def physBank (I : Iss) (n : Nat) : Nat := ((I.s.core I.c).bankOf I.G.ctx n).getD 0

/-- A bank by the number its crew uses. -/
def bank (I : Iss) (n : Nat) : Bank := (I.s.core I.c).bank (I.physBank n)

/-- Whether the issuing group holds a row of a bank. -/
def holds (I : Iss) (n i : Nat) : Bool := (((I.bank n).rows[i]?).join) == some I.G.pos

/-- The bits of a mask of banks. -/
def maskBanks (w : Word) : List Nat := bitsOf w

/-- An accumulator instruction that acts for the group: a false q guard, then its marks (R267), then its own checks. -/
def accGroup (I : Iss) (marked : Bool) (cause : Option Cause) (go : Res) : Res :=
  if !I.qok then I.ok { comp := .flag (I.t + 1), unit := .acc, charge := 4 }
  else if marked then .stop I.kAll
  else match cause with
    | some c => .stop (I.scalar c)
    | none => go

/-- An operation on physical banks that waits for its turn from its issue cycle on. -/
def accOp (I : Iss) (ins : Instr) (args : List Word) (vargs : List VReg) (act : Lanes) (e : Eff) : Res :=
  let o : Op := { I.op ins [] with args := args, vargs := vargs, active := act, stage := .waiting }
  .done ((I.s.addOp I.c o).postQ I.c I.t (.accessCheckComplete I.c I.id)) e

/-- The effect of an accumulator instruction that writes no register. -/
def accEff (result : Bool) : Eff := { comp := .later result, unit := .acc, charge := 4 }

end Iss

/-- The register a bank selector reads. -/
def BankSel.regs : BankSel → List (Nat × Nat)
  | .a _ => []
  | .s n => [(n.val, 1)]

/-- A physical bank as an operation's argument. -/
def bankArg (p : Nat) : Word := BitVec.ofNat 32 p

/-! ## ACALLOC, ACFREE, ACBAND -/

/-- A bank as ACALLOC leaves it (R257). -/
def Bank.alloc (ctx crew pos : Nat) : Bank :=
  { Bank.reset with owner := some (ctx, crew), rows := Vector.replicate 32 (some pos) }

/-- An operation that takes effect at its issue and finishes in cycle `lam`. -/
def Iss.instant (I : Iss) (s : State) (ins : Instr) (args : List Word) (ws : List RegWrite) (lam : Nat) : Res :=
  let o : Op := { I.op ins [] with args := args, stage := .performed, due := lam }
  .done ((s.addOp I.c o).landAt I.c I.g I.id I.h.setf ws lam) (Iss.accEff (!ws.isEmpty))

/-- ACALLOC (R257, R270): the status is computed at issue, and the banks are the crew's from then on. -/
def execAcalloc (x : AcMaskA) (s : State) : Host.Outcome State Fault Refusal :=
  issue x.h { reads := [x.a], all := true } s fun I =>
    let a := I.sval true x.a
    let ns := Iss.maskBanks a.val
    let free (n : Nat) : Bool := match (I.s.core I.c).bankOf I.G.ctx n with
      | none => false
      | some p => ((I.s.core I.c).bank p).owner.isNone
    let good := ns.all free
    I.accGroup a.k none <|
      let ps := if good then ns.map I.physBank else []
      let s := ps.foldl (fun s p => s.modCore I.c fun k => k.modBank p fun _ => Bank.alloc I.G.ctx I.G.crew I.G.pos) I.s
      I.instant s (.acalloc x) (ps.map bankArg) (Iss.wstat x.d good) (I.t + 2)

/-- ACFREE (R257, R270): its banks count as not owned from the next cycle, and are freed once their hazards clear. -/
def execAcfree (x : AcMaskA) (s : State) : Host.Outcome State Fault Refusal :=
  issue x.h { reads := [x.a], all := true } s fun I =>
    let a := I.sval true x.a
    let ns := Iss.maskBanks a.val
    let live := (I.crew.map I.s.expected).getD []
    let mine (n : Nat) : Bool := (I.bankFault n).isNone &&
      (I.bank n).rows.toList.all fun r => match r with
        | some p => p == I.G.pos || !live.contains p
        | none => true
    let good := ns.all mine
    I.accGroup a.k none <|
      if !good || ns.isEmpty then I.instant I.s (.acfree x) [] (Iss.wstat x.d good) (I.t + 2)
      else
        let ps := ns.map I.physBank
        let s := ps.foldl (fun s p => s.modCore I.c fun k => k.modBank p fun b => { b with freeing := true }) I.s
        let I' : Iss := { I with s := s }
        I'.accOp (.acfree x) (ps.map bankArg) [] I.active (Iss.accEff x.d.isSome)

/-- The holder a target word names, the live groups of the crew standing at `live` (R271): `some none` leaves the rows unheld. -/
def bandTarget (live : List Nat) (pos : Nat) (w : Word) : Option (Option Nat) :=
  let t := (w.extractLsb' 0 5).toNat
  if t < 16 then (if live.contains t then some (some t) else none)
  else if t = 16 then some none
  else if t = 31 then some (some pos)
  else none

/-- ACBAND (R271). -/
def execAcband (x : AcBandA) (s : State) : Host.Outcome State Fault Refusal :=
  issue x.h { reads := [x.a, x.b], all := true, sr := BankSel.regs x.d } s fun I =>
    let (n, k) := I.bankSel x.d
    let a := I.sval true x.a
    let b := I.sval true x.b
    let rows := rangeRows a.val
    let free (i : Nat) : Bool := ((I.bank n).rows[i]?).join.isNone || I.holds n i
    let target := bandTarget ((I.crew.map I.s.expected).getD []) I.G.pos b.val
    let cause := match I.bankFault n with
      | some c => some c
      | none => if rows.all free && target.isSome then none else some .acmBand
    I.accGroup (k || a.k || b.k) cause <|
      let set (b : Bank) : Bank := { b with rows := rows.foldl (fun v i => v.setIfInBounds i (target.getD none)) b.rows }
      I.instant (I.s.modCore I.c fun q => q.modBank (I.physBank n) set) (.acband x) [] [] (I.t + 2)

/-! ## ACDRAIN, ACLOAD, ACZERO, ACSCALE -/

namespace Iss

/-- ACDRAIN and ACLOAD issued: the lanes whose element lies in the bank, the marks, the bank and the bands (R256 to R258, R272). With no such
lane nothing is read; else an uncorrectable register of theirs ranks last (R266, R267). -/
def accMove (I : Iss) (ins : Instr) (x : AcMoveA) (load : Bool) : Res :=
  let (n, bk) := I.bankSel x.bank
  let win := I.sval true x.win
  let wd := windowWidth x.w
  let act : Lanes := maskOf 96 fun l => I.active.getLsbD l && (windowAt win.val wd l).isSome
  let e : Eff := { comp := .later (!load), occ := I.P, unit := .vec, charge := 4 * I.P }
  let src := if load then I.vsrc false x.r else VReg.zero
  let marked := src.marks &&& act
  let unheld : Lanes := maskOf 96 fun l => act.getLsbD l && match windowAt win.val wd l with
    | some (i, _) => !I.holds n i
    | none => false
  let bad : Bool := I.badScalars { reads := [x.win], sr := BankSel.regs x.bank } || (load && I.badLanes x.r act)
  if act = 0 then I.ok { e with comp := .flag (I.t + 1) }
  else Res.orUeIf I bad <|
    if bk || win.k then .stop I.kAll
    else if load && marked != 0 && !I.uses 4 then .stop (I.lanes .kConsume marked)
    else match I.bankFault n with
      | some c => .stop (I.scalar c)
      | none =>
        if unheld != 0 then .stop (I.lanes .acmBand unheld)
        else
          let I' : Iss := { I with s := I.s.escape I.c I.g (load && marked != 0) }
          I'.accOp ins [bankArg (I.physBank n), win.val] (if load then [src] else []) act e

end Iss

/-- ACDRAIN (R272). -/
def execAcdrain (x : AcMoveA) (s : State) : Host.Outcome State Fault Refusal :=
  issue x.h { names := [x.win], dsts := [x.r] } s fun I => I.accMove (.acdrain x) x false

/-- ACLOAD (R272). -/
def execAcload (x : AcMoveA) (s : State) : Host.Outcome State Fault Refusal :=
  issue x.h { names := [x.r, x.win] } s fun I => I.accMove (.acload x) x true

/-- ACZERO (R273). -/
def execAczero (x : AcZeroA) (s : State) : Host.Outcome State Fault Refusal :=
  issue x.h { reads := [x.a], all := true, sr := BankSel.regs x.d } s fun I =>
    let (n, k) := I.bankSel x.d
    let a := I.sval true x.a
    let cause := match I.bankFault n with
      | some c => some c
      | none => if (rangeRows a.val).all (I.holds n) then none else some .acmBand
    I.accGroup (k || a.k) cause <|
      I.accOp (.aczero x) [bankArg (I.physBank n), a.val] [] I.active (Iss.accEff false)

/-- ACSCALE (R274): it reads every lane of vE, whatever the mask, and an uncorrectable one of them ranks after its other causes (R266). -/
def execAcscale (x : AcScaleA) (s : State) : Host.Outcome State Fault Refusal :=
  issue x.h { reads := [x.sc], names := [x.b], all := true, sr := BankSel.regs x.d ++ BankSel.regs x.a } s fun I =>
    let (d, dk) := I.bankSel x.d
    let (a, ak) := I.bankSel x.a
    let e := I.vsrc false x.b
    let sc := (I.fsrc .f32 x.sc).at 0
    let rows := (List.range (x.nM1.toNat + 1)).map (x.f.toNat + ·) |>.filter (· < 32)
    let ingest := e.marks != 0 || sc.k
    let cause := match I.bankFault d, I.bankFault a with
      | some c, _ | none, some c => some c
      | none, none => if rows.all fun i => I.holds d i && I.holds a i then none else some .acmBand
    Res.orUeIf I (I.badLanes x.b Lanes.all && I.qok) <| I.accGroup (dk || ak || (ingest && !I.uses 4)) cause <|
      let I' : Iss := { I with s := I.s.escape I.c I.g ingest }
      I'.accOp (.acscale x) [bankArg (I.physBank d), bankArg (I.physBank a), sc.val] [e] I.active (Iss.accEff false)

/-- One element of ACSCALE: the destination's word from the source's, the exponents, and the scale (R274). -/
def scaleElem (ea eb : Nat) (x base sc : Word) : Word :=
  let term : FVal := if ea = 255 || eb = 255 then .fin false 0 0
    else (((FVal.ofInt x.toInt).scale ((ea : Int) + eb - 254)).mul (f32 sc))
  toF32 .rne false (FVal.sum .rne [f32 base, term])

namespace State

/-- ACSCALE's effect on its banks (R274). -/
def scaleBanks (s : State) (c ctx : Nat) (rows : List Nat) (d a : Nat) (sc : Word) (e : VReg) : State :=
  let k := s.core c
  let src := k.bank a
  let ea (i : Nat) : Nat := ((e.at i).val.extractLsb' 0 8).toNat
  let eb (j : Nat) : Nat := ((e.at (32 + j)).val.extractLsb' 0 8).toNat
  let poisoned := rows.any (fun i => ea i == 255) || (!rows.isEmpty && (List.range 64).any fun j => eb j == 255)
  let upd (b : Bank) : Bank :=
    { b with
      data := Vector.ofFn fun i => Vector.ofFn fun j =>
        if rows.contains i.val then scaleElem (ea i.val) (eb j.val) (src.at i.val j.val) (if d = a then 0 else b.at i.val j.val) sc
        else b.at i.val j.val,
      isInt := false, ue := b.ue.filter fun u => !rows.contains u.1 }
  let k := k.modBank d fun b => (upd b).rebrim
  s.setCore c (if poisoned then k.modTenant ctx fun t => t.stick 0 else k)

/-- A forced self-test on every engine of the tenant (R276): before the engine's next task, or at once when it is idle. -/
def forceTests (s : State) (c ctx : Nat) (o : Op) : State :=
  let es := (s.core c).engines ctx
  let now := s.now c
  let s := s.modCore c fun k => { k with mx := { k.mx with forced := k.mx.forced ++ [⟨o.id, es, 0⟩] } }
  es.foldl (fun (s : State) e =>
    let start := max now ((s.core c).engine e).freeAt
    (s.modCore c fun k => k.modEngine e fun m => { m with freeAt := start + 24, tests := m.tests ++ [true] }).postQ c (start + 23)
      (.engineSelfTest c e)) s

/-- The word of MCHECK.BANK (R276). -/
def checkWord (x : Checked) : Word :=
  if x.ran then BitVec.ofNat 32 (2 ^ 31 + min 255 x.cols * 256 + min 255 x.rows) else 0

/-- The write of a scalar destination of an operation. -/
def opWrite (o : Op) (d : Opnd) (w : Word) : List RegWrite :=
  match d with
  | .s n => if n.val < 125 then [.sreg n.val ⟨w, false⟩] else [.xmask o.split (n.val - 125) w]
  | _ => []

/-- The effect of an accumulator instruction whose hazards are clear. -/
def accGo (s : State) (c : Nat) (o : Op) : State :=
  let w := s.opWho c o
  let now := s.now c
  let a (i : Nat) : Nat := ((o.args[i]?).getD 0).toNat
  let arg (i : Nat) : Word := (o.args[i]?).getD 0
  let src := (o.vargs.head?).getD VReg.zero
  match o.ins with
  | .acfree x =>
    let s := o.args.foldl (fun (s : State) p => s.modCore c fun k => k.modBank p.toNat fun b =>
      { b with owner := none, rows := Vector.replicate 32 none, freeing := false, bad := false }) s
    s.retryAll.accDone c o (Iss.wstat x.d true) (now + 2)
  | .acdrain x => s.withChecks c o [a 0] fun s n =>
    let b := (s.core c).bank (a 0)
    let el (l : Nat) : Option (Nat × Nat) := windowAt (arg 1) (windowWidth x.w) l
    if (bitsOf o.active).any fun l => (el l).any fun p => b.ue.contains p then s.consume w.ctx w.crew .ueData
    else
      let v := VReg.of fun l => match el l with
        | some (i, j) => ⟨b.at i j, false⟩
        | none => Elem.zero
      s.accDone c o (Iss.wvec x.r o.active v) (now + 40 * n + 8 + (s.core c).passes)
  | .acload x => s.withChecks c o [a 0] fun s n =>
    let put (b : Bank) : Bank := (bitsOf o.active).foldl (fun b l => match windowAt (arg 1) (windowWidth x.w) l with
      | some (i, j) => b.put i j (src.at l).val
      | none => b) b
    let s := s.modCore c fun k => k.modBank (a 0) fun b => ({ put b with isInt := x.i } : Bank).rebrim
    s.accDone c o [] (now + 40 * n + 6 + (s.core c).passes)
  | .aczero _ =>
    let rows := rangeRows (arg 1)
    let zero (b : Bank) : Bank := { b with data := rows.foldl (fun v i => v.setIfInBounds i (Vector.replicate 64 0)) b.data,
                                           ue := b.ue.filter fun u => !rows.contains u.1 }
    if rows.length = 32 then
      (s.modCore c fun k => k.modBank (a 0) fun b =>
        { zero b with rect := .rect 32 64, brimRow := Vector.replicate 32 0, brimCol := Vector.replicate 64 0, pend := false,
                      bad := false }).accDone c o [] (now + 4)
    else s.withChecks c o [a 0] fun s n =>
      (s.modCore c fun k => k.modBank (a 0) fun b => (zero b).rebrim).accDone c o [] (now + 40 * n + 4)
  | .acscale x => s.withChecks c o [a 0, a 1].dedup fun s n =>
    let rows := (List.range (x.nM1.toNat + 1)).map (x.f.toNat + ·) |>.filter (· < 32)
    let k := s.core c
    if ([a 0, a 1].dedup.any fun p => (k.bank p).ue.any fun u => rows.contains u.1) then s.consume w.ctx w.crew .ueData
    else (s.scaleBanks c w.ctx rows (a 0) (a 1) (arg 2) src).accDone c o [] (now + 40 * n + 10 + rows.length)
  | .mcheck x =>
    match x.a with
    | none => (s.modOp c o.id fun o => { o with stage := .home, due := now }).forceTests c w.ctx o
    | some _ =>
      if ((s.core c).bank (a 0)).bad then s.consume w.ctx w.crew .brimUe
      else match s.bankCheck c w.ctx (a 0) with
        | (s, _, some f) => s.consume w.ctx w.crew f
        | (s, k, none) => s.accDone c o (opWrite o x.d (checkWord k)) (now + 40)
  | _ => s

/-- An accumulator instruction at work: its turn among the tenant's operations (R259), then its effect. -/
def accWork (s : State) (c : Nat) (o : Op) : State :=
  if o.stage != .waiting then s
  else match (s.core c).turn (s.opWho c o).ctx (s.now c) o.id (opSets (s.core c) o) with
    | .soon => s.postQ c (s.now c) (.accessCheckComplete c o.id)
    | .later => s.askAgain c o
    | .go => s.accGo c o

end State

/-! ## MSTAT, MCHECK -/

/-- An item of a tenant's array status (R275). -/
def MStat.item (m : MStat) : MItem → Word
  | .sticky => m.sticky.zeroExtend 32
  | .corr => m.corr
  | .terr => m.terr
  | .checks => m.checks
  | .voids => m.voids
  | .tests => m.tests

/-- An item cleared; the tile error's word becomes free to be logged again. -/
def MStat.clear (m : MStat) : MItem → MStat
  | .sticky => { m with sticky := 0 }
  | .corr => { m with corr := 0 }
  | .terr => { m with terr := m.terr &&& 0x7FFFFFFF }
  | .checks => { m with checks := 0 }
  | .voids => { m with voids := 0 }
  | .tests => { m with tests := 0 }

/-- MSTAT (R275). -/
def execMstat (x : MstatA) (s : State) : Host.Outcome State Fault Refusal :=
  issue x.h {} s fun I =>
    let m := (((I.s.core I.c).tenant? I.G.ctx).map (·.mstat)).getD ⟨0, 0, 0, 0, 0, 0⟩
    I.accGroup false none <|
      let s := if x.clr then I.s.modCore I.c fun k => k.modTenant I.G.ctx fun t => { t with mstat := t.mstat.clear x.item } else I.s
      .done s { ws := [I.wsreg x.d.val ⟨m.item x.item, false⟩], comp := .long (I.t + 2), unit := .acc, charge := 4 }

/-- MCHECK (R276). -/
def execMcheck (x : McheckA) (s : State) : Host.Outcome State Fault Refusal :=
  issue x.h { all := true, sr := (x.a.map BankSel.regs).getD [] } s fun I =>
    match x.a with
    | none => I.accGroup false none (I.accOp (.mcheck x) [] [] I.active (Iss.accEff (x.d != .zero)))
    | some b =>
      let (n, k) := I.bankSel b
      I.accGroup k (I.bankFault n) (I.accOp (.mcheck x) [bankArg (I.physBank n)] [] I.active (Iss.accEff (x.d != .zero)))

end Sys2Proof.Machine
end

