-- ==== Sys2Proof/Machine/Legs.lean ====
section
/-! DEFINITION. Legs and crews as the dispatcher handles them (chapter 15, R317 to R326, R350): launch records, queues, admission and its
grants, gang reservations, crew starts and relaunches, and the completion of a leg. -/

namespace Sys2Proof.Machine

open Sys2Proof

/-! ## Launch records (R317) -/

/-- The word of a record at an offset. -/
def recWord (bs : List Byte) (o : Nat) : Word := BitVec.ofNat 32 (leNat ((bs.drop o).take 4))

/-- The pointer of a record at an offset. -/
def recPtr (bs : List Byte) (o : Nat) : Ptr := BitVec.ofNat 96 (leNat ((bs.drop o).take 12))

/-- Whether the bytes of a range are 0. -/
def recZero (bs : List Byte) (o n : Nat) : Bool := ((bs.drop o).take n).all fun b => b == 0

/-- Grant `g` of a record, when its reserved bits, its size and its mode are as Table 1 gives them. -/
def recGrant (bs : List Byte) (g : Nat) : Option Grant :=
  let w := recWord bs (0x8C + 16 * g)
  let k := (w.extractLsb' 8 6).toNat
  if h : (w.extractLsb' 0 2).toNat < 3 then
    if w.extractLsb' 14 18 == 0 && w.extractLsb' 2 6 == 0 && 12 ≤ k && k ≤ 32 then
      some ⟨recPtr bs (0x80 + 16 * g), k, ⟨_, h⟩⟩
    else none
  else none

/-- R317: a record and its constant table from their 512 bytes, or none when the record is malformed. R49 lets a code image start on a 4 KiB
boundary; of a CODE pointer that lies on none, or has a RANK, the spec says nothing: here the record is good, its code is fetched from
that address, and RANK is ignored (assumption 113). -/
def parseRecord (addr : Ptr) (bs : List Byte) : Option LRec :=
  let w10 := recWord bs 0x10
  let w14 := recWord bs 0x14
  let w18 := recWord bs 0x18
  let crews := (w10.extractLsb' 0 16).toNat + 1
  let gang := (w14.extractLsb' 24 6).toNat + 1
  let scr := (w14.extractLsb' 12 10).toNat
  let n := (w18.extractLsb' 16 8).toNat
  let flag (i : Nat) : Bool := w18.getLsbD i
  let code := recPtr bs 0
  let gs := ((List.range 8).take n).map (recGrant bs)
  let ok := w10.extractLsb' 16 16 == 0 && w14.extractLsb' 30 2 == 0 && w14.extractLsb' 22 2 == 0 && w14.extractLsb' 4 4 == 0 &&
    scr ≤ 512 && w18.extractLsb' 24 8 == 0 && w18.extractLsb' 12 4 == 0 && w18.extractLsb' 5 3 == 0 && n ≤ 8 &&
    recZero bs 0x2C 4 && recZero bs 0x3C 4 && recZero bs 0x4C 0x34 && recZero bs (0x80 + 16 * n) (16 * (8 - n)) &&
    Ptr.space code == 0 && crews % gang == 0 && gs.all (·.isSome)
  if ok then
    some { bytes := bs.take 256, addr := addr, code := code, entry := recWord bs 0x0C, crews := crews, gang := gang, scr := scr * 1024,
           regs := ((w14.extractLsb' 8 4).toNat + 1) * 16, grps := (w14.extractLsb' 0 4).toNat + 1,
           edges := (w18.extractLsb' 8 4).toNat, done := if flag 0 then some (recPtr bs 0x20) else none,
           deal := if flag 1 then some (recPtr bs 0x30) else none, root := flag 2, seqchk := flag 3, seq := recWord bs 0x1C,
           next := if flag 4 then some (recPtr bs 0x40) else none, grants := gs.filterMap id,
           consts := Vector.ofFn fun i => recWord bs (256 + 4 * i.val) }
  else none

/-- A record with its crew count replaced (R342) and its first three constant words (R294). -/
def LRec.amend (r : LRec) (count : Nat) (first : Option Ptr) : LRec :=
  let r := if count = 0 then r else { r with crews := count }
  match first with
  | none => r
  | some p => { r with
      consts := ((r.consts.setIfInBounds 0 (p.extractLsb' 0 32)).setIfInBounds 1 (p.extractLsb' 32 32)).setIfInBounds 2
        (p.extractLsb' 64 32) }

namespace State

/-- A byte as a dispatcher reads it for a launcher: home's, or a line that the launcher's core holds dirty, which its release has made
visible (R342). -/
def dispatchByte (s : State) (launcher : Word) (pa : Nat) : Byte :=
  match (s.holderCore launcher).bind fun c => s.l1? c pa with
  | some l => if l.dirty then l.byte (pa % 128) else s.mem.read pa
  | none => s.mem.read pa

/-- `n` bytes at a local address that is a multiple of `al`, a divisor of `n` and of a page, read by a dispatcher through its own
walk, a device access (Table 3 of chapter 7); an uncorrectable line is not read. -/
def dispatchRead (s : State) (ctx : Nat) (launcher : Word) (va n al : Nat) : Except Cause (List Byte) :=
  if va % al != 0 then .error .align
  else ((List.range (n / al)).map fun i => va + al * i).foldl (fun (r : Except Cause (List Byte)) a => match r with
    | .error k => .error k
    | .ok bs => match s.walk ctx a with
      | .fault k _ => .error k
      | .ok e =>
        if e.h then .error .prot
        else if s.ueAt (e.phys a) then .error .ueData
        else .ok (bs ++ (List.range al).map fun j => s.dispatchByte launcher (e.phys a + j))) (.ok [])

/-- What the walks of a device for `n` bytes at a pointer do to the tables they find uncorrectable (R141). -/
def markWalks (s : State) (ctx : Nat) (p : Ptr) (n : Nat) : State :=
  if Ptr.space p != 0 || Ptr.module p != Config.thisModule then s
  else
    let a := Ptr.local p / 4096
    (List.range ((Ptr.local p + max 1 n - 1) / 4096 + 1 - a)).foldl (fun s i => (s.walkMark ctx ((a + i) * 4096)).2) s

/-- The same for a deal table, whose first word gives its length. -/
def markDeal (s : State) (ctx : Nat) (launcher : Word) (p : Ptr) : State :=
  let t := s.markWalks ctx p 4
  match s.dispatchRead ctx launcher (Ptr.local p) 4 4 with
  | .ok bs => if leNat bs ≤ 4096 then t.markWalks ctx p (4 + 4 * leNat bs) else t
  | .error _ => t

/-- The launch record at a pointer: none for a pointer or a record that cannot be read or is malformed. -/
def launchRecord (s : State) (ctx : Nat) (launcher : Word) (p : Ptr) : Option LRec :=
  if Ptr.space p != 0 || Ptr.rank p != 0 || Ptr.module p != Config.thisModule then none
  else match s.dispatchRead ctx launcher (Ptr.local p) 512 64 with
    | .ok bs => parseRecord p bs
    | .error _ => none

/-! ## Queues (R322) -/

/-- A leg queued, when the context's queue has room. -/
def pushLeg (s : State) (ctx : Nat) (l : Leg) : Option State :=
  if (s.ctx ctx).queue.length < 256 then
    some ((s.modCtx ctx fun x => { x with queue := x.queue ++ [l] }).postNow (.legAdmission ctx))
  else none

/-- The lowest number from `n` on, counted in `w` bits, that a list does not hold. -/
def freshId (n w : Nat) (used : List Nat) : Nat :=
  (((List.range (used.length + 1)).map fun i => (n + i) % 2 ^ w).find? fun i => !used.contains i).getD (n % 2 ^ w)

end State

/-- A leg as it is queued. -/
def Leg.queued (r : LRec) (launcher : Word) (count : Nat) (first : Option Ptr) (tag : Option (BitVec 16 × Nat)) : Leg :=
  { id := 0, lr := r.amend count first, count := count, consts3 := first, launcher := launcher, pending := r.edges, admitted := false,
    deal := [], flush := none, started := 0, exited := 0, alive := 0, status := 0, tagEntry := tag }

/-! ## The completion word (R320, R326) -/

/-- The completion word. -/
def completionWord (status : BitVec 4) (exited : Nat) : Word := status ++ 0#12 ++ BitVec.ofNat 16 (min exited 65535)

namespace State

/-- A word written at home by a dispatcher with a launcher's rights (R326); none when the launcher may not write it. The host reaches
FREE regions too (R371, chapter 17). A line of it that the launcher's core holds receives it too. -/
def launcherWrite (s : State) (ctx : Nat) (launcher : Word) (p : Ptr) (x : Word) : Option State :=
  if Ptr.space p != 0 || Ptr.rank p != 0 || Ptr.local p % 4 != 0 then none
  else if Ptr.module p != Config.thisModule then some (s.emit (.remote 0 0))
  else
    let va := Ptr.local p
    match s.walk ctx va with
    | .fault .. => none
    | .ok e =>
      let host : Bool := holderClass launcher == 7
      let may : Bool := match (s.ctx ctx).region? va with
        | none => host
        | some r => r.st == .homed || (r.st == .owned && r.owner == launcher) || (host && r.st == .free)
      if e.h || !e.w || !may then none
      else
        let pa := e.phys va
        let bs := leBytes 4 x.toNat
        let s := s.homeWriteAt pa bs
        some (match s.holderCore launcher with
          | none => s
          | some c => match s.l1? c pa with
            | none => s
            | some l => if l.dirty then s.l1Write c ctx va pa bs else s.setL1 c ((s.core c).caches.l1.filter fun m => m.pa != l.pa))

/-- HEAD of an armed ring steps past the entries whose legs have completed, in entry order (R294): a device access, which an H page or a page
without translation does not let through (R137). -/
def stepHead : Nat → State → Nat → Tag → State
  | 0, s, _, _ => s
  | n + 1, s, ctx, t => match s.walkMark ctx (Ptr.local t.ring) with
    | (.fault .., s) => s
    | (.ok e, s) =>
      if e.h then s
      else
      let pa := e.phys (Ptr.local t.ring)
      let h := s.mem.readWord pa
      if t.done.contains h.toNat then
        let t := { t with done := t.done.filter (· != h.toNat) }
        let s := s.homeWriteAt pa (leBytes 4 (h + 1).toNat)
        let s := s.modCtx ctx fun x => { x with tags := x.tags.map fun u => if u.tag = t.tag then t else u }
        stepHead n s ctx t
      else s

/-- A leg that an armed ring launched has completed. -/
def ringDone (s : State) (ctx : Nat) (e : Option (BitVec 16 × Nat)) : State :=
  match e with
  | none => s
  | some (tag, n) => match (s.ctx ctx).tags.find? fun t => t.tag == tag with
    | none => s
    | some t =>
      let t := { t with done := t.done ++ [n] }
      let s := s.modCtx ctx fun x => { x with tags := x.tags.map fun u => if u.tag = tag then t else u }
      stepHead t.done.length s ctx t

/-- The completion word of a leg, when its record has one; a PROT record when its launcher may not write it (R342). -/
def writeDone (s : State) (ctx : Nat) (l : Leg) (status : BitVec 4) (exited : Nat) : State :=
  match l.lr.done with
  | none => s
  | some p => match (s.markWalks ctx p 4).launcherWrite ctx l.launcher p (completionWord status exited) with
    | some s => s
    | none => s.record ctx (BitVec.ofNat 32 Cause.prot.code.toNat) 0 0xFFFF 0 (BitVec.ofNat 32 l.id) p 2

/-- R326: a leg that completes acts on the queued leg its NEXT names, the oldest one with edges pending: an edge less, or completion
with STATUS 3, from which the rule applies again. -/
def nextEdge : Nat → State → Nat → Option Ptr → BitVec 4 → State
  | 0, s, _, _, _ => s
  | _ + 1, s, _, none, _ => s
  | n + 1, s, ctx, some p, st =>
    let q := (s.ctx ctx).queue
    match q.findIdx? fun (l : Leg) => l.lr.addr == p && l.pending != 0 with
    | none => s
    | some i => match q[i]? with
      | none => s
      | some l =>
        if st = 1 then
          (s.modCtx ctx fun x => { x with queue := x.queue.set i { l with pending := l.pending - 1 } }).postNow (.legAdmission ctx)
        else
          let s := s.modCtx ctx fun x => { x with queue := x.queue.eraseIdx i }
          nextEdge n ((s.writeDone ctx l 3 0).ringDone ctx l.tagEntry) ctx l.lr.next 3

/-- The word and the edge of a leg that ends with a status, and HEAD of the ring that launched it. -/
def finishLeg (s : State) (ctx : Nat) (l : Leg) (status : BitVec 4) : State :=
  let s := (s.writeDone ctx l status l.exited).ringDone ctx l.tagEntry
  nextEdge ((s.ctx ctx).queue.length + 1) s ctx l.lr.next status

/-! ## Grants (R190) -/

/-- The least m with 2^m at least `n`. -/
def clog2 (n : Nat) : Nat := ((List.range 33).find? fun m => n ≤ 2 ^ m).getD 32

/-- A grant applied at admission, what it flushes being flushed, or none when its condition does not hold. -/
def applyGrant (s : State) (ctx : Nat) (launcher : Word) (leg crews : Nat) (g : Grant) : Option State :=
  let x := s.ctx ctx
  if Ptr.space g.ptr != 0 || Ptr.rank g.ptr != 0 || Ptr.module g.ptr != Config.thisModule then none
  else match x.regionAt (Ptr.local g.ptr) with
    | none => none
    | some r =>
      if r.k != g.k || r.st != .owned || r.owner != launcher || r.lender != noHolder || r.shares != 0 then none
      else
        let c := (s.holderCore launcher).getD 768
        match g.mode with
        | 0 =>
          let m := clog2 crews
          if m + 12 ≤ r.k && x.regions.length + 2 ^ m - 1 ≤ x.capacity then
            some ((s.dropTok ctx r).modCtx ctx fun x => x.splitRegion r m)
          else none
        | 1 =>
          let h := holderId 3 ctx leg
          if s.shareRoom ctx r h then some (s.grantShare ctx r h) else none
        | 2 => some (((s.dropLines c ctx r.base r.k).dropTok ctx r).modCtx ctx fun x =>
            x.setRegion { r with st := .homed, hcore := none })

/-- The grants of a record, each on what the one before left. -/
def applyGrants (s : State) (ctx : Nat) (launcher : Word) (leg crews : Nat) (gs : List Grant) : Option State :=
  gs.foldl (fun o g => o.bind fun s => s.applyGrant ctx launcher leg crews g) (some s)

/-- What a token operation of a launcher on some regions waits for before its flush starts on the launcher's core (R188, R189): the drain of a
launching crew, the accesses to the regions already issued there, and no other flush of one of them. -/
def grantWaits (s : State) (c ctx : Nat) (launcher : Word) (rs : List Region) : Bool :=
  (holderClass launcher == 1 && (s.crew? ctx (holderIndex launcher)).any fun k => !k.sbuf.isEmpty) ||
    rs.any fun r => s.homingR ctx r || s.flushWaits c ⟨c, ctx, 2 ^ 20, 0, none, none⟩ s.sch.ids r

/-- The commitment of a crew whose regions its leg's grants move, as by TKHOME, TKLEND or TKSHARE (R189). -/
def grantCommit (s : State) (ctx : Nat) (launcher : Word) : State :=
  if holderClass launcher == 1 then s.commit ctx (holderIndex launcher) 4 else s

/-- The regions that a record's SHARE and HOMED grants flush from the launcher's core, with what each flush leaves there. -/
def grantRegions (s : State) (ctx : Nat) (r : LRec) : List (Region × Bool) :=
  r.grants.filterMap fun g =>
    if g.mode = 0 then none else ((s.ctx ctx).regionAt (Ptr.local g.ptr)).map fun q => (q, decide (g.mode = 1))

/-- Regions flushed from a core one after the other: the lines, and the state (R188). -/
def flushAll (s : State) (c ctx : Nat) (rs : List (Region × Bool)) : Nat × State :=
  rs.foldl (fun (p : Nat × State) x => (p.1 + p.2.linesOf c ctx x.1 x.2, p.2.flushRegion c ctx x.1.base x.1.k x.2)) (0, s)

/-- The DEAL pieces that a starting crew is lent (R190): the number of the grant with its region. The piece of a grant already lent stays. -/
def piecesFor (s : State) (ctx crew : Nat) (l : Leg) (rank : Nat) : List (Nat × Region) :=
  l.lr.grants.zipIdx.filterMap fun (g, i) =>
    let lent := ((s.crew? ctx crew).bind fun k => (k.lentPiece[i]?).join).isSome
    let k := g.k - clog2 l.lr.crews
    if g.mode != 0 || lent then none
    else ((s.ctx ctx).regionAt (Ptr.local g.ptr + rank * 2 ^ k)).bind fun r =>
      if r.k = k && r.st == .owned && r.owner == l.launcher && r.lender == noHolder && r.shares == 0 then some (i, r) else none

/-- R190 at a crew's start: its pieces LENT to it as TKLEND lends them, and flushed from the launcher's core: the lines, and the state. -/
def lendPieces (s : State) (c ctx crew : Nat) (l : Leg) (ps : List (Nat × Region)) : Nat × State :=
  ps.foldl (fun (p : Nat × State) (i, r) =>
    let n := p.2.linesOf c ctx r false
    let s := ((p.2.dropTok ctx r).flushRegion c ctx r.base r.k false).modCtx ctx fun x =>
      x.setRegion { r with st := .lent, owner := holderId 1 ctx crew, lender := l.launcher, hcore := none }
    (p.1 + n, s.modCrew ctx crew fun q => { q with lentPiece := q.lentPiece.setIfInBounds i (some r.base) })) (0, s)

/-- The regions whose flush is over become OWNED (R200). -/
def settleLent (s : State) (ctx : Nat) (bases : List Nat) : State :=
  (s.modCtx ctx fun x => { x with regions := x.regions.map fun r =>
    if r.st == .lent && bases.contains r.base then { r with st := .owned } else r }).wakeRegions

/-- Whether a flush of a launcher's own holds the return of a leg's grants back: the region of each is home's to change only afterwards (R14). -/
def returnWaits (s : State) (ctx : Nat) (l : Leg) : Bool := l.lr.grants.any fun g => s.homingIn ctx (Ptr.local g.ptr) g.k

/-- R190 at a leg's completion: pieces joined, the leg's share returned, a homed region back with the launcher. Of a HOMED grant's region that
the launcher has split or joined in the meantime the rule does not say what returns: here what returns is the HOMED region that begins at the
grant's base, whatever its size (assumption 126). -/
def returnGrants (s : State) (ctx : Nat) (l : Leg) : State :=
  l.lr.grants.foldl (fun s g =>
    let base := Ptr.local g.ptr
    let x := s.ctx ctx
    match g.mode with
    | 0 =>
      let m := clog2 l.lr.crews
      let ps := x.pieces base (g.k - m) m
      match ps.head? with
      | none => s
      | some r =>
        if r.st ≠ .owned ∨ r.owner ≠ l.launcher ∨ r.lender ≠ noHolder then s
        else match x.joinRegion r m with
          | none => s
          | some y => (ps.foldl (fun s q => s.dropTok ctx q) s).modCtx ctx fun _ => y
    | 1 => match x.regionAt base with
      | some r => s.returnShare ctx r (holderId 3 ctx l.id) 1
      | none => s
    | 2 => match x.regionAt base with
      | some r =>
        if r.st = .homed ∧ r.owner = l.launcher then (s.modCtx ctx fun x => x.setRegion { r with st := .owned, owner := l.launcher, hcore := none }) else s
      | none => s) s

/-! ## Deals and room (R319, R323) -/

/-- Whether a physical core runs crews at all (R16, R386). -/
def coreUsable (s : State) (c : Nat) : Bool := (s.core c).enabled && 16 ≤ (s.core c).good

/-- The crews of a record that one empty core holds (R15). -/
def perCore (r : LRec) : Nat :=
  min (32 / r.grps) (min (Config.coreRegs / (r.grps * r.regs)) (if r.scr = 0 then 32 else Config.scratchBytes / r.scr))

/-- The deal table, resolved to physical cores; none when it breaks R319 or check 2 of R323. -/
def readDeal (s : State) (ctx : Nat) (launcher : Word) (r : LRec) (p : Ptr) : Option (List (Nat × Nat)) :=
  let x := s.ctx ctx
  if Ptr.space p != 0 || Ptr.rank p != 0 || Ptr.module p != Config.thisModule then none
  else match s.dispatchRead ctx launcher (Ptr.local p) 4 4 with
    | .error _ => none
    | .ok bs =>
      let e := leNat bs
      if e < 1 || 4096 < e then none
      else match s.dispatchRead ctx launcher (Ptr.local p + 4) (4 * e) 4 with
        | .error _ => none
        | .ok bs =>
          let ws := (List.range e).map fun i => recWord bs (4 * i)
          let ds := ws.map fun w => ((x.physical (w.extractLsb' 16 16).toNat).getD 768, (w.extractLsb' 0 16).toNat)
          if ws.all (fun w => (w.extractLsb' 16 16).toNat < x.corecnt) && (ds.map (·.2)).foldl (· + ·) 0 = r.crews then some ds
          else none

/-- The entry and the physical core of each rank. -/
def dealt (ds : List (Nat × Nat)) : List (Nat × Nat) := ds.zipIdx.flatMap fun (d, i) => List.replicate d.2 (i, d.1)

/-- Check 5 of R323: whether each gang fits its cores when they hold no other crew. -/
def gangsFit (s : State) (ctx : Nat) (r : LRec) (deal : Option (List (Nat × Nat))) : Bool :=
  let cap := perCore r
  match deal with
  | none =>
    let cs := ((s.ctx ctx).places.filterMap fun (_, e) => placeCore e).filter s.coreUsable
    r.gang ≤ cs.length * cap
  | some ds =>
    let cs := (dealt ds).map (·.2)
    (List.range (r.crews / r.gang)).all fun g =>
      let mine := (cs.drop (g * r.gang)).take r.gang
      mine.dedup.all fun c => s.coreUsable c && mine.count c ≤ cap

/-- A crew as it is dealt, waiting for room. -/
def newCrew (id leg rank gang grank : Nat) (root : Bool) (entry : Option (Nat × Nat)) (size : Nat) : Crew :=
  { id := id, leg := leg, rank := rank, gang := gang, grank := grank, root := root, st := .waiting, core := (entry.map (·.2)).getD 768,
    dealt := entry.map (·.1), left := none, slots := Vector.replicate 16 none, base := 0, size := size, scratch := [], spill := [],
    ueWords := [], committed := false, reason := 0, rollbacks := 0, sbuf := [], gone := [], flush := none, bars := Vector.replicate 4 ⟨false, []⟩,
    gbars := Vector.replicate 2 ⟨false, []⟩, att := .never, rings := Vector.replicate 8 none,
    lentPiece := Vector.replicate 8 none, kept := ⟨[], false, [], [], [], []⟩ }

/-- The crews of an admitted leg created, with fresh numbers. -/
def dealCrews (s : State) (ctx : Nat) (l : Leg) : State :=
  let ds := dealt l.deal
  (List.range l.lr.crews).foldl (fun s rank =>
    let x := s.ctx ctx
    let id := freshId x.nextCrew 20 (x.crews.map (·.id))
    let grank := rank % l.lr.gang
    let gang := if grank = 0 then freshId x.nextGang 24 (x.crews.map (·.gang)) else (x.nextGang + 2 ^ 24 - 1) % 2 ^ 24
    let k := newCrew id l.id rank gang grank (l.lr.root && rank == 0) ds[rank]? l.lr.scr
    let s := s.modCtx ctx fun x => { x with crews := x.crews ++ [k], nextCrew := (id + 1) % 2 ^ 20, nextGang := (gang + 1) % 2 ^ 24 }
    if grank = 0 then s.postNow (.gangReservation ctx gang) else s) s

/-- R323: a queued leg's record is read again, checked and admitted; none when a check fails. -/
def admitLeg (s : State) (ctx : Nat) (l : Leg) : Option State :=
  let x := s.ctx ctx
  match s.launchRecord ctx l.launcher l.lr.addr with
  | none => none
  | some r0 =>
    let r := r0.amend l.count l.consts3
    let id := freshId x.nextLeg 24 (x.legs.map (·.id))
    let deal := r.deal.map fun p => s.readDeal ctx l.launcher r p
    match s.applyGrants ctx l.launcher id r.crews r.grants with
    | none => none
    | some t =>
      if deal = some none || (r.seqchk && r.seq != x.toposeq) || (r.root && (holderClass l.launcher != 7 || x.crews.any (·.root))) ||
        r.crews % r.gang != 0 || !s.gangsFit ctx r deal.join then none
      else
        let l := { l with id := id, lr := r, admitted := true, deal := (deal.join).getD [], alive := r.crews }
        let t := t.modCtx ctx fun x => { x with legs := x.legs ++ [l], nextLeg := (id + 1) % 2 ^ 24 }
        some (t.dealCrews ctx l)

/-- Whether a context's legs are admitted and its crews started (R327, R371). -/
def mayStart (s : State) (ctx : Nat) : Bool :=
  let r := (s.ctx ctx).regs
  r.en && !r.preempt && r.state != 3

end State

/-- A queued leg changed. -/
def State.modQueued (s : State) (ctx i : Nat) (f : Leg → Leg) : State := s.modCtx ctx fun x => { x with queue := x.queue.modify i f }

/-- The admission of a leg whose checks pass: at once, or, when its SHARE and HOMED grants have something to flush, once the launcher's crew has
drained, the accesses to the regions are performed, and the lines are flushed (R188 to R190). -/
def State.admitAfterFlush (s : State) (ctx i : Nat) (l : Leg) (done : State) : State :=
  match s.holderCore l.launcher, s.launchRecord ctx l.launcher l.lr.addr with
  | some c, some r =>
    let rs := s.grantRegions ctx r
    let again (s : State) : State := s.postQ c (s.now c + 1) (.legAdmission ctx)
    if l.flush.isSome then done
    else if r.grants.any fun g => s.homingIn ctx (Ptr.local g.ptr) g.k then again s
    else if rs.isEmpty then done
    else if s.grantWaits c ctx l.launcher (rs.map (·.1)) then again (s.grantCommit ctx l.launcher)
    else
      let (n, s) := (s.grantCommit ctx l.launcher).flushAll c ctx rs
      (s.modQueued ctx i fun l => { l with flush := some ⟨c, s.now c + n, rs.map (·.1.base)⟩ }).postQ c (s.now c + n) (.legAdmission ctx)
  | _, _ => done

/-- LEG_ADMISSION (R323): the first queued leg without pending edges is admitted, or refused with STATUS 2. -/
def execLegAdmission (ctx : Nat) (s : State) : Host.Outcome State Fault Refusal :=
  let q := (s.ctx ctx).queue
  match q.findIdx? fun l => l.pending == 0 with
  | none => .refused (.notEnabled "LEG_ADMISSION")
  | some i => match q[i]? with
    | none => .refused (.notEnabled "LEG_ADMISSION")
    | some l =>
      if !s.mayStart ctx || l.flush.any (fun f => s.now f.core < f.ends) then .refused (.notEnabled "LEG_ADMISSION")
      else
        let t := (s.modCtx ctx fun x => { x with queue := x.queue.eraseIdx i }).markWalks ctx l.lr.addr 512
        let t := match l.lr.deal with
          | some p => t.markDeal ctx l.launcher p
          | none => t
        match t.admitLeg ctx { l with flush := none } with
        | some u => .next (s.admitAfterFlush ctx i l (u.wakeRegions.postNow (.legAdmission ctx)))
        | none => .next (((t.finishLeg ctx { l with flush := none } 2).wakeRegions).postNow (.legAdmission ctx))

/-! ## Places for crews (R19, R325, R350) -/

/-- Whether a core's cluster is cool (R367). -/
def State.isCool (s : State) (c : Nat) : Bool := (s.quad (quadOf c)).cool.getLsbD (c % 48 / 4)

/-- Cores with those of cool clusters first. -/
def State.coolFirst (s : State) (cs : List Nat) : List Nat := cs.filter s.isCool ++ cs.filter fun c => !s.isCool c

namespace State

/-- The cores of a context in ascending logical number. -/
def ctxCores (s : State) (ctx : Nat) : List Nat := (s.ctx ctx).places.filterMap fun (_, e) => placeCore e

/-- A place reserved for a crew on the first core of a list that has room. -/
def placeCrew (s : State) (ctx : Nat) (l : Leg) (k : Crew) (cs : List Nat) : Option State :=
  (cs.find? fun c => s.hasRoom ctx c l k).map fun c =>
    let base := (s.placeScratch c k.size).getD 0
    let s := s.modCtx ctx fun x =>
      { x with
        crews := x.crews.map fun q => if q.id = k.id then { q with st := .waiting, core := c, base := base } else q,
        reservations := if x.reservations.any (fun r => r.1 == k.gang) then
            x.reservations.map fun r => if r.1 = k.gang then (r.1, r.2 ++ [k.id]) else r
          else x.reservations ++ [(k.gang, [k.id])] }
    s.joinTenant c ctx

/-- The cores a waiting crew may start on, in the order they are tried (R319). -/
def startCores (s : State) (ctx : Nat) (l : Leg) (k : Crew) : List Nat :=
  if k.dealt.isSome then (if l.deal.isEmpty then [] else [k.core]) else s.coolFirst (s.ctxCores ctx)

/-- The cores a rolled-back crew may start on, in the order they are tried (R350). -/
def relaunchCores (s : State) (ctx : Nat) (l : Leg) (k : Crew) : List Nat :=
  let n := match k.dealt with
    | some i => i + 1
    | none => 0
  let ds := l.deal.map (·.1)
  (s.coolFirst ((ds.drop n ++ ds.take n) ++ s.ctxCores ctx)).filter fun c => k.left != some c

/-- Places for several crews, all or none (R325). -/
def placeAll (s : State) (ctx : Nat) (l : Leg) (ks : List Crew) (cores : State → Crew → List Nat) : Option State :=
  ks.foldl (fun o k => o.bind fun s => s.placeCrew ctx l k (cores s k)) (some s)

/-- The crews of a list told to start. -/
def startAll (s : State) (ctx : Nat) (ks : List Crew) : State := ks.foldl (fun s k => s.postNow (.crewStart ctx k.id)) s

end State

/-- GANG_RESERVATION (R325): a waiting gang's members are given places, all at once or not at all. A crew of the same leg with a lower
rank that waits on one of the dealt cores goes first (R319), and so does every relaunch of the context (R350). -/
def execGangReservation (ctx gang : Nat) (s : State) : Host.Outcome State Fault Refusal :=
  let x := s.ctx ctx
  let ms := x.crews.filter fun k => k.gang == gang && k.st == .waiting
  match ms.head? with
  | none => .refused (.notEnabled "GANG_RESERVATION")
  | some k => match s.leg? ctx k.leg with
    | none => .refused (.notEnabled "GANG_RESERVATION")
    | some l =>
      let ahead (q : Crew) : Bool := q.leg == k.leg && q.st == .waiting && q.gang != gang && q.dealt.isSome &&
        !(x.reservations.any fun r => r.2.contains q.id) && ms.any fun m => q.rank < m.rank && q.core == m.core
      if !s.mayStart ctx || x.reservations.any (fun r => r.1 == gang) || x.crews.any (fun q => q.st == .relaunch || ahead q) then
        .refused (.notEnabled "GANG_RESERVATION")
      else match s.placeAll ctx l ms fun s k => s.startCores ctx l k with
        | none => .refused (.notEnabled "GANG_RESERVATION")
        | some s => .next (s.startAll ctx ms)

/-- CREW_RELAUNCH (R350, R357): a rolled-back crew, with the members of its gang that were rolled back with it, is given a place. -/
def execCrewRelaunch (ctx crew : Nat) (s : State) : Host.Outcome State Fault Refusal :=
  match s.crew? ctx crew with
  | none => .refused (.notEnabled "CREW_RELAUNCH")
  | some k => match s.leg? ctx k.leg with
    | none => .refused (.notEnabled "CREW_RELAUNCH")
    | some l =>
      let ms := (s.ctx ctx).crews.filter fun q => q.gang == k.gang && q.st == .relaunch
      if k.st != .relaunch || !s.mayStart ctx then .refused (.notEnabled "CREW_RELAUNCH")
      else match s.placeAll ctx l ms fun s q => s.relaunchCores ctx l q with
        | none => .refused (.notEnabled "CREW_RELAUNCH")
        | some s => .next (s.startAll ctx ms)

namespace State

/-- A group created in a free context of a core. -/
def newGroup (s : State) (ctx : Nat) (k : Crew) (l : Leg) (g pos : Nat) (pc : Word) (from_ : Nat) : State :=
  let gid := groupIdWord k.rank g pos
  let s := s.setGroup k.core g (some (Group.start ctx k.id pos l.lr.regs gid l.lr.consts pc from_))
  s.modCrew ctx k.id fun q => { q with slots := q.slots.setIfInBounds pos (some g) }

/-- R321: a crew's groups created on its core, every one at ENTRY in the same cycle. -/
def startCrew (s : State) (ctx : Nat) (k : Crew) (l : Leg) : State :=
  let t := s.now k.core + 1
  let s := s.modCtx ctx fun x =>
    { x with reservations := (x.reservations.map fun r => (r.1, r.2.filter (· != k.id))).filter fun r => !r.2.isEmpty }
  let s := s.modCtx ctx fun x => { x with regs := { x.regs with state := if x.regs.state = 0 then 1 else x.regs.state } }
  let s := s.modCrew ctx k.id fun q => { q with st := .resident, left := none, scratch := [], spill := [], ueWords := [] }
  let s := ((s.freeSlots k.core).take l.lr.grps).zipIdx.foldl (fun s (g, pos) => s.newGroup ctx k l g pos l.lr.entry t) s
  let s := (s.startPins ctx k.id k.gang k.leg k.core).wakeRegions
  (s.modLeg ctx k.leg fun l => { l with started := l.started + 1 }).rail (quadOf k.core)

end State

/-- CREW_START (R321): a crew with a place starts, once the pieces it is granted are lent to it, which takes the flush of a TKLEND (R190). Under a
pre-emption whose gang has no member started, the place is given back. -/
def execCrewStart (ctx crew : Nat) (s : State) : Host.Outcome State Fault Refusal :=
  match s.crew? ctx crew with
  | none => .refused (.notEnabled "CREW_START")
  | some k => match s.leg? ctx k.leg with
    | none => .refused (.notEnabled "CREW_START")
    | some l =>
      let x := s.ctx ctx
      let back : Bool := !s.mayStart ctx && !x.crews.any fun m => m.gang == k.gang && m.id != crew && m.onCore
      let start (s : State) : State :=
        if back then
          (s.modCtx ctx fun x => { x with reservations := x.reservations.filter fun r => !r.2.contains crew }).leaveTenant k.core ctx
        else s.startCrew ctx k l
      if k.st != .waiting || !x.reservations.any (fun r => r.2.contains crew) then .refused (.notEnabled "CREW_START")
      else match k.flush with
        | some f =>
          if s.now f.core < f.ends then .refused (.notEnabled "CREW_START")
          else .next (start ((s.settleLent ctx f.bases).modCrew ctx crew fun k => { k with flush := none }))
        | none =>
          let ps := if back then [] else s.piecesFor ctx crew l k.rank
          let c := (s.holderCore l.launcher).getD k.core
          if ps.isEmpty then .next (start s)
          else if s.grantWaits c ctx l.launcher (ps.map (·.2)) then
            .next ((s.grantCommit ctx l.launcher).postQ k.core (s.now k.core + 1) (.crewStart ctx crew))
          else
            let (n, s) := (s.grantCommit ctx l.launcher).lendPieces c ctx crew l ps
            let f : Flushing := ⟨c, s.now c + n, ps.map (·.2.base)⟩
            .next ((s.modCrew ctx crew fun k => { k with flush := some f }).postQ c f.ends (.crewStart ctx crew))

/-! ## Completion (R326) -/

/-- LEG_COMPLETE (R326): the grants return, the completion word is written, and NEXT is acted on. -/
def execLegComplete (ctx leg : Nat) (s : State) : Host.Outcome State Fault Refusal :=
  match s.leg? ctx leg with
  | none => .refused (.notEnabled "LEG_COMPLETE")
  | some l =>
    if l.alive != 0 then .refused (.notEnabled "LEG_COMPLETE")
    else if s.returnWaits ctx l then
      let c := (s.holderCore l.launcher).getD 0
      .next (s.postQ c (s.now c + 1) (.legComplete ctx leg))
    else
      let s := s.returnGrants ctx l
      let s := s.modCtx ctx fun x => { x with legs := x.legs.filter fun k => k.id != leg }
      let s := s.finishLeg ctx l (if l.status = 0 then 1 else l.status)
      .next (s.wakeRegions.retryAll.postNow (.legAdmission ctx))

end Sys2Proof.Machine
end

