-- ==== Sys2Proof/Machine/Engine.lean ====
section
/-! DEFINITION. Engines, messages and gang windows (chapter 13): COPY, MSEND, RINGSET, ARM, DISARM, GATTACH and GDETACH, what becomes of a
running copy and of a message packet, and the armed rings. -/

namespace Sys2Proof.Machine

open Sys2Proof

/-! ## Arguments captured at issue -/

/-- Argument `i` of an operation. -/
def argAt (xs : List Word) (i : Nat) : Word := xs[i]?.getD 0

/-- A pointer captured in three arguments. -/
def argPtr (xs : List Word) (i : Nat) : Ptr := ptrOf (argAt xs i) (argAt xs (i + 1)) (argAt xs (i + 2))

/-- A pointer as three arguments. -/
def ptrArgs (p : Ptr) : List Word := [p.extractLsb' 0 32, p.extractLsb' 32 32, p.extractLsb' 64 32]

/-- A pointer into the own scratchpad. -/
def ownSpace (off : Nat) : Ptr := (1#96 <<< 80) ||| BitVec.ofNat 96 off

/-- A pointer with its rank raised. -/
def Ptr.addRank (p : Ptr) (i : Nat) : Ptr := p + (BitVec.ofNat 96 i <<< 84)

/-- A pointer with its ADDR replaced. -/
def Ptr.setAddr (p : Ptr) (a : Nat) : Ptr := (p &&& ~~~((2 ^ 80 - 1 : Nat) : Ptr)) ||| BitVec.ofNat 96 a

/-- The destinations of a COPY whose arguments are source, destination, length, word offset, word value and mask (R284). -/
def copyDests (x : CopyA) (xs : List Word) : List Ptr :=
  if x.m then (bitsOf ((argAt xs 9).extractLsb' 0 8)).map (Ptr.addRank (argPtr xs 3)) else [argPtr xs 3]

/-- The completion word's place for a destination (R284, CDST). -/
def copyWordPtr (x : CopyA) (xs : List Word) (d : Ptr) : Ptr :=
  if x.cdst then Ptr.setAddr d (argAt xs 7).toNat else ownSpace (argAt xs 7).toNat

/-! ## The checks at issue (R280, R282) -/

namespace State

/-- The checks at issue of `n` bytes that an engine operation reaches: R60, R134 and R135. A member that has gone pauses the operation
when it gets there (R280). -/
def engEarly (s : State) (w : Who) (p : Ptr) (n : Nat) (store : Bool) : Option Cause :=
  (s.early w p n 4 store).filter (· != .gangGone)

/-- The causes of a COPY at issue (R280, R284): `src`, `dst`, `len`, `off` and `mask` say which of its operands count, a marked one
raising K_CONSUME alone (R336). -/
def copyCauses (s : State) (w : Who) (x : CopyA) (xs : List Word) (src dst len off mask : Bool) : List Cause :=
  let a := argPtr xs 0
  let b := argPtr xs 3
  let n := if len then (argAt xs 6).toNat else 0
  let ds := if !dst || (x.m && !mask) then [] else copyDests x xs
  let sp := Ptr.space b
  (if x.m && mask && (argAt xs 9).extractLsb' 0 8 == 0 then [.illEnc] else []) ++
  (if src && dst && Ptr.space a == 0 && sp == 0 then [.illPtr] else []) ++
  (if dst && ((x.m && sp != 2 && sp != 3) || (x.cdst && sp == 0)) then [.illPtr] else []) ++
  (if (dst && sp == 4) || 2 ^ 24 < n then [.prot] else []) ++ (if n % 4 != 0 then [.align] else []) ++
  (if src then (s.engEarly w a n false).toList else []) ++ ds.filterMap (fun d => s.engEarly w d n true) ++
  (if x.cw && off then (if x.cdst then ds.map (copyWordPtr x xs) else [copyWordPtr x xs b]).filterMap fun p => s.engEarly w p 4 true
   else [])

/-- The allocation of the crew that acts. -/
def ownSize (s : State) (w : Who) : Nat := ((s.crew? w.ctx w.crew).map (·.size)).getD 0

/-- Whether RINGSET's configuration sets up a ring: its exponents in range and its other bits 0 (R291). -/
def ringCfgOk (b : Word) : Bool :=
  let e := (b.extractLsb' 0 4).toNat
  let c := (b.extractLsb' 8 4).toNat
  4 ≤ e && e ≤ 9 && 1 ≤ c && c ≤ 12 && b.extractLsb' 4 4 == 0 && b.extractLsb' 12 20 == 0

/-- The bytes of a ring. -/
def ringBytes (b : Word) : Nat := 64 + 2 ^ ((b.extractLsb' 0 4).toNat + (b.extractLsb' 8 4).toNat)

/-- The causes of an engine instruction at issue, from its captured operands, those of the arguments `marks` being marked: a marked
operand raises K_CONSUME alone (R282, R336). -/
def engCauses (s : State) (w : Who) (i : Instr) (xs : List Word) (marks : List Nat) : List Cause :=
  let ok (j : Nat) : Bool := !marks.contains j
  (match i with
  | .copy x => s.copyCauses w x xs (ok 0) (ok 3) (ok 6) (ok 7) (ok 9)
  | .msend x =>
    (if !x.tag && ok 0 && (argAt xs 0).toNat ≥ ((s.crew? w.ctx w.crew).map (s.gangSize w.ctx)).getD 1 then [.illPtr] else []) ++
    (if x.sp && ok 5 then (s.early w (ownSpace (argAt xs 5).toNat) (4 * (argAt xs 4).toNat) 4 false).toList else [])
  | .ringset _ =>
    let a := (argAt xs 0).toNat
    let b := argAt xs 1
    (if ok 0 && a % 64 != 0 then [.align] else []) ++
      (if ok 0 && ok 1 && ringCfgOk b && s.ownSize w < a + ringBytes b then [.prot] else [])
  | .arm _ =>
    [0, 3].filterMap fun j => if ok j && (Ptr.space (argPtr xs j) != 0 || Ptr.rank (argPtr xs j) != 0) then some .illPtr else none
  | .gattach _ =>
    let a := (argAt xs 0).toNat
    let b := (argAt xs 1).toNat
    (if (ok 0 && a % 64 != 0) || (ok 1 && b % 64 != 0) then [.align] else []) ++
      (if ok 0 && ok 1 && s.ownSize w < a + b then [.prot] else [])
  | _ => []) ++ if marks.isEmpty then [] else [.kConsume]

/-! ## Starting -/

/-- The lowest free engine slot of a core (R277). -/
def freeEngSlot (k : Core) : Option Nat :=
  (List.range 64).find? fun e => ((k.eng[e]?).join).isNone && !k.packets.any fun p => p.eslot == e

/-- Whether an access touches a byte of a range. -/
def hits (s : State) (w : Who) (a : Acc) (p : Ptr) (n : Nat) : Bool :=
  let x := s.location w a.ptr
  let y := s.location w p
  x.1 == y.1 && x.2 < y.2 + n && y.2 < x.2 + a.nbytes

/-- The operations of a list that are still to be performed. -/
def undone (s : State) (c : Nat) (ids : List Nat) : List Op := (s.core c).ops.filter fun o => ids.contains o.id && !o.done

/-- A free latency from the least of what a pointer reaches, crossings counted (R8, R27, R283): the L1, home or memory for space 0. -/
def engReach (s : State) (w : Who) (p : Ptr) : Nat × State :=
  let (n, s) := match s.route w p 1 false with
    | .ok (.global a) => match s.walk w.ctx a with
      | .ok e => if (s.l1? w.c (e.phys a)).isSome then (20, s) else s.homeReach w.c (e.phys a)
      | .fault .. => (80, s)
    | .ok (.remote _) => (3000, s)
    | .ok (.scratch k o) => s.reach w (.scratch k o) 4
    | .ok (.record o) => s.reach w (.record o) 4
    | _ => (14, s)
  s.latency n

/-- A running COPY asked in cycle `t`, once. -/
def engAsk (s : State) (c e t : Nat) : State :=
  let d : Due := ⟨.quad (quadOf c), t, .engineOpComplete c e⟩
  if s.sch.agenda.any (· == d) then s else s.postQ c t d.ev

/-- Whether a COPY's source shares a byte with one of its destinations, so that the ascending loop of R284 can be told from a copy. -/
def copyLoops (s : State) (w : Who) (src : Ptr) (n : Nat) (ds : List Ptr) : Bool :=
  let x := s.location w src
  ds.any fun d =>
    let y := s.location w d
    x.1 == y.1 && x.2 < y.2 + n && y.2 < x.2 + n

/-- A COPY takes the lowest free slot and starts (R277 to R279, R283). Its flits move from the cycle in which its first source word can be
read; with source and destination overlapping, or nothing to move, from the cycle in which its first word can be written. -/
def copyStart (s : State) (c : Nat) (o : Op) (x : CopyA) (e : Nat) : State :=
  let w := s.opWho c o
  let n := (argAt o.args 6).toNat
  let src := argPtr o.args 0
  let ds := copyDests x o.args
  let before := (s.olderOps c o).map (·.id)
  let s := s.dropOp c o.id
  let s := if x.cw && x.scope != .grp && x.scope != .crew then s.commit w.ctx w.crew 1 else s
  let (a, s) := s.engReach w src
  let (b, s) := if n = 0 || s.copyLoops w src n ds then s.engReach w (argPtr o.args 3) else (0, s)
  let from' := s.now c + a + if n = 0 then b else if b = 0 then 0 else b + 1
  let E : EngOp :=
    { id := o.id, slot := o.slot, crew := w.crew, ctx := w.ctx, pc := o.pc, args := x, src := src, words := n / 4,
      cOff := (argAt o.args 7).toNat, cVal := argAt o.args 8, branches := ds.map fun d => ⟨d, 0, none, false⟩, from' := from', sent := 0,
      open' := [], flights := [], paused := none, setf := o.setf, wordAt := none, before := before }
  (s.modCore c fun k => { k with eng := k.eng.setIfInBounds e (some E) }).engAsk c e from'

/-- A range of a crew's scratchpad as words: the words, whether one is uncorrectable, whether one is marked. -/
def scratchWords (s : State) (w : Who) (off n : Nat) : List Word × Bool × Bool :=
  match s.crew? w.ctx w.crew with
  | none => ([], false, false)
  | some k => ((List.range n).map fun i => k.scratch.readWord (off + 4 * i), k.ueIn off (4 * n),
      (List.range n).any fun i => k.spill.contains (off / 4 + i))

/-- The arrival of a packet. -/
def packetEvent (c : Nat) (p : Packet) : Instr := if p.tag.isSome then .taggedMessageArrival c p.id else .messageArrival c p.id

/-- The latency of a packet to its destination. -/
def packetReach (s : State) (c : Nat) (p : Packet) : Nat × State :=
  match p.tag with
  | some (m, _) => s.latency (if m.toNat = Config.thisModule then 80 else 3000)
  | none =>
    let gang := ((s.crew? p.ctx p.crew).map (·.gang)).getD 0
    match s.member p.ctx gang p.rank with
    | some m => if m.core = c then s.latency 14 else s.latency (80 + hops (dieOf c) (dieOf m.core))
    | none => s.latency 14

/-- A packet of a core. -/
def packet? (s : State) (c id : Nat) : Option Packet := (s.core c).packets.find? fun p => p.id == id

/-- The state with a packet changed. -/
def modPacket (s : State) (c id : Nat) (f : Packet → Packet) : State :=
  s.modCore c fun k => { k with packets := k.packets.map fun p => if p.id = id then f p else p }

/-- A packet leaves once the copy buffer has room for it (R286). -/
def packetSend (s : State) (c : Nat) (p : Packet) : State :=
  if s.bufferFull c then s.postQ c (s.now c + 1) (packetEvent c p)
  else
    let (d, s) := (s.modPacket c p.id fun p => { p with sent := true }).packetReach c p
    s.postQ c (s.now c + d) (packetEvent c p)

/-- An MSEND takes the lowest free slot; its packet leaves once its payload has been taken, which older accesses to the same bytes may
put off (R278, R292). The crew commits before an uncorrectable payload is consumed (R292, R355). -/
def msendStart (s : State) (c : Nat) (o : Op) (x : MsendA) (e : Nat) : State :=
  let w := s.opWho c o
  let n := (argAt o.args 4).toNat
  let off := (argAt o.args 5).toNat
  let own := ((s.crew? w.ctx w.crew).map (·.grank)).getD 0
  let before := (s.olderOps c o).map (·.id)
  let p : Packet :=
    { id := o.id, eslot := e, slot := o.slot, crew := w.crew, ctx := w.ctx, setf := o.setf, status := x.d,
      tag := if x.tag then some ((argAt o.args 2).extractLsb' 0 18, (argAt o.args 3).extractLsb' 0 16) else none,
      rank := (argAt o.args 0).toNat, ring := (argAt o.args 1).toNat, words := n,
      take := if x.sp then some off else none, sent := false,
      payload := o.args.drop 6, before := before, drops := 0, escape := false }
  let s := (s.dropOp c o.id).modCore c fun k => { k with packets := k.packets ++ [p] }
  let s := if x.tag || p.rank != own then s.commit w.ctx w.crew 1 else s
  if o.cause = some .ueData then s.consume w.ctx w.crew .ueData
  else if x.sp then s.postQ c (s.now c) (packetEvent c p)
  else s.packetSend c p

/-- The translations and the rights ARM needs (R293), and the cycle of its effect. -/
def armCheck (s : State) (c : Nat) (o : Op) : State :=
  let w := s.opWho c o
  let rec_ := argPtr o.args 0
  let ring := argPtr o.args 3
  let ps := [rec_, ring].filter fun p => Ptr.module p == Config.thisModule
  match ps.find? fun p => (s.cached c w.ctx (Ptr.local p)).isNone with
  | some p => match s.translate c w.ctx (Ptr.local p) with
    | (.ok _, s) | (.wait, s) => s.askAgain c o
    | (.bad k, s) => s.opFault c o { cause := k, scalar := true, pc := o.pc, ptr := p }
  | none =>
    let bad := ps.find? fun p => match s.cached c w.ctx (Ptr.local p) with
      | some e => e.h || (p == ring && !e.w)
      | none => false
    let homed := Ptr.module ring == Config.thisModule && match (s.ctx w.ctx).region? (Ptr.local ring) with
      | some r => r.st == .homed
      | none => false
    match bad with
    | some p => s.opFault c o { cause := .prot, scalar := true, pc := o.pc, ptr := p }
    | none =>
      if !homed then s.opFault c o { cause := .tokNone, scalar := true, pc := o.pc, ptr := ring }
      else
        let (n, s) := s.freeNat
        (s.modOp c o.id fun o => { o with stage := .waiting }).postQ c (max (s.now c) (o.t + 80 + n)) (.accessCheckComplete c o.id)

/-- An engine instruction whose checks at issue have passed goes on. -/
def engStart (s : State) (c : Nat) (o : Op) : State :=
  let wait (s : State) (t : Nat) : State :=
    (s.modOp c o.id fun o => { o with stage := .waiting }).postQ c (max (s.now c) t) (.accessCheckComplete c o.id)
  match o.ins with
  | .copy x => match freeEngSlot (s.core c) with
    | some e => s.copyStart c o x e
    | none => s.askAgain c o
  | .msend x => match freeEngSlot (s.core c) with
    | some e => s.msendStart c o x e
    | none => s.askAgain c o
  | .arm _ => if s.now c ≤ o.t then s.askAgain c o else s.armCheck c o
  | .disarm _ =>
    let (n, s) := s.freeNat
    wait s (o.t + 80 + n)
  | .gdetach _ => (s.modOp c o.id fun o => { o with stage := .waiting }).postQ c (o.t + 2) (.gdetachComplete c o.id)
  | _ => wait s (o.t + 2)

/-- The lowest-ranked cause with its report. -/
def engReport (o : Op) (cs : List Cause) : Option Report :=
  (worst (cs.map fun c => (0, c))).map fun k =>
    { cause := k, scalar := true, pc := o.pc, ptr := match o.ins with
        | .copy _ | .arm _ | .launch _ => argPtr o.args 0
        | .msend x => if x.sp then ownSpace (argAt o.args 5).toNat else 0
        | .ringset _ | .gattach _ | .asdef _ => ownSpace (argAt o.args 0).toNat
        | _ => 0 }

/-! ## Effects that land at t + 2 or t + 80 -/

/-- The writes of an instruction's status. -/
def statusOf (i : Instr) (b : Bool) : List RegWrite :=
  match i with
  | .ringset x => Iss.wstat x.d b
  | .arm x => Iss.wstat x.d b
  | .disarm x => Iss.wstat x.d b
  | .gattach x => Iss.wstat x.d b
  | .gdetach x => Iss.wstat x.d b
  | _ => []

/-- RINGSET's effect (R291): the status, and the crew's ring set up with HEAD and TAIL 0, or torn down. -/
def ringDo (s : State) (w : Who) (k : Crew) (n : Nat) (a b : Word) : Bool × State :=
  let old := (k.rings[n]?).join
  let put (s : State) (r : Option Ring) : State := s.modCrew w.ctx w.crew fun k => { k with rings := k.rings.setIfInBounds n r }
  if b = 0 then (old.isSome, put s none)
  else if !ringCfgOk b || old.isSome then (false, s)
  else (true, put (s.scratchWrite w.ctx w.crew a.toNat (leBytes 8 0)) (some ⟨a.toNat, b⟩))

/-- The effect of an engine instruction that waited for its cycle. -/
def engDo (s : State) (c : Nat) (o : Op) : State :=
  let w := s.opWho c o
  let fin (s : State) (b : Bool) : State := s.finishOp c o (statusOf o.ins b) (s.now c)
  match s.crew? w.ctx w.crew with
  | none => s.dropOp c o.id
  | some k => match o.ins with
    | .ringset x =>
      let (b, s) := s.ringDo w k x.ring.val (argAt o.args 0) (argAt o.args 1)
      fin s b
    | .gattach _ =>
      let b := k.att == .never
      fin (if b then s.modCrew w.ctx w.crew fun k => { k with att := .attached (argAt o.args 0).toNat (argAt o.args 1).toNat } else s) b
    | .arm _ =>
      let tag := (argAt o.args 6).extractLsb' 0 16
      let x := s.ctx w.ctx
      if x.tags.any (fun t => t.tag == tag) || x.tags.length ≥ 64 then fin s false
      else
        let t : Tag := ⟨tag, w.crew, holderId 1 w.ctx w.crew, argPtr o.args 0, argPtr o.args 3, []⟩
        fin (s.modCtx w.ctx fun x => { x with tags := x.tags ++ [t] }) true
    | .disarm _ =>
      let tag := (argAt o.args 0).extractLsb' 0 16
      let mine (t : Tag) : Bool := t.tag == tag && t.crew == w.crew
      let b := (s.ctx w.ctx).tags.any mine
      fin (s.modCtx w.ctx fun x => { x with tags := x.tags.filter fun t => !mine t }) b
    | _ => s

/-- The marked arguments of an engine instruction, kept with its operation for its issue again (R145). -/
def engMarks (marks : List Nat) (t : Nat) : List Acc := marks.map fun j =>
  { lane := j, ptr := 0, nbytes := 1, data := 0, cmp := 0, mark := false, lim := none, start := t, res := 0, km := 0, arr := none,
    dlv := false, direct := false, cause := some .kConsume }

/-- ACCESS_CHECK_COMPLETE of an engine instruction: its checks when it is asked again, or its effect. -/
def engineCheck (s : State) (c : Nat) (o : Op) : State :=
  if o.stage = .waiting then s.engDo c o
  else
    let w := s.opWho c o
    match engReport o (s.engCauses w o.ins o.args (o.accs.map (·.lane))) with
    | some r => s.opFault c o r
    | none =>
      let sends : Bool := match o.ins with
        | .msend _ => true
        | _ => false
      if o.cause = some .ueData && !sends then s.consume w.ctx w.crew .ueData else s.engStart c o

end State

/-! ## Issue -/

namespace Iss

/-- An engine instruction issued (R282): `marks` are its marked arguments, `ue` says that its payload holds an uncorrectable register and
`held` that it has to wait for a slot (R277). -/
def engine (I : Iss) (ins : Instr) (marks : List Nat) (ue held : Bool) (args : List Word) (charge : Nat) (result : Bool) : Res :=
  let e : Eff := { comp := .later result, unit := .lsu, charge := charge }
  if !I.qok then I.ok { e with comp := .flag (I.t + 1) }
  else
    let o : Op := { I.op ins (State.engMarks marks I.t) with args := args, cause := if ue then some .ueData else none }
    match State.engReport o (I.s.engCauses I.who ins args marks) with
    | some r =>
      if r.cause = .kConsume then .stop I.kAll
      else if r.cause.serviced then .done (I.s.addOp I.c { o with stage := .logged }) { e with serviced := some r }
      else .stop r
    | none => if held then .hold I.s else .done ((I.s.addOp I.c o).engStart I.c o) e

/-- Marked arguments: the index of an operand with its mark. -/
def marksOf (xs : List (Nat × Bool)) : List Nat := (xs.filter (·.2)).map (·.1)

/-- Whether the core has no free engine slot. -/
def noSlot (I : Iss) : Bool := (State.freeEngSlot (I.s.core I.c)).isNone

end Iss

/-- COPY (R277 to R284). -/
def execCopy (x : CopyA) (s : State) : Host.Outcome State Fault Refusal :=
  let n := if x.m then 3 else if x.cw then 2 else 0
  issue x.h { reads := [x.b], all := true, sr := [(x.d.val, 3), (x.a.val, 3), (x.c.val, n)] } s fun I =>
    let (src, ks) := I.striple x.a
    let (dst, kd) := I.striple x.d
    let len := I.sval true x.b
    let cs := (List.range 3).map fun i => if i < n then I.sreg (x.c.val + i) else Elem.zero
    let args := ptrArgs src ++ ptrArgs dst ++ [len.val] ++ cs.map (·.val)
    let marks := Iss.marksOf ([(0, ks), (3, kd), (6, len.k)] ++ cs.zipIdx.map fun (e, i) => (7 + i, e.k))
    I.engine (.copy x) marks false I.noSlot args (4 + (len.val.toNat + 63) / 64) false

/-- MSEND (R292). -/
def execMsend (x : MsendA) (s : State) : Host.Outcome State Fault Refusal :=
  let n := x.wordsM1.toNat + 1
  let sr : List (Nat × Nat) := match x.a with
    | .s a => if x.sp then [(a.val, 1)] else [(a.val, n)]
    | _ => []
  let u : Use := { reads := [x.b, x.tagv] ++ if x.sp then [x.a] else [], all := true }
  issue x.h u s fun I =>
    let b := I.sval true x.b
    let a := I.sval true x.a
    let tag := I.sval true x.tagv
    let pay : List Elem := match x.a with
      | .s r => if x.sp then [] else (List.range n).map fun i => I.sreg (r.val + i)
      | _ => []
    let kp := pay.any (·.k)
    let args := [b.val &&& 63, (b.val >>> 8) &&& 7, b.val, tag.val, BitVec.ofNat 32 n, if x.sp then a.val else 0] ++ pay.map (·.val)
    let marks := Iss.marksOf [(0, b.k), (3, x.tag && tag.k), (5, x.sp && a.k), (6, kp && !I.uses 2)]
    match I.engine (.msend x) marks (!x.sp && I.qok && I.badScalars { sr := sr }) I.noSlot args (4 + (4 * n + 63) / 64) x.d.isSome with
      | .done s e => .done (s.escape I.c I.g (I.qok && kp)) e
      | r => r

/-- RINGSET (R291). -/
def execRingset (x : RingA) (s : State) : Host.Outcome State Fault Refusal :=
  issue x.h { reads := [x.a, x.b], all := true } s fun I =>
    let a := I.sval true x.a
    let b := I.sval true x.b
    I.engine (.ringset x) (Iss.marksOf [(0, a.k), (1, b.k)]) false false [a.val, b.val] 4 x.d.isSome

/-- ARM (R293). -/
def execArm (x : ArmA) (s : State) : Host.Outcome State Fault Refusal :=
  issue x.h { reads := [x.tag], all := true, sr := [(x.a.val, 3), (x.b.val, 3)] } s fun I =>
    let (p, kp) := I.striple x.a
    let (r, kr) := I.striple x.b
    let t := I.sval true x.tag
    I.engine (.arm x) (Iss.marksOf [(0, kp), (3, kr), (6, t.k)]) false false (ptrArgs p ++ ptrArgs r ++ [t.val]) 4 x.d.isSome

/-- DISARM (R293). -/
def execDisarm (x : St1A) (s : State) : Host.Outcome State Fault Refusal :=
  issue x.h { reads := [x.a], all := true } s fun I =>
    let a := I.sval true x.a
    I.engine (.disarm x) (Iss.marksOf [(0, a.k)]) false false [a.val] 4 x.d.isSome

/-- GATTACH (R302). -/
def execGattach (x : GattA) (s : State) : Host.Outcome State Fault Refusal :=
  issue x.h { reads := [x.a, x.b], all := true } s fun I =>
    let a := I.sval true x.a
    let b := I.sval true x.b
    I.engine (.gattach x) (Iss.marksOf [(0, a.k), (1, b.k)]) false false [a.val, b.val] 4 x.d.isSome

/-- GDETACH (R303). -/
def execGdetach (x : GdetA) (s : State) : Host.Outcome State Fault Refusal :=
  issue x.h {} s fun I => I.engine (.gdetach x) [] false false [] 4 x.d.isSome

/-! ## A running COPY -/

namespace State

/-- What an access of an engine finds, its page walked at once (R280). -/
def lookNow (s : State) (w : Who) (p : Ptr) (n al : Nat) (store : Bool) : Look × State :=
  match s.lookAl w p n al store with
  | .walk va => match s.translate w.c w.ctx va with
    | (.ok _, s) => (s.lookAl w p n al store, s)
    | (.bad k, s) => (.bad k, s)
    | (.wait, s) => (.wait, s)
  | l => (l, s)

/-- A word written where an access leads. -/
def putWord (s : State) (w : Who) (l : Look) (x : Word) : State :=
  let bs := leBytes 4 x.toNat
  match l with
  | .home va pa _ => s.writeHomed w [(va, pa, bs)]
  | l => s.writeAt w l bs

/-- What stops an engine at a word: nothing yet, a wait, or a fault. -/
inductive Halt where
  | none
  | wait
  | bad (c : Cause) (p : Ptr)
  deriving DecidableEq, Repr

/-- An access of an engine to a word, its page walked at once: where it leads, or what stops it (R280). -/
def engWord (s : State) (w : Who) (p : Ptr) (store : Bool) : (Look × Halt) × State :=
  match s.lookNow w p 4 4 store with
  | (.bad k, s) => ((.wait, .bad k p), s)
  | (.wait, s) | (.lent, s) | (.walk _, s) => ((.wait, .wait), s)
  | (l, s) => ((l, .none), s)

/-- Words done one after the other until one is stopped: how many are done. -/
def eachWord (n : Nat) (f : State → Nat → Halt × State) (s : State) : Nat × Halt × State :=
  (List.range n).foldl (fun (r : Nat × Halt × State) i => if r.2.1 = .none then
    (match f r.2.2 i with
      | (.none, s) => (r.1 + 1, .none, s)
      | (h, s) => (r.1, h, s)) else r) (0, .none, s)

/-- An engine slot of a core. -/
def eng? (s : State) (c e : Nat) : Option EngOp := ((s.core c).eng[e]?).join

/-- The state with an engine slot changed. -/
def modEng (s : State) (c e : Nat) (f : EngOp → EngOp) : State :=
  s.modCore c fun k => { k with eng := k.eng.setIfInBounds e ((k.eng[e]?.join).map f) }

/-- The engine operation as one who acts (R277). -/
def engWho (s : State) (c e : Nat) (x : EngOp) : Who := ⟨c, x.ctx, x.crew, ((s.group? c x.slot).map (·.pos)).getD 0, some e, some x.id⟩

/-- An engine operation leaves its slot; its packets stay in the copy buffer until they are acknowledged (R277, R286). -/
def freeEng (s : State) (c e : Nat) (x : EngOp) : State :=
  (s.modCore c fun k =>
    { k with eng := k.eng.setIfInBounds e none,
             acks := (k.acks.filter (s.now c < ·)) ++ x.flights.filterMap (·.acked) }).passEng c e x.ctx x.crew

/-- A fault pauses a COPY (R280). -/
def engPause (s : State) (c e : Nat) (h : Halt) : State :=
  match h with
  | .bad k p => (s.modEng c e fun x => { x with paused := some (k, p) }).postQ c (s.now c) (.engineFaultPause c e)
  | _ => s

/-- The next word of a COPY's source, read into the packet that is being filled (R284). -/
def copyRead (w : Who) (e : Nat) (x : EngOp) (s : State) (i : Nat) : Halt × State :=
  let p := Ptr.advance x.src (4 * (x.sent + i) : Nat)
  match s.engWord w p false with
  | ((l, .none), s) =>
    let ((v, ue, km), s) := s.readAt w l 4
    if ue then (.bad .ueData p, s)
    else (.none, (s.modEng w.c e fun y =>
      { y with sent := y.sent + 1, open' := y.open' ++ [v.extractLsb' 0 32] }).escape w.c x.slot (km.getLsbD 0))
  | ((_, h), s) => (h, s)

/-- A word of a COPY moved in the ascending loop itself, to every destination (R284). -/
def copyLoop (w : Who) (e : Nat) (x : EngOp) (s : State) (i : Nat) : Halt × State :=
  let p := Ptr.advance x.src (4 * (x.sent + i) : Nat)
  let (ds, h, s) := x.branches.foldl (fun (r : List Look × Halt × State) b => match r.2.1 with
    | .none =>
      let ((l, h), s) := r.2.2.engWord w (Ptr.advance b.dst (4 * (x.sent + i) : Nat)) true
      (r.1 ++ [l], h, s)
    | _ => r) ([], .none, s)
  match h, s.engWord w p false with
  | .none, ((l, .none), s) =>
    let ((v, ue, km), s) := s.readAt w l 4
    if ue then (.bad .ueData p, s)
    else
      let s := ds.foldl (fun s d => s.putWord w d (v.extractLsb' 0 32)) s
      (.none, (s.modEng w.c e fun y =>
        { y with sent := y.sent + 1, branches := y.branches.map fun b => { b with got := b.got + 1 } }).escape w.c x.slot (km.getLsbD 0))
  | .none, ((_, h), s) => (h, s)
  | h, _ => (h, s)

/-- Whether a COPY still follows an access of its group to a byte it reads or writes (R278). -/
def copyLate (s : State) (c e : Nat) (x : EngOp) : Bool :=
  let w := s.engWho c e x
  let n := 4 * x.words
  (s.undone c x.before).any fun o => !o.reached && o.accs.any fun a => s.hits w a x.src n || x.branches.any fun b => s.hits w a b.dst n

/-- Whether a COPY has a flit to move in this cycle (R283); while the copy buffer is full its reads beyond the core are held (R286). -/
def wantsFlit (s : State) (c e : Nat) (x : EngOp) : Bool :=
  x.paused.isNone && x.from' ≤ s.now c && x.sent < x.words && (x.open'.length < 64) && !s.copyLate c e x &&
    !(s.bufferFull c && Ptr.space x.src != 1)

/-- Whether the copy engine's flit of this cycle is a slot's: none has moved, and the slot comes first, round robin after the one that
moved last, among those with a flit to move (R283). -/
def flitTurn (s : State) (c e : Nat) : Bool :=
  let k := s.core c
  let last := k.flit.2
  (k.flit.1 < s.now c || k.flit = (0, 63)) &&
    ((List.range 64).map fun i => (last + 1 + i) % 64).find? (fun i => ((k.eng[i]?).join).any (s.wantsFlit c i)) == some e

/-- A COPY moves its flit, of up to 16 words, when its turn has come; a turn with nothing to move is lost. -/
def copyFlit (s : State) (c e : Nat) (x : EngOp) : State :=
  if !s.wantsFlit c e x || !s.flitTurn c e then s
  else
    let w := s.engWho c e x
    let s := s.modCore c fun k => { k with flit := (s.now c, e) }
    let n := min 16 (x.words - x.sent)
    let (_, h, s) := if s.copyLoops w x.src (4 * x.words) (x.branches.map (·.dst)) then eachWord n (copyLoop w e x) s
      else eachWord (min n (64 - x.open'.length)) (copyRead w e x) s
    s.engPause c e h

/-- A packet of four flits, or of what is left, leaves for every destination once the copy buffer has room (R285, R286). -/
def copySeal (s : State) (c e : Nat) (x : EngOp) : State :=
  if x.open'.isEmpty || (x.open'.length < 64 && x.sent < x.words) || s.bufferFull c then s
  else
    let w := s.engWho c e x
    let (id, s) := s.fresh
    let (forks, s) := x.branches.zipIdx.foldl (fun (r : List Fork × State) (b, i) =>
      let (d, s) := r.2.engReach w b.dst
      (r.1 ++ [⟨i, 0, some (s.now c + 1 + d), 0, 0, false⟩], s)) ([], s)
    s.modEng c e fun y =>
      { y with open' := [], flights := y.flights ++ [⟨id, y.sent - y.open'.length, y.open', forks, none⟩] }

/-- The words of a packet that has arrived at a branch are written there in ascending order (R284). -/
def forkArrive (s : State) (c e : Nat) (f : Flight) (k : Fork) : State :=
  match s.eng? c e with
  | none => s
  | some x => match k.due, x.branches[k.branch]? with
    | some t, some b =>
      if s.now c < t || x.paused.isSome then s
      else
        let w := s.engWho c e x
        let put (s : State) (i : Nat) : Halt × State :=
          match s.engWord w (Ptr.advance b.dst (4 * (f.first + k.got + i) : Nat)) true with
          | ((l, .none), s) => (.none, s.putWord w l ((f.data[k.got + i]?).getD 0))
          | ((_, h), s) => (h, s)
        let (n, h, s) := eachWord (f.data.length - k.got) put s
        let full := k.got + n = f.data.length
        let (d, s) := if full then s.engReach w b.dst else (0, s)
        let now := s.now c
        let s := s.modEng c e fun y =>
          { y with
            branches := y.branches.modify k.branch fun b => { b with got := b.got + n },
            flights := y.flights.map fun g => if g.id != f.id then g else
              let fs := if full then g.forks.filter (·.branch != k.branch)
                else g.forks.map fun q => if q.branch = k.branch then { q with got := q.got + n } else q
              { g with forks := fs, acked := if fs.isEmpty then some (now + d) else none } }
        s.engPause c e h
    | _, _ => s

/-- The packets of a COPY that have arrived; those that have been acknowledged leave the copy buffer (R286). -/
def copyArrive (s : State) (c e : Nat) (x : EngOp) : State :=
  let s := x.flights.foldl (fun s f => f.forks.foldl (fun s k => s.forkArrive c e f k) s) s
  let now := s.now c
  s.modEng c e fun y => { y with flights := y.flights.filter fun f => f.acked.all (now < ·) }

/-- Whether the release of a completion word may be made (R279). -/
def copyReleased (s : State) (c : Nat) (x : EngOp) : Bool :=
  (s.undone c x.before).isEmpty &&
    (!scopeWide x.args.scope || ((s.crew? x.ctx x.crew).map fun k => k.sbuf.isEmpty).getD true)

/-- A completion word written, when it may be (R279): whether it is, or what stops it. -/
def copyWord (s : State) (c : Nat) (w : Who) (x : EngOp) (p : Ptr) (at' : Nat) : Bool × Halt × State :=
  if s.now c < at' || !s.copyReleased c x || (s.bufferFull c && Ptr.space p != 1) then (false, .none, s)
  else match s.engWord w p true with
    | ((l, .none), s) => (true, .none, s.putWord w l x.cVal)
    | ((_, h), s) => (false, h, s)

/-- The cycle a completion word may be written in, its data being performed in this one: the acknowledgement, and the way to the word
(R283, Table 2). -/
def copyWordAt (s : State) (c : Nat) (w : Who) (d p : Ptr) : Nat × State :=
  let (a, s) := s.engReach w d
  let (b, s) := s.engReach w p
  (s.now c + a + b, s)

/-- Under CDST a destination's own completion word follows its own data (R284). -/
def branchWord (s : State) (c e i : Nat) : State :=
  match s.eng? c e with
  | none => s
  | some x => match x.branches[i]? with
    | none => s
    | some b =>
      if b.told || b.got < x.words || s.now c < x.from' || x.paused.isSome then s
      else
        let w := s.engWho c e x
        let p := Ptr.setAddr b.dst x.cOff
        let set (s : State) (f : Branch → Branch) : State := s.modEng c e fun y => { y with branches := y.branches.modify i f }
        match b.wordAt with
        | none =>
          let (t, s) := s.copyWordAt c w b.dst p
          set s fun b => { b with wordAt := some t }
        | some t =>
          let (done, h, s) := s.copyWord c w x p t
          (if done then set s fun b => { b with told := true } else s).engPause c e h

/-- The completion of a COPY's data (R279, R284): its words, then its flag, set with the last of them; with no completion word it is set
when the last payload byte is performed. -/
def copyEnd (s : State) (c e : Nat) : State :=
  match s.eng? c e with
  | none => s
  | some x =>
    let w := s.engWho c e x
    let fin (s : State) : State := match s.eng? c e with
      | some x => (s.freeEng c e x).landAt c x.slot x.id x.setf [] (s.now c)
      | none => s
    if x.paused.isSome then s
    else if x.args.cw && x.args.cdst then
      let s := (List.range x.branches.length).foldl (fun s i => s.branchWord c e i) s
      if (s.eng? c e).any fun y => y.branches.all (·.told) then fin s else s
    else if s.now c < x.from' || x.branches.any fun b => b.got < x.words then s
    else if !x.args.cw then fin s
    else
      let p := ownSpace x.cOff
      match x.wordAt with
      | none =>
        let (t, s) := s.copyWordAt c w ((x.branches.head?.map (·.dst)).getD 0) p
        s.modEng c e fun y => { y with wordAt := some t }
      | some t =>
        let (done, h, s) := s.copyWord c w x p t
        if done then fin s else s.engPause c e h

/-- The cycle a COPY is asked in again: the next one when something of it is due or waits, else the first in which something will be. -/
def engNext (x : EngOp) (now : Nat) : Nat :=
  if x.sent < x.words || !x.open'.isEmpty then max (now + 1) x.from'
  else
    let ts := x.flights.flatMap (fun f => f.forks.filterMap (·.due)) ++ x.branches.filterMap (fun b => if b.told then none else b.wordAt) ++
      x.wordAt.toList
    max (now + 1) (ts.foldl (fun m t => if t ≤ now then now + 1 else min m t) (match ts.head? with
      | some t => t
      | none => if x.flights.isEmpty then now + 1 else now + 8))

/-- A COPY goes on: flits once the accesses it follows are performed, packets, arrivals, completion words, its flag. -/
def engineGo (s : State) (c e : Nat) (x : EngOp) : State :=
  if s.copyLate c e x then s.engAsk c e (s.now c + 1)
  else
    let on (s : State) (f : State → EngOp → State) : State := match s.eng? c e with
      | some y => if y.paused.isSome then s else f s y
      | none => s
    let s := on (on (on s fun s y => s.copyFlit c e y) fun s y => s.copySeal c e y) fun s y => s.copyArrive c e y
    let s := s.copyEnd c e
    on s fun s y => s.engAsk c e (engNext y (s.now c))

end State

/-- ENGINE_OP_COMPLETE (R279): a COPY moves what it can and completes when it may. -/
def execEngineOpComplete (c e : Nat) (s : State) : Host.Outcome State Fault Refusal :=
  match s.eng? c e with
  | none => .refused (.notEnabled "ENGINE_OP_COMPLETE")
  | some x => if x.paused.isSome then .refused (.notEnabled "ENGINE_OP_COMPLETE") else .next (s.engineGo c e x)

/-- ENGINE_FAULT_PAUSE (R280): the pause is reported to the host; an uncorrectable source ends the operation and is consumed. -/
def execEngineFaultPause (c e : Nat) (s : State) : Host.Outcome State Fault Refusal :=
  match s.eng? c e with
  | none => .refused (.notEnabled "ENGINE_FAULT_PAUSE")
  | some x => match x.paused with
    | none => .refused (.notEnabled "ENGINE_FAULT_PAUSE")
    | some (k, p) =>
      if k = .ueData then .next ((s.freeEng c e x).consume x.ctx x.crew .ueData)
      else
        let r : Report := { cause := k, scalar := true, pc := x.pc, ptr := p }
        .next (s.record x.ctx r.trapinfo[0] x.pc (s.coreNo x.ctx c) e (s.crewIdWord x.ctx x.crew) p 4)

/-! ## Packets on the network (R286, R287) -/

namespace State

/-- The backoff after a k-th drop. -/
def backoff (k : Nat) : Nat := 8 * 2 ^ (min k 8 - 1)

/-- A packet goes back to its source, which sends it again after the backoff. -/
def sendAgain (s : State) (c : Nat) (p : Packet) : State :=
  let k := p.drops + 1
  (s.modPacket c p.id fun p => { p with drops := k, escape := p.escape || k ≥ 8 }).postQ c (s.now c + backoff k) (.packetResend c p.id)

/-- The COPY whose packet has a number. -/
def flight? (s : State) (c id : Nat) : Option (Nat × EngOp × Flight) :=
  (List.range 64).findSome? fun e => (s.eng? c e).bind fun x => (x.flights.find? fun f => f.id == id).map fun f => (e, x, f)

/-- The state with the forks of a packet changed. -/
def modForks (s : State) (c e id : Nat) (g : Fork → Fork) : State :=
  s.modEng c e fun y => { y with flights := y.flights.map fun f => if f.id = id then { f with forks := f.forks.map g } else f }

/-- A packet's branch dropped in a cycle (R286). -/
def Fork.drop (now : Nat) (k : Fork) : Fork :=
  let n := k.drops + 1
  { k with due := none, drops := n, back := now + backoff n, escape := k.escape || n ≥ 8 }

end State

/-- PACKET_NACK (R286, R287): a blocked packet is discarded; its source will send it again, for a COPY.M to the branches left unserved.
The escape channel never drops. -/
def execPacketNack (c id : Nat) (unserved : List Nat) (s : State) : Host.Outcome State Fault Refusal :=
  match s.packet? c id with
  | some p =>
    let ev := State.packetEvent c p
    if p.escape || !p.sent || !s.sch.agenda.any (fun d => d.ev == ev) then .refused (.notEnabled "PACKET_NACK")
    else .next ((s.modSch fun h => { h with agenda := h.agenda.filter fun d => d.ev != ev }).sendAgain c p)
  | none => match s.flight? c id with
    | none => .refused (.notEnabled "PACKET_NACK")
    | some (e, x, f) =>
      let now := s.now c
      let hit (k : Fork) : Bool := (!x.args.m || unserved.contains k.branch) && k.due.isSome && k.got = 0 && !k.escape
      if !f.forks.any hit then .refused (.notEnabled "PACKET_NACK")
      else
        let s := s.modForks c e id fun k => if hit k then State.Fork.drop now k else k
        .next ((f.forks.filter hit).foldl (fun (s : State) k => s.postQ c (State.Fork.drop now k).back (.packetResend c id)) s)

/-- PACKET_RESEND (R286): a backoff expires and what was dropped is sent again. -/
def execPacketResend (c id : Nat) (s : State) : Host.Outcome State Fault Refusal :=
  match s.packet? c id with
  | some p =>
    let (d, s) := s.packetReach c p
    .next (s.postQ c (s.now c + d) (State.packetEvent c p))
  | none => match s.flight? c id with
    | none => .refused (.notEnabled "PACKET_RESEND")
    | some (e, x, f) =>
      let now := s.now c
      let ready (k : Fork) : Bool := k.due.isNone && k.back ≤ now
      let w := s.engWho c e x
      let s := (f.forks.filter ready).foldl (fun s k =>
        let (d, s) := s.engReach w ((x.branches[k.branch]?.map (·.dst)).getD 0)
        s.modForks c e id fun q => if q.branch = k.branch then { q with due := some (now + d) } else q) s
      .next (s.engAsk c e (now + 1))

/-! ## Messages (R289 to R292) -/

/-- Word 0 of an entry. -/
def entryHead (n e : Nat) : Word := BitVec.ofBool (2 ^ e - 8 < n) ++ 0#22 ++ BitVec.ofNat 9 n

/-- An entry of a ring: its header and the payload it has room for (Table 4). -/
def entryBytes (rank e : Nat) (payload : List Word) : List Byte :=
  let n := 4 * payload.length
  leBytes 4 (entryHead n e).toNat ++ leBytes 4 ((0#8 : BitVec 8) ++ BitVec.ofNat 18 Config.thisModule ++ BitVec.ofNat 6 rank).toNat ++
    (payload.flatMap fun x => leBytes 4 x.toNat).take (2 ^ e - 8)

/-- A ring's exponents: log2 of an entry's bytes and of the entries. -/
def ringExps (cfg : Word) : Nat × Nat := ((cfg.extractLsb' 0 4).toNat, (cfg.extractLsb' 8 4).toNat)

namespace State

/-- A message is over: its slot is free, the regions its operation holds pass to its crew (R277), and its status lands with the
acknowledgement of its packet, which the latency to another module has in it (R283, R286). -/
def packetEnd (s : State) (c : Nat) (p : Packet) (ok : Bool) : State :=
  let (d, s) := if p.tag.any fun x => x.1.toNat != Config.thisModule then (0, s) else s.packetReach c p
  let now := s.now c
  let s := (s.modCore c fun k => { k with
    packets := k.packets.filter fun q => q.id != p.id,
    acks := (k.acks.filter (now < ·)) ++ [now + d] }).passEng c p.eslot p.ctx p.crew
  s.landAt c p.slot p.id p.setf (Iss.wstat p.status ok) (s.now c + d)

/-- A packet takes its payload from the scratchpad, once older accesses to it are performed, and leaves (R278, R292). -/
def packetTake (s : State) (c : Nat) (p : Packet) (off : Nat) : State :=
  let w : Who := ⟨c, p.ctx, p.crew, 0, none, some p.id⟩
  if (s.undone c p.before).any fun o => !o.reached && o.accs.any fun a => s.hits w a (ownSpace off) (4 * p.words) then
    s.postQ c (s.now c + 1) (packetEvent c p)
  else
    let (ws, ue, k) := s.scratchWords w off p.words
    if ue then s.consume p.ctx p.crew .ueData
    else
      let p := { p with take := none, payload := ws }
      ((s.modPacket c p.id fun _ => p).escape c p.slot k).packetSend c p

/-- Whether an earlier message of the same group to the same ring is still under way (R290, R294). -/
def packetHeld (s : State) (c : Nat) (p : Packet) : Bool :=
  ((s.core c).packets.takeWhile fun q => q.id != p.id).any fun q =>
    q.slot == p.slot && q.ctx == p.ctx && q.crew == p.crew && q.tag == p.tag &&
      (p.tag.isSome || (q.rank == p.rank && q.ring == p.ring))

/-- Whether the TAIL advance of a message may be made, a release at the smallest scope that covers sender and receiver (R290): what the
sender's group accessed before its MSEND is performed, and for another receiver the sender's store buffer is empty. -/
def packetReleased (s : State) (c : Nat) (p : Packet) (here : Bool) : Bool :=
  (s.undone c p.before).isEmpty && (here || ((s.crew? p.ctx p.crew).map fun k => k.sbuf.isEmpty).getD true)

/-- Whether a crew is suspended, so that its rings answer as full (R290). -/
def Crew.away (k : Crew) : Bool :=
  match k.st with
  | .suspended _ => true
  | _ => false

end State

/-- MESSAGE_ARRIVAL (R290): a message is appended to its ring, NACKed as full, or refused. -/
def execMessageArrival (c id : Nat) (s : State) : Host.Outcome State Fault Refusal :=
  match s.packet? c id with
  | none => .refused (.notEnabled "MESSAGE_ARRIVAL")
  | some p => match p.take with
    | some off => .next (s.packetTake c p off)
    | none =>
      if !p.sent then .next (s.packetSend c p)
      else if s.packetHeld c p then .next (s.postQ c (s.now c + 1) (.messageArrival c id))
      else
        let me := s.crew? p.ctx p.crew
        match me.bind fun k => s.member p.ctx k.gang p.rank with
        | none => .next (s.packetEnd c p false)
        | some m => match (m.rings[p.ring]?).join with
          | none => .next (s.packetEnd c p false)
          | some r =>
            let (e, n) := ringExps r.cfg
            let head := m.scratch.readWord r.base
            let tail := m.scratch.readWord (r.base + 4)
            if m.att == .detached || m.st == .held || m.st == .leaving then .next (s.packetEnd c p false)
            else if State.Crew.away m || (tail - head).toNat = 2 ^ n then .next (s.sendAgain c p)
            else if !s.packetReleased c p (m.id = p.crew) then .next (s.postQ c (s.now c + 1) (.messageArrival c id))
            else
              let at' := r.base + 64 + tail.toNat % 2 ^ n * 2 ^ e
              let bs := entryBytes ((me.map (·.grank)).getD 0) e p.payload
              let s := (s.scratchWrite p.ctx m.id at' bs).scratchWrite p.ctx m.id (r.base + 4) (leBytes 4 (tail + 1).toNat)
              .next (s.packetEnd c p true)

namespace State

/-- Bytes written at home at local addresses of a context by a device; none when a page is not mapped, is marked H or lets no store through (R137). -/
def virtWrite (s : State) (ctx va : Nat) (bs : List Byte) : Option State :=
  bs.zipIdx.foldl (fun (o : Option State) (b, i) => o.bind fun s => match s.walk ctx (va + i) with
    | .fault .. => none
    | .ok e => if e.h || !e.w then none else some (s.homeWriteAt (e.phys (va + i)) [b])) (some s)

/-- A word read at home at a local address by a device. -/
def virtWord (s : State) (ctx va : Nat) : Option Word :=
  match s.walk ctx va with
  | .fault .. => none
  | .ok e => if e.h then none else some (s.mem.readWord (e.phys va))

/-- R294: a tagged message appended to its armed ring, and its leg queued; none when the ring or the queue is full. -/
def fireTag (s : State) (c : Nat) (p : Packet) (t : Tag) (e n : Nat) (head tail : Word) : Option State :=
  let ring := Ptr.local t.ring
  let off := 64 + tail.toNat % 2 ^ n * 2 ^ e
  let rank := ((s.crew? p.ctx p.crew).map (·.grank)).getD 0
  if (tail - head).toNat = 2 ^ n then none
  else
    let s := s.markWalks p.ctx (Ptr.advance t.ring (off : Nat)) (8 + 4 * p.payload.length)
    match s.virtWrite p.ctx (ring + off) (entryBytes rank e p.payload) with
    | none => some (s.packetEnd c p false)
    | some s => match s.virtWrite p.ctx (ring + 4) (leBytes 4 (tail + 1).toNat) with
      | none => some (s.packetEnd c p false)
      | some s =>
        let s := s.markWalks p.ctx t.record 512
        match s.launchRecord p.ctx t.launcher t.record with
        | none => some ((s.packetEnd c p true).ringDone p.ctx (some (t.tag, tail.toNat)))
        | some r => (s.pushLeg p.ctx (Leg.queued r t.launcher 0 (some (Ptr.advance t.ring (off : Nat))) (some (t.tag, tail.toNat)))).map
            fun s => s.packetEnd c p true

end State

/-- TAGGED_MESSAGE_ARRIVAL (R294): a tagged message fires the launch its tag is bound to. One for another module is answered with a free
status (assumption 1). -/
def execTaggedMessageArrival (c id : Nat) (s : State) : Host.Outcome State Fault Refusal :=
  match s.packet? c id with
  | none => .refused (.notEnabled "TAGGED_MESSAGE_ARRIVAL")
  | some p => match p.take, p.tag with
    | some off, _ => .next (s.packetTake c p off)
    | none, none => .refused (.notEnabled "TAGGED_MESSAGE_ARRIVAL")
    | none, some (m, tag) =>
      if !p.sent then .next (s.packetSend c p)
      else if s.packetHeld c p || !s.packetReleased c p false then .next (s.postQ c (s.now c + 1) (.taggedMessageArrival c id))
      else if m.toNat ≠ Config.thisModule then
        let (n, s) := s.freeNat
        .next ((s.emit (.remote c p.id)).packetEnd c p (n % 2 == 1))
      else match (s.ctx p.ctx).tags.find? fun t => t.tag == tag with
        | none => .next (s.packetEnd c p false)
        | some t =>
          let ring := Ptr.local t.ring
          let s := s.markWalks p.ctx t.ring 12
          match s.virtWord p.ctx ring, s.virtWord p.ctx (ring + 4), s.virtWord p.ctx (ring + 8) with
          | some head, some tail, some cfg =>
            let (e, n) := ringExps cfg
            if e < 4 || 9 < e || n < 1 || 12 < n then .next (s.packetEnd c p false)
            else .next ((s.fireTag c p t e n head tail).getD (s.sendAgain c p))
          | _, _, _ => .next (s.packetEnd c p false)

/-! ## GDETACH (R303) -/

namespace State

/-- Whether a crew's engine operations, stream reads or accesses into the gang window are still to be done. -/
def windowBusy (s : State) (c ctx crew : Nat) : Bool :=
  (s.core c).eng.toList.any (fun e => match e with
    | some x => x.ctx == ctx && x.crew == crew && (Ptr.space x.src == 2 || x.branches.any fun b => Ptr.space b.dst == 2)
    | none => false) ||
  (s.core c).queues.toList.any (fun q => q.elems.any fun e => e.val.isNone && e.cause.isNone && Ptr.space e.ptr == 2 &&
    (((s.core c).streams[e.stream]?).join).any fun y => (s.group? c y.slot).any fun G => G.ctx == ctx && G.crew == crew) ||
  (s.core c).ops.any fun o => (s.opWho c o).ctx == ctx && (s.opWho c o).crew == crew && !o.done &&
    o.accs.any fun a => Ptr.space a.ptr == 2 && a.arr.isNone && a.cause.isNone

end State

/-- GDETACH_COMPLETE (R303): the crew leaves the window once its conditions hold. -/
def execGdetachComplete (c id : Nat) (s : State) : Host.Outcome State Fault Refusal :=
  match s.op? c id with
  | none => .refused (.notEnabled "GDETACH_COMPLETE")
  | some o =>
    let w := s.opWho c o
    match s.crew? w.ctx w.crew with
    | none => .refused (.notEnabled "GDETACH_COMPLETE")
    | some k => match k.att with
      | .attached .. =>
        if s.windowBusy c w.ctx w.crew then .next (s.postQ c (s.now c + 1) (.gdetachComplete c id))
        else
          let s := s.modCrew w.ctx w.crew fun k => { k with att := .detached }
          let s := s.finishOp c o (State.statusOf o.ins true) (s.now c)
          .next (([0, 1].foldl (fun s n => s.gangCheck w.ctx k.gang n c) s).retryHeld w.ctx k.gang)
      | _ => .next (s.finishOp c o (State.statusOf o.ins false) (s.now c))

end Sys2Proof.Machine
end

