-- ==== Sys2Proof/Machine/Stream.lean ====
section
/-! DEFINITION. The access slice (R295 to R299): streams, their queues, and ASDEF, ASGO, ASSTOP and QPOP. -/

namespace Sys2Proof.Machine

open Sys2Proof

/-! ## Descriptors (Table 5) -/

/-- A word of a descriptor. -/
def descW (d : Vector Word 16) (i : Nat) : Word := d[i]?.getD 0
/-- BASE. -/
def descBase (d : Vector Word 16) : Ptr := ptrOf (descW d 0) (descW d 1) (descW d 2)
/-- QUEUE. -/
def descQueue (d : Vector Word 16) : Nat := ((descW d 3).extractLsb' 4 3).toNat
/-- ESZ. -/
def descEsz (d : Vector Word 16) : Nat := ((descW d 3).extractLsb' 0 3).toNat
/-- NDIM, as the field stands. -/
def descNdim (d : Vector Word 16) : Nat := ((descW d 3).extractLsb' 8 2).toNat
/-- EXTENTj. -/
def descExtent (d : Vector Word 16) (j : Nat) : Nat := (descW d (5 + 2 * j)).toNat
/-- STRIDEj. -/
def descStride (d : Vector Word 16) (j : Nat) : Int := (descW d (4 + 2 * j)).toInt

/-- Whether a descriptor keeps Table 5, with BASE in spaces 0 to 4 (R298). -/
def descOk (d : Vector Word 16) : Bool :=
  let w := descW d 3
  w.extractLsb' 10 22 == 0 && !w.getLsbD 7 && !w.getLsbD 3 && descEsz d ≤ 4 && Ptr.space (descBase d) ≤ 4 &&
    (List.range 4).all (fun j => 1 ≤ descExtent d j && (j ≤ descNdim d || descExtent d j == 1)) &&
    (List.range 4).all fun j => descW d (12 + j) == 0

/-- The elements of a stream (R296). -/
def descCount (d : Vector Word 16) : Nat := descExtent d 0 * descExtent d 1 * descExtent d 2 * descExtent d 3

/-- The address of element `n`, i0 varying fastest (R296). -/
def descAddr (d : Vector Word 16) (n : Nat) : Ptr :=
  let i0 := n % descExtent d 0
  let n1 := n / descExtent d 0
  let i1 := n1 % descExtent d 1
  let n2 := n1 / descExtent d 1
  let i2 := n2 % descExtent d 2
  let i3 := n2 / descExtent d 2
  Ptr.advance (descBase d) (i0 * descStride d 0 + i1 * descStride d 1 + i2 * descStride d 2 + i3 * descStride d 3)

/-- The bytes of an element by its size code. -/
def eszBytes (z : Nat) : Nat := if z < 2 then 1 else if z < 4 then 2 else 4

/-- An element extended to 32 bits. -/
def eszExtend (z : Nat) (x : BitVec 128) : Word :=
  let w := x.extractLsb' 0 32
  if z = 1 then sextLow 8 w else if z = 3 then sextLow 16 w else zextLow (8 * eszBytes z) w

namespace State

/-- A stream of a core. -/
def stream? (s : State) (c n : Nat) : Option Stream := ((s.core c).streams[n]?).join

/-- A queue of a core. -/
def queue (s : State) (c q : Nat) : Queue := (s.core c).queues[q]?.getD ⟨none, []⟩

/-- The state with a stream replaced. -/
def setStream (s : State) (c n : Nat) (x : Option Stream) : State :=
  s.modCore c fun k => { k with streams := k.streams.setIfInBounds n x }

/-- The state with a queue replaced. -/
def setQueue (s : State) (c q : Nat) (x : Queue) : State := s.modCore c fun k => { k with queues := k.queues.setIfInBounds q x }

/-! ## Elements reach a QPOP -/

/-- Whether the queue's elements go to an operation: a QPOP on it of the claiming group that still takes some. -/
def takes (q : Nat) (g : Option Nat) (o : Op) : Bool :=
  match o.ins with
  | .qpop x => x.queue.val == q && g == some o.slot && (o.stage == .check || o.stage == .performed) && o.firstRead.getD 0 < popCount o.ins
  | _ => false

/-- The passes of a QPOP. -/
def qpopOcc (k : Core) (i : Instr) : Nat :=
  match i with
  | .qpop x => if x.vec then k.passes else 1
  | _ => 1

/-- The cycle in which an element that is there arrives at a QPOP: t + 4 or E + 4 at the earliest (Table 2). -/
def popArrival (s : State) (c : Nat) (o : Op) : Nat := max (s.now c) (o.t + qpopOcc (s.core c) o.ins - 1 + 4)

/-- What an element says of a lane that has taken it. -/
def fillAcc (t : Nat) (e : QElem) (a : Acc) : Acc :=
  let a := { a with ptr := e.ptr, nbytes := eszBytes e.esz, data := BitVec.ofNat 128 e.esz, cmp := BitVec.ofNat 64 (e.id + 1) }
  match e.val, e.cause with
  | some v, _ => { a with res := v.zeroExtend 128, km := if e.k then 1 else 0, arr := some t }
  | none, some .ueData => { a with arr := some t, cause := some .ueData }
  | none, some k => { a with cause := some k }
  | none, none => a

/-- The causes that a limited QPOP does not hide behind its guess (R167, R299). -/
def popHard (k : Cause) : Bool := !k.hides && k != .ueData

/-- A QPOP after its lanes have heard something: a demand pop lands or fails once every lane has its answer; a limited one posts its
arrivals, its FAULTED lanes enter its entry, and a marker that no guess hides stops it. -/
def qpopSettle (s : State) (c id : Nat) : State :=
  match s.op? c id with
  | none => s
  | some o => match ldInfo o.ins with
    | none => s
    | some i =>
      let w := s.opWho c o
      let bad := o.accs.filterMap fun a => a.cause.map fun k => (a.lane, k)
      if o.accs.any fun a => a.lim.isSome then
        let hits (a : Acc) : Bool := a.cause.any popHard && !s.laneShut c o a
        let hard := (o.accs.filter hits).filterMap fun a => a.cause.map fun k => (a.lane, k)
        if !hard.isEmpty then
          (s.modOp c id fun o =>
            { o with accs := o.accs.map fun a => if hits a then { a with cause := none, direct := true } else a }).hardFault c o hard
        else
          let s := s.postArrivals c id (o.accs.filter fun a => !a.dlv)
          if o.stage != .performed then s
          else s.modGroup c o.slot fun G =>
            o.accs.foldl (fun G a =>
              let G := { G with guesses := G.guesses.map fun e =>
                if e.id = id then { e with lanes := e.lanes.map fun l => if l.lane = a.lane then { l with ptr := a.ptr, w := accWidth o.ins i a } else l } else e }
              match a.arr, a.cause with
              | none, some k => G.failGuess id a.lane k
              | _, _ => G) G
      else if o.stage != .check || o.firstRead.getD 0 < popCount o.ins || !o.accs.all fun a => a.arr.isSome || a.cause.isSome then s
      else if bad.any fun x => x.2 == .ueData then s.consume w.ctx w.crew .ueData
      else if !bad.isEmpty then
        (s.modOp c id fun o => { o with accs := o.accs.map fun a => if a.cause.isSome then { a with direct := true } else a }).demandFault
          c o bad
      else
        let s := s.modOp c id fun o => { o with accs := o.accs.map fun a => { a with dlv := !i.trains } }
        let s := if i.trains then s.postArrivals c id o.accs else s
        s.perform c o (loadWrites i o.active o.accs) (s.latest c o.accs)

/-- The elements at the head of a queue taken by the QPOPs that wait for them, oldest first (R299). -/
def queueServe (s : State) (c q : Nat) : State :=
  let claim := (s.queue c q).claim
  ((s.core c).ops.filter (takes q claim)).foldl (fun s o =>
    let es := (s.queue c q).elems
    let have_ := o.firstRead.getD 0
    let n := min (popCount o.ins - have_) es.length
    if n = 0 then s
    else
      let t := s.popArrival c o
      let mine := (es.take n).zipIdx
      let s := s.setQueue c q { s.queue c q with elems := es.drop n }
      let s := s.modOp c o.id fun o =>
        { o with firstRead := some (have_ + n),
                 accs := o.accs.map fun a => match mine.find? fun x => have_ + x.2 == a.lane with
                   | some (e, _) => fillAcc t e a
                   | none => a }
      s.qpopSettle c o.id) s

/-- A lane of a QPOP that reads its address itself. -/
def popDirect (s : State) (c : Nat) (w : Who) (o : Op) (a : Acc) : Acc × Bool × State :=
  if !a.direct || a.arr.isSome || a.cause.isSome then (a, false, s)
  else match s.look w a.ptr a.nbytes false with
    | .bad k => ({ a with cause := some k }, false, s)
    | .walk va => (a.restart (s.now c), true, s.startWalk c w.ctx va)
    | .lent | .wait => (a.restart (s.now c), true, s)
    | l =>
      let (b, s) := s.readAcc c w o.id a l
      ({ b with res := (eszExtend o.due b.res).zeroExtend 128 }, false, s)

/-- A limited QPOP that issues again after a fault takes an entry, and its limit counts from then; none while the table is full (R148). One whose
limit has passed meanwhile is answered. -/
def qpopReissue (s : State) (c : Nat) (o : Op) : Option State :=
  let now := s.now c
  let ls := o.accs.filterMap fun a => a.lim
  match o.ins, s.group? c o.slot, ls.head? with
  | .qpop x, some G, some l =>
    if o.stage != .check then some s
    else if G.guesses.any fun e => e.id == o.id then some (if l ≤ now then s.postQ c now (.limitExpiry c o.id) else s)
    else if G.guesses.length ≥ 16 then none
    else
      let t := now + (l - o.t)
      some (((s.modOp c o.id fun o => { o with t := now, accs := o.accs.map fun a => { a with lim := some t } }).modGroup c o.slot fun G =>
        { G with guesses := G.guesses ++ [⟨o.id, gdest x.d, 1, x.slot, x.fp, .w, false, []⟩] }).postQ c t (.limitExpiry c o.id))
  | _, _, _ => some s

/-- ACCESS_CHECK_COMPLETE of a QPOP: a queue that another group has claimed, lanes read again, elements there to take. -/
def qpopCheck (s : State) (c : Nat) (o : Op) (q : Nat) : State :=
  if ((s.queue c q).claim.any fun g => g != o.slot) && o.firstRead.getD 0 < popCount o.ins && o.stage = .check then
    s.opFault c o { cause := .prot, scalar := true, pc := o.pc }
  else match s.qpopReissue c o with
  | none => s.askAgain c o
  | some s =>
    let o := (s.op? c o.id).getD o
    let w := s.opWho c o
    let (accs, again, s) := o.accs.foldl (fun (p : List Acc × Bool × State) a =>
      let z := if a.cmp = 0 then 4 else a.data.toNat
      let (a, r, s) := p.2.2.popDirect c w { o with due := z } a
      (p.1 ++ [a], p.2.1 || r, s)) ([], false, s)
    let s := s.modOp c o.id fun o => { o with accs := accs }
    let s := (s.qpopSettle c o.id).queueServe c q
    if again then s.askAgain c o else s

end State

/-! ## Streams at work (R296, R297) -/

/-- STREAM_ELEMENT_READ (R296): the read of the next element is issued when its queue has room and, for one that leaves the core, the copy buffer
is not full (R286). -/
def execStreamElementRead (c n : Nat) (s : State) : Host.Outcome State Fault Refusal :=
  match s.stream? c n with
  | none => .refused (.notEnabled "STREAM_ELEMENT_READ")
  | some x =>
    if !x.running then .refused (.notEnabled "STREAM_ELEMENT_READ")
    else
      let q := descQueue x.desc
      let again (s : State) : State := s.postQ c (s.now c + 1) (.streamElementRead c n)
      let paused := match s.group? c x.slot with
        | some G => (s.crew? G.ctx G.crew).any fun k => k.st == .suspending
        | none => true
      let full := s.bufferFull c && Ptr.space (descAddr x.desc x.next) != 1
      if paused || full || (s.queue c q).elems.length ≥ 384 || !(s.undone c x.before).isEmpty then .next (again s)
      else
        let (id, s) := s.fresh
        let p := descAddr x.desc x.next
        let ended := x.next + 1 ≥ descCount x.desc
        let y := s.queue c q
        let s := s.setQueue c q { y with elems := y.elems ++ [⟨id, n, p, descEsz x.desc, none, false, none⟩] }
        let s := s.setStream c n (some { x with next := x.next + 1, running := !ended, finished := ended })
        let w : Who := { ((s.group? c x.slot).map (·.who c)).getD ⟨c, 0, 0, 0, none, none⟩ with num := some id }
        let (d, s) := s.engReach w p
        let s := s.postQ c (s.now c + d) (.streamElementArrival c n id)
        let s := if ended then s else again s
        .next (s.queueServe c q)

namespace State

/-- A stream's element where it stands: in its queue, or taken by a QPOP. -/
def elem? (s : State) (c n id : Nat) : Option (QElem × Option Nat) :=
  match ((s.core c).queues.toList.flatMap fun q => q.elems).find? fun e => e.id == id && e.stream == n with
  | some e => some (e, none)
  | none =>
    let taken (o : Op) : Option (QElem × Option Nat) := (o.accs.find? fun a => a.cmp == BitVec.ofNat 64 (id + 1)).bind fun a =>
      match o.ins with
      | .qpop _ => if a.arr.isNone && a.cause.isNone then some (⟨id, n, a.ptr, a.data.toNat, none, false, none⟩, some o.id) else none
      | _ => none
    (s.core c).ops.findSome? taken

/-- An element's answer put where the element stands. -/
def putElem (s : State) (c : Nat) (e : QElem) (op : Option Nat) : State :=
  match op with
  | none => s.modCore c fun k =>
      { k with queues := k.queues.map fun q => { q with elems := q.elems.map fun x => if x.id = e.id then e else x } }
  | some id => match s.op? c id with
    | none => s
    | some o =>
      let t := s.popArrival c o
      (s.modOp c id fun o => { o with accs := o.accs.map fun a => if a.cmp = BitVec.ofNat 64 (e.id + 1) then fillAcc t e a else a }).qpopSettle
        c id

end State

/-- STREAM_ELEMENT_ARRIVAL (R296, R299): an element's read completes, or makes it a marker, as an access of the group that owns it. One whose
queue has let it go is discarded. -/
def execStreamElementArrival (c n id : Nat) (s : State) : Host.Outcome State Fault Refusal :=
  match s.elem? c n id with
  | none => .refused (.notEnabled "STREAM_ELEMENT_ARRIVAL")
  | some (e, op) =>
    let g := match op.bind (s.op? c) with
      | some o => o.slot
      | none => ((s.stream? c n).map (·.slot)).getD 32
    let w : Who := { ((s.group? c g).map (·.who c)).getD ⟨c, 0, 0, 0, none, none⟩ with num := some id }
    let z := eszBytes e.esz
    match s.lookNow w e.ptr z z false with
    | (.bad k, s) => .next (s.putElem c { e with cause := some k } op)
    | (.wait, s) | (.lent, s) | (.walk _, s) => .next (s.postQ c (s.now c + 1) (.streamElementArrival c n id))
    | (l, s) =>
      let ((x, ue, km), s) := s.readAt w l z
      let e := if ue then { e with cause := some .ueData } else { e with val := some (eszExtend e.esz x), k := km.getLsbD 0 }
      .next (s.putElem c e op)

/-! ## ASDEF, ASGO, ASSTOP (R298) -/

/-- ASDEF's effect: the status, and the core with the stream and its queue claimed. -/
def asdefDo (k : Core) (g n : Nat) (d : Vector Word 16) : Bool × Core :=
  let q := descQueue d
  let mine (x : Option Nat) : Bool := x.all fun y => y == g
  let st := (k.streams[n]?).join
  if !mine (st.map (·.slot)) || (st.map (·.running)).getD false || !descOk d || !mine ((k.queues[q]?.getD ⟨none, []⟩).claim) then
    (false, k)
  else
    (true, { k with streams := k.streams.setIfInBounds n (some ⟨g, d, false, false, 0, []⟩),
                    queues := k.queues.setIfInBounds q { (k.queues[q]?.getD ⟨none, []⟩) with claim := some g } })

/-- ASGO's effect: the status, and the core with the streams of a mask started. -/
def asgoDo (k : Core) (g : Nat) (mask : BitVec 8) (before : List Nat) : Bool × Core :=
  let ns := bitsOf mask
  let xs := ns.map fun n => (k.streams[n]?).join
  let ready (x : Option Stream) : Bool := x.any fun y => y.slot == g && !y.running
  let feeds := (k.streams.toList.filterMap fun x => x.bind fun y => if y.running then some (descQueue y.desc) else none) ++
    xs.filterMap fun x => x.map fun y => descQueue y.desc
  if !xs.all ready || feeds.dedup.length != feeds.length then (false, k)
  else
    let start (v : Vector (Option Stream) 8) (n : Nat) : Vector (Option Stream) 8 := match (v[n]?).join with
      | some x => v.setIfInBounds n (some { x with running := true, finished := false, next := 0, before := before })
      | none => v
    (true, { k with streams := ns.foldl start k.streams })

/-- ASSTOP's effect: the mask of those that had generated every element, and the core without the group's streams of a mask. -/
def asstopDo (k : Core) (g : Nat) (mask : BitVec 8) : Word × Core :=
  let own (n : Nat) : Bool := ((k.streams[n]?).join).any fun x => x.slot == g
  let ns := (bitsOf mask).filter own
  let fin := ns.filter fun n => ((k.streams[n]?).join).any (·.finished)
  let streams := ns.foldl (fun v n => v.setIfInBounds n none) k.streams
  let fed (q : Nat) : Bool := streams.toList.any fun x => x.any fun y => y.slot == g && descQueue y.desc == q
  let queues := Vector.ofFn fun (i : Fin 8) =>
    let q := k.queues[i]
    { q with elems := if q.claim = some g then q.elems.filter fun e => !ns.contains e.stream else q.elems,
             claim := if q.claim = some g && !fed i.val then none else q.claim }
  (fin.foldl (fun m n => m ||| (1#32 <<< n)) 0, { k with streams := streams, queues := queues })

namespace State

/-- The effect of ASDEF, ASGO and ASSTOP at t + 2. -/
def streamDo (s : State) (c : Nat) (o : Op) : State :=
  let k := s.core c
  let g := o.slot
  let now := s.now c
  match o.ins with
  | .asdef x =>
    let (b, k) := asdefDo k g x.stream.val (Vector.ofFn fun i => argAt o.args (i.val + 1))
    (s.setCore c k).finishOp c o (Iss.wstat x.d b) now
  | .asgo x =>
    let mask := (argAt o.args 0).extractLsb' 0 8
    let (b, k) := asgoDo k g mask ((s.olderOps c o).map (·.id))
    let s := (s.setCore c k).finishOp c o (Iss.wstat x.d b) now
    if b then (bitsOf mask).foldl (fun s n => s.postQ c (now + 1) (.streamElementRead c n)) s else s
  | .asstop x =>
    let (w, k) := asstopDo k g ((argAt o.args 0).extractLsb' 0 8)
    let ws : List RegWrite := match x.d with
      | .s n => if n.val < 125 then [.sreg n.val ⟨w, false⟩] else [.xmask o.split (n.val - 125) w]
      | _ => []
    (s.setCore c k).finishOp c o ws now
  | _ => s

/-- ACCESS_CHECK_COMPLETE of ASDEF, ASGO and ASSTOP: their effect, or the descriptor's range checked again (R144). -/
def streamCheck (s : State) (c : Nat) (o : Op) : State :=
  if o.stage = .waiting then s.streamDo c o
  else
    let w := s.opWho c o
    let off := argAt o.args 0
    match o.ins with
    | .asdef _ => match s.early w (ownSpace off.toNat) 64 64 false with
      | some k => s.opFault c o { cause := k, scalar := true, pc := o.pc, ptr := ownSpace off.toNat }
      | none =>
        let (ws, ue, k) := s.scratchWords w off.toNat 16
        if k then s.opFault c o { cause := .kConsume, scalar := true, pc := o.pc }
        else if ue || o.cause = some .ueData then s.consume w.ctx w.crew .ueData
        else (s.modOp c o.id fun o => { o with stage := .waiting, args := off :: ws }).postQ c (max (s.now c) (o.t + 2)) (.accessCheckComplete c o.id)
    | _ => (s.modOp c o.id fun o => { o with stage := .waiting }).postQ c (max (s.now c) (o.t + 2)) (.accessCheckComplete c o.id)

end State

namespace Iss

/-- An instruction whose effect lands at t + 2 (Table 2). -/
def later2 (I : Iss) (ins : Instr) (args : List Word) (result : Bool) : Res :=
  .done ((I.s.addOp I.c { I.op ins [] with args := args, stage := .waiting }).postQ I.c (I.t + 2) (.accessCheckComplete I.c I.id))
    { comp := .later result, unit := .lsu, charge := 4 }

end Iss

/-- ASDEF: the descriptor is read at issue. -/
def execAsdef (x : AsdefA) (s : State) : Host.Outcome State Fault Refusal :=
  issue x.h { reads := [x.a], all := true } s fun I =>
    let a := I.sval true x.a
    let off := a.val.toNat
    let (ws, ue, k) := I.s.scratchWords I.who off 16
    let p := ownSpace off
    if !I.qok then I.ok { comp := .flag (I.t + 1), unit := .lsu, charge := 4 }
    else if a.k then .stop I.kAll
    else match I.s.early I.who p 64 64 false with
      | some .prot =>
        .done (I.s.addOp I.c { I.op (.asdef x) [] with args := [a.val], stage := .logged })
          { comp := .later x.d.isSome, unit := .lsu, charge := 4, serviced := some (I.scalar .prot p) }
      | some k => .stop (I.scalar k p)
      | none =>
        if k then .stop I.kAll
        else if ue then .ue .ueData
        else I.later2 (.asdef x) (a.val :: ws) x.d.isSome

/-- ASGO. -/
def execAsgo (x : St1A) (s : State) : Host.Outcome State Fault Refusal :=
  issue x.h { reads := [x.a], all := true } s fun I =>
    let a := I.sval true x.a
    if !I.qok then I.ok { comp := .flag (I.t + 1), unit := .lsu, charge := 4 }
    else if a.k then .stop I.kAll
    else I.later2 (.asgo x) [a.val] x.d.isSome

/-- ASSTOP. -/
def execAsstop (x : UnA) (s : State) : Host.Outcome State Fault Refusal :=
  issue x.h { reads := [x.a], all := true } s fun I =>
    let a := I.sval true x.a
    if !I.qok then I.ok { comp := .flag (I.t + 1), unit := .lsu, charge := 4 }
    else if a.k then .stop I.kAll
    else I.later2 (.asstop x) [a.val] (match x.d with
      | .s _ => true
      | _ => false)

/-! ## QPOP (R299) -/

/-- QPOP: elements from the head of a queue, by demand or within a limit. -/
def execQpop (x : QpopA) (s : State) : Host.Outcome State Fault Refusal :=
  let ins : Instr := .qpop x
  issue x.h { dsts := [x.d] } s fun I =>
    let k := I.s.core I.c
    let occ := if x.vec then I.P else 1
    let d := gdest x.d
    let e : Eff := { comp := .later (d != .none), occ := occ, unit := .lsu, charge := 2 + 2 * occ }
    let lim := x.lsel != 0 && !I.s.exactAt I.c I.G.ctx
    let lanes := if x.vec then bitsOf I.active else [0]
    let t := I.t + max 4 (I.wlim x.lsel.val)
    let acc (l : Nat) : Acc := { I.acc l (I.t + k.passOf l) 0 false 4 with lim := if lim then some t else none }
    let o : Op := { I.op ins (lanes.map acc) with firstRead := some 0, args := I.lane0Gone d }
    if I.active = 0 || !I.qok then I.ok { e with comp := .flag I.t }
    else if ((I.s.queue I.c x.queue.val).claim.any fun g => g != I.g) then
      .done (I.s.addOp I.c { o with stage := .logged }) { e with serviced := some (I.scalar .prot) }
    else if lim && I.G.guesses.length ≥ 16 then .hold I.s
    else
      let s := I.s.addOp I.c o
      let s := if lim then
          (s.postQ I.c t (.limitExpiry I.c I.id)).modGroup I.c I.g fun G =>
            { G with guesses := G.guesses ++ [⟨I.id, d, 1, x.slot, x.fp, .w, false, []⟩] }
        else s
      .done (s.postQ I.c I.t (.accessCheckComplete I.c I.id)) e

end Sys2Proof.Machine
end

