-- ==== Sys2Proof/Machine/Places.lean ====
section
/-! DEFINITION. Places and topology (R333 to R335), quiesce points (R113, R117, R172), and the forced reset of a context (R328). -/

namespace Sys2Proof.Machine

open Sys2Proof

/-! ## The place table -/

/-- LCLUS, POS, DIE and CORE of an entry (Table 4). -/
structure PlaceF where
  lclus : Nat
  pos : Nat
  die : Nat
  core : Nat
  deriving DecidableEq, Repr

/-- The fields of an entry. -/
def placeF (e : Word) : PlaceF :=
  ⟨(e.extractLsb' 25 6).toNat, (e.extractLsb' 23 2).toNat, (e.extractLsb' 19 2).toNat, (e.extractLsb' 11 8).toNat⟩

/-- An entry's place in the order of R334: die, logical cluster, position. -/
def PlaceF.key (p : PlaceF) : Nat := p.die * 256 + p.lclus * 4 + p.pos

/-- Whether an entry may be stored: its fields in range and its reserved bits 0. -/
def entryOk (e : Word) : Bool :=
  e.extractLsb' 21 2 == 0 && e.extractLsb' 0 11 == 0 && (placeF e).lclus ≤ 47 && (placeF e).core ≤ 191

/-- Whether each value of a list is below the next. -/
def rising : List Nat → Bool
  | a :: b :: l => a < b && rising (b :: l)
  | _ => true

/-- R334: whether a place table is well formed. -/
def placesOk (t : List Word) : Bool :=
  let es := t.takeWhile fun e => e.getLsbD 31
  let fs := es.map placeF
  let phys := fs.map fun f => f.die * 192 + f.core
  (t.drop es.length).all (fun e => !e.getLsbD 31) && es.all entryOk && phys.dedup.length == phys.length && rising (fs.map PlaceF.key) &&
    fs.all fun f => fs.all fun g => !(f.die == g.die && f.lclus == g.lclus) || f.core / 4 == g.core / 4

/-- A group that stands at a run boundary, as R113 counts it. -/
def Group.atBoundary (G : Group) : Bool := G.cur.isNone || G.stopped

namespace State

/-- R335: a change of a context's place table: TOPOSEQ counts it, TOPOCHG is set in every group, and the host has a TOPO record. -/
def topoChange (s : State) (ctx : Nat) : State :=
  let s := s.modCtx ctx fun x => { x with toposeq := x.toposeq + 1 }
  let mark (g : Option Group) : Option Group := g.map fun G => if G.ctx = ctx then { G with spec := { G.spec with topochg := true } } else G
  let tell (k : Core) : Core :=
    if k.groups.toList.any fun g => g.any fun G => G.ctx == ctx then { k with groups := k.groups.map mark } else k
  let s : State := { s with cores := s.cores.map tell }
  let s := s.modCtx ctx fun x =>
    { x with crews := x.crews.map fun k => { k with kept := { k.kept with groups := k.kept.groups.map fun g => { g with topo := true } } } }
  s.record ctx (BitVec.ofNat 32 Cause.topo.code.toNat) 0 0xFFFF 0 0 0 3

/-- EXACT as a context reads it (R172). -/
def exactOf (s : State) (ctx : Nat) : Bool := (s.ctx ctx).exact || (s.ctx ctx).forced

/-- R334, R344: an entry written, when the table stays well formed and no crew stands on the old or the new core; none when it may not
be. Storing the value an entry holds changes nothing. -/
def placeWrite (s : State) (ctx i : Nat) (e : Word) : Option State :=
  let x := s.ctx ctx
  match x.place[i]? with
  | none => none
  | some old =>
    if old = e then some s
    else
      let t := x.place.setIfInBounds i e
      let cs := (placeCore old).toList ++ (placeCore e).toList
      let busy := x.crews.any fun k => k.onCore && cs.contains k.core
      if !entryOk e || !placesOk t.toList || busy then none
      else
        let s := (s.modCtx ctx fun x => { x with place := t }).topoChange ctx
        let s := match placeCore e with
          | some c => s.modCore c fun k => { k with exact := k.exact.setIfInBounds ctx (s.exactOf ctx) }
          | none => s
        some ((s.retryGangs ctx).postNow (.legAdmission ctx))

/-- R334, R349: a core leaves a context's table, the higher entries moving down by one. -/
def placeRemove (s : State) (ctx c : Nat) : State :=
  match (s.ctx ctx).logical c with
  | none => s
  | some n =>
    (s.modCtx ctx fun x =>
      { x with place := Vector.ofFn fun i => if i.val < n then x.place[i] else x.place[i.val + 1]?.getD 0 }).topoChange ctx

/-! ## Quiesce points -/

/-- Whether something waits for a core's next quiesce point: a lane to be fenced, or EXACT. -/
def quiescing (s : State) (c : Nat) : Bool :=
  let k := s.core c
  k.lanePend != 0 || (List.range 16).any fun x => (k.exact[x]?).getD true != s.exactOf x && ((s.ctx x).logical c).isSome

/-- Whether a core stands at a quiesce point (R113, R199): every group at a run boundary, and no token instruction in flight. -/
def quiet (s : State) (c : Nat) : Bool :=
  (s.core c).groups.toList.all (fun g => g.all fun G => G.atBoundary) &&
    !(s.core c).ops.any fun o => isToken o.ins && (o.stage == .check || o.stage == .home)

/-- Instructions whose wait a suspension or a quiesce point cancels, to issue again (R199, R223, R239, R299). -/
def cancels (i : Instr) : Bool :=
  match i with
  | .wpwait _ | .waita _ | .tktake _ => true
  | .tld x => x.aon
  | _ => false

/-- An operation as it issues again in cycle `t` from its captured operands, its limits counting from there. What a QPOP has taken stays
taken (R299); anything else starts from its first read. -/
def Op.anew (o : Op) (t : Nat) : Op :=
  let lim (l : Nat) : Nat := t + (l - o.t)
  let o' : Op := { o with
    t := t, stage := .check, accs := o.accs.map fun a => { a with start := t, arr := a.arr.map (min t), lim := a.lim.map lim } }
  match o.ins with
  | .wpwait _ | .waita _ | .tld _ | .tst _ =>
    { o' with firstRead := none, data := [], limit := o.limit.map lim, accs := o'.accs.map fun a => { a with arr := none } }
  | _ => o'

/-- The limit of an operation that waits on another party on the agenda. -/
def postOpLimit (s : State) (c : Nat) (o : Op) : State :=
  match o.ins, o.limit with
  | .wpwait _, some t | .waita _, some t => s.postQ c t (.waitLimitExpiry c o.id)
  | .tld _, some t | .tst _, some t => s.postQ c t (.aonLimitExpiry c o.id)
  | _, _ => s

/-- The waiting instances of a core's groups issue again from their captured operands. -/
def rewait (s : State) (c : Nat) (f : Op → Bool) : State :=
  ((s.core c).ops.filter fun o => cancels o.ins && o.stage == .waiting && f o).foldl (fun s o =>
    let o := Op.anew o (s.now c + 1)
    (((s.modOp c o.id fun _ => o).setWatch c o.id none).postOpLimit c o).postQ c (s.now c + 1) (.accessCheckComplete c o.id)) s

end State

/-- QUIESCE_POINT (R113, R117, R172): lanes are fenced and EXACT takes its value once the core is quiet. -/
def execQuiescePoint (c : Nat) (s : State) : Host.Outcome State Fault Refusal :=
  if !s.quiescing c then .refused (.notEnabled "QUIESCE_POINT")
  else if !s.quiet c then .next (s.postQ c (s.now c + 1) (.quiescePoint c))
  else
    let s := s.modCore c fun k =>
      { k with lmap := k.lmap &&& ~~~k.lanePend, lanePend := 0, exact := Vector.ofFn fun i => s.exactOf i.val }
    let s := s.rewait c fun _ => true
    .next (if (s.core c).good < 16 && (s.core c).enabled then s.postNow (.coreLoss c) else s)

/-! ## Forced reset (R328) -/

namespace State

/-- The holder that outlives a reset: a launcher that is a crew of the context stands for its own launcher in turn. -/
def survivor (s : State) (ctx : Nat) : Nat → Word → Word
  | 0, _ => holderId 7 ctx 0
  | n + 1, h =>
    if holderClass h = 1 && holderCtx h = ctx then
      match (s.crew? ctx (holderIndex h)).bind fun k => s.leg? ctx k.leg with
      | some l => survivor s ctx n l.launcher
      | none => holderId 7 ctx 0
    else h

/-- The regions that token instructions of a crew's groups, its exit, or the grants of its start are flushing (R192, R199). -/
def crewFlushing (s : State) (ctx : Nat) (k : Crew) : List Nat :=
  ((s.core k.core).ops.filterMap fun o => match o.ins with
    | .tklend _ | .tkret _ =>
      let w := s.opWho k.core o
      if w.ctx = ctx && w.crew = k.id && o.firstRead.isSome then o.limit else none
    | _ => none) ++ (k.flush.map (·.bases)).getD []

/-- The tokens of one crew of a context that is reset (R199): those of a committed crew follow R192, and so does a region whose flush the reset
cut short, `cut`. -/
def resetTokens (s : State) (ctx : Nat) (k : Crew) (cut : List Nat) : State :=
  let mine (h : Word) : Bool := ofCrew ctx k.id h
  let launcher := ((s.leg? ctx k.leg).map (·.launcher)).getD noHolder
  let up := s.survivor ctx (s.ctx ctx).crews.length launcher
  let s := (s.ctx ctx).regions.foldl (fun s r =>
    if r.st == .lent && cut.contains r.base then s.orphan ctx r
    else if !mine r.owner || r.st == .free then s
    else if k.committed then (s.dropLines k.core ctx r.base r.k).orphan ctx r
    else s.passRegion ctx k.core r (heir ctx k.id up r) noHolder) s
  let s := ((s.ctx ctx).regions.filter fun r => mine r.lender).foldl (fun s r => (s.dropTok ctx r).modCtx ctx fun x =>
    x.setRegion { r with lender := up }) s
  let hs := ((s.ctx ctx).shares.filter fun y => mine y.holder).map fun y => (y.base, y.holder)
  let s := hs.foldl (fun s (b, h) => match (s.ctx ctx).regionAt b with
    | some r => s.returnShare ctx r h 65535
    | none => s) s
  s.modCaches k.core fun c => { c with pins := c.pins.filter fun p => !(p.ctx == ctx && p.crew == k.id) }

/-- R328: a context's forced reset. Its legs complete, their grants returned (R190). Its place table, page tables and token-table area stay. -/
def resetCtx (s : State) (ctx : Nat) : State :=
  let x := s.ctx ctx
  let s := (x.legs ++ x.queue).foldl (fun (s : State) l => s.writeDone ctx l 4 l.exited) s
  let cuts := x.crews.map fun k => if k.onCore || k.flush.isSome then s.crewFlushing ctx k else []
  let s := x.crews.foldl (fun (s : State) k => if k.onCore then (s.dropGroups ctx k.id).releaseArray k.core ctx k.id else s) s
  let s := (x.crews.zip cuts).foldl (fun (s : State) p => s.resetTokens ctx p.1 p.2) s
  let s := x.legs.foldl (fun (s : State) l => s.returnGrants ctx { l with launcher := s.survivor ctx x.crews.length l.launcher }) s
  let s := s.modCtx ctx fun x =>
    { x with crews := [], legs := [], queue := [], tags := [], reservations := [], deadlines := [],
             regs := { x.regs with state := 0, preempt := false, cbusy := false, cfail := x.regs.cfail || x.regs.cbusy } }
  let s := (x.crews.filter (·.onCore)).foldl (fun (s : State) k => s.leaveTenant k.core ctx) s
  let stale (t : Due) : Bool := match t.ev with
    | .crewStart c _ | .crewRelaunch c _ | .gangReservation c _ | .legComplete c _ | .crewSave c _ | .crewExitRelease c _ => c == ctx
    | _ => false
  let s := s.modSch fun h => { h with agenda := h.agenda.filter fun t => !stale t }
  ((s.record ctx (BitVec.ofNat 32 Cause.preemptKill.code.toNat) 0 0xFFFF 0 0 0 7).wakeRegions).retryAll

end State

end Sys2Proof.Machine
end

