-- ==== Sys2Proof/Machine/Resil.lean ====
section
/-! DEFINITION. Reliability (chapter 16, R346 to R349): events, lasting faults, windows, and the loss of a core. -/

namespace Sys2Proof.Machine

open Sys2Proof

/-! ## Units -/

/-- The die whose controller counts a unit. -/
def UnitId.die : UnitId → Nat
  | .lane c _ | .strip c _ | .core c => dieOf c
  | .slice d _ => d.val
  | .port n => n.val / 8
  | .bnd d _ => d.val

/-- UNIT, DIE and NUMBER of a unit (R384, Table 7). -/
def UnitId.code : UnitId → BitVec 8 × BitVec 8 × BitVec 16
  | .lane c l => (0, BitVec.ofNat 8 (dieOf c), BitVec.ofNat 16 (c * 32 + l.val))
  | .strip c i => (1, BitVec.ofNat 8 (dieOf c), BitVec.ofNat 16 (c * 8 + i.val))
  | .core c => (2, BitVec.ofNat 8 (dieOf c), BitVec.ofNat 16 c)
  | .slice d i => (3, BitVec.ofNat 8 d.val, BitVec.ofNat 16 i.val)
  | .port n => (4, 4, BitVec.ofNat 16 n.val)
  | .bnd d g => (4, BitVec.ofNat 8 d.val, BitVec.ofNat 16 g)

/-- The core a unit belongs to. -/
def UnitId.core? : UnitId → Option Nat
  | .lane c _ | .strip c _ | .core c => some c
  | _ => none

namespace State

/-- An event record kept by the controller, which holds the last 4,096 (R384). -/
def keepEvent (s : State) (e : EvRec) : State :=
  let r := s.rel
  let full := r.events.length ≥ 4096
  { s with rel := { r with events := (if full then r.events.drop 1 else r.events) ++ [e], dropped := if full then r.dropped + 1 else r.dropped } }

/-- A record of a unit's event to the host (R347): an event record, and a record of KIND 5 in every context that is enabled. -/
def tellEvent (s : State) (u : UnitId) (cls : BitVec 8) (n : Nat) : State :=
  let (unit, die, number) := UnitId.code u
  let win := BitVec.ofNat 32 ((s.rel.window[UnitId.die u]?).getD 0)
  let s := s.keepEvent ⟨unit, die, number, cls, BitVec.ofNat 8 n, win⟩
  ((List.range 16).filter fun x => (s.ctx x).regs.en).foldl (fun (s : State) x =>
    s.record x 0 0 (((UnitId.core? u).map (s.coreNo x)).getD 0xFFFF) 0 0 0 5) s

/-- Whether `n` slices of a die from one on are all fenced. -/
def slicesGone (s : State) (die lo n : Nat) : Bool := (List.range n).all fun j => s.slices.getLsbD (64 * die + lo + j)

/-- A die without a slice (R13): every context is reset, and the host has a machine-check record that names the die, in the word that names
a leg otherwise (assumption 112). -/
def dieGone (s : State) (die : Nat) : State :=
  (((List.range 16).foldl (fun (s : State) x => s.resetCtx x) s).emit (.machineCheck die)) |> fun s =>
    ((List.range 16).filter fun x => (s.ctx x).regs.en).foldl (fun (s : State) x => s.record x 0 0 0xFFFF 0 (BitVec.ofNat 32 die) 0 2) s

/-- The effect of a lasting fault (Table 1 of chapter 16; R13, R347). -/
def lasting (s : State) (u : UnitId) : State :=
  let s : State := { s with rel := { s.rel with lasting := if s.rel.lasting.contains u then s.rel.lasting else u :: s.rel.lasting } }
  match u with
  | .lane c l => (s.modCore c fun k => { k with lanePend := k.lanePend ||| (1#32 <<< l.val) }).postNow (.quiescePoint c)
  | .strip c i => (s.modCore c fun k => { k with mx := { k.mx with stripPend := k.mx.stripPend ||| (1#8 <<< i.val) } }).fenceStrips c
  | .core c => s.postNow (.coreLoss c)
  | .slice d i =>
    let s : State := { s with slices := s.slices ||| (1#256 <<< (64 * d.val + i.val)) }
    let q := i.val / 16
    let s := if s.slicesGone d.val 0 64 then s.dieGone d.val else s
    if s.slicesGone d.val (16 * q) 16 then
      (List.range 48).foldl (fun (s : State) j => s.postNow (.coreLoss (d.val * 192 + q * 48 + j))) s
    else s
  | _ => s

/-- A unit's event counted and told to the host: the third within one window makes the fault lasting (R346, R347). -/
def countEvent (s : State) (u : UnitId) (corrected : Bool) : State :=
  let n := min 3 (((s.rel.counts.find? fun x => x.1 == u).map (·.2)).getD 0 + 1)
  let known := s.rel.lasting.contains u
  let s : State := { s with rel := { s.rel with counts := (u, n) :: s.rel.counts.filter fun x => x.1 != u } }
  if n < 3 then s.tellEvent u (if corrected then 0 else 1) n
  else if known then s.tellEvent u 2 n else (s.tellEvent u 2 n).lasting u

/-- A vector register's lane made uncorrectable. -/
def putVec (s : State) (c g : Nat) (r : VecName) (lane : Nat) : State := s.modGroup c g fun G => { G with ueRegs := (r, lane) :: G.ueRegs }

/-- An uncorrectable error where it lies (R348, R355). -/
def putError (s : State) (c : Nat) (l : ErrLoc) : State :=
  match l with
  | .vreg g r lane => s.putVec c g (.v r.val) lane
  | .oreg g r lane => s.putVec c g (.o r.val) lane
  | .lreg g r lane => s.putVec c g (.l r.val) lane
  | .preg g r lane => s.modGroup c g fun G => { G with ueP := (r.val, lane) :: G.ueP }
  | .sreg g n => s.modGroup c g fun G => { G with ueS := n :: G.ueS }
  | .scratch x k w => s.modCrew x k fun q => { q with ueWords := w :: q.ueWords.filter (· != w) }
  | .bank n i j => s.modCore c fun k => k.modBank n fun b => { b with ue := (i, j) :: b.ue }
  | .tile n w => s.modCore c fun k => k.modTile n fun t => { t with ue := w :: t.ue.filter (· != w) }
  | .l1 pa => s.setL1 c ((s.core c).caches.l1.map fun x =>
      if x.pa = pa / 128 * 128 then { x with ue := x.ue ||| (1#128 <<< (pa % 128)) } else x)
  | .home n => { s with ueLines := n :: s.ueLines.filter (· != n) }

end State

/-- ERROR_EVENT (R346): a unit counts an event, which may leave an uncorrectable datum behind; one in a line of floor or far memory counts
against no unit (R348). -/
def execErrorEvent (u : UnitId) (corrected : Bool) (loc : Option ErrLoc) (s : State) : Host.Outcome State Fault Refusal :=
  match u, loc with
  | _, some (.home n) => .next (if corrected then s else s.putError 0 (.home n))
  | .core c, some l => .next ((if corrected then s else s.putError c l).countEvent u corrected)
  | _, _ => .next (s.countEvent u corrected)

/-- ERROR_WINDOW_EXPIRY (R347): a die's window ends and its units' counts clear. -/
def execErrorWindowExpiry (die : Nat) (s : State) : Host.Outcome State Fault Refusal :=
  if die < 4 then
    .next { s with rel := { s.rel with
      counts := s.rel.counts.filter fun x => UnitId.die x.1 != die,
      window := s.rel.window.setIfInBounds die ((s.rel.window[die]?).getD 0 + 1) } }
  else .refused (.notEnabled "ERROR_WINDOW_EXPIRY")

namespace State

/-- The cause that answers an access still in flight to a scratchpad of a lost core (R349). -/
def lostTo (s : State) (lost : Nat) (w : Who) (p : Ptr) : Option Cause :=
  let k : Option Cause := match Ptr.space p with
    | 2 => some .gangGone
    | 3 => some .illPtr
    | _ => none
  match s.route w p 1 false with
  | .ok (.scratch m _) => if (s.crew? w.ctx m).any fun q => q.core == lost then k else none
  | _ => none

/-- An operation's accesses in flight to a lost core answered; a wait that monitors a word there has its check anew. -/
def lostOp (s : State) (lost c : Nat) (o : Op) : State :=
  let w := s.opWho c o
  let waits : Bool := match o.ins with
    | .wpwait _ | .waita _ => o.stage == .waiting
    | _ => false
  let hit (a : Acc) : Option Cause :=
    if a.cause.isSome || (a.arr.isSome && !waits) || o.stage == .logged then none else s.lostTo lost w a.ptr
  if o.accs.all fun a => (hit a).isNone then s
  else
    let s := s.modOp c o.id fun o =>
      { o with stage := if waits || o.stage = .lent then .check else o.stage, accs := o.accs.map fun a => match hit a with
          | some k => { a with cause := some k, arr := none }
          | none => a }
    (if waits then s.setWatch c o.id none else s).postQ c (s.now c) (.accessCheckComplete c o.id)

/-- A COPY with a packet in flight to a lost core, or that is reading there, pauses. -/
def lostCopy (s : State) (lost c e : Nat) : State :=
  match s.eng? c e with
  | none => s
  | some x =>
    let w := s.engWho c e x
    let ps := (if x.sent < x.words && x.from' ≤ s.now c then [x.src] else []) ++
      x.flights.flatMap fun f => f.forks.filterMap fun k => (x.branches[k.branch]?).map fun b => Ptr.advance b.dst (4 * (f.first + k.got) : Nat)
    match ps.findSome? fun p => (s.lostTo lost w p).map fun k => (k, p) with
    | some (k, p) => if x.paused.isSome then s else s.engPause c e (.bad k p)
    | none => s

/-- The reads in flight of the streams of a core that a lost core answers. -/
def lostStreams (s : State) (lost c : Nat) : State :=
  let hit (e : QElem) : Option Cause :=
    if e.val.isSome || e.cause.isSome then none
    else (((s.core c).streams[e.stream]?).join).bind fun x => (s.group? c x.slot).bind fun G => s.lostTo lost (G.who c) e.ptr
  s.modCore c fun k => { k with queues := k.queues.map fun q => { q with elems := q.elems.map fun e => match hit e with
    | some k => { e with cause := some k }
    | none => e } }

/-- R349, point 4: what is in flight to the scratchpads of a lost core is answered. -/
def answerLost (s : State) (lost : Nat) : State :=
  (List.range 768).foldl (fun s c =>
    let k := s.core c
    if c = lost then s
    else
      let s := k.ops.foldl (fun s o => s.lostOp lost c o) s
      let s := (List.range 64).foldl (fun s e => if ((k.eng[e]?).join).isNone then s else s.lostCopy lost c e) s
      if k.queues.toList.all (·.elems.isEmpty) then s else s.lostStreams lost c) s

/-- The regions that a core was still flushing when it was lost (R192): for a lend, a return, a crew's exit, or a piece lent to a starting
crew. -/
def flushing (s : State) (c ctx : Nat) : List Nat :=
  ((s.core c).ops.filterMap fun o => match o.ins with
    | .tklend _ | .tkret _ => if (s.opWho c o).ctx = ctx && o.firstRead.isSome then o.limit else none
    | _ => none) ++
  (s.ctx ctx).crews.flatMap fun k => match k.flush with
    | some f => if f.core = c then f.bases else []
    | none => []

end State

/-- CORE_LOSS (R349): the core stops; its crews are rolled back or their legs aborted, its tokens pass, and every context loses its
place. -/
def execCoreLoss (c : Nat) (s : State) : Host.Outcome State Fault Refusal :=
  if !(s.core c).enabled || 768 ≤ c then .refused (.notEnabled "CORE_LOSS")
  else
    let flushes := (List.range 16).map (s.flushing c)
    let s := s.answerLost c
    let s : State := { s with watch := s.watch.filter fun w => w.core != c }
    let s := s.modCore c fun k =>
      { k with enabled := false, ops := [], packets := [], acks := [], badWalks := [], eng := Vector.replicate 64 none, streams := Vector.replicate 8 none,
               queues := Vector.replicate 8 ⟨none, []⟩, caches := { k.caches with tlb := [], l1 := [] }, stalled := none, stallers := [],
               frozen := none }
    let ks := s.crewsOn c
    let those (b : Bool) (x : Nat) : List Nat := (ks.filter fun p => p.1 == x && p.2.onCore && p.2.committed == b).map fun p => p.2.id
    let xs := List.range 16
    let kept := xs.map (those false)
    let lost := xs.map (those true)
    let s := ks.foldl (fun (s : State) (x, k) =>
      if k.onCore then s.rollback x k.id .ueData (some c)
      else s.modCtx x fun y => { y with reservations := y.reservations.filter fun r => !r.2.contains k.id }) s
    let s := xs.foldl (fun (s : State) x => s.failTokens x c ((kept[x]?).getD []) ((lost[x]?).getD []) ((flushes[x]?).getD [])) s
    let s := s.modCore c fun k => { k with groups := Vector.replicate 32 none, mx := { Matrix.reset with fenced := k.mx.fenced } }
    .next ((xs.foldl (fun (s : State) x => s.placeRemove x c) s).wakeRegions.retryAll)

end Sys2Proof.Machine
end

