-- ==== Sys2Proof/Machine/System.lean ====
section
/-! DEFINITION. System instructions (chapter 15, R338 to R345): SRD, SWR, TRAP, SPAWN, LAUNCH, TBINV, PLACEW and FINJ, and the completion of a
TLB invalidation. -/

namespace Sys2Proof.Machine

open Sys2Proof

/-! ## Special registers (R74, Table 11) -/

/-- Whether an index lies in the range of an indexed register (R74); `n` is CORECNT. -/
def indexOk (sel : SReg) (n i : Nat) : Bool :=
  match sel with
  | .hmap | .kerr => i < 4
  | .coretab => i < n
  | .flog => i < 192
  | .wl => 1 ≤ i && i ≤ 6
  | .tcfg => i < 16
  | .trapinfo => i < 8
  | _ => true

/-- The lowest logical core, the cores and the logical clusters of a context on a die (Table 9). -/
def Ctx.hmap (x : Ctx) (die : Nat) : Word :=
  let ps := x.places.filter fun (_, e) => (placeF e).die == die
  match ps with
  | [] => 0
  | (n, _) :: _ => BitVec.ofNat 32 (n * 2 ^ 16 + ps.length % 256 * 2 ^ 8 + (ps.map fun (_, e) => (placeF e).lclus).dedup.length)

namespace State

/-- CORETAB of a logical core (Table 10). -/
def coretab (s : State) (ctx n : Nat) : Word :=
  let x := s.ctx ctx
  match x.place[n]? with
  | none => 0
  | some e =>
    let f := placeF e
    let k := s.core (f.die * 192 + f.core)
    let size := (x.places.filter fun (_, e') => (placeF e').die == f.die && (placeF e').lclus == f.lclus).length
    BitVec.ofNat 32 (k.good * 2 ^ 26 + k.passes * 2 ^ 23 + size * 2 ^ 20 + f.die * 2 ^ 18 + f.lclus * 2 ^ 12 + f.pos * 2 ^ 10)

/-- MTEN of a tenant (chapter 11, Table 1). -/
def mten (s : State) (c ctx : Nat) : Word :=
  let k := s.core c
  let eng := (k.engines ctx).foldl (fun n e => n + 2 ^ e) 0
  let two := if k.mx.tenants.length < 2 then 0 else 1
  let t := k.tenant? ctx
  BitVec.ofNat 32 (k.mx.fenced.toNat * 2 ^ 24 + eng * 2 ^ 16 + two * 2 ^ 12 + ((t.map (·.window.length)).getD 0) * 2 ^ 4 +
    ((t.map (·.sti.toNat)).getD 4))

/-- ACSTAT of a crew (chapter 12, Table 3). -/
def acstat (s : State) (c ctx crew : Nat) : Word :=
  let k := s.core c
  maskOf 32 fun n => match k.bankOf ctx n with
    | some p => (k.bank p).owner == some (ctx, crew) && !(k.bank p).freeing
    | none => false

/-- STEP of a quadrant as a context reads it (Table 7). -/
def stepWord (s : State) (ctx q : Nat) : Word :=
  let x := s.quad q
  BitVec.ofNat 32 (x.cap.toNat * 2 ^ 24 + (s.target q).toNat * 2 ^ 16 + (s.vote ctx q).toNat * 2 ^ 8 + x.cur.toNat)

end State

/-- A word of a frequency log (Table 9). -/
def Quad.flogWord (q : Quad) (i : Nat) : Word :=
  let e := q.flog[i / 3]?.getD ⟨0, 0, false, 0⟩
  match i % 3 with
  | 0 => e.count.extractLsb' 0 32
  | 1 => e.count.extractLsb' 32 32
  | _ => e.seq ++ BitVec.ofBool e.valid ++ 0#10 ++ e.step

/-- CREWST of a crew (Table 2 of chapter 16). -/
def Crew.crewst (k : Crew) : Word :=
  BitVec.ofBool k.committed ++ k.reason ++ 0#3 ++ BitVec.ofNat 8 k.rollbacks ++ 0#6 ++ BitVec.ofNat 10 k.sbuf.length

/-- GANGRANK of a crew (chapter 13, Table 6). -/
def State.gangrank (s : State) (ctx : Nat) (m : Crew) : Word :=
  let att : Nat := match m.att with
    | .attached .. => 1
    | _ => 0
  BitVec.ofNat 32 (att * 2 ^ 22 + (s.gangSize ctx m - 1) * 2 ^ 16 + m.grank)

namespace Iss

/-- The value of a special register whose index is in range; none for a tile outside the tenant's range (R229). -/
def special (I : Iss) (sel : SReg) (i : Nat) : Option Word :=
  let s := I.s
  let ctx := I.G.ctx
  let x := s.ctx ctx
  let k := s.core I.c
  let q := s.quad (quadOf I.c)
  let sp := I.G.spec
  let crew := I.crew
  match sel with
  | .tcfg => (k.tileOf ctx i).map fun p => (k.tile p).cfg
  | .groupid => some I.gid
  | .crewid => some (s.crewIdWord ctx I.G.crew)
  | .gangrank => some ((crew.map (s.gangrank ctx)).getD 0)
  | .legid => some (BitVec.ofNat 32 ((crew.map fun (m : Crew) => m.leg).getD 0))
  | .coreno => some ((s.coreNo ctx I.c).zeroExtend 32)
  | .corecnt => some (BitVec.ofNat 32 x.corecnt)
  | .dieno => some (BitVec.ofNat 32 (dieOf I.c))
  | .lmap => some k.lmap
  | .passes => some (BitVec.ofNat 32 (k.good * 2 ^ 8 + k.passes))
  | .hmap => some (x.hmap i)
  | .coretab => some (s.coretab ctx i)
  | .toposeq => some x.toposeq
  | .topochg => some (if sp.topochg then 1 else 0)
  | .cyclo => some (BitVec.ofNat 32 I.t)
  | .cychi => some (BitVec.ofNat 32 (I.t / 2 ^ 32))
  | .flog => some (q.flogWord i)
  | .kpol => some sp.kpol
  | .xmode => some ((if x.forced then 2 else 0) ||| (if I.s.exactAt I.c ctx then 1 else 0))
  | .ksamp => some sp.ksamp
  | .ksticky => some sp.ksticky
  | .kerr => some (sp.kerr[i]?.getD 0)
  | .wl => some (sp.wl[i - 1]?.getD 0)
  | .splseed => some (sp.splseed.zeroExtend 32)
  | .acstat => some (s.acstat I.c ctx I.G.crew)
  | .mten => some (s.mten I.c ctx)
  | .mtol => some (((k.tenant? ctx).map fun (t : Tenant) => t.ulps.zeroExtend 32).getD 16)
  | .pwallow => some (k.grant ++ BitVec.ofInt 24 k.allow)
  | .thallow => some (q.temp ++ q.hotlim ++ 0#4 ++ q.cool)
  | .step => some (s.stepWord ctx (quadOf I.c))
  | .energy => some k.energy
  | .crewst => some ((crew.map Crew.crewst).getD 0)
  | .trapinfo => some (sp.trapinfo[i]?.getD 0)

/-- The causes of the operands of a system instruction: the cause of lowest rank. -/
def sysFault (I : Iss) (cs : List Cause) (ptr : Ptr) : Option Report :=
  (worst (cs.map fun c => (0, c))).map fun c => if c = .kConsume then I.kAll else I.scalar c ptr

/-- PRIV for an instruction of a context that is no system context (R338). -/
def priv (I : Iss) : List Cause := if (I.s.ctx I.G.ctx).regs.system then [] else [.priv]

/-- The index of SRD or SWR and its cause. -/
def sysIndex (I : Iss) (sel : SReg) (o : Opnd) : Nat × List Cause :=
  if !sel.indexed then (0, [])
  else
    let e := I.sval true o
    (e.val.toNat, (if indexOk sel (I.s.ctx I.G.ctx).corecnt e.val.toNat then [] else [.illEnc]) ++ if e.k then [.kConsume] else [])

end Iss

/-- The index operand as a register read. -/
def sysReads (sel : SReg) (o : Opnd) : List Opnd := if sel.indexed then [o] else []

/-- SRD (R339). -/
def execSrd (x : SrdA) (s : State) : Host.Outcome State Fault Refusal :=
  issue x.h { reads := sysReads x.sel x.idx, all := true } s fun I =>
    if !I.qok then I.ok { comp := .flag (I.t + 1), unit := .scalar }
    else
      let (i, cs) := I.sysIndex x.sel x.idx
      match I.special x.sel i with
      | none => .stop ((I.sysFault (.tileCfg :: cs) 0).getD (I.scalar .tileCfg))
      | some w => match I.sysFault cs 0 with
        | some r => .stop r
        | none => I.scalarOp 1 x.d ⟨w, false⟩

/-! ## SWR -/

namespace State

/-- What an SWR to a register of the core, the context or the tenant does once it is visible (R172, R265, R362). -/
def swrDo (s : State) (c : Nat) (o : Op) (sel : SReg) : State :=
  let ctx := (s.opWho c o).ctx
  let w := argAt o.args 0
  match sel with
  | .xmode =>
    if (s.ctx ctx).forced then s
    else
      let b := w.getLsbD 0
      let s := (s.modCtx ctx fun x => { x with exact := b }).modCore c fun k => { k with exact := k.exact.setIfInBounds ctx b }
      let others := ((s.ctx ctx).places.filterMap fun (_, e) => placeCore e).filter fun d =>
        d != c && ((s.core d).exact[ctx]?).getD true != b
      others.foldl (fun s d => s.postNow (.quiescePoint d)) s
  | .mten => s.modCore c fun k => k.modTenant ctx fun t => { t with sti := w.extractLsb' 0 4 }
  | .mtol => s.modCore c fun k => k.modTenant ctx fun t => { t with ulps := w.extractLsb' 0 16 }
  | .step =>
    let v := w.extractLsb' 8 5
    let v : BitVec 5 := if v < 4 then 4 else if 19 < v then 19 else v
    (s.modCtx ctx fun x => { x with votes := x.votes.setIfInBounds (quadOf c) v }).rail (quadOf c)
  | _ => s

end State

/-- SWR to a TCFG (R229, R232, R234): held while earlier operations use the tile. -/
def Iss.swrTile (I : Iss) (i : Nat) (w : Word) (cs : List Cause) : Res :=
  let k := I.s.core I.c
  let e : Eff := { comp := .flag (I.t + 1), unit := .scalar }
  let other (t : Tile) : Bool := t.owner.isSome && t.owner != some (I.G.ctx, I.G.crew)
  let p := k.tileOf I.G.ctx i
  let bad : List Cause := if cs.contains .illEnc then [] else match p with
    | none => [.tileCfg]
    | some p => if other (k.tile p) then [.tileCfg] else []
  match I.sysFault (cs ++ bad) 0, p with
  | some r, _ => .stop r
  | none, none => .stop (I.scalar .tileCfg)
  | none, some p =>
    match k.turn I.G.ctx I.t I.id ⟨[], [p]⟩ with
    | .go =>
      let owner := if w.extractLsb' 28 4 = 0 then none else some (I.G.ctx, I.G.crew)
      let s := I.s.modCore I.c fun k => k.modTile p fun t => { t with cfg := tcfgStore w, owner := owner }
      .done (if owner.isNone then s.retryAll else s) e
    | _ => .hold I.s

/-- SWR (R339). -/
def execSwr (x : SwrA) (s : State) : Host.Outcome State Fault Refusal :=
  issue x.h { reads := x.a :: sysReads x.sel x.idx, all := true } s fun I =>
    let a := I.sval true x.a
    let (i, ci) := I.sysIndex x.sel x.idx
    let cs := ci ++ if a.k then [.kConsume] else []
    let e : Eff := { comp := .flag (I.t + 1), unit := .scalar }
    if !I.qok then I.ok e
    else if x.sel = .tcfg then I.swrTile i a.val cs
    else match I.sysFault cs 0 with
      | some r => .stop r
      | none =>
        if x.sel == .xmode || x.sel == .mten || x.sel == .mtol || x.sel == .step then
          let o : Op := { I.op (.swr x) [] with args := [a.val], stage := .waiting, setf := none }
          .done ((I.s.addOp I.c o).postQ I.c (I.t + 1) (.accessCheckComplete I.c I.id)) e
        else I.ok { e with ws := [.spec x.sel i a.val], comp := .short 0 }

/-! ## TRAP -/

/-- TRAP (R340): the group stops after it. -/
def execTrap (x : TrapA) (s : State) : Host.Outcome State Fault Refusal :=
  issue x.h {} s fun I =>
    let e : Eff := { comp := .flag (I.t + 1), unit := .scalar }
    if !I.qok then I.ok e
    else I.ok { e with after := some { cause := if x.code = 0xBD then .brk else .trap, detail := x.code, scalar := true, pc := I.S.pc } }

/-! ## SPAWN -/

/-- SPAWN (R341): a group is created in the crew, with the active lanes of eight registers. -/
def execSpawn (x : SpawnA) (s : State) : Host.Outcome State Fault Refusal :=
  let a := x.a.val
  issue x.h { vr := [(a, 8)] } s fun I =>
    let land (b : Bool) : Eff := { ws := Iss.wstat x.d b, comp := .long (I.t + 4), charge := 4 }
    if !I.qok then I.ok { comp := .flag (I.t + 1), charge := 4 }
    else if I.active = 0 then I.ok (land false)
    else
      let free := I.s.freeSlots I.c
      let (g, r) := I.s.reserved I.c
      match I.crew, free.head? with
      | some k, some slot =>
        let live := State.livePos k
        if live.length ≥ 16 || free.length ≤ g || Config.coreRegs < I.s.regsUsed I.c + r + I.G.budget then I.ok (land false)
        else
          let reg (j : Nat) : VReg := I.G.regs.vec (.v (a + j))
          let marked := (maskOf 96 fun l => (List.range 8).any fun j => ((reg j).at l).k) &&& I.active
          if marked != 0 then .stop (I.lanes .kConsume marked)
          else match I.s.leg? I.G.ctx k.leg, (List.range 16).find? fun p => !live.contains p with
            | some l, some pos =>
              let s := I.s.newGroup I.G.ctx k l slot pos (I.S.pc + x.disp.signExtend 32) (I.t + 4)
              let fill (G : Group) : Group := (List.range 8).foldl (fun (G : Group) j =>
                { G with regs := G.regs.setVec (.v j) I.active (reg j) }) G
              .done (s.modGroup I.c slot fill) (land true)
            | _, _ => I.ok (land false)
      | _, _ => I.ok (land false)

/-! ## LAUNCH -/

namespace State

/-- A LAUNCH at its dispatcher (R342): the record is read, and the leg queued. -/
def launchAt (s : State) (c : Nat) (o : Op) (x : LaunchA) (pa : Nat) : State :=
  let w := s.opWho c o
  let p := argPtr o.args 0
  let count := (argAt o.args 3).toNat
  let launcher := holderId 1 w.ctx w.crew
  let seq := o.args[4]?.getD (s.ctx w.ctx).toposeq
  let (d, s) := s.latency (80 + hops (dieOf c) (homeDie pa))
  let fin (s : State) (b : Bool) : State := s.finishOp c o (Iss.wstat x.d b) (max (s.now c) (o.t + d))
  let s := s.markWalks w.ctx p 512
  match s.dispatchRead w.ctx launcher (Ptr.local p) 512 64 with
  | .error _ => fin s false
  | .ok bs =>
    if (recWord bs 0x18).getLsbD 3 && recWord bs 0x1C != seq then
      (s.modOp c o.id fun o => { o with args := o.args.take 4 }).opFault c o
        { cause := .topo, scalar := true, pc := o.pc, ptr := p }
    else match parseRecord p bs with
      | none => fin s false
      | some r =>
        if 65536 < count || count % r.gang != 0 || r.root then fin s false
        else match s.pushLeg w.ctx (Leg.queued r launcher count none none) with
          | none => fin s false
          | some s => fin s true

/-- ACCESS_CHECK_COMPLETE of a LAUNCH: its checks when it is asked again, its translations, and the order of its release. -/
def launchCheck (s : State) (c : Nat) (o : Op) (x : LaunchA) : State :=
  let w := s.opWho c o
  let p := argPtr o.args 0
  if Ptr.module p ≠ Config.thisModule then
    if !s.released w (s.olderOps c o) .sys then s.askAgain c o
    else
      let (b, s) := s.freeNat
      let (d, s) := s.latency 3000
      (s.emit (.remote c o.id)).finishOp c o (Iss.wstat x.d (b % 2 == 1)) (max (s.now c) (o.t + d))
  else
    let vs := [Ptr.local p, (Ptr.local p + 511) % 2 ^ 62]
    match vs.find? fun v => (s.cached c w.ctx v).isNone with
    | some v => match s.translate c w.ctx v with
      | (.ok _, s) | (.wait, s) => s.askAgain c o
      | (.bad k, s) => s.opFault c o { cause := k, scalar := true, pc := o.pc, ptr := p }
    | none =>
      if vs.any fun v => (s.cached c w.ctx v).any fun e => e.h then s.opFault c o { cause := .prot, scalar := true, pc := o.pc, ptr := p }
      else if !s.released w (s.olderOps c o) .dev then s.askAgain c o
      else s.launchAt c o x (((s.cached c w.ctx (Ptr.local p)).map fun e => e.phys (Ptr.local p)).getD 0)

end State

/-- LAUNCH (R342). A marked pointer raises K_CONSUME and nothing else (R156, R336). -/
def execLaunch (x : LaunchA) (s : State) : Host.Outcome State Fault Refusal :=
  issue x.h { reads := [x.b], sr := [(x.a.val, 3)] } s fun I =>
    let (p, kp) := I.striple x.a
    let b := I.sval true x.b
    if !I.qok then I.ok { comp := .flag (I.t + 1), charge := 4 }
    else if I.active = 0 then I.ok { ws := Iss.wstat x.d false, comp := .long (I.t + 4), charge := 4 }
    else
      let cs : List Cause := (if Ptr.space p != 0 || Ptr.rank p != 0 then [.illPtr] else []) ++
        (if Ptr.addr p % 64 != 0 then [.align] else []) ++ if b.k then [.kConsume] else []
      match I.sysFault (if kp then [.kConsume] else cs) p with
      | some r => .stop r
      | none =>
        let o : Op := { I.op (.launch x) [] with args := ptrArgs p ++ [b.val, (I.s.ctx I.G.ctx).toposeq] }
        .done (((I.s.addOp I.c o).commit I.G.ctx I.G.crew 1).postQ I.c (I.t + 1) (.accessCheckComplete I.c I.id))
          { comp := .later x.d.isSome, charge := 4 }

/-! ## TBINV -/

/-- Whether a translation overlaps an aligned block (R343). -/
def Inv.covers (v : Inv) (ctx va log2 : Nat) : Bool :=
  ctx == v.ctx && va < v.base + 2 ^ v.log2 && v.base < va + 2 ^ log2

namespace State

/-- An invalidation started: every TLB will have complied by its completion. -/
def startInv (s : State) (ctx : Nat) (a k : Nat) (asker : Option (Nat × Nat)) (q : Nat) : State :=
  let (id, s) := s.fresh
  let (d, s) := s.latency 300
  let s : State := { s with invs := s.invs ++ [⟨id, ctx, a / 2 ^ k * 2 ^ k, k, asker⟩] }
  s.post (.quad q) (s.clock (.quad q) + d) (.tlbInvalidateComplete id)

/-- The translations of a block removed from every TLB, and the walks of it dropped. -/
def invalidate (s : State) (v : Inv) : State :=
  let keep (e : Tlbe) : Bool := !v.covers e.ctx e.va e.log2
  let cores := s.cores.map fun (k : Core) =>
    if k.caches.tlb.all keep then k else { k with caches := { k.caches with tlb := k.caches.tlb.filter keep } }
  let quads := s.quads.map fun (q : Quad) =>
    { q with tlb := q.tlb.filter keep, walks := q.walks.filter fun w => !v.covers w.ctx w.va 0 }
  { s with cores := cores, quads := quads }

end State

/-- TLB_INVALIDATE_COMPLETE (R343): every TLB has complied; the asker's flag is set, or IBUSY of the context block that asked clears. -/
def execTlbInvalidateComplete (id : Nat) (s : State) : Host.Outcome State Fault Refusal :=
  match s.invs.find? fun v => v.id == id with
  | none => .refused (.notEnabled "TLB_INVALIDATE_COMPLETE")
  | some v =>
    let s : State := { s with invs := s.invs.filter fun u => u.id != id }
    let s := s.invalidate v
    .next (match v.asker with
      | none => s.modCtx v.ctx fun x => { x with regs := { x.regs with ibusy := s.invs.any fun u => u.ctx == v.ctx && u.asker.isNone } }
      | some (c, oid) => match s.op? c oid with
        | some o => s.finishOp c o [] (s.now c)
        | none => s)

/-- TBINV (R343). A marked pointer raises K_CONSUME and nothing else (R156, R336). -/
def execTbinv (x : TbinvA) (s : State) : Host.Outcome State Fault Refusal :=
  issue x.h { reads := [x.ctx, x.k], all := true, sr := [(x.a.val, 3)] } s fun I =>
    let n := I.sval true x.ctx
    let k := I.sval true x.k
    let (p, kp) := I.striple x.a
    let kk := k.val.toNat
    if !I.qok then I.ok { comp := .flag (I.t + 1), charge := 4 }
    else
      let cs : List Cause := (if kk < 12 || 62 < kk || 15 < n.val.toNat then [.illEnc] else []) ++ I.priv ++
        (if Ptr.space p != 0 || Ptr.rank p != 0 then [.illPtr] else []) ++ if n.k || k.k then [.kConsume] else []
      match I.sysFault (if kp then [.kConsume] else cs) p with
      | some r => .stop r
      | none =>
        let e : Eff := { comp := .later false, charge := 4 }
        let s := I.s.addOp I.c { I.op (.tbinv x) [] with stage := .waiting }
        if Ptr.module p = Config.thisModule then
          .done (s.startInv n.val.toNat (Ptr.local p) kk (some (I.c, I.id)) (quadOf I.c)) e
        else
          let (d, s) := s.latency 3000
          .done ((s.emit (.remote I.c I.id)).postQ I.c (I.t + d) (.accessCheckComplete I.c I.id)) e

/-! ## PLACEW -/

/-- The context slot and the logical core of a key. -/
def keyOf (w : Word) : Nat × Nat := ((w.extractLsb' 16 4).toNat, (w.extractLsb' 0 16).toNat)

/-- The effect of a PLACEW in its landing cycle (R344). -/
def State.placewDo (s : State) (c : Nat) (o : Op) (x : PlacewA) : State :=
  let (ctx, n) := keyOf (argAt o.args 0)
  match s.placeWrite ctx n (argAt o.args 1) with
  | some s => s.finishOp c o (Iss.wstat x.d true) (s.now c)
  | none => s.finishOp c o (Iss.wstat x.d false) (s.now c)

/-- PLACEW (R344). -/
def execPlacew (x : PlacewA) (s : State) : Host.Outcome State Fault Refusal :=
  issue x.h { reads := [x.key, x.entry], all := true } s fun I =>
    let k := I.sval true x.key
    let w := I.sval true x.entry
    if !I.qok then I.ok { comp := .flag (I.t + 1), charge := 4 }
    else match I.sysFault (I.priv ++ if k.k || w.k then [.kConsume] else []) 0 with
      | some r => .stop r
      | none =>
        .done ((I.s.addOp I.c { I.op (.placew x) [] with args := [k.val, w.val], stage := .waiting }).postQ I.c (I.t + 20)
            (.accessCheckComplete I.c I.id)) { comp := .later x.d.isSome, charge := 4 }

/-! ## FINJ -/

namespace State

/-- A POISON line marked uncorrectable at home, once its address is translated (R345); an H page lets no access of the device through
(R137). -/
def poisonLine (s : State) (c : Nat) (o : Op) : State :=
  let w := s.opWho c o
  let p := argPtr o.args 0
  if Ptr.module p ≠ Config.thisModule then ((s.emit (.remote c o.id)).dropOp c o.id).tryEndGroup c o.slot
  else match s.translate c w.ctx (Ptr.local p) with
    | (.bad k, s) => s.opFault c o { cause := k, scalar := true, pc := o.pc, ptr := p }
    | (.wait, s) => s.askAgain c o
    | (.ok e, s) =>
      if e.h then s.opFault c o { cause := .prot, scalar := true, pc := o.pc, ptr := p }
      else
      let l := e.phys (Ptr.local p) / 128
      ({ s with ueLines := l :: s.ueLines.filter (· != l) } : State).dropOp c o.id |>.tryEndGroup c o.slot

/-- A fault injected into a unit: a lasting fault, without counting (R345). Its record's COUNT is that of the window's events so far, and 1 where
there is none, since Table 7 of chapter 17 has no 0 (assumption 136). -/
def inject (s : State) (u : UnitId) : State :=
  (s.tellEvent u 2 (max 1 (((s.rel.counts.find? fun x => x.1 == u).map (·.2)).getD 0))).lasting u

end State

/-- FINJ (R345). A marked pointer raises K_CONSUME and nothing else (R156, R336). -/
def execFinj (x : FinjA) (s : State) : Host.Outcome State Fault Refusal :=
  let b? := x.kind == .lane || x.kind == .strip
  let u : Use := match x.a with
    | .key o => { reads := o :: if b? then [x.b] else [], all := true }
    | .triple n => { all := true, sr := [(n.val, 3)] }
  issue x.h u s fun I =>
    let e : Eff := { comp := .flag (I.t + 2), charge := 4 }
    let b := if b? then I.sval true x.b else Elem.zero
    if !I.qok then I.ok { e with comp := .flag (I.t + 1) }
    else match x.a with
      | .triple n =>
        let (p, k) := I.striple n
        match I.sysFault (if k then [.kConsume] else I.priv ++ if Ptr.space p != 0 || Ptr.rank p != 0 then [.illPtr] else []) p with
        | some r => .stop r
        | none =>
          .done ((I.s.addOp I.c { I.op (.finj x) [] with args := ptrArgs p, setf := none }).postQ I.c (I.t + 1)
            (.accessCheckComplete I.c I.id)) e
      | .key o =>
        let a := I.sval true o
        let (ctx, n) := keyOf a.val
        let core := (I.s.ctx ctx).physical n
        let out : Bool := core.isNone || match x.kind with
          | .lane => b.val.toNat > 31
          | .strip => b.val.toNat > 7
          | _ => false
        match I.sysFault ((if out then [.illEnc] else []) ++ I.priv ++ if a.k || b.k then [.kConsume] else []) 0, core with
        | some r, _ => .stop r
        | none, none => .stop (I.scalar .illEnc)
        | none, some c =>
          let unit : UnitId := match x.kind with
            | .lane => .lane c (Fin.ofNat 32 b.val.toNat)
            | .strip => .strip c (Fin.ofNat 8 b.val.toNat)
            | _ => .core c
          .done (I.s.inject unit) e

/-! ## ACCESS_CHECK_COMPLETE of the system instructions -/

/-- What a system instruction does when it is asked. -/
def State.sysCheck (s : State) (c : Nat) (o : Op) : State :=
  match o.ins with
  | .swr x => ((s.swrDo c o x.sel).dropOp c o.id).tryEndGroup c o.slot
  | .launch x => s.launchCheck c o x
  | .tbinv _ => s.finishOp c o [] (s.now c)
  | .placew x => s.placewDo c o x
  | .finj _ => s.poisonLine c o
  | _ => s

end Sys2Proof.Machine
end

