-- ==== Sys2Proof/Machine/Check.lean ====
section
/-! DEFINITION. ACCESS_CHECK_COMPLETE (R144, R152): the checks of an operation after its walks and token reads, and what it does once they
and its turn have come. -/

namespace Sys2Proof.Machine

open Sys2Proof

namespace State

/-- A load asked again: each lane on its own when it has a limit, else all together (R144, R148). -/
def loadCheck (s : State) (c : Nat) (o : Op) : State :=
  if o.stage = .performed || o.accs.any fun a => a.lim.isSome then (s.limitedGo c o).retireOps c o.slot
  else match ldInfo o.ins, accMode o.ins with
    | some i, some m => s.demand c o m fun s xs => s.loadGo c o i xs
    | _, _ => s

/-- A demand access asked again. -/
def demandCheck (s : State) (c : Nat) (o : Op) (k : State → List (Acc × Look) → State) : State :=
  s.demand c o ((accMode o.ins).getD ⟨false, false, none⟩) k

/-- What an operation does when it is asked. -/
def askOp (s : State) (c : Nat) (o : Op) : State :=
  match o.ins with
  | .ld _ | .ldg _ | .lds _ => s.loadCheck c o
  | .ldl x => s.demandCheck c o fun s xs => s.ldlGo c o (gdest x.d) xs
  | .st _ | .stg _ | .sts _ => s.demandCheck c o fun s xs => s.storeGo c o xs
  | .stl _ => s.demandCheck c o fun s xs => s.stlGo c o xs
  | .atom _ | .atoms _ | .wparr _ => s.demandCheck c o fun s xs => s.atomGo c o xs
  | .wpwait _ | .waita _ => s.demandCheck c o fun s xs => s.waitGo c o xs
  | .tklend _ | .tkret _ | .tktake _ | .tksplit _ | .tkjoin _ | .tkshare _ | .tkunshare _ | .tkhome _ | .tkunhome _ | .tkquery _
  | .tkadopt _ => s.tokenCheck c o
  | .fence _ => s.fenceCheck c o
  | .tld x => s.tileCheck c o x false
  | .tst x => s.tileCheck c o x true
  | .tzero _ | .tmov _ | .txp _ => s.tileWork c o
  | .mtaskm _ => s.taskmWork c o
  | .acalloc _ | .acfree _ | .acband _ | .acdrain _ | .acload _ | .aczero _ | .acscale _ | .mstat _ | .mcheck _ => s.accWork c o
  | .copy _ | .msend _ | .ringset _ | .arm _ | .disarm _ | .gattach _ | .gdetach _ => s.engineCheck c o
  | .asdef _ | .asgo _ | .asstop _ => s.streamCheck c o
  | .qpop x => s.qpopCheck c o x.queue.val
  | _ => s.sysCheck c o

end State

/-- ACCESS_CHECK_COMPLETE (R144): an operation is asked. One in the operand log, on a LENT region or at home is not. -/
def execAccessCheckComplete (c id : Nat) (s : State) : Host.Outcome State Fault Refusal :=
  match s.op? c id with
  | none => .refused (.notEnabled "ACCESS_CHECK_COMPLETE")
  | some o =>
    if o.stage == .check || o.stage == .waiting || o.stage == .performed then .next (s.askOp c o)
    else .refused (.notEnabled "ACCESS_CHECK_COMPLETE")

end Sys2Proof.Machine
end

