-- ==== Sys2Proof/Decode.lean ====
section
/-! DEFINITION. The instruction word (R49 to R58, R70 to R74): its fields, the decoder, and the encoder written from the same
tables. -/

namespace Sys2Proof

/-! ## The fields of the word (R51, Table 1) -/

/-- The fields of an instruction word. -/
structure Raw where
  form : BitVec 2
  rsv : BitVec 4
  wait : BitVec 12
  setf : BitVec 4
  dist : BitVec 3
  cls : BitVec 12
  mod : BitVec 12
  b : BitVec 10
  a : BitVec 10
  d : BitVec 10
  grd : BitVec 5
  fn : BitVec 4
  opc : BitVec 8
  deriving DecidableEq, Repr

/-- The fields of a word. -/
def Raw.ofWord (w : IWord) : Raw :=
  { form := w.extractLsb' 94 2, rsv := w.extractLsb' 90 4, wait := w.extractLsb' 78 12, setf := w.extractLsb' 74 4,
    dist := w.extractLsb' 71 3, cls := w.extractLsb' 59 12, mod := w.extractLsb' 47 12, b := w.extractLsb' 37 10,
    a := w.extractLsb' 27 10, d := w.extractLsb' 17 10, grd := w.extractLsb' 12 5, fn := w.extractLsb' 8 4,
    opc := w.extractLsb' 0 8 }

/-- The word of the fields. -/
def Raw.toWord (r : Raw) : IWord :=
  r.form ++ r.rsv ++ r.wait ++ r.setf ++ r.dist ++ r.cls ++ r.mod ++ r.b ++ r.a ++ r.d ++ r.grd ++ r.fn ++ r.opc

/-- Why a word does not decode (R52, step 2). -/
inductive EncErr where
  /-- A FORM the opcode does not accept (R53). -/
  | form
  /-- A nonzero value in bits 93:90. -/
  | reservedBits
  /-- SETF of 13 to 15, a reserved operand code, an index out of range, a nonzero unused field, or a reserved FN, MOD or CLS
  value. -/
  | field
  /-- A guard or operand kind the instruction does not accept, or a combination of fields it refuses. -/
  | kind
  deriving DecidableEq, Repr

/-- What a word decodes to. An unassigned OPC decodes to `Instr.unassignedOpcode`, which takes ILL_OP. -/
inductive Decoded where
  | ok (i : Instr)
  | illEnc (e : EncErr)
  deriving DecidableEq, Repr

/-- Continue only when the condition holds. -/
def need (b : Bool) : Option Unit := if b then some () else none

/-! ## Operand fields -/

/-- Table 3: the operand of a code. -/
def Opnd.ofCode (c : BitVec 10) : Option Opnd :=
  let n := c.toNat
  if h : n < 0x100 then some (.v ⟨n, h⟩)
  else if n < 0x108 then some (.o (Fin.ofNat 8 (n - 0x100)))
  else if n < 0x10C then some (.l (Fin.ofNat 4 (n - 0x108)))
  else if n < 0x140 then none
  else if n < 0x180 then some (.c (Fin.ofNat 64 (n - 0x140)))
  else if n = 0x180 then some .zero
  else if n = 0x181 then some .lane
  else if n = 0x182 then some .plane
  else if n = 0x183 then some .gid
  else if n < 0x200 then none
  else if n < 0x280 then some (.s (Fin.ofNat 128 (n - 0x200)))
  else if n < 0x300 then none
  else some (.imm (BitVec.ofNat 8 n))

/-- Table 3: the code of an operand. -/
def Opnd.code : Opnd → BitVec 10
  | .v n => BitVec.ofNat 10 n.val
  | .o n => BitVec.ofNat 10 (0x100 + n.val)
  | .l n => BitVec.ofNat 10 (0x108 + n.val)
  | .c n => BitVec.ofNat 10 (0x140 + n.val)
  | .zero => 0x180
  | .lane => 0x181
  | .plane => 0x182
  | .gid => 0x183
  | .s n => BitVec.ofNat 10 (0x200 + n.val)
  | .imm x => 0b11#2 ++ x

/-- An index below `n` (R58). -/
def idxOf (n : Nat) {w : Nat} (f : BitVec w) : Option (Fin n) := if h : f.toNat < n then some ⟨f.toNat, h⟩ else none

/-- An s register by its operand code, below `n`. -/
def sOf (n : Nat) (f : BitVec 10) : Option (Fin n) :=
  if h : 0x200 ≤ f.toNat ∧ f.toNat - 0x200 < n then some ⟨f.toNat - 0x200, h.2⟩ else none

/-- The code of an s register. -/
def sCode {n : Nat} (i : Fin n) : BitVec 10 := BitVec.ofNat 10 (0x200 + i.val)

/-- A pointer triple by its code. -/
def Triple.ofCode (f : BitVec 10) : Option Triple :=
  if h : f.toNat < 254 then some (.v ⟨f.toNat, h⟩) else (sOf 126 f).map .s

/-- The code of a triple. -/
def Triple.code : Triple → BitVec 10
  | .s n => sCode n
  | .v n => BitVec.ofNat 10 n.val

/-- An optional status q register: 0x000 to 0x006, or 0x180. -/
def statusOf (f : BitVec 10) : Option (Option (Fin 7)) := if f = 0x180 then some none else (idxOf 7 f).map some

/-- The code of an optional status register. -/
def statusCode : Option (Fin 7) → BitVec 10
  | none => 0x180
  | some i => BitVec.ofNat 10 i.val

/-- A bank selector (R256). -/
def BankSel.ofCode (f : BitVec 10) : Option BankSel :=
  if h : f.toNat < 32 then some (.a ⟨f.toNat, h⟩) else (sOf 128 f).map .s

/-- The code of a bank selector. -/
def BankSel.code : BankSel → BitVec 10
  | .a n => BitVec.ofNat 10 n.val
  | .s n => sCode n

/-- A register, or under P a predicate index. -/
def KReg.ofCode (p : Bool) (f : BitVec 10) : Option KReg :=
  if p then (idxOf 8 f).map .p else (Opnd.ofCode f).map .r

/-- The code of such a register. -/
def KReg.code : KReg → BitVec 10
  | .r x => x.code
  | .p i => BitVec.ofNat 10 i.val

/-- Whether it is a predicate. -/
def KReg.isP : KReg → Bool
  | .r _ => false
  | .p _ => true

/-! ## Enumerations -/

/-- The code of a RMode (R80, Table 3). -/
def RMode.code : RMode → BitVec 2
  | .rne => 0x0
  | .rz => 0x1
  | .ru => 0x2
  | .rd => 0x3

/-- The RMode of a code (R80, Table 3); other codes are reserved. -/
def RMode.ofCode (x : BitVec 2) : Option RMode :=
  [.rne, .rz, .ru, .rd].find? fun e => e.code == x

/-- The code of a Cond (chapter 5, Table 8). -/
def Cond.code : Cond → BitVec 4
  | .eq => 0x0
  | .ne => 0x1
  | .lt => 0x2
  | .le => 0x3
  | .gt => 0x4
  | .ge => 0x5
  | .ltu => 0x6
  | .leu => 0x7
  | .gtu => 0x8
  | .geu => 0x9

/-- The Cond of a code (chapter 5, Table 8); other codes are reserved. -/
def Cond.ofCode (x : BitVec 4) : Option Cond :=
  [.eq, .ne, .lt, .le, .gt, .ge, .ltu, .leu, .gtu, .geu].find? fun e => e.code == x

/-- The code of a FCond (chapter 6, Table 8). -/
def FCond.code : FCond → BitVec 4
  | .eq => 0x0
  | .ne => 0x1
  | .lt => 0x2
  | .le => 0x3
  | .gt => 0x4
  | .ge => 0x5
  | .un => 0x6
  | .ord => 0x7

/-- The FCond of a code (chapter 6, Table 8); other codes are reserved. -/
def FCond.ofCode (x : BitVec 4) : Option FCond :=
  [.eq, .ne, .lt, .le, .gt, .ge, .un, .ord].find? fun e => e.code == x

/-- The code of a ElemW (chapter 6, Table 4). -/
def ElemW.code : ElemW → BitVec 2
  | .w32 => 0x0
  | .w16 => 0x1
  | .w8 => 0x2

/-- The ElemW of a code (chapter 6, Table 4); other codes are reserved. -/
def ElemW.ofCode (x : BitVec 2) : Option ElemW :=
  [.w32, .w16, .w8].find? fun e => e.code == x

/-- The code of a FType (chapter 6, Table 6). -/
def FType.code : FType → BitVec 2
  | .f32 => 0x0
  | .f16 => 0x1
  | .bf16 => 0x2

/-- The FType of a code (chapter 6, Table 6); other codes are reserved. -/
def FType.ofCode (x : BitVec 2) : Option FType :=
  [.f32, .f16, .bf16].find? fun e => e.code == x

/-- The code of a Fmt (chapter 6, Table 10). -/
def Fmt.code : Fmt → BitVec 4
  | .f32 => 0x0
  | .f16 => 0x1
  | .bf16 => 0x2
  | .e4m3 => 0x3
  | .e5m2 => 0x4
  | .i32 => 0x5
  | .i8 => 0x6
  | .i4 => 0x7

/-- The Fmt of a code (chapter 6, Table 10); other codes are reserved. -/
def Fmt.ofCode (x : BitVec 4) : Option Fmt :=
  [.f32, .f16, .bf16, .e4m3, .e5m2, .i32, .i8, .i4].find? fun e => e.code == x

/-- The code of a Width (chapter 7, Table 8). -/
def Width.code : Width → BitVec 3
  | .b => 0x0
  | .bs => 0x1
  | .h => 0x2
  | .hs => 0x3
  | .w => 0x4
  | .d => 0x5
  | .q => 0x6

/-- The Width of a code (chapter 7, Table 8); other codes are reserved. -/
def Width.ofCode (x : BitVec 3) : Option Width :=
  [.b, .bs, .h, .hs, .w, .d, .q].find? fun e => e.code == x

/-- The code of a Scope (chapter 7, Table 8). -/
def Scope.code : Scope → BitVec 3
  | .grp => 0x0
  | .crew => 0x1
  | .core => 0x2
  | .gang => 0x3
  | .dev => 0x4
  | .sys => 0x5

/-- The Scope of a code (chapter 7, Table 8); other codes are reserved. -/
def Scope.ofCode (x : BitVec 3) : Option Scope :=
  [.grp, .crew, .core, .gang, .dev, .sys].find? fun e => e.code == x

/-- The code of a Ord (chapter 10, Table 3). -/
def Ord.code : Ord → BitVec 2
  | .rlx => 0x0
  | .acq => 0x1
  | .rel => 0x2
  | .ar => 0x3

/-- The Ord of a code (chapter 10, Table 3); other codes are reserved. -/
def Ord.ofCode (x : BitVec 2) : Option Ord :=
  [.rlx, .acq, .rel, .ar].find? fun e => e.code == x

/-- The code of a PMode (chapter 7, Table 4). -/
def PMode.code : PMode → BitVec 2
  | .last => 0x0
  | .stride => 0x1
  | .hold => 0x2
  | .zero => 0x3

/-- The PMode of a code (chapter 7, Table 4); other codes are reserved. -/
def PMode.ofCode (x : BitVec 2) : Option PMode :=
  [.last, .stride, .hold, .zero].find? fun e => e.code == x

/-- The code of a PFn (chapter 5, Table 9). -/
def PFn.code : PFn → BitVec 4
  | .and => 0x0
  | .or => 0x1
  | .xor => 0x2
  | .andn => 0x3
  | .orn => 0x4
  | .nand => 0x5
  | .nor => 0x6
  | .xnor => 0x7
  | .not => 0x8

/-- The PFn of a code (chapter 5, Table 9); other codes are reserved. -/
def PFn.ofCode (x : BitVec 4) : Option PFn :=
  [.and, .or, .xor, .andn, .orn, .nand, .nor, .xnor, .not].find? fun e => e.code == x

/-- The code of a PField (chapter 5, Table 11). -/
def PField.code : PField → BitVec 4
  | .lo => 0x0
  | .mid => 0x1
  | .hi => 0x2
  | .space => 0x3
  | .rank => 0x4
  | .module => 0x5

/-- The PField of a code (chapter 5, Table 11); other codes are reserved. -/
def PField.ofCode (x : BitVec 4) : Option PField :=
  [.lo, .mid, .hi, .space, .rank, .module].find? fun e => e.code == x

/-- The code of a ShMode (chapter 6, SHFL). -/
def ShMode.code : ShMode → BitVec 4
  | .idx => 0x0
  | .up => 0x1
  | .down => 0x2
  | .xor => 0x3

/-- The ShMode of a code (chapter 6, SHFL); other codes are reserved. -/
def ShMode.ofCode (x : BitVec 4) : Option ShMode :=
  [.idx, .up, .down, .xor].find? fun e => e.code == x

/-- The code of a RedOp (chapter 6, Table 12). -/
def RedOp.code : RedOp → BitVec 4
  | .add => 0x0
  | .min => 0x1
  | .max => 0x2
  | .umin => 0x3
  | .umax => 0x4
  | .and => 0x5
  | .or => 0x6
  | .xor => 0x7
  | .fadd => 0x8
  | .fmin => 0x9
  | .fmax => 0xa

/-- The RedOp of a code (chapter 6, Table 12); other codes are reserved. -/
def RedOp.ofCode (x : BitVec 4) : Option RedOp :=
  [.add, .min, .max, .umin, .umax, .and, .or, .xor, .fadd, .fmin, .fmax].find? fun e => e.code == x

/-- The code of a AtomOp (chapter 10, Table 2). -/
def AtomOp.code : AtomOp → BitVec 4
  | .add => 0x0
  | .and => 0x1
  | .or => 0x2
  | .xor => 0x3
  | .min => 0x4
  | .max => 0x5
  | .umin => 0x6
  | .umax => 0x7
  | .xchg => 0x8
  | .cas => 0x9
  | .fadd => 0xa

/-- The AtomOp of a code (chapter 10, Table 2); other codes are reserved. -/
def AtomOp.ofCode (x : BitVec 4) : Option AtomOp :=
  [.add, .and, .or, .xor, .min, .max, .umin, .umax, .xchg, .cas, .fadd].find? fun e => e.code == x

/-- The code of a WCond (chapter 10, Table 7). -/
def WCond.code : WCond → BitVec 4
  | .eq => 0x0
  | .ne => 0x1
  | .geu => 0x2
  | .any => 0x3

/-- The WCond of a code (chapter 10, Table 7); other codes are reserved. -/
def WCond.ofCode (x : BitVec 4) : Option WCond :=
  [.eq, .ne, .geu, .any].find? fun e => e.code == x

/-- The code of a HC (chapter 9, Table 6). -/
def HC.code : HC → BitVec 3
  | .grp => 0x0
  | .crew => 0x1
  | .gang => 0x2
  | .leg => 0x3
  | .core => 0x4

/-- The HC of a code (chapter 9, Table 6); other codes are reserved. -/
def HC.ofCode (x : BitVec 3) : Option HC :=
  [.grp, .crew, .gang, .leg, .core].find? fun e => e.code == x

/-- The code of a TaskOp (chapter 11, Table 6). -/
def TaskOp.code : TaskOp → BitVec 4
  | .bf16 => 0x0
  | .f16 => 0x1
  | .f8 => 0x2
  | .i8 => 0x3
  | .i8i4 => 0x4
  | .i4i8 => 0x5
  | .i4 => 0x6
  | .bfp => 0x7

/-- The TaskOp of a code (chapter 11, Table 6); other codes are reserved. -/
def TaskOp.ofCode (x : BitVec 4) : Option TaskOp :=
  [.bf16, .f16, .f8, .i8, .i8i4, .i4i8, .i4, .bfp].find? fun e => e.code == x

/-- The code of a MItem (chapter 12, Table 6). -/
def MItem.code : MItem → BitVec 4
  | .sticky => 0x0
  | .corr => 0x1
  | .terr => 0x2
  | .checks => 0x3
  | .voids => 0x4
  | .tests => 0x5

/-- The MItem of a code (chapter 12, Table 6); other codes are reserved. -/
def MItem.ofCode (x : BitVec 4) : Option MItem :=
  [.sticky, .corr, .terr, .checks, .voids, .tests].find? fun e => e.code == x

/-- The code of a KFn (chapter 8, Table 8). -/
def KFn.code : KFn → BitVec 4
  | .sum => 0x0
  | .opn => 0x1
  | .ready => 0x2
  | .flt => 0x3

/-- The KFn of a code (chapter 8, Table 8); other codes are reserved. -/
def KFn.ofCode (x : BitVec 4) : Option KFn :=
  [.sum, .opn, .ready, .flt].find? fun e => e.code == x

/-- The code of a FKind (chapter 15, Table 15). -/
def FKind.code : FKind → BitVec 4
  | .core => 0x0
  | .lane => 0x1
  | .strip => 0x2
  | .poison => 0x3

/-- The FKind of a code (chapter 15, Table 15); other codes are reserved. -/
def FKind.ofCode (x : BitVec 4) : Option FKind :=
  [.core, .lane, .strip, .poison].find? fun e => e.code == x

/-- The code of a SReg (R74, Table 11). -/
def SReg.code : SReg → BitVec 8
  | .groupid => 0x0
  | .crewid => 0x1
  | .gangrank => 0x2
  | .legid => 0x3
  | .coreno => 0x4
  | .corecnt => 0x5
  | .dieno => 0x6
  | .lmap => 0x7
  | .passes => 0x8
  | .hmap => 0x9
  | .coretab => 0xa
  | .toposeq => 0xb
  | .topochg => 0xc
  | .cyclo => 0xd
  | .cychi => 0xe
  | .flog => 0xf
  | .kpol => 0x20
  | .xmode => 0x21
  | .ksamp => 0x22
  | .ksticky => 0x23
  | .kerr => 0x24
  | .wl => 0x25
  | .splseed => 0x26
  | .tcfg => 0x30
  | .acstat => 0x31
  | .mten => 0x32
  | .mtol => 0x33
  | .pwallow => 0x40
  | .thallow => 0x41
  | .step => 0x42
  | .energy => 0x43
  | .crewst => 0x50
  | .trapinfo => 0x51

/-- The SReg of a code (R74, Table 11); other codes are reserved. -/
def SReg.ofCode (x : BitVec 8) : Option SReg :=
  [.groupid, .crewid, .gangrank, .legid, .coreno, .corecnt, .dieno, .lmap, .passes, .hmap, .coretab, .toposeq, .topochg, .cyclo, .cychi, .flog, .kpol, .xmode, .ksamp, .ksticky, .kerr, .wl, .splseed, .tcfg, .acstat, .mten, .mtol, .pwallow, .thallow, .step, .energy, .crewst, .trapinfo].find? fun e => e.code == x

/-! ## Hints and guard -/

/-- Table 2: the guard of GRD. -/
def Guard.ofCode (g : BitVec 5) : Guard :=
  if g.getLsbD 3 then .q (g.getLsbD 4) (Fin.ofNat 8 (g.extractLsb' 0 3).toNat)
  else .p (g.getLsbD 4) (Fin.ofNat 8 (g.extractLsb' 0 3).toNat)

/-- The GRD of a guard. -/
def Guard.code : Guard → BitVec 5
  | .p n i => BitVec.ofBool n ++ 0#1 ++ BitVec.ofNat 3 i.val
  | .q n i => BitVec.ofBool n ++ 1#1 ++ BitVec.ofNat 3 i.val

/-- SETF (R51): 0 none, 1 to 12 name f0 to f11, 13 to 15 reserved. -/
def setfOf (x : BitVec 4) : Option (Option (Fin 12)) :=
  if x = 0 then some none
  else if h : x.toNat - 1 < 12 then some (some ⟨x.toNat - 1, h⟩) else none

/-- The SETF field. -/
def setfCode : Option (Fin 12) → BitVec 4
  | none => 0
  | some i => BitVec.ofNat 4 (i.val + 1)

namespace Raw

/-- Hints and guard. -/
def hdr (r : Raw) : Option Hdr := do
  let f ← setfOf r.setf
  return ⟨r.wait, f, r.dist, Guard.ofCode r.grd⟩

/-- The displacement in MOD:CLS (R71). -/
def disp (r : Raw) : BitVec 24 := r.mod ++ r.cls

/-- The operand of a field. -/
def oA (r : Raw) : Option Opnd := Opnd.ofCode r.a

/-- The operand of a field. -/
def oB (r : Raw) : Option Opnd := Opnd.ofCode r.b

/-- The operand of a field. -/
def oD (r : Raw) : Option Opnd := Opnd.ofCode r.d

/-- The operand of CLS<9:0>, with CLS<11:10> zero. -/
def oC (r : Raw) : Option Opnd := do
  need (r.cls.extractLsb' 10 2 == 0)
  Opnd.ofCode (r.cls.extractLsb' 0 10)

/-- Bits of MOD. -/
def m (r : Raw) (lo n : Nat) : BitVec n := r.mod.extractLsb' lo n

/-- A bit of MOD. -/
def mb (r : Raw) (i : Nat) : Bool := r.mod.getLsbD i

/-- FN, MOD and CLS all zero. -/
def plain (r : Raw) : Bool := r.fn == 0 && r.mod == 0 && r.cls == 0

end Raw

/-- The fields a header fills. -/
def Hdr.raw (h : Hdr) : Raw :=
  { form := 0, rsv := 0, wait := h.wait, setf := setfCode h.setf, dist := h.dist, cls := 0, mod := 0, b := 0, a := 0, d := 0,
    grd := h.grd.code, fn := 0, opc := 0 }

/-- A bit of a field. -/
abbrev bb (b : Bool) : BitVec 1 := BitVec.ofBool b

/-! ## One reader and one writer for each shape -/

/-- TRAIL (R70). -/
def TrailA.parse (r : Raw) : Option TrailA := do
  need (r.fn == 0 && r.d == 0 && r.a == 0 && r.b == 0 && r.grd == 0b00111#5 && r.dist == 0)
  let f ← setfOf r.setf
  return ⟨r.wait, f, r.disp⟩

/-- TRAIL (R70). -/
def TrailA.raw (x : TrailA) : Raw :=
  { (Hdr.raw ⟨x.wait, x.setf, 0, .p false 7⟩) with mod := x.pfd.extractLsb' 12 12, cls := x.pfd.extractLsb' 0 12 }

/-- No operand. -/
def NoA.parse (r : Raw) : Option NoA := do
  need (r.plain && r.d == 0 && r.a == 0 && r.b == 0)
  return ⟨← r.hdr⟩

/-- No operand. -/
def NoA.raw (x : NoA) : Raw := x.h.raw

/-- BRA and BRD. -/
def BrA.parse (r : Raw) : Option BrA := do
  need (r.fn == 0 && r.d == 0 && r.a == 0 && r.b == 0)
  return ⟨← r.hdr, r.disp⟩

/-- BRA and BRD. -/
def BrA.raw (x : BrA) : Raw := { x.h.raw with mod := x.disp.extractLsb' 12 12, cls := x.disp.extractLsb' 0 12 }

/-- CALL and LOOP. -/
def BrDA.parse (r : Raw) : Option BrDA := do
  need (r.fn == 0 && r.a == 0 && r.b == 0)
  return ⟨← r.hdr, ← r.oD, r.disp⟩

/-- CALL and LOOP. -/
def BrDA.raw (x : BrDA) : Raw :=
  { x.h.raw with d := x.d.code, mod := x.disp.extractLsb' 12 12, cls := x.disp.extractLsb' 0 12 }

/-- One source. -/
def SrcA.parse (r : Raw) : Option SrcA := do
  need (r.plain && r.d == 0 && r.b == 0)
  return ⟨← r.hdr, ← r.oA⟩

/-- One source. -/
def SrcA.raw (x : SrcA) : Raw := { x.h.raw with a := x.a.code }

/-- One destination. -/
def DstA.parse (r : Raw) : Option DstA := do
  need (r.plain && r.a == 0 && r.b == 0)
  return ⟨← r.hdr, ← r.oD⟩

/-- One destination. -/
def DstA.raw (x : DstA) : Raw := { x.h.raw with d := x.d.code }

/-- A destination and a source. -/
def UnA.parse (r : Raw) : Option UnA := do
  need (r.plain && r.b == 0)
  return ⟨← r.hdr, ← r.oD, ← r.oA⟩

/-- A destination and a source. -/
def UnA.raw (x : UnA) : Raw := { x.h.raw with d := x.d.code, a := x.a.code }

/-- A destination and two sources. -/
def BinA.parse (r : Raw) : Option BinA := do
  need r.plain
  return ⟨← r.hdr, ← r.oD, ← r.oA, ← r.oB⟩

/-- A destination and two sources. -/
def BinA.raw (x : BinA) : Raw := { x.h.raw with d := x.d.code, a := x.a.code, b := x.b.code }

/-- Scalar two-source operations: MOD<0> ZX, MOD<1> U. -/
def SBinA.parse (r : Raw) : Option SBinA := do
  need (r.fn == 0 && r.cls == 0 && r.m 2 10 == 0)
  return ⟨← r.hdr, ← r.oD, ← r.oA, ← r.oB, r.mb 0, r.mb 1⟩

/-- Scalar two-source operations. -/
def SBinA.raw (x : SBinA) : Raw :=
  { x.h.raw with d := x.d.code, a := x.a.code, b := x.b.code, mod := 0#10 ++ bb x.u ++ bb x.zx }

/-- SMOV. -/
def MovA.parse (r : Raw) : Option MovA := do
  need (r.fn == 0 && r.cls == 0 && r.m 1 11 == 0 && r.b == 0)
  return ⟨← r.hdr, ← r.oD, ← r.oA, r.mb 0⟩

/-- SMOV. -/
def MovA.raw (x : MovA) : Raw := { x.h.raw with d := x.d.code, a := x.a.code, mod := 0#11 ++ bb x.zx }

/-- Bit fields: MOD<4:0> position, MOD<9:5> length − 1, MOD<10> S. -/
def BfA.parse (r : Raw) : Option BfA := do
  need (r.fn == 0 && r.cls == 0 && r.b == 0 && !r.mb 11)
  return ⟨← r.hdr, ← r.oD, ← r.oA, r.m 0 5, r.m 5 5, r.mb 10⟩

/-- Bit fields. -/
def BfA.raw (x : BfA) : Raw :=
  { x.h.raw with d := x.d.code, a := x.a.code, mod := 0#1 ++ bb x.sgn ++ x.lenM1 ++ x.pos }

/-- SCMP and VCMP: FN the condition. -/
def CmpA.parse (r : Raw) : Option CmpA := do
  need (r.cls == 0 && r.m 1 11 == 0)
  return ⟨← r.hdr, ← Cond.ofCode r.fn, ← idxOf 8 r.d, ← r.oA, ← r.oB, r.mb 0⟩

/-- SCMP and VCMP. -/
def CmpA.raw (x : CmpA) : Raw :=
  { x.h.raw with fn := x.cond.code, d := BitVec.ofNat 10 x.d.val, a := x.a.code, b := x.b.code, mod := 0#11 ++ bb x.zx }

/-- SSEL and VSEL: CLS<2:0> the predicate, CLS<3> negate. -/
def SelA.parse (r : Raw) : Option SelA := do
  need (r.fn == 0 && r.m 1 11 == 0 && r.cls.extractLsb' 4 8 == 0)
  return ⟨← r.hdr, ← r.oD, ← r.oA, ← r.oB, Fin.ofNat 8 (r.cls.extractLsb' 0 3).toNat, r.cls.getLsbD 3, r.mb 0⟩

/-- SSEL and VSEL. -/
def SelA.raw (x : SelA) : Raw :=
  { x.h.raw with d := x.d.code, a := x.a.code, b := x.b.code, mod := 0#11 ++ bb x.zx,
                 cls := 0#8 ++ bb x.neg ++ BitVec.ofNat 3 x.c.val }

/-- PLOG: MOD<0> Q. -/
def PlogA.parse (r : Raw) : Option PlogA := do
  need (r.cls == 0 && r.m 1 11 == 0)
  return ⟨← r.hdr, ← PFn.ofCode r.fn, r.mb 0, ← idxOf 8 r.d, ← idxOf 8 r.a, ← idxOf 8 r.b⟩

/-- PLOG. -/
def PlogA.raw (x : PlogA) : Raw :=
  { x.h.raw with fn := x.fn.code, mod := 0#11 ++ bb x.q, d := BitVec.ofNat 10 x.d.val, a := BitVec.ofNat 10 x.a.val,
                 b := BitVec.ofNat 10 x.b.val }

/-- The operands of PMOV by its FN (chapter 5, Table 10). -/
def PMovOps.parse (r : Raw) : Option PMovOps :=
  match r.fn.toNat with
  | 0 => do return .p (← idxOf 8 r.d) (← idxOf 8 r.a)
  | 1 => do return .fromv (← idxOf 8 r.d) (← r.oA)
  | 2 => do return .froms (← idxOf 8 r.d) (← sOf 126 r.a)
  | 3 => do return .tos (← sOf 126 r.d) (← idxOf 8 r.a)
  | 4 => do return .q (← idxOf 8 r.d) (← idxOf 8 r.a)
  | _ => none

/-- PMOV. -/
def PmovA.parse (r : Raw) : Option PmovA := do
  need (r.cls == 0 && r.mod == 0 && r.b == 0)
  return ⟨← r.hdr, ← PMovOps.parse r⟩

/-- PMOV. -/
def PmovA.raw (x : PmovA) : Raw :=
  match x.ops with
  | .p d a => { x.h.raw with fn := 0, d := BitVec.ofNat 10 d.val, a := BitVec.ofNat 10 a.val }
  | .fromv d a => { x.h.raw with fn := 1, d := BitVec.ofNat 10 d.val, a := a.code }
  | .froms d a => { x.h.raw with fn := 2, d := BitVec.ofNat 10 d.val, a := sCode a }
  | .tos d a => { x.h.raw with fn := 3, d := sCode d, a := BitVec.ofNat 10 a.val }
  | .q d a => { x.h.raw with fn := 4, d := BitVec.ofNat 10 d.val, a := BitVec.ofNat 10 a.val }

/-- PANY and PALL. -/
def PqA.parse (r : Raw) : Option PqA := do
  need (r.plain && r.b == 0)
  return ⟨← r.hdr, ← idxOf 8 r.d, ← idxOf 8 r.a⟩

/-- PANY and PALL. -/
def PqA.raw (x : PqA) : Raw := { x.h.raw with d := BitVec.ofNat 10 x.d.val, a := BitVec.ofNat 10 x.a.val }

/-- PCNT. -/
def PsA.parse (r : Raw) : Option PsA := do
  need (r.plain && r.b == 0)
  return ⟨← r.hdr, ← r.oD, ← idxOf 8 r.a⟩

/-- PCNT. -/
def PsA.raw (x : PsA) : Raw := { x.h.raw with d := x.d.code, a := BitVec.ofNat 10 x.a.val }

/-- A triple of the kind MOD<4> (V) names. -/
def Triple.kind (v : Bool) (f : BitVec 10) : Option Triple := do
  let t ← Triple.ofCode f
  match t, v with
  | .s n, false => return .s n
  | .v n, true => return .v n
  | _, _ => none

/-- Whether a triple is of vector registers. -/
def Triple.isV : Triple → Bool
  | .s _ => false
  | .v _ => true

/-- PADD. -/
def PaddA.parse (r : Raw) : Option PaddA := do
  need (r.fn == 0 && r.cls == 0 && r.m 5 7 == 0 && r.m 0 4 == 0)
  return ⟨← r.hdr, ← Triple.kind (r.mb 4) r.d, ← Triple.kind (r.mb 4) r.a, ← r.oB⟩

/-- PADD. -/
def PaddA.raw (x : PaddA) : Raw :=
  { x.h.raw with d := x.d.code, a := x.a.code, b := x.b.code, mod := 0#7 ++ bb x.a.isV ++ 0#4 }

/-- PTAG: MOD<3:0> the space. -/
def PtagA.parse (r : Raw) : Option PtagA := do
  need (r.fn == 0 && r.cls == 0 && r.m 5 7 == 0)
  return ⟨← r.hdr, ← Triple.kind (r.mb 4) r.d, ← Triple.kind (r.mb 4) r.a, ← r.oB, r.m 0 4⟩

/-- PTAG. -/
def PtagA.raw (x : PtagA) : Raw :=
  { x.h.raw with d := x.d.code, a := x.a.code, b := x.b.code, mod := 0#7 ++ bb x.a.isV ++ x.space }

/-- PFLD. -/
def PfldA.parse (r : Raw) : Option PfldA := do
  need (r.cls == 0 && r.m 5 7 == 0 && r.m 0 4 == 0 && r.b == 0)
  return ⟨← r.hdr, ← PField.ofCode r.fn, ← r.oD, ← Triple.kind (r.mb 4) r.a⟩

/-- PFLD. -/
def PfldA.raw (x : PfldA) : Raw :=
  { x.h.raw with fn := x.field.code, d := x.d.code, a := x.a.code, mod := 0#7 ++ bb x.a.isV ++ 0#4 }

/-- PCMP. -/
def PcmpA.parse (r : Raw) : Option PcmpA := do
  need (r.cls == 0 && r.m 5 7 == 0 && r.m 0 4 == 0)
  return ⟨← r.hdr, ← Cond.ofCode r.fn, ← idxOf 8 r.d, ← Triple.kind (r.mb 4) r.a, ← Triple.kind (r.mb 4) r.b⟩

/-- PCMP. -/
def PcmpA.raw (x : PcmpA) : Raw :=
  { x.h.raw with fn := x.cond.code, d := BitVec.ofNat 10 x.d.val, a := x.a.code, b := x.b.code,
                 mod := 0#7 ++ bb x.a.isV ++ 0#4 }

/-- Vector integer instructions (R122, Table 4). -/
def VA.parse (r : Raw) : Option VA := do
  need (r.fn == 0 && r.cls == 0 && r.m 6 6 == 0)
  return ⟨← r.hdr, ← r.oD, ← r.oA, ← r.oB, r.mb 0, r.mb 1, ← ElemW.ofCode (r.m 2 2), r.mb 4, r.mb 5⟩

/-- Vector integer instructions. -/
def VA.raw (x : VA) : Raw :=
  { x.h.raw with d := x.d.code, a := x.a.code, b := x.b.code,
                 mod := 0#6 ++ bb x.ub ++ bb x.sat ++ x.elem.code ++ bb x.u ++ bb x.zx }

/-- Vector floating-point instructions (R123, Table 6). -/
def FA.parse (r : Raw) : Option FA := do
  need (r.fn == 0 && r.cls == 0 && r.m 7 5 == 0)
  return ⟨← r.hdr, ← r.oD, ← r.oA, ← r.oB, ← RMode.ofCode (r.m 0 2), ← FType.ofCode (r.m 2 2), r.mb 4, r.mb 5, r.mb 6⟩

/-- Vector floating-point instructions. -/
def FA.raw (x : FA) : Raw :=
  { x.h.raw with d := x.d.code, a := x.a.code, b := x.b.code,
                 mod := 0#5 ++ bb x.nc ++ bb x.na ++ bb x.sat ++ x.typ.code ++ x.rm.code }

/-- FCMP. -/
def FcmpA.parse (r : Raw) : Option FcmpA := do
  need (r.cls == 0 && r.mod == 0)
  return ⟨← r.hdr, ← FCond.ofCode r.fn, ← idxOf 8 r.d, ← r.oA, ← r.oB⟩

/-- FCMP. -/
def FcmpA.raw (x : FcmpA) : Raw :=
  { x.h.raw with fn := x.cond.code, d := BitVec.ofNat 10 x.d.val, a := x.a.code, b := x.b.code }

/-- CVT and CVTEF (R124, Table 11). -/
def CvtA.parse (r : Raw) : Option CvtA := do
  need (r.fn == 0 && !r.mb 11 && r.cls.extractLsb' 3 9 == 0)
  return ⟨← r.hdr, ← r.oD, ← r.oA, ← r.oB, ← Fmt.ofCode (r.m 4 4), ← Fmt.ofCode (r.m 0 4), ← RMode.ofCode (r.m 8 2), r.mb 10,
    r.cls.extractLsb' 0 3⟩

/-- CVT and CVTEF. -/
def CvtA.raw (x : CvtA) : Raw :=
  { x.h.raw with d := x.d.code, a := x.a.code, b := x.b.code,
                 mod := 0#1 ++ bb x.sat ++ x.rm.code ++ x.src.code ++ x.dst.code, cls := 0#9 ++ x.eix }

/-- QBLK and DQBLK (R126). -/
def BlkA.parse (r : Raw) : Option BlkA := do
  need (r.fn == 0 && r.cls == 0 && r.m 6 6 == 0)
  return ⟨← r.hdr, ← r.oD, ← r.oA, ← r.oB, r.m 2 4, ← RMode.ofCode (r.m 0 2)⟩

/-- QBLK and DQBLK. -/
def BlkA.raw (x : BlkA) : Raw :=
  { x.h.raw with d := x.d.code, a := x.a.code, b := x.b.code, mod := 0#6 ++ x.w ++ x.rm.code }

/-- UNPK4: MOD<0> F; CLS<2:0> the index, one bit without F. -/
def UnpkA.parse (r : Raw) : Option UnpkA := do
  need (r.fn == 0 && r.m 1 11 == 0 && r.b == 0 && r.cls.extractLsb' 3 9 == 0)
  return ⟨← r.hdr, ← r.oD, ← r.oA, r.mb 0, r.cls.extractLsb' 0 3⟩

/-- UNPK4. -/
def UnpkA.raw (x : UnpkA) : Raw :=
  { x.h.raw with d := x.d.code, a := x.a.code, mod := 0#11 ++ bb x.f, cls := 0#9 ++ x.idx }

/-- SHFL: FN the mode, MOD<2:0> SEG. -/
def ShflA.parse (r : Raw) : Option ShflA := do
  need (r.cls == 0 && r.m 3 9 == 0)
  return ⟨← r.hdr, ← ShMode.ofCode r.fn, ← idxOf 6 (r.m 0 3), ← r.oD, ← r.oA, ← r.oB⟩

/-- SHFL. -/
def ShflA.raw (x : ShflA) : Raw :=
  { x.h.raw with fn := x.mode.code, mod := BitVec.ofNat 12 x.seg.val, d := x.d.code, a := x.a.code, b := x.b.code }

/-- VBCAST. -/
def BcastA.parse (r : Raw) : Option BcastA := do
  need (r.fn == 0 && r.cls == 0 && r.m 3 9 == 0)
  return ⟨← r.hdr, ← idxOf 6 (r.m 0 3), ← r.oD, ← r.oA, ← r.oB⟩

/-- VBCAST. -/
def BcastA.raw (x : BcastA) : Raw :=
  { x.h.raw with mod := BitVec.ofNat 12 x.seg.val, d := x.d.code, a := x.a.code, b := x.b.code }

/-- VRED and VSCAN: MOD<4:3> RM, MOD<5> EXCL. -/
def RedA.parse (r : Raw) : Option RedA := do
  need (r.cls == 0 && r.m 6 6 == 0 && r.b == 0)
  return ⟨← r.hdr, ← RedOp.ofCode r.fn, ← idxOf 6 (r.m 0 3), ← RMode.ofCode (r.m 3 2), r.mb 5, ← r.oD, ← r.oA⟩

/-- VRED and VSCAN. -/
def RedA.raw (x : RedA) : Raw :=
  { x.h.raw with fn := x.op.code, mod := 0#6 ++ bb x.excl ++ x.rm.code ++ BitVec.ofNat 3 x.seg.val, d := x.d.code, a := x.a.code }

/-- BALLOT. -/
def BallotA.parse (r : Raw) : Option BallotA := do
  need (r.fn == 0 && r.cls == 0 && r.m 3 9 == 0 && r.b == 0)
  return ⟨← r.hdr, ← idxOf 6 (r.m 0 3), ← r.oD, ← idxOf 8 r.a⟩

/-- BALLOT. -/
def BallotA.raw (x : BallotA) : Raw :=
  { x.h.raw with mod := BitVec.ofNat 12 x.seg.val, d := x.d.code, a := BitVec.ofNat 10 x.a.val }

/-- The triple of a pointer operand. -/
def tripleOf (f : BitVec 10) : Option Triple := Triple.ofCode f

/-- Loads (chapter 7, Tables 4, 8 and 9). Under LSEL 7, MOD<11:4> is OFS8 (R155). -/
def LdA.parse (r : Raw) : Option LdA := do
  need (r.fn == 0 && r.cls.extractLsb' 9 3 == 0)
  let lsel := Fin.ofNat 8 (r.cls.extractLsb' 0 3).toNat
  need (lsel == 7 || r.m 7 5 == 0)
  let scope ← if lsel = 7 then some .grp else Scope.ofCode (r.m 4 3)
  return ⟨← r.hdr, ← r.oD, ← tripleOf r.a, ← r.oB, ← Width.ofCode (r.m 0 3), r.mb 3, scope, r.cls.getLsbD 8, r.cls.getLsbD 7,
    ← PMode.ofCode (r.cls.extractLsb' 5 2), Fin.ofNat 4 (r.cls.extractLsb' 3 2).toNat, lsel, if lsel = 7 then r.m 4 8 else 0⟩

/-- Loads. -/
def LdA.raw (x : LdA) : Raw :=
  { x.h.raw with d := x.d.code, a := x.a.code, b := x.b.code,
                 mod := (if x.lsel = 7 then x.ofs8 else 0#5 ++ x.scope.code) ++ bb x.acq ++ x.width.code,
                 cls := 0#3 ++ bb x.train ++ bb x.fp ++ x.pmode.code ++ BitVec.ofNat 2 x.slot.val ++ BitVec.ofNat 3 x.lsel.val }

/-- Stores. -/
def StA.parse (r : Raw) : Option StA := do
  need (r.fn == 0 && r.cls == 0 && r.m 7 5 == 0)
  return ⟨← r.hdr, ← r.oD, ← tripleOf r.a, ← r.oB, ← Width.ofCode (r.m 0 3), r.mb 3, ← Scope.ofCode (r.m 4 3)⟩

/-- Stores. -/
def StA.raw (x : StA) : Raw :=
  { x.h.raw with d := x.d.code, a := x.a.code, b := x.b.code, mod := 0#5 ++ x.scope.code ++ bb x.rel ++ x.width.code }

/-- PREF: FN 0 .L1, 1 .HOME; MOD<0> V. -/
def PrefA.parse (r : Raw) : Option PrefA := do
  need (r.cls == 0 && r.m 1 11 == 0 && r.d == 0 && r.fn.extractLsb' 1 3 == 0)
  return ⟨← r.hdr, r.fn.getLsbD 0, ← Triple.kind (r.mb 0) r.a, ← r.oB⟩

/-- PREF. -/
def PrefA.raw (x : PrefA) : Raw :=
  { x.h.raw with fn := 0#3 ++ bb x.home, mod := 0#11 ++ bb x.a.isV, a := x.a.code, b := x.b.code }

/-- LIMSET. -/
def LimA.parse (r : Raw) : Option LimA := do
  need (r.plain && r.b == 0)
  return ⟨← r.hdr, ← idxOf 7 r.d, ← r.oA⟩

/-- LIMSET. -/
def LimA.raw (x : LimA) : Raw := { x.h.raw with d := BitVec.ofNat 10 x.n.val, a := x.a.code }

/-- KTEST: FN 1 .ANY, MOD<0> P. -/
def KtestA.parse (r : Raw) : Option KtestA := do
  need (r.cls == 0 && r.m 1 11 == 0 && r.b == 0 && r.fn.extractLsb' 1 3 == 0)
  return ⟨← r.hdr, r.fn.getLsbD 0, ← idxOf 8 r.d, ← KReg.ofCode (r.mb 0) r.a⟩

/-- KTEST. -/
def KtestA.raw (x : KtestA) : Raw :=
  { x.h.raw with fn := 0#3 ++ bb x.anyLane, mod := 0#11 ++ bb x.a.isP, d := BitVec.ofNat 10 x.d.val, a := x.a.code }

/-- KDEMAND, KACCEPT, KABANDON and KMARK: MOD<0> P. -/
def KsetA.parse (r : Raw) : Option KsetA := do
  need (r.fn == 0 && r.cls == 0 && r.m 1 11 == 0 && r.a == 0 && r.b == 0)
  return ⟨← r.hdr, ← KReg.ofCode (r.mb 0) r.d⟩

/-- KDEMAND, KACCEPT, KABANDON and KMARK. -/
def KsetA.raw (x : KsetA) : Raw := { x.h.raw with mod := 0#11 ++ bb x.d.isP, d := x.d.code }

/-- KSTAT. -/
def KstatA.parse (r : Raw) : Option KstatA := do
  need (r.cls == 0 && r.mod == 0 && r.b == 0)
  return ⟨← r.hdr, ← KFn.ofCode r.fn, ← sOf 128 r.d, ← r.oA⟩

/-- KSTAT. -/
def KstatA.raw (x : KstatA) : Raw := { x.h.raw with fn := x.fn.code, d := sCode x.d, a := x.a.code }

/-- Token instructions (chapter 9, Table 6). -/
def TkA.parse (r : Raw) : Option TkA := do
  need (r.fn == 0 && r.cls == 0 && r.m 3 9 == 0)
  return ⟨← r.hdr, ← HC.ofCode (r.m 0 3), ← statusOf r.d, ← sOf 126 r.a, ← r.oB⟩

/-- Token instructions. -/
def TkA.raw (x : TkA) : Raw :=
  { x.h.raw with mod := 0#9 ++ x.hc.code, d := statusCode x.d, a := sCode x.a, b := x.b.code }

/-- TKQUERY: FN 0 the entry form, 1 .SELF. -/
def TkqA.parse (r : Raw) : Option TkqA := do
  need (r.cls == 0 && r.m 3 9 == 0 && r.b == 0 && r.fn.extractLsb' 1 3 == 0)
  let d ← sOf 128 r.d
  if r.fn.getLsbD 0 then do
    need (r.a == 0)
    return ⟨← r.hdr, some (← HC.ofCode (r.m 0 3)), d, 0⟩
  else do
    need (r.mod == 0)
    return ⟨← r.hdr, none, d, ← sOf 126 r.a⟩

/-- TKQUERY. -/
def TkqA.raw (x : TkqA) : Raw :=
  match x.self with
  | none => { x.h.raw with d := sCode x.d, a := sCode x.a }
  | some c => { x.h.raw with fn := 1, mod := 0#9 ++ c.code, d := sCode x.d }

/-- ATOM and ATOMS (chapter 10, Tables 2 to 4). -/
def AtomA.parse (r : Raw) : Option AtomA := do
  need (r.m 9 3 == 0 && (r.m 0 3 == 4 || r.m 0 3 == 5))
  return ⟨← r.hdr, ← AtomOp.ofCode r.fn, ← r.oD, ← sOf 126 r.a, ← r.oB, r.mb 0, r.mb 3, ← Ord.ofCode (r.m 7 2),
    ← Scope.ofCode (r.m 4 3), ← r.oC⟩

/-- ATOM and ATOMS. -/
def AtomA.raw (x : AtomA) : Raw :=
  { x.h.raw with fn := x.op.code, d := x.d.code, a := sCode x.a, b := x.b.code,
                 mod := 0#3 ++ x.ord.code ++ x.scope.code ++ bb x.zx ++ 2#2 ++ bb x.dbl, cls := 0#2 ++ x.cmp.code }

/-- BAR and GBAR: FN the barrier. -/
def BarA.parse (r : Raw) : Option BarA := do
  need (r.cls == 0 && r.mod == 0 && r.d == 0 && r.a == 0 && r.b == 0)
  return ⟨← r.hdr, ← idxOf 4 r.fn⟩

/-- BAR and GBAR. -/
def BarA.raw (x : BarA) : Raw := { x.h.raw with fn := BitVec.ofNat 4 x.n.val }

/-- WPARR. -/
def WparrA.parse (r : Raw) : Option WparrA := do
  need (r.fn == 0 && r.cls == 0 && r.m 7 5 == 0 && r.m 0 4 == 0 && r.b == 0)
  return ⟨← r.hdr, ← Scope.ofCode (r.m 4 3), ← r.oD, ← sOf 126 r.a⟩

/-- WPARR. -/
def WparrA.raw (x : WparrA) : Raw :=
  { x.h.raw with mod := 0#5 ++ x.scope.code ++ 0#4, d := x.d.code, a := sCode x.a }

/-- WPWAIT and WAITA: CLS<2:0> LSEL, 7 reserved. -/
def WaitA.parse (r : Raw) : Option WaitA := do
  need (r.m 7 5 == 0 && r.m 1 3 == 0 && r.cls.extractLsb' 3 9 == 0)
  return ⟨← r.hdr, ← WCond.ofCode r.fn, ← Scope.ofCode (r.m 4 3), r.mb 0, ← idxOf 7 (r.cls.extractLsb' 0 3), ← r.oD,
    ← sOf 126 r.a, ← r.oB⟩

/-- WPWAIT and WAITA. -/
def WaitA.raw (x : WaitA) : Raw :=
  { x.h.raw with fn := x.cond.code, mod := 0#5 ++ x.scope.code ++ 0#3 ++ bb x.zx, cls := BitVec.ofNat 12 x.lsel.val,
                 d := x.d.code, a := sCode x.a, b := x.b.code }

/-- FENCE. -/
def FenceA.parse (r : Raw) : Option FenceA := do
  need (r.fn == 0 && r.cls == 0 && r.m 9 3 == 0 && r.m 0 4 == 0 && r.d == 0 && r.a == 0 && r.b == 0)
  return ⟨← r.hdr, ← Ord.ofCode (r.m 7 2), ← Scope.ofCode (r.m 4 3)⟩

/-- FENCE. -/
def FenceA.raw (x : FenceA) : Raw := { x.h.raw with mod := 0#3 ++ x.ord.code ++ x.scope.code ++ 0#4 }

/-- TLD and TST (chapter 11, Table 8). -/
def TileMemA.parse (r : Raw) : Option TileMemA := do
  need (r.fn == 0 && r.m 7 5 == 0 && r.m 1 3 == 0 && r.cls.extractLsb' 8 4 == 0 && !r.cls.getLsbD 3)
  need (r.cls.getLsbD 7 || r.cls.extractLsb' 4 3 == 0)
  let status ← if r.cls.getLsbD 7 then (idxOf 7 (r.cls.extractLsb' 4 3)).map some else some none
  return ⟨← r.hdr, r.mb 0, ← Scope.ofCode (r.m 4 3), ← idxOf 7 (r.cls.extractLsb' 0 3), status, ← idxOf 16 r.d, ← sOf 126 r.a,
    ← r.oB⟩

/-- TLD and TST. -/
def TileMemA.raw (x : TileMemA) : Raw :=
  { x.h.raw with mod := 0#5 ++ x.scope.code ++ 0#3 ++ bb x.aon,
                 cls := 0#4 ++ (match x.status with
                   | none => 0#4
                   | some i => 1#1 ++ BitVec.ofNat 3 i.val) ++ 0#1 ++ BitVec.ofNat 3 x.lsel.val,
                 d := BitVec.ofNat 10 x.t.val, a := sCode x.a, b := x.b.code }

/-- TZERO, TMOV and TXP. -/
def TileA.parse (r : Raw) : Option TileA := do
  need (r.plain && r.b == 0)
  return ⟨← r.hdr, ← idxOf 16 r.d, ← idxOf 16 r.a⟩

/-- TZERO, TMOV and TXP. -/
def TileA.raw (x : TileA) : Raw := { x.h.raw with d := BitVec.ofNat 10 x.d.val, a := BitVec.ofNat 10 x.a.val }

/-- MTASK: FN OP; MOD<0> TA, MOD<1> TB, MOD<2> ACC; CLS<9:0> the shape word. -/
def MtaskA.parse (r : Raw) : Option MtaskA := do
  need (r.m 3 9 == 0)
  return ⟨← r.hdr, ← TaskOp.ofCode r.fn, r.mb 0, r.mb 1, r.mb 2, ← idxOf 32 r.d, ← idxOf 16 r.a, ← idxOf 16 r.b, ← r.oC⟩

/-- MTASK. -/
def MtaskA.raw (x : MtaskA) : Raw :=
  { x.h.raw with fn := x.op.code, mod := 0#9 ++ bb x.acc ++ bb x.tb ++ bb x.ta, d := BitVec.ofNat 10 x.d.val,
                 a := BitVec.ofNat 10 x.a.val, b := BitVec.ofNat 10 x.b.val, cls := 0#2 ++ x.shape.code }

/-- MTASKM. -/
def MtaskmA.parse (r : Raw) : Option MtaskmA := do
  need (r.plain && r.d == 0)
  return ⟨← r.hdr, ← r.oA, ← r.oB⟩

/-- MTASKM. -/
def MtaskmA.raw (x : MtaskmA) : Raw := { x.h.raw with a := x.a.code, b := x.b.code }

/-- ACALLOC and ACFREE. -/
def AcMaskA.parse (r : Raw) : Option AcMaskA := do
  need (r.plain && r.b == 0)
  return ⟨← r.hdr, ← statusOf r.d, ← r.oA⟩

/-- ACALLOC and ACFREE. -/
def AcMaskA.raw (x : AcMaskA) : Raw := { x.h.raw with d := statusCode x.d, a := x.a.code }

/-- ACBAND. -/
def AcBandA.parse (r : Raw) : Option AcBandA := do
  need r.plain
  return ⟨← r.hdr, ← BankSel.ofCode r.d, ← r.oA, ← r.oB⟩

/-- ACBAND. -/
def AcBandA.raw (x : AcBandA) : Raw := { x.h.raw with d := x.d.code, a := x.a.code, b := x.b.code }

/-- ACDRAIN: D the register, A the bank. MOD<1:0> W, MOD<2> I. -/
def AcMoveA.parseDrain (r : Raw) : Option AcMoveA := do
  need (r.fn == 0 && r.cls == 0 && r.m 3 9 == 0)
  return ⟨← r.hdr, ← BankSel.ofCode r.a, ← r.oD, ← r.oB, Fin.ofNat 4 (r.m 0 2).toNat, r.mb 2⟩

/-- ACLOAD: D the bank, A the register. -/
def AcMoveA.parseLoad (r : Raw) : Option AcMoveA := do
  need (r.fn == 0 && r.cls == 0 && r.m 3 9 == 0)
  return ⟨← r.hdr, ← BankSel.ofCode r.d, ← r.oA, ← r.oB, Fin.ofNat 4 (r.m 0 2).toNat, r.mb 2⟩

/-- ACDRAIN. -/
def AcMoveA.rawDrain (x : AcMoveA) : Raw :=
  { x.h.raw with a := x.bank.code, d := x.r.code, b := x.win.code, mod := 0#9 ++ bb x.i ++ BitVec.ofNat 2 x.w.val }

/-- ACLOAD. -/
def AcMoveA.rawLoad (x : AcMoveA) : Raw :=
  { x.h.raw with d := x.bank.code, a := x.r.code, b := x.win.code, mod := 0#9 ++ bb x.i ++ BitVec.ofNat 2 x.w.val }

/-- ACZERO. -/
def AcZeroA.parse (r : Raw) : Option AcZeroA := do
  need (r.plain && r.b == 0)
  return ⟨← r.hdr, ← BankSel.ofCode r.d, ← r.oA⟩

/-- ACZERO. -/
def AcZeroA.raw (x : AcZeroA) : Raw := { x.h.raw with d := x.d.code, a := x.a.code }

/-- ACSCALE: MOD<4:0> f, MOD<9:5> n − 1, CLS<9:0> s. -/
def AcScaleA.parse (r : Raw) : Option AcScaleA := do
  need (r.fn == 0 && r.m 10 2 == 0)
  return ⟨← r.hdr, ← BankSel.ofCode r.d, ← BankSel.ofCode r.a, ← r.oB, ← r.oC, r.m 0 5, r.m 5 5⟩

/-- ACSCALE. -/
def AcScaleA.raw (x : AcScaleA) : Raw :=
  { x.h.raw with d := x.d.code, a := x.a.code, b := x.b.code, cls := 0#2 ++ x.sc.code, mod := 0#2 ++ x.nM1 ++ x.f }

/-- MSTAT: FN the item, MOD<0> CLR. -/
def MstatA.parse (r : Raw) : Option MstatA := do
  need (r.cls == 0 && r.m 1 11 == 0 && r.a == 0 && r.b == 0)
  return ⟨← r.hdr, ← MItem.ofCode r.fn, r.mb 0, ← sOf 128 r.d⟩

/-- MSTAT. -/
def MstatA.raw (x : MstatA) : Raw := { x.h.raw with fn := x.item.code, mod := 0#11 ++ bb x.clr, d := sCode x.d }

/-- MCHECK: FN 0 .BANK, 1 .SELF. -/
def McheckA.parse (r : Raw) : Option McheckA := do
  need (r.cls == 0 && r.mod == 0 && r.b == 0 && r.fn.extractLsb' 1 3 == 0)
  if r.fn.getLsbD 0 then do
    need (r.a == 0)
    return ⟨← r.hdr, ← r.oD, none⟩
  else return ⟨← r.hdr, ← r.oD, some (← BankSel.ofCode r.a)⟩

/-- MCHECK. -/
def McheckA.raw (x : McheckA) : Raw :=
  match x.a with
  | none => { x.h.raw with fn := 1, d := x.d.code }
  | some b => { x.h.raw with d := x.d.code, a := b.code }

/-- COPY (chapter 13, Table 1). -/
def CopyA.parse (r : Raw) : Option CopyA := do
  need (r.fn == 0 && r.m 7 5 == 0 && !r.mb 3)
  let c ← if r.mb 0 || r.mb 1 then (do
      need (r.cls.extractLsb' 10 2 == 0)
      sOf 126 (r.cls.extractLsb' 0 10) : Option (Fin 126))
    else if r.cls == 0 then some 0 else none
  return ⟨← r.hdr, r.mb 0, r.mb 1, r.mb 2, ← Scope.ofCode (r.m 4 3), ← sOf 126 r.d, ← sOf 126 r.a, ← r.oB, c⟩

/-- COPY. -/
def CopyA.raw (x : CopyA) : Raw :=
  { x.h.raw with d := sCode x.d, a := sCode x.a, b := x.b.code,
                 mod := 0#5 ++ x.scope.code ++ 0#1 ++ bb x.cdst ++ bb x.cw ++ bb x.m,
                 cls := if x.m || x.cw then 0#2 ++ sCode x.c else 0 }

/-- MSEND: MOD<0> SP, MOD<1> TAG, MOD<7:2> words − 1. -/
def MsendA.parse (r : Raw) : Option MsendA := do
  need (r.fn == 0 && r.m 8 4 == 0)
  return ⟨← r.hdr, ← statusOf r.d, r.mb 0, r.mb 1, r.m 2 6, ← r.oA, ← r.oB, ← r.oC⟩

/-- MSEND. -/
def MsendA.raw (x : MsendA) : Raw :=
  { x.h.raw with d := statusCode x.d, a := x.a.code, b := x.b.code, cls := 0#2 ++ x.tagv.code,
                 mod := 0#4 ++ x.wordsM1 ++ bb x.tag ++ bb x.sp }

/-- RINGSET: MOD<2:0> the ring. -/
def RingA.parse (r : Raw) : Option RingA := do
  need (r.fn == 0 && r.cls == 0 && r.m 3 9 == 0)
  return ⟨← r.hdr, ← statusOf r.d, Fin.ofNat 8 (r.m 0 3).toNat, ← r.oA, ← r.oB⟩

/-- RINGSET. -/
def RingA.raw (x : RingA) : Raw :=
  { x.h.raw with d := statusCode x.d, mod := BitVec.ofNat 12 x.ring.val, a := x.a.code, b := x.b.code }

/-- ARM. -/
def ArmA.parse (r : Raw) : Option ArmA := do
  need (r.fn == 0 && r.mod == 0)
  return ⟨← r.hdr, ← statusOf r.d, ← sOf 126 r.a, ← sOf 126 r.b, ← r.oC⟩

/-- ARM. -/
def ArmA.raw (x : ArmA) : Raw :=
  { x.h.raw with d := statusCode x.d, a := sCode x.a, b := sCode x.b, cls := 0#2 ++ x.tag.code }

/-- DISARM and ASGO. -/
def St1A.parse (r : Raw) : Option St1A := do
  need (r.plain && r.b == 0)
  return ⟨← r.hdr, ← statusOf r.d, ← r.oA⟩

/-- DISARM and ASGO. -/
def St1A.raw (x : St1A) : Raw := { x.h.raw with d := statusCode x.d, a := x.a.code }

/-- ASDEF: MOD<2:0> the stream. -/
def AsdefA.parse (r : Raw) : Option AsdefA := do
  need (r.fn == 0 && r.cls == 0 && r.m 3 9 == 0 && r.b == 0)
  return ⟨← r.hdr, ← statusOf r.d, Fin.ofNat 8 (r.m 0 3).toNat, ← r.oA⟩

/-- ASDEF. -/
def AsdefA.raw (x : AsdefA) : Raw :=
  { x.h.raw with d := statusCode x.d, mod := BitVec.ofNat 12 x.stream.val, a := x.a.code }

/-- QPOP: MOD<0> V; CLS as chapter 7, Table 4, without TRAIN and LSEL 7. -/
def QpopA.parse (r : Raw) : Option QpopA := do
  need (r.fn == 0 && r.m 1 11 == 0 && r.b == 0 && r.cls.extractLsb' 8 4 == 0)
  return ⟨← r.hdr, r.mb 0, ← r.oD, ← idxOf 8 r.a, r.cls.getLsbD 7, ← PMode.ofCode (r.cls.extractLsb' 5 2),
    Fin.ofNat 4 (r.cls.extractLsb' 3 2).toNat, ← idxOf 7 (r.cls.extractLsb' 0 3)⟩

/-- QPOP. -/
def QpopA.raw (x : QpopA) : Raw :=
  { x.h.raw with mod := 0#11 ++ bb x.vec, d := x.d.code, a := BitVec.ofNat 10 x.queue.val,
                 cls := 0#4 ++ bb x.fp ++ x.pmode.code ++ BitVec.ofNat 2 x.slot.val ++ BitVec.ofNat 3 x.lsel.val }

/-- GATTACH. -/
def GattA.parse (r : Raw) : Option GattA := do
  need r.plain
  return ⟨← r.hdr, ← statusOf r.d, ← r.oA, ← r.oB⟩

/-- GATTACH. -/
def GattA.raw (x : GattA) : Raw := { x.h.raw with d := statusCode x.d, a := x.a.code, b := x.b.code }

/-- GDETACH. -/
def GdetA.parse (r : Raw) : Option GdetA := do
  need (r.plain && r.a == 0 && r.b == 0)
  return ⟨← r.hdr, ← statusOf r.d⟩

/-- GDETACH. -/
def GdetA.raw (x : GdetA) : Raw := { x.h.raw with d := statusCode x.d }

/-- SRD: MOD<7:0> the selector (R74). -/
def SrdA.parse (r : Raw) : Option SrdA := do
  need (r.fn == 0 && r.cls == 0 && r.m 8 4 == 0 && r.a == 0)
  return ⟨← r.hdr, ← SReg.ofCode (r.m 0 8), ← r.oD, ← r.oB⟩

/-- SRD. -/
def SrdA.raw (x : SrdA) : Raw := { x.h.raw with mod := 0#4 ++ x.sel.code, d := x.d.code, b := x.idx.code }

/-- SWR. -/
def SwrA.parse (r : Raw) : Option SwrA := do
  need (r.fn == 0 && r.cls == 0 && r.m 8 4 == 0 && r.d == 0)
  return ⟨← r.hdr, ← SReg.ofCode (r.m 0 8), ← r.oA, ← r.oB⟩

/-- SWR. -/
def SwrA.raw (x : SwrA) : Raw := { x.h.raw with mod := 0#4 ++ x.sel.code, a := x.a.code, b := x.idx.code }

/-- TRAP: the code is an immediate. -/
def TrapA.parse (r : Raw) : Option TrapA := do
  need (r.plain && r.d == 0 && r.b == 0 && r.a.extractLsb' 8 2 == 3)
  return ⟨← r.hdr, r.a.extractLsb' 0 8⟩

/-- TRAP. -/
def TrapA.raw (x : TrapA) : Raw := { x.h.raw with a := 3#2 ++ x.code }

/-- SPAWN: vA with A ≤ 248. -/
def SpawnA.parse (r : Raw) : Option SpawnA := do
  need (r.fn == 0 && r.b == 0)
  return ⟨← r.hdr, ← statusOf r.d, ← idxOf 249 r.a, r.disp⟩

/-- SPAWN. -/
def SpawnA.raw (x : SpawnA) : Raw :=
  { x.h.raw with d := statusCode x.d, a := BitVec.ofNat 10 x.a.val, mod := x.disp.extractLsb' 12 12,
                 cls := x.disp.extractLsb' 0 12 }

/-- LAUNCH. -/
def LaunchA.parse (r : Raw) : Option LaunchA := do
  need r.plain
  return ⟨← r.hdr, ← statusOf r.d, ← sOf 126 r.a, ← r.oB⟩

/-- LAUNCH. -/
def LaunchA.raw (x : LaunchA) : Raw := { x.h.raw with d := statusCode x.d, a := sCode x.a, b := x.b.code }

/-- TBINV: D the context. -/
def TbinvA.parse (r : Raw) : Option TbinvA := do
  need r.plain
  return ⟨← r.hdr, ← r.oD, ← sOf 126 r.a, ← r.oB⟩

/-- TBINV. -/
def TbinvA.raw (x : TbinvA) : Raw := { x.h.raw with d := x.ctx.code, a := sCode x.a, b := x.k.code }

/-- PLACEW. -/
def PlacewA.parse (r : Raw) : Option PlacewA := do
  need r.plain
  return ⟨← r.hdr, ← statusOf r.d, ← r.oA, ← r.oB⟩

/-- PLACEW. -/
def PlacewA.raw (x : PlacewA) : Raw := { x.h.raw with d := statusCode x.d, a := x.key.code, b := x.entry.code }

/-- The first operand of FINJ. -/
def FinjOp.parse (k : FKind) (f : BitVec 10) : Option FinjOp :=
  if k = .poison then (sOf 126 f).map .triple else (Opnd.ofCode f).map .key

/-- The code of that operand. -/
def FinjOp.code : FinjOp → BitVec 10
  | .key x => x.code
  | .triple n => sCode n

/-- FINJ. -/
def FinjA.parse (r : Raw) : Option FinjA := do
  need (r.cls == 0 && r.mod == 0 && r.d == 0)
  let k ← FKind.ofCode r.fn
  return ⟨← r.hdr, k, ← FinjOp.parse k r.a, ← r.oB⟩

/-- FINJ. -/
def FinjA.raw (x : FinjA) : Raw := { x.h.raw with fn := x.kind.code, a := x.a.code, b := x.b.code }

/-! ## The opcode map (R72, Table 8) -/

/-- Row 0 of the map: the fields of an instruction with OPC<7:4> = 0. -/
def parse0 (r : Raw) (lo : Nat) : Option Instr :=
  match lo with
  | 1 => (NoA.parse r).map .nop
  | 2 => (TrailA.parse r).map .trail
  | 3 => (BrA.parse r).map .bra
  | 4 => (BrA.parse r).map .brd
  | 5 => (SrcA.parse r).map .brx
  | 6 => (BrDA.parse r).map .call
  | 7 => (SrcA.parse r).map .ret
  | 8 => (BrDA.parse r).map .loop
  | 9 => (DstA.parse r).map .splq
  | 10 => (NoA.parse r).map .exit
  | _ => none

/-- Row 1 of the map: the fields of an instruction with OPC<7:4> = 1. -/
def parse1 (r : Raw) (lo : Nat) : Option Instr :=
  match lo with
  | 0 => (SBinA.parse r).map .sadd
  | 1 => (SBinA.parse r).map .ssub
  | 2 => (SBinA.parse r).map .smul
  | 3 => (SBinA.parse r).map .smulh
  | 4 => (SBinA.parse r).map .smad
  | 5 => (SBinA.parse r).map .sdiv
  | 6 => (SBinA.parse r).map .sand
  | 7 => (SBinA.parse r).map .sor
  | 8 => (SBinA.parse r).map .sxor
  | 9 => (SBinA.parse r).map .sshl
  | 10 => (SBinA.parse r).map .sshr
  | 11 => (SBinA.parse r).map .ssar
  | 12 => (SBinA.parse r).map .smin
  | 13 => (SBinA.parse r).map .smax
  | 14 => (UnA.parse r).map .sabs
  | _ => (MovA.parse r).map .smov

/-- Row 2 of the map: the fields of an instruction with OPC<7:4> = 2. -/
def parse2 (r : Raw) (lo : Nat) : Option Instr :=
  match lo with
  | 0 => (SelA.parse r).map .ssel
  | 1 => (CmpA.parse r).map .scmp
  | 2 => (UnA.parse r).map .spopc
  | 3 => (UnA.parse r).map .sclz
  | 4 => (BfA.parse r).map .sbfe
  | 5 => (BfA.parse r).map .sbfi
  | 6 => (PlogA.parse r).map .plog
  | 7 => (PmovA.parse r).map .pmov
  | 8 => (PqA.parse r).map .pany
  | 9 => (PqA.parse r).map .pall
  | 10 => (PsA.parse r).map .pcnt
  | 11 => (PaddA.parse r).map .padd
  | 12 => (PtagA.parse r).map .ptag
  | 13 => (PfldA.parse r).map .pfld
  | 14 => (PcmpA.parse r).map .pcmp
  | _ => none

/-- Row 4 of the map: the fields of an instruction with OPC<7:4> = 4. -/
def parse4 (r : Raw) (lo : Nat) : Option Instr :=
  match lo with
  | 0 => (VA.parse r).map .vadd
  | 1 => (VA.parse r).map .vsub
  | 2 => (VA.parse r).map .vmul
  | 3 => (VA.parse r).map .vmulh
  | 4 => (VA.parse r).map .vmad
  | 5 => (VA.parse r).map .vand
  | 6 => (VA.parse r).map .vor
  | 7 => (VA.parse r).map .vxor
  | 8 => (VA.parse r).map .vnot
  | 9 => (VA.parse r).map .vshl
  | 10 => (VA.parse r).map .vshr
  | 11 => (VA.parse r).map .vsar
  | 12 => (VA.parse r).map .vmin
  | 13 => (VA.parse r).map .vmax
  | 14 => (VA.parse r).map .vabs
  | _ => (VA.parse r).map .vneg

/-- Row 5 of the map: the fields of an instruction with OPC<7:4> = 5. -/
def parse5 (r : Raw) (lo : Nat) : Option Instr :=
  match lo with
  | 0 => (CmpA.parse r).map .vcmp
  | 1 => (SelA.parse r).map .vsel
  | 2 => (VA.parse r).map .vmov
  | 3 => (VA.parse r).map .vpopc
  | 4 => (VA.parse r).map .vclz
  | 5 => (BfA.parse r).map .vbfe
  | 6 => (BfA.parse r).map .vbfi
  | 7 => (VA.parse r).map .vdot4
  | 8 => (FA.parse r).map .fadd
  | 9 => (FA.parse r).map .fsub
  | 10 => (FA.parse r).map .fmul
  | 11 => (FA.parse r).map .ffma
  | 12 => (FA.parse r).map .fmin
  | 13 => (FA.parse r).map .fmax
  | 14 => (FcmpA.parse r).map .fcmp
  | _ => (UnA.parse r).map .fclass

/-- Row 6 of the map: the fields of an instruction with OPC<7:4> = 6. -/
def parse6 (r : Raw) (lo : Nat) : Option Instr :=
  match lo with
  | 0 => (FA.parse r).map .fscale
  | 1 => (FA.parse r).map .frnd
  | 2 => (FA.parse r).map .fdot2
  | 3 => (UnA.parse r).map .frcp
  | 4 => (UnA.parse r).map .frsq
  | 5 => (UnA.parse r).map .fsqrt
  | 6 => (UnA.parse r).map .fexp2
  | 7 => (UnA.parse r).map .flog2
  | 8 => (UnA.parse r).map .fsin
  | 9 => (UnA.parse r).map .fcos
  | 10 => (UnA.parse r).map .ftanh
  | 11 => (CvtA.parse r).map .cvt
  | 12 => (CvtA.parse r).map .cvtef
  | 13 => (BlkA.parse r).map .qblk
  | 14 => (BlkA.parse r).map .dqblk
  | _ => (BinA.parse r).map .pack4

/-- Row 7 of the map: the fields of an instruction with OPC<7:4> = 7. -/
def parse7 (r : Raw) (lo : Nat) : Option Instr :=
  match lo with
  | 0 => (UnpkA.parse r).map .unpk4
  | 1 => (ShflA.parse r).map .shfl
  | 2 => (BcastA.parse r).map .vbcast
  | 3 => (RedA.parse r).map .vred
  | 4 => (RedA.parse r).map .vscan
  | 5 => (BallotA.parse r).map .ballot
  | _ => none

/-- Row 8 of the map: the fields of an instruction with OPC<7:4> = 8. -/
def parse8 (r : Raw) (lo : Nat) : Option Instr :=
  match lo with
  | 0 => (LdA.parse r).map .ld
  | 1 => (StA.parse r).map .st
  | 2 => (LdA.parse r).map .lds
  | 3 => (StA.parse r).map .sts
  | 4 => (LdA.parse r).map .ldg
  | 5 => (StA.parse r).map .stg
  | 6 => (BinA.parse r).map .ldl
  | 7 => (BinA.parse r).map .stl
  | 8 => (PrefA.parse r).map .pref
  | 9 => (LimA.parse r).map .limset
  | _ => none

/-- Row 9 of the map: the fields of an instruction with OPC<7:4> = 9. -/
def parse9 (r : Raw) (lo : Nat) : Option Instr :=
  match lo with
  | 0 => (KtestA.parse r).map .ktest
  | 1 => (KsetA.parse r).map .kdemand
  | 2 => (KsetA.parse r).map .kaccept
  | 3 => (KsetA.parse r).map .kabandon
  | 4 => (KsetA.parse r).map .kmark
  | 5 => (KstatA.parse r).map .kstat
  | _ => none

/-- Row A of the map: the fields of an instruction with OPC<7:4> = A. -/
def parseA (r : Raw) (lo : Nat) : Option Instr :=
  match lo with
  | 0 => (TkA.parse r).map .tklend
  | 1 => (TkA.parse r).map .tkret
  | 2 => (TkA.parse r).map .tktake
  | 3 => (TkA.parse r).map .tksplit
  | 4 => (TkA.parse r).map .tkjoin
  | 5 => (TkA.parse r).map .tkshare
  | 6 => (TkA.parse r).map .tkunshare
  | 7 => (TkA.parse r).map .tkhome
  | 8 => (TkA.parse r).map .tkunhome
  | 9 => (TkqA.parse r).map .tkquery
  | 10 => (TkA.parse r).map .tkadopt
  | _ => none

/-- Row B of the map: the fields of an instruction with OPC<7:4> = B. -/
def parseB (r : Raw) (lo : Nat) : Option Instr :=
  match lo with
  | 0 => (AtomA.parse r).map .atom
  | 1 => (AtomA.parse r).map .atoms
  | 2 => (BarA.parse r).map .bar
  | 3 => (BarA.parse r).map .gbar
  | 4 => (WparrA.parse r).map .wparr
  | 5 => (WaitA.parse r).map .wpwait
  | 6 => (WaitA.parse r).map .waita
  | 7 => (FenceA.parse r).map .fence
  | _ => none

/-- Row C of the map: the fields of an instruction with OPC<7:4> = C. -/
def parseC (r : Raw) (lo : Nat) : Option Instr :=
  match lo with
  | 0 => (TileMemA.parse r).map .tld
  | 1 => (TileMemA.parse r).map .tst
  | 2 => (TileA.parse r).map .tzero
  | 3 => (TileA.parse r).map .tmov
  | 4 => (TileA.parse r).map .txp
  | 5 => (MtaskA.parse r).map .mtask
  | 6 => (MtaskmA.parse r).map .mtaskm
  | 7 => (AcMaskA.parse r).map .acalloc
  | 8 => (AcMaskA.parse r).map .acfree
  | 9 => (AcBandA.parse r).map .acband
  | 10 => (AcMoveA.parseDrain r).map .acdrain
  | 11 => (AcMoveA.parseLoad r).map .acload
  | 12 => (AcZeroA.parse r).map .aczero
  | 13 => (AcScaleA.parse r).map .acscale
  | 14 => (MstatA.parse r).map .mstat
  | _ => (McheckA.parse r).map .mcheck

/-- Row E of the map: the fields of an instruction with OPC<7:4> = E. -/
def parseE (r : Raw) (lo : Nat) : Option Instr :=
  match lo with
  | 0 => (CopyA.parse r).map .copy
  | 1 => (MsendA.parse r).map .msend
  | 2 => (RingA.parse r).map .ringset
  | 3 => (ArmA.parse r).map .arm
  | 4 => (St1A.parse r).map .disarm
  | 5 => (AsdefA.parse r).map .asdef
  | 6 => (St1A.parse r).map .asgo
  | 7 => (UnA.parse r).map .asstop
  | 8 => (QpopA.parse r).map .qpop
  | 9 => (GattA.parse r).map .gattach
  | 10 => (GdetA.parse r).map .gdetach
  | _ => none

/-- Row F of the map: the fields of an instruction with OPC<7:4> = F. -/
def parseF (r : Raw) (lo : Nat) : Option Instr :=
  match lo with
  | 0 => (SrdA.parse r).map .srd
  | 1 => (SwrA.parse r).map .swr
  | 2 => (TrapA.parse r).map .trap
  | 3 => (SpawnA.parse r).map .spawn
  | 4 => (LaunchA.parse r).map .launch
  | 5 => (TbinvA.parse r).map .tbinv
  | 6 => (PlacewA.parse r).map .placew
  | 7 => (FinjA.parse r).map .finj
  | _ => none

/-- Whether an OPC is assigned (R72). -/
def assigned (opc : BitVec 8) : Bool :=
  let lo := opc.toNat % 16
  match opc.toNat / 16 with
  | 0 => 1 ≤ lo && lo ≤ 10
  | 1 => true
  | 2 => lo ≤ 14
  | 4 => true
  | 5 => true
  | 6 => true
  | 7 => lo ≤ 5
  | 8 => lo ≤ 9
  | 9 => lo ≤ 5
  | 10 => lo ≤ 10
  | 11 => lo ≤ 7
  | 12 => true
  | 14 => lo ≤ 10
  | 15 => lo ≤ 7
  | _ => false

/-- The FORM an opcode accepts (R53). -/
def formOf (opc : BitVec 8) : BitVec 2 :=
  if opc = 0x02 then 0b10
  else if opc = 0x03 ∨ opc = 0x04 ∨ opc = 0x06 ∨ opc = 0x08 ∨ opc = 0xF3 then 0b01 else 0b00

/-- The instruction of the fields, by OPC. -/
def parse (r : Raw) : Option Instr :=
  let lo := r.opc.toNat % 16
  match r.opc.toNat / 16 with
  | 0 => parse0 r lo
  | 1 => parse1 r lo
  | 2 => parse2 r lo
  | 4 => parse4 r lo
  | 5 => parse5 r lo
  | 6 => parse6 r lo
  | 7 => parse7 r lo
  | 8 => parse8 r lo
  | 9 => parse9 r lo
  | 10 => parseA r lo
  | 11 => parseB r lo
  | 12 => parseC r lo
  | 14 => parseE r lo
  | 15 => parseF r lo
  | _ => none

/-- The decoder (R52): total on any word. -/
def decode (w : IWord) : Decoded :=
  let r := Raw.ofWord w
  if !assigned r.opc then .ok .unassignedOpcode
  else if r.form != formOf r.opc then .illEnc .form
  else if r.rsv != 0 then .illEnc .reservedBits
  else match parse r with
    | none => .illEnc .field
    | some i => if i.wf then .ok i else .illEnc .kind

/-- A 32-bit word from four bytes, least significant first (R49). -/
def word4 (b0 b1 b2 b3 : Byte) : Word := b3 ++ b2 ++ b1 ++ b0

/-- The instruction word of twelve bytes (R49); none when there are not twelve. -/
def wordOfBytes : List Byte → Option IWord
  | [b0, b1, b2, b3, b4, b5, b6, b7, b8, b9, b10, b11] =>
    some (word4 b8 b9 b10 b11 ++ word4 b4 b5 b6 b7 ++ word4 b0 b1 b2 b3)
  | _ => none

/-- The bytes of an instruction word, lowest address first. -/
def bytesOfWord (w : IWord) : List Byte := (List.range 12).map fun i => w.extractLsb' (8 * i) 8

/-- The decoder on bytes. -/
def decodeBytes (bs : List Byte) : Option Decoded := (wordOfBytes bs).map decode

/-- The instruction the decoder reads from a table row's bits: the bits above `nbits` are zero. -/
def decodeTableWord (nbits w : Nat) : Option Instr :=
  match decodeBytes (bytesOfWord (BitVec.ofNat 96 (w % 2 ^ nbits))) with
  | some (.ok i) => some i
  | _ => none

/-! ## The encoder -/

/-- The fields of an instruction; a step that is no instruction of a code image has none. -/
def Instr.raw : Instr → Option Raw
  | .nop x => some { x.raw with form := formOf 0x1, opc := 0x1 }
  | .trail x => some { x.raw with form := formOf 0x2, opc := 0x2 }
  | .bra x => some { x.raw with form := formOf 0x3, opc := 0x3 }
  | .brd x => some { x.raw with form := formOf 0x4, opc := 0x4 }
  | .brx x => some { x.raw with form := formOf 0x5, opc := 0x5 }
  | .call x => some { x.raw with form := formOf 0x6, opc := 0x6 }
  | .ret x => some { x.raw with form := formOf 0x7, opc := 0x7 }
  | .loop x => some { x.raw with form := formOf 0x8, opc := 0x8 }
  | .splq x => some { x.raw with form := formOf 0x9, opc := 0x9 }
  | .exit x => some { x.raw with form := formOf 0xa, opc := 0xa }
  | .sadd x => some { x.raw with form := formOf 0x10, opc := 0x10 }
  | .ssub x => some { x.raw with form := formOf 0x11, opc := 0x11 }
  | .smul x => some { x.raw with form := formOf 0x12, opc := 0x12 }
  | .smulh x => some { x.raw with form := formOf 0x13, opc := 0x13 }
  | .smad x => some { x.raw with form := formOf 0x14, opc := 0x14 }
  | .sdiv x => some { x.raw with form := formOf 0x15, opc := 0x15 }
  | .sand x => some { x.raw with form := formOf 0x16, opc := 0x16 }
  | .sor x => some { x.raw with form := formOf 0x17, opc := 0x17 }
  | .sxor x => some { x.raw with form := formOf 0x18, opc := 0x18 }
  | .sshl x => some { x.raw with form := formOf 0x19, opc := 0x19 }
  | .sshr x => some { x.raw with form := formOf 0x1a, opc := 0x1a }
  | .ssar x => some { x.raw with form := formOf 0x1b, opc := 0x1b }
  | .smin x => some { x.raw with form := formOf 0x1c, opc := 0x1c }
  | .smax x => some { x.raw with form := formOf 0x1d, opc := 0x1d }
  | .sabs x => some { x.raw with form := formOf 0x1e, opc := 0x1e }
  | .smov x => some { x.raw with form := formOf 0x1f, opc := 0x1f }
  | .ssel x => some { x.raw with form := formOf 0x20, opc := 0x20 }
  | .scmp x => some { x.raw with form := formOf 0x21, opc := 0x21 }
  | .spopc x => some { x.raw with form := formOf 0x22, opc := 0x22 }
  | .sclz x => some { x.raw with form := formOf 0x23, opc := 0x23 }
  | .sbfe x => some { x.raw with form := formOf 0x24, opc := 0x24 }
  | .sbfi x => some { x.raw with form := formOf 0x25, opc := 0x25 }
  | .plog x => some { x.raw with form := formOf 0x26, opc := 0x26 }
  | .pmov x => some { x.raw with form := formOf 0x27, opc := 0x27 }
  | .pany x => some { x.raw with form := formOf 0x28, opc := 0x28 }
  | .pall x => some { x.raw with form := formOf 0x29, opc := 0x29 }
  | .pcnt x => some { x.raw with form := formOf 0x2a, opc := 0x2a }
  | .padd x => some { x.raw with form := formOf 0x2b, opc := 0x2b }
  | .ptag x => some { x.raw with form := formOf 0x2c, opc := 0x2c }
  | .pfld x => some { x.raw with form := formOf 0x2d, opc := 0x2d }
  | .pcmp x => some { x.raw with form := formOf 0x2e, opc := 0x2e }
  | .vadd x => some { x.raw with form := formOf 0x40, opc := 0x40 }
  | .vsub x => some { x.raw with form := formOf 0x41, opc := 0x41 }
  | .vmul x => some { x.raw with form := formOf 0x42, opc := 0x42 }
  | .vmulh x => some { x.raw with form := formOf 0x43, opc := 0x43 }
  | .vmad x => some { x.raw with form := formOf 0x44, opc := 0x44 }
  | .vand x => some { x.raw with form := formOf 0x45, opc := 0x45 }
  | .vor x => some { x.raw with form := formOf 0x46, opc := 0x46 }
  | .vxor x => some { x.raw with form := formOf 0x47, opc := 0x47 }
  | .vnot x => some { x.raw with form := formOf 0x48, opc := 0x48 }
  | .vshl x => some { x.raw with form := formOf 0x49, opc := 0x49 }
  | .vshr x => some { x.raw with form := formOf 0x4a, opc := 0x4a }
  | .vsar x => some { x.raw with form := formOf 0x4b, opc := 0x4b }
  | .vmin x => some { x.raw with form := formOf 0x4c, opc := 0x4c }
  | .vmax x => some { x.raw with form := formOf 0x4d, opc := 0x4d }
  | .vabs x => some { x.raw with form := formOf 0x4e, opc := 0x4e }
  | .vneg x => some { x.raw with form := formOf 0x4f, opc := 0x4f }
  | .vcmp x => some { x.raw with form := formOf 0x50, opc := 0x50 }
  | .vsel x => some { x.raw with form := formOf 0x51, opc := 0x51 }
  | .vmov x => some { x.raw with form := formOf 0x52, opc := 0x52 }
  | .vpopc x => some { x.raw with form := formOf 0x53, opc := 0x53 }
  | .vclz x => some { x.raw with form := formOf 0x54, opc := 0x54 }
  | .vbfe x => some { x.raw with form := formOf 0x55, opc := 0x55 }
  | .vbfi x => some { x.raw with form := formOf 0x56, opc := 0x56 }
  | .vdot4 x => some { x.raw with form := formOf 0x57, opc := 0x57 }
  | .fadd x => some { x.raw with form := formOf 0x58, opc := 0x58 }
  | .fsub x => some { x.raw with form := formOf 0x59, opc := 0x59 }
  | .fmul x => some { x.raw with form := formOf 0x5a, opc := 0x5a }
  | .ffma x => some { x.raw with form := formOf 0x5b, opc := 0x5b }
  | .fmin x => some { x.raw with form := formOf 0x5c, opc := 0x5c }
  | .fmax x => some { x.raw with form := formOf 0x5d, opc := 0x5d }
  | .fcmp x => some { x.raw with form := formOf 0x5e, opc := 0x5e }
  | .fclass x => some { x.raw with form := formOf 0x5f, opc := 0x5f }
  | .fscale x => some { x.raw with form := formOf 0x60, opc := 0x60 }
  | .frnd x => some { x.raw with form := formOf 0x61, opc := 0x61 }
  | .fdot2 x => some { x.raw with form := formOf 0x62, opc := 0x62 }
  | .frcp x => some { x.raw with form := formOf 0x63, opc := 0x63 }
  | .frsq x => some { x.raw with form := formOf 0x64, opc := 0x64 }
  | .fsqrt x => some { x.raw with form := formOf 0x65, opc := 0x65 }
  | .fexp2 x => some { x.raw with form := formOf 0x66, opc := 0x66 }
  | .flog2 x => some { x.raw with form := formOf 0x67, opc := 0x67 }
  | .fsin x => some { x.raw with form := formOf 0x68, opc := 0x68 }
  | .fcos x => some { x.raw with form := formOf 0x69, opc := 0x69 }
  | .ftanh x => some { x.raw with form := formOf 0x6a, opc := 0x6a }
  | .cvt x => some { x.raw with form := formOf 0x6b, opc := 0x6b }
  | .cvtef x => some { x.raw with form := formOf 0x6c, opc := 0x6c }
  | .qblk x => some { x.raw with form := formOf 0x6d, opc := 0x6d }
  | .dqblk x => some { x.raw with form := formOf 0x6e, opc := 0x6e }
  | .pack4 x => some { x.raw with form := formOf 0x6f, opc := 0x6f }
  | .unpk4 x => some { x.raw with form := formOf 0x70, opc := 0x70 }
  | .shfl x => some { x.raw with form := formOf 0x71, opc := 0x71 }
  | .vbcast x => some { x.raw with form := formOf 0x72, opc := 0x72 }
  | .vred x => some { x.raw with form := formOf 0x73, opc := 0x73 }
  | .vscan x => some { x.raw with form := formOf 0x74, opc := 0x74 }
  | .ballot x => some { x.raw with form := formOf 0x75, opc := 0x75 }
  | .ld x => some { x.raw with form := formOf 0x80, opc := 0x80 }
  | .st x => some { x.raw with form := formOf 0x81, opc := 0x81 }
  | .lds x => some { x.raw with form := formOf 0x82, opc := 0x82 }
  | .sts x => some { x.raw with form := formOf 0x83, opc := 0x83 }
  | .ldg x => some { x.raw with form := formOf 0x84, opc := 0x84 }
  | .stg x => some { x.raw with form := formOf 0x85, opc := 0x85 }
  | .ldl x => some { x.raw with form := formOf 0x86, opc := 0x86 }
  | .stl x => some { x.raw with form := formOf 0x87, opc := 0x87 }
  | .pref x => some { x.raw with form := formOf 0x88, opc := 0x88 }
  | .limset x => some { x.raw with form := formOf 0x89, opc := 0x89 }
  | .ktest x => some { x.raw with form := formOf 0x90, opc := 0x90 }
  | .kdemand x => some { x.raw with form := formOf 0x91, opc := 0x91 }
  | .kaccept x => some { x.raw with form := formOf 0x92, opc := 0x92 }
  | .kabandon x => some { x.raw with form := formOf 0x93, opc := 0x93 }
  | .kmark x => some { x.raw with form := formOf 0x94, opc := 0x94 }
  | .kstat x => some { x.raw with form := formOf 0x95, opc := 0x95 }
  | .tklend x => some { x.raw with form := formOf 0xa0, opc := 0xa0 }
  | .tkret x => some { x.raw with form := formOf 0xa1, opc := 0xa1 }
  | .tktake x => some { x.raw with form := formOf 0xa2, opc := 0xa2 }
  | .tksplit x => some { x.raw with form := formOf 0xa3, opc := 0xa3 }
  | .tkjoin x => some { x.raw with form := formOf 0xa4, opc := 0xa4 }
  | .tkshare x => some { x.raw with form := formOf 0xa5, opc := 0xa5 }
  | .tkunshare x => some { x.raw with form := formOf 0xa6, opc := 0xa6 }
  | .tkhome x => some { x.raw with form := formOf 0xa7, opc := 0xa7 }
  | .tkunhome x => some { x.raw with form := formOf 0xa8, opc := 0xa8 }
  | .tkquery x => some { x.raw with form := formOf 0xa9, opc := 0xa9 }
  | .tkadopt x => some { x.raw with form := formOf 0xaa, opc := 0xaa }
  | .atom x => some { x.raw with form := formOf 0xb0, opc := 0xb0 }
  | .atoms x => some { x.raw with form := formOf 0xb1, opc := 0xb1 }
  | .bar x => some { x.raw with form := formOf 0xb2, opc := 0xb2 }
  | .gbar x => some { x.raw with form := formOf 0xb3, opc := 0xb3 }
  | .wparr x => some { x.raw with form := formOf 0xb4, opc := 0xb4 }
  | .wpwait x => some { x.raw with form := formOf 0xb5, opc := 0xb5 }
  | .waita x => some { x.raw with form := formOf 0xb6, opc := 0xb6 }
  | .fence x => some { x.raw with form := formOf 0xb7, opc := 0xb7 }
  | .tld x => some { x.raw with form := formOf 0xc0, opc := 0xc0 }
  | .tst x => some { x.raw with form := formOf 0xc1, opc := 0xc1 }
  | .tzero x => some { x.raw with form := formOf 0xc2, opc := 0xc2 }
  | .tmov x => some { x.raw with form := formOf 0xc3, opc := 0xc3 }
  | .txp x => some { x.raw with form := formOf 0xc4, opc := 0xc4 }
  | .mtask x => some { x.raw with form := formOf 0xc5, opc := 0xc5 }
  | .mtaskm x => some { x.raw with form := formOf 0xc6, opc := 0xc6 }
  | .acalloc x => some { x.raw with form := formOf 0xc7, opc := 0xc7 }
  | .acfree x => some { x.raw with form := formOf 0xc8, opc := 0xc8 }
  | .acband x => some { x.raw with form := formOf 0xc9, opc := 0xc9 }
  | .acdrain x => some { x.rawDrain with form := formOf 0xca, opc := 0xca }
  | .acload x => some { x.rawLoad with form := formOf 0xcb, opc := 0xcb }
  | .aczero x => some { x.raw with form := formOf 0xcc, opc := 0xcc }
  | .acscale x => some { x.raw with form := formOf 0xcd, opc := 0xcd }
  | .mstat x => some { x.raw with form := formOf 0xce, opc := 0xce }
  | .mcheck x => some { x.raw with form := formOf 0xcf, opc := 0xcf }
  | .copy x => some { x.raw with form := formOf 0xe0, opc := 0xe0 }
  | .msend x => some { x.raw with form := formOf 0xe1, opc := 0xe1 }
  | .ringset x => some { x.raw with form := formOf 0xe2, opc := 0xe2 }
  | .arm x => some { x.raw with form := formOf 0xe3, opc := 0xe3 }
  | .disarm x => some { x.raw with form := formOf 0xe4, opc := 0xe4 }
  | .asdef x => some { x.raw with form := formOf 0xe5, opc := 0xe5 }
  | .asgo x => some { x.raw with form := formOf 0xe6, opc := 0xe6 }
  | .asstop x => some { x.raw with form := formOf 0xe7, opc := 0xe7 }
  | .qpop x => some { x.raw with form := formOf 0xe8, opc := 0xe8 }
  | .gattach x => some { x.raw with form := formOf 0xe9, opc := 0xe9 }
  | .gdetach x => some { x.raw with form := formOf 0xea, opc := 0xea }
  | .srd x => some { x.raw with form := formOf 0xf0, opc := 0xf0 }
  | .swr x => some { x.raw with form := formOf 0xf1, opc := 0xf1 }
  | .trap x => some { x.raw with form := formOf 0xf2, opc := 0xf2 }
  | .spawn x => some { x.raw with form := formOf 0xf3, opc := 0xf3 }
  | .launch x => some { x.raw with form := formOf 0xf4, opc := 0xf4 }
  | .tbinv x => some { x.raw with form := formOf 0xf5, opc := 0xf5 }
  | .placew x => some { x.raw with form := formOf 0xf6, opc := 0xf6 }
  | .finj x => some { x.raw with form := formOf 0xf7, opc := 0xf7 }
  | _ => none

/-- The word of an instruction (R49, R51); a step that is no instruction has the all-zero word, which is unassigned. -/
def encode (i : Instr) : IWord :=
  match i.raw with
  | some r => r.toWord
  | none => 0

end Sys2Proof
end

