-- ==== Sys2Proof/Machine/Fetch.lean ====
section
/-! DEFINITION. Fetching an instruction (R49, R50): where it lies, its translation, its bytes, and what a word that decodes to no
instruction does (R52). -/

namespace Sys2Proof.Machine

open Sys2Proof

namespace State

/-- The code pointer of a crew's leg. -/
def codeBase (s : State) (ctx crew : Nat) : Ptr :=
  (((s.crew? ctx crew).bind fun k => s.leg? ctx k.leg).map (·.lr.code)).getD 0

/-- The local address of the instruction at a PC (R50). -/
def codeAddr (s : State) (ctx crew : Nat) (pc : Word) : Nat := (Ptr.local (s.codeBase ctx crew) + 12 * pc.toNat) % 2 ^ 62

/-- The physical address of one byte of code, or the cause of its fault (R50); no cause while its page walk is under way. -/
def codePhys (s : State) (c ctx va : Nat) : Except (Option Cause) Nat × State :=
  match s.translate c ctx va with
  | (.bad k, s) => (.error (some k), s)
  | (.wait, s) => (.error none, s)
  | (.ok e, s) => (if e.x && !e.h then .ok (e.phys va) else .error (some .prot), s)

/-- The physical addresses of the first and the last byte of the instruction at a PC. An instruction may end on the page after the
one it starts on. -/
def codeSpan (s : State) (c ctx crew : Nat) (pc : Word) : Except (Option Cause) (Nat × Nat) × State :=
  let va := s.codeAddr ctx crew pc
  match s.codePhys c ctx va with
  | (.error k, s) => (.error k, s)
  | (.ok a, s) =>
    if va / 4096 = (va + 11) / 4096 then (.ok (a, a + 11), s)
    else match s.codePhys c ctx ((va + 11) % 2 ^ 62) with
      | (.error k, s) => (.error k, s)
      | (.ok b, s) => (.ok (a, b), s)

/-- The bytes between the first and the last byte of an instruction, which lie on one page or on two. -/
def codeBytes (s : State) (va a b : Nat) : List Byte :=
  (List.range 12).map fun i => s.mem.read (if va / 4096 = (va + i) / 4096 then a + i else b + i - 11)

/-- The instruction word at a PC, or the cause of the fetch fault, none while a page walk is under way. Code of another module is a free value (assumption 1). -/
def fetch (s : State) (c ctx crew : Nat) (pc : Word) : Except (Option Cause) IWord × State :=
  if Ptr.module (s.codeBase ctx crew) ≠ Config.thisModule then
    let (x, s) := s.freeBits
    (.ok (x.extractLsb' 0 96), s)
  else match s.codeSpan c ctx crew pc with
    | (.error k, s) => (.error k, s)
    | (.ok (a, b), s) => (.ok ((wordOfBytes (s.codeBytes (s.codeAddr ctx crew pc) a b)).getD 0), s)

/-- The instruction cache lines of the instruction at a PC. -/
def codeLines (a b : Nat) : List Nat := if a / 128 = b / 128 then [a / 128] else [a / 128, b / 128]

/-- Lines brought into a quadrant's instruction cache. -/
def fillIcache (s : State) (q : Nat) (ls : List Nat) : State :=
  s.modQuad q fun x => { x with icache := ls.filter (fun l => !x.icache.contains l) ++ x.icache }

/-- R70: a trailer's prefetch of the line holding an instruction and the line after it; a line that cannot be translated is not
fetched. -/
def prefetch (s : State) (c ctx crew : Nat) (pc : Word) : State :=
  let va := s.codeAddr ctx crew pc
  let line (s : State) (v : Nat) : State :=
    match s.walkMark ctx v with
    | (.ok e, s) => if e.x && !e.h then s.fillIcache (quadOf c) [e.phys v / 128] else s
    | (.fault .., s) => s
  if Ptr.module (s.codeBase ctx crew) ≠ Config.thisModule then s
  else line (line s va) ((va / 128 * 128 + 128) % 2 ^ 62)

/-- R50, R144: the fault of a fetch that is about to issue: the core stalls. -/
def fetchFault (s : State) (c g : Nat) (pc : Word) (k : Cause) (va : Nat) : State :=
  s.clearIssue.takeServiced c g { cause := k, scalar := true, pc := pc, ptr := BitVec.ofNat 96 va }

end State

/-- R52: a word whose encoding is illegal, or whose opcode is unassigned, stops the group. -/
def illegal (s : State) (k : Cause) : Host.Outcome State Fault Refusal :=
  match s.issuer ⟨0, none, 0, .p false 7⟩ with
  | none => .fault .noIssuer
  | some I => .next (I.halt (I.scalar k))

/-- UNASSIGNED_OPCODE (R52, R72): ILL_OP. -/
def execUnassignedOpcode (s : State) : Host.Outcome State Fault Refusal := illegal s .illOp

end Sys2Proof.Machine
end

