-- ==== Sys2Proof/Machine/Control.lean ====
section
/-! DEFINITION. Control instructions (chapter 5): NOP, TRAIL, BRA, BRD, BRX, CALL, RET, LOOP, SPLQ, EXIT. -/

namespace Sys2Proof.Machine

open Sys2Proof

/-- The target of a displacement (R71). -/
def Iss.target (I : Iss) (disp : BitVec 24) : Word := I.S.pc + disp.signExtend 32

/-- NOP: sets its flag in its issue cycle. -/
def execNop (x : NoA) (s : State) : Host.Outcome State Fault Refusal :=
  issue x.h {} s fun I => I.ok { comp := .flag I.t }

/-- TRAIL (R70): ends the run; its WAIT is the next run's entry condition; PFD hints a prefetch. -/
def execTrail (x : TrailA) (s : State) : Host.Outcome State Fault Refusal :=
  issue ⟨x.wait, x.setf, 0, .p false 7⟩ {} s fun I =>
    let s := if x.pfd = 0 then I.s else I.s.prefetch I.c I.G.ctx I.G.crew (I.target x.pfd)
    .done s { comp := .later false, flow := .trail x.wait }

/-- BRA: the whole split goes to the target while the guard holds. -/
def execBra (x : BrA) (s : State) : Host.Outcome State Fault Refusal :=
  issue x.h {} s fun I =>
    I.ok { comp := .flag I.t, flow := if I.qok then .jump (I.target x.disp) (I.t + 2) else .next }

/-- The entries on the deferral stacks of a group (R107). -/
def Group.deferred (G : Group) : Nat :=
  (G.splits.toList.map fun x => match x with
    | some S => S.stack.length
    | none => 0).foldl (· + ·) 0

/-- R106: what a BRD does with a taken set. -/
def Iss.brdFlow (I : Iss) (pc' : Word) (taken : Lanes) : Except Report Flow :=
  let rest := I.S.m &&& ~~~taken
  if taken = 0 || pc' == I.S.pc + 1 then .ok .next
  else if rest = 0 then .ok (.jump pc' (I.t + 2))
  else match (List.finRange 4).find? fun i => (I.G.splits[i]).isNone with
    | some e => .ok (.fork e pc' taken)
    | none => if I.G.deferred ≥ 16 then .error (I.scalar .illRun) else .ok (.defer pc' taken)

/-- BRD (R106): the active lanes go to the target. -/
def execBrd (x : BrA) (s : State) : Host.Outcome State Fault Refusal :=
  issue x.h {} s fun I =>
    match I.brdFlow (I.target x.disp) I.active with
    | .error r => .stop r
    | .ok f => I.ok { comp := .flag I.t, flow := f }

/-- BRX: to the instruction a names. -/
def execBrx (x : SrcA) (s : State) : Host.Outcome State Fault Refusal :=
  issue x.h { reads := [x.a], all := true } s fun I =>
    let a := I.sval false x.a
    if !I.qok then I.ok { comp := .flag I.t }
    else if a.k then .stop I.kAll
    else I.ok { comp := .flag I.t, flow := .jump a.val (I.t + 4) }

/-- CALL: the link PC + 1 goes to the destination, and the split to the target. -/
def execCall (x : BrDA) (s : State) : Host.Outcome State Fault Refusal :=
  issue x.h {} s fun I =>
    if !I.qok then I.ok { comp := .flag I.t }
    else
      let s := I.s.modGroup I.c I.g fun G => { G with hints := (I.S.pc + 1) :: G.hints.take 3 }
      .done s { ws := I.wscal x.d ⟨I.S.pc + 1, false⟩, comp := .early (I.t + 1) I.t, flow := .jump (I.target x.disp) (I.t + 2) }

/-- RET: to the instruction a names; a hint that matches saves two cycles. -/
def execRet (x : SrcA) (s : State) : Host.Outcome State Fault Refusal :=
  issue x.h { reads := [x.a], all := true } s fun I =>
    let a := I.sval false x.a
    if !I.qok then I.ok { comp := .flag I.t }
    else if a.k then .stop I.kAll
    else
      let s := I.s.modGroup I.c I.g fun G => { G with hints := G.hints.drop 1 }
      .done s { comp := .flag I.t, flow := .jump a.val (if I.G.hints.head? = some a.val then I.t + 2 else I.t + 4) }

/-- LOOP: decrements its counter and branches while the result is nonzero. -/
def execLoop (x : BrDA) (s : State) : Host.Outcome State Fault Refusal :=
  issue x.h { reads := [x.d], all := true } s fun I =>
    let d := I.sval false x.d
    if !I.qok then I.ok { comp := .flag I.t }
    else if d.k && !I.uses 0 then .stop I.kAll
    else I.ok { ws := I.wscal x.d ⟨d.val - 1, d.k⟩, comp := .early (I.t + 1) I.t,
                flow := if d.val - 1 = 0 then .next else .jump (I.target x.disp) (I.t + 2) }

/-- The word of SPLQ (chapter 5, Table 6). -/
def Iss.splqWord (I : Iss) : Word :=
  let n := I.G.live.length
  BitVec.ofNat 32 (popc I.S.o * 2 ^ 16 + I.S.stack.length * 2 ^ 6 + (if n = 4 then 32 else 0) + I.sp.val * 8 + n)

/-- SPLQ: what the split stands in. -/
def execSplq (x : DstA) (s : State) : Host.Outcome State Fault Refusal :=
  issue x.h {} s fun I =>
    I.ok { ws := if I.qok then I.wscal x.d ⟨I.splqWord, false⟩ else [], comp := .long (I.t + 2) }

/-- EXIT: retires lanes of the split (R104, R107). -/
def execExit (x : NoA) (s : State) : Host.Outcome State Fault Refusal :=
  issue x.h {} s fun I =>
    let r : Lanes := match x.h.grd with
      | .p false 7 => I.S.o
      | .q _ _ => if I.qok then I.S.o else 0
      | .p _ _ => I.active
    I.ok { comp := .flag I.t, flow := .retire r }

end Sys2Proof.Machine
end

