-- ==== Sys2Proof/Machine/Pred.lean ====
section
/-! DEFINITION. Predicate and pointer instructions (chapter 5). -/

namespace Sys2Proof.Machine

open Sys2Proof

/-- PLOG's functions (Table 9), on lane masks. -/
def PFn.mask (f : PFn) (a b : Lanes) : Lanes :=
  match f with
  | .and => a &&& b
  | .or => a ||| b
  | .xor => a ^^^ b
  | .andn => a &&& ~~~b
  | .orn => a ||| ~~~b
  | .nand => ~~~(a &&& b)
  | .nor => ~~~(a ||| b)
  | .xnor => ~~~(a ^^^ b)
  | .not => ~~~a

/-- PLOG's functions on single bits. -/
def PFn.bit (f : PFn) (a b : Bool) : Bool := (PFn.mask f (if a then 1 else 0) (if b then 1 else 0)).getLsbD 0

/-- PLOG (Table 9). -/
def execPlog (x : PlogA) (s : State) : Host.Outcome State Fault Refusal :=
  issue x.h { pr := if x.q then [] else [x.a, x.b] } s fun I =>
    if x.q then
      I.ok { ws := if I.qok then [.qbit x.d (PFn.bit x.fn (I.q x.a) (I.q x.b))] else [], unit := .scalar }
    else
      let a := I.pred x.a
      let b := I.pred x.b
      let k := if x.fn = .not then a.k else a.k ||| b.k
      I.ok { ws := [.pred x.d I.active (PFn.mask x.fn a.val b.val) k], unit := .scalar }

/-- PMOV (Table 10). -/
def execPmov (x : PmovA) (s : State) : Host.Outcome State Fault Refusal :=
  let u : Use := match x.ops with
    | .fromv _ a => { reads := [a] }
    | .froms _ a => { sr := [(a.val, 3)] }
    | .p _ a | .tos _ a => { pr := [a] }
    | .q _ _ => {}
  issue x.h u s fun I =>
    match x.ops with
    | .p d a => I.ok { ws := [.pred d I.active (I.pred a).val (I.pred a).k], unit := .scalar }
    | .fromv d a =>
      let v := I.vsrc false a
      I.ok { ws := [.pred d I.active (maskOf 96 fun i => (v.at i).val != 0) v.marks], occ := I.P, unit := .vec, charge := 2 * I.P }
    | .froms d a =>
      let w (i : Nat) : Elem := I.sreg (a.val + i / 32)
      I.ok { ws := [.pred d I.active (maskOf 96 fun i => (w i).val.getLsbD (i % 32)) (maskOf 96 fun i => (w i).k)], unit := .scalar }
    | .tos d a =>
      let bits := (I.pred a).val &&& I.active
      let ks := (I.pred a).k &&& I.active
      let e (j : Nat) : Elem := ⟨maskWord bits j, maskWord ks j != 0⟩
      if (List.range 3).any (fun j => 125 ≤ d.val + j && (e j).k) && !I.uses 0 then .stop I.kAll
      else I.ok { ws := if I.qok then (List.range 3).map fun j => I.wsreg (d.val + j) (e j) else [], unit := .scalar }
    | .q d a => I.ok { ws := if I.qok then [.qbit d (I.q a)] else [], unit := .scalar }

/-- A marked lane of a predicate in the active set is a branch-class consumer (R171). -/
def Iss.predFault (I : Iss) (a : Fin 8) : Option Report :=
  let k := (I.pred a).k &&& I.active
  if k != 0 && !I.uses 0 then some (I.lanes .kConsume k) else none

/-- PANY: whether any active lane holds the predicate. -/
def execPany (x : PqA) (s : State) : Host.Outcome State Fault Refusal :=
  issue x.h { pr := [x.a] } s fun I =>
    match I.predFault x.a with
    | some r => .stop r
    | none => I.ok { ws := if I.qok then [.qbit x.d ((I.pred x.a).val &&& I.active != 0)] else [], unit := .scalar }

/-- PALL: whether every active lane holds the predicate. -/
def execPall (x : PqA) (s : State) : Host.Outcome State Fault Refusal :=
  issue x.h { pr := [x.a] } s fun I =>
    match I.predFault x.a with
    | some r => .stop r
    | none => I.ok { ws := if I.qok then [.qbit x.d (~~~(I.pred x.a).val &&& I.active == 0)] else [], unit := .scalar }

/-- PCNT: how many active lanes hold the predicate. -/
def execPcnt (x : PsA) (s : State) : Host.Outcome State Fault Refusal :=
  issue x.h { pr := [x.a] } s fun I =>
    let e : Elem := ⟨BitVec.ofNat 32 (popc ((I.pred x.a).val &&& I.active)), (I.pred x.a).k &&& I.active != 0⟩
    I.scalarOp 1 x.d e

/-! ## Pointers -/

/-- Word `j` of a pointer. -/
def Ptr.word (p : Ptr) (j : Nat) : Word := p.extractLsb' (32 * j) 32

/-- The writes of a pointer to a triple: in the active lanes of three v registers, or to three s registers while the q guard holds. -/
def Iss.wptr (I : Iss) (d : Triple) (p : Nat → Ptr) (k : Nat → Nat → Bool) : List RegWrite :=
  (List.range 3).flatMap fun j => match d with
    | .v n => [.vec (.v (n.val + j)) I.active (VReg.of fun i => ⟨Ptr.word (p i) j, k i j⟩)]
    | .s n => if I.qok then [I.wsreg (n.val + j) ⟨Ptr.word (p 0) j, k 0 j⟩] else []

/-- Whether a triple names scalar registers. -/
def tripleS : Triple → Bool
  | .s _ => true
  | .v _ => false

/-- The registers of a triple as a destination. -/
def Use.dstTriple (u : Use) : Triple → Use
  | .s _ => u
  | .v n => { u with vw := (n.val, 3) :: u.vw }

/-- The effect of a pointer instruction on its unit: V forms hold the vector datapath. -/
def Iss.ptrEff (I : Iss) (v : Bool) (ws : List RegWrite) (l : BitVec 4 := 0) : Eff :=
  if v then { ws := ws, occ := I.P, unit := .vec, charge := 2 * I.P, lset := l } else { ws := ws, unit := .scalar }

/-- A marked pointer register written to xm0 to xm2 (R105); `k` is the mark of each of the three registers. -/
def Iss.ptrXm (I : Iss) (d : Triple) (k : Nat → Bool) : Option Report :=
  match d with
  | .s n => if ((List.range 3).any fun j => 125 ≤ n.val + j && k j) && I.qok && !I.uses 0 then some I.kAll else none
  | .v _ => none

/-- PADD: a pointer advanced by b; the mark of every result register is that of the sources. -/
def execPadd (x : PaddA) (s : State) : Host.Outcome State Fault Refusal :=
  issue x.h ((Use.ofTriple { reads := [x.b], all := tripleS x.a } x.a).dstTriple x.d) s fun I =>
    let b (i : Nat) : Elem := if tripleS x.a then I.sval false x.b else (I.vsrc false x.b).at i
    let p (i : Nat) : Ptr := Ptr.advance (I.triple x.a i).1 (b i).val.toInt
    let k (i : Nat) : Bool := (I.triple x.a i).2 || (b i).k
    match I.ptrXm x.d fun _ => k 0 with
    | some r => .stop r
    | none => I.ok (I.ptrEff (!tripleS x.d) (I.wptr x.d p fun i _ => k i))

/-- PTAG: a pointer with its SPACE and RANK replaced; each register keeps its own mark. -/
def execPtag (x : PtagA) (s : State) : Host.Outcome State Fault Refusal :=
  issue x.h ((Use.ofTriple { reads := [x.b], all := tripleS x.a } x.a).dstTriple x.d) s fun I =>
    let b (i : Nat) : Elem := if tripleS x.a then I.sval false x.b else (I.vsrc false x.b).at i
    let p (i : Nat) : Ptr := (b i).val.extractLsb' 0 12 ++ x.space ++ (I.triple x.a i).1.extractLsb' 0 80
    let k (i j : Nat) : Bool := match x.a with
      | .s n => (I.sreg (n.val + j)).k
      | .v n => ((I.G.regs.vec (.v (n.val + j))).at i).k
    let marked : Lanes := if tripleS x.a then 0 else maskOf 96 (fun i => (b i).k) &&& I.active
    if tripleS x.a && I.qok && (b 0).k then .stop I.kAll
    else if marked != 0 then .stop (I.lanes .kConsume marked)
    else match I.ptrXm x.d (k 0) with
      | some r => .stop r
      | none => I.ok (I.ptrEff (!tripleS x.d) (I.wptr x.d p k))

/-- A field of a pointer (Table 11). -/
def PField.of (f : PField) (p : Ptr) : Word :=
  match f with
  | .lo => p.extractLsb' 0 32
  | .mid => p.extractLsb' 32 32
  | .hi => (p.extractLsb' 64 16).zeroExtend 32
  | .space => (p.extractLsb' 80 4).zeroExtend 32
  | .rank => (p.extractLsb' 84 12).zeroExtend 32
  | .module => (p.extractLsb' 62 18).zeroExtend 32

/-- PFLD: a field of a pointer. -/
def execPfld (x : PfldA) (s : State) : Host.Outcome State Fault Refusal :=
  issue x.h (Use.ofTriple { dsts := if tripleS x.a then [] else [x.d], all := tripleS x.a } x.a) s fun I =>
    let e (i : Nat) : Elem := ⟨PField.of x.field (I.triple x.a i).1, (I.triple x.a i).2⟩
    if tripleS x.a then I.scalarOp 1 x.d (e 0)
    else I.ok (I.ptrEff true (Iss.wvec x.d I.active (VReg.of e)))

/-- PCMP's conditions: equality of all 96 bits, or order of ADDR between pointers of one SPACE and RANK. -/
def ptrHolds (c : Cond) (a b : Ptr) : Bool :=
  match c with
  | .eq => a == b
  | .ne => a != b
  | _ =>
    let x := Ptr.addr a
    let y := Ptr.addr b
    Ptr.space a == Ptr.space b && Ptr.rank a == Ptr.rank b && (match c with
      | .ltu => decide (x < y)
      | .leu => decide (x ≤ y)
      | .gtu => decide (y < x)
      | .geu => decide (y ≤ x)
      | _ => false)

/-- PCMP: a condition of two pointers. -/
def execPcmp (x : PcmpA) (s : State) : Host.Outcome State Fault Refusal :=
  issue x.h ((({ all := tripleS x.a } : Use).ofTriple x.a).ofTriple x.b) s fun I =>
    let r (i : Nat) : Bool := ptrHolds x.cond (I.triple x.a i).1 (I.triple x.b i).1
    let k (i : Nat) : Bool := (I.triple x.a i).2 || (I.triple x.b i).2
    if tripleS x.a then
      if !I.qok then I.ok { unit := .scalar }
      else if k 0 && !I.uses 0 then .stop I.kAll
      else I.ok { ws := [.qbit x.d (r 0)], unit := .scalar }
    else I.ok (I.ptrEff true [.pred x.d I.active (maskOf 96 r) (maskOf 96 k)])

end Sys2Proof.Machine
end

