-- ==== Sys2Proof/Machine/Pick.lean ====
section
/-! DEFINITION. The group scheduler (R100 to R103, R107, R109, R360, R361), the end of a run at its limit (R69), the arrival of a code line,
the draining of store buffers (R354), and the Sextant step (R114). -/

namespace Sys2Proof.Machine

open Sys2Proof

/-! ## Units -/

/-- The unit an instruction needs (R61, R115, R153, R269). -/
def unitOf (i : Instr) : FU :=
  match i with
  | .sadd _ | .ssub _ | .smul _ | .smulh _ | .smad _ | .sdiv _ | .sand _ | .sor _ | .sxor _ | .sshl _ | .sshr _ | .ssar _ | .smin _
  | .smax _ | .sabs _ | .smov _ | .ssel _ | .scmp _ | .spopc _ | .sclz _ | .sbfe _ | .sbfi _ | .plog _ | .pany _ | .pall _ | .pcnt _
  | .kstat _ | .srd _ | .swr _ | .trap _ => .scalar
  | .pmov x => match x.ops with
    | .fromv _ _ => .vec
    | _ => .scalar
  | .padd x => if tripleS x.d then .scalar else .vec
  | .ptag x => if tripleS x.a then .scalar else .vec
  | .pfld x => if tripleS x.a then .scalar else .vec
  | .pcmp x => if tripleS x.a then .scalar else .vec
  | .vadd _ | .vsub _ | .vmul _ | .vmulh _ | .vmad _ | .vand _ | .vor _ | .vxor _ | .vnot _ | .vshl _ | .vshr _ | .vsar _ | .vmin _
  | .vmax _ | .vabs _ | .vneg _ | .vcmp _ | .vsel _ | .vmov _ | .vpopc _ | .vclz _ | .vbfe _ | .vbfi _ | .vdot4 _ | .fadd _ | .fsub _
  | .fmul _ | .ffma _ | .fmin _ | .fmax _ | .fcmp _ | .fclass _ | .fscale _ | .frnd _ | .fdot2 _ | .frcp _ | .frsq _ | .fsqrt _
  | .fexp2 _ | .flog2 _ | .fsin _ | .fcos _ | .ftanh _ | .cvt _ | .cvtef _ | .qblk _ | .dqblk _ | .pack4 _ | .unpk4 _ | .shfl _
  | .vbcast _ | .vred _ | .vscan _ | .ballot _ | .ktest _ | .acdrain _ | .acload _ => .vec
  | .kaccept x | .kmark x => match x.d with
    | .r (.s _) => .scalar
    | _ => .vec
  | .ld _ | .st _ | .lds _ | .sts _ | .ldg _ | .stg _ | .ldl _ | .stl _ | .pref _ | .limset _ | .kdemand _ | .kabandon _ | .tklend _
  | .tkret _ | .tktake _ | .tksplit _ | .tkjoin _ | .tkshare _ | .tkunshare _ | .tkhome _ | .tkunhome _ | .tkquery _ | .tkadopt _
  | .atom _ | .atoms _ | .bar _ | .gbar _ | .wparr _ | .wpwait _ | .waita _ | .fence _ | .tld _ | .tst _ | .copy _ | .msend _
  | .ringset _ | .arm _ | .disarm _ | .asdef _ | .asgo _ | .asstop _ | .qpop _ | .gattach _ | .gdetach _ => .lsu
  | .tzero _ | .tmov _ | .txp _ | .mtask _ | .mtaskm _ | .acalloc _ | .acfree _ | .acband _ | .aczero _ | .acscale _ | .mstat _
  | .mcheck _ => .acc
  | _ => .none

/-- The first cycle in which a unit is free. -/
def Units.freeAt (u : Units) : FU → Nat
  | .none => 0
  | .scalar => u.scalar
  | .vec => u.vec
  | .lsu => u.lsu
  | .acc => u.acc

/-- Memory, atomic, token and engine instructions, which an unfinished fence of their group holds at issue (R224); LIMSET is one of the first
(R153). -/
def fenceHolds (i : Instr) : Bool :=
  match i with
  | .bar _ | .gbar _ | .fence _ | .kdemand _ | .kabandon _ => false
  | i => unitOf i == .lsu

/-! ## Whether an instruction may issue -/

namespace State

/-- The instruction word at a PC, as the scheduler sees it: none when its fetch fails or waits. -/
def peek (s : State) (c ctx crew : Nat) (pc : Word) : Option IWord := (s.fetch c ctx crew pc).1.toOption

/-- Whether a split's next instruction meets R61 and R65, finds its unit free and is held by no fence. One that cannot be fetched
goes on to raise its fault. -/
def mayIssue (s : State) (c g : Nat) (G : Group) (S : Split) : Bool :=
  let now := s.now c
  let k := s.core c
  G.holdUntil ≤ now && S.notBefore ≤ now && G.lastE < now && !G.ending &&
    match s.peek c G.ctx G.crew S.pc with
    | none => true
    | some w =>
      let dist := (w.extractLsb' 71 3).toNat
      let trailer := w.extractLsb' 0 8 == 2#8
      let fenced := k.ops.any fun o => o.slot == g && match o.ins with
        | .fence _ => true
        | _ => false
      G.lastE + 1 + dist ≤ now && (trailer || G.regs.waitMet (w.extractLsb' 78 12) now) &&
        match decode w with
        | .ok i => k.units.freeAt (unitOf i) ≤ now && !(fenced && fenceHolds i)
        | _ => true

end State

/-! ## Splits -/

/-- R109: one clock of the LFSR. -/
def lfsrClock (x : BitVec 16) : BitVec 16 :=
  let bit := x.getLsbD 15 != (x.getLsbD 14 != (x.getLsbD 12 != x.getLsbD 3))
  (x <<< 1) ||| (if bit then 1 else 0)

/-- The ready splits of a group (R101): at a run boundary, with their entry WAIT met. -/
def Group.ready (G : Group) (now : Nat) : List (Fin 4) :=
  (List.finRange 4).filter fun i => match G.splits[i] with
    | some S => !S.inRun && S.readyFrom ≤ now && G.regs.waitMet S.wait now
    | none => false

/-- The candidate split, and SPLSEED as the pick leaves it (R101, R109). -/
def Group.candidate (G : Group) (now : Nat) : Option (Fin 4 × BitVec 16) :=
  match G.ready now with
  | [] => none
  | [i] => some (i, G.spec.splseed)
  | is =>
    let x := lfsrClock G.spec.splseed
    (is[(x &&& 3).toNat % is.length]?).map fun i => (i, x)

/-- R107: a split that stands at the PC of its top deferred entry pops it before it issues; none when there is nothing to pop. -/
def Group.popDeferred (G : Group) (sp : Fin 4) (now P : Nat) : Option Group :=
  match G.splits[sp] with
  | none => none
  | some S => match S.stack with
    | [] => none
    | d :: ds =>
      if d.pc != S.pc || G.lastE ≥ now || G.holdUntil > now then none
      else some { G.modSplit sp fun S => { S with m := S.m ||| d.f, o := S.o ||| d.o, stack := ds } with holdUntil := now + 2 + P }

/-- The split a group would issue from: that of its open run, else its candidate. -/
def Group.front (G : Group) (now : Nat) : Option (Fin 4) := (G.cur.orElse fun _ => (G.candidate now).map (·.1))

namespace State

/-- Deferred entries popped in every group of a core that would issue at one (R107). -/
def popAll (s : State) (c : Nat) : State :=
  let P := (s.core c).passes
  (List.range 32).foldl (fun (s : State) g => match s.group? c g with
    | none => s
    | some G =>
      if G.stopped || G.resuming || G.parked.isSome then s
      else match (G.front (s.now c)).bind fun sp => G.popDeferred sp (s.now c) P with
        | some G => s.setGroup c g (some G)
        | none => s) s

/-! ## The issue slot -/

/-- Whether a Sextant step of a group is asked for whose instruction has not issued: the group issues that one alone (R114). -/
def stepping (s : State) (c g : Nat) : Bool := (s.stepOn c).any fun t => t.1.slot == g && t.2.isNone

/-- The core's groups with an open run that counts toward the four, earliest first (R100). -/
def openRuns (s : State) (c : Nat) : List (Nat × Group) :=
  let gs := (List.range 32).filterMap fun g => match s.group? c g with
    | some G => if G.cur.isSome && !G.stopped && !G.resuming && !s.stepping c g then some (g, G) else none
    | none => none
  gs.mergeSort fun a b => a.2.runStart ≤ b.2.runStart

/-- Resumed groups take a place among the four before any pick (R100). Which of several takes a freed place the spec leaves open: here the
one of lowest number (assumption 115). -/
def takePlaces (s : State) (c : Nat) : State :=
  (List.range 32).foldl (fun (s : State) g => match s.group? c g with
    | none => s
    | some G =>
      if !G.resuming || G.stopped then s
      else if G.cur.isNone || (s.openRuns c).length < 4 then s.modGroup c g fun G => { G with resuming := false }
      else s) s

/-- An instruction-cache miss (R103): the core freezes until the line arrives. -/
def icacheMiss (s : State) (c line : Nat) : State :=
  let (n, s) := s.freeNat
  (s.modCore c fun k => { k with frozen := some line, slips := k.slips + 1 }).postQ c (s.now c + 1 + n) (.icacheLineArrival c)

/-- What the instruction about to issue lacks. -/
inductive Lack where
  | nothing
  | line (l : Nat)
  | walk

/-- What the instruction about to issue lacks: its code line, or its translation while a page walk is under way; the translation may be
cached on the way. -/
def missing (s : State) (c ctx crew : Nat) (pc : Word) : Lack × State :=
  if Ptr.module (s.codeBase ctx crew) ≠ Config.thisModule then (.nothing, s)
  else match s.codeSpan c ctx crew pc with
    | (.error (some _), s) => (.nothing, s)
    | (.error none, s) => (.walk, s)
    | (.ok (a, b), s) => (match (codeLines a b).find? fun l => !(s.quad (quadOf c)).icache.contains l with
      | some l => .line l
      | none => .nothing, s)

/-- A split goes to the issue slot, unless its code line or its translation is missing. -/
def toSlot (s : State) (c g : Nat) (sp : Fin 4) (G : Group) (S : Split) (f : Group → Group) (h : Core → Core) : State :=
  match s.missing c G.ctx G.crew S.pc with
  | (.line l, s) => s.icacheMiss c l
  | (.walk, s) => s
  | (.nothing, s) =>
    let s := (s.modGroup c g f).modCore c h
    let s := s.modSch fun h => { h with issue := some ⟨c, g, sp⟩ }
    match s.stepOn c with
    | some (t, none) => if t.slot = g then s.setStep c (some (t, some s.sch.ids)) else s
    | _ => s

/-- A group as its pick leaves it (R67, R68, R109): the split opens a run. -/
def openRun (sp : Fin 4) (seed : BitVec 16) (now : Nat) (G : Group) : Group :=
  let G := G.modSplit sp fun S => { S with inRun := true, runLen := 0, lvalid := 0, runIds := [], wait := 0 }
  { G with cur := some sp, runStart := now, withheld := 0, spec := { G.spec with splseed := seed } }

/-- Whether no run may start on a core for a group: a quiesce point or the suspension of its crew is pending (R113). -/
def noNewRun (s : State) (c : Nat) (G : Group) : Bool :=
  s.quiescing c || ((s.crew? G.ctx G.crew).any fun k => k.st == .suspending)

/-- The groups eligible for a pick in the order of R100, with their candidates (R101). -/
def eligible (s : State) (c : Nat) : List (Nat × Group × Fin 4 × BitVec 16) :=
  let k := s.core c
  let now := s.now c
  ((List.range 32).map fun i => (k.lastPick + 1 + i) % 32).filterMap fun g => match s.group? c g with
    | none => none
    | some G =>
      if G.parked.isSome || G.stopped || G.resuming || G.cur.isSome || s.stepping c g || s.noNewRun c G then none
      else match G.candidate now with
        | none => none
        | some (sp, seed) => match G.splits[sp] with
          | some S => if s.mayIssue c g G S then some (g, G, sp, seed) else none
          | none => none

/-- R360, R361: a pick withheld. Counts rise, and a group that reaches 256 is parked while fewer than half the residents are. -/
def withhold (s : State) (c : Nat) (gs : List Nat) : State :=
  gs.zipIdx.foldl (fun (s : State) (g, i) => match s.group? c g with
    | none => s
    | some G =>
      let all := (s.core c).groups.toList.filterMap id
      if G.withheld + 1 < 256 then s.modGroup c g fun G => { G with withheld := G.withheld + 1 }
      else if all.countP (fun H => H.parked.isSome) ≥ all.length / 2 then s.modGroup c g fun G => { G with withheld := 255 }
      else s.modGroup c g fun G => { G with withheld := 0, parked := some (s.now c * 32 + i) }) s

/-- Steps 1 and 2 of R100. -/
def pick (s : State) (c : Nat) : State :=
  let runs := s.openRuns c
  let now := s.now c
  let ready := runs.find? fun (g, G) => (G.cur.bind fun sp => G.splits[sp]).any fun S => s.mayIssue c g G S
  match ready with
  | some (g, G) => match G.cur with
    | some sp => match G.splits[sp] with
      | some S => s.toSlot c g sp G S id id
      | none => s
    | none => s
  | none =>
    if runs.length ≥ 4 then s
    else
      let es := s.eligible c
      if (s.core c).allow < 0 then s.withhold c (es.map (·.1))
      else match es with
        | [] => s
        | (g, G, sp, seed) :: _ => match G.splits[sp] with
          | some S => s.toSlot c g sp G S (openRun sp seed now) fun k => { k with lastPick := g }
          | none => s

/-! ## The Sextant step (R114) -/

/-- Instructions whose step ends at their issue; that of a KDEMAND ends in its meaning. -/
def stepsAtIssue (i : Instr) : Bool :=
  match i with
  | .bar _ | .gbar _ | .wpwait _ | .waita _ | .tktake _ => true
  | .tld x | .tst x => x.aon
  | _ => false

/-- Whether the instruction of a step is over: its result and its flag have landed, a trailer's flag among them (R70), or it waits on
another party. -/
def stepOver (s : State) (c g id : Nat) : Bool :=
  let k := s.core c
  let busy : Bool := k.ops.any (fun o => o.id == id && !(stepsAtIssue o.ins || o.stage == .logged || o.stage == .performed)) ||
    k.eng.toList.any (fun e => e.any fun x => x.id == id) || k.packets.any (fun p => p.id == id) ||
    k.mx.tenants.any (fun t => t.window.any fun w => w.id == id) ||
    (s.group? c g).any fun G => G.trails.any fun t => t.owner == id
  let pend := (s.group? c g).any fun G => G.pend.any fun p => p.id == id
  let quick := k.ops.any fun o => o.id == id && (stepsAtIssue o.ins || o.stage == .logged)
  !busy && (!pend || quick)

/-- A step that ends, with its report. -/
def endStep (s : State) (c : Nat) (issued : Bool) : State := (s.setStep c none).emit (.stepReport issued)

/-- The slot while a Sextant step is under way on a core: from the step's issue to its end nothing else issues; until its split may issue, the
core's other groups go on. How a step at a run boundary meets the limit of four open runs the spec leaves open: here it opens its run
whatever the four are, and the group picked last stays (assumption 116). -/
def stepPick (s : State) (c : Nat) (t : Slot) (id? : Option Nat) : State :=
  match id? with
  | some id => if s.stepOver c t.slot id then s.endStep c true else s
  | none => match s.group? c t.slot with
    | none => s.endStep c false
    | some G => match G.splits[t.split] with
      | none => s.endStep c false
      | some S =>
        let s := match G.popDeferred t.split (s.now c) (s.core c).passes with
          | some G => s.setGroup c t.slot (some G)
          | none => s
        if s.mayIssue c t.slot ((s.group? c t.slot).getD G) S then
          s.toSlot c t.slot t.split G S (if G.cur.isSome then id else openRun t.split G.spec.splseed (s.now c)) id
        else ((s.takePlaces c).popAll c).pick c

end State

/-! ## Events -/

/-- GROUP_PICK (R100): the group scheduler of a core fills its issue slot. -/
def execGroupPick (c : Nat) (s : State) : Host.Outcome State Fault Refusal :=
  let k := s.core c
  let still : Bool := !k.enabled || k.stalled.isSome || k.frozen.isSome
  let free (s : State) : Host.Outcome State Fault Refusal :=
    if still then .refused (.notEnabled "GROUP_PICK") else .next (((s.takePlaces c).popAll c).pick c)
  if s.sch.issue.isSome then .refused (.notEnabled "GROUP_PICK")
  else match s.stepOn c with
    | some (t, id?) =>
      if k.enabled && still && id?.isNone then .refused (.notEnabled "GROUP_PICK")
      else .next (s.stepPick c t id?)
    | none => free s

/-- RUN_LIMIT_END (R69): a run of 24 instructions ends. -/
def execRunLimitEnd (c g : Nat) (s : State) : Host.Outcome State Fault Refusal :=
  match s.group? c g with
  | none => .refused (.notEnabled "RUN_LIMIT_END")
  | some G => match G.cur with
    | none => .refused (.notEnabled "RUN_LIMIT_END")
    | some sp =>
      if (G.splits[sp]).any fun S => S.runLen ≥ 24 then
        .next (s.setGroup c g (some (G.endRun sp 0 (s.now c) (s.core c).passes)))
      else .refused (.notEnabled "RUN_LIMIT_END")

/-- ICACHE_LINE_ARRIVAL (R103): the line that a core waits for arrives. -/
def execIcacheLineArrival (c : Nat) (s : State) : Host.Outcome State Fault Refusal :=
  match (s.core c).frozen with
  | none => .refused (.notEnabled "ICACHE_LINE_ARRIVAL")
  | some l => .next ((s.fillIcache (quadOf c) [l]).modCore c fun k => { k with frozen := none })

/-- STORE_BUFFER_DRAIN (R354): one entry of a committed crew's buffer a cycle. -/
def execStoreBufferDrain (ctx crew : Nat) (s : State) : Host.Outcome State Fault Refusal :=
  match s.crew? ctx crew with
  | none => .refused (.notEnabled "STORE_BUFFER_DRAIN")
  | some k =>
    if !k.committed || k.sbuf.isEmpty then .refused (.notEnabled "STORE_BUFFER_DRAIN")
    else
      let s := s.drainOne ctx crew
      .next (if (s.crew? ctx crew).any fun k => !k.sbuf.isEmpty then s.postQ k.core (s.now k.core + 1) (.storeBufferDrain ctx crew) else s)

/-- GROUP_UNPARK (R361): the group parked longest is unparked. -/
def execGroupUnpark (c : Nat) (s : State) : Host.Outcome State Fault Refusal :=
  let ps := (List.range 32).filterMap fun g => match s.group? c g with
    | some G => G.parked.map fun t => (t, g)
    | none => none
  match (ps.map (·.1)).min? with
  | none => .refused (.notEnabled "GROUP_UNPARK")
  | some t => match ps.find? fun p => p.1 == t with
    | none => .refused (.notEnabled "GROUP_UNPARK")
    | some (_, g) => .next (s.modGroup c g fun G => { G with parked := none })

end Sys2Proof.Machine
end

