-- ==== Sys2Proof/Machine/Crew.lean ====
section
/-! DEFINITION. Crews held at their exit (R304), the pre-emption deadline (R327), and the suspension and the restore of a crew with the save
slot they write and read (R113, R175, R193, R329 to R332, chapter 15, Tables 3 to 3d). -/

namespace Sys2Proof.Machine

open Sys2Proof

/-- The regions of a crew and its groups on a core, with nothing left of them there but clean lines (R188). -/
def State.crewRegions (s : State) (ctx crew : Nat) : List Region := (s.ctx ctx).regions.filter fun r => ofCrew ctx crew r.owner

/-- A crew's regions flushed from its core, once the accesses to them that have issued there are performed (R188): the lines, and the state;
none while it waits. -/
def State.crewFlush (s : State) (ctx : Nat) (k : Crew) : Option (Nat × State) :=
  let rs := s.crewRegions ctx k.id
  let w : Who := ⟨k.core, ctx, k.id, 0, none, none⟩
  if rs.any fun r => s.flushWaits k.core w s.sch.ids r || s.homingR ctx r then none
  else some (s.flushAll k.core ctx (rs.map fun r => (r, false)))

/-- The regions that a crew's exit takes from it: OWNED ones become LENT to their heirs, as by TKRET, until their flush is over (R190, R191). -/
def State.leaveLend (s : State) (ctx : Nat) (k : Crew) : State :=
  let launcher := ((s.leg? ctx k.leg).map (·.launcher)).getD noHolder
  ((s.crewRegions ctx k.id).filter fun r => r.st == .owned).foldl (fun s r => (s.dropTok ctx r).modCtx ctx fun x =>
    x.setRegion { r with st := .lent, owner := heir ctx k.id launcher r, lender := noHolder, hcore := none }) s

/-- CREW_EXIT_RELEASE (R191, R304): a crew whose exit is held leaves once no peer of its gang stands in the way; one that leaves is flushed, and
has left when its flush is over. -/
def execCrewExitRelease (ctx crew : Nat) (s : State) : Host.Outcome State Fault Refusal :=
  match s.crew? ctx crew with
  | none => .refused (.notEnabled "CREW_EXIT_RELEASE")
  | some k => match k.st, k.flush with
    | .held, _ =>
      if s.heldByPeers ctx k then .refused (.notEnabled "CREW_EXIT_RELEASE")
      else .next ((s.startLeave ctx crew).retryHeld ctx k.gang)
    | .leaving, some f =>
      if s.now f.core < f.ends then .refused (.notEnabled "CREW_EXIT_RELEASE")
      else .next ((s.settleLent ctx f.bases).releaseCrew ctx crew)
    | .leaving, none => match s.crewFlush ctx k with
      | none => .next (s.postQ k.core (s.now k.core + 1) (.crewExitRelease ctx crew))
      | some (n, t) =>
        let f : Flushing := ⟨k.core, s.now k.core + n, ((s.crewRegions ctx crew).filter fun r => r.st == .owned).map (·.base)⟩
        .next (((t.leaveLend ctx k).modCrew ctx crew fun k => { k with flush := some f }).postQ k.core f.ends (.crewExitRelease ctx crew))
    | _, _ => .refused (.notEnabled "CREW_EXIT_RELEASE")

/-- PREEMPT_DEADLINE_EXPIRY (R327): a quadrant's count has run out while a crew of the context stands somewhere: the context is reset. -/
def execPreemptDeadlineExpiry (ctx quad : Nat) (s : State) : Host.Outcome State Fault Refusal :=
  let x := s.ctx ctx
  if (x.deadlines.any fun d => d.1 == quad && d.2 ≤ s.clock (.quad quad)) && x.crews.any (·.onCore) then .next (s.resetCtx ctx)
  else .refused (.notEnabled "PREEMPT_DEADLINE_EXPIRY")

/-! ## Images -/

/-- A piece of a save slot: its offset, its bytes, its value. -/
abbrev SlotImage := List (Nat × Nat × Nat)

/-- Equal fields in a row: the value of a list of numbers of `w` bits, lowest first. -/
def packNat (w : Nat) : List Nat → Nat
  | [] => 0
  | x :: xs => x % 2 ^ w + 2 ^ w * packNat w xs

/-- Field `i` of `w` bits. -/
def fieldOf (w i x : Nat) : Nat := x / 2 ^ (w * i) % 2 ^ w

/-- The value of a bit. -/
def bitNat (b : Bool) (i : Nat) : Nat := if b then 2 ^ i else 0

/-- A register image of 384 bytes (R330). -/
def VReg.image (x : VReg) : Nat := packNat 32 ((List.range 96).map fun i => (x.at i).val.toNat)

/-- A vector register from its image and its mark set. -/
def VReg.ofImage (x k : Nat) : VReg := VReg.of fun i => ⟨BitVec.ofNat 32 (fieldOf 32 i x), k.testBit i⟩

/-- The destination code of an entry (R56). -/
def GDest.code : GDest → Nat
  | .vec (.v n) => n
  | .vec (.o n) => 0x100 + n
  | .vec (.l n) => 0x108 + n
  | .s n => 0x200 + n
  | .none => 0x180

/-- The destination of a code. -/
def GDest.ofCode (n : Nat) : GDest :=
  if n < 0x100 then .vec (.v n) else if n < 0x108 then .vec (.o (n - 0x100)) else if n < 0x10C then .vec (.l (n - 0x108))
  else if 0x200 ≤ n && n < 0x280 then .s (n - 0x200) else .none

/-- Every cause. -/
def Cause.list : List Cause :=
  [.illOp, .illEnc, .illRun, .priv, .illPtr, .align, .page, .tableUe, .prot, .tokNone, .tokRo, .tokLent, .tokOrphan, .gangGone, .kConsume,
    .kFaulted, .tileCfg, .acmUnalloc, .acmBand, .ueData, .brimUe, .topo, .trap, .brk, .preemptKill]

/-- The cause of a code. -/
def Cause.ofCode (n : Nat) : Option Cause := Cause.list.find? fun c => c.code.toNat == n

/-! ## The group record (Tables 3c and 3d) -/

/-- An entry of the split table. -/
def Split.image (e : Nat) (x : Option Split) : SlotImage :=
  match x with
  | none => []
  | some S =>
    let b := 0x100 + 64 * e
    [(b, 4, S.pc.toNat), (b + 4, 4, 2 ^ 31 + bitNat S.inRun 30 + S.wait.toNat), (b + 8, 12, S.m.toNat), (b + 20, 12, S.o.toNat),
      (b + 32, 4, S.lvalid.toNat), (b + 36, 4, S.stack.length)]

/-- The deferral stack: the entries of every split in the order of their pushes, oldest first, each with its split (Table 3c). -/
def Group.stackImage (G : Group) : SlotImage :=
  let ds := (List.finRange 4).flatMap fun i => ((G.splits[i].map fun (S : Split) => S.stack.reverse).getD []).map fun d => (i.val, d)
  ((ds.mergeSort fun a b => a.2.at' ≤ b.2.at').zipIdx).flatMap fun ((i, d), j) =>
    let b := 0x200 + 32 * j
    [(b, 4, i), (b + 4, 4, d.pc.toNat), (b + 8, 12, d.f.toNat), (b + 20, 12, d.o.toNat)]

/-- The code of a lane's state. -/
def GState.code : GState → Nat
  | .outstanding => 1
  | .arrived .. => 2
  | .faulted _ => 3

/-- An open entry with its late values. -/
def Guess.image (n : Nat) (e : Guess) : SlotImage :=
  let b := 0x2A00 + 1536 * n
  let lane (i : Nat) : Option GLane := e.lanes.find? fun l => l.lane == i
  let code (i : Nat) : Nat := ((lane i).map fun l => l.st.code).getD 0
  let cause (i : Nat) : Nat := match (lane i).map fun (l : GLane) => l.st with
    | some (.faulted c) => c.code.toNat
    | _ => 0
  let val (r i : Nat) : Nat := match (lane i).map fun (l : GLane) => l.st with
    | some (.arrived v _) => (v[r]?.getD 0).toNat
    | _ => 0
  [(b, 4, 2 ^ 31 + e.dest.code * 2 ^ 16 + e.nregs * 2 ^ 12 + e.slot.val * 2 ^ 6 + bitNat e.fp 5 +
      ((e.lanes.head?.map (·.w)).getD e.width).code.toNat),
    (b + 4, 24, packNat 2 ((List.range 96).map code)), (b + 32, 96, packNat 8 ((List.range 96).map cause)),
    (b + 128, 1152, packNat 96 ((List.range 96).map fun i => ((lane i).map fun l => l.ptr.toNat).getD 0))] ++
  (List.range 4).map fun r => (0x8A00 + 1536 * n + 384 * r, 384, packNat 32 ((List.range 96).map (val r)))

/-- The mask that xm0 to xm2 are saved from: that of the open run's split, else of the lowest live split. -/
def Group.savedMask (G : Group) : Lanes :=
  match G.cur.orElse fun _ => G.live.head? with
  | some i => ((G.splits[i]).map fun (S : Split) => S.m).getD 0
  | none => 0

/-- The group header. -/
def Group.header (G : Group) (gid : Word) : SlotImage :=
  let x := G.spec
  [(0x00, 4, gid.toNat), (0x04, 4, x.splseed.toNat), (0x08, 4, x.kpol.toNat), (0x0C, 4, x.ksamp.toNat), (0x10, 4, x.ksticky.toNat),
    (0x14, 16, packNat 32 (x.kerr.toList.map (·.toNat))), (0x24, 24, packNat 32 (x.wl.toList.map (·.toNat))), (0x3C, 4, bitNat x.topochg 0),
    (0x40, 32, packNat 32 (x.trapinfo.toList.map (·.toNat))),
    (0x60, 4, bitNat G.stopped 0 + (G.cur.map fun i => i.val * 2).getD 0)]

/-- The registers of a record; l registers of a stopped group alone. -/
def Group.regImage (G : Group) : SlotImage :=
  let r := G.regs
  let m := G.savedMask
  let p (i : Nat) : PReg := r.pred i
  [(0x400, 500, packNat 32 (r.s.toList.map fun e => e.val.toNat)), (0x5F4, 12, m.toNat),
    (0x600, 16, packNat 1 (r.s.toList.map fun e => bitNat e.k 0)), (0x610, 4, r.q.toNat + 128),
    (0x614, 4, packNat 1 (r.flags.toList.map fun f => bitNat f.isSet 0)),
    (0x620, 96, packNat 96 ((List.range 8).map fun i => (p i).val.toNat)), (0x680, 96, packNat 96 ((List.range 8).map fun i => (p i).k.toNat)),
    (0x1300, 96, packNat 96 ((List.range 8).map fun i => (r.vec (.o i)).marks.toNat))] ++
  ((List.range 8).map fun i => (0x700 + 384 * i, 384, (r.vec (.o i)).image)) ++
  (if G.stopped then
    (0x1A00, 48, packNat 96 ((List.range 4).map fun i => (r.vec (.l i)).marks.toNat)) ::
      (List.range 4).map fun i => (0x1400 + 384 * i, 384, (r.vec (.l i)).image)
  else []) ++
  (List.range (min G.budget 256)).flatMap fun i =>
    [(0xF000 + 12 * i, 12, (r.vec (.v i)).marks.toNat), (0x10000 + 384 * i, 384, (r.vec (.v i)).image)]

/-- The reckon slots of a record, and the guess count. -/
def Group.slotImage (G : Group) : SlotImage :=
  let lane (k i : Nat) : RLane := (G.slots[k]?.bind fun v => v[i]?).getD ⟨0, 0, false⟩
  [(0x2840, 4, G.guessCount), (0x2800, 48, packNat 1 ((List.range 384).map fun j => bitNat (lane (j / 96) (j % 96)).valid 0))] ++
  (List.range 4).map fun k => (0x1C00 + 768 * k, 768, packNat 64 ((List.range 96).map fun i => (lane k i).v.toNat + 2 ^ 32 * (lane k i).d.toNat))

/-- A group record (R331). -/
def Group.image (G : Group) (gid : Word) : SlotImage :=
  G.header gid ++ (List.finRange 4).flatMap (fun i => Split.image i.val G.splits[i]) ++ G.stackImage ++ G.regImage ++ G.slotImage ++
    (G.guesses.zipIdx.flatMap fun (e, n) => Guess.image n e)

/-! ## The crew's part of a slot (Tables 3a and 3b) -/

/-- A set of positions as bits. -/
def posMask (ps : List Nat) : Nat := (ps.dedup.map fun p => 2 ^ p).foldl (· + ·) 0

/-- The indices i0 to i3 of the next element of a stream, i0 varying fastest. -/
def Stream.indices (x : Stream) : List Nat :=
  let e := descExtent x.desc
  [x.next % e 0, x.next / e 0 % e 1, x.next / (e 0 * e 1) % e 2, x.next / (e 0 * e 1 * e 2)]

/-- A stream of a slot; `pos` gives the position of the group in a context slot of the core. -/
def Stream.image (n pos len : Nat) (x : Stream) : SlotImage :=
  let b := 0x100 + 128 * n
  [(b, 64, packNat 32 (x.desc.toList.map (·.toNat))), (b + 64, 16, packNat 32 x.indices), (b + 80, 4, pos),
    (b + 84, 4, bitNat x.running 0 + bitNat x.finished 1), (b + 88, 4, len)]

/-- An element of a saved queue: a marker's pointer and cause, or a value with its mark. -/
def QElem.image (q e : Nat) (x : QElem) : SlotImage :=
  let b := 0x1000 + 6144 * q + 16 * e
  match x.cause with
  | some c => [(b, 12, x.ptr.toNat), (b + 12, 4, 2 ^ 31 + 2 ^ 30 + c.code.toNat)]
  | none => [(b, 4, (x.val.getD 0).toNat), (b + 12, 4, bitNat x.k 31 + 2 ^ 30)]

/-- A bank of a slot, with its state. -/
def Bank.image (n : Nat) (x : Bank) : SlotImage :=
  let b := 0x70000 + 512 * n
  let shape : Nat := match x.rect with
    | .rect m k => (m - 1) * 2 ^ 8 + (k - 1) * 2 ^ 16
    | .void => 2
  [(0x30000 + 8192 * n, 8192, packNat 2048 (x.data.toList.map fun r => packNat 32 (r.toList.map (·.toNat)))),
    (b, 4, bitNat x.isInt 0 + bitNat x.pend 2 + bitNat x.bad 3 + shape), (b + 4, 32, packNat 8 (x.rows.toList.map fun r => r.getD 0xFF)),
    (b + 64, 128, packNat 32 (x.brimRow.toList.map (·.toNat))), (b + 256, 256, packNat 32 (x.brimCol.toList.map (·.toNat)))]

/-- A barrier's word. -/
def Bar.word (b : Bar) : Nat := bitNat b.phase 31 + posMask b.arrived

namespace State

/-- The group contexts of a crew with their positions. -/
def crewSlots (k : Crew) : List (Nat × Nat) := (List.range 16).filterMap fun p => ((k.slots[p]?).join).map fun g => (p, g)

/-- What a crew owns of its core's tiles and banks. -/
def ownTiles (s : State) (ctx : Nat) (k : Crew) : List Nat :=
  (List.range 16).filter fun n => ((s.core k.core).tile n).owner == some (ctx, k.id)

/-- The physical banks a crew owns; a slot has them by their numbers in the range of the context (R255, R268). -/
def ownBanks (s : State) (ctx : Nat) (k : Crew) : List Nat :=
  (List.range 32).filter fun n => ((s.core k.core).bank n).owner == some (ctx, k.id)

/-- The pins of a crew, those of the core holder and of engine operations apart (R193). -/
def crewPins (s : State) (ctx : Nat) (k : Crew) : List Pin :=
  (s.core k.core).caches.pins.filter fun p => p.ofCrew ctx k.id

/-- The crew header but its VALID bit. -/
def headerImage (s : State) (ctx : Nat) (k : Crew) (l : Leg) : SlotImage :=
  let c := s.core k.core
  let ts := s.ownTiles ctx k
  let pins := s.crewPins ctx k
  [(0x004, 4, (s.crewIdWord ctx k.id).toNat), (0x008, 4, k.leg), (0x00C, 4, (s.gangrank ctx k).toNat), (0x010, 12, l.lr.addr.toNat),
    (0x01C, 4, k.crewst.toNat), (0x020, 4, posMask (livePos k)), (0x024, 4, (l.lr.regs / 16 - 1) * 2 ^ 8 + k.size / 1024 * 2 ^ 12),
    (0x028, 4, ctx), (0x030, 16, packNat 32 (k.bars.toList.map Bar.word)), (0x040, 8, packNat 32 (k.gbars.toList.map Bar.word)),
    (0x048, 4, posMask ts), (0x04C, 4, posMask ((s.ownBanks ctx k).map (c.bankName ctx))),
    (0x050, 64, packNat 32 ((List.range 16).map fun n => (c.tile n).cfg.toNat)),
    (0x090, 64, packNat 64 (k.rings.toList.map fun r => (r.map fun (r : Ring) => r.base + 2 ^ 32 * r.cfg.toNat).getD 0)),
    (0x500, 4, pins.length)] ++
  pins.zipIdx.map fun (p, i) => (0x510 + 16 * i, 16, p.base + Config.thisModule * 2 ^ 62 + 2 ^ 96 * p.holder.toNat)

/-- The streams of a crew's groups, with their queues. -/
def streamImage (s : State) (k : Crew) : SlotImage :=
  let c := s.core k.core
  let posOf (g : Nat) : Option Nat := ((crewSlots k).find? fun x => x.2 == g).map (·.1)
  (List.range 8).flatMap (fun n => match s.stream? k.core n with
    | none => []
    | some x => match posOf x.slot with
      | none => []
      | some p => Stream.image n p (s.queue k.core (descQueue x.desc)).elems.length x) ++
  c.queues.toList.zipIdx.flatMap fun (q, i) =>
    if (q.claim.bind posOf).isSome then q.elems.zipIdx.flatMap fun (e, j) => QElem.image i j e else []

/-- The whole slot but its VALID bit. -/
def slotImage (s : State) (ctx : Nat) (k : Crew) (l : Leg) : SlotImage :=
  let c := s.core k.core
  s.headerImage ctx k l ++ s.streamImage k ++
  (s.ownTiles ctx k).map (fun n => (0x10000 + 8192 * n, 8192, (c.tile n).data.readNat 0 8192)) ++
  (s.ownBanks ctx k).flatMap (fun n => (c.bank n).image (c.bankName ctx n)) ++
  [(0x80000, k.size, k.scratch.readNat 0 k.size), (0x100000, 16384, posMask k.spill)] ++
  (crewSlots k).flatMap fun (p, g) => match s.group? k.core g with
    | none => []
    | some G => (G.image (groupIdWord k.rank g p)).map fun (o, n, x) => (0x110000 + 0x28000 * p + o, n, x)

/-! ## Suspension (R329) -/

/-- The bytes of a save slot. -/
def slotBytes : Nat := 4194304

/-- The base of a context's save region. -/
def saveBase (s : State) (ctx : Nat) : Nat :=
  let r := (s.ctx ctx).regs
  (r.savebaseh &&& 0x1FFFF).toNat * 2 ^ 32 + (r.savebase &&& 0xFFFFF000).toNat

/-- The slots of a context's save region. -/
def saveSlots (s : State) (ctx : Nat) : List Nat :=
  (List.range (2 ^ (s.ctx ctx).regs.savelog2n.toNat)).filter fun i =>
    inMap (s.saveBase ctx + slotBytes * i) && inMap (s.saveBase ctx + slotBytes * (i + 1) - 1)

/-- The lowest free slot of a context's save region (R330). -/
def freeSave (s : State) (ctx : Nat) : Option Nat :=
  (s.saveSlots ctx).find? fun i => !(s.mem.readWord (s.saveBase ctx + slotBytes * i)).getLsbD 31

/-- An image written to memory, bytes that no field covers being 0, VALID last. -/
def writeSlot (s : State) (ctx i : Nat) (m : SlotImage) : State :=
  let b := s.saveBase ctx + slotBytes * i
  let mem := s.mem.filter fun x => !(b ≤ x.1 && x.1 < b + slotBytes)
  let mem := m.foldl (fun (q : Memory) (o, n, x) => q.writeNat (b + o) n x) mem
  { s with mem := mem.writeWord b 0x80000001, ueLines := s.ueLines.filter fun l => !(b / 128 ≤ l && l < (b + slotBytes) / 128) }

/-- Operations that wait on another party, and are cancelled to issue again at the restore (R199, R223, R249, R299). -/
def waitsOn (o : Op) : Bool :=
  match o.ins with
  | .wpwait _ | .waita _ | .tktake _ => o.stage == .waiting
  | .tld x => x.aon && (o.stage == .check || o.stage == .lent)
  | .tst x => x.aon && (o.stage == .check || o.stage == .lent) && o.firstRead.getD 0 = 0
  | .qpop _ => o.stage == .check && !o.accs.any fun a => a.lim.isSome
  | _ => false

/-- Whether an operation of a crew's group need not drain before the save: it waits on another party, stands at a barrier, is logged by its
stopped group, or has not passed its checks behind one of these; a plain TLD or TST only when that one holds it back (R249). -/
def keepOp (s : State) (c : Nat) (o : Op) : Bool :=
  let bar : Bool := match o.ins with
    | .bar _ | .gbar _ => o.stage == .waiting || o.stage == .check
    | _ => false
  let w := s.opWho c o
  let plain : Bool := match o.ins with
    | .tld x | .tst x => !x.aon
    | _ => false
  let stuck (q : Op) : Bool := !plain || o.accs.any (s.laneWaits w o [q]) || (opSets (s.core c) o).clash (opSets (s.core c) q)
  let behind : Bool := o.stage == .check && ((accMode o.ins).isSome || (match o.ins with
      | .fence _ => true
      | _ => false)) &&
    (((s.core c).ops.takeWhile fun q => q.id != o.id).any fun q => q.slot == o.slot && (waitsOn q || q.stage == .logged) && stuck q)
  waitsOn o || bar || behind || (o.stage == .logged && (s.group? c o.slot).any fun G => G.stopped)

/-- R113, R146, R175, R249, R268, R281, R297: whether a suspending crew may be saved. -/
def saveReady (s : State) (ctx : Nat) (k : Crew) : Bool :=
  let c := s.core k.core
  let gs := crewSlots k
  let mine (g : Nat) : Bool := gs.any fun x => x.2 == g
  let ops := c.ops.filter fun o => mine o.slot
  let ready (G : Group) : Bool :=
    G.atBoundary && !G.ending && !G.resuming && G.pend.all (fun p => ops.any fun o => o.id == p.id) &&
      G.guesses.all fun e => e.landed && e.lanes.all fun l => !l.st.outstanding?
  let settled (q : Queue) : Bool := !(q.claim.any mine) || q.elems.all fun e => e.val.isSome || e.cause.isSome
  let taken (o : Op) : Bool := match o.ins with
    | .qpop _ => o.accs.all fun a => a.cmp == 0 || a.arr.any (· ≤ s.now k.core) || a.cause.isSome || a.direct
    | _ => true
  c.stalled.isNone && k.sbuf.isEmpty && ops.all taken && gs.all (fun x => (s.group? k.core x.2).any ready) && ops.all (s.keepOp k.core) &&
    !gs.any (fun x => enginesOf c x.2 ctx k.id) &&
    !c.mx.tenants.any (fun t => t.ctx == ctx && t.window.any fun w => w.crew == k.id) && c.queues.toList.all settled

/-- What the model keeps of a group beside its record. -/
def savedGroup (s : State) (c pos g : Nat) (G : Group) : SavedG :=
  let open_ : Option Split := G.cur.bind fun i => G.splits[i]
  { pos := pos, ops := (s.core c).ops.filter fun o => o.slot == g, pend := G.pend, trails := G.trails,
    owners := G.regs.flags.map (·.owner), runIds := (open_.map fun (S : Split) => S.runIds).getD [],
    runLen := (open_.map fun (S : Split) => S.runLen).getD 0, kretry := G.kretry,
    widths := G.guesses.map fun e => e.lanes.map fun l => (l.lane, l.w), ueRegs := G.ueRegs, ueS := G.ueS,
    ueP := G.ueP, topo := false }

/-- R329: a crew saved into a slot; it stands on no core from then on. -/
def saveCrew (s : State) (ctx i : Nat) (k : Crew) (l : Leg) : State :=
  let c := s.core k.core
  let img := s.slotImage ctx k l
  let kept : Saved :=
    { groups := (crewSlots k).filterMap fun (p, g) => (s.group? k.core g).map fun G => s.savedGroup k.core p g G,
      second := c.second ctx,
      tiles := (s.ownTiles ctx k).map fun n => (n, (c.tile n).ue),
      banks := (s.ownBanks ctx k).map fun n => (c.bankName ctx n, (c.bank n).ue),
      streams := (List.range 8).filterMap fun n => (s.stream? k.core n).map fun x => (n, x.before),
      elems := (List.range 8).map fun q => (q, (s.queue k.core q).elems.map fun e => (e.stream, e.esz)) }
  let s := s.suspendTokens ctx k.id
  let s := s.writeSlot ctx i img
  let s := (s.dropGroups ctx k.id).releaseArray k.core ctx k.id
  let s := s.modCrew ctx k.id fun q =>
    { q with st := .suspended i, core := 768, slots := Vector.replicate 16 none, base := 0, scratch := [], spill := [], kept := kept }
  let s := s.modCtx ctx fun x => { x with regs := { x.regs with ctlarg := BitVec.ofNat 32 i, cbusy := false, cfail := false } }
  (s.leaveTenant k.core ctx).retryAll

/-- The suspension of a context's block refused. -/
def saveRefused (s : State) (ctx : Nat) : State :=
  s.modCtx ctx fun x => { x with regs := { x.regs with cbusy := false, cfail := true } }

end State

/-- CREW_SAVE (R193, R329, R330): a suspending crew is saved once all of it has come to rest and its regions are flushed, into the lowest free
slot. Without a free slot it goes on, and so does the context when the crew is no longer there to be saved. -/
def execCrewSave (ctx crew : Nat) (s : State) : Host.Outcome State Fault Refusal :=
  let again (s : State) (c t : Nat) : Host.Outcome State Fault Refusal := .next (s.postQ c t (.crewSave ctx crew))
  match s.crew? ctx crew with
  | none => .next (s.saveRefused ctx)
  | some k =>
    if k.st != .suspending then .next (s.saveRefused ctx)
    else if !s.saveReady ctx k then again s k.core (s.now k.core + 1)
    else match s.freeSave ctx, s.leg? ctx k.leg with
      | some i, some l => match k.flush with
        | some f =>
          if s.now f.core < f.ends then again s f.core f.ends
          else .next ((s.modCrew ctx crew fun q => { q with flush := none }).saveCrew ctx i k l)
        | none => match s.crewFlush ctx k with
          | none => again s k.core (s.now k.core + 1)
          | some (n, t) =>
            if n = 0 then .next (t.saveCrew ctx i k l)
            else again (t.modCrew ctx crew fun q => { q with flush := some ⟨k.core, s.now k.core + n, []⟩ }) k.core (s.now k.core + n)
      | _, _ => .next ((s.modCrew ctx crew fun q => { q with st := .resident, flush := none }).saveRefused ctx)

/-! ## Restore (R332) -/

/-- A slot as a restore reads it: the value of `n` bytes at an offset. -/
abbrev SlotRead := Nat → Nat → Nat

/-- A word of a slot. -/
def SlotRead.w (r : SlotRead) (o : Nat) : Word := BitVec.ofNat 32 (r o 4)

/-- The deferral stack of a split, its top first. -/
def SlotRead.stack (r : SlotRead) (e : Nat) : List Deferred :=
  let n := (List.range 4).foldl (fun m i => m + if (r.w (0x104 + 64 * i)).getLsbD 31 then r (0x124 + 64 * i) 4 else 0) 0
  let ds := (List.range (min n 16)).map fun j =>
    let b := 0x200 + 32 * j
    (r b 4 % 4, (⟨r.w (b + 4), BitVec.ofNat 96 (r (b + 8) 12), BitVec.ofNat 96 (r (b + 20) 12), j⟩ : Deferred))
  ((ds.filter fun d => d.1 == e).map (·.2)).reverse

/-- An entry of the split table, from a cycle on. -/
def SlotRead.split (r : SlotRead) (e from_ : Nat) (x : SavedG) : Option Split :=
  let b := 0x100 + 64 * e
  let w := r.w (b + 4)
  let inRun := w.getLsbD 30
  if !w.getLsbD 31 then none
  else some
    { pc := r.w b, m := BitVec.ofNat 96 (r (b + 8) 12), o := BitVec.ofNat 96 (r (b + 20) 12), wait := w.extractLsb' 0 12, inRun := inRun,
      runLen := if inRun then x.runLen else 0, lvalid := BitVec.ofNat 4 (r (b + 32) 4), stack := r.stack e, notBefore := from_, readyFrom := from_,
      runIds := if inRun then x.runIds else [] }

/-- The registers of a record, with the constants of the leg. -/
def SlotRead.regs (r : SlotRead) (consts : Vector Word 64) (budget : Nat) (x : SavedG) : GRegs :=
  { v := Vector.ofFn fun i => if i.val < budget then VReg.ofImage (r (0x10000 + 384 * i.val) 384) (r (0xF000 + 12 * i.val) 12) else VReg.zero,
    o := Vector.ofFn fun i => VReg.ofImage (r (0x700 + 384 * i.val) 384) (r (0x1300 + 12 * i.val) 12),
    l := Vector.ofFn fun i => VReg.ofImage (r (0x1400 + 384 * i.val) 384) (r (0x1A00 + 12 * i.val) 12),
    s := Vector.ofFn fun i => ⟨r.w (0x400 + 4 * i.val), (r 0x600 16).testBit i.val⟩,
    p := Vector.ofFn fun i => ⟨BitVec.ofNat 96 (r (0x620 + 12 * i.val) 12), BitVec.ofNat 96 (r (0x680 + 12 * i.val) 12)⟩,
    q := BitVec.ofNat 7 (r 0x610 4), c := consts,
    flags := Vector.ofFn fun i => ⟨(r 0x614 4).testBit i.val, 0, x.owners[i]⟩ }

/-- The special registers of a record. -/
def SlotRead.spec (r : SlotRead) (x : SavedG) : GSpec :=
  { kpol := r.w 0x08, ksamp := r.w 0x0C, ksticky := r.w 0x10, kerr := Vector.ofFn fun i => r.w (0x14 + 4 * i.val),
    wl := Vector.ofFn fun i => r.w (0x24 + 4 * i.val), splseed := BitVec.ofNat 16 (r 0x04 4),
    topochg := (r.w 0x3C).getLsbD 0 || x.topo, trapinfo := Vector.ofFn fun i => r.w (0x40 + 4 * i.val) }

/-- An open entry of a record, with its late values; `id` numbers it. -/
def SlotRead.guess (r : SlotRead) (n id : Nat) (ws : List (Nat × Width)) : Option Guess :=
  let b := 0x2A00 + 1536 * n
  let w := r.w b
  let lane (width : Width) (i : Nat) : Option GLane :=
    let z := ((ws.find? fun x => x.1 == i).map (·.2)).getD width
    let ptr : Ptr := BitVec.ofNat 96 (r (b + 128 + 12 * i) 12)
    match fieldOf 2 i (r (b + 4) 24) with
    | 2 => some ⟨i, ptr, z, .arrived ((List.range 4).map fun j => r.w (0x8A00 + 1536 * n + 384 * j + 4 * i)) 0⟩
    | 3 => (Cause.ofCode (r (b + 32 + i) 1)).map fun c => ⟨i, ptr, z, .faulted c⟩
    | _ => none
  if !w.getLsbD 31 then none
  else (Width.ofCode (w.extractLsb' 0 3)).map fun width =>
    { id := id, dest := GDest.ofCode (w.extractLsb' 16 10).toNat, nregs := (w.extractLsb' 12 3).toNat, slot := Fin.ofNat 4 (w.extractLsb' 6 2).toNat,
      fp := w.getLsbD 5, width := width, landed := true, lanes := (List.range 96).filterMap (lane width) }

/-- A group from its record, in a slot of a core, from a cycle on; its entries are numbered from `id`. -/
def SlotRead.group (r : SlotRead) (ctx crew budget from_ id : Nat) (consts : Vector Word 64) (x : SavedG) : Group :=
  let splits : Vector (Option Split) 4 := Vector.ofFn fun i => r.split i.val from_ x
  let cur := (List.finRange 4).find? fun i => (splits[i]).any fun S => S.inRun
  { ctx := ctx, crew := crew, pos := x.pos, budget := budget, regs := r.regs consts budget x, spec := r.spec x, splits := splits, cur := cur,
    runStart := from_, lastE := 0, pend := x.pend, recent := [], trails := x.trails,
    slots := Vector.ofFn fun k => Vector.ofFn fun i =>
      ⟨r.w (0x1C00 + 768 * k.val + 8 * i.val), r.w (0x1C04 + 768 * k.val + 8 * i.val), (r (0x2800 + 12 * k.val) 12).testBit i.val⟩,
    guesses := (List.range 16).filterMap fun n => r.guess n (id + n) (x.widths[n]?.getD []), samples := [], guessCount := r 0x2840 4, hints := [], parked := none,
    withheld := 0, stopped := (r.w 0x60).getLsbD 0, resuming := false, kretry := x.kretry, holdUntil := from_, ending := false,
    ueRegs := x.ueRegs, ueS := x.ueS, ueP := x.ueP }

/-- A stream of a slot in the context slot `g` of its core, with the accesses before its ASGO. -/
def SlotRead.stream (r : SlotRead) (n g : Nat) (before : List Nat) : Option Stream :=
  let b := 0x100 + 128 * n
  let desc : Vector Word 16 := Vector.ofFn fun i => r.w (b + 4 * i.val)
  let e := descExtent desc
  let i (j : Nat) : Nat := r (b + 64 + 4 * j) 4
  if r b 64 = 0 then none
  else some { slot := g, desc := desc, running := (r.w (b + 84)).getLsbD 0, finished := (r.w (b + 84)).getLsbD 1,
              next := i 0 + e 0 * (i 1 + e 1 * (i 2 + e 2 * i 3)), before := before }

/-- The elements of a queue of a slot, `len` of them, numbered from `id`; `from_` gives the stream and the size of each. -/
def SlotRead.queue (r : SlotRead) (q len id : Nat) (from_ : List (Nat × Nat)) : List QElem :=
  (List.range len).map fun j =>
    let b := 0x1000 + 6144 * q + 16 * j
    let w := r.w (b + 12)
    let (n, esz) := (from_[j]?).getD (8, 4)
    match Cause.ofCode (w.extractLsb' 0 8).toNat with
    | some c => ⟨id + j, n, BitVec.ofNat 96 (r b 12), esz, none, false, some c⟩
    | none => ⟨id + j, n, 0, esz, some (r.w b), w.getLsbD 31, none⟩

/-- A tile of a slot. -/
def SlotRead.tile (r : SlotRead) (n : Nat) (owner : Nat × Nat) (ue : List Nat) : Tile :=
  { cfg := r.w (0x50 + 4 * n), owner := some owner, data := Memory.writeNat [] 0 8192 (r (0x10000 + 8192 * n) 8192), ue := ue }

/-- A bank of a slot. -/
def SlotRead.bank (r : SlotRead) (n : Nat) (owner : Nat × Nat) (ue : List (Nat × Nat)) : Bank :=
  let b := 0x70000 + 512 * n
  let w := r.w b
  let row (i : Nat) : Option Nat := let x := r (b + 4 + i) 1; if x = 0xFF then none else some x
  { data := Vector.ofFn fun i => Vector.ofFn fun j => r.w (0x30000 + 8192 * n + 256 * i.val + 4 * j.val), owner := some owner, isInt := w.getLsbD 0,
    rows := Vector.ofFn fun i => row i.val,
    rect := if w.getLsbD 1 then .void else .rect ((w.extractLsb' 8 5).toNat + 1) ((w.extractLsb' 16 6).toNat + 1),
    brimRow := Vector.ofFn fun i => r.w (b + 64 + 4 * i.val), brimCol := Vector.ofFn fun i => r.w (b + 256 + 4 * i.val), pend := w.getLsbD 2,
    bad := w.getLsbD 3, freeing := false, ue := ue }

/-- A barrier's word read back. -/
def Bar.ofWord (w : Word) : Bar := ⟨w.getLsbD 31, bitsOf (w.extractLsb' 0 16)⟩

namespace State

/-- The value of `n` bytes of a save slot. -/
def slotRead (s : State) (ctx i : Nat) : SlotRead := fun o n => s.mem.readNat (s.saveBase ctx + slotBytes * i + o) n

/-- A physical tile of a slot by its number in the range of the context that saved it (R227, R249). -/
def savedTile (x : Saved) (p : Nat) : Nat := if x.second then p - 8 else p

/-- Whether a core has room for all of a saved crew, its context having joined the core's array: groups, registers, scratchpad, pins, the
same tile and bank numbers, and its streams with their queues (R249, R268, R297, R332). -/
def restoreRoom (s : State) (ctx c : Nat) (x : Saved) (r : SlotRead) (size regs : Nat) : Bool :=
  let k := s.core c
  let (g, q) := s.reserved c
  let n := (bitsOf (r.w 0x20)).length
  k.enabled && 16 ≤ k.good && g + n ≤ (s.freeSlots c).length && s.regsUsed c + q + n * regs ≤ Config.coreRegs &&
    (s.placeScratch c size).isSome && (k.tenant? ctx).isSome && k.caches.pins.length + r 0x500 4 ≤ 64 &&
    (bitsOf (r.w 0x48)).all (fun p => (k.tileOf ctx (savedTile x p)).any fun t => (k.tile t).owner.isNone) &&
    (bitsOf (r.w 0x4C)).all (fun n => (k.bankOf ctx n).any fun p => (k.bank p).owner.isNone) &&
    (List.range 8).all fun n => match r.stream n 0 [] with
      | some y => (s.stream? c n).isNone && (s.queue c (descQueue y.desc)).claim.isNone
      | none => true

/-- An operation that issues again on a core at the restore; its limit counts anew. -/
def restoreOp (s : State) (c g : Nat) (o : Op) : State :=
  let now := s.now c
  let at_ : Bool := match o.ins with
    | .bar _ | .gbar _ => true
    | _ => false
  let stage : Stage := if o.stage = .logged || at_ then o.stage else .check
  let o := { Op.anew o (now + 1) with slot := g, stage := stage }
  let s := (s.addOp c o).postOpLimit c o
  if stage != .check then s
  else match o.ins with
    | .bar _ => s.postQ c (now + 1) (.barArrivalRegister c o.id)
    | .gbar _ => s.postQ c (now + 1) (.gbarArrivalRegister c o.id)
    | _ => s.postQ c (now + 1) (.accessCheckComplete c o.id)

/-- One group of a crew restored into a free context of a core; a TLD or TST that issues again names its tile where the context has it there. -/
def restoreGroup (s : State) (ctx c g : Nat) (k : Crew) (l : Leg) (budget : Nat) (r : SlotRead) (x : SavedG) : State :=
  let rec_ : SlotRead := fun o n => r (0x110000 + 0x28000 * x.pos + o) n
  let id := s.sch.ids
  let s := s.modSch fun h => { h with ids := h.ids + 16 }
  let s := s.setGroup c g (some (rec_.group ctx k.id budget (s.now c + 1) id l.lr.consts x))
  let s := s.modCrew ctx k.id fun q => { q with slots := q.slots.setIfInBounds x.pos (some g) }
  let tile (o : Op) : Op := match o.ins with
    | .tld _ | .tst _ =>
      { o with args := o.args.map (fun p => BitVec.ofNat 32 (((s.core c).tileOf ctx (savedTile k.kept p.toNat)).getD p.toNat)) }
    | _ => o
  x.ops.foldl (fun s o => s.restoreOp c g (tile o)) s

/-- The streams and queues of a crew restored. -/
def restoreStreams (s : State) (ctx crew c : Nat) (kept : Saved) (r : SlotRead) : State :=
  (List.range 8).foldl (fun s n =>
    let slot := ((s.crew? ctx crew).bind fun k => (k.slots[(r (0x150 + 128 * n) 4)]?).join).getD 32
    match r.stream n slot (((kept.streams.find? fun y => y.1 == n).map (·.2)).getD []) with
    | none => s
    | some x =>
      let q := descQueue x.desc
      let len := r (0x158 + 128 * n) 4
      let id := s.sch.ids
      let s := s.setStream c n (some x)
      let s := if (s.queue c q).claim.isSome then s
        else (s.setQueue c q ⟨some slot, r.queue q len id (((kept.elems.find? fun y => y.1 == q).map (·.2)).getD [])⟩).modSch fun h => { h with ids := h.ids + len }
      if x.running then s.postQ c (s.now c + 1) (.streamElementRead c n) else s) s

/-- R332: a saved crew restored on a core that its context has joined. -/
def restoreOn (s : State) (ctx c i : Nat) (k : Crew) (l : Leg) (r : SlotRead) : State :=
  let regs := (((r.w 0x24).extractLsb' 8 4).toNat + 1) * 16
  let size := ((r.w 0x24).extractLsb' 12 10).toNat * 1024
  let st := r.w 0x1C
  let own := (ctx, k.id)
  let cfg (n : Nat) : Option Ring := if r (0x94 + 8 * n) 4 = 0 then none else some ⟨r (0x90 + 8 * n) 4, r.w (0x94 + 8 * n)⟩
  let base := (s.placeScratch c size).getD 0
  let free := s.freeSlots c
  let ue {α : Type} (xs : List (Nat × List α)) (n : Nat) : List α := ((xs.find? fun x => x.1 == n).map (·.2)).getD []
  let s := s.modCrew ctx k.id fun q =>
    { q with st := .resident, core := c, base := base, size := size, slots := Vector.replicate 16 none,
             scratch := Memory.writeNat [] 0 size (r 0x80000 size), spill := (List.range (size / 4)).filter fun w => (r 0x100000 16384).testBit w,
             committed := st.getLsbD 31, reason := st.extractLsb' 27 4, rollbacks := (st.extractLsb' 16 8).toNat,
             bars := Vector.ofFn fun n => Bar.ofWord (r.w (0x30 + 4 * n.val)), gbars := Vector.ofFn fun n => Bar.ofWord (r.w (0x40 + 4 * n.val)),
             rings := Vector.ofFn fun n => cfg n.val, kept := ⟨[], false, [], [], [], []⟩ }
  let live := k.kept.groups.filter fun x => (r.w 0x20).getLsbD x.pos
  let s := (live.zip free).foldl (fun s (x, g) => s.restoreGroup ctx c g k l regs r x) s
  let s := s.restoreStreams ctx k.id c k.kept r
  let s := s.modCore c fun q => (bitsOf (r.w 0x48)).foldl (fun q p => match q.tileOf ctx (savedTile k.kept p) with
    | some t => q.modTile t fun _ => r.tile p own (ue k.kept.tiles p)
    | none => q) q
  let s := s.modCore c fun q => (bitsOf (r.w 0x4C)).foldl (fun q n => match q.bankOf ctx n with
    | some p => q.modBank p fun _ => r.bank n own (ue k.kept.banks n)
    | none => q) q
  let s := (List.range (min 64 (r 0x500 4))).foldl (fun (s : State) j =>
    let b := 0x510 + 16 * j
    s.addPin c ⟨ctx, Ptr.local (BitVec.ofNat 96 (r b 12)), r.w (b + 12), k.id⟩) s
  let s := s.restoreTokens ctx k.id c
  let s := s.homeWriteAt (s.saveBase ctx + slotBytes * i) (leBytes 4 1)
  let s := [0, 1, 2, 3].foldl (fun s n => s.barCheck ctx k.id n) s
  let s := [0, 1].foldl (fun s n => s.gangCheck ctx k.gang n c) s
  let s := s.modCtx ctx fun x => { x with regs := { x.regs with state := if x.regs.state = 0 then 1 else x.regs.state } }
  s.rail (quadOf c)

/-- R332, R373: the crew saved in a slot restored on the first core of its context with room, cool clusters first; none when the slot holds
no suspended crew of the context or no core has room; a slot may have been copied to another index. -/
def restoreCrew (s : State) (ctx i : Nat) : Option State :=
  let r := s.slotRead ctx i
  let id := ((r.w 0x04).extractLsb' 0 20).toNat
  if !(s.saveSlots ctx).contains i || !(r.w 0).getLsbD 31 then none
  else match s.crew? ctx id with
    | none => none
    | some k => match k.st, s.leg? ctx k.leg with
      | .suspended _, some l =>
        let regs := (((r.w 0x24).extractLsb' 8 4).toNat + 1) * 16
        let size := ((r.w 0x24).extractLsb' 12 10).toNat * 1024
        let fits (c : Nat) : Bool := s.tenantOk c ctx && (s.joinTenant c ctx).restoreRoom ctx c k.kept r size regs
        ((s.coolFirst (s.ctxCores ctx)).find? fits).map fun c => (s.joinTenant c ctx).restoreOn ctx c i k l r
      | _, _ => none

end State

end Sys2Proof.Machine
end

