-- ==== Sys2Proof/Machine/Power.lean ====
section
/-! DEFINITION. Power, steps, temperatures and bring-up (R359 to R370), and the passing of time. -/

namespace Sys2Proof.Machine

open Sys2Proof

/-! ## Free measurements -/

namespace State

/-- `n` free bytes: what a controller measures or divides. -/
def freeBytes (s : State) : Nat → List (BitVec 8) × State
  | 0 => ([], s)
  | n + 1 =>
    let (x, s) := s.freeNat
    let (xs, s) := freeBytes s n
    (BitVec.ofNat 8 x :: xs, s)

/-- The cores of a quadrant. -/
def quadCores (q : Nat) : List Nat := (List.range 48).map fun i => 48 * q + i

/-- R367: the hottest junction of a quadrant and its cool clusters, from the hottest junction of each cluster. -/
def measure (s : State) (q : Nat) (js : List (BitVec 8)) : State :=
  s.modQuad q fun x => { x with temp := js.foldl (fun m j => if m ≤ j then j else m) 0, heat := js, cool := coolOf js x.hotlim }

/-- A thermal record to the host: an event record, and a record of KIND 6 in every enabled context; `number` names the cluster or the
device. -/
def tellThermal (s : State) (die : Nat) (number : Nat) : State :=
  let win := BitVec.ofNat 32 ((s.rel.window[die]?).getD 0)
  let s := s.keepEvent ⟨5, BitVec.ofNat 8 die, BitVec.ofNat 16 number, 3, 1, win⟩
  ((List.range 16).filter fun x => (s.ctx x).regs.en).foldl (fun (s : State) x => s.record x 0 0 0xFFFF 0 (BitVec.ofNat 32 number) 0 6) s

end State

/-- GRANT_UPDATE (R359): the power controller sets the GRANT of each core of its quadrant. -/
def execGrantUpdate (quad : Nat) (grants : List (BitVec 8)) (s : State) : Host.Outcome State Fault Refusal :=
  if quad < 16 then
    .next (((State.quadCores quad).zip grants).foldl (fun (s : State) (c, g) => s.modCore c fun k => { k with grant := g }) s)
  else .refused (.notEnabled "GRANT_UPDATE")

/-! ## Steps (R363) -/

/-- STEP_RAISE (R363): the voltage is up, and every core of the quadrant changes to the step it serves. -/
def execStepRaise (q : Nat) (s : State) : Host.Outcome State Fault Refusal :=
  let x := s.quad q
  match x.raising with
  | none => .refused (.notEnabled "STEP_RAISE")
  | some t =>
    if !x.joined || 16 ≤ q then .refused (.notEnabled "STEP_RAISE")
    else
      let step := if s.target q < t then s.target q else t
      let s := s.modQuad q fun x => { x with raising := none, volt := if x.volt < t then t else x.volt }
      .next ((if x.cur < step then s.applyStep q step else s).rail q)

/-- STEP_LOWER (R363): every core of the quadrant changes to the lower step in one cycle; the voltage falls later. -/
def execStepLower (q : Nat) (s : State) : Host.Outcome State Fault Refusal :=
  let x := s.quad q
  let t := s.target q
  if !x.joined || 16 ≤ q || !(t < x.cur) then .refused (.notEnabled "STEP_LOWER")
  else
    let s := (s.applyStep q t).modQuad q fun x => { x with raising := none, falling := x.falling ++ [t] }
    .next (s.post (.reg q) (s.regNow q + 4096) (.voltageFall q))

/-- The voltage of a quadrant after it has fallen to a step's: that of the applied step or of a raise under way is held where it is higher. -/
def Quad.fallen (x : Quad) (t : BitVec 5) : BitVec 5 :=
  let up (a b : BitVec 5) : BitVec 5 := if a < b then b else a
  let held : BitVec 5 := match x.raising with
    | some r => if r ≤ x.volt then r else x.volt
    | none => 0
  up (up x.cur t) held

/-- VOLTAGE_FALL (R363): the voltage falls to that of the step lowered to 4,096 regulator cycles ago. -/
def execVoltageFall (q : Nat) (s : State) : Host.Outcome State Fault Refusal :=
  match (s.quad q).falling with
  | [] => .refused (.notEnabled "VOLTAGE_FALL")
  | t :: rest =>
    if 16 ≤ q then .refused (.notEnabled "VOLTAGE_FALL")
    else .next (s.modQuad q fun x => { x with volt := x.fallen t, falling := rest })

/-! ## Temperatures (R366 to R368) -/

/-- GDDR_TEMP_REPORT (R366): a device's temperature; above 85 °C its refresh rate doubles, below 80 °C it returns to normal. -/
def execGddrTempReport (dev : Nat) (t : BitVec 8) (s : State) : Host.Outcome State Fault Refusal :=
  if 32 ≤ dev then .refused (.notEnabled "GDDR_TEMP_REPORT")
  else
    let bit : BitVec 32 := 1#32 <<< dev
    let s : State := { s with mgmt := { s.mgmt with
      gddrTemp := s.mgmt.gddrTemp.setIfInBounds dev t,
      gddrDouble := if 85 < t then s.mgmt.gddrDouble ||| bit else if t < 80 then s.mgmt.gddrDouble &&& ~~~bit else s.mgmt.gddrDouble } }
    .next (if 100 < t then s.tellThermal (dev / 8) dev else s)

/-- THERMAL_CAP_STEP (R368): the thermal cap of a quadrant falls a step while a junction exceeds HOTLIM, and rises a step once all are
below HOTLIM − 5 °C, up to the host's cap. -/
def execThermalCapStep (q : Nat) (js : List (BitVec 8)) (s : State) : Host.Outcome State Fault Refusal :=
  if !(s.quad q).joined || 16 ≤ q then .refused (.notEnabled "THERMAL_CAP_STEP")
  else
    let s := s.measure q js
    let x := s.quad q
    if x.hotlim < x.temp then
      let hot := ((js.zipIdx.find? fun (j, _) => j == x.temp).map (·.2)).getD 0
      let s := s.modQuad q fun x => { x with thermCap := if 4 < x.thermCap then x.thermCap - 1 else x.thermCap }
      .next ((s.tellThermal (q / 4) (q % 4 * 12 + hot)).rail q)
    else if x.temp.toNat + 5 < x.hotlim.toNat && x.thermCap < x.hostCap then
      .next ((s.modQuad q fun x => { x with thermCap := x.thermCap + 1 }).rail q)
    else .next s

/-! ## Bring-up (R370) -/

/-- QUADRANT_JOIN (R370): the next quadrant joins in reduced service, its junctions measured, its voltage calibration begun. -/
def execQuadrantJoin (q : Nat) (js : List (BitVec 8)) (s : State) : Host.Outcome State Fault Refusal :=
  if 16 ≤ q || !s.mgmt.booted || (s.quad q).joined || !(List.range q).all (fun i => (s.quad i).joined) then
    .refused (.notEnabled "QUADRANT_JOIN")
  else
    let s := (s.modQuad q fun x => { x with joined := true, calibrated := false, cur := 8, volt := 8, raising := none, falling := [] }).measure
      q js
    let (n, s) := s.freeNat
    let s := s.post (.reg q) (s.regNow q + n) (.quadrantCalibrated q)
    if q = 15 then .next s
    else
      let (next, s) := s.freeBytes 12
      .next (s.postNow (.quadrantJoin (q + 1) next))

namespace State

/-- FORCED set or cleared in contexts (R172): each core where EXACT has to follow takes it at its next quiesce point. -/
def setForced (s : State) (xs : List Nat) (b : Bool) : State :=
  let s := xs.foldl (fun (s : State) x => s.modCtx x fun y => { y with forced := b }) s
  ((List.range 768).filter s.quiescing).foldl (fun (s : State) c => s.postNow (.quiescePoint c)) s

/-- Whether every quadrant has left reduced service (R370). -/
def inService (s : State) : Bool := (List.range 16).all fun i => (s.quad i).calibrated

end State

/-- QUADRANT_CALIBRATED (R370, R362): the quadrant leaves reduced service; with the last one FORCED clears in every context. -/
def execQuadrantCalibrated (q : Nat) (s : State) : Host.Outcome State Fault Refusal :=
  if 16 ≤ q || !(s.quad q).joined || (s.quad q).calibrated then .refused (.notEnabled "QUADRANT_CALIBRATED")
  else
    let s := s.modQuad q fun x => { x with calibrated := true }
    .next ((if s.inService then s.setForced (List.range 16) false else s).rail q)

/-! ## Time -/

namespace State

/-- A cycle of a quadrant (R359, R361, R364): its counter, its cores' allowances, and the cores that have something to schedule; every
4,096 cycles a parked group returns and the power controller sets the GRANTs. -/
def quadCycle (s : State) (q : Nat) : State :=
  let t := s.clock (.quad q) + 1
  let s := s.modSch fun h => { h with quadClk := h.quadClk.setIfInBounds q t }
  let gain (k : Core) : Core := { k with allow := min 1048575 (k.allow + k.grant.toNat) }
  let s := (quadCores q).foldl (fun (s : State) c => s.modCore c gain) s
  let busy (c : Nat) : Bool :=
    ((s.core c).enabled && (s.core c).groups.toList.any (·.isSome)) || (s.stepOn c).isSome
  let s := s.modSch fun h => { h with todo := h.todo ++ (quadCores q).filter busy }
  if t % 4096 != 0 then s
  else
    let parked (c : Nat) : Bool := (s.core c).groups.toList.any fun g => g.any fun G => G.parked.isSome
    let s := ((quadCores q).filter parked).foldl (fun (s : State) c => s.postQ c t (.groupUnpark c)) s
    let (gs, s) := s.freeBytes 48
    s.post (.quad q) t (.grantUpdate q gs)

/-- A reference cycle of a die (R347, R366). -/
def refCycle (s : State) (d : Nat) : State :=
  let t := s.clock (.ref d) + 1
  let s := s.modSch fun h => { h with refClk := h.refClk.setIfInBounds d t }
  let s := if t % 2 ^ 24 = 0 then s.post (.ref d) t (.errorWindowExpiry d) else s
  if t % 2 ^ 20 != 0 then s
  else
    let (ts, s) := s.freeBytes 8
    (ts.zipIdx).foldl (fun (s : State) (x, i) => s.post (.ref d) t (.gddrTempReport (8 * d + i) x)) s

/-- A regulator cycle of a quadrant (R363, R368). -/
def regCycle (s : State) (q : Nat) : State :=
  let t := s.clock (.reg q) + 1
  let s := s.modSch fun h => { h with regClk := h.regClk.setIfInBounds q t }
  if t % 4096 != 0 || !(s.quad q).joined then s
  else
    let (js, s) := s.freeBytes 12
    s.post (.reg q) t (.thermalCapStep q js)

/-- The outside world's time advances: the host may set FORCED in a context, and clear it again once reduced service is over (R172). -/
def extCycle (s : State) (choice : Nat) : State :=
  let s := s.modSch fun h => { h with extClk := h.extClk + 1 }
  let n := choice % 33
  if n < 16 then s.setForced [n] true else if n < 32 && s.inService then s.setForced [n - 16] false else s

/-- Time passes in one clock domain, the implementation choosing which; a quadrant that has not joined does not count. -/
def tick (s : State) : State :=
  let n := Config.clockChoice s.sch.ticks % 37
  let f := Config.forcedChoice s.sch.ticks
  let s := s.modSch fun h => { h with ticks := h.ticks + 1 }
  if n < 16 then (if (s.quad n).joined then s.quadCycle n else s)
  else if n < 20 then s.refCycle (n - 16)
  else if n < 36 then s.regCycle (n - 20)
  else s.extCycle f

end State

end Sys2Proof.Machine
end

