-- ==== Sys2Proof/Machine/Host.lean ====
section
/-! DEFINITION. The host complex (chapter 17, R371 to R379, R386): the register window, fault records, the token and control commands, the
Sextant step, host accesses to memory, and PCI Express. -/

namespace Sys2Proof.Machine

open Sys2Proof

namespace State

/-- The context block's registers changed. -/
def modRegs (s : State) (ctx : Nat) (f : CtxRegs → CtxRegs) : State := s.modCtx ctx fun x => { x with regs := f x.regs }

/-! ## Fault records (R375) -/

/-- The base of a context's fault-record area. -/
def frBase (r : CtxRegs) : Nat := (r.frbaseh &&& 0x1FFFF).toNat * 2 ^ 32 + (r.frbase &&& 0xFFFFF000).toNat

/-- The records a context's area holds. -/
def frCap (r : CtxRegs) : Nat := 2 ^ ((r.frlog2n &&& 0xF).toNat + 4)

/-- Whether the area takes a record now. -/
def frOpen (r : CtxRegs) : Bool :=
  r.frbase.getLsbD 0 && (r.frtail - r.frhead).toNat < frCap r && inMap (frBase r) && inMap (frBase r + 32 * frCap r - 1)

/-- The waiting records of a context are written in the order they arose. -/
def writeRecords (s : State) (ctx : Nat) : State := (s.ctx ctx).records.foldl (fun s _ => s.postNow (.faultRecordWrite ctx)) s

end State

/-- FAULT_RECORD_WRITE (R375): the oldest waiting record goes into the ring, FRTAIL advances, and one MSI is sent. -/
def execFaultRecordWrite (ctx : Nat) (s : State) : Host.Outcome State Fault Refusal :=
  let x := s.ctx ctx
  let r := x.regs
  match x.records with
  | [] => .refused (.notEnabled "FAULT_RECORD_WRITE")
  | f :: rest =>
    if !State.frOpen r then .refused (.notEnabled "FAULT_RECORD_WRITE")
    else
      let a := State.frBase r + 32 * (r.frtail.toNat % State.frCap r)
      let s := s.homeWriteAt a (f.w.toList.flatMap fun w => leBytes 4 w.toNat)
      let s := s.modCtx ctx fun x => { x with records := rest, regs := { x.regs with frtail := x.regs.frtail + 1 } }
      let id := r.msidata &&& 0x7FF
      .next (if id = 0 then s else s.emit (.msi (r.msiaddrh ++ r.msiaddr) id))

/-- FAULT_RECORD_ENABLE (R375): a write of FRBASE and FREN; with FREN 1, waiting records are written. -/
def execFaultRecordEnable (ctx : Nat) (val : Word) (s : State) : Host.Outcome State Fault Refusal :=
  if ctx < 16 then .next ((s.modRegs ctx fun r => { r with frbase := val &&& 0xFFFFF001 }).writeRecords ctx)
  else .refused (.notEnabled "FAULT_RECORD_ENABLE")

/-! ## Reset and pre-emption (R327, R328) -/

/-- CONTEXT_RESET (R328). -/
def execContextReset (ctx : Nat) (s : State) : Host.Outcome State Fault Refusal :=
  if ctx < 16 then .next (s.resetCtx ctx) else .refused (.notEnabled "CONTEXT_RESET")

/-- R327: admission and crew starts stop, and each quadrant counts the deadline in its own cycles. A context without a resident crew is idle
at once. -/
def State.preempt (s : State) (ctx : Nat) : State :=
  if (s.ctx ctx).regs.preempt then s
  else
    let d := (s.ctx ctx).regs.deadline.toNat
    let ends := (List.range 16).map fun q => (q, s.clock (.quad q) + d)
    let s := s.modCtx ctx fun x => { x with regs := { x.regs with preempt := true, state := 2 }, deadlines := ends }
    let s := ends.foldl (fun (s : State) (q, t) => s.post (.quad q) t (.preemptDeadlineExpiry ctx q)) s
    s.settleIdle ctx

/-- PREEMPT_REQUEST (R327). -/
def execPreemptRequest (ctx : Nat) (s : State) : Host.Outcome State Fault Refusal :=
  if ctx < 16 then .next (s.preempt ctx) else .refused (.notEnabled "PREEMPT_REQUEST")

/-! ## Legs, invalidations and places -/

/-- QUEUE_LEG (R322, R372): a leg queued, its launcher the host holder of the hart that wrote QPTR2. -/
def execQueueLeg (ctx hart : Nat) (val : Word) (s : State) : Host.Outcome State Fault Refusal :=
  if 16 ≤ ctx || 16 ≤ hart then .refused (.notEnabled "QUEUE_LEG")
  else
    let r := (s.ctx ctx).regs
    let launcher := holderId 7 ctx hart
    let s := s.markWalks ctx (ptrOf r.qptr0 r.qptr1 val) 512
    match s.launchRecord ctx launcher (ptrOf r.qptr0 r.qptr1 val) with
    | none => .next s
    | some lr => .next ((s.pushLeg ctx (Leg.queued lr launcher 0 none none)).getD s)

/-- R343, R371: a TBINV of the block in IPTR, when k is from 12 to 62. -/
def State.hostTbinv (s : State) (ctx : Nat) (val : Word) : State :=
  let k := (val.extractLsb' 0 6).toNat
  let p := ptrOf ((s.ctx ctx).regs.iptr[0]) ((s.ctx ctx).regs.iptr[1]) ((s.ctx ctx).regs.iptr[2])
  if k < 12 || 62 < k then s
  else if Ptr.module p ≠ Config.thisModule then s.emit (.remote 0 0)
  else (s.modRegs ctx fun r => { r with ibusy := true }).startInv ctx (Ptr.local p) k none 0

/-- HOST_TBINV (R343). -/
def execHostTbinv (ctx : Nat) (val : Word) (s : State) : Host.Outcome State Fault Refusal :=
  if ctx < 16 then .next (s.hostTbinv ctx val) else .refused (.notEnabled "HOST_TBINV")

/-- R344: entry PLIDX stored when the table allows it; PLSTAT says whether it was. -/
def State.hostPlace (s : State) (ctx : Nat) (val : Word) : State :=
  match s.placeWrite ctx (s.ctx ctx).regs.plidx.toNat val with
  | some s => s.modRegs ctx fun r => { r with plval := val, plstat := true }
  | none => s.modRegs ctx fun r => { r with plval := val, plstat := false }

/-- PLACE_VALUE_WRITE (R344). -/
def execPlaceValueWrite (ctx : Nat) (val : Word) (s : State) : Host.Outcome State Fault Refusal :=
  if ctx < 16 then .next (s.hostPlace ctx val) else .refused (.notEnabled "PLACE_VALUE_WRITE")

/-! ## Token commands (R372) -/

namespace State

/-- A context with a FREE region divided so that a block of it stands alone: the rest stays FREE as the buddies of the block. -/
def divideFree (x : Ctx) (r : Region) (b k : Nat) (own : Region) : Ctx :=
  let buddy (j : Nat) : Region := ⟨(if b / 2 ^ j % 2 = 0 then b / 2 ^ j + 1 else b / 2 ^ j - 1) * 2 ^ j, j, .free, noHolder, noHolder, 0, none⟩
  { x with regions := x.regions.filter (fun q => q.base != r.base) ++ own :: ((List.range (r.k - k)).map fun i => buddy (k + i)) }

/-- R372, own: the block becomes one region OWNED by a host holder; none when a byte of it is held or the area is full. -/
def ownBlock (x : Ctx) (b k : Nat) (h : Word) : Option Ctx :=
  let own : Region := ⟨b, k, .owned, h, noHolder, 0, none⟩
  let meets (r : Region) : Bool := r.base < b + 2 ^ k && b < r.base + 2 ^ r.k
  let rs := x.regions.filter meets
  if !rs.all fun r => r.st == .free then none
  else
    let y := match rs.find? fun r => k < r.k with
      | some r => divideFree x r b k own
      | none => { x with regions := x.regions.filter (fun r => !meets r) ++ [own] }
    if y.regions.length ≤ y.capacity then some y else none

/-- The token commands: the context they leave, or none when they are refused. -/
inductive TokCmd where
  | own | release | home | unhome
  deriving DecidableEq, Repr

/-- What a token command of a host holder does to a context (R205, R206, R372). -/
def tokCmd (x : Ctx) (op : TokCmd) (b k : Nat) (h : Word) : Option Ctx :=
  let r? := (x.regionAt b).filter fun r => r.k == k
  let mine (r : Region) : Bool := r.st == .owned && r.owner == h && r.lender == noHolder && r.shares == 0
  match op with
  | .own => ownBlock x b k h
  | .release => r?.bind fun r => if mine r then some (x.setRegion { r with st := .free, owner := noHolder, hcore := none }) else none
  | .home => r?.bind fun r =>
    if r.st = .homed && r.owner = h then some x
    else if mine r then some (x.setRegion { r with st := .homed, hcore := none }) else none
  | .unhome => r?.bind fun r =>
    if r.st = .homed && r.owner = h then some (x.setRegion { r with st := .owned, hcore := none }) else none

/-- A token command of a hart (R372): TK is stored, and TFAIL says whether the command was refused. -/
def hostToken (s : State) (ctx hart : Nat) (op : TokCmd) (val : Word) : State :=
  let s := s.modRegs ctx fun r => { r with tk := val.extractLsb' 8 6 }
  let r := (s.ctx ctx).regs
  let p := ptrOf r.tptr[0] r.tptr[1] r.tptr[2]
  let k := r.tk.toNat
  let b := Ptr.local p / 2 ^ k * 2 ^ k
  let done (s : State) (fail : Bool) : State := s.modRegs ctx fun r => { r with tbusy := false, tfail := fail }
  if Ptr.space p != 0 || Ptr.rank p != 0 || k < 12 || 32 < k then done s true
  else if Ptr.module p ≠ Config.thisModule then
    let (n, s) := s.freeNat
    done (s.emit (.remote 0 0)) (n % 2 == 1)
  else match tokCmd (s.ctx ctx) op b k (holderId 7 ctx hart) with
    | none => done s true
    | some x => (done (s.modCtx ctx fun _ => x) false).wakeRegions

end State

/-- TOKEN_OWN (R372). -/
def execTokenOwn (ctx hart : Nat) (val : Word) (s : State) : Host.Outcome State Fault Refusal :=
  if ctx < 16 && hart < 16 then .next (s.hostToken ctx hart .own val) else .refused (.notEnabled "TOKEN_OWN")

/-- TOKEN_RELEASE (R372). -/
def execTokenRelease (ctx hart : Nat) (val : Word) (s : State) : Host.Outcome State Fault Refusal :=
  if ctx < 16 && hart < 16 then .next (s.hostToken ctx hart .release val) else .refused (.notEnabled "TOKEN_RELEASE")

/-- TOKEN_HOME (R372). -/
def execTokenHome (ctx hart : Nat) (val : Word) (s : State) : Host.Outcome State Fault Refusal :=
  if ctx < 16 && hart < 16 then .next (s.hostToken ctx hart .home val) else .refused (.notEnabled "TOKEN_HOME")

/-- TOKEN_UNHOME (R372). -/
def execTokenUnhome (ctx hart : Nat) (val : Word) (s : State) : Host.Outcome State Fault Refusal :=
  if ctx < 16 && hart < 16 then .next (s.hostToken ctx hart .unhome val) else .refused (.notEnabled "TOKEN_UNHOME")

/-! ## The Sextant step (R114) -/

namespace State

/-- The split that a step names, and SPLSEED as it leaves it: the run's own inside an open run; else a ready split that is named, or the one
that R109 would pick. Of a step that names a live split other than the one whose run is open the spec does not say what it does: it issues
nothing (assumption 124). -/
def stepSplit (G : Group) (spl : BitVec 3) (now : Nat) : Option (Fin 4 × BitVec 16) :=
  let named (i : Fin 4) : Bool := spl == 7 || spl.toNat == i.val
  match G.cur with
  | some i => if named i then some (i, G.spec.splseed) else none
  | none =>
    if spl = 7 then G.candidate now
    else ((G.ready now).find? named).map fun i => (i, G.spec.splseed)

/-- A step asked for: it goes under way, or reports that it issues nothing; so does one for a core on which a step is under way. The spec does
not say what a step on a stalled core does, nor when a default step clocks the LFSR if its split cannot issue yet: the first reports at once
that it issues nothing, and the second clocks it at the request (assumption 124). -/
def hostStep (s : State) (ctx : Nat) (val : Word) : State :=
  let n := val.extractLsb' 16 16
  let g := (val.extractLsb' 8 5).toNat
  let spl := val.extractLsb' 0 3
  let s := s.modRegs ctx fun r => { r with dscore := n, dsgrp := val.extractLsb' 8 5, dsspl := spl }
  let no (s : State) : State := s.emit (.stepReport false)
  match (s.ctx ctx).physical n.toNat with
  | none => no s
  | some c => match s.group? c g with
    | none => no s
    | some G =>
      if G.ctx != ctx || (s.stepOn c).isSome || !(s.core c).enabled || (s.core c).stalled.isSome then no s
      else match stepSplit G spl (s.now c) with
        | none => no s
        | some (i, seed) =>
          let s := s.modGroup c g fun G => { G with spec := { G.spec with splseed := seed } }
          s.setStep c (some (⟨c, g, i⟩, none))

end State

/-- DEBUG_STEP (R114). -/
def execDebugStep (ctx : Nat) (val : Word) (s : State) : Host.Outcome State Fault Refusal :=
  if ctx < 16 then .next (s.hostStep ctx val) else .refused (.notEnabled "DEBUG_STEP")

/-! ## Control commands (R373) -/

namespace State

/-- A control command that took effect at once, or was refused. -/
def cmdDone (s : State) (ctx : Nat) (fail : Bool) : State := s.modRegs ctx fun r => { r with cbusy := false, cfail := fail }

/-- The control target's physical core and slot. -/
def cmdTarget (s : State) (ctx : Nat) : Option (Nat × Nat) :=
  let r := (s.ctx ctx).regs
  ((s.ctx ctx).physical r.ctlcore.toNat).map fun c => (c, r.ctlslot.toNat)

/-- Whether a record of a kind that reports a core, or a group slot of it, still waits to be written (R375). -/
def recordWaits (s : State) (ctx c : Nat) (kind : BitVec 3) (slot : Option Nat) : Bool :=
  let mine (r : FRec) : Bool :=
    r.w[7].extractLsb' 29 3 == kind && r.w[2].extractLsb' 16 16 == s.coreNo ctx c &&
      slot.all fun g => (r.w[2].extractLsb' 8 6).toNat == g
  (s.ctx ctx).records.any mine

/-- Command 1: a stopped group goes on; what a late stop logged issues again, unless its core is stalled (R112, R144). It stays
stopped while the record that reports it waits (R375). -/
def resumeGroupCmd (s : State) (ctx : Nat) : State :=
  match s.cmdTarget ctx with
  | none => s.cmdDone ctx true
  | some (c, g) => match s.group? c g with
    | none => s.cmdDone ctx true
    | some G =>
      if G.ctx != ctx || !G.stopped || s.recordWaits ctx c 0 (some g) then s.cmdDone ctx true
      else
        let s := s.resumeStop c g
        let s := if (s.core c).stalled.isSome then s else s.reask c fun o => o.slot == g
        s.cmdDone ctx false

/-- Command 2: a core stalled for its context reissues every logged access and resumes issue. Stalled for another context too it stays so until
that one's entries are serviced as well, and the accesses issue again only then (R145). -/
def resumeCoreCmd (s : State) (ctx : Nat) : State :=
  match s.cmdTarget ctx with
  | none => s.cmdDone ctx true
  | some (c, _) =>
    let k := s.core c
    let mine (g : Nat) : Bool := (s.group? c g).any fun G => G.ctx == ctx
    if k.stalled.isNone || !k.stallers.any mine || s.recordWaits ctx c 1 none then s.cmdDone ctx true
    else
      ((s.modCore c fun k => { k with stallers := k.stallers.filter fun g => !mine g }).stallOver c).cmdDone ctx false

/-- Command 3: a paused engine operation goes on at its faulting page (R280). -/
def resumeEngineCmd (s : State) (ctx : Nat) : State :=
  match s.cmdTarget ctx with
  | none => s.cmdDone ctx true
  | some (c, e) => match ((s.core c).eng[e]?).join with
    | none => s.cmdDone ctx true
    | some x =>
      if x.ctx != ctx || x.paused.isNone then s.cmdDone ctx true
      else
        let s := s.modCore c fun k => { k with eng := k.eng.setIfInBounds e (some { x with paused := none }) }
        (s.postQ c (s.now c) (.engineOpComplete c e)).cmdDone ctx false

/-- Command 4: a resident crew commits and comes to rest for its save (R329, R353). -/
def suspendCmd (s : State) (ctx : Nat) : State :=
  let id := ((s.ctx ctx).regs.ctlarg.extractLsb' 0 20).toNat
  match s.crew? ctx id with
  | none => s.cmdDone ctx true
  | some k =>
    if k.st != .resident || (s.core k.core).stalled.isSome || (s.freeSave ctx).isNone then s.cmdDone ctx true
    else
      let s := (s.commit ctx id 6).modCrew ctx id fun k => { k with st := .suspending }
      let s := s.modRegs ctx fun r => { r with cbusy := true, cfail := false }
      s.postQ k.core (s.now k.core + 1) (.crewSave ctx id)

/-- Command 5: a saved crew comes back (R332). -/
def restoreCmd (s : State) (ctx : Nat) : State :=
  match s.restoreCrew ctx (s.ctx ctx).regs.ctlarg.toNat with
  | none => s.cmdDone ctx true
  | some s => s.cmdDone ctx false

/-- A control command starts, unless one runs. -/
def command (s : State) (ctx : Nat) (f : State → State) : State := if (s.ctx ctx).regs.cbusy then s else f s

end State

/-- RESUME_GROUP (R373). -/
def execResumeGroup (ctx : Nat) (s : State) : Host.Outcome State Fault Refusal :=
  if ctx < 16 then .next (s.command ctx fun s => s.resumeGroupCmd ctx) else .refused (.notEnabled "RESUME_GROUP")

/-- RESUME_CORE (R373). -/
def execResumeCore (ctx : Nat) (s : State) : Host.Outcome State Fault Refusal :=
  if ctx < 16 then .next (s.command ctx fun s => s.resumeCoreCmd ctx) else .refused (.notEnabled "RESUME_CORE")

/-- RESUME_ENGINE (R373). -/
def execResumeEngine (ctx : Nat) (s : State) : Host.Outcome State Fault Refusal :=
  if ctx < 16 then .next (s.command ctx fun s => s.resumeEngineCmd ctx) else .refused (.notEnabled "RESUME_ENGINE")

/-- SUSPEND_CREW (R373). -/
def execSuspendCrew (ctx : Nat) (s : State) : Host.Outcome State Fault Refusal :=
  if ctx < 16 then .next (s.command ctx fun s => s.suspendCmd ctx) else .refused (.notEnabled "SUSPEND_CREW")

/-- RESTORE_CREW (R332). -/
def execRestoreCrew (ctx : Nat) (s : State) : Host.Outcome State Fault Refusal :=
  if ctx < 16 then .next (s.command ctx fun s => s.restoreCmd ctx) else .refused (.notEnabled "RESTORE_CREW")

/-! ## The register window (R371, R378, R386) -/

/-- A context block after a write to one of its plain fields. -/
def CtxRegs.put (r : CtxRegs) (off : Nat) (v : Word) : CtxRegs :=
  match off with
  | 0x000 => { r with system := v.getLsbD 3, en := if r.state = 0 then v.getLsbD 0 else r.en }
  | 0x008 => { r with ptroot := v &&& 0xFFFFC000 }
  | 0x00C => { r with ptrooth := v &&& 0x1FFFF }
  | 0x010 => { r with tokbase := v &&& 0xFFFFF000 }
  | 0x014 => { r with tokbaseh := v &&& 0x1FFFF }
  | 0x018 => { r with toksz := v &&& 0x1F }
  | 0x020 => { r with savebase := v &&& 0xFFFFF000 }
  | 0x024 => { r with savebaseh := v &&& 0x1FFFF }
  | 0x028 => { r with frbase := v &&& 0xFFFFF001 }
  | 0x02C => { r with frbaseh := v &&& 0x1FFFF }
  | 0x030 => { r with frlog2n := v &&& 0xF }
  | 0x038 => { r with frhead := v }
  | 0x040 => { r with msiaddr := v }
  | 0x044 => { r with msiaddrh := v }
  | 0x048 => { r with msidata := v &&& 0x7FF }
  | 0x050 => { r with deadline := v }
  | 0x058 => { r with qptr0 := v }
  | 0x05C => { r with qptr1 := v }
  | 0x068 => { r with iptr := r.iptr.set 0 v }
  | 0x06C => { r with iptr := r.iptr.set 1 v }
  | 0x070 => { r with iptr := r.iptr.set 2 v }
  | 0x078 => { r with plidx := v }
  | 0x084 => { r with tptr := r.tptr.set 0 v }
  | 0x088 => { r with tptr := r.tptr.set 1 v }
  | 0x08C => { r with tptr := r.tptr.set 2 v }
  | 0x090 => { r with tk := v.extractLsb' 8 6 }
  | 0x098 => { r with ctlcore := v.extractLsb' 16 16, ctlslot := v.extractLsb' 0 6 }
  | 0x09C => { r with ctlarg := v &&& 0xFFFFF }
  | 0x0A4 => { r with savelog2n := v &&& 0xF }
  | _ => r

namespace State

/-- A context block as a host reads it. -/
def readBlock (x : Ctx) (off : Nat) : Word :=
  let r := x.regs
  match off with
  | 0x000 => BitVec.ofNat 32 (r.state.toNat * 16 + (if r.system then 8 else 0) + (if r.preempt then 2 else 0) + if r.en then 1 else 0)
  | 0x008 => r.ptroot
  | 0x00C => r.ptrooth
  | 0x010 => r.tokbase
  | 0x014 => r.tokbaseh
  | 0x018 => r.toksz
  | 0x020 => r.savebase
  | 0x024 => r.savebaseh
  | 0x028 => r.frbase
  | 0x02C => r.frbaseh
  | 0x030 => r.frlog2n
  | 0x034 => r.frtail
  | 0x038 => r.frhead
  | 0x040 => r.msiaddr
  | 0x044 => r.msiaddrh
  | 0x048 => r.msidata
  | 0x050 => r.deadline
  | 0x064 => BitVec.ofNat 32 (256 - x.queue.length)
  | 0x074 => if r.ibusy then 0x80000000 else 0
  | 0x078 => r.plidx
  | 0x07C => r.plval
  | 0x080 => if r.plstat then 1 else 0
  | 0x090 => (if r.tbusy then 0x80000000 else 0) ||| (if r.tfail then 0x40000000 else 0) ||| BitVec.ofNat 32 (r.tk.toNat * 256)
  | 0x094 => r.dscore ++ 0#3 ++ r.dsgrp ++ 0#5 ++ r.dsspl
  | 0x098 => r.ctlcore ++ 0#10 ++ r.ctlslot
  | 0x09C => r.ctlarg
  | 0x0A0 => (if r.cbusy then 0x80000000 else 0) ||| (if r.cfail then 0x40000000 else 0)
  | 0x0A4 => r.savelog2n
  | _ => 0

/-- A word of the window as a hart reads it with an aligned 32-bit access (R371, R378, R386). -/
def readWindow (s : State) (off : Nat) : Word :=
  if off % 4 != 0 then 0
  else if off < 0x400 then s.inbound[off / 4]?.getD 0
  else if off < 0x460 then maskOf 32 fun i => (s.core ((off - 0x400) / 4 * 32 + i)).enabled
  else if 0x10000 ≤ off && off < 0x20000 then readBlock (s.ctx ((off - 0x10000) / 0x1000)) (off % 0x1000)
  else 0

/-- A write of a context block: the plain fields, and what a write of some of them starts. -/
def writeBlock (s : State) (ctx off : Nat) (v : Word) : State :=
  let s := s.modRegs ctx fun r => r.put off v
  match off with
  | 0x000 =>
    let s := if v.getLsbD 2 then s.resetCtx ctx else s
    let s := if v.getLsbD 1 then s.preempt ctx else s
    s.postNow (.legAdmission ctx)
  | 0x028 | 0x02C | 0x030 | 0x038 => s.writeRecords ctx
  | 0x074 => s.hostTbinv ctx v
  | 0x07C => s.hostPlace ctx v
  | 0x094 => s.hostStep ctx v
  | 0x0A0 => match (v.extractLsb' 0 4).toNat with
    | 1 => s.command ctx fun s => s.resumeGroupCmd ctx
    | 2 => s.command ctx fun s => s.resumeCoreCmd ctx
    | 3 => s.command ctx fun s => s.resumeEngineCmd ctx
    | 4 => s.command ctx fun s => s.suspendCmd ctx
    | 5 => s.command ctx fun s => s.restoreCmd ctx
    | _ => s
  | _ => s

end State

/-- REGISTER_WRITE (R371): a host's aligned 32-bit write to the window; other offsets ignore it. QPTR2 and TOP, whose effects depend on the
hart, have steps of their own. -/
def execRegisterWrite (off : Nat) (val : Word) (s : State) : Host.Outcome State Fault Refusal :=
  if off % 4 != 0 then .next s
  else if off < 0x400 then .next { s with inbound := s.inbound.setIfInBounds (off / 4) (val &&& 0x801FFFFF) }
  else if 0x10000 ≤ off && off < 0x20000 then .next (s.writeBlock ((off - 0x10000) / 0x1000) (off % 0x1000) val)
  else .next s

/-! ## Host accesses to memory (R141, R371, R374) -/

/-- A poisoned table after host stores: it stays poisoned until every byte of it has been written. -/
def PoisonT.heal (p : PoisonT) (as : List Nat) : PoisonT :=
  { p with fresh := (as.filter fun a => p.base ≤ a && a < p.base + p.size && !p.fresh.contains a) ++ p.fresh }

/-- Whether a table has bytes that no store has reached since its poison was set. -/
def PoisonT.stale (p : PoisonT) : Bool := (List.range p.size).any fun i => !p.fresh.contains (p.base + i)

/-- A host's store of bytes at home. A poisoned table whose every byte host stores have written is whole again, its uncorrectable lines with
it (R141). -/
def State.hostStore (s : State) (pa : Nat) (bs : List Byte) : State :=
  let s := s.homeWriteAt pa bs
  let ps := s.poisoned.map fun p => p.heal ((List.range bs.length).map fun i => pa + i)
  let healed := ps.filter fun p => !p.stale
  { s with
    poisoned := ps.filter PoisonT.stale,
    ueLines := if healed.isEmpty then s.ueLines else s.ueLines.filter fun l => !healed.any fun p => p.base ≤ 128 * l && 128 * l < p.base + p.size }

/-- HOST_MEMORY_ACCESS (R371): a hart's access, performed at home without translation. -/
def execHostMemoryAccess (hart pa : Nat) (wr : Option (List Byte)) (len : Nat) (s : State) : Host.Outcome State Fault Refusal :=
  let n := match wr with
    | some bs => bs.length
    | none => len
  if n = 0 || !inMap pa || !inMap (pa + n - 1) then .refused (.notEnabled "HOST_MEMORY_ACCESS")
  else match wr with
    | some bs => .next (s.hostStore pa bs)
    | none =>
      if (List.range n).any fun i => s.ueAt (pa + i) then .next (s.emit (.hostRead hart []))
      else .next (s.emit (.hostRead hart (s.mem.readBytes pa n)))

/-! ## PCI Express (R376 to R379) -/

/-- A Requester ID as an inbound entry holds it. -/
def Tlp.requester (x : Tlp) : BitVec 16 := x.bus ++ x.dev ++ x.func

namespace State

/-- The context slot an inbound request maps to: the lowest-numbered entry that matches decides (R378). -/
def inboundSlot (s : State) (x : Tlp) : Option Nat :=
  (s.inbound.toList.find? fun e =>
    e.getLsbD 31 && e.getLsbD 20 == (x.port == 1) && e.extractLsb' 0 16 == Tlp.requester x).map fun e => (e.extractLsb' 16 4).toNat

/-- A byte of an inbound request: its physical address, or none when its page or the rights of host holder 0 refuse it, a page marked H
among them (R137); `true` when it must wait. -/
def inboundByte (s : State) (ctx a : Nat) (store : Bool) : Option Nat × Bool :=
  match s.walk ctx a with
  | .fault .. => (none, false)
  | .ok e =>
    if e.h then (none, false)
    else if !e.w then (if store then none else some (e.phys a), false)
    else match (s.ctx ctx).region? a with
      | none => (none, false)
      | some r =>
        let h := holderId 7 ctx 0
        let pin := (s.ctx ctx).shares.any fun y => y.base == r.base && y.holder == h
        match rightsOf r.st (r.owner == h) pin store with
        | .cache | .home _ => (some (e.phys a), false)
        | .stall => (none, true)
        | .fault _ => (none, false)

/-- The home die of an inbound request (R9). -/
def inboundDie (s : State) (ctx a : Nat) : Nat :=
  match s.walk ctx a with
  | .ok e => homeDie (e.phys a)
  | .fault .. => 0

/-- The clock that the costs of inbound traffic for a die are counted in: that of quadrant 0 of the die it enters by, die 0 or die 2 (R9,
R379, Table 3). -/
def ingress (s : State) (die : Nat) : Clk :=
  let q := if die < 2 then 0 else 8
  if (s.quad q).joined then .quad q else .ext

/-- Bytes written where an inbound write's translation leads, or none when the rights refuse it. -/
def inboundWrite (s : State) (ctx a : Nat) (bs : List Byte) : Option State :=
  let xs := bs.zipIdx.map fun (b, i) => ((s.inboundByte ctx (a + i) true).1, b)
  if xs.all fun x => x.1.isSome then some (s.homeWrite (xs.map fun x => (x.1.getD 0, x.2))) else none

/-- Whether some byte of an inbound access must wait: its region is LENT (R187). -/
def inboundWaits (s : State) (ctx a n : Nat) (store : Bool) : Bool := (List.range n).any fun i => (s.inboundByte ctx (a + i) store).2

/-- The walks of an inbound access, an uncorrectable table entry among them (R141). -/
def inboundWalks (s : State) (ctx a n : Nat) : State := s.markWalks ctx (BitVec.ofNat 96 (Config.thisModule * 2 ^ 62 + a % 2 ^ 62)) n

end State

/-- INBOUND_REQUEST (R377, R379): a request is mapped and performed at home, or refused with an AER record; one that names what lies below the
other root port goes to the host complex, which routes it (R376). A posted write becomes visible later; a read waits for the earlier posted
writes of its requester. A request that waits goes on under the entry that admitted it (R378). -/
def execInboundRequest (x : Tlp) (s : State) : Host.Outcome State Fault Refusal :=
  if x.peer then .next (s.emit (.peer x))
  else match x.admitted.map (·.1) <|> s.inboundSlot x with
  | none => .next (match x.wr with
    | some _ => s.emit (.aer x.port)
    | none => (s.emit (.completion x.port none)).emit (.aer x.port))
  | some ctx =>
    let die := s.inboundDie ctx x.addr
    let k := s.ingress die
    match x.wr with
    | some bs =>
      let s := s.inboundWalks ctx x.addr bs.length
      let ps := (List.range bs.length).map fun i => s.inboundByte ctx (x.addr + i) true
      if !ps.all fun p => p.1.isSome || p.2 then .next (s.emit (.aer x.port))
      else
        let (id, s) := s.fresh
        let (d, s) := s.latency (80 + if die % 2 = 1 then 120 else 0)
        let s : State := { s with posted := s.posted ++ [⟨id, x.port, Tlp.requester x, ctx, x.addr, x.relaxed, bs⟩] }
        .next (s.post k (s.clock k + d) (.postedWriteRelease id))
    | none =>
      let s := s.inboundWalks ctx x.addr x.len
      let ps := (List.range x.len).map fun i => s.inboundByte ctx (x.addr + i) false
      let (id, t) := match x.admitted with
        | some a => (a.2, s)
        | none => s.fresh
      if s.posted.any (fun p => p.req == Tlp.requester x && p.id < id) || ps.any (·.2) then
        .next (t.post k (t.clock k + 1) (.inboundRequest { x with admitted := some (ctx, id) }))
      else if !ps.all (fun p => p.1.isSome) || ps.any (fun p => s.ueAt (p.1.getD 0)) then
        .next ((s.emit (.completion x.port none)).emit (.aer x.port))
      else .next (s.emit (.completion x.port (some (ps.map fun p => s.mem.read (p.1.getD 0)))))

/-- POSTED_WRITE_RELEASE (R379): a posted write becomes visible at its home once every earlier one of its requester is, unless it is
relaxed; one that finds its region LENT waits (R187), and is still to be performed meanwhile. -/
def execPostedWriteRelease (id : Nat) (s : State) : Host.Outcome State Fault Refusal :=
  match s.posted.find? fun p => p.id == id with
  | none => .refused (.notEnabled "POSTED_WRITE_RELEASE")
  | some p =>
    let k := s.ingress (s.inboundDie p.ctx p.addr)
    let earlier := s.posted.takeWhile fun q => q.id != id
    let s := s.inboundWalks p.ctx p.addr p.data.length
    if (!p.relaxed && earlier.any fun q => q.req == p.req) || s.inboundWaits p.ctx p.addr p.data.length true then
      .next (s.post k (s.clock k + 1) (.postedWriteRelease id))
    else
      let s : State := { s with posted := s.posted.filter fun q => q.id != id }
      .next ((s.inboundWrite p.ctx p.addr p.data).getD (s.emit (.aer p.port)))

/-- PCIE_LINK_TRAINING (R376): a root port's link comes up at a rate and a width of the standard, or goes down; an error is reported through
AER. Rates are in tenths of a GT/s. A port whose link is up runs in flit mode (assumption 133). -/
def execPcieLinkTraining (port : Fin 2) (up : Bool) (rate lanes : Nat) (err : Bool) (s : State) : Host.Outcome State Fault Refusal :=
  if up && !([25, 50, 80, 160, 320, 640, 1280].contains rate && [1, 2, 4, 8, 16].contains lanes) then
    .refused (.notEnabled "PCIE_LINK_TRAINING")
  else
    let s : State := { s with pcie := s.pcie.set port (if up then ⟨true, true, rate, lanes⟩ else ⟨false, false, 0, 0⟩) }
    .next (if err then s.emit (.aer port) else s)

end Sys2Proof.Machine
end

