-- ==== Sys2Proof/Machine/Mgmt.lean ====
section
/-! DEFINITION. Boot, attestation and the management port (R380 to R384). -/

namespace Sys2Proof.Machine

open Sys2Proof

namespace State

/-- The management controller changed. -/
def modMgmt (s : State) (f : Mgmt → Mgmt) : State := { s with mgmt := f s.mgmt }

/-! ## Boot (R380) -/

/-- The boot chain from a stage on: each stage verified is measured and runs the next, and the module has booted once the last one runs; a
stage that is refused ends it, and a flash without an image boots nothing. -/
def bootChain (m : Mgmt) : List Image → Mgmt
  | [] => m
  | i :: is =>
    if Config.xmssAccepts i.bytes i.sig i.leaf && m.counter < i.leaf then
      bootChain { m with log := m.log ++ [Config.shake256 i.bytes], booted := is.isEmpty } is
    else m

/-- The compute quadrants begin to join (R370). -/
def joinAll (s : State) : State :=
  let (js, s) := s.freeBytes 12
  s.postNow (.quadrantJoin 0 js)

end State

/-- POWER_UP (R380, R370): the chain of signed stages in the flash runs, and after its last stage the compute quadrants begin to join. How the
flash is written other than by an update the spec does not say: `stages`, where there are any, is what has been put there since the module was
last up (assumption 134). -/
def execPowerUp (stages : List Image) (s : State) : Host.Outcome State Fault Refusal :=
  if s.mgmt.booted then .refused (.notEnabled "POWER_UP")
  else
    let s := s.modMgmt fun m =>
      let flash := if stages.isEmpty then m.flash else stages
      State.bootChain { m with flash := flash, log := [] } flash
    .next (if s.mgmt.booted then s.joinAll else s)

/-! ## Datagrams (R383) -/

/-- The header of a message and its payload as its tag covers them (Table 5). -/
def messageBytes (ver op : BitVec 8) (seq : BitVec 64) (status : BitVec 8) (len : Nat) (payload : List Byte) : List Byte :=
  [ver, op] ++ leBytes 2 len ++ leBytes 8 seq.toNat ++ [status, 0, 0, 0] ++ payload

/-- Whether the controller accepts a datagram. -/
def Mgmt.accepts (m : Mgmt) (x : Dgram) : Bool :=
  x.ver == 1 && x.len.toNat == x.payload.length && x.payload.length ≤ 1424 &&
    (match m.lastSeq with
      | none => true
      | some n => n < x.seq) &&
    x.tag == Config.kmac256 m.key (messageBytes x.ver x.op x.seq x.status x.payload.length x.payload)

namespace State

/-- The reply to a request. -/
def reply (s : State) (x : Dgram) (status : BitVec 8) (payload : List Byte) : State :=
  let op := x.op ||| 0x80
  s.emit (.mgmtReply op x.seq status payload
    (Config.kmac256 s.mgmt.key (messageBytes 1 op x.seq status payload.length payload)))

/-- The UDP port of management messages (R382). -/
def mgmtPort : BitVec 16 := 5170

/-- Whether a packet to an address is for the port, which has one (R382). -/
def isOurs (s : State) (ip : BitVec 32) : Bool := ip == s.mgmt.ip && ip != 0

/-- The request at the head of the port's frames, when its OP satisfies a test: a datagram to the port's address and UDP port 5,170. -/
def request (s : State) (f : BitVec 8 → Bool) : Option Dgram :=
  match s.mgmt.inbox with
  | .dgram x :: _ => if f x.op && s.mgmt.linkUp && s.isOurs x.dst && x.udp == mgmtPort then some x else none
  | _ => none

/-- The frame at the head taken. -/
def takeFrame (s : State) : State := s.modMgmt fun m => { m with inbox := m.inbox.drop 1 }

/-- A request handled: one that is not accepted is dropped without a reply; else its work gives a status and a payload. -/
def serve (s : State) (x : Dgram) (work : State → BitVec 8 × List Byte × State) : State :=
  let t := s.takeFrame
  if !s.mgmt.accepts x then t
  else
    let (st, p, t) := work (t.modMgmt fun m => { m with lastSeq := some x.seq })
    t.reply x st p

/-- A request that its OP names, handled. -/
def manage (s : State) (name : String) (f : BitVec 8 → Bool) (work : Dgram → State → BitVec 8 × List Byte × State) :
    Host.Outcome State Fault Refusal :=
  match s.request f with
  | none => .refused (.notEnabled name)
  | some x => .next (s.serve x (work x))

/-- A request with a bad payload changes nothing. -/
def badPayload (s : State) : BitVec 8 × List Byte × State := (3, [], s)

/-- The quadrants of a mask. -/
def maskQuads (p : List Byte) : List Nat := bitsOf (BitVec.ofNat 16 (leNat (p.take 2)))

end State

/-! ## Requests (R384, Table 6) -/

/-- MGMT_READ_TEMPERATURES. -/
def execMgmtReadTemperatures (s : State) : Host.Outcome State Fault Refusal :=
  s.manage "MGMT_READ_TEMPERATURES" (· == 0x01) fun x s =>
    if !x.payload.isEmpty then s.badPayload
    else
      let quads := s.quads.toList.flatMap fun q => [q.temp, q.hotlim] ++ leBytes 2 q.cool.toNat
      (0, quads ++ s.mgmt.gddrTemp.toList, s)

/-- An event record (Table 7). -/
def EvRec.bytes (e : EvRec) (index : Nat) : List Byte :=
  leBytes 4 index ++ [e.unit, e.die] ++ leBytes 2 e.number.toNat ++ [e.cls, e.count, 0, 0] ++ leBytes 4 e.window.toNat

/-- MGMT_READ_EVENTS. -/
def execMgmtReadEvents (s : State) : Host.Outcome State Fault Refusal :=
  s.manage "MGMT_READ_EVENTS" (· == 0x02) fun x s =>
    if x.payload.length != 4 then s.badPayload
    else
      let es := s.rel.events.zipIdx.map fun (e, i) => (s.rel.dropped + i, e)
      let es := (es.filter fun e => leNat x.payload ≤ e.1).take 64
      (0, es.flatMap fun e => e.2.bytes e.1, s)

/-- MGMT_SET_STEP_CAP. -/
def execMgmtSetStepCap (s : State) : Host.Outcome State Fault Refusal :=
  s.manage "MGMT_SET_STEP_CAP" (· == 0x03) fun x s =>
    let cap := ((x.payload[2]?).getD 0).toNat
    if x.payload.length != 3 || cap < 4 || 19 < cap then s.badPayload
    else (0, [], (State.maskQuads x.payload).foldl (fun (s : State) q => (s.modQuad q fun y => { y with hostCap := BitVec.ofNat 5 cap }).rail q) s)

/-- MGMT_SET_HOTLIM. -/
def execMgmtSetHotlim (s : State) : Host.Outcome State Fault Refusal :=
  s.manage "MGMT_SET_HOTLIM" (· == 0x04) fun x s =>
    let t := (x.payload[2]?).getD 0
    if x.payload.length != 3 || t.toNat < 60 || 105 < t.toNat then s.badPayload
    else (0, [], (State.maskQuads x.payload).foldl (fun (s : State) q => s.modQuad q fun y => { y with hotlim := t, cool := coolOf y.heat t }) s)

/-- A core after a module reset: what was lost or fenced in service stays so (R347, R386). -/
def Core.afterReset (k : Core) : Core :=
  { Core.reset with enabled := k.enabled, lmap := k.lmap &&& ~~~k.lanePend,
                    mx := { Matrix.reset with fenced := k.mx.fenced ||| k.mx.stripPend } }

/-- A module reset (R384): the compute dies and the host complex start anew, and with `cold` the GDDR7 memory too. The management controller
goes on, without its staged firmware and its quotes. A cold reset boots from the flash again; after a warm one the stages that have booted
run on, and the quadrants join again (assumption 134). -/
def State.moduleReset (s : State) (cold : Bool) : State :=
  let floor (a : Nat) : Bool := a / 2 ^ 48 == 1
  let t : State := { State.reset with
    cores := s.cores.map Core.afterReset, mem := if cold then [] else s.mem.filter fun x => !floor x.1,
    ueLines := if cold then [] else s.ueLines.filter fun l => !floor (128 * l), slices := s.slices,
    rel := { State.reset.rel with lasting := s.rel.lasting },
    sch := { Sched.reset with inputs := s.sch.inputs, outputs := s.sch.outputs, ids := s.sch.ids, free := s.sch.free, ticks := s.sch.ticks,
                              extClk := s.sch.extClk },
    mgmt := { s.mgmt with booted := s.mgmt.booted && !cold, staged := [], stagedLen := 0, log := if cold then [] else s.mgmt.log, quoted := [] } }
  if cold then t.postNow (.powerUp []) else if s.mgmt.booted then t.joinAll else t

/-- MGMT_RESET_MODULE: the reply is sent before the reset. -/
def execMgmtResetModule (s : State) : Host.Outcome State Fault Refusal :=
  match s.request (· == 0x05) with
  | none => .refused (.notEnabled "MGMT_RESET_MODULE")
  | some x =>
    let ok := x.payload.length == 1 && x.payload.all (· ≤ 1)
    let t := s.serve x fun s => (if ok then 0 else 3, [], s)
    .next (if ok && s.mgmt.accepts x then t.moduleReset (x.payload == [1]) else t)

/-- Bytes of the staging buffer. -/
def stageBytes : Nat := 67108864

/-- MGMT_FIRMWARE_CHUNK: a piece of an image staged. -/
def execMgmtFirmwareChunk (s : State) : Host.Outcome State Fault Refusal :=
  s.manage "MGMT_FIRMWARE_CHUNK" (· == 0x06) fun x s =>
    let o := leNat (x.payload.take 4)
    let bs := x.payload.drop 4
    if x.payload.length < 4 || 1416 < bs.length || stageBytes < o + bs.length then s.badPayload
    else (0, [], s.modMgmt fun m =>
      { m with staged := m.staged.writeBytes o bs, stagedLen := max m.stagedLen (o + bs.length) })

/-- The counter after an update (R380): the rule does not say how far it is raised. It rises above its old value and stays below the leaf of the
image, which the ROM would refuse otherwise; where no number lies between it stays (assumption 134). -/
def counterAfter (old leaf : Nat) (img : List Byte) : Nat :=
  if old + 2 ≤ leaf then old + 1 + Config.counterRaise img % (leaf - 1 - old) else old

/-- MGMT_FIRMWARE_COMMIT: the staged image is checked as a whole; one whose signature the chain verifies is what the flash holds from then on,
and raises the counter (R380). -/
def execMgmtFirmwareCommit (s : State) : Host.Outcome State Fault Refusal :=
  s.manage "MGMT_FIRMWARE_COMMIT" (· == 0x07) fun x s =>
    let n := leNat x.payload
    if x.payload.length != 4 || stageBytes < n || s.mgmt.stagedLen < n then s.badPayload
    else
      let img := s.mgmt.staged.readBytes 0 n
      let leaf := Config.imageLeaf img
      if Config.xmssAccepts img (Config.imageSig img) leaf && s.mgmt.counter < leaf then
        (0, [], s.modMgmt fun m => { m with flash := [⟨img, leaf, Config.imageSig img⟩], counter := counterAfter m.counter leaf img, key := Config.nextKey img m.key, staged := [], stagedLen := 0 })
      else (1, [], s)

/-- What a quote holds (R381): the nonce, the module's serial number and the log; in that order, which the rule leaves open (assumption 135). -/
def quoteBody (nonce : List Byte) (log : List (List Byte)) : List Byte := nonce ++ Config.serial ++ log.flatten

/-- A quote: its contents, then their signature. -/
def quote (nonce : List Byte) (log : List (List Byte)) (leaf : Nat) : List Byte :=
  quoteBody nonce log ++ Config.quoteSign (quoteBody nonce log) leaf

/-- MGMT_QUOTE (R381): the quote of a nonce from an offset, signed once per nonce; one that would exhaust the key is refused. -/
def execMgmtQuote (s : State) : Host.Outcome State Fault Refusal :=
  s.manage "MGMT_QUOTE" (· == 0x08) fun x s =>
    let nonce := x.payload.take 32
    let o := leNat (x.payload.drop 32)
    if x.payload.length != 36 then s.badPayload
    else match s.mgmt.quoted.find? fun q => q.1 == nonce with
      | some q => (0, (q.2.drop o).take 1424, s)
      | none =>
        if 2 ^ 16 ≤ s.mgmt.quotes then (1, [], s)
        else
          let q := quote nonce s.mgmt.log s.mgmt.quotes
          (0, (q.drop o).take 1424, s.modMgmt fun m => { m with quoted := m.quoted ++ [(nonce, q)], quotes := m.quotes + 1 })

/-- MGMT_SET_ADDRESS: a static address, its first byte the highest, or DHCP for address 0. -/
def execMgmtSetAddress (s : State) : Host.Outcome State Fault Refusal :=
  s.manage "MGMT_SET_ADDRESS" (· == 0x09) fun x s =>
    let ip : BitVec 32 := BitVec.ofNat 32 (leNat (x.payload.take 4).reverse)
    let n := ((x.payload[4]?).getD 0).toNat
    if x.payload.length != 5 || 32 < n then s.badPayload
    else (0, [], s.modMgmt fun m => { m with ip := ip, prefixLen := n, isStatic := ip != 0 })

/-- MGMT_UNKNOWN_OP (R384): a request with any other OP receives STATUS 3. -/
def execMgmtUnknownOp (s : State) : Host.Outcome State Fault Refusal :=
  s.manage "MGMT_UNKNOWN_OP" (fun op => op == 0 || 9 < op) fun _ s => s.badPayload

/-! ## The port (R382) -/

/-- MGMT_ARP (R382): an ARP request for the port's address is answered. -/
def execMgmtArp (s : State) : Host.Outcome State Fault Refusal :=
  match s.mgmt.inbox with
  | .arp ip mac :: _ =>
    if !s.mgmt.linkUp then .refused (.notEnabled "MGMT_ARP")
    else
      let t := s.takeFrame
      .next (if s.isOurs ip then t.emit (.arpReply ip mac) else t)
  | _ => .refused (.notEnabled "MGMT_ARP")

/-- MGMT_ICMP_ECHO (R382): an echo request to the port's address is answered. -/
def execMgmtIcmpEcho (s : State) : Host.Outcome State Fault Refusal :=
  match s.mgmt.inbox with
  | .echo dst src data :: _ =>
    if !s.mgmt.linkUp then .refused (.notEnabled "MGMT_ICMP_ECHO")
    else .next (if s.isOurs dst then s.takeFrame.emit (.echoReply src data) else s.takeFrame)
  | _ => .refused (.notEnabled "MGMT_ICMP_ECHO")

/-- MGMT_DHCP (R382): a lease is taken unless the operator has set a static address. -/
def execMgmtDhcp (s : State) : Host.Outcome State Fault Refusal :=
  match s.mgmt.inbox with
  | .lease ip n :: _ =>
    if !s.mgmt.linkUp then .refused (.notEnabled "MGMT_DHCP")
    else
      let t := s.takeFrame
      .next (if s.mgmt.isStatic then t else t.modMgmt fun m => { m with ip := ip, prefixLen := n })
  | _ => .refused (.notEnabled "MGMT_DHCP")

/-- MGMT_AUTO_NEGOTIATION (R382): the port's link comes up or goes down. -/
def execMgmtAutoNegotiation (up : Bool) (s : State) : Host.Outcome State Fault Refusal :=
  .next (s.modMgmt fun m => { m with linkUp := up })

/-- The step that handles a frame of the management port. -/
def frameStep (f : Frame) : Instr :=
  match f with
  | .arp .. => .mgmtArp
  | .echo .. => .mgmtIcmpEcho
  | .lease .. => .mgmtDhcp
  | .dgram x => match x.op.toNat with
    | 1 => .mgmtReadTemperatures
    | 2 => .mgmtReadEvents
    | 3 => .mgmtSetStepCap
    | 4 => .mgmtSetHotlim
    | 5 => .mgmtResetModule
    | 6 => .mgmtFirmwareChunk
    | 7 => .mgmtFirmwareCommit
    | 8 => .mgmtQuote
    | 9 => .mgmtSetAddress
    | _ => .mgmtUnknownOp

end Sys2Proof.Machine
end

