-- ==== Sys2Proof/Machine/Sfu.lean ====
section
/-! DEFINITION. The bound of the special functions whose bits the spec does not publish (R98, Table 9 of chapter 4): FEXP2, FLOG2, FSIN, FCOS
and FTANH are computed here in fixed point, exact to 180 places after the point, and what a core answers is one of the codes within 2 ulp of
that, which one being free (assumption 10). A value is an integer in units of 2^-320; every finite FP32 value is exact in them. -/

namespace Sys2Proof.Machine

/-- One, in units of 2^-320. -/
def fxOne : Int := 2 ^ 320

/-- The natural logarithm of 2, in units of 2^-320, rounded down. -/
def fxLnTwo : Int :=
  0xB17217F7D1CF79ABC9E3B39803F2F6AF40F343267298B62D8A0D175B8BAAFA2BE7B876206DEBAC98

/-- π, in units of 2^-320, rounded down. -/
def fxPi : Int :=
  0x3243F6A8885A308D313198A2E03707344A4093822299F31D0082EFA98EC4E6C89452821E638D01377

/-- A finite FP32 value. -/
def fxOf (neg : Bool) (m : Nat) (e : Int) : Int := (if neg then -1 else 1) * (m * 2 ^ (e + 320).toNat : Nat)

/-- A product. -/
def fxMul (a b : Int) : Int := a * b / fxOne

/-- `n` more terms of the exponential series, after the term numbered `k`. -/
def fxExpFrom (z : Int) : Nat → Int → Int → Int → Int
  | 0, _, _, acc => acc
  | n + 1, k, term, acc =>
    let t := fxMul term z / (k + 1)
    fxExpFrom z n (k + 1) t (acc + t)

/-- e^z for z from 0 to 18. -/
def fxExp (z : Int) : Int := fxExpFrom z 200 0 fxOne fxOne

/-- `n` more terms of a trigonometric series, every other one, the signs alternating. -/
def fxTrigFrom (z2 : Int) : Nat → Int → Int → Int → Int
  | 0, _, _, acc => acc
  | n + 1, k, term, acc =>
    let t := -(fxMul term z2 / ((k + 1) * (k + 2)))
    fxTrigFrom z2 n (k + 2) t (acc + t)

/-- sin z and cos z for z from 0 to 2π. -/
def fxSin (z : Int) : Int := fxTrigFrom (fxMul z z) 80 1 z z
@[inherit_doc fxSin] def fxCos (z : Int) : Int := fxTrigFrom (fxMul z z) 80 0 fxOne fxOne

/-- `n` more terms of the series of artanh. -/
def fxArtanhFrom (t2 : Int) : Nat → Int → Int → Int → Int
  | 0, _, _, acc => acc
  | n + 1, k, power, acc =>
    let p := fxMul power t2
    fxArtanhFrom t2 n (k + 2) p (acc + p / (k + 2))

/-- artanh t for t from 0 to 1/3. -/
def fxArtanh (t : Int) : Int := fxArtanhFrom (fxMul t t) 110 1 t t

/-- The exact function at a finite operand, but for less than 2^-180: 2^x for x from -150 to 128, log2 x for x > 0, tanh x for |x| < 9, and
sin x and cos x of any x, the period being taken off with 320 places of π. -/
def sfuExact (f : SfuFn) (neg : Bool) (m : Nat) (e : Int) : Int :=
  let x := fxOf neg m e
  let sign (v : Int) : Int := if neg then -v else v
  match f with
  | .exp2 =>
    let k := x / fxOne
    let v := fxExp (fxMul (x - k * fxOne) fxLnTwo)
    if 0 ≤ k then v * 2 ^ k.toNat else v / 2 ^ (-k).toNat
  | .log2 =>
    let l := Nat.log2 m
    let y : Int := (m : Int) * fxOne / 2 ^ l
    (e + l) * fxOne + 2 * fxArtanh ((y - fxOne) * fxOne / (y + fxOne)) * fxOne / fxLnTwo
  | .sin => sign (fxSin (fxOf false m e % (2 * fxPi)))
  | .cos => fxCos (fxOf false m e % (2 * fxPi))
  | .tanh =>
    let v := fxExp (2 * fxOf false m e)
    sign ((v - fxOne) * fxOne / (v + fxOne))

/-- One ulp of a result's binade, 2^-149 below 2^-126 (R98). -/
def sfuUlp (v : Int) : Int := 2 ^ (max ((Nat.log2 v.natAbs : Int) - 320) (-126) - 23 + 320).toNat

/-- Whether a code is finite and within 2 ulp of a result. -/
def sfuNear (v : Int) (y : Word) : Bool :=
  match f32 y with
  | .fin n m e => (fxOf n m e - v).natAbs ≤ 2 * sfuUlp v + 2 ^ 140
  | _ => false

/-- The code `i` places above a code, in the order of the values, both zeros standing in one place. -/
def codesAt (y : Word) (i : Int) : List Word :=
  let o : Int := (if y.msb then -((y &&& 0x7FFFFFFF).toNat : Int) else y.toNat) + i
  if o = 0 then [0, 0x80000000] else [BitVec.ofNat 32 (if o < 0 then 2 ^ 31 + o.natAbs else o.natAbs)]

/-- The codes within 2 ulp of a result: at most 4 places from the nearest. -/
def sfuCodes (v : Int) : List Word :=
  let r := toF32 .rne false (.fin (v < 0) v.natAbs (-320))
  ((List.range 9).flatMap fun (i : Nat) => codesAt r ((i : Int) - 4)).filter (sfuNear v)

/-- What the part answers to a finite operand outside the exact cases: one of the codes within the bound, the same for the same operand. An
FEXP2 that underflows gives +0, never a code with the sign set (R99). -/
def sfuFree (f : SfuFn) (x : Word) (neg : Bool) (m : Nat) (e : Int) : Word :=
  let cs := (sfuCodes (sfuExact f neg m e)).filter fun y => f != .exp2 || !y.msb
  (cs[Config.sfuPick f x % cs.length]?).getD 0

end Sys2Proof.Machine
end

