-- ==== Sys2Proof/Machine/VecInt.lean ====
section
/-! DEFINITION. Vector integer instructions (chapter 6, Tables 4 and 5; R122). -/

namespace Sys2Proof.Machine

open Sys2Proof

/-- A vector integer operation on whole lanes: its value from a, b and, where it reads it, d (R119). -/
def vecBin (x : VA) (readsD : Bool) (f : Word → Word → Word → Word) (s : State) : Host.Outcome State Fault Refusal :=
  let u : Use := { reads := if readsD then [x.a, x.b, x.d] else [x.a, x.b], dsts := [x.d] }
  issue x.h u s fun I =>
    let a := I.vsrc x.zx x.a
    let b := I.vsrc x.zx x.b
    let d := I.vsrc false x.d
    I.vectorOp 0 2 x.d (VReg.of fun i =>
      ⟨f (a.at i).val (b.at i).val (d.at i).val, (a.at i).k || (b.at i).k || (readsD && (d.at i).k)⟩) u

/-- A one-source vector integer operation on whole lanes. -/
def vecUn (h : Hdr) (d a : Opnd) (zx : Bool) (f : Word → Word) (s : State) : Host.Outcome State Fault Refusal :=
  let u : Use := { reads := [a], dsts := [d] }
  issue h u s fun I =>
    let a := I.vsrc zx a
    I.vectorOp 0 2 d (VReg.of fun i => ⟨f (a.at i).val, (a.at i).k⟩) u

/-! ## Elements (R75, R122) -/

/-- Bits of an element. -/
def ElemW.bits : ElemW → Nat
  | .w32 => 32
  | .w16 => 16
  | .w8 => 8

/-- An element as an integer, signed or unsigned. -/
def elemInt (u : Bool) (n i : Nat) (x : Word) : Int :=
  let e := getElem n i x
  if u || e < 2 ^ (n - 1) then e else (e : Int) - 2 ^ n

/-- A result narrowed to an element: clamped under SAT, else wrapped. -/
def elemNarrow (sat u : Bool) (n : Nat) (v : Int) : Nat :=
  let v := if sat then (if u then clampInt 0 (2 ^ n - 1) v else clampInt (-2 ^ (n - 1)) (2 ^ (n - 1) - 1) v) else v
  (v % 2 ^ n).toNat

/-- A lane from an operation on its elements. -/
def perElem (w : ElemW) (f : Nat → Nat) : Word :=
  let n := ElemW.bits w
  (List.range (32 / n)).foldl (fun acc i => setElem n i acc (f i)) 0

/-- A source for element-wise operations: an immediate is extended to 32 bits (R57), and under ELEM .B its low byte is used in every byte
element; under .H each half of the word is an element, as of any other source (assumption 39). -/
def Iss.esrc (I : Iss) (zx : Bool) (w : ElemW) (o : Opnd) : VReg :=
  match w, o with
  | .w8, .imm x => VReg.splat ⟨perElem .w8 fun _ => getElem 8 0 (Iss.imm zx x), false⟩
  | _, _ => I.vsrc zx o

/-- An element-wise two-source operation, on integers (Table 5). -/
def vecElem (x : VA) (f : Int → Int → Int) (s : State) : Host.Outcome State Fault Refusal :=
  let u : Use := { reads := [x.a, x.b], dsts := [x.d] }
  issue x.h u s fun I =>
    let a := I.esrc x.zx x.elem x.a
    let b := I.esrc x.zx x.elem x.b
    let n := ElemW.bits x.elem
    let g (p q : Word) : Word := perElem x.elem fun i => elemNarrow x.sat x.u n (f (elemInt x.u n i p) (elemInt x.u n i q))
    I.vectorOp 0 2 x.d (VReg.of fun i => ⟨g (a.at i).val (b.at i).val, (a.at i).k || (b.at i).k⟩) u

/-- An element-wise one-source operation. -/
def vecElemUn (x : VA) (f : Int → Int) (s : State) : Host.Outcome State Fault Refusal :=
  let u : Use := { reads := [x.a], dsts := [x.d] }
  issue x.h u s fun I =>
    let a := I.esrc false x.elem x.a
    let n := ElemW.bits x.elem
    let g (p : Word) : Word := perElem x.elem fun i => elemNarrow x.sat false n (f (elemInt false n i p))
    I.vectorOp 0 2 x.d (VReg.of fun i => ⟨g (a.at i).val, (a.at i).k⟩) u

/-! ## The instructions -/

/-- VADD: a + b. -/
def execVadd (x : VA) (s : State) : Host.Outcome State Fault Refusal := vecElem x (fun a b => a + b) s
/-- VSUB: a − b. -/
def execVsub (x : VA) (s : State) : Host.Outcome State Fault Refusal := vecElem x (fun a b => a - b) s
/-- VMIN. -/
def execVmin (x : VA) (s : State) : Host.Outcome State Fault Refusal := vecElem x (fun a b => min a b) s
/-- VMAX. -/
def execVmax (x : VA) (s : State) : Host.Outcome State Fault Refusal := vecElem x (fun a b => max a b) s
/-- VABS. -/
def execVabs (x : VA) (s : State) : Host.Outcome State Fault Refusal := vecElemUn x (fun a => a.natAbs) s
/-- VNEG: 0 − a. -/
def execVneg (x : VA) (s : State) : Host.Outcome State Fault Refusal := vecElemUn x (fun a => -a) s
/-- VMUL: the low word of the product. -/
def execVmul (x : VA) (s : State) : Host.Outcome State Fault Refusal := vecBin x false (fun a b _ => a * b) s
/-- VMULH: the high word of the product. -/
def execVmulh (x : VA) (s : State) : Host.Outcome State Fault Refusal := vecBin x false (fun a b _ => mulHigh x.u a b) s
/-- VMAD: the low word of a × b + d. -/
def execVmad (x : VA) (s : State) : Host.Outcome State Fault Refusal := vecBin x true (fun a b d => a * b + d) s
/-- VAND. -/
def execVand (x : VA) (s : State) : Host.Outcome State Fault Refusal := vecBin x false (fun a b _ => a &&& b) s
/-- VOR. -/
def execVor (x : VA) (s : State) : Host.Outcome State Fault Refusal := vecBin x false (fun a b _ => a ||| b) s
/-- VXOR. -/
def execVxor (x : VA) (s : State) : Host.Outcome State Fault Refusal := vecBin x false (fun a b _ => a ^^^ b) s
/-- VSHL. -/
def execVshl (x : VA) (s : State) : Host.Outcome State Fault Refusal := vecBin x false (fun a b _ => shl a b) s
/-- VSHR. -/
def execVshr (x : VA) (s : State) : Host.Outcome State Fault Refusal := vecBin x false (fun a b _ => shr a b) s
/-- VSAR. -/
def execVsar (x : VA) (s : State) : Host.Outcome State Fault Refusal := vecBin x false (fun a b _ => sar a b) s
/-- VNOT. -/
def execVnot (x : VA) (s : State) : Host.Outcome State Fault Refusal := vecUn x.h x.d x.a false (fun a => ~~~a) s
/-- VMOV. -/
def execVmov (x : VA) (s : State) : Host.Outcome State Fault Refusal := vecUn x.h x.d x.a x.zx id s
/-- VPOPC. -/
def execVpopc (x : VA) (s : State) : Host.Outcome State Fault Refusal := vecUn x.h x.d x.a false popW s
/-- VCLZ. -/
def execVclz (x : VA) (s : State) : Host.Outcome State Fault Refusal := vecUn x.h x.d x.a false clzW s
/-- VBFE: a bit field of a. -/
def execVbfe (x : BfA) (s : State) : Host.Outcome State Fault Refusal :=
  vecUn x.h x.d x.a false (bfe x.sgn x.pos.toNat (x.lenM1.toNat + 1)) s

/-- VBFI: the low bits of a placed in d. -/
def execVbfi (x : BfA) (s : State) : Host.Outcome State Fault Refusal :=
  let u : Use := { reads := [x.a, x.d], dsts := [x.d] }
  issue x.h u s fun I =>
    let a := I.vsrc false x.a
    let d := I.vsrc false x.d
    I.vectorOp 0 2 x.d (VReg.of fun i =>
      ⟨bfi x.pos.toNat (x.lenM1.toNat + 1) (a.at i).val (d.at i).val, (a.at i).k || (d.at i).k⟩) u

/-- VDOT4's sum: four byte products added to d. -/
def dot4 (ua ub sat : Bool) (a b d : Word) : Word :=
  let x : Int := (List.range 4).foldl (fun t i => t + elemInt ua 8 i a * elemInt ub 8 i b) d.toInt
  BitVec.ofInt 32 (if sat then clampInt (-2 ^ 31) (2 ^ 31 - 1) x else x)

/-- VDOT4. -/
def execVdot4 (x : VA) (s : State) : Host.Outcome State Fault Refusal := vecBin x true (dot4 x.u x.ub x.sat) s

/-- VCMP: a condition to a predicate register. -/
def execVcmp (x : CmpA) (s : State) : Host.Outcome State Fault Refusal :=
  issue x.h { reads := [x.a, x.b] } s fun I =>
    let a := I.vsrc x.zx x.a
    let b := I.vsrc x.zx x.b
    I.ok { ws := [.pred x.d I.active (maskOf 96 fun i => x.cond.holds (a.at i).val (b.at i).val) (a.marks ||| b.marks)],
           occ := I.P, unit := .vec, charge := 2 * I.P }

/-- VSEL: a or b, lane by lane, as a predicate says; the predicate's mark travels into the result. -/
def execVsel (x : SelA) (s : State) : Host.Outcome State Fault Refusal :=
  let u : Use := { reads := [x.a, x.b], dsts := [x.d], pr := [x.c] }
  issue x.h u s fun I =>
    let a := I.vsrc x.zx x.a
    let b := I.vsrc x.zx x.b
    let c := I.pred x.c
    I.vectorOp 0 2 x.d (VReg.of fun i =>
      let e := if c.val.getLsbD i != x.neg then a.at i else b.at i
      ⟨e.val, e.k || c.k.getLsbD i⟩) u

end Sys2Proof.Machine
end

