-- ==== Sys2Proof/Machine/VecFp.lean ====
section
/-! DEFINITION. Vector floating-point, special-function and conversion instructions (chapter 6, R123 to R128; chapter 4). -/

namespace Sys2Proof.Machine

open Sys2Proof

/-- A floating-point operation on each element of a lane, its result rounded once (R81 to R84). `readsD` says that it reads d. -/
def fpOp (x : FA) (readsD : Bool) (f : FVal → FVal → FVal → FVal) (s : State) : Host.Outcome State Fault Refusal :=
  let u : Use := { reads := if readsD then [x.a, x.b, x.d] else [x.a, x.b], dsts := [x.d] }
  issue x.h u s fun I =>
    let F := x.typ.fmt
    let a := I.fsrc x.typ x.a
    let b := I.fsrc x.typ x.b
    let d := I.vsrc false x.d
    let g (p q r : Word) : Word := elems x.typ fun e =>
      BitVec.ofNat 32 (F.round x.rm x.sat (f (F.val (elemOf x.typ e p)) (F.val (elemOf x.typ e q)) (F.val (elemOf x.typ e r))))
    I.vectorOp 1 3 x.d (VReg.of fun i =>
      ⟨g (a.at i).val (b.at i).val (d.at i).val, (a.at i).k || (b.at i).k || (readsD && (d.at i).k)⟩) u

/-- FADD: a + b. -/
def execFadd (x : FA) (s : State) : Host.Outcome State Fault Refusal := fpOp x false (fun a b _ => FVal.sum x.rm [a, b]) s
/-- FSUB: a − b, the sum of a and −b: R82's operands are read as these, so that −0 − (+0) is −0 (assumption 114). -/
def execFsub (x : FA) (s : State) : Host.Outcome State Fault Refusal := fpOp x false (fun a b _ => FVal.sum x.rm [a, b.flip true]) s
/-- FMUL: a × b. -/
def execFmul (x : FA) (s : State) : Host.Outcome State Fault Refusal := fpOp x false (fun a b _ => a.mul b) s
/-- FFMA: ±(a × b) ± d with one rounding. -/
def execFfma (x : FA) (s : State) : Host.Outcome State Fault Refusal :=
  fpOp x true (fun a b d => FVal.sum x.rm [(a.mul b).flip x.na, d.flip x.nc]) s

/-- FMIN and FMAX, which round nothing. -/
def fpMinMax (x : FA) (isMax : Bool) (s : State) : Host.Outcome State Fault Refusal :=
  let u : Use := { reads := [x.a, x.b], dsts := [x.d] }
  issue x.h u s fun I =>
    let a := I.fsrc x.typ x.a
    let b := I.fsrc x.typ x.b
    let g (p q : Word) : Word := elems x.typ fun e =>
      BitVec.ofNat 32 (x.typ.fmt.minMax isMax (elemOf x.typ e p) (elemOf x.typ e q))
    I.vectorOp 1 3 x.d (VReg.of fun i => ⟨g (a.at i).val (b.at i).val, (a.at i).k || (b.at i).k⟩) u

/-- FMIN. -/
def execFmin (x : FA) (s : State) : Host.Outcome State Fault Refusal := fpMinMax x false s
/-- FMAX. -/
def execFmax (x : FA) (s : State) : Host.Outcome State Fault Refusal := fpMinMax x true s

/-- FCMP: a condition to a predicate register. -/
def execFcmp (x : FcmpA) (s : State) : Host.Outcome State Fault Refusal :=
  issue x.h { reads := [x.a, x.b] } s fun I =>
    let a := I.fsrc .f32 x.a
    let b := I.fsrc .f32 x.b
    I.ok { ws := [.pred x.d I.active (maskOf 96 fun i => x.cond.holds (f32 (a.at i).val) (f32 (b.at i).val)) (a.marks ||| b.marks)],
           comp := .short 1, occ := I.P, unit := .vec, charge := 3 * I.P }

/-- FCLASS: the class word. -/
def execFclass (x : UnA) (s : State) : Host.Outcome State Fault Refusal :=
  let u : Use := { reads := [x.a], dsts := [x.d] }
  issue x.h u s fun I =>
    let a := I.fsrc .f32 x.a
    I.vectorOp 1 3 x.d (VReg.of fun i => ⟨fclass32 (a.at i).val, (a.at i).k⟩) u

/-- FSCALE: a × 2^b, b a signed integer for the whole lane. -/
def execFscale (x : FA) (s : State) : Host.Outcome State Fault Refusal :=
  let u : Use := { reads := [x.a, x.b], dsts := [x.d] }
  issue x.h u s fun I =>
    let F := x.typ.fmt
    let a := I.fsrc x.typ x.a
    let b := I.vsrc false x.b
    let g (p q : Word) : Word := elems x.typ fun e =>
      BitVec.ofNat 32 (F.round x.rm x.sat ((F.val (elemOf x.typ e p)).scale q.toInt))
    I.vectorOp 1 3 x.d (VReg.of fun i => ⟨g (a.at i).val (b.at i).val, (a.at i).k || (b.at i).k⟩) u

/-- FRND: a rounded to an integral value of its format. -/
def execFrnd (x : FA) (s : State) : Host.Outcome State Fault Refusal :=
  fpOp { x with b := .zero } false (fun a _ _ => a.integral x.rm) s

/-- FDOT2's sum: two products of packed elements added to an FP32 word, one rounding. -/
def dot2 (t : FType) (rm : RMode) (sat : Bool) (a b d : Word) : Word :=
  let F := t.fmt
  let p (e : Nat) : FVal := (F.val (elemOf t e a)).mul (F.val (elemOf t e b))
  toF32 rm sat (FVal.sum rm [f32 d, p 0, p 1])

/-- FDOT2. -/
def execFdot2 (x : FA) (s : State) : Host.Outcome State Fault Refusal :=
  let u : Use := { reads := [x.a, x.b, x.d], dsts := [x.d] }
  issue x.h u s fun I =>
    let a := I.fsrc x.typ x.a
    let b := I.fsrc x.typ x.b
    let d := I.vsrc false x.d
    I.vectorOp 1 3 x.d (VReg.of fun i =>
      ⟨dot2 x.typ x.rm x.sat (a.at i).val (b.at i).val (d.at i).val, (a.at i).k || (b.at i).k || (d.at i).k⟩) u

/-! ## Special functions (R98, R99) -/

/-- FEXP2, FLOG2, FSIN, FCOS and FTANH: the operands Tables 9 and 10 of chapter 4 fix, else the part's one approximation within its bound (assumption 10). -/
def sfu (f : SfuFn) (x : Word) : Word :=
  let nan : Word := BitVec.ofNat 32 FpF.f32.canon
  match f, f32 x with
  | _, .nan => nan
  | .exp2, .inf n => if n then 0 else BitVec.ofNat 32 (FpF.f32.infCode false)
  | .log2, .inf n => if n then nan else BitVec.ofNat 32 (FpF.f32.infCode false)
  | .sin, .inf _ => nan
  | .cos, .inf _ => nan
  | .tanh, .inf n => if n then 0xBF800000 else 0x3F800000
  | f, .fin n m e => sfuFin f x n m e
where
  /-- The finite operands. -/
  sfuFin (f : SfuFn) (x : Word) (n : Bool) (m : Nat) (e : Int) : Word :=
    let nan : Word := BitVec.ofNat 32 FpF.f32.canon
    match f with
    | .exp2 =>
      let v : FVal := .fin n m e
      if !v.lt (.ofInt 128) then BitVec.ofNat 32 (FpF.f32.infCode false)
      else if !(FVal.ofInt (-150)).lt v then 0
      else if v.eq (.ofInt (roundInt .rd n m e)) then toF32 .rne false (.fin false 1 (roundInt .rd n m e))
      else sfuFree .exp2 x n m e
    | .log2 =>
      if m = 0 then BitVec.ofNat 32 (FpF.f32.infCode true)
      else if n then nan
      else if m = 2 ^ Nat.log2 m then toF32 .rne false (.ofInt (e + Nat.log2 m))
      else sfuFree .log2 x n m e
    | .sin => if m = 0 then x else sfuFree .sin x n m e
    | .cos => if m = 0 then 0x3F800000 else sfuFree .cos x n m e
    | .tanh =>
      if m = 0 then x
      else if !(FVal.fin false m e).lt (.ofInt 9) then (if n then 0xBF800000 else 0x3F800000)
      else sfuFree .tanh x n m e

/-- A special function: long class, landing `lat` + P cycles after its issue (Table 3). -/
def special (x : UnA) (lat : Nat) (f : Word → Word) (s : State) : Host.Outcome State Fault Refusal :=
  issue x.h { reads := [x.a], dsts := [x.d] } s fun I =>
    let a := I.fsrc .f32 x.a
    I.vectorLong (lat + I.P) 5 (Iss.wvec x.d I.active (VReg.of fun i => ⟨f (a.at i).val, (a.at i).k⟩))

/-- FRCP. -/
def execFrcp (x : UnA) (s : State) : Host.Outcome State Fault Refusal := special x 14 frcp32 s
/-- FRSQ. -/
def execFrsq (x : UnA) (s : State) : Host.Outcome State Fault Refusal := special x 14 frsq32 s
/-- FSQRT. -/
def execFsqrt (x : UnA) (s : State) : Host.Outcome State Fault Refusal := special x 18 fsqrt32 s
/-- FEXP2. -/
def execFexp2 (x : UnA) (s : State) : Host.Outcome State Fault Refusal := special x 16 (sfu .exp2) s
/-- FLOG2. -/
def execFlog2 (x : UnA) (s : State) : Host.Outcome State Fault Refusal := special x 16 (sfu .log2) s
/-- FSIN. -/
def execFsin (x : UnA) (s : State) : Host.Outcome State Fault Refusal := special x 22 (sfu .sin) s
/-- FCOS. -/
def execFcos (x : UnA) (s : State) : Host.Outcome State Fault Refusal := special x 22 (sfu .cos) s
/-- FTANH. -/
def execFtanh (x : UnA) (s : State) : Host.Outcome State Fault Refusal := special x 20 (sfu .tanh) s

/-! ## Conversions (R124 to R128) -/

/-- A source of CVT, whose immediate fills the lane in the source format. -/
def Iss.csrc (I : Iss) (src : Fmt) (o : Opnd) : VReg :=
  match o with
  | .imm x => VReg.splat ⟨cvtImm src x, false⟩
  | _ => I.vsrc false o

/-- CVT (R124). A narrowing conversion keeps d's other bits. -/
def execCvt (x : CvtA) (s : State) : Host.Outcome State Fault Refusal :=
  let narrows := x.dst.bits < 32
  let u : Use := { reads := if narrows then [x.a, x.d] else [x.a], dsts := [x.d] }
  issue x.h u s fun I =>
    let a := I.csrc x.src x.a
    let d := I.vsrc false x.d
    I.vectorOp 1 3 x.d (VReg.of fun i =>
      ⟨cvtLane x.src x.dst x.rm x.sat x.eix.toNat (a.at i).val (d.at i).val, (a.at i).k || (narrows && (d.at i).k)⟩) u

/-- CVTEF (R125): the narrowed element to d and the residual to b. -/
def execCvtef (x : CvtA) (s : State) : Host.Outcome State Fault Refusal :=
  let u : Use := { reads := [x.a, x.d], dsts := [x.d, x.b] }
  issue x.h u s fun I =>
    let a := I.csrc .f32 x.a
    let d := I.vsrc false x.d
    I.ok { ws := Iss.wvec x.d I.active (VReg.of fun i =>
               ⟨cvtLane .f32 x.dst .rne x.sat x.eix.toNat (a.at i).val (d.at i).val, (a.at i).k || (d.at i).k⟩) ++
             Iss.wvec x.b I.active (VReg.of fun i => ⟨cvtefResidual x.dst x.sat (a.at i).val, (a.at i).k⟩),
           comp := .short 1, occ := I.P, unit := .vec, charge := 3 * I.P, lset := u.lSet }

/-- The lanes of a block. -/
def blockLanes (j : Nat) : List Nat := (List.range 16).map fun i => 16 * j + i

/-- Word `m` of a block's mantissa image. -/
def imageWord (image m : Nat) : Word := BitVec.ofNat 32 (image / 2 ^ (32 * m))

/-- QBLK (R127): every lane of a block with an active lane is written. -/
def execQblk (x : BlkA) (s : State) : Host.Outcome State Fault Refusal :=
  issue x.h { reads := [x.a], dsts := [x.d, x.b] } s fun I =>
    let a := I.vsrc false x.a
    let w := x.w.toNat
    let on (l : Nat) : Bool := I.active.getLsbD l
    let blk : List (List Int × Nat × Bool) := (List.range 6).map fun j =>
      let (ms, e) := toBlock w x.rm ((blockLanes j).map fun l => if on l then (a.at l).val else 0)
      (ms, e, (blockLanes j).any fun l => on l && (a.at l).k)
    let live : Lanes := maskOf 96 fun l => (blockLanes (l / 16)).any on
    let at' (l : Nat) : List Int × Nat × Bool := blk[l / 16]?.getD ([], 0, false)
    I.vectorLong (6 + 2 * I.P) 3
      (Iss.wvec x.d live (VReg.of fun l =>
          ⟨if l % 16 < (w + 1) / 2 then imageWord (blockImage w (at' l).1) (l % 16) else 0, (at' l).2.2⟩) ++
        Iss.wvec x.b live (VReg.of fun l => ⟨BitVec.ofNat 32 (at' l).2.1, (at' l).2.2⟩))

/-- The mantissa code of element `i` of block `j` in a register, and the mark of the lanes that hold its bits. -/
def mantOf (a : VReg) (w j i : Nat) : Nat × Bool :=
  let bit (b : Nat) : Elem := a.at (16 * j + b / 32)
  ((List.range w).foldl (fun c b => if (bit (i * w + b)).val.getLsbD ((i * w + b) % 32) then c + 2 ^ b else c) 0,
    (bit (i * w)).k || (bit (i * w + w - 1)).k)

/-- A group with its N8 sticky bit set (R121). -/
def Group.setN8 (G : Group) : Group := { G with spec := { G.spec with ksticky := G.spec.ksticky ||| 2 } }

/-- The state with the group's N8 bit set when any active lane read a reserved code. In which cycle the spec does not say: it is that of the
issue (assumption 117). -/
def Iss.n8 (I : Iss) (f : Nat → Bool) : State :=
  if (bitsOf I.active).any f then I.s.modGroup I.c I.g Group.setN8 else I.s

/-- The lanes of a that hold the bits of an element of width `w`: those of its first and its last bit. -/
def mantLanes (w l : Nat) : List Nat :=
  [16 * (l / 16) + l % 16 * w / 32, 16 * (l / 16) + (l % 16 * w + w - 1) / 32]

/-- DQBLK (R128): the FP32 value of each active lane's block element. The lanes of a it reads are those that hold the bits of the elements, active
or not (R116). -/
def execDqblk (x : BlkA) (s : State) : Host.Outcome State Fault Refusal :=
  issue x.h { reads := [x.b], names := [x.a], dsts := [x.d] } s fun I =>
    let a := I.vsrc false x.a
    let b := I.vsrc false x.b
    let w := x.w.toNat
    let bad (l : Nat) : Bool := (mantLanes w l).any fun j => I.badLanes x.a (1#96 <<< j)
    let e (l : Nat) : Nat := ((b.at l).val.extractLsb' 0 8).toNat
    let m (l : Nat) : Nat × Bool := mantOf a w (l / 16) (l % 16)
    let val (l : Nat) : Word := if e l = 255 then 0 else toF32 .rne false (blockVal w (e l) (readMant w (m l).1).1)
    (Res.done (I.n8 fun l => e l == 255 || (readMant w (m l).1).2)
      { ws := Iss.wvec x.d I.active (VReg.of fun l => ⟨val l, (b.at l).k || (m l).2⟩), comp := .short 1, occ := I.P, unit := .vec,
        charge := 3 * I.P }).orUeIf I ((bitsOf I.active).any bad)

/-- PACK4's word: eight nibbles from the bytes of two words, limited to −7 to 7. -/
def pack4 (a b : Word) : Word :=
  (List.range 8).foldl (fun acc i =>
    setElem 4 i acc ((clampInt (-7) 7 (elemInt false 8 (i % 4) (if i < 4 then a else b))) % 16).toNat) 0

/-- PACK4. Its elements are bytes and it names no zero-extension bit, so whether an immediate fills the word or each byte the spec leaves open:
it is sign-extended to the word (assumption 118). -/
def execPack4 (x : BinA) (s : State) : Host.Outcome State Fault Refusal :=
  let u : Use := { reads := [x.a, x.b], dsts := [x.d] }
  issue x.h u s fun I =>
    let a := I.vsrc false x.a
    let b := I.vsrc false x.b
    I.vectorOp 1 3 x.d (VReg.of fun i => ⟨pack4 (a.at i).val (b.at i).val, (a.at i).k || (b.at i).k⟩) u

/-- A nibble as INT4 is read (R87): the reserved code reads as 0. -/
def nib (i : Nat) (a : Word) : Int := (readMant 4 (getElem 4 i a)).1

/-- UNPK4's word. -/
def unpk4 (f : Bool) (idx : Nat) (a : Word) : Word :=
  if f then toF32 .rne false (.ofInt (nib idx a))
  else (List.range 4).foldl (fun acc i => setElem 8 i acc ((nib (4 * idx + i) a) % 256).toNat) 0

/-- UNPK4. An immediate a is sign-extended (assumption 118). -/
def execUnpk4 (x : UnpkA) (s : State) : Host.Outcome State Fault Refusal :=
  let u : Use := { reads := [x.a], dsts := [x.d] }
  issue x.h u s fun I =>
    let a := I.vsrc false x.a
    let n := x.idx.toNat
    let bad (l : Nat) : Bool :=
      if x.f then getElem 4 n (a.at l).val == 8 else (List.range 4).any fun i => getElem 4 (4 * n + i) (a.at l).val == 8
    .done (I.n8 bad)
      { ws := Iss.wvec x.d I.active (VReg.of fun i => ⟨unpk4 x.f n (a.at i).val, (a.at i).k⟩), comp := .short 1, occ := I.P,
        unit := .vec, charge := 3 * I.P, lset := u.lSet }

end Sys2Proof.Machine
end

