-- ==== Sys2Proof/Machine/Dispatch.lean ====
section
/-! DEFINITION. One arm per step of the module: the meaning of each instruction and of each event. -/

namespace Sys2Proof.Machine

open Sys2Proof

def exec (i : Instr) (s : State) : Host.Outcome State Fault Refusal :=
  match i with
  | .nop x => Sys2Proof.Machine.execNop x s
  | .trail x => Sys2Proof.Machine.execTrail x s
  | .bra x => Sys2Proof.Machine.execBra x s
  | .brd x => Sys2Proof.Machine.execBrd x s
  | .brx x => Sys2Proof.Machine.execBrx x s
  | .call x => Sys2Proof.Machine.execCall x s
  | .ret x => Sys2Proof.Machine.execRet x s
  | .loop x => Sys2Proof.Machine.execLoop x s
  | .splq x => Sys2Proof.Machine.execSplq x s
  | .exit x => Sys2Proof.Machine.execExit x s
  | .sadd x => Sys2Proof.Machine.execSadd x s
  | .ssub x => Sys2Proof.Machine.execSsub x s
  | .smul x => Sys2Proof.Machine.execSmul x s
  | .smulh x => Sys2Proof.Machine.execSmulh x s
  | .smad x => Sys2Proof.Machine.execSmad x s
  | .sdiv x => Sys2Proof.Machine.execSdiv x s
  | .sand x => Sys2Proof.Machine.execSand x s
  | .sor x => Sys2Proof.Machine.execSor x s
  | .sxor x => Sys2Proof.Machine.execSxor x s
  | .sshl x => Sys2Proof.Machine.execSshl x s
  | .sshr x => Sys2Proof.Machine.execSshr x s
  | .ssar x => Sys2Proof.Machine.execSsar x s
  | .smin x => Sys2Proof.Machine.execSmin x s
  | .smax x => Sys2Proof.Machine.execSmax x s
  | .sabs x => Sys2Proof.Machine.execSabs x s
  | .smov x => Sys2Proof.Machine.execSmov x s
  | .ssel x => Sys2Proof.Machine.execSsel x s
  | .scmp x => Sys2Proof.Machine.execScmp x s
  | .spopc x => Sys2Proof.Machine.execSpopc x s
  | .sclz x => Sys2Proof.Machine.execSclz x s
  | .sbfe x => Sys2Proof.Machine.execSbfe x s
  | .sbfi x => Sys2Proof.Machine.execSbfi x s
  | .plog x => Sys2Proof.Machine.execPlog x s
  | .pmov x => Sys2Proof.Machine.execPmov x s
  | .pany x => Sys2Proof.Machine.execPany x s
  | .pall x => Sys2Proof.Machine.execPall x s
  | .pcnt x => Sys2Proof.Machine.execPcnt x s
  | .padd x => Sys2Proof.Machine.execPadd x s
  | .ptag x => Sys2Proof.Machine.execPtag x s
  | .pfld x => Sys2Proof.Machine.execPfld x s
  | .pcmp x => Sys2Proof.Machine.execPcmp x s
  | .vadd x => Sys2Proof.Machine.execVadd x s
  | .vsub x => Sys2Proof.Machine.execVsub x s
  | .vmul x => Sys2Proof.Machine.execVmul x s
  | .vmulh x => Sys2Proof.Machine.execVmulh x s
  | .vmad x => Sys2Proof.Machine.execVmad x s
  | .vand x => Sys2Proof.Machine.execVand x s
  | .vor x => Sys2Proof.Machine.execVor x s
  | .vxor x => Sys2Proof.Machine.execVxor x s
  | .vnot x => Sys2Proof.Machine.execVnot x s
  | .vshl x => Sys2Proof.Machine.execVshl x s
  | .vshr x => Sys2Proof.Machine.execVshr x s
  | .vsar x => Sys2Proof.Machine.execVsar x s
  | .vmin x => Sys2Proof.Machine.execVmin x s
  | .vmax x => Sys2Proof.Machine.execVmax x s
  | .vabs x => Sys2Proof.Machine.execVabs x s
  | .vneg x => Sys2Proof.Machine.execVneg x s
  | .vcmp x => Sys2Proof.Machine.execVcmp x s
  | .vsel x => Sys2Proof.Machine.execVsel x s
  | .vmov x => Sys2Proof.Machine.execVmov x s
  | .vpopc x => Sys2Proof.Machine.execVpopc x s
  | .vclz x => Sys2Proof.Machine.execVclz x s
  | .vbfe x => Sys2Proof.Machine.execVbfe x s
  | .vbfi x => Sys2Proof.Machine.execVbfi x s
  | .vdot4 x => Sys2Proof.Machine.execVdot4 x s
  | .fadd x => Sys2Proof.Machine.execFadd x s
  | .fsub x => Sys2Proof.Machine.execFsub x s
  | .fmul x => Sys2Proof.Machine.execFmul x s
  | .ffma x => Sys2Proof.Machine.execFfma x s
  | .fmin x => Sys2Proof.Machine.execFmin x s
  | .fmax x => Sys2Proof.Machine.execFmax x s
  | .fcmp x => Sys2Proof.Machine.execFcmp x s
  | .fclass x => Sys2Proof.Machine.execFclass x s
  | .fscale x => Sys2Proof.Machine.execFscale x s
  | .frnd x => Sys2Proof.Machine.execFrnd x s
  | .fdot2 x => Sys2Proof.Machine.execFdot2 x s
  | .frcp x => Sys2Proof.Machine.execFrcp x s
  | .frsq x => Sys2Proof.Machine.execFrsq x s
  | .fsqrt x => Sys2Proof.Machine.execFsqrt x s
  | .fexp2 x => Sys2Proof.Machine.execFexp2 x s
  | .flog2 x => Sys2Proof.Machine.execFlog2 x s
  | .fsin x => Sys2Proof.Machine.execFsin x s
  | .fcos x => Sys2Proof.Machine.execFcos x s
  | .ftanh x => Sys2Proof.Machine.execFtanh x s
  | .cvt x => Sys2Proof.Machine.execCvt x s
  | .cvtef x => Sys2Proof.Machine.execCvtef x s
  | .qblk x => Sys2Proof.Machine.execQblk x s
  | .dqblk x => Sys2Proof.Machine.execDqblk x s
  | .pack4 x => Sys2Proof.Machine.execPack4 x s
  | .unpk4 x => Sys2Proof.Machine.execUnpk4 x s
  | .shfl x => Sys2Proof.Machine.execShfl x s
  | .vbcast x => Sys2Proof.Machine.execVbcast x s
  | .vred x => Sys2Proof.Machine.execVred x s
  | .vscan x => Sys2Proof.Machine.execVscan x s
  | .ballot x => Sys2Proof.Machine.execBallot x s
  | .ld x => Sys2Proof.Machine.execLd x s
  | .st x => Sys2Proof.Machine.execSt x s
  | .lds x => Sys2Proof.Machine.execLds x s
  | .sts x => Sys2Proof.Machine.execSts x s
  | .ldg x => Sys2Proof.Machine.execLdg x s
  | .stg x => Sys2Proof.Machine.execStg x s
  | .ldl x => Sys2Proof.Machine.execLdl x s
  | .stl x => Sys2Proof.Machine.execStl x s
  | .pref x => Sys2Proof.Machine.execPref x s
  | .limset x => Sys2Proof.Machine.execLimset x s
  | .ktest x => Sys2Proof.Machine.execKtest x s
  | .kdemand x => Sys2Proof.Machine.execKdemand x s
  | .kaccept x => Sys2Proof.Machine.execKaccept x s
  | .kabandon x => Sys2Proof.Machine.execKabandon x s
  | .kmark x => Sys2Proof.Machine.execKmark x s
  | .kstat x => Sys2Proof.Machine.execKstat x s
  | .tklend x => Sys2Proof.Machine.execTklend x s
  | .tkret x => Sys2Proof.Machine.execTkret x s
  | .tktake x => Sys2Proof.Machine.execTktake x s
  | .tksplit x => Sys2Proof.Machine.execTksplit x s
  | .tkjoin x => Sys2Proof.Machine.execTkjoin x s
  | .tkshare x => Sys2Proof.Machine.execTkshare x s
  | .tkunshare x => Sys2Proof.Machine.execTkunshare x s
  | .tkhome x => Sys2Proof.Machine.execTkhome x s
  | .tkunhome x => Sys2Proof.Machine.execTkunhome x s
  | .tkquery x => Sys2Proof.Machine.execTkquery x s
  | .tkadopt x => Sys2Proof.Machine.execTkadopt x s
  | .atom x => Sys2Proof.Machine.execAtom x s
  | .atoms x => Sys2Proof.Machine.execAtoms x s
  | .bar x => Sys2Proof.Machine.execBar x s
  | .gbar x => Sys2Proof.Machine.execGbar x s
  | .wparr x => Sys2Proof.Machine.execWparr x s
  | .wpwait x => Sys2Proof.Machine.execWpwait x s
  | .waita x => Sys2Proof.Machine.execWaita x s
  | .fence x => Sys2Proof.Machine.execFence x s
  | .tld x => Sys2Proof.Machine.execTld x s
  | .tst x => Sys2Proof.Machine.execTst x s
  | .tzero x => Sys2Proof.Machine.execTzero x s
  | .tmov x => Sys2Proof.Machine.execTmov x s
  | .txp x => Sys2Proof.Machine.execTxp x s
  | .mtask x => Sys2Proof.Machine.execMtask x s
  | .mtaskm x => Sys2Proof.Machine.execMtaskm x s
  | .acalloc x => Sys2Proof.Machine.execAcalloc x s
  | .acfree x => Sys2Proof.Machine.execAcfree x s
  | .acband x => Sys2Proof.Machine.execAcband x s
  | .acdrain x => Sys2Proof.Machine.execAcdrain x s
  | .acload x => Sys2Proof.Machine.execAcload x s
  | .aczero x => Sys2Proof.Machine.execAczero x s
  | .acscale x => Sys2Proof.Machine.execAcscale x s
  | .mstat x => Sys2Proof.Machine.execMstat x s
  | .mcheck x => Sys2Proof.Machine.execMcheck x s
  | .copy x => Sys2Proof.Machine.execCopy x s
  | .msend x => Sys2Proof.Machine.execMsend x s
  | .ringset x => Sys2Proof.Machine.execRingset x s
  | .arm x => Sys2Proof.Machine.execArm x s
  | .disarm x => Sys2Proof.Machine.execDisarm x s
  | .asdef x => Sys2Proof.Machine.execAsdef x s
  | .asgo x => Sys2Proof.Machine.execAsgo x s
  | .asstop x => Sys2Proof.Machine.execAsstop x s
  | .qpop x => Sys2Proof.Machine.execQpop x s
  | .gattach x => Sys2Proof.Machine.execGattach x s
  | .gdetach x => Sys2Proof.Machine.execGdetach x s
  | .srd x => Sys2Proof.Machine.execSrd x s
  | .swr x => Sys2Proof.Machine.execSwr x s
  | .trap x => Sys2Proof.Machine.execTrap x s
  | .spawn x => Sys2Proof.Machine.execSpawn x s
  | .launch x => Sys2Proof.Machine.execLaunch x s
  | .tbinv x => Sys2Proof.Machine.execTbinv x s
  | .placew x => Sys2Proof.Machine.execPlacew x s
  | .finj x => Sys2Proof.Machine.execFinj x s
  | .groupPick core => Sys2Proof.Machine.execGroupPick core s
  | .runLimitEnd core slot => Sys2Proof.Machine.execRunLimitEnd core slot s
  | .icacheLineArrival core => Sys2Proof.Machine.execIcacheLineArrival core s
  | .resultLanding core slot id => Sys2Proof.Machine.execResultLanding core slot id s
  | .limitExpiry core op => Sys2Proof.Machine.execLimitExpiry core op s
  | .loadLanding core op => Sys2Proof.Machine.execLoadLanding core op s
  | .lateValueArrival core op => Sys2Proof.Machine.execLateValueArrival core op s
  | .pageWalkComplete quad walk => Sys2Proof.Machine.execPageWalkComplete quad walk s
  | .accessCheckComplete core op => Sys2Proof.Machine.execAccessCheckComplete core op s
  | .storeBufferDrain ctx crew => Sys2Proof.Machine.execStoreBufferDrain ctx crew s
  | .barArrivalRegister core op => Sys2Proof.Machine.execBarArrivalRegister core op s
  | .gbarArrivalRegister core op => Sys2Proof.Machine.execGbarArrivalRegister core op s
  | .monitorReread core op => Sys2Proof.Machine.execMonitorReread core op s
  | .waitLimitExpiry core op => Sys2Proof.Machine.execWaitLimitExpiry core op s
  | .aonLimitExpiry core op => Sys2Proof.Machine.execAonLimitExpiry core op s
  | .tokenOpAtHome core op => Sys2Proof.Machine.execTokenOpAtHome core op s
  | .tktakeComplete core op => Sys2Proof.Machine.execTktakeComplete core op s
  | .lentStallRelease core op => Sys2Proof.Machine.execLentStallRelease core op s
  | .tileOpComplete core op => Sys2Proof.Machine.execTileOpComplete core op s
  | .taskStart core task => Sys2Proof.Machine.execTaskStart core task s
  | .taskComplete core task => Sys2Proof.Machine.execTaskComplete core task s
  | .engineSelfTest core engine => Sys2Proof.Machine.execEngineSelfTest core engine s
  | .engineFaultPause core eslot => Sys2Proof.Machine.execEngineFaultPause core eslot s
  | .engineOpComplete core eslot => Sys2Proof.Machine.execEngineOpComplete core eslot s
  | .packetNack core packet unserved => Sys2Proof.Machine.execPacketNack core packet unserved s
  | .packetResend core packet => Sys2Proof.Machine.execPacketResend core packet s
  | .messageArrival core packet => Sys2Proof.Machine.execMessageArrival core packet s
  | .taggedMessageArrival core packet => Sys2Proof.Machine.execTaggedMessageArrival core packet s
  | .streamElementRead core stream => Sys2Proof.Machine.execStreamElementRead core stream s
  | .streamElementArrival core stream elem => Sys2Proof.Machine.execStreamElementArrival core stream elem s
  | .gdetachComplete core op => Sys2Proof.Machine.execGdetachComplete core op s
  | .crewExitRelease ctx crew => Sys2Proof.Machine.execCrewExitRelease ctx crew s
  | .legAdmission ctx => Sys2Proof.Machine.execLegAdmission ctx s
  | .crewStart ctx crew => Sys2Proof.Machine.execCrewStart ctx crew s
  | .gangReservation ctx gang => Sys2Proof.Machine.execGangReservation ctx gang s
  | .legComplete ctx leg => Sys2Proof.Machine.execLegComplete ctx leg s
  | .preemptDeadlineExpiry ctx quad => Sys2Proof.Machine.execPreemptDeadlineExpiry ctx quad s
  | .quiescePoint core => Sys2Proof.Machine.execQuiescePoint core s
  | .crewSave ctx crew => Sys2Proof.Machine.execCrewSave ctx crew s
  | .errorEvent u corrected loc => Sys2Proof.Machine.execErrorEvent u corrected loc s
  | .errorWindowExpiry die => Sys2Proof.Machine.execErrorWindowExpiry die s
  | .coreLoss core => Sys2Proof.Machine.execCoreLoss core s
  | .crewRelaunch ctx crew => Sys2Proof.Machine.execCrewRelaunch ctx crew s
  | .grantUpdate quad grants => Sys2Proof.Machine.execGrantUpdate quad grants s
  | .groupUnpark core => Sys2Proof.Machine.execGroupUnpark core s
  | .stepRaise quad => Sys2Proof.Machine.execStepRaise quad s
  | .stepLower quad => Sys2Proof.Machine.execStepLower quad s
  | .voltageFall quad => Sys2Proof.Machine.execVoltageFall quad s
  | .gddrTempReport dev celsius => Sys2Proof.Machine.execGddrTempReport dev celsius s
  | .thermalCapStep quad junctions => Sys2Proof.Machine.execThermalCapStep quad junctions s
  | .quadrantJoin quad junctions => Sys2Proof.Machine.execQuadrantJoin quad junctions s
  | .quadrantCalibrated quad => Sys2Proof.Machine.execQuadrantCalibrated quad s
  | .powerUp stages => Sys2Proof.Machine.execPowerUp stages s
  | .faultRecordWrite ctx => Sys2Proof.Machine.execFaultRecordWrite ctx s
  | .faultRecordEnable ctx val => Sys2Proof.Machine.execFaultRecordEnable ctx val s
  | .contextReset ctx => Sys2Proof.Machine.execContextReset ctx s
  | .preemptRequest ctx => Sys2Proof.Machine.execPreemptRequest ctx s
  | .queueLeg ctx hart val => Sys2Proof.Machine.execQueueLeg ctx hart val s
  | .hostTbinv ctx val => Sys2Proof.Machine.execHostTbinv ctx val s
  | .tlbInvalidateComplete inv => Sys2Proof.Machine.execTlbInvalidateComplete inv s
  | .placeValueWrite ctx val => Sys2Proof.Machine.execPlaceValueWrite ctx val s
  | .tokenOwn ctx hart val => Sys2Proof.Machine.execTokenOwn ctx hart val s
  | .tokenRelease ctx hart val => Sys2Proof.Machine.execTokenRelease ctx hart val s
  | .tokenHome ctx hart val => Sys2Proof.Machine.execTokenHome ctx hart val s
  | .tokenUnhome ctx hart val => Sys2Proof.Machine.execTokenUnhome ctx hart val s
  | .debugStep ctx val => Sys2Proof.Machine.execDebugStep ctx val s
  | .resumeGroup ctx => Sys2Proof.Machine.execResumeGroup ctx s
  | .resumeCore ctx => Sys2Proof.Machine.execResumeCore ctx s
  | .resumeEngine ctx => Sys2Proof.Machine.execResumeEngine ctx s
  | .suspendCrew ctx => Sys2Proof.Machine.execSuspendCrew ctx s
  | .restoreCrew ctx => Sys2Proof.Machine.execRestoreCrew ctx s
  | .registerWrite offset val => Sys2Proof.Machine.execRegisterWrite offset val s
  | .hostMemoryAccess hart pa wr len => Sys2Proof.Machine.execHostMemoryAccess hart pa wr len s
  | .inboundRequest x => Sys2Proof.Machine.execInboundRequest x s
  | .postedWriteRelease id => Sys2Proof.Machine.execPostedWriteRelease id s
  | .pcieLinkTraining port up rate lanes err => Sys2Proof.Machine.execPcieLinkTraining port up rate lanes err s
  | .mgmtAutoNegotiation up => Sys2Proof.Machine.execMgmtAutoNegotiation up s
  | .mgmtReadTemperatures => Sys2Proof.Machine.execMgmtReadTemperatures s
  | .mgmtReadEvents => Sys2Proof.Machine.execMgmtReadEvents s
  | .mgmtSetStepCap => Sys2Proof.Machine.execMgmtSetStepCap s
  | .mgmtSetHotlim => Sys2Proof.Machine.execMgmtSetHotlim s
  | .mgmtResetModule => Sys2Proof.Machine.execMgmtResetModule s
  | .mgmtFirmwareChunk => Sys2Proof.Machine.execMgmtFirmwareChunk s
  | .mgmtFirmwareCommit => Sys2Proof.Machine.execMgmtFirmwareCommit s
  | .mgmtQuote => Sys2Proof.Machine.execMgmtQuote s
  | .mgmtSetAddress => Sys2Proof.Machine.execMgmtSetAddress s
  | .mgmtUnknownOp => Sys2Proof.Machine.execMgmtUnknownOp s
  | .mgmtArp => Sys2Proof.Machine.execMgmtArp s
  | .mgmtIcmpEcho => Sys2Proof.Machine.execMgmtIcmpEcho s
  | .mgmtDhcp => Sys2Proof.Machine.execMgmtDhcp s
  | .unassignedOpcode => Sys2Proof.Machine.execUnassignedOpcode s

end Sys2Proof.Machine
end

