-- ==== Sys2Proof/Machine/Step.lean ====
section
/-! DEFINITION. One step of the module: the instruction at the issue slot, else what the outside world does, else what falls due, else a core's
scheduler, else a clock advances. -/

namespace Sys2Proof.Machine

open Sys2Proof

/-- A step that the state offers no occasion for changes nothing. -/
def settle (o : Host.Outcome State Fault Refusal) (s : State) : Host.Outcome State Fault Refusal :=
  match o with
  | .next t => .next t
  | .fault _ => .next s
  | .refused r => match r with
    | .notEnabled _ => .next s
    | r => .refused r

/-- The instruction at the issue slot: fetched, decoded and run (R49 to R52). -/
def issueStep (s : State) (i : Slot) : Host.Outcome State Fault Refusal :=
  match (s.group? i.core i.slot).bind fun G => (G.splits[i.split]).map fun S => (G, S) with
  | none => .next s.clearIssue
  | some (G, S) => match s.fetch i.core G.ctx G.crew S.pc with
    | (.error none, t) => .next (t.clearIssue.unstep i.core i.slot)
    | (.error (some k), t) => .next ((t.fetchFault i.core i.slot S.pc k (s.codeAddr G.ctx G.crew S.pc)).stepVoid i.core i.slot)
    | (.ok w, t) => match decode w with
      | .ok ins => settle (exec ins t) t.clearIssue
      | .illEnc _ => settle (illegal t .illEnc) t.clearIssue

/-- The place of the first event that is due. -/
def firstDue (s : State) : Option Nat := s.sch.agenda.findIdx? fun d => decide (d.at' ≤ s.clock d.clk)

/-- A step between instructions. -/
def eventStep (s : State) : Host.Outcome State Fault Refusal :=
  match s.sch.inputs with
  | e :: rest =>
    let t := s.modSch fun h => { h with inputs := rest }
    settle (exec e t) t
  | [] => match s.mgmt.inbox with
    | f :: _ =>
      let t := s.takeFrame
      settle (exec (frameStep f) s) t
    | [] => match firstDue s with
      | some i => match s.sch.agenda[i]? with
        | some d =>
          let t := s.modSch fun h => { h with agenda := h.agenda.eraseIdx i }
          settle (exec d.ev t) t
        | none => .next s
      | none => match s.sch.todo with
        | c :: rest =>
          let t := s.modSch fun h => { h with todo := rest }
          settle (exec (.groupPick c) t) t
        | [] => .next s.tick

/-- One step. -/
def step (s : State) : Host.Outcome State Fault Refusal :=
  match s.sch.issue with
  | some i => issueStep s i
  | none => eventStep s

/-! ## An instruction in place -/

/-- A launch record of zeros: one crew of one group with 256 vector registers. -/
def LRec.blank : LRec :=
  { bytes := [], addr := 0, code := 0, entry := 0, crews := 1, gang := 1, scr := 0, regs := 256, grps := 1, edges := 0, done := none, deal := none,
    root := false, seqchk := false, seq := 0, next := none, grants := [], consts := Vector.replicate 64 0 }

/-- The first bytes of memory replaced. -/
def State.placeCode (s : State) (bs : List Byte) : State := { s with mem := s.mem.writeBytes 0 bs }

namespace State

/-- An instruction of 12 bytes placed at physical address 0 and at the issue slot of core 0: a leg with one crew and one group there whose PC is
0, and a translation of its page (the log tells how a program comes to run from reset). -/
def withFetchWord (s : State) (nbits w : Nat) : State :=
  let l : Leg := Leg.queued LRec.blank 0 0 none none
  let k : Crew := { newCrew 0 0 0 0 0 false none 0 with st := .resident, core := 0, slots := (Vector.replicate 16 none).set 0 (some 0) }
  let s := s.placeCode (bytesOfWord (BitVec.ofNat 96 (w % 2 ^ nbits)))
  let s := s.modCtx 0 fun x => { x with legs := [{ l with admitted := true, alive := 1, started := 1 }], crews := [k] }
  let s := s.setGroup 0 0 (some (Group.start 0 0 0 256 (groupIdWord 0 0 0) LRec.blank.consts 0 0))
  let s := s.modCore 0 fun c => { c with caches := { c.caches with tlb := [⟨0, 0, 12, 0, false, true, false⟩] } }
  s.modSch fun h => { h with issue := some ⟨0, 0, 0⟩ }

end State

end Sys2Proof.Machine
end

