-- ==== Sys2Proof/Safety.lean ====
section
/-! DEFINITION. The terms in which the statements speak: an instruction that may issue, a split that has gone on, results in flight,
what an issue leaves alone, and the invariant of memory. -/

namespace Sys2Proof.Machine

open Sys2Proof

/-! ## Instructions at issue -/

/-- An instruction at the issue slot whose guard, registers and data let it issue: none of its v registers lies beyond the budget
(R52), no l register it reads is stale (R68), its guard is not a marked p predicate under FAULT (R110), and no register it reads is
uncorrectable (R355). -/
structure Ready (s : State) (h : Hdr) (u : Use) (I : Iss) : Prop where
  issuer : s.issuer h = some I
  clear : I.pre u = none
  unmarked : I.guardMarks = 0
  sound : I.meetsUe u = false

/-- The group of an issue in a state. -/
def Iss.groupIn (I : Iss) (t : State) : Option Group := t.group? I.c I.g

/-- The issue slot is empty, and the split stands at an instruction with the lanes it had; the other splits are as they were. -/
def Iss.At (I : Iss) (t : State) (pc : Word) : Prop :=
  t.sch.issue = none ∧ ∃ G S, I.groupIn t = some G ∧ G.splits[I.sp] = some S ∧ S.pc = pc ∧ S.m = I.S.m ∧ S.o = I.S.o ∧
    S.stack = I.S.stack ∧ ∀ j : Fin 4, j ≠ I.sp → G.splits[j] = I.G.splits[j]

/-- The split has ended its run and stands at the run boundary of `pc` with an entry WAIT, not to issue before cycle `from_`, ready as before;
it has the lanes and the deferral stack it had, and the other splits are as they were, but for the merge of R108 (`Group.mergeAt`). -/
def Iss.Goes (I : Iss) (t : State) (pc : Word) (wait : BitVec 12) (from_ : Nat) : Prop :=
  t.sch.issue = none ∧ ∃ (G H : Group) (T : Split), I.groupIn t = some G ∧ G.splits = (H.mergeAt I.sp I.t I.P).splits ∧ H.splits[I.sp] = some T ∧
    T.pc = pc ∧ T.m = I.S.m ∧ T.o = I.S.o ∧ T.stack = I.S.stack ∧ T.inRun = false ∧ T.wait = wait ∧ T.notBefore = from_ ∧
    T.readyFrom = I.S.readyFrom ∧ ∀ j : Fin 4, j ≠ I.sp → H.splits[j] = I.G.splits[j]

/-- The flag an instruction names is set from a cycle on, when it names one. -/
def Iss.Flags (I : Iss) (t : State) (since : Nat) : Prop :=
  ∀ f, I.h.setf = some f → ∃ G, I.groupIn t = some G ∧ (G.regs.flag f).isSet = true ∧ (G.regs.flag f).since = since

/-- The flag an instruction names is clear, when it names one: what the instruction began sets it. -/
def Iss.Unset (I : Iss) (t : State) : Prop :=
  ∀ f, I.h.setf = some f → ∃ G, I.groupIn t = some G ∧ (G.regs.flag f).isSet = false ∧ (G.regs.flag f).owner = I.id

/-- Results in flight: they will land in the registers, and set the flag, of their group at cycle `due`; nothing is in flight when
there is neither. -/
def Iss.Flies (I : Iss) (t : State) (due : Nat) (ws : List RegWrite) : Prop :=
  ws = [] ∧ I.h.setf = none ∨
    ∃ G p, I.groupIn t = some G ∧ p ∈ G.pend ∧ p.id = I.id ∧ p.due = due ∧ p.ws = ws ∧ p.setf = I.h.setf ∧
      (⟨.quad (quadOf I.c), due, .resultLanding I.c I.g I.id⟩ : Due) ∈ t.sch.agenda

/-- A result in flight whose flag the issue has set already. -/
def Iss.FliesBare (I : Iss) (t : State) (due : Nat) (ws : List RegWrite) : Prop :=
  ws = [] ∨ ∃ G p, I.groupIn t = some G ∧ p ∈ G.pend ∧ p.id = I.id ∧ p.due = due ∧ p.ws = ws ∧ p.setf = none ∧
    (⟨.quad (quadOf I.c), due, .resultLanding I.c I.g I.id⟩ : Due) ∈ t.sch.agenda

/-- A group that an issue left as it was, but for its splits, what is in flight, the flag named and the guesses of retired lanes: no
other register, no special register, no reckon slot and no sample changes. -/
structure Group.Kept (f : Option (Fin 12)) (G H : Group) : Prop where
  same : H = { G with regs := { G.regs with flags := H.regs.flags }, splits := H.splits, cur := H.cur, lastE := H.lastE, pend := H.pend,
                      trails := H.trails, guesses := H.guesses, holdUntil := H.holdUntil, ending := H.ending }
  flags : ∀ i, f ≠ some i → H.regs.flag i = G.regs.flag i

/-- What the issue of an instruction leaves alone beside what `s` holds already: memory, every context, quadrant and other core, every
other group, the caches, operations, matrix array, engines, streams, queues and packets of its core, the registers of its group but the
flag it names (results are still in flight); what was to happen is still to happen, and no clock has moved. -/
structure Iss.Alone (I : Iss) (s t : State) : Prop where
  rest : t = { s with sch := t.sch, cores := t.cores }
  sch : ∃ l, t.sch = { s.sch with issue := none, ids := t.sch.ids, agenda := s.sch.agenda ++ l }
  cores : ∀ c, c ≠ I.c → t.core c = s.core c
  core : t.core I.c = { s.core I.c with groups := (t.core I.c).groups, units := (t.core I.c).units, allow := (t.core I.c).allow,
                                        energy := (t.core I.c).energy }
  groups : ∀ g, g ≠ I.g → t.group? I.c g = s.group? I.c g
  group : ∃ G H, s.group? I.c I.g = some G ∧ I.groupIn t = some H ∧ G.Kept I.h.setf H

/-- The guesses, the trailers that wait, the open run and the holds of a group as they were: its run goes on. -/
def Iss.Still (I : Iss) (s t : State) : Prop :=
  ∃ G H, s.group? I.c I.g = some G ∧ I.groupIn t = some H ∧ H.guesses = G.guesses ∧ H.trails = G.trails ∧ H.cur = G.cur ∧
    H.holdUntil = G.holdUntil ∧ H.ending = G.ending

/-- An instruction takes effect in its run: it issues, its split goes on to the next instruction, `s'` holds what it did besides, nothing
else changes, and `P` holds of the state after. -/
def Acts (i : Instr) (s : State) (I : Iss) (s' : State) (P : State → Prop) : Prop :=
  ∃ t, exec i s = .next t ∧ I.At t (I.S.pc + 1) ∧ I.Still s' t ∧ I.Alone s' t ∧ P t

/-- An instruction takes effect and ends its run, its split going on at `pc` with an entry WAIT from a cycle on; `s'` holds what it did
besides, nothing else changes, and `P` holds of the state after. -/
def Jumps (i : Instr) (s : State) (I : Iss) (s' : State) (pc : Word) (wait : BitVec 12) (from_ : Nat) (P : State → Prop) : Prop :=
  ∃ t, exec i s = .next t ∧ I.Goes t pc wait from_ ∧ I.Alone s' t ∧ P t

/-- An instruction that only computes: it issues, its split goes on to the next instruction, its results will land at cycle `due`, and
nothing else changes. -/
def Computes (i : Instr) (s : State) (I : Iss) (due : Nat) (ws : List RegWrite) : Prop := Acts i s I s (I.Flies · due ws)

/-- An instruction that a fault stops: it has no effect but the exception (R112). -/
def Stops (i : Instr) (s : State) (I : Iss) (r : Report) : Prop := exec i s = .next (I.s.clearIssue.takeStop I.c I.g r)

/-- What an instruction with a q guard writes: nothing while the guard is false (R54, R111). -/
def Iss.guarded (I : Iss) (ws : List RegWrite) : List RegWrite := if I.qok then ws else []

/-- A scalar instruction that only computes: its result is `e`, visible `occ` cycles after its issue cycle (R61, R62), written to the
scalar destination `d` while the guard holds, `zero` discarding it. A marked result for xm0 to xm2 under FAULT stops it (R105, R171). -/
def ScalarResult (i : Instr) (s : State) (I : Iss) (occ : Nat) (d : Opnd) (e : Elem) : Prop :=
  if I.qok = true ∧ e.k = true ∧ Iss.isXm d = true ∧ I.uses 0 = false then Stops i s I I.kAll
  else Computes i s I (I.t + occ) (I.guarded (I.wscal d e))

/-- A vector instruction of the short class that only computes: its results `x` are visible `q` cycles after the cycle that follows its
last pass (R61, R62), in the active lanes of `d` alone; the other lanes keep value and mark. -/
def VectorResult (i : Instr) (s : State) (I : Iss) (q : Nat) (d : Opnd) (x : VReg) : Prop :=
  Computes i s I (I.t + I.P + q) (Iss.wvec d I.active x)

/-- A vector instruction of the long class that only computes: its results land, and are visible, `lat` cycles after its issue (R63, Table 3
of chapter 6). -/
def LongResult (i : Instr) (s : State) (I : Iss) (lat : Nat) (ws : List RegWrite) : Prop := Computes i s I (I.t + lat) ws

end Sys2Proof.Machine
end

