-- ==== Sys2Proof/Certificates/Slice0/Obligations.lean ====
section
/-! DEFINITION. The statements for the provers. -/

open Sys2Proof Sys2Proof.Machine

/-! ## Terms of the statements -/

namespace Sys2Proof.Machine

/-- A condition of Table 8 of chapter 5 on two words. -/
def condSays (c : Cond) (a b : Word) : Bool :=
  match c with
  | .eq => a == b | .ne => a != b | .lt => a.toInt < b.toInt | .le => a.toInt ≤ b.toInt | .gt => b.toInt < a.toInt
  | .ge => b.toInt ≤ a.toInt | .ltu => a.toNat < b.toNat | .leu => a.toNat ≤ b.toNat | .gtu => b.toNat < a.toNat
  | .geu => b.toNat ≤ a.toNat

/-- A function of Table 9 of chapter 5. -/
def plogSays (f : PFn) (a b : Bool) : Bool :=
  match f with
  | .and => a && b | .or => a || b | .xor => a != b | .andn => a && !b | .orn => a || !b | .nand => !(a && b) | .nor => !(a || b)
  | .xnor => a == b | .not => !a

/-- A pointer advanced by a signed offset (chapter 5, PADD): in space 0 ADDR<61:0> moves modulo 2^62, elsewhere ADDR modulo 2^80; every
other bit stays. -/
def ptrPlus (p : Ptr) (b : Word) : Ptr :=
  if p.extractLsb' 80 4 = 0 then p.extractLsb' 62 34 ++ (p.extractLsb' 0 62 + b.signExtend 62)
  else p.extractLsb' 80 16 ++ (p.extractLsb' 0 80 + b.signExtend 80)

/-- What a pointer instruction writes: three registers, to the active lanes of v registers or to s registers while the guard holds. -/
def ptrWrites (I : Iss) (d : Triple) (p : Nat → Ptr) (k : Nat → Nat → Bool) : List RegWrite :=
  let e (i j : Nat) : Elem := ⟨(p i).extractLsb' (32 * j) 32, k i j⟩
  match d with
  | .v n => [.vec (.v n) I.active (VReg.of (e · 0)), .vec (.v (n + 1)) I.active (VReg.of (e · 1)), .vec (.v (n + 2)) I.active (VReg.of (e · 2))]
  | .s n => I.guarded [I.wsreg n (e 0 0), I.wsreg (n + 1) (e 0 1), I.wsreg (n + 2) (e 0 2)]

/-- A field of a pointer (Table 11 of chapter 5). -/
def fieldSays (f : PField) (p : Ptr) : Nat :=
  match f with
  | .lo => p.toNat % 2 ^ 32 | .mid => p.toNat / 2 ^ 32 % 2 ^ 32 | .hi => p.toNat / 2 ^ 64 % 2 ^ 16 | .space => p.toNat / 2 ^ 80 % 16
  | .rank => p.toNat / 2 ^ 84 | .module => p.toNat / 2 ^ 62 % 2 ^ 18

/-- A condition of PCMP: EQ and NE compare all 96 bits; the unsigned ones compare ADDR and are false when SPACE or RANK differ. -/
def ptrSays (c : Cond) (p q : Ptr) : Bool :=
  let x := p.toNat % 2 ^ 80
  let y := q.toNat % 2 ^ 80
  let same := p.toNat / 2 ^ 80 = q.toNat / 2 ^ 80
  match c with
  | .eq => p == q | .ne => p != q | .ltu => same && x < y | .leu => same && x ≤ y | .gtu => same && y < x | .geu => same && y ≤ x
  | _ => false

/-- R122: the elements of a lane, lowest in the low bits, each through a function of its width. -/
def perElement (w : ElemW) (f : (n : Nat) → BitVec n → BitVec n → BitVec n) (a b : Word) : Word :=
  match w with
  | .w32 => f 32 a b
  | .w16 => f 16 (a.extractLsb' 16 16) (b.extractLsb' 16 16) ++ f 16 (a.extractLsb' 0 16) (b.extractLsb' 0 16)
  | .w8 => f 8 (a.extractLsb' 24 8) (b.extractLsb' 24 8) ++ f 8 (a.extractLsb' 16 8) (b.extractLsb' 16 8) ++
      f 8 (a.extractLsb' 8 8) (b.extractLsb' 8 8) ++ f 8 (a.extractLsb' 0 8) (b.extractLsb' 0 8)

/-- An element as a number, unsigned under U. -/
def elemNum (u : Bool) {n : Nat} (a : BitVec n) : Int := if u then a.toNat else a.toInt

/-- A number as an element: limited to the element's range under SAT, else modulo 2^n. -/
def elemOut (sat u : Bool) (n : Nat) (x : Int) : BitVec n :=
  let lo : Int := if u then 0 else -(2 ^ (n - 1) : Nat)
  let hi : Int := if u then (2 ^ n : Nat) - 1 else (2 ^ (n - 1) : Nat) - 1
  BitVec.ofInt n (if sat then (if x < lo then lo else if hi < x then hi else x) else x)

/-- A condition of FCMP (Table 8 of chapter 6). -/
def fcondSays (c : FCond) (x y : FVal) : Bool :=
  let un := x.isNan || y.isNan
  match c with
  | .eq => x.eq y | .ne => !x.eq y | .lt => x.lt y | .le => x.lt y || x.eq y | .gt => y.lt x | .ge => y.lt x || x.eq y | .un => un
  | .ord => !un

/-- The class of an FP32 word by its code (Table 9 of chapter 6): −∞, negative normal, negative subnormal, −0, +0, positive subnormal,
positive normal, +∞, NaN. -/
def classSays (x : Word) : Word :=
  let m := x.toNat % 2 ^ 31
  let n : Bool := x.msb
  let i : Nat := if 0x7F800000 < m then 8 else if m = 0x7F800000 then (if n then 0 else 7) else if m = 0 then (if n then 3 else 4)
    else if m < 0x800000 then (if n then 2 else 5) else (if n then 1 else 6)
  BitVec.ofNat 32 (2 ^ i)

/-- The lanes of a segment: 96 for the whole group, else 2, 4, 8, 16 or 32 (R129). -/
def segLanes (seg : Fin 6) : Nat := if seg.val = 0 then 96 else 2 ^ seg.val

/-- The reduction of two parts, one of which may be empty (R131). -/
def redPair (f : Word → Word → Word) : Option Elem → Option Elem → Option Elem
  | none, y => y
  | x, none => x
  | some p, some q => some ⟨f p.val q.val, p.k || q.k⟩

/-- The fixed tree of R131 over 2^n lanes from one on. -/
def redTree (f : Word → Word → Word) (at' : Nat → Option Elem) : Nat → Nat → Option Elem
  | 0, l => at' l
  | n + 1, l => redPair f (redTree f at' n l) (redTree f at' n (l + 2 ^ n))

/-- The function of a reduction (Table 12). -/
def redSays (o : RedOp) (rm : RMode) (a b : Word) : Word :=
  match o with
  | .add => a + b | .and => a &&& b | .or => a ||| b | .xor => a ^^^ b
  | .min => if a.slt b then a else b | .max => if a.slt b then b else a
  | .umin => if a.ult b then a else b | .umax => if a.ult b then b else a
  | .fadd => toF32 rm false (FVal.sum rm [f32 a, f32 b])
  | .fmin => BitVec.ofNat 32 (FpF.f32.minMax false a.toNat b.toNat)
  | .fmax => BitVec.ofNat 32 (FpF.f32.minMax true a.toNat b.toNat)

/-- The running value of VSCAN before lane `l` of a segment: the reduction, in order, of its active lanes below (R132). -/
def scanBefore (f : Word → Word → Word) (at' : Nat → Option Elem) (base : Nat) : Nat → Option Elem
  | 0 => none
  | n + 1 => redPair f (scanBefore f at' base n) (at' (base + n))

/-- An access operation begun: its checks go on in the cycle after its issue, or, when it leaves its own scratchpad, a free number of
cycles later. -/
def begins (I : Iss) (s : State) (o : Op) : State :=
  let s1 := s.addOp I.c o
  if o.accs.all (fun a => Ptr.space a.ptr == 1) then s1.postQ I.c (I.t + 1) (.accessCheckComplete I.c I.id)
  else s1.freeNat.2.postQ I.c (I.t + 1 + s1.freeNat.1) (.accessCheckComplete I.c I.id)

/-- The issue of an access instruction whose operation is `o` (R144, R153): without an active access its flag is set at t; with no cause
found at issue the operation begins, its checks going on afterwards, and `more` and `ahead` happen besides; a serviced cause puts it into
the operand log, with its lanes of marked data remembered, and the exception is taken; any other stops the group without effect. -/
def AccessIssues (i : Instr) (s : State) (I : Iss) (o : Op) (store : Bool) (marked : List Nat) (more ahead : State → State) : Prop :=
  let o' : Op := { o with accs := o.accs.map fun a => { a with mark := marked.contains a.lane } }
  if o.accs = [] then Acts i s I s (I.Flags · (I.t + 1))
  else match accReport i I.S.pc o.accs (I.accCauses o.accs (accAlign i) store marked) with
    | none => Acts i s I (ahead (more (begins I I.s o'))) I.Unset
    | some r =>
      if r.cause.serviced then
        ∃ t, I.At t (I.S.pc + 1) ∧ I.Alone (more (I.s.addOp I.c { o' with stage := .logged })) t ∧ exec i s = .next (t.takeServiced I.c I.g r)
      else Stops i s I r

/-- The operation of an access: its lanes' accesses and nothing of it done. -/
def opOf (i : Instr) (I : Iss) (accs : List Acc) : Op :=
  { id := I.id, slot := I.g, split := I.sp, pc := I.S.pc, ins := i, t := I.t, active := I.active, args := [], vargs := [], accs := accs,
    stage := .check, setf := I.h.setf, due := 0, limit := none, last := 0, firstRead := none, cause := none, data := [], acq := false }

/-- The access of one lane: `n` bytes at a pointer, from the cycle of its pass on; a marked address fails with K_CONSUME (R156). -/
def accOf (lane start : Nat) (p : Ptr) (n : Nat) (marked : Bool) : Acc :=
  { lane := lane, ptr := p, nbytes := n, data := 0, cmp := 0, mark := false, lim := none, start := start, res := 0, km := 0, arr := none, dlv := false,
    direct := false, cause := if marked then some .kConsume else none }

/-- The accesses of LD and ST, one for each active lane in ascending order: the lane's pointer moved by its offset (R147, R153). -/
def lanesOf (I : Iss) (t : Triple) (off : Nat → Word × Bool) (scale n : Nat) : List Acc :=
  ((List.range 96).filter fun l => I.active.getLsbD l).map fun l =>
    accOf l (I.t + (I.s.core I.c).passOf l) (Ptr.advance (I.triple t l).1 ((off l).1.toInt * scale)) n ((I.triple t l).2 || (off l).2)

/-- The offsets of a load: b lane by lane, or, with the limit in b, the word's 8-bit offset in widths. -/
def loadOffset (I : Iss) (x : LdA) (l : Nat) : Word × Bool :=
  if x.lsel = 7 then (x.ofs8.signExtend 32, false) else (((I.vsrc false x.b).at l).val, ((I.vsrc false x.b).at l).k)

/-- Whether EXACT reads 1: set by the group's context, or held at 1 while FORCED stands (R172). -/
def exactNow (I : Iss) : Bool := (I.s.ctx I.G.ctx).forced || ((I.s.core I.c).exact[I.G.ctx]?).getD true

/-- Whether a load is a demand load: its selector is 0 or EXACT is set (R148, R149). -/
def isDemand (I : Iss) (x : LdA) : Bool := x.lsel = 0 || exactNow I

/-- What a limited load to a scalar register remembers of its issue: that lane 0 had exited before it (R162, R164). -/
def exited0 (I : Iss) (d : Opnd) : List Word :=
  match gdest d with
  | .s _ => if I.G.aliveLanes.getLsbD 0 then [] else [1]
  | _ => []

/-- The issue of a limited load (R148, R164, R167): a cause that a guess cannot hide stops it; with 16 open guesses it is held; else it takes
an entry, each lane gets its limit, of 4 cycles at least, and a lane whose cause is hidden waits as failed. -/
def LimitedIssues (i : Instr) (x : LdA) (s : State) (I : Iss) (accs : List Acc) (lim : Nat → Nat) : Prop :=
  let cs := I.accCauses accs (fun n => n) false []
  let set (a : Acc) : Acc :=
    { a with lim := some (I.t + max 4 (lim a.lane)), cause := (cs.find? fun p => p.1 == a.lane).map (·.2) }
  if accs = [] then Acts i s I s (I.Flags · (I.t + 1))
  else match accReport i I.S.pc accs (cs.filter fun p => !p.2.hides) with
    | some r => ∃ r', r'.cause = r.cause ∧ r'.cmask = r.cmask ∧ r'.scalar = r.scalar ∧ r'.pc = r.pc ∧ r'.ptr = r.ptr ∧ Stops i s I r'
    | none =>
      if 16 ≤ I.G.guesses.length then exec i s = .next (I.held I.s)
      else
        let s1 := begins I I.s { opOf i I (accs.map set) with args := exited0 I x.d }
        let s2 := (accs.map fun a => I.t + max 4 (lim a.lane)).dedup.foldl (fun s t => s.postQ I.c t (.limitExpiry I.c I.id)) s1
        Acts i s I (s2.modGroup I.c I.g fun G =>
          { G with guesses := G.guesses ++ [⟨I.id, gdest x.d, x.width.regs, x.slot, x.fp, x.width, false, []⟩] }) I.Unset

/-- The issue of a token instruction (R189, R196, R197): a false guard does nothing; TKADOPT of a crew that is not root stops with PRIV; of a
marked pointer or B, which raises K_CONSUME and nothing else, a pointer that no token operation may name (ILL_PTR, PROT for records) and a
recipient that may not receive (PROT), the cause of lowest rank stops the group, or, serviced, puts the operation into the operand log;
else the operation sets out for home, and the crew commits where R189 says. -/
def TokenIssues (i : Instr) (s : State) (I : Iss) (a : Fin 126) (b : Elem) (root : Bool) : Prop :=
  let p := (I.striple a).1
  let acc : Acc := { accOf 0 I.t p 1 (I.striple a).2 with mark := b.k }
  let o : Op := { opOf i I [acc] with args := [b.val], last := BitVec.ofNat 32 I.G.ctx }
  let begun := (I.s.addOp I.c o).postQ I.c (I.t + 1) (.accessCheckComplete I.c I.id)
  if I.qok = false then Acts i s I s (I.Flags · (I.t + 1))
  else if root = true ∧ (I.crew.map (·.root)).getD false = false then Stops i s I { cause := .priv, scalar := true, pc := I.S.pc }
  else match worst (I.s.tokCauses I.who i acc b.val) with
    | some .kConsume => Stops i s I I.kAll
    | none => Acts i s I (if I.tokCommits i b.val then begun.commit I.G.ctx I.G.crew 4 else begun) I.Unset
    | some c =>
      let r : Report := { cause := c, scalar := true, pc := I.S.pc, ptr := p }
      if c.serviced then
        ∃ t, I.At t (I.S.pc + 1) ∧ I.Alone (I.s.addOp I.c { o with stage := .logged }) t ∧ exec i s = .next (t.takeServiced I.c I.g r)
      else Stops i s I r

/-- An operand of one or two words and whether it is marked. -/
def operandOf (a b : Elem) (dbl : Bool) : BitVec 64 × Bool :=
  if dbl then (b.val ++ a.val, a.k || b.k) else (a.val.zeroExtend 64, a.k)

/-- An operation of the array that waits for its turn among its tenant's (R234, R259). -/
def ArrayActs (i : Instr) (s : State) (I : Iss) (s1 : State) (args : List Word) (vargs : List VReg) (act : Lanes) : Prop :=
  Acts i s I ((s1.addOp I.c { opOf i I [] with args := args, vargs := vargs, active := act, stage := .waiting }).postQ I.c I.t
    (.accessCheckComplete I.c I.id)) I.Unset

/-- The issue of an accumulator instruction that acts for its group (R267): a false guard sets its flag at t + 1, a marked operand stops
always, and a cause stops it; else `go`. -/
def AccIssues (i : Instr) (s : State) (I : Iss) (marked : Bool) (cause : Option Cause) (go : Prop) : Prop :=
  if I.qok = false then Acts i s I s (I.Flags · (I.t + 2))
  else if marked then Stops i s I I.kAll
  else match cause with
    | some c => Stops i s I { cause := c, scalar := true, pc := I.S.pc }
    | none => go

/-- An accumulator instruction that takes effect at its issue, its status landing at t + 2. -/
def InstantActs (i : Instr) (s : State) (I : Iss) (s1 : State) (args : List Word) (ws : List RegWrite) : Prop :=
  Acts i s I ((s1.addOp I.c { opOf i I [] with args := args, stage := .performed, due := I.t + 2 }).landAt I.c I.g I.id I.h.setf ws
    (I.t + 2)) fun t => I.Flies t (I.t + 2) ws ∧ I.Unset t

/-- A bank selector's number, and whether its register is marked (R256). -/
def selOf (I : Iss) : BankSel → Nat × Bool
  | .a n => (n, false)
  | .s n => ((I.sreg n).val.toNat % 32, (I.sreg n).k)

/-- The rows a range word names: FIRST in bits 4:0, the count less 1 in bits 12:8, those past row 31 left out (R271). -/
def rowsOf (w : Word) : List Nat := ((List.range (w.toNat / 256 % 32 + 1)).map (w.toNat % 32 + ·)).filter (· < 32)

/-- The issue of an engine instruction (R277, R280, R282): a false guard does nothing; the lowest-ranked cause of its operands stops it, or,
serviced, puts it into the operand log, those of `operands` that are marked raising K_CONSUME alone; with no slot free (`held`) it is held;
else what it begins is `begun` of its operation, which remembers an uncorrectable payload (`ue`) for its crew to consume. -/
def EngineIssues (i : Instr) (s : State) (I : Iss) (args : List Word) (operands : List (Nat × Bool)) (ue held : Bool) (more : State → State)
    (begun : Op → State) : Prop :=
  let marks := (operands.filter fun x => x.2).map fun x => x.1
  let o : Op := { opOf i I (marks.map fun j => accOf j I.t 0 1 true) with args := args, cause := if ue then some .ueData else none }
  if I.qok = false then Acts i s I s (I.Flags · (I.t + 2))
  else match State.engReport o (I.s.engCauses I.who i args marks) with
    | some r =>
      if r.cause = .kConsume then Stops i s I I.kAll
      else if r.cause.serviced then
        ∃ t, I.At t (I.S.pc + 1) ∧ I.Alone (more (I.s.addOp I.c { o with stage := .logged })) t ∧ exec i s = .next (t.takeServiced I.c I.g r)
      else Stops i s I r
    | none =>
      if held then exec i s = .next (I.held I.s)
      else if ue then ∃ e : Eff, e.after = none ∧ e.serviced = none ∧ exec i s = .next (I.commit (more (begun o)) e)
      else Acts i s I (more (begun o)) I.Unset

/-- The cause of lowest rank among those of a system instruction's operands, with its report. -/
def SysStops (i : Instr) (s : State) (I : Iss) (cs : List Cause) (p : Ptr) (go : Prop) : Prop :=
  match worst (cs.map fun c => (0, c)) with
  | some .kConsume => Stops i s I I.kAll
  | some c => Stops i s I { cause := c, scalar := true, pc := I.S.pc, ptr := p }
  | none => go

/-- A step of the module takes its effect, and `P` holds of the state after. -/
def Runs (e : Instr) (s : State) (P : State → Prop) : Prop := ∃ t, exec e s = .next t ∧ P t

/-- An event of a quadrant that will happen in a cycle. -/
def Awaits (t : State) (c : Nat) (at_ : Nat) (ev : Instr) : Prop := (⟨.quad (quadOf c), at_, ev⟩ : Due) ∈ t.sch.agenda

/-- The registers of a group but its flags, and its splits, as some writes leave them. -/
def Landed (G H : Group) (ws : List RegWrite) : Prop :=
  let K := ws.foldl Group.applyWrite G
  { H.regs with flags := K.regs.flags } = K.regs ∧ H.splits = K.splits

/-- A request at the head of the management port's frames, its link up, sent to the port's address and to UDP port 5,170, that the controller
accepts (R382, R383). -/
def Requests (s : State) (x : Dgram) (rest : List Frame) (op : BitVec 8) : Prop :=
  s.mgmt.inbox = .dgram x :: rest ∧ x.op = op ∧ s.mgmt.linkUp = true ∧ x.dst = s.mgmt.ip ∧ x.dst ≠ 0 ∧ x.udp = 5170 ∧ s.mgmt.accepts x = true

/-- A request is taken with its SEQ and answered: `f` is what it does to the module, `st` and `pl` the STATUS and the payload of the reply. -/
def Answers (i : Instr) (s : State) (x : Dgram) (f : State → State) (st : BitVec 8) (pl : List Byte) : Prop :=
  exec i s = .next ((f { s with mgmt := { s.mgmt with inbox := s.mgmt.inbox.drop 1, lastSeq := some x.seq } }).reply x st pl)

/-- An instruction that reads an uncorrectable datum is not executed: its crew consumes it (R355). -/
def Consumes (i : Instr) (s : State) (I : Iss) : Prop := exec i s = .next (I.s.clearIssue.consume I.G.ctx I.G.crew .ueData)

/-- Whether an operand has an uncorrectable word in one of some lanes. -/
def Uncorrectable (I : Iss) (o : Opnd) (lanes : Nat → Prop) : Prop :=
  ∃ r l, Iss.dvec o = some r ∧ (r, l) ∈ I.G.ueRegs ∧ lanes l

/-- The number of good lanes of a core (R16). -/
def goodLanes (k : Core) : Nat := (List.range 32).countP fun i => k.lmap.getLsbD i

/-- A frame at the head of the management port's, its link up. -/
def frameIs (s : State) (f : Frame → Prop) : Prop := s.mgmt.linkUp = true ∧ ∃ x rest, s.mgmt.inbox = x :: rest ∧ f x

/-- A datagram for the port at the head of its frames, its OP as asked (R382, R383). -/
def asks (s : State) (p : BitVec 8 → Prop) : Prop :=
  frameIs s fun f => ∃ x, f = .dgram x ∧ p x.op ∧ x.dst = s.mgmt.ip ∧ x.dst ≠ 0 ∧ x.udp = 5170

/-- What a step of the module, instructions apart, needs to find: that what it names exists and is in the state in which the step acts on it. -/
def Finds (s : State) : Instr → Prop
  | .groupPick c => s.sch.issue = none ∧ s.stepOn c = none ∧ (s.core c).enabled = true ∧ (s.core c).stalled = none ∧ (s.core c).frozen = none
  | .runLimitEnd c g => ∃ G sp S, s.group? c g = some G ∧ G.cur = some sp ∧ G.splits[sp] = some S ∧ 24 ≤ S.runLen
  | .icacheLineArrival c => (s.core c).frozen ≠ none
  | .resultLanding c g id => ∃ G, s.group? c g = some G ∧ ∃ p ∈ G.pend, p.id = id
  | .limitExpiry c id | .lateValueArrival c id => s.op? c id ≠ none
  | .loadLanding c id => ∃ o o' i, s.op? c id = some o ∧ (s.deliver c o.slot).op? c id = some o' ∧ ldInfo o'.ins = some i ∧
      (s.deliver c o.slot).group? c o'.slot ≠ none ∧ o'.limited = true ∧ o'.answered ((s.deliver c o.slot).now c) = true
  | .pageWalkComplete q id => ∃ w ∈ (s.quad q).walks, w.id = id
  | .accessCheckComplete c id => ∃ o, s.op? c id = some o ∧ (o.stage = .check ∨ o.stage = .waiting ∨ o.stage = .performed)
  | .storeBufferDrain ctx crew => ∃ k, s.crew? ctx crew = some k ∧ k.committed = true ∧ k.sbuf ≠ []
  | .barArrivalRegister c id => ∃ o x, s.op? c id = some o ∧ o.ins = .bar x ∧ o.stage = .check ∧ s.group? c o.slot ≠ none
  | .gbarArrivalRegister c id => ∃ o x, s.op? c id = some o ∧ o.ins = .gbar x ∧ o.stage = .check ∧ s.group? c o.slot ≠ none
  | .monitorReread c id => ∃ o, s.op? c id = some o ∧ o.stage = .waiting ∧ o.accs ≠ []
  | .waitLimitExpiry c id => ∃ o n, s.op? c id = some o ∧ o.stage = .waiting ∧ o.limit = some n ∧ n ≤ s.now c
  | .aonLimitExpiry c id => ∃ o n, s.op? c id = some o ∧ (o.stage = .check ∨ o.stage = .lent) ∧ o.limit = some n ∧ n ≤ s.now c
  | .tokenOpAtHome c id => ∃ o, s.op? c id = some o ∧ o.stage = .home ∧ o.accs ≠ []
  | .tktakeComplete c id => ∃ o, s.op? c id = some o ∧ o.stage = .waiting ∧ o.accs ≠ []
  | .lentStallRelease c id => ∃ o, s.op? c id = some o ∧ o.stage = .lent
  | .tileOpComplete c id => ∃ o, s.op? c id = some o ∧ o.stage = .home
  | .taskStart c id => ∃ x t, (s.core c).task? id = some (x, t) ∧ t.ends = none
  | .taskComplete c id => ∃ x t, (s.core c).task? id = some (x, t) ∧ t.ends ≠ none
  | .engineSelfTest c e => ((s.core c).engine e).tests ≠ []
  | .engineFaultPause c e => ∃ x, s.eng? c e = some x ∧ x.paused ≠ none
  | .engineOpComplete c e => ∃ x, s.eng? c e = some x ∧ x.paused = none
  | .packetNack c id unserved =>
      (∃ p, s.packet? c id = some p ∧ p.escape = false ∧ p.sent = true ∧ ∃ d ∈ s.sch.agenda, d.ev = State.packetEvent c p) ∨
      s.packet? c id = none ∧ ∃ e x f, s.flight? c id = some (e, x, f) ∧
        ∃ k ∈ f.forks, (x.args.m = false ∨ k.branch ∈ unserved) ∧ k.due ≠ none ∧ k.got = 0 ∧ k.escape = false
  | .packetResend c id => s.packet? c id ≠ none ∨ s.flight? c id ≠ none
  | .messageArrival c id => s.packet? c id ≠ none
  | .taggedMessageArrival c id => ∃ p, s.packet? c id = some p ∧ (p.take ≠ none ∨ p.tag ≠ none)
  | .streamElementRead c n => ∃ x, s.stream? c n = some x ∧ x.running = true
  | .streamElementArrival c n id => s.elem? c n id ≠ none
  | .gdetachComplete c id => ∃ o, s.op? c id = some o ∧ s.crew? (s.opWho c o).ctx (s.opWho c o).crew ≠ none
  | .crewExitRelease ctx crew => ∃ k, s.crew? ctx crew = some k ∧ (k.st = .held ∧ s.heldByPeers ctx k = false ∨
      k.st = .leaving ∧ ∀ f, k.flush = some f → f.ends ≤ s.now f.core)
  | .legAdmission ctx => s.mayStart ctx = true ∧ ∃ (i : Nat) (l : Leg), (s.ctx ctx).queue[i]? = some l ∧ l.pending = 0 ∧
      (∀ j, j < i → ∀ m : Leg, (s.ctx ctx).queue[j]? = some m → m.pending ≠ 0) ∧ ∀ f, l.flush = some f → f.ends ≤ s.now f.core
  | .crewStart ctx crew => ∃ k l, s.crew? ctx crew = some k ∧ s.leg? ctx k.leg = some l ∧ k.st = .waiting ∧
      (∃ r ∈ (s.ctx ctx).reservations, crew ∈ r.2) ∧ ∀ f, k.flush = some f → f.ends ≤ s.now f.core
  | .gangReservation ctx gang => ∃ k ms l u, (s.ctx ctx).crews.filter (fun q => q.gang == gang && q.st == .waiting) = k :: ms ∧
      s.leg? ctx k.leg = some l ∧ s.mayStart ctx = true ∧ (∀ r ∈ (s.ctx ctx).reservations, r.1 ≠ gang) ∧
      (∀ q ∈ (s.ctx ctx).crews, q.st ≠ .relaunch ∧ (q.leg = k.leg → q.st = .waiting → q.gang ≠ gang → q.dealt = none)) ∧
      s.placeAll ctx l (k :: ms) (fun s q => s.startCores ctx l q) = some u
  | .legComplete ctx leg => ∃ l, s.leg? ctx leg = some l ∧ l.alive = 0
  | .preemptDeadlineExpiry ctx q => (∃ n, (q, n) ∈ (s.ctx ctx).deadlines ∧ n ≤ s.clock (.quad q)) ∧ ∃ k ∈ (s.ctx ctx).crews, Crew.onCore k = true
  | .quiescePoint c => s.quiescing c = true
  | .errorWindowExpiry d => d < 4
  | .coreLoss c => c < 768 ∧ (s.core c).enabled = true
  | .crewRelaunch ctx crew => ∃ k l u, s.crew? ctx crew = some k ∧ s.leg? ctx k.leg = some l ∧ k.st = .relaunch ∧ s.mayStart ctx = true ∧
      s.placeAll ctx l ((s.ctx ctx).crews.filter fun q => q.gang == k.gang && q.st == .relaunch) (fun s q => s.relaunchCores ctx l q) = some u
  | .grantUpdate q _ => q < 16
  | .groupUnpark c => ∃ g G, g < 32 ∧ s.group? c g = some G ∧ G.parked ≠ none
  | .stepRaise q => q < 16 ∧ (s.quad q).joined = true ∧ (s.quad q).raising ≠ none
  | .stepLower q => q < 16 ∧ (s.quad q).joined = true ∧ s.target q < (s.quad q).cur
  | .voltageFall q => q < 16 ∧ (s.quad q).falling ≠ []
  | .gddrTempReport d _ => d < 32
  | .thermalCapStep q _ => q < 16 ∧ (s.quad q).joined = true
  | .quadrantJoin q _ => q < 16 ∧ s.mgmt.booted = true ∧ (s.quad q).joined = false ∧ ∀ i, i < q → (s.quad i).joined = true
  | .quadrantCalibrated q => q < 16 ∧ (s.quad q).joined = true ∧ (s.quad q).calibrated = false
  | .powerUp _ => s.mgmt.booted = false
  | .faultRecordWrite ctx => (s.ctx ctx).records ≠ [] ∧ State.frOpen (s.ctx ctx).regs = true
  | .faultRecordEnable ctx _ | .contextReset ctx | .preemptRequest ctx | .hostTbinv ctx _ | .placeValueWrite ctx _ | .debugStep ctx _
  | .resumeGroup ctx | .resumeCore ctx | .resumeEngine ctx | .suspendCrew ctx | .restoreCrew ctx => ctx < 16
  | .queueLeg ctx hart _ | .tokenOwn ctx hart _ | .tokenRelease ctx hart _ | .tokenHome ctx hart _ | .tokenUnhome ctx hart _ =>
      ctx < 16 ∧ hart < 16
  | .tlbInvalidateComplete id => ∃ v ∈ s.invs, v.id = id
  | .hostMemoryAccess _ pa wr len => let n := (wr.map List.length).getD len
      n ≠ 0 ∧ inMap pa = true ∧ inMap (pa + n - 1) = true
  | .postedWriteRelease id => ∃ p ∈ s.posted, p.id = id
  | .pcieLinkTraining _ up rate lanes _ => up = true → rate ∈ [25, 50, 80, 160, 320, 640, 1280] ∧ lanes ∈ [1, 2, 4, 8, 16]
  | .mgmtReadTemperatures => asks s (· = 1)
  | .mgmtReadEvents => asks s (· = 2)
  | .mgmtSetStepCap => asks s (· = 3)
  | .mgmtSetHotlim => asks s (· = 4)
  | .mgmtResetModule => asks s (· = 5)
  | .mgmtFirmwareChunk => asks s (· = 6)
  | .mgmtFirmwareCommit => asks s (· = 7)
  | .mgmtQuote => asks s (· = 8)
  | .mgmtSetAddress => asks s (· = 9)
  | .mgmtUnknownOp => asks s fun op => op = 0 ∨ 9 < op
  | .mgmtArp => frameIs s fun f => ∃ ip mac, f = .arp ip mac
  | .mgmtIcmpEcho => frameIs s fun f => ∃ dst src data, f = .echo dst src data
  | .mgmtDhcp => frameIs s fun f => ∃ ip n, f = .lease ip n
  | .crewSave .. | .errorEvent .. | .registerWrite .. | .inboundRequest .. | .mgmtAutoNegotiation .. => True
  | _ => s.issuer ⟨0, none, 0, .p false 7⟩ ≠ none

/-- A record waits for its place in the context's fault-record area (R375, Table 2). -/
def Recorded (s t : State) (ctx c g : Nat) (crew : Word) (r : Report) (kind : Nat) : Prop :=
  ∃ f : FRec, (t.ctx ctx).records = (s.ctx ctx).records ++ [f] ∧ (t.ctx ctx).frseq = (s.ctx ctx).frseq + 1 ∧
    f.w[0] = r.trapinfo[0] ∧ f.w[1] = r.pc ∧ f.w[2].extractLsb' 16 16 = s.coreNo ctx c ∧ (f.w[2].extractLsb' 8 6).toNat = g % 64 ∧
    f.w[3] = crew ∧ f.w[6] ++ f.w[5] ++ f.w[4] = r.ptr ∧ (f.w[7].extractLsb' 29 3).toNat = kind ∧ f.w[7].extractLsb' 0 16 = (s.ctx ctx).frseq ∧
    (⟨.ext, s.sch.extClk, .faultRecordWrite ctx⟩ : Due) ∈ t.sch.agenda

end Sys2Proof.Machine

/-! ## Scalar instructions (chapter 5) -/

/-- Chapter 5, SADD to SMAX (Table 7): the word each writes, from its two sources (SMAD: and the destination), marked when a source is,
after 1 cycle, 2 for the multiplications and 12 for SDIV. Shift amounts of 32 and more give 0, or copies of the sign; a division by 0
gives all ones, and −2^31 / −1 wraps. -/
def Obligations.ScalarArithmeticResults : Prop :=
  ∀ (x : SBinA) (s : State) (I : Iss),
    let a := I.sval x.zx x.a
    let b := I.sval x.zx x.b
    let d := I.sval false x.d
    (Ready s x.h { reads := [x.a, x.b, x.d], all := true } I → ScalarResult (.smad x) s I 2 x.d ⟨a.val * b.val + d.val, a.k || b.k || d.k⟩) ∧
    (Ready s x.h { reads := [x.a, x.b], all := true } I →
      let is (i : Instr) (occ : Nat) (v : Word) : Prop := ScalarResult i s I occ x.d ⟨v, a.k || b.k⟩
      is (.sadd x) 1 (a.val + b.val) ∧ is (.ssub x) 1 (a.val - b.val) ∧ is (.smul x) 2 (a.val * b.val) ∧
      is (.smulh x) 2 (if x.u then (a.val.zeroExtend 64 * b.val.zeroExtend 64).extractLsb' 32 32
        else (a.val.signExtend 64 * b.val.signExtend 64).extractLsb' 32 32) ∧
      is (.sdiv x) 12 (if b.val = 0 then 0xFFFFFFFF else if x.u then a.val / b.val else a.val.sdiv b.val) ∧
      is (.sand x) 1 (a.val &&& b.val) ∧ is (.sor x) 1 (a.val ||| b.val) ∧ is (.sxor x) 1 (a.val ^^^ b.val) ∧
      is (.sshl x) 1 (a.val <<< b.val) ∧ is (.sshr x) 1 (a.val >>> b.val) ∧ is (.ssar x) 1 (a.val.sshiftRight' b.val) ∧
      is (.smin x) 1 (if (if x.u then a.val.ult b.val else a.val.slt b.val) then a.val else b.val) ∧
      is (.smax x) 1 (if (if x.u then a.val.ult b.val else a.val.slt b.val) then b.val else a.val))

/-- Chapter 5, one-source scalar instructions, bit fields and SSEL: the word each writes and its mark, after 1 cycle. Bits of a field are
named one by one; SPOPC counts ones, SCLZ leading zeros (32 for 0), SABS of −2^31 is 0x8000_0000; SSEL takes one source's word and mark. -/
def Obligations.ScalarMoveAndFieldResults : Prop :=
  (∀ (x : UnA) (s : State) (I : Iss), Ready s x.h { reads := [x.a], all := true } I →
    let a := I.sval false x.a
    ScalarResult (.sabs x) s I 1 x.d ⟨if a.val.slt 0 then 0 - a.val else a.val, a.k⟩ ∧
    ScalarResult (.spopc x) s I 1 x.d ⟨BitVec.ofNat 32 ((List.range 32).countP fun i => a.val.getLsbD i), a.k⟩ ∧
    ScalarResult (.sclz x) s I 1 x.d ⟨BitVec.ofNat 32 ((List.range 32).takeWhile fun i => !a.val.getMsbD i).length, a.k⟩) ∧
  (∀ (x : MovA) (s : State) (I : Iss), Ready s x.h { reads := [x.a], all := true } I →
    ScalarResult (.smov x) s I 1 x.d (I.sval x.zx x.a)) ∧
  (∀ (x : SelA) (s : State) (I : Iss), Ready s x.h { reads := [x.a, x.b], all := true } I →
    ScalarResult (.ssel x) s I 1 x.d (if I.G.regs.qbit x.c = x.neg then I.sval x.zx x.b else I.sval x.zx x.a)) ∧
  (∀ (x : BfA) (s : State) (I : Iss), x.pos.toNat + (x.lenM1.toNat + 1) ≤ 32 → Ready s x.h { reads := [x.a], all := true } I →
    let a := I.sval false x.a
    ScalarResult (.sbfe x) s I 1 x.d
      ⟨maskOf 32 fun i => if i ≤ x.lenM1.toNat then a.val.getLsbD (x.pos.toNat + i)
        else x.sgn && a.val.getLsbD (x.pos.toNat + x.lenM1.toNat), a.k⟩) ∧
  (∀ (x : BfA) (s : State) (I : Iss), x.pos.toNat + (x.lenM1.toNat + 1) ≤ 32 → Ready s x.h { reads := [x.a, x.d], all := true } I →
    let a := I.sval false x.a
    let d := I.sval false x.d
    ScalarResult (.sbfi x) s I 1 x.d
      ⟨maskOf 32 fun i => if x.pos.toNat ≤ i ∧ i ≤ x.pos.toNat + x.lenM1.toNat then a.val.getLsbD (i - x.pos.toNat)
        else d.val.getLsbD i, a.k || d.k⟩)

/-- PLOG and the forms of PMOV (chapter 5, Tables 9 and 10): lane by lane to the active lanes of a p register with the marks of the
sources, once to a q register, or the active lanes' bits to three s registers, each marked when a lane it covers is. PANY, PALL and PCNT:
whether some active lane, or every one, holds the predicate, and how many do; false, true and 0 under an empty mask. A marked active lane
stops PANY and PALL under FAULT, and marks PCNT's count. The lanes that a marked scalar operand's report names are assumption 38, the
model's reading. -/
def Obligations.PredicateResults : Prop :=
  ((∀ (x : PlogA) (s : State) (I : Iss), Ready s x.h { pr := if x.q then [] else [x.a, x.b] } I →
     let a := I.G.regs.pred x.a
     let b := I.G.regs.pred x.b
     Computes (.plog x) s I (I.t + 1)
       (if x.q then I.guarded [.qbit x.d (plogSays x.fn (I.G.regs.qbit x.a) (I.G.regs.qbit x.b))]
        else [.pred x.d I.active (maskOf 96 fun i => plogSays x.fn (a.val.getLsbD i) (b.val.getLsbD i))
          (maskOf 96 fun i => a.k.getLsbD i || (x.fn != .not && b.k.getLsbD i))])) ∧
   (∀ (h : Hdr) (d a : Fin 8) (s : State) (I : Iss), Ready s h { pr := [a] } I →
     Computes (.pmov ⟨h, .p d a⟩) s I (I.t + 1) [.pred d I.active (I.G.regs.pred a).val (I.G.regs.pred a).k]) ∧
   (∀ (h : Hdr) (d a : Fin 8) (s : State) (I : Iss), Ready s h {} I →
     Computes (.pmov ⟨h, .q d a⟩) s I (I.t + 1) (I.guarded [.qbit d (I.G.regs.qbit a)])) ∧
   (∀ (h : Hdr) (d : Fin 8) (a : Opnd) (s : State) (I : Iss), Ready s h { reads := [a] } I →
     Computes (.pmov ⟨h, .fromv d a⟩) s I (I.t + I.P)
       [.pred d I.active (maskOf 96 fun i => ((I.vsrc false a).at i).val != 0) (maskOf 96 fun i => ((I.vsrc false a).at i).k)]) ∧
   (∀ (h : Hdr) (d : Fin 8) (a : Fin 126) (s : State) (I : Iss), Ready s h { sr := [(a.val, 3)] } I →
     Computes (.pmov ⟨h, .froms d a⟩) s I (I.t + 1)
       [.pred d I.active (maskOf 96 fun i => (I.sreg (a.val + i / 32)).val.getLsbD (i % 32)) (maskOf 96 fun i => (I.sreg (a.val + i / 32)).k)]) ∧
   (∀ (h : Hdr) (d : Fin 126) (a : Fin 8) (s : State) (I : Iss), Ready s h { pr := [a] } I →
     let p := I.G.regs.pred a
     let e (j : Nat) : Elem := ⟨(p.val &&& I.active).extractLsb' (32 * j) 32, (p.k &&& I.active).extractLsb' (32 * j) 32 != 0⟩
     if I.uses 0 = false ∧ ∃ j, j < 3 ∧ 125 ≤ d.val + j ∧ (e j).k = true then Stops (.pmov ⟨h, .tos d a⟩) s I I.kAll
     else Computes (.pmov ⟨h, .tos d a⟩) s I (I.t + 1)
       (I.guarded [I.wsreg d (e 0), I.wsreg (d.val + 1) (e 1), I.wsreg (d.val + 2) (e 2)]))) ∧
  ((∀ (x : PqA) (s : State) (I : Iss), Ready s x.h { pr := [x.a] } I →
     let p := I.G.regs.pred x.a
     let on (i : Nat) : Bool := I.active.getLsbD i
     let r : Report := { cause := .kConsume, cmask := p.k &&& I.active, pc := I.S.pc }
     if (∃ i, i < 96 ∧ on i = true ∧ p.k.getLsbD i = true) ∧ I.uses 0 = false then Stops (.pany x) s I r ∧ Stops (.pall x) s I r
     else
       Computes (.pany x) s I (I.t + 1) (I.guarded [.qbit x.d ((List.range 96).any fun i => on i && p.val.getLsbD i)]) ∧
       Computes (.pall x) s I (I.t + 1) (I.guarded [.qbit x.d ((List.range 96).all fun i => !on i || p.val.getLsbD i)])) ∧
   (∀ (x : PsA) (s : State) (I : Iss), Ready s x.h { pr := [x.a] } I →
     let p := I.G.regs.pred x.a
     ScalarResult (.pcnt x) s I 1 x.d
       ⟨BitVec.ofNat 32 ((List.range 96).countP fun i => I.active.getLsbD i && p.val.getLsbD i),
        (List.range 96).any fun i => I.active.getLsbD i && p.k.getLsbD i⟩))

/-- PADD and PTAG (chapter 5) on scalar triples and, with V, on vector triples: the pointer each writes and the marks of its registers; a
marked b stops PTAG always, a marked result in one of its registers that is xm0, xm1 or xm2 stops either under FAULT. PFLD and PCMP: a
field of a pointer with the OR of its triple's marks, and a condition of two pointers to a q register, or with V to the active lanes of a
p register; a marked pointer stops the q form under FAULT. The lanes that a marked scalar operand's report names are assumption 38, the
model's reading. -/
def Obligations.PointerResults : Prop :=
  ((∀ (x : PaddA) (s : State) (I : Iss), tripleS x.a = tripleS x.d →
     Ready s x.h ((Use.ofTriple { reads := [x.b], all := tripleS x.a } x.a).dstTriple x.d) I →
     let b (i : Nat) : Elem := if tripleS x.a then I.sval false x.b else (I.vsrc false x.b).at i
     let k (i : Nat) : Bool := (I.triple x.a i).2 || (b i).k
     let xm : Bool := match x.d with
       | .s n => (List.range 3).any fun j => decide (125 ≤ n.val + j) && k 0
       | .v _ => false
     if xm = true ∧ I.qok = true ∧ I.uses 0 = false then Stops (.padd x) s I I.kAll
     else Computes (.padd x) s I (I.t + if tripleS x.d then 1 else I.P)
       (ptrWrites I x.d (fun i => ptrPlus (I.triple x.a i).1 (b i).val) fun i _ => k i)) ∧
   (∀ (x : PtagA) (s : State) (I : Iss), tripleS x.a = tripleS x.d →
     Ready s x.h ((Use.ofTriple { reads := [x.b], all := tripleS x.a } x.a).dstTriple x.d) I →
     let b (i : Nat) : Elem := if tripleS x.a then I.sval false x.b else (I.vsrc false x.b).at i
     let k (i j : Nat) : Bool := match x.a with
       | .s n => (I.sreg (n.val + j)).k
       | .v n => ((I.G.regs.vec (.v (n.val + j))).at i).k
     let xm : Bool := match x.d with
       | .s n => (List.range 3).any fun j => decide (125 ≤ n.val + j) && k 0 j
       | .v _ => false
     let marked : Lanes := maskOf 96 fun i => I.active.getLsbD i && (b i).k
     if tripleS x.a = true ∧ I.qok = true ∧ (b 0).k = true then Stops (.ptag x) s I I.kAll
     else if tripleS x.a = false ∧ marked ≠ 0 then Stops (.ptag x) s I { cause := .kConsume, cmask := marked, pc := I.S.pc }
     else if xm = true ∧ I.qok = true ∧ I.uses 0 = false then Stops (.ptag x) s I I.kAll
     else Computes (.ptag x) s I (I.t + if tripleS x.d then 1 else I.P)
       (ptrWrites I x.d (fun i => (b i).val.extractLsb' 0 12 ++ x.space ++ (I.triple x.a i).1.extractLsb' 0 80) k))) ∧
  ((∀ (x : PfldA) (s : State) (I : Iss), Ready s x.h (Use.ofTriple { dsts := if tripleS x.a then [] else [x.d], all := tripleS x.a } x.a) I →
     let e (i : Nat) : Elem := ⟨BitVec.ofNat 32 (fieldSays x.field (I.triple x.a i).1), (I.triple x.a i).2⟩
     if tripleS x.a then ScalarResult (.pfld x) s I 1 x.d (e 0) else VectorResult (.pfld x) s I 0 x.d (VReg.of e)) ∧
   (∀ (x : PcmpA) (s : State) (I : Iss), tripleS x.a = tripleS x.b → Ready s x.h ((({ all := tripleS x.a } : Use).ofTriple x.a).ofTriple x.b) I →
     let r (i : Nat) : Bool := ptrSays x.cond (I.triple x.a i).1 (I.triple x.b i).1
     let k (i : Nat) : Bool := (I.triple x.a i).2 || (I.triple x.b i).2
     if tripleS x.a then
       if I.qok = true ∧ k 0 = true ∧ I.uses 0 = false then Stops (.pcmp x) s I I.kAll
       else Computes (.pcmp x) s I (I.t + 1) (I.guarded [.qbit x.d (r 0)])
     else Computes (.pcmp x) s I (I.t + I.P) [.pred x.d I.active (maskOf 96 r) (maskOf 96 k)]))

/-! ## Control (chapter 5) -/

/-- NOP sets its flag in its issue cycle and does nothing else. TRAIL (R70) ends its run, its WAIT becoming the entry condition of the
next; its flag waits for the results of its run, and nothing else changes but the instruction cache, when it names a displacement. SPLQ
writes Table 6's word, landing at t + 2. BRA, BRX, CALL, RET and LOOP (R71 and chapter 5): with the guard false, the next instruction;
else the whole split goes to the target and its run ends: BRA, CALL and a LOOP whose counter is not yet 0 from t + 2, BRX from t + 4, RET
from t + 4, or t + 2 when the newest hint of a CALL agrees. CALL writes PC + 1 and LOOP its counter less 1. A marked target always stops
BRX and RET, a marked counter LOOP under FAULT. The lanes that a marked scalar operand's report names are assumption 38, the model's
reading. -/
def Obligations.UniformControlFlow : Prop :=
  ((∀ (x : NoA) (s : State) (I : Iss), Ready s x.h {} I → Acts (.nop x) s I s (I.Flags · (I.t + 1))) ∧
   (∀ (x : TrailA) (s : State) (I : Iss), Ready s ⟨x.wait, x.setf, 0, .p false 7⟩ {} I →
     let s' := if x.pfd = 0 then I.s else I.s.prefetch I.c I.G.ctx I.G.crew (I.S.pc + x.pfd.signExtend 32)
     ∃ t, exec (.trail x) s = .next t ∧ I.Goes t (I.S.pc + 1) x.wait I.S.notBefore ∧ (x.setf = none → I.Alone s' t) ∧
       t.mem = s.mem ∧ t.ctxs = s.ctxs ∧ (∀ c, c ≠ I.c → t.core c = s.core c) ∧
       ∀ f, x.setf = some f → ∃ G, I.groupIn t = some G ∧
         ((∃ w ∈ G.trails, w.flag = f ∧ w.owner = I.id ∧ w.ids = I.S.runIds) ∨ (G.regs.flag f).isSet = true)) ∧
   (∀ (x : DstA) (s : State) (I : Iss), Ready s x.h {} I →
     let live := (List.finRange 4).countP fun i => (I.G.splits[i]).isSome
     let w : Nat := popc I.S.o * 65536 + I.S.stack.length * 64 + (if live = 4 then 32 else 0) + I.sp.val * 8 + live
     LongResult (.splq x) s I 2 (I.guarded (I.wscal x.d ⟨BitVec.ofNat 32 w, false⟩)))) ∧
  ((∀ (x : BrA) (s : State) (I : Iss), Ready s x.h {} I →
     if I.qok then Jumps (.bra x) s I s (I.S.pc + x.disp.signExtend 32) 0 (I.t + 2) (I.Flags · (I.t + 1))
     else Acts (.bra x) s I s (I.Flags · (I.t + 1))) ∧
   (∀ (x : SrcA) (s : State) (I : Iss), Ready s x.h { reads := [x.a], all := true } I →
     let a := I.sval false x.a
     let popped := I.s.modGroup I.c I.g fun G => { G with hints := G.hints.drop 1 }
     if I.qok = false then Acts (.brx x) s I s (I.Flags · (I.t + 1)) ∧ Acts (.ret x) s I s (I.Flags · (I.t + 1))
     else if a.k then Stops (.brx x) s I I.kAll ∧ Stops (.ret x) s I I.kAll
     else Jumps (.brx x) s I s a.val 0 (I.t + 4) (I.Flags · (I.t + 1)) ∧
       Jumps (.ret x) s I popped a.val 0 (if I.G.hints.head? = some a.val then I.t + 2 else I.t + 4) (I.Flags · (I.t + 1))) ∧
   (∀ (x : BrDA) (s : State) (I : Iss), Ready s x.h {} I →
     let pushed := I.s.modGroup I.c I.g fun G => { G with hints := (I.S.pc + 1) :: G.hints.take 3 }
     if I.qok then Jumps (.call x) s I pushed (I.S.pc + x.disp.signExtend 32) 0 (I.t + 2)
       fun t => I.Flags t (I.t + 1) ∧ I.FliesBare t (I.t + 2) (I.wscal x.d ⟨I.S.pc + 1, false⟩)
     else Acts (.call x) s I s (I.Flags · (I.t + 1))) ∧
   (∀ (x : BrDA) (s : State) (I : Iss), Ready s x.h { reads := [x.d], all := true } I →
     let d := I.sval false x.d
     let out (t : State) : Prop := I.Flags t (I.t + 1) ∧ I.FliesBare t (I.t + 2) (I.wscal x.d ⟨d.val - 1, d.k⟩)
     if I.qok = false then Acts (.loop x) s I s (I.Flags · (I.t + 1))
     else if d.k = true ∧ I.uses 0 = false then Stops (.loop x) s I I.kAll
     else if d.val = 1 then Acts (.loop x) s I s out
     else Jumps (.loop x) s I s (I.S.pc + x.disp.signExtend 32) 0 (I.t + 2) out))

/-- R106, R107: BRD. T is the active set: empty T, or a target that is the next instruction, falls through; T all of M goes to the target;
else the lowest free table entry receives T at the target, from t + 2, and the split goes on with the rest; with no free entry the rest
waits on the deferral stack while T goes to the target; a seventeenth deferral stops the group with ILL_RUN. -/
def Obligations.DivergentBranch : Prop :=
  ∀ (x : BrA) (s : State) (I : Iss), Ready s x.h {} I →
    let T := I.active
    let pc := I.S.pc + x.disp.signExtend 32
    let free := (List.finRange 4).filter fun i => (I.G.splits[i]).isNone
    if T = 0 ∨ x.disp = 1 then Acts (.brd x) s I s (I.Flags · (I.t + 1))
    else if I.S.m &&& ~~~T = 0 then Jumps (.brd x) s I s pc 0 (I.t + 2) (I.Flags · (I.t + 1))
    else match free with
      | e :: _ => ∃ (t : State) (G H : Group) (S N : Split), exec (.brd x) s = .next t ∧ t.sch.issue = none ∧ I.Alone s t ∧
          I.Flags t (I.t + 1) ∧ I.groupIn t = some G ∧ G.splits = (H.mergeAt e I.t I.P).splits ∧
          H.splits[I.sp] = some S ∧ S.pc = I.S.pc + 1 ∧ S.m = I.S.m &&& ~~~T ∧ S.o = I.S.o &&& ~~~T ∧ S.stack = I.S.stack ∧
          H.splits[e] = some N ∧ N.pc = pc ∧ N.m = T ∧ N.o = T ∧ N.stack = [] ∧ N.inRun = false ∧ N.wait = 0 ∧ N.notBefore = I.t + 2 ∧
          N.readyFrom = I.t + 2 ∧
          ∀ j : Fin 4, j ≠ I.sp → j ≠ e → H.splits[j] = I.G.splits[j]
      | [] =>
        if 16 ≤ (I.G.splits.toList.map fun (o : Option Split) => ((o.map fun S => S.stack.length).getD 0)).sum then
          Stops (.brd x) s I { cause := .illRun, scalar := true, pc := I.S.pc }
        else ∃ (t : State) (G H : Group) (S : Split), exec (.brd x) s = .next t ∧ t.sch.issue = none ∧ I.Alone s t ∧
          I.Flags t (I.t + 1) ∧ I.groupIn t = some G ∧ G.splits = (H.mergeAt I.sp I.t I.P).splits ∧
          H.splits[I.sp] = some S ∧ S.pc = pc ∧ S.m = T ∧ S.o = T ∧ S.inRun = false ∧ S.wait = 0 ∧ S.notBefore = I.t + 2 ∧
          S.stack = ⟨I.S.pc + 1, I.S.m &&& ~~~T, I.S.o &&& ~~~T, I.t⟩ :: I.S.stack ∧ ∀ j : Fin 4, j ≠ I.sp → H.splits[j] = I.G.splits[j]

/-- EXIT (chapter 5, R104, R107): with no guard or a true q guard it retires the whole split, with a p guard the active lanes; its run ends
and its flag is set at t. A split that still owns lanes goes on without the retired ones; one that owns none takes the top of its deferral
stack, or leaves the table. With its last split the group ends: it leaves its crew's barriers, and frees once nothing is in flight. -/
def Obligations.ExitRetiresLanes : Prop :=
  ∀ (x : NoA) (s : State) (I : Iss), Ready s x.h {} I →
    let r : Lanes := if x.h.grd = .p false 7 then I.S.o else match x.h.grd with
      | .q .. => if I.qok then I.S.o else 0
      | .p .. => I.active
    let o := I.S.o &&& ~~~r
    ∃ (t : State) (G H : Group), t.sch.issue = none ∧ I.Alone s t ∧ I.Flags t (I.t + 1) ∧ I.groupIn t = some G ∧
      G.splits = (H.mergeAt I.sp I.t I.P).splits ∧ (∀ j : Fin 4, j ≠ I.sp → H.splits[j] = I.G.splits[j]) ∧
      (∀ e ∈ G.guesses, ∀ l ∈ e.lanes, r.getLsbD l.lane = false) ∧
      (match o == 0, I.S.stack with
        | false, _ => ∃ S, H.splits[I.sp] = some S ∧ S.pc = I.S.pc + 1 ∧ S.m = I.S.m &&& ~~~r ∧ S.o = o ∧ S.stack = I.S.stack ∧
            S.inRun = false ∧ S.wait = 0
        | true, d :: ds => ∃ S, H.splits[I.sp] = some S ∧ S.pc = d.pc ∧ S.m = d.f ∧ S.o = d.o ∧ S.stack = ds ∧ S.inRun = false ∧ S.wait = 0
        | true, [] => H.splits[I.sp] = none) ∧
      exec (.exit x) s = .next (if G.ending then (t.leaveGroup I.c I.g).tryEndGroup I.c I.g else t) ∧
      (I.G.ending = false → (G.ending = true ↔ ∀ j : Fin 4, H.splits[j] = none))

/-! ## Vector integer instructions (chapter 6) -/

/-- Chapter 6, Table 5, the element-wise instructions VADD, VSUB, VMIN, VMAX, VABS and VNEG: exact on each element, then narrowed. Each
result lane is marked when a source lane is; visible P cycles after the issue; only active lanes are written. -/
def Obligations.VectorElementResults : Prop :=
  (∀ (x : VA) (s : State) (I : Iss), Ready s x.h { reads := [x.a, x.b], dsts := [x.d] } I →
    let a := I.esrc x.zx x.elem x.a
    let b := I.esrc x.zx x.elem x.b
    let is (i : Instr) (f : Int → Int → Int) : Prop := VectorResult i s I 0 x.d (VReg.of fun l =>
      ⟨perElement x.elem (fun n p q => elemOut x.sat x.u n (f (elemNum x.u p) (elemNum x.u q))) (a.at l).val (b.at l).val,
       (a.at l).k || (b.at l).k⟩)
    is (.vadd x) (fun p q => p + q) ∧ is (.vsub x) (fun p q => p - q) ∧ is (.vmin x) (fun p q => if q < p then q else p) ∧
    is (.vmax x) (fun p q => if p < q then q else p)) ∧
  (∀ (x : VA) (s : State) (I : Iss), Ready s x.h { reads := [x.a], dsts := [x.d] } I →
    let a := I.esrc false x.elem x.a
    let is (i : Instr) (f : Int → Int) : Prop := VectorResult i s I 0 x.d (VReg.of fun l =>
      ⟨perElement x.elem (fun n p _ => elemOut x.sat false n (f p.toInt)) (a.at l).val 0, (a.at l).k⟩)
    is (.vabs x) (fun p => if p < 0 then -p else p) ∧ is (.vneg x) (fun p => -p))

/-- Chapter 6, Table 5, the whole-lane instructions: VMUL, VMULH, VMAD, logic, shifts (amounts of 32 and more give 0 or copies of the
sign), VNOT, VMOV, VPOPC, VCLZ and VDOT4; a mark where a source lane is marked, d among the sources of VMAD and VDOT4. -/
def Obligations.VectorWordResults : Prop :=
  (∀ (x : VA) (s : State) (I : Iss), Ready s x.h { reads := [x.a, x.b], dsts := [x.d] } I →
    let a := I.vsrc x.zx x.a
    let b := I.vsrc x.zx x.b
    let is (i : Instr) (f : Word → Word → Word) : Prop :=
      VectorResult i s I 0 x.d (VReg.of fun l => ⟨f (a.at l).val (b.at l).val, (a.at l).k || (b.at l).k⟩)
    is (.vmul x) (fun p q => p * q) ∧
    is (.vmulh x) (fun p q => if x.u then (p.zeroExtend 64 * q.zeroExtend 64).extractLsb' 32 32
      else (p.signExtend 64 * q.signExtend 64).extractLsb' 32 32) ∧
    is (.vand x) (fun p q => p &&& q) ∧ is (.vor x) (fun p q => p ||| q) ∧ is (.vxor x) (fun p q => p ^^^ q) ∧
    is (.vshl x) (fun p q => p <<< q) ∧ is (.vshr x) (fun p q => p >>> q) ∧ is (.vsar x) (fun p q => p.sshiftRight' q)) ∧
  (∀ (x : VA) (s : State) (I : Iss), Ready s x.h { reads := [x.a, x.b, x.d], dsts := [x.d] } I →
    let a := I.vsrc x.zx x.a
    let b := I.vsrc x.zx x.b
    let d := I.vsrc false x.d
    let is (i : Instr) (f : Word → Word → Word → Word) : Prop := VectorResult i s I 0 x.d (VReg.of fun l =>
      ⟨f (a.at l).val (b.at l).val (d.at l).val, (a.at l).k || (b.at l).k || (d.at l).k⟩)
    let byte (u : Bool) (p : Word) (j : Nat) : Int := elemNum u (p.extractLsb' (8 * j) 8)
    is (.vmad x) (fun p q r => p * q + r) ∧
    is (.vdot4 x) (fun p q r => elemOut x.sat false 32 (r.toInt + byte x.u p 0 * byte x.ub q 0 + byte x.u p 1 * byte x.ub q 1 +
      byte x.u p 2 * byte x.ub q 2 + byte x.u p 3 * byte x.ub q 3))) ∧
  (∀ (x : VA) (s : State) (I : Iss), Ready s x.h { reads := [x.a], dsts := [x.d] } I →
    let is (zx : Bool) (i : Instr) (f : Word → Word) : Prop :=
      VectorResult i s I 0 x.d (VReg.of fun l => ⟨f ((I.vsrc zx x.a).at l).val, ((I.vsrc zx x.a).at l).k⟩)
    is false (.vnot x) (fun p => ~~~p) ∧ is x.zx (.vmov x) (fun p => p) ∧
    is false (.vpopc x) (fun p => BitVec.ofNat 32 ((List.range 32).countP fun i => p.getLsbD i)) ∧
    is false (.vclz x) (fun p => BitVec.ofNat 32 ((List.range 32).takeWhile fun i => !p.getMsbD i).length))

/-- VBFE, VBFI and VSEL (chapter 6): bit fields named bit by bit, and a selection lane by lane, whose predicate's mark travels into the
result. -/
def Obligations.VectorFieldAndSelectResults : Prop :=
  (∀ (x : BfA) (s : State) (I : Iss), x.pos.toNat + (x.lenM1.toNat + 1) ≤ 32 →
    let a := I.vsrc false x.a
    let d := I.vsrc false x.d
    (Ready s x.h { reads := [x.a], dsts := [x.d] } I → VectorResult (.vbfe x) s I 0 x.d (VReg.of fun l =>
      ⟨maskOf 32 fun i => if i ≤ x.lenM1.toNat then (a.at l).val.getLsbD (x.pos.toNat + i)
        else x.sgn && (a.at l).val.getLsbD (x.pos.toNat + x.lenM1.toNat), (a.at l).k⟩)) ∧
    (Ready s x.h { reads := [x.a, x.d], dsts := [x.d] } I → VectorResult (.vbfi x) s I 0 x.d (VReg.of fun l =>
      ⟨maskOf 32 fun i => if x.pos.toNat ≤ i ∧ i ≤ x.pos.toNat + x.lenM1.toNat then (a.at l).val.getLsbD (i - x.pos.toNat)
        else (d.at l).val.getLsbD i, (a.at l).k || (d.at l).k⟩))) ∧
  (∀ (x : SelA) (s : State) (I : Iss), Ready s x.h { reads := [x.a, x.b], dsts := [x.d], pr := [x.c] } I →
    let c := I.G.regs.pred x.c
    VectorResult (.vsel x) s I 0 x.d (VReg.of fun l =>
      let e := if c.val.getLsbD l = x.neg then (I.vsrc x.zx x.b).at l else (I.vsrc x.zx x.a).at l
      ⟨e.val, e.k || c.k.getLsbD l⟩))

/-! ## Vector floating-point, special functions, conversions (chapters 4 and 6) -/

/-- FADD, FSUB, FMUL, FFMA, FMIN, FMAX, FSCALE, FRND and FDOT2 (chapter 6, R123): each element from exact values of its sources, rounded
once in the mode the word names (R81); a mark where a source lane is marked; visible P + 1 cycles after the issue. FSUB takes a − b as the
sum of a and −b, which settles the sign of a difference of two zeros: assumption 114, the model's choice. -/
def Obligations.FloatArithmeticResults : Prop :=
  (∀ (x : FA) (s : State) (I : Iss), Ready s x.h { reads := [x.a, x.b], dsts := [x.d] } I →
    let F := x.typ.fmt
    let a := I.fsrc x.typ x.a
    let b := I.fsrc x.typ x.b
    let is (i : Instr) (f : Nat → Nat → Nat) : Prop := VectorResult i s I 1 x.d (VReg.of fun l =>
      ⟨elems x.typ fun e => BitVec.ofNat 32 (f (elemOf x.typ e (a.at l).val) (elemOf x.typ e (b.at l).val)), (a.at l).k || (b.at l).k⟩)
    is (.fadd x) (fun p q => F.round x.rm x.sat (FVal.sum x.rm [F.val p, F.val q])) ∧
    is (.fsub x) (fun p q => F.round x.rm x.sat (FVal.sum x.rm [F.val p, (F.val q).flip true])) ∧
    is (.fmul x) (fun p q => F.round x.rm x.sat ((F.val p).mul (F.val q))) ∧
    is (.fmin x) (fun p q => if F.val p = .nan ∧ F.val q = .nan then F.canon else if F.val p = .nan then q
      else if F.val q = .nan then p else if (F.val q).below (F.val p) then q else p) ∧
    is (.fmax x) (fun p q => if F.val p = .nan ∧ F.val q = .nan then F.canon else if F.val p = .nan then q
      else if F.val q = .nan then p else if (F.val p).below (F.val q) then q else p) ∧
    VectorResult (.fscale x) s I 1 x.d (VReg.of fun l =>
      let n := (I.vsrc false x.b).at l
      ⟨elems x.typ fun e => BitVec.ofNat 32 (F.round x.rm x.sat ((F.val (elemOf x.typ e (a.at l).val)).scale n.val.toInt)),
       (a.at l).k || n.k⟩)) ∧
  (∀ (x : FA) (s : State) (I : Iss), Ready s x.h { reads := [x.a], dsts := [x.d] } I →
    let F := x.typ.fmt
    let a := I.fsrc x.typ x.a
    VectorResult (.frnd x) s I 1 x.d (VReg.of fun l =>
      ⟨elems x.typ fun e => BitVec.ofNat 32 (F.round x.rm x.sat ((F.val (elemOf x.typ e (a.at l).val)).integral x.rm)), (a.at l).k⟩)) ∧
  (∀ (x : FA) (s : State) (I : Iss), Ready s x.h { reads := [x.a, x.b, x.d], dsts := [x.d] } I →
    let F := x.typ.fmt
    let a := I.fsrc x.typ x.a
    let b := I.fsrc x.typ x.b
    let d := I.vsrc false x.d
    let mark (l : Nat) : Bool := (a.at l).k || (b.at l).k || (d.at l).k
    let prod (l e : Nat) : FVal := (F.val (elemOf x.typ e (a.at l).val)).mul (F.val (elemOf x.typ e (b.at l).val))
    VectorResult (.ffma x) s I 1 x.d (VReg.of fun l => ⟨elems x.typ fun e => BitVec.ofNat 32 (F.round x.rm x.sat
      (FVal.sum x.rm [(prod l e).flip x.na, (F.val (elemOf x.typ e (d.at l).val)).flip x.nc])), mark l⟩) ∧
    VectorResult (.fdot2 x) s I 1 x.d (VReg.of fun l =>
      ⟨toF32 x.rm x.sat (FVal.sum x.rm [f32 (d.at l).val, prod l 0, prod l 1]), mark l⟩))

/-- R81: rounding the value of a code of a format gives the code back, in every mode; a NaN gives the canonical NaN; an infinity under
SAT, and an infinite value rounded to E4M3, which has no code for one, what Table 4 gives. -/
def Obligations.RoundingKeepsRepresentableValues : Prop :=
  (∀ F ∈ [FpF.f32, FpF.f16, FpF.bf16, FpF.e4, FpF.e5], ∀ (c : Nat) (rm : RMode) (sat : Bool), c < 2 ^ F.bits →
    match F.val c with
    | .nan => F.round rm sat (F.val c) = F.canon
    | .inf n => F.round rm sat (F.val c) = if sat then F.maxCode n else c
    | .fin .. => F.round rm sat (F.val c) = c) ∧
  (∀ (rm : RMode) (sat n : Bool), FpF.e4.round rm sat (.inf n) =
    (if n then 0x80 else 0) + if sat = false ∧ (rm = .rne ∨ rm = .ru ∧ n = false ∨ rm = .rd ∧ n = true) then 0x7F else 0x7E)

/-- SCMP (chapter 5): the condition to a q register after 1 cycle while the guard holds; a marked source under FAULT stops it. VCMP and
FCMP (chapter 6): the condition to the active lanes of a p register, marked where a source is. FCLASS: the class word of Table 9. The
lanes that a marked scalar operand's report names are assumption 38, the model's reading. -/
def Obligations.CompareAndClassResults : Prop :=
  (∀ (x : CmpA) (s : State) (I : Iss), Ready s x.h { reads := [x.a, x.b] } I →
     (let a := I.sval x.zx x.a
      let b := I.sval x.zx x.b
      if I.qok = true ∧ (a.k || b.k) = true ∧ I.uses 0 = false then Stops (.scmp x) s I I.kAll
      else Computes (.scmp x) s I (I.t + 1) (I.guarded [.qbit x.d (condSays x.cond a.val b.val)])) ∧
     (let a := I.vsrc x.zx x.a
      let b := I.vsrc x.zx x.b
      Computes (.vcmp x) s I (I.t + I.P)
        [.pred x.d I.active (maskOf 96 fun i => condSays x.cond (a.at i).val (b.at i).val)
          (maskOf 96 fun i => (a.at i).k || (b.at i).k)])) ∧
  ((∀ (x : FcmpA) (s : State) (I : Iss), Ready s x.h { reads := [x.a, x.b] } I →
     let a := I.fsrc .f32 x.a
     let b := I.fsrc .f32 x.b
     Computes (.fcmp x) s I (I.t + I.P + 1)
       [.pred x.d I.active (maskOf 96 fun l => fcondSays x.cond (f32 (a.at l).val) (f32 (b.at l).val))
         (maskOf 96 fun l => (a.at l).k || (b.at l).k)]) ∧
   (∀ (x : UnA) (s : State) (I : Iss), Ready s x.h { reads := [x.a], dsts := [x.d] } I →
     let a := I.fsrc .f32 x.a
     VectorResult (.fclass x) s I 1 x.d (VReg.of fun l => ⟨classSays (a.at l).val, (a.at l).k⟩)))

/-- The special functions (chapter 6, Table 3): the word each writes in the active lanes, and the cycle it lands in: 14 + P for FRCP and
FRSQ, 18 + P for FSQRT, 16 + P for FEXP2 and FLOG2, 22 + P for FSIN and FCOS, 20 + P for FTANH. R99 and Table 10 of chapter 4, by the
operand's code: the results for ±0, ±∞, negative numbers and NaN; FEXP2 of 128 and more is +∞ and of −150 and less +0; FTANH of a
magnitude of 9.0 and more is ±1.0. -/
def Obligations.SpecialFunctionResults : Prop :=
  (∀ (x : UnA) (s : State) (I : Iss), Ready s x.h { reads := [x.a], dsts := [x.d] } I →
     let a := I.fsrc .f32 x.a
     let is (i : Instr) (n : Nat) (f : Word → Word) : Prop :=
       LongResult i s I (n + I.P) (Iss.wvec x.d I.active (VReg.of fun l => ⟨f (a.at l).val, (a.at l).k⟩))
     is (.frcp x) 14 frcp32 ∧ is (.frsq x) 14 frsq32 ∧ is (.fsqrt x) 18 fsqrt32 ∧ is (.fexp2 x) 16 (sfu .exp2) ∧
     is (.flog2 x) 16 (sfu .log2) ∧ is (.fsin x) 22 (sfu .sin) ∧ is (.fcos x) 22 (sfu .cos) ∧ is (.ftanh x) 20 (sfu .tanh)) ∧
  (let nan : Word := 0x7FC00000
   let inf : Word := 0x7F800000
   let ninf : Word := 0xFF800000
   let one : Word := 0x3F800000
   let none' : Word := 0xBF800000
   (frcp32 0 = inf ∧ frcp32 0x80000000 = ninf ∧ frcp32 inf = 0 ∧ frcp32 ninf = 0x80000000) ∧
   (frsq32 0 = inf ∧ frsq32 0x80000000 = ninf ∧ frsq32 inf = 0 ∧ frsq32 ninf = nan) ∧
   (fsqrt32 0 = 0 ∧ fsqrt32 0x80000000 = 0x80000000 ∧ fsqrt32 inf = inf ∧ fsqrt32 ninf = nan) ∧
   (sfu .exp2 0 = one ∧ sfu .exp2 0x80000000 = one ∧ sfu .log2 0 = ninf ∧ sfu .log2 0x80000000 = ninf ∧ sfu .log2 ninf = nan) ∧
   (∀ f ∈ [SfuFn.sin, SfuFn.tanh], sfu f 0 = 0 ∧ sfu f 0x80000000 = 0x80000000) ∧ sfu .cos 0 = one ∧ sfu .cos 0x80000000 = one ∧
   (∀ f ∈ [SfuFn.sin, SfuFn.cos], sfu f inf = nan ∧ sfu f ninf = nan) ∧ sfu .log2 inf = inf ∧
   ∀ x : Word,
     let m := x.toNat % 2 ^ 31
     (m > 0x7F800000 → frcp32 x = nan ∧ frsq32 x = nan ∧ fsqrt32 x = nan ∧ ∀ f, sfu f x = nan) ∧
     (x.msb = true → 0 < m → m < 0x7F800000 → frsq32 x = nan ∧ fsqrt32 x = nan ∧ sfu .log2 x = nan) ∧
     (x.msb = false → 0x43000000 ≤ m → m ≤ 0x7F800000 → sfu .exp2 x = inf) ∧
     (x.msb = true → 0x43160000 ≤ m → m ≤ 0x7F800000 → sfu .exp2 x = 0) ∧
     (0x41100000 ≤ m → m ≤ 0x7F800000 → sfu .tanh x = if x.msb then none' else one))

/-- CVT, CVTEF, PACK4 and UNPK4 (R124, R125 and chapter 6): the converted element, placed in element EIX of d when it is narrower than a
lane; CVTEF's residual beside it, of the opposite infinity for an infinite element; eight nibbles packed, limited to ±7; nibbles unpacked
to bytes or to one FP32 value, the reserved code reading as 0 and setting N8 of KSTICKY when an active lane held it. That N8 is set in the
issue cycle is assumption 117, and the sign-extension of UNPK4's and PACK4's immediates assumption 118: both the model's choice. -/
def Obligations.ConversionResults : Prop :=
  (∀ (x : CvtA) (s : State) (I : Iss),
    let narrow : Bool := x.dst.bits < 32
    let a := I.csrc x.src x.a
    let d := I.vsrc false x.d
    Ready s x.h { reads := if narrow then [x.a, x.d] else [x.a], dsts := [x.d] } I →
    let c (l : Nat) : Nat := x.dst.narrow x.rm x.sat (x.src.valOf
      (if x.src.bits < 32 then (a.at l).val.toNat / 2 ^ (x.src.bits * x.eix.toNat) % 2 ^ x.src.bits else (a.at l).val.toNat))
    VectorResult (.cvt x) s I 1 x.d (VReg.of fun l =>
      if narrow then ⟨setElem x.dst.bits x.eix.toNat (d.at l).val (c l), (a.at l).k || (d.at l).k⟩
      else ⟨BitVec.ofNat 32 (c l), (a.at l).k⟩)) ∧
  (∀ (x : CvtA) (s : State) (I : Iss), x.dst.bits < 32 → Ready s x.h { reads := [x.a, x.d], dsts := [x.d, x.b] } I →
    let a := I.csrc .f32 x.a
    let d := I.vsrc false x.d
    let c (l : Nat) : Nat := x.dst.narrow .rne x.sat (f32 (a.at l).val)
    let rest (x n : FVal) : FVal := match x, n with
      | .nan, _ => .nan
      | _, .inf b => .inf (!b)
      | x, n => FVal.sum .rne [x, n.flip true]
    Computes (.cvtef x) s I (I.t + I.P + 1)
      (Iss.wvec x.d I.active (VReg.of fun l => ⟨setElem x.dst.bits x.eix.toNat (d.at l).val (c l), (a.at l).k || (d.at l).k⟩) ++
       Iss.wvec x.b I.active (VReg.of fun l =>
         ⟨toF32 .rne false (rest (f32 (a.at l).val) (x.dst.valOf (c l))), (a.at l).k⟩))) ∧
  (∀ (x : BinA) (s : State) (I : Iss), Ready s x.h { reads := [x.a, x.b], dsts := [x.d] } I →
    let a := I.vsrc false x.a
    let b := I.vsrc false x.b
    let nibble (w : Word) (j : Nat) : BitVec 4 :=
      let n := (w.extractLsb' (8 * j) 8).toInt
      BitVec.ofInt 4 (if n < -7 then -7 else if 7 < n then 7 else n)
    VectorResult (.pack4 x) s I 1 x.d (VReg.of fun l =>
      let p := (a.at l).val
      let q := (b.at l).val
      ⟨nibble q 3 ++ nibble q 2 ++ nibble q 1 ++ nibble q 0 ++ nibble p 3 ++ nibble p 2 ++ nibble p 1 ++ nibble p 0,
       (a.at l).k || (b.at l).k⟩)) ∧
  (∀ (x : UnpkA) (s : State) (I : Iss), (x.f = false → x.idx.toNat < 2) → Ready s x.h { reads := [x.a], dsts := [x.d] } I →
    let a := I.vsrc false x.a
    let n := x.idx.toNat
    let code (l j : Nat) : BitVec 4 := (a.at l).val.extractLsb' (4 * j) 4
    let num (l j : Nat) : Int := if code l j = 8 then 0 else (code l j).toInt
    let byte (l j : Nat) : BitVec 8 := BitVec.ofInt 8 (num l (4 * n + j))
    let hit : Bool := (List.range 96).any fun l => I.active.getLsbD l &&
      if x.f then code l n == 8 else (List.range 4).any fun j => code l (4 * n + j) == 8
    let s' := if hit then I.s.modGroup I.c I.g Group.setN8 else I.s
    Acts (.unpk4 x) s I s' (I.Flies · (I.t + I.P + 1) (Iss.wvec x.d I.active (VReg.of fun l =>
      ⟨if x.f then toF32 .rne false (.fin (num l n < 0) (num l n).natAbs 0) else byte l 3 ++ byte l 2 ++ byte l 1 ++ byte l 0, (a.at l).k⟩))))

/-- QBLK and DQBLK (R88 to R90, R127, R128): QBLK quantises each block of sixteen lanes that has an active lane, its mantissa image in the
block's first lanes and its exponent in every lane, a mark in any active lane marking all; DQBLK reads each active lane's element back, an
exponent of 255 and a reserved mantissa reading as 0 and setting N8; an uncorrectable word that it reads of the image is consumed. That
N8 is set in the issue cycle is assumption 117, the model's choice. -/
def Obligations.BlockFormatResults : Prop :=
  ∀ (x : BlkA) (s : State) (I : Iss),
    let w := x.w.toNat
    let a := I.vsrc false x.a
    let b := I.vsrc false x.b
    let on (l : Nat) : Bool := I.active.getLsbD l
    let lanes (j : Nat) : List Nat := (List.range 16).map (16 * j + ·)
    let q (j : Nat) : List Int × Nat := toBlock w x.rm ((lanes j).map fun l => if on l then (a.at l).val else 0)
    let mark (j : Nat) : Bool := (lanes j).any fun l => on l && (a.at l).k
    let live : Lanes := maskOf 96 fun l => (lanes (l / 16)).any on
    (Ready s x.h { reads := [x.a], dsts := [x.d, x.b] } I →
      LongResult (.qblk x) s I (6 + 2 * I.P)
        (Iss.wvec x.d live (VReg.of fun l =>
          ⟨if l % 16 < (w + 1) / 2 then BitVec.ofNat 32 (blockImage w (q (l / 16)).1 / 2 ^ (32 * (l % 16))) else 0, mark (l / 16)⟩) ++
         Iss.wvec x.b live (VReg.of fun l => ⟨BitVec.ofNat 32 (q (l / 16)).2, mark (l / 16)⟩))) ∧
    (Ready s x.h { reads := [x.b], names := [x.a], dsts := [x.d] } I →
      let held (j : Nat) : Prop := ∃ l, l < 96 ∧ on l = true ∧
        (j = 16 * (l / 16) + l % 16 * w / 32 ∨ j = 16 * (l / 16) + (l % 16 * w + w - 1) / 32)
      let e (l : Nat) : Nat := (b.at l).val.toNat % 256
      let m (l : Nat) : Nat × Bool := mantOf a w (l / 16) (l % 16)
      let hit : Bool := (List.range 96).any fun l => on l && (e l == 255 || (m l).1 == 2 ^ (w - 1))
      let s' := if hit then I.s.modGroup I.c I.g Group.setN8 else I.s
      (Uncorrectable I x.a held → Consumes (.dqblk x) s I) ∧
      (¬Uncorrectable I x.a held → Acts (.dqblk x) s I s' (I.Flies · (I.t + I.P + 1) (Iss.wvec x.d I.active (VReg.of fun l =>
        ⟨if e l = 255 then 0 else toF32 .rne false (blockVal w (e l) (readMant w (m l).1).1), (b.at l).k || (m l).2⟩)))))

/-! ## Cross-lane instructions (R129 to R133) -/

/-- SHFL and VBCAST (R130): each active lane takes the source of the lane at the position its mode names in its segment, or its own when
that lies outside; VBCAST the lane b modulo the segment. A mark of the source or of b marks the result. They land at t + 4 + 2P. An
uncorrectable word in a lane that is read, be it inactive, is consumed. The sign-extended immediate a and the unsigned b of b mod W are
assumption 118, the model's choice. -/
def Obligations.ShuffleResults : Prop :=
  (∀ (x : ShflA) (s : State) (I : Iss), Ready s x.h { reads := [x.b], names := [x.a], dsts := [x.d] } I →
    let a := I.vsrc false x.a
    let b := I.vsrc false x.b
    let W := segLanes x.seg
    let from_ (l : Nat) : Nat :=
      let i := l % W
      let n := (b.at l).val.toNat % 128
      let base := l - i
      match x.mode with
      | .idx => if n < W then base + n else l
      | .up => if n ≤ i then l - n else l
      | .down => if i + n < W then l + n else l
      | .xor => if i ^^^ n < W then base + (i ^^^ n) else l
    let named (j : Nat) : Prop := ∃ l, l < 96 ∧ I.active.getLsbD l = true ∧ from_ l = j
    (Uncorrectable I x.a named → Consumes (.shfl x) s I) ∧
    (¬Uncorrectable I x.a named → LongResult (.shfl x) s I (4 + 2 * I.P) (Iss.wvec x.d I.active (VReg.of fun l =>
      ⟨(a.at (from_ l)).val, (a.at (from_ l)).k || (b.at l).k⟩)))) ∧
  (∀ (x : BcastA) (s : State) (I : Iss), Ready s x.h { reads := [x.b], names := [x.a], dsts := [x.d] } I →
    let a := I.vsrc false x.a
    let b := I.sval false x.b
    let W := segLanes x.seg
    let from_ (l : Nat) : Nat := l - l % W + b.val.toNat % W
    let named (j : Nat) : Prop := ∃ l, l < 96 ∧ I.active.getLsbD l = true ∧ from_ l = j
    (Uncorrectable I x.a named → Consumes (.vbcast x) s I) ∧
    (¬Uncorrectable I x.a named → LongResult (.vbcast x) s I (4 + 2 * I.P) (Iss.wvec x.d I.active (VReg.of fun l =>
      ⟨(a.at (from_ l)).val, (a.at (from_ l)).k || b.k⟩))))

/-- VRED (R131): every active lane of a segment receives the reduction of the segment's active lanes, pairwise in a fixed tree, the whole
group's as the trees of its three thirds in order, with the OR of their marks. BALLOT (R133): bit m of an active lane's word is the
predicate of lane base + m when that is active; for the whole group each third has its own word. VSCAN (R132): an active lane receives the
running value that includes it, or, exclusive, the one before it, which is the operation's identity without a mark while no active lane
stands below. VRED lands at t + 5 + 2P, the others at t + 4 + 2P. The extension of an immediate of VRED and VSCAN under an operation
without a sign is assumption 118, the model's choice. -/
def Obligations.ReductionAndScanResults : Prop :=
  ((∀ (x : RedA) (s : State) (I : Iss), Ready s x.h { reads := [x.a], dsts := [x.d] } I →
     let a := I.rsrc x.op x.a
     let f := redSays x.op x.rm
     let at' (l : Nat) : Option Elem := if I.active.getLsbD l then some (a.at l) else none
     let red (l : Nat) : Option Elem :=
       if x.seg.val = 0 then redPair f (redPair f (redTree f at' 5 0) (redTree f at' 5 32)) (redTree f at' 5 64)
       else redTree f at' x.seg.val (l - l % 2 ^ x.seg.val)
     LongResult (.vred x) s I (5 + 2 * I.P) (Iss.wvec x.d I.active (VReg.of fun l => (red l).getD ⟨0, false⟩))) ∧
   (∀ (x : BallotA) (s : State) (I : Iss), Ready s x.h { dsts := [x.d], pr := [x.a] } I →
     let p := I.G.regs.pred x.a
     let W := segLanes x.seg
     let base (l : Nat) : Nat := if W = 96 then 32 * (l / 32) else l - l % W
     let n := if W = 96 then 32 else W
     let word (m : Lanes) (l : Nat) : Word := maskOf 32 fun i => i < n && m.getLsbD (base l + i) && I.active.getLsbD (base l + i)
     LongResult (.ballot x) s I (4 + 2 * I.P) (Iss.wvec x.d I.active (VReg.of fun l => ⟨word p.val l, word p.k l != 0⟩)))) ∧
  (∀ (x : RedA) (s : State) (I : Iss), Ready s x.h { reads := [x.a], dsts := [x.d] } I →
     let a := I.rsrc x.op x.a
     let f := redSays x.op x.rm
     let at' (l : Nat) : Option Elem := if I.active.getLsbD l then some (a.at l) else none
     let W := segLanes x.seg
     let none' : Word := match x.op with
       | .min => 0x7FFFFFFF | .max => 0x80000000 | .umin | .and => 0xFFFFFFFF | .fmin => 0x7F800000 | .fmax => 0xFF800000
       | _ => 0
     let val (l : Nat) : Elem :=
       if I.active.getLsbD l = false then ⟨0, false⟩
       else if x.excl then (scanBefore f at' (l - l % W) (l % W)).getD ⟨none', false⟩
       else (scanBefore f at' (l - l % W) (l % W + 1)).getD ⟨0, false⟩
     LongResult (.vscan x) s I (4 + 2 * I.P) (Iss.wvec x.d I.active (VReg.of val)))

/-! ## Memory accesses (chapter 7) -/

/-- LD, LDG and LDS (R144, R147 to R149, R153): a demand load begins the accesses of its lanes, each from its own pointer, or one for the
group. With a limit (wlN's, or with selector 7 that of the lane's b) and EXACT clear, a cause that a guess cannot hide stops it, 16 open
guesses hold it, and else it takes an entry and each lane gets its limit, of 4 cycles at least (R148, R164, R167). The free cycle of the
accesses is assumption 109, the model's choice. -/
def Obligations.LoadsIssue : Prop :=
  (∀ (x : LdA) (s : State) (I : Iss),
     let n := x.width.bytes
     (Ready s x.h (LdA.use x) I → isDemand I x = true →
       let accs := lanesOf I x.a (loadOffset I x) (if x.lsel = 7 then n else 1) n
       AccessIssues (.ld x) s I (opOf (.ld x) I accs) false [] id id ∧ AccessIssues (.ldg x) s I (opOf (.ldg x) I accs) false [] id id) ∧
     (∀ r : Fin 126, x.a = .s r → Ready s x.h (Use.ofTriple { reads := [x.b] } x.a) I → isDemand I x = true →
       let b := I.sval false x.b
       let accs := if I.active = 0 then [] else
         [accOf 0 I.t (Ptr.advance (I.striple r).1 b.val.toInt) n ((I.striple r).2 || b.k)]
       AccessIssues (.lds x) s I (opOf (.lds x) I accs) false [] id id)) ∧
  (∀ (x : LdA) (s : State) (I : Iss),
     let n := x.width.bytes
     let wl : Nat := ((I.G.spec.wl[x.lsel.val - 1]?).getD 0).toNat
     (Ready s x.h (LdA.use x) I → isDemand I x = false →
       let accs := lanesOf I x.a (loadOffset I x) (if x.lsel = 7 then n else 1) n
       let lim (l : Nat) : Nat := if x.lsel = 7 then ((I.vsrc false x.b).at l).val.toNat else wl
       LimitedIssues (.ld x) x s I accs lim ∧ LimitedIssues (.ldg x) x s I accs lim) ∧
     (∀ r : Fin 126, x.a = .s r → Ready s x.h (Use.ofTriple { reads := [x.b] } x.a) I → isDemand I x = false →
       let b := I.sval false x.b
       let accs := if I.active = 0 then [] else
         [accOf 0 I.t (Ptr.advance (I.striple r).1 b.val.toInt) n ((I.striple r).2 || b.k)]
       LimitedIssues (.lds x) x s I accs fun _ => wl))

/-- ST, STG and STS (R152, R153, R171): each active lane's access with its data from consecutive registers, lowest first; marked data
fails with K_CONSUME under FAULT and is remembered under USE; a release beyond the core commits the crew, and so does a store that R353
names, in its issue cycle when its accesses are to go through (R354). The free cycle of the accesses is assumption 109, the model's
choice. -/
def Obligations.StoresIssue : Prop :=
  ∀ (x : StA) (s : State) (I : Iss),
    let n := x.width.bytes
    let use := I.uses 2
    let more (accs : List Acc) (s : State) : State :=
      if x.rel && (x.scope == .gang || x.scope == .dev || x.scope == .sys) && !accs.isEmpty then s.commit I.G.ctx I.G.crew 1 else s
    let ahead (i : Instr) (accs : List Acc) (s : State) : State := s.commitAhead I.who i accs
    (Ready s x.h (StA.use x) I →
      let b := I.vsrc false x.b
      let accs := (lanesOf I x.a (fun l => ((b.at l).val, (b.at l).k)) 1 n).map fun a =>
        { a with data := (I.dataV x.d x.width.regs a.lane).1 }
      let marked := (accs.filter fun a => (I.dataV x.d x.width.regs a.lane).2).map (·.lane)
      let o (i : Instr) : Op := { opOf i I accs with args := if use && !marked.isEmpty then [1] else [] }
      AccessIssues (.st x) s I (o (.st x)) true (if use then [] else marked) (more accs) (ahead (.st x) accs) ∧
      AccessIssues (.stg x) s I (o (.stg x)) true (if use then [] else marked) id (ahead (.stg x) accs)) ∧
    (∀ r : Fin 126, x.a = .s r →
      let sr : List (Nat × Nat) := match x.d with
        | .s k => [(k.val, x.width.regs)]
        | _ => []
      Ready s x.h (Use.ofTriple { reads := [x.b, x.d], sr := sr } x.a) I →
      let b := I.sval false x.b
      let d := I.dataS x.d x.width.regs
      let accs := if I.active = 0 then [] else
        [{ accOf 0 I.t (Ptr.advance (I.striple r).1 b.val.toInt) n ((I.striple r).2 || b.k) with data := d.1 }]
      let marked := if d.2 then accs.map (·.lane) else []
      let o : Op := { opOf (.sts x) I accs with args := if use && !marked.isEmpty then [1] else [] }
      AccessIssues (.sts x) s I o true (if use then [] else marked) (more accs) (ahead (.sts x) accs))

/-- LDL, STL, PREF and LIMSET (R157, R159, R160): LDL and STL access own scratchpad bytes a + 384 × b + 4 × lane, STL with each lane's
word and mark; PREF brings lines into the L1 and drops lanes that would fail, a marked address stopping it; LIMSET writes wlN, a marked
source stopping it. The lanes that a marked scalar operand's report names are assumption 38, the model's reading. That PREF's lines are
there in the issue cycle is assumption 119, the model's choice. -/
def Obligations.RowPrefetchAndLimitIssue : Prop :=
  (∀ (x : BinA) (s : State) (I : Iss),
    let a := I.sval true x.a
    let b := I.sval true x.b
    let d := I.vsrc false x.d
    let accs := ((List.range 96).filter fun l => I.active.getLsbD l).map fun l =>
      accOf l (I.t + (I.s.core I.c).passOf l) (BitVec.ofNat 96 (2 ^ 80 + a.val.toNat + 384 * b.val.toNat + 4 * l)) 4 (a.k || b.k)
    (Ready s x.h { reads := [x.a, x.b], dsts := [x.d] } I → AccessIssues (.ldl x) s I (opOf (.ldl x) I accs) false [] id id) ∧
    (Ready s x.h { reads := [x.a, x.b, x.d] } I →
      AccessIssues (.stl x) s I (opOf (.stl x) I (accs.map fun a =>
        { a with data := (d.at a.lane).val.zeroExtend 128, km := if (d.at a.lane).k then 1 else 0 })) true [] id id)) ∧
  (∀ (x : PrefA) (s : State) (I : Iss), Ready s x.h (Use.ofTriple { reads := [x.b] } x.a) I →
    let b := I.vsrc false x.b
    let accs := lanesOf I x.a (fun l => ((b.at l).val, (b.at l).k)) 1 1
    match accReport (.pref x) I.S.pc accs (accs.filterMap fun a => a.cause.map fun c => (a.lane, c)) with
    | some r => Stops (.pref x) s I r
    | none => Acts (.pref x) s I (accs.foldl (fun (s : State) a => s.prefetchLine I.who x.home a.ptr) I.s) (I.Flags · (I.t + 1))) ∧
  (∀ (x : LimA) (s : State) (I : Iss), Ready s x.h { reads := [x.a], all := true } I →
    let a := I.sval true x.a
    if I.qok = true ∧ a.k = true then Stops (.limset x) s I I.kAll
    else Computes (.limset x) s I (I.t + 1) (I.guarded [.spec .wl x.n.val a.val]))

/-! ## Guesses, tokens, atomics and synchronisation (chapters 8 to 10) -/

/-- KTEST, KMARK, KACCEPT, KABANDON and KSTAT (R176, R177 and chapter 8): marks read (KTEST.ANY and KSTAT write while the guard holds), set
and cleared in the active lanes alone, values never touched; KACCEPT and KABANDON close the open guesses of the register in those lanes;
KSTAT's words. -/
def Obligations.GuessMarkResults : Prop :=
  (∀ (x : KtestA) (s : State) (I : Iss), Ready s x.h (match x.a with
      | .r a => { reads := [a] }
      | .p i => { pr := [i] }) I →
    let k : Lanes := match x.a with
      | .r (.s n) => if (I.sreg n).k then Lanes.all else 0
      | .r a => maskOf 96 fun l => ((I.vsrc false a).at l).k
      | .p i => (I.G.regs.pred i).k
    Computes (.ktest x) s I (I.t + I.P)
      (if x.anyLane then I.guarded [.qbit x.d ((List.range 96).any fun l => I.active.getLsbD l && k.getLsbD l)]
       else [.pred x.d I.active k 0])) ∧
  (∀ (x : KsetA) (s : State) (I : Iss), Ready s x.h (KReg.use x.d) I →
    let marks (k : Bool) : List RegWrite := match x.d with
      | .r (.s n) => if I.active = 0 then [] else [.smark n k]
      | .r (.v n) => [.vmark (.v n) I.active k]
      | .r (.o n) => [.vmark (.o n) I.active k]
      | .r (.l n) => [.vmark (.l n) I.active k]
      | .r _ => []
      | .p i => [.pmark i I.active k]
    let due : Nat := match x.d with
      | .r (.s _) => I.t + 1
      | _ => I.t + I.P
    let cut : State := I.s.modGroup I.c I.g fun G => G.closeLanes (match x.d with
      | .r r => (I.G.openOf (gdest r) I.active).map fun p => (p.1.id, p.2.lane)
      | .p _ => [])
    Computes (.kmark x) s I due (marks true) ∧ Acts (.kaccept x) s I cut (I.Flies · due (marks false)) ∧
    Acts (.kabandon x) s I cut (I.Flags · (I.t + 2))) ∧
  (∀ (x : KstatA) (s : State) (I : Iss), Ready s x.h { dsts := if x.fn = .sum then [] else [x.a] } I →
    let gs := I.G.guesses.filter fun e => e.landed
    let n (f : Guess → Bool) : Nat := gs.countP f
    let has (e : Guess) (f : GLane → Bool) : Bool := e.lanes.any f
    let out := n fun e => has e fun l => l.st == .outstanding
    let arr := n fun e => !e.lanes.isEmpty && e.lanes.all fun l => l.st.value?.isSome
    let flt := n fun e => has e fun l => l.st.fault?.isSome
    let full := if 16 ≤ I.G.guesses.length then 2 ^ 31 else 0
    let open_ := I.G.openOf (gdest x.a) Lanes.all
    let lane (l : Nat) : Bool := open_.any fun p => p.2.lane == l && match x.fn with
      | .ready => p.2.st.value?.isSome
      | .flt => p.2.st.fault?.isSome
      | _ => true
    let m : Lanes := maskOf 96 lane
    Computes (.kstat x) s I (I.t + 1) (I.guarded (if x.fn = .sum then
        [I.wsreg x.d ⟨BitVec.ofNat 32 (full + out * 2 ^ 24 + arr * 2 ^ 16 + flt * 2 ^ 8 + I.G.guesses.length), false⟩]
      else [I.wsreg x.d ⟨m.extractLsb' 0 32, false⟩, I.wsreg (x.d.val + 1) ⟨m.extractLsb' 32 32, false⟩,
        I.wsreg (x.d.val + 2) ⟨m.extractLsb' 64 32, false⟩])))

/-- KDEMAND (R176): while an active lane of the register's open guesses is OUTSTANDING it is held, its group issuing nothing in this cycle;
when some are FAULTED it stops with K_FAULTED, ORIG the worst of their causes, or, resumed, reads them again and is held; an uncorrectable
datum is consumed; else every lane's true value lands at t + 2 in each register of its range with a clear mark, and the lanes close. -/
def Obligations.DemandDeliversGuesses : Prop :=
  ∀ (x : KsetA) (s : State) (I : Iss), Ready s x.h { dsts := match x.d with
      | .r d => [d]
      | .p _ => [] } I →
    let ps := I.G.openOf (match x.d with
      | .r d => gdest d
      | .p _ => .none) I.active
    let fs := ps.filterMap fun p => p.2.st.fault?.map fun c => (p.2.lane, c)
    let keep (pc : Option Word) : State := I.s.modGroup I.c I.g fun G => { G with kretry := pc }
    if ps.any fun p => p.2.st == .outstanding then exec (.kdemand x) s = .next (I.held I.s)
    else if .ueData ∈ fs.map (·.2) then Consumes (.kdemand x) s I
    else if fs = [] then
      Acts (.kdemand x) s I ((keep none).stepIssued I.c I.g) (I.Flies · (I.t + 2) (ps.flatMap fun p => (List.range p.1.nregs).flatMap fun j =>
        (p.1.dest.reg j).write (1#96 <<< p.2.lane) fun _ => ⟨((p.2.st.value?.getD [])[j]?).getD 0, false⟩))
    else if I.G.kretry = some I.S.pc then
      exec (.kdemand x) s = .next (I.held ((ps.filter fun p => p.2.st.fault?.isSome).foldl I.retryLane (keep none)))
    else ∃ r : Report, r.cause = .kFaulted ∧ some r.orig = (worst fs).map Cause.code ∧ r.pc = I.S.pc ∧
      exec (.kdemand x) s = .next ((keep (some I.S.pc)).clearIssue.takeStop I.c I.g r)

/-- Every token instruction (chapter 9) sets out as R197 says; TKQUERY.SELF answers at t + 2 with the caller's holder id, and a TKTAKE
whose core already holds the region's entry completes at t + 20 with status 1. The lanes that a marked scalar operand's report names are
assumption 38, the model's reading. Which shares let a TKTAKE complete at once (`holdsNow`) is assumption 120, the model's choice. -/
def Obligations.TokenInstructionsIssue : Prop :=
  (∀ (x : TkA) (s : State) (I : Iss),
    (Ready s x.h (TkA.use x) I → let b := I.sval false x.b
      TokenIssues (.tklend x) s I x.a b false ∧ TokenIssues (.tksplit x) s I x.a b false ∧ TokenIssues (.tkjoin x) s I x.a b false ∧
      TokenIssues (.tkshare x) s I x.a b false) ∧
    (Ready s x.h { all := true, sr := [(x.a.val, 3)] } I → let z : Elem := ⟨0, false⟩
      TokenIssues (.tkret x) s I x.a z false ∧ TokenIssues (.tkunshare x) s I x.a z false ∧ TokenIssues (.tkhome x) s I x.a z false ∧
      TokenIssues (.tkunhome x) s I x.a z false ∧ TokenIssues (.tkadopt x) s I x.a z true ∧
      (let p := (I.striple x.a).1
       let caches := (I.s.core I.c).caches
       let now : Bool := ((I.s.ctx I.G.ctx).region? (Ptr.local p)).any fun r =>
         Ptr.space p == 0 && Ptr.rank p == 0 && Ptr.module p == Config.thisModule &&
         I.s.holdsNow I.who (I.s.holderOf I.who x.hc) r && I.s.inFlight I.who r == .none &&
         (caches.tok.any (fun e => e.ctx == I.G.ctx && e.base == r.base && e.ready ≤ I.t) || caches.pins.any fun q => q.ctx == I.G.ctx && q.base == r.base) &&
         ((I.s.cached I.c I.G.ctx (Ptr.local p)).any fun e => e.w && !e.h)
       if I.qok = true ∧ (I.striple x.a).2 = false ∧ now = true then LongResult (.tktake x) s I 20 (Iss.wstat x.d true)
       else TokenIssues (.tktake x) s I x.a z false))) ∧
  (∀ (x : TkqA) (s : State) (I : Iss),
    (∀ h, x.self = some h → Ready s x.h {} I →
      LongResult (.tkquery x) s I 2 (I.guarded [I.wsreg x.d ⟨I.s.holderOf I.who h, false⟩])) ∧
    (x.self = none → Ready s x.h { all := true, sr := [(x.a.val, 3)] } I → TokenIssues (.tkquery x) s I x.a ⟨0, false⟩ false))

/-- ATOM, ATOMS and WPARR (R209, R215, R220): the accesses each begins, with operand and comparand of one word or, .D, of two; a marked
operand fails with K_CONSUME; a release beyond the core commits the crew, and so does an atomic that R353 names, in its issue cycle when
its accesses are to go through (R354). The free cycle of the accesses is assumption 109, the model's choice. -/
def Obligations.AtomicsIssue : Prop :=
  (∀ (x : AtomA) (s : State) (I : Iss),
    let n := if x.dbl then 8 else 4
    let cas := x.op == .cas
    let more (accs : List Acc) (s : State) : State :=
      if (x.ord == .rel || x.ord == .ar) && (x.scope == .gang || x.scope == .dev || x.scope == .sys) && !accs.isEmpty then
        s.commit I.G.ctx I.G.crew 1 else s
    let ahead (i : Instr) (accs : List Acc) (s : State) : State := s.commitAhead I.who i accs
    (Ready s x.h (AtomA.use x) I →
      let b := I.vsrc false x.b
      let reg (zx : Bool) (o : Opnd) (l : Nat) : BitVec 64 × Bool := match o with
        | .v r => operandOf ((I.G.regs.vec (.v r)).at l) ((I.G.regs.vec (.v (r.val + 1))).at l) x.dbl
        | o => operandOf ((I.vsrc zx o).at l) ((I.vsrc zx o).at l) x.dbl
      let accs := (lanesOf I (.s x.a) (fun l => ((b.at l).val, (b.at l).k)) 1 n).map fun a =>
        { a with data := (reg false x.d a.lane).1.zeroExtend 128, cmp := (reg x.zx x.cmp a.lane).1 }
      let marked := (accs.filter fun a => (reg false x.d a.lane).2 || (cas && (reg x.zx x.cmp a.lane).2)).map (·.lane)
      AccessIssues (.atom x) s I (opOf (.atom x) I accs) true marked (more accs) (ahead (.atom x) accs)) ∧
    (let w := if x.dbl then 2 else 1
     let rng (d : Opnd) : List (Nat × Nat) := match d with
      | .s i => [(i.val, w)]
      | _ => []
     Ready s x.h { reads := [x.b], sr := (x.a.val, 3) :: rng x.d ++ (if cas then rng x.cmp else []) } I →
      let b := I.sval false x.b
      let reg (zx : Bool) (o : Opnd) : BitVec 64 × Bool := match o with
        | .s r => operandOf (I.sreg r) (I.sreg (r.val + 1)) x.dbl
        | o => operandOf (I.sval zx o) (I.sval zx o) x.dbl
      let accs := if I.active = 0 then [] else
        [{ accOf 0 I.t (Ptr.advance (I.striple x.a).1 b.val.toInt) n ((I.striple x.a).2 || b.k) with
           data := (reg false x.d).1.zeroExtend 128, cmp := (reg x.zx x.cmp).1 }]
      let marked := if (reg false x.d).2 || (cas && (reg x.zx x.cmp).2) then accs.map (·.lane) else []
      AccessIssues (.atoms x) s I (opOf (.atoms x) I accs) true marked (more accs) (ahead (.atoms x) accs))) ∧
  (∀ (x : WparrA) (s : State) (I : Iss), Ready s x.h { all := true, sr := [(x.a.val, 3)] } I →
    let accs := [accOf 0 I.t (I.striple x.a).1 4 (I.striple x.a).2]
    let more (s : State) : State :=
      if x.scope == .gang || x.scope == .dev || x.scope == .sys then s.commit I.G.ctx I.G.crew 1 else s
    if I.qok then AccessIssues (.wparr x) s I (opOf (.wparr x) I accs) true [] more fun s => s.commitAhead I.who (.wparr x) accs
    else Acts (.wparr x) s I s (I.Flags · (I.t + 1)))

/-- R214 and Table 2 of chapter 10: the word an atomic leaves, by 32-bit arithmetic or, .D, 64-bit; R220: the waypoint word after an
arrival: one count more, or, with the target reached (at least 1), the phase flipped and the count 0. -/
def Obligations.AtomicNewValues : Prop :=
  (∀ (m x c : BitVec 32), let z (v : BitVec 32) : BitVec 64 := v.zeroExtend 64
    let f (o : AtomOp) : BitVec 64 := AtomOp.apply o 32 (z m) (z x) (z c)
    f .add = z (m + x) ∧ f .and = z (m &&& x) ∧ f .or = z (m ||| x) ∧ f .xor = z (m ^^^ x) ∧ f .xchg = z x ∧
    f .min = z (if x.slt m then x else m) ∧ f .max = z (if m.slt x then x else m) ∧ f .umin = z (if x.ult m then x else m) ∧
    f .umax = z (if m.ult x then x else m) ∧ f .cas = z (if m = c then x else m) ∧
    f .fadd = z (toF32 .rne false (FVal.sum .rne [f32 m, f32 x]))) ∧
  (∀ (m x c : BitVec 64), let f (o : AtomOp) : BitVec 64 := AtomOp.apply o 64 m x c
    f .add = m + x ∧ f .and = m &&& x ∧ f .or = m ||| x ∧ f .xor = m ^^^ x ∧ f .xchg = x ∧
    f .min = (if x.slt m then x else m) ∧ f .max = (if m.slt x then x else m) ∧ f .umin = (if x.ult m then x else m) ∧
    f .umax = (if m.ult x then x else m) ∧ f .cas = (if m = c then x else m)) ∧
  (∀ (w : Word),
    let count := w.toNat % 65536
    let target := w.toNat / 65536 % 32768
    let n := wpArrive w
    if max target 1 ≤ count + 1 then n.toNat % 65536 = 0 ∧ n.msb = !w.msb ∧ n.toNat / 65536 % 32768 = target
    else n.toNat = w.toNat + 1)

/-- BAR, GBAR, WPWAIT, WAITA and FENCE (R216, R218, R221, R222, R224): what each begins: an arrival to register in the next cycle (one of
a group that has arrived already waits with it), a monitored word, held while an earlier wait of the group has not completed (R223), with
its limit of at least 4 cycles, or a fence; GBAR and a release beyond the core commit the crew; a GBAR of a crew that is not attached, and
any of them with a false guard, only sets its flag. The lanes that a marked scalar operand's report names are assumption 38, the model's
reading. -/
def Obligations.SynchronisationIssues : Prop :=
  (∀ (x : BarA) (s : State) (I : Iss), Ready s x.h {} I →
    let in_ (bs : Option Bar) : Bool := (bs.getD ⟨false, []⟩).arrived.contains I.G.pos
    let begin_ (i ev : Instr) (in_ : Bool) (s : State) : State :=
      if in_ then s.addOp I.c { opOf i I [] with stage := .waiting } else (s.addOp I.c (opOf i I [])).postQ I.c (I.t + 1) ev
    if I.qok = false then Acts (.bar x) s I s (I.Flags · (I.t + 1)) ∧ Acts (.gbar x) s I s (I.Flags · (I.t + 1))
    else
      Acts (.bar x) s I (begin_ (.bar x) (.barArrivalRegister I.c I.id) (I.crew.any fun k => in_ k.bars[x.n.val]?) I.s) I.Unset ∧
      (let s1 := I.s.commit I.G.ctx I.G.crew 1
       if I.crew.any fun k => k.att.now? then
         Acts (.gbar x) s I (begin_ (.gbar x) (.gbarArrivalRegister I.c I.id) (I.crew.any fun k => in_ k.gbars[x.n.val]?) s1) I.Unset
       else Acts (.gbar x) s I s1 (I.Flags · (I.t + 2)))) ∧
  (∀ (x : WaitA) (s : State) (I : Iss), Ready s x.h { reads := [x.b], all := true, sr := [(x.a.val, 3)] } I →
    let b := I.sval x.zx x.b
    let lim := if x.lsel = 0 then none else some (I.t + max 4 ((I.G.spec.wl[x.lsel.val - 1]?).getD 0).toNat)
    let o (i : Instr) : Op := { opOf i I [accOf 0 I.t (I.striple x.a).1 4 (I.striple x.a).2] with args := [b.val], limit := lim }
    let is (i : Instr) : Prop :=
      if I.qok = false then Acts i s I s (I.Flags · (I.t + 1))
      else if b.k then Stops i s I I.kAll
      else if (I.s.core I.c).ops.any fun q => q.slot == I.g && monitors q I.t then exec i s = .next (I.held I.s)
      else AccessIssues i s I (o i) false [] (fun s => match lim with
        | some t => s.postQ I.c t (.waitLimitExpiry I.c I.id)
        | none => s) id
    is (.wpwait x) ∧ is (.waita x)) ∧
  (∀ (x : FenceA) (s : State) (I : Iss), Ready s x.h {} I →
    let s1 := (I.s.addOp I.c { opOf (.fence x) I [] with stage := .waiting }).postQ I.c (I.t + 1) (.accessCheckComplete I.c I.id)
    if I.qok = false then Acts (.fence x) s I s (I.Flags · (I.t + 1))
    else Acts (.fence x) s I
      (if (x.ord == .rel || x.ord == .ar) && (x.scope == .gang || x.scope == .dev || x.scope == .sys) then s1.commit I.G.ctx I.G.crew 1
       else s1) I.Unset)

/-! ## Tiles, tasks and accumulators (chapters 11 and 12) -/

/-- TLD and TST (R229, R230, R233 to R236, R248, R250): a false guard does nothing; of the causes of the tile, of a marked pointer or
pitch, of alignment and pitch, and of the image's places, the one of lowest rank stops the group or, serviced, puts the operation into the
operand log; with none the operation begins in its issue cycle, its image cut into rows at every 16 bytes, after the version and the
configuration of an .AON form, whose limit EXACT takes away; TST.AON beyond the core commits. TZERO, TMOV and TXP (R229, R230, R251):
tiles not valid or not the crew's, or configurations that do not fit, stop with TILE_CFG; else the operation waits for its turn on its
physical tiles. The lanes that a marked scalar operand's report names are assumption 38, the model's reading. The free cycle of the
accesses is assumption 109, the model's choice. -/
def Obligations.TileInstructionsIssue : Prop :=
  (∀ (x : TileMemA) (s : State) (I : Iss), Ready s x.h { reads := [x.b], all := true, sr := [(x.a.val, 3)] } I →
     let p := (I.striple x.a).1
     let b := I.sval true x.b
     let k := I.s.core I.c
     let cfg := tcfg (k.tile ((k.tileOf I.G.ctx x.t).getD 0)).cfg
     let first := if x.aon then Ptr.advance p 8 else p
     let head := if x.aon then [accOf 0 I.t p 4 false, accOf 0 I.t (Ptr.advance p 4) 4 false] else []
     let accs := head ++ (imageParts cfg (Ptr.addr first) b.val.toNat).map fun q => accOf 0 I.t (Ptr.advance first q.1) q.2 false
     let lim := if x.lsel = 0 ∨ exactNow I = true then none
       else some (I.t + max 4 ((I.G.spec.wl[x.lsel.val - 1]?).getD 0).toNat)
     let is (i : Instr) (store : Bool) : Prop :=
       if I.qok = false then Acts i s I s (I.Flags · (I.t + 1))
       else
         let tf := k.tileFault I.G.ctx I.G.crew x.t
         let kp := (I.striple x.a).2
         let found := accs.filter fun _ => !(kp || b.k || tf.isSome)
         let cs : List Cause := tf.toList ++ (if kp || b.k then [.kConsume] else []) ++
           (if (kp = false ∧ Ptr.addr p % (if x.aon then 8 else 4) ≠ 0) ∨ (b.k = false ∧ b.val.toNat % 4 ≠ 0) then [.align] else []) ++
           (if b.k = false ∧ tf = none ∧ 1 < cfg.r ∧ b.val.toNat < cfg.rowLen then [.tileCfg] else []) ++
           (I.accCauses found (fun _ => 1) store []).map (·.2)
         let o : Op := { opOf i I found with args := [BitVec.ofNat 32 ((k.tileOf I.G.ctx x.t).getD 0)], limit := lim }
         match worst (cs.map fun c => (0, c)) with
         | some .kConsume => Stops i s I I.kAll
         | some w => ∃ r : Report, r.cause = w ∧ r.scalar = true ∧ r.pc = I.S.pc ∧
             if w.serviced then
               ∃ t, I.At t (I.S.pc + 1) ∧ I.Alone (I.s.addOp I.c { o with stage := .logged }) t ∧ exec i s = .next (t.takeServiced I.c I.g r)
             else Stops i s I r
         | none =>
           let own := found.all fun a => Ptr.space a.ptr == 1
           let s0 := if own then I.s else I.s.freeNat.2
           let s1 := (s0.addOp I.c o).postQ I.c (I.t + if own then 0 else I.s.freeNat.1) (.accessCheckComplete I.c I.id)
           let s2 := match lim with
             | some t => s1.postQ I.c t (.aonLimitExpiry I.c I.id)
             | none => s1
           let s3 := if x.aon && (x.scope == .gang || x.scope == .dev || x.scope == .sys) then s2.commit I.G.ctx I.G.crew 1 else s2
           Acts i s I (if store && !found.isEmpty then s3.commitAhead I.who i found else s2) I.Unset
     is (.tld x) false ∧ is (.tst x) true) ∧
  (∀ (x : TileA) (s : State) (I : Iss), Ready s x.h {} I →
     let k := I.s.core I.c
     let phys (n : Nat) : Nat := (k.tileOf I.G.ctx n).getD 0
     let cfg (n : Nat) : TCfg := tcfg (k.tile (phys n)).cfg
     let bad (n : Nat) : Bool := (k.tileFault I.G.ctx I.G.crew n).isSome
     let stop : Report := { cause := .tileCfg, scalar := true, pc := I.S.pc }
     let is (i : Instr) (ts : List Nat) (unfit : Prop) [Decidable unfit] : Prop :=
       if I.qok = false then Acts i s I s (I.Flags · (I.t + 1))
       else if ts.any bad = true ∨ unfit then Stops i s I stop
       else ArrayActs i s I I.s (ts.map fun n => BitVec.ofNat 32 (phys n)) [] I.active
     is (.tzero x) [x.d.val] False ∧ is (.tmov x) [x.d.val, x.a.val] (cfg x.d ≠ cfg x.a) ∧
     is (.txp x) [x.d.val, x.a.val] (x.d = x.a ∨ (cfg x.d).fmt ≠ (cfg x.a).fmt ∨ (cfg x.d).r ≠ (cfg x.a).c ∨ (cfg x.d).c ≠ (cfg x.a).r ∨
       (cfg x.a).fmt = 7))

/-- MTASK and MTASKM (R242, R243, R248, R252, R253): a false guard does nothing, a marked operand stops always, a record that R242 does
not allow stops with its cause, and of the causes of MTASKM's operands the one of lowest rank counts, PROT serviced; a full window holds
the instruction; else MTASK's task enters the window, and MTASKM's records are read from the next cycle on. The lanes that a marked scalar
operand's report names are assumption 38, the model's reading. -/
def Obligations.MatrixTasksIssue : Prop :=
  (∀ (x : MtaskA) (s : State) (I : Iss), Ready s x.h { reads := [x.shape], all := true } I →
    let k := I.s.core I.c
    let w := I.sval false x.shape
    let n := w.val.toNat
    let r : TRec := ⟨x.op, x.ta, x.tb, x.acc, x.d, x.a, x.b, n % 32 + 1, n / 32 % 64 + 1, n / 2048 % 256 + 1, n / 524288 % 256, 0, 0,
      x.h.setf, none⟩
    if I.qok = false then Acts (.mtask x) s I s (I.Flags · (I.t + 1))
    else if w.k then Stops (.mtask x) s I I.kAll
    else if 2 ^ 27 ≤ n then Stops (.mtask x) s I { cause := .tileCfg, scalar := true, pc := I.S.pc }
    else match k.taskFault I.G.ctx I.G.crew ((I.crew.map (·.size)).getD 0) r with
      | some c => Stops (.mtask x) s I { cause := c, scalar := true, pc := I.S.pc }
      | none =>
        if 16 ≤ k.windowUse I.G.ctx (I.s.sameCtx I.c I.G.ctx) then exec (.mtask x) s = .next (I.held I.s)
        else Acts (.mtask x) s I (I.s.acceptTask I.c I.G.ctx I.G.crew I.g I.id r) I.Unset) ∧
  (∀ (x : MtaskmA) (s : State) (I : Iss), Ready s x.h { reads := [x.a, x.b], all := true } I →
    let a := I.sval true x.a
    let b := I.sval true x.b
    let size := (I.crew.map (·.size)).getD 0
    let n := b.val.toNat
    if I.qok = false then Acts (.mtaskm x) s I s (I.Flags · (I.t + 1))
    else
    let causes : List Cause := (if a.k || b.k then [.kConsume] else []) ++ (if a.k = false ∧ a.val.toNat % 64 ≠ 0 then [.align] else []) ++
        (if a.k = false ∧ b.k = false ∧ size < a.val.toNat + 64 * n then [.prot] else []) ++
        (if b.k = false ∧ (n = 0 ∨ 16 < n) then [.tileCfg] else [])
    match worst (causes.map fun c => (0, c)) with
    | some .kConsume => Stops (.mtaskm x) s I I.kAll
    | some c =>
      let r : Report := { cause := c, scalar := true, pc := I.S.pc, ptr := BitVec.ofNat 96 (2 ^ 80 + a.val.toNat) }
      if c = .prot then
        ∃ t, I.At t (I.S.pc + 1) ∧ I.Alone ((I.s.skipIds (min 16 n)).addOp I.c
          { opOf (.mtaskm x) I [] with args := [a.val, b.val], stage := .logged }) t ∧
          exec (.mtaskm x) s = .next (t.takeServiced I.c I.g r)
      else Stops (.mtaskm x) s I r
    | none =>
      if 16 < (I.s.core I.c).windowUse I.G.ctx (I.s.sameCtx I.c I.G.ctx) + n then exec (.mtaskm x) s = .next (I.held I.s)
      else Acts (.mtaskm x) s I (((I.s.skipIds n).addOp I.c { opOf (.mtaskm x) I [] with args := [a.val, b.val] }).postQ I.c (I.t + 1)
        (.accessCheckComplete I.c I.id)) I.Unset)

/-- ACALLOC, ACFREE, ACBAND and ACZERO (R256 to R258, R267, R270, R271, R273): ACALLOC takes the banks of its mask when all are free, its
group holding every row, and its status says so; ACFREE gives back banks that are the crew's with rows its own or of groups gone; ACBAND
gives rows that are its own or nobody's to a live group of its crew, itself or nobody, else ACM_BAND; ACZERO waits for its turn. The lanes
that a marked scalar operand's report names are assumption 38, the model's reading. -/
def Obligations.BankOwnershipIssues : Prop :=
  (∀ (x : AcMaskA) (s : State) (I : Iss), Ready s x.h { reads := [x.a], all := true } I →
    let k := I.s.core I.c
    let a := I.sval true x.a
    let ns := (List.range 32).filter fun n => a.val.getLsbD n
    let phys (n : Nat) : Nat := (k.bankOf I.G.ctx n).getD 0
    let free (n : Nat) : Bool := (k.bankOf I.G.ctx n).isSome && (k.bank (phys n)).owner == none
    let live := (I.crew.map I.s.expected).getD []
    let mine (n : Nat) : Bool := k.bankFault I.G.ctx I.G.crew n == none && (k.bank (phys n)).rows.toList.all fun r => match r with
      | some p => p == I.G.pos || !live.contains p
      | none => true
    AccIssues (.acalloc x) s I a.k none (
      let ps := if ns.all free then ns.map phys else []
      InstantActs (.acalloc x) s I (ps.foldl (fun s p => s.modCore I.c fun k => k.modBank p fun _ =>
          { Bank.reset with owner := some (I.G.ctx, I.G.crew), rows := Vector.replicate 32 (some I.G.pos) }) I.s)
        (ps.map (BitVec.ofNat 32)) (Iss.wstat x.d (ns.all free))) ∧
    AccIssues (.acfree x) s I a.k none (
      if ns.all mine = false ∨ ns = [] then InstantActs (.acfree x) s I I.s [] (Iss.wstat x.d (ns.all mine))
      else ArrayActs (.acfree x) s I ((ns.map phys).foldl (fun s p => s.modCore I.c fun k => k.modBank p fun b =>
        { b with freeing := true }) I.s) ((ns.map phys).map (BitVec.ofNat 32)) [] I.active)) ∧
  (∀ (x : AcBandA) (s : State) (I : Iss), Ready s x.h { reads := [x.a, x.b], all := true, sr := BankSel.regs x.d } I →
    let k := I.s.core I.c
    let n := selOf I x.d
    let a := I.sval true x.a
    let b := I.sval true x.b
    let bank := k.bank ((k.bankOf I.G.ctx n.1).getD 0)
    let to' : Option (Option Nat) := bandTarget ((I.crew.map I.s.expected).getD []) I.G.pos b.val
    let ok : Bool := to'.isSome && (rowsOf a.val).all fun i => match (bank.rows[i]?).join with
      | some p => p == I.G.pos
      | none => true
    AccIssues (.acband x) s I (n.2 || a.k || b.k)
      (match k.bankFault I.G.ctx I.G.crew n.1 with
        | some c => some c
        | none => if ok then none else some .acmBand)
      (InstantActs (.acband x) s I (I.s.modCore I.c fun q => q.modBank ((k.bankOf I.G.ctx n.1).getD 0) fun b =>
        { b with rows := (rowsOf a.val).foldl (fun v i => v.setIfInBounds i (to'.getD none)) b.rows }) [] [])) ∧
  (∀ (x : AcZeroA) (s : State) (I : Iss), Ready s x.h { reads := [x.a], all := true, sr := BankSel.regs x.d } I →
    let k := I.s.core I.c
    let n := selOf I x.d
    let a := I.sval true x.a
    AccIssues (.aczero x) s I (n.2 || a.k)
      (match k.bankFault I.G.ctx I.G.crew n.1 with
        | some c => some c
        | none => if (rowsOf a.val).all fun i => ((k.bank ((k.bankOf I.G.ctx n.1).getD 0)).rows[i]?).join == some I.G.pos then none
          else some .acmBand)
      (ArrayActs (.aczero x) s I I.s [BitVec.ofNat 32 ((k.bankOf I.G.ctx n.1).getD 0), a.val] [] I.active))

/-- ACDRAIN, ACLOAD and ACSCALE (R256 to R258, R267, R272, R274): a lane of a window of width 16, 32, 48 or 64 works on row FIRST + lane /
width and column FIRST + lane mod width when that lies in the bank; with no such lane only the flag is set; rows the group does not hold
stop with ACM_BAND; marked data stops the ingest under FAULT and escapes under USE; else the operation waits for its turn. The lanes that
a marked scalar operand's report names are assumption 38, the model's reading. -/
def Obligations.BankMovesIssue : Prop :=
  (∀ (x : AcMoveA) (s : State) (I : Iss),
    let k := I.s.core I.c
    let n := selOf I x.bank
    let win := I.sval true x.win
    let W := 16 * (x.w.val + 1)
    let row (l : Nat) : Nat := win.val.toNat % 32 + l / W
    let inside (l : Nat) : Bool := row l < 32 && win.val.toNat / 256 % 64 + l % W < 64
    let act : Lanes := maskOf 96 fun l => I.active.getLsbD l && inside l
    let bank := k.bank ((k.bankOf I.G.ctx n.1).getD 0)
    let unheld : Lanes := maskOf 96 fun l => act.getLsbD l && (bank.rows[row l]?).join != some I.G.pos
    let args := [BitVec.ofNat 32 ((k.bankOf I.G.ctx n.1).getD 0), win.val]
    let is (i : Instr) (load : Bool) : Prop :=
      let src := if load then I.vsrc false x.r else VReg.zero
      let marked : Lanes := maskOf 96 fun l => act.getLsbD l && (src.at l).k
      if act = 0 then Acts i s I s (I.Flags · (I.t + 2))
      else if (n.2 || win.k) = true then Stops i s I I.kAll
      else if marked ≠ 0 ∧ I.uses 4 = false then Stops i s I { cause := .kConsume, cmask := marked, pc := I.S.pc }
      else match k.bankFault I.G.ctx I.G.crew n.1 with
        | some c => Stops i s I { cause := c, scalar := true, pc := I.S.pc }
        | none =>
          if unheld ≠ 0 then Stops i s I { cause := .acmBand, cmask := unheld, pc := I.S.pc }
          else if I.badScalars { reads := [x.win], sr := BankSel.regs x.bank } || (load && I.badLanes x.r act) then Consumes i s I
          else ArrayActs i s I (I.s.escape I.c I.g (marked != 0)) args (if load then [src] else []) act
    (Ready s x.h { names := [x.win], dsts := [x.r] } I → is (.acdrain x) false) ∧
    (Ready s x.h { names := [x.r, x.win] } I → is (.acload x) true)) ∧
  (∀ (x : AcScaleA) (s : State) (I : Iss),
    Ready s x.h { reads := [x.sc], names := [x.b], all := true, sr := BankSel.regs x.d ++ BankSel.regs x.a } I →
    let k := I.s.core I.c
    let d := selOf I x.d
    let a := selOf I x.a
    let e := I.vsrc false x.b
    let sc := (I.fsrc .f32 x.sc).at 0
    let rows := ((List.range (x.nM1.toNat + 1)).map (x.f.toNat + ·)).filter (· < 32)
    let held (n i : Nat) : Bool := ((k.bank ((k.bankOf I.G.ctx n).getD 0)).rows[i]?).join == some I.G.pos
    let ingest : Bool := ((List.range 96).any fun l => (e.at l).k) || sc.k
    AccIssues (.acscale x) s I (d.2 || a.2 || (ingest && !I.uses 4))
      (match k.bankFault I.G.ctx I.G.crew d.1, k.bankFault I.G.ctx I.G.crew a.1 with
        | some c, _ | none, some c => some c
        | none, none => if rows.all fun i => held d.1 i && held a.1 i then none else some .acmBand)
      (if I.badLanes x.b Lanes.all then Consumes (.acscale x) s I
       else ArrayActs (.acscale x) s I (I.s.escape I.c I.g ingest)
        [BitVec.ofNat 32 ((k.bankOf I.G.ctx d.1).getD 0), BitVec.ofNat 32 ((k.bankOf I.G.ctx a.1).getD 0), sc.val] [e] I.active))

/-- MSTAT and MCHECK (R275, R276): MSTAT's item of the tenant lands at t + 2, cleared when the word says so; MCHECK.BANK checks a bank of
the crew in its turn, MCHECK.SELF every engine that serves the tenant. The lanes that a marked scalar operand's report names are
assumption 38, the model's reading. -/
def Obligations.ArrayStatusIssues : Prop :=
  (∀ (x : MstatA) (s : State) (I : Iss), Ready s x.h {} I →
    let m := (((I.s.core I.c).tenant? I.G.ctx).map (·.mstat)).getD ⟨0, 0, 0, 0, 0, 0⟩
    let w : Word := match x.item with
      | .sticky => m.sticky.zeroExtend 32 | .corr => m.corr | .terr => m.terr | .checks => m.checks | .voids => m.voids
      | .tests => m.tests
    let s1 := if x.clr then I.s.modCore I.c fun k => k.modTenant I.G.ctx fun t => { t with mstat := t.mstat.clear x.item } else I.s
    AccIssues (.mstat x) s I false none (Acts (.mstat x) s I s1 (I.Flies · (I.t + 2) [I.wsreg x.d ⟨w, false⟩]))) ∧
  (∀ (x : McheckA) (s : State) (I : Iss), Ready s x.h { all := true, sr := (x.a.map BankSel.regs).getD [] } I →
    match x.a with
    | none => AccIssues (.mcheck x) s I false none (ArrayActs (.mcheck x) s I I.s [] [] I.active)
    | some b =>
      let k := I.s.core I.c
      let n := selOf I b
      AccIssues (.mcheck x) s I n.2 (k.bankFault I.G.ctx I.G.crew n.1)
        (ArrayActs (.mcheck x) s I I.s [BitVec.ofNat 32 ((k.bankOf I.G.ctx n.1).getD 0)] [] I.active))

/-! ## Engines, streams, gangs and the system instructions (chapters 13 and 15) -/

/-- COPY and MSEND (R277 to R284, R292): with every cause absent and an engine slot free, the lowest free slot takes the copy or the
packet with its operands as they were at issue; without one they are held. An MSEND whose payload is marked under USE sets KSTICKY; an
uncorrectable payload register is consumed as it starts, once its crew has committed where R292 says. The lanes that a marked scalar
operand's report names are assumption 38, the model's reading. -/
def Obligations.CopyAndSendIssue : Prop :=
  (∀ (x : CopyA) (s : State) (I : Iss),
    let n := if x.m then 3 else if x.cw then 2 else 0
    Ready s x.h { reads := [x.b], all := true, sr := [(x.d.val, 3), (x.a.val, 3), (x.c.val, n)] } I →
    let len := I.sval true x.b
    let cs := (List.range 3).map fun i => if i < n then I.sreg (x.c.val + i) else Elem.zero
    let args := ptrArgs (I.striple x.a).1 ++ ptrArgs (I.striple x.d).1 ++ [len.val] ++ cs.map fun e => e.val
    let slot := State.freeEngSlot (I.s.core I.c)
    let operands := [(0, (I.striple x.a).2), (3, (I.striple x.d).2), (6, len.k)] ++ cs.zipIdx.map fun e => (7 + e.2, e.1.k)
    EngineIssues (.copy x) s I args operands false slot.isNone id fun o =>
      (I.s.addOp I.c o).copyStart I.c o x (slot.getD 0)) ∧
  (∀ (x : MsendA) (s : State) (I : Iss),
    let n := x.wordsM1.toNat + 1
    let regs : List Nat := match x.a with
      | .s r => if x.sp then [r.val] else (List.range n).map fun i => r.val + i
      | _ => []
    let sr : List (Nat × Nat) := match x.a with
      | .s r => [(r.val, if x.sp then 1 else n)]
      | _ => []
    Ready s x.h { reads := [x.b, x.tagv] ++ if x.sp then [x.a] else [], all := true } I →
    let b := I.sval true x.b
    let a := I.sval true x.a
    let tag := I.sval true x.tagv
    let pay := if x.sp then [] else regs.map I.sreg
    let args := [b.val &&& 63, (b.val >>> 8) &&& 7, b.val, tag.val, BitVec.ofNat 32 n, if x.sp then a.val else 0] ++ pay.map fun e => e.val
    let kp := pay.any fun e => e.k
    let operands := [(0, b.k), (3, x.tag && tag.k), (5, x.sp && a.k), (6, kp && !I.uses 2)]
    let slot := State.freeEngSlot (I.s.core I.c)
    EngineIssues (.msend x) s I args operands (!x.sp && I.badScalars { sr := sr }) slot.isNone (fun s => s.escape I.c I.g kp) fun o =>
      (I.s.addOp I.c o).msendStart I.c o x (slot.getD 0))

/-- RINGSET, ARM, DISARM, GATTACH and GDETACH (R291, R293, R302, R303): the causes of their operands first; RINGSET and GATTACH take
effect at t + 2, ARM's translations begin in the next cycle, DISARM's effect comes at t + 80 at the earliest, and GDETACH leaves at t + 2.
The lanes that a marked scalar operand's report names are assumption 38, the model's reading. -/
def Obligations.RingAndWindowIssue : Prop :=
  let waits (s : State) (I : Iss) (o : Op) (due : Nat) (ev : Instr) : State :=
    ((s.addOp I.c o).modOp I.c o.id fun o => { o with stage := .waiting }).postQ I.c due ev
  (∀ (x : RingA) (s : State) (I : Iss), Ready s x.h { reads := [x.a, x.b], all := true } I →
    let a := I.sval true x.a
    let b := I.sval true x.b
    EngineIssues (.ringset x) s I [a.val, b.val] [(0, a.k), (1, b.k)] false false id fun o =>
      waits I.s I o (I.t + 2) (.accessCheckComplete I.c I.id)) ∧
  (∀ (x : ArmA) (s : State) (I : Iss), Ready s x.h { reads := [x.tag], all := true, sr := [(x.a.val, 3), (x.b.val, 3)] } I →
    let t := I.sval true x.tag
    EngineIssues (.arm x) s I (ptrArgs (I.striple x.a).1 ++ ptrArgs (I.striple x.b).1 ++ [t.val])
      [(0, (I.striple x.a).2), (3, (I.striple x.b).2), (6, t.k)] false false id fun o =>
      (I.s.addOp I.c o).postQ I.c (I.t + 1) (.accessCheckComplete I.c I.id)) ∧
  (∀ (x : St1A) (s : State) (I : Iss), Ready s x.h { reads := [x.a], all := true } I →
    let a := I.sval true x.a
    EngineIssues (.disarm x) s I [a.val] [(0, a.k)] false false id fun o =>
      waits I.s.freeNat.2 I o (I.t + 80 + I.s.freeNat.1) (.accessCheckComplete I.c I.id)) ∧
  (∀ (x : GattA) (s : State) (I : Iss), Ready s x.h { reads := [x.a, x.b], all := true } I →
    let a := I.sval true x.a
    let b := I.sval true x.b
    EngineIssues (.gattach x) s I [a.val, b.val] [(0, a.k), (1, b.k)] false false id fun o =>
      waits I.s I o (I.t + 2) (.accessCheckComplete I.c I.id)) ∧
  (∀ (x : GdetA) (s : State) (I : Iss), Ready s x.h {} I →
    EngineIssues (.gdetach x) s I [] [] false false id fun o => waits I.s I o (I.t + 2) (.gdetachComplete I.c I.id))

/-- ASDEF, ASGO, ASSTOP and QPOP (R294, R296, R299): a false guard does nothing; a marked operand stops; the descriptor's range meets the
checks of its access at issue (PROT serviced), marked words stop with K_CONSUME and uncorrectable ones are consumed; each effect comes at
t + 2. QPOP: no active lane does nothing; a queue that another group has claimed raises PROT, serviced; a guess entry is needed within a
limit; else a pop begins. The lanes that a marked scalar operand's report names are assumption 38, the model's reading. -/
def Obligations.StreamInstructionsIssue : Prop :=
  let begins (i : Instr) (s : State) (I : Iss) (args : List Word) : Prop :=
    Acts i s I ((I.s.addOp I.c { opOf i I [] with args := args, stage := .waiting }).postQ I.c (I.t + 2) (.accessCheckComplete I.c I.id)) I.Unset
  let serviced (i : Instr) (s : State) (I : Iss) (o : Op) (p : Ptr) : Prop :=
    ∃ t, I.At t (I.S.pc + 1) ∧ I.Alone (I.s.addOp I.c { o with stage := .logged }) t ∧
      exec i s = .next (t.takeServiced I.c I.g { cause := .prot, scalar := true, pc := I.S.pc, ptr := p })
  (∀ (x : AsdefA) (s : State) (I : Iss), Ready s x.h { reads := [x.a], all := true } I →
    let a := I.sval true x.a
    let w := I.s.scratchWords I.who a.val.toNat 16
    if I.qok = false then Acts (.asdef x) s I s (I.Flags · (I.t + 2))
    else if a.k then Stops (.asdef x) s I I.kAll
    else match I.s.early I.who (ownSpace a.val.toNat) 64 64 false with
      | some .prot => serviced (.asdef x) s I { opOf (.asdef x) I [] with args := [a.val] } (ownSpace a.val.toNat)
      | some k => Stops (.asdef x) s I { cause := k, scalar := true, pc := I.S.pc, ptr := ownSpace a.val.toNat }
      | none =>
        if w.2.2 = true then Stops (.asdef x) s I I.kAll
        else if w.2.1 = true then Consumes (.asdef x) s I
        else begins (.asdef x) s I (a.val :: w.1)) ∧
  (∀ (x : St1A) (s : State) (I : Iss), Ready s x.h { reads := [x.a], all := true } I →
    let a := I.sval true x.a
    if I.qok = false then Acts (.asgo x) s I s (I.Flags · (I.t + 2))
    else if a.k then Stops (.asgo x) s I I.kAll else begins (.asgo x) s I [a.val]) ∧
  (∀ (x : UnA) (s : State) (I : Iss), Ready s x.h { reads := [x.a], all := true } I →
    let a := I.sval true x.a
    if I.qok = false then Acts (.asstop x) s I s (I.Flags · (I.t + 2))
    else if a.k then Stops (.asstop x) s I I.kAll else begins (.asstop x) s I [a.val]) ∧
  (∀ (x : QpopA) (s : State) (I : Iss), Ready s x.h { dsts := [x.d] } I →
    let lim := x.lsel != 0 && !exactNow I
    let t := I.t + max 4 ((I.G.spec.wl[x.lsel.val - 1]?).getD 0).toNat
    let lanes := if x.vec then (List.range 96).filter fun l => I.active.getLsbD l else [0]
    let accs := lanes.map fun l =>
      { accOf l (I.t + (I.s.core I.c).passOf l) 0 4 false with lim := if lim then some t else none }
    let o : Op := { opOf (.qpop x) I accs with firstRead := some 0, args := exited0 I x.d }
    if I.active = 0 ∨ I.qok = false then Acts (.qpop x) s I s (I.Flags · (I.t + 1))
    else if ((I.s.queue I.c x.queue.val).claim.any fun g => g != I.g) = true then serviced (.qpop x) s I o 0
    else if lim = true ∧ 16 ≤ I.G.guesses.length then exec (.qpop x) s = .next (I.held I.s)
    else
      let s1 := I.s.addOp I.c o
      let s2 := if lim then (s1.postQ I.c t (.limitExpiry I.c I.id)).modGroup I.c I.g fun G =>
          { G with guesses := G.guesses ++ [⟨I.id, gdest x.d, 1, x.slot, x.fp, .w, false, []⟩] } else s1
      Acts (.qpop x) s I (s2.postQ I.c I.t (.accessCheckComplete I.c I.id)) I.Unset)

/-- SRD and SWR (R74, R338, R339): an index out of its range stops with ILL_ENC, a marked operand with K_CONSUME, a tile not of the tenant
with TILE_CFG. SRD writes the register's word to its destination after 1 cycle. SWR to a register of the group writes it in the next
cycle; to XMODE, MTEN, MTOL and STEP it is asked in the next cycle; to a TCFG it takes the tile at once or is held while its users work.
The lanes that a marked scalar operand's report names are assumption 38, the model's reading. -/
def Obligations.SpecialRegisterAccess : Prop :=
  let index (I : Iss) (sel : SReg) (o : Opnd) : Nat × List Cause :=
    if sel.indexed then
      ((I.sval true o).val.toNat, (if indexOk sel (I.s.ctx I.G.ctx).corecnt (I.sval true o).val.toNat then [] else [.illEnc]) ++
        if (I.sval true o).k then [.kConsume] else [])
    else (0, [])
  (∀ (x : SrdA) (s : State) (I : Iss), Ready s x.h { reads := if x.sel.indexed then [x.idx] else [], all := true } I →
    let ix := index I x.sel x.idx
    if I.qok = false then Acts (.srd x) s I s (I.Flags · (I.t + 2))
    else match I.special x.sel ix.1 with
      | none => SysStops (.srd x) s I (.tileCfg :: ix.2) 0 True
      | some w => SysStops (.srd x) s I ix.2 0 (ScalarResult (.srd x) s I 1 x.d ⟨w, false⟩)) ∧
  (∀ (x : SwrA) (s : State) (I : Iss), Ready s x.h { reads := x.a :: if x.sel.indexed then [x.idx] else [], all := true } I →
    let a := I.sval true x.a
    let ix := index I x.sel x.idx
    let cs := ix.2 ++ if a.k then [.kConsume] else []
    if I.qok = false then Acts (.swr x) s I s (I.Flags · (I.t + 2))
    else if x.sel = .tcfg then
      let k := I.s.core I.c
      match k.tileOf I.G.ctx ix.1 with
      | none => SysStops (.swr x) s I (cs ++ if Cause.illEnc ∈ cs then [] else [.tileCfg]) 0 True
      | some p =>
        let taken := (k.tile p).owner.isSome && (k.tile p).owner != some (I.G.ctx, I.G.crew)
        SysStops (.swr x) s I (cs ++ if Cause.illEnc ∉ cs ∧ taken then [.tileCfg] else []) 0
          (if k.turn I.G.ctx I.t I.id ⟨[], [p]⟩ = .go then
            let free : Bool := a.val.extractLsb' 28 4 == 0
            let s1 := I.s.modCore I.c fun k => k.modTile p fun t =>
              { t with cfg := tcfgStore a.val, owner := if free then none else some (I.G.ctx, I.G.crew) }
            Acts (.swr x) s I (if free then s1.retryAll else s1)
              (I.Flags · (I.t + 2))
          else exec (.swr x) s = .next (I.held I.s))
    else SysStops (.swr x) s I cs 0
      (if x.sel = .xmode ∨ x.sel = .mten ∨ x.sel = .mtol ∨ x.sel = .step then
        Acts (.swr x) s I ((I.s.addOp I.c { opOf (.swr x) I [] with args := [a.val], stage := .waiting, setf := none }).postQ I.c (I.t + 1)
          (.accessCheckComplete I.c I.id)) (I.Flags · (I.t + 2))
      else Computes (.swr x) s I (I.t + 1) [.spec x.sel ix.1 a.val]))

/-- TRAP (R112, R340): the instruction takes effect, then the exception is taken: BREAK for code 0xBD, else TRAP, DETAIL the code, with the
PC of the TRAP recorded and the split standing after it. SPAWN (R341): no free place, slot or registers, or no active lane, gives status 0;
marked elements stop it; else a group starts at the target in the lowest position and slot, at t + 4, with the active lanes of eight
registers in v0 to v7. -/
def Obligations.TrapAndSpawn : Prop :=
  (∀ (x : TrapA) (s : State) (I : Iss), Ready s x.h {} I →
    if I.qok = false then Acts (.trap x) s I s (I.Flags · (I.t + 2))
    else ∃ t, I.At t (I.S.pc + 1) ∧ I.Still s t ∧ I.Alone s t ∧ I.Flags t (I.t + 2) ∧ exec (.trap x) s = .next (t.takeStop I.c I.g
      { cause := if x.code = 0xBD then .brk else .trap, detail := x.code, scalar := true, pc := I.S.pc })) ∧
  (∀ (x : SpawnA) (s : State) (I : Iss), Ready s x.h { vr := [(x.a.val, 8)] } I →
    let status (b : Bool) : List RegWrite := Iss.wstat x.d b
    let reg (j : Nat) : VReg := I.G.regs.vec (.v (x.a.val + j))
    let marked : Lanes := (maskOf 96 fun l => (List.range 8).any fun j => ((reg j).at l).k) &&& I.active
    let free := I.s.freeSlots I.c
    let held := I.s.reserved I.c
    if I.qok = false then Acts (.spawn x) s I s (I.Flags · (I.t + 2))
    else if I.active = 0 then LongResult (.spawn x) s I 4 (status false)
    else ∀ k, I.crew = some k →
      let live := State.livePos k
      if 16 ≤ live.length ∨ free.length ≤ held.1 ∨ Config.coreRegs < I.s.regsUsed I.c + held.2 + I.G.budget then
        LongResult (.spawn x) s I 4 (status false)
      else if marked ≠ 0 then Stops (.spawn x) s I { cause := .kConsume, cmask := marked, pc := I.S.pc }
      else ∀ slot l pos, free.head? = some slot → I.s.leg? I.G.ctx k.leg = some l → (List.range 16).find? (fun p => !live.contains p) = some pos →
        let s1 := I.s.newGroup I.G.ctx k l slot pos (I.S.pc + x.disp.signExtend 32) (I.t + 4)
        let s2 := s1.modGroup I.c slot fun G => (List.range 8).foldl (fun (G : Group) j =>
          { G with regs := G.regs.setVec (.v j) I.active (reg j) }) G
        Acts (.spawn x) s I s2 (I.Flies · (I.t + 4) (status true)))

/-- LAUNCH, TBINV, PLACEW and FINJ (R338, R342 to R345): the checks of each one's operands, the cause of lowest rank first; then LAUNCH
commits its crew and asks in the next cycle, TBINV starts the invalidation of an aligned block, PLACEW's effect comes at t + 20, and FINJ
injects into the unit its key names, or asks for a line's translation in the next cycle. The lanes that a marked scalar operand's report
names are assumption 38, the model's reading. What a TBINV to another module does here is assumptions 1 and 9, the model's choice. -/
def Obligations.SystemInstructionsIssue : Prop :=
  let priv (I : Iss) : List Cause := if (I.s.ctx I.G.ctx).regs.system then [] else [.priv]
  let k? (b : Bool) : List Cause := if b then [.kConsume] else []
  let space (p : Ptr) : List Cause := if Ptr.space p ≠ 0 ∨ Ptr.rank p ≠ 0 then [.illPtr] else []
  (∀ (x : LaunchA) (s : State) (I : Iss), Ready s x.h { reads := [x.b], sr := [(x.a.val, 3)] } I →
    let p := (I.striple x.a).1
    let b := I.sval true x.b
    if I.qok = false then Acts (.launch x) s I s (I.Flags · (I.t + 2))
    else if I.active = 0 then LongResult (.launch x) s I 4 (Iss.wstat x.d false)
    else SysStops (.launch x) s I (if (I.striple x.a).2 then [.kConsume]
      else space p ++ (if Ptr.addr p % 64 ≠ 0 then [.align] else []) ++ k? b.k) p
      (Acts (.launch x) s I (((I.s.addOp I.c { opOf (.launch x) I [] with args := ptrArgs p ++ [b.val, (I.s.ctx I.G.ctx).toposeq] }).commit
        I.G.ctx I.G.crew 1).postQ I.c (I.t + 1) (.accessCheckComplete I.c I.id)) I.Unset)) ∧
  (∀ (x : TbinvA) (s : State) (I : Iss), Ready s x.h { reads := [x.ctx, x.k], all := true, sr := [(x.a.val, 3)] } I →
    let n := I.sval true x.ctx
    let k := I.sval true x.k
    let p := (I.striple x.a).1
    let s1 := I.s.addOp I.c { opOf (.tbinv x) I [] with stage := .waiting }
    if I.qok = false then Acts (.tbinv x) s I s (I.Flags · (I.t + 2))
    else SysStops (.tbinv x) s I (if (I.striple x.a).2 then [.kConsume]
        else (if k.val.toNat < 12 ∨ 62 < k.val.toNat ∨ 15 < n.val.toNat then [.illEnc] else []) ++ priv I ++ space p ++ k? (n.k || k.k)) p
      (Acts (.tbinv x) s I (if Ptr.module p = Config.thisModule then
          s1.startInv n.val.toNat (Ptr.local p) k.val.toNat (some (I.c, I.id)) (quadOf I.c)
        else ((s1.latency 3000).2.emit (.remote I.c I.id)).postQ I.c (I.t + (s1.latency 3000).1) (.accessCheckComplete I.c I.id)) I.Unset)) ∧
  (∀ (x : PlacewA) (s : State) (I : Iss), Ready s x.h { reads := [x.key, x.entry], all := true } I →
    let k := I.sval true x.key
    let w := I.sval true x.entry
    if I.qok = false then Acts (.placew x) s I s (I.Flags · (I.t + 2))
    else SysStops (.placew x) s I (priv I ++ k? (k.k || w.k)) 0
      (Acts (.placew x) s I ((I.s.addOp I.c { opOf (.placew x) I [] with args := [k.val, w.val], stage := .waiting }).postQ I.c (I.t + 20)
        (.accessCheckComplete I.c I.id)) I.Unset)) ∧
  (∀ (x : FinjA) (s : State) (I : Iss),
    (∀ n, x.a = .triple n → x.kind = .poison → Ready s x.h { all := true, sr := [(n.val, 3)] } I →
      let p := (I.striple n).1
      if I.qok = false then Acts (.finj x) s I s (I.Flags · (I.t + 2))
      else SysStops (.finj x) s I (if (I.striple n).2 then [.kConsume] else priv I ++ space p) p
        (Acts (.finj x) s I ((I.s.addOp I.c { opOf (.finj x) I [] with args := ptrArgs p, setf := none }).postQ I.c (I.t + 1)
          (.accessCheckComplete I.c I.id)) (I.Flags · (I.t + 3)))) ∧
    (∀ o, x.a = .key o → x.kind ≠ .poison →
      let two : Bool := x.kind == .lane || x.kind == .strip
      Ready s x.h { reads := o :: if two then [x.b] else [], all := true } I →
      let a := I.sval true o
      let b := if two then I.sval true x.b else Elem.zero
      let top : Nat := if x.kind = .lane then 31 else 7
      let core := (I.s.ctx (a.val.toNat / 65536 % 16)).physical (a.val.toNat % 65536)
      if I.qok = false then Acts (.finj x) s I s (I.Flags · (I.t + 2))
      else SysStops (.finj x) s I
        ((if core = none ∨ two = true ∧ top < b.val.toNat then [.illEnc] else []) ++ priv I ++ k? (a.k || b.k)) 0
        (∀ c, core = some c → Acts (.finj x) s I (I.s.inject (match x.kind with
          | .lane => .lane c (Fin.ofNat 32 b.val.toNat)
          | .strip => .strip c (Fin.ofNat 8 b.val.toNat)
          | _ => .core c)) (I.Flags · (I.t + 3)))))

/-! ## What happens between instructions -/

/-- R67 to R69, R100, R103, R354, R361: GROUP_PICK fills the issue slot only with a split that its group's open run belongs to; a run of 24
instructions ends, its split standing at a run boundary, and merges (R108); a code line arrives and unfreezes its core; the group parked
longest returns; a committed crew's buffer drains its oldest entry, one a cycle. -/
def Obligations.SchedulerEvents : Prop :=
  (∀ (s : State) (c : Nat), s.sch.issue = none → s.stepOn c = none → (s.core c).enabled = true → (s.core c).stalled = none →
    (s.core c).frozen = none →
    Runs (.groupPick c) s fun t => t.mem = s.mem ∧ (t.sch.issue = none ∨ ∃ (g : Nat) (sp : Fin 4) (G : Group) (S : Split),
      t.sch.issue = some ⟨c, g, sp⟩ ∧ t.group? c g = some G ∧ G.splits[sp] = some S ∧ G.cur = some sp)) ∧
  (∀ (s : State) (c g : Nat) (G : Group) (sp : Fin 4) (S : Split), s.group? c g = some G → G.cur = some sp → G.splits[sp] = some S →
    24 ≤ S.runLen →
    let H : Group := { G with
      splits := G.splits.set sp (some { S with inRun := false, runLen := 0, lvalid := 0, runIds := [], wait := 0 }), cur := none }
    exec (.runLimitEnd c g) s = .next (s.setGroup c g (some (H.mergeAt sp (s.now c) (s.core c).passes)))) ∧
  (∀ (s : State) (c l : Nat), (s.core c).frozen = some l →
    Runs (.icacheLineArrival c) s fun t => (t.core c).frozen = none ∧ l ∈ (t.quad (quadOf c)).icache ∧ t.mem = s.mem ∧
      ∀ g, t.group? c g = s.group? c g) ∧
  (∀ (s : State) (c g : Nat) (G : Group) (n : Nat), s.group? c g = some G → G.parked = some n →
    (∀ h H m, s.group? c h = some H → H.parked = some m → n ≤ m ∧ (m = n → h = g)) →
    exec (.groupUnpark c) s = .next (s.setGroup c g (some { G with parked := none }))) ∧
  (∀ (s : State) (ctx crew : Nat) (k : Crew) (e : SBEntry) (rest : List SBEntry), s.crew? ctx crew = some k → k.committed = true →
    k.sbuf = e :: rest →
    Runs (.storeBufferDrain ctx crew) s fun t => (∃ gone, t.crew? ctx crew = some { k with sbuf := rest, gone := gone } ∧
        (e.blk < 2 ^ 80 → gone = k.gone)) ∧
      (rest ≠ [] → Awaits t k.core (s.now k.core + 1) (.storeBufferDrain ctx crew)))

/-- The writes that stand when a result becomes visible: its own, and after them those of later-issued results visible since the same cycle
(R63). -/
def shown (G : Group) (ws : List RegWrite) (id due : Nat) : List RegWrite := if ws = [] then [] else ws ++ G.laterWrites id due

/-- R62 to R64, R148, R162, R164: what lands. A result in flight writes exactly its registers, a later-issued result of the same cycle
standing over it, and sets its flag while it is the newest claimant; a limit that has passed lands a load once each lane has its answer; a
load lands once, true values in the lanes that answered in time with their spill marks, reckoned and marked ones in the others, which an
entry then holds open in the lanes that have not retired; a true value that has arrived is delivered. -/
def Obligations.LandingEvents : Prop :=
  (∀ (s : State) (c g id : Nat) (G : Group) (p : Pend), s.group? c g = some G → G.pend.find? (fun q => q.id == id) = some p →
    G.ending = false →
    Runs (.resultLanding c g id) s fun t => t.mem = s.mem ∧ ∃ H, t.group? c g = some H ∧ Landed G H (shown G p.ws id p.due) ∧
      H.spec = (p.ws.foldl Group.applyWrite G).spec ∧
      (∀ f, p.setf = some f → (G.regs.flag f).owner = id → (H.regs.flag f).isSet = true) ∧
      (p.flagSince ≤ p.due → ∀ q ∈ H.pend, q.id ≠ id)) ∧
  (∀ (s : State) (c id : Nat) (o : Op), s.op? c id = some o →
    let ready : Prop := o.stage = .check ∧ (∃ a ∈ o.accs, a.lim.isSome = true) ∧
      ∀ a ∈ o.accs, (∃ n, a.arr = some n ∧ n ≤ s.now c) ∨ ∃ n, a.lim = some n ∧ n ≤ s.now c
    (ready → exec (.limitExpiry c id) s = .next (s.postQ c (s.now c) (.loadLanding c id))) ∧
    (¬ready → exec (.limitExpiry c id) s = .next s) ∧
    (∀ (i : LdInfo) (G : Group), ready → ldInfo o.ins = some i → (s.deliver c o.slot).group? c o.slot = some G → G.ending = false →
      let inTime (a : Acc) : Bool := a.cause.isNone && a.arr.any fun n => a.lim.all fun l => n ≤ l
      let elem (j l : Nat) : Elem := match o.accs.find? fun a => a.lane == l with
        | none => Elem.zero
        | some a =>
          if inTime a then ⟨loadWord i.width a.res j, a.km.getLsbD j⟩
          else ⟨(G.rlane i.slot l).reckon i.pmode i.fp ((i.dest.reg j).read G.regs l).val, true⟩
      Runs (.loadLanding c id) s fun t => t.mem = s.mem ∧ ∃ H, t.group? c o.slot = some H ∧
        Landed G H (shown G ((List.range i.width.regs).flatMap fun j => (i.dest.reg j).write o.active (elem j)) id (s.now c)) ∧
        let late := o.accs.filter fun a => !inTime a && G.aliveLanes.getLsbD a.lane
        (late ≠ [] → i.dest ≠ .none → ∃ e ∈ H.guesses, e.id = id ∧ e.landed = true ∧ e.dest = i.dest ∧
          e.lanes.map (fun l => l.lane) = late.map fun a => a.lane))) ∧
  (∀ (s : State) (c id : Nat) (o : Op) (G : Group), s.op? c id = some o → s.group? c o.slot = some G → G.ending = false →
    Runs (.lateValueArrival c id) s fun t => t.mem = s.mem ∧ ∀ q ∈ (t.core c).ops, q.slot = o.slot → (ldInfo q.ins).isSome = true →
      ∀ a ∈ q.accs, (∃ n, a.arr = some n ∧ n < s.now c) → a.dlv = true)

/-- R140, R141, R144, R187: a page walk that ends makes room for the miss that has queued longest, and fills the TLB of its core, or fails
the accesses that wait for its page, the fault of an engine's or a fetch's walk being kept for the one who asks; an access that has waited
on a LENT region checks again, its latency counting from there; an operation whose cycle has come is asked by its own instruction's rules.
That the latency counts anew is assumption 27, the model's choice. -/
def Obligations.AccessEvents : Prop :=
  (∀ (s : State) (q id : Nat) (w : Walk), (s.quad q).walks.find? (fun v => v.id == id) = some w → w.core < 768 →
    Runs (.pageWalkComplete q id) s fun t => t.mem = s.mem ∧
      ((s.quad q).walkQ = [] → (t.quad q).walks = (s.quad q).walks.filter fun v => v.id != id) ∧
      (∀ v vs, (s.quad q).walkQ = v :: vs → quadOf v.core = q → (s.quad q).walks.length ≤ State.walkers → v ∈ (t.quad q).walks ∧ (t.quad q).walkQ = vs) ∧
      match s.walk w.ctx w.va with
      | .ok e => e ∈ (t.core w.core).caches.tlb
      | .fault k _ => if w.keep then ∃ b ∈ (t.core w.core).badWalks, b.ctx = w.ctx ∧ b.va = w.va ∧ b.cause = k
        else ∀ o ∈ (t.core w.core).ops, o.stage = .check → (s.opWho w.core o).ctx = w.ctx → ∀ a ∈ o.accs, a.arr = none →
          Ptr.space a.ptr = 0 → Ptr.module a.ptr = Config.thisModule → Ptr.local a.ptr / 4096 = w.va / 4096 → a.cause.isSome = true) ∧
  (∀ (s : State) (c id : Nat) (o : Op), s.op? c id = some o →
    (o.stage = .lent → exec (.lentStallRelease c id) s =
      .next ((s.modOp c id fun o => { o with stage := .check, accs := o.accs.map fun a => { a with start := max a.start (s.now c) } }).postQ c
        (s.now c) (.accessCheckComplete c id))) ∧
    (o.stage = .check ∨ o.stage = .waiting ∨ o.stage = .performed → exec (.accessCheckComplete c id) s = .next (s.askOp c o)))

/-- R216, R218, R221, R223, R239: an arrival at a crew barrier counts once its group's older accesses are performed, and completes the phase
with the last of the expected groups; one at a gang barrier counts once they are performed at the gang's scope; the first write of a monitored
word that satisfies its wait ends it, 4 cycles later in the core and 80 or more at home; a limit that has passed ends a wait, with the word
last read when none satisfied it, and a TLD.AON with what it has read. -/
def Obligations.WaitEvents : Prop :=
  (∀ (s : State) (c id : Nat) (o : Op) (x : BarA) (G : Group) (k : Crew), s.op? c id = some o → s.group? c o.slot = some G →
    s.crew? G.ctx G.crew = some k → ((s.ctx G.ctx).crews.map fun q => q.id).Nodup → o.stage = .check →
    let ins (b : Bar) : List Nat := if G.pos ∈ b.arrived then b.arrived else G.pos :: b.arrived
    (o.ins = .bar x → (∀ q ∈ s.olderOps c o, Op.done q = true) → ∀ b, k.bars[x.n.val]? = some b →
      Runs (.barArrivalRegister c id) s fun t => ∃ k', t.crew? G.ctx G.crew = some k' ∧ k'.bars[x.n.val]? = some
        (if s.expected k ≠ [] ∧ ∀ p ∈ s.expected k, p ∈ ins b then ⟨!b.phase, []⟩ else ⟨b.phase, ins b⟩)) ∧
    (o.ins = .gbar x → s.released (G.who c) (s.olderOps c o) .gang = true → ∀ b, k.gbars[x.n.val]? = some b →
      Runs (.gbarArrivalRegister c id) s fun t => ∃ k', t.crew? G.ctx G.crew = some k' ∧
        (k'.gbars[x.n.val]? = some ⟨b.phase, ins b⟩ ∨ k'.gbars[x.n.val]? = some ⟨!b.phase, []⟩))) ∧
  (∀ (s : State) (c id : Nat) (o : Op), s.op? c id = some o →
    let m := s.watch.find? fun x => x.core == c && x.id == id
    let vs := (m.map (·.seen)).getD []
    let met (v : Word) : Bool := waitMet o.ins v (o.args.headD 0)
    (o.stage = .waiting → ∀ a rest, o.accs = a :: rest →
      (∀ x n v, m = some x → vs.find? (fun y => met y.2) = some (n, v) → match x.spot with
        | .home _ => ∃ lam, n + 80 ≤ lam ∧ exec (.monitorReread c id) s = .next (s.freeNat.2.waitEnd c o v lam)
        | _ => exec (.monitorReread c id) s = .next (s.waitEnd c o v (max (o.firstRead.getD 0) (n + 4)))) ∧
      ((∀ y ∈ vs, met y.2 = false) → ∀ l, s.look (s.opWho c o) a.ptr a.nbytes false = l →
        (match l with
          | .l1 .. | .scratch .. => True
          | _ => False) →
        ∀ v sm s1, s.readAt (s.opWho c o) l a.nbytes = ((v, false, sm), s1) →
        let w := v.extractLsb' 0 32
        (met w = true → exec (.monitorReread c id) s = .next (s1.waitEnd c o w (max (o.firstRead.getD 0) (s1.now c + 4)))) ∧
        (met w = false → exec (.monitorReread c id) s =
          .next (((s1.setWatch c id (State.spotOf (s.opWho c o) l)).modOp c id fun o => { o with last := w }).postQ c (s1.now c + 1)
            (.monitorReread c id))))) ∧
    (o.stage = .waiting → (∀ y ∈ vs, met y.2 = false) → ∀ n, o.limit = some n → n ≤ s.now c →
      exec (.waitLimitExpiry c id) s =
        .next (s.waitEnd c o ((vs.getLast?.map (·.2)).getD o.last) (max n (o.firstRead.getD 0)))) ∧
    (o.stage = .check ∨ o.stage = .lent → ∀ n, o.limit = some n → n ≤ s.now c →
      exec (.aonLimitExpiry c id) s = .next (s.aonEnd c o o.data false (s.now c))))

/-- R194, R200 to R208: what each token instruction makes of a region of this module, at home: TKLEND and TKRET make it LENT to the recipient
while the caller's core flushes, then OWNED by it; TKHOME leaves it as it is while the core flushes, then HOMED; TKUNHOME gives a HOMED one to
the caller, and completes after the HOMED accesses serialised before it; TKADOPT gives a FREE or ORPHANED one; TKSPLIT divides it, TKJOIN joins
the pieces of a block that are alike; TKSHARE makes it SHARED with one share more, TKUNSHARE takes the caller's share back; TKQUERY changes
nothing and answers its entry. An operation waits while another's flush of its region is under way, and a TKHOME settles only the region it
flushed. A TKTAKE that is not granted waits; one that is lands 100 cycles later or more. Which shares count as the caller's holding (`holdsNow`)
is assumption 120, the model's choice, and what a flush waits for (`flushWaits`) is in part assumption 123's. -/
def Obligations.TokenEvents : Prop :=
  ∀ (s : State) (c id : Nat) (o : Op) (a : Acc) (rest : List Acc) (r : Region), s.op? c id = some o → o.accs = a :: rest →
    Ptr.module a.ptr = Config.thisModule →
    let w := s.opWho c o
    let caller := s.holderOf w (tokClass o.ins)
    let there (t : State) : Option Region := (t.ctx w.ctx).region? (Ptr.local a.ptr)
    let regions (t : State) : List Region := (t.ctx w.ctx).regions
    let arg := (o.args.headD 0).toInt
    there s = some r →
    (o.stage = .home → o.firstRead = none → s.homeBusy w.ctx o (Ptr.local a.ptr) = true →
      exec (.tokenOpAtHome c id) s = .next (s.postQ c (s.now c + 1) (.tokenOpAtHome c id))) ∧
    (o.stage = .home → o.firstRead = none → s.homeBusy w.ctx o (Ptr.local a.ptr) = false →
      let mine : Prop := r.st = .owned ∧ r.owner = caller ∧ r.shares = 0
      let becomes (q : Region) : Prop := Runs (.tokenOpAtHome c id) s fun t => there t = some q
      (∀ x, o.ins = .tklend x → mine → r.lender = noHolder → o.args.headD 0 ≠ caller →
        let q : Region := { r with st := .lent, owner := o.args.headD 0, lender := caller, hcore := none }
        s.flushWaits c w o.id q = false → becomes q) ∧
      (∀ x, o.ins = .tkret x → mine → r.lender ≠ noHolder →
        let q : Region := { r with st := .lent, owner := r.lender, lender := noHolder, hcore := none }
        s.flushWaits c w o.id q = false → becomes q) ∧
      (∀ x, o.ins = .tkhome x → mine → r.lender = noHolder → s.flushWaits c w o.id r = false → becomes r) ∧
      (∀ x, o.ins = .tkunhome x → r.st = .homed → (s.coverOf w (tokClass o.ins)).contains r.owner = true →
        becomes { r with st := .owned, owner := caller, hcore := some w.c }) ∧
      (∀ x, o.ins = .tkadopt x → r.st = .free ∨ r.st = .orphaned →
        becomes { r with st := .owned, owner := caller, lender := noHolder, shares := 0, hcore := some w.c }) ∧
      (∀ x, o.ins = .tksplit x → mine → 1 ≤ arg → arg ≤ 20 → 12 ≤ (r.k : Int) - arg →
        (s.ctx w.ctx).regions.length + (2 ^ arg.toNat - 1) ≤ (s.ctx w.ctx).capacity →
        Runs (.tokenOpAtHome c id) s fun t => regions t = ((s.ctx w.ctx).splitRegion r arg.toNat).regions) ∧
      (∀ x, o.ins = .tkjoin x → r.st = .owned ∨ r.st = .homed → r.owner = caller → r.shares = 0 → 1 ≤ arg → arg ≤ 20 → (r.k : Int) + arg ≤ 32 →
        let k := r.k + arg.toNat
        let block := r.base / 2 ^ k * 2 ^ k
        let piece (q : Region) : Bool := q.k == r.k && decide (block ≤ q.base) && decide (q.base < block + 2 ^ k)
        let alike (q : Region) : Bool := q.st == r.st && q.owner == r.owner && q.lender == r.lender && q.shares == 0
        let ps := (regions s).filter piece
        Runs (.tokenOpAtHome c id) s fun t => regions t = if ps.length = 2 ^ arg.toNat ∧ ps.all alike = true then
          (regions s).filter (fun q => !piece q) ++ [{ r with base := block, k := k, shares := 0, hcore := none }] else regions s) ∧
      (∀ x, o.ins = .tkshare x → r.st = .owned ∨ r.st = .shared → r.owner = caller →
        (s.shareRoom w.ctx r (o.args.headD 0) = true → s.flushWaits c w o.id r = false →
          becomes { r with st := .shared, shares := r.shares + 1 }) ∧
        (s.shareRoom w.ctx r (o.args.headD 0) = false → becomes r)) ∧
      (∀ x, o.ins = .tkunshare x → r.st = .owned ∨ r.st = .shared ∨ r.st = .homed → ∀ y,
        (s.ctx w.ctx).shares.find? (fun y => y.base == r.base && y.holder == caller) = some y → 1 ≤ y.count →
        becomes { r with shares := r.shares - 1, st := if r.shares - 1 = 0 ∧ r.st = .shared then .owned else r.st }) ∧
      (∀ x, o.ins = .tkquery x → ∀ G, s.group? c o.slot = some G → Runs (.tokenOpAtHome c id) s fun t => regions t = regions s ∧
        ∃ H p, t.group? c o.slot = some H ∧ p ∈ H.pend ∧ p.id = id ∧
          p.ws = (State.entryWords (some r)).zipIdx.map fun e => .sreg (x.d.val + e.2) ⟨e.1, false⟩)) ∧
    (o.stage = .home → ∀ n, o.firstRead = some n →
      (∀ x, o.ins = .tkhome x → o.args[1]? = some 1 → Runs (.tokenOpAtHome c id) s fun t => there t = some
        (if r.st = .owned ∧ r.owner = caller ∧ o.limit = some r.base ∧ o.args[2]? = some (BitVec.ofNat 32 r.k) then
          { r with st := .homed, hcore := none } else r)) ∧
      (∀ x, o.ins = .tklend x ∨ o.ins = .tkret x → o.args[1]? = some 0 → Runs (.tokenOpAtHome c id) s fun t => there t = some
        (if r.st = .lent then { r with st := .owned } else r)) ∧
      (∀ x, o.ins = .tkunhome x → o.args[1]? = none →
        (s.homedOpen w.ctx (o.limit.getD 0) r = true →
          exec (.tokenOpAtHome c id) s = .next (s.postQ c (s.now c + 1) (.tokenOpAtHome c id))) ∧
        (s.homedOpen w.ctx (o.limit.getD 0) r = false → Runs (.tokenOpAtHome c id) s fun t => there t = some r ∧
          ∃ q, t.op? c id = some q ∧ q.stage = .performed))) ∧
    (∀ x, o.ins = .tktake x → o.stage = .waiting →
      (s.homing w.ctx (Ptr.local a.ptr) = true →
        exec (.tktakeComplete c id) s = .next (s.postQ c (s.now c + 1) (.tktakeComplete c id))) ∧
      (s.homing w.ctx (Ptr.local a.ptr) = false → r.st ≠ .orphaned → s.holdsNow w caller r = false →
        exec (.tktakeComplete c id) s = .next (s.modOp c id fun o => { o with stage := .waiting })) ∧
      (s.homing w.ctx (Ptr.local a.ptr) = false → r.st ≠ .orphaned → s.holdsNow w caller r = true →
        Runs (.tktakeComplete c id) s fun t => t.mem = s.mem ∧
          ∃ q, t.op? c id = some q ∧ q.stage = .performed ∧ s.now c + 100 ≤ q.due))

/-- R234, R243 to R247, R250, R260: an operation of the tile file ends and sets its flag; the oldest task that can start takes its engine for its
blocks' cycles and ends 70 later; a task's completion puts its product, its brims and PEND into its bank and leaves the window; a
self-test that ends leaves its engine. -/
def Obligations.ArrayEvents : Prop :=
  (∀ (s : State) (c id : Nat) (o : Op) (G : Group), s.op? c id = some o → o.stage = .home → s.group? c o.slot = some G → G.ending = false →
    Runs (.tileOpComplete c id) s fun t => t.op? c id = none ∧ t.mem = s.mem ∧ ∃ H, t.group? c o.slot = some H ∧ Landed G H [] ∧
      ∀ f, o.setf = some f → (G.regs.flag f).owner = id → (H.regs.flag f).isSet = true) ∧
  (∀ (s : State) (c id ctx e : Nat) (t0 : Task) (x : Tenant), (s.core c).task? id = some (ctx, t0) → t0.ends = none →
    (s.core c).mx.stripPend = 0 → (s.core c).armless = false → (s.core c).tenant? ctx = some x →
    x.window.find? ((s.core c).canStart ctx (s.now c)) = some t0 → (s.core c).freeEngine ctx (s.now c) = some e →
    let rows := 8 * ((s.core c).strips e).length
    let ends := s.now c + (t0.m + rows - 1) / rows * TaskOp.cycles t0.op t0.kk (tcfg ((s.core c).tile t0.tbi).cfg).e + 70
    Runs (.taskStart c id) s fun t => Awaits t c (ends + 1) (.taskComplete c id) ∧ t.mem = s.mem ∧ ∃ y, (t.core c).tenant? ctx = some y ∧
      { t0 with engine := e, ends := some ends } ∈ y.window) ∧
  (∀ (s : State) (c id ctx : Nat) (t0 : Task), (s.core c).task? id = some (ctx, t0) → t0.ends.isSome = true → t0.cancelled = false →
    let k := s.core c
    (k.bank t0.bank).owner = some (ctx, t0.crew) → (k.bank t0.bank).ue = [] → (k.tile t0.tai).ue = [] → (k.tile t0.tbi).ue = [] →
    Runs (.taskComplete c id) s fun t => t.mem = s.mem ∧
      (t.core c).bank t0.bank = (k.bank t0.bank).after t0 (t0.product (k.tile t0.tai) (k.tile t0.tbi) (k.bank t0.bank)) ∧
      ∀ y ∈ (t.core c).mx.tenants, y.ctx = ctx → ∀ w ∈ y.window, w.id ≠ id) ∧
  (∀ (s : State) (c e : Nat) (rest : List Bool), ((s.core c).engine e).tests = false :: rest →
    Runs (.engineSelfTest c e) s fun t => ((t.core c).engine e).tests = rest ∧ t.mem = s.mem ∧ t.ctxs = s.ctxs)

/-- R277 to R280, R284, R286, R287: a COPY whose words have all arrived, with no completion word and no access before it to wait for, leaves its
slot, and its flag is set when its last byte is performed; one that pauses is reported in a record of KIND 4, an uncorrectable source is
consumed; a discarded packet, of a message or of a COPY's branches, waits 8 cycles, doubled at each drop up to the eighth, from which on it
travels where nothing is dropped; then it is sent again. -/
def Obligations.EngineEvents : Prop :=
  (∀ (s : State) (c e : Nat) (x : EngOp), s.eng? c e = some x →
    (x.paused = none → x.args.cw = false → s.undone c x.before = [] → x.from' ≤ s.now c → x.sent = x.words → x.open' = [] →
      (∀ f ∈ x.flights, f.forks = []) → (∀ b ∈ x.branches, x.words ≤ b.got) →
      Runs (.engineOpComplete c e) s fun t => t.eng? c e = none ∧ t.mem = s.mem ∧
        Awaits t c (s.now c) (.resultLanding c x.slot x.id)) ∧
    (x.paused = none → ∀ o ∈ s.undone c x.before, o.reached = false → ∀ a ∈ o.accs,
      (s.hits (s.engWho c e x) a x.src (4 * x.words) = true ∨ ∃ b ∈ x.branches, s.hits (s.engWho c e x) a b.dst (4 * x.words) = true) →
      exec (.engineOpComplete c e) s = .next (s.engAsk c e (s.now c + 1))) ∧
    (∀ k p, x.paused = some (k, p) →
      (k ≠ .ueData → exec (.engineFaultPause c e) s = .next (s.record x.ctx
        ({ cause := k, scalar := true, pc := x.pc, ptr := p } : Report).trapinfo[0] x.pc (s.coreNo x.ctx c) e (s.crewIdWord x.ctx x.crew) p 4)) ∧
      (k = .ueData → exec (.engineFaultPause c e) s = .next ((s.freeEng c e x).consume x.ctx x.crew .ueData)))) ∧
  (∀ (s : State) (c id : Nat) (p : Packet), s.packet? c id = some p →
    let ev := State.packetEvent c p
    (p.escape = false → p.sent = true → (∃ d ∈ s.sch.agenda, d.ev = ev) → ∀ unserved,
      let n := p.drops + 1
      Runs (.packetNack c id unserved) s fun t => t.packet? c id = some { p with drops := n, escape := decide (8 ≤ n) } ∧
        Awaits t c (s.now c + 2 ^ (2 + min n 8)) (.packetResend c id) ∧ (∀ d ∈ t.sch.agenda, d.ev ≠ ev) ∧ t.mem = s.mem) ∧
    Runs (.packetResend c id) s fun t => ∃ d, Awaits t c (s.now c + d) ev ∧ t.packet? c id = some p ∧ t.mem = s.mem) ∧
  (∀ (s : State) (c id e : Nat) (x : EngOp) (f : Flight) (unserved : List Nat), s.packet? c id = none → s.flight? c id = some (e, x, f) →
    let hit (k : Fork) : Bool := (!x.args.m || unserved.contains k.branch) && k.due.isSome && k.got = 0 && !k.escape
    let back (k : Fork) : Nat := s.now c + 2 ^ (2 + min (k.drops + 1) 8)
    f.forks.any hit = true → Runs (.packetNack c id unserved) s fun t => t.mem = s.mem ∧
      (∃ y g, t.eng? c e = some y ∧ g ∈ y.flights ∧ g.id = id ∧ g.data = f.data ∧ g.forks = f.forks.map fun k =>
        if hit k then { k with due := none, drops := k.drops + 1, back := back k, escape := k.escape || decide (8 ≤ k.drops + 1) } else k) ∧
      ∀ k ∈ f.forks, hit k = true → Awaits t c (back k) (.packetResend c id))

/-- R288 to R294: a message to a ring of its gang's member is appended with its header and TAIL counts it, once the earlier messages of its group
to that ring are over and the release of TAIL may be made; a full ring or a suspended member sends it back, and a ring that is not set up, or
whose member is gone, refuses it with status 0; a tagged message whose tag no launch is bound to is refused, and one that is appended to an
armed ring queues its leg. -/
def Obligations.MessageEvents : Prop :=
  ∀ (s : State) (c id : Nat) (p : Packet), s.packet? c id = some p → p.take = none → p.sent = true →
    (s.packetHeld c p = true → exec (.messageArrival c id) s = .next (s.postQ c (s.now c + 1) (.messageArrival c id))) ∧
    (s.packetHeld c p = false → ∀ (me m : Crew), s.crew? p.ctx p.crew = some me → s.member p.ctx me.gang p.rank = some m →
      s.crew? p.ctx m.id = some m →
      ((m.rings[p.ring]?).join = none → exec (.messageArrival c id) s = .next (s.packetEnd c p false)) ∧
      (∀ r, (m.rings[p.ring]?).join = some r →
        let e := r.cfg.toNat % 16
        let n := r.cfg.toNat / 256 % 16
        let head := m.scratch.readWord r.base
        let tail := m.scratch.readWord (r.base + 4)
        (m.att = .detached ∨ m.st = .held ∨ m.st = .leaving → exec (.messageArrival c id) s = .next (s.packetEnd c p false)) ∧
        let full : Prop := (∃ sv, m.st = .suspended sv) ∨ (tail - head).toNat = 2 ^ n
        (m.att ≠ .detached → m.st ≠ .held → m.st ≠ .leaving → full → exec (.messageArrival c id) s = .next (s.sendAgain c p)) ∧
        (m.att ≠ .detached → m.st ≠ .held → m.st ≠ .leaving → ¬full → s.packetReleased c p (decide (m.id = p.crew)) = false →
          exec (.messageArrival c id) s = .next (s.postQ c (s.now c + 1) (.messageArrival c id))) ∧
        (m.att ≠ .detached → m.st ≠ .held → m.st ≠ .leaving → ¬full → s.packetReleased c p (decide (m.id = p.crew)) = true →
          Runs (.messageArrival c id) s fun t => t.packet? c id = none ∧ t.mem = s.mem ∧ t.crew? p.ctx m.id =
            some ((m.writeScratch (r.base + 64 + tail.toNat % 2 ^ n * 2 ^ e) (entryBytes me.grank e p.payload)).writeScratch (r.base + 4)
              (leBytes 4 (tail + 1).toNat))))) ∧
    (∀ m tag, p.tag = some (m, tag) → s.packetHeld c p = true ∨ s.packetReleased c p false = false →
      exec (.taggedMessageArrival c id) s = .next (s.postQ c (s.now c + 1) (.taggedMessageArrival c id))) ∧
    (∀ m tag, p.tag = some (m, tag) → m.toNat = Config.thisModule → s.packetHeld c p = false → s.packetReleased c p false = true →
      ((s.ctx p.ctx).tags.find? (fun t => t.tag == tag) = none → exec (.taggedMessageArrival c id) s = .next (s.packetEnd c p false)) ∧
      (∀ (t : Tag) (head tail cfg : Word), (s.ctx p.ctx).tags.find? (fun t => t.tag == tag) = some t →
        let s1 := s.markWalks p.ctx t.ring 12
        s1.virtWord p.ctx (Ptr.local t.ring) = some head → s1.virtWord p.ctx (Ptr.local t.ring + 4) = some tail →
        s1.virtWord p.ctx (Ptr.local t.ring + 8) = some cfg →
        let e := cfg.toNat % 16
        let n := cfg.toNat / 256 % 16
        4 ≤ e → e ≤ 9 → 1 ≤ n → n ≤ 12 → exec (.taggedMessageArrival c id) s = .next ((s1.fireTag c p t e n head tail).getD (s1.sendAgain c p))))

/-- R296, R299, R303: a stream whose queue has room reads its next element and ends after its last; what an element's read gives stands in its
queue, extended by its size code, one that fails as a marker with its cause; a crew with nothing under way in the gang window detaches. -/
def Obligations.StreamEvents : Prop :=
  (∀ (s : State) (c n : Nat) (x : Stream) (G : Group), s.stream? c n = some x → x.running = true → s.group? c x.slot = some G →
    (∀ k, s.crew? G.ctx G.crew = some k → k.st ≠ .suspending) → (s.queue c (descQueue x.desc)).elems.length < 384 →
    s.undone c x.before = [] → (Ptr.space (descAddr x.desc x.next) ≠ 1 → s.bufferFull c = false) → (∀ o ∈ (s.core c).ops, State.takes (descQueue x.desc) (s.queue c (descQueue x.desc)).claim o = false) →
    let last := decide (descCount x.desc ≤ x.next + 1)
    Runs (.streamElementRead c n) s fun t => t.stream? c n = some { x with next := x.next + 1, running := !last, finished := last } ∧
      t.mem = s.mem ∧ ∃ e : QElem, (t.queue c (descQueue x.desc)).elems = (s.queue c (descQueue x.desc)).elems ++ [e] ∧ e.stream = n ∧
        e.ptr = descAddr x.desc x.next ∧ e.val = none ∧ e.cause = none) ∧
  (∀ (s : State) (c n id : Nat) (e : QElem) (x : Stream) (G : Group), s.elem? c n id = some (e, none) → s.stream? c n = some x →
    s.group? c x.slot = some G →
    let z := eszBytes e.esz
    let w : Who := { G.who c with num := some id }
    (∀ k s1, s.lookNow w e.ptr z z false = (.bad k, s1) →
      exec (.streamElementArrival c n id) s = .next (s1.putElem c { e with cause := some k } none)) ∧
    (∀ k o s1 v sm s2, s.lookNow w e.ptr z z false = (.scratch k o, s1) →
      s1.readAt w (.scratch k o) z = ((v, false, sm), s2) →
      exec (.streamElementArrival c n id) s = .next (s2.putElem c { e with val := some (eszExtend e.esz v), k := sm.getLsbD 0 } none))) ∧
  (∀ (s : State) (c id : Nat) (o : Op) (k : Crew) (a b : Nat), s.op? c id = some o →
    let w := s.opWho c o
    s.crew? w.ctx w.crew = some k → k.att = .attached a b → s.windowBusy c w.ctx w.crew = false →
    Runs (.gdetachComplete c id) s fun t => t.op? c id = none ∧ ∃ k', t.crew? w.ctx w.crew = some k' ∧ k'.att = .detached)

/-- R188 to R191, R304, R319 to R332, R350, chapter 15: a held crew that no peer holds back leaves, detached and drained; its regions are flushed,
its OWNED ones LENT to those they go to meanwhile, and then it has left; the first leg without pending edges is admitted, after the flush
of the regions its SHARE and HOMED grants name, or refused with STATUS 2; a gang's crews, and rolled-back ones, are placed all at once or not
at all; a crew with a place starts, once the pieces it is granted are flushed and lent to it; a leg whose crews have ended completes; a
pre-emption that a resident crew outlasts resets its context; pending fences and EXACT take effect at a quiesce point; a crew that has come to
rest is saved in the lowest free slot, its regions flushed. What a flush waits for (`crewFlush`, `grantWaits`) is in part assumption 123's,
and a leaving crew counts as committed (assumption 131): both the model's choice. -/
def Obligations.CrewAndLegEvents : Prop :=
  (∀ (s : State) (ctx crew : Nat) (k : Crew), s.crew? ctx crew = some k →
    (k.st = .held → s.heldByPeers ctx k = false → Runs (.crewExitRelease ctx crew) s fun t => ∃ k', t.crew? ctx crew = some k' ∧
      k'.st = .leaving ∧ k'.committed = true ∧ k'.sbuf = [] ∧ k'.flush = none ∧ k'.att.now? = false ∧
      Awaits t k.core (s.now k.core) (.crewExitRelease ctx crew)) ∧
    (k.st = .leaving →
      (k.flush = none → s.crewFlush ctx k = none →
        exec (.crewExitRelease ctx crew) s = .next (s.postQ k.core (s.now k.core + 1) (.crewExitRelease ctx crew))) ∧
      (∀ n u, k.flush = none → s.crewFlush ctx k = some (n, u) → Runs (.crewExitRelease ctx crew) s fun t =>
        Awaits t k.core (s.now k.core + n) (.crewExitRelease ctx crew) ∧
        (∃ k' f, t.crew? ctx crew = some k' ∧ k'.st = .leaving ∧ k'.flush = some f ∧ f.core = k.core ∧ f.ends = s.now k.core + n) ∧
        let own (q : Region) : Prop := q ∈ (s.ctx ctx).regions ∧ ofCrew ctx crew q.owner = true ∧ q.st = .owned
        ∀ r ∈ (t.ctx ctx).regions, (∃ q, own q ∧ q.base = r.base) → r.st = .lent ∧ r.lender = noHolder ∧
          ∃ q, own q ∧ q.base = r.base ∧ r.owner = heir ctx crew (((s.leg? ctx k.leg).map (·.launcher)).getD noHolder) q) ∧
      (∀ f, k.flush = some f → f.ends ≤ s.now f.core → Runs (.crewExitRelease ctx crew) s fun t => t.crew? ctx crew = none)) ∧
    (∀ l, s.leg? ctx k.leg = some l → k.st = .waiting → (∃ r ∈ (s.ctx ctx).reservations, crew ∈ r.2) → s.mayStart ctx = true →
      let starts : Prop := Runs (.crewStart ctx crew) s fun t => ∃ k', t.crew? ctx crew = some k' ∧ k'.st = .resident ∧ k'.core = k.core ∧
        k'.scratch = [] ∧ k'.spill = []
      let ps := s.piecesFor ctx crew l k.rank
      let c := (s.holderCore l.launcher).getD k.core
      let u := s.grantCommit ctx l.launcher
      (k.flush = none → ps = [] → starts) ∧
      (k.flush = none → ps ≠ [] → s.grantWaits c ctx l.launcher (ps.map (·.2)) = true →
        exec (.crewStart ctx crew) s = .next (u.postQ k.core (s.now k.core + 1) (.crewStart ctx crew))) ∧
      (k.flush = none → ps ≠ [] → s.grantWaits c ctx l.launcher (ps.map (·.2)) = false → c < 768 → Runs (.crewStart ctx crew) s fun t =>
        ∃ k' f, t.crew? ctx crew = some k' ∧ k'.st = .waiting ∧ k'.flush = some f ∧ f.core = c ∧ f.bases = ps.map (·.2.base) ∧
          Awaits t c f.ends (.crewStart ctx crew) ∧ ∀ p ∈ ps, ∀ r ∈ (t.ctx ctx).regions, r.base = p.2.base →
            r.st = .lent ∧ r.owner = holderId 1 ctx crew ∧ r.lender = l.launcher) ∧
      (∀ f, k.flush = some f → f.ends ≤ s.now f.core → starts)) ∧
    (∀ l, s.leg? ctx k.leg = some l → k.st = .relaunch → s.mayStart ctx = true →
      let ms := (s.ctx ctx).crews.filter fun q => q.gang == k.gang && q.st == .relaunch
      ∀ u, s.placeAll ctx l ms (fun s q => s.relaunchCores ctx l q) = some u → exec (.crewRelaunch ctx crew) s = .next (u.startAll ctx ms)) ∧
    (k.st = .suspending → s.saveReady ctx k = true → ∀ i l, s.freeSave ctx = some i → s.leg? ctx k.leg = some l →
      let saved : Prop := Runs (.crewSave ctx crew) s fun t => (t.ctx ctx).regs.ctlarg = BitVec.ofNat 32 i ∧ (t.ctx ctx).regs.cbusy = false ∧
        (t.ctx ctx).regs.cfail = false ∧ ∃ k', t.crew? ctx crew = some k' ∧ k'.st = .suspended i
      (k.flush = none → s.crewFlush ctx k = none → exec (.crewSave ctx crew) s = .next (s.postQ k.core (s.now k.core + 1) (.crewSave ctx crew))) ∧
      (∀ u, k.flush = none → s.crewFlush ctx k = some (0, u) → saved) ∧
      (∀ n u, k.flush = none → s.crewFlush ctx k = some (n + 1, u) → Runs (.crewSave ctx crew) s fun t =>
        Awaits t k.core (s.now k.core + n + 1) (.crewSave ctx crew) ∧
        ∃ k' f, t.crew? ctx crew = some k' ∧ k'.st = .suspending ∧ k'.flush = some f ∧ f.core = k.core ∧ f.ends = s.now k.core + n + 1) ∧
      (∀ f, k.flush = some f → f.ends ≤ s.now f.core → saved)) ∧
    (k.st = .suspending → s.saveReady ctx k = false →
      exec (.crewSave ctx crew) s = .next (s.postQ k.core (s.now k.core + 1) (.crewSave ctx crew)))) ∧
  (∀ (s : State) (ctx i : Nat) (l : Leg), (s.ctx ctx).queue[i]? = some l → l.pending = 0 →
    (∀ j, j < i → ∀ m, (s.ctx ctx).queue[j]? = some m → m.pending ≠ 0) → s.mayStart ctx = true →
    (∀ f, l.flush = some f → f.ends ≤ s.now f.core) →
    let s1 := (s.modCtx ctx fun x => { x with queue := x.queue.eraseIdx i }).markWalks ctx l.lr.addr 512
    let t := match l.lr.deal with
      | some p => s1.markDeal ctx l.launcher p
      | none => s1
    let l' : Leg := { l with flush := none }
    (∀ u, t.admitLeg ctx l' = some u →
      let admitted : Prop := exec (.legAdmission ctx) s = .next (u.wakeRegions.postNow (.legAdmission ctx))
      (l.flush.isSome = true ∨ s.holderCore l.launcher = none → admitted) ∧
      (∀ c r, l.flush = none → s.holderCore l.launcher = some c → s.launchRecord ctx l.launcher l.lr.addr = some r →
        let homing : Bool := r.grants.any fun g => s.homingIn ctx (Ptr.local g.ptr) g.k
        (homing = true → exec (.legAdmission ctx) s = .next (s.postQ c (s.now c + 1) (.legAdmission ctx))) ∧
        (homing = false →
        let rs := s.grantRegions ctx r
        let v := s.grantCommit ctx l.launcher
        let held := s.grantWaits c ctx l.launcher (rs.map (·.1))
        (rs = [] → admitted) ∧
        (rs ≠ [] → held = true → exec (.legAdmission ctx) s = .next (v.postQ c (s.now c + 1) (.legAdmission ctx))) ∧
        (rs ≠ [] → held = false → ∀ n z, v.flushAll c ctx rs = (n, z) → exec (.legAdmission ctx) s = .next
          ((z.modQueued ctx i fun l => { l with flush := some ⟨c, z.now c + n, rs.map (·.1.base)⟩ }).postQ c (z.now c + n)
            (.legAdmission ctx)))))) ∧
    (t.admitLeg ctx l' = none → exec (.legAdmission ctx) s = .next (((t.finishLeg ctx l' 2).wakeRegions).postNow (.legAdmission ctx)))) ∧
  (∀ (s : State) (ctx gang : Nat) (k : Crew) (ms : List Crew) (l : Leg),
    (s.ctx ctx).crews.filter (fun q => q.gang == gang && q.st == .waiting) = k :: ms → s.leg? ctx k.leg = some l → s.mayStart ctx = true →
    (∀ r ∈ (s.ctx ctx).reservations, r.1 ≠ gang) →
    (∀ q ∈ (s.ctx ctx).crews, q.st ≠ .relaunch ∧ (q.leg = k.leg → q.st = .waiting → q.gang ≠ gang → q.dealt = none)) →
    ∀ u, s.placeAll ctx l (k :: ms) (fun s q => s.startCores ctx l q) = some u →
      exec (.gangReservation ctx gang) s = .next (u.startAll ctx (k :: ms))) ∧
  (∀ (s : State) (ctx leg : Nat) (l : Leg), s.leg? ctx leg = some l → l.alive = 0 →
    (s.returnWaits ctx l = false → Runs (.legComplete ctx leg) s fun t => t.leg? ctx leg = none) ∧
    (s.returnWaits ctx l = true → ∃ c, exec (.legComplete ctx leg) s = .next (s.postQ c (s.now c + 1) (.legComplete ctx leg)))) ∧
  (∀ (s : State) (ctx q n : Nat), (q, n) ∈ (s.ctx ctx).deadlines → n ≤ s.clock (.quad q) →
    (∃ k ∈ (s.ctx ctx).crews, Crew.onCore k = true) →
    Runs (.preemptDeadlineExpiry ctx q) s fun t => (t.ctx ctx).crews = [] ∧ (t.ctx ctx).legs = [] ∧ (t.ctx ctx).queue = [] ∧
      (t.ctx ctx).regs.state = 0 ∧ (t.ctx ctx).regs.preempt = false) ∧
  (∀ (s : State) (c : Nat), c < 768 → s.quiescing c = true → s.quiet c = true →
    Runs (.quiescePoint c) s fun t => (t.core c).lanePend = 0 ∧ (t.core c).lmap = (s.core c).lmap &&& ~~~(s.core c).lanePend ∧
      t.mem = s.mem ∧ ∀ i : Fin 16, (t.core c).exact[i] = s.exactOf i.val)

/-- R346 to R349, R359 to R370, R380, R386: a unit's events are counted and told to the host, the third in a window is a lasting fault
(a lane is to be fenced at the next quiesce point, a strip before its engine's next task, a core is lost, a slice fenced, a link's port or lane
group not used), and a window's end clears the counts of its die; a lost core holds no group; GRANTs; a raise and a lowering of a step, and the fall of the
voltage; temperatures, refresh rates and the thermal cap; quadrants join in order, in reduced service until they are calibrated, with the
last of which FORCED clears; only a boot chain in the flash that is verified whole boots, and then the quadrants begin to join. That a power-up
may find other stages in the flash than the last one did, the operand of POWER_UP, is assumption 134, the model's choice. -/
def Obligations.ReliabilityAndPowerEvents : Prop :=
  (∀ (s : State) (u : UnitId) (corrected : Bool),
    let n := min 3 (((s.rel.counts.find? fun x => x.1 == u).map fun x => x.2).getD 0 + 1)
    (u ∈ s.rel.lasting ∨ n < 3 → Runs (.errorEvent u corrected none) s fun t => t.rel.lasting = s.rel.lasting ∧ t.mem = s.mem ∧
      t.rel.counts = (u, n) :: (s.rel.counts.filter fun x => x.1 != u) ∧
      ∃ e, t.rel.events.getLast? = some e ∧ (e.unit, e.die, e.number) = UnitId.code u ∧ e.count = BitVec.ofNat 8 n) ∧
    (u ∉ s.rel.lasting → n = 3 →
      let lasts (P : State → Prop) : Prop := Runs (.errorEvent u corrected none) s fun t => u ∈ t.rel.lasting ∧ P t
      let due (t : State) (e : Instr) : Prop := (⟨.ext, s.sch.extClk, e⟩ : Due) ∈ t.sch.agenda
      (∀ c l, u = .lane c l → c < 768 → lasts fun t =>
        (t.core c).lanePend = (s.core c).lanePend ||| 1#32 <<< l.val ∧ due t (.quiescePoint c)) ∧
      (∀ c i, u = .strip c i → c < 768 → lasts fun t => ((t.core c).mx.stripPend ||| (t.core c).mx.fenced).getLsbD i.val = true ∧
        (((s.core c).engine (i.val / 4)).freeAt ≤ s.now c → (t.core c).mx.fenced.getLsbD i.val = true)) ∧
      (∀ c, u = .core c → lasts fun t => due t (.coreLoss c)) ∧
      (∀ d i, u = .slice d i → lasts fun t => t.slices = s.slices ||| 1#256 <<< (64 * d.val + i.val)) ∧
      (∀ m, u = .port m → lasts fun t => t.cores = s.cores ∧ t.mem = s.mem) ∧
      (∀ d g, u = .bnd d g → lasts fun t => t.cores = s.cores ∧ t.mem = s.mem))) ∧
  (∀ (s : State) (die : Fin 4), Runs (.errorWindowExpiry die.val) s fun t => t.mem = s.mem ∧ t.cores = s.cores ∧
    t.rel.counts = s.rel.counts.filter (fun x => UnitId.die x.1 != die.val) ∧ t.rel.lasting = s.rel.lasting) ∧
  (∀ (s : State) (c : Nat), c < 768 → (s.core c).enabled = true →
    Runs (.coreLoss c) s fun t => (t.core c).enabled = false ∧ ∀ g, t.group? c g = none) ∧
  (∀ (s : State) (q : Fin 16) (gs : List (BitVec 8)), gs.length = 48 →
    Runs (.grantUpdate q.val gs) s fun t => t.mem = s.mem ∧ ∀ i : Fin 48, some (t.core (48 * q.val + i.val)).grant = gs[i.val]?) ∧
  (∀ (s : State) (q : Fin 16), (s.quad q.val).joined = true →
    let x := s.quad q.val
    let T := s.target q.val
    (∀ n, x.raising = some n → let step := if T < n then T else n
      Runs (.stepRaise q.val) s fun t => (t.quad q.val).cur = (if x.cur < step then step else x.cur) ∧
        (t.quad q.val).volt = (if x.volt < n then n else x.volt)) ∧
    (T < x.cur → Runs (.stepLower q.val) s fun t => (t.quad q.val).cur = T ∧ (t.quad q.val).volt = x.volt ∧
      (t.quad q.val).falling = x.falling ++ [T] ∧
      (⟨.reg q.val, s.regNow q.val + 4096, .voltageFall q.val⟩ : Due) ∈ t.sch.agenda) ∧
    (∀ v rest, x.falling = v :: rest →
      let up (a b : BitVec 5) : BitVec 5 := if a < b then b else a
      let held : BitVec 5 := match x.raising with
        | some r => if r ≤ x.volt then r else x.volt
        | none => 0
      Runs (.voltageFall q.val) s fun t => t.mem = s.mem ∧ t.quad q.val = { x with volt := up (up x.cur v) held, falling := rest }) ∧
    (∀ js : List (BitVec 8), let hot := js.foldl (fun m j => if m ≤ j then j else m) 0
      Runs (.thermalCapStep q.val js) s fun t => (t.quad q.val).temp = hot ∧ (t.quad q.val).thermCap =
        (if x.hotlim < hot then (if 4 < x.thermCap then x.thermCap - 1 else x.thermCap)
        else if hot.toNat + 5 < x.hotlim.toNat ∧ x.thermCap < x.hostCap then x.thermCap + 1 else x.thermCap)) ∧
    (x.calibrated = false → Runs (.quadrantCalibrated q.val) s fun t => (t.quad q.val).calibrated = true ∧
      ((∀ i : Fin 16, i ≠ q → (s.quad i.val).calibrated = true) → ∀ i : Fin 16, (t.ctx i.val).forced = false))) ∧
  (∀ (s : State) (q : Fin 16) (js : List (BitVec 8)), s.mgmt.booted = true → (s.quad q.val).joined = false →
    (∀ i, i < q.val → (s.quad i).joined = true) →
    Runs (.quadrantJoin q.val js) s fun t => (t.quad q.val).joined = true ∧ (t.quad q.val).calibrated = false ∧ (t.quad q.val).cur = 8) ∧
  (∀ (s : State) (d : Fin 32) (x : BitVec 8), Runs (.gddrTempReport d.val x) s fun t => t.mgmt.gddrTemp[d] = x ∧ t.mem = s.mem ∧
    t.mgmt.gddrDouble.getLsbD d.val = (if 85 < x then true else if x < 80 then false else s.mgmt.gddrDouble.getLsbD d.val)) ∧
  (∀ (s : State) (is : List Image), s.mgmt.booted = false →
    let good (i : Image) : Prop := Config.xmssAccepts i.bytes i.sig i.leaf = true ∧ s.mgmt.counter < i.leaf
    let flash := if is = [] then s.mgmt.flash else is
    Runs (.powerUp is) s fun t => t.mem = s.mem ∧ t.mgmt.counter = s.mgmt.counter ∧ t.mgmt.flash = flash ∧
      (t.mgmt.booted = true ↔ flash ≠ [] ∧ ∀ i ∈ flash, good i) ∧
      ((∀ i ∈ flash, good i) → t.mgmt.log = flash.map fun i => Config.shake256 i.bytes) ∧
      (t.mgmt.booted = true → ∃ js, (⟨.ext, s.sch.extClk, .quadrantJoin 0 js⟩ : Due) ∈ t.sch.agenda))

/-- R114, R322, R327, R328, R332, R343, R344, R371 to R375: the host's steps on a context slot: a waiting fault record goes into the ring
and FRTAIL counts it; a context is reset, or pre-empted with a deadline in every quadrant; a leg is queued; a TBINV starts and, complete,
leaves no translation of its block; an entry of the place table is stored or not; a token command takes effect or sets TFAIL; a step is
given to one split; a control command resumes what waits for it, suspends a crew or restores one; a write of the window stores its field, whichever of
Table 1 it is, and starts what the field starts; a write that is not aligned, or of no field that is written, is ignored. -/
def Obligations.HostCommandEvents : Prop :=
  (∀ (s : State) (x : Fin 16),
    let C := s.ctx x.val
    let r := C.regs
    (∀ (f : FRec) (rest : List FRec), C.records = f :: rest → State.frOpen r = true → s.mem.wf = true →
      Runs (.faultRecordWrite x.val) s fun t => (t.ctx x.val).records = rest ∧ (t.ctx x.val).regs = { r with frtail := r.frtail + 1 } ∧
        t.mem.readBytes (State.frBase r + 32 * (r.frtail.toNat % State.frCap r)) 32 = f.w.toList.flatMap fun w => leBytes 4 w.toNat) ∧
    (∀ v, Runs (.faultRecordEnable x.val v) s fun t => t.mem = s.mem ∧ (t.ctx x.val).regs = { r with frbase := v &&& 0xFFFFF001 }) ∧
    Runs (.contextReset x.val) s (fun t => (t.ctx x.val).crews = [] ∧ (t.ctx x.val).legs = [] ∧ (t.ctx x.val).queue = [] ∧
      (t.ctx x.val).regs.state = 0 ∧ (t.ctx x.val).place = C.place) ∧
    (r.preempt = false → (∃ k ∈ C.crews, Crew.onCore k = true) → Runs (.preemptRequest x.val) s fun t => t.mem = s.mem ∧
      (t.ctx x.val).regs = { r with preempt := true, state := 2 } ∧ ∀ q : Fin 16,
        (⟨.quad q.val, s.clock (.quad q.val) + r.deadline.toNat, .preemptDeadlineExpiry x.val q.val⟩ : Due) ∈ t.sch.agenda) ∧
    (∀ (hart : Fin 16) (v : Word) (lr : LRec) (u : State), let s1 := s.markWalks x.val (ptrOf r.qptr0 r.qptr1 v) 512
      s1.launchRecord x.val (holderId 7 x.val hart.val) (ptrOf r.qptr0 r.qptr1 v) = some lr →
      s1.pushLeg x.val (Leg.queued lr (holderId 7 x.val hart.val) 0 none none) = some u → exec (.queueLeg x.val hart.val v) s = .next u) ∧
    (∀ v : Word, let k := v.toNat % 64
      let p := ptrOf r.iptr[0] r.iptr[1] r.iptr[2]
      12 ≤ k → k ≤ 62 → Ptr.module p = Config.thisModule → Runs (.hostTbinv x.val v) s fun t => (t.ctx x.val).regs.ibusy = true ∧
        ∃ i : Inv, t.invs = s.invs ++ [i] ∧ i.ctx = x.val ∧ i.base = Ptr.local p / 2 ^ k * 2 ^ k ∧ i.log2 = k ∧ i.asker = none) ∧
    (∀ v, (∀ u, s.placeWrite x.val r.plidx.toNat v = some u →
        exec (.placeValueWrite x.val v) s = .next (u.modRegs x.val fun r => { r with plval := v, plstat := true })) ∧
      (s.placeWrite x.val r.plidx.toNat v = none →
        exec (.placeValueWrite x.val v) s = .next (s.modRegs x.val fun r => { r with plval := v, plstat := false }))) ∧
    (∀ (hart : Fin 16) (v : Word) (i : Instr) (op : State.TokCmd),
      (i, op) ∈ [(Instr.tokenOwn x.val hart.val v, State.TokCmd.own), (.tokenRelease x.val hart.val v, .release),
        (.tokenHome x.val hart.val v, .home), (.tokenUnhome x.val hart.val v, .unhome)] →
      let k := v.toNat / 256 % 64
      let p := ptrOf r.tptr[0] r.tptr[1] r.tptr[2]
      Ptr.space p = 0 → Ptr.rank p = 0 → 12 ≤ k → k ≤ 32 → Ptr.module p = Config.thisModule →
      Runs i s fun t => match State.tokCmd C op (Ptr.local p / 2 ^ k * 2 ^ k) k (holderId 7 x.val hart.val) with
        | some y => (t.ctx x.val).regions = y.regions ∧ (t.ctx x.val).regs.tfail = false
        | none => (t.ctx x.val).regions = C.regions ∧ (t.ctx x.val).regs.tfail = true) ∧
    (∀ (v : Word) (c : Nat) (G : Group) (i : Fin 4) (seed : BitVec 16), C.physical (v.toNat / 65536) = some c →
      let g := v.toNat / 256 % 32
      s.group? c g = some G → G.ctx = x.val → s.stepOn c = none → (s.core c).enabled = true → (s.core c).stalled = none →
      State.stepSplit G (v.extractLsb' 0 3) (s.now c) = some (i, seed) →
      Runs (.debugStep x.val v) s fun t => t.stepOn c = some (⟨c, g, i⟩, none)) ∧
    (r.cbusy = false → ∀ c g, s.cmdTarget x.val = some (c, g) →
      let done (t : State) : Prop := (t.ctx x.val).regs.cbusy = false ∧ (t.ctx x.val).regs.cfail = false ∧ t.mem = s.mem
      (∀ G, s.group? c g = some G → G.ctx = x.val → G.stopped = true → s.recordWaits x.val c 0 (some g) = false →
        Runs (.resumeGroup x.val) s fun t => done t ∧ t.group? c g = some { G with stopped := false, resuming := true }) ∧
      (let mine (h : Nat) : Bool := (s.group? c h).any fun G => G.ctx == x.val
       let others := (s.core c).stallers.filter fun h => !mine h
       (s.core c).stalled.isSome = true → (s.core c).stallers.any mine = true → s.recordWaits x.val c 1 none = false →
        Runs (.resumeCore x.val) s fun t => done t ∧ (t.core c).stallers = others ∧
          (t.core c).stalled = if others = [] then none else (s.core c).stalled) ∧
      (∀ e : EngOp, s.eng? c g = some e → e.ctx = x.val → e.paused.isSome = true →
        Runs (.resumeEngine x.val) s fun t => done t ∧ t.eng? c g = some { e with paused := none } ∧
          Awaits t c (s.now c) (.engineOpComplete c g))) ∧
    (r.cbusy = false → ∀ k, s.crew? x.val (r.ctlarg.toNat % 2 ^ 20) = some k → k.st = .resident → (s.core k.core).stalled = none →
      (s.freeSave x.val).isSome = true → Runs (.suspendCrew x.val) s fun t => t.mem = s.mem ∧ (t.ctx x.val).regs.cbusy = true ∧
        ∃ k', t.crew? x.val k.id = some k' ∧ k'.st = .suspending ∧ k'.committed = true) ∧
    (r.cbusy = false → (∀ u, s.restoreCrew x.val r.ctlarg.toNat = some u →
        exec (.restoreCrew x.val) s = .next (u.modRegs x.val fun r => { r with cbusy := false, cfail := false })) ∧
      (s.restoreCrew x.val r.ctlarg.toNat = none →
        exec (.restoreCrew x.val) s = .next (s.modRegs x.val fun r => { r with cbusy := false, cfail := true }))) ∧
    (let at' (off : Nat) : Nat := 0x10000 + 0x1000 * x.val + off
     ∀ v : Word,
      (∀ p ∈ ([(0x008, fun r => { r with ptroot := v &&& 0xFFFFC000 }), (0x00C, fun r => { r with ptrooth := v &&& 0x1FFFF }),
          (0x010, fun r => { r with tokbase := v &&& 0xFFFFF000 }), (0x014, fun r => { r with tokbaseh := v &&& 0x1FFFF }),
          (0x018, fun r => { r with toksz := v &&& 0x1F }), (0x020, fun r => { r with savebase := v &&& 0xFFFFF000 }),
          (0x024, fun r => { r with savebaseh := v &&& 0x1FFFF }), (0x040, fun r => { r with msiaddr := v }),
          (0x044, fun r => { r with msiaddrh := v }), (0x048, fun r => { r with msidata := v &&& 0x7FF }),
          (0x050, fun r => { r with deadline := v }), (0x058, fun r => { r with qptr0 := v }), (0x05C, fun r => { r with qptr1 := v }),
          (0x068, fun r => { r with iptr := r.iptr.set 0 v }), (0x06C, fun r => { r with iptr := r.iptr.set 1 v }),
          (0x070, fun r => { r with iptr := r.iptr.set 2 v }), (0x078, fun r => { r with plidx := v }),
          (0x084, fun r => { r with tptr := r.tptr.set 0 v }), (0x088, fun r => { r with tptr := r.tptr.set 1 v }),
          (0x08C, fun r => { r with tptr := r.tptr.set 2 v }), (0x090, fun r => { r with tk := v.extractLsb' 8 6 }),
          (0x098, fun r => { r with ctlcore := v.extractLsb' 16 16, ctlslot := v.extractLsb' 0 6 }),
          (0x09C, fun r => { r with ctlarg := v &&& 0xFFFFF }), (0x0A4, fun r => { r with savelog2n := v &&& 0xF })] :
          List (Nat × (CtxRegs → CtxRegs))), exec (.registerWrite (at' p.1) v) s = .next (s.modRegs x.val p.2)) ∧
      (∀ p ∈ ([(0x02C, fun r => { r with frbaseh := v &&& 0x1FFFF }), (0x030, fun r => { r with frlog2n := v &&& 0xF }),
          (0x038, fun r => { r with frhead := v })] : List (Nat × (CtxRegs → CtxRegs))), Runs (.registerWrite (at' p.1) v) s fun t =>
        (t.ctx x.val).regs = p.2 r ∧ t.mem = s.mem ∧
          (C.records ≠ [] → (⟨.ext, s.sch.extClk, .faultRecordWrite x.val⟩ : Due) ∈ t.sch.agenda)) ∧
      (v.getLsbD 2 = false → v.getLsbD 1 = false → Runs (.registerWrite (at' 0x000) v) s fun t =>
        (t.ctx x.val).regs = { r with system := v.getLsbD 3, en := if r.state = 0 then v.getLsbD 0 else r.en } ∧ t.mem = s.mem ∧
          (⟨.ext, s.sch.extClk, .legAdmission x.val⟩ : Due) ∈ t.sch.agenda) ∧
      (v.getLsbD 2 = true → v.getLsbD 1 = false → Runs (.registerWrite (at' 0x000) v) s fun t => (t.ctx x.val).crews = [] ∧
        (t.ctx x.val).legs = [] ∧ (t.ctx x.val).queue = [] ∧ (t.ctx x.val).regs.state = 0 ∧ (t.ctx x.val).regs.system = v.getLsbD 3) ∧
      (∀ p ∈ ([(0x028, .faultRecordEnable x.val v), (0x074, .hostTbinv x.val v), (0x07C, .placeValueWrite x.val v), (0x094, .debugStep x.val v)] :
          List (Nat × Instr)), exec (.registerWrite (at' p.1) v) s = exec p.2 s) ∧
      (∀ p ∈ ([(1, .resumeGroup x.val), (2, .resumeCore x.val), (3, .resumeEngine x.val), (4, .suspendCrew x.val), (5, .restoreCrew x.val)] :
          List (Nat × Instr)), v.toNat % 16 = p.1 → exec (.registerWrite (at' 0x0A0) v) s = exec p.2 s) ∧
      (∀ off ∈ [0x004, 0x01C, 0x034, 0x03C, 0x04C, 0x054, 0x064, 0x080], exec (.registerWrite (at' off) v) s = .next s) ∧
      (∀ off, 0x0A8 ≤ off → off < 0x1000 → exec (.registerWrite (at' off) v) s = .next s))) ∧
  (∀ (s : State) (off : Nat) (v : Word), off % 4 ≠ 0 → exec (.registerWrite off v) s = .next s) ∧
  (∀ (s : State) (i : Fin 256) (v : Word),
    exec (.registerWrite (4 * i.val) v) s = .next { s with inbound := s.inbound.set i.val (v &&& 0x801FFFFF) }) ∧
  (∀ (s : State) (id : Nat) (v : Inv), s.invs.find? (fun i => i.id == id) = some v →
    Runs (.tlbInvalidateComplete id) s fun t => t.mem = s.mem ∧ (∀ i ∈ t.invs, i.id ≠ id) ∧
      (∀ c e, e ∈ (t.core c).caches.tlb → v.covers e.ctx e.va e.log2 = false) ∧
      ∀ q e, e ∈ (t.quad q).tlb → v.covers e.ctx e.va e.log2 = false)

/-- R371, R374, R376 to R379, R381 to R384: a hart stores and reads memory at home; an inbound read completes with the bytes its
translation leads to once its requester's earlier writes are visible, an inbound write becomes visible later, in the order of its
requester unless it is relaxed; one that no entry admits is refused with an AER record; a transaction between the ports goes on to the
host; a link comes up, in flit mode; ARP, echo and leases; each request of the management port is answered, with STATUS 0 and its effect,
or with STATUS 3 or 1 and none, RESET's reply before the reset; a quote is kept and its nonce gets it again, and one that would exhaust
the key is refused; a datagram that is not accepted is dropped. Flit mode and peer transactions are assumption 133, SET ADDRESS's byte
order 104, the counter and the flash after an update and a reset 134, and the order of a quote's parts 135: the model's choices. -/
def Obligations.PortEvents : Prop :=
  (∀ (s : State) (hart pa : Nat), inMap pa = true →
    (∀ bs : List Byte, bs ≠ [] → inMap (pa + bs.length - 1) = true → s.mem.wf = true →
      Runs (.hostMemoryAccess hart pa (some bs) 0) s fun t => t.mem.readBytes pa bs.length = bs ∧
        ∀ a, (a < pa ∨ pa + bs.length ≤ a) → t.mem.read a = s.mem.read a) ∧
    (∀ n, 0 < n → inMap (pa + n - 1) = true → (∀ i, i < n → s.ueAt (pa + i) = false) →
      exec (.hostMemoryAccess hart pa none n) s = .next (s.emit (.hostRead hart (s.mem.readBytes pa n))))) ∧
  (∀ (s : State) (x : Tlp), x.peer = true → exec (.inboundRequest x) s = .next (s.emit (.peer x))) ∧
  (∀ (s : State) (x : Tlp), x.peer = false → x.admitted = none → s.inboundSlot x = none → exec (.inboundRequest x) s =
    .next (if x.wr.isSome then s.emit (.aer x.port) else (s.emit (.completion x.port none)).emit (.aer x.port))) ∧
  (∀ (s : State) (x : Tlp) (ctx : Nat), x.peer = false →
    (x.admitted = none ∧ s.inboundSlot x = some ctx ∨ ∃ n, x.admitted = some (ctx, n)) →
    let earlier (p : Posted) : Prop := p.req = Tlp.requester x
    (let s1 := s.inboundWalks ctx x.addr x.len
     let bytes := (List.range x.len).map fun i => s1.inboundByte ctx (x.addr + i) false
     let k := s1.ingress (s.inboundDie ctx x.addr)
     (∀ as : List Nat, x.wr = none → (∀ p ∈ s.posted, earlier p → ∃ a, x.admitted = some a ∧ a.2 ≤ p.id) →
       bytes = as.map (fun a => (some a, false)) → (∀ a ∈ as, s1.ueAt a = false) →
       exec (.inboundRequest x) s = .next (s1.emit (.completion x.port (some (as.map s1.mem.read))))) ∧
     (∀ n, x.wr = none → x.admitted = some (ctx, n) → (∃ p ∈ s.posted, earlier p ∧ p.id < n) ∨ (∃ b ∈ bytes, b.2 = true) →
       exec (.inboundRequest x) s = .next (s1.post k (s1.clock k + 1) (.inboundRequest x)))) ∧
    (∀ bs, x.wr = some bs → let s1 := s.inboundWalks ctx x.addr bs.length
      (∀ i, i < bs.length → (s1.inboundByte ctx (x.addr + i) true).1.isSome = true ∨ (s1.inboundByte ctx (x.addr + i) true).2 = true) →
      Runs (.inboundRequest x) s fun t => t.mem = s1.mem ∧ ∃ id,
        t.posted = s1.posted ++ [⟨id, x.port, Tlp.requester x, ctx, x.addr, x.relaxed, bs⟩])) ∧
  (∀ (s : State) (id : Nat) (p : Posted), s.posted.find? (fun q => q.id == id) = some p →
    let before := s.posted.takeWhile fun q => q.id != id
    let s1 := s.inboundWalks p.ctx p.addr p.data.length
    let held : Bool := (!p.relaxed && before.any fun q => q.req == p.req) || s1.inboundWaits p.ctx p.addr p.data.length true
    let k := s.ingress (s.inboundDie p.ctx p.addr)
    (held = true → exec (.postedWriteRelease id) s = .next (s1.post k (s1.clock k + 1) (.postedWriteRelease id))) ∧
    (held = false → let t := { s1 with posted := s1.posted.filter fun q => q.id != id }
      ∀ u, t.inboundWrite p.ctx p.addr p.data = some u → exec (.postedWriteRelease id) s = .next u)) ∧
  (∀ (s : State) (port : Fin 2) (rate lanes : Nat), rate ∈ [25, 50, 80, 160, 320, 640, 1280] → lanes ∈ [1, 2, 4, 8, 16] →
    exec (.pcieLinkTraining port true rate lanes false) s = .next { s with pcie := s.pcie.set port ⟨true, true, rate, lanes⟩ }) ∧
  (∀ (s : State) (up : Bool), exec (.mgmtAutoNegotiation up) s = .next { s with mgmt := { s.mgmt with linkUp := up } }) ∧
  (∀ (s : State) (rest : List Frame), s.mgmt.linkUp = true → let t := { s with mgmt := { s.mgmt with inbox := rest } }
    (∀ mac, s.mgmt.ip ≠ 0 → s.mgmt.inbox = .arp s.mgmt.ip mac :: rest → exec .mgmtArp s = .next (t.emit (.arpReply s.mgmt.ip mac))) ∧
    (∀ dst src data, s.mgmt.inbox = .echo dst src data :: rest → exec .mgmtIcmpEcho s =
      .next (if dst = s.mgmt.ip ∧ dst ≠ 0 then t.emit (.echoReply src data) else t)) ∧
    (∀ ip n, s.mgmt.inbox = .lease ip n :: rest → s.mgmt.isStatic = false →
      exec .mgmtDhcp s = .next { t with mgmt := { t.mgmt with ip := ip, prefixLen := n } })) ∧
  (∀ (s : State) (x : Dgram) (rest : List Frame),
    let n := x.payload.length
    let num (i k : Nat) : Nat := leNat ((x.payload.drop i).take k)
    let byte (i : Nat) : BitVec 8 := (x.payload[i]?).getD 0
    let quads (f : State → Nat → State) (s : State) : State := ((List.range 16).filter fun q => (num 0 2).testBit q).foldl f s
    (Requests s x rest 1 → Answers .mgmtReadTemperatures s x id (if n = 0 then 0 else 3) (if n = 0 then
      (s.quads.toList.flatMap fun q => [q.temp, q.hotlim] ++ leBytes 2 q.cool.toNat) ++ s.mgmt.gddrTemp.toList else [])) ∧
    (Requests s x rest 2 → if n = 4 then Answers .mgmtReadEvents s x id 0
        ((((s.rel.events.zipIdx s.rel.dropped).filter fun e => num 0 4 ≤ e.2).take 64).flatMap fun e => e.1.bytes e.2)
      else Answers .mgmtReadEvents s x id 3 []) ∧
    (Requests s x rest 3 → if n = 3 ∧ 4 ≤ (byte 2).toNat ∧ (byte 2).toNat ≤ 19 then
        Answers .mgmtSetStepCap s x (quads fun s q => (s.modQuad q fun y => { y with hostCap := (byte 2).extractLsb' 0 5 }).rail q) 0 []
      else Answers .mgmtSetStepCap s x id 3 []) ∧
    (Requests s x rest 4 → if n = 3 ∧ 60 ≤ (byte 2).toNat ∧ (byte 2).toNat ≤ 105 then
        Answers .mgmtSetHotlim s x (quads fun s q => s.modQuad q fun y => { y with
          hotlim := byte 2, cool := maskOf 12 fun i => (y.heat[i]?).any fun j => decide (j.toNat + 10 < (byte 2).toNat) }) 0 []
      else Answers .mgmtSetHotlim s x id 3 []) ∧
    (Requests s x rest 5 → if n = 1 ∧ byte 0 ≤ 1 then
        let due (t : State) (e : Instr) : Prop := (⟨.ext, s.sch.extClk, e⟩ : Due) ∈ t.sch.agenda
        Runs .mgmtResetModule s fun t => t.sch.outputs = (s.reply x 0 []).sch.outputs ∧ t.mgmt.lastSeq = some x.seq ∧ t.mgmt.inbox = rest ∧
          t.mgmt.flash = s.mgmt.flash ∧ t.ctxs = State.reset.ctxs ∧ t.quads = State.reset.quads ∧
          (byte 0 = 1 → t.mem = [] ∧ t.mgmt.booted = false ∧ due t (.powerUp [])) ∧
          (byte 0 = 0 → t.mem = s.mem.filter (fun m => m.1 / 2 ^ 48 != 1) ∧ t.mgmt.booted = s.mgmt.booted ∧ t.mgmt.log = s.mgmt.log ∧
            (s.mgmt.booted = true → ∃ js, due t (.quadrantJoin 0 js)))
      else Answers .mgmtResetModule s x id 3 []) ∧
    (Requests s x rest 6 → if 4 ≤ n ∧ n ≤ 1420 ∧ num 0 4 + (n - 4) ≤ 67108864 then
        Answers .mgmtFirmwareChunk s x (fun s => { s with mgmt := { s.mgmt with
          staged := s.mgmt.staged.writeBytes (num 0 4) (x.payload.drop 4), stagedLen := max s.mgmt.stagedLen (num 0 4 + (n - 4)) } }) 0 []
      else Answers .mgmtFirmwareChunk s x id 3 []) ∧
    (Requests s x rest 7 → if n = 4 ∧ num 0 4 ≤ 67108864 ∧ num 0 4 ≤ s.mgmt.stagedLen then
        let img := s.mgmt.staged.readBytes 0 (num 0 4)
        if Config.xmssAccepts img (Config.imageSig img) (Config.imageLeaf img) = true ∧ s.mgmt.counter < Config.imageLeaf img then
          ∃ m, (s.mgmt.counter + 2 ≤ Config.imageLeaf img → s.mgmt.counter < m ∧ m < Config.imageLeaf img) ∧
            Answers .mgmtFirmwareCommit s x (fun s => { s with mgmt := { s.mgmt with
              flash := [⟨img, Config.imageLeaf img, Config.imageSig img⟩], counter := m, key := Config.nextKey img s.mgmt.key, staged := [],
              stagedLen := 0 } }) 0 []
        else Answers .mgmtFirmwareCommit s x id 1 []
      else Answers .mgmtFirmwareCommit s x id 3 []) ∧
    (Requests s x rest 8 → if n = 36 then
        let nonce := x.payload.take 32
        let body := nonce ++ Config.serial ++ s.mgmt.log.flatten
        let quote := body ++ Config.quoteSign body s.mgmt.quotes
        match s.mgmt.quoted.find? fun q => q.1 == nonce with
        | some q => Answers .mgmtQuote s x id 0 ((q.2.drop (num 32 4)).take 1424)
        | none =>
          if s.mgmt.quotes < 2 ^ 16 then Answers .mgmtQuote s x (fun s => { s with mgmt := { s.mgmt with
            quoted := s.mgmt.quoted ++ [(nonce, quote)], quotes := s.mgmt.quotes + 1 } }) 0 ((quote.drop (num 32 4)).take 1424)
          else Answers .mgmtQuote s x id 1 []
      else Answers .mgmtQuote s x id 3 []) ∧
    (Requests s x rest 9 → if n = 5 ∧ (byte 4).toNat ≤ 32 then
        let ip : BitVec 32 := byte 0 ++ byte 1 ++ byte 2 ++ byte 3
        Answers .mgmtSetAddress s x (fun s => { s with mgmt := { s.mgmt with
          ip := ip, prefixLen := (byte 4).toNat, isStatic := ip != 0 } }) 0 []
      else Answers .mgmtSetAddress s x id 3 []) ∧
    (∀ op : BitVec 8, op = 0 ∨ 9 < op → Requests s x rest op → Answers .mgmtUnknownOp s x id 3 []) ∧
    (s.mgmt.inbox = .dgram x :: rest → s.mgmt.linkUp = true → s.mgmt.accepts x = false →
      exec (frameStep (.dgram x)) s = .next { s with mgmt := { s.mgmt with inbox := rest } }))

/-- R16, R17: on a core with 16 good lanes or more an instruction issues in ceil(96 / G) passes; lane L runs in pass L / G, on the good lane
below which L mod G lanes are good; a lane's access begins in its pass, `plane` reads its physical lane, and PASSES reads P, with G in bits
13:8. -/
def Obligations.LanesIssueInPasses : Prop :=
  (∀ k : Core, 16 ≤ goodLanes k → k.passes = (96 + goodLanes k - 1) / goodLanes k ∧ ∀ l < 96, k.passOf l = l / goodLanes k ∧
    k.physLane l < 32 ∧ k.lmap.getLsbD (k.physLane l) = true ∧
    (List.range (k.physLane l)).countP (fun i => k.lmap.getLsbD i) = l % goodLanes k) ∧
  (∀ (h : Hdr) (s : State) (I : Iss), s.issuer h = some I → 16 ≤ goodLanes (s.core I.c) →
    I.P = (96 + goodLanes (s.core I.c) - 1) / goodLanes (s.core I.c) ∧
    (∀ (p : Triple) (off : Nat → Word × Bool) (scale n : Nat), ∀ a ∈ lanesOf I p off scale n, a.start = I.t + a.lane / goodLanes (s.core I.c)) ∧
    ∀ l < 96, ((I.vsrc false .plane).at l).val = BitVec.ofNat 32 ((s.core I.c).physLane l)) ∧
  (∀ (x : SrdA) (s : State) (I : Iss), x.sel = .passes → Ready s x.h { all := true } I → I.qok = true → 16 ≤ goodLanes (s.core I.c) →
    ∃ w : Word, ScalarResult (.srd x) s I 1 x.d ⟨w, false⟩ ∧
      (w.extractLsb' 0 3).toNat = (96 + goodLanes (s.core I.c) - 1) / goodLanes (s.core I.c) ∧ (w.extractLsb' 8 6).toNat = goodLanes (s.core I.c))

/-- R182, R333, R359, R362, R365, R367, R371 (Table 1): what reset leaves where the spec says it: no group, crew, leg or region; the
registers of the context blocks; empty place tables and TOPOSEQ 1; votes of 16, steps 8 and host caps 19, HOTLIM 95 and log entry 0; ALLOW
full and ENERGY 0; the clocks and the inbound table at 0. Memory lists nothing, in its canonical form, and every byte reads as 0 (assumption
2, the model's choice). -/
def Obligations.ResetLeaves : Prop :=
  let s := State.reset
  s.mem.wf = true ∧ (∀ a, s.mem.read a = 0) ∧ s.sch.issue = none ∧
  (∀ c : Fin 768, let k := s.core c.val
    (∀ g : Fin 32, s.group? c.val g.val = none) ∧ k.allow = 2 ^ 20 - 1 ∧ k.energy = 0 ∧ k.stalled = none ∧ k.caches.l1 = [] ∧ k.ops = [] ∧
    (∀ b : Fin 32, (k.bank b.val).owner = none) ∧ (∀ t : Fin 16, (k.tile t.val).cfg = 0) ∧ ∀ i : Fin 64, s.eng? c.val i.val = none) ∧
  (∀ q : Fin 16, let d := s.quad q.val
    d.cur = 8 ∧ d.hostCap = 19 ∧ d.hotlim = 95 ∧ d.temp = 0 ∧ d.cool = 0 ∧ d.joined = false ∧ d.flogSeq = 0 ∧
    d.flog[0] = ⟨0, 0, true, 8⟩ ∧ s.clock (.quad q.val) = 0) ∧
  (∀ x : Fin 16, let C := s.ctx x.val
    C.toposeq = 1 ∧ (∀ i : Fin 768, C.place[i] = 0) ∧ (∀ q : Fin 16, C.votes[q] = 16) ∧ C.regions = [] ∧ C.queue = [] ∧ C.legs = [] ∧
    C.crews = [] ∧ C.records = [] ∧ C.forced = true ∧
    C.regs.state = 0 ∧ C.regs.system = false ∧ C.regs.preempt = false ∧ C.regs.en = false ∧ C.regs.ptroot = 0 ∧ C.regs.ptrooth = 0 ∧
    C.regs.tokbase = 0 ∧ C.regs.toksz = 0 ∧ C.regs.frbase = 0 ∧ C.regs.frtail = 0 ∧ C.regs.frhead = 0 ∧ C.regs.deadline = 0xFFFFFFFF ∧
    C.regs.cbusy = false ∧ C.regs.ibusy = false ∧ C.regs.tfail = false ∧ C.regs.plstat = false) ∧
  (∀ i : Fin 256, s.inbound[i] = 0)

/-- Memory keeps its canonical form, one entry for each byte that does not read as an unlisted one, addresses strictly rising: whatever a step
does, from every state that has it. -/
def Obligations.MemoryKeepsItsForm : Prop :=
  ∀ s t : State, s.mem.wf = true → step s = .next t → t.mem.wf = true

/-- The instructions of a program and the other steps of the module answer a next state, none a fault and none a refusal: an instruction whose
group and split stand at the issue slot, whatever its operands; and every event that finds what it names as it expects it (`Finds`), which is
the invariant of the agenda under which all that is due can be run. -/
def Obligations.EveryEventAnswers : Prop :=
  (∀ (i : Instr) (s : State) (I : Iss), i.isCode = true → s.issuer ⟨0, none, 0, .p false 7⟩ = some I → ∃ t, exec i s = .next t) ∧
  (∀ s : State, (∀ d ∈ s.sch.agenda, Finds s d.ev) → ∀ d ∈ s.sch.agenda, ∃ t, exec d.ev s = .next t) ∧
  (∀ (s : State) (e : Instr), e.isCode = false → Finds s e → ∃ t, exec e s = .next t)

/-- R49, R50 and what a step runs: the twelve bytes from the PC's code address on, three little-endian words, and the instruction they
decode to, run in the state after the fetch; with nothing at the issue slot the first input, else the first management frame, else what is
due first, else the pick of the next core, else a clock. The order of the steps is assumptions 12 and 14, and reading the bytes at the
issue, with no copy in the instruction cache, assumption 18: the model's choices. -/
def Obligations.StepRunsTheInstruction : Prop :=
  (∀ (s t u : State) (i : Slot) (G : Group) (S : Split) (a b : Nat) (w0 w1 w2 : Word) (ins : Instr),
    s.sch.issue = some i → s.group? i.core i.slot = some G → G.splits[i.split] = some S →
    Ptr.module (s.codeBase G.ctx G.crew) = Config.thisModule →
    s.codeSpan i.core G.ctx G.crew S.pc = (.ok (a, b), t) →
    let va := (Ptr.local (s.codeBase G.ctx G.crew) + 12 * S.pc.toNat) % 2 ^ 62
    let byte (n : Nat) : Nat := if va / 4096 = (va + n) / 4096 then a + n else b + n - 11
    (∀ n < 12, t.mem.read (byte n) = ((w2 ++ w1 ++ w0 : IWord) >>> (8 * n)).setWidth 8) →
    decode (w2 ++ w1 ++ w0) = .ok ins → exec ins t = .next u → step s = .next u) ∧
  (∀ (s u : State) (e : Instr) (rest : List Instr), s.sch.issue = none → s.sch.inputs = e :: rest →
    exec e (s.modSch fun h => { h with inputs := rest }) = .next u → step s = .next u) ∧
  (∀ s : State, s.sch.issue = none → s.sch.inputs = [] →
    (∀ (f : Frame) (rest : List Frame) (u : State), s.mgmt.inbox = f :: rest → exec (frameStep f) s = .next u → step s = .next u) ∧
    (s.mgmt.inbox = [] →
      (∀ (pre post : List Due) (d : Due) (u : State), s.sch.agenda = pre ++ d :: post → (∀ e ∈ pre, s.clock e.clk < e.at') →
        d.at' ≤ s.clock d.clk → exec d.ev (s.modSch fun h => { h with agenda := pre ++ post }) = .next u → step s = .next u) ∧
      ((∀ e ∈ s.sch.agenda, s.clock e.clk < e.at') →
        (∀ (c : Nat) (rest : List Nat) (u : State), s.sch.todo = c :: rest →
          exec (.groupPick c) (s.modSch fun h => { h with todo := rest }) = .next u → step s = .next u) ∧
        (s.sch.todo = [] → step s = .next s.tick))))

/-- For every well-formed instruction of a code image, the decoder reads from its encoding the instruction itself: no bit of any field is
dropped (chapter 3, Tables 1 to 4, and the encoding tables of the chapters). -/
def Obligations.DecodingInvertsEncoding : Prop := ∀ i : Instr, i.isCode = true → i.wf = true → decode (encode i) = .ok i

/-- Words that the spec prints beside their assembly, one or two of a chapter, and the instructions they stand for: TRAIL, BRD, CALL, SMIN, SBFE,
PADD, VADD, FFMA, CVTEF, SHFL, LD, LDG, STS, KDEMAND, TKSPLIT, ATOM, WAITA, TLD, MTASK, ACSCALE, COPY, QPOP, TRAP and SPAWN. -/
def Obligations.DecodesPrintedWords : Prop :=
  let h : Hdr := ⟨0, none, 0, .p false 7⟩
  let f (n : Fin 12) : Hdr := ⟨0, some n, 0, .p false 7⟩
  ∀ p ∈ (([(0x8000CC003000000000007002, .trail ⟨3, some 2, 6⟩),
      (0x400000003800000000011004, .brd ⟨⟨0, none, 0, .p true 1⟩, 7⟩),
      (0x400000050000000004507006, .call ⟨h, .s 40, 0xA0⟩),
      (0x0000000000006C0A040E701C, .smin ⟨h, .s 7, .c 0, .imm 96, false, false⟩),
      (0x000000000272001014067024, .sbfe ⟨h, .s 3, .s 2, 4, 7, true⟩),
      (0x00000000000068100408702B, .padd ⟨h, .s 4, .s 0, .imm 64⟩),
      (0x00000000000C006010087040, .vadd ⟨h, .v 4, .v 2, .v 3, false, false, .w8, true, false⟩),
      (0x000018800000A8404014705B, .ffma ⟨⟨0, some 5, 1, .p false 7⟩, .v 10, .v 8, .c 2, .rz, .f32, false, false, false⟩),
      (0x00000000020181A05818706C, .cvtef ⟨h, .v 12, .v 11, .v 13, .f32, .e4m3, .rne, true, 0⟩),
      (0x000004000002E02010067371, .shfl ⟨f 0, .xor, 5, .v 3, .v 2, .imm 1⟩)] : List (IWord × Instr)) ++
    ([(0x000004000002201000027080, .ld ⟨f 0, .v 1, .s 0, .o 0, .w, false, .grp, false, false, .last, 0, 0, 0⟩),
      (0x00000C0000026080503C7084, .ldg ⟨f 2, .v 30, .v 10, .imm 4, .w, false, .grp, false, false, .last, 0, 0, 0⟩),
      (0x000010000026601054287083, .sts ⟨f 3, .s 20, .s 10, .imm 0, .w, true, .dev⟩),
      (0x000010000000000000041091, .kdemand ⟨⟨0, some 3, 0, .p false 1⟩, .r (.v 2)⟩),
      (0x000000000000E050200070A3, .tksplit ⟨h, .crew, some 0, 4, .imm 2⟩),
      (0x00000C0000022030000278B0, .atom ⟨f 2, .xchg, .v 1, 0, .o 1, false, false, .rlx, .grp, .v 0⟩),
      (0x00002400100828F0441C70B6, .waita ⟨f 8, .eq, .crew, false, 2, .s 14, 8, .c 7⟩),
      (0x00000C049020A950200670C0, .tld ⟨f 2, true, .dev, 2, some 1, 3, 4, .c 10⟩),
      (0x0000100A30000040000270C5, .mtask ⟨f 3, .bf16, false, false, false, 1, 0, 2, .c 6⟩),
      (0x00001C0AA1F003C0180870CD, .acscale ⟨f 6, .a 4, .a 3, .v 30, .c 20, 0, 31⟩),
      (0x00000810A00928B0041070E0, .copy ⟨f 1, false, true, false, .crew, 8, 0, .c 5, 20⟩),
      (0x00000401D00000000C1870E8, .qpop ⟨f 0, false, .s 12, 1, false, .stride, 3, 2⟩),
      (0x000000000000001DE80070F2, .trap ⟨h, 0xBD⟩),
      (0x40001001E0000000400470F3, .spawn ⟨f 3, some 2, 8, 0x3C⟩)] : List (IWord × Instr))),
    decode p.1 = .ok p.2

/-- R52, R53, R68, R72, R110, R355: each opcode accepts one FORM, and a word with another faults with ILL_ENC; so do nonzero bits 93:90 and
SETF of 13 to 15. A word of an unassigned OPC is UNASSIGNED_OPCODE, whatever its other bits, and faults with ILL_OP. What is refused at
issue stops the group without effect. VADD's further checks: registers beyond the budget, stale l registers, a marked guard under FAULT,
uncorrectable registers. -/
def Obligations.IllegalWordsFault : Prop :=
  let opc (w : IWord) : Nat := (w.extractLsb' 0 8).toNat
  let form (w : IWord) : BitVec 2 := w.extractLsb' 94 2
  let wide : List Nat := [0x03, 0x04, 0x06, 0x08, 0xF3]
  let accepts (w : IWord) : Prop :=
    (opc w = 0x02 ∧ form w = 0b10) ∨ (opc w ∈ wide ∧ form w = 0b01) ∨ (opc w ≠ 0x02 ∧ opc w ∉ wide ∧ form w = 0b00)
  let unassigned : List Nat := [0x00, 0x2F] ++ List.range' 0x0B 5 ++ List.range' 0x30 16 ++ List.range' 0x76 10 ++ List.range' 0x8A 6 ++
    List.range' 0x96 10 ++ List.range' 0xAB 5 ++ List.range' 0xB8 8 ++ List.range' 0xD0 16 ++ List.range' 0xEB 5 ++ List.range' 0xF8 8
  (∀ w : IWord,
    (opc w ∈ unassigned → decode w = .ok .unassignedOpcode) ∧
    (opc w ∉ unassigned → decode w ≠ .ok .unassignedOpcode ∧
      (¬ accepts w → decode w = .illEnc .form) ∧ (accepts w → decode w ≠ .illEnc .form) ∧
      (w.extractLsb' 90 4 ≠ 0 → ∃ e, decode w = .illEnc e) ∧ (13 ≤ (w.extractLsb' 74 4).toNat → ∃ e, decode w = .illEnc e))) ∧
  (∀ (s t : State) (i : Slot) (G : Group) (S : Split) (w : IWord) (I : Iss), s.sch.issue = some i → s.group? i.core i.slot = some G →
    G.splits[i.split] = some S → s.fetch i.core G.ctx G.crew S.pc = (.ok w, t) → t.issuer ⟨0, none, 0, .p false 7⟩ = some I →
    let stop (k : Cause) : Prop := step s = .next (I.s.clearIssue.takeStop I.c I.g { cause := k, scalar := true, pc := I.S.pc })
    (opc w ∈ unassigned → stop .illOp) ∧ (∀ e, decode w = .illEnc e → stop .illEnc)) ∧
  (∀ (s : State) (I : Iss), s.issuer ⟨0, none, 0, .p false 7⟩ = some I →
    Stops .unassignedOpcode s I { cause := .illOp, scalar := true, pc := I.S.pc }) ∧
  (∀ (x : VA) (s : State) (I : Iss), s.issuer x.h = some I →
    let stop (k : Cause) : Prop := Stops (.vadd x) s I { cause := k, scalar := true, pc := I.S.pc }
    ((∃ n, Opnd.v n ∈ [x.a, x.b, x.d] ∧ I.G.budget ≤ n.val) → stop .illEnc) ∧
    ((∀ n, Opnd.v n ∈ [x.a, x.b, x.d] → n.val < I.G.budget) →
      ((∃ n, Opnd.l n ∈ [x.a, x.b] ∧ I.S.lvalid.getLsbD n.val = false) → stop .illRun) ∧
      ((∀ n, Opnd.l n ∈ [x.a, x.b] → I.S.lvalid.getLsbD n.val = true) →
        (∀ neg j, x.h.grd = .p neg j → (I.G.regs.pred j).k &&& I.S.m ≠ 0 → I.uses 0 = false →
          Stops (.vadd x) s I { cause := .kConsume, cmask := (I.G.regs.pred j).k &&& I.S.m, pc := I.S.pc }) ∧
        (∀ (n : Fin 256) (l : Fin 96), (∃ neg j, x.h.grd = .q neg j) → Opnd.v n ∈ [x.a, x.b] → (VecName.v n.val, l.val) ∈ I.G.ueRegs →
          I.active.getLsbD l.val = true → exec (.vadd x) s = .next (I.s.clearIssue.consume I.G.ctx I.G.crew .ueData)))))

/-- R112, R144 to R146, R266, R336, R337, R373: taking an exception. A stop stops the group; a serviced fault stalls the core from its cycle
on; both write TRAPINFO, laid out as Table 13 says, and a record; nothing else of the group changes, nor memory. The return from a stop lets
the group run again. Of several causes the one of lowest rank is reported, its lanes in CMASK and the others in OMASK; ACM_UNALLOC ranks
just after TILE_CFG, ACM_BAND just after it, and both above the UE causes. -/
def Obligations.TakingAnException : Prop :=
  (∀ (s : State) (c g : Nat) (G : Group) (r : Report), s.group? c g = some G → G.ctx < 16 →
    let id := s.crewIdWord G.ctx G.crew
    (let t := s.takeStop c g r
     t.group? c g = some { G with stopped := true, resuming := false, spec := { G.spec with trapinfo := r.trapinfo } } ∧
     Recorded s t G.ctx c g id r 0 ∧ t.mem = s.mem ∧ (∀ h, h ≠ g → t.group? c h = s.group? c h) ∧ (∀ d, d ≠ c → t.core d = s.core d) ∧
     ∀ y, y ≠ G.ctx → t.ctx y = s.ctx y) ∧
    (let t := s.takeServiced c g r
     t.group? c g = some { G with spec := { G.spec with trapinfo := r.trapinfo } } ∧
     (t.core c).stalled = some ((s.core c).stalled.getD (s.now c)) ∧ g ∈ (t.core c).stallers ∧
     Recorded s t G.ctx c g id r 1 ∧ t.mem = s.mem ∧ (∀ h, h ≠ g → t.group? c h = s.group? c h) ∧ (∀ d, d ≠ c → t.core d = s.core d) ∧
     ∀ y, y ≠ G.ctx → t.ctx y = s.ctx y) ∧
    (s.resumeStop c g).group? c g = some { G with stopped := false, resuming := true }) ∧
  (∀ r : Report, let w := r.trapinfo
    w[0].extractLsb' 24 8 = r.detail ∧ w[0].extractLsb' 16 8 = r.orig ∧ w[0].getLsbD 15 = r.scalar ∧ w[0].extractLsb' 0 8 = r.cause.code ∧
    (∀ l < 96, r.cmask.getLsbD l = true → (∀ m < l, r.cmask.getLsbD m = false) → (w[0].extractLsb' 8 7).toNat = l) ∧
    w[3] ++ w[2] ++ w[1] = r.cmask ∧ w[6] ++ w[5] ++ w[4] = r.omask ∧ w[7] = r.pc) ∧
  (∀ (cs : List (Nat × Cause)) (pc : Word) (p : Ptr), cs ≠ [] → (cs.map Prod.fst).Nodup → ∃ r, Report.ofLanes cs pc p = some r ∧
    (∃ l, (l, r.cause) ∈ cs) ∧ (∀ q ∈ cs, r.cause.rank ≤ q.2.rank) ∧
    ∀ l < 96, (r.cmask.getLsbD l = true ↔ (l, r.cause) ∈ cs) ∧ (r.omask.getLsbD l = true ↔ ∃ k, k ≠ r.cause ∧ (l, k) ∈ cs)) ∧
  (Cause.rank .acmUnalloc = Cause.rank .tileCfg + 1 ∧ Cause.rank .acmBand = Cause.rank .acmUnalloc + 1 ∧
    Cause.rank .acmBand < Cause.rank .ueData ∧ Cause.rank .acmBand < Cause.rank .brimUe)
end

