-- ==== Sys2Proof/Laws/State.lean ====
section
/-! SUPPORT. One lemma for each field of the state and each update of it: an update changes its own part and leaves every other. -/

namespace Sys2Proof.Machine.State

open Sys2Proof

/-! ## setCore -/

@[simp] theorem setCore_sch (s : State) (c : Nat) (k : Core) : (s.setCore c k).sch = s.sch := rfl
@[simp] theorem setCore_quads (s : State) (c : Nat) (k : Core) : (s.setCore c k).quads = s.quads := rfl
@[simp] theorem setCore_ctxs (s : State) (c : Nat) (k : Core) : (s.setCore c k).ctxs = s.ctxs := rfl
@[simp] theorem setCore_mem (s : State) (c : Nat) (k : Core) : (s.setCore c k).mem = s.mem := rfl
@[simp] theorem setCore_ueLines (s : State) (c : Nat) (k : Core) : (s.setCore c k).ueLines = s.ueLines := rfl
@[simp] theorem setCore_poisoned (s : State) (c : Nat) (k : Core) : (s.setCore c k).poisoned = s.poisoned := rfl
@[simp] theorem setCore_slices (s : State) (c : Nat) (k : Core) : (s.setCore c k).slices = s.slices := rfl
@[simp] theorem setCore_inbound (s : State) (c : Nat) (k : Core) : (s.setCore c k).inbound = s.inbound := rfl
@[simp] theorem setCore_posted (s : State) (c : Nat) (k : Core) : (s.setCore c k).posted = s.posted := rfl
@[simp] theorem setCore_invs (s : State) (c : Nat) (k : Core) : (s.setCore c k).invs = s.invs := rfl
@[simp] theorem setCore_watch (s : State) (c : Nat) (k : Core) : (s.setCore c k).watch = s.watch := rfl
@[simp] theorem setCore_rel (s : State) (c : Nat) (k : Core) : (s.setCore c k).rel = s.rel := rfl
@[simp] theorem setCore_mgmt (s : State) (c : Nat) (k : Core) : (s.setCore c k).mgmt = s.mgmt := rfl
@[simp] theorem setCore_pcie (s : State) (c : Nat) (k : Core) : (s.setCore c k).pcie = s.pcie := rfl

/-! ## modCore -/

@[simp] theorem modCore_sch (s : State) (c : Nat) (f : Core → Core) : (s.modCore c f).sch = s.sch := rfl
@[simp] theorem modCore_quads (s : State) (c : Nat) (f : Core → Core) : (s.modCore c f).quads = s.quads := rfl
@[simp] theorem modCore_ctxs (s : State) (c : Nat) (f : Core → Core) : (s.modCore c f).ctxs = s.ctxs := rfl
@[simp] theorem modCore_mem (s : State) (c : Nat) (f : Core → Core) : (s.modCore c f).mem = s.mem := rfl
@[simp] theorem modCore_ueLines (s : State) (c : Nat) (f : Core → Core) : (s.modCore c f).ueLines = s.ueLines := rfl
@[simp] theorem modCore_poisoned (s : State) (c : Nat) (f : Core → Core) : (s.modCore c f).poisoned = s.poisoned := rfl
@[simp] theorem modCore_slices (s : State) (c : Nat) (f : Core → Core) : (s.modCore c f).slices = s.slices := rfl
@[simp] theorem modCore_inbound (s : State) (c : Nat) (f : Core → Core) : (s.modCore c f).inbound = s.inbound := rfl
@[simp] theorem modCore_posted (s : State) (c : Nat) (f : Core → Core) : (s.modCore c f).posted = s.posted := rfl
@[simp] theorem modCore_invs (s : State) (c : Nat) (f : Core → Core) : (s.modCore c f).invs = s.invs := rfl
@[simp] theorem modCore_watch (s : State) (c : Nat) (f : Core → Core) : (s.modCore c f).watch = s.watch := rfl
@[simp] theorem modCore_rel (s : State) (c : Nat) (f : Core → Core) : (s.modCore c f).rel = s.rel := rfl
@[simp] theorem modCore_mgmt (s : State) (c : Nat) (f : Core → Core) : (s.modCore c f).mgmt = s.mgmt := rfl
@[simp] theorem modCore_pcie (s : State) (c : Nat) (f : Core → Core) : (s.modCore c f).pcie = s.pcie := rfl

/-! ## modQuad -/

@[simp] theorem modQuad_sch (s : State) (q : Nat) (f : Quad → Quad) : (s.modQuad q f).sch = s.sch := rfl
@[simp] theorem modQuad_cores (s : State) (q : Nat) (f : Quad → Quad) : (s.modQuad q f).cores = s.cores := rfl
@[simp] theorem modQuad_ctxs (s : State) (q : Nat) (f : Quad → Quad) : (s.modQuad q f).ctxs = s.ctxs := rfl
@[simp] theorem modQuad_mem (s : State) (q : Nat) (f : Quad → Quad) : (s.modQuad q f).mem = s.mem := rfl
@[simp] theorem modQuad_ueLines (s : State) (q : Nat) (f : Quad → Quad) : (s.modQuad q f).ueLines = s.ueLines := rfl
@[simp] theorem modQuad_poisoned (s : State) (q : Nat) (f : Quad → Quad) : (s.modQuad q f).poisoned = s.poisoned := rfl
@[simp] theorem modQuad_slices (s : State) (q : Nat) (f : Quad → Quad) : (s.modQuad q f).slices = s.slices := rfl
@[simp] theorem modQuad_inbound (s : State) (q : Nat) (f : Quad → Quad) : (s.modQuad q f).inbound = s.inbound := rfl
@[simp] theorem modQuad_posted (s : State) (q : Nat) (f : Quad → Quad) : (s.modQuad q f).posted = s.posted := rfl
@[simp] theorem modQuad_invs (s : State) (q : Nat) (f : Quad → Quad) : (s.modQuad q f).invs = s.invs := rfl
@[simp] theorem modQuad_watch (s : State) (q : Nat) (f : Quad → Quad) : (s.modQuad q f).watch = s.watch := rfl
@[simp] theorem modQuad_rel (s : State) (q : Nat) (f : Quad → Quad) : (s.modQuad q f).rel = s.rel := rfl
@[simp] theorem modQuad_mgmt (s : State) (q : Nat) (f : Quad → Quad) : (s.modQuad q f).mgmt = s.mgmt := rfl
@[simp] theorem modQuad_pcie (s : State) (q : Nat) (f : Quad → Quad) : (s.modQuad q f).pcie = s.pcie := rfl

/-! ## modCtx -/

@[simp] theorem modCtx_sch (s : State) (n : Nat) (f : Ctx → Ctx) : (s.modCtx n f).sch = s.sch := rfl
@[simp] theorem modCtx_cores (s : State) (n : Nat) (f : Ctx → Ctx) : (s.modCtx n f).cores = s.cores := rfl
@[simp] theorem modCtx_quads (s : State) (n : Nat) (f : Ctx → Ctx) : (s.modCtx n f).quads = s.quads := rfl
@[simp] theorem modCtx_mem (s : State) (n : Nat) (f : Ctx → Ctx) : (s.modCtx n f).mem = s.mem := rfl
@[simp] theorem modCtx_ueLines (s : State) (n : Nat) (f : Ctx → Ctx) : (s.modCtx n f).ueLines = s.ueLines := rfl
@[simp] theorem modCtx_poisoned (s : State) (n : Nat) (f : Ctx → Ctx) : (s.modCtx n f).poisoned = s.poisoned := rfl
@[simp] theorem modCtx_slices (s : State) (n : Nat) (f : Ctx → Ctx) : (s.modCtx n f).slices = s.slices := rfl
@[simp] theorem modCtx_inbound (s : State) (n : Nat) (f : Ctx → Ctx) : (s.modCtx n f).inbound = s.inbound := rfl
@[simp] theorem modCtx_posted (s : State) (n : Nat) (f : Ctx → Ctx) : (s.modCtx n f).posted = s.posted := rfl
@[simp] theorem modCtx_invs (s : State) (n : Nat) (f : Ctx → Ctx) : (s.modCtx n f).invs = s.invs := rfl
@[simp] theorem modCtx_watch (s : State) (n : Nat) (f : Ctx → Ctx) : (s.modCtx n f).watch = s.watch := rfl
@[simp] theorem modCtx_rel (s : State) (n : Nat) (f : Ctx → Ctx) : (s.modCtx n f).rel = s.rel := rfl
@[simp] theorem modCtx_mgmt (s : State) (n : Nat) (f : Ctx → Ctx) : (s.modCtx n f).mgmt = s.mgmt := rfl
@[simp] theorem modCtx_pcie (s : State) (n : Nat) (f : Ctx → Ctx) : (s.modCtx n f).pcie = s.pcie := rfl

/-! ## modQueued -/

@[simp] theorem modQueued_sch (s : State) (n i : Nat) (f : Leg → Leg) : (s.modQueued n i f).sch = s.sch := rfl
@[simp] theorem modQueued_cores (s : State) (n i : Nat) (f : Leg → Leg) : (s.modQueued n i f).cores = s.cores := rfl
@[simp] theorem modQueued_quads (s : State) (n i : Nat) (f : Leg → Leg) : (s.modQueued n i f).quads = s.quads := rfl
@[simp] theorem modQueued_mem (s : State) (n i : Nat) (f : Leg → Leg) : (s.modQueued n i f).mem = s.mem := rfl
@[simp] theorem modQueued_ueLines (s : State) (n i : Nat) (f : Leg → Leg) : (s.modQueued n i f).ueLines = s.ueLines := rfl
@[simp] theorem modQueued_poisoned (s : State) (n i : Nat) (f : Leg → Leg) : (s.modQueued n i f).poisoned = s.poisoned := rfl
@[simp] theorem modQueued_slices (s : State) (n i : Nat) (f : Leg → Leg) : (s.modQueued n i f).slices = s.slices := rfl
@[simp] theorem modQueued_inbound (s : State) (n i : Nat) (f : Leg → Leg) : (s.modQueued n i f).inbound = s.inbound := rfl
@[simp] theorem modQueued_posted (s : State) (n i : Nat) (f : Leg → Leg) : (s.modQueued n i f).posted = s.posted := rfl
@[simp] theorem modQueued_invs (s : State) (n i : Nat) (f : Leg → Leg) : (s.modQueued n i f).invs = s.invs := rfl
@[simp] theorem modQueued_watch (s : State) (n i : Nat) (f : Leg → Leg) : (s.modQueued n i f).watch = s.watch := rfl
@[simp] theorem modQueued_rel (s : State) (n i : Nat) (f : Leg → Leg) : (s.modQueued n i f).rel = s.rel := rfl
@[simp] theorem modQueued_mgmt (s : State) (n i : Nat) (f : Leg → Leg) : (s.modQueued n i f).mgmt = s.mgmt := rfl
@[simp] theorem modQueued_pcie (s : State) (n i : Nat) (f : Leg → Leg) : (s.modQueued n i f).pcie = s.pcie := rfl

/-! ## modSch -/

@[simp] theorem modSch_cores (s : State) (f : Sched → Sched) : (s.modSch f).cores = s.cores := rfl
@[simp] theorem modSch_quads (s : State) (f : Sched → Sched) : (s.modSch f).quads = s.quads := rfl
@[simp] theorem modSch_ctxs (s : State) (f : Sched → Sched) : (s.modSch f).ctxs = s.ctxs := rfl
@[simp] theorem modSch_mem (s : State) (f : Sched → Sched) : (s.modSch f).mem = s.mem := rfl
@[simp] theorem modSch_ueLines (s : State) (f : Sched → Sched) : (s.modSch f).ueLines = s.ueLines := rfl
@[simp] theorem modSch_poisoned (s : State) (f : Sched → Sched) : (s.modSch f).poisoned = s.poisoned := rfl
@[simp] theorem modSch_slices (s : State) (f : Sched → Sched) : (s.modSch f).slices = s.slices := rfl
@[simp] theorem modSch_inbound (s : State) (f : Sched → Sched) : (s.modSch f).inbound = s.inbound := rfl
@[simp] theorem modSch_posted (s : State) (f : Sched → Sched) : (s.modSch f).posted = s.posted := rfl
@[simp] theorem modSch_invs (s : State) (f : Sched → Sched) : (s.modSch f).invs = s.invs := rfl
@[simp] theorem modSch_watch (s : State) (f : Sched → Sched) : (s.modSch f).watch = s.watch := rfl
@[simp] theorem modSch_rel (s : State) (f : Sched → Sched) : (s.modSch f).rel = s.rel := rfl
@[simp] theorem modSch_mgmt (s : State) (f : Sched → Sched) : (s.modSch f).mgmt = s.mgmt := rfl
@[simp] theorem modSch_pcie (s : State) (f : Sched → Sched) : (s.modSch f).pcie = s.pcie := rfl

/-! ## setGroup -/

@[simp] theorem setGroup_sch (s : State) (c g : Nat) (x : Option Group) : (s.setGroup c g x).sch = s.sch := rfl
@[simp] theorem setGroup_quads (s : State) (c g : Nat) (x : Option Group) : (s.setGroup c g x).quads = s.quads := rfl
@[simp] theorem setGroup_ctxs (s : State) (c g : Nat) (x : Option Group) : (s.setGroup c g x).ctxs = s.ctxs := rfl
@[simp] theorem setGroup_mem (s : State) (c g : Nat) (x : Option Group) : (s.setGroup c g x).mem = s.mem := rfl
@[simp] theorem setGroup_ueLines (s : State) (c g : Nat) (x : Option Group) : (s.setGroup c g x).ueLines = s.ueLines := rfl
@[simp] theorem setGroup_poisoned (s : State) (c g : Nat) (x : Option Group) : (s.setGroup c g x).poisoned = s.poisoned := rfl
@[simp] theorem setGroup_slices (s : State) (c g : Nat) (x : Option Group) : (s.setGroup c g x).slices = s.slices := rfl
@[simp] theorem setGroup_inbound (s : State) (c g : Nat) (x : Option Group) : (s.setGroup c g x).inbound = s.inbound := rfl
@[simp] theorem setGroup_posted (s : State) (c g : Nat) (x : Option Group) : (s.setGroup c g x).posted = s.posted := rfl
@[simp] theorem setGroup_invs (s : State) (c g : Nat) (x : Option Group) : (s.setGroup c g x).invs = s.invs := rfl
@[simp] theorem setGroup_watch (s : State) (c g : Nat) (x : Option Group) : (s.setGroup c g x).watch = s.watch := rfl
@[simp] theorem setGroup_rel (s : State) (c g : Nat) (x : Option Group) : (s.setGroup c g x).rel = s.rel := rfl
@[simp] theorem setGroup_mgmt (s : State) (c g : Nat) (x : Option Group) : (s.setGroup c g x).mgmt = s.mgmt := rfl
@[simp] theorem setGroup_pcie (s : State) (c g : Nat) (x : Option Group) : (s.setGroup c g x).pcie = s.pcie := rfl

/-! ## modGroup -/

@[simp] theorem modGroup_sch (s : State) (c g : Nat) (f : Group → Group) : (s.modGroup c g f).sch = s.sch := rfl
@[simp] theorem modGroup_quads (s : State) (c g : Nat) (f : Group → Group) : (s.modGroup c g f).quads = s.quads := rfl
@[simp] theorem modGroup_ctxs (s : State) (c g : Nat) (f : Group → Group) : (s.modGroup c g f).ctxs = s.ctxs := rfl
@[simp] theorem modGroup_mem (s : State) (c g : Nat) (f : Group → Group) : (s.modGroup c g f).mem = s.mem := rfl
@[simp] theorem modGroup_ueLines (s : State) (c g : Nat) (f : Group → Group) : (s.modGroup c g f).ueLines = s.ueLines := rfl
@[simp] theorem modGroup_poisoned (s : State) (c g : Nat) (f : Group → Group) : (s.modGroup c g f).poisoned = s.poisoned := rfl
@[simp] theorem modGroup_slices (s : State) (c g : Nat) (f : Group → Group) : (s.modGroup c g f).slices = s.slices := rfl
@[simp] theorem modGroup_inbound (s : State) (c g : Nat) (f : Group → Group) : (s.modGroup c g f).inbound = s.inbound := rfl
@[simp] theorem modGroup_posted (s : State) (c g : Nat) (f : Group → Group) : (s.modGroup c g f).posted = s.posted := rfl
@[simp] theorem modGroup_invs (s : State) (c g : Nat) (f : Group → Group) : (s.modGroup c g f).invs = s.invs := rfl
@[simp] theorem modGroup_watch (s : State) (c g : Nat) (f : Group → Group) : (s.modGroup c g f).watch = s.watch := rfl
@[simp] theorem modGroup_rel (s : State) (c g : Nat) (f : Group → Group) : (s.modGroup c g f).rel = s.rel := rfl
@[simp] theorem modGroup_mgmt (s : State) (c g : Nat) (f : Group → Group) : (s.modGroup c g f).mgmt = s.mgmt := rfl
@[simp] theorem modGroup_pcie (s : State) (c g : Nat) (f : Group → Group) : (s.modGroup c g f).pcie = s.pcie := rfl

/-! ## modCrew -/

@[simp] theorem modCrew_sch (s : State) (x k : Nat) (f : Crew → Crew) : (s.modCrew x k f).sch = s.sch := rfl
@[simp] theorem modCrew_cores (s : State) (x k : Nat) (f : Crew → Crew) : (s.modCrew x k f).cores = s.cores := rfl
@[simp] theorem modCrew_quads (s : State) (x k : Nat) (f : Crew → Crew) : (s.modCrew x k f).quads = s.quads := rfl
@[simp] theorem modCrew_mem (s : State) (x k : Nat) (f : Crew → Crew) : (s.modCrew x k f).mem = s.mem := rfl
@[simp] theorem modCrew_ueLines (s : State) (x k : Nat) (f : Crew → Crew) : (s.modCrew x k f).ueLines = s.ueLines := rfl
@[simp] theorem modCrew_poisoned (s : State) (x k : Nat) (f : Crew → Crew) : (s.modCrew x k f).poisoned = s.poisoned := rfl
@[simp] theorem modCrew_slices (s : State) (x k : Nat) (f : Crew → Crew) : (s.modCrew x k f).slices = s.slices := rfl
@[simp] theorem modCrew_inbound (s : State) (x k : Nat) (f : Crew → Crew) : (s.modCrew x k f).inbound = s.inbound := rfl
@[simp] theorem modCrew_posted (s : State) (x k : Nat) (f : Crew → Crew) : (s.modCrew x k f).posted = s.posted := rfl
@[simp] theorem modCrew_invs (s : State) (x k : Nat) (f : Crew → Crew) : (s.modCrew x k f).invs = s.invs := rfl
@[simp] theorem modCrew_watch (s : State) (x k : Nat) (f : Crew → Crew) : (s.modCrew x k f).watch = s.watch := rfl
@[simp] theorem modCrew_rel (s : State) (x k : Nat) (f : Crew → Crew) : (s.modCrew x k f).rel = s.rel := rfl
@[simp] theorem modCrew_mgmt (s : State) (x k : Nat) (f : Crew → Crew) : (s.modCrew x k f).mgmt = s.mgmt := rfl
@[simp] theorem modCrew_pcie (s : State) (x k : Nat) (f : Crew → Crew) : (s.modCrew x k f).pcie = s.pcie := rfl

/-! ## modLeg -/

@[simp] theorem modLeg_sch (s : State) (x k : Nat) (f : Leg → Leg) : (s.modLeg x k f).sch = s.sch := rfl
@[simp] theorem modLeg_cores (s : State) (x k : Nat) (f : Leg → Leg) : (s.modLeg x k f).cores = s.cores := rfl
@[simp] theorem modLeg_quads (s : State) (x k : Nat) (f : Leg → Leg) : (s.modLeg x k f).quads = s.quads := rfl
@[simp] theorem modLeg_mem (s : State) (x k : Nat) (f : Leg → Leg) : (s.modLeg x k f).mem = s.mem := rfl
@[simp] theorem modLeg_ueLines (s : State) (x k : Nat) (f : Leg → Leg) : (s.modLeg x k f).ueLines = s.ueLines := rfl
@[simp] theorem modLeg_poisoned (s : State) (x k : Nat) (f : Leg → Leg) : (s.modLeg x k f).poisoned = s.poisoned := rfl
@[simp] theorem modLeg_slices (s : State) (x k : Nat) (f : Leg → Leg) : (s.modLeg x k f).slices = s.slices := rfl
@[simp] theorem modLeg_inbound (s : State) (x k : Nat) (f : Leg → Leg) : (s.modLeg x k f).inbound = s.inbound := rfl
@[simp] theorem modLeg_posted (s : State) (x k : Nat) (f : Leg → Leg) : (s.modLeg x k f).posted = s.posted := rfl
@[simp] theorem modLeg_invs (s : State) (x k : Nat) (f : Leg → Leg) : (s.modLeg x k f).invs = s.invs := rfl
@[simp] theorem modLeg_watch (s : State) (x k : Nat) (f : Leg → Leg) : (s.modLeg x k f).watch = s.watch := rfl
@[simp] theorem modLeg_rel (s : State) (x k : Nat) (f : Leg → Leg) : (s.modLeg x k f).rel = s.rel := rfl
@[simp] theorem modLeg_mgmt (s : State) (x k : Nat) (f : Leg → Leg) : (s.modLeg x k f).mgmt = s.mgmt := rfl
@[simp] theorem modLeg_pcie (s : State) (x k : Nat) (f : Leg → Leg) : (s.modLeg x k f).pcie = s.pcie := rfl

/-! ## modOp -/

@[simp] theorem modOp_sch (s : State) (c k : Nat) (f : Op → Op) : (s.modOp c k f).sch = s.sch := rfl
@[simp] theorem modOp_quads (s : State) (c k : Nat) (f : Op → Op) : (s.modOp c k f).quads = s.quads := rfl
@[simp] theorem modOp_ctxs (s : State) (c k : Nat) (f : Op → Op) : (s.modOp c k f).ctxs = s.ctxs := rfl
@[simp] theorem modOp_mem (s : State) (c k : Nat) (f : Op → Op) : (s.modOp c k f).mem = s.mem := rfl
@[simp] theorem modOp_ueLines (s : State) (c k : Nat) (f : Op → Op) : (s.modOp c k f).ueLines = s.ueLines := rfl
@[simp] theorem modOp_poisoned (s : State) (c k : Nat) (f : Op → Op) : (s.modOp c k f).poisoned = s.poisoned := rfl
@[simp] theorem modOp_slices (s : State) (c k : Nat) (f : Op → Op) : (s.modOp c k f).slices = s.slices := rfl
@[simp] theorem modOp_inbound (s : State) (c k : Nat) (f : Op → Op) : (s.modOp c k f).inbound = s.inbound := rfl
@[simp] theorem modOp_posted (s : State) (c k : Nat) (f : Op → Op) : (s.modOp c k f).posted = s.posted := rfl
@[simp] theorem modOp_invs (s : State) (c k : Nat) (f : Op → Op) : (s.modOp c k f).invs = s.invs := rfl
@[simp] theorem modOp_watch (s : State) (c k : Nat) (f : Op → Op) : (s.modOp c k f).watch = s.watch := rfl
@[simp] theorem modOp_rel (s : State) (c k : Nat) (f : Op → Op) : (s.modOp c k f).rel = s.rel := rfl
@[simp] theorem modOp_mgmt (s : State) (c k : Nat) (f : Op → Op) : (s.modOp c k f).mgmt = s.mgmt := rfl
@[simp] theorem modOp_pcie (s : State) (c k : Nat) (f : Op → Op) : (s.modOp c k f).pcie = s.pcie := rfl

/-! ## dropOp -/

@[simp] theorem dropOp_sch (s : State) (c k : Nat) : (s.dropOp c k).sch = s.sch := rfl
@[simp] theorem dropOp_quads (s : State) (c k : Nat) : (s.dropOp c k).quads = s.quads := rfl
@[simp] theorem dropOp_ctxs (s : State) (c k : Nat) : (s.dropOp c k).ctxs = s.ctxs := rfl
@[simp] theorem dropOp_mem (s : State) (c k : Nat) : (s.dropOp c k).mem = s.mem := rfl
@[simp] theorem dropOp_ueLines (s : State) (c k : Nat) : (s.dropOp c k).ueLines = s.ueLines := rfl
@[simp] theorem dropOp_poisoned (s : State) (c k : Nat) : (s.dropOp c k).poisoned = s.poisoned := rfl
@[simp] theorem dropOp_slices (s : State) (c k : Nat) : (s.dropOp c k).slices = s.slices := rfl
@[simp] theorem dropOp_inbound (s : State) (c k : Nat) : (s.dropOp c k).inbound = s.inbound := rfl
@[simp] theorem dropOp_posted (s : State) (c k : Nat) : (s.dropOp c k).posted = s.posted := rfl
@[simp] theorem dropOp_invs (s : State) (c k : Nat) : (s.dropOp c k).invs = s.invs := rfl
@[simp] theorem dropOp_watch (s : State) (c k : Nat) :
    (s.dropOp c k).watch = s.watch.filter fun w => w.core != c || w.id != k := rfl
@[simp] theorem dropOp_rel (s : State) (c k : Nat) : (s.dropOp c k).rel = s.rel := rfl
@[simp] theorem dropOp_mgmt (s : State) (c k : Nat) : (s.dropOp c k).mgmt = s.mgmt := rfl
@[simp] theorem dropOp_pcie (s : State) (c k : Nat) : (s.dropOp c k).pcie = s.pcie := rfl

/-! ## addOp -/

@[simp] theorem addOp_sch (s : State) (c : Nat) (o : Op) : (s.addOp c o).sch = s.sch := rfl
@[simp] theorem addOp_quads (s : State) (c : Nat) (o : Op) : (s.addOp c o).quads = s.quads := rfl
@[simp] theorem addOp_ctxs (s : State) (c : Nat) (o : Op) : (s.addOp c o).ctxs = s.ctxs := rfl
@[simp] theorem addOp_mem (s : State) (c : Nat) (o : Op) : (s.addOp c o).mem = s.mem := rfl
@[simp] theorem addOp_ueLines (s : State) (c : Nat) (o : Op) : (s.addOp c o).ueLines = s.ueLines := rfl
@[simp] theorem addOp_poisoned (s : State) (c : Nat) (o : Op) : (s.addOp c o).poisoned = s.poisoned := rfl
@[simp] theorem addOp_slices (s : State) (c : Nat) (o : Op) : (s.addOp c o).slices = s.slices := rfl
@[simp] theorem addOp_inbound (s : State) (c : Nat) (o : Op) : (s.addOp c o).inbound = s.inbound := rfl
@[simp] theorem addOp_posted (s : State) (c : Nat) (o : Op) : (s.addOp c o).posted = s.posted := rfl
@[simp] theorem addOp_invs (s : State) (c : Nat) (o : Op) : (s.addOp c o).invs = s.invs := rfl
@[simp] theorem addOp_watch (s : State) (c : Nat) (o : Op) : (s.addOp c o).watch = s.watch := rfl
@[simp] theorem addOp_rel (s : State) (c : Nat) (o : Op) : (s.addOp c o).rel = s.rel := rfl
@[simp] theorem addOp_mgmt (s : State) (c : Nat) (o : Op) : (s.addOp c o).mgmt = s.mgmt := rfl
@[simp] theorem addOp_pcie (s : State) (c : Nat) (o : Op) : (s.addOp c o).pcie = s.pcie := rfl

/-! ## post -/

@[simp] theorem post_cores (s : State) (k : Clk) (t : Nat) (e : Instr) : (s.post k t e).cores = s.cores := rfl
@[simp] theorem post_quads (s : State) (k : Clk) (t : Nat) (e : Instr) : (s.post k t e).quads = s.quads := rfl
@[simp] theorem post_ctxs (s : State) (k : Clk) (t : Nat) (e : Instr) : (s.post k t e).ctxs = s.ctxs := rfl
@[simp] theorem post_mem (s : State) (k : Clk) (t : Nat) (e : Instr) : (s.post k t e).mem = s.mem := rfl
@[simp] theorem post_ueLines (s : State) (k : Clk) (t : Nat) (e : Instr) : (s.post k t e).ueLines = s.ueLines := rfl
@[simp] theorem post_poisoned (s : State) (k : Clk) (t : Nat) (e : Instr) : (s.post k t e).poisoned = s.poisoned := rfl
@[simp] theorem post_slices (s : State) (k : Clk) (t : Nat) (e : Instr) : (s.post k t e).slices = s.slices := rfl
@[simp] theorem post_inbound (s : State) (k : Clk) (t : Nat) (e : Instr) : (s.post k t e).inbound = s.inbound := rfl
@[simp] theorem post_posted (s : State) (k : Clk) (t : Nat) (e : Instr) : (s.post k t e).posted = s.posted := rfl
@[simp] theorem post_invs (s : State) (k : Clk) (t : Nat) (e : Instr) : (s.post k t e).invs = s.invs := rfl
@[simp] theorem post_watch (s : State) (k : Clk) (t : Nat) (e : Instr) : (s.post k t e).watch = s.watch := rfl
@[simp] theorem post_rel (s : State) (k : Clk) (t : Nat) (e : Instr) : (s.post k t e).rel = s.rel := rfl
@[simp] theorem post_mgmt (s : State) (k : Clk) (t : Nat) (e : Instr) : (s.post k t e).mgmt = s.mgmt := rfl
@[simp] theorem post_pcie (s : State) (k : Clk) (t : Nat) (e : Instr) : (s.post k t e).pcie = s.pcie := rfl

/-! ## postQ -/

@[simp] theorem postQ_cores (s : State) (c t : Nat) (e : Instr) : (s.postQ c t e).cores = s.cores := rfl
@[simp] theorem postQ_quads (s : State) (c t : Nat) (e : Instr) : (s.postQ c t e).quads = s.quads := rfl
@[simp] theorem postQ_ctxs (s : State) (c t : Nat) (e : Instr) : (s.postQ c t e).ctxs = s.ctxs := rfl
@[simp] theorem postQ_mem (s : State) (c t : Nat) (e : Instr) : (s.postQ c t e).mem = s.mem := rfl
@[simp] theorem postQ_ueLines (s : State) (c t : Nat) (e : Instr) : (s.postQ c t e).ueLines = s.ueLines := rfl
@[simp] theorem postQ_poisoned (s : State) (c t : Nat) (e : Instr) : (s.postQ c t e).poisoned = s.poisoned := rfl
@[simp] theorem postQ_slices (s : State) (c t : Nat) (e : Instr) : (s.postQ c t e).slices = s.slices := rfl
@[simp] theorem postQ_inbound (s : State) (c t : Nat) (e : Instr) : (s.postQ c t e).inbound = s.inbound := rfl
@[simp] theorem postQ_posted (s : State) (c t : Nat) (e : Instr) : (s.postQ c t e).posted = s.posted := rfl
@[simp] theorem postQ_invs (s : State) (c t : Nat) (e : Instr) : (s.postQ c t e).invs = s.invs := rfl
@[simp] theorem postQ_watch (s : State) (c t : Nat) (e : Instr) : (s.postQ c t e).watch = s.watch := rfl
@[simp] theorem postQ_rel (s : State) (c t : Nat) (e : Instr) : (s.postQ c t e).rel = s.rel := rfl
@[simp] theorem postQ_mgmt (s : State) (c t : Nat) (e : Instr) : (s.postQ c t e).mgmt = s.mgmt := rfl
@[simp] theorem postQ_pcie (s : State) (c t : Nat) (e : Instr) : (s.postQ c t e).pcie = s.pcie := rfl

/-! ## postNow -/

@[simp] theorem postNow_cores (s : State) (e : Instr) : (s.postNow e).cores = s.cores := rfl
@[simp] theorem postNow_quads (s : State) (e : Instr) : (s.postNow e).quads = s.quads := rfl
@[simp] theorem postNow_ctxs (s : State) (e : Instr) : (s.postNow e).ctxs = s.ctxs := rfl
@[simp] theorem postNow_mem (s : State) (e : Instr) : (s.postNow e).mem = s.mem := rfl
@[simp] theorem postNow_ueLines (s : State) (e : Instr) : (s.postNow e).ueLines = s.ueLines := rfl
@[simp] theorem postNow_poisoned (s : State) (e : Instr) : (s.postNow e).poisoned = s.poisoned := rfl
@[simp] theorem postNow_slices (s : State) (e : Instr) : (s.postNow e).slices = s.slices := rfl
@[simp] theorem postNow_inbound (s : State) (e : Instr) : (s.postNow e).inbound = s.inbound := rfl
@[simp] theorem postNow_posted (s : State) (e : Instr) : (s.postNow e).posted = s.posted := rfl
@[simp] theorem postNow_invs (s : State) (e : Instr) : (s.postNow e).invs = s.invs := rfl
@[simp] theorem postNow_watch (s : State) (e : Instr) : (s.postNow e).watch = s.watch := rfl
@[simp] theorem postNow_rel (s : State) (e : Instr) : (s.postNow e).rel = s.rel := rfl
@[simp] theorem postNow_mgmt (s : State) (e : Instr) : (s.postNow e).mgmt = s.mgmt := rfl
@[simp] theorem postNow_pcie (s : State) (e : Instr) : (s.postNow e).pcie = s.pcie := rfl

/-! ## emit -/

@[simp] theorem emit_cores (s : State) (o : Output) : (s.emit o).cores = s.cores := rfl
@[simp] theorem emit_quads (s : State) (o : Output) : (s.emit o).quads = s.quads := rfl
@[simp] theorem emit_ctxs (s : State) (o : Output) : (s.emit o).ctxs = s.ctxs := rfl
@[simp] theorem emit_mem (s : State) (o : Output) : (s.emit o).mem = s.mem := rfl
@[simp] theorem emit_ueLines (s : State) (o : Output) : (s.emit o).ueLines = s.ueLines := rfl
@[simp] theorem emit_poisoned (s : State) (o : Output) : (s.emit o).poisoned = s.poisoned := rfl
@[simp] theorem emit_slices (s : State) (o : Output) : (s.emit o).slices = s.slices := rfl
@[simp] theorem emit_inbound (s : State) (o : Output) : (s.emit o).inbound = s.inbound := rfl
@[simp] theorem emit_posted (s : State) (o : Output) : (s.emit o).posted = s.posted := rfl
@[simp] theorem emit_invs (s : State) (o : Output) : (s.emit o).invs = s.invs := rfl
@[simp] theorem emit_watch (s : State) (o : Output) : (s.emit o).watch = s.watch := rfl
@[simp] theorem emit_rel (s : State) (o : Output) : (s.emit o).rel = s.rel := rfl
@[simp] theorem emit_mgmt (s : State) (o : Output) : (s.emit o).mgmt = s.mgmt := rfl
@[simp] theorem emit_pcie (s : State) (o : Output) : (s.emit o).pcie = s.pcie := rfl

/-! ## clearIssue -/

@[simp] theorem clearIssue_cores (s : State) : (s.clearIssue).cores = s.cores := rfl
@[simp] theorem clearIssue_quads (s : State) : (s.clearIssue).quads = s.quads := rfl
@[simp] theorem clearIssue_ctxs (s : State) : (s.clearIssue).ctxs = s.ctxs := rfl
@[simp] theorem clearIssue_mem (s : State) : (s.clearIssue).mem = s.mem := rfl
@[simp] theorem clearIssue_ueLines (s : State) : (s.clearIssue).ueLines = s.ueLines := rfl
@[simp] theorem clearIssue_poisoned (s : State) : (s.clearIssue).poisoned = s.poisoned := rfl
@[simp] theorem clearIssue_slices (s : State) : (s.clearIssue).slices = s.slices := rfl
@[simp] theorem clearIssue_inbound (s : State) : (s.clearIssue).inbound = s.inbound := rfl
@[simp] theorem clearIssue_posted (s : State) : (s.clearIssue).posted = s.posted := rfl
@[simp] theorem clearIssue_invs (s : State) : (s.clearIssue).invs = s.invs := rfl
@[simp] theorem clearIssue_watch (s : State) : (s.clearIssue).watch = s.watch := rfl
@[simp] theorem clearIssue_rel (s : State) : (s.clearIssue).rel = s.rel := rfl
@[simp] theorem clearIssue_mgmt (s : State) : (s.clearIssue).mgmt = s.mgmt := rfl
@[simp] theorem clearIssue_pcie (s : State) : (s.clearIssue).pcie = s.pcie := rfl

/-! ## fresh -/

@[simp] theorem fresh_cores (s : State) : s.fresh.2.cores = s.cores := rfl
@[simp] theorem fresh_quads (s : State) : s.fresh.2.quads = s.quads := rfl
@[simp] theorem fresh_ctxs (s : State) : s.fresh.2.ctxs = s.ctxs := rfl
@[simp] theorem fresh_mem (s : State) : s.fresh.2.mem = s.mem := rfl
@[simp] theorem fresh_ueLines (s : State) : s.fresh.2.ueLines = s.ueLines := rfl
@[simp] theorem fresh_poisoned (s : State) : s.fresh.2.poisoned = s.poisoned := rfl
@[simp] theorem fresh_slices (s : State) : s.fresh.2.slices = s.slices := rfl
@[simp] theorem fresh_inbound (s : State) : s.fresh.2.inbound = s.inbound := rfl
@[simp] theorem fresh_posted (s : State) : s.fresh.2.posted = s.posted := rfl
@[simp] theorem fresh_invs (s : State) : s.fresh.2.invs = s.invs := rfl
@[simp] theorem fresh_watch (s : State) : s.fresh.2.watch = s.watch := rfl
@[simp] theorem fresh_rel (s : State) : s.fresh.2.rel = s.rel := rfl
@[simp] theorem fresh_mgmt (s : State) : s.fresh.2.mgmt = s.mgmt := rfl
@[simp] theorem fresh_pcie (s : State) : s.fresh.2.pcie = s.pcie := rfl

/-! ## freeNat -/

@[simp] theorem freeNat_cores (s : State) : s.freeNat.2.cores = s.cores := rfl
@[simp] theorem freeNat_quads (s : State) : s.freeNat.2.quads = s.quads := rfl
@[simp] theorem freeNat_ctxs (s : State) : s.freeNat.2.ctxs = s.ctxs := rfl
@[simp] theorem freeNat_mem (s : State) : s.freeNat.2.mem = s.mem := rfl
@[simp] theorem freeNat_ueLines (s : State) : s.freeNat.2.ueLines = s.ueLines := rfl
@[simp] theorem freeNat_poisoned (s : State) : s.freeNat.2.poisoned = s.poisoned := rfl
@[simp] theorem freeNat_slices (s : State) : s.freeNat.2.slices = s.slices := rfl
@[simp] theorem freeNat_inbound (s : State) : s.freeNat.2.inbound = s.inbound := rfl
@[simp] theorem freeNat_posted (s : State) : s.freeNat.2.posted = s.posted := rfl
@[simp] theorem freeNat_invs (s : State) : s.freeNat.2.invs = s.invs := rfl
@[simp] theorem freeNat_watch (s : State) : s.freeNat.2.watch = s.watch := rfl
@[simp] theorem freeNat_rel (s : State) : s.freeNat.2.rel = s.rel := rfl
@[simp] theorem freeNat_mgmt (s : State) : s.freeNat.2.mgmt = s.mgmt := rfl
@[simp] theorem freeNat_pcie (s : State) : s.freeNat.2.pcie = s.pcie := rfl

/-! ## freeBits -/

@[simp] theorem freeBits_cores (s : State) : s.freeBits.2.cores = s.cores := rfl
@[simp] theorem freeBits_quads (s : State) : s.freeBits.2.quads = s.quads := rfl
@[simp] theorem freeBits_ctxs (s : State) : s.freeBits.2.ctxs = s.ctxs := rfl
@[simp] theorem freeBits_mem (s : State) : s.freeBits.2.mem = s.mem := rfl
@[simp] theorem freeBits_ueLines (s : State) : s.freeBits.2.ueLines = s.ueLines := rfl
@[simp] theorem freeBits_poisoned (s : State) : s.freeBits.2.poisoned = s.poisoned := rfl
@[simp] theorem freeBits_slices (s : State) : s.freeBits.2.slices = s.slices := rfl
@[simp] theorem freeBits_inbound (s : State) : s.freeBits.2.inbound = s.inbound := rfl
@[simp] theorem freeBits_posted (s : State) : s.freeBits.2.posted = s.posted := rfl
@[simp] theorem freeBits_invs (s : State) : s.freeBits.2.invs = s.invs := rfl
@[simp] theorem freeBits_watch (s : State) : s.freeBits.2.watch = s.watch := rfl
@[simp] theorem freeBits_rel (s : State) : s.freeBits.2.rel = s.rel := rfl
@[simp] theorem freeBits_mgmt (s : State) : s.freeBits.2.mgmt = s.mgmt := rfl
@[simp] theorem freeBits_pcie (s : State) : s.freeBits.2.pcie = s.pcie := rfl

/-! ## What the updates give -/

@[simp] theorem modSch_sch (s : State) (f : Sched → Sched) : (s.modSch f).sch = f s.sch := rfl
@[simp] theorem clearIssue_issue (s : State) : s.clearIssue.sch.issue = none := rfl
@[simp] theorem post_agenda (s : State) (k : Clk) (t : Nat) (e : Instr) :
    (s.post k t e).sch.agenda = s.sch.agenda ++ [⟨k, t, e⟩] := rfl
@[simp] theorem postQ_agenda (s : State) (c t : Nat) (e : Instr) :
    (s.postQ c t e).sch.agenda = s.sch.agenda ++ [⟨.quad (quadOf c), t, e⟩] := rfl
@[simp] theorem emit_outputs (s : State) (o : Output) : (s.emit o).sch.outputs = s.sch.outputs ++ [o] := rfl
@[simp] theorem fresh_id (s : State) : s.fresh.1 = s.sch.ids := rfl

theorem core_setCore (s : State) (c : Nat) (k : Core) (hc : c < 768) : (s.setCore c k).core c = k := by
  simp [State.core, State.setCore, hc]

theorem core_setCore_ne (s : State) (c d : Nat) (k : Core) (h : d ≠ c) : (s.setCore c k).core d = s.core d := by
  simp [State.core, State.setCore, Ne.symm h]

theorem core_modCore (s : State) (c : Nat) (f : Core → Core) (hc : c < 768) : (s.modCore c f).core c = f (s.core c) :=
  core_setCore _ _ _ hc

theorem core_modCore_ne (s : State) (c d : Nat) (f : Core → Core) (h : d ≠ c) : (s.modCore c f).core d = s.core d :=
  core_setCore_ne _ _ _ _ h

theorem ctx_modCtx (s : State) (n : Nat) (f : Ctx → Ctx) (h : n < 16) : (s.modCtx n f).ctx n = f (s.ctx n) := by
  simp [State.ctx, State.modCtx, h]

theorem ctx_modCtx_ne (s : State) (n m : Nat) (f : Ctx → Ctx) (h : m ≠ n) : (s.modCtx n f).ctx m = s.ctx m := by
  simp [State.ctx, State.modCtx, Ne.symm h]

theorem quad_modQuad (s : State) (q : Nat) (f : Quad → Quad) (h : q < 16) : (s.modQuad q f).quad q = f (s.quad q) := by
  simp [State.quad, State.modQuad, h]

theorem quad_modQuad_ne (s : State) (q r : Nat) (f : Quad → Quad) (h : r ≠ q) : (s.modQuad q f).quad r = s.quad r := by
  simp [State.quad, State.modQuad, Ne.symm h]

/-- A group stands on a core of the module, in a slot of it. -/
theorem group_lt {s : State} {c g : Nat} {G : Group} (h : s.group? c g = some G) : c < 768 ∧ g < 32 := by
  refine ⟨?_, ?_⟩
  · by_contra hc
    have : s.core c = Core.reset := by simp [State.core, Vector.getElem?_eq_none (by omega : 768 ≤ c)]
    simp only [State.group?, this, Core.reset, Vector.getElem?_replicate] at h
    split at h <;> simp at h
  · by_contra hg
    simp [State.group?, Vector.getElem?_eq_none (by omega : 32 ≤ g)] at h

theorem group_setGroup {s : State} {c g : Nat} (x : Option Group) (hc : c < 768) (hg : g < 32) :
    (s.setGroup c g x).group? c g = x := by
  simp [State.group?, State.setGroup, core_modCore _ _ _ hc, hg]

theorem group_setGroup_ne {s : State} {c g c' g' : Nat} (x : Option Group) (h : c' ≠ c ∨ g' ≠ g) :
    (s.setGroup c g x).group? c' g' = s.group? c' g' := by
  by_cases hc : c' = c
  · subst hc
    have hg : g' ≠ g := by simpa using h
    by_cases hl : c' < 768
    · simp [State.group?, State.setGroup, core_modCore _ _ _ hl, Ne.symm hg]
    · have e : ∀ t : State, t.core c' = Core.reset := fun t => by simp [State.core, Vector.getElem?_eq_none (by omega : 768 ≤ c')]
      simp [State.group?, e]
  · simp [State.group?, State.setGroup, core_modCore_ne _ _ _ _ hc]

theorem group_modGroup {s : State} {c g : Nat} {G : Group} (f : Group → Group) (h : s.group? c g = some G) :
    (s.modGroup c g f).group? c g = some (f G) := by
  have hl := group_lt h
  simp [State.modGroup, group_setGroup _ hl.1 hl.2, h]

theorem group_modGroup_ne {s : State} {c g c' g' : Nat} (f : Group → Group) (h : c' ≠ c ∨ g' ≠ g) :
    (s.modGroup c g f).group? c' g' = s.group? c' g' := group_setGroup_ne _ h

/-- Updates that touch no core leave every group. -/
theorem group_congr {s t : State} (h : t.cores = s.cores) (c g : Nat) : t.group? c g = s.group? c g := by
  simp [State.group?, State.core, h]

/-- Updates that touch no core leave every core. -/
theorem core_congr {s t : State} (h : t.cores = s.cores) (c : Nat) : t.core c = s.core c := by
  simp [State.core, h]

/-- Updates that touch no context leave every context. -/
theorem ctx_congr {s t : State} (h : t.ctxs = s.ctxs) (n : Nat) : t.ctx n = s.ctx n := by
  simp [State.ctx, h]

/-! ## note -/

@[simp] theorem note_sch (s : State) (hit : Spot → Bool) (value : State → Spot → Word) : (s.note hit value).sch = s.sch := by
  unfold note; split <;> rfl
@[simp] theorem note_cores (s : State) (hit : Spot → Bool) (value : State → Spot → Word) : (s.note hit value).cores = s.cores := by
  unfold note; split <;> rfl
@[simp] theorem note_quads (s : State) (hit : Spot → Bool) (value : State → Spot → Word) : (s.note hit value).quads = s.quads := by
  unfold note; split <;> rfl
@[simp] theorem note_ctxs (s : State) (hit : Spot → Bool) (value : State → Spot → Word) : (s.note hit value).ctxs = s.ctxs := by
  unfold note; split <;> rfl
@[simp] theorem note_mem (s : State) (hit : Spot → Bool) (value : State → Spot → Word) : (s.note hit value).mem = s.mem := by
  unfold note; split <;> rfl
@[simp] theorem note_ueLines (s : State) (hit : Spot → Bool) (value : State → Spot → Word) : (s.note hit value).ueLines = s.ueLines := by
  unfold note; split <;> rfl
@[simp] theorem note_poisoned (s : State) (hit : Spot → Bool) (value : State → Spot → Word) : (s.note hit value).poisoned = s.poisoned := by
  unfold note; split <;> rfl
@[simp] theorem note_slices (s : State) (hit : Spot → Bool) (value : State → Spot → Word) : (s.note hit value).slices = s.slices := by
  unfold note; split <;> rfl
@[simp] theorem note_inbound (s : State) (hit : Spot → Bool) (value : State → Spot → Word) : (s.note hit value).inbound = s.inbound := by
  unfold note; split <;> rfl
@[simp] theorem note_posted (s : State) (hit : Spot → Bool) (value : State → Spot → Word) : (s.note hit value).posted = s.posted := by
  unfold note; split <;> rfl
@[simp] theorem note_invs (s : State) (hit : Spot → Bool) (value : State → Spot → Word) : (s.note hit value).invs = s.invs := by
  unfold note; split <;> rfl
@[simp] theorem note_rel (s : State) (hit : Spot → Bool) (value : State → Spot → Word) : (s.note hit value).rel = s.rel := by
  unfold note; split <;> rfl
@[simp] theorem note_mgmt (s : State) (hit : Spot → Bool) (value : State → Spot → Word) : (s.note hit value).mgmt = s.mgmt := by
  unfold note; split <;> rfl
@[simp] theorem note_pcie (s : State) (hit : Spot → Bool) (value : State → Spot → Word) : (s.note hit value).pcie = s.pcie := by
  unfold note; split <;> rfl

/-! ## setWatch -/

@[simp] theorem setWatch_sch (s : State) (c id : Nat) (p : Option Spot) : (s.setWatch c id p).sch = s.sch := rfl
@[simp] theorem setWatch_cores (s : State) (c id : Nat) (p : Option Spot) : (s.setWatch c id p).cores = s.cores := rfl
@[simp] theorem setWatch_quads (s : State) (c id : Nat) (p : Option Spot) : (s.setWatch c id p).quads = s.quads := rfl
@[simp] theorem setWatch_ctxs (s : State) (c id : Nat) (p : Option Spot) : (s.setWatch c id p).ctxs = s.ctxs := rfl
@[simp] theorem setWatch_mem (s : State) (c id : Nat) (p : Option Spot) : (s.setWatch c id p).mem = s.mem := rfl
@[simp] theorem setWatch_ueLines (s : State) (c id : Nat) (p : Option Spot) : (s.setWatch c id p).ueLines = s.ueLines := rfl
@[simp] theorem setWatch_poisoned (s : State) (c id : Nat) (p : Option Spot) : (s.setWatch c id p).poisoned = s.poisoned := rfl
@[simp] theorem setWatch_slices (s : State) (c id : Nat) (p : Option Spot) : (s.setWatch c id p).slices = s.slices := rfl
@[simp] theorem setWatch_inbound (s : State) (c id : Nat) (p : Option Spot) : (s.setWatch c id p).inbound = s.inbound := rfl
@[simp] theorem setWatch_posted (s : State) (c id : Nat) (p : Option Spot) : (s.setWatch c id p).posted = s.posted := rfl
@[simp] theorem setWatch_invs (s : State) (c id : Nat) (p : Option Spot) : (s.setWatch c id p).invs = s.invs := rfl
@[simp] theorem setWatch_rel (s : State) (c id : Nat) (p : Option Spot) : (s.setWatch c id p).rel = s.rel := rfl
@[simp] theorem setWatch_mgmt (s : State) (c id : Nat) (p : Option Spot) : (s.setWatch c id p).mgmt = s.mgmt := rfl
@[simp] theorem setWatch_pcie (s : State) (c id : Nat) (p : Option Spot) : (s.setWatch c id p).pcie = s.pcie := rfl

end Sys2Proof.Machine.State
end

