-- ==== Sys2Proof/Laws/Issue.lean ====
section
/-! SUPPORT. What the issue of an instruction does, said once: the issuer's fields, the group after an instruction took effect, and what
an instruction that only computes leaves alone. -/

namespace Sys2Proof.Machine

open Sys2Proof

/-! ## The issuer -/

/-- What the issuer of an instruction is. -/
theorem State.issuer_spec {s : State} {h : Hdr} {I : Iss} (hI : s.issuer h = some I) :
    s.sch.issue = some ⟨I.c, I.g, I.sp⟩ ∧ s.group? I.c I.g = some I.G ∧ I.G.splits[I.sp] = some I.S ∧ I.s = s.fresh.2 ∧
      I.id = s.sch.ids ∧ I.t = s.now I.c ∧ I.P = (s.core I.c).passes ∧ I.h = h := by
  unfold State.issuer at hI
  split at hI
  · cases hI
  · split at hI
    · cases hI
    · split at hI
      · cases hI
      · cases hI
        exact ⟨‹_›, ‹_›, ‹_›, rfl, rfl, rfl, rfl, rfl⟩

/-- An instruction that may issue ends as its body says. -/
theorem issue_ready {s : State} {h : Hdr} {u : Use} {I : Iss} (hr : Ready s h u I) (body : Iss → Res) :
    issue h u s body = .next (I.finish (body I)) := by
  simp [issue, hr.issuer, Iss.outcome, hr.clear, hr.unmarked, hr.sound, Iss.markedGuard, Res.orUeIf]

/-! ## The group after an instruction took effect -/

theorem Group.Kept.refl (f : Option (Fin 12)) (G : Group) : G.Kept f G := ⟨rfl, fun _ _ => rfl⟩

theorem Group.Kept.trans {f : Option (Fin 12)} {G H K : Group} (a : G.Kept f H) (b : H.Kept f K) : G.Kept f K := by
  refine ⟨?_, fun i hi => (b.flags i hi).trans (a.flags i hi)⟩
  have h := b.same
  rw [a.same] at h
  exact h

theorem Group.kept_claimFlag (G : Group) (f : Option (Fin 12)) (id : Nat) : G.Kept f (G.claimFlag f id) := by
  cases f with
  | none => exact .refl ..
  | some f =>
    refine ⟨rfl, fun i hi => ?_⟩
    have : f.val ≠ i.val := fun h => hi (by rw [Fin.ext h])
    simp [Group.claimFlag, GRegs.flag, this]

theorem Group.kept_raiseFlag (G : Group) (f : Option (Fin 12)) (id since : Nat) : G.Kept f (G.raiseFlag f id since) := by
  cases f with
  | none => exact .refl ..
  | some f =>
    simp only [Group.raiseFlag]
    split
    · refine ⟨rfl, fun i hi => ?_⟩
      have : f.val ≠ i.val := fun h => hi (by rw [Fin.ext h])
      simp [GRegs.flag, this]
    · exact .refl ..

@[simp] theorem Group.claimFlag_splits (G : Group) (f : Option (Fin 12)) (id : Nat) : (G.claimFlag f id).splits = G.splits := by
  cases f <;> rfl

@[simp] theorem Group.claimFlag_pend (G : Group) (f : Option (Fin 12)) (id : Nat) : (G.claimFlag f id).pend = G.pend := by
  cases f <;> rfl

@[simp] theorem Group.raiseFlag_splits (G : Group) (f : Option (Fin 12)) (id n : Nat) : (G.raiseFlag f id n).splits = G.splits := by
  cases f with
  | none => rfl
  | some f => simp only [Group.raiseFlag]; split <;> rfl

@[simp] theorem Group.raiseFlag_pend (G : Group) (f : Option (Fin 12)) (id n : Nat) : (G.raiseFlag f id n).pend = G.pend := by
  cases f with
  | none => rfl
  | some f => simp only [Group.raiseFlag]; split <;> rfl

theorem Group.modSplit_self {G : Group} {sp : Fin 4} {S : Split} (f : Split → Split) (h : G.splits[sp] = some S) :
    (G.modSplit sp f).splits[sp] = some (f S) := by
  have h' : G.splits[sp.val] = some S := h
  simp [Group.modSplit, h']

theorem Iss.kept_moved (I : Iss) (e : Eff) (G : Group) : G.Kept I.h.setf (I.moved e G) :=
  (Group.kept_claimFlag G I.h.setf I.id).trans (⟨rfl, fun _ _ => rfl⟩)

theorem Iss.moved_split {I : Iss} {e : Eff} {G : Group} {S : Split} (h : G.splits[I.sp] = some S) :
    (I.moved e G).splits[I.sp] = some (I.goOn e S) := Group.modSplit_self _ (by simpa using h)

@[simp] theorem Iss.moved_pend (I : Iss) (e : Eff) (G : Group) : (I.moved e G).pend = G.pend := by
  simp [Iss.moved, Group.modSplit]

/-- Results go into flight; nothing else of the group but its flag changes. -/
theorem Iss.sent_spec (I : Iss) (e : Eff) (G : Group) :
    G.Kept I.h.setf (I.sent e G) ∧ (I.sent e G).splits = G.splits ∧ ∀ p ∈ G.pend, p ∈ (I.sent e G).pend := by
  unfold Iss.sent
  cases e.comp with
  | short q => dsimp only; split <;> exact ⟨⟨rfl, fun _ _ => rfl⟩, rfl, by simp_all [Group.fly]⟩
  | long lam => dsimp only; split <;> exact ⟨⟨rfl, fun _ _ => rfl⟩, rfl, by simp_all [Group.fly]⟩
  | early lam cyc =>
    dsimp only
    split
    · exact ⟨Group.kept_raiseFlag .., by simp, by simp⟩
    · exact ⟨(Group.kept_raiseFlag G I.h.setf I.id _).trans (⟨rfl, fun _ _ => rfl⟩), by simp [Group.fly],
        by simp_all [Group.fly]⟩
  | flag cyc => exact ⟨Group.kept_raiseFlag .., by simp, by simp⟩
  | later r => dsimp only; split <;> exact ⟨⟨rfl, fun _ _ => rfl⟩, rfl, by simp_all [Group.fly]⟩

/-- Merging splits changes neither registers nor special registers. -/
theorem Group.kept_mergeAt (f : Option (Fin 12)) (G : Group) (sp : Fin 4) (now P : Nat) : G.Kept f (G.mergeAt sp now P) := by
  unfold Group.mergeAt
  split
  · exact .refl ..
  · dsimp only
    split
    · exact .refl ..
    · exact ⟨rfl, fun _ _ => rfl⟩

theorem Group.kept_endRun (f : Option (Fin 12)) (G : Group) (sp : Fin 4) (w : BitVec 12) (now P : Nat) :
    G.Kept f (G.endRun sp w now P) := by
  refine Group.Kept.trans ?_ (Group.kept_mergeAt ..)
  exact ⟨rfl, fun _ _ => rfl⟩

theorem Group.kept_emptied (f : Option (Fin 12)) (G : Group) (sp : Fin 4) : G.Kept f (G.emptied sp) := by
  unfold Group.emptied
  split
  · exact .refl ..
  · split
    · exact .refl ..
    · split <;> exact ⟨rfl, fun _ _ => rfl⟩

/-- What becomes of the split changes no register. -/
theorem Group.kept_flow (x : Option (Fin 12)) (G : Group) (sp : Fin 4) (f : Flow) (now P : Nat) :
    G.Kept x (G.flow sp f now P) := by
  cases f with
  | next => exact .refl ..
  | jump pc from_ => refine Group.Kept.trans ?_ (Group.kept_endRun ..); exact ⟨rfl, fun _ _ => rfl⟩
  | fork e pc taken =>
    simp only [Group.flow]
    split
    · exact .refl ..
    · refine Group.Kept.trans ?_ (Group.kept_mergeAt ..); exact ⟨rfl, fun _ _ => rfl⟩
  | defer pc taken => refine Group.Kept.trans ?_ (Group.kept_endRun ..); exact ⟨rfl, fun _ _ => rfl⟩
  | trail wait => exact Group.kept_endRun ..
  | retire r =>
    refine Group.Kept.trans ?_ (Group.kept_mergeAt ..)
    refine Group.Kept.trans ?_ (Group.kept_emptied ..)
    exact ⟨rfl, fun _ _ => rfl⟩

/-- Raising the flags of trailers changes flags alone. -/
theorem Group.settle_fold (l : List TrailWait) (now : Nat) (G : Group) :
    let H := l.foldl (fun G t => G.raiseFlag (some t.flag) t.owner now) G
    H = { G with regs := { G.regs with flags := H.regs.flags } } ∧
      ∀ i, (∀ t ∈ l, t.flag ≠ i) → H.regs.flag i = G.regs.flag i := by
  induction l generalizing G with
  | nil => exact ⟨rfl, fun _ _ => rfl⟩
  | cons t l ih =>
    obtain ⟨h1, h5⟩ := ih (G.raiseFlag (some t.flag) t.owner now)
    have hr := Group.kept_raiseFlag G (some t.flag) t.owner now
    have he : G.raiseFlag (some t.flag) t.owner now =
        { G with regs := { G.regs with flags := (G.raiseFlag (some t.flag) t.owner now).regs.flags } } := by
      simp only [Group.raiseFlag]; split <;> rfl
    refine ⟨?_, fun i hi => ?_⟩
    · simp only [List.foldl_cons]
      generalize hH : l.foldl (fun G t => G.raiseFlag (some t.flag) t.owner now) (G.raiseFlag (some t.flag) t.owner now) = H at h1 ⊢
      rw [he] at h1
      exact h1
    · refine (h5 i fun u hu => hi u (by simp [hu])).trans (hr.flags i ?_)
      intro hc
      exact hi t (by simp) (by simpa using hc)

/-- An instruction that stays in its run. -/
theorem Iss.group_next {I : Iss} {e : Eff} (hf : e.flow = .next) (G : Group) : I.group e G = I.sent e (I.moved e G) := by
  simp [Iss.group, Iss.trailed, hf, Group.flow]

/-- Whatever becomes of the split, but for a trailer's flag. -/
theorem Iss.kept_group {I : Iss} {e : Eff} (G : Group) (h : (∃ w, e.flow = .trail w) → I.h.setf = none) :
    G.Kept I.h.setf (I.group e G) := by
  have h2 := I.sent_spec e (I.moved e G)
  refine (((I.kept_moved e G).trans h2.1).trans (Group.kept_flow I.h.setf _ I.sp e.flow I.t I.P)).trans ?_
  unfold Iss.group Iss.trailed
  split
  · rename_i w f h3 h4
    rw [h ⟨w, h3⟩] at h4
    cases h4
  · exact .refl ..

theorem Iss.group_next_split {I : Iss} {e : Eff} {G : Group} {S : Split} (hf : e.flow = .next) (h : G.splits[I.sp] = some S) :
    (I.group e G).splits[I.sp] = some (I.goOn e S) := by
  rw [Iss.group_next hf]
  have := I.moved_split (e := e) h
  simpa [(I.sent_spec e (I.moved e G)).2.1] using this

/-! ## What an effect does at once -/

@[simp] theorem State.clearIssue_core (s : State) (c : Nat) : s.clearIssue.core c = s.core c := rfl

@[simp] theorem State.clearIssue_group (s : State) (c g : Nat) : s.clearIssue.group? c g = s.group? c g := rfl

/-- Putting events on the agenda changes nothing else. -/
theorem Iss.agenda_spec (I : Iss) (e : Eff) (s : State) :
    ∃ l, I.agenda e s = s.modSch fun h => { h with agenda := h.agenda ++ l } := by
  unfold Iss.agenda
  split
  · exact ⟨[], by simp [State.modSch]⟩
  · split
    · exact ⟨_, rfl⟩
    · exact ⟨_, rfl⟩
    · split
      · exact ⟨[], by simp [State.modSch]⟩
      · exact ⟨_, rfl⟩
    · exact ⟨[], by simp [State.modSch]⟩

/-- Ending a full run is an event to come. -/
theorem Iss.limit_spec (I : Iss) (s : State) : ∃ l, I.limit s = s.modSch fun h => { h with agenda := h.agenda ++ l } := by
  have h0 : s = s.modSch fun h => { h with agenda := h.agenda ++ [] } := by simp [State.modSch]
  unfold Iss.limit
  split
  · split
    · exact ⟨_, rfl⟩
    · exact ⟨[], h0⟩
  · exact ⟨[], h0⟩

theorem Iss.commit_plain {I : Iss} {e : Eff} {s : State} (hf : ∀ r, e.flow ≠ .retire r) (ha : e.after = none)
    (hs : e.serviced = none) : I.commit s e = I.limit (I.took s e) := by
  have h : ∀ t, I.ended t e = t := by
    intro t
    unfold Iss.ended
    split
    · rename_i r h; exact absurd h (hf r)
    · rfl
  simp [Iss.commit, h, Iss.faults, ha, hs]

/-- The fields of the state right after an effect took place. -/
theorem Iss.took_group {I : Iss} {s : State} {e : Eff} {G : Group} (h : s.group? I.c I.g = some G) :
    (I.took s e).group? I.c I.g = some (I.group e G) := by
  have hl := State.group_lt h
  obtain ⟨l, hl'⟩ := I.agenda_spec e (s.clearIssue.modGroup I.c I.g (I.group e))
  have h1 := State.group_modGroup (s := s.clearIssue) (I.group e) h
  simp only [Iss.took, hl', State.group?, State.core_modCore _ _ _ hl.1] at h1 ⊢
  exact h1

/-- The event of a landing is on the agenda after an effect that has results or a flag. -/
theorem Iss.took_agenda {I : Iss} {s : State} {e : Eff} {due : Nat} (hq : ¬(e.ws = [] ∧ I.h.setf = none))
    (hc : e.comp = .long due ∨ ∃ q, e.comp = .short q ∧ due = I.last e + 1 + q) :
    (⟨.quad (quadOf I.c), due, .resultLanding I.c I.g I.id⟩ : Due) ∈ (I.took s e).sch.agenda := by
  have hq' : (e.ws.isEmpty && I.h.setf.isNone) = false := by
    cases he : e.ws <;> cases hh : I.h.setf <;> simp_all
  rcases hc with hc | ⟨q, hc, rfl⟩
  · simp [Iss.took, Iss.agenda, hq', hc, State.modCore, State.setCore, State.postQ, State.post, State.modSch]
  · simp [Iss.took, Iss.agenda, hq', hc, State.modCore, State.setCore, State.postQ, State.post, State.modSch]

/-- An effect without a fault leaves everything alone but its split, its flag, its unit and what is in flight. -/
theorem Iss.commit_alone {I : Iss} {s' : State} {G : Group} {e : Eff} (hg : s'.group? I.c I.g = some G) (hf : ∀ r, e.flow ≠ .retire r)
    (ht : (∃ w, e.flow = .trail w) → I.h.setf = none) (ha : e.after = none) (hs : e.serviced = none) :
    (I.commit s' e).sch.issue = none ∧ I.Alone s' (I.commit s' e) ∧ I.groupIn (I.commit s' e) = some (I.group e G) := by
  rw [Iss.commit_plain hf ha hs]
  obtain ⟨l, hl⟩ := I.limit_spec (I.took s' e)
  obtain ⟨l', hl'⟩ := I.agenda_spec e (s'.clearIssue.modGroup I.c I.g (I.group e))
  have hlt := State.group_lt hg
  have hG : I.groupIn (I.limit (I.took s' e)) = some (I.group e G) := by
    rw [hl]; exact Iss.took_group hg
  have hcore : (I.limit (I.took s' e)).core I.c =
      { (((s'.clearIssue.modGroup I.c I.g (I.group e)).core I.c).pay e.charge) with
        units := ((s'.clearIssue.modGroup I.c I.g (I.group e)).core I.c).units.hold e.unit (I.last e + 1) } := by
    rw [hl]
    simp only [Iss.took, hl', State.modSch]
    rw [show ∀ x : State, ({ x with sch := { x.sch with agenda := x.sch.agenda ++ l } } : State).core I.c = x.core I.c from
      fun _ => rfl, State.core_modCore _ _ _ hlt.1]
    rfl
  have hcs : (s'.clearIssue.modGroup I.c I.g (I.group e)).core I.c =
      { s'.core I.c with groups := (s'.core I.c).groups.setIfInBounds I.g (some (I.group e G)) } := by
    rw [State.modGroup, State.setGroup, State.core_modCore _ _ _ hlt.1, State.clearIssue_core, State.clearIssue_group, hg]
    rfl
  refine ⟨?_, ⟨?_, ⟨l' ++ l, ?_⟩, ?_, ?_, ?_, G, I.group e G, hg, hG, Iss.kept_group G ht⟩, hG⟩
  · rw [hl]; simp only [Iss.took, hl']; rfl
  · rw [hl]; simp only [Iss.took, hl']; rfl
  · rw [hl]; simp only [Iss.took, hl', ← List.append_assoc]; rfl
  · intro c hc
    rw [hl]
    simp only [Iss.took, hl', State.modSch]
    rw [show ∀ x : State, ({ x with sch := { x.sch with agenda := x.sch.agenda ++ l } } : State).core c = x.core c from
      fun _ => rfl, State.core_modCore_ne _ _ _ _ hc,
      show ∀ x : State, ({ x with sch := { x.sch with agenda := x.sch.agenda ++ l' } } : State).core c = x.core c from fun _ => rfl,
      State.modGroup, State.setGroup, State.core_modCore_ne _ _ _ _ hc]
    rfl
  · rw [hcore, hcs]; rfl
  · intro g hgne
    simp only [State.group?, hcore, hcs]
    simp [Core.pay, Ne.symm hgne]

/-- An effect that stays in its run. -/
theorem Iss.commit_next {I : Iss} {s' : State} {G : Group} {e : Eff} (hg : s'.group? I.c I.g = some G) (hsp : G.splits = I.G.splits)
    (hS : I.G.splits[I.sp] = some I.S) (hf : e.flow = .next) (ha : e.after = none) (hs : e.serviced = none) :
    I.At (I.commit s' e) (I.S.pc + 1) ∧ I.Still s' (I.commit s' e) ∧ I.Alone s' (I.commit s' e) ∧
      I.groupIn (I.commit s' e) = some (I.group e G) := by
  obtain ⟨h1, h2, h3⟩ := Iss.commit_alone hg (by simp [hf]) (by simp [hf]) ha hs
  rw [← hsp] at hS
  refine ⟨⟨h1, _, I.goOn e I.S, h3, Iss.group_next_split hf hS, rfl, rfl, rfl, rfl, ?_⟩, ⟨G, _, hg, h3, ?_⟩, h2, h3⟩
  · intro j hj
    have hj' : I.sp.val ≠ j.val := fun h => hj (Fin.ext h.symm)
    rw [Iss.group_next hf, (I.sent_spec e (I.moved e G)).2.1, ← hsp]
    simp [Iss.moved, Group.modSplit, hj']
  · rw [Iss.group_next hf]
    have hm : ∀ K : Group, (I.sent e K).guesses = K.guesses ∧ (I.sent e K).trails = K.trails ∧ (I.sent e K).cur = K.cur ∧
        (I.sent e K).holdUntil = K.holdUntil ∧ (I.sent e K).ending = K.ending := by
      intro K
      have hr : ∀ (K : Group) f n m, (K.raiseFlag f n m).guesses = K.guesses ∧ (K.raiseFlag f n m).trails = K.trails ∧
          (K.raiseFlag f n m).cur = K.cur ∧ (K.raiseFlag f n m).holdUntil = K.holdUntil ∧ (K.raiseFlag f n m).ending = K.ending := by
        intro K f n m
        cases f with
        | none => exact ⟨rfl, rfl, rfl, rfl, rfl⟩
        | some f => simp only [Group.raiseFlag]; split <;> exact ⟨rfl, rfl, rfl, rfl, rfl⟩
      unfold Iss.sent
      cases e.comp <;> dsimp only <;> (try split) <;> simp [Group.fly, hr]
    obtain ⟨m1, m2, m3, m4, m5⟩ := hm (I.moved e G)
    have hc : ∀ f n, (G.claimFlag f n).guesses = G.guesses ∧ (G.claimFlag f n).trails = G.trails ∧ (G.claimFlag f n).cur = G.cur ∧
        (G.claimFlag f n).holdUntil = G.holdUntil ∧ (G.claimFlag f n).ending = G.ending := by
      intro f n; cases f <;> exact ⟨rfl, rfl, rfl, rfl, rfl⟩
    obtain ⟨c1, c2, c3, c4, c5⟩ := hc I.h.setf I.id
    exact ⟨m1.trans c1, m2.trans c2, m3.trans c3, m4.trans c4, m5.trans c5⟩

/-- An instruction that takes effect on a state that holds what it did besides, and stays in its run. -/
theorem acts_of {i : Instr} {s : State} {h : Hdr} {u : Use} {I : Iss} {body : Iss → Res} {s' : State} {G : Group} {e : Eff}
    {P : State → Prop} (hr : Ready s h u I) (hi : exec i s = issue h u s body) (hb : body I = .done s' e)
    (hg : s'.group? I.c I.g = some G) (hsp : G.splits = I.G.splits) (hf : e.flow = .next) (ha : e.after = none) (hs : e.serviced = none)
    (hP : P (I.commit s' e)) : Acts i s I s' P := by
  obtain ⟨-, -, hS, -⟩ := State.issuer_spec hr.issuer
  obtain ⟨h1, h2, h3, -⟩ := Iss.commit_next hg hsp hS hf ha hs
  exact ⟨_, by rw [hi, issue_ready hr, hb]; rfl, h1, h2, h3, hP⟩

/-- Where the group of an issue stands. -/
theorem Iss.group_at {s : State} {h : Hdr} {I : Iss} (hI : s.issuer h = some I) : I.s.group? I.c I.g = some I.G := by
  obtain ⟨-, hg, -, hs', -⟩ := State.issuer_spec hI
  rw [hs']; exact hg

/-- Drawing a number changes nothing else. -/
theorem Iss.alone_fresh {s t : State} {h : Hdr} {I : Iss} (hI : s.issuer h = some I) (ha : I.Alone I.s t) : I.Alone s t := by
  obtain ⟨-, -, -, hs', -⟩ := State.issuer_spec hI
  rw [hs'] at ha
  exact ⟨ha.rest, ha.sch, ha.cores, ha.core, ha.groups, ha.group⟩

/-- An effect with results, of the short class (R62) or the long (R63), that stays in its run. -/
theorem acts_flies {i : Instr} {s : State} {h : Hdr} {u : Use} {I : Iss} {body : Iss → Res} {s' : State} {G : Group} {e : Eff} {due : Nat}
    (hr : Ready s h u I) (hi : exec i s = issue h u s body) (hb : body I = .done s' e) (hg : s'.group? I.c I.g = some G)
    (hsp : G.splits = I.G.splits) (hc : e.comp = .long due ∨ ∃ q, e.comp = .short q ∧ due = I.last e + 1 + q)
    (hf : e.flow = .next) (ha : e.after = none) (hs : e.serviced = none) : Acts i s I s' (I.Flies · due e.ws) := by
  refine acts_of hr hi hb hg hsp hf ha hs ?_
  obtain ⟨-, -, hG⟩ := Iss.commit_alone (I := I) hg (e := e) (by simp [hf]) (by simp [hf]) ha hs
  by_cases hq : e.ws = [] ∧ I.h.setf = none
  · exact .inl hq
  · have hq' : (e.ws.isEmpty && I.h.setf.isNone) = false := by
      cases he : e.ws <;> cases hh : I.h.setf <;> simp_all
    have hag : (⟨.quad (quadOf I.c), due, .resultLanding I.c I.g I.id⟩ : Due) ∈ (I.commit s' e).sch.agenda := by
      rw [Iss.commit_plain (by simp [hf]) ha hs]
      obtain ⟨l, hl⟩ := I.limit_spec (I.took s' e)
      rw [hl]
      exact List.mem_append_left _ (Iss.took_agenda hq hc)
    rcases hc with hc | ⟨q, hc, rfl⟩
    · refine .inr ⟨_, ⟨I.id, due, e.ws, I.h.setf, due + 1, e.claims⟩, hG, ?_, rfl, rfl, rfl, rfl, hag⟩
      rw [Iss.group_next hf]
      simp [Iss.sent, hc, hq', Group.fly]
    · refine .inr ⟨_, ⟨I.id, I.last e + 1 + q, e.ws, I.h.setf, I.last e + 2 + q, []⟩, hG, ?_, rfl, rfl, rfl, rfl, hag⟩
      rw [Iss.group_next hf]
      simp [Iss.sent, hc, hq', Group.fly]

/-- What the state with the number drawn leaves alone, the state before it leaves alone. -/
theorem acts_fresh {i : Instr} {s : State} {h : Hdr} {I : Iss} {P : State → Prop} (hI : s.issuer h = some I) (ha : Acts i s I I.s P) :
    Acts i s I s P := by
  obtain ⟨t, h1, h2, h3, h4, h5⟩ := ha
  obtain ⟨-, -, -, hs', -⟩ := State.issuer_spec hI
  exact ⟨t, h1, h2, by rw [hs'] at h3; exact h3, Iss.alone_fresh hI h4, h5⟩

/-- An instruction that only computes. -/
theorem computes_of {i : Instr} {s : State} {h : Hdr} {u : Use} {I : Iss} {body : Iss → Res} {e : Eff} {due : Nat}
    (hr : Ready s h u I) (hi : exec i s = issue h u s body) (hb : body I = I.ok e)
    (hc : e.comp = .long due ∨ ∃ q, e.comp = .short q ∧ due = I.last e + 1 + q) (hf : e.flow = .next)
    (ha : e.after = none) (hs : e.serviced = none) : Computes i s I due e.ws :=
  acts_fresh hr.issuer (acts_flies hr hi hb (Iss.group_at hr.issuer) rfl hc hf ha hs)

/-! ## Flags -/

/-- The flag an instruction names, right after its issue, when only its issue sets it (R64). -/
theorem Iss.group_flag {I : Iss} {e : Eff} {G : Group} {f : Fin 12} {cyc : Nat} (hc : e.comp = .flag cyc) (hn : ∀ w, e.flow ≠ .trail w)
    (hf : I.h.setf = some f) : (I.group e G).regs.flag f = ⟨true, cyc + 1, I.id⟩ := by
  have h1 : I.group e G = (I.sent e (I.moved e G)).flow I.sp e.flow I.t I.P := by
    unfold Iss.group Iss.trailed
    split
    · rename_i w g h _; exact absurd h (hn w)
    · rfl
  rw [h1, (Group.kept_flow none _ I.sp e.flow I.t I.P).flags f (by simp)]
  simp [Iss.sent, hc, Iss.moved, hf, Group.raiseFlag, Group.claimFlag, Group.modSplit, GRegs.flag]

/-- The flag an instruction names, right after its issue, when an operation sets it later. -/
theorem Iss.group_later {I : Iss} {e : Eff} {G : Group} {f : Fin 12} {r : Bool} (hc : e.comp = .later r) (hn : ∀ w, e.flow ≠ .trail w)
    (hf : I.h.setf = some f) : (I.group e G).regs.flag f = ⟨false, 0, I.id⟩ := by
  have h1 : I.group e G = (I.sent e (I.moved e G)).flow I.sp e.flow I.t I.P := by
    unfold Iss.group Iss.trailed
    split
    · rename_i w g h _; exact absurd h (hn w)
    · rfl
  rw [h1, (Group.kept_flow none _ I.sp e.flow I.t I.P).flags f (by simp)]
  simp only [Iss.sent, hc]
  split <;> simp [Iss.moved, hf, Group.claimFlag, Group.modSplit, GRegs.flag, Group.fly]

/-- An instruction whose flag its issue sets. -/
theorem acts_flag {i : Instr} {s : State} {h : Hdr} {u : Use} {I : Iss} {body : Iss → Res} {s' : State} {G : Group} {e : Eff} {cyc : Nat}
    (hr : Ready s h u I) (hi : exec i s = issue h u s body) (hb : body I = .done s' e) (hg : s'.group? I.c I.g = some G)
    (hsp : G.splits = I.G.splits) (hf : e.flow = .next) (ha : e.after = none) (hs : e.serviced = none) (hc : e.comp = .flag cyc) :
    Acts i s I s' (I.Flags · (cyc + 1)) := by
  refine acts_of hr hi hb hg hsp hf ha hs fun f hset => ?_
  obtain ⟨-, -, hG⟩ := Iss.commit_alone (I := I) hg (e := e) (by simp [hf]) (by simp [hf]) ha hs
  exact ⟨_, hG, by rw [Iss.group_flag hc (by simp [hf]) hset], by rw [Iss.group_flag hc (by simp [hf]) hset]⟩

/-- An instruction whose flag an operation sets. -/
theorem acts_later {i : Instr} {s : State} {h : Hdr} {u : Use} {I : Iss} {body : Iss → Res} {s' : State} {G : Group} {e : Eff} {r : Bool}
    (hr : Ready s h u I) (hi : exec i s = issue h u s body) (hb : body I = .done s' e) (hg : s'.group? I.c I.g = some G)
    (hsp : G.splits = I.G.splits) (hf : e.flow = .next) (ha : e.after = none) (hs : e.serviced = none) (hc : e.comp = .later r) :
    Acts i s I s' I.Unset := by
  refine acts_of hr hi hb hg hsp hf ha hs fun f hset => ?_
  obtain ⟨-, -, hG⟩ := Iss.commit_alone (I := I) hg (e := e) (by simp [hf]) (by simp [hf]) ha hs
  exact ⟨_, hG, by rw [Iss.group_later hc (by simp [hf]) hset], by rw [Iss.group_later hc (by simp [hf]) hset]⟩

/-- A scalar instruction with a scalar result. -/
theorem scalarResult_of {i : Instr} {s : State} {h : Hdr} {u : Use} {I : Iss} {body : Iss → Res} {occ : Nat} {d : Opnd} {e : Elem}
    (hr : Ready s h u I) (hi : exec i s = issue h u s body) (hb : body I = I.scalarOp occ d e) (h0 : 0 < occ) :
    ScalarResult i s I occ d e := by
  unfold ScalarResult
  split
  · rename_i hx
    rw [Stops, hi, issue_ready hr, hb]
    simp [Iss.scalarOp, Iss.xmFault, hx.1, hx.2.1, hx.2.2.1, hx.2.2.2, Iss.finish, Iss.halt]
  · rename_i hx
    have key : ∃ f : Eff, body I = I.ok f ∧ f.comp = .short 0 ∧ f.flow = .next ∧ f.after = none ∧ f.serviced = none ∧
        f.occ = occ ∧ f.ws = I.guarded (I.wscal d e) := by
      rw [hb]
      unfold Iss.scalarOp
      cases hq : I.qok with
      | false => exact ⟨_, rfl, rfl, rfl, rfl, rfl, rfl, by simp [Iss.guarded, hq]⟩
      | true =>
        have : I.xmFault d e.k = none := by
          unfold Iss.xmFault
          cases hk : e.k <;> cases hd : Iss.isXm d <;> cases hu : I.uses 0 <;> simp_all
        simp only [this]
        exact ⟨_, rfl, rfl, rfl, rfl, rfl, rfl, by simp [Iss.guarded, hq]⟩
    obtain ⟨f, h1, h2, h3, h4, h5, h6, h7⟩ := key
    have := computes_of hr hi h1 (.inr ⟨0, h2, rfl⟩) h3 h4 h5
    have e1 : I.last f + 1 + 0 = I.t + occ := by simp [Iss.last, h6]; omega
    rwa [e1, h7] at this

/-- A vector instruction of the short class. -/
theorem vectorResult_of {i : Instr} {s : State} {h : Hdr} {u v : Use} {I : Iss} {body : Iss → Res} {q ch : Nat} {d : Opnd} {x : VReg}
    (hr : Ready s h u I) (hi : exec i s = issue h u s body) (hb : body I = I.vectorOp q ch d x v) (hP : 0 < I.P) :
    VectorResult i s I q d x := by
  have := computes_of hr hi hb (.inr ⟨q, rfl, rfl⟩) rfl rfl rfl
  have e1 : I.last { ws := Iss.wvec d I.active x, comp := .short q, occ := I.P, unit := .vec, charge := ch * I.P, lset := v.lSet } + 1 + q =
      I.t + I.P + q := by
    simp only [Iss.last]; omega
  rw [e1] at this
  exact this

/-- A vector instruction of the long class. -/
theorem longResult_of {i : Instr} {s : State} {h : Hdr} {u : Use} {I : Iss} {body : Iss → Res} {lat ch : Nat} {ws : List RegWrite}
    (hr : Ready s h u I) (hi : exec i s = issue h u s body) (hb : body I = I.vectorLong lat ch ws) : LongResult i s I lat ws :=
  computes_of hr hi hb (.inl rfl) rfl rfl rfl

/-- A group takes at least one pass (R16). -/
theorem Iss.passes_pos {s : State} {h : Hdr} {I : Iss} (hI : s.issuer h = some I) : 0 < I.P := by
  obtain ⟨-, -, -, -, -, -, hP, -⟩ := State.issuer_spec hI
  rw [hP, Core.passes]
  have : (s.core I.c).good ≤ 32 := by
    simp only [Core.good, popc]
    exact (List.countP_le_length).trans (by simp)
  apply Nat.div_pos <;> omega

end Sys2Proof.Machine
end

