-- ==== Sys2Proof/Laws/Memory.lean ====
section
/-! SUPPORT. Sparse memory: every operation keeps the canonical form, a read after a write gives what was written, a write leaves every
other byte alone, and memories of one form that read alike are equal; what a flush leaves in an L1. -/

namespace Sys2Proof.Machine.Memory

open Sys2Proof

/-! ## The canonical form -/

theorem wfFrom_mono {m : Memory} {lo lo' : Nat} (h : lo' ≤ lo) (hm : m.wfFrom lo = true) : m.wfFrom lo' = true := by
  cases m with
  | nil => rfl
  | cons c m =>
    obtain ⟨k, b⟩ := c
    simp only [wfFrom, Bool.and_eq_true, decide_eq_true_eq] at hm ⊢
    exact ⟨⟨by omega, hm.1.2⟩, hm.2⟩

theorem write_wfFrom {m : Memory} {lo a : Nat} (x : Byte) (ha : lo ≤ a) (hm : m.wfFrom lo = true) : (m.write a x).wfFrom lo = true := by
  induction m generalizing lo with
  | nil =>
    unfold write
    split
    · rfl
    · rename_i h; simp [wfFrom, ha, h]
  | cons c m ih =>
    obtain ⟨k, b⟩ := c
    simp only [wfFrom, Bool.and_eq_true, decide_eq_true_eq] at hm
    unfold write
    split
    · rename_i hk
      split
      · simp [wfFrom, hm.1.1, hm.1.2, hm.2]
      · rename_i h; simp [wfFrom, ha, h, hm.1.2, hm.2, Nat.succ_le_of_lt hk]
    · rename_i hk
      split
      · rename_i he
        subst he
        split
        · exact wfFrom_mono (by omega) hm.2
        · rename_i h; simp [wfFrom, ha, h, hm.2]
      · simp only [wfFrom, Bool.and_eq_true, decide_eq_true_eq]
        exact ⟨hm.1, ih (by omega) hm.2⟩

/-- A byte stored keeps the form. -/
theorem write_wf {m : Memory} (a : Nat) (x : Byte) (hm : m.wf = true) : (m.write a x).wf = true := write_wfFrom x (Nat.zero_le a) hm

/-- Bytes stored keep the form. -/
theorem writeBytes_wf {m : Memory} (a : Nat) (bs : List Byte) (hm : m.wf = true) : (m.writeBytes a bs).wf = true := by
  induction bs generalizing m a with
  | nil => exact hm
  | cons b bs ih => exact ih (a + 1) (write_wf a b hm)

/-- A number stored keeps the form. -/
theorem writeNat_wf {m : Memory} (a n x : Nat) (hm : m.wf = true) : (m.writeNat a n x).wf = true := writeBytes_wf a _ hm

/-- A word stored keeps the form. -/
theorem writeWord_wf {m : Memory} (a : Nat) (x : Word) (hm : m.wf = true) : (m.writeWord a x).wf = true := writeNat_wf a 4 _ hm

/-- Bytes stored one by one keep the form. -/
theorem foldl_write_wf (xs : List (Nat × Byte)) {m : Memory} (hm : m.wf = true) :
    (xs.foldl (fun (m : Memory) x => m.write x.1 x.2) m).wf = true := by
  induction xs generalizing m with
  | nil => exact hm
  | cons x xs ih => exact ih (write_wf x.1 x.2 hm)

theorem filter_wfFrom {m : Memory} {lo : Nat} (p : Host.Cell → Bool) (hm : m.wfFrom lo = true) :
    wfFrom lo (m.filter p) = true := by
  induction m generalizing lo with
  | nil => rfl
  | cons c m ih =>
    obtain ⟨k, b⟩ := c
    simp only [wfFrom, Bool.and_eq_true, decide_eq_true_eq] at hm
    rw [List.filter_cons]
    split
    · simp only [wfFrom, Bool.and_eq_true, decide_eq_true_eq]
      exact ⟨hm.1, ih hm.2⟩
    · exact wfFrom_mono (by omega) (ih hm.2)

/-- Bytes dropped keep the form. -/
theorem filter_wf {m : Memory} (p : Host.Cell → Bool) (hm : m.wf = true) : wf (m.filter p) = true := filter_wfFrom p hm

/-! ## Reads -/

theorem read_of_lt {m : Memory} {lo a : Nat} (hm : m.wfFrom lo = true) (ha : a < lo) : m.read a = unlisted := by
  cases m with
  | nil => rfl
  | cons c m =>
    obtain ⟨k, b⟩ := c
    simp only [wfFrom, Bool.and_eq_true, decide_eq_true_eq] at hm
    have h1 : k ≠ a := by omega
    have h2 : a < k := by omega
    simp [read, h1, h2]

theorem read_write_from {m : Memory} {lo : Nat} (a c : Nat) (x : Byte) (hm : m.wfFrom lo = true) :
    (m.write a x).read c = if c = a then x else m.read c := by
  induction m generalizing lo with
  | nil =>
    unfold write
    split
    · rename_i h; subst h; split <;> rfl
    · by_cases hc : c = a
      · simp [read, hc]
      · have hc' : a ≠ c := fun h => hc h.symm
        simp [read, hc, hc']
  | cons d m ih =>
    obtain ⟨k, b⟩ := d
    simp only [wfFrom, Bool.and_eq_true, decide_eq_true_eq] at hm
    unfold write
    split
    · rename_i hk
      split
      · rename_i hx
        by_cases hc : c = a
        · subst hc; subst hx
          have : k ≠ c := by omega
          simp [read, this, hk]
        · simp [hc]
      · by_cases hc : c = a
        · simp [read, hc]
        · have hc' : a ≠ c := fun h => hc h.symm
          by_cases hl : c < a
          · have h1 : k ≠ c := by omega
            have h2 : c < k := by omega
            simp [read, hc, hc', hl, h1, h2]
          · simp only [read, hc', hl, if_false, hc]
    · rename_i hk
      split
      · rename_i he
        subst he
        split
        · rename_i hx
          by_cases hc : c = a
          · subst hc; subst hx
            simp [read_of_lt hm.2 (Nat.lt_succ_self c)]
          · have hc' : a ≠ c := fun h => hc h.symm
            by_cases hl : c < a
            · simp [read, hc, hc', hl, read_of_lt hm.2 (show c < a + 1 by omega)]
            · simp [read, hc, hc', hl]
        · by_cases hc : c = a
          · simp [read, hc]
          · have hc' : a ≠ c := fun h => hc h.symm
            simp [read, hc, hc']
      · rename_i he
        by_cases h1 : k = c
        · have : c ≠ a := by omega
          simp [read, h1, this]
        · by_cases h2 : c < k
          · have : c ≠ a := by omega
            simp [read, h1, h2, this]
          · simp only [read, h1, h2, if_false]
            exact ih hm.2

/-- A read after a write: the byte written at its address, the byte before anywhere else. -/
theorem read_write {m : Memory} (a c : Nat) (x : Byte) (hm : m.wf = true) : (m.write a x).read c = if c = a then x else m.read c :=
  read_write_from a c x hm

/-- Bytes stored leave every byte outside them alone. -/
theorem read_writeBytes_of_not_mem {m : Memory} (a : Nat) (bs : List Byte) {c : Nat} (hc : c < a ∨ a + bs.length ≤ c)
    (hm : m.wf = true) : (m.writeBytes a bs).read c = m.read c := by
  induction bs generalizing m a with
  | nil => rfl
  | cons b bs ih =>
    have hl : (b :: bs).length = bs.length + 1 := rfl
    have hne : c ≠ a := by omega
    rw [show m.writeBytes a (b :: bs) = (m.write a b).writeBytes (a + 1) bs from rfl, ih (a + 1) (by omega) (write_wf a b hm),
      read_write a c b hm, if_neg hne]

/-- Bytes stored read back. -/
theorem read_writeBytes {m : Memory} (a : Nat) (bs : List Byte) (i : Nat) (hi : i < bs.length) (hm : m.wf = true) :
    (m.writeBytes a bs).read (a + i) = bs[i] := by
  induction bs generalizing m a i with
  | nil => exact absurd hi (Nat.not_lt_zero i)
  | cons b bs ih =>
    rw [show m.writeBytes a (b :: bs) = (m.write a b).writeBytes (a + 1) bs from rfl]
    cases i with
    | zero =>
      rw [read_writeBytes_of_not_mem (a + 1) bs (by omega) (write_wf a b hm), read_write a (a + 0) b hm]
      simp
    | succ i =>
      have := ih (a + 1) i (by simpa using hi) (write_wf a b hm)
      rw [show a + (i + 1) = a + 1 + i by omega, this]
      rfl

/-- Bytes stored read back together. -/
theorem readBytes_writeBytes {m : Memory} (a : Nat) (bs : List Byte) (hm : m.wf = true) :
    (m.writeBytes a bs).readBytes a bs.length = bs := by
  refine List.ext_getElem (by simp [readBytes]) fun i h1 h2 => ?_
  simp only [readBytes, List.getElem_map, List.getElem_range]
  exact read_writeBytes a bs i h2 hm

theorem ext_from {m m' : Memory} {lo : Nat} (h : m.wfFrom lo = true) (h' : m'.wfFrom lo = true) (hr : ∀ a, m.read a = m'.read a) :
    m = m' := by
  induction m generalizing m' lo with
  | nil =>
    cases m' with
    | nil => rfl
    | cons c m' =>
      obtain ⟨k, b⟩ := c
      simp only [wfFrom, Bool.and_eq_true, decide_eq_true_eq, bne_iff_ne] at h'
      exact absurd (by simpa [read] using (hr k).symm) h'.1.2
  | cons c m ih =>
    obtain ⟨k, b⟩ := c
    simp only [wfFrom, Bool.and_eq_true, decide_eq_true_eq, bne_iff_ne] at h
    cases m' with
    | nil => exact absurd (by simpa [read] using hr k) h.1.2
    | cons c' m' =>
      obtain ⟨k', b'⟩ := c'
      simp only [wfFrom, Bool.and_eq_true, decide_eq_true_eq, bne_iff_ne] at h'
      have hk : k = k' := by
        rcases Nat.lt_trichotomy k k' with hl | he | hl
        · have := hr k
          have h1 : k' ≠ k := by omega
          simp [read, h1, hl] at this
          exact absurd this h.1.2
        · exact he
        · have := hr k'
          have h1 : k ≠ k' := by omega
          simp [read, h1, hl] at this
          exact absurd this.symm h'.1.2
      subst hk
      have hb : b = b' := by simpa [read] using hr k
      subst hb
      rw [ih h.2 h'.2 fun a => ?_]
      by_cases ha : a < k + 1
      · rw [read_of_lt h.2 ha, read_of_lt h'.2 ha]
      · have := hr a
        have h1 : k ≠ a := by omega
        have h2 : ¬ a < k := by omega
        simpa [read, h1, h2] using this

/-- Memories in the canonical form that read alike are equal. -/
theorem ext_read {m m' : Memory} (h : m.wf = true) (h' : m'.wf = true) (hr : ∀ a, m.read a = m'.read a) : m = m' := ext_from h h' hr

end Sys2Proof.Machine.Memory

namespace Sys2Proof.Machine

open Sys2Proof

/-! ## What writes memory -/

/-- Bytes performed at home keep the form. -/
theorem State.homeWrite_wf (s : State) (xs : List (Nat × Byte)) (h : s.mem.wf = true) : (s.homeWrite xs).mem.wf = true := by
  rw [State.homeWrite, State.note_mem]
  exact Memory.foldl_write_wf xs h

/-- A fold whose every step keeps the form keeps it. -/
theorem State.foldl_wf {α : Type} (f : State → α → State) (hf : ∀ s x, s.mem.wf = true → (f s x).mem.wf = true) :
    ∀ (xs : List α) (s : State), s.mem.wf = true → (xs.foldl f s).mem.wf = true
  | [], _, h => h
  | x :: xs, s, h => State.foldl_wf f hf xs (f s x) (hf s x h)

@[simp] theorem State.setL1_mem (s : State) (c : Nat) (ls : List Line) : (s.setL1 c ls).mem = s.mem := rfl

/-- A region flushed from a core keeps the form (R188). -/
theorem State.flushRegion_wf (s : State) (c ctx base k : Nat) (d : Bool) (h : s.mem.wf = true) :
    (s.flushRegion c ctx base k d).mem.wf = true :=
  State.foldl_wf _ (fun s _ h => s.homeWrite_wf _ h) _ s h

/-- What a flush leaves of a region in an L1 (R188): no dirty line of it, and no line at all unless only the dirty ones go. -/
theorem State.flushRegion_l1 (s : State) (c ctx base k : Nat) (d : Bool) (hc : c < 768) :
    ∀ l ∈ ((s.flushRegion c ctx base k d).core c).caches.l1, l.ctx = ctx → base ≤ l.va → l.va < base + 2 ^ k → d = true ∧ l.dirty = false := by
  intro l hl h1 h2 h3
  simp only [State.flushRegion, State.setL1, State.core_modCore _ _ _ hc, List.mem_filter] at hl
  obtain ⟨-, hl⟩ := hl
  simp [h1, h2, h3] at hl
  cases d <;> cases hd : l.dirty <;> simp_all

/-- No line of a region stays in an L1 that drops its lines. -/
theorem State.dropLines_l1 (s : State) (c ctx base k : Nat) (hc : c < 768) :
    ∀ l ∈ ((s.dropLines c ctx base k).core c).caches.l1, ¬ (l.ctx = ctx ∧ base ≤ l.va ∧ l.va < base + 2 ^ k) := by
  intro l hl ⟨h1, h2, h3⟩
  simp only [State.dropLines, State.setL1, State.core_modCore _ _ _ hc, List.mem_filter] at hl
  simp [h1, h2, h3] at hl

/-- A line brought into an L1, and bytes written there, keep the form: a dirty victim goes home (R385). -/
theorem State.fillL1_wf (s : State) (c ctx va pa : Nat) (h : s.mem.wf = true) : (s.fillL1 c ctx va pa).mem.wf = true := by
  simp only [State.fillL1]
  split
  · exact h
  · split
    · exact h
    · split
      · rw [State.setL1_mem]
        split
        · exact State.homeWrite_wf _ _ h
        · exact h
      · exact h


theorem State.l1Write_wf (s : State) (c ctx va pa : Nat) (bs : List Byte) (h : s.mem.wf = true) : (s.l1Write c ctx va pa bs).mem.wf = true := by
  rw [State.l1Write, State.note_mem]
  exact State.fillL1_wf s c ctx va pa h

/-- Bytes that leave for another module write nothing here (R143). -/
@[simp] theorem State.sendRemote_mem (s : State) (w : Who) (xs : List (Nat × Byte)) : (s.sendRemote w xs).mem = s.mem := rfl

/-- A buffered entry that drains keeps the form (R354). -/
theorem State.drainEntry_wf (s : State) (w : Who) (e : SBEntry) (h : s.mem.wf = true) : (s.drainEntry w e).mem.wf = true := by
  have l1 : ∀ s : State, s.mem.wf = true →
      (e.bytes.foldl (fun s (x : Nat × Byte) => s.l1Write w.c w.ctx (e.blk + x.1) (e.pa + x.1) [x.2]) s).mem.wf = true :=
    fun s h => State.foldl_wf _ (fun s _ h => s.l1Write_wf _ _ _ _ _ h) _ s h
  simp only [State.drainEntry]
  split
  · exact h
  · split
    · exact l1 s h
    · split
      · exact l1 _ (State.homeWrite_wf _ _ h)
      · exact State.homeWrite_wf _ _ h

theorem State.drainBlock_wf (s : State) (w : Who) (blk : Nat) (h : s.mem.wf = true) : (s.drainBlock w blk).mem.wf = true := by
  simp only [State.drainBlock]
  split
  · exact h
  · split
    · exact h
    · exact State.drainEntry_wf _ _ _ h

theorem State.drainOne_wf (s : State) (ctx crew : Nat) (h : s.mem.wf = true) : (s.drainOne ctx crew).mem.wf = true := by
  simp only [State.drainOne]
  split
  · exact h
  · split
    · exact h
    · exact State.drainEntry_wf _ _ _ h

theorem State.drainAll_wf (s : State) (ctx crew : Nat) (h : s.mem.wf = true) : (s.drainAll ctx crew).mem.wf = true := by
  simp only [State.drainAll]
  split
  · exact h
  · exact State.foldl_wf (fun s e => s.drainEntry _ e) (fun s e h => State.drainEntry_wf s _ e h) _ s h

/-- Regions flushed one after the other keep the form. -/
theorem State.flushAll_wf (s : State) (c ctx : Nat) (rs : List (Region × Bool)) (h : s.mem.wf = true) :
    (s.flushAll c ctx rs).2.mem.wf = true := by
  have : ∀ (rs : List (Region × Bool)) (p : Nat × State), p.2.mem.wf = true →
      (rs.foldl (fun (p : Nat × State) x => (p.1 + p.2.linesOf c ctx x.1 x.2, p.2.flushRegion c ctx x.1.base x.1.k x.2)) p).2.mem.wf = true := by
    intro rs
    induction rs with
    | nil => exact fun _ h => h
    | cons x rs ih => exact fun p h => ih _ (State.flushRegion_wf _ _ _ _ _ _ h)
  exact this rs _ h

/-- Bytes that a store performs keep the form. -/
theorem State.storeThrough_wf (s : State) (w : Who) (va pa : Nat) (bs : List Byte) (cached : Bool) (h : s.mem.wf = true) :
    (s.storeThrough w va pa bs cached).mem.wf = true := by
  have h' := State.drainBlock_wf _ w (va / 32 * 32) (State.foldl_wf
    (fun (s : State) (k : Crew) => s.drainBlock { w with crew := k.id } (va / 32 * 32)) (fun s k h => s.drainBlock_wf _ _ h)
    ((s.ctx w.ctx).crews.filter fun k => k.committed && k.core == w.c && k.onCore && k.id != w.crew && remoteBlk 0 > va) s h)
  simp only [State.storeThrough]
  split
  · exact h'
  · split
    · exact State.l1Write_wf _ _ _ _ _ _ h'
    · exact State.homeWrite_wf _ _ h'

/-- A region that changes hands moves no byte. -/
theorem State.dropTok_mem (s : State) (ctx : Nat) (r : Region) : (s.dropTok ctx r).mem = s.mem := by
  simp only [State.dropTok]
  split <;> rfl

theorem State.passRegion_mem (s : State) (ctx c : Nat) (r : Region) (owner lender : Word) : (s.passRegion ctx c r owner lender).mem = s.mem :=
  State.dropTok_mem (s.dropLines c ctx r.base r.k) ctx r

/-- A save slot written keeps the form. -/
theorem State.writeSlot_wf (s : State) (ctx i : Nat) (m : SlotImage) (h : s.mem.wf = true) : (s.writeSlot ctx i m).mem.wf = true := by
  refine Memory.writeWord_wf _ _ ?_
  have : ∀ (b : Nat) (m : SlotImage) (q : Memory), q.wf = true →
      (m.foldl (fun (q : Memory) (o, n, x) => q.writeNat (b + o) n x) q).wf = true := by
    intro b m
    induction m with
    | nil => exact fun q hq => hq
    | cons x m ih => exact fun q hq => ih _ (Memory.writeNat_wf _ _ _ hq)
  exact this _ m _ (Memory.filter_wf _ h)

/-- Drawing free bytes leaves memory alone. -/
theorem State.freeBytes_mem (n : Nat) (s : State) : (s.freeBytes n).2.mem = s.mem := by
  induction n generalizing s with
  | zero => rfl
  | succ n ih => exact ih _

/-- Telling the quadrants to join leaves memory alone. -/
theorem State.joinAll_mem (s : State) : s.joinAll.mem = s.mem := State.freeBytes_mem 12 s

/-- A module reset keeps the form. -/
theorem State.moduleReset_wf (s : State) (cold : Bool) (h : s.mem.wf = true) : (s.moduleReset cold).mem.wf = true := by
  cases cold
  · simp only [State.moduleReset, Bool.false_eq_true, if_false]
    split
    · rw [State.joinAll_mem]
      exact Memory.filter_wf _ h
    · exact Memory.filter_wf _ h
  · rfl

/-- A crew's scratchpad written keeps the form. -/
theorem Crew.writeScratch_wf (k : Crew) (off : Nat) (bs : List Byte) (h : k.scratch.wf = true) :
    (k.writeScratch off bs).scratch.wf = true := Memory.writeBytes_wf off bs h

/-- An instruction put in place keeps the form. -/
theorem State.placeCode_wf (s : State) (bs : List Byte) (h : s.mem.wf = true) : (s.placeCode bs).mem.wf = true :=
  Memory.writeBytes_wf 0 bs h

/-- The memory of the module after reset has the form. -/
theorem State.reset_mem_wf : State.reset.mem.wf = true := rfl

end Sys2Proof.Machine
end

