-- ==== Sys2Proof/Tests/Slice0.lean ====
section
/-! SUPPORT. Tests: decoding of written-out words, ill-formed terms, states that meet the hypotheses of the statements, small steps. -/

set_option Elab.async false

namespace Sys2Proof.Tests

open Sys2Proof Sys2Proof.Machine

/-! ## Decoding -/

/-- An unguarded header without hints. -/
def h : Hdr := ⟨0, none, 0, .p false 7⟩
/-- The same with a flag to set. -/
def f (n : Fin 12) : Hdr := ⟨0, some n, 0, .p false 7⟩
/-- The same with a guard. -/
def g (x : Guard) : Hdr := ⟨0, none, 0, x⟩

/-- Words the spec prints beside their assembly (control). -/
theorem test_decode_control : ∀ p ∈ ([
    (0x8000CC003000000000007002, .trail ⟨3, some 2, 6⟩),
    (0x000009800000000000007001, .nop ⟨⟨0, some 1, 3, .p false 7⟩⟩),
    (0x400000003800000000011004, .brd ⟨(g (.p true 1)), 7⟩),
    (0x400000050000000004507006, .call ⟨h, .s 40, 160⟩),
    (0x000014000000000004127009, .splq ⟨(f 4), .s 9⟩),
    (0x00000000000000000000700A, .exit ⟨h⟩),
    (0x0000000000006C0A040E701C, .smin ⟨h, .s 7, .c 0, .imm 96, false, false⟩),
    (0x000000000272001014067024, .sbfe ⟨h, .s 3, .s 2, 4, 7, true⟩),
    (0x000000000000601038047221, .scmp ⟨h, .lt, 2, .s 7, .imm 0, false⟩),
    (0x000000000000006008047326, .plog ⟨h, .andn, false, 2, 1, 3⟩),
    (0x00000000000068100408702B, .padd ⟨h, .s 4, .s 0, .imm 64⟩)] : List (IWord × Instr)), decode p.1 = .ok p.2 := by decide +kernel

/-- Words the spec prints beside their assembly (vector). -/
theorem test_decode_vector_1 : ∀ p ∈ ([
    (0x00000000000C006010087040, .vadd ⟨h, .v 4, .v 2, .v 3, false, false, .w8, true, false⟩),
    (0x00000000000040EC08027250, .vcmp ⟨h, .lt, 1, .lane, .s 7, false⟩),
    (0x000000000074000008047055, .vbfe ⟨h, .v 2, .v 1, 8, 7, false⟩),
    (0x00000000000100E030107057, .vdot4 ⟨h, .v 8, .v 6, .v 7, false, true, .w32, false, false⟩),
    (0x000000000000770C00071058, .fadd ⟨(g (.p true 1)), .v 3, .zero, .imm 184, .rne, .f32, false, false, false⟩),
    (0x000018800000A8404014705B, .ffma ⟨⟨0, some 5, 1, .p false 7⟩, .v 10, .v 8, .c 2, .rz, .f32, false, false, false⟩),
    (0x00000000000000802004765E, .fcmp ⟨h, .un, 2, .v 4, .v 4⟩),
    (0x000000000004004008127062, .fdot2 ⟨h, .v 9, .v 1, .v 2, .rne, .bf16, false, false, false⟩),
    (0x00000C0000000000280C7064, .frsq ⟨(f 2), .v 6, .v 5⟩),
    (0x0000000008010000480E706B, .cvt ⟨h, .v 7, .v 9, .v 0, .f32, .bf16, .rne, false, 1⟩),
    (0x00000000020181A05818706C, .cvtef ⟨h, .v 12, .v 11, .v 13, .f32, .e4m3, .rne, true, 0⟩),
    (0x00000800000802C0A828706D, .qblk ⟨(f 1), .v 20, .v 21, .v 22, 4, .rne⟩)] : List (IWord × Instr)), decode p.1 = .ok p.2 := by decide +kernel

/-- Words the spec prints beside their assembly (vector). -/
theorem test_decode_vector_2 : ∀ p ∈ ([
    (0x00000000000000400806706F, .pack4 ⟨h, .v 3, .v 1, .v 2⟩),
    (0x000004000002E02010067371, .shfl ⟨(f 0), .xor, 5, .v 3, .v 2, .imm 1⟩),
    (0x000008000000000018087873, .vred ⟨(f 1), .fadd, 0, .rne, false, .v 4, .v 3⟩),
    (0x0000100000000000100A7075, .ballot ⟨(f 3), 0, .v 5, 2⟩)] : List (IWord × Instr)), decode p.1 = .ok p.2 := by decide +kernel

/-- Words the spec prints beside their assembly (memory). -/
theorem test_decode_memory : ∀ p ∈ ([
    (0x000004000002201000027080, .ld ⟨(f 0), .v 1, .s 0, .o 0, .w, false, .grp, false, false, .last, 0, 0, 0⟩),
    (0x000008047802013000047080, .ld ⟨(f 1), .v 2, .s 0, .v 9, .w, false, .grp, false, true, .last, 1, 7, 0⟩),
    (0x00000C0000026080503C7084, .ldg ⟨(f 2), .v 30, .v 10, .imm 4, .w, false, .grp, false, false, .last, 0, 0, 0⟩),
    (0x000000800002201020067081, .st ⟨⟨0, none, 1, .p false 7⟩, .v 3, .s 4, .o 0, .w, false, .grp⟩),
    (0x0000000000026080503C7085, .stg ⟨h, .v 30, .v 10, .imm 4, .w, false, .grp⟩),
    (0x00001400000E601054107082, .lds ⟨(f 4), .s 8, .s 10, .imm 0, .w, true, .crew, false, false, .last, 0, 0, 0⟩),
    (0x000010000026601054287083, .sts ⟨(f 3), .s 20, .s 10, .imm 0, .w, true, .dev⟩),
    (0x0000040000006050180E7086, .ldl ⟨(f 0), .v 7, .s 3, .imm 2⟩),
    (0x0000000000006050180E7087, .stl ⟨h, .v 7, .s 3, .imm 2⟩),
    (0x000000000000601000007188, .pref ⟨h, true, .s 0, .imm 0⟩),
    (0x000000000000001028067089, .limset ⟨h, 3, .s 5⟩)] : List (IWord × Instr)), decode p.1 = .ok p.2 := by decide +kernel

/-- Words the spec prints beside their assembly (guess). -/
theorem test_decode_guess : ∀ p ∈ ([
    (0x000000800000000018027090, .ktest ⟨⟨0, none, 1, .p false 7⟩, false, 1, .r (.v 3)⟩),
    (0x000010000000000000041091, .kdemand ⟨⟨0, some 3, 0, .p false 1⟩, .r (.v 2)⟩),
    (0x000000000000000000047092, .kaccept ⟨h, .r (.v 2)⟩),
    (0x000018000000000000047093, .kabandon ⟨(f 5), .r (.v 2)⟩),
    (0x0000000000000000000A7094, .kmark ⟨h, .r (.v 5)⟩),
    (0x000000000000000004287095, .kstat ⟨h, .sum, 20, .v 0⟩),
    (0x000000000000000014287295, .kstat ⟨h, .ready, 20, .v 2⟩),
    (0x00000C047822012050047084, .ldg ⟨(f 2), .v 2, .v 10, .v 9, .w, false, .grp, false, true, .last, 1, 7, 4⟩)] : List (IWord × Instr)), decode p.1 = .ok p.2 := by decide +kernel

/-- Words the spec prints beside their assembly (token). -/
theorem test_decode_token : ∀ p ∈ ([
    (0x00000C000000C110000270A0, .tklend ⟨(f 2), .crew, some 1, 0, .s 8⟩),
    (0x0000080000008010030070A2, .tktake ⟨(f 1), .crew, none, 0, .v 0⟩),
    (0x000000000000E050200070A3, .tksplit ⟨h, .crew, some 0, 4, .imm 2⟩),
    (0x000000000000A8B0000470A5, .tkshare ⟨h, .crew, some 2, 0, .c 5⟩),
    (0x0000000000008010030070A7, .tkhome ⟨h, .crew, none, 0, .v 0⟩),
    (0x0000000000000010042870A9, .tkquery ⟨h, none, 20, 0⟩),
    (0x0000000000008000041071A9, .tkquery ⟨h, some (.crew), 8, 0⟩),
    (0x0000040000008010000670AA, .tkadopt ⟨(f 0), .crew, some 3, 0, .v 0⟩)] : List (IWord × Instr)), decode p.1 = .ok p.2 := by decide +kernel

/-- Words the spec prints beside their assembly (sync). -/
theorem test_decode_sync : ∀ p ∈ ([
    (0x00000C0000022030000278B0, .atom ⟨(f 2), .xchg, .v 1, 0, .o 1, false, false, .rlx, .grp, .v 0⟩),
    (0x0000080C004A2070201079B0, .atom ⟨(f 1), .cas, .v 8, 4, .o 3, false, false, .acq, .crew, .zero⟩),
    (0x00001C0000000000000071B2, .bar ⟨(f 6), 1⟩),
    (0x0000200000000000000070B3, .gbar ⟨(f 7), 0⟩),
    (0x00001C0000080010241870B4, .wparr ⟨(f 6), .crew, .s 12, 4⟩),
    (0x0000200000084190241A70B5, .wpwait ⟨(f 7), .eq, .crew, false, 0, .s 13, 4, .s 12⟩),
    (0x00002400100828F0441C70B6, .waita ⟨(f 8), .eq, .crew, false, 2, .s 14, 8, .c 7⟩),
    (0x0000280000D80000000070B7, .fence ⟨(f 9), .ar, .gang⟩)] : List (IWord × Instr)), decode p.1 = .ok p.2 := by decide +kernel

/-- Words the spec prints beside their assembly (tile). -/
theorem test_decode_tile : ∀ p ∈ ([
    (0x0000080000002930000470C0, .tld ⟨(f 1), false, .grp, 0, none, 2, 0, .c 9⟩),
    (0x00000C049020A950200670C0, .tld ⟨(f 2), true, .dev, 2, some 1, 3, 4, .c 10⟩),
    (0x000014000020E810400A70C1, .tst ⟨(f 4), true, .dev, 0, none, 5, 8, .imm 64⟩),
    (0x0000000000000000000E70C2, .tzero ⟨h, 7, 0⟩),
    (0x0000000000000000100870C3, .tmov ⟨h, 4, 2⟩),
    (0x0000040000000000080C70C4, .txp ⟨(f 0), 6, 1⟩),
    (0x0000100A30000040000270C5, .mtask ⟨(f 3), .bf16, false, false, false, 1, 0, 2, .c 6⟩),
    (0x0000180000006070C00070C6, .mtaskm ⟨(f 5), .s 24, .imm 3⟩)] : List (IWord × Instr)), decode p.1 = .ok p.2 := by decide +kernel

/-- Words the spec prints beside their assembly (accumulator). -/
theorem test_decode_accumulator : ∀ p ∈ ([
    (0x0000040000000018380270C7, .acalloc ⟨(f 0), some 1, .imm 7⟩),
    (0x00000000000000183B0070C8, .acfree ⟨h, none, .imm 7⟩),
    (0x00000000000063EA641270C9, .acband ⟨h, .s 9, .c 12, .imm 31⟩),
    (0x0000080000014150480870CA, .acdrain ⟨(f 1), .s 9, .v 4, .s 10, 2, false⟩),
    (0x000000000001E000400A70CB, .acload ⟨h, .a 5, .v 8, .imm 0, 3, false⟩),
    (0x000000000000000A600470CC, .aczero ⟨h, .a 2, .c 12⟩),
    (0x00001C0AA1F003C0180870CD, .acscale ⟨(f 6), .a 4, .a 3, .v 30, .c 20, 0, 31⟩),
    (0x00000C0000000000043C70CE, .mstat ⟨(f 2), .sticky, false, 30⟩),
    (0x0000100000000000043E70CF, .mcheck ⟨(f 3), .s 31, some (.a 0)⟩)] : List (IWord × Instr)), decode p.1 = .ok p.2 := by decide +kernel

/-- Words the spec prints beside their assembly (engine). -/
theorem test_decode_engine : ∀ p ∈ ([
    (0x00000810A00928B0041070E0, .copy ⟨(f 1), false, true, false, .crew, 8, 0, .c 5, 20⟩),
    (0x000000000001A990700470E2, .ringset ⟨h, some 2, 3, .s 14, .c 12⟩),
    (0x0000100000062931400270E1, .msend ⟨(f 3), some 1, false, false, 3, .s 40, .c 9, .v 0⟩),
    (0x0000040A38004090000070E3, .arm ⟨(f 0), some 0, 0, 4, .c 7⟩),
    (0x000000000000000A380070E4, .disarm ⟨h, some 0, .c 7⟩),
    (0x0000140000010010F00270E5, .asdef ⟨(f 4), some 1, 2, .s 30⟩),
    (0x0000000000000018280270E6, .asgo ⟨h, some 1, .imm 5⟩),
    (0x00001C00000000182C3E70E7, .asstop ⟨(f 6), .s 31, .imm 5⟩),
    (0x00000C0000008000100C70E8, .qpop ⟨(f 2), true, .v 6, 2, false, .last, 0, 0⟩),
    (0x00000401D00000000C1870E8, .qpop ⟨(f 0), false, .s 12, 1, false, .stride, 3, 2⟩),
    (0x00000800000029F1400270E9, .gattach ⟨(f 1), some 1, .s 40, .c 15⟩),
    (0x0000080000000000000470EA, .gdetach ⟨(f 1), some 2⟩)] : List (IWord × Instr)), decode p.1 = .ok p.2 := by decide +kernel

/-- Words the spec prints beside their assembly (system). -/
theorem test_decode_system : ∀ p ∈ ([
    (0x00000000000541E0042270F0, .srd ⟨h, .coretab, .s 17, .s 15⟩),
    (0x000000000018600A180070F1, .swr ⟨h, .tcfg, .c 3, .imm 0⟩),
    (0x000000000000001DE80070F2, .trap ⟨h, 189⟩),
    (0x40001001E0000000400470F3, .spawn ⟨(f 3), some 2, 8, 60⟩),
    (0x00000800000028F0200670F4, .launch ⟨(f 1), some 3, 4, .c 7⟩),
    (0x00001400000062B0060470F5, .tbinv ⟨(f 4), .imm 2, 0, .imm 21⟩),
    (0x0000000000004170500270F6, .placew ⟨h, some 1, .s 10, .s 11⟩),
    (0x0000040000000010500070F7, .finj ⟨(f 0), .core, .key (.s 10), .v 0⟩)] : List (IWord × Instr)), decode p.1 = .ok p.2 := by decide +kernel

/-- Words written out field by field from the encoding tables of chapter 5. -/
theorem test_decode_scalar_fields_1 : ∀ p ∈ ([
    (0x4000007FDFFF80000001A003, .bra ⟨g (.q true 2), 0xFFFFFB⟩),
    (0x000000000000000A18007005, .brx ⟨h, .c 3⟩),
    (0x000000000000001140007007, .ret ⟨h, .s 40⟩),
    (0x4000047F67FF800004187008, .loop ⟨f 0, .s 12, 0xFFFFEC⟩),
    (0x000000000000FFF014029010, .sadd ⟨g (.q false 1), .s 1, .s 2, .imm 255, true, false⟩),
    (0x0000000000002FEC1B007011, .ssub ⟨h, .zero, .gid, .c 63, false, false⟩),
    (0x0000000000007FF004F87012, .smul ⟨h, .s 124, .s 0, .imm 255, false, false⟩),
    (0x00000000000140B024067013, .smulh ⟨h, .s 3, .s 4, .s 5, false, true⟩),
    (0x00000000000028B024067014, .smad ⟨h, .s 3, .s 4, .c 5, false, false⟩),
    (0x000000000001F9103C0C7015, .sdiv ⟨h, .s 6, .s 7, .imm 200, true, true⟩),
    (0x00000000000041103C0C7016, .sand ⟨h, .s 6, .s 7, .s 8, false, false⟩),
    (0x00000000000030103C0C7017, .sor ⟨h, .s 6, .s 7, .zero, false, false⟩)] : List (IWord × Instr)), decode p.1 = .ok p.2 := by decide +kernel

/-- Words written out field by field from the encoding tables of chapter 5. -/
theorem test_decode_scalar_fields_2 : ∀ p ∈ ([
    (0x00000000000041303C0C7018, .sxor ⟨h, .s 6, .s 7, .s 9, false, false⟩),
    (0x00000000000063F03C0C7019, .sshl ⟨h, .s 6, .s 7, .imm 31, false, false⟩),
    (0x00000000000064103C0C701A, .sshr ⟨h, .s 6, .s 7, .imm 32, false, false⟩),
    (0x00000000000041503C0C701B, .ssar ⟨h, .s 6, .s 7, .s 10, false, false⟩),
    (0x000000000001284A0C0C701D, .smax ⟨h, .s 6, .c 1, .c 2, false, true⟩),
    (0x00000000000000103C0C701E, .sabs ⟨h, .s 6, .s 7⟩),
    (0x000000000000801C040C701F, .smov ⟨h, .s 6, .imm 128, true⟩),
    (0x00000000680041103C0C7020, .ssel ⟨h, .s 6, .s 7, .s 8, 5, true, false⟩),
    (0x000000000000000A3C0C7022, .spopc ⟨h, .s 6, .c 7⟩),
    (0x000000000000000A3C0C7023, .sclz ⟨h, .s 6, .c 7⟩),
    (0x00000000000F801014067025, .sbfi ⟨h, .s 3, .s 2, 31, 0, false⟩),
    (0x000000000000000010027027, .pmov ⟨h, .p 1 2⟩)] : List (IWord × Instr)), decode p.1 = .ok p.2 := by decide +kernel

/-- Words written out field by field from the encoding tables of chapter 5. -/
theorem test_decode_scalar_fields_3 : ∀ p ∈ ([
    (0x000000000000000C08027127, .pmov ⟨h, .fromv 1 .lane⟩),
    (0x0000000000000013E8027227, .pmov ⟨h, .froms 1 125⟩),
    (0x00000000000000003C107327, .pmov ⟨h, .tos 8 7⟩),
    (0x0000000000000000380C7427, .pmov ⟨h, .q 6 7⟩),
    (0x000000000000000010027028, .pany ⟨h, 1, 2⟩),
    (0x000000000000000010027029, .pall ⟨h, 1, 2⟩),
    (0x00000000000000001402702A, .pcnt ⟨h, .s 1, 2⟩),
    (0x0000000000083027E802702B, .padd ⟨h, .v 1, .v 253, .lane⟩),
    (0x00000000000241102400702C, .ptag ⟨h, .s 0, .s 4, .s 8, 4⟩),
    (0x00000000000000102400752D, .pfld ⟨h, .module, .s 0, .s 4⟩),
    (0x00000000000041102004792E, .pcmp ⟨h, .geu, 2, .s 4, .s 8⟩),
    (0x00000000000801002004712E, .pcmp ⟨h, .ne, 2, .v 4, .v 8⟩)] : List (IWord × Instr)), decode p.1 = .ok p.2 := by decide +kernel

/-- Words written out field by field from the encoding tables of chapter 6. -/
theorem test_decode_vector_fields_1 : ∀ p ∈ ([
    (0x0000000000037FC00A143041, .vsub ⟨g (.p false 3), .l 2, .v 1, .imm 254, false, true, .w16, false, false⟩),
    (0x000000000000F90010027042, .vmul ⟨h, .v 1, .v 2, .imm 200, true, false, .w32, false, false⟩),
    (0x000000000001406010027043, .vmulh ⟨h, .v 1, .v 2, .s 3, false, true, .w32, false, false⟩),
    (0x000000000000206010027044, .vmad ⟨h, .v 1, .v 2, .o 3, false, false, .w32, false, false⟩),
    (0x000000000000304859FE7045, .vand ⟨h, .v 255, .l 3, .plane, false, false, .w32, false, false⟩),
    (0x000000000000304859FE7046, .vor ⟨h, .v 255, .l 3, .plane, false, false, .w32, false, false⟩),
    (0x000000000000304859FE7047, .vxor ⟨h, .v 255, .l 3, .plane, false, false, .w32, false, false⟩),
    (0x000000000000304859FE7049, .vshl ⟨h, .v 255, .l 3, .plane, false, false, .w32, false, false⟩),
    (0x000000000000304859FE704A, .vshr ⟨h, .v 255, .l 3, .plane, false, false, .w32, false, false⟩),
    (0x000000000000304859FE704B, .vsar ⟨h, .v 255, .l 3, .plane, false, false, .w32, false, false⟩),
    (0x000000000000000A020E7048, .vnot ⟨h, .o 7, .c 0, .v 0, false, false, .w32, false, false⟩),
    (0x00000000000500601002704C, .vmin ⟨h, .v 1, .v 2, .v 3, false, true, .w8, false, false⟩)] : List (IWord × Instr)), decode p.1 = .ok p.2 := by decide +kernel

/-- Words written out field by field from the encoding tables of chapter 6. -/
theorem test_decode_vector_fields_2 : ∀ p ∈ ([
    (0x00000000000200601002704D, .vmax ⟨h, .v 1, .v 2, .v 3, false, false, .w16, false, false⟩),
    (0x00000000000C00001002704E, .vabs ⟨h, .v 1, .v 2, .v 0, false, false, .w8, true, false⟩),
    (0x00000000000800001002704F, .vneg ⟨h, .v 1, .v 2, .v 0, false, false, .w32, true, false⟩),
    (0x000000002000006010027051, .vsel ⟨h, .v 1, .v 2, .v 3, 4, false, false⟩),
    (0x000000000000801FF8027052, .vmov ⟨h, .v 1, .imm 255, .v 0, true, false, .w32, false, false⟩),
    (0x000000000000000010027053, .vpopc ⟨h, .v 1, .v 2, .v 0, false, false, .w32, false, false⟩),
    (0x000000000000000010027054, .vclz ⟨h, .v 1, .v 2, .v 0, false, false, .w32, false, false⟩),
    (0x0000000001F0000010027056, .vbfi ⟨h, .v 1, .v 2, 0, 31, false⟩),
    (0x00000000000BE70010027059, .fsub ⟨h, .v 1, .v 2, .imm 0x38, .rd, .f16, true, false, false⟩),
    (0x00000000000500601002705A, .fmul ⟨h, .v 1, .v 2, .v 3, .ru, .bf16, false, false, false⟩),
    (0x00000000003000601002705B, .ffma ⟨h, .v 1, .v 2, .v 3, .rne, .f32, false, true, true⟩),
    (0x00000000000200601002705C, .fmin ⟨h, .v 1, .v 2, .v 3, .rne, .f16, false, false, false⟩)] : List (IWord × Instr)), decode p.1 = .ok p.2 := by decide +kernel

/-- Words written out field by field from the encoding tables of chapter 6. -/
theorem test_decode_vector_fields_3 : ∀ p ∈ ([
    (0x00000000000000601002705D, .fmax ⟨h, .v 1, .v 2, .v 3, .rne, .f32, false, false, false⟩),
    (0x00000000000000001002705F, .fclass ⟨h, .v 1, .v 2⟩),
    (0x000000000000F04010027060, .fscale ⟨h, .v 1, .v 2, .imm 130, .rz, .f32, false, false, false⟩),
    (0x000000000005000010027061, .frnd ⟨h, .v 1, .v 2, .v 0, .ru, .bf16, false, false, false⟩),
    (0x000000000000000012027063, .frcp ⟨h, .o 1, .v 2⟩),
    (0x000000000000000012027065, .fsqrt ⟨h, .o 1, .v 2⟩),
    (0x000000000000000012027066, .fexp2 ⟨h, .o 1, .v 2⟩),
    (0x000000000000000012027067, .flog2 ⟨h, .o 1, .v 2⟩),
    (0x000000000000000012027068, .fsin ⟨h, .o 1, .v 2⟩),
    (0x000000000000000012027069, .fcos ⟨h, .o 1, .v 2⟩),
    (0x00000000000000001202706A, .ftanh ⟨h, .o 1, .v 2⟩),
    (0x00000000181800001002706B, .cvt ⟨h, .v 1, .v 2, .v 0, .e4m3, .f32, .rne, false, 3⟩)] : List (IWord × Instr)), decode p.1 = .ok p.2 := by decide +kernel

/-- Words written out field by field from the encoding tables of chapter 6. -/
theorem test_decode_vector_fields_4 : ∀ p ∈ ([
    (0x00000000001000601002706E, .dqblk ⟨h, .v 1, .v 2, .v 3, 8, .rne⟩),
    (0x000000003800800010027070, .unpk4 ⟨h, .v 1, .v 2, true, 7⟩),
    (0x000000000000B06010027072, .vbcast ⟨h, 1, .v 1, .v 2, .gid⟩),
    (0x00000000001D000010027874, .vscan ⟨h, .fadd, 2, .rd, true, .v 1, .v 2⟩)] : List (IWord × Instr)), decode p.1 = .ok p.2 := by decide +kernel

/-- Words written out field by field from the encoding tables of chapters 9 and 10. -/
theorem test_decode_memory_fields : ∀ p ∈ ([
    (0x0000000000020013E80C70A1, .tkret ⟨h, .core, some 6, 125, .v 0⟩),
    (0x000000000000A890000070A4, .tkjoin ⟨h, .crew, some 0, 0, .c 4⟩),
    (0x0000000000018010030070A6, .tkunshare ⟨h, .leg, none, 0, .v 0⟩),
    (0x0000000000000010000270A8, .tkunhome ⟨h, .grp, some 1, 0, .v 0⟩),
    (0x0000000000EAFF1004F670B1, .atoms ⟨h, .add, .s 123, 0, .imm 248, true, false, .ar, .sys, .v 0⟩),
    (0x0000001FF8066010040279B1, .atoms ⟨h, .cas, .s 1, 0, .imm 0, false, true, .rlx, .grp, .imm 255⟩)] : List (IWord × Instr)), decode p.1 = .ok p.2 := by decide +kernel

/-! ## Well-formedness: one ill-formed term for each check -/

/-- R54, R73: guards of a kind the opcode does not accept. -/
theorem test_wf_guards : ∀ i ∈ ([.bra ⟨g (.p false 0), 1⟩, .brd ⟨g (.q false 0), 1⟩, .brx ⟨g (.p true 7), .s 0⟩, .ret ⟨g (.p false 1), .s 0⟩,
    .call ⟨g (.p false 1), .s 0, 1⟩, .loop ⟨g (.p false 1), .s 0, 1⟩, .splq ⟨g (.p false 1), .s 0⟩,
    .sadd ⟨g (.p false 1), .s 0, .s 1, .s 2, false, false⟩, .sabs ⟨g (.p false 1), .s 0, .s 1⟩, .smov ⟨g (.p false 1), .s 0, .s 1, false⟩,
    .ssel ⟨g (.p false 1), .s 0, .s 1, .s 2, 0, false, false⟩, .scmp ⟨g (.p false 1), .eq, 0, .s 1, .s 2, false⟩,
    .sbfe ⟨g (.p false 1), .s 0, .s 1, 0, 0, false⟩, .sbfi ⟨g (.p false 1), .s 0, .s 1, 0, 0, false⟩,
    .plog ⟨g (.p false 1), .and, true, 0, 1, 2⟩, .pmov ⟨g (.p false 1), .q 0 1⟩, .padd ⟨g (.p false 1), .s 0, .s 4, .s 8⟩,
    .ptag ⟨g (.p false 1), .s 0, .s 4, .s 8, 0⟩, .pfld ⟨g (.p false 1), .lo, .s 0, .s 4⟩, .pcmp ⟨g (.p false 1), .eq, 0, .s 4, .s 8⟩,
    .limset ⟨g (.p false 1), 1, .s 0⟩, .kstat ⟨g (.p false 1), .sum, 0, .v 0⟩] : List Instr), i.wf = false := by decide +kernel

/-- The same of the token, synchronisation, tile, accumulator, engine and system instructions. -/
theorem test_wf_guards_2 : ∀ i ∈ (([.tklend ⟨g (.p false 1), .crew, none, 0, .s 0⟩, .tkquery ⟨g (.p false 1), none, 0, 0⟩,
    .bar ⟨g (.p false 1), 0⟩, .gbar ⟨g (.p false 1), 0⟩, .wparr ⟨g (.p false 1), .crew, .s 0, 0⟩,
    .waita ⟨g (.p false 1), .eq, .crew, false, 0, .s 0, 0, .s 0⟩, .fence ⟨g (.p false 1), .acq, .crew⟩,
    .tld ⟨g (.p false 1), false, .grp, 0, none, 0, 0, .s 0⟩, .tzero ⟨g (.p false 1), 0, 0⟩, .tmov ⟨g (.p false 1), 0, 1⟩,
    .mtask ⟨g (.p false 1), .bf16, false, false, false, 0, 0, 0, .s 0⟩, .mtaskm ⟨g (.p false 1), .s 0, .s 1⟩,
    .acalloc ⟨g (.p false 1), none, .s 0⟩, .acband ⟨g (.p false 1), .a 0, .s 0, .s 0⟩, .aczero ⟨g (.p false 1), .a 0, .s 0⟩,
    .acscale ⟨g (.p false 1), .a 0, .a 0, .v 0, .s 0, 0, 0⟩, .mstat ⟨g (.p false 1), .sticky, false, 0⟩,
    .mcheck ⟨g (.p false 1), .s 0, none⟩] : List Instr) ++
    ([.copy ⟨g (.p false 1), false, true, false, .grp, 0, 0, .s 0, 0⟩, .msend ⟨g (.p false 1), none, false, false, 0, .s 0, .s 0, .v 0⟩,
    .ringset ⟨g (.p false 1), none, 0, .s 0, .s 0⟩, .arm ⟨g (.p false 1), none, 0, 0, .s 0⟩, .disarm ⟨g (.p false 1), none, .s 0⟩,
    .asdef ⟨g (.p false 1), none, 0, .s 0⟩, .asgo ⟨g (.p false 1), none, .s 0⟩, .asstop ⟨g (.p false 1), .s 0, .s 0⟩,
    .gattach ⟨g (.p false 1), none, .s 0, .s 0⟩, .gdetach ⟨g (.p false 1), none⟩, .srd ⟨g (.p false 1), .passes, .s 0, .v 0⟩,
    .swr ⟨g (.p false 1), .kpol, .s 0, .v 0⟩, .trap ⟨g (.p false 1), 0⟩, .tbinv ⟨g (.p false 1), .s 0, 0, .s 0⟩,
    .placew ⟨g (.p false 1), none, .s 0, .s 0⟩, .finj ⟨g (.p false 1), .core, .key (.s 0), .v 0⟩] : List Instr)), i.wf = false := by decide +kernel

/-- R55, R56, R58: operands of a kind the field does not accept, scalar and predicate instructions. -/
theorem test_wf_scalar_operands : ∀ i ∈ (([.brx ⟨h, .imm 0⟩, .ret ⟨h, .zero⟩, .call ⟨h, .c 0, 1⟩, .loop ⟨h, .zero, 1⟩, .splq ⟨h, .v 0⟩,
    .sadd ⟨h, .c 0, .s 1, .s 2, false, false⟩, .sadd ⟨h, .s 0, .v 1, .s 2, false, false⟩, .sadd ⟨h, .s 0, .s 1, .lane, false, false⟩,
    .sadd ⟨h, .s 0, .s 1, .s 2, false, true⟩, .sabs ⟨h, .gid, .s 1⟩, .sabs ⟨h, .s 0, .plane⟩, .smov ⟨h, .imm 0, .s 1, false⟩,
    .smov ⟨h, .s 0, .o 1, false⟩, .ssel ⟨h, .lane, .s 1, .s 2, 0, false, false⟩, .ssel ⟨h, .s 0, .l 0, .s 2, 0, false, false⟩,
    .ssel ⟨h, .s 0, .s 1, .v 2, 0, false, false⟩] : List Instr) ++
    ([.scmp ⟨h, .eq, 7, .s 1, .s 2, false⟩, .scmp ⟨h, .eq, 0, .v 1, .s 2, false⟩, .scmp ⟨h, .eq, 0, .s 1, .v 2, false⟩,
    .sbfe ⟨h, .v 0, .s 1, 0, 0, false⟩, .sbfe ⟨h, .s 0, .v 1, 0, 0, false⟩, .sbfe ⟨h, .s 0, .s 1, 31, 1, false⟩,
    .sbfi ⟨h, .s 0, .s 1, 1, 31, false⟩, .sbfi ⟨h, .s 0, .s 1, 0, 0, true⟩, .plog ⟨h, .and, false, 7, 0, 0⟩, .plog ⟨h, .not, false, 0, 1, 2⟩,
    .pmov ⟨h, .p 7 0⟩, .pmov ⟨h, .fromv 7 .lane⟩, .pmov ⟨h, .froms 7 0⟩, .pmov ⟨h, .q 7 0⟩, .pany ⟨h, 7, 0⟩, .pall ⟨h, 7, 0⟩,
    .pcnt ⟨h, .v 0, 0⟩] : List Instr) ++
    ([.padd ⟨h, .s 0, .v 4, .s 8⟩, .padd ⟨h, .s 0, .s 4, .lane⟩, .ptag ⟨h, .s 0, .s 4, .s 8, 5⟩, .ptag ⟨h, .v 0, .s 4, .s 8, 0⟩,
    .ptag ⟨h, .s 0, .s 4, .v 8, 0⟩, .pfld ⟨h, .lo, .v 0, .s 4⟩, .pfld ⟨h, .lo, .s 0, .v 4⟩, .pcmp ⟨h, .eq, 7, .s 4, .s 8⟩,
    .pcmp ⟨h, .lt, 0, .s 4, .s 8⟩, .pcmp ⟨h, .eq, 0, .s 4, .v 8⟩] : List Instr)), i.wf = false := by decide +kernel

/-- R56, R57, R122: the vector integer instructions' operands and MOD bits. -/
theorem test_wf_vector_integer : ∀ i ∈ (([.vadd ⟨h, .s 0, .v 1, .v 2, false, false, .w32, false, false⟩,
    .vadd ⟨h, .v 0, .v 1, .v 2, false, false, .w32, false, true⟩, .vnot ⟨h, .v 0, .v 1, .v 0, true, false, .w32, false, false⟩,
    .vmul ⟨h, .v 0, .v 1, .v 2, false, true, .w32, false, false⟩, .vmulh ⟨h, .v 0, .v 1, .v 2, false, false, .w16, false, false⟩,
    .vmin ⟨h, .v 0, .v 1, .v 2, false, false, .w32, true, false⟩, .vabs ⟨h, .v 0, .v 1, .v 2, false, false, .w32, false, false⟩,
    .vabs ⟨h, .v 0, .v 1, .v 0, false, true, .w32, false, false⟩, .vmov ⟨h, .c 0, .v 1, .v 0, false, false, .w32, false, false⟩,
    .vdot4 ⟨h, .v 0, .v 1, .v 2, true, false, .w32, false, false⟩] : List Instr) ++
    ([.vcmp ⟨h, .eq, 7, .v 0, .v 1, false⟩, .vsel ⟨h, .s 0, .v 1, .v 2, 0, false, false⟩, .vbfe ⟨h, .gid, .v 1, 0, 0, false⟩,
    .vbfe ⟨h, .v 0, .v 1, 16, 16, false⟩, .vbfi ⟨h, .v 0, .v 1, 0, 0, true⟩, .vbfi ⟨h, .lane, .v 1, 0, 0, false⟩,
    .vbfi ⟨h, .v 0, .v 1, 31, 31, false⟩] : List Instr)), i.wf = false := by decide +kernel

/-- R57, R68, R123 to R127: the floating-point, conversion and block instructions. -/
theorem test_wf_vector_float : ∀ i ∈ (([.fadd ⟨h, .s 0, .v 1, .v 2, .rne, .f32, false, false, false⟩,
    .fadd ⟨h, .v 0, .imm 0x7F, .v 2, .rne, .f32, false, false, false⟩, .fadd ⟨h, .v 0, .v 1, .imm 0xFF, .rne, .f32, false, false, false⟩,
    .fadd ⟨h, .v 0, .v 1, .v 2, .rne, .f32, false, true, false⟩, .fadd ⟨h, .v 0, .v 1, .v 2, .rne, .f32, false, false, true⟩,
    .fmin ⟨h, .v 0, .v 1, .v 2, .rz, .f32, false, false, false⟩, .fmax ⟨h, .v 0, .v 1, .v 2, .rne, .f32, true, false, false⟩,
    .frnd ⟨h, .v 0, .v 1, .v 2, .rne, .f32, false, false, false⟩, .frnd ⟨h, .v 0, .v 1, .v 0, .rne, .f32, true, false, false⟩,
    .fdot2 ⟨h, .v 0, .v 1, .v 2, .rne, .f32, false, false, false⟩, .fcmp ⟨h, .eq, 7, .v 0, .v 1⟩, .fcmp ⟨h, .eq, 0, .imm 0x7F, .v 1⟩,
    .fclass ⟨h, .s 0, .v 1⟩, .frcp ⟨h, .l 0, .v 1⟩, .fsin ⟨h, .v 0, .imm 0xFF⟩] : List Instr) ++
    ([.cvt ⟨h, .v 0, .v 1, .v 2, .f32, .f16, .rne, false, 0⟩, .cvt ⟨h, .v 0, .v 1, .v 0, .f16, .bf16, .rne, false, 0⟩,
    .cvt ⟨h, .v 0, .v 1, .v 0, .f16, .f32, .rz, false, 0⟩, .cvt ⟨h, .v 0, .v 1, .v 0, .f32, .i32, .rne, true, 0⟩,
    .cvt ⟨h, .v 0, .v 1, .v 0, .f32, .f16, .rne, false, 2⟩, .cvt ⟨h, .v 0, .imm 0x7F, .v 0, .f32, .f16, .rne, false, 0⟩,
    .cvtef ⟨h, .v 0, .v 1, .v 0, .f32, .f16, .rne, false, 0⟩, .cvtef ⟨h, .v 0, .v 1, .v 1, .f32, .f16, .rne, false, 0⟩,
    .cvtef ⟨h, .v 0, .v 1, .v 2, .f32, .i32, .rne, false, 0⟩, .cvtef ⟨h, .v 0, .v 1, .v 2, .f16, .f32, .rne, false, 0⟩,
    .cvtef ⟨h, .v 0, .v 1, .v 2, .f32, .f16, .rz, false, 0⟩, .qblk ⟨h, .v 0, .v 1, .v 0, 4, .rne⟩, .qblk ⟨h, .l 0, .v 1, .v 2, 4, .rne⟩,
    .qblk ⟨h, .v 0, .v 1, .v 2, 1, .rne⟩, .dqblk ⟨h, .v 0, .v 1, .v 2, 9, .rne⟩, .dqblk ⟨h, .v 0, .v 1, .v 2, 4, .rz⟩] : List Instr)), i.wf = false := by decide +kernel

/-- R68, R129 to R133: packing and the cross-lane instructions. -/
theorem test_wf_cross_lane : ∀ i ∈ ([.pack4 ⟨h, .s 0, .v 1, .v 2⟩, .unpk4 ⟨h, .s 0, .v 1, false, 0⟩, .unpk4 ⟨h, .v 0, .v 1, false, 2⟩,
    .shfl ⟨h, .idx, 0, .l 0, .v 1, .v 2⟩, .vbcast ⟨h, 0, .v 0, .v 1, .v 2⟩, .vbcast ⟨h, 0, .l 0, .v 1, .s 2⟩,
    .vred ⟨h, .add, 0, .rz, false, .v 0, .v 1⟩, .vred ⟨h, .add, 0, .rne, true, .v 0, .v 1⟩, .vred ⟨h, .fmin, 0, .rne, false, .v 0, .imm 0x7F⟩,
    .vscan ⟨h, .add, 0, .rne, false, .l 0, .v 1⟩, .ballot ⟨h, 0, .l 3, 0⟩] : List Instr), i.wf = false := by decide +kernel

/-- R34, R68, R147 to R160: the memory instructions. -/
theorem test_wf_memory : ∀ i ∈ (([.ld ⟨h, .v 0, .v 0, .v 1, .w, false, .grp, false, false, .last, 0, 0, 0⟩,
    .ldg ⟨h, .v 0, .s 0, .v 1, .w, false, .grp, false, false, .last, 0, 0, 0⟩,
    .ldg ⟨h, .v 0, .v 0, .v 1, .w, true, .crew, false, false, .last, 0, 0, 0⟩,
    .ld ⟨h, .v 0, .s 0, .v 1, .w, false, .crew, false, false, .last, 0, 0, 0⟩,
    .ld ⟨h, .v 255, .s 0, .v 1, .d, false, .grp, false, false, .last, 0, 0, 0⟩,
    .ld ⟨h, .v 253, .s 0, .v 1, .q, false, .grp, false, false, .last, 0, 0, 0⟩,
    .ld ⟨h, .l 0, .s 0, .v 1, .w, false, .grp, false, false, .last, 0, 0, 0⟩,
    .ld ⟨h, .v 0, .s 0, .v 1, .d, false, .grp, true, false, .last, 0, 0, 0⟩,
    .ld ⟨h, .v 0, .s 0, .v 1, .w, false, .grp, false, false, .last, 1, 0, 0⟩,
    .ld ⟨h, .v 0, .s 0, .v 1, .w, true, .crew, false, false, .last, 0, 1, 0⟩] : List Instr) ++
    ([.ld ⟨h, .v 0, .s 0, .v 1, .w, false, .grp, true, false, .last, 0, 1, 0⟩,
    .ld ⟨h, .v 0, .s 0, .v 1, .d, false, .grp, false, false, .last, 0, 1, 0⟩,
    .ld ⟨h, .v 0, .s 0, .v 1, .h, false, .grp, false, true, .last, 0, 1, 0⟩,
    .ld ⟨h, .v 0, .s 0, .o 1, .w, false, .grp, false, false, .last, 0, 7, 0⟩,
    .ld ⟨h, .v 0, .s 0, .v 1, .w, false, .grp, false, false, .last, 0, 1, 1⟩,
    .lds ⟨h, .s 0, .v 0, .s 1, .w, false, .grp, false, false, .last, 0, 0, 0⟩,
    .lds ⟨h, .s 0, .s 0, .v 1, .w, false, .grp, false, false, .last, 0, 0, 0⟩,
    .lds ⟨h, .s 125, .s 0, .s 1, .w, false, .grp, false, false, .last, 0, 0, 0⟩,
    .lds ⟨h, .s 124, .s 0, .s 1, .d, false, .grp, false, false, .last, 0, 0, 0⟩,
    .lds ⟨h, .s 122, .s 0, .s 1, .q, false, .grp, false, false, .last, 0, 0, 0⟩,
    .lds ⟨h, .s 0, .s 0, .s 1, .w, false, .grp, false, false, .last, 0, 7, 0⟩] : List Instr) ++
    ([.st ⟨h, .v 0, .v 0, .v 1, .w, false, .grp⟩, .stg ⟨h, .v 0, .s 0, .v 1, .w, false, .grp⟩, .stg ⟨h, .v 0, .v 0, .v 1, .w, true, .crew⟩,
    .st ⟨h, .v 0, .s 0, .v 1, .w, false, .crew⟩, .st ⟨h, .v 0, .s 0, .v 1, .bs, false, .grp⟩, .st ⟨h, .v 255, .s 0, .v 1, .d, false, .grp⟩,
    .st ⟨h, .s 0, .s 0, .v 1, .q, false, .grp⟩, .sts ⟨h, .v 0, .s 0, .s 1, .w, false, .grp⟩, .sts ⟨h, .s 125, .s 0, .s 1, .w, false, .grp⟩,
    .sts ⟨h, .s 124, .s 0, .s 1, .d, false, .grp⟩, .sts ⟨h, .s 0, .s 0, .lane, .w, false, .grp⟩, .sts ⟨h, .s 0, .s 0, .s 1, .hs, false, .grp⟩,
    .ldl ⟨h, .l 0, .s 0, .s 1⟩, .stl ⟨h, .v 0, .gid, .s 1⟩, .ldl ⟨h, .v 0, .s 0, .v 1⟩, .limset ⟨h, 0, .s 0⟩, .limset ⟨h, 1, .zero⟩] : List Instr)),
    i.wf = false := by decide +kernel

/-- Chapter 8, Table 8: the guess instructions. -/
theorem test_wf_guess : ∀ i ∈ ([.ktest ⟨h, false, 7, .r (.v 0)⟩, .ktest ⟨h, true, 0, .r (.c 0)⟩, .kdemand ⟨h, .r (.l 0)⟩, .kdemand ⟨h, .p 0⟩,
    .kaccept ⟨h, .p 7⟩, .kaccept ⟨h, .r .zero⟩, .kmark ⟨h, .r (.l 0)⟩, .kabandon ⟨h, .p 1⟩, .kabandon ⟨h, .r (.imm 0)⟩,
    .kstat ⟨h, .sum, 125, .v 0⟩, .kstat ⟨h, .sum, 0, .v 1⟩, .kstat ⟨h, .ready, 123, .v 0⟩, .kstat ⟨h, .flt, 0, .l 0⟩] : List Instr),
    i.wf = false := by decide +kernel

/-- R196, R209 to R224: token instructions, atomics and waits. -/
theorem test_wf_token_sync : ∀ i ∈ (([.tklend ⟨h, .crew, none, 0, .imm 0⟩, .tklend ⟨h, .gang, none, 0, .s 0⟩, .tkret ⟨h, .crew, none, 0, .s 0⟩,
    .tkret ⟨h, .leg, none, 0, .v 0⟩, .tktake ⟨h, .crew, none, 0, .v 1⟩, .tksplit ⟨h, .crew, none, 0, .zero⟩, .tkshare ⟨h, .crew, none, 0, .v 0⟩,
    .tkhome ⟨h, .gang, none, 0, .v 0⟩, .tkquery ⟨h, none, 122, 0⟩, .tkquery ⟨h, some .crew, 125, 0⟩, .tkquery ⟨h, some .crew, 0, 1⟩,
    .tkadopt ⟨h, .grp, none, 0, .v 0⟩] : List Instr) ++
    ([.atom ⟨h, .add, .v 0, 0, .v 1, false, false, .rlx, .crew, .v 0⟩, .atom ⟨h, .add, .v 0, 0, .v 1, false, true, .rlx, .grp, .v 0⟩,
    .atom ⟨h, .add, .v 0, 0, .v 1, false, false, .rlx, .grp, .v 1⟩, .atom ⟨h, .fadd, .v 0, 0, .v 1, true, false, .rlx, .grp, .v 0⟩,
    .atom ⟨h, .add, .l 0, 0, .v 1, false, false, .rlx, .grp, .v 0⟩, .atom ⟨h, .add, .v 255, 0, .v 1, true, false, .rlx, .grp, .v 0⟩,
    .atom ⟨h, .cas, .v 0, 0, .v 1, true, false, .rlx, .grp, .o 0⟩, .atoms ⟨h, .add, .s 125, 0, .s 1, false, false, .rlx, .grp, .v 0⟩,
    .atoms ⟨h, .add, .s 124, 0, .s 1, true, false, .rlx, .grp, .v 0⟩, .atoms ⟨h, .add, .s 0, 0, .v 1, false, false, .rlx, .grp, .v 0⟩,
    .atoms ⟨h, .cas, .s 0, 0, .s 1, false, false, .rlx, .grp, .v 0⟩, .atoms ⟨h, .cas, .s 0, 0, .s 1, true, false, .rlx, .grp, .s 124⟩] : List Instr) ++
    ([.gbar ⟨h, 2⟩, .wparr ⟨h, .crew, .s 125, 0⟩, .wpwait ⟨h, .ne, .crew, false, 0, .s 0, 0, .s 0⟩, .wpwait ⟨h, .eq, .crew, true, 0, .s 0, 0, .s 0⟩,
    .waita ⟨h, .eq, .crew, false, 0, .s 125, 0, .s 0⟩, .waita ⟨h, .eq, .crew, false, 0, .s 0, 0, .lane⟩, .fence ⟨h, .rlx, .crew⟩] : List Instr)),
    i.wf = false := by decide +kernel

/-- Chapters 11 and 12: tiles, tasks and accumulators. -/
theorem test_wf_array : ∀ i ∈ (([.tld ⟨h, false, .crew, 0, none, 0, 0, .s 0⟩, .tld ⟨h, false, .grp, 1, none, 0, 0, .s 0⟩,
    .tld ⟨h, false, .grp, 0, some 0, 0, 0, .s 0⟩, .tld ⟨h, true, .crew, 1, none, 0, 0, .s 0⟩, .tld ⟨h, false, .grp, 0, none, 0, 0, .v 0⟩,
    .tst ⟨h, true, .crew, 1, none, 0, 0, .s 0⟩, .tst ⟨h, true, .crew, 0, some 0, 0, 0, .s 0⟩, .tzero ⟨h, 0, 1⟩,
    .mtask ⟨h, .bf16, false, false, false, 0, 0, 0, .imm 0⟩, .mtaskm ⟨h, .gid, .s 0⟩, .mtaskm ⟨h, .s 0, .v 0⟩] : List Instr) ++
    ([.acalloc ⟨h, none, .lane⟩, .acfree ⟨h, none, .v 0⟩, .acband ⟨h, .a 0, .v 0, .s 0⟩, .acband ⟨h, .a 0, .s 0, .v 0⟩,
    .acdrain ⟨h, .a 0, .l 0, .s 0, 0, false⟩, .acdrain ⟨h, .a 0, .v 0, .v 0, 0, false⟩, .acdrain ⟨h, .a 0, .v 0, .s 0, 0, true⟩,
    .acload ⟨h, .a 0, .v 0, .lane, 0, false⟩, .aczero ⟨h, .a 0, .v 0⟩, .acscale ⟨h, .a 0, .a 0, .l 0, .s 0, 0, 0⟩,
    .acscale ⟨h, .a 0, .a 0, .v 0, .zero, 0, 0⟩, .acscale ⟨h, .a 0, .a 0, .v 0, .imm 0x7F, 0, 0⟩, .mcheck ⟨h, .c 0, none⟩] : List Instr)), i.wf = false := by
  decide +kernel

/-- Chapters 13 and 15: engines, streams and the system instructions. -/
theorem test_wf_engine_system : ∀ i ∈ (([.copy ⟨h, false, false, false, .grp, 0, 0, .zero, 0⟩, .copy ⟨h, false, false, false, .grp, 0, 0, .s 0, 1⟩,
    .copy ⟨h, false, false, false, .crew, 0, 0, .s 0, 0⟩, .copy ⟨h, false, false, true, .grp, 0, 0, .s 0, 0⟩,
    .msend ⟨h, none, false, false, 0, .s 0, .zero, .v 0⟩, .msend ⟨h, none, false, true, 0, .s 0, .s 0, .v 0⟩,
    .msend ⟨h, none, false, false, 0, .s 0, .s 0, .s 1⟩, .msend ⟨h, none, true, false, 0, .v 0, .s 0, .v 0⟩,
    .msend ⟨h, none, false, false, 16, .s 0, .s 0, .v 0⟩, .msend ⟨h, none, false, false, 1, .s 124, .s 0, .v 0⟩,
    .ringset ⟨h, none, 0, .zero, .s 0⟩, .ringset ⟨h, none, 0, .s 0, .v 0⟩, .arm ⟨h, none, 0, 0, .v 0⟩, .disarm ⟨h, none, .zero⟩] : List Instr) ++
    ([.asdef ⟨h, none, 0, .v 0⟩, .asgo ⟨h, none, .lane⟩, .asstop ⟨h, .c 0, .s 0⟩, .asstop ⟨h, .s 0, .v 0⟩,
    .qpop ⟨h, true, .s 0, 0, false, .last, 0, 0⟩, .qpop ⟨h, false, .s 125, 0, false, .last, 0, 0⟩, .qpop ⟨h, false, .s 0, 0, false, .last, 1, 0⟩,
    .qpop ⟨h, true, .v 0, 0, false, .last, 0, 1⟩, .gattach ⟨h, none, .v 0, .s 0⟩, .gattach ⟨h, none, .s 0, .v 0⟩] : List Instr) ++
    ([.srd ⟨h, .passes, .c 0, .v 0⟩, .srd ⟨h, .passes, .s 0, .s 1⟩, .srd ⟨h, .wl, .s 0, .v 0⟩, .swr ⟨h, .passes, .s 0, .v 0⟩,
    .swr ⟨h, .kpol, .v 0, .v 0⟩, .swr ⟨h, .kpol, .s 0, .s 0⟩, .launch ⟨h, none, 0, .imm 0⟩, .tbinv ⟨h, .zero, 0, .s 0⟩, .tbinv ⟨h, .s 0, 0, .zero⟩,
    .placew ⟨h, none, .imm 0, .s 0⟩, .placew ⟨h, none, .s 0, .imm 0⟩, .finj ⟨h, .core, .key (.s 0), .s 0⟩, .finj ⟨h, .lane, .key (.s 0), .v 0⟩,
    .finj ⟨h, .lane, .key (.v 0), .s 0⟩, .finj ⟨h, .poison, .key (.s 0), .v 0⟩, .finj ⟨h, .poison, .triple 0, .s 0⟩] : List Instr)), i.wf = false := by decide +kernel

/-- Whether the decoder refuses a word with ILL_ENC. -/
def illEnc (w : IWord) : Bool :=
  match decode w with
  | .illEnc _ => true
  | .ok _ => false

/-- Whether the decoder reads a word as one of an unassigned opcode. -/
def isUnassigned (w : IWord) : Bool :=
  match decode w with
  | .ok .unassignedOpcode => true
  | _ => false

/-- Words that R52 refuses whatever the run: a FORM the opcode does not accept, bits 93:90, SETF of 13 or 15, reserved operand codes, unused fields, and
reserved FN, MOD and CLS values. -/
theorem test_decode_refuses : (([0x40000000000000000000700A, 0x000000000000000000007002, 0x800000000000000000007003, 0xC00000000000000000007001, 0x04000000000000000000700A,
    0x20000000000000000000700A, 0x00003400000000000000700A, 0x00003C000000000000007001, 0x000000000000000860007040, 0x0000000000000009F8007040,
    0x000000000000000C20007040, 0x0000000000003FE000007040, 0x00000000000000140400701F, 0x0000000000005FE000007040, 0x000000000000000000027001] : List IWord) ++
    ([0x000000000800000000007001, 0x00000000000000300400701E, 0x000000000000401004007110, 0x000000000002401004007010, 0x000000000800401004007010,
    0x000000000000401000007A21, 0x000000000000401000107021, 0x000000000006000000007040, 0x000000000020000000007040, 0x000000000006000000007058,
    0x000000000040000000007058, 0x000000000000000000007471, 0x000000000003000000007071, 0x000000000000000000007B73, 0x00000000004000000000706B] : List IWord) ++
    ([0x00000000002800400800706D, 0x000000000002C1102400702C, 0x000000000000411004FC702B, 0x000000000008000001FC702B, 0x00000000000000102400762D,
    0x000000000003801000007080, 0x000000000002001000007BB0, 0x0000000000018010000070B0, 0x0000000000028010000070A1, 0x0000000000008010000E70A1,
    0x800000000000000000027002, 0x800000800000000000007002, 0x800000000000000000000002, 0x00000000000000200000700A, 0x00000000007F8000040070F0] : List IWord)).all illEnc = true := by decide +kernel

/-- An unassigned OPC is ILL_OP, whatever the other bits hold (R52, R72); the all-zero word is one. -/
theorem test_decode_unassigned : ([0x000000000000000000000000, 0x00000000000000000000700B, 0x00000000000000000000702F, 0xC00000000000000000007030,
    0x3C0000000000000000007076, 0x00003C00000000000000708A, 0x000000000000000000007096, 0x0000000000000000000070AB,
    0x0000000000000000000070B8, 0x0000000000000000000070DF, 0x0000000000000000000070EB, 0x0000000007FF8000000070FF] : List IWord).all isUnassigned = true := by
  decide +kernel


/-! ## States that meet the hypotheses of the statements -/

/-- A state with one group on core 0, an instruction of zeros in place: all registers zero but the constants of its group. -/
def s0 : State := State.reset.withFetchWord 96 0

/-- The group of `s0` with something changed. -/
def withG (f : Group → Group) : State := s0.modGroup 0 0 f

/-- A use that acts for its whole group (R111). -/
def whole (u : Use) : Use := { u with all := true }

/-- Whether an instruction may issue in a state, for its lanes and for its group, and something holds of its issue. -/
def ready (s : State) (h : Hdr) (u : Use) (p : Iss → Bool) : Bool := (s.issuer h).any fun I =>
  (I.pre u).isNone && (I.pre (whole u)).isNone && I.guardMarks == 0 && !I.meetsUe u && !I.meetsUe (whole u) && p I

/-- An instruction may issue in a state, for its lanes or for its group, and something holds of its issue. -/
def Meets (s : State) (h : Hdr) (u : Use) (p : Iss → Bool) : Prop := ∃ I, Ready s h u I ∧ Ready s h (whole u) I ∧ p I = true

theorem of_ready {s : State} {h : Hdr} {u : Use} {p : Iss → Bool} (hr : ready s h u p = true) : Meets s h u p := by
  unfold ready at hr
  cases hi : s.issuer h with
  | none => simp [hi] at hr
  | some I =>
    simp [hi] at hr
    exact ⟨I, ⟨hi, hr.1.1.1.1.1, hr.1.1.1.2, hr.1.1.2⟩, ⟨hi, hr.1.1.1.1.2, hr.1.1.1.2, hr.1.2⟩, hr.2⟩

/-- A group with an s register replaced. -/
def setS (n : Nat) (e : Elem) (G : Group) : Group := { G with regs := { G.regs with s := G.regs.s.setIfInBounds n e } }

/-- A group with a v register replaced. -/
def setV (n : Nat) (f : Nat → Elem) (G : Group) : Group := { G with regs := { G.regs with v := G.regs.v.setIfInBounds n (VReg.of f) } }

/-- A group with a p register replaced. -/
def setP (n : Nat) (val k : Lanes) (G : Group) : Group := { G with regs := { G.regs with p := G.regs.p.setIfInBounds n ⟨val, k⟩ } }

/-- `s0` with s registers of the group replaced. -/
def withS (l : List (Nat × Elem)) : State := withG fun G => l.foldl (fun G p => setS p.1 p.2 G) G

/-- A marked word. -/
def mk1 : Elem := ⟨1, true⟩

/-- A clear word. -/
def w (n : Nat) : Elem := ⟨BitVec.ofNat 32 n, false⟩

/-- A guard that is always false: not q7, not p7. -/
def off : Hdr := g (.q true 7)

/-- Every statement about an issue that may be turned away by its guard meets both. -/
def both (u : Use) : Prop := Meets s0 h u (fun I => I.qok) ∧ Meets s0 off u fun I => !I.qok

theorem witness_ScalarArithmeticResults :
    both { reads := [.s 0, .imm 3, .s 1] } ∧ both { reads := [.s 0, .imm 3] } ∧
    Meets (withS [(0, mk1)]) h { reads := [.s 0, .imm 3] } (fun I => (I.sval false (.s 0)).k && Iss.isXm (.s 125) && !I.uses 0) :=
  ⟨⟨of_ready (by decide +kernel), of_ready (by decide +kernel)⟩, ⟨of_ready (by decide +kernel), of_ready (by decide +kernel)⟩,
    of_ready (by decide +kernel)⟩

/-- Fields that end at bit 31, of one bit and of all. -/
theorem witness_ScalarMoveAndFieldResults :
    both { reads := [.s 0] } ∧ both { reads := [.s 0, .imm 3] } ∧
    (∀ x ∈ [(⟨h, .s 2, .s 0, 31, 0, true⟩ : BfA), ⟨h, .s 2, .s 0, 0, 31, false⟩], x.pos.toNat + (x.lenM1.toNat + 1) ≤ 32) ∧
    both { reads := [.s 0, .s 2] } :=
  ⟨⟨of_ready (by decide +kernel), of_ready (by decide +kernel)⟩, ⟨of_ready (by decide +kernel), of_ready (by decide +kernel)⟩, by decide,
    ⟨of_ready (by decide +kernel), of_ready (by decide +kernel)⟩⟩

/-- `s0` with p0 true in some lanes, and an uncorrectable word of v2 in lane 81. -/
def onlyP (m : Lanes) : State := withG fun G => { setP 0 m 0 G with ueRegs := [(.v 2, 81)] }

/-- `s0` with a marked p0. -/
def markedP : State := withG (setP 0 1 1)

theorem witness_PredicateResults :
    both {} ∧ Meets s0 h { reads := [.v 0] } (fun _ => true) ∧ Meets s0 h { sr := [(5, 3)] } (fun _ => true) ∧
    Meets markedP h {} (fun I => ((I.G.regs.pred 0).k &&& I.active).extractLsb' 0 32 != 0 && !I.uses 0 &&
      (List.range 96).any fun i => I.active.getLsbD i && (I.G.regs.pred 0).k.getLsbD i) :=
  ⟨⟨of_ready (by decide +kernel), of_ready (by decide +kernel)⟩, of_ready (by decide +kernel), of_ready (by decide +kernel),
    of_ready (by decide +kernel)⟩

/-- `s0` with marked pointers in s4, s5, s6 and v4, v5, v6, and in s7 a marked word. -/
def markedPtr : State := withG fun G => setS 6 mk1 (setS 4 mk1 (setS 7 mk1 (setV 6 (fun _ => mk1) (setV 7 (fun _ => mk1) G))))

theorem witness_PointerResults :
    (tripleS (.s 4) = tripleS (.s 123) ∧ Meets s0 h ((Use.ofTriple { reads := [.imm 8] } (.s 4)).dstTriple (.s 123)) (fun I => I.qok)) ∧
    (tripleS (.v 4) = tripleS (.v 0) ∧ Meets s0 h ((Use.ofTriple { reads := [.imm 8] } (.v 4)).dstTriple (.v 0)) fun I => I.qok) ∧
    Meets markedPtr h ((Use.ofTriple { reads := [.imm 8] } (.s 4)).dstTriple (.s 123)) (fun I => (I.triple (.s 4) 0).2 && !I.uses 0 &&
      (I.sreg 6).k) ∧
    Meets markedPtr h ((Use.ofTriple { reads := [.s 7] } (.s 8)).dstTriple (.s 0)) (fun I => I.qok && (I.sval false (.s 7)).k) ∧
    Meets markedPtr h ((Use.ofTriple { reads := [.v 7] } (.v 8)).dstTriple (.v 0))
      (fun I => maskOf 96 (fun i => I.active.getLsbD i && ((I.vsrc false (.v 7)).at i).k) != 0) ∧
    both (Use.ofTriple { dsts := [] } (.s 4)) ∧ Meets s0 h (Use.ofTriple { dsts := [.v 9] } (.v 4)) (fun _ => true) ∧
    both ((({} : Use).ofTriple (.s 0)).ofTriple (.s 8)) ∧
    Meets markedPtr h ((({} : Use).ofTriple (.s 4)).ofTriple (.s 8)) (fun I => I.qok && (I.triple (.s 4) 0).2 && !I.uses 0) ∧
    Meets s0 h ((({} : Use).ofTriple (.v 0)).ofTriple (.v 8)) fun _ => true :=
  ⟨⟨rfl, of_ready (by decide +kernel)⟩, ⟨rfl, of_ready (by decide +kernel)⟩, of_ready (by decide +kernel), of_ready (by decide +kernel),
    of_ready (by decide +kernel), ⟨of_ready (by decide +kernel), of_ready (by decide +kernel)⟩, of_ready (by decide +kernel),
    ⟨of_ready (by decide +kernel), of_ready (by decide +kernel)⟩, of_ready (by decide +kernel), of_ready (by decide +kernel)⟩

/-- A return address hint that agrees with s0, and one that does not; a loop counter of 1, of 2, and a marked one. -/
theorem witness_UniformControlFlow :
    both {} ∧ Meets s0 ⟨3, some 2, 0, .p false 7⟩ {} (fun _ => true) ∧ both { reads := [.s 0] } ∧
    Meets (withS [(0, mk1)]) h { reads := [.s 0] } (fun I => I.qok && (I.sval false (.s 0)).k && !I.uses 0) ∧
    Meets (withG fun G => { G with hints := [0] }) h { reads := [.s 0] } (fun I => I.G.hints.head? == some (I.sval false (.s 0)).val) ∧
    Meets s0 h { reads := [.s 0] } (fun I => I.G.hints.head? != some (I.sval false (.s 0)).val) ∧
    Meets (withS [(0, w 1)]) h { reads := [.s 0] } (fun I => (I.sval false (.s 0)).val == 1) ∧
    Meets (withS [(0, w 2)]) h { reads := [.s 0] } (fun I => (I.sval false (.s 0)).val == 2) :=
  ⟨⟨of_ready (by decide +kernel), of_ready (by decide +kernel)⟩, of_ready (by decide +kernel),
    ⟨of_ready (by decide +kernel), of_ready (by decide +kernel)⟩, of_ready (by decide +kernel), of_ready (by decide +kernel),
    of_ready (by decide +kernel), of_ready (by decide +kernel), of_ready (by decide +kernel)⟩

/-- A split at PC 9 that owns no lane of the others, with deferred entries. -/
def spl (n : Nat) : Split := { Split.start 9 0 with m := 0, o := 0, stack := List.replicate n ⟨0, 0, 0, 0⟩ }

/-- The group of `s0` with p0 true in lane 0 and its other entries of the split table taken, `n` entries deferred. -/
def splits (n : Nat) : State := withG fun G =>
  { setP 0 1 0 G with splits := ((G.splits.set 1 (some (spl n))).set 2 (some (spl 0))).set 3 (some (spl 0)) }

/-- The free entries of the split table. -/
def frees (I : Iss) : Nat := ((List.finRange 4).filter fun i => (I.G.splits[i]).isNone).length

/-- How many entries are deferred. -/
def defers (I : Iss) : Nat := (I.G.splits.toList.map fun (o : Option Split) => ((o.map fun S => S.stack.length).getD 0)).sum

theorem witness_DivergentBranch :
    Meets s0 (g (.p true 7)) {} (fun I => I.active == 0) ∧ Meets s0 h {} (fun I => I.active != 0 && I.S.m &&& ~~~I.active == 0) ∧
    Meets (withG (setP 0 1 0)) (g (.p false 0)) {} (fun I => I.S.m &&& ~~~I.active != 0 && frees I == 3) ∧
    Meets (splits 15) (g (.p false 0)) {} (fun I => I.S.m &&& ~~~I.active != 0 && frees I == 0 && defers I == 15) ∧
    Meets (splits 16) (g (.p false 0)) {} (fun I => I.S.m &&& ~~~I.active != 0 && frees I == 0 && defers I == 16) :=
  ⟨of_ready (by decide +kernel), of_ready (by decide +kernel), of_ready (by decide +kernel), of_ready (by decide +kernel),
    of_ready (by decide +kernel)⟩

theorem witness_ExitRetiresLanes :
    both {} ∧ Meets (withG (setP 0 1 0)) (g (.p false 0)) {} (fun I => I.S.o &&& ~~~I.active != 0 && I.S.stack.isEmpty) ∧
    Meets (withG fun G => G.modSplit 0 fun S => { S with stack := [⟨7, 0, 0, 0⟩] }) h {} (fun I => !I.S.stack.isEmpty && I.S.o != 0) :=
  ⟨⟨of_ready (by decide +kernel), of_ready (by decide +kernel)⟩, of_ready (by decide +kernel), of_ready (by decide +kernel)⟩

theorem witness_VectorElementResults :
    Meets s0 h { reads := [.v 1, .v 2], dsts := [.v 255] } (fun _ => true) ∧ Meets s0 h { reads := [.v 1], dsts := [.l 3] } fun _ => true :=
  ⟨of_ready (by decide +kernel), of_ready (by decide +kernel)⟩

theorem witness_VectorWordResults :
    Meets s0 h { reads := [.v 1, .imm 2], dsts := [.v 255] } (fun _ => true) ∧
    Meets s0 h { reads := [.v 1, .s 127, .v 255], dsts := [.v 255] } (fun _ => true) ∧
    Meets s0 h { reads := [.o 1], dsts := [.o 7] } fun _ => true :=
  ⟨of_ready (by decide +kernel), of_ready (by decide +kernel), of_ready (by decide +kernel)⟩

theorem witness_VectorFieldAndSelectResults :
    (∀ x ∈ [(⟨h, .v 2, .v 1, 31, 0, true⟩ : BfA), ⟨h, .v 2, .v 1, 0, 31, false⟩], x.pos.toNat + (x.lenM1.toNat + 1) ≤ 32) ∧
    Meets s0 h { reads := [.v 1], dsts := [.v 2] } (fun _ => true) ∧ Meets s0 h { reads := [.v 1, .v 2], dsts := [.v 2] } (fun _ => true) ∧
    Meets markedP h { reads := [.v 1, .c 2], dsts := [.v 2] } fun I => (I.G.regs.pred 0).k.getLsbD 0 :=
  ⟨by decide, of_ready (by decide +kernel), of_ready (by decide +kernel), of_ready (by decide +kernel)⟩

theorem witness_FloatArithmeticResults :
    Meets s0 h { reads := [.v 1, .v 2], dsts := [.v 3] } (fun _ => true) ∧
    Meets s0 h { reads := [.v 1, .v 2, .v 3], dsts := [.v 3] } fun _ => true :=
  ⟨of_ready (by decide +kernel), of_ready (by decide +kernel)⟩

/-- A code of each kind: a NaN, an infinity, a number. -/
theorem witness_RoundingKeepsRepresentableValues : ∃ c < 2 ^ FpF.f32.bits, ∃ d < 2 ^ FpF.f32.bits, ∃ e < 2 ^ FpF.f32.bits,
    FpF.f32.val c = .nan ∧ FpF.f32.val d = .inf true ∧ (FpF.f32.val e).isNan = false :=
  ⟨0x7FC00000, by decide, 0xFF800000, by decide, 1, by decide, by decide +kernel, by decide +kernel, by decide +kernel⟩

theorem witness_CompareAndClassResults :
    both { reads := [.s 0, .imm 1] } ∧
    Meets (withS [(0, mk1)]) h { reads := [.s 0, .imm 1] } (fun I => I.qok && (I.sval false (.s 0)).k && !I.uses 0) ∧
    Meets s0 h { reads := [.v 1, .v 2] } (fun _ => true) ∧ Meets s0 h { reads := [.v 1], dsts := [.v 2] } fun _ => true :=
  ⟨⟨of_ready (by decide +kernel), of_ready (by decide +kernel)⟩, of_ready (by decide +kernel), of_ready (by decide +kernel),
    of_ready (by decide +kernel)⟩

/-- The words where the ranges of Table 10 begin and end. -/
theorem witness_SpecialFunctionResults :
    Meets s0 h { reads := [.v 1], dsts := [.v 2] } (fun _ => true) ∧
    ((0x7F800001 : Word).toNat % 2 ^ 31 > 0x7F800000) ∧
    ((0x80000001 : Word).msb = true ∧ 0 < (0x80000001 : Word).toNat % 2 ^ 31 ∧ (0xFF7FFFFF : Word).toNat % 2 ^ 31 < 0x7F800000) ∧
    ((0x43000000 : Word).msb = false ∧ 0x43000000 ≤ (0x43000000 : Word).toNat % 2 ^ 31) ∧
    ((0xC3160000 : Word).msb = true ∧ 0x43160000 ≤ (0xC3160000 : Word).toNat % 2 ^ 31) ∧
    0x41100000 ≤ (0xC1100000 : Word).toNat % 2 ^ 31 :=
  ⟨of_ready (by decide +kernel), by decide, by decide, by decide, by decide, by decide⟩

theorem witness_ConversionResults :
    Meets s0 h { reads := [.v 1, .v 2], dsts := [.v 2] } (fun _ => true) ∧ Meets s0 h { reads := [.v 1], dsts := [.v 2] } (fun _ => true) ∧
    (Fmt.bits .bf16 < 32 ∧ Meets s0 h { reads := [.v 1, .v 2], dsts := [.v 2, .v 3] } fun _ => true) ∧
    ((⟨h, .v 2, .v 1, false, 1⟩ : UnpkA).idx.toNat < 2 ∧
      Meets (withG (setV 1 fun _ => ⟨0x88888888, false⟩)) h { reads := [.v 1], dsts := [.v 2] }
        fun I => ((I.vsrc false (.v 1)).at 0).val.extractLsb' 0 4 == 8) :=
  ⟨of_ready (by decide +kernel), of_ready (by decide +kernel), ⟨by decide, of_ready (by decide +kernel)⟩, by decide, of_ready (by decide +kernel)⟩

theorem witness_BlockFormatResults :
    Meets s0 h { reads := [.v 1], dsts := [.v 2, .v 3] } (fun _ => true) ∧
    Meets (withG (setV 3 fun _ => w 255)) h { reads := [.v 3], names := [.v 2], dsts := [.v 1] } (fun I =>
      ((I.vsrc false (.v 3)).at 0).val.toNat % 256 == 255 && I.G.ueRegs.isEmpty) ∧
    Meets (onlyP (1 <<< 95)) (g (.p false 0)) { reads := [.v 3], names := [.v 2], dsts := [.v 1] } (fun I => I.active == 1 <<< 95 &&
      I.G.ueRegs.contains (.v 2, 16 * (95 / 16) + (95 % 16 * 4 + 4 - 1) / 32) && !I.active.getLsbD 81) :=
  ⟨of_ready (by decide +kernel), of_ready (by decide +kernel), of_ready (by decide +kernel)⟩

/-- An uncorrectable word in an inactive lane that an active one names, and one that none does. -/
theorem witness_ShuffleResults :
    Meets s0 h { reads := [.imm 1], names := [.v 1], dsts := [.v 2] } (fun I => I.G.ueRegs.isEmpty) ∧
    Meets s0 h { reads := [.s 0], names := [.v 1], dsts := [.v 2] } (fun I => I.G.ueRegs.isEmpty) ∧
    (∀ n ∈ [81, 80], Meets (onlyP (1 <<< n)) (g (.p false 0)) { reads := [.imm 1], names := [.v 2], dsts := [.v 3] } fun I => I.active == 1 <<< n &&
      I.G.ueRegs == [(.v 2, 81)] && ((80 ^^^ 1 : Nat) == 81)) := by
  refine ⟨of_ready (by decide +kernel), of_ready (by decide +kernel), ?_⟩
  intro n hn
  simp only [List.mem_cons, List.not_mem_nil, or_false] at hn
  rcases hn with rfl | rfl <;> exact of_ready (by decide +kernel)

theorem witness_ReductionAndScanResults :
    Meets s0 h { reads := [.v 1], dsts := [.v 2] } (fun I => I.active == Lanes.all) ∧ Meets s0 h { dsts := [.v 2] } (fun _ => true) ∧
    Meets (withG (setP 0 5 0)) (g (.p false 0)) { reads := [.v 1], dsts := [.v 2] } fun I => I.active == 5 :=
  ⟨of_ready (by decide +kernel), of_ready (by decide +kernel), of_ready (by decide +kernel)⟩

/-! ### Accesses -/

/-- How the accesses of an operation fare at issue: none active 0, in order 1, a serviced cause 2, another cause 3. -/
def fare (i : Instr) (I : Iss) (accs : List Acc) (store : Bool) (marked : List Nat) : Nat :=
  if accs = [] then 0
  else match accReport i I.S.pc accs (I.accCauses accs (accAlign i) store marked) with
    | none => 1
    | some r => if r.cause.serviced then 2 else 3

/-- A load of a word through s0, s1, s2 with offset 0, its limit selected. -/
def ldx (hd : Hdr) (lsel : Fin 8) : LdA := ⟨hd, .v 9, .s 0, .imm 0, .w, false, .grp, false, false, .last, 0, lsel, 0⟩

/-- The accesses of such a load. -/
def ldAccs (I : Iss) : List Acc := lanesOf I (.s 0) (loadOffset I (ldx h 0)) 1 4

/-- EXACT cleared on core 0. -/
def inexact (s : State) : State :=
  (s.modCore 0 fun k => { k with exact := Vector.replicate 16 false }).modCtx 0 fun x => { x with forced := false }

/-- A space-1 pointer in s0, s1, s2: bytes the crew of `s0` does not have. -/
def outside : State := withS [(2, w 0x10000)]

/-- A misaligned pointer. -/
def odd : State := withS [(0, w 1)]

/-- A guess without lanes. -/
def guess0 : Guess := ⟨0, .none, 1, 0, false, .w, true, []⟩

/-- `s0` with 16 open guesses. -/
def full16 : State := inexact (withG fun G => { G with guesses := List.replicate 16 guess0 })

/-- A demand load by its selector, by EXACT, one with no active lane, in order, with a serviced and an unserviced cause; a limited load,
one with 16 guesses open, one with a hidden cause and one with another. -/
theorem witness_LoadsIssue :
    Meets s0 h (LdA.use (ldx h 0)) (fun I => isDemand I (ldx h 0) && fare (.ld (ldx h 0)) I (ldAccs I) false [] == 1) ∧
    Meets s0 h (LdA.use (ldx h 6)) (fun I => isDemand I (ldx h 6)) ∧
    Meets s0 off (LdA.use (ldx off 0)) (fun I => fare (.ld (ldx off 0)) I (ldAccs I) false [] == 0) ∧
    Meets outside h (LdA.use (ldx h 0)) (fun I => fare (.ld (ldx h 0)) I (ldAccs I) false [] == 2) ∧
    Meets odd h (LdA.use (ldx h 0)) (fun I => fare (.ld (ldx h 0)) I (ldAccs I) false [] == 3) ∧
    Meets s0 h (Use.ofTriple { reads := [.imm 0] } (.s 0)) (fun I => isDemand I (ldx h 0)) ∧
    Meets (inexact s0) h (LdA.use (ldx h 1)) (fun I => !isDemand I (ldx h 1) && I.G.guesses.length == 0 && ldAccs I != []) ∧
    Meets (inexact s0) h (LdA.use (ldx h 7)) (fun I => !isDemand I (ldx h 7)) ∧
    Meets full16 h (LdA.use (ldx h 1)) (fun I => !isDemand I (ldx h 1) && I.G.guesses.length == 16) ∧
    Meets (inexact outside) h (LdA.use (ldx h 1)) (fun I => !isDemand I (ldx h 1) && (I.accCauses (ldAccs I) (fun n => n) false []).any fun p => p.2.hides) ∧
    Meets (inexact odd) h (LdA.use (ldx h 1)) (fun I => !isDemand I (ldx h 1) && (I.accCauses (ldAccs I) (fun n => n) false []).any fun p => !p.2.hides) ∧
    Meets (inexact s0) h (Use.ofTriple { reads := [.imm 0] } (.s 0)) (fun I => !isDemand I (ldx h 1)) ∧
    Meets ((inexact s0).modCtx 0 fun x => { x with forced := true }) h (LdA.use (ldx h 1)) (fun I => isDemand I (ldx h 1)) ∧
    Meets (inexact (withG fun G => G.modSplit 0 fun S => { S with m := ~~~1, o := ~~~1 })) h (Use.ofTriple { reads := [.imm 0] } (.s 0))
      (fun I => !isDemand I (ldx h 1) && exited0 I (.s 9) == [1]) :=
  ⟨of_ready (by decide +kernel), of_ready (by decide +kernel), of_ready (by decide +kernel), of_ready (by decide +kernel), of_ready (by decide +kernel), of_ready (by decide +kernel),
    of_ready (by decide +kernel), of_ready (by decide +kernel), of_ready (by decide +kernel), of_ready (by decide +kernel),
    of_ready (by decide +kernel), of_ready (by decide +kernel), of_ready (by decide +kernel), of_ready (by decide +kernel)⟩

/-- A store of v9, or of s9, released to the device. -/
def stx (d : Opnd) : StA := ⟨h, d, .s 0, .imm 0, .w, true, .dev⟩

theorem witness_StoresIssue :
    Meets s0 h (StA.use (stx (.v 9))) (fun I => fare (.st (stx (.v 9))) I (ldAccs I) true [] == 1) ∧
    Meets (withG (setV 9 fun _ => mk1)) h (StA.use (stx (.v 9))) (fun I => (I.dataV (.v 9) 1 0).2 && !I.uses 2) ∧
    Meets s0 h (Use.ofTriple { reads := [.imm 0, .s 9], sr := [(9, 1)] } (.s 0)) fun _ => true :=
  ⟨of_ready (by decide +kernel), of_ready (by decide +kernel), of_ready (by decide +kernel)⟩

theorem witness_RowPrefetchAndLimitIssue :
    Meets s0 h { reads := [.imm 0, .imm 0], dsts := [.v 9] } (fun _ => true) ∧ Meets s0 h { reads := [.imm 0, .imm 0, .v 9] } (fun _ => true) ∧
    Meets s0 h (Use.ofTriple { reads := [.imm 0] } (.s 0)) (fun _ => true) ∧
    Meets (withS [(1, mk1)]) h (Use.ofTriple { reads := [.imm 0] } (.s 0)) (fun I => (lanesOf I (.s 0) (fun _ => (0, false)) 1 1).any fun a => a.cause.isSome) ∧
    both { reads := [.s 0] } ∧ Meets (withS [(0, mk1)]) h { reads := [.s 0] } (fun I => I.qok && (I.sval true (.s 0)).k) :=
  ⟨of_ready (by decide +kernel), of_ready (by decide +kernel), of_ready (by decide +kernel), of_ready (by decide +kernel),
    ⟨of_ready (by decide +kernel), of_ready (by decide +kernel)⟩, of_ready (by decide +kernel)⟩

/-! ### Guesses, tokens, synchronisation -/

/-- `s0` with an open guess of v9 in lane 0. -/
def guessing (st : GState) : State := withG fun G => { G with guesses := [⟨0, .vec (.v 9), 1, 0, false, .w, true, [⟨0, 0, .w, st⟩]⟩] }

theorem witness_GuessMarkResults :
    Meets s0 h { reads := [.v 9] } (fun _ => true) ∧ Meets s0 h (KReg.use (.r (.v 9))) (fun _ => true) ∧ both {} ∧
    Meets (guessing .outstanding) h (KReg.use (.r (.v 9))) (fun I => (I.G.openOf (gdest (.v 9)) I.active).length == 1) :=
  ⟨of_ready (by decide +kernel), of_ready (by decide +kernel), ⟨of_ready (by decide +kernel), of_ready (by decide +kernel)⟩,
    of_ready (by decide +kernel)⟩

/-- The open lanes of v9 that are FAULTED. -/
def faults9 (I : Iss) : List Cause := (I.G.openOf (gdest (.v 9)) I.active).filterMap fun p => p.2.st.fault?

theorem witness_DemandDeliversGuesses :
    Meets (guessing .outstanding) h { dsts := [.v 9] } (fun I => (I.G.openOf (gdest (.v 9)) I.active).any fun p => p.2.st == .outstanding) ∧
    Meets (guessing (.faulted .ueData)) h { dsts := [.v 9] } (fun I => faults9 I == [.ueData]) ∧
    Meets (guessing (.arrived [7] 0)) h { dsts := [.v 9] } (fun I => faults9 I == [] && (I.G.openOf (gdest (.v 9)) I.active).length == 1) ∧
    Meets (guessing (.faulted .page)) h { dsts := [.v 9] } (fun I => faults9 I == [.page] && I.G.kretry != some I.S.pc) ∧
    Meets ((guessing (.faulted .page)).modGroup 0 0 fun G => { G with kretry := some 0 }) h { dsts := [.v 9] }
      (fun I => faults9 I == [.page] && I.G.kretry == some I.S.pc) :=
  ⟨of_ready (by decide +kernel), of_ready (by decide +kernel), of_ready (by decide +kernel), of_ready (by decide +kernel), of_ready (by decide +kernel)⟩

/-- A token instruction on the region at s0, s1, s2. -/
def tkx : TkA := ⟨h, .crew, some 0, 0, .s 4⟩

/-- The worst cause of a token operation of `tkx` at the pointer at s0, s1, s2. -/
def tokWorst (f : TkA → Instr) (I : Iss) : Option Cause :=
  worst (I.s.tokCauses I.who (f tkx) (accOf 0 I.t (I.striple 0).1 1 (I.striple 0).2) 0)

/-- `s0` with a region of 4096 bytes at 0 that its core holds, in its token cache, and may write. -/
def tokenHeld : State :=
  let s := s0.modCtx 0 fun x => { x with regions := [⟨0, 12, .owned, s0.holderOf ⟨0, 0, 0, 0, none, none⟩ .crew, noHolder, 0, some 0⟩] }
  s.modCore 0 fun k => { k with caches := { k.caches with tlb := [⟨0, 0, 12, 0, true, true, false⟩], tok := [⟨0, 0, 0⟩] } }

theorem witness_TokenInstructionsIssue :
    both (TkA.use tkx) ∧ both { sr := [(0, 3)] } ∧
    Meets s0 h { sr := [(0, 3)] } (fun I => !((I.crew.map (·.root)).getD false) && I.qok) ∧
    Meets (withS [(2, mk1)]) h { sr := [(0, 3)] } (fun I => (I.striple 0).2 && I.qok) ∧
    Meets outside h { sr := [(0, 3)] } (fun I => tokWorst .tkret I == some .illPtr) ∧
    Meets (withS [(2, w 0x40000)]) h { sr := [(0, 3)] } (fun I => tokWorst .tkret I == some .prot) ∧
    Meets s0 h (TkA.use tkx) (fun I => tokWorst .tksplit I == none) ∧
    Meets tokenHeld h { sr := [(0, 3)] } (fun I =>
      let p := (I.striple 0).1
      let caches := (I.s.core I.c).caches
      I.qok && ((I.s.ctx I.G.ctx).region? (Ptr.local p)).any fun r =>
        Ptr.space p == 0 && Ptr.rank p == 0 && Ptr.module p == Config.thisModule && I.s.holdsNow I.who (I.s.holderOf I.who .crew) r &&
        I.s.inFlight I.who r == .none && caches.tok.any (fun e => e.ctx == I.G.ctx && e.base == r.base && e.ready ≤ I.t) && ((I.s.cached I.c I.G.ctx (Ptr.local p)).any fun e => e.w && !e.h)) :=
  ⟨⟨of_ready (by decide +kernel), of_ready (by decide +kernel)⟩, ⟨of_ready (by decide +kernel), of_ready (by decide +kernel)⟩,
    of_ready (by decide +kernel), of_ready (by decide +kernel), of_ready (by decide +kernel), of_ready (by decide +kernel),
    of_ready (by decide +kernel), of_ready (by decide +kernel)⟩

/-- Atomics on words: an exchange and a compare and swap. -/
def atx (op : AtomOp) : AtomA := ⟨h, op, .v 9, 0, .imm 0, false, false, .rel, .dev, .v 8⟩

theorem witness_AtomicsIssue :
    Meets s0 h (AtomA.use (atx .cas)) (fun I => fare (.atom (atx .cas)) I (ldAccs I) true [] == 1) ∧
    Meets (withG (setV 9 fun _ => mk1)) h (AtomA.use (atx .xchg)) (fun I => ((I.vsrc false (.v 9)).at 0).k) ∧
    Meets s0 h { reads := [.imm 0], sr := (0, 3) :: [(9, 1)] ++ [(8, 1)] } (fun _ => true) ∧ both { sr := [(0, 3)] } :=
  ⟨of_ready (by decide +kernel), of_ready (by decide +kernel), of_ready (by decide +kernel),
    ⟨of_ready (by decide +kernel), of_ready (by decide +kernel)⟩⟩

/-- The waypoint words where a phase ends: a target of 2 with one arrival and with none. -/
theorem witness_AtomicNewValues :
    max ((0x00020001 : Word).toNat / 65536 % 32768) 1 ≤ (0x00020001 : Word).toNat % 65536 + 1 ∧
    ¬ max ((0x00020000 : Word).toNat / 65536 % 32768) 1 ≤ (0x00020000 : Word).toNat % 65536 + 1 ∧
    wpArrive 0x00020001 = 0x80020000 ∧ wpArrive 0x00020000 = 0x00020001 := by decide

/-- `s0` with an operation of its group. -/
def withOp (i : Instr) (accs : List Acc) (st : Stage) (args : List Word) : State :=
  s0.addOp 0 { id := 90, slot := 0, split := 0, pc := 0, ins := i, t := 0, active := Lanes.all, args := args, vargs := [], accs := accs,
               stage := st, setf := some 3, due := 0, limit := some 4, last := 0, firstRead := none, cause := none, data := [], acq := false }

/-- A wait for a word of s0, s1, s2. -/
def wax : WaitA := ⟨h, .eq, .crew, false, 2, .s 14, 0, .s 7⟩

theorem witness_SynchronisationIssues :
    both {} ∧ Meets s0 h {} (fun I => I.crew.any fun k => !k.att.now?) ∧
    Meets (s0.modCrew 0 0 fun k => { k with att := .attached 0 0, bars := Vector.replicate 4 ⟨false, [0]⟩ }) h {}
      (fun I => (I.crew.any fun k => k.att.now?) && I.crew.any fun k => (k.bars[0]?.getD (Bar.mk false [])).arrived.contains I.G.pos) ∧
    both { reads := [.s 7], sr := [(0, 3)] } ∧
    Meets (withS [(7, mk1)]) h { reads := [.s 7], sr := [(0, 3)] } (fun I => I.qok && (I.sval false (.s 7)).k) ∧
    Meets (withOp (.waita wax) [] .check []) h { reads := [.s 7], sr := [(0, 3)] }
      (fun I => (I.s.core I.c).ops.any fun q => q.slot == I.g && monitors q I.t) ∧
    Meets s0 h { reads := [.s 7], sr := [(0, 3)] } (fun I => fare (.waita wax) I [accOf 0 I.t (I.striple 0).1 4 (I.striple 0).2] false [] == 1) :=
  ⟨⟨of_ready (by decide +kernel), of_ready (by decide +kernel)⟩, of_ready (by decide +kernel), of_ready (by decide +kernel),
    ⟨of_ready (by decide +kernel), of_ready (by decide +kernel)⟩, of_ready (by decide +kernel), of_ready (by decide +kernel),
    of_ready (by decide +kernel)⟩

/-! ### The array -/

/-- The TCFG word of BF16 tiles of 16 rows and 16 columns. -/
def cfg16 : Word := 0x101E3C01

/-- The tiles 3 and 4 and the bank 1 of `s0`'s crew, their rows its group's. -/
def array : State := s0.modCore 0 fun k =>
  let k := [3, 4].foldl (fun k n => k.modTile n fun t => { t with cfg := cfg16, owner := some (0, 0) }) k
  k.modBank 1 fun b => { b with owner := some (0, 0), rows := Vector.replicate 32 (some 0) }

/-- Words of s registers on `array`. -/
def arrayS (l : List (Nat × Elem)) : State := array.modGroup 0 0 fun G => l.foldl (fun G p => setS p.1 p.2 G) G

theorem witness_TileInstructionsIssue :
    both { reads := [.c 10], sr := [(0, 3)] } ∧
    Meets (withS [(2, mk1)]) h { reads := [.c 10], sr := [(0, 3)] } (fun I => I.qok && (I.striple 0).2) ∧
    Meets s0 h { reads := [.s 9], sr := [(0, 3)] } (fun I => ((I.s.core I.c).tileFault I.G.ctx I.G.crew 3).isSome &&
      Ptr.addr (I.striple 0).1 % 8 == 0 && (I.sval true (.s 9)).val.toNat % 4 == 0) ∧
    Meets (arrayS [(9, w 32)]) h { reads := [.s 9], sr := [(0, 3)] } (fun I => ((I.s.core I.c).tileFault I.G.ctx I.G.crew 3).isNone &&
      (tcfg cfg16).rowLen ≤ (I.sval true (.s 9)).val.toNat &&
      I.accCauses ((imageParts (tcfg cfg16) 0 32).map fun q => accOf 0 I.t (Ptr.advance 0 q.1) q.2 false) (fun _ => 1) true [] == []) ∧
    both {} ∧ Meets array h {} (fun I => ((I.s.core I.c).tileFault I.G.ctx I.G.crew 3).isNone &&
      tcfg ((I.s.core I.c).tile 3).cfg == tcfg ((I.s.core I.c).tile 4).cfg) :=
  ⟨⟨of_ready (by decide +kernel), of_ready (by decide +kernel)⟩, of_ready (by decide +kernel), of_ready (by decide +kernel),
    of_ready (by decide +kernel), ⟨of_ready (by decide +kernel), of_ready (by decide +kernel)⟩, of_ready (by decide +kernel)⟩

/-- The record of a task of 16 × 16 × 16 on tiles 3 and 4 into bank 1. -/
def task16 : TRec := ⟨.bf16, false, false, false, 1, 3, 4, 16, 16, 16, 0, 0, 0, none, none⟩

/-- A task of a window. -/
def tsk (id : Nat) : Task := ⟨id, 0, 0, .bf16, false, false, false, 1, 3, 4, 16, 16, 16, 0, 0, 0, some 3, none, 0, none, false⟩

/-- `array` with `n` tasks in its tenant's window. -/
def tasks (n : Nat) : State := array.modCore 0 fun k =>
  { k with mx := { k.mx with tenants := [⟨0, (List.range n).map fun i => tsk (70 + i), 0, 0, ⟨0, 0, 0, 0, 0, 0⟩⟩] } }

theorem witness_MatrixTasksIssue :
    both { reads := [.s 9] } ∧ Meets (withS [(9, mk1)]) h { reads := [.s 9] } (fun I => I.qok && (I.sval false (.s 9)).k) ∧
    Meets (withS [(9, w (2 ^ 27))]) h { reads := [.s 9] } (fun I => 2 ^ 27 ≤ (I.sval false (.s 9)).val.toNat) ∧
    Meets s0 h { reads := [.s 9] } (fun I => (((I.s.core I.c).taskFault I.G.ctx I.G.crew 0 task16).isSome)) ∧
    Meets (tasks 15) h { reads := [.s 9] } (fun I => (I.s.core I.c).taskFault I.G.ctx I.G.crew 0 task16 == none &&
      (I.s.core I.c).windowUse I.G.ctx (I.s.sameCtx I.c I.G.ctx) == 15) ∧
    Meets (tasks 16) h { reads := [.s 9] } (fun I => (I.s.core I.c).taskFault I.G.ctx I.G.crew 0 task16 == none &&
      (I.s.core I.c).windowUse I.G.ctx (I.s.sameCtx I.c I.G.ctx) == 16) ∧
    both { reads := [.s 0, .imm 1] } ∧ Meets odd h { reads := [.s 0, .imm 1] } (fun I => (I.sval true (.s 0)).val.toNat % 64 != 0) ∧
    Meets s0 h { reads := [.s 0, .s 1] } (fun I => (I.sval true (.s 1)).val == 0) ∧
    Meets (s0.modCrew 0 0 fun k => { k with size := 1024 }) h { reads := [.s 0, .imm 16] } (fun I =>
      (I.sval true (.s 0)).val.toNat + 64 * (I.sval true (.imm 16)).val.toNat ≤ ((I.crew.map (·.size)).getD 0)) :=
  ⟨⟨of_ready (by decide +kernel), of_ready (by decide +kernel)⟩, of_ready (by decide +kernel), of_ready (by decide +kernel),
    of_ready (by decide +kernel), of_ready (by decide +kernel), of_ready (by decide +kernel),
    ⟨of_ready (by decide +kernel), of_ready (by decide +kernel)⟩, of_ready (by decide +kernel), of_ready (by decide +kernel),
    of_ready (by decide +kernel)⟩

theorem witness_BankOwnershipIssues :
    both { reads := [.s 0] } ∧ Meets (withS [(0, mk1)]) h { reads := [.s 0] } (fun I => I.qok && (I.sval true (.s 0)).k) ∧
    Meets array h { reads := [.s 0] } (fun I => (I.s.core I.c).bankFault I.G.ctx I.G.crew 1 == none &&
      (rowsOf (I.sval true (.s 0)).val).all fun i => (((I.s.core I.c).bank 1).rows[i]?).join == some I.G.pos) ∧
    Meets s0 h { reads := [.s 0] } (fun I => (I.s.core I.c).bankFault I.G.ctx I.G.crew 1 == some .acmUnalloc) ∧
    both { reads := [.s 0, .s 1] } ∧
    Meets array h { reads := [.s 0, .s 1] } (fun I => (bandTarget ((I.crew.map I.s.expected).getD []) I.G.pos (I.sval true (.s 1)).val).isSome) :=
  ⟨⟨of_ready (by decide +kernel), of_ready (by decide +kernel)⟩, of_ready (by decide +kernel), of_ready (by decide +kernel),
    of_ready (by decide +kernel), ⟨of_ready (by decide +kernel), of_ready (by decide +kernel)⟩, of_ready (by decide +kernel)⟩

theorem witness_BankMovesIssue :
    both { names := [.s 0], dsts := [.v 9] } ∧ Meets array h { names := [.s 0], dsts := [.v 9] } (fun I =>
      (I.s.core I.c).bankFault I.G.ctx I.G.crew 1 == none && I.active == Lanes.all) ∧
    Meets (withG (setV 9 fun _ => mk1)) h { names := [.v 9, .s 0] } (fun I => ((I.vsrc false (.v 9)).at 0).k && !I.uses 4) ∧
    Meets array h { reads := [.c 1], names := [.v 9] } (fun I => I.G.ueRegs.all fun u => u.1 != .v 9) ∧ both { names := [.v 9, .s 0] } :=
  ⟨⟨of_ready (by decide +kernel), of_ready (by decide +kernel)⟩, of_ready (by decide +kernel), of_ready (by decide +kernel),
    of_ready (by decide +kernel), ⟨of_ready (by decide +kernel), of_ready (by decide +kernel)⟩⟩

/-- An uncorrectable window word, and an uncorrectable word of the data. -/
theorem witness_BankMovesIssue_uncorrectable :
    Meets (array.modGroup 0 0 fun G => { G with ueS := [0] }) h { names := [.v 9, .s 0] } (fun I =>
      I.badScalars { reads := [.s 0], sr := BankSel.regs (.a 1) }) ∧
    Meets (array.modGroup 0 0 fun G => { G with ueRegs := [(.v 9, 95)] }) h { names := [.v 9, .s 0] } (fun I => I.badLanes (.v 9) I.active) :=
  ⟨of_ready (by decide +kernel), of_ready (by decide +kernel)⟩

theorem witness_ArrayStatusIssues :
    both {} ∧ Meets (tasks 1) h {} (fun I => ((I.s.core I.c).tenant? I.G.ctx).isSome && (I.s.core I.c).bankFault I.G.ctx I.G.crew 1 == none) :=
  ⟨⟨of_ready (by decide +kernel), of_ready (by decide +kernel)⟩, of_ready (by decide +kernel)⟩

/-! ### Engines, streams and the system instructions -/

/-- A COPY through s0 to s20. -/
def cpx : CopyA := ⟨h, false, false, false, .crew, 20, 0, .c 5, 0⟩

/-- A packet that waits for its payload in an engine slot. -/
def pkt (id eslot : Nat) : Packet := ⟨id, eslot, 0, 0, 0, some 3, none, none, 0, 2, 1, none, true, [7], [], 0, false⟩

/-- `s0` with all engine slots taken. -/
def engFull : State := s0.modCore 0 fun k => { k with packets := (List.range 64).map fun i => pkt (100 + i) i }

theorem witness_CopyAndSendIssue :
    both { reads := [.c 5], sr := [(20, 3), (0, 3), (0, 0)] } ∧
    Meets s0 h { reads := [.c 5], sr := [(20, 3), (0, 3), (0, 0)] } (fun I => (State.freeEngSlot (I.s.core I.c)).isSome) ∧
    Meets engFull h { reads := [.c 5], sr := [(20, 3), (0, 3), (0, 0)] } (fun I => (State.freeEngSlot (I.s.core I.c)).isNone) ∧
    both { reads := [.s 5, .s 6, .s 7], sr := [(7, 1)] } ∧
    Meets (withS [(7, mk1)]) h { reads := [.s 5, .s 6, .s 7], sr := [(7, 1)] } (fun I => I.qok && (I.sreg 7).k && !I.uses 2) ∧
    Meets (s0.modCrew 0 0 fun k => { k with size := 1024, ueWords := [0] }) h { reads := [.s 5, .s 6, .s 7], sr := [(7, 1)] }
      (fun I => I.qok && (I.s.scratchWords I.who 0 1).2.1) :=
  ⟨⟨of_ready (by decide +kernel), of_ready (by decide +kernel)⟩, of_ready (by decide +kernel), of_ready (by decide +kernel),
    ⟨of_ready (by decide +kernel), of_ready (by decide +kernel)⟩, of_ready (by decide +kernel), of_ready (by decide +kernel)⟩

theorem witness_RingAndWindowIssue :
    both { reads := [.s 5, .s 6] } ∧ both { reads := [.s 5], sr := [(0, 3), (8, 3)] } ∧ both { reads := [.s 5] } ∧ both {} ∧
    Meets odd h { reads := [.s 0, .s 6] } (fun I => I.s.engCauses I.who (.ringset ⟨h, some 1, 0, .s 0, .s 6⟩) [1, 0] [] == [.align]) ∧
    Meets s0 h { reads := [.s 5, .s 6] } (fun I => I.s.engCauses I.who (.ringset ⟨h, some 1, 0, .s 5, .s 6⟩) [0, 0] [] == []) :=
  ⟨⟨of_ready (by decide +kernel), of_ready (by decide +kernel)⟩, ⟨of_ready (by decide +kernel), of_ready (by decide +kernel)⟩,
    ⟨of_ready (by decide +kernel), of_ready (by decide +kernel)⟩, ⟨of_ready (by decide +kernel), of_ready (by decide +kernel)⟩,
    of_ready (by decide +kernel), of_ready (by decide +kernel)⟩

/-- `s0` whose crew has bytes in its scratchpad. -/
def scratch (f : Crew → Crew) : State := s0.modCrew 0 0 fun k => f { k with size := 1024 }

theorem witness_StreamInstructionsIssue :
    both { reads := [.s 5] } ∧ Meets (withS [(5, mk1)]) h { reads := [.s 5] } (fun I => I.qok && (I.sval true (.s 5)).k) ∧
    Meets s0 h { reads := [.s 5] } (fun I => I.s.early I.who (ownSpace 0) 64 64 false == some .prot) ∧
    Meets (withS [(5, w 4)]) h { reads := [.s 5] } (fun I => I.s.early I.who (ownSpace (I.sval true (.s 5)).val.toNat) 64 64 false == some .align) ∧
    Meets (scratch id) h { reads := [.s 5] } (fun I => I.s.early I.who (ownSpace 0) 64 64 false == none) ∧
    Meets (scratch fun k => { k with spill := [3] }) h { reads := [.s 5] } (fun I => (I.s.scratchWords I.who 0 16).2.2) ∧
    Meets (scratch fun k => { k with ueWords := [3] }) h { reads := [.s 5] } (fun I => (I.s.scratchWords I.who 0 16).2.1) ∧
    both { dsts := [.s 12] } ∧
    Meets (s0.modCore 0 fun k => { k with queues := k.queues.set 1 ⟨some 1, []⟩ }) h { dsts := [.s 12] }
      (fun I => (I.s.queue I.c 1).claim.any fun g => g != I.g) ∧
    Meets full16 h { dsts := [.s 12] } (fun I => !((I.s.core I.c).exact[0]) && I.G.guesses.length == 16) ∧
    Meets (inexact s0) h { dsts := [.v 12] } (fun I => !((I.s.core I.c).exact[0]) && (I.s.queue I.c 1).claim.isNone) :=
  ⟨⟨of_ready (by decide +kernel), of_ready (by decide +kernel)⟩, of_ready (by decide +kernel), of_ready (by decide +kernel),
    of_ready (by decide +kernel), of_ready (by decide +kernel), of_ready (by decide +kernel), of_ready (by decide +kernel),
    ⟨of_ready (by decide +kernel), of_ready (by decide +kernel)⟩, of_ready (by decide +kernel), of_ready (by decide +kernel),
    of_ready (by decide +kernel)⟩

/-- A tile of another crew, and a tile of the own crew in the index register. -/
theorem witness_SpecialRegisterAccess :
    both {} ∧ both { reads := [.s 5] } ∧ both { reads := [.s 5, .s 6] } ∧
    Meets s0 h { reads := [.s 5] } (fun I => !indexOk .wl 0 (I.sval true (.s 5)).val.toNat) ∧
    Meets (withS [(5, w 6)]) h { reads := [.s 5] } (fun I => indexOk .wl 0 (I.sval true (.s 5)).val.toNat) ∧
    Meets (withS [(5, mk1)]) h { reads := [.s 5] } (fun I => (I.sval true (.s 5)).k) ∧
    Meets (arrayS [(5, w 3)]) h { reads := [.s 6, .s 5] } (fun I => (I.s.core I.c).turn I.G.ctx I.t I.id ⟨[], [3]⟩ == .go) ∧
    Meets (s0.modCore 0 fun k => k.modTile 0 fun t => { t with owner := some (0, 1) }) h { reads := [.s 6, .s 5] }
      (fun I => ((I.s.core I.c).tile 0).owner.isSome && ((I.s.core I.c).tile 0).owner != some (I.G.ctx, I.G.crew)) :=
  ⟨⟨of_ready (by decide +kernel), of_ready (by decide +kernel)⟩, ⟨of_ready (by decide +kernel), of_ready (by decide +kernel)⟩,
    ⟨of_ready (by decide +kernel), of_ready (by decide +kernel)⟩, of_ready (by decide +kernel), of_ready (by decide +kernel),
    of_ready (by decide +kernel), of_ready (by decide +kernel), of_ready (by decide +kernel)⟩

/-- A SPAWN with a free slot and a place for it, one without registers to spare, one with marked elements. -/
theorem witness_TrapAndSpawn :
    both {} ∧ Meets s0 off { vr := [(8, 8)] } (fun I => !I.qok || I.active == 0) ∧
    Meets (withG fun G => { G with budget := 16 }) h { vr := [(8, 8)] } (fun I => I.active != 0 && I.crew.any fun k =>
      (State.livePos k).length < 16 && (I.s.reserved I.c).1 < (I.s.freeSlots I.c).length &&
      I.s.regsUsed I.c + (I.s.reserved I.c).2 + I.G.budget ≤ Config.coreRegs && (I.s.freeSlots I.c).head? == some 1 &&
      (I.s.leg? I.G.ctx k.leg).isSome && (List.range 16).find? (fun p => !(State.livePos k).contains p) == some 1) ∧
    Meets (s0.modCrew 0 0 fun k => { k with slots := Vector.replicate 16 (some 0) }) h { vr := [(8, 8)] }
      (fun I => I.crew.any fun k => (State.livePos k).length == 16) ∧
    Meets (withG (setV 9 fun _ => mk1)) h { vr := [(8, 8)] } (fun I => ((I.G.regs.vec (.v 9)).at 0).k) :=
  ⟨⟨of_ready (by decide +kernel), of_ready (by decide +kernel)⟩, of_ready (by decide +kernel), of_ready (by decide +kernel),
    of_ready (by decide +kernel), of_ready (by decide +kernel)⟩

/-- `s0` with a system context and core 1 in its place table. -/
def sys (l : List (Nat × Elem)) : State :=
  (withS l).modCtx 0 fun x => { x with regs := { x.regs with system := true }, place := x.place.set 0 0x80000800 }

theorem witness_SystemInstructionsIssue :
    both { reads := [.imm 0], sr := [(0, 3)] } ∧ Meets outside h { reads := [.imm 0], sr := [(0, 3)] } (fun I => Ptr.space (I.striple 0).1 != 0) ∧
    Meets s0 h { reads := [.imm 0], sr := [(0, 3)] } (fun I => I.active != 0 && Ptr.space (I.striple 0).1 == 0 && Ptr.addr (I.striple 0).1 % 64 == 0) ∧
    both { reads := [.s 5, .s 6], sr := [(0, 3)] } ∧
    Meets (sys [(6, w 12)]) h { reads := [.s 5, .s 6], sr := [(0, 3)] } (fun I => (I.s.ctx 0).regs.system && (I.sval true (.s 6)).val == 12 &&
      Ptr.module (I.striple 0).1 == Config.thisModule) ∧
    Meets (sys [(6, w 62), (5, w 15)]) h { reads := [.s 5, .s 6], sr := [(0, 3)] } (fun I => (I.sval true (.s 6)).val == 62 && (I.sval true (.s 5)).val == 15) ∧
    Meets (sys [(6, w 11)]) h { reads := [.s 5, .s 6], sr := [(0, 3)] } (fun I => (I.sval true (.s 6)).val == 11) ∧
    both { reads := [.s 5, .s 6] } ∧ Meets (sys []) h { reads := [.s 5, .s 6] } (fun I => (I.s.ctx 0).regs.system) ∧
    both { sr := [(0, 3)] } ∧ both { reads := [.s 5] } ∧
    Meets (sys []) h { reads := [.s 5, .s 6] } (fun I => ((I.s.ctx 0).physical 0).isSome && (I.sval true (.s 6)).val == 0) :=
  ⟨⟨of_ready (by decide +kernel), of_ready (by decide +kernel)⟩, of_ready (by decide +kernel), of_ready (by decide +kernel),
    ⟨of_ready (by decide +kernel), of_ready (by decide +kernel)⟩, of_ready (by decide +kernel), of_ready (by decide +kernel),
    of_ready (by decide +kernel), ⟨of_ready (by decide +kernel), of_ready (by decide +kernel)⟩, of_ready (by decide +kernel),
    ⟨of_ready (by decide +kernel), of_ready (by decide +kernel)⟩, ⟨of_ready (by decide +kernel), of_ready (by decide +kernel)⟩,
    of_ready (by decide +kernel)⟩

/-! ### Events -/

/-- Something is there, and a condition holds of it. -/
def Has {α : Type} (o : Option α) (p : α → Bool) : Prop := ∃ x, o = some x ∧ p x = true

theorem of_has {α : Type} {o : Option α} {p : α → Bool} (h : o.any p = true) : Has o p := by
  cases o with
  | none => simp at h
  | some x => exact ⟨x, rfl, by simpa using h⟩

/-- `s0` with nothing at the issue slot. -/
def e0 : State := s0.clearIssue

/-- A state in cycle `n` of quadrant 0. -/
def later (n : Nat) (s : State) : State := s.modSch fun h => { h with quadClk := h.quadClk.set 0 n }

theorem witness_SchedulerEvents :
    (e0.sch.issue = none ∧ e0.stepOn 0 = none ∧ ((e0.core 0).enabled && (e0.core 0).stalled.isNone && (e0.core 0).frozen.isNone) = true) ∧
    Has ((withG fun G => ({ G with cur := some 0 } : Group).modSplit 0 fun S => { S with runLen := 24 }).group? 0 0)
      (fun G => G.cur == some 0 && (G.splits[0]).any fun S => 24 ≤ S.runLen) ∧
    Has ((e0.modCore 0 fun k => { k with frozen := some 5 }).core 0).frozen (fun l => l == 5) ∧
    Has ((e0.modGroup 0 0 fun G => { G with parked := some 3 }).group? 0 0) (fun G => G.parked == some 3 &&
      (List.range 32).all fun h => h == 0 || (e0.group? 0 h).isNone) ∧
    Has ((e0.modCrew 0 0 fun k => { k with committed := true, sbuf := [⟨0, 0, 1, 7⟩, ⟨1, 32, 1, 7⟩] }).crew? 0 0)
      (fun k => k.committed && k.sbuf.length == 2) :=
  ⟨⟨rfl, rfl, by decide +kernel⟩, of_has (by decide +kernel), of_has (by decide +kernel), of_has (by decide +kernel), of_has (by decide +kernel)⟩

/-- An access of lane 0 with a limit, answered or not. -/
def acc0 (p : Ptr) (lim arr : Option Nat) : Acc := { accOf 0 0 p 4 false with lim := lim, arr := arr }

/-- A load of v9. -/
def ld9 : Instr := .ld (ldx h 1)

/-- A load whose limit has passed at cycle 9, one whose value has arrived, and one that still waits at cycle 4. -/
theorem witness_LandingEvents :
    Has ((withG fun G => { G with pend := [⟨90, 0, [.qbit 1 true], some 3, 0, []⟩] }).group? 0 0)
      (fun G => (G.pend.find? fun q => q.id == 90).isSome && !G.ending) ∧
    Has ((later 9 (withOp ld9 [acc0 0 (some 4) none] .check [])).op? 0 90) (fun o => o.stage == .check && (ldInfo o.ins).isSome &&
      o.accs.all fun a => a.lim.any fun n => n < 9) ∧
    Has ((later 4 (withOp ld9 [acc0 0 (some 4) none] .check [])).op? 0 90) (fun o => o.accs.any fun a => a.arr.isNone && a.lim == some 4) ∧
    Has ((later 9 (withOp ld9 [acc0 0 (some 40) (some 8)] .check [])).op? 0 90) (fun o => o.accs.all fun a => a.arr == some 8) ∧
    Has ((later 9 (withOp ld9 [acc0 0 none (some 8)] .performed [])).op? 0 90) (fun o => (ldInfo o.ins).isSome && o.accs.all fun a => a.lim.isNone) :=
  ⟨of_has (by decide +kernel), of_has (by decide +kernel), of_has (by decide +kernel), of_has (by decide +kernel), of_has (by decide +kernel)⟩

/-- A walk under way in quadrant 0, of a page that no table maps, and of one in a page table of one entry. -/
def walking : State := e0.modQuad 0 fun x => { x with walks := [⟨5, 0, 0, 0, false⟩] }

theorem witness_AccessEvents :
    Has ((walking.quad 0).walks.find? fun v => v.id == 5) (fun w => w.core < 768 && match walking.walk w.ctx w.va with
      | .ok _ => false
      | .fault .. => true) ∧
    Has ((withOp ld9 [] .lent []).op? 0 90) (fun o => o.stage == .lent) ∧ Has ((withOp ld9 [] .check []).op? 0 90) (fun o => o.stage == .check) ∧
    Has ((withOp ld9 [] .waiting []).op? 0 90) (fun o => o.stage == .waiting) ∧
    Has ((withOp ld9 [] .performed []).op? 0 90) (fun o => o.stage == .performed) :=
  ⟨of_has (by decide +kernel), of_has (by decide +kernel), of_has (by decide +kernel), of_has (by decide +kernel), of_has (by decide +kernel)⟩

/-- Two walks of one quadrant, the second queued; the first keeps its fault. -/
def walks2 : State := e0.modQuad 0 fun x => { x with walks := [⟨5, 0, 0, 0, true⟩], walkQ := [⟨6, 1, 0, 4096, false⟩] }

theorem witness_AccessEvents_walks :
    Has ((walks2.quad 0).walks.find? fun v => v.id == 5) (fun w => w.keep && match walks2.walk w.ctx w.va with
      | .ok _ => false
      | .fault .. => true) ∧
    Has (walks2.quad 0).walkQ.head? (fun v => quadOf v.core == 0 && decide ((walks2.quad 0).walks.length ≤ State.walkers)) :=
  ⟨of_has (by decide +kernel), of_has (by decide +kernel)⟩

/-- A group that waits for a word of its crew's scratchpad. -/
def awaiting (x : Word) : State := (withOp (.waita wax) [acc0 (ownSpace 0) none none] .waiting [x]).modCrew 0 0 fun k => { k with size := 1024 }

theorem witness_WaitEvents :
    Has ((withOp (.bar ⟨h, 3⟩) [] .check []).op? 0 90) (fun o => (s0.group? 0 o.slot).any fun G => (s0.crew? G.ctx G.crew).any fun k =>
      ((withOp (.bar ⟨h, 3⟩) [] .check []).olderOps 0 o).isEmpty && k.bars[3]?.isSome && decide (((s0.ctx G.ctx).crews.map fun q => q.id).Nodup)) ∧
    Has ((withOp (.gbar ⟨h, 1⟩) [] .check []).op? 0 90) (fun o => (s0.group? 0 o.slot).any fun G => (s0.crew? G.ctx G.crew).any fun k =>
      (withOp (.gbar ⟨h, 1⟩) [] .check []).released (G.who 0) ((withOp (.gbar ⟨h, 1⟩) [] .check []).olderOps 0 o) .gang && k.gbars[1]?.isSome) ∧
    (∀ x ∈ [(0 : Word), 1], Has ((awaiting x).op? 0 90) (fun o => o.stage == .waiting && o.accs.length == 1 &&
      match (awaiting x).look ((awaiting x).opWho 0 o) (ownSpace 0) 4 false with
        | .scratch k b => !((awaiting x).readAt ((awaiting x).opWho 0 o) (.scratch k b) 4).1.2.1 && waitMet o.ins 0 (o.args.headD 0) == (x == 0)
        | _ => false)) ∧
    Has ((withOp (.tld ⟨h, true, .dev, 2, some 1, 3, 0, .c 10⟩) [] .lent []).op? 0 90) (fun o => o.stage == .lent) := by
  refine ⟨of_has (by decide +kernel), of_has (by decide +kernel), ?_, of_has (by decide +kernel)⟩
  intro x hx
  simp only [List.mem_cons, List.not_mem_nil, or_false] at hx
  rcases hx with rfl | rfl <;> exact of_has (by decide +kernel)

/-- One that waits for a word at home, which a write has given a value. -/
def watched (x v : Word) : State := { awaiting x with watch := [⟨0, 90, .home 0, [(3, v)]⟩] }

theorem witness_WaitEvents_seen : ∀ v ∈ [(1 : Word), 2], Has ((watched 1 v).watch.find? fun x => x.core == 0 && x.id == 90) fun m =>
    (m.seen.find? fun y => waitMet (.waita wax) y.2 1) == (if v = 1 then some (3, v) else none) := by
  intro v hv
  simp only [List.mem_cons, List.not_mem_nil, or_false] at hv
  rcases hv with rfl | rfl <;> exact of_has (by decide +kernel)

/-- A token instruction at a stage, on a region of 8192 bytes at 0 in a state, of the caller's crew. -/
def token (i : Instr) (st : Stage) (first : Option Nat) (args : List Word) (r : RState) (mine lent : Bool) : State :=
  let s := (withOp i [acc0 0 none none] st args).modOp 0 90 fun o => { o with firstRead := first }
  s.modCtx 0 fun x => { x with regs := { x.regs with toksz := 16 }, regions :=
    [⟨0, 13, r, if mine then s.holderOf ⟨0, 0, 0, 0, none, none⟩ .crew else noHolder, if lent then holderId 1 0 9 else noHolder, 0, none⟩] }

/-- What the clauses of a token instruction suppose of its region. -/
def tokOk (s : State) (mine : Bool) (p : Region → Bool) : Prop :=
  Has (s.op? 0 90) fun o => (o.accs.head?.any fun a => Ptr.module a.ptr == Config.thisModule) &&
    (o.stage != .home || o.firstRead.isSome || !s.homeBusy 0 o 0) && (o.stage != .waiting || !s.homing 0 0) &&
    ((s.ctx 0).region? 0).any fun r => !s.flushWaits 0 (s.opWho 0 o) 90 r && p r &&
      (!mine || (r.st == .owned && r.owner == s.holderOf (s.opWho 0 o) .crew && r.shares == 0))

/-- The group of `s0`, and its crew as a holder. -/
def who0 : Who := ⟨0, 0, 0, 0, none, none⟩
def mine0 : Word := s0.holderOf who0 .crew

/-- A TKHOME of another group that has begun its flush. -/
def homer : Op :=
  { id := 80, slot := 1, split := 0, pc := 0, ins := .tkhome tkx, t := 0, active := Lanes.all, args := [0, 1, 13], vargs := [],
    accs := [accOf 0 0 0 4 false], stage := .home, setf := none, due := 0, limit := some 0, last := 0, firstRead := some 9, cause := none, data := [],
    acq := false }

/-- A TKHOME behind that one. -/
def behindHomer : State := (token (.tkhome tkx) .home none [] .owned true false).addOp 0 homer

/-- A TKHOME of the region at 0 whose flush ends. -/
def flushed : State :=
  (token (.tkhome tkx) .home (some 9) [0, 1, 13] .owned true false).modOp 0 90 fun o => { o with limit := some 0 }

theorem witness_TokenEvents :
    tokOk (token (.tklend tkx) .home none [holderId 1 0 7] .owned true false) true (fun r => r.lender == noHolder) ∧
    tokOk (token (.tkret tkx) .home none [] .owned true true) true (fun r => r.lender != noHolder) ∧
    tokOk (token (.tkhome tkx) .home none [] .owned true false) true (fun r => r.lender == noHolder) ∧
    tokOk (token (.tkunhome tkx) .home none [] .homed true false) false (fun r => r.st == .homed &&
      ((s0.coverOf ⟨0, 0, 0, 0, none, none⟩ .crew).contains r.owner)) :=
  ⟨of_has (by decide +kernel), of_has (by decide +kernel), of_has (by decide +kernel), of_has (by decide +kernel)⟩

theorem witness_TokenEvents_adopt :
    tokOk (token (.tkadopt tkx) .home none [] .free false false) false (fun r => r.st == .free) ∧
    tokOk (token (.tkadopt tkx) .home none [] .orphaned false false) false (fun r => r.st == .orphaned) ∧
    tokOk (token (.tksplit tkx) .home none [1] .owned true false) true (fun r => 12 ≤ (r.k : Int) - 1 &&
      1 + (2 ^ 1 - 1) ≤ ((token (.tksplit tkx) .home none [1] .owned true false).ctx 0).capacity) :=
  ⟨of_has (by decide +kernel), of_has (by decide +kernel), of_has (by decide +kernel)⟩

theorem witness_TokenEvents_waits :
    Has (behindHomer.op? 0 90) (fun o => o.stage == .home && o.firstRead.isNone && behindHomer.homeBusy 0 o 0) ∧
    (tokOk flushed true (fun r => r.base == 0 && r.k == 13) ∧
      Has (flushed.op? 0 90) fun o => o.limit == some 0 && o.args[1]? == some 1 && o.args[2]? == some (BitVec.ofNat 32 13)) ∧
    tokOk (token (.tkhome tkx) .home (some 9) [0, 1, 13] .lent true false) false (fun r => r.st == .lent) ∧
    tokOk (token (.tklend tkx) .home (some 9) [0] .lent true false) false (fun r => r.st == .lent) ∧
    tokOk (token (.tktake tkx) .waiting none [] .free false false) false (fun r => r.st != .orphaned && !s0.holdsNow who0 mine0 r) ∧
    tokOk (token (.tktake tkx) .waiting none [] .owned true false) true (fun r => r.st != .orphaned && s0.holdsNow who0 mine0 r) :=
  ⟨of_has (by decide +kernel), ⟨of_has (by decide +kernel), of_has (by decide +kernel)⟩,
    of_has (by decide +kernel), of_has (by decide +kernel), of_has (by decide +kernel), of_has (by decide +kernel)⟩

/-- A token instruction on the first of two regions of 4096 bytes, of one owner or of two. -/
def pieces (i : Instr) (args : List Word) (r : RState) (alike : Bool) : State :=
  (token i .home none args r true false).modCtx 0 fun x => { x with regions :=
    [⟨0, 12, r, mine0, noHolder, 0, none⟩, ⟨4096, 12, r, if alike then mine0 else holderId 7 0 0, noHolder, 0, none⟩] }

/-- A shared region of the caller, with as many shares, and a share of its own. -/
def sharing (i : Instr) (n : Nat) (args : List Word) : State :=
  (token i .home none args .shared true false).modCtx 0 fun x =>
    { x with regions := x.regions.map fun r => { r with shares := n }, shares := [⟨0, mine0, 1⟩] }

theorem witness_TokenEvents_join : ∀ x ∈ [(RState.owned, true), (.owned, false), (.homed, true)],
    tokOk (pieces (.tkjoin tkx) [1] x.1 x.2) false (fun r => r.st == x.1 && r.k == 12 && r.owner == mine0 &&
      decide (((pieces (.tkjoin tkx) [1] x.1 x.2).ctx 0).regions.all (fun q => q.owner == mine0) = x.2)) := by
  intro x hx
  simp only [List.mem_cons, List.not_mem_nil, or_false] at hx
  rcases hx with rfl | rfl | rfl <;> exact of_has (by decide +kernel)

theorem witness_TokenEvents_share :
    tokOk (token (.tkshare tkx) .home none [holderId 6 0 0] .owned true false) true (fun r =>
      (token (.tkshare tkx) .home none [holderId 6 0 0] .owned true false).shareRoom 0 r (holderId 6 0 0)) ∧
    tokOk (sharing (.tkshare tkx) 65535 [holderId 6 0 0]) false (fun r => r.st == .shared && r.owner == mine0 &&
      !(sharing (.tkshare tkx) 65535 [holderId 6 0 0]).shareRoom 0 r (holderId 6 0 0)) ∧
    (∀ n ∈ [1, 2], tokOk (sharing (.tkunshare tkx) n []) false (fun r => r.shares == n &&
      ((sharing (.tkunshare tkx) n []).ctx 0).shares.any fun y => y.base == r.base && y.holder == mine0 && 1 ≤ y.count)) ∧
    tokOk (token (.tkquery ⟨h, none, 20, 0⟩) .home none [] .owned true false) false (fun r => r.k == 13) := by
  refine ⟨of_has (by decide +kernel), of_has (by decide +kernel), ?_, of_has (by decide +kernel)⟩
  intro n hn
  simp only [List.mem_cons, List.not_mem_nil, or_false] at hn
  rcases hn with rfl | rfl <;> exact of_has (by decide +kernel)

/-- A TKUNHOME done at home, behind a load that was served there and has not completed; and none such. -/
def unhomed (before : Bool) : State :=
  let s := (token (.tkunhome tkx) .home (some 9) [] .owned true false).modOp 0 90 fun o => { o with limit := some 90 }
  if before then s.addOp 0 { homer with ins := ld9, stage := .performed, due := 50, limit := none } else s

theorem unhomed_ops (c : Nat) : ∀ q ∈ ((unhomed false).core c).ops, accMode q.ins = none := by
  by_cases hc : c = 0
  · subst hc; decide +kernel
  · have h1 : (unhomed false).core c = s0.core c := by
      simp only [unhomed, token, withOp, Bool.false_eq_true, if_false, State.modOp, State.addOp]
      rw [State.core_modCore_ne _ _ _ _ hc, State.core_congr (State.modCtx_cores ..), State.core_modCore_ne _ _ _ _ hc, State.core_modCore_ne _ _ _ _ hc]
    have h2 : s0.core c = State.reset.core c := by
      simp only [s0, State.withFetchWord, State.setGroup]
      rw [State.core_congr (State.modSch_cores ..), State.core_modCore_ne _ _ _ _ hc, State.core_modCore_ne _ _ _ _ hc,
        State.core_congr (State.modCtx_cores ..)]
      rfl
    have h3 : (State.reset.core c).ops = [] := by
      by_cases h : c < 768 <;> simp [State.core, State.reset, h] <;> rfl
    simp [h1, h2, h3]

theorem witness_TokenEvents_unhome :
    tokOk (unhomed true) true (fun r => (unhomed true).homedOpen 0 90 r) ∧ tokOk (unhomed false) true (fun _ => true) ∧
    ∀ r, (unhomed false).homedOpen 0 90 r = false := by
  refine ⟨of_has (by decide +kernel), of_has (by decide +kernel), fun r => ?_⟩
  simp only [State.homedOpen, List.any_eq_false]
  intro c _
  simp only [List.any_eq_true, not_exists, not_and]
  intro q hq
  simp [unhomed_ops c q hq]

/-- A TKTAKE of a region that a TKHOME is flushing. -/
def takingBehind : State := (token (.tktake tkx) .waiting none [] .owned true false).addOp 0 homer

theorem witness_TokenEvents_take : Has (takingBehind.op? 0 90) (fun o => o.stage == .waiting && takingBehind.homing 0 0) := of_has (by decide +kernel)

/-- `tasks 1` with its task started. -/
def started : State := (tasks 1).modCore 0 fun k =>
  { k with mx := { k.mx with tenants := k.mx.tenants.map fun t => { t with window := t.window.map fun x => { x with ends := some 5 } } } }

theorem witness_ArrayEvents :
    Has ((withOp (.tzero ⟨h, 3, 0⟩) [] .home []).op? 0 90) (fun o => o.stage == .home && (s0.group? 0 o.slot).any fun G => !G.ending) ∧
    Has (((tasks 1).core 0).task? 70) (fun p => p.2.ends.isNone && ((tasks 1).core 0).mx.stripPend == 0 && !((tasks 1).core 0).armless &&
      (((tasks 1).core 0).tenant? 0).any (fun x => x.window.find? (((tasks 1).core 0).canStart 0 0) == some p.2) &&
      (((tasks 1).core 0).freeEngine 0 0).isSome) ∧
    Has ((started.core 0).task? 70) (fun p => p.2.ends.isSome && !p.2.cancelled && ((started.core 0).bank 1).owner == some (0, p.2.crew) &&
      ((started.core 0).bank 1).ue.isEmpty && ((started.core 0).tile 3).ue.isEmpty) ∧
    (((e0.modCore 0 fun k => { k with mx := { k.mx with engines := k.mx.engines.set 0 ⟨0, 0, [false, true]⟩ } }).core 0).engine 0).tests =
      [false, true] :=
  ⟨of_has (by decide +kernel), of_has (by decide +kernel), of_has (by decide +kernel), by decide +kernel⟩

/-- A COPY of four words, all moved. -/
def eng0 : EngOp := ⟨91, 0, 0, 0, 0, cpx, 0, 4, 0, 0, [⟨0, 4, none, false⟩], 0, 4, [], [], none, none, none, []⟩

/-- An engine operation in slot 3 of core 0. -/
def engine (x : EngOp) : State := e0.modCore 0 fun k => { k with eng := k.eng.set 3 (some x) }

/-- A packet on its way. -/
def sending (f : Packet → Packet) : State :=
  (e0.modCore 0 fun k => { k with packets := [f (pkt 92 5)] }).postQ 0 14 (.messageArrival 0 92)

theorem witness_EngineEvents :
    Has ((engine eng0).eng? 0 3) (fun x => x.paused.isNone && !x.args.cw && ((engine eng0).undone 0 x.before).isEmpty &&
      decide (x.from' ≤ (engine eng0).now 0) && x.sent == x.words && x.open'.isEmpty && (x.flights.all fun f => f.forks.isEmpty) &&
      x.branches.all fun b => x.words ≤ b.got) ∧
    Has (((withOp (.st (stx (.v 9))) [acc0 0 none none] .check []).modCore 0 fun k =>
        { k with eng := k.eng.set 3 (some { eng0 with before := [90] }) }).eng? 0 3)
      (fun x => ((withOp (.st (stx (.v 9))) [acc0 0 none none] .check []).undone 0 x.before).any fun o => !o.reached && o.accs.any fun a =>
        e0.hits (e0.engWho 0 3 x) a x.src (4 * x.words)) ∧
    Has ((engine { eng0 with paused := some (.page, 0) }).eng? 0 3) (fun x => x.paused.any fun p => p.1 != .ueData) ∧
    Has ((engine { eng0 with paused := some (.ueData, 0) }).eng? 0 3) (fun x => x.paused.any fun p => p.1 == .ueData) ∧
    (∀ n ∈ [6, 7], Has ((sending fun p => { p with drops := n }).packet? 0 92) (fun p => !p.escape && p.sent && p.drops == n &&
      (sending fun p => { p with drops := n }).sch.agenda.any fun d => d.ev == State.packetEvent 0 p)) := by
  refine ⟨of_has (by decide +kernel), of_has (by decide +kernel), of_has (by decide +kernel), of_has (by decide +kernel), ?_⟩
  intro n hn
  simp only [List.mem_cons, List.not_mem_nil, or_false] at hn
  rcases hn with rfl | rfl <;> exact of_has (by decide +kernel)

/-- A COPY with a packet on its way to its branch. -/
def copying : State := engine { eng0 with flights := [⟨95, 0, [7], [⟨0, 0, some 9, 6, 0, false⟩], none⟩] }

theorem witness_EngineEvents_branch : (copying.packet? 0 95).isNone = true ∧ Has (copying.flight? 0 95) fun p => !p.2.1.args.m &&
    p.2.2.forks.any fun k => [0].contains k.branch && k.due.isSome && k.got == 0 && !k.escape :=
  ⟨by decide +kernel, of_has (by decide +kernel)⟩

/-- A message to ring 2 of its own crew, which has a ring of 4 entries of 16 bytes there, `n` of them taken. -/
def ringing (a : Att) (st : CrewSt) (n : Nat) : State :=
  (sending id).modCrew 0 0 fun k => { k with att := a, st := st, size := 1024, rings := k.rings.set 2 (some ⟨0, 0x204⟩),
                                              scratch := k.scratch.writeWord 4 (BitVec.ofNat 32 n) }

/-- A message behind another of its group to the same ring, and one whose release waits for a store. -/
def behind : State := e0.modCore 0 fun k => { k with packets := [pkt 91 5, pkt 92 6] }
def unreleased : State :=
  (withOp (.st (stx (.v 9))) [acc0 0 none none] .check []).modCore 0 fun k => { k with packets := [{ pkt 92 5 with before := [90] }] }

/-- What the clauses of a message suppose. -/
def msgOk (s : State) (f : Crew → Bool) : Prop :=
  Has (s.packet? 0 92) fun p => p.take.isNone && p.sent && !s.packetHeld 0 p && (s.crew? p.ctx p.crew).any fun me =>
    (s.member p.ctx me.gang p.rank).any fun m => s.crew? p.ctx m.id == some m && f m

/-- A tag bound in context 0, its ring at 0 in a page that a table maps there. -/
def tagged : State :=
  let s := (sending fun p => { p with tag := some (BitVec.ofNat 18 Config.thisModule, 5) }).modCtx 0 fun x =>
    { x with tags := [⟨5, 0, holderId 7 0 0, 0, 0, []⟩] }
  s

theorem witness_MessageEvents :
    msgOk (sending id) (fun m => (m.rings[2]).isNone) ∧
    msgOk (ringing .detached .resident 0) (fun m => m.att == .detached) ∧ msgOk (ringing .never .held 0) (fun m => m.st == .held) ∧ msgOk (ringing .never .leaving 0) (fun m => m.st == .leaving) ∧
    msgOk (ringing .never .resident 4) (fun m => (m.scratch.readWord 4 - m.scratch.readWord 0).toNat == 2 ^ 2) ∧
    msgOk (ringing .never .resident 3) (fun m => (m.scratch.readWord 4 - m.scratch.readWord 0).toNat != 2 ^ 2 && m.st == .resident &&
      (ringing .never .resident 3).packetReleased 0 (pkt 92 5) true) ∧
    msgOk (ringing .never (.suspended 0) 0) (fun m => m.st == .suspended 0) ∧
    Has (behind.packet? 0 92) (fun p => p.take.isNone && p.sent && behind.packetHeld 0 p) ∧
    Has (unreleased.packet? 0 92) (fun p => p.sent && !unreleased.packetHeld 0 p && !unreleased.packetReleased 0 p true) ∧
    Has (tagged.packet? 0 92) (fun p => !tagged.packetHeld 0 p && tagged.packetReleased 0 p false && p.tag.any fun t => t.1.toNat == Config.thisModule && ((tagged.ctx 0).tags.find? fun x => x.tag == t.2).isSome) ∧
    Has ((tagged.modCtx 0 fun x => { x with tags := [] }).packet? 0 92) (fun p => p.tag.isSome) :=
  ⟨of_has (by decide +kernel), of_has (by decide +kernel), of_has (by decide +kernel), of_has (by decide +kernel), of_has (by decide +kernel), of_has (by decide +kernel),
    of_has (by decide +kernel), of_has (by decide +kernel), of_has (by decide +kernel), of_has (by decide +kernel), of_has (by decide +kernel)⟩

/-- A page table at 0x10000 that maps the first 4 GiB of context 0 to themselves, with a leaf's bits. -/
def paged (leaf : Nat) (s : State) : State :=
  let m := ((s.mem.writeNat 0x10000 8 0x14001).writeNat 0x14000 8 0x18001).writeNat 0x18000 8 leaf
  ({ s with mem := m } : State).modRegs 0 fun r => { r with ptroot := 0x10000 }

/-- A leaf of 4 GiB that may be written, and one that may only be read. -/
def leafW : Nat := 0x8F
def leafR : Nat := 0x8B

/-- A tag bound to a ring of 2 entries of 16 bytes at 0x2000, its record at 0x3000. -/
def armed : State :=
  let s := paged leafW (tagged.modCtx 0 fun x => { x with tags := [⟨5, 0, holderId 7 0 0, 0x3000, 0x2000, []⟩] })
  { s with mem := s.mem.writeWord 0x2008 0x104 }

theorem witness_MessageEvents_tagged :
    Has (armed.virtWord 0 0x2000) (fun a => a == 0 && armed.virtWord 0 0x2004 == some 0) ∧
    Has (armed.virtWord 0 0x2008) (fun c => c.toNat % 16 == 4 && c.toNat / 256 % 16 == 1) ∧
    Has (armed.packet? 0 92) (fun p => ((armed.ctx 0).tags.head?).any fun t => (armed.fireTag 0 p t 4 1 0 0).isSome) :=
  ⟨of_has (by decide +kernel), of_has (by decide +kernel), of_has (by decide +kernel)⟩

/-- A stream of `n` elements of 4 bytes at own scratchpad byte `b` into queue 2. -/
def strm (n b : Nat) : Stream :=
  ⟨0, ((Vector.replicate 16 (0 : Word)).set 0 (BitVec.ofNat 32 b)).set 2 0x10000 |>.set 3 0x24 |>.set 5 (BitVec.ofNat 32 n) |>.set 7 1 |>.set 9 1
    |>.set 11 1, true, false, 0, []⟩

/-- A running stream and what its queue holds. -/
def streaming (n b : Nat) (es : List QElem) : State :=
  (e0.modCrew 0 0 fun k => { k with size := 1024 }).modCore 0 fun k =>
    { k with streams := k.streams.set 1 (some (strm n b)), queues := k.queues.set 2 ⟨some 0, es⟩ }

/-- An element in flight. -/
def elem (id b : Nat) : QElem := ⟨id, 1, ownSpace b, 4, none, false, none⟩

/-- A queue with room for its last element; elements aligned and not; a crew that is attached. -/
theorem witness_StreamEvents :
    Has ((streaming 1 0 ((List.range 383).map fun i => elem i 0)).stream? 0 1) (fun x => x.running && descQueue x.desc == 2 && descCount x.desc == 1 &&
      (s0.group? 0 x.slot).isSome && ((streaming 1 0 ((List.range 383).map fun i => elem i 0)).queue 0 2).elems.length == 383 &&
      ((streaming 1 0 []).core 0).ops.isEmpty) ∧
    Has ((streaming 2 2 [elem 7 2]).elem? 0 1 7) (fun p => p.2.isNone &&
      match (streaming 2 2 [elem 7 2]).lookNow ⟨0, 0, 0, 0, none, none⟩ p.1.ptr 4 4 false with
        | (.bad k, _) => k == .align
        | _ => false) ∧
    Has ((streaming 2 0 [elem 7 0]).elem? 0 1 7) (fun p => p.2.isNone && Ptr.addr p.1.ptr % eszBytes p.1.esz == 0 &&
      match (streaming 2 0 [elem 7 0]).lookNow ⟨0, 0, 0, 0, none, none⟩ p.1.ptr 4 4 false with
        | (.scratch k o, s1) => !(s1.readAt ⟨0, 0, 0, 0, none, none⟩ (.scratch k o) 4).1.2.1
        | _ => false) ∧
    Has (((withOp (.gdetach ⟨h, none⟩) [] .waiting []).modCrew 0 0 fun k => { k with att := .attached 0 0 }).crew? 0 0)
      (fun k => k.att == .attached 0 0 && !(withOp (.gdetach ⟨h, none⟩) [] .waiting []).windowBusy 0 0 0) :=
  ⟨of_has (by decide +kernel), of_has (by decide +kernel), of_has (by decide +kernel), of_has (by decide +kernel)⟩

/-- `e0` with core 1 in the place table of its context, which may start crews, and its crew changed. -/
def ctx0 (f : Crew → Crew) : State :=
  (e0.modCtx 0 fun x => { x with regs := { x.regs with en := true, state := 1 }, place := x.place.set 0 0x80000800 }).modCrew 0 0 f

/-- A queued leg of one crew, its record of zeros at address 0. -/
def leg0 (pending : Nat) : Leg := { Leg.queued LRec.blank (holderId 7 0 0) 0 none none with pending := pending }

/-- Two legs queued, the first with an edge pending. -/
def queued (s : State) : State := s.modCtx 0 fun x => { x with queue := [leg0 1, leg0 0] }

/-- A waiting crew, and one to be launched again. -/
def crewS (st : CrewSt) : State := ctx0 fun k => { k with st := st, core := 1, slots := Vector.replicate 16 none }

theorem witness_CrewAndLegEvents :
    Has ((ctx0 fun k => { k with st := .held }).crew? 0 0) (fun k => k.st == .held && !(ctx0 fun k => { k with st := .held }).heldByPeers 0 k) ∧
    Has (((crewS .waiting).modCtx 0 fun x => { x with reservations := [(0, [0])] }).crew? 0 0) (fun k => k.st == .waiting &&
      ((crewS .waiting).leg? 0 k.leg).isSome && (crewS .waiting).mayStart 0) ∧
    Has ((crewS .relaunch).crew? 0 0) (fun k => ((crewS .relaunch).leg? 0 k.leg).any fun l =>
      ((crewS .relaunch).placeAll 0 l [k] (fun s q => s.relaunchCores 0 l q)).isSome) ∧
    Has ((ctx0 fun k => { k with st := .suspending, slots := Vector.replicate 16 none }).crew? 0 0) (fun k => k.st == .suspending &&
      (e0.saveReady 0 k) && (e0.freeSave 0) == some 0) ∧
    Has ((ctx0 fun k => { k with st := .suspending, sbuf := [⟨0, 0, 1, 7⟩] }).crew? 0 0) (fun k => !(ctx0 id).saveReady 0 k) ∧
    Has (((queued (ctx0 id)).ctx 0).queue[1]?) (fun l => l.pending == 0 && ((ctx0 id).admitLeg 0 l).isNone) ∧
    Has (((queued (paged leafR (ctx0 id))).ctx 0).queue[1]?) (fun l => ((paged leafR (ctx0 id)).admitLeg 0 l).isSome) ∧
    Has (((crewS .waiting).ctx 0).crews.head?) (fun k => k.gang == 0 && k.st == .waiting && ((crewS .waiting).leg? 0 k.leg).any fun l =>
      ((crewS .waiting).placeAll 0 l [k] (fun s q => s.startCores 0 l q)).isSome) ∧
    Has ((e0.modCtx 0 fun x => { x with legs := x.legs.map fun l => { l with alive := 0 } }).leg? 0 0) (fun l => l.alive == 0) ∧
    (((later 9 (e0.modCtx 0 fun x => { x with deadlines := [(0, 9)] })).ctx 0).deadlines = [(0, 9)] ∧
      ((e0.ctx 0).crews.any Crew.onCore) = true) ∧
    ((e0.modCore 0 fun k => { k with lanePend := 1 }).quiescing 0 && (e0.modCore 0 fun k => { k with lanePend := 1 }).quiet 0) = true :=
  ⟨of_has (by decide +kernel), of_has (by decide +kernel), of_has (by decide +kernel), of_has (by decide +kernel), of_has (by decide +kernel),
    of_has (by decide +kernel), of_has (by decide +kernel), of_has (by decide +kernel), of_has (by decide +kernel), ⟨by decide +kernel, by decide +kernel⟩,
    by decide +kernel⟩

/-- A region of 4096 bytes at 0 that the crew owns. -/
def mineR (s : State) : State := s.modCtx 0 fun x => { x with regions := [⟨0, 12, .owned, holderId 1 0 0, noHolder, 0, none⟩] }

/-- A second crew on the core, with a store to that region in its buffer. -/
def besides (s : State) : State := s.modCtx 0 fun x =>
  { x with crews := x.crews ++ x.crews.map fun k => { k with id := 1, gang := 1, st := .resident, flush := none, sbuf := [⟨0, 0, 1, 7⟩] } }

/-- A line of that region in the core's L1. -/
def lineIn (s : State) : State := s.modCore 0 fun k => { k with caches := { k.caches with l1 := [⟨0, 0, 0x40000, 0, false, 0, 0, (0, 0)⟩] } }

/-- The crew that leaves, or is suspended, with a flush or without. -/
def going (st : CrewSt) (f : Option Flushing) : State :=
  mineR (ctx0 fun k => { k with st := st, flush := f, slots := Vector.replicate 16 none })

theorem witness_CrewAndLegEvents_leave :
    Has ((going .leaving none).crew? 0 0) (fun k => k.st == .leaving && ((going .leaving none).crewFlush 0 k).isSome &&
      ((going .leaving none).crewRegions 0 0).length == 1) ∧
    Has ((besides (going .leaving none)).crew? 0 0) (fun k => k.st == .leaving && ((besides (going .leaving none)).crewFlush 0 k).isNone) ∧
    Has ((later 5 (going .leaving (some ⟨0, 5, [0]⟩))).crew? 0 0) (fun k => k.flush.any fun f =>
      f.ends ≤ (later 5 (going .leaving (some ⟨0, 5, [0]⟩))).now f.core) :=
  ⟨of_has (by decide +kernel), of_has (by decide +kernel), of_has (by decide +kernel)⟩

theorem witness_CrewAndLegEvents_save :
    Has ((besides (going .suspending none)).crew? 0 0) (fun k => k.st == .suspending && (besides (going .suspending none)).saveReady 0 k &&
      ((besides (going .suspending none)).crewFlush 0 k).isNone) ∧
    Has ((going .suspending none).crew? 0 0) (fun k => ((going .suspending none).crewFlush 0 k).any fun p => p.1 == 0) ∧
    Has ((lineIn (going .suspending none)).crew? 0 0) (fun k => (lineIn (going .suspending none)).saveReady 0 k &&
      ((lineIn (going .suspending none)).crewFlush 0 k).any fun p => p.1 == 1) ∧
    Has ((going .suspending (some ⟨0, 0, []⟩)).crew? 0 0) (fun k => (going .suspending (some ⟨0, 0, []⟩)).saveReady 0 k && k.flush.any fun f =>
      f.ends ≤ (going .suspending (some ⟨0, 0, []⟩)).now f.core) :=
  ⟨of_has (by decide +kernel), of_has (by decide +kernel), of_has (by decide +kernel), of_has (by decide +kernel)⟩

/-- A leg in the queue whose grant's flush of the region at `b` is under way. -/
def flushingLeg (b : Nat) : Leg := { leg0 1 with flush := some ⟨0, 9, [b]⟩, lr := { LRec.blank with grants := [⟨BitVec.ofNat 96 b, 12, 2⟩] } }

/-- A crew with a place whose leg deals it the region at 0, with other legs in the queue. -/
def granted (f : Option Flushing) (q : List Leg) : State := (crewS .waiting).modCtx 0 fun x =>
  { x with reservations := [(0, [0])], queue := q, regions := [⟨0, 12, .owned, 0, noHolder, 0, none⟩],
           crews := x.crews.map fun k => { k with flush := f }, legs := x.legs.map fun l => { l with lr := { l.lr with grants := [⟨0, 12, 0⟩] } } }

theorem witness_CrewAndLegEvents_start : ∀ b ∈ [false, true],
    Has ((granted none (if b then [flushingLeg 0] else [])).crew? 0 0) (fun k =>
      let s := granted none (if b then [flushingLeg 0] else [])
      (s.leg? 0 k.leg).any fun l => s.mayStart 0 && (s.piecesFor 0 0 l k.rank).length == 1 &&
        s.grantWaits ((s.holderCore l.launcher).getD k.core) 0 l.launcher ((s.piecesFor 0 0 l k.rank).map fun p => p.2) == b &&
        decide ((s.holderCore l.launcher).getD k.core < 768)) := by
  intro b hb
  simp only [List.mem_cons, List.not_mem_nil, or_false] at hb
  rcases hb with rfl | rfl <;> exact of_has (by decide +kernel)

theorem witness_CrewAndLegEvents_started : Has ((later 5 (granted (some ⟨0, 5, [0]⟩) [])).crew? 0 0) (fun k => k.st == .waiting && k.flush.any fun f =>
    f.ends ≤ (later 5 (granted (some ⟨0, 5, [0]⟩) [])).now f.core) := of_has (by decide +kernel)

/-- A leg that the crew on core 0 has launched, its record at 0x1000 with a HOMED grant of the region at 0x2000; other legs behind it. -/
def launched (grant : Bool) (f : Option Flushing) (q : List Leg) (k : Crew → Crew) : State :=
  let s := paged leafR (ctx0 k)
  let m := if grant then ((s.mem.writeWord 0x1018 0x10000).writeWord 0x1080 0x2000).writeWord 0x108C 0xC02 else s.mem
  ({ s with mem := m } : State).modCtx 0 fun x =>
    { x with queue := { leg0 0 with launcher := holderId 1 0 0, flush := f, lr := { LRec.blank with addr := 0x1000 } } :: q,
             regions := [⟨0x2000, 12, .owned, holderId 1 0 0, noHolder, 0, none⟩] }

/-- What the clauses of an admission suppose of it. -/
def admitOk (s : State) (homing : Bool) (grants : Nat) (p : List Region → Bool) : Prop :=
  Has ((s.ctx 0).queue[0]?) fun l => l.pending == 0 && s.mayStart 0 && s.holderCore l.launcher == some 0 && l.flush.isNone &&
    ((s.modCtx 0 fun x => { x with queue := x.queue.eraseIdx 0 }).markWalks 0 l.lr.addr 512 |>.admitLeg 0 { l with flush := none }).isSome &&
    (s.launchRecord 0 l.launcher l.lr.addr).any fun r => (r.grants.any fun g => s.homingIn 0 (Ptr.local g.ptr) g.k) == homing &&
      (s.grantRegions 0 r).length == grants && p ((s.grantRegions 0 r).map fun x => x.1)

theorem witness_CrewAndLegEvents_admit :
    admitOk (launched false none [] id) false 0 (fun _ => true) ∧
    admitOk (launched true none [flushingLeg 0x2000] id) true 1 (fun _ => true) ∧
    admitOk (launched true none [] fun k => { k with sbuf := [⟨0, 0, 1, 7⟩] }) false 1 (fun rs =>
      (launched true none [] fun k => { k with sbuf := [⟨0, 0, 1, 7⟩] }).grantWaits 0 0 (holderId 1 0 0) rs) ∧
    admitOk (launched true none [] id) false 1 (fun rs => !(launched true none [] id).grantWaits 0 0 (holderId 1 0 0) rs) ∧
    Has (((later 5 (launched true (some ⟨0, 5, [0x2000]⟩) [] id)).ctx 0).queue[0]?) (fun l => l.flush.any fun f => f.ends ≤ 5) :=
  ⟨of_has (by decide +kernel), of_has (by decide +kernel), of_has (by decide +kernel), of_has (by decide +kernel), of_has (by decide +kernel)⟩

/-- A leg whose crews have ended, its grant's region in another leg's flush. -/
def ended : State := (mineR e0).modCtx 0 fun x =>
  { x with queue := [flushingLeg 0], legs := x.legs.map fun l => { l with alive := 0, lr := { l.lr with grants := [⟨0, 12, 2⟩] } } }

theorem witness_CrewAndLegEvents_complete : Has (ended.leg? 0 0) (fun l => l.alive == 0 && ended.returnWaits 0 l) ∧
    Has ((e0.modCtx 0 fun x => { x with legs := x.legs.map fun l => { l with alive := 0 } }).leg? 0 0) (fun l => !e0.returnWaits 0 l) :=
  ⟨of_has (by decide +kernel), of_has (by decide +kernel)⟩

/-- A unit of core 0. -/
def lane3 : UnitId := .lane 0 3

/-- Counts of 0, 1 and 2 events, and a unit lasting. -/
def counted (n : Nat) : State := { e0 with rel := { e0.rel with counts := [(lane3, n)] } }

/-- Quadrant 0 joined, with something changed. -/
def joined (f : Quad → Quad) : State := e0.modQuad 0 fun x => f { x with joined := true }

theorem witness_ReliabilityAndPowerEvents :
    (lane3 ∈ ({ e0 with rel := { e0.rel with lasting := [lane3] } } : State).rel.lasting) ∧
    (lane3 ∉ (counted 1).rel.lasting ∧ (((counted 1).rel.counts.find? fun x => x.1 == lane3).map fun x => x.2).getD 0 + 1 < 3) ∧
    (lane3 ∉ (counted 2).rel.lasting ∧ 3 ≤ (((counted 2).rel.counts.find? fun x => x.1 == lane3).map fun x => x.2).getD 0 + 1) ∧
    (e0.core 767).enabled = true ∧
    ((List.replicate 48 (7 : BitVec 8)).length = 48 ∧ ((joined fun x => { x with raising := some 12 }).quad 0).joined = true) ∧
    ((joined fun x => { x with raising := some 12 }).quad 0).raising = some 12 ∧
    ((joined fun x => { x with calibrated := true }).target 0 < ((joined fun x => { x with cur := 31, calibrated := true }).quad 0).cur) ∧
    (((joined fun x => { x with falling := [5, 6], raising := some 7 }).quad 0).falling = [5, 6] ∧
      ((joined fun x => { x with falling := [5] }).quad 0).raising = none) ∧
    ((joined id).quad 0).calibrated = false ∧
    ((e0.modMgmt fun m => { m with booted := true }).mgmt.booted = true ∧ (e0.quad 0).joined = false) ∧
    (∃ is : List Image, e0.mgmt.booted = false ∧ ∀ i ∈ is, Config.xmssAccepts i.bytes i.sig i.leaf = true ∧ e0.mgmt.counter < i.leaf) :=
  ⟨by decide +kernel, ⟨by decide +kernel, by decide +kernel⟩, ⟨by decide +kernel, by decide +kernel⟩, by decide +kernel,
    ⟨by decide +kernel, by decide +kernel⟩, by decide +kernel, by decide +kernel, ⟨by decide +kernel, by decide +kernel⟩, by decide +kernel,
    ⟨by decide +kernel, by decide +kernel⟩, ⟨[], by decide +kernel, by simp⟩⟩

/-- Two events counted of each kind of unit. -/
theorem witness_ReliabilityAndPowerEvents_lasting : ∀ u ∈ [(.lane 767 31 : UnitId), .strip 767 7, .core 767, .slice 3 63, .port 1, .bnd 3 7],
    let s : State := { e0 with rel := { e0.rel with counts := [(u, 2)] } }
    u ∉ s.rel.lasting ∧ min 3 (((s.rel.counts.find? fun x => x.1 == u).map fun x => x.2).getD 0 + 1) = 3 := by
  intro u hu
  simp only [List.mem_cons, List.not_mem_nil, or_false] at hu
  rcases hu with rfl | rfl | rfl | rfl | rfl | rfl <;> decide +kernel

theorem witness_ReliabilityAndPowerEvents_strip : ((e0.core 767).engine (7 / 4)).freeAt ≤ e0.now 767 := by decide +kernel

/-- `ctx0` with registers of its context changed. -/
def regs0 (f : CtxRegs → CtxRegs) : State := (ctx0 id).modRegs 0 f

/-- A record that waits, and an area of 16 records at 0x4000 with 15 and with 16 not yet taken. -/
def recording (n : Nat) : State :=
  (regs0 fun r => { r with frbase := 0x4001, frtail := BitVec.ofNat 32 n }).modCtx 0 fun x => { x with records := [⟨Vector.replicate 8 7⟩] }

/-- A group of context 0 on core 1, stopped or not; the control target is its slot. -/
def onCore1 (f : Group → Group) : State :=
  let s := (regs0 fun r => { r with ctlcore := 0, ctlslot := 2 })
  s.setGroup 1 2 (some (f (Group.start 0 0 0 256 (groupIdWord 0 0 0) LRec.blank.consts 0 0)))

/-- Core 1, stalled for a group of context 0 and for one of context 1. -/
def stalls : State :=
  ((onCore1 id).setGroup 1 3 (some { Group.start 0 0 0 256 0 LRec.blank.consts 0 0 with ctx := 1 })).modCore 1 fun k =>
    { k with stalled := some 0, stallers := [2, 3] }

theorem witness_HostCommandEvents :
    (Has ((recording 15).ctx 0).records.head? (fun _ => State.frOpen ((recording 15).ctx 0).regs) ∧ State.frOpen ((recording 16).ctx 0).regs = false) ∧
    (((ctx0 id).ctx 0).regs.preempt = false ∧ ((ctx0 id).ctx 0).crews.any Crew.onCore = true) ∧
    Has ((paged leafR (ctx0 id)).launchRecord 0 (holderId 7 0 15) 0x3000) (fun lr =>
      ((paged leafR (ctx0 id)).pushLeg 0 (Leg.queued lr (holderId 7 0 15) 0 none none)).isSome) ∧
    ((12 : Word).toNat % 64 = 12 ∧ (62 : Word).toNat % 64 = 62) ∧
    ((e0.placeWrite 0 0 0x80000800).isSome = true ∧ (e0.placeWrite 0 0 0x80000000).isNone = true) ∧
    (Ptr.space 0 = 0 ∧ (0xC00 : Word).toNat / 256 % 64 = 12 ∧ (0x2000 : Word).toNat / 256 % 64 = 32) ∧
    (State.tokCmd ((regs0 fun r => { r with toksz := 16 }).ctx 0) .own 0 12 (holderId 7 0 0)).isSome = true ∧
    Has ((onCore1 id).group? 1 2) (fun G => ((onCore1 id).ctx 0).physical 0 == some 1 && (State.stepSplit G 7 0).isSome) ∧
    Has ((onCore1 fun G => { G with stopped := true }).cmdTarget 0) (fun p => p == (1, 2) &&
      ((onCore1 fun G => { G with stopped := true }).group? 1 2).any fun G => G.stopped) ∧
    (stalls.core 1).stalled.isSome = true ∧ ((stalls.core 1).stallers.filter fun h => !((stalls.group? 1 h).any fun G => G.ctx == 0)) = [3] ∧
    (((stalls.core 1).stallers.any fun h => (stalls.group? 1 h).any fun G => G.ctx == 0) = true ∧ stalls.recordWaits 0 1 1 none = false) ∧
    ((8 : Word).getLsbD 2 = false ∧ (8 : Word).getLsbD 1 = false ∧ (4 : Word).getLsbD 2 = true ∧ (5 : Word).toNat % 16 = 5) ∧
    Has (((onCore1 id).modCore 1 fun k => { k with eng := k.eng.set 2 (some { eng0 with paused := some (.page, 0) }) }).eng? 1 2)
      (fun x => x.ctx == 0 && x.paused.isSome) ∧
    Has ((ctx0 id).crew? 0 0) (fun k => k.st == .resident && ((ctx0 id).core k.core).stalled.isNone && ((ctx0 id).freeSave 0).isSome) ∧
    (((ctx0 id).ctx 0).regs.cbusy = false ∧ ((ctx0 id).restoreCrew 0 0).isNone = true) ∧
    Has (({ e0 with invs := [⟨3, 0, 0, 12, none⟩] } : State).invs.find? fun i => i.id == 3) (fun i => i.log2 == 12) :=
  ⟨⟨of_has (by decide +kernel), by decide +kernel⟩, ⟨by decide +kernel, by decide +kernel⟩, of_has (by decide +kernel), by decide,
    ⟨by decide +kernel, by decide +kernel⟩, by decide +kernel, by decide +kernel, of_has (by decide +kernel), of_has (by decide +kernel),
    by decide +kernel, by decide +kernel, ⟨by decide +kernel, by decide +kernel⟩, by decide, of_has (by decide +kernel), of_has (by decide +kernel),
    ⟨by decide +kernel, by decide +kernel⟩, of_has (by decide +kernel)⟩

/-- The state after a step or an instruction. -/
def nextOf (o : Host.Outcome State Fault Refusal) : Option State :=
  match o with
  | .next t => some t
  | _ => none

/-- A crew that is suspended in slot 0, whose image there names no group. -/
def saved0 : State :=
  let s := ctx0 fun k => { k with st := .suspended 0, slots := Vector.replicate 16 none }
  { s with mem := s.mem.writeWord 0 0x80000001 }

theorem witness_HostCommandEvents_restore : (saved0.restoreCrew 0 0).isSome = true := by decide +kernel

/-- The datagram of a request, and a state whose controller has it at the head of its frames. -/
def dgram (op : BitVec 8) (pl : List Byte) : Dgram :=
  ⟨7, 5170, 1, op, BitVec.ofNat 16 pl.length, 5, 0, pl, Config.kmac256 0 (messageBytes 1 op 5 0 pl.length pl)⟩

def asking (op : BitVec 8) (pl : List Byte) : State := e0.modMgmt fun m => { m with inbox := [.dgram (dgram op pl)], linkUp := true, ip := 7 }

theorem requests_asking (op : BitVec 8) (pl : List Byte) (hl : pl.length ≤ 1424) : Requests (asking op pl) (dgram op pl) [] op := by
  refine ⟨rfl, rfl, rfl, rfl, by simp [dgram], rfl, ?_⟩
  have h1 : (BitVec.ofNat 16 pl.length).toNat = pl.length := by simp; omega
  show Mgmt.accepts (asking op pl).mgmt (dgram op pl) = true
  simp only [Mgmt.accepts, dgram, h1]
  simp [asking, State.modMgmt, e0, s0, State.withFetchWord, State.clearIssue, State.modSch, State.modCore, State.setCore, State.setGroup,
    State.modCtx, State.placeCode, State.reset, Mgmt.reset, hl]

/-- The payloads at the edges of what each request takes. -/
theorem witness_PortEvents_requests : ∀ p ∈ ([(1, []), (1, [0]), (2, [0, 0, 0, 0]), (2, []), (3, [1, 0, 4]), (3, [1, 0, 19]), (3, [1, 0, 3]), (3, [1, 0, 20]),
    (4, [1, 0, 60]), (4, [1, 0, 105]), (4, [1, 0, 59]), (4, [1, 0, 106]), (5, [0]), (5, [1]), (5, [2]), (6, [0, 0, 0, 0]), (6, [0, 0, 0, 4]),
    (6, [1, 0, 0, 4, 7]), (6, [0, 0, 0]), (7, [0, 0, 0, 0]), (7, [1, 0, 0, 0]), (8, List.replicate 36 0), (8, []), (9, [10, 0, 0, 1, 32]), (9, [10, 0, 0, 1, 33]),
    (0, []), (10, []), (255, [])] : List (BitVec 8 × List Byte)), Requests (asking p.1 p.2) (dgram p.1 p.2) [] p.1 :=
  fun p hp => requests_asking p.1 p.2 (by revert p hp; decide)

/-- A requester that the inbound table lets into context 0. -/
def inbound0 : State := { paged leafR e0 with inbound := e0.inbound.set 3 0x80000108 }

/-- A read of 4 bytes at 0x40 by requester 1:1.0. -/
def tlpR : Tlp := ⟨0, 1, 1, 0, 0x40, false, none, 4, false, none⟩

/-- A region at 0 of host holder 0, LENT or OWNED, and what an inbound write to it finds. -/
def lentTo (r : RState) : State := (paged leafW inbound0).modCtx 0 fun x =>
  { x with regs := { x.regs with toksz := 16 }, regions := [⟨0, 12, r, holderId 7 0 0, noHolder, 0, none⟩] }

/-- A write of 4 bytes by the same requester. -/
def tlpW : Tlp := { tlpR with wr := some [1, 2, 3, 4] }

/-- A write that waits in the order of its requester, behind another or for a LENT region, and one that does not. -/
def postedOn (s : State) : State := { s with posted := [⟨3, 0, Tlp.requester tlpR, 0, 0x40, false, [7]⟩, ⟨4, 1, Tlp.requester tlpR, 0, 0x80, false, [7]⟩] }

theorem witness_PortEvents_inbound :
    (({ tlpR with peer := true } : Tlp).peer = true ∧ e0.inboundSlot tlpR = none ∧ tlpR.admitted = none) ∧
    (∀ r ∈ [RState.owned, .lent], ((List.range 4).all fun i => ((lentTo r).inboundByte 0 (0x40 + i) true) ==
      if r = .lent then (none, true) else (some (0x40 + i), false)) = true) ∧
    ((postedOn (lentTo .owned)).posted.any fun p => p.req == Tlp.requester tlpR && decide (p.id < 5)) = true ∧
    (tlpW.wr.isSome = true ∧ (inbound0.inboundSlot tlpW).isSome = true) := by
  refine ⟨by decide +kernel, ?_, by decide +kernel, by decide +kernel⟩
  intro r hr
  simp only [List.mem_cons, List.not_mem_nil, or_false] at hr
  rcases hr with rfl | rfl <;> decide +kernel

theorem witness_PortEvents_posted :
    Has ((postedOn (lentTo .owned)).posted.find? fun q => q.id == 4) (fun p => !p.relaxed &&
      ((postedOn (lentTo .owned)).posted.takeWhile fun q => q.id != 4).any fun q => q.req == p.req) ∧
    Has ((postedOn (lentTo .lent)).posted.find? fun q => q.id == 3) (fun p => (postedOn (lentTo .lent)).inboundWaits p.ctx p.addr p.data.length true) ∧
    Has ((postedOn (lentTo .owned)).posted.find? fun q => q.id == 3) (fun p =>
      !(postedOn (lentTo .owned)).inboundWaits p.ctx p.addr p.data.length true && ((postedOn (lentTo .owned)).inboundWrite p.ctx p.addr p.data).isSome) :=
  ⟨of_has (by decide +kernel), of_has (by decide +kernel), of_has (by decide +kernel)⟩

/-- A quote of the nonce that is kept, and keys with one signature left and with none. -/
theorem witness_PortEvents_quote :
    Has ((((asking 8 (List.replicate 36 0)).modMgmt fun m => { m with quoted := [(List.replicate 32 0, [7])] }).mgmt.quoted.find? fun q =>
      q.1 == (List.replicate 36 (0 : Byte)).take 32)) (fun q => q.2 == [7]) ∧
    ((e0.modMgmt fun m => { m with quotes := 65535 }).mgmt.quotes < 2 ^ 16 ∧ ¬ (e0.modMgmt fun m => { m with quotes := 65536 }).mgmt.quotes < 2 ^ 16) ∧
    ((e0.modMgmt fun m => { m with ip := 5, linkUp := true, inbox := [.echo 5 6 [1]] }).mgmt.inbox = [.echo 5 6 [1]]) :=
  ⟨of_has (by decide +kernel), by decide +kernel, by decide +kernel⟩

theorem witness_PortEvents :
    (inMap 0x1FFFFFFFFC = true ∧ inMap (0x1FFFFFFFFC + 4 - 1) = true ∧ e0.mem.wf = true ∧ e0.ueAt 0x1FFFFFFFFC = false) ∧
    Has (inbound0.inboundSlot tlpR) (fun c => c == 0 && (List.range 4).all fun i => inbound0.inboundByte c (0x40 + i) false == (some (0x40 + i), false)) ∧
    Has (((paged leafW e0).modCtx 0 fun x => { x with regs := { x.regs with toksz := 16 }, regions := [⟨0, 12, .owned, holderId 7 0 0, noHolder, 0, none⟩] }).inboundWrite 0 0x40 [7])
      (fun t => t.mem.read 0x40 == 7) ∧
    Has (({ e0 with posted := [⟨3, 0, 0, 0, 0x40, false, [7]⟩, ⟨4, 1, 0, 0, 0x40, false, [7]⟩, ⟨5, 0, 0, 0, 0x40, true, [7]⟩] } : State).posted.find? fun q => q.id == 4)
      (fun p => !p.relaxed && p.port == 1) ∧
    ((e0.modMgmt fun m => { m with ip := 5, linkUp := true, inbox := [.arp 5 9] }).mgmt.inbox = [.arp 5 9]) ∧
    ((e0.modMgmt fun m => { m with linkUp := true, inbox := [.lease 5 24] }).mgmt.isStatic = false) :=
  ⟨by decide +kernel, of_has (by decide +kernel), of_has (by decide +kernel), of_has (by decide +kernel), by decide +kernel, by decide +kernel⟩

/-- Cores with 32 and with 16 good lanes. -/
theorem witness_LanesIssueInPasses :
    goodLanes Core.reset = 32 ∧ goodLanes { Core.reset with lmap := 0x5555AAAA } = 16 ∧
    Meets (s0.modCore 0 fun k => { k with lmap := 0x5555AAAA }) h {} (fun I => I.qok && 16 ≤ goodLanes (I.s.core I.c)) :=
  ⟨by decide +kernel, by decide +kernel, of_ready (by decide +kernel)⟩

/-- A step from `s0`, whose memory has its form; the word of zeros there is unassigned, and the group stops with ILL_OP. -/
theorem witness_MemoryKeepsItsForm : s0.mem.wf = true ∧ Has (nextOf (step s0)) fun t => t.mem.wf && ((t.group? 0 0).any fun G => G.stopped) :=
  ⟨by decide +kernel, of_has (by decide +kernel)⟩

/-- An operation whose cycle has come, and the event of it on the agenda; a group at the issue slot. -/
theorem witness_EveryEventAnswers :
    (((withOp ld9 [] .check []).postQ 0 0 (.accessCheckComplete 0 90)).sch.agenda = [⟨.quad 0, 0, .accessCheckComplete 0 90⟩] ∧
      Has (((withOp ld9 [] .check []).postQ 0 0 (.accessCheckComplete 0 90)).op? 0 90) fun o => o.stage == .check) ∧
    ((Instr.accessCheckComplete 0 90).isCode = false ∧ (Instr.nop ⟨h⟩).isCode = true ∧ (s0.issuer h).isSome = true) :=
  ⟨⟨by decide +kernel, of_has (by decide +kernel)⟩, by decide +kernel⟩

/-- A NOP at the PC of the group at the issue slot. -/
def nop0 : State := State.reset.withFetchWord 96 0x7001

theorem witness_StepRunsTheInstruction :
    (Has nop0.sch.issue (fun i => (nop0.group? i.core i.slot).any fun G => (G.splits[i.split]).any fun S =>
      Ptr.module (nop0.codeBase G.ctx G.crew) == Config.thisModule && match nop0.codeSpan i.core G.ctx G.crew S.pc with
        | (.ok (a, b), t) => a == 0 && b == 11 && (List.range 12).all fun n => t.mem.read n == ((0x7001 : IWord) >>> (8 * n)).setWidth 8
        | _ => false)) ∧
    decode 0x7001 = .ok (.nop ⟨h⟩) ∧
    ((e0.modSch fun h => { h with inputs := [.groupPick 0] }).sch.inputs = [.groupPick 0]) ∧
    ((asking 1 []).sch.issue = none ∧ (asking 1 []).sch.inputs = []) ∧
    (((e0.post .ext 0 (.groupPick 0)).sch.agenda.all fun d => d.at' ≤ e0.clock d.clk) = true) ∧
    ((e0.modSch fun h => { h with todo := [3] }).sch.todo = [3] ∧ e0.sch.agenda = [] ∧ e0.sch.todo = [] ∧ e0.mgmt.inbox = []) :=
  ⟨of_has (by decide +kernel), by decide +kernel, by decide +kernel, ⟨by decide +kernel, by decide +kernel⟩, by decide +kernel, by decide +kernel⟩

theorem witness_DecodingInvertsEncoding : (Instr.trap ⟨h, 0xBD⟩).isCode = true ∧ (Instr.trap ⟨h, 0xBD⟩).wf = true := by decide +kernel

/-- Whether a word decodes to nothing. -/
def refused (w : IWord) : Bool :=
  match decode w with
  | .ok _ => false
  | .illEnc _ => true

/-- A VADD with an l register that is stale, with a v register beyond the budget, with a marked guard and with an uncorrectable register. -/
theorem witness_IllegalWordsFault :
    ([0x7001 ||| (1 <<< 90), 0x7001 ||| (13 <<< 74)] : List IWord).all refused = true ∧
    Has s0.sch.issue (fun i => (s0.group? i.core i.slot).any fun G => (G.splits[i.split]).any fun S =>
      match s0.fetch i.core G.ctx G.crew S.pc with
        | (.ok w, t) => w == 0 && (t.issuer h).isSome
        | _ => false) ∧
    Has ((withG fun G => { G with budget := 16 }).issuer h) (fun I => decide (I.G.budget ≤ 16)) ∧
    Has (s0.issuer h) (fun I => !I.S.lvalid.getLsbD 3) ∧
    Has (markedP.issuer (g (.p false 0))) (fun I => (I.G.regs.pred 0).k &&& I.S.m != 0 && !I.uses 0) ∧
    Has ((withG fun G => { G with ueRegs := [(.v 2, 95)] }).issuer h) (fun I => I.G.ueRegs.contains (.v 2, 95) && I.active.getLsbD 95) :=
  ⟨by decide +kernel, of_has (by decide +kernel), of_has (by decide +kernel), of_has (by decide +kernel), of_has (by decide +kernel),
    of_has (by decide +kernel)⟩

theorem witness_TakingAnException :
    Has (s0.group? 0 0) (fun G => G.ctx < 16) ∧
    (([(3, .page), (5, .align)] : List (Nat × Cause)) ≠ [] ∧ (([(3, .page), (5, .align)] : List (Nat × Cause)).map Prod.fst).Nodup) :=
  ⟨of_has (by decide +kernel), by decide⟩

/-! ## Worked values of the spec, and single steps -/

/-- Chapter 1, Table 6: LMAP 0xEFFF_7FDF gives G = 29 and P = 4; logical lane 70 runs in pass 2 on physical lane 13. -/
theorem test_lane_mapping :
    let k : Core := { Core.reset with lmap := 0xEFFF7FDF }
    k.good = 29 ∧ k.passes = 4 ∧ k.passOf 70 = 2 ∧ k.physLane 70 = 13 := by decide +kernel

/-- Chapter 4: under RNE 464 rounds to 448 in E4M3 and what lies above overflows, to NaN or, with SAT, to 448. -/
theorem test_round_e4m3 : FpF.e4.round .rne false (.fin false 464 0) = 0x7E ∧ FpF.e4.round .rne false (.fin false 929 (-1)) = 0x7F ∧
    FpF.e4.round .rne true (.fin true 465 0) = 0xFE := by decide +kernel

/-- Chapter 4, Table 5: the worked BFP4 block. -/
theorem test_block_worked :
    let b := toBlock 4 .rne ([0x40400000, 0xBFA00000, 0x3F000000, 0x3E4CCCCD, 0xC0600000] ++ List.replicate 11 0)
    b.2 = 0x80 ∧ b.1.take 6 = [6, -2, 1, 0, -7, 0] ∧ blockImage 4 b.1 = 0x901E6 := by decide +kernel

/-- What an instruction leaves in flight on a state: the writes of its group. -/
def sentBy (i : Instr) (s : State) : List RegWrite :=
  match exec i s with
  | .next t => ((t.group? 0 0).map fun G => G.pend.flatMap fun p => p.ws).getD []
  | _ => []

/-- SADD wraps. -/
theorem test_sadd_wraps : sentBy (.sadd ⟨h, .s 3, .s 0, .imm 1, false, false⟩) (withS [(0, w 0xFFFFFFFF)]) = [.sreg 3 (w 0)] := by decide +kernel

/-- −2^31 / −1 wraps, and a division by 0 gives all ones. -/
theorem test_sdiv_corners :
    sentBy (.sdiv ⟨h, .s 3, .s 0, .s 1, false, false⟩) (withS [(0, w 0x80000000), (1, w 0xFFFFFFFF)]) = [.sreg 3 (w 0x80000000)] ∧
    sentBy (.sdiv ⟨h, .s 3, .s 0, .s 1, false, true⟩) (withS [(0, w 7)]) = [.sreg 3 (w 0xFFFFFFFF)] := by decide +kernel

/-- A negative immediate is sign-extended, and zero-extended by ZX. -/
theorem test_immediate_extension :
    sentBy (.smov ⟨h, .s 3, .imm 0xFF, false⟩) s0 = [.sreg 3 (w 0xFFFFFFFF)] ∧ sentBy (.smov ⟨h, .s 3, .imm 0xFF, true⟩) s0 = [.sreg 3 (w 0xFF)] := by
  decide +kernel

/-- The source's mark travels, and the destination zero discards. -/
theorem test_smov_mark : sentBy (.smov ⟨h, .s 3, .s 0, false⟩) (withS [(0, mk1)]) = [.sreg 3 mk1] ∧
    sentBy (.smov ⟨h, .zero, .s 0, false⟩) (withS [(0, mk1)]) = [] := by decide +kernel

/-- A shift by 32 gives 0, an arithmetic one copies of the sign. -/
theorem test_shift_32 : sentBy (.sshl ⟨h, .s 3, .s 0, .imm 32, false, false⟩) (withS [(0, w 1)]) = [.sreg 3 (w 0)] ∧
    sentBy (.ssar ⟨h, .s 3, .s 0, .imm 32, false, false⟩) (withS [(0, w 0x80000000)]) = [.sreg 3 (w 0xFFFFFFFF)] := by decide +kernel

/-- Lane 95 of the one vector register an instruction leaves in flight. -/
def lane95 (i : Instr) (s : State) : Option Elem :=
  match sentBy i s with
  | [.vec _ _ x] => some (x.at 95)
  | _ => none

/-- VADD of bytes, saturated: 100 + 100 is 127, −100 − 100 is −128. -/
theorem test_vadd_bytes : lane95 (.vadd ⟨h, .v 4, .v 2, .v 3, false, false, .w8, true, false⟩)
    (withG fun G => setV 2 (fun _ => w 0x9C64) (setV 3 (fun _ => w 0x9C64) G)) = some (w 0x807F) := by decide +kernel

/-- FFMA rounds once: (1 + 2^−12)² − 1 − 2^−11 is 2^−24. -/
theorem test_ffma_once : lane95 (.ffma ⟨h, .v 4, .v 2, .v 3, .rne, .f32, false, false, true⟩)
    (withG fun G => setV 2 (fun _ => w 0x3F800800) (setV 3 (fun _ => w 0x3F800800) (setV 4 (fun _ => w 0x3F801000) G))) =
      some (w 0x33800000) := by decide +kernel

/-- SHFL.XOR in segments of 2: lane 95 takes lane 94's. -/
theorem test_shfl_xor : lane95 (.shfl ⟨h, .xor, 1, .v 4, .v 2, .imm 1⟩) (withG (setV 2 fun l => w l)) = some (w 94) := by decide +kernel

/-- VRED.ADD over the group: 0 + 1 + … + 95. -/
theorem test_vred_sum : lane95 (.vred ⟨h, .add, 0, .rne, false, .v 4, .v 2⟩) (withG (setV 2 fun l => w l)) = some (w 4560) := by decide +kernel

/-- FEXP2 of 0.5 (R98): √2 rounded is within the bound, and the code four places above is not. -/
theorem test_exp2_bound : (sfuNear (sfuExact .exp2 false 1 (-1)) 0x3FB504F3 && !sfuNear (sfuExact .exp2 false 1 (-1)) 0x3FB504F7) = true := by
  decide +kernel

/-- A jump goes to PC + DISP: from 0 back to the last address. -/
theorem test_bra_back : Has (nextOf (exec (.bra ⟨h, 0xFFFFFF⟩) s0)) fun t => (t.group? 0 0).any fun G => (G.splits[0]).any fun S =>
    S.pc == 0xFFFFFFFF && !S.inRun := of_has (by decide +kernel)

/-- TRAP 0xBD takes BREAK, with its code as DETAIL and the PC of the TRAP recorded, the split standing after it. -/
theorem test_trap_break : Has (nextOf (exec (.trap ⟨h, 0xBD⟩) s0)) fun t => (t.group? 0 0).any fun G => G.stopped &&
    G.spec.trapinfo[0] == 0xBD008051 && G.spec.trapinfo[7] == 0 && (G.splits[0]).any fun S => S.pc == 1 := of_has (by decide +kernel)

/-- A word of an unassigned opcode stops with ILL_OP at its PC. -/
theorem test_unassigned_stops : Has (nextOf (step s0)) fun t => (t.group? 0 0).any fun G => G.stopped && G.spec.trapinfo[0].extractLsb' 0 8 == 1 :=
  of_has (by decide +kernel)

/-- The NOP in place runs as the first instruction after reset. -/
theorem test_step_nop : Has (nextOf (step nop0)) fun t => (t.group? 0 0).any fun G => !G.stopped && (G.splits[0]).any fun S => S.pc == 1 :=
  of_has (by decide +kernel)

end Sys2Proof.Tests
end

section
/-! SUPPORT. Lanes, physical lanes and passes (R16, R17), what an issue takes from them, and the settling of O52. -/

namespace Sys2Proof.Machine

open Sys2Proof

/-! ## The set bits of a mask -/

/-- The `j`-th number below `n` that passes a test is one below which just `j` numbers pass it. -/
theorem countP_range_of_getElem?_filter_range {p : Nat → Bool} {n j x : Nat} (h : ((List.range n).filter p)[j]? = some x) :
    x < n ∧ p x = true ∧ (List.range x).countP p = j := by
  induction n with
  | zero => simp at h
  | succ n ih =>
    rw [List.range_succ, List.filter_append, List.getElem?_append] at h
    split at h
    · obtain ⟨hx, hp, hc⟩ := ih h
      exact ⟨by omega, hp, hc⟩
    · rename_i hj
      cases hn : p n with
      | false => simp [hn] at h
      | true =>
        simp only [List.filter_cons, hn, if_true, List.filter_nil, List.getElem?_singleton, Option.ite_none_right_eq_some,
          Option.some.injEq] at h
        obtain ⟨h0, rfl⟩ := h
        exact ⟨by omega, hn, by rw [List.countP_eq_length_filter]; omega⟩

@[simp] theorem length_bitsOf {w : Nat} (m : BitVec w) : (bitsOf m).length = popc m := List.countP_eq_length_filter.symm

/-! ## The passes and the physical lanes of a core -/

/-- The model's G is the number the statements count. -/
theorem Core.good_eq (k : Core) : k.good = goodLanes k := rfl

theorem goodLanes_le (k : Core) : goodLanes k ≤ 32 := List.countP_le_length.trans (by simp)

theorem Core.max_good {k : Core} (h : 16 ≤ goodLanes k) : max 1 k.good = goodLanes k := by
  rw [k.good_eq]; omega

theorem Core.passes_eq {k : Core} (h : 16 ≤ goodLanes k) : k.passes = (96 + goodLanes k - 1) / goodLanes k := by
  rw [Core.passes, Core.max_good h, k.good_eq]

theorem Core.passOf_eq {k : Core} (h : 16 ≤ goodLanes k) (l : Nat) : k.passOf l = l / goodLanes k := by
  rw [Core.passOf, Core.max_good h]

theorem Core.passes_le {k : Core} (h : 16 ≤ goodLanes k) : k.passes ≤ 6 := by
  rw [Core.passes_eq h, ← Nat.lt_succ_iff, Nat.div_lt_iff_lt_mul (by omega)]
  omega

/-- A logical lane has a good lane: the one at its place in LMAP. -/
theorem Core.getElem?_physLane {k : Core} (h : 16 ≤ goodLanes k) (l : Nat) :
    (bitsOf k.lmap)[l % goodLanes k]? = some (k.physLane l) := by
  have hlt : l % goodLanes k < (bitsOf k.lmap).length := by
    rw [length_bitsOf]; exact Nat.mod_lt _ (by omega)
  rw [Core.physLane, Core.max_good h, List.getElem?_eq_getElem hlt, Option.getD_some]

/-- R17: lane L runs on the good lane below which L mod G lanes are good. -/
theorem Core.physLane_spec {k : Core} (h : 16 ≤ goodLanes k) (l : Nat) :
    k.physLane l < 32 ∧ k.lmap.getLsbD (k.physLane l) = true ∧
      (List.range (k.physLane l)).countP (fun i => k.lmap.getLsbD i) = l % goodLanes k :=
  countP_range_of_getElem?_filter_range (Core.getElem?_physLane h l)

/-! ## What an issue takes from its core -/

@[simp] theorem State.fresh_core (s : State) (c : Nat) : s.fresh.2.core c = s.core c := rfl

/-- An instruction finds the cores as they stand before its issue. -/
theorem Iss.core_eq {s : State} {h : Hdr} {I : Iss} (hI : s.issuer h = some I) (c : Nat) : I.s.core c = s.core c := by
  obtain ⟨-, -, -, hs, -⟩ := State.issuer_spec hI
  rw [hs, State.fresh_core]

theorem VReg.at_of {f : Nat → Elem} {l : Nat} (h : l < 96) : (VReg.of f).at l = f l := by
  rw [VReg.at, VReg.of, Vector.getElem?_eq_getElem h, Vector.getElem_ofFn, Option.getD_some]

/-- Each access of a load or a store begins in the pass of its lane (R153). -/
theorem start_of_mem_lanesOf {I : Iss} {p : Triple} {off : Nat → Word × Bool} {scale : Nat} {n : Nat} {a : Acc}
    (ha : a ∈ lanesOf I p off scale n) : a.start = I.t + (I.s.core I.c).passOf a.lane := by
  obtain ⟨l, -, rfl⟩ := List.mem_map.mp ha
  rfl

theorem Iss.vsrc_plane (I : Iss) (zx : Bool) :
    I.vsrc zx .plane = VReg.of fun l => ⟨BitVec.ofNat 32 ((I.s.core I.c).physLane l), false⟩ := rfl

/-! ## PASSES -/

/-- SRD of a special register without an index reads its word (R339). -/
theorem scalarResult_srd {x : SrdA} {s : State} {I : Iss} {w : Word} (hx : x.sel.indexed = false) (hr : Ready s x.h { all := true } I)
    (hq : I.qok = true) (hw : I.special x.sel 0 = some w) : ScalarResult (.srd x) s I 1 x.d ⟨w, false⟩ := by
  have hreads : sysReads x.sel x.idx = [] := by simp [sysReads, hx]
  have hindex : I.sysIndex x.sel x.idx = (0, []) := by simp [Iss.sysIndex, hx]
  have hnone : I.sysFault [] 0 = none := rfl
  refine scalarResult_of (u := { reads := sysReads x.sel x.idx, all := true }) (by rwa [hreads]) rfl ?_ Nat.one_pos
  simp only [hq, hindex, hw, hnone, Bool.not_true, Bool.false_eq_true, if_false]

/-- The fields of PASSES: P in bits 2:0, G in bits 13:8 (R74, Table 11). -/
theorem passesWord_fields {G P : Nat} (hP : P < 8) (hG : G < 64) :
    ((BitVec.ofNat 32 (G * 2 ^ 8 + P)).extractLsb' 0 3).toNat = P ∧ ((BitVec.ofNat 32 (G * 2 ^ 8 + P)).extractLsb' 8 6).toNat = G := by
  simp only [BitVec.extractLsb'_toNat, BitVec.toNat_ofNat, Nat.shiftRight_eq_div_pow]
  omega

/-- Settles O52: G is the count of LMAP's bits and a physical lane the `L mod G`-th of them, the issue reads both from its core, and
PASSES packs P ≤ 6 and G ≤ 32 into fields that hold them. -/
theorem lanesIssueInPasses : Obligations.LanesIssueInPasses := by
  refine ⟨fun k hG => ⟨Core.passes_eq hG, fun l _ => ⟨Core.passOf_eq hG l, Core.physLane_spec hG l⟩⟩, ?_, ?_⟩
  · intro h s I hI hG
    obtain ⟨-, -, -, -, -, -, hP, -⟩ := State.issuer_spec hI
    have hcore := Iss.core_eq hI I.c
    refine ⟨hP.trans (Core.passes_eq hG), fun p off scale n a ha => ?_, fun l hl => ?_⟩
    · rw [start_of_mem_lanesOf ha, hcore, Core.passOf_eq hG]
    · rw [I.vsrc_plane, VReg.at_of hl, hcore]
  · intro x s I hsel hr hq hG
    have hw : I.special x.sel 0 = some (BitVec.ofNat 32 ((s.core I.c).good * 2 ^ 8 + (s.core I.c).passes)) := by
      rw [hsel, ← Iss.core_eq hr.issuer]; rfl
    have hP := Core.passes_le hG
    have hle := goodLanes_le (s.core I.c)
    obtain ⟨fP, fG⟩ := passesWord_fields (G := (s.core I.c).good) (P := (s.core I.c).passes) (by omega) (by rw [Core.good_eq]; omega)
    exact ⟨_, scalarResult_srd (by rw [hsel]; rfl) hr hq hw, fP.trans (Core.passes_eq hG), fG⟩

end Sys2Proof.Machine
end

section
/-! SUPPORT. The words of the scalar instructions (chapter 5, Table 7) and the settling of O1. -/

namespace Sys2Proof.Machine

open Sys2Proof

/-! ## The words -/

/-- The high word of a 64-bit product is its quotient by 2^32. -/
theorem extractLsb'_high_ofNat (n : Nat) : (BitVec.ofNat 64 n).extractLsb' 32 32 = BitVec.ofNat 32 (n / 2 ^ 32) := by
  apply BitVec.eq_of_toNat_eq
  simp only [BitVec.extractLsb'_toNat, BitVec.toNat_ofNat, Nat.shiftRight_eq_div_pow]
  omega

theorem mulHigh_unsigned (a b : Word) : mulHigh true a b = (a.zeroExtend 64 * b.zeroExtend 64).extractLsb' 32 32 := by
  have h : a.zeroExtend 64 * b.zeroExtend 64 = BitVec.ofNat 64 (a.toNat * b.toNat) := by
    apply BitVec.eq_of_toNat_eq
    simp [BitVec.toNat_mul]
  rw [h, extractLsb'_high_ofNat]; rfl

theorem mulHigh_signed (a b : Word) : mulHigh false a b = (a.signExtend 64 * b.signExtend 64).extractLsb' 32 32 := by
  have h : a.signExtend 64 * b.signExtend 64 = BitVec.ofInt 64 (a.toInt * b.toInt) := by
    rw [BitVec.ofInt_mul]; rfl
  have hi : ∀ n : Int, (BitVec.ofInt 64 n).extractLsb' 32 32 = BitVec.ofInt 32 (n / 2 ^ 32) := by
    intro n
    apply BitVec.eq_of_toNat_eq
    simp only [BitVec.extractLsb'_toNat, BitVec.toNat_ofInt, Nat.shiftRight_eq_div_pow]
    omega
  rw [h, hi]; rfl

theorem mulHigh_eq (u : Bool) (a b : Word) :
    mulHigh u a b = if u then (a.zeroExtend 64 * b.zeroExtend 64).extractLsb' 32 32
      else (a.signExtend 64 * b.signExtend 64).extractLsb' 32 32 := by
  cases u
  · exact mulHigh_signed a b
  · exact mulHigh_unsigned a b

/-- SDIV: all ones for a division by 0, else the quotient rounded toward zero, which wraps for −2^31 / −1. -/
theorem quotient_eq (u : Bool) (a b : Word) :
    quotient u a b = if b = 0 then 0xFFFFFFFF else if u then a / b else a.sdiv b := by
  unfold quotient
  split
  · rfl
  · rw [BitVec.udiv_def, show a.sdiv b = BitVec.ofInt 32 (a.toInt.tdiv b.toInt) from
      BitVec.eq_of_toInt_eq (by rw [BitVec.toInt_sdiv, BitVec.toInt_ofInt])]

theorem shl_eq (a b : Word) : shl a b = a <<< b := by
  unfold shl
  split
  · exact (BitVec.shiftLeft_eq_zero (by assumption)).symm
  · rfl

theorem shr_eq (a b : Word) : shr a b = a >>> b := by
  unfold shr
  split
  · exact (BitVec.ushiftRight_eq_zero (by assumption)).symm
  · rfl

/-- Shifting by 32 or more leaves copies of the sign, as shifting by 32 does. -/
theorem sar_eq (a b : Word) : sar a b = a.sshiftRight' b := by
  ext i hi
  rw [sar, BitVec.sshiftRight', BitVec.getElem_sshiftRight, BitVec.getElem_sshiftRight]
  by_cases hb : b.toNat < 32
  · simp [Nat.min_eq_left (Nat.le_of_lt hb)]
  · have h1 : ¬ 32 + i < 32 := by omega
    have h2 : ¬ b.toNat + i < 32 := by omega
    rw [Nat.min_eq_right (by omega), dif_neg h1, dif_neg h2]

/-! ## The instructions -/

/-- A two-source scalar instruction writes its word, marked when a register it reads is. -/
theorem scalarResult_scalarBin {i : Instr} {x : SBinA} {s : State} {I : Iss} {occ : Nat} {readsD : Bool} {f : Word → Word → Word → Word}
    (hr : Ready s x.h { reads := if readsD then [x.a, x.b, x.d] else [x.a, x.b], all := true } I)
    (hi : exec i s = scalarBin x occ readsD f s) (h0 : 0 < occ) :
    ScalarResult i s I occ x.d ⟨f (I.sval x.zx x.a).val (I.sval x.zx x.b).val (I.sval false x.d).val,
      (I.sval x.zx x.a).k || (I.sval x.zx x.b).k || (readsD && (I.sval false x.d).k)⟩ :=
  scalarResult_of hr hi rfl h0

/-- One that does not read its destination, and the word it writes. -/
theorem scalarResult_bin {i : Instr} {x : SBinA} {s : State} {I : Iss} {occ : Nat} {f : Word → Word → Word → Word} {v : Word}
    (hr : Ready s x.h { reads := [x.a, x.b], all := true } I) (hi : exec i s = scalarBin x occ false f s) (h0 : 0 < occ)
    (hv : f (I.sval x.zx x.a).val (I.sval x.zx x.b).val (I.sval false x.d).val = v) :
    ScalarResult i s I occ x.d ⟨v, (I.sval x.zx x.a).k || (I.sval x.zx x.b).k⟩ := by
  have h := scalarResult_scalarBin (readsD := false) hr hi h0
  rwa [hv, Bool.false_and, Bool.or_false] at h

/-- Settles O1: SMAD by the rule of scalar results, every other instruction by the rule of two sources and the equation of its word. -/
theorem scalarArithmeticResults : Obligations.ScalarArithmeticResults := by
  intro x s I
  dsimp only
  refine ⟨fun hr => ?_, fun hr => ⟨?_, ?_, ?_, ?_, ?_, ?_, ?_, ?_, ?_, ?_, ?_, ?_, ?_⟩⟩
  · have hi : exec (.smad x) s = scalarBin x 2 true (fun a b d => a * b + d) s := rfl
    exact scalarResult_scalarBin (readsD := true) hr hi two_pos
  · exact scalarResult_bin (f := fun a b _ => a + b) hr rfl Nat.one_pos rfl
  · exact scalarResult_bin (f := fun a b _ => a - b) hr rfl Nat.one_pos rfl
  · exact scalarResult_bin (f := fun a b _ => a * b) hr rfl two_pos rfl
  · exact scalarResult_bin (f := fun a b _ => mulHigh x.u a b) hr rfl two_pos (mulHigh_eq ..)
  · exact scalarResult_bin (f := fun a b _ => quotient x.u a b) hr rfl (by decide) (quotient_eq ..)
  · exact scalarResult_bin (f := fun a b _ => a &&& b) hr rfl Nat.one_pos rfl
  · exact scalarResult_bin (f := fun a b _ => a ||| b) hr rfl Nat.one_pos rfl
  · exact scalarResult_bin (f := fun a b _ => a ^^^ b) hr rfl Nat.one_pos rfl
  · exact scalarResult_bin (f := fun a b _ => shl a b) hr rfl Nat.one_pos (shl_eq ..)
  · exact scalarResult_bin (f := fun a b _ => shr a b) hr rfl Nat.one_pos (shr_eq ..)
  · exact scalarResult_bin (f := fun a b _ => sar a b) hr rfl Nat.one_pos (sar_eq ..)
  · exact scalarResult_bin (f := fun a b _ => minW x.u a b) hr rfl Nat.one_pos rfl
  · exact scalarResult_bin (f := fun a b _ => maxW x.u a b) hr rfl Nat.one_pos rfl

end Sys2Proof.Machine
end

section
/-! SUPPORT. Jumps, the ends of runs and results in flight whose flag is set already (R67 to R71), and the settling of O5. -/

namespace Sys2Proof.Machine

open Sys2Proof

/-! ## The split after an effect -/

@[simp] theorem Group.mergeAt_pend (G : Group) (sp : Fin 4) (now P : Nat) : (G.mergeAt sp now P).pend = G.pend := by
  unfold Group.mergeAt
  split
  · rfl
  · dsimp only; split <;> rfl

@[simp] theorem Group.endRun_pend (G : Group) (sp : Fin 4) (w : BitVec 12) (now P : Nat) : (G.endRun sp w now P).pend = G.pend := by
  simp [Group.endRun, Group.modSplit]

theorem Group.modSplit_ne {G : Group} {sp j : Fin 4} (f : Split → Split) (h : j ≠ sp) : (G.modSplit sp f).splits[j] = G.splits[j] := by
  have hv : sp.val ≠ j.val := fun e => h (Fin.ext e.symm)
  simp [Group.modSplit, hv]

/-- Before its flow, an effect has moved its own split on and left the others. -/
theorem Iss.sent_moved_splits {I : Iss} {e : Eff} {G : Group} {S : Split} (h : G.splits[I.sp] = some S) :
    (I.sent e (I.moved e G)).splits[I.sp] = some (I.goOn e S) ∧
      ∀ j : Fin 4, j ≠ I.sp → (I.sent e (I.moved e G)).splits[j] = G.splits[j] := by
  rw [(I.sent_spec e (I.moved e G)).2.1]
  refine ⟨I.moved_split h, fun j hj => ?_⟩
  have := Group.modSplit_ne (G := G.claimFlag I.h.setf I.id) (I.goOn e) hj
  rwa [Group.claimFlag_splits] at this

/-- A split whose run ends stands at the boundary where it was to go on. -/
theorem Iss.goes_of_endRun {I : Iss} {t : State} {K L : Group} {T : Split} {w : BitVec 12} (hi : t.sch.issue = none)
    (hL : I.groupIn t = some L) (hs : L.splits = (K.endRun I.sp w I.t I.P).splits) (hT : K.splits[I.sp] = some T)
    (hl : T.m = I.S.m ∧ T.o = I.S.o ∧ T.stack = I.S.stack ∧ T.readyFrom = I.S.readyFrom)
    (ho : ∀ j : Fin 4, j ≠ I.sp → K.splits[j] = I.G.splits[j]) : I.Goes t T.pc w T.notBefore := by
  obtain ⟨hm, hown, hst, hrf⟩ := hl
  exact ⟨hi, L, _, _, hL, hs, Group.modSplit_self _ hT, rfl, hm, hown, hst, rfl, rfl, rfl, hrf,
    fun j hj => (Group.modSplit_ne _ hj).trans (ho j hj)⟩

/-! ## Jumps -/

/-- But for a trailer's, the group after an effect is as the flow of its split leaves it. -/
theorem Iss.group_flow {I : Iss} {e : Eff} (hn : ∀ w, e.flow ≠ .trail w) (G : Group) :
    I.group e G = (I.sent e (I.moved e G)).flow I.sp e.flow I.t I.P := by
  unfold Iss.group Iss.trailed
  split
  · rename_i w g h _; exact absurd h (hn w)
  · rfl

/-- An effect without a fault that jumps. -/
theorem Iss.commit_jump {I : Iss} {s' : State} {G : Group} {e : Eff} {pc : Word} {from_ : Nat} (hg : s'.group? I.c I.g = some G)
    (hsp : G.splits = I.G.splits) (hS : I.G.splits[I.sp] = some I.S) (hf : e.flow = .jump pc from_) (ha : e.after = none)
    (hs : e.serviced = none) : I.Goes (I.commit s' e) pc 0 from_ ∧ I.Alone s' (I.commit s' e) ∧
      I.groupIn (I.commit s' e) = some (I.group e G) := by
  obtain ⟨h1, h2, h3⟩ := Iss.commit_alone hg (by simp [hf]) (by simp [hf]) ha hs
  refine ⟨?_, h2, h3⟩
  obtain ⟨hm, ho⟩ := I.sent_moved_splits (e := e) (hsp ▸ hS)
  have hL : (I.group e G).splits = (((I.sent e (I.moved e G)).modSplit I.sp
      fun S => { S with pc := pc, notBefore := from_ }).endRun I.sp 0 I.t I.P).splits := by
    rw [Iss.group_flow (by simp [hf]), hf]; rfl
  exact Iss.goes_of_endRun h1 h3 hL (Group.modSplit_self _ hm) ⟨rfl, rfl, rfl, rfl⟩
    fun j hj => by rw [Group.modSplit_ne _ hj, ho j hj, hsp]

/-- An instruction that takes effect and jumps, on a state that holds what it did besides. -/
theorem jumps_of {i : Instr} {s : State} {h : Hdr} {u : Use} {I : Iss} {body : Iss → Res} {s' : State} {G : Group} {e : Eff}
    {pc : Word} {from_ : Nat} {P : State → Prop} (hr : Ready s h u I) (hi : exec i s = issue h u s body) (hb : body I = .done s' e)
    (hg : s'.group? I.c I.g = some G) (hsp : G.splits = I.G.splits) (hf : e.flow = .jump pc from_) (ha : e.after = none)
    (hs : e.serviced = none) (hP : P (I.commit s' e)) : Jumps i s I s' pc 0 from_ P := by
  obtain ⟨-, -, hS, -⟩ := State.issuer_spec hr.issuer
  obtain ⟨h1, h2, -⟩ := Iss.commit_jump hg hsp hS hf ha hs
  exact ⟨_, by rw [hi, issue_ready hr, hb]; rfl, h1, h2, hP⟩

/-- What the state with the number drawn leaves alone, the state before it leaves alone. -/
theorem jumps_fresh {i : Instr} {s : State} {h : Hdr} {I : Iss} {pc : Word} {w : BitVec 12} {from_ : Nat} {P : State → Prop}
    (hI : s.issuer h = some I) (hj : Jumps i s I I.s pc w from_ P) : Jumps i s I s pc w from_ P := by
  obtain ⟨t, h1, h2, h3, h4⟩ := hj
  exact ⟨t, h1, h2, Iss.alone_fresh hI h3, h4⟩

/-- A jump whose flag its issue sets. -/
theorem jumps_flag {i : Instr} {s : State} {h : Hdr} {u : Use} {I : Iss} {body : Iss → Res} {s' : State} {G : Group} {e : Eff}
    {pc : Word} {from_ cyc : Nat} (hr : Ready s h u I) (hi : exec i s = issue h u s body) (hb : body I = .done s' e)
    (hg : s'.group? I.c I.g = some G) (hsp : G.splits = I.G.splits) (hf : e.flow = .jump pc from_) (ha : e.after = none)
    (hs : e.serviced = none) (hc : e.comp = .flag cyc) : Jumps i s I s' pc 0 from_ (I.Flags · (cyc + 1)) := by
  refine jumps_of hr hi hb hg hsp hf ha hs fun f hset => ?_
  obtain ⟨-, -, hG⟩ := Iss.commit_alone (I := I) hg (e := e) (by simp [hf]) (by simp [hf]) ha hs
  exact ⟨_, hG, by rw [Iss.group_flag hc (by simp [hf]) hset], by rw [Iss.group_flag hc (by simp [hf]) hset]⟩

/-- An instruction that a fault stops. -/
theorem stops_of {i : Instr} {s : State} {h : Hdr} {u : Use} {I : Iss} {body : Iss → Res} {r : Report} (hr : Ready s h u I)
    (hi : exec i s = issue h u s body) (hb : body I = .stop r) : Stops i s I r := by
  rw [Stops, hi, issue_ready hr, hb]; rfl

/-! ## Results whose flag the issue sets -/

/-- The flag of an early result is set in its own cycle. -/
theorem Iss.group_early {I : Iss} {e : Eff} {G : Group} {f : Fin 12} {lam cyc : Nat} (hc : e.comp = .early lam cyc)
    (hn : ∀ w, e.flow ≠ .trail w) (hf : I.h.setf = some f) : (I.group e G).regs.flag f = ⟨true, cyc + 1, I.id⟩ := by
  rw [Iss.group_flow hn, (Group.kept_flow none _ I.sp e.flow I.t I.P).flags f (by simp)]
  simp only [Iss.sent, hc]
  split <;> simp [Iss.moved, hf, Group.raiseFlag, Group.claimFlag, Group.modSplit, GRegs.flag, Group.fly]

/-- An effect with an early result: its flag is set, and its writes are in flight. -/
theorem Iss.commit_early {I : Iss} {s' : State} {G : Group} {e : Eff} {lam cyc : Nat} (hg : s'.group? I.c I.g = some G)
    (hc : e.comp = .early lam cyc) (hf : e.flow = .next ∨ ∃ pc n, e.flow = .jump pc n) (ha : e.after = none) (hs : e.serviced = none) :
    I.Flags (I.commit s' e) (cyc + 1) ∧ I.FliesBare (I.commit s' e) (lam + 1) e.ws := by
  have hr : ∀ r, e.flow ≠ .retire r := by rcases hf with h | ⟨_, _, h⟩ <;> simp [h]
  have hn : ∀ w, e.flow ≠ .trail w := by rcases hf with h | ⟨_, _, h⟩ <;> simp [h]
  obtain ⟨-, -, hG⟩ := Iss.commit_alone (I := I) hg (e := e) hr (fun ⟨w, h⟩ => absurd h (hn w)) ha hs
  refine ⟨fun f hset => ⟨_, hG, by rw [Iss.group_early hc hn hset], by rw [Iss.group_early hc hn hset]⟩, ?_⟩
  by_cases hw : e.ws = []
  · exact .inl hw
  · have hp : (⟨I.id, lam + 1, e.ws, none, lam + 1, []⟩ : Pend) ∈ (I.group e G).pend := by
      rw [Iss.group_flow hn]
      rcases hf with h | ⟨_, _, h⟩ <;> simp [h, Group.flow, Iss.sent, hc, hw, Group.fly, Group.modSplit]
    refine .inr ⟨_, _, hG, hp, rfl, rfl, rfl, rfl, ?_⟩
    rw [Iss.commit_plain hr ha hs]
    obtain ⟨l, hl⟩ := I.limit_spec (I.took s' e)
    rw [hl]
    refine List.mem_append_left _ ?_
    simp [Iss.took, Iss.agenda, hw, hc, State.modCore, State.setCore, State.postQ, State.post, State.modSch]

/-! ## Trailers -/

theorem Group.raiseFlag_owner (G : Group) (x : Option (Fin 12)) (id n : Nat) (f : Fin 12) :
    ((G.raiseFlag x id n).regs.flag f).owner = (G.regs.flag f).owner := by
  cases x with
  | none => rfl
  | some g =>
    simp only [Group.raiseFlag]
    split
    · by_cases h : g = f
      · subst h; simp_all [GRegs.flag]
      · have : g.val ≠ f.val := fun e => h (Fin.ext e)
        simp [GRegs.flag, this]
    · rfl

theorem Group.raiseFlag_isSet (G : Group) (x : Option (Fin 12)) (id n : Nat) (f : Fin 12) (h : (G.regs.flag f).isSet = true) :
    ((G.raiseFlag x id n).regs.flag f).isSet = true := by
  cases x with
  | none => exact h
  | some g =>
    simp only [Group.raiseFlag]
    split
    · by_cases he : g = f
      · subst he; simp [GRegs.flag]
      · have : g.val ≠ f.val := fun e => he (Fin.ext e)
        simpa [GRegs.flag, this] using h
    · exact h

/-- Its newest claimant sets a flag. -/
theorem Group.raiseFlag_self {G : Group} {f : Fin 12} {id : Nat} (n : Nat) (h : (G.regs.flag f).owner = id) :
    (G.raiseFlag (some f) id n).regs.flag f = ⟨true, n, id⟩ := by
  simp only [Group.raiseFlag, h, if_true]
  simp [GRegs.flag]

/-- Of some trailers that are done, the newest claimant of a flag sets it. -/
theorem Group.settle_fold_isSet (l : List TrailWait) (now : Nat) (G : Group) (w : TrailWait)
    (h : (w ∈ l ∧ (G.regs.flag w.flag).owner = w.owner) ∨ (G.regs.flag w.flag).isSet = true) :
    ((l.foldl (fun G t => G.raiseFlag (some t.flag) t.owner now) G).regs.flag w.flag).isSet = true := by
  induction l generalizing G with
  | nil =>
    rcases h with ⟨h, -⟩ | h
    · cases h
    · exact h
  | cons t l ih =>
    refine ih _ ?_
    rcases h with ⟨hm, ho⟩ | h
    · rcases List.mem_cons.mp hm with rfl | hm
      · right; rw [Group.raiseFlag_self _ ho]
      · left; exact ⟨hm, by rw [Group.raiseFlag_owner]; exact ho⟩
    · right; exact Group.raiseFlag_isSet _ _ _ _ _ h

/-- A trailer is done when no result of its run is in flight (R70). -/
def Group.trailDone (G : Group) (w : TrailWait) : Bool :=
  !w.ids.any fun i => G.pend.any fun p => p.id == i && (!p.ws.isEmpty || p.claims.isEmpty)

theorem Group.settleTrails_eq (G : Group) (now : Nat) :
    G.settleTrails now = { (G.trails.filter G.trailDone).foldl (fun G t => G.raiseFlag (some t.flag) t.owner now) G with
      trails := G.trails.filter fun t => !G.trailDone t } := rfl

@[simp] theorem Group.settleTrails_splits (G : Group) (now : Nat) : (G.settleTrails now).splits = G.splits := by
  rw [Group.settleTrails_eq, (Group.settle_fold _ now G).1]

/-- A trailer still waits or, being its flag's newest claimant, has set it. -/
theorem Group.settleTrails_trail {G : Group} {w : TrailWait} (now : Nat) (hw : w ∈ G.trails) (ho : (G.regs.flag w.flag).owner = w.owner) :
    w ∈ (G.settleTrails now).trails ∨ ((G.settleTrails now).regs.flag w.flag).isSet = true := by
  rw [Group.settleTrails_eq]
  cases hd : G.trailDone w with
  | false => exact .inl (List.mem_filter.mpr ⟨hw, by simp [hd]⟩)
  | true => exact .inr (Group.settle_fold_isSet _ now G w (.inl ⟨List.mem_filter.mpr ⟨hw, hd⟩, ho⟩))

/-- The flag of a trailer's effect waits for the results of its run, and the trailer ends it. -/
theorem Iss.group_trail {I : Iss} {e : Eff} {w : BitVec 12} (hf : e.flow = .trail w) (hc : e.comp = .later false) (G : Group) :
    (I.group e G).splits = ((I.moved e G).endRun I.sp w I.t I.P).splits ∧
      ∀ f, I.h.setf = some f →
        (⟨f, I.id, I.S.runIds⟩ : TrailWait) ∈ (I.group e G).trails ∨ ((I.group e G).regs.flag f).isSet = true := by
  have hs : I.sent e (I.moved e G) = I.moved e G := by simp [Iss.sent, hc]
  cases hset : I.h.setf with
  | none => exact ⟨by simp [Iss.group, Iss.trailed, hf, hset, hs, Group.flow], fun f h => by cases h⟩
  | some f =>
    have hg : I.group e G = ({ (I.moved e G).endRun I.sp w I.t I.P with
        trails := ((I.moved e G).endRun I.sp w I.t I.P).trails ++ [⟨f, I.id, I.S.runIds⟩] } : Group).settleTrails (I.t + 1) := by
      simp [Iss.group, Iss.trailed, hf, hset, hs, Group.flow]
    have hown : (((I.moved e G).endRun I.sp w I.t I.P).regs.flag f).owner = I.id := by
      rw [(Group.kept_endRun none _ I.sp w I.t I.P).flags f (by simp)]
      simp [Iss.moved, hset, Group.claimFlag, Group.modSplit, GRegs.flag]
    refine ⟨by rw [hg, Group.settleTrails_splits], fun f' hf' => ?_⟩
    cases hf'
    rw [hg]
    exact Group.settleTrails_trail (w := ⟨f, I.id, I.S.runIds⟩) _ (by simp) hown

@[simp] theorem State.core_modSch (s : State) (f : Sched → Sched) (c : Nat) : (s.modSch f).core c = s.core c := rfl

/-- What an effect without a fault leaves alone, trailers among them. -/
theorem Iss.commit_rest {I : Iss} {s' : State} {G : Group} {e : Eff} (hg : s'.group? I.c I.g = some G) (hf : ∀ r, e.flow ≠ .retire r)
    (ha : e.after = none) (hs : e.serviced = none) :
    (I.commit s' e).sch.issue = none ∧ I.groupIn (I.commit s' e) = some (I.group e G) ∧ (I.commit s' e).mem = s'.mem ∧
      (I.commit s' e).ctxs = s'.ctxs ∧ ∀ c, c ≠ I.c → (I.commit s' e).core c = s'.core c := by
  rw [Iss.commit_plain hf ha hs]
  obtain ⟨l, hl⟩ := I.limit_spec (I.took s' e)
  obtain ⟨l', hl'⟩ := I.agenda_spec e (s'.clearIssue.modGroup I.c I.g (I.group e))
  have hG : I.groupIn (I.limit (I.took s' e)) = some (I.group e G) := by rw [hl]; exact Iss.took_group hg
  refine ⟨?_, hG, ?_, ?_, fun c hc => ?_⟩ <;> rw [hl] <;> simp only [Iss.took, hl']
  · rfl
  · rfl
  · rfl
  · rw [State.core_modSch, State.core_modCore_ne _ _ _ _ hc, State.core_modSch]
    exact State.core_modCore_ne s'.clearIssue I.c c _ hc

/-! ## A trailer's prefetch -/

/-- A poisoned table is told of; nothing else changes. -/
theorem State.poison_frame (s : State) (n b z : Nat) :
    (s.poison n b z).mem = s.mem ∧ (s.poison n b z).ctxs = s.ctxs ∧ (s.poison n b z).cores = s.cores := by
  unfold State.poison
  split
  · exact ⟨rfl, rfl, rfl⟩
  · split <;> exact ⟨rfl, rfl, rfl⟩

/-- What a walk with its marking answers. Unfolding `walkMark` where it is applied lets the kernel run the walk of a variable memory; the
equation of the functions does not. -/
theorem State.walkMark_cases (s : State) (n va : Nat) :
    s.walkMark n va = (s.walk n va, s) ∨ ∃ k b z, s.walkMark n va = (.fault k (some (b, z)), s.poison n b z) := by
  obtain ⟨f, hf⟩ : ∃ f, f = @State.walkMark := ⟨_, rfl⟩
  rw [← hf]
  delta State.walkMark at hf
  have e := congrFun (congrFun (congrFun hf s) n) va
  rw [e]
  generalize s.walk n va = w
  rcases w with e | ⟨k, _ | ⟨b, z⟩⟩
  · exact .inl rfl
  · exact .inl rfl
  · exact .inr ⟨k, b, z, rfl⟩

theorem State.walkMark_frame (s : State) (n va : Nat) :
    (s.walkMark n va).2.mem = s.mem ∧ (s.walkMark n va).2.ctxs = s.ctxs ∧ (s.walkMark n va).2.cores = s.cores := by
  rcases s.walkMark_cases n va with h | ⟨k, b, z, h⟩
  · rw [h]; exact ⟨rfl, rfl, rfl⟩
  · rw [h]; exact s.poison_frame n b z

@[simp] theorem State.fillIcache_mem (s : State) (q : Nat) (ls : List Nat) : (s.fillIcache q ls).mem = s.mem := rfl
@[simp] theorem State.fillIcache_ctxs (s : State) (q : Nat) (ls : List Nat) : (s.fillIcache q ls).ctxs = s.ctxs := rfl
@[simp] theorem State.fillIcache_cores (s : State) (q : Nat) (ls : List Nat) : (s.fillIcache q ls).cores = s.cores := rfl

/-- What a prefetch does: nothing, or a walk for each of two lines, which may enter the instruction cache. -/
theorem State.prefetch_cases (s : State) (c ctx crew : Nat) (pc : Word) :
    s.prefetch c ctx crew pc = s ∨ ∃ (line : State → Nat → State) (va vb : Nat), s.prefetch c ctx crew pc = line (line s va) vb ∧
      ∀ s v, line s v = (s.walkMark ctx v).2 ∨ ∃ l, line s v = (s.walkMark ctx v).2.fillIcache (quadOf c) [l] := by
  obtain ⟨f, hf⟩ : ∃ f, f = @State.prefetch := ⟨_, rfl⟩
  rw [← hf]
  delta State.prefetch at hf
  have e := congrFun (congrFun (congrFun (congrFun (congrFun hf s) c) ctx) crew) pc
  beta_reduce at e
  extract_lets va line at e
  have hl : ∀ s v, line s v = (s.walkMark ctx v).2 ∨ ∃ l, line s v = (s.walkMark ctx v).2.fillIcache (quadOf c) [l] := by
    intro s v
    obtain ⟨L, hL⟩ : ∃ L, L = line := ⟨_, rfl⟩
    rw [← hL]
    unfold line at hL
    have e := congrFun (congrFun hL s) v
    rw [e]
    generalize s.walkMark ctx v = w
    rcases w with ⟨e | ⟨k, b⟩, t⟩
    · cases h : e.x && !e.h
      · exact .inl (by simp [h])
      · exact .inr ⟨e.phys v / 128, by simp [h]⟩
    · exact .inl rfl
  split at e
  · exact .inl e
  · exact .inr ⟨line, _, _, e, hl⟩

/-- A prefetch changes no memory, context or core. -/
theorem State.prefetch_frame (s : State) (c ctx crew : Nat) (pc : Word) :
    (s.prefetch c ctx crew pc).mem = s.mem ∧ (s.prefetch c ctx crew pc).ctxs = s.ctxs ∧ (s.prefetch c ctx crew pc).cores = s.cores := by
  rcases s.prefetch_cases c ctx crew pc with h | ⟨line, va, vb, h, hl⟩
  · rw [h]; exact ⟨rfl, rfl, rfl⟩
  · have hline : ∀ s v, (line s v).mem = s.mem ∧ (line s v).ctxs = s.ctxs ∧ (line s v).cores = s.cores := by
      intro s v
      rcases hl s v with h | ⟨l, h⟩
      · rw [h]; exact s.walkMark_frame ctx v
      · rw [h, State.fillIcache_mem, State.fillIcache_ctxs, State.fillIcache_cores]; exact s.walkMark_frame ctx v
    obtain ⟨ma, xa, ca⟩ := hline s va
    obtain ⟨mb, xb, cb⟩ := hline (line s va) vb
    rw [h]
    exact ⟨mb.trans ma, xb.trans xa, cb.trans ca⟩

/-! ## The instructions -/

/-- Table 6's word counts the live splits. -/
theorem Iss.splqWord_eq (I : Iss) :
    I.splqWord = BitVec.ofNat 32 (popc I.S.o * 65536 + I.S.stack.length * 64 +
      (if (List.finRange 4).countP (fun i => (I.G.splits[i]).isSome) = 4 then 32 else 0) + I.sp.val * 8 +
      (List.finRange 4).countP fun i => (I.G.splits[i]).isSome) := by
  rw [Iss.splqWord, Group.live, List.countP_eq_length_filter]; rfl

/-- TRAIL (R70). -/
theorem trail_spec {x : TrailA} {s : State} {I : Iss} (hr : Ready s ⟨x.wait, x.setf, 0, .p false 7⟩ {} I) :
    let s' := if x.pfd = 0 then I.s else I.s.prefetch I.c I.G.ctx I.G.crew (I.S.pc + x.pfd.signExtend 32)
    ∃ t, exec (.trail x) s = .next t ∧ I.Goes t (I.S.pc + 1) x.wait I.S.notBefore ∧ (x.setf = none → I.Alone s' t) ∧
      t.mem = s.mem ∧ t.ctxs = s.ctxs ∧ (∀ c, c ≠ I.c → t.core c = s.core c) ∧
      ∀ f, x.setf = some f → ∃ G, I.groupIn t = some G ∧
        ((∃ w ∈ G.trails, w.flag = f ∧ w.owner = I.id ∧ w.ids = I.S.runIds) ∨ (G.regs.flag f).isSet = true) := by
  intro s'
  obtain ⟨-, -, hS, hIs, -, -, -, hh⟩ := State.issuer_spec hr.issuer
  have hset : I.h.setf = x.setf := by rw [hh]
  obtain ⟨hm, hx, hc⟩ : s'.mem = s.mem ∧ s'.ctxs = s.ctxs ∧ s'.cores = s.cores := by
    have hf : I.s.mem = s.mem ∧ I.s.ctxs = s.ctxs ∧ I.s.cores = s.cores := by rw [hIs]; exact ⟨rfl, rfl, rfl⟩
    obtain ⟨h1, h2, h3⟩ := hf
    obtain ⟨p1, p2, p3⟩ := I.s.prefetch_frame I.c I.G.ctx I.G.crew (I.S.pc + x.pfd.signExtend 32)
    by_cases h0 : x.pfd = 0
    · simp only [s', h0, if_true]; exact ⟨h1, h2, h3⟩
    · simp only [s', h0, if_false]; exact ⟨p1.trans h1, p2.trans h2, p3.trans h3⟩
  have hg : s'.group? I.c I.g = some I.G := by
    rw [State.group_congr hc]
    exact (State.issuer_spec hr.issuer).2.1
  let e : Eff := { comp := .later false, flow := .trail x.wait }
  obtain ⟨hi, hG, m, cx, k⟩ := Iss.commit_rest (I := I) (e := e) hg (by simp [e]) rfl rfl
  obtain ⟨hL, hw⟩ := I.group_trail (e := e) rfl rfl I.G
  obtain ⟨hsp, ho⟩ := I.sent_moved_splits (e := e) hS
  refine ⟨I.commit s' e, ?_, Iss.goes_of_endRun hi hG hL hsp ⟨rfl, rfl, rfl, rfl⟩ ho, fun hn => ?_, m.trans hm, cx.trans hx,
    fun c hne => (k c hne).trans (State.core_congr hc c), fun f hf => ⟨_, hG, ?_⟩⟩
  · have hi : exec (.trail x) s = issue ⟨x.wait, x.setf, 0, .p false 7⟩ {} s fun I =>
        .done (if x.pfd = 0 then I.s else I.s.prefetch I.c I.G.ctx I.G.crew (I.target x.pfd)) e := rfl
    rw [hi, issue_ready hr]; rfl
  · exact (Iss.commit_alone hg (by simp [e]) (fun _ => hset.trans hn) rfl rfl).2.1
  · rcases hw f (hset.trans hf) with h | h
    · exact .inl ⟨_, h, rfl, rfl, rfl⟩
    · exact .inr h


/-- A guard that is false lets BRX, RET, CALL and LOOP do nothing but set their flag. -/
theorem acts_flag_only {i : Instr} {s : State} {h : Hdr} {u : Use} {I : Iss} {body : Iss → Res} (hr : Ready s h u I)
    (hi : exec i s = issue h u s body) (hb : body I = I.ok { comp := .flag I.t }) : Acts i s I s (I.Flags · (I.t + 1)) :=
  acts_fresh hr.issuer (acts_flag hr hi hb (Iss.group_at hr.issuer) rfl rfl rfl rfl rfl)

/-- BRX and RET, which stop on a marked target. -/
theorem brx_ret_spec {x : SrcA} {s : State} {I : Iss} (hr : Ready s x.h { reads := [x.a], all := true } I) :
    let a := I.sval false x.a
    let popped := I.s.modGroup I.c I.g fun G => { G with hints := G.hints.drop 1 }
    if I.qok = false then Acts (.brx x) s I s (I.Flags · (I.t + 1)) ∧ Acts (.ret x) s I s (I.Flags · (I.t + 1))
    else if a.k then Stops (.brx x) s I I.kAll ∧ Stops (.ret x) s I I.kAll
    else Jumps (.brx x) s I s a.val 0 (I.t + 4) (I.Flags · (I.t + 1)) ∧
      Jumps (.ret x) s I popped a.val 0 (if I.G.hints.head? = some a.val then I.t + 2 else I.t + 4) (I.Flags · (I.t + 1)) := by
  intro a popped
  have hg := Iss.group_at hr.issuer
  have hp : popped.group? I.c I.g = some { I.G with hints := I.G.hints.drop 1 } := State.group_modGroup _ hg
  by_cases hq : I.qok = false
  · rw [if_pos hq]
    exact ⟨acts_flag_only hr rfl (if_pos (by simp [hq])), acts_flag_only hr rfl (if_pos (by simp [hq]))⟩
  rw [if_neg hq]
  have hn : ¬ (!I.qok) = true := by simpa using hq
  by_cases hk : a.k = true
  · rw [if_pos hk]
    exact ⟨stops_of hr rfl ((if_neg hn).trans (if_pos hk)), stops_of hr rfl ((if_neg hn).trans (if_pos hk))⟩
  · rw [if_neg hk]
    exact ⟨jumps_fresh hr.issuer (jumps_flag hr rfl ((if_neg hn).trans (if_neg hk)) hg rfl rfl rfl rfl rfl),
      jumps_flag hr rfl ((if_neg hn).trans (if_neg hk)) hp rfl rfl rfl rfl rfl⟩

/-- CALL, which links and pushes its hint. -/
theorem call_spec {x : BrDA} {s : State} {I : Iss} (hr : Ready s x.h {} I) :
    let pushed := I.s.modGroup I.c I.g fun G => { G with hints := (I.S.pc + 1) :: G.hints.take 3 }
    if I.qok then Jumps (.call x) s I pushed (I.S.pc + x.disp.signExtend 32) 0 (I.t + 2)
      fun t => I.Flags t (I.t + 1) ∧ I.FliesBare t (I.t + 2) (I.wscal x.d ⟨I.S.pc + 1, false⟩)
    else Acts (.call x) s I s (I.Flags · (I.t + 1)) := by
  intro pushed
  have hp : pushed.group? I.c I.g = some { I.G with hints := (I.S.pc + 1) :: I.G.hints.take 3 } :=
    State.group_modGroup _ (Iss.group_at hr.issuer)
  split
  · rename_i hq
    exact jumps_of hr rfl (if_neg (by simp [hq])) hp rfl rfl rfl rfl (Iss.commit_early hp rfl (.inr ⟨_, _, rfl⟩) rfl rfl)
  · rename_i hq
    exact acts_flag_only hr rfl (if_pos (by simpa using hq))

/-- LOOP, which counts down and stops on a marked counter under FAULT. -/
theorem loop_spec {x : BrDA} {s : State} {I : Iss} (hr : Ready s x.h { reads := [x.d], all := true } I) :
    let d := I.sval false x.d
    let out (t : State) : Prop := I.Flags t (I.t + 1) ∧ I.FliesBare t (I.t + 2) (I.wscal x.d ⟨d.val - 1, d.k⟩)
    if I.qok = false then Acts (.loop x) s I s (I.Flags · (I.t + 1))
    else if d.k = true ∧ I.uses 0 = false then Stops (.loop x) s I I.kAll
    else if d.val = 1 then Acts (.loop x) s I s out
    else Jumps (.loop x) s I s (I.S.pc + x.disp.signExtend 32) 0 (I.t + 2) out := by
  intro d out
  have hg := Iss.group_at hr.issuer
  by_cases hq : I.qok = false
  · rw [if_pos hq]
    exact acts_flag_only hr rfl (if_pos (by simp [hq]))
  rw [if_neg hq]
  have hn : ¬ (!I.qok) = true := by simpa using hq
  by_cases hk : d.k = true ∧ I.uses 0 = false
  · rw [if_pos hk]
    exact stops_of hr rfl ((if_neg hn).trans (if_pos (by simpa using hk)))
  rw [if_neg hk]
  have hm : ¬ (d.k && !I.uses 0) = true := by simpa using hk
  have h1 : d.val - 1 = 0 ↔ d.val = 1 := sub_eq_zero
  by_cases hd : d.val = 1
  · rw [if_pos hd]
    have hf : (if d.val - 1 = 0 then Flow.next else .jump (I.target x.disp) (I.t + 2)) = .next := if_pos (h1.mpr hd)
    exact acts_fresh hr.issuer (acts_of hr rfl ((if_neg hn).trans (if_neg hm)) hg rfl hf rfl rfl
      (Iss.commit_early hg rfl (.inl hf) rfl rfl))
  · rw [if_neg hd]
    have hf : (if d.val - 1 = 0 then Flow.next else .jump (I.target x.disp) (I.t + 2)) = .jump (I.target x.disp) (I.t + 2) :=
      if_neg fun h => hd (h1.mp h)
    exact jumps_fresh hr.issuer (jumps_of hr rfl ((if_neg hn).trans (if_neg hm)) hg rfl hf rfl rfl
      (Iss.commit_early hg rfl (.inr ⟨_, _, hf⟩) rfl rfl))

/-- Settles O5: each instruction by the rule of effects that stay in the run or of those that jump. -/
theorem uniformControlFlow : Obligations.UniformControlFlow := by
  refine ⟨⟨?nop, fun x s I hr => trail_spec hr, ?splq⟩, ?bra, fun x s I hr => brx_ret_spec hr, fun x s I hr => call_spec hr,
    fun x s I hr => loop_spec hr⟩
  case nop =>
    intro x s I hr
    exact acts_flag_only hr rfl rfl
  case splq =>
    intro x s I hr
    dsimp only
    rw [← I.splqWord_eq]
    exact computes_of (e := { ws := I.guarded (I.wscal x.d ⟨I.splqWord, false⟩), comp := .long (I.t + 2) }) hr rfl rfl (.inl rfl) rfl
      rfl rfl
  case bra =>
    intro x s I hr
    split
    · rename_i hq
      exact jumps_fresh hr.issuer (jumps_flag hr rfl rfl (Iss.group_at hr.issuer) rfl (if_pos hq) rfl rfl rfl)
    · rename_i hq
      exact acts_fresh hr.issuer (acts_flag hr rfl rfl (Iss.group_at hr.issuer) rfl (if_neg hq) rfl rfl rfl)

end Sys2Proof.Machine
end

section
/-! SUPPORT. System instructions that stop by the causes of their operands (R338), and the settling of O36. -/

namespace Sys2Proof.Machine

open Sys2Proof

/-! ## What touches no core -/

/-- A fold whose every step leaves the cores leaves them. -/
theorem State.foldl_cores {α : Type} {f : State → α → State} (hf : ∀ s x, (f s x).cores = s.cores) (xs : List α) (s : State) :
    (xs.foldl f s).cores = s.cores := by
  induction xs generalizing s with
  | nil => rfl
  | cons x xs ih => exact (ih (f s x)).trans (hf s x)

@[simp] theorem State.settleIdle_cores (s : State) (n : Nat) : (s.settleIdle n).cores = s.cores := by
  unfold State.settleIdle
  dsimp only
  split <;> rfl

@[simp] theorem State.retryGangs_cores (s : State) (n : Nat) : (s.retryGangs n).cores = s.cores := by
  unfold State.retryGangs
  dsimp only
  rw [State.foldl_cores fun _ _ => State.postNow_cores .., State.foldl_cores fun _ _ => State.postNow_cores ..]

@[simp] theorem State.retryAll_cores (s : State) : s.retryAll.cores = s.cores := by
  refine State.foldl_cores (fun s n => ?_) _ s
  split
  · rfl
  · rw [State.retryGangs_cores, State.settleIdle_cores]

/-- A change of a core that keeps its groups keeps every group. -/
theorem State.group_modCore {s : State} {c d g : Nat} {f : Core → Core} (hf : ∀ k, (f k).groups = k.groups) :
    (s.modCore d f).group? c g = s.group? c g := by
  by_cases hc : c = d
  · subst hc
    by_cases hl : c < 768
    · rw [State.group?, State.core_modCore _ _ _ hl, hf]; rfl
    · have e : ∀ t : State, t.core c = Core.reset := fun t => by simp [State.core, Vector.getElem?_eq_none (by omega : 768 ≤ c)]
      rw [State.group?, State.group?, e, e]
  · rw [State.group?, State.core_modCore_ne _ _ _ _ hc]; rfl

@[simp] theorem State.group_addOp (s : State) (c d g : Nat) (o : Op) : (s.addOp d o).group? c g = s.group? c g :=
  State.group_modCore (f := fun k => { k with ops := k.ops ++ [o] }) fun _ => rfl

@[simp] theorem State.group_postQ (s : State) (c d g t : Nat) (e : Instr) : (s.postQ d t e).group? c g = s.group? c g := rfl

/-! ## The causes of the operands -/

/-- The report of the causes of a system instruction's operands says how it stops, and whether it goes on. -/
theorem sysStops_of {i : Instr} {s : State} {h : Hdr} {u : Use} {I : Iss} {body : Iss → Res} {cs : List Cause} {p : Ptr} {go : Prop}
    (hr : Ready s h u I) (hi : exec i s = issue h u s body) (hstop : ∀ r, I.sysFault cs p = some r → body I = .stop r)
    (hgo : I.sysFault cs p = none → go) : SysStops i s I cs p go := by
  unfold SysStops
  unfold Iss.sysFault at hstop hgo
  cases hw : worst (cs.map fun c => (0, c)) with
  | none => exact hgo (by rw [hw]; rfl)
  | some c =>
    rw [hw] at hstop
    have hs : Stops i s I (if c = .kConsume then I.kAll else I.scalar c p) := stops_of hr hi (hstop _ rfl)
    by_cases hc : c = .kConsume
    · subst hc
      exact hs
    · rw [if_neg hc] at hs
      split
      · rename_i h; exact absurd (Option.some.inj h) hc
      · rename_i h; rw [Option.some.inj h] at hs; exact hs
      · rename_i h; cases h

/-- A false guard lets a system instruction do nothing but set its flag. -/
theorem acts_flag_sys {i : Instr} {s : State} {h : Hdr} {u : Use} {I : Iss} {body : Iss → Res} (hr : Ready s h u I)
    (hi : exec i s = issue h u s body) (hb : body I = I.ok { comp := .flag (I.t + 1), unit := .scalar }) :
    Acts i s I s (I.Flags · (I.t + 2)) :=
  acts_fresh hr.issuer (acts_flag hr hi hb (Iss.group_at hr.issuer) rfl rfl rfl rfl rfl)

/-- A held instruction. -/
theorem exec_held {i : Instr} {s t : State} {h : Hdr} {u : Use} {I : Iss} {body : Iss → Res} (hr : Ready s h u I)
    (hi : exec i s = issue h u s body) (hb : body I = .hold t) : exec i s = .next (I.held t) := by
  rw [hi, issue_ready hr, hb]; rfl

/-! ## SRD and SWR -/

/-- SRD: the causes of its index, and of a tile that is not there. -/
theorem srd_spec {x : SrdA} {s : State} {I : Iss} (hr : Ready s x.h { reads := sysReads x.sel x.idx, all := true } I) :
    let ix := I.sysIndex x.sel x.idx
    if I.qok = false then Acts (.srd x) s I s (I.Flags · (I.t + 2))
    else match I.special x.sel ix.1 with
      | none => SysStops (.srd x) s I (.tileCfg :: ix.2) 0 True
      | some w => SysStops (.srd x) s I ix.2 0 (ScalarResult (.srd x) s I 1 x.d ⟨w, false⟩) := by
  rcases hix : I.sysIndex x.sel x.idx with ⟨i, cs⟩
  cases hq : I.qok with
  | false => exact acts_flag_sys hr rfl (by simp only [hq, Bool.not_false, if_true])
  | true =>
    rw [if_neg Bool.noConfusion]
    cases hw : I.special x.sel i with
    | none =>
      exact sysStops_of hr rfl (fun r h => by simp only [hq, hix, hw, h, Bool.not_true, Bool.false_eq_true, if_false, Option.getD_some])
        fun _ => trivial
    | some w =>
      exact sysStops_of hr rfl (fun r h => by simp only [hq, hix, hw, h, Bool.not_true, Bool.false_eq_true, if_false]) fun h =>
        scalarResult_of hr rfl (by simp only [hq, hix, hw, h, Bool.not_true, Bool.false_eq_true, if_false]) Nat.one_pos

/-- A tile configured: the groups of its core stay. -/
theorem group_cfg {I : Iss} {G : Group} (p : Nat) (f : Tile → Tile) (hg : I.s.group? I.c I.g = some G) (free : Bool) :
    (let s1 := I.s.modCore I.c fun k => k.modTile p f
     if free then s1.retryAll else s1).group? I.c I.g = some G := by
  have h1 : (I.s.modCore I.c fun k => k.modTile p f).group? I.c I.g = some G := by
    rw [State.group_modCore (f := fun k => k.modTile p f) fun _ => rfl]; exact hg
  cases free
  · exact h1
  · exact (State.group_congr (State.retryAll_cores _) ..).trans h1

/-- Whether a crew other than the issuer's has a tile. -/
def Iss.tileTaken (I : Iss) (p : Nat) : Bool :=
  ((I.s.core I.c).tile p).owner.isSome && ((I.s.core I.c).tile p).owner != some (I.G.ctx, I.G.crew)

/-- The state in which an SWR has configured a tile: a free one lets waiting gangs ask again. -/
def Iss.tileSet (I : Iss) (p : Nat) (w : Word) : State :=
  let free : Bool := w.extractLsb' 28 4 == 0
  let s := I.s.modCore I.c fun k => k.modTile p fun t =>
    { t with cfg := tcfgStore w, owner := if free then none else some (I.G.ctx, I.G.crew) }
  if free then s.retryAll else s

theorem Iss.swrTile_none {I : Iss} {i : Nat} {w : Word} {cs : List Cause} {r : Report} (ht : (I.s.core I.c).tileOf I.G.ctx i = none)
    (h : I.sysFault (cs ++ if Cause.illEnc ∈ cs then [] else [.tileCfg]) 0 = some r) : I.swrTile i w cs = .stop r := by
  by_cases hc : Cause.illEnc ∈ cs
  · rw [if_pos hc] at h; simp only [Iss.swrTile, ht, List.contains_eq_mem, hc, decide_true, if_true, h]
  · rw [if_neg hc] at h; simp only [Iss.swrTile, ht, List.contains_eq_mem, hc, decide_false, Bool.false_eq_true, if_false, h]

/-- The cause that SWR finds at a tile of its tenant. -/
def Iss.tileBad (I : Iss) (p : Nat) (cs : List Cause) : List Cause := if Cause.illEnc ∉ cs ∧ I.tileTaken p then [.tileCfg] else []

theorem Iss.tileBad_eq (I : Iss) (p : Nat) (cs : List Cause) :
    (if cs.contains .illEnc then [] else if I.tileTaken p then [.tileCfg] else []) = I.tileBad p cs := by
  by_cases hc : Cause.illEnc ∈ cs <;> simp [Iss.tileBad, hc]

section
variable {I : Iss} {i p : Nat} {w : Word} {cs : List Cause} (ht : (I.s.core I.c).tileOf I.G.ctx i = some p)
include ht

theorem Iss.swrTile_stop {r : Report} (h : I.sysFault (cs ++ I.tileBad p cs) 0 = some r) : I.swrTile i w cs = .stop r := by
  rw [← Iss.tileBad_eq, Iss.tileTaken] at h
  simp only [Iss.swrTile, ht, h]

theorem Iss.swrTile_go (h : I.sysFault (cs ++ I.tileBad p cs) 0 = none) (hgo : (I.s.core I.c).turn I.G.ctx I.t I.id ⟨[], [p]⟩ = .go) :
    I.swrTile i w cs = .done (I.tileSet p w) { comp := .flag (I.t + 1), unit := .scalar } := by
  rw [← Iss.tileBad_eq, Iss.tileTaken] at h
  simp only [Iss.swrTile, ht, h, hgo]
  by_cases hf : w.extractLsb' 28 4 = 0 <;> simp [Iss.tileSet, hf]

theorem Iss.swrTile_hold (h : I.sysFault (cs ++ I.tileBad p cs) 0 = none)
    (hgo : (I.s.core I.c).turn I.G.ctx I.t I.id ⟨[], [p]⟩ ≠ .go) : I.swrTile i w cs = .hold I.s := by
  rw [← Iss.tileBad_eq, Iss.tileTaken] at h
  simp only [Iss.swrTile, ht, h]

end

/-- A configured tile leaves the groups of its core. -/
theorem Iss.group_tileSet {I : Iss} {G : Group} (p : Nat) (w : Word) (hg : I.s.group? I.c I.g = some G) :
    (I.tileSet p w).group? I.c I.g = some G := by
  have h1 : ∀ f, (I.s.modCore I.c fun k => k.modTile p f).group? I.c I.g = some G := fun f => by
    rw [State.group_modCore (f := fun k => k.modTile p f) fun _ => rfl]; exact hg
  unfold Iss.tileSet
  dsimp only
  split
  · exact (State.group_congr (State.retryAll_cores _) ..).trans (h1 _)
  · exact h1 _

/-- SWR: the causes of its operands, a tile configured in its turn, and what the other registers take. -/
theorem swr_spec {x : SwrA} {s : State} {I : Iss} (hr : Ready s x.h { reads := x.a :: sysReads x.sel x.idx, all := true } I) :
    let a := I.sval true x.a
    let ix := I.sysIndex x.sel x.idx
    let cs := ix.2 ++ if a.k then [.kConsume] else []
    if I.qok = false then Acts (.swr x) s I s (I.Flags · (I.t + 2))
    else if x.sel = .tcfg then
      match (I.s.core I.c).tileOf I.G.ctx ix.1 with
      | none => SysStops (.swr x) s I (cs ++ if Cause.illEnc ∈ cs then [] else [.tileCfg]) 0 True
      | some p =>
        SysStops (.swr x) s I (cs ++ I.tileBad p cs) 0
          (if (I.s.core I.c).turn I.G.ctx I.t I.id ⟨[], [p]⟩ = .go then Acts (.swr x) s I (I.tileSet p a.val) (I.Flags · (I.t + 2))
          else exec (.swr x) s = .next (I.held I.s))
    else SysStops (.swr x) s I cs 0
      (if x.sel = .xmode ∨ x.sel = .mten ∨ x.sel = .mtol ∨ x.sel = .step then
        Acts (.swr x) s I ((I.s.addOp I.c { opOf (.swr x) I [] with args := [a.val], stage := .waiting, setf := none }).postQ I.c (I.t + 1)
          (.accessCheckComplete I.c I.id)) (I.Flags · (I.t + 2))
      else Computes (.swr x) s I (I.t + 1) [.spec x.sel ix.1 a.val]) := by
  have hg := Iss.group_at hr.issuer
  rcases hix : I.sysIndex x.sel x.idx with ⟨i, ci⟩
  dsimp only
  cases hq : I.qok with
  | false => exact acts_flag_sys hr rfl (by simp only [hq, Bool.not_false, if_true])
  | true =>
    rw [if_neg Bool.noConfusion]
    generalize hcs : ci ++ (if (I.sval true x.a).k = true then [Cause.kConsume] else []) = cs
    by_cases hx : x.sel = .tcfg
    · rw [if_pos hx]
      cases ht : (I.s.core I.c).tileOf I.G.ctx i with
      | none =>
        exact sysStops_of hr rfl (fun r h => by
          simp only [hq, hix, if_pos hx, hcs, Iss.swrTile_none ht h, Bool.not_true, Bool.false_eq_true, if_false]) fun _ => trivial
      | some p =>
        refine sysStops_of hr rfl (fun r h => by
          simp only [hq, hix, if_pos hx, hcs, Iss.swrTile_stop ht h, Bool.not_true, Bool.false_eq_true, if_false]) fun h => ?_
        split
        · rename_i hgo
          exact acts_flag (e := { comp := .flag (I.t + 1), unit := .scalar }) hr rfl (by
            simp only [hq, hix, if_pos hx, hcs, Iss.swrTile_go ht h hgo, Bool.not_true, Bool.false_eq_true, if_false])
            (I.group_tileSet p _ hg) rfl rfl rfl rfl rfl
        · rename_i hgo
          exact exec_held hr rfl (by
            simp only [hq, hix, if_pos hx, hcs, Iss.swrTile_hold ht h hgo, Bool.not_true, Bool.false_eq_true, if_false])
    · rw [if_neg hx]
      refine sysStops_of hr rfl (fun r h => by
        simp only [hq, hix, if_neg hx, hcs, h, Bool.not_true, Bool.false_eq_true, if_false]) fun h => ?_
      have hsel : (x.sel == .xmode || x.sel == .mten || x.sel == .mtol || x.sel == .step) = true ↔
          x.sel = .xmode ∨ x.sel = .mten ∨ x.sel = .mtol ∨ x.sel = .step := by simp [or_assoc]
      split
      · rename_i hs
        refine acts_flag (G := I.G) (e := { comp := .flag (I.t + 1), unit := .scalar }) hr rfl (by
          simp only [hq, hix, if_neg hx, hcs, h, if_pos (hsel.mpr hs), Bool.not_true, Bool.false_eq_true, if_false]; rfl)
          ?_ rfl rfl rfl rfl rfl
        rw [State.group_postQ, State.group_addOp]; exact hg
      · rename_i hs
        refine computes_of (due := I.t + 1) (e := { ws := [.spec x.sel i (I.sval true x.a).val], unit := .scalar }) hr rfl ?_ ?_ rfl rfl rfl
        · simp only [hq, hix, if_neg hx, hcs, h, if_neg (hsel.not.mpr hs), Bool.not_true, Bool.false_eq_true, if_false]
        · exact .inr ⟨0, rfl, by simp [Iss.last]⟩

/-- Settles O36: the statement writes out the index and its causes, which the model gives as `sysIndex`. -/
theorem specialRegisterAccess : Obligations.SpecialRegisterAccess := by
  have hix : ∀ (I : Iss) (sel : SReg) (o : Opnd), I.sysIndex sel o = if sel.indexed then
      ((I.sval true o).val.toNat, (if indexOk sel (I.s.ctx I.G.ctx).corecnt (I.sval true o).val.toNat then [] else [.illEnc]) ++
        if (I.sval true o).k then [.kConsume] else [])
    else (0, []) := by
    intro I sel o
    cases h : sel.indexed <;> simp [Iss.sysIndex, h]
  refine ⟨fun x s I hr => ?_, fun x s I hr => ?_⟩
  · have h := srd_spec hr
    simp only [hix] at h
    exact h
  · have h := swr_spec hr
    simp only [hix] at h
    exact h

end Sys2Proof.Machine
end

section
/-! SUPPORT. What the scheduler and the drains of store buffers leave alone (R67 to R69, R100 to R103, R354, R361), and the settling of
O39. -/

namespace Sys2Proof.Machine

open Sys2Proof

/-! ## What leaves memory, the issue slot and the groups -/

/-- Memory, the contexts, the issue slot and every group are as they were. -/
structure State.Steady (s t : State) : Prop where
  mem : t.mem = s.mem
  ctxs : t.ctxs = s.ctxs
  issue : t.sch.issue = s.sch.issue
  group : ∀ c g, t.group? c g = s.group? c g

theorem State.Steady.refl (s : State) : s.Steady s := ⟨rfl, rfl, rfl, fun _ _ => rfl⟩

theorem State.Steady.trans {s t u : State} (a : s.Steady t) (b : t.Steady u) : s.Steady u :=
  ⟨b.mem.trans a.mem, b.ctxs.trans a.ctxs, b.issue.trans a.issue, fun c g => (b.group c g).trans (a.group c g)⟩

theorem State.steady_modQuad (s : State) (q : Nat) (f : Quad → Quad) : s.Steady (s.modQuad q f) := ⟨rfl, rfl, rfl, fun _ _ => rfl⟩

theorem State.steady_postQ (s : State) (c t : Nat) (e : Instr) : s.Steady (s.postQ c t e) := ⟨rfl, rfl, rfl, fun _ _ => rfl⟩

theorem State.steady_fresh (s : State) : s.Steady s.fresh.2 := ⟨rfl, rfl, rfl, fun _ _ => rfl⟩

theorem State.steady_freeNat (s : State) : s.Steady s.freeNat.2 := ⟨rfl, rfl, rfl, fun _ _ => rfl⟩

theorem State.steady_modCore (s : State) (c : Nat) {f : Core → Core} (hf : ∀ k, (f k).groups = k.groups) : s.Steady (s.modCore c f) :=
  ⟨rfl, rfl, rfl, fun _ _ => State.group_modCore hf⟩

theorem State.steady_poison (s : State) (n b z : Nat) : s.Steady (s.poison n b z) := by
  obtain ⟨hm, hx, hc⟩ := s.poison_frame n b z
  refine ⟨hm, hx, ?_, State.group_congr hc⟩
  unfold State.poison
  split
  · rfl
  · split <;> rfl

/-! ## Translation and fetching -/

theorem State.steady_walkMark (s : State) (n va : Nat) : s.Steady (s.walkMark n va).2 := by
  rcases s.walkMark_cases n va with h | ⟨k, b, z, h⟩
  · rw [h]; exact .refl s
  · rw [h]; exact s.steady_poison n b z

theorem State.steady_fillTlb (s : State) (c : Nat) (e : Tlbe) : s.Steady (s.fillTlb c e) := by
  unfold State.fillTlb
  exact (s.steady_freeNat.trans (State.steady_modCore (f := fun k => { k with caches := { k.caches with
    tlb := State.keep s.freeNat.1 512 e (k.caches.tlb.filter (· != e)) } }) _ c fun _ => rfl)).trans (State.steady_modQuad ..)

theorem State.steady_beginWalk (s : State) (w : Walk) (n : Nat) : s.Steady (s.beginWalk w n) := by
  unfold State.beginWalk
  dsimp only
  split
  · exact (s.steady_modQuad _ _).trans (State.steady_postQ ..)
  · exact s.steady_modQuad _ _

theorem State.steady_translate (s : State) (c ctx va : Nat) : s.Steady (s.translate c ctx va).2 := by
  unfold State.translate
  split
  · exact .refl s
  · split
    · exact .refl s
    · split
      · exact .refl s
      · dsimp only
        split
        · have h := s.freeNat.2.steady_walkMark ctx va
          generalize s.freeNat.2.walkMark ctx va = w at h ⊢
          rcases w with ⟨e | ⟨k, b⟩, t⟩
          · exact (s.steady_freeNat.trans h).trans (State.steady_fillTlb ..)
          · exact s.steady_freeNat.trans h
        · exact (s.steady_freeNat.trans (State.steady_fresh _)).trans (State.steady_beginWalk ..)

theorem State.steady_codePhys (s : State) (c ctx va : Nat) : s.Steady (s.codePhys c ctx va).2 := by
  have h := s.steady_translate c ctx va
  unfold State.codePhys
  generalize s.translate c ctx va = w at h ⊢
  rcases w with ⟨e | k | _, t⟩ <;> exact h

theorem State.steady_codeSpan (s : State) (c ctx crew : Nat) (pc : Word) : s.Steady (s.codeSpan c ctx crew pc).2 := by
  have h := s.steady_codePhys c ctx (s.codeAddr ctx crew pc)
  unfold State.codeSpan
  dsimp only
  generalize s.codePhys c ctx (s.codeAddr ctx crew pc) = w at h ⊢
  rcases w with ⟨k | a, t⟩
  · exact h
  · dsimp only
    split
    · exact h
    · have h' := t.steady_codePhys c ctx ((s.codeAddr ctx crew pc + 11) % 2 ^ 62)
      generalize t.codePhys c ctx ((s.codeAddr ctx crew pc + 11) % 2 ^ 62) = w at h' ⊢
      rcases w with ⟨k | b, u⟩ <;> exact h.trans h'

theorem State.steady_missing (s : State) (c ctx crew : Nat) (pc : Word) : s.Steady (s.missing c ctx crew pc).2 := by
  have h := s.steady_codeSpan c ctx crew pc
  unfold State.missing
  split
  · exact .refl s
  · generalize s.codeSpan c ctx crew pc = w at h ⊢
    rcases w with ⟨(_ | k) | ⟨a, b⟩, t⟩ <;> exact h

theorem State.steady_icacheMiss (s : State) (c l : Nat) : s.Steady (s.icacheMiss c l) := by
  refine .trans ?_ (State.steady_postQ ..)
  exact s.steady_freeNat.trans (State.steady_modCore (f := fun k => { k with frozen := some l, slips := k.slips + 1 }) _ _ fun _ => rfl)

/-! ## The issue slot -/

/-- The issue slot is empty, or holds a split of a core that the open run of its group is. -/
def State.Slotted (s t : State) (c : Nat) : Prop :=
  t.mem = s.mem ∧ (t.sch.issue = none ∨ ∃ (g : Nat) (sp : Fin 4) (G : Group) (S : Split),
    t.sch.issue = some ⟨c, g, sp⟩ ∧ t.group? c g = some G ∧ G.splits[sp] = some S ∧ G.cur = some sp)

theorem State.Steady.slotted {s t : State} (h : s.Steady t) (hi : s.sch.issue = none) (c : Nat) : s.Slotted t c :=
  ⟨h.mem, .inl (h.issue.trans hi)⟩

/-- Going to the slot, as a group whose open run is the split's. -/
theorem State.slotted_toSlot {s : State} {c g : Nat} {sp : Fin 4} {G : Group} {S T : Split} {f : Group → Group} {h : Core → Core}
    (hi : s.sch.issue = none) (hg : s.group? c g = some G) (hh : ∀ k, (h k).groups = k.groups) (hs : (f G).splits[sp] = some T)
    (hc : (f G).cur = some sp) : s.Slotted (s.toSlot c g sp G S f h) c := by
  have hm := s.steady_missing c G.ctx G.crew S.pc
  unfold State.toSlot
  generalize s.missing c G.ctx G.crew S.pc = w at hm ⊢
  obtain ⟨_ | l | _, t⟩ := w
  · have hG : ((t.modGroup c g f).modCore c h).group? c g = some (f G) := by
      rw [State.group_modCore hh, State.group_modGroup f ((hm.group c g).trans hg)]
    dsimp only
    split
    · split
      · exact ⟨hm.mem, .inr ⟨g, sp, f G, T, rfl, hG, hs, hc⟩⟩
      · exact ⟨hm.mem, .inr ⟨g, sp, f G, T, rfl, hG, hs, hc⟩⟩
    · exact ⟨hm.mem, .inr ⟨g, sp, f G, T, rfl, hG, hs, hc⟩⟩
  · exact (hm.trans (State.steady_icacheMiss ..)).slotted hi c
  · exact hm.slotted hi c

/-! ## What a pick prepares -/

/-- Memory and the schedule are as they were: what changes is in the cores. -/
structure State.OnlyCores (s t : State) : Prop where
  mem : t.mem = s.mem
  sch : t.sch = s.sch

theorem State.foldl_onlyCores {α : Type} {f : State → α → State} (hf : ∀ (s : State) x, s.OnlyCores (f s x)) (xs : List α)
    (s : State) :
    s.OnlyCores (xs.foldl f s) := by
  induction xs generalizing s with
  | nil => exact ⟨rfl, rfl⟩
  | cons x xs ih => exact ⟨(ih _).mem.trans (hf s x).mem, (ih _).sch.trans (hf s x).sch⟩

theorem State.onlyCores_takePlaces (s : State) (c : Nat) : s.OnlyCores (s.takePlaces c) := by
  refine State.foldl_onlyCores (fun s g => ?_) _ s
  split
  · exact ⟨rfl, rfl⟩
  · split
    · exact ⟨rfl, rfl⟩
    · split <;> exact ⟨rfl, rfl⟩

theorem State.onlyCores_popAll (s : State) (c : Nat) : s.OnlyCores (s.popAll c) := by
  refine State.foldl_onlyCores (fun s g => ?_) _ s
  split
  · exact ⟨rfl, rfl⟩
  · split
    · exact ⟨rfl, rfl⟩
    · split <;> exact ⟨rfl, rfl⟩

theorem State.onlyCores_withhold (s : State) (c : Nat) (gs : List Nat) : s.OnlyCores (s.withhold c gs) := by
  refine State.foldl_onlyCores (fun s x => ?_) _ s
  obtain ⟨g, i⟩ := x
  dsimp only
  split
  · exact ⟨rfl, rfl⟩
  · split
    · exact ⟨rfl, rfl⟩
    · split <;> exact ⟨rfl, rfl⟩

/-! ## The pick -/

/-- What the open runs of a core are. -/
theorem State.mem_openRuns {s : State} {c g : Nat} {G : Group} (h : (g, G) ∈ s.openRuns c) : s.group? c g = some G := by
  unfold State.openRuns at h
  simp only [List.mem_mergeSort, List.mem_filterMap] at h
  obtain ⟨x, -, hx⟩ := h
  split at hx
  · rename_i K hK
    split at hx
    · cases hx; exact hK
    · cases hx
  · cases hx

/-- What the groups eligible for a pick are. -/
theorem State.mem_eligible {s : State} {c g : Nat} {G : Group} {sp : Fin 4} {seed : BitVec 16} (h : (g, G, sp, seed) ∈ s.eligible c) :
    s.group? c g = some G := by
  unfold State.eligible at h
  simp only [List.mem_filterMap] at h
  obtain ⟨x, -, hx⟩ := h
  split at hx
  · cases hx
  · rename_i K hK
    split at hx
    · cases hx
    · split at hx
      · cases hx
      · split at hx
        · split at hx
          · cases hx; exact hK
          · cases hx
        · cases hx

/-- A group that opens its run at a split. -/
theorem State.openRun_spec {sp : Fin 4} {seed : BitVec 16} {now : Nat} {G : Group} {S : Split} (h : G.splits[sp] = some S) :
    (∃ T, (State.openRun sp seed now G).splits[sp] = some T) ∧ (State.openRun sp seed now G).cur = some sp :=
  ⟨⟨_, Group.modSplit_self _ h⟩, rfl⟩

/-- R100: a pick leaves the slot empty, or fills it from an open run, or opens one. -/
theorem State.slotted_pick {s : State} {c : Nat} (hi : s.sch.issue = none) : s.Slotted (s.pick c) c := by
  have hs : s.Slotted s c := ⟨rfl, .inl hi⟩
  unfold State.pick
  dsimp only
  split
  · rename_i g G hf
    have hg := State.mem_openRuns (List.mem_of_find?_eq_some hf)
    split
    · rename_i sp hc
      split
      · rename_i S hS
        exact State.slotted_toSlot hi hg (fun _ => rfl) hS hc
      · exact hs
    · exact hs
  · split
    · exact hs
    · split
      · obtain ⟨hm, hsch⟩ := s.onlyCores_withhold c ((s.eligible c).map (·.1))
        exact ⟨hm, .inl (by rw [hsch]; exact hi)⟩
      · split
        · exact hs
        · rename_i g G sp seed es he
          have hg := State.mem_eligible (he ▸ List.mem_cons_self)
          split
          · rename_i S hS
            obtain ⟨⟨T, hT⟩, hc⟩ := State.openRun_spec (seed := seed) (now := s.now c) hS
            exact State.slotted_toSlot hi hg (fun _ => rfl) hT hc
          · exact hs

/-! ## Crews -/

/-- A crew is one of a context of the module. -/
theorem State.crew_lt {s : State} {ctx crew : Nat} {k : Crew} (h : s.crew? ctx crew = some k) : ctx < 16 := by
  by_contra hc
  simp [State.crew?, State.ctx, Vector.getElem?_eq_none (by omega : 16 ≤ ctx), Ctx.reset] at h

theorem State.crew_modCrew {s : State} {ctx crew : Nat} {k : Crew} {f : Crew → Crew} (h : s.crew? ctx crew = some k)
    (hf : ∀ q, (f q).id = q.id) : (s.modCrew ctx crew f).crew? ctx crew = some (f k) := by
  have hid : k.id = crew := by simpa using List.find?_some h
  have hp : ((fun q : Crew => q.id == crew) ∘ fun q => if q.id = crew then f q else q) = fun q => q.id == crew := by
    funext q
    by_cases hq : q.id = crew <;> simp [hq, hf]
  rw [State.crew?, State.modCrew, State.ctx_modCtx _ _ _ (State.crew_lt h), List.find?_map, hp]
  change Option.map _ (s.crew? ctx crew) = _
  rw [h, Option.map_some, if_pos hid]

theorem State.crew_congr {s t : State} (h : t.ctxs = s.ctxs) (ctx crew : Nat) : t.crew? ctx crew = s.crew? ctx crew := by
  rw [State.crew?, State.ctx_congr h]; rfl

/-! ## Draining -/

/-- Contexts and clocks are as they were. -/
structure State.OnlyBytes (s t : State) : Prop where
  ctxs : t.ctxs = s.ctxs
  clk : t.sch.quadClk = s.sch.quadClk

theorem State.OnlyBytes.refl (s : State) : s.OnlyBytes s := ⟨rfl, rfl⟩

theorem State.OnlyBytes.trans {s t u : State} (a : s.OnlyBytes t) (b : t.OnlyBytes u) : s.OnlyBytes u :=
  ⟨b.ctxs.trans a.ctxs, b.clk.trans a.clk⟩

theorem State.onlyBytes_homeWrite (s : State) (xs : List (Nat × Byte)) : s.OnlyBytes (s.homeWrite xs) := by
  constructor <;> simp [State.homeWrite]

theorem State.onlyBytes_setL1 (s : State) (c : Nat) (ls : List Line) : s.OnlyBytes (s.setL1 c ls) := ⟨rfl, rfl⟩

theorem State.onlyBytes_fillL1 (s : State) (c ctx va pa : Nat) : s.OnlyBytes (s.fillL1 c ctx va pa) := by
  have hn : s.OnlyBytes s.freeNat.2 := ⟨rfl, rfl⟩
  unfold State.fillL1
  split
  · exact .refl s
  · dsimp only
    split
    · exact s.onlyBytes_setL1 ..
    · split
      · split
        · exact (hn.trans (State.onlyBytes_homeWrite ..)).trans (State.onlyBytes_setL1 ..)
        · exact hn.trans (State.onlyBytes_setL1 ..)
      · exact hn.trans (State.onlyBytes_setL1 ..)

theorem State.onlyBytes_l1Write (s : State) (c ctx va pa : Nat) (bs : List Byte) : s.OnlyBytes (s.l1Write c ctx va pa bs) := by
  refine (s.onlyBytes_fillL1 c ctx va pa).trans ?_
  constructor <;> simp [State.l1Write, State.setL1]

theorem State.foldl_onlyBytes {α : Type} {f : State → α → State} (hf : ∀ (s : State) x, s.OnlyBytes (f s x)) (xs : List α)
    (s : State) :
    s.OnlyBytes (xs.foldl f s) := by
  induction xs generalizing s with
  | nil => exact .refl s
  | cons x xs ih => exact (hf s x).trans (ih _)

/-- An entry of this module's drains into bytes alone. -/
theorem State.onlyBytes_drainEntry {s : State} {w : Who} {e : SBEntry} (h : ¬ State.remoteBlk 0 ≤ e.blk) :
    s.OnlyBytes (s.drainEntry w e) := by
  have hl : ∀ s : State, s.OnlyBytes (e.bytes.foldl (fun s x => s.l1Write w.c w.ctx (e.blk + x.1) (e.pa + x.1) [x.2]) s) :=
    State.foldl_onlyBytes (fun s x => s.onlyBytes_l1Write ..) _
  unfold State.drainEntry
  rw [if_neg h]
  dsimp only
  split
  · exact hl s
  · split
    · exact (s.onlyBytes_homeWrite _).trans (hl _)
    · exact s.onlyBytes_homeWrite _

/-- The crew whose entry drains, and the clocks. -/
theorem State.drainEntry_crew {s : State} {w : Who} {k : Crew} {e : SBEntry} (hk : s.crew? w.ctx w.crew = some k) :
    (s.drainEntry w e).sch.quadClk = s.sch.quadClk ∧ ∃ gone, (s.drainEntry w e).crew? w.ctx w.crew = some { k with gone := gone } ∧
      (e.blk < 2 ^ 80 → gone = k.gone) := by
  by_cases h : State.remoteBlk 0 ≤ e.blk
  · have hlt : ¬ e.blk < 2 ^ 80 := by simpa [State.remoteBlk] using h
    unfold State.drainEntry
    rw [if_pos h]
    refine ⟨rfl, _, State.crew_modCrew (s := s.emit _) hk fun _ => rfl, fun hb => absurd hb hlt⟩
  · obtain ⟨hx, hc⟩ := State.onlyBytes_drainEntry (s := s) (w := w) h
    exact ⟨hc, k.gone, (State.crew_congr hx ..).trans hk, fun _ => rfl⟩

/-! ## The events -/

/-- R361: the parked groups of a core with the times at which they were parked. -/
def State.parkedOn (s : State) (c : Nat) : List (Nat × Nat) :=
  (List.range 32).filterMap fun g => match s.group? c g with
    | some G => G.parked.map fun t => (t, g)
    | none => none

theorem State.mem_parkedOn {s : State} {c n g : Nat} :
    (n, g) ∈ s.parkedOn c ↔ ∃ G, s.group? c g = some G ∧ G.parked = some n := by
  unfold State.parkedOn
  rw [List.mem_filterMap]
  constructor
  · rintro ⟨h, -, hh⟩
    split at hh
    · rename_i G hG
      obtain ⟨m, hm, he⟩ := Option.map_eq_some_iff.mp hh
      cases he
      exact ⟨G, hG, hm⟩
    · cases hh
  · rintro ⟨G, hG, hp⟩
    exact ⟨g, List.mem_range.mpr (State.group_lt hG).2, by simp [hG, hp]⟩

/-- The group parked longest is unparked. -/
theorem execGroupUnpark_eq {s : State} {c g n : Nat} {G : Group} (hg : s.group? c g = some G) (hp : G.parked = some n)
    (hmin : ∀ h H m, s.group? c h = some H → H.parked = some m → n ≤ m ∧ (m = n → h = g)) :
    exec (.groupUnpark c) s = .next (s.setGroup c g (some { G with parked := none })) := by
  have hmem : (n, g) ∈ s.parkedOn c := State.mem_parkedOn.mpr ⟨G, hg, hp⟩
  have h1 : ((s.parkedOn c).map (·.1)).min? = some n := by
    refine List.min?_eq_some_iff.mpr ⟨List.mem_map.mpr ⟨_, hmem, rfl⟩, fun m hm => ?_⟩
    obtain ⟨⟨m', h⟩, hh, rfl⟩ := List.mem_map.mp hm
    obtain ⟨H, hH, hpH⟩ := State.mem_parkedOn.mp hh
    exact (hmin h H m' hH hpH).1
  have h2 : (s.parkedOn c).find? (fun p => p.1 == n) = some (n, g) := by
    cases hf : (s.parkedOn c).find? fun p => p.1 == n with
    | none => simpa using List.find?_eq_none.mp hf _ hmem
    | some p =>
      obtain ⟨m, h⟩ := p
      have hm : m = n := by simpa using List.find?_some hf
      obtain ⟨H, hH, hpH⟩ := State.mem_parkedOn.mp (List.mem_of_find?_eq_some hf)
      rw [hm, (hmin h H m hH hpH).2 hm]
  change execGroupUnpark c s = _
  unfold execGroupUnpark
  generalize hps : List.filterMap _ _ = ps
  obtain rfl : s.parkedOn c = ps := hps
  simp only [h1, h2, State.modGroup, hg, Option.map_some]

/-- The line a core waits for arrives. -/
theorem execIcacheLineArrival_runs {s : State} {c l : Nat} (hf : (s.core c).frozen = some l) :
    Runs (.icacheLineArrival c) s fun t => (t.core c).frozen = none ∧ l ∈ (t.quad (quadOf c)).icache ∧ t.mem = s.mem ∧
      ∀ g, t.group? c g = s.group? c g := by
  have hc : c < 768 := by
    by_contra h
    simp [State.core, Vector.getElem?_eq_none (by omega : 768 ≤ c), Core.reset] at hf
  have hx : exec (.icacheLineArrival c) s = .next ((s.fillIcache (quadOf c) [l]).modCore c fun k => { k with frozen := none }) := by
    change execIcacheLineArrival c s = _
    simp only [execIcacheLineArrival, hf]
  refine ⟨_, hx, by rw [State.core_modCore _ _ _ hc], ?_, rfl, fun g => ?_⟩
  · change l ∈ ((s.modQuad (quadOf c) fun x => { x with icache := [l].filter (fun l => !x.icache.contains l) ++ x.icache }).quad
      (quadOf c)).icache
    rw [State.quad_modQuad _ _ _ (by unfold quadOf; omega)]
    by_cases h : l ∈ (s.quad (quadOf c)).icache <;> simp [h]
  · exact State.group_modCore (f := fun k => { k with frozen := none }) fun _ => rfl

/-- A committed crew's oldest entry drains, and the next one a cycle later. -/
theorem execStoreBufferDrain_runs {s : State} {ctx crew : Nat} {k : Crew} {e : SBEntry} {rest : List SBEntry}
    (hk : s.crew? ctx crew = some k) (hcm : k.committed = true) (hb : k.sbuf = e :: rest) :
    Runs (.storeBufferDrain ctx crew) s fun t => (∃ gone, t.crew? ctx crew = some { k with sbuf := rest, gone := gone } ∧
        (e.blk < 2 ^ 80 → gone = k.gone)) ∧
      (rest ≠ [] → Awaits t k.core (s.now k.core + 1) (.storeBufferDrain ctx crew)) := by
  obtain ⟨hclk, gone, hd, hgone⟩ := State.drainEntry_crew (w := ⟨k.core, ctx, crew, 0, none, none⟩) (e := e) hk
  have hone : s.drainOne ctx crew = (s.drainEntry ⟨k.core, ctx, crew, 0, none, none⟩ e).modCrew ctx crew fun k =>
      { k with sbuf := rest } := by simp only [State.drainOne, hk, hb]
  have hk' : (s.drainOne ctx crew).crew? ctx crew = some { k with sbuf := rest, gone := gone } := by
    rw [hone]; exact State.crew_modCrew (k := { k with gone := gone }) hd fun _ => rfl
  have hnow : (s.drainOne ctx crew).now k.core = s.now k.core := by
    rw [hone, State.now, State.modCrew_sch, hclk]; rfl
  have hx : exec (.storeBufferDrain ctx crew) s = .next (if rest = [] then s.drainOne ctx crew
      else (s.drainOne ctx crew).postQ k.core (s.now k.core + 1) (.storeBufferDrain ctx crew)) := by
    change execStoreBufferDrain ctx crew s = _
    cases rest <;> simp [execStoreBufferDrain, hk, hcm, hb, hk', hnow]
  by_cases hr : rest = []
  · rw [if_pos hr] at hx
    exact ⟨_, hx, ⟨gone, hk', hgone⟩, fun h => absurd hr h⟩
  · rw [if_neg hr] at hx
    exact ⟨_, hx, ⟨gone, hk', hgone⟩, fun _ => List.mem_append_right _ (List.mem_singleton.mpr rfl)⟩

/-- Settles O39: the pick by what may go to the slot, the drain by what an entry writes, the others by their equations. -/
theorem schedulerEvents : Obligations.SchedulerEvents := by
  refine ⟨?pick, ?limit, ?line, ?unpark, ?drain⟩
  case pick =>
    intro s c hi hst he hs hf
    obtain ⟨hm1, hs1⟩ := s.onlyCores_takePlaces c
    obtain ⟨hm2, hs2⟩ := (s.takePlaces c).onlyCores_popAll c
    have hx : exec (.groupPick c) s = .next (((s.takePlaces c).popAll c).pick c) := by
      change execGroupPick c s = _
      simp [execGroupPick, hi, hst, he, hs, hf]
    obtain ⟨hm, h⟩ := State.slotted_pick (s := (s.takePlaces c).popAll c) (c := c) (by rw [hs2, hs1]; exact hi)
    exact ⟨_, hx, hm.trans (hm2.trans hm1), h⟩
  case limit =>
    intro s c g G sp S hg hc hS hl
    have hS' : G.splits[sp.val] = some S := hS
    change execRunLimitEnd c g s = _
    simp [execRunLimitEnd, hg, hc, hS', hl, Group.endRun, Group.modSplit]
  case line =>
    intro s c l hf
    exact execIcacheLineArrival_runs hf
  case unpark =>
    intro s c g G n hg hp hmin
    exact execGroupUnpark_eq hg hp hmin
  case drain =>
    intro s ctx crew k e rest hk hcm hb
    exact execStoreBufferDrain_runs hk hcm hb

end Sys2Proof.Machine
end

section
/-! SUPPORT. What a step runs: the bytes of an instruction word (R49, R50), and the order of the steps (logs 12, 14), and the settling of
O56. -/

namespace Sys2Proof.Machine

open Sys2Proof

/-! ## The bytes of an instruction word -/

theorem bytesOfWord_eq (w : IWord) : bytesOfWord w = [w.extractLsb' 0 8, w.extractLsb' 8 8, w.extractLsb' 16 8, w.extractLsb' 24 8,
    w.extractLsb' 32 8, w.extractLsb' 40 8, w.extractLsb' 48 8, w.extractLsb' 56 8, w.extractLsb' 64 8, w.extractLsb' 72 8,
    w.extractLsb' 80 8, w.extractLsb' 88 8] := rfl

theorem word4_extractLsb' (w : IWord) (k : Nat) : word4 (w.extractLsb' k 8) (w.extractLsb' (k + 8) 8) (w.extractLsb' (k + 16) 8)
    (w.extractLsb' (k + 24) 8) = w.extractLsb' k 32 := by
  unfold word4
  rw [BitVec.extractLsb'_append_extractLsb'_eq_extractLsb' (by omega), BitVec.extractLsb'_append_extractLsb'_eq_extractLsb' (by omega),
    BitVec.extractLsb'_append_extractLsb'_eq_extractLsb' (by omega)]

/-- The twelve bytes of a word give the word back. -/
theorem wordOfBytes_bytesOfWord (w : IWord) : wordOfBytes (bytesOfWord w) = some w := by
  have h0 := word4_extractLsb' w 0
  have h1 := word4_extractLsb' w 32
  have h2 := word4_extractLsb' w 64
  rw [bytesOfWord_eq]
  simp only [wordOfBytes, Nat.zero_add, Nat.reduceAdd] at h0 h1 h2 ⊢
  rw [h0, h1, h2, BitVec.extractLsb'_append_extractLsb'_eq_extractLsb' (by omega),
    BitVec.extractLsb'_append_extractLsb'_eq_extractLsb' (by omega)]
  exact congrArg some BitVec.extractLsb'_eq_self

/-- The contexts say where code lies. -/
theorem State.codeAddr_congr {s t : State} (h : t.ctxs = s.ctxs) (ctx crew : Nat) (pc : Word) :
    t.codeAddr ctx crew pc = s.codeAddr ctx crew pc := by
  simp only [State.codeAddr, State.codeBase, State.crew?, State.leg?, State.ctx_congr h]

/-- A fetch from this module gives the word whose bytes lie where the instruction does. -/
theorem State.fetch_eq {s t : State} {c ctx crew : Nat} {pc : Word} {a b : Nat} {w : IWord}
    (hm : Ptr.module (s.codeBase ctx crew) = Config.thisModule) (hs : s.codeSpan c ctx crew pc = (.ok (a, b), t))
    (hb : t.codeBytes (s.codeAddr ctx crew pc) a b = bytesOfWord w) : s.fetch c ctx crew pc = (.ok w, t) := by
  have hx : t.ctxs = s.ctxs := by
    have h := s.steady_codeSpan c ctx crew pc
    rw [hs] at h
    exact h.ctxs
  simp only [State.fetch, hm, ne_eq, not_true_eq_false, if_false, hs, State.codeAddr_congr hx, hb, wordOfBytes_bytesOfWord,
    Option.getD_some]

/-! ## The instruction at the issue slot -/

section
variable {s t : State} {i : Slot} {G : Group} {S : Split} {w : IWord} (hi : s.sch.issue = some i) (hg : s.group? i.core i.slot = some G)
  (hS : G.splits[i.split] = some S) (hf : s.fetch i.core G.ctx G.crew S.pc = (.ok w, t))
include hi hg hS hf

/-- A word that decodes is run. -/
theorem step_decoded {ins : Instr} (hd : decode w = .ok ins) : step s = settle (exec ins t) t.clearIssue := by
  simp only [step, hi, issueStep, hg, Option.bind_some, hS, Option.map_some, hf, hd]

/-- A word that does not decode stops its group. -/
theorem step_illegal {e : EncErr} (hd : decode w = .illEnc e) : step s = settle (illegal t .illEnc) t.clearIssue := by
  simp only [step, hi, issueStep, hg, Option.bind_some, hS, Option.map_some, hf, hd]

end

/-! ## The order of the steps -/

/-- With nothing at the issue slot a step is one between instructions. -/
theorem step_event {s : State} (h : s.sch.issue = none) : step s = eventStep s := by simp only [step, h]

/-- The first event that is due is the one before which none is. -/
theorem firstDue_eq {s : State} {pre post : List Due} {d : Due} (ha : s.sch.agenda = pre ++ d :: post)
    (hpre : ∀ e ∈ pre, s.clock e.clk < e.at') (hd : d.at' ≤ s.clock d.clk) : firstDue s = some pre.length := by
  have hn : pre.findIdx? (fun d => decide (d.at' ≤ s.clock d.clk)) = none := by
    rw [List.findIdx?_eq_none_iff]
    intro e he
    simpa using hpre e he
  rw [firstDue, ha, List.findIdx?_append, hn, List.findIdx?_cons]
  simp [hd]

theorem firstDue_none {s : State} (h : ∀ e ∈ s.sch.agenda, s.clock e.clk < e.at') : firstDue s = none := by
  rw [firstDue, List.findIdx?_eq_none_iff]
  intro e he
  simpa using h e he

/-- Settles O56: the fetch gives the word of the twelve bytes, and each kind of step is taken where the ones before it have no occasion. -/
theorem stepRunsTheInstruction : Obligations.StepRunsTheInstruction := by
  refine ⟨?_, ?_, ?_⟩
  · intro s t u i G S a b w0 w1 w2 ins hi hg hS hm hs va byte hb hd hx
    have hbytes : t.codeBytes (s.codeAddr G.ctx G.crew S.pc) a b = bytesOfWord (w2 ++ w1 ++ w0) := by
      refine List.map_congr_left fun n hn => ?_
      exact hb n (List.mem_range.mp hn)
    rw [step_decoded hi hg hS (State.fetch_eq hm hs hbytes) hd, hx]; rfl
  · intro s u e rest hi hin hx
    rw [step_event hi]
    simp only [eventStep, hin, hx, settle]
  · intro s hi hin
    rw [step_event hi]
    refine ⟨fun f rest u hf hx => ?_, fun hf => ⟨fun pre post d u ha hpre hd hx => ?_, fun hnone =>
      ⟨fun c rest u ht hx => ?_, fun ht => ?_⟩⟩⟩
    · simp only [eventStep, hin, hf, hx, settle]
    · have hget : s.sch.agenda[pre.length]? = some d := by rw [ha]; simp
      have herase : (s.modSch fun h => { h with agenda := h.agenda.eraseIdx pre.length }) =
          s.modSch fun h => { h with agenda := pre ++ post } := by
        simp only [State.modSch, ha, List.eraseIdx_append_of_length_le le_rfl, Nat.sub_self, List.eraseIdx_cons_zero]
      simp only [eventStep, hin, hf, firstDue_eq ha hpre hd, hget, herase, hx, settle]
    · simp only [eventStep, hin, hf, firstDue_none hnone, ht, hx, settle]
    · simp only [eventStep, hin, hf, firstDue_none hnone, ht]

end Sys2Proof.Machine
end

section
/-! SUPPORT. Words that do not decode (R52, R53, R72) and what an instruction refuses at its issue (R68, R110, R355), and the settling of
O59. -/

namespace Sys2Proof

/-! ## Reserved flags -/

/-- SETF of 13 to 15 names no flag (R51). -/
theorem setfOf_reserved {x : BitVec 4} (h : 13 ≤ x.toNat) : setfOf x = none := by
  have h0 : x ≠ 0 := by rintro rfl; simp at h
  rw [setfOf, if_neg h0, dif_neg (by omega)]

section
variable {r : Raw} (h : setfOf r.setf = none) (lo : Nat)
include h

theorem parse0_reserved : parse0 r lo = none := by
  unfold parse0
  split <;> simp [NoA.parse, TrailA.parse, BrA.parse, SrcA.parse, BrDA.parse, DstA.parse, Raw.hdr, h]

theorem parse1_reserved : parse1 r lo = none := by
  unfold parse1
  split <;> simp [SBinA.parse, UnA.parse, MovA.parse, Raw.hdr, h]

theorem parse2_reserved : parse2 r lo = none := by
  unfold parse2
  split <;> simp [SelA.parse, CmpA.parse, UnA.parse, BfA.parse, PlogA.parse, PmovA.parse, PqA.parse, PsA.parse, PaddA.parse, PtagA.parse,
    PfldA.parse, PcmpA.parse, Raw.hdr, h]

theorem parse4_reserved : parse4 r lo = none := by
  unfold parse4
  split <;> simp [VA.parse, Raw.hdr, h]

theorem parse5_reserved : parse5 r lo = none := by
  unfold parse5
  split <;> simp [CmpA.parse, SelA.parse, VA.parse, BfA.parse, FA.parse, FcmpA.parse, UnA.parse, Raw.hdr, h]

theorem parse6_reserved : parse6 r lo = none := by
  unfold parse6
  split <;> simp [FA.parse, UnA.parse, CvtA.parse, BlkA.parse, BinA.parse, Raw.hdr, h]

theorem parse7_reserved : parse7 r lo = none := by
  unfold parse7
  split <;> simp [UnpkA.parse, ShflA.parse, BcastA.parse, RedA.parse, BallotA.parse, Raw.hdr, h]

theorem parse8_reserved : parse8 r lo = none := by
  unfold parse8
  split <;> simp [LdA.parse, StA.parse, BinA.parse, PrefA.parse, LimA.parse, Raw.hdr, h]

theorem parse9_reserved : parse9 r lo = none := by
  unfold parse9
  split <;> simp [KtestA.parse, KsetA.parse, KstatA.parse, Raw.hdr, h]

theorem parseA_reserved : parseA r lo = none := by
  unfold parseA
  split <;> simp [TkA.parse, TkqA.parse, Raw.hdr, h]

theorem parseB_reserved : parseB r lo = none := by
  unfold parseB
  split <;> simp [AtomA.parse, BarA.parse, WparrA.parse, WaitA.parse, FenceA.parse, Raw.hdr, h]

theorem parseC_reserved : parseC r lo = none := by
  unfold parseC
  split <;> simp [TileMemA.parse, TileA.parse, MtaskA.parse, MtaskmA.parse, AcMaskA.parse, AcBandA.parse, AcMoveA.parseDrain,
    AcMoveA.parseLoad, AcZeroA.parse, AcScaleA.parse, MstatA.parse, McheckA.parse, Raw.hdr, h]

theorem parseE_reserved : parseE r lo = none := by
  unfold parseE
  split <;> simp [CopyA.parse, MsendA.parse, RingA.parse, ArmA.parse, St1A.parse, AsdefA.parse, UnA.parse, QpopA.parse, GattA.parse,
    GdetA.parse, Raw.hdr, h]

theorem parseF_reserved : parseF r lo = none := by
  unfold parseF
  split <;> simp [SrdA.parse, SwrA.parse, TrapA.parse, SpawnA.parse, LaunchA.parse, TbinvA.parse, PlacewA.parse, FinjA.parse, Raw.hdr, h]

/-- A word whose SETF is reserved has no fields that any opcode reads. -/
theorem parse_reserved : parse r = none := by
  unfold parse
  dsimp only
  split
  · exact parse0_reserved h _
  · exact parse1_reserved h _
  · exact parse2_reserved h _
  · exact parse4_reserved h _
  · exact parse5_reserved h _
  · exact parse6_reserved h _
  · exact parse7_reserved h _
  · exact parse8_reserved h _
  · exact parse9_reserved h _
  · exact parseA_reserved h _
  · exact parseB_reserved h _
  · exact parseC_reserved h _
  · exact parseE_reserved h _
  · exact parseF_reserved h _
  · rfl

end

/-- No opcode of the map is read as an unassigned one: each row gives instructions of its own. -/
theorem parse_ne_unassigned (r : Raw) : parse r ≠ some .unassignedOpcode := by
  unfold parse
  dsimp only
  split
  · unfold parse0; split <;> simp
  · unfold parse1; split <;> simp
  · unfold parse2; split <;> simp
  · unfold parse4; split <;> simp
  · unfold parse5; split <;> simp
  · unfold parse6; split <;> simp
  · unfold parse7; split <;> simp
  · unfold parse8; split <;> simp
  · unfold parse9; split <;> simp
  · unfold parseA; split <;> simp
  · unfold parseB; split <;> simp
  · unfold parseC; split <;> simp
  · unfold parseE; split <;> simp
  · unfold parseF; split <;> simp
  · simp

/-! ## The opcode map and the forms -/

/-- The opcodes that Table 8 leaves unassigned (R72). -/
def unassignedOpcs : List Nat := [0x00, 0x2F] ++ List.range' 0x0B 5 ++ List.range' 0x30 16 ++ List.range' 0x76 10 ++ List.range' 0x8A 6 ++
  List.range' 0x96 10 ++ List.range' 0xAB 5 ++ List.range' 0xB8 8 ++ List.range' 0xD0 16 ++ List.range' 0xEB 5 ++ List.range' 0xF8 8

theorem mem_unassignedOpcs (n : Nat) : n ∈ unassignedOpcs ↔ n = 0 ∨ n = 0x2F ∨ 0x0B ≤ n ∧ n < 0x10 ∨ 0x30 ≤ n ∧ n < 0x40 ∨
    0x76 ≤ n ∧ n < 0x80 ∨ 0x8A ≤ n ∧ n < 0x90 ∨ 0x96 ≤ n ∧ n < 0xA0 ∨ 0xAB ≤ n ∧ n < 0xB0 ∨ 0xB8 ≤ n ∧ n < 0xC0 ∨ 0xD0 ≤ n ∧ n < 0xE0 ∨
    0xEB ≤ n ∧ n < 0xF0 ∨ 0xF8 ≤ n ∧ n < 0x100 := by
  simp only [unassignedOpcs, List.mem_append, List.mem_cons, List.not_mem_nil, or_false, List.mem_range'_1, or_assoc, Nat.reduceAdd]

theorem assigned_eq_false_iff (o : BitVec 8) : assigned o = false ↔ o.toNat ∈ unassignedOpcs := by
  have ho := o.isLt
  rw [mem_unassignedOpcs]
  unfold assigned
  dsimp only
  split
  case h_1 =>
    rw [Bool.and_eq_false_iff, decide_eq_false_iff_not, decide_eq_false_iff_not]
    constructor <;> intro h <;> omega
  case h_15 =>
    simp only [imp_false] at *
    refine iff_of_true trivial ?_
    omega
  all_goals
    simp only [decide_eq_false_iff_not, Bool.true_eq_false, false_iff]
    omega

/-- The opcodes with a form of their own: BRA, BRD, CALL, LOOP and SPAWN (R53). -/
def wideOpcs : List Nat := [0x03, 0x04, 0x06, 0x08, 0xF3]

theorem formOf_eq_iff (o : BitVec 8) (f : BitVec 2) : f = formOf o ↔
    (o.toNat = 0x02 ∧ f = 0b10) ∨ (o.toNat ∈ wideOpcs ∧ f = 0b01) ∨ (o.toNat ≠ 0x02 ∧ o.toNat ∉ wideOpcs ∧ f = 0b00) := by
  have h2 : o = 0x02 ↔ o.toNat = 0x02 := BitVec.toNat_inj.symm
  have hw : (o = 0x03 ∨ o = 0x04 ∨ o = 0x06 ∨ o = 0x08 ∨ o = 0xF3) ↔ o.toNat ∈ wideOpcs := by
    simp only [wideOpcs, List.mem_cons, List.not_mem_nil, or_false, ← BitVec.toNat_inj]
    rfl
  have hne : o.toNat ∈ wideOpcs → o.toNat ≠ 0x02 := by
    intro h e; rw [e] at h; exact absurd h (by decide)
  unfold formOf
  simp only [h2, hw]
  by_cases c2 : o.toNat = 0x02
  · have cw : o.toNat ∉ wideOpcs := fun h => hne h c2
    rw [if_pos c2]
    simp only [false_and, c2, ne_eq, not_true_eq_false, true_and, or_false]
    exact (or_iff_left fun h => cw (c2 ▸ h.1)).symm
  · by_cases cw : o.toNat ∈ wideOpcs <;> simp [c2, cw]

/-! ## Words that do not decode -/

section
variable (w : IWord)

theorem decode_unassigned (h : assigned (Raw.ofWord w).opc = false) : decode w = .ok .unassignedOpcode := by
  simp [decode, h]

variable {w} (ha : assigned (Raw.ofWord w).opc = true)
include ha

theorem decode_form (hf : (Raw.ofWord w).form ≠ formOf (Raw.ofWord w).opc) : decode w = .illEnc .form := by
  simp [decode, ha, hf]

theorem decode_formed (hf : (Raw.ofWord w).form = formOf (Raw.ofWord w).opc) : decode w ≠ .illEnc .form := by
  intro hd
  simp only [decode, ha, hf, Bool.not_true, Bool.false_eq_true, if_false, bne_self_eq_false] at hd
  split at hd
  · cases hd
  · split at hd
    · cases hd
    · split at hd <;> cases hd

theorem decode_reservedBits (hr : (Raw.ofWord w).rsv ≠ 0) : ∃ e, decode w = .illEnc e := by
  by_cases hf : (Raw.ofWord w).form = formOf (Raw.ofWord w).opc
  · exact ⟨.reservedBits, by simp [decode, ha, hf]; exact fun h => absurd h hr⟩
  · exact ⟨.form, decode_form ha hf⟩

theorem decode_reservedFlag (hs : 13 ≤ (Raw.ofWord w).setf.toNat) : ∃ e, decode w = .illEnc e := by
  by_cases hr : (Raw.ofWord w).rsv = 0
  · by_cases hf : (Raw.ofWord w).form = formOf (Raw.ofWord w).opc
    · exact ⟨.field, by simp [decode, ha, hf, hr, parse_reserved (setfOf_reserved hs)]⟩
    · exact ⟨.form, decode_form ha hf⟩
  · exact decode_reservedBits ha hr

theorem decode_ne_unassigned : decode w ≠ .ok .unassignedOpcode := by
  intro hd
  simp only [decode, ha, Bool.not_true, Bool.false_eq_true, if_false] at hd
  split at hd
  · cases hd
  · split at hd
    · cases hd
    · split at hd
      · cases hd
      · rename_i i hp
        split at hd
        · exact parse_ne_unassigned _ (Decoded.ok.inj hd ▸ hp)
        · cases hd

end

namespace Machine

/-! ## What an instruction refuses at its issue -/

/-- A stop by an illegal instruction (R52, R72). -/
theorem illegal_eq {s : State} {I : Iss} (hI : s.issuer ⟨0, none, 0, .p false 7⟩ = some I) (k : Cause) :
    illegal s k = .next (I.s.clearIssue.takeStop I.c I.g { cause := k, scalar := true, pc := I.S.pc }) := by
  rw [illegal, hI]; rfl

/-- An issued instruction whose checks or body stop it. -/
theorem issue_stops {i : Instr} {s : State} {h : Hdr} {u : Use} {I : Iss} {body : Iss → Res} {r : Report} (hI : s.issuer h = some I)
    (hi : exec i s = issue h u s body) (ho : I.outcome u body = .stop r) : Stops i s I r := by
  rw [Stops, hi, issue, hI]
  exact congrArg (fun x => Host.Outcome.next (I.finish x)) ho

section
variable {I : Iss} {u : Use} {body : Iss → Res}

theorem Iss.outcome_beyond (hb : u.inBudget I.G.budget = false) : I.outcome u body = .stop (I.scalar .illEnc) := by
  simp [Iss.outcome, Iss.pre, hb]

variable (hb : u.inBudget I.G.budget = true)
include hb

theorem Iss.outcome_stale (hl : u.lReady I.S.lvalid = false) : I.outcome u body = .stop (I.scalar .illRun) := by
  simp [Iss.outcome, Iss.pre, hb, hl]

variable (hl : u.lReady I.S.lvalid = true)
include hl

/-- A marked guard stops an instruction that would take effect in the other lanes (R110). -/
theorem Iss.outcome_marked {k : Lanes} {s : State} {e : Eff} (hk : I.guardMarks = k) (hk0 : k ≠ 0)
    (hd : body { I with off := k } = .done s e) (he : e.serviced = none) : I.outcome u body = .stop (I.lanes .kConsume k) := by
  simp only [Iss.outcome, Iss.pre, hb, hl, Bool.not_true, Bool.false_eq_true, if_false, hk, Iss.markedGuard, if_neg hk0, hd, he]
  rw [Res.orUeIf]
  split <;> rfl

/-- An uncorrectable register that an instruction reads is consumed, where nothing else stops the instruction (R355). -/
theorem Iss.outcome_uncorrectable {s : State} {e : Eff} (hk : I.guardMarks = 0) (hu : I.meetsUe u = true) (hd : body I = .done s e)
    (he : e.serviced = none) : I.outcome u body = .ue .ueData := by
  simp [Iss.outcome, Iss.pre, hb, hl, hk, Iss.markedGuard, hd, hu, Res.orUeIf, Res.orUe, he]

end

/-! ## VADD -/

/-- What VADD reads and writes. -/
def vaUse (x : VA) : Use := { reads := [x.a, x.b], dsts := [x.d] }

theorem vaUse_inBudget (x : VA) (b : Nat) : (vaUse x).inBudget b = true ↔ ∀ n, Opnd.v n ∈ [x.a, x.b, x.d] → n.val < b := by
  simp only [vaUse, Use.inBudget, List.append_nil, List.cons_append, List.nil_append, List.all_nil, Bool.and_true, List.all_eq_true]
  constructor
  · intro h n hn
    simpa using h _ hn
  · intro h o ho
    split
    · simpa using h _ ho
    · rfl

theorem vaUse_lReady (x : VA) (m : BitVec 4) : (vaUse x).lReady m = true ↔ ∀ n, Opnd.l n ∈ [x.a, x.b] → m.getLsbD n.val = true := by
  simp only [vaUse, Use.lReady, List.append_nil, List.all_eq_true]
  constructor
  · intro h n hn
    simpa using h _ hn
  · intro h o ho
    split
    · simpa using h _ ho
    · rfl

/-- An uncorrectable v register that VADD reads in an active lane is met. -/
theorem vaUse_meetsUe {x : VA} {I : Iss} {n : Fin 256} {l : Nat} (hn : Opnd.v n ∈ [x.a, x.b]) (hu : (VecName.v n.val, l) ∈ I.G.ueRegs)
    (hl : I.active.getLsbD l = true) : I.meetsUe (vaUse x) = true := by
  have ha : (I.active != 0) = true := by
    rw [bne_iff_ne]
    intro h
    rw [h] at hl
    simp at hl
  have hv : (vaUse x).vecs.contains (VecName.v n.val) = true := by
    simp only [vaUse, Use.vecs, List.flatMap_nil, List.append_nil, List.contains_iff_mem, List.mem_filterMap]
    exact ⟨_, hn, rfl⟩
  have hany : I.G.ueRegs.any (fun y => (vaUse x).vecs.contains y.1 && I.active.getLsbD y.2) = true :=
    List.any_eq_true.mpr ⟨_, hu, by rw [hv, hl]; rfl⟩
  have hne : I.G.ueRegs.isEmpty = false := by
    cases h : I.G.ueRegs with
    | nil => simp [h] at hu
    | cons => rfl
  have hall : (vaUse x).all = false := rfl
  simp only [Iss.meetsUe, hne, Bool.false_and, Bool.false_eq_true, if_false, hall, ha, hany, Bool.true_or, Bool.and_true, Bool.or_true]

/-- VADD's body takes effect and has no cause of its own. -/
theorem vadd_body (x : VA) : ∃ body, (∀ s, exec (.vadd x) s = issue x.h (vaUse x) s body) ∧
    ∀ I, ∃ e, body I = .done I.s e ∧ e.serviced = none :=
  ⟨_, fun _ => rfl, fun _ => ⟨_, rfl, rfl⟩⟩

/-! ## The obligation -/

/-- Settles O59: the opcode map and the forms against the decoder, a word that does not decode at the issue slot, and VADD's checks in
their order. -/
theorem illegalWordsFault : Obligations.IllegalWordsFault := by
  have hmap (w : IWord) : (w.extractLsb' 0 8).toNat ∈ unassignedOpcs ↔ assigned (Raw.ofWord w).opc = false :=
    (assigned_eq_false_iff _).symm
  refine ⟨fun w => ⟨fun hu => decode_unassigned w ((hmap w).mp hu), fun hu => ?_⟩, ?_, ?_, ?_⟩
  · have ha : assigned (Raw.ofWord w).opc = true := by
      simpa using mt (hmap w).mpr hu
    refine ⟨decode_ne_unassigned ha, fun hf => decode_form ha (mt (formOf_eq_iff _ _).mp hf),
      fun hf => decode_formed ha ((formOf_eq_iff _ _).mpr hf), decode_reservedBits ha, decode_reservedFlag ha⟩
  · intro s t i G S w I hi hg hS hf hI
    refine ⟨fun hu => ?_, fun e hd => ?_⟩
    · rw [step_decoded hi hg hS hf (decode_unassigned w ((hmap w).mp hu))]
      exact congrArg (settle · t.clearIssue) (illegal_eq hI .illOp)
    · rw [step_illegal hi hg hS hf hd, illegal_eq hI .illEnc]
      rfl
  · intro s I hI
    exact illegal_eq hI .illOp
  · intro x s I hI
    obtain ⟨body, hx, hbody⟩ := vadd_body x
    refine ⟨fun ⟨n, hn, hge⟩ => ?_, fun hb => ⟨fun ⟨n, hn, hst⟩ => ?_, fun hl => ⟨fun neg j hgrd hk hpol => ?_,
      fun n l ⟨neg, j, hgrd⟩ hn hu hact => ?_⟩⟩⟩
    · refine issue_stops hI (hx s) (Iss.outcome_beyond (Bool.eq_false_iff.mpr fun h => ?_))
      exact absurd ((vaUse_inBudget x _).mp h n hn) (by omega)
    · refine issue_stops hI (hx s) (Iss.outcome_stale ((vaUse_inBudget x _).mpr hb) (Bool.eq_false_iff.mpr fun h => ?_))
      exact absurd ((vaUse_lReady x _).mp h n hn) (hst ▸ Bool.false_ne_true)
    all_goals
      have hh : I.h = x.h := (State.issuer_spec hI).2.2.2.2.2.2.2
    · obtain ⟨e, hd, he⟩ := hbody { I with off := (I.G.regs.pred j).k &&& I.S.m }
      exact issue_stops hI (hx s) (Iss.outcome_marked ((vaUse_inBudget x _).mpr hb) ((vaUse_lReady x _).mpr hl)
        (by simp [Iss.guardMarks, hh, hgrd, hpol]) hk hd he)
    · obtain ⟨e, hd, he⟩ := hbody I
      have ho := Iss.outcome_uncorrectable (body := body) ((vaUse_inBudget x _).mpr hb) ((vaUse_lReady x _).mpr hl)
        (by simp [Iss.guardMarks, hh, hgrd]) (vaUse_meetsUe hn hu hact) hd he
      rw [hx s, issue, hI]
      exact congrArg (fun y => Host.Outcome.next (I.finish y)) ho

end Machine

end Sys2Proof
end

section
/-! SUPPORT. A load landing that opens a lane an EXIT has retired (R165), and the refutation of O40. -/

namespace Sys2Proof.Machine

open Sys2Proof

/-! ## A load with two lanes and the arguments of a scalar load

The one access of a scalar load uses lane 0, which may have exited before the load issued: its operation then carries `args` [1], and
the landing keeps its lane open though no split has it. The statement speaks of every operation, and leaves such a lane out whatever
`args` says. An operation with `args` [1] and two accesses, one of a retired lane and one of a lane still alive, tells the two apart. -/

/-- A split without lane 0, which an EXIT has retired. -/
def splitPastExit : Split := { Split.start 0 0 with m := ~~~1, o := ~~~1 }

/-- A group of that split alone. -/
def groupPastExit : Group :=
  { Group.start 0 0 0 16 0 (Vector.replicate 64 0) 0 0 with splits := #v[some splitPastExit, none, none, none] }

/-- An access of a limited load whose limit has passed without an answer. -/
def unanswered (lane : Nat) : Acc := { accOf lane 0 0 4 false with lim := some 0 }

/-- A load of v9 in the lanes 0 and 1, its operation remembering that lane 0 had exited before it. -/
def loadPastExit : Op :=
  { id := 90, slot := 0, split := 0, pc := 0,
    ins := .ld ⟨⟨0, none, 0, .p false 7⟩, .v 9, .s 0, .imm 0, .w, false, .grp, false, false, .last, 0, 1, 0⟩,
    t := 0, active := 3, args := [1], vargs := [], accs := [unanswered 0, unanswered 1], stage := .check, setf := none, due := 0,
    limit := none, last := 0, firstRead := none, cause := none, data := [], acq := false }

/-- The module with that group on core 0 and its load in flight. -/
def statePastExit : State := (State.reset.setGroup 0 0 (some groupPastExit)).addOp 0 loadPastExit

/-- The lanes that each entry of the group holds open after a step. -/
def openedLanes : Host.Outcome State Fault Refusal → Option (List (List Nat))
  | .next t => (t.group? 0 0).map fun H => H.guesses.map fun e => e.lanes.map fun l => l.lane
  | _ => none

theorem openedLanes_statePastExit : openedLanes (exec (.loadLanding 0 90) statePastExit) = some [[0, 1]] := by decide +kernel

/-- What the statement asks of the load: its operation is in flight, and every lane has its answer. -/
theorem loadPastExit_ready : statePastExit.op? 0 90 = some loadPastExit ∧ loadPastExit.stage = .check ∧
    (∃ a ∈ loadPastExit.accs, a.lim.isSome = true) ∧
    ∀ a ∈ loadPastExit.accs, (∃ n, a.arr = some n ∧ n ≤ statePastExit.now 0) ∨ ∃ n, a.lim = some n ∧ n ≤ statePastExit.now 0 := by
  refine ⟨by decide +kernel, rfl, ⟨_, .head _, rfl⟩, fun a ha => .inr ⟨0, ?_, Nat.zero_le _⟩⟩
  simp only [loadPastExit, List.mem_cons, List.not_mem_nil, or_false] at ha
  rcases ha with rfl | rfl <;> rfl

/-- Nothing has arrived for the group: it stands as it was when its load lands, and lane 0 is in no split of it. -/
theorem deliver_statePastExit : (statePastExit.deliver 0 0).group? 0 0 = some groupPastExit := by decide +kernel

theorem aliveLanes_groupPastExit : groupPastExit.aliveLanes = ~~~1 := by decide +kernel

/-- Refutes O40: of a load with `args` [1] the landing opens every unanswered lane, retired or not; a load of two lanes, lane 0 retired and
lane 1 alive, gets an entry of the lanes 0 and 1, where the statement has lane 1 alone. No instruction that decodes issues a load of
several lanes with these `args`: the statement, made of every state, fails on one that lies outside what the instructions make. -/
theorem not_landingEvents : ¬ Obligations.LandingEvents := by
  intro h
  obtain ⟨hop, hready⟩ := loadPastExit_ready
  obtain ⟨-, -, hland⟩ := h.2.1 statePastExit 0 90 loadPastExit hop
  obtain ⟨t, ht, -, H, hH, -, hopen⟩ := hland _ groupPastExit hready rfl deliver_statePastExit rfl
  have hlate : (loadPastExit.accs.filter fun a => !(a.cause.isNone && a.arr.any fun n => a.lim.all fun l => n ≤ l) &&
      groupPastExit.aliveLanes.getLsbD a.lane) = [unanswered 1] := by
    rw [aliveLanes_groupPastExit]
    decide
  obtain ⟨e, he, -, -, -, hlanes⟩ := hopen (by rw [hlate]; exact List.cons_ne_nil _ _) (by decide)
  have hlanes1 : e.lanes.map (fun l => l.lane) = [1] := hlanes.trans (congrArg _ hlate)
  have hall : (H.guesses.map fun e => e.lanes.map fun l => l.lane) = [[0, 1]] := by
    have ho := openedLanes_statePastExit
    rw [ht] at ho
    have hG : (t.group? 0 0).map (fun H => H.guesses.map fun e => e.lanes.map fun l => l.lane) = some [[0, 1]] := ho
    have hH0 : t.group? 0 0 = some H := hH
    rw [hH0] at hG
    exact Option.some.inj hG
  have hmem := List.mem_map_of_mem (f := fun e : Guess => e.lanes.map fun l => l.lane) he
  rw [hall, hlanes1] at hmem
  exact absurd hmem (by decide)

end Sys2Proof.Machine
end

section
/-! SUPPORT. The codes of a format taken apart (R76, R77), rounding of the values they have (R81), and the settling of O12. -/

namespace Sys2Proof

namespace FpF

/-- What the proofs use of Table 1: E4M3 has four exponent bits and three mantissa bits. -/
def Proper (F : FpF) : Prop := F.e4m3 = true → F.eb = 4 ∧ F.mb = 3

theorem proper_of_mem {F : FpF} (h : F ∈ [f32, f16, bf16, e4, e5]) : F.Proper := by
  unfold Proper
  revert F
  decide

variable {F : FpF}

/-! ## Codes -/

/-- A code is its sign bit, its exponent field and its mantissa field. -/
theorem code_eq_fields {c : Nat} (hc : c < 2 ^ F.bits) :
    F.signBit (c / 2 ^ (F.eb + F.mb) % 2 = 1) + c / 2 ^ F.mb % 2 ^ F.eb * 2 ^ F.mb + c % 2 ^ F.mb = c := by
  have hs : c / 2 ^ (F.eb + F.mb) < 2 := by
    rw [Nat.div_lt_iff_lt_mul (Nat.two_pow_pos _), ← Nat.pow_succ', Nat.succ_eq_add_one]
    exact hc.trans_le (Nat.pow_le_pow_right two_pos (by simp only [bits]; omega))
  have hsign : F.signBit (c / 2 ^ (F.eb + F.mb) % 2 = 1) = c / 2 ^ (F.eb + F.mb) * 2 ^ (F.eb + F.mb) := by
    unfold signBit
    obtain h | h := Nat.le_one_iff_eq_zero_or_eq_one.mp (Nat.le_of_lt_succ hs) <;> simp [h]
  have hexp : c / 2 ^ F.mb / 2 ^ F.eb = c / 2 ^ (F.eb + F.mb) := by
    rw [Nat.div_div_eq_div_mul, ← Nat.pow_add, Nat.add_comm]
  calc _ = (c / 2 ^ F.mb / 2 ^ F.eb * 2 ^ F.eb + c / 2 ^ F.mb % 2 ^ F.eb) * 2 ^ F.mb + c % 2 ^ F.mb := by
        rw [hexp, hsign, Nat.add_mul, Nat.mul_assoc, ← Nat.pow_add]
    _ = c := by rw [Nat.div_add_mod', Nat.div_add_mod']

/-- The kinds of value a code has (R76, R77), and the code made again from each. -/
inductive Kind (F : FpF) (c : Nat) : FVal → Prop where
  | nan : Kind F c .nan
  | inf (n : Bool) : F.e4m3 = false → F.infCode n = c → Kind F c (.inf n)
  | subnormal (n : Bool) (m : Nat) : m < 2 ^ F.mb → F.signBit n + m = c → Kind F c (.fin n m (1 - (F.bias : Int) - F.mb))
  | normal (n : Bool) (e m : Nat) : m < 2 ^ F.mb → e ≠ 0 → e < 2 ^ F.eb → ¬(F.e4m3 = true ∧ e = 15 ∧ m = 7) →
      ¬(F.e4m3 = false ∧ e = 2 ^ F.eb - 1) → F.signBit n + e * 2 ^ F.mb + m = c →
      Kind F c (.fin n (2 ^ F.mb + m) ((e : Int) - F.bias - F.mb))

theorem kind_val {c : Nat} (hc : c < 2 ^ F.bits) : Kind F c (F.val c) := by
  have hfields := code_eq_fields hc
  have hm : c % 2 ^ F.mb < 2 ^ F.mb := Nat.mod_lt _ (Nat.two_pow_pos _)
  have he : c / 2 ^ F.mb % 2 ^ F.eb < 2 ^ F.eb := Nat.mod_lt _ (Nat.two_pow_pos _)
  unfold val
  dsimp only
  split
  · exact .nan
  · rename_i hnan
    split
    · rename_i hlast
      split
      · rename_i h0
        have hF : F.e4m3 = false := by simp_all
        have hlast' : c / 2 ^ F.mb % 2 ^ F.eb = 2 ^ F.eb - 1 := by simp_all
        refine .inf _ hF ?_
        rw [h0, hlast', Nat.add_zero] at hfields
        simpa [infCode, hF] using hfields
      · exact .nan
    · rename_i hlast
      split
      · rename_i h0
        exact .subnormal _ _ hm (by simpa [h0] using hfields)
      · rename_i h0
        exact .normal _ _ _ hm h0 he (by simpa [and_assoc] using hnan) (by simpa using hlast) hfields

/-! ## Rounding a magnitude that needs none -/

/-- Whether an exponent field and a mantissa field are beyond the largest finite value (Table 1). -/
def beyond (F : FpF) (ef m : Nat) : Bool := if F.e4m3 then ef > 15 || (ef == 15 && m == 7) else ef ≥ 2 ^ F.eb - 1

/-- A magnitude whose exponent is already the one that rounding would pick loses no bit: it is kept, or it overflows. -/
theorem roundFin_exact (rm : RMode) (sat neg : Bool) {m : Nat} {e : Int} (h0 : m ≠ 0) (hm : m ≠ 2 ^ (F.mb + 1))
    (hg : max (e + Nat.log2 m - F.mb) (1 - (F.bias : Int) - F.mb) = e) :
    F.roundFin rm sat neg m e false = if m < 2 ^ F.mb then F.signBit neg + m
      else if F.beyond (e + F.mb + F.bias).toNat (m - 2 ^ F.mb) then F.overflow rm sat neg
      else F.signBit neg + (e + F.mb + F.bias).toNat * 2 ^ F.mb + (m - 2 ^ F.mb) := by
  unfold roundFin
  rw [if_neg h0]
  dsimp only
  rw [hg, if_pos le_rfl, Int.sub_self, Int.toNat_zero, Nat.pow_zero, Nat.mul_one, if_neg hm]
  rfl

theorem roundFin_subnormal (rm : RMode) (sat neg : Bool) {m : Nat} (hm : m < 2 ^ F.mb) :
    F.roundFin rm sat neg m (1 - (F.bias : Int) - F.mb) false = F.signBit neg + m := by
  by_cases h0 : m = 0
  · simp [roundFin, h0]
  · have hlog : Nat.log2 m < F.mb := (Nat.log2_lt h0).mpr hm
    rw [roundFin_exact rm sat neg h0 (by rw [Nat.pow_succ]; omega) (by omega), if_pos hm]

theorem roundFin_normal (hF : F.Proper) (rm : RMode) (sat neg : Bool) {e m : Nat} (hm : m < 2 ^ F.mb) (h0 : e ≠ 0) (he : e < 2 ^ F.eb)
    (hnan : ¬(F.e4m3 = true ∧ e = 15 ∧ m = 7)) (hinf : ¬(F.e4m3 = false ∧ e = 2 ^ F.eb - 1)) :
    F.roundFin rm sat neg (2 ^ F.mb + m) ((e : Int) - F.bias - F.mb) false = F.signBit neg + e * 2 ^ F.mb + m := by
  have hpos := Nat.two_pow_pos F.mb
  have hlog : Nat.log2 (2 ^ F.mb + m) = F.mb := by
    rw [Nat.log2_eq_iff (by omega), Nat.pow_succ]; omega
  have hef : ((e : Int) - F.bias - F.mb + F.mb + F.bias).toNat = e := by omega
  have hfit : F.beyond e m = false := by
    unfold beyond
    cases h : F.e4m3
    · have : e ≠ 2 ^ F.eb - 1 := fun h' => hinf ⟨h, h'⟩
      simp; omega
    · rw [(hF h).1] at he
      simp_all; omega
  rw [roundFin_exact rm sat neg (by omega) (by rw [Nat.pow_succ]; omega) (by rw [hlog]; omega), if_neg (by omega), hef,
    Nat.add_sub_cancel_left, hfit]
  rfl

/-! ## Rounding the value of a code -/

theorem overflow_sat (rm : RMode) (neg : Bool) : F.overflow rm true neg = F.maxCode neg := rfl

theorem round_inf (h : F.e4m3 = false) (rm : RMode) (sat neg : Bool) :
    F.round rm sat (.inf neg) = if sat then F.maxCode neg else F.infCode neg := by
  cases sat <;> simp [round, h, overflow_sat]

theorem round_inf_e4 (rm : RMode) (sat neg : Bool) : e4.round rm sat (.inf neg) = e4.overflow rm sat neg := rfl

end FpF

/-- Settles O12: by the kinds of code, a finite value needing no rounding; and by Table 4's rows for an infinite value in E4M3. -/
theorem roundingKeepsRepresentableValues : Obligations.RoundingKeepsRepresentableValues := by
  refine ⟨fun F hF c rm sat hc => ?_, fun rm sat neg => ?_⟩
  · have hkind := F.kind_val hc
    generalize F.val c = v at hkind ⊢
    cases hkind with
    | nan => rfl
    | inf n he hcode => rw [← hcode]; exact FpF.round_inf he rm sat n
    | subnormal n m hm hcode => exact (FpF.roundFin_subnormal rm sat n hm).trans hcode
    | normal n e m hm h0 he hnan hinf hcode =>
      exact (FpF.roundFin_normal (FpF.proper_of_mem hF) rm sat n hm h0 he hnan hinf).trans hcode
  · rw [FpF.round_inf_e4]
    cases sat <;> cases rm <;> cases neg <;> rfl

end Sys2Proof
end

section
/-! SUPPORT. FP32 words by their codes, magnitudes compared with integers, the special functions at the operands of R99 and Table 10 of
chapter 4, and the settling of O14. -/

namespace Sys2Proof

/-! ## FP32 words -/

/-- The value of an FP32 word by its sign, its exponent field and its mantissa field. -/
theorem f32_eq (x : Word) : f32 x =
    let e : Nat := x.toNat / 2 ^ 23 % 256
    let m : Nat := x.toNat % 2 ^ 23
    if e = 255 then if m = 0 then .inf x.msb else .nan
    else if e = 0 then .fin x.msb m (-149) else .fin x.msb (2 ^ 23 + m) ((e : Int) - 150) := by
  have hsign : x.toNat / 2147483648 % 2 = 1 ↔ x.msb = true := by
    rw [BitVec.msb_eq_decide, decide_eq_true_eq]
    omega
  have hexp (e : Int) : e - 127 - 23 = e - 150 := by omega
  simp [f32, FpF.val, FpF.f32, hsign, hexp]

/-- The words above the code of an infinity are NaNs. -/
theorem f32_eq_nan {x : Word} (h : 0x7F800000 < x.toNat % 2 ^ 31) : f32 x = .nan := by
  have he : x.toNat / 2 ^ 23 % 256 = 255 := by omega
  have hm : x.toNat % 2 ^ 23 ≠ 0 := by omega
  rw [f32_eq]
  simp only [he, hm, if_true, if_false]

theorem f32_eq_inf {x : Word} (h : x.toNat % 2 ^ 31 = 0x7F800000) : f32 x = .inf x.msb := by
  have he : x.toNat / 2 ^ 23 % 256 = 255 := by omega
  have hm : x.toNat % 2 ^ 23 = 0 := by omega
  rw [f32_eq]
  simp only [he, hm, if_true]

/-- The words below it are finite, and not zero unless their code is. -/
theorem f32_eq_fin {x : Word} (h0 : 0 < x.toNat % 2 ^ 31) (h : x.toNat % 2 ^ 31 < 0x7F800000) :
    ∃ m e, f32 x = .fin x.msb m e ∧ m ≠ 0 := by
  have he : x.toNat / 2 ^ 23 % 256 ≠ 255 := by omega
  rw [f32_eq]
  simp only [he, if_false]
  split
  · exact ⟨_, _, rfl, by omega⟩
  · exact ⟨_, _, rfl, by omega⟩

/-! ## Magnitudes and integers -/

/-- A whole number is at most the magnitude `m × 2^e`, both counted in units of 2^min(e, 0). -/
def NatLeMag (k m : Nat) (e : Int) : Prop := k * 2 ^ (0 - min e 0).toNat ≤ m * 2 ^ (e - min e 0).toNat

/-- The finite words from the code of exponent `-p` and mantissa field `t` on have magnitudes of `(2^23 + t) / 2^p` and more. -/
theorem natLeMag_of_code_le {x : Word} {p t k : Nat} (hp : 0 < p) (hp' : p < 150) (ht : t < 2 ^ 23) (hk : k * 2 ^ p ≤ 2 ^ 23 + t)
    (hlo : (150 - p) * 2 ^ 23 + t ≤ x.toNat % 2 ^ 31) (hhi : x.toNat % 2 ^ 31 < 0x7F800000) :
    ∃ m e, f32 x = .fin x.msb m e ∧ m ≠ 0 ∧ NatLeMag k m e := by
  have hn : x.toNat / 2 ^ 23 % 256 ≠ 255 := by omega
  have h0 : x.toNat / 2 ^ 23 % 256 ≠ 0 := by omega
  rw [f32_eq]
  simp only [hn, h0, if_false]
  refine ⟨_, _, rfl, by omega, ?_⟩
  unfold NatLeMag
  obtain ⟨q, rfl⟩ : ∃ q, p = q + 1 := ⟨p - 1, by omega⟩
  generalize hE : x.toNat / 2 ^ 23 % 256 = E
  generalize hM : x.toNat % 2 ^ 23 = M
  have hcode : E = 149 - q ∧ t ≤ M ∨ 150 - q ≤ E := by omega
  rcases hcode with ⟨rfl, hle⟩ | hE'
  · have hmin : min (((149 - q : Nat) : Int) - 150) 0 = -((q + 1 : Nat) : Int) := by omega
    rw [hmin, show (((149 - q : Nat) : Int) - 150 - -((q + 1 : Nat) : Int)).toNat = 0 by omega,
      show (0 - -((q + 1 : Nat) : Int)).toNat = q + 1 by omega]
    omega
  · have hsmall : k * 2 ^ (0 - min ((E : Int) - 150) 0).toNat ≤ k * 2 ^ q :=
      Nat.mul_le_mul_left _ (Nat.pow_le_pow_right two_pos (by omega))
    have hhalf : k * 2 ^ q < 2 ^ 23 := by
      rw [Nat.pow_succ, ← Nat.mul_assoc] at hk; omega
    have hbig : 2 ^ 23 + M ≤ (2 ^ 23 + M) * 2 ^ ((E : Int) - 150 - min ((E : Int) - 150) 0).toNat :=
      Nat.le_mul_of_pos_right _ (Nat.two_pow_pos _)
    omega

namespace FVal

theorem lt_fin_fin (a b : Bool) (m n : Nat) (d e : Int) :
    (fin a m d).lt (fin b n e) = decide ((fin a m d).scaled (min d e) < (fin b n e).scaled (min d e)) := rfl

variable {k m : Nat} {e : Int}

theorem not_lt_ofInt (h : NatLeMag k m e) : (fin false m e).lt (ofInt k) = false := by
  have h' : (k : Int) * 2 ^ (0 - min e 0).toNat ≤ m * 2 ^ (e - min e 0).toNat := by exact_mod_cast h
  have hk : ¬(k : Int) < 0 := by omega
  rw [ofInt, lt_fin_fin]
  simpa [scaled, hk] using h'

theorem lt_ofInt_of_neg (hm : m ≠ 0) (k : Nat) : (fin true m e).lt (ofInt k) = true := by
  have hk : ¬(k : Int) < 0 := by omega
  have hpos : (0 : Int) < m * 2 ^ (e - min e 0).toNat := by positivity
  have hnn : (0 : Int) ≤ k * 2 ^ (0 - min e 0).toNat := by positivity
  rw [ofInt, lt_fin_fin]
  simp only [scaled, hk, decide_false, Int.natAbs_natCast, if_true, Bool.false_eq_true, if_false, decide_eq_true_eq]
  omega

theorem ofInt_neg_not_lt (h : NatLeMag k m e) (hk : 0 < k) : (ofInt (-k)).lt (fin true m e) = false := by
  have h' : (k : Int) * 2 ^ (0 - min 0 e).toNat ≤ m * 2 ^ (e - min 0 e).toNat := by rw [min_comm]; exact_mod_cast h
  have hk' : -(k : Int) < 0 := by omega
  rw [ofInt, lt_fin_fin]
  simp only [scaled, hk', decide_true, Int.natAbs_neg, Int.natAbs_natCast, if_true, decide_eq_false_iff_not]
  omega

end FVal

namespace Machine

/-! ## The special functions by their operand's kind -/

section
variable {f : SfuFn} {x : Word} {n : Bool} {m : Nat} {e : Int}

theorem sfu_of_nan (h : f32 x = .nan) : sfu f x = 0x7FC00000 := by
  unfold sfu; rw [h]; cases f <;> rfl

theorem sfu_of_fin (h : f32 x = .fin n m e) : sfu f x = sfu.sfuFin f x n m e := by
  unfold sfu; rw [h]

theorem sfu_exp2_of_inf (h : f32 x = .inf n) : sfu .exp2 x = if n then 0 else 0x7F800000 := by
  unfold sfu; rw [h]; rfl

theorem sfu_tanh_of_inf (h : f32 x = .inf n) : sfu .tanh x = if n then 0xBF800000 else 0x3F800000 := by
  unfold sfu; rw [h]

end

/-! ## Words of Table 10 -/

theorem frcp32_special : frcp32 0 = 0x7F800000 ∧ frcp32 0x80000000 = 0xFF800000 ∧ frcp32 0x7F800000 = 0 ∧
    frcp32 0xFF800000 = 0x80000000 := by decide +kernel

theorem frsq32_special : frsq32 0 = 0x7F800000 ∧ frsq32 0x80000000 = 0xFF800000 ∧ frsq32 0x7F800000 = 0 ∧
    frsq32 0xFF800000 = 0x7FC00000 := by decide +kernel

theorem fsqrt32_special : fsqrt32 0 = 0 ∧ fsqrt32 0x80000000 = 0x80000000 ∧ fsqrt32 0x7F800000 = 0x7F800000 ∧
    fsqrt32 0xFF800000 = 0x7FC00000 := by decide +kernel

theorem sfu_exp2_log2_special : sfu .exp2 0 = 0x3F800000 ∧ sfu .exp2 0x80000000 = 0x3F800000 ∧ sfu .log2 0 = 0xFF800000 ∧
    sfu .log2 0x80000000 = 0xFF800000 ∧ sfu .log2 0xFF800000 = 0x7FC00000 := by decide +kernel

theorem sfu_sin_tanh_zero : ∀ f ∈ [SfuFn.sin, SfuFn.tanh], sfu f 0 = 0 ∧ sfu f 0x80000000 = 0x80000000 := by decide +kernel

theorem sfu_cos_zero : sfu .cos 0 = 0x3F800000 ∧ sfu .cos 0x80000000 = 0x3F800000 := by decide +kernel

theorem sfu_sin_cos_inf : ∀ f ∈ [SfuFn.sin, SfuFn.cos], sfu f 0x7F800000 = 0x7FC00000 ∧ sfu f 0xFF800000 = 0x7FC00000 := by
  decide +kernel

theorem sfu_log2_inf : sfu .log2 0x7F800000 = 0x7F800000 := by decide +kernel

/-! ## Ranges of Table 10 -/

theorem special_nan {x : Word} (h : 0x7F800000 < x.toNat % 2 ^ 31) :
    frcp32 x = 0x7FC00000 ∧ frsq32 x = 0x7FC00000 ∧ fsqrt32 x = 0x7FC00000 ∧ ∀ f, sfu f x = 0x7FC00000 := by
  have hx := f32_eq_nan h
  refine ⟨?_, ?_, ?_, fun f => sfu_of_nan hx⟩
  · unfold frcp32; rw [hx]; rfl
  · unfold frsq32; rw [hx]; rfl
  · unfold fsqrt32; rw [hx]; rfl

theorem special_negative {x : Word} (hs : x.msb = true) (h0 : 0 < x.toNat % 2 ^ 31) (h : x.toNat % 2 ^ 31 < 0x7F800000) :
    frsq32 x = 0x7FC00000 ∧ fsqrt32 x = 0x7FC00000 ∧ sfu .log2 x = 0x7FC00000 := by
  obtain ⟨m, e, hx, hm⟩ := f32_eq_fin h0 h
  rw [hs] at hx
  refine ⟨?_, ?_, ?_⟩
  · unfold frsq32; simp only [hx, if_neg hm, if_true]; rfl
  · unfold fsqrt32; simp only [hx, if_neg hm, if_true]; rfl
  · rw [sfu_of_fin hx]; simp only [sfu.sfuFin, if_neg hm, if_true]; rfl

theorem sfu_exp2_overflow {x : Word} (hs : x.msb = false) (hlo : 0x43000000 ≤ x.toNat % 2 ^ 31) (hhi : x.toNat % 2 ^ 31 ≤ 0x7F800000) :
    sfu .exp2 x = 0x7F800000 := by
  rcases hhi.lt_or_eq with hhi | hinf
  · obtain ⟨m, e, hx, -, hle⟩ := natLeMag_of_code_le (p := 16) (t := 0) (k := 128) (by decide) (by decide) (by decide) (by decide) hlo hhi
    have hlt := FVal.not_lt_ofInt hle
    rw [hs] at hx
    rw [sfu_of_fin hx, sfu.sfuFin]
    simp only [show FVal.lt (.fin false m e) (.ofInt 128) = false from hlt]
    rfl
  · rw [sfu_exp2_of_inf (f32_eq_inf hinf), hs]; rfl

theorem sfu_exp2_underflow {x : Word} (hs : x.msb = true) (hlo : 0x43160000 ≤ x.toNat % 2 ^ 31) (hhi : x.toNat % 2 ^ 31 ≤ 0x7F800000) :
    sfu .exp2 x = 0 := by
  rcases hhi.lt_or_eq with hhi | hinf
  · obtain ⟨m, e, hx, hm, hle⟩ :=
      natLeMag_of_code_le (p := 16) (t := 0x160000) (k := 150) (by decide) (by decide) (by decide) (by decide) hlo hhi
    rw [hs] at hx
    rw [sfu_of_fin hx, sfu.sfuFin]
    simp only [show FVal.lt (.fin true m e) (.ofInt 128) = true from FVal.lt_ofInt_of_neg hm 128,
      show FVal.lt (.ofInt (-150)) (.fin true m e) = false from FVal.ofInt_neg_not_lt hle (by decide)]
    rfl
  · rw [sfu_exp2_of_inf (f32_eq_inf hinf), hs]; rfl

theorem sfu_tanh_saturated {x : Word} (hlo : 0x41100000 ≤ x.toNat % 2 ^ 31) (hhi : x.toNat % 2 ^ 31 ≤ 0x7F800000) :
    sfu .tanh x = if x.msb then 0xBF800000 else 0x3F800000 := by
  rcases hhi.lt_or_eq with hhi | hinf
  · obtain ⟨m, e, hx, hm, hle⟩ :=
      natLeMag_of_code_le (p := 20) (t := 0x100000) (k := 9) (by decide) (by decide) (by decide) (by decide) hlo hhi
    rw [sfu_of_fin hx, sfu.sfuFin]
    simp only [show FVal.lt (.fin false m e) (.ofInt 9) = false from FVal.not_lt_ofInt hle, if_neg hm]
    rfl
  · exact sfu_tanh_of_inf (f32_eq_inf hinf)

/-! ## The instructions -/

/-- A special function writes its word in the active lanes and lands `lat` + P cycles after its issue. -/
theorem longResult_special {i : Instr} {x : UnA} {s : State} {I : Iss} {lat : Nat} {f : Word → Word}
    (hr : Ready s x.h { reads := [x.a], dsts := [x.d] } I) (hi : exec i s = special x lat f s) :
    LongResult i s I (lat + I.P) (Iss.wvec x.d I.active (VReg.of fun l => ⟨f ((I.fsrc .f32 x.a).at l).val, ((I.fsrc .f32 x.a).at l).k⟩)) :=
  longResult_of hr hi rfl

/-- Settles O14: the cycles by the rule of long results; Table 10 word by word, and its ranges by the operand's kind and magnitude. -/
theorem specialFunctionResults : Obligations.SpecialFunctionResults := by
  refine ⟨fun x s I hr => ⟨?_, ?_, ?_, ?_, ?_, ?_, ?_, ?_⟩, frcp32_special, frsq32_special, fsqrt32_special, sfu_exp2_log2_special,
    sfu_sin_tanh_zero, sfu_cos_zero.1, sfu_cos_zero.2, sfu_sin_cos_inf, sfu_log2_inf, fun x => ⟨special_nan, special_negative,
      sfu_exp2_overflow, sfu_exp2_underflow, sfu_tanh_saturated⟩⟩
  all_goals exact longResult_special hr rfl

end Machine
end Sys2Proof
end

section
/-! SUPPORT. Blocks of sixteen lanes, uncorrectable words in lanes of an instruction's own choosing, and the settling of O16. -/

namespace Sys2Proof.Machine

open Sys2Proof

/-! ## Lanes -/

theorem any_bitsOf {w : Nat} (m : BitVec w) (f : Nat → Bool) :
    (bitsOf m).any f = (List.range w).any fun l => m.getLsbD l && f l := by
  rw [bitsOf, List.any_filter]

theorem any_bitsOf_iff {w : Nat} {m : BitVec w} {f : Nat → Bool} :
    (bitsOf m).any f = true ↔ ∃ l, l < w ∧ m.getLsbD l = true ∧ f l = true := by
  simp [any_bitsOf]

/-- A vector register is determined by its 96 elements. -/
theorem VReg.of_congr {f g : Nat → Elem} (h : ∀ l < 96, f l = g l) : VReg.of f = VReg.of g :=
  congrArg Vector.ofFn (funext fun i => h i i.isLt)

/-! ## Uncorrectable words in lanes that an instruction chooses (R116, R355) -/

/-- Whether some active lane names, by `from_`, a lane in which an operand is uncorrectable. -/
theorem Iss.any_badLanes_iff {I : Iss} {o : Opnd} {from_ : Nat → List Nat} (hfrom : ∀ l < 96, ∀ j ∈ from_ l, j < 96) :
    ((bitsOf I.active).any fun l => (from_ l).any fun j => I.badLanes o (1#96 <<< j)) = true ↔
      Uncorrectable I o fun j => ∃ l, l < 96 ∧ I.active.getLsbD l = true ∧ j ∈ from_ l := by
  have hone {j : Nat} (hj : j < 96) : I.badLanes o (1#96 <<< j) = true ↔ ∃ r, dvec o = some r ∧ (r, j) ∈ I.G.ueRegs := by
    have hbit (n : Nat) : (1#96 <<< j).getLsbD n = decide (j = n) := by
      rw [← BitVec.twoPow_eq, BitVec.getLsbD_twoPow, decide_eq_true hj, Bool.true_and]
    unfold Iss.badLanes
    cases hd : dvec o <;> simp [hbit]
  rw [any_bitsOf_iff]
  constructor
  · rintro ⟨l, hl, hact, hbad⟩
    obtain ⟨j, hj, hbad⟩ := List.any_eq_true.mp hbad
    obtain ⟨r, hr, hmem⟩ := (hone (hfrom l hl j hj)).mp hbad
    exact ⟨r, j, hr, hmem, l, hl, hact, hj⟩
  · rintro ⟨r, j, hr, hmem, l, hl, hact, hj⟩
    exact ⟨l, hl, hact, List.any_eq_true.mpr ⟨j, hj, (hone (hfrom l hl j hj)).mpr ⟨r, hr, hmem⟩⟩⟩

/-- An instruction that reads an uncorrectable word is not executed. -/
theorem consumes_of {i : Instr} {s : State} {h : Hdr} {u : Use} {I : Iss} {body : Iss → Res} (hr : Ready s h u I)
    (hi : exec i s = issue h u s body) (hb : body I = .ue .ueData) : Consumes i s I := by
  rw [Consumes, hi, issue_ready hr, hb]; rfl

/-! ## N8 -/

theorem Iss.n8_eq (I : Iss) (f : Nat → Bool) :
    I.n8 f = if (List.range 96).any fun l => I.active.getLsbD l && f l then I.s.modGroup I.c I.g Group.setN8 else I.s := by
  rw [Iss.n8, any_bitsOf]

/-- Setting N8 leaves the splits of the group. -/
theorem Iss.group_n8 {I : Iss} (f : Nat → Bool) (hg : I.s.group? I.c I.g = some I.G) :
    ∃ G, (I.n8 f).group? I.c I.g = some G ∧ G.splits = I.G.splits := by
  unfold Iss.n8
  split
  · exact ⟨_, State.group_modGroup _ hg, rfl⟩
  · exact ⟨_, hg, rfl⟩

/-- A conversion whose reserved codes set N8. -/
theorem acts_n8 {i : Instr} {s : State} {h : Hdr} {u : Use} {I : Iss} {body : Iss → Res} {f : Nat → Bool} {ws : List RegWrite}
    {ch : Nat} {lset : BitVec 4} (hr : Ready s h u I) (hi : exec i s = issue h u s body)
    (hb : body I = .done (I.n8 f) { ws := ws, comp := .short 1, occ := I.P, unit := .vec, charge := ch, lset := lset }) :
    Acts i s I (I.n8 f) (I.Flies · (I.t + I.P + 1) ws) := by
  obtain ⟨G, hG, hsp⟩ := Iss.group_n8 f (Iss.group_at hr.issuer)
  have hP := Iss.passes_pos hr.issuer
  exact acts_flies hr hi hb hG hsp (.inr ⟨1, rfl, by simp only [Iss.last]; omega⟩) rfl rfl rfl

/-! ## Blocks -/

/-- A lane finds its own block in the list of the blocks. -/
theorem getD_blocks {α : Type} (f : Nat → α) (d : α) {l : Nat} (h : l < 96) : ((List.range 6).map f)[l / 16]?.getD d = f (l / 16) := by
  rw [List.getElem?_map, List.getElem?_range (by omega)]
  rfl

theorem readMant_reserved (w c : Nat) : (readMant w c).2 = (c == 2 ^ (w - 1)) := by
  unfold readMant
  split <;> simp_all

/-- The words of a block's image that hold an element lie in the block's lanes. -/
theorem lt_of_mem_mantLanes {w l j : Nat} (hw : w ≤ 32) (hl : l < 96) (hj : j ∈ mantLanes w l) : j < 96 := by
  have hbits : l % 16 * w ≤ 15 * w := Nat.mul_le_mul_right _ (by omega)
  simp only [mantLanes, List.mem_cons, List.not_mem_nil, or_false] at hj
  omega

theorem extractLsb'_byte (x : Word) : (x.extractLsb' 0 8).toNat = x.toNat % 256 := by
  simp [BitVec.extractLsb'_toNat]

/-- Settles O16: QBLK lane by lane, each finding its block; DQBLK by the lanes that hold its elements, then as a conversion that may set N8. -/
theorem blockFormatResults : Obligations.BlockFormatResults := by
  intro x s I
  refine ⟨fun hr => ?qblk, fun hr => ?dqblk⟩
  case qblk =>
    refine longResult_of (ch := 3) hr rfl (congrArg₂ (fun d b => I.vectorLong _ 3 (Iss.wvec x.d _ d ++ Iss.wvec x.b _ b))
      (VReg.of_congr fun l hl => ?_) (VReg.of_congr fun l hl => ?_))
    · simp only [getD_blocks _ _ hl]; rfl
    · simp only [getD_blocks _ _ hl]; rfl
  case dqblk =>
    have hbad := I.any_badLanes_iff (o := x.a) (from_ := mantLanes x.w.toNat) fun l hl j hj =>
      lt_of_mem_mantLanes (by have := x.w.isLt; omega) hl hj
    simp only [mantLanes, List.mem_cons, List.not_mem_nil, or_false] at hbad
    refine ⟨fun hu => consumes_of hr rfl (if_pos (hbad.mpr hu)), fun hu => ?_⟩
    have hacts : Acts (.dqblk x) s I _ _ := acts_n8 hr rfl (if_neg fun h => hu (hbad.mp h))
    simpa only [Iss.n8_eq, readMant_reserved, extractLsb'_byte] using hacts

end Sys2Proof.Machine
end

section
/-! SUPPORT. Masks bit by bit, PLOG's functions, what the active lanes of a predicate say (Tables 9 and 10 of chapter 5), and the settling
of O3. -/

namespace Sys2Proof.Machine

open Sys2Proof

/-! ## Masks bit by bit -/

/-- The bits set by a fold over the positions of `l`. -/
theorem getLsbD_foldl_mask {w : Nat} (f : Nat → Bool) (j : Nat) (l : List Nat) (m : BitVec w) :
    (l.foldl (fun m i => if f i then m ||| (1#w <<< i) else m) m).getLsbD j =
      (m.getLsbD j || (decide (j < w ∧ j ∈ l) && f j)) := by
  induction l generalizing m with
  | nil => simp
  | cons i l ih =>
    rw [List.foldl_cons, ih]
    have hone : (1#w <<< i).getLsbD j = decide (j < w ∧ j = i) := by
      rw [← BitVec.twoPow_eq, BitVec.getLsbD_twoPow]
      by_cases h : i = j
      · simp [h]
      · simp [h, Ne.symm h]
    by_cases hj : j = i
    · subst hj
      cases hf : f j
      · simp
      · simp [hone]
        tauto
    · cases hf : f i <;> simp [hone, hj]

theorem getLsbD_maskOf (w : Nat) (f : Nat → Bool) (j : Nat) : (maskOf w f).getLsbD j = (decide (j < w) && f j) := by
  rw [maskOf, getLsbD_foldl_mask]
  simp

/-- A mask is the one of the test that its bits pass. -/
theorem eq_maskOf {w : Nat} {m : BitVec w} {f : Nat → Bool} (h : ∀ i < w, m.getLsbD i = f i) : m = maskOf w f :=
  BitVec.eq_of_getLsbD_eq fun i hi => by rw [getLsbD_maskOf, h i hi, decide_eq_true hi, Bool.true_and]

theorem eq_zero_iff_getLsbD {w : Nat} {m : BitVec w} : m = 0 ↔ ∀ i < w, m.getLsbD i = false :=
  ⟨fun h i _ => by rw [h]; exact BitVec.getLsbD_zero, fun h => BitVec.eq_of_getLsbD_eq fun i hi => by rw [h i hi]; exact BitVec.getLsbD_zero.symm⟩

/-- Two masks meet in no lane, or in some. -/
theorem and_ne_zero_eq_any {w : Nat} (v m : BitVec w) :
    (v &&& m != 0) = (List.range w).any fun i => m.getLsbD i && v.getLsbD i := by
  rw [Bool.eq_iff_iff, bne_iff_ne, ne_eq, eq_zero_iff_getLsbD, List.any_eq_true]
  simp [Bool.and_comm, and_comm]

theorem not_and_eq_zero_eq_all {w : Nat} (v m : BitVec w) :
    (~~~v &&& m == 0) = (List.range w).all fun i => !m.getLsbD i || v.getLsbD i := by
  rw [Bool.eq_iff_iff, beq_iff_eq, eq_zero_iff_getLsbD, List.all_eq_true]
  refine forall_congr' fun i => ?_
  rw [List.mem_range]
  refine imp_congr_right fun hi => ?_
  rw [BitVec.getLsbD_and, BitVec.getLsbD_not, decide_eq_true hi, Bool.true_and]
  cases v.getLsbD i <;> cases m.getLsbD i <;> decide

theorem popc_and {w : Nat} (v m : BitVec w) :
    popc (v &&& m) = (List.range w).countP fun i => m.getLsbD i && v.getLsbD i :=
  List.countP_congr fun i _ => by rw [BitVec.getLsbD_and, Bool.and_comm]

/-! ## PLOG -/

theorem PFn.getLsbD_mask (f : PFn) (a b : Lanes) {i : Nat} (hi : i < 96) :
    (PFn.mask f a b).getLsbD i = plogSays f (a.getLsbD i) (b.getLsbD i) := by
  cases f
  case xnor =>
    rw [PFn.mask, BitVec.getLsbD_not, BitVec.getLsbD_xor, decide_eq_true hi, plogSays]
    cases a.getLsbD i <;> cases b.getLsbD i <;> rfl
  all_goals simp [PFn.mask, plogSays, hi]

theorem PFn.mask_eq (f : PFn) (a b : Lanes) : PFn.mask f a b = maskOf 96 fun i => plogSays f (a.getLsbD i) (b.getLsbD i) :=
  eq_maskOf fun _ hi => PFn.getLsbD_mask f a b hi

theorem PFn.bit_eq (f : PFn) (a b : Bool) : PFn.bit f a b = plogSays f a b := by
  rw [PFn.bit, PFn.getLsbD_mask f _ _ (by decide)]
  cases a <;> cases b <;> rfl

/-- PLOG's marks: those of a, and but for NOT those of b. -/
theorem plogMarks_eq (f : PFn) (a b : Lanes) :
    (if f = .not then a else a ||| b) = maskOf 96 fun i => a.getLsbD i || (f != .not && b.getLsbD i) := by
  refine eq_maskOf fun i _ => ?_
  by_cases hf : f = .not
  · simp [hf]
  · rw [if_neg hf, BitVec.getLsbD_or, bne_iff_ne.mpr hf, Bool.true_and]

/-! ## Effects of one scalar cycle -/

/-- An instruction of the scalar unit that writes at once what it computes. -/
theorem computes_scalar {i : Instr} {s : State} {h : Hdr} {u : Use} {I : Iss} {body : Iss → Res} {ws : List RegWrite} (hr : Ready s h u I)
    (hi : exec i s = issue h u s body) (hb : body I = I.ok { ws := ws, unit := .scalar }) : Computes i s I (I.t + 1) ws :=
  computes_of (e := { ws := ws, unit := .scalar }) hr hi hb (.inr ⟨0, rfl, rfl⟩) rfl rfl rfl

theorem plog_spec {x : PlogA} {s : State} {I : Iss} (hr : Ready s x.h { pr := if x.q then [] else [x.a, x.b] } I) :
    Computes (.plog x) s I (I.t + 1)
      (if x.q then I.guarded [.qbit x.d (plogSays x.fn (I.G.regs.qbit x.a) (I.G.regs.qbit x.b))]
      else [.pred x.d I.active
        (maskOf 96 fun i => plogSays x.fn ((I.G.regs.pred x.a).val.getLsbD i) ((I.G.regs.pred x.b).val.getLsbD i))
        (maskOf 96 fun i => (I.G.regs.pred x.a).k.getLsbD i || (x.fn != .not && (I.G.regs.pred x.b).k.getLsbD i))]) := by
  refine computes_scalar hr rfl ?_
  by_cases hq : x.q = true
  · simp only [if_pos hq, ← PFn.bit_eq]; rfl
  · simp only [if_neg hq, ← plogMarks_eq, ← PFn.mask_eq]; rfl

/-! ## PMOV -/

/-- PMOV to three s registers: the words of the active lanes, unless a marked one would set the split's mask. -/
theorem pmov_tos_spec {h : Hdr} {d : Fin 126} {a : Fin 8} {s : State} {I : Iss} (hr : Ready s h { pr := [a] } I) :
    let p := I.G.regs.pred a
    let e (j : Nat) : Elem := ⟨(p.val &&& I.active).extractLsb' (32 * j) 32, (p.k &&& I.active).extractLsb' (32 * j) 32 != 0⟩
    if I.uses 0 = false ∧ ∃ j, j < 3 ∧ 125 ≤ d.val + j ∧ (e j).k = true then Stops (.pmov ⟨h, .tos d a⟩) s I I.kAll
    else Computes (.pmov ⟨h, .tos d a⟩) s I (I.t + 1)
      (I.guarded [I.wsreg d (e 0), I.wsreg (d.val + 1) (e 1), I.wsreg (d.val + 2) (e 2)]) := by
  intro p e
  have hx : ((List.range 3).any (fun j => 125 ≤ d.val + j && (e j).k) && !I.uses 0) = true ↔
      I.uses 0 = false ∧ ∃ j, j < 3 ∧ 125 ≤ d.val + j ∧ (e j).k = true := by
    simp [and_comm]
  split
  · rename_i hm
    exact stops_of hr rfl (if_pos (hx.mpr hm))
  · rename_i hm
    exact computes_scalar hr rfl (if_neg (hx.not.mpr hm))

/-! ## PANY, PALL, PCNT -/

/-- R171: what stops PANY and PALL. -/
theorem Iss.predFault_iff (I : Iss) (a : Fin 8) : ((I.G.regs.pred a).k &&& I.active != 0 && !I.uses 0) = true ↔
    (∃ i, i < 96 ∧ I.active.getLsbD i = true ∧ (I.G.regs.pred a).k.getLsbD i = true) ∧ I.uses 0 = false := by
  rw [and_ne_zero_eq_any]
  simp only [Bool.and_eq_true, List.any_eq_true, List.mem_range, Bool.not_eq_true']

/-- A marked active lane stops PANY and PALL under FAULT. -/
theorem pany_pall_stop {x : PqA} {s : State} {I : Iss} (hr : Ready s x.h { pr := [x.a] } I)
    (hm : (∃ i, i < 96 ∧ I.active.getLsbD i = true ∧ (I.G.regs.pred x.a).k.getLsbD i = true) ∧ I.uses 0 = false) :
    let r : Report := { cause := .kConsume, cmask := (I.G.regs.pred x.a).k &&& I.active, pc := I.S.pc }
    Stops (.pany x) s I r ∧ Stops (.pall x) s I r := by
  intro r
  have hf : I.predFault x.a = some r := if_pos ((I.predFault_iff x.a).mpr hm)
  exact ⟨stops_of hr rfl (by simp only [hf]), stops_of hr rfl (by simp only [hf])⟩

theorem pany_pall_compute {x : PqA} {s : State} {I : Iss} (hr : Ready s x.h { pr := [x.a] } I)
    (hm : ¬ ((∃ i, i < 96 ∧ I.active.getLsbD i = true ∧ (I.G.regs.pred x.a).k.getLsbD i = true) ∧ I.uses 0 = false)) :
    let p := I.G.regs.pred x.a
    Computes (.pany x) s I (I.t + 1) (I.guarded [.qbit x.d ((List.range 96).any fun i => I.active.getLsbD i && p.val.getLsbD i)]) ∧
      Computes (.pall x) s I (I.t + 1) (I.guarded [.qbit x.d ((List.range 96).all fun i => !I.active.getLsbD i || p.val.getLsbD i)]) := by
  intro p
  have hf : I.predFault x.a = none := if_neg ((I.predFault_iff x.a).not.mpr hm)
  refine ⟨computes_scalar hr rfl ?_, computes_scalar hr rfl ?_⟩
  · simp only [hf, ← and_ne_zero_eq_any]; rfl
  · simp only [hf, ← not_and_eq_zero_eq_all]; rfl

/-- Settles O3: each instruction by the rule of effects that stay in the run, its masks compared bit by bit. -/
theorem predicateResults : Obligations.PredicateResults := by
  refine ⟨⟨fun x s I hr => plog_spec hr, fun h d a s I hr => computes_scalar hr rfl rfl, fun h d a s I hr => computes_scalar hr rfl rfl,
    ?fromv, fun h d a s I hr => computes_scalar hr rfl rfl, fun h d a s I hr => pmov_tos_spec hr⟩, ?pq, ?pcnt⟩
  case fromv =>
    intro h d a s I hr
    have hP := Iss.passes_pos hr.issuer
    exact computes_of (due := I.t + I.P) (e := { ws := [.pred d I.active _ _], occ := I.P, unit := .vec, charge := 2 * I.P }) hr rfl rfl
      (.inr ⟨0, rfl, by simp only [Iss.last]; omega⟩) rfl rfl rfl
  case pq =>
    intro x s I hr p on r
    rw [ite_prop_iff_and]
    exact ⟨pany_pall_stop hr, pany_pall_compute hr⟩
  case pcnt =>
    intro x s I hr
    refine scalarResult_of hr rfl ?_ Nat.one_pos
    rw [← popc_and, ← and_ne_zero_eq_any]; rfl

end Sys2Proof.Machine
end

section
/-! SUPPORT. The layout of reports and records (R337, R375), the cause that a report names (R336), what taking an exception changes (R112,
R144), and the settling of O60. -/

namespace Sys2Proof.Machine

open Sys2Proof

/-! ## Layouts -/

/-- A mask or a pointer is its three words. -/
theorem append_words (m : BitVec 96) : m.extractLsb' 64 32 ++ m.extractLsb' 32 32 ++ m.extractLsb' 0 32 = m := by
  rw [BitVec.extractLsb'_append_extractLsb'_eq_extractLsb' (by rfl), BitVec.extractLsb'_append_extractLsb'_eq_extractLsb' (by rfl)]
  exact BitVec.extractLsb'_eq_self

theorem lowestLane_eq {m : Lanes} {l : Nat} (hl : l < 96) (hs : m.getLsbD l = true) (hlow : ∀ j < l, m.getLsbD j = false) :
    lowestLane m = l := by
  have hf : (List.range 96).find? (fun i => m.getLsbD i) = some l :=
    List.find?_range_eq_some.mpr ⟨hs, List.mem_range.mpr hl, fun j hj => by rw [hlow j hj]; rfl⟩
  rw [lowestLane, bitsOf, List.head?_filter, hf, Option.getD_some]

theorem append_trapinfo {a b e : BitVec 8} {c : Bool} {d : BitVec 7} : let w := a ++ b ++ BitVec.ofBool c ++ d ++ e
    w.extractLsb' 24 8 = a ∧ w.extractLsb' 16 8 = b ∧ w.getLsbD 15 = c ∧ w.extractLsb' 8 7 = d ∧ w.extractLsb' 0 8 = e := by
  intro w
  have he {s n : Nat} (h : 8 ≤ s) : w.extractLsb' s n = (a ++ b ++ BitVec.ofBool c ++ d).extractLsb' (s - 8) n :=
    BitVec.extractLsb'_append_eq_of_le h
  have hd {s n : Nat} (h : 15 ≤ s) : w.extractLsb' s n = (a ++ b ++ BitVec.ofBool c).extractLsb' (s - 15) n := by
    rw [he (by omega), BitVec.extractLsb'_append_eq_of_le (by omega), Nat.sub_sub]
  have hc {s n : Nat} (h : 16 ≤ s) : w.extractLsb' s n = (a ++ b).extractLsb' (s - 16) n := by
    rw [hd (by omega), BitVec.extractLsb'_append_eq_of_le (by omega), Nat.sub_sub]
  refine ⟨(hc (by decide)).trans BitVec.extractLsb'_append_eq_left, (hc (by decide)).trans BitVec.extractLsb'_append_eq_right, ?_,
    (he (by decide)).trans BitVec.extractLsb'_append_eq_right, BitVec.extractLsb'_append_eq_right⟩
  rw [BitVec.getLsbD_append, BitVec.getLsbD_append, BitVec.getLsbD_append]
  simp

/-- The first word of TRAPINFO: DETAIL, ORIG, SCALAR, the lane, the cause (Table 13). -/
theorem Report.trapinfo_fields (r : Report) : let w := r.trapinfo[0]
    w.extractLsb' 24 8 = r.detail ∧ w.extractLsb' 16 8 = r.orig ∧ w.getLsbD 15 = r.scalar ∧
      w.extractLsb' 8 7 = BitVec.ofNat 7 (lowestLane r.cmask) ∧ w.extractLsb' 0 8 = r.cause.code := append_trapinfo

/-! ## The cause that is reported -/

theorem worst_cons_cons (p q : Nat × Cause) (cs : List (Nat × Cause)) :
    worst (p :: q :: cs) = if q.2.rank < p.2.rank then worst (q :: cs) else worst (p :: cs) := by
  by_cases h : q.2.rank < p.2.rank <;> simp [worst, h]

/-- R336: of several causes one of the lowest rank. -/
theorem worst_cons (p : Nat × Cause) (cs : List (Nat × Cause)) :
    ∃ q ∈ p :: cs, worst (p :: cs) = some q.2 ∧ ∀ x ∈ p :: cs, q.2.rank ≤ x.2.rank := by
  induction cs generalizing p with
  | nil => exact ⟨p, by simp, rfl, by simp⟩
  | cons q cs ih =>
    rw [worst_cons_cons]
    split
    · rename_i hlt
      obtain ⟨k, hk, hw, hle⟩ := ih q
      have hq := hle q List.mem_cons_self
      exact ⟨k, List.mem_cons_of_mem _ hk, hw, List.forall_mem_cons.mpr ⟨by omega, hle⟩⟩
    · rename_i hge
      obtain ⟨k, hk, hw, hle⟩ := ih p
      obtain ⟨hp, hcs⟩ := List.forall_mem_cons.mp hle
      refine ⟨k, (List.cons_subset_cons p (List.subset_cons_self q cs)) hk, hw, ?_⟩
      exact List.forall_mem_cons.mpr ⟨hp, List.forall_mem_cons.mpr ⟨by omega, hcs⟩⟩

/-- R337: the lanes of the cause reported in CMASK, those of the others in OMASK. -/
theorem Report.ofLanes_spec {cs : List (Nat × Cause)} (hcs : cs ≠ []) (pc : Word) (p : Ptr) :
    ∃ r, Report.ofLanes cs pc p = some r ∧ (∃ l, (l, r.cause) ∈ cs) ∧ (∀ q ∈ cs, r.cause.rank ≤ q.2.rank) ∧
      ∀ l < 96, (r.cmask.getLsbD l = true ↔ (l, r.cause) ∈ cs) ∧ (r.omask.getLsbD l = true ↔ ∃ k, k ≠ r.cause ∧ (l, k) ∈ cs) := by
  obtain ⟨x, xs, rfl⟩ := List.exists_cons_of_ne_nil hcs
  obtain ⟨⟨l, c⟩, hmem, hw, hle⟩ := worst_cons x xs
  refine ⟨_, congrArg (Option.map _) hw, ⟨l, hmem⟩, hle, fun l hl => ⟨?_, ?_⟩⟩
  · rw [getLsbD_maskOf, decide_eq_true hl, Bool.true_and, List.any_eq_true]
    constructor
    · rintro ⟨⟨m, d⟩, hm, h⟩
      obtain ⟨rfl, rfl⟩ : m = l ∧ d = c := by simpa using h
      exact hm
    · exact fun h => ⟨_, h, by simp⟩
  · rw [getLsbD_maskOf, decide_eq_true hl, Bool.true_and, List.any_eq_true]
    constructor
    · rintro ⟨⟨m, d⟩, hm, h⟩
      obtain ⟨rfl, hd⟩ : m = l ∧ d ≠ c := by simpa using h
      exact ⟨d, hd, hm⟩
    · rintro ⟨k, hk, hm⟩
      exact ⟨_, hm, by simpa using hk⟩

/-! ## Records -/

/-- The record that a fault adds to a context (R375, Table 2). -/
def State.frec (s : State) (ctx : Nat) (w0 pc : Word) (unit : BitVec 16) (slot : Nat) (id : Word) (ptr : Ptr) (kind : Nat) : FRec :=
  ⟨#v[w0, pc, unit ++ (0#2 ++ BitVec.ofNat 6 slot ++ 0#8), id, ptr.extractLsb' 0 32, ptr.extractLsb' 32 32, ptr.extractLsb' 64 32,
    BitVec.ofNat 3 kind ++ 0#13 ++ (s.ctx ctx).frseq]⟩

section
variable (s : State) (ctx : Nat) (w pc : Word) (unit : BitVec 16) (slot : Nat) (id : Word) (ptr : Ptr) (kind : Nat)

theorem State.record_eq : s.record ctx w pc unit slot id ptr kind = (s.modCtx ctx fun x =>
    { x with records := x.records ++ [s.frec ctx w pc unit slot id ptr kind], frseq := x.frseq + 1 }).postNow (.faultRecordWrite ctx) := rfl

@[simp] theorem State.record_cores : (s.record ctx w pc unit slot id ptr kind).cores = s.cores := rfl

@[simp] theorem State.record_mem : (s.record ctx w pc unit slot id ptr kind).mem = s.mem := rfl

theorem State.ctx_record (h : ctx < 16) : (s.record ctx w pc unit slot id ptr kind).ctx ctx =
    { s.ctx ctx with records := (s.ctx ctx).records ++ [s.frec ctx w pc unit slot id ptr kind], frseq := (s.ctx ctx).frseq + 1 } := by
  rw [State.record_eq, State.ctx_congr (State.postNow_ctxs ..), State.ctx_modCtx _ _ _ h]

theorem State.ctx_record_ne {y : Nat} (h : y ≠ ctx) : (s.record ctx w pc unit slot id ptr kind).ctx y = s.ctx y := by
  rw [State.record_eq, State.ctx_congr (State.postNow_ctxs ..), State.ctx_modCtx_ne _ _ _ _ h]

end

theorem append_slotWord {a : BitVec 16} {b : BitVec 2} {c : BitVec 6} {d : BitVec 8} : (a ++ (b ++ c ++ d)).extractLsb' 8 6 = c := by
  rw [BitVec.extractLsb'_append_eq_of_add_le (by decide), BitVec.extractLsb'_append_eq_of_le (by decide)]
  exact BitVec.extractLsb'_append_eq_right

theorem append_kindWord {a : BitVec 3} {b : BitVec 13} {c : BitVec 16} : (a ++ b ++ c).extractLsb' 29 3 = a := by
  rw [BitVec.extractLsb'_append_eq_of_le (by decide)]
  exact BitVec.extractLsb'_append_eq_left

/-- R375, Table 2: what a record of a report says. -/
theorem State.recorded_record (s : State) {ctx : Nat} (hctx : ctx < 16) (c g : Nat) (id : Word) (r : Report) {kind : Nat} (hk : kind < 8) :
    Recorded s (s.record ctx r.trapinfo[0] r.pc (s.coreNo ctx c) g id r.ptr kind) ctx c g id r kind := by
  let f := s.frec ctx r.trapinfo[0] r.pc (s.coreNo ctx c) g id r.ptr kind
  have hslot : f.w[2].extractLsb' 8 6 = BitVec.ofNat 6 g := append_slotWord
  have hkind : f.w[7].extractLsb' 29 3 = BitVec.ofNat 3 kind := append_kindWord
  refine ⟨f, by rw [State.ctx_record _ _ _ _ _ _ _ _ _ hctx], by rw [State.ctx_record _ _ _ _ _ _ _ _ _ hctx], rfl, rfl,
    BitVec.extractLsb'_append_eq_left, by rw [hslot, BitVec.toNat_ofNat], rfl, append_words _, ?_, BitVec.extractLsb'_append_eq_right, ?_⟩
  · rw [hkind, BitVec.toNat_ofNat, Nat.mod_eq_of_lt hk]
  · exact List.mem_append_right _ List.mem_cons_self

/-! ## Exceptions -/

section
variable {s : State} {c g : Nat} {G : Group} (hg : s.group? c g = some G) (hctx : G.ctx < 16) (r : Report)
include hg hctx

/-- R112: a stop stops the group, writes TRAPINFO and a record, and leaves the rest. -/
theorem State.takeStop_spec : let t := s.takeStop c g r
    t.group? c g = some { G with stopped := true, resuming := false, spec := { G.spec with trapinfo := r.trapinfo } } ∧
      Recorded s t G.ctx c g (s.crewIdWord G.ctx G.crew) r 0 ∧ t.mem = s.mem ∧ (∀ h, h ≠ g → t.group? c h = s.group? c h) ∧
      (∀ d, d ≠ c → t.core d = s.core d) ∧ ∀ y, y ≠ G.ctx → t.ctx y = s.ctx y := by
  intro t
  let f (K : Group) : Group := { K with stopped := true, resuming := false, spec := { K.spec with trapinfo := r.trapinfo } }
  have ht : t = (s.modGroup c g f).record G.ctx r.trapinfo[0] r.pc (s.coreNo G.ctx c) g (s.crewIdWord G.ctx G.crew) r.ptr 0 := by
    simp only [t, State.takeStop, hg]; rfl
  rw [ht]
  exact ⟨State.group_modGroup f hg, (s.modGroup c g f).recorded_record hctx c g _ r (by decide), rfl,
    fun h hne => State.group_modGroup_ne f (.inr hne),
    fun d hne => (State.core_congr (State.record_cores ..) d).trans (State.core_modCore_ne _ _ _ _ hne),
    fun y hne => State.ctx_record_ne _ _ _ _ _ _ _ _ _ hne⟩

/-- R144: a serviced fault stalls the core, writes TRAPINFO and a record, and leaves the rest. -/
theorem State.takeServiced_spec : let t := s.takeServiced c g r
    t.group? c g = some { G with spec := { G.spec with trapinfo := r.trapinfo } } ∧
      (t.core c).stalled = some ((s.core c).stalled.getD (s.now c)) ∧ g ∈ (t.core c).stallers ∧
      Recorded s t G.ctx c g (s.crewIdWord G.ctx G.crew) r 1 ∧ t.mem = s.mem ∧ (∀ h, h ≠ g → t.group? c h = s.group? c h) ∧
      (∀ d, d ≠ c → t.core d = s.core d) ∧ ∀ y, y ≠ G.ctx → t.ctx y = s.ctx y := by
  intro t
  have hc := (State.group_lt hg).1
  let f (K : Group) : Group := { K with spec := { K.spec with trapinfo := r.trapinfo } }
  let k (K : Core) : Core := { K with stalled := some (K.stalled.getD (s.now c)), stallers := g :: K.stallers.filter (· != g) }
  let u := (s.modGroup c g f).modCore c k
  have ht : t = u.record G.ctx r.trapinfo[0] r.pc (s.coreNo G.ctx c) g (s.crewIdWord G.ctx G.crew) r.ptr 1 := by
    simp only [t, State.takeServiced, hg]; rfl
  have hu : u.core c = k ((s.modGroup c g f).core c) := State.core_modCore _ _ _ hc
  have hst : ((s.modGroup c g f).core c).stalled = (s.core c).stalled := by
    rw [State.modGroup, State.setGroup, State.core_modCore _ _ _ hc]
  have hgr (h : Nat) : u.group? c h = (s.modGroup c g f).group? c h := State.group_modCore fun _ => rfl
  rw [ht]
  refine ⟨(hgr g).trans (State.group_modGroup f hg), ?_, ?_, u.recorded_record hctx c g _ r (by decide), rfl,
    fun h hne => (hgr h).trans (State.group_modGroup_ne f (.inr hne)), fun d hne => ?_, fun y hne => State.ctx_record_ne _ _ _ _ _ _ _ _ _ hne⟩
  · rw [State.core_congr (State.record_cores ..), hu, ← hst]
  · rw [State.core_congr (State.record_cores ..), hu]; exact List.mem_cons_self
  · rw [State.core_congr (State.record_cores ..)]
    exact (State.core_modCore_ne _ _ _ _ hne).trans (State.core_modCore_ne _ _ _ _ hne)

end

/-- Settles O60: the two ways of taking an exception, TRAPINFO field by field, and the lowest rank by induction over the causes. -/
theorem takingAnException : Obligations.TakingAnException := by
  refine ⟨fun s c g G r hg hctx => ⟨State.takeStop_spec hg hctx r, State.takeServiced_spec hg hctx r, State.group_modGroup _ hg⟩,
    fun r => ?layout, fun cs pc p hcs _ => Report.ofLanes_spec hcs pc p, by decide⟩
  case layout =>
    obtain ⟨hdetail, horig, hscalar, hlane, hcode⟩ := r.trapinfo_fields
    refine ⟨hdetail, horig, hscalar, hcode, fun l hl hs hlow => ?_, append_words _, append_words _, rfl⟩
    rw [hlane, lowestLane_eq hl hs hlow, BitVec.toNat_ofNat, Nat.mod_eq_of_lt (by omega)]

end Sys2Proof.Machine
end

section
/-! SUPPORT. What an effect leaves alone whatever becomes of its split, forks, deferrals and retired lanes (R104, R106, R107), and the
settling of O6 and O7. -/

namespace Sys2Proof.Machine

open Sys2Proof

/-! ## What an effect leaves alone, update by update -/

section
variable {I : Iss} {s t : State}

/-- The issue slot cleared and the group changed in what an issue may change. -/
theorem Iss.alone_modGroup {G : Group} {f : Group → Group} (hg : s.group? I.c I.g = some G) (hk : G.Kept I.h.setf (f G)) :
    I.Alone s (s.clearIssue.modGroup I.c I.g f) := by
  have hc := (State.group_lt hg).1
  refine ⟨rfl, ⟨[], by rw [List.append_nil]; rfl⟩, fun c hne => State.core_modCore_ne _ _ _ _ hne, ?_,
    fun g hne => State.group_modGroup_ne (s := s.clearIssue) f (.inr hne), G, f G, hg, State.group_modGroup (s := s.clearIssue) f hg, hk⟩
  rw [State.modGroup, State.setGroup, State.core_modCore _ _ _ hc]; rfl

/-- More to happen. -/
theorem Iss.Alone.agenda (ha : I.Alone s t) (l : List Due) : I.Alone s (t.modSch fun h => { h with agenda := h.agenda ++ l }) := by
  obtain ⟨l', hl⟩ := ha.sch
  refine ⟨congrArg (fun u : State => { u with sch := { t.sch with agenda := t.sch.agenda ++ l }, cores := t.cores }) ha.rest,
    ⟨l' ++ l, ?_⟩, ha.cores, ha.core, ha.groups, ha.group⟩
  rw [← List.append_assoc]
  exact congrArg (fun h : Sched => { h with agenda := h.agenda ++ l }) hl

/-- An issue paid for, and a unit held. -/
theorem Iss.Alone.pay (ha : I.Alone s t) (hc : I.c < 768) (n : Nat) (u : Core → Units) :
    I.Alone s (t.modCore I.c fun k => { k.pay n with units := u k }) := by
  have hgr (g : Nat) : (t.modCore I.c fun k => { k.pay n with units := u k }).group? I.c g = t.group? I.c g :=
    State.group_modCore fun _ => rfl
  obtain ⟨G, H, hG, hH, hk⟩ := ha.group
  refine ⟨congrArg (fun v : State => { v with sch := t.sch, cores := (t.modCore I.c fun k => { k.pay n with units := u k }).cores }) ha.rest,
    ha.sch, fun c hne => (State.core_modCore_ne _ _ _ _ hne).trans (ha.cores c hne), ?_, fun g hne => (hgr g).trans (ha.groups g hne),
    G, H, hG, (hgr I.g).trans hH, hk⟩
  rw [State.core_modCore _ _ _ hc]
  let p := (t.core I.c).pay n
  exact congrArg (fun k : Core => { k with units := u (t.core I.c), allow := p.allow, energy := p.energy }) ha.core

end

/-- What an effect does at once, whatever becomes of its split. -/
theorem Iss.limit_took {I : Iss} {s : State} {e : Eff} {G : Group} (hg : s.group? I.c I.g = some G) (hn : ∀ w, e.flow ≠ .trail w) :
    (I.limit (I.took s e)).sch.issue = none ∧ I.Alone s (I.limit (I.took s e)) ∧
      I.groupIn (I.limit (I.took s e)) = some (I.group e G) := by
  obtain ⟨l, hl⟩ := I.limit_spec (I.took s e)
  obtain ⟨l', hl'⟩ := I.agenda_spec e (s.clearIssue.modGroup I.c I.g (I.group e))
  have hk : G.Kept I.h.setf (I.group e G) := I.kept_group G fun ⟨w, h⟩ => absurd h (hn w)
  have ha : I.Alone s (I.limit (I.took s e)) := by
    rw [hl, Iss.took, hl']
    exact (((Iss.alone_modGroup hg hk).agenda l').pay (State.group_lt hg).1 ..).agenda l
  refine ⟨?_, ha, ?_⟩
  · obtain ⟨l, h⟩ := ha.sch
    rw [h]
  · rw [hl]; exact Iss.took_group hg

/-- The flag of an effect that its issue sets. -/
theorem Iss.flags_of_group {I : Iss} {t : State} {e : Eff} {G : Group} {cyc : Nat} (hG : I.groupIn t = some (I.group e G))
    (hc : e.comp = .flag cyc) (hn : ∀ w, e.flow ≠ .trail w) : I.Flags t (cyc + 1) :=
  fun f hf => ⟨_, hG, by rw [Iss.group_flag hc hn hf], by rw [Iss.group_flag hc hn hf]⟩

/-- An instruction whose flag its issue sets, whatever becomes of its split but retiring. -/
theorem next_flag {i : Instr} {s : State} {h : Hdr} {u : Use} {I : Iss} {body : Iss → Res} {f : Flow} {cyc : Nat} (hr : Ready s h u I)
    (hi : exec i s = issue h u s body) (hb : body I = I.ok { comp := .flag cyc, flow := f }) (hn : ∀ w, f ≠ .trail w)
    (hf : ∀ r, f ≠ .retire r) : ∃ t, exec i s = .next t ∧ t.sch.issue = none ∧ I.Alone s t ∧ I.Flags t (cyc + 1) ∧
      I.groupIn t = some (I.group { comp := .flag cyc, flow := f } I.G) := by
  obtain ⟨h1, h2, h3⟩ := Iss.limit_took (e := { comp := .flag cyc, flow := f }) (Iss.group_at hr.issuer) hn
  refine ⟨_, ?_, h1, Iss.alone_fresh hr.issuer h2, Iss.flags_of_group h3 rfl hn, h3⟩
  rw [hi, issue_ready hr, hb, ← Iss.commit_plain hf rfl rfl]; rfl

/-! ## BRD -/

/-- A displacement is 1 when it leads to the next instruction. -/
theorem Iss.target_eq_next_iff (I : Iss) (disp : BitVec 24) : I.target disp = I.S.pc + 1 ↔ disp = 1 := by
  rw [Iss.target, add_right_inj]
  refine ⟨fun h => BitVec.eq_of_toInt_eq ?_, fun h => by rw [h]; rfl⟩
  rw [← BitVec.toInt_signExtend_of_le (show 24 ≤ 32 by decide), h]; rfl

section
variable {I : Iss} {pc : Word} {T : Lanes}

theorem Iss.brdFlow_fall (h : T = 0 ∨ pc = I.S.pc + 1) : I.brdFlow pc T = .ok .next := if_pos (by simpa using h)

variable (h : ¬ (T = 0 ∨ pc = I.S.pc + 1))
include h

theorem Iss.brdFlow_all (hm : I.S.m &&& ~~~T = 0) : I.brdFlow pc T = .ok (.jump pc (I.t + 2)) :=
  (if_neg (by simpa using h)).trans (if_pos hm)

theorem Iss.brdFlow_some (hm : I.S.m &&& ~~~T ≠ 0) :
    I.brdFlow pc T = match ((List.finRange 4).filter fun i => (I.G.splits[i]).isNone).head? with
      | some e => .ok (.fork e pc T)
      | none => if I.G.deferred ≥ 16 then .error (I.scalar .illRun) else .ok (.defer pc T) := by
  rw [List.head?_filter]
  exact (if_neg (by simpa using h)).trans (if_neg hm)

end

/-- A group with an entry of its split table given to a new split. -/
def Group.addSplit (G : Group) (e : Fin 4) (N : Split) : Group := { G with splits := G.splits.set e (some N) }

theorem Group.addSplit_self (G : Group) (e : Fin 4) (N : Split) : (G.addSplit e N).splits[e] = some N := by
  simp [Group.addSplit]

theorem Group.addSplit_ne {G : Group} {e j : Fin 4} (N : Split) (h : j ≠ e) : (G.addSplit e N).splits[j] = G.splits[j] := by
  have hv : e.val ≠ j.val := fun he => h (Fin.ext he.symm)
  simp [Group.addSplit, hv]

theorem Group.flow_fork {G : Group} {sp : Fin 4} {S : Split} (h : G.splits[sp] = some S) (e : Fin 4) (pc : Word) (T : Lanes) (now P : Nat) :
    G.flow sp (.fork e pc T) now P = ((G.modSplit sp fun S => { S with m := S.m &&& ~~~T, o := S.o &&& ~~~T }).addSplit e
      { Split.start pc (now + 2) with m := T, o := T }).mergeAt e now P := by
  simp only [Group.flow, h]; rfl

/-- How many entries are deferred. -/
theorem Group.deferred_eq (G : Group) :
    G.deferred = (G.splits.toList.map fun (o : Option Split) => (o.map fun S => S.stack.length).getD 0).sum := by
  rw [Group.deferred, List.sum_eq_foldl]
  congr 2
  funext o
  cases o <;> rfl

section
variable {x : BrA} {s : State} {I : Iss} (hr : Ready s x.h {} I)
include hr

/-- What BRD does with its taken set. -/
theorem brd_next {f : Flow} (hf : I.brdFlow (I.target x.disp) I.active = .ok f) (hn : ∀ w, f ≠ .trail w) (hret : ∀ r, f ≠ .retire r) :
    ∃ t, exec (.brd x) s = .next t ∧ t.sch.issue = none ∧ I.Alone s t ∧ I.Flags t (I.t + 1) ∧
      I.groupIn t = some (I.group { comp := .flag I.t, flow := f } I.G) :=
  next_flag hr rfl (by simp only [hf]) hn hret

/-- The taken lanes go to a free entry. -/
theorem brd_fork {e : Fin 4} (hf : I.brdFlow (I.target x.disp) I.active = .ok (.fork e (I.target x.disp) I.active))
    (he : I.G.splits[e] = none) :
    ∃ (t : State) (G H : Group) (S N : Split), exec (.brd x) s = .next t ∧ t.sch.issue = none ∧ I.Alone s t ∧
      I.Flags t (I.t + 1) ∧ I.groupIn t = some G ∧ G.splits = (H.mergeAt e I.t I.P).splits ∧
      H.splits[I.sp] = some S ∧ S.pc = I.S.pc + 1 ∧ S.m = I.S.m &&& ~~~I.active ∧ S.o = I.S.o &&& ~~~I.active ∧ S.stack = I.S.stack ∧
      H.splits[e] = some N ∧ N.pc = I.target x.disp ∧ N.m = I.active ∧ N.o = I.active ∧ N.stack = [] ∧ N.inRun = false ∧ N.wait = 0 ∧
      N.notBefore = I.t + 2 ∧ N.readyFrom = I.t + 2 ∧ ∀ j : Fin 4, j ≠ I.sp → j ≠ e → H.splits[j] = I.G.splits[j] := by
  obtain ⟨-, -, hS, -⟩ := State.issuer_spec hr.issuer
  have hne : I.sp ≠ e := by rintro rfl; rw [he] at hS; cases hS
  obtain ⟨t, hx, hi, ha, hfl, hG⟩ := brd_next hr hf (fun _ => Flow.noConfusion) fun _ => Flow.noConfusion
  obtain ⟨hsp, ho⟩ := I.sent_moved_splits (e := { comp := .flag I.t, flow := .fork e (I.target x.disp) I.active }) hS
  rw [Iss.group_flow (fun _ => Flow.noConfusion), Group.flow_fork hsp] at hG
  exact ⟨t, _, _, _, _, hx, hi, ha, hfl, hG, rfl, (Group.addSplit_ne _ hne).trans (Group.modSplit_self _ hsp), rfl, rfl, rfl, rfl,
    Group.addSplit_self .., rfl, rfl, rfl, rfl, rfl, rfl, rfl, rfl,
    fun j hj hje => (Group.addSplit_ne _ hje).trans ((Group.modSplit_ne _ hj).trans (ho j hj))⟩

/-- The taken lanes go on, the rest deferred. -/
theorem brd_defer (hf : I.brdFlow (I.target x.disp) I.active = .ok (.defer (I.target x.disp) I.active)) :
    ∃ (t : State) (G H : Group) (S : Split), exec (.brd x) s = .next t ∧ t.sch.issue = none ∧ I.Alone s t ∧
      I.Flags t (I.t + 1) ∧ I.groupIn t = some G ∧ G.splits = (H.mergeAt I.sp I.t I.P).splits ∧
      H.splits[I.sp] = some S ∧ S.pc = I.target x.disp ∧ S.m = I.active ∧ S.o = I.active ∧ S.inRun = false ∧ S.wait = 0 ∧
      S.notBefore = I.t + 2 ∧ S.stack = ⟨I.S.pc + 1, I.S.m &&& ~~~I.active, I.S.o &&& ~~~I.active, I.t⟩ :: I.S.stack ∧
      ∀ j : Fin 4, j ≠ I.sp → H.splits[j] = I.G.splits[j] := by
  obtain ⟨-, -, hS, -⟩ := State.issuer_spec hr.issuer
  obtain ⟨t, hx, hi, ha, hfl, hG⟩ := brd_next hr hf (fun _ => Flow.noConfusion) fun _ => Flow.noConfusion
  obtain ⟨hsp, ho⟩ := I.sent_moved_splits (e := { comp := .flag I.t, flow := .defer (I.target x.disp) I.active }) hS
  rw [Iss.group_flow (fun _ => Flow.noConfusion)] at hG
  exact ⟨t, _, _, _, hx, hi, ha, hfl, hG, rfl, Group.modSplit_self _ (Group.modSplit_self _ hsp), rfl, rfl, rfl, rfl, rfl, rfl, rfl,
    fun j hj => (Group.modSplit_ne _ hj).trans ((Group.modSplit_ne _ hj).trans (ho j hj))⟩

end

/-- Settles O6: by what BRD does with its taken set, the entry a fork takes being the first that is free. -/
theorem divergentBranch : Obligations.DivergentBranch := by
  intro x s I hr T pc free
  have hfall : T = 0 ∨ x.disp = 1 ↔ T = 0 ∨ pc = I.S.pc + 1 := or_congr_right (I.target_eq_next_iff x.disp).symm
  by_cases h0 : T = 0 ∨ x.disp = 1
  · rw [if_pos h0]
    have hf : I.brdFlow (I.target x.disp) I.active = .ok .next := Iss.brdFlow_fall (hfall.mp h0)
    exact acts_flag_only hr rfl (by simp only [hf])
  rw [if_neg h0]
  have hgo := hfall.not.mp h0
  by_cases hm : I.S.m &&& ~~~T = 0
  · rw [if_pos hm]
    have hf : I.brdFlow (I.target x.disp) I.active = .ok (.jump pc (I.t + 2)) := Iss.brdFlow_all hgo hm
    exact jumps_fresh hr.issuer (jumps_flag (e := { comp := .flag I.t, flow := .jump pc (I.t + 2) }) hr rfl (by simp only [hf]; rfl)
      (Iss.group_at hr.issuer) rfl rfl rfl rfl rfl)
  rw [if_neg hm]
  have hf := Iss.brdFlow_some hgo hm
  match hfree : free with
  | e :: es =>
    have he : I.G.splits[e] = none := by
      have : e ∈ free := hfree ▸ List.mem_cons_self
      simpa [free] using this
    rw [show (List.finRange 4).filter _ = e :: es from hfree] at hf
    exact brd_fork hr hf he
  | [] =>
    rw [show (List.finRange 4).filter _ = [] from hfree] at hf
    dsimp only
    rw [← Group.deferred_eq]
    split
    · rename_i hd
      exact stops_of hr rfl (by simp only [show I.brdFlow (I.target x.disp) I.active = _ from hf.trans (if_pos hd)]; rfl)
    · rename_i hd
      exact brd_defer hr (hf.trans (if_neg hd))

/-! ## EXIT -/

section
variable {G : Group} {sp : Fin 4}

@[simp] theorem Group.mergeAt_guesses (G : Group) (sp : Fin 4) (now P : Nat) : (G.mergeAt sp now P).guesses = G.guesses := by
  unfold Group.mergeAt
  split
  · rfl
  · dsimp only; split <;> rfl

@[simp] theorem Group.mergeAt_ending (G : Group) (sp : Fin 4) (now P : Nat) : (G.mergeAt sp now P).ending = G.ending := by
  unfold Group.mergeAt
  split
  · rfl
  · dsimp only; split <;> rfl

@[simp] theorem Group.emptied_guesses (G : Group) (sp : Fin 4) : (G.emptied sp).guesses = G.guesses := by
  unfold Group.emptied
  split
  · rfl
  · split
    · rfl
    · split <;> rfl

/-- What is left of an entry of which lanes close was in it. -/
theorem Group.mem_closeLanes {ps : List (Nat × Nat)} {e : Guess} (h : e ∈ (G.closeLanes ps).guesses) :
    ∃ e' ∈ G.guesses, e'.id = e.id ∧ ∀ l ∈ e.lanes, l ∈ e'.lanes ∧ (e.id, l.lane) ∉ ps := by
  simp only [Group.closeLanes, List.mem_filter, List.mem_map] at h
  obtain ⟨⟨e', he', rfl⟩, -⟩ := h
  exact ⟨e', he', rfl, fun l hl => by simpa using hl⟩

/-- The open guess lanes of some lanes. -/
def Group.guessLanes (G : Group) (r : Lanes) : List (Nat × Nat) :=
  G.guesses.flatMap fun e => (e.lanes.filter fun l => r.getLsbD l.lane).map fun l => (e.id, l.lane)

/-- No guess lane of a retired lane stays open (R165). -/
theorem Group.closeLanes_guessLanes {r : Lanes} {e : Guess} (h : e ∈ (G.closeLanes (G.guessLanes r)).guesses) :
    ∀ l ∈ e.lanes, r.getLsbD l.lane = false := by
  obtain ⟨e', he', hid, hl⟩ := Group.mem_closeLanes h
  intro l hmem
  obtain ⟨hle, hnot⟩ := hl l hmem
  refine Bool.eq_false_iff.mpr fun hr => hnot ?_
  exact List.mem_flatMap.mpr ⟨e', he', List.mem_map.mpr ⟨l, List.mem_filter.mpr ⟨hle, hr⟩, by rw [hid]⟩⟩

/-! What an emptied split does (R107). -/

theorem Group.emptied_owning {S : Split} (h : G.splits[sp] = some S) (ho : S.o ≠ 0) : G.emptied sp = G := by
  simp only [Group.emptied, h]
  exact if_pos (by simpa using ho)

theorem Group.emptied_deferred {S : Split} {d : Deferred} {ds : List Deferred} (h : G.splits[sp] = some S) (ho : S.o = 0)
    (hst : S.stack = d :: ds) : G.emptied sp = G.modSplit sp fun S => { S with pc := d.pc, m := d.f, o := d.o, stack := ds } := by
  simp only [Group.emptied, h, ho, hst]; rfl

theorem Group.emptied_last {S : Split} (h : G.splits[sp] = some S) (ho : S.o = 0) (hst : S.stack = []) :
    G.emptied sp = { G with splits := G.splits.set sp none, ending := (G.splits.set sp none).toList.all (·.isNone) } := by
  simp only [Group.emptied, h, ho, hst]; rfl

theorem getElem_set_none_ne {v : Vector (Option Split) 4} {j : Fin 4} (h : j ≠ sp) : (v.set sp none)[j] = v[j] := by
  have hv : sp.val ≠ j.val := fun e => h (Fin.ext e.symm)
  simp [hv]

theorem Group.emptied_ne {S : Split} {j : Fin 4} (h : G.splits[sp] = some S) (hj : j ≠ sp) : (G.emptied sp).splits[j] = G.splits[j] := by
  by_cases ho : S.o = 0
  · cases hst : S.stack with
    | nil => rw [Group.emptied_last h ho hst]; exact getElem_set_none_ne hj
    | cons d ds => rw [Group.emptied_deferred h ho hst]; exact Group.modSplit_ne _ hj
  · rw [Group.emptied_owning h ho]

/-- A group ends when its last split has left the table. -/
theorem Group.emptied_ending {S : Split} (h : G.splits[sp] = some S) (hend : G.ending = false) :
    (G.emptied sp).ending = true ↔ ∀ j : Fin 4, (G.emptied sp).splits[j] = none := by
  have hlive {T : Split} (hT : (G.emptied sp).splits[sp] = some T) (he : (G.emptied sp).ending = G.ending) :
      (G.emptied sp).ending = true ↔ ∀ j : Fin 4, (G.emptied sp).splits[j] = none := by
    rw [he, hend]
    exact ⟨Bool.noConfusion, fun hn => by rw [hn sp] at hT; cases hT⟩
  by_cases ho : S.o = 0
  · cases hst : S.stack with
    | nil =>
      rw [Group.emptied_last h ho hst, Vector.all_toList, Vector.all_eq_true]
      simp [Fin.forall_iff]
    | cons d ds =>
      have he := Group.emptied_deferred h ho hst
      exact hlive (by rw [he]; exact Group.modSplit_self _ h) (by rw [he]; rfl)
  · have he := Group.emptied_owning h ho
    exact hlive (by rw [he]; exact h) (by rw [he])

end

/-- A group whose split loses lanes, its run ended and the guesses of these lanes closed. -/
def Group.shed (G : Group) (sp : Fin 4) (r : Lanes) : Group :=
  { ((G.closeLanes (G.guessLanes r)).modSplit sp fun S => { S with m := S.m &&& ~~~r, o := S.o &&& ~~~r }).modSplit sp
      fun S => { S with inRun := false, runLen := 0, lvalid := 0, runIds := [], wait := 0 } with cur := none }

theorem Group.flow_retire (G : Group) (sp : Fin 4) (r : Lanes) (now P : Nat) :
    G.flow sp (.retire r) now P = ((G.shed sp r).emptied sp).mergeAt sp now P := rfl

theorem Group.shed_self {G : Group} {sp : Fin 4} {S : Split} (r : Lanes) (h : G.splits[sp] = some S) :
    (G.shed sp r).splits[sp] = some { S with
      m := S.m &&& ~~~r, o := S.o &&& ~~~r, inRun := false, runLen := 0, lvalid := 0, runIds := [], wait := 0 } :=
  Group.modSplit_self _ (Group.modSplit_self _ h)

theorem Group.shed_ne {G : Group} {sp j : Fin 4} (r : Lanes) (h : j ≠ sp) : (G.shed sp r).splits[j] = G.splits[j] :=
  (Group.modSplit_ne _ h).trans (Group.modSplit_ne _ h)

@[simp] theorem Group.shed_guesses (G : Group) (sp : Fin 4) (r : Lanes) :
    (G.shed sp r).guesses = (G.closeLanes (G.guessLanes r)).guesses := rfl

@[simp] theorem Group.shed_ending (G : Group) (sp : Fin 4) (r : Lanes) : (G.shed sp r).ending = G.ending := rfl

/-- The lanes that EXIT retires. -/
def exitLanes (I : Iss) (grd : Guard) : Lanes :=
  match grd with
  | .p false 7 => I.S.o
  | .q _ _ => if I.qok then I.S.o else 0
  | .p _ _ => I.active

theorem exitLanes_eq (I : Iss) (grd : Guard) : exitLanes I grd = if grd = .p false 7 then I.S.o else match grd with
    | .q .. => if I.qok then I.S.o else 0
    | .p .. => I.active := by
  unfold exitLanes
  split
  · rfl
  · rfl
  · rename_i neg i h
    rw [if_neg fun he => h (by cases he; rfl) (by cases he; rfl)]

/-- Claiming a flag and raising it end no group. -/
theorem Iss.sent_moved_ending {I : Iss} {e : Eff} {cyc : Nat} (hc : e.comp = .flag cyc) (G : Group) :
    (I.sent e (I.moved e G)).ending = G.ending := by
  simp only [Iss.sent, hc]
  cases hf : I.h.setf with
  | none => simp only [Iss.moved, hf]; rfl
  | some f => simp only [Group.raiseFlag, Iss.moved, hf]; split <;> rfl

/-- EXIT's commitment: a group that has ended leaves. -/
theorem Iss.commit_retire {I : Iss} {s : State} {e : Eff} {G : Group} {r : Lanes} (hg : s.group? I.c I.g = some G) (hf : e.flow = .retire r)
    (ha : e.after = none) (hs : e.serviced = none) : I.commit s e =
      if (I.group e G).ending then ((I.limit (I.took s e)).leaveGroup I.c I.g).tryEndGroup I.c I.g else I.limit (I.took s e) := by
  obtain ⟨-, -, hG⟩ := Iss.limit_took (e := e) hg (by simp [hf])
  have hany : ((I.limit (I.took s e)).group? I.c I.g).any (fun G => G.ending) = (I.group e G).ending := by
    rw [show (I.limit (I.took s e)).group? I.c I.g = _ from hG]; rfl
  simp only [Iss.commit, Iss.ended, Iss.faults, ha, hs, hf, hany]

/-- Settles O7: the flow of retired lanes, and what an emptied split does. -/
theorem exitRetiresLanes : Obligations.ExitRetiresLanes := by
  intro x s I hr r o
  obtain ⟨-, -, hS, -⟩ := State.issuer_spec hr.issuer
  have hg := Iss.group_at hr.issuer
  let e : Eff := { comp := .flag I.t, flow := .retire r }
  let K := I.sent e (I.moved e I.G)
  obtain ⟨hi, ha, hG⟩ := Iss.limit_took (e := e) hg fun _ => Flow.noConfusion
  obtain ⟨hsp, ho⟩ := I.sent_moved_splits (e := e) hS
  have hflow : I.group e I.G = ((K.shed I.sp r).emptied I.sp).mergeAt I.sp I.t I.P := Iss.group_flow (fun _ => Flow.noConfusion) _
  have hT := Group.shed_self r hsp
  refine ⟨_, _, (K.shed I.sp r).emptied I.sp, hi, Iss.alone_fresh hr.issuer ha, Iss.flags_of_group hG rfl (fun _ => Flow.noConfusion), hG,
    by rw [hflow], fun j hj => ?others, fun g hmem => ?guesses, ?split, ?exec, fun hend => ?ending⟩
  case others => rw [Group.emptied_ne hT hj, Group.shed_ne _ hj, ho j hj]
  case guesses =>
    rw [hflow, Group.mergeAt_guesses, Group.emptied_guesses, Group.shed_guesses] at hmem
    exact Group.closeLanes_guessLanes hmem
  case split =>
    cases hown : o == 0 with
    | false =>
      have hne : o ≠ 0 := by simpa using hown
      rw [Group.emptied_owning hT hne]
      exact ⟨_, hT, rfl, rfl, rfl, rfl, rfl, rfl⟩
    | true =>
      have h0 : o = 0 := by simpa using hown
      cases hst : I.S.stack with
      | nil =>
        rw [Group.emptied_last hT h0 hst]
        simp
      | cons d ds =>
        rw [Group.emptied_deferred hT h0 hst]
        exact ⟨_, Group.modSplit_self _ hT, rfl, rfl, rfl, rfl, rfl, rfl⟩
  case exec =>
    have hx : exec (.exit x) s = issue x.h {} s fun I => I.ok { comp := .flag I.t, flow := .retire (exitLanes I x.h.grd) } := rfl
    rw [hx, issue_ready hr, exitLanes_eq, ← Iss.commit_retire hg rfl rfl rfl]; rfl
  case ending =>
    rw [hflow, Group.mergeAt_ending]
    exact Group.emptied_ending hT (by rw [Group.shed_ending, Iss.sent_moved_ending rfl, hend])

end Sys2Proof.Machine
end

section
/-! SUPPORT. The elements of a lane by their bits (R75), one element after another, and the settling of O8. -/

namespace Sys2Proof.Machine

open Sys2Proof

/-! ## Elements by their bits -/

/-- A word's bits are those of numbers of `n` bits each, the lowest first. -/
def Packs (n : Nat) (g : Nat → Nat) {w : Nat} (x : BitVec w) : Prop :=
  ∀ j < w, x.getLsbD j = (g (j / n)).testBit (j % n)

theorem Packs.eq {n w : Nat} {g : Nat → Nat} {x y : BitVec w} (hx : Packs n g x) (hy : Packs n g y) : x = y :=
  BitVec.eq_of_getLsbD_eq fun j hj => (hx j hj).trans (hy j hj).symm

theorem packs_ofNat (n : Nat) (g : Nat → Nat) : Packs n g (BitVec.ofNat n (g 0)) := by
  intro j hj
  rw [BitVec.getLsbD_ofNat, decide_eq_true hj, Bool.true_and, Nat.div_eq_of_lt hj, Nat.mod_eq_of_lt hj]

/-- One more number below a word. -/
theorem Packs.append {n w : Nat} {g : Nat → Nat} {x : BitVec w} (hn : 0 < n) (hx : Packs n (fun i => g (i + 1)) x) :
    Packs n g (x ++ BitVec.ofNat n (g 0)) := by
  intro j hj
  rw [BitVec.getLsbD_append]
  split
  · rename_i hlt
    exact packs_ofNat n g j hlt
  · rename_i hge
    have hj' : j - n + n = j := Nat.sub_add_cancel (Nat.le_of_not_lt hge)
    have hdiv : (j - n) / n + 1 = j / n := by rw [← Nat.add_div_right _ hn, hj']
    rw [hx (j - n) (by omega), ← Nat.add_mod_right (j - n) n, hj', ← hdiv]

/-- A lane with an element replaced, bit by bit. -/
theorem getLsbD_setElem {n i j : Nat} (x : Word) (v : Nat) (hj : j < 32) :
    (setElem n i x v).getLsbD j = if n * i ≤ j ∧ j < n * i + n then v.testBit (j - n * i) else x.getLsbD j := by
  have hmask : (BitVec.ofNat 32 ((2 ^ n - 1) * 2 ^ (n * i))).getLsbD j = decide (n * i ≤ j ∧ j < n * i + n) := by
    rw [BitVec.getLsbD_ofNat, Nat.testBit_mul_two_pow, Nat.testBit_two_pow_sub_one, decide_eq_true hj, Bool.true_and, ← Bool.decide_and]
    exact decide_eq_decide.mpr (by omega)
  have hval : (BitVec.ofNat 32 (v * 2 ^ (n * i))).getLsbD j = (decide (n * i ≤ j) && v.testBit (j - n * i)) := by
    rw [BitVec.getLsbD_ofNat, Nat.testBit_mul_two_pow, decide_eq_true hj, Bool.true_and]
  rw [setElem, BitVec.getLsbD_or, BitVec.getLsbD_and, BitVec.getLsbD_and, BitVec.getLsbD_not, hmask, hval, decide_eq_true hj,
    Bool.true_and]
  split
  · rename_i h
    simp [h]
  · rename_i h
    simp [h]

/-- Elements set one after another are there with nothing between them. -/
theorem packs_foldl_setElem {n k : Nat} (g : Nat → Nat) (hn : 0 < n) (hk : n * k = 32) :
    Packs n g ((List.range k).foldl (fun acc i => setElem n i acc (g i)) 0) := by
  have hbits (m j : Nat) (hj : j < 32) : ((List.range m).foldl (fun acc i => setElem n i acc (g i)) (0 : Word)).getLsbD j =
      (decide (j < n * m) && (g (j / n)).testBit (j % n)) := by
    induction m with
    | zero => simp
    | succ m ih =>
      rw [List.range_succ, List.foldl_concat, getLsbD_setElem _ _ hj, ih, Nat.mul_succ]
      split
      · rename_i h
        have hdiv : j / n = m := Nat.div_eq_of_lt_le (by rw [Nat.mul_comm]; exact h.1) (by rw [Nat.mul_comm, Nat.mul_succ]; exact h.2)
        rw [decide_eq_true h.2, Bool.true_and, Nat.mod_eq_sub_mul_div, hdiv]
      · rename_i h
        exact congrArg (· && _) (decide_eq_decide.mpr (by omega))
  intro j hj
  rw [hbits k j hj, hk, decide_eq_true hj, Bool.true_and]

/-- A lane made of bytes. -/
theorem foldl_setElem_bytes (g : Nat → Nat) : (List.range 4).foldl (fun acc i => setElem 8 i acc (g i)) 0 =
    BitVec.ofNat 8 (g 3) ++ BitVec.ofNat 8 (g 2) ++ BitVec.ofNat 8 (g 1) ++ BitVec.ofNat 8 (g 0) :=
  have hn : 0 < 8 := by decide
  (packs_foldl_setElem g hn rfl).eq ((((packs_ofNat 8 fun i => g (i + 3)).append (g := fun i => g (i + 2)) hn).append
    (g := fun i => g (i + 1)) hn).append hn)

/-- A lane made of nibbles. -/
theorem foldl_setElem_nibbles (g : Nat → Nat) : (List.range 8).foldl (fun acc i => setElem 4 i acc (g i)) 0 =
    BitVec.ofNat 4 (g 7) ++ BitVec.ofNat 4 (g 6) ++ BitVec.ofNat 4 (g 5) ++ BitVec.ofNat 4 (g 4) ++
      BitVec.ofNat 4 (g 3) ++ BitVec.ofNat 4 (g 2) ++ BitVec.ofNat 4 (g 1) ++ BitVec.ofNat 4 (g 0) :=
  have hn : 0 < 4 := by decide
  have h3 := (((packs_ofNat 4 fun i => g (i + 7)).append (g := fun i => g (i + 6)) hn).append (g := fun i => g (i + 5)) hn).append
    (g := fun i => g (i + 4)) hn
  (packs_foldl_setElem g hn rfl).eq ((((h3.append (g := fun i => g (i + 3)) hn).append (g := fun i => g (i + 2)) hn).append
    (g := fun i => g (i + 1)) hn).append hn)

theorem foldl_setElem_halves (g : Nat → Nat) : (List.range 2).foldl (fun acc i => setElem 16 i acc (g i)) 0 =
    BitVec.ofNat 16 (g 1) ++ BitVec.ofNat 16 (g 0) :=
  have hn : 0 < 16 := by decide
  (packs_foldl_setElem g hn rfl).eq ((packs_ofNat 16 fun i => g (i + 1)).append hn)

theorem foldl_setElem_word (g : Nat → Nat) : (List.range 1).foldl (fun acc i => setElem 32 i acc (g i)) 0 = BitVec.ofNat 32 (g 0) :=
  (packs_foldl_setElem g (by decide) rfl).eq (packs_ofNat 32 g)

/-! ## Elements as numbers -/

theorem getElem_eq (n i : Nat) (x : Word) : getElem n i x = (x.extractLsb' (n * i) n).toNat := by
  rw [getElem, BitVec.extractLsb'_toNat, Nat.shiftRight_eq_div_pow]

/-- The model's reading of an element is its number. -/
theorem elemInt_eq (u : Bool) {n : Nat} (hn : 0 < n) (i : Nat) (x : Word) : elemInt u n i x = elemNum u (x.extractLsb' (n * i) n) := by
  have hhalf : getElem n i x < 2 ^ (n - 1) ↔ 2 * (x.extractLsb' (n * i) n).toNat < 2 ^ n := by
    rw [getElem_eq, ← Nat.two_pow_pred_mul_two hn]; omega
  unfold elemInt elemNum
  cases u with
  | true => rw [getElem_eq]; rfl
  | false => simp only [BitVec.toInt_eq_toNat_cond, ← hhalf, getElem_eq, Bool.false_or, decide_eq_true_eq, Bool.false_eq_true, if_false,
      Int.natCast_pow, Nat.cast_ofNat]

/-- An integer limited to a range that is not empty. -/
theorem clampInt_eq {lo hi : Int} (h : lo ≤ hi) (v : Int) : clampInt lo hi v = if v < lo then lo else if hi < v then hi else v := by
  unfold clampInt
  split_ifs <;> omega

theorem ofNat_emod_toNat (n : Nat) (v : Int) : BitVec.ofNat n (v % 2 ^ n).toNat = BitVec.ofInt n v := by
  have hpos : (0 : Int) < 2 ^ n := by positivity
  rw [← BitVec.ofInt_natCast, Int.toNat_of_nonneg (Int.emod_nonneg v hpos.ne')]
  apply BitVec.eq_of_toInt_eq
  rw [BitVec.toInt_ofInt, BitVec.toInt_ofInt]
  exact_mod_cast Int.emod_bmod v (2 ^ n)

/-- The model's narrowing of a number is its element. -/
theorem ofNat_elemNarrow (sat u : Bool) (n : Nat) (v : Int) : BitVec.ofNat n (elemNarrow sat u n v) = elemOut sat u n v := by
  have hpos : (0 : Int) < 2 ^ n := by positivity
  have hpos' : (0 : Int) < 2 ^ (n - 1) := by positivity
  unfold elemNarrow elemOut
  rw [ofNat_emod_toNat, clampInt_eq (by omega), clampInt_eq (by omega)]
  cases u <;> simp

/-! ## Operations on elements -/

/-- The model's operation on the elements of two lanes, its results of a width's own numbers. -/
theorem perElem_eq_perElement (w : ElemW) {f : Nat → Nat} {g : (n : Nat) → BitVec n → BitVec n → BitVec n} (a b : Word)
    (h : ∀ i, let n := ElemW.bits w
      BitVec.ofNat n (f i) = g n (a.extractLsb' (n * i) n) (b.extractLsb' (n * i) n)) : perElem w f = perElement w g a b := by
  cases w with
  | w32 =>
    refine (foldl_setElem_word f).trans ((h 0).trans ?_)
    simp only [ElemW.bits, Nat.mul_zero, BitVec.extractLsb'_eq_self, perElement]
  | w16 => exact (foldl_setElem_halves f).trans (congrArg₂ (fun p q : BitVec 16 => p ++ q) (h 1) (h 0))
  | w8 =>
    have h8 : ∀ i, BitVec.ofNat 8 (f i) = g 8 (a.extractLsb' (8 * i) 8) (b.extractLsb' (8 * i) 8) := h
    refine (foldl_setElem_bytes f).trans ?_
    rw [h8, h8, h8, h8]
    rfl

theorem ElemW.bits_pos (w : ElemW) : 0 < ElemW.bits w := by cases w <;> decide

/-- An operation on the numbers of two lanes' elements, narrowed. -/
theorem perElem_two (w : ElemW) (sat u : Bool) (f : Int → Int → Int) (a b : Word) :
    perElem w (fun i => elemNarrow sat u (ElemW.bits w) (f (elemInt u (ElemW.bits w) i a) (elemInt u (ElemW.bits w) i b))) =
      perElement w (fun n p q => elemOut sat u n (f (elemNum u p) (elemNum u q))) a b :=
  perElem_eq_perElement w a b fun i => by
    dsimp only
    rw [ofNat_elemNarrow, elemInt_eq u (ElemW.bits_pos w), elemInt_eq u (ElemW.bits_pos w)]

/-- An operation on the signed numbers of a lane's elements, narrowed. -/
theorem perElem_one (w : ElemW) (sat : Bool) (f : Int → Int) (a : Word) :
    perElem w (fun i => elemNarrow sat false (ElemW.bits w) (f (elemInt false (ElemW.bits w) i a))) =
      perElement w (fun n p _ => elemOut sat false n (f p.toInt)) a 0 :=
  perElem_eq_perElement w a 0 fun i => by
    dsimp only
    rw [ofNat_elemNarrow, elemInt_eq false (ElemW.bits_pos w)]
    rfl

/-! ## The instructions -/

/-- A two-source instruction on elements, `g` saying what the model's function does. -/
theorem vectorResult_vecElem {i : Instr} {x : VA} {s : State} {I : Iss} {f g : Int → Int → Int}
    (hr : Ready s x.h { reads := [x.a, x.b], dsts := [x.d] } I) (hi : exec i s = vecElem x f s) (hfg : ∀ p q, f p q = g p q) :
    VectorResult i s I 0 x.d (VReg.of fun l =>
      ⟨perElement x.elem (fun n p q => elemOut x.sat x.u n (g (elemNum x.u p) (elemNum x.u q)))
        ((I.esrc x.zx x.elem x.a).at l).val ((I.esrc x.zx x.elem x.b).at l).val,
       ((I.esrc x.zx x.elem x.a).at l).k || ((I.esrc x.zx x.elem x.b).at l).k⟩) := by
  obtain rfl : f = g := funext fun p => funext (hfg p)
  have h : VectorResult i s I 0 x.d _ := vectorResult_of hr hi rfl (Iss.passes_pos hr.issuer)
  simpa only [perElem_two] using h

/-- A one-source instruction on elements. -/
theorem vectorResult_vecElemUn {i : Instr} {x : VA} {s : State} {I : Iss} {f g : Int → Int}
    (hr : Ready s x.h { reads := [x.a], dsts := [x.d] } I) (hi : exec i s = vecElemUn x f s) (hfg : ∀ p, f p = g p) :
    VectorResult i s I 0 x.d (VReg.of fun l =>
      ⟨perElement x.elem (fun n p _ => elemOut x.sat false n (g p.toInt)) ((I.esrc false x.elem x.a).at l).val 0,
       ((I.esrc false x.elem x.a).at l).k⟩) := by
  obtain rfl : f = g := funext hfg
  have h : VectorResult i s I 0 x.d _ := vectorResult_of hr hi rfl (Iss.passes_pos hr.issuer)
  simpa only [perElem_one] using h

/-- Settles O8: each instruction by the rule of its shape and the equation of its function. -/
theorem vectorElementResults : Obligations.VectorElementResults := by
  refine ⟨fun x s I hr => ?two, fun x s I hr => ?one⟩ <;> dsimp only
  case two =>
    refine ⟨?_, ?_, ?_, ?_⟩
    · exact vectorResult_vecElem (g := fun p q => p + q) hr rfl fun _ _ => rfl
    · exact vectorResult_vecElem (g := fun p q => p - q) hr rfl fun _ _ => rfl
    · exact vectorResult_vecElem (f := fun p q => min p q) (g := fun p q => if q < p then q else p) hr rfl fun p q => by split <;> omega
    · exact vectorResult_vecElem (f := fun p q => max p q) (g := fun p q => if p < q then q else p) hr rfl fun p q => by split <;> omega
  case one =>
    refine ⟨?_, ?_⟩
    · exact vectorResult_vecElemUn (f := fun p => p.natAbs) (g := fun p => if p < 0 then -p else p) hr rfl fun p => by split <;> omega
    · exact vectorResult_vecElemUn (g := fun p => -p) hr rfl fun _ => rfl

end Sys2Proof.Machine
end

section
/-! SUPPORT. The vector floating-point instructions by their shapes (R123), and the settling of O11. -/

namespace Sys2Proof

theorem FVal.isNan_iff {v : FVal} : v.isNan = true ↔ v = .nan := by cases v <;> simp [FVal.isNan]

/-- FMIN and FMAX: a NaN yields the other operand, two the canonical NaN, and of two others the one that is beyond. -/
theorem FpF.minMax_eq (F : FpF) (isMax : Bool) (p q : Nat) :
    F.minMax isMax p q = if F.val p = .nan ∧ F.val q = .nan then F.canon else if F.val p = .nan then q else if F.val q = .nan then p
      else if isMax then (if (F.val p).below (F.val q) then q else p) else (if (F.val q).below (F.val p) then q else p) := by
  unfold FpF.minMax
  simp only [FVal.isNan_iff]
  by_cases hp : F.val p = .nan
  · simp only [hp, true_and, if_true]
  · simp only [hp, false_and, if_false]

namespace Machine

/-! ## An operand that is zero -/

/-- Reading `zero` besides asks nothing of an instruction. -/
theorem Ready.read_zero {s : State} {h : Hdr} {I : Iss} {a d : Opnd} (hr : Ready s h { reads := [a], dsts := [d] } I) :
    Ready s h { reads := [a, .zero], dsts := [d] } I where
  issuer := hr.issuer
  clear := by simpa [Iss.pre, Use.inBudget, Use.lReady] using hr.clear
  unmarked := hr.unmarked
  sound := by
    have hv : Use.vecs { reads := [a, .zero], dsts := [d] } = Use.vecs { reads := [a], dsts := [d] } := by
      cases a <;> rfl
    have hs : Use.scalars { reads := [a, .zero], dsts := [d] } = Use.scalars { reads := [a], dsts := [d] } := by
      cases a <;> rfl
    have hsound := hr.sound
    unfold Iss.meetsUe at hsound ⊢
    rwa [hv, hs]

theorem VReg.splat_zero_at (l : Nat) : (VReg.splat Elem.zero).at l = Elem.zero := by
  rw [VReg.at, VReg.splat, Vector.getElem?_replicate]
  split <;> rfl

theorem Iss.fsrc_zero_at (I : Iss) (t : FType) (l : Nat) : (I.fsrc t .zero).at l = Elem.zero := VReg.splat_zero_at l

/-! ## The instructions -/

section
variable {i : Instr} {x : FA} {s : State} {I : Iss}

/-- An operation on each element, rounded once, marked when a register that it reads is. -/
theorem vectorResult_fpOp {readsD : Bool} {f : FVal → FVal → FVal → FVal}
    (hr : Ready s x.h { reads := if readsD then [x.a, x.b, x.d] else [x.a, x.b], dsts := [x.d] } I) (hi : exec i s = fpOp x readsD f s) :
    VectorResult i s I 1 x.d (VReg.of fun l =>
      ⟨elems x.typ fun e => BitVec.ofNat 32 (x.typ.fmt.round x.rm x.sat
          (f (x.typ.fmt.val (elemOf x.typ e ((I.fsrc x.typ x.a).at l).val)) (x.typ.fmt.val (elemOf x.typ e ((I.fsrc x.typ x.b).at l).val))
            (x.typ.fmt.val (elemOf x.typ e ((I.vsrc false x.d).at l).val)))),
       ((I.fsrc x.typ x.a).at l).k || ((I.fsrc x.typ x.b).at l).k || (readsD && ((I.vsrc false x.d).at l).k)⟩) :=
  vectorResult_of hr hi rfl (Iss.passes_pos hr.issuer)

/-- One that does not read its destination. -/
theorem vectorResult_fpBin {f : FVal → FVal → FVal} (hr : Ready s x.h { reads := [x.a, x.b], dsts := [x.d] } I)
    (hi : exec i s = fpOp x false (fun p q _ => f p q) s) :
    VectorResult i s I 1 x.d (VReg.of fun l =>
      ⟨elems x.typ fun e => BitVec.ofNat 32 (x.typ.fmt.round x.rm x.sat
          (f (x.typ.fmt.val (elemOf x.typ e ((I.fsrc x.typ x.a).at l).val)) (x.typ.fmt.val (elemOf x.typ e ((I.fsrc x.typ x.b).at l).val)))),
       ((I.fsrc x.typ x.a).at l).k || ((I.fsrc x.typ x.b).at l).k⟩) := by
  simpa only [Bool.false_and, Bool.or_false] using vectorResult_fpOp (readsD := false) hr hi

theorem vectorResult_fpMinMax {isMax : Bool} (hr : Ready s x.h { reads := [x.a, x.b], dsts := [x.d] } I)
    (hi : exec i s = fpMinMax x isMax s) :
    VectorResult i s I 1 x.d (VReg.of fun l =>
      ⟨elems x.typ fun e => BitVec.ofNat 32 (x.typ.fmt.minMax isMax (elemOf x.typ e ((I.fsrc x.typ x.a).at l).val)
          (elemOf x.typ e ((I.fsrc x.typ x.b).at l).val)),
       ((I.fsrc x.typ x.a).at l).k || ((I.fsrc x.typ x.b).at l).k⟩) :=
  vectorResult_of hr hi rfl (Iss.passes_pos hr.issuer)

end

theorem frnd_spec {x : FA} {s : State} {I : Iss} (hr : Ready s x.h { reads := [x.a], dsts := [x.d] } I) :
    VectorResult (.frnd x) s I 1 x.d (VReg.of fun l =>
      ⟨elems x.typ fun e => BitVec.ofNat 32 (x.typ.fmt.round x.rm x.sat
        ((x.typ.fmt.val (elemOf x.typ e ((I.fsrc x.typ x.a).at l).val)).integral x.rm)), ((I.fsrc x.typ x.a).at l).k⟩) := by
  have h := vectorResult_fpBin (i := .frnd x) (x := { x with b := .zero }) (f := fun p _ => p.integral x.rm) hr.read_zero rfl
  simpa only [Iss.fsrc_zero_at, Elem.zero, Bool.or_false] using h

/-- Settles O11: each instruction by the rule of its shape; FMIN and FMAX by the equation of their choice. -/
theorem floatArithmeticResults : Obligations.FloatArithmeticResults := by
  refine ⟨fun x s I hr => ?two, fun x s I hr => frnd_spec hr, fun x s I hr => ?three⟩ <;> dsimp only
  case two =>
    have hmin := vectorResult_fpMinMax (i := .fmin x) hr rfl
    have hmax := vectorResult_fpMinMax (i := .fmax x) hr rfl
    simp only [FpF.minMax_eq, Bool.false_eq_true, if_false, if_true] at hmin hmax
    refine ⟨?_, ?_, ?_, hmin, hmax, ?_⟩
    · exact vectorResult_fpBin (f := fun p q => FVal.sum x.rm [p, q]) hr rfl
    · exact vectorResult_fpBin (f := fun p q => FVal.sum x.rm [p, q.flip true]) hr rfl
    · exact vectorResult_fpBin (f := fun p q => p.mul q) hr rfl
    · exact vectorResult_of hr rfl rfl (Iss.passes_pos hr.issuer)
  case three =>
    refine ⟨?_, ?_⟩
    · exact vectorResult_fpOp (readsD := true) (f := fun p q r => FVal.sum x.rm [(p.mul q).flip x.na, r.flip x.nc]) hr rfl
    · exact vectorResult_of hr rfl rfl (Iss.passes_pos hr.issuer)

end Machine
end Sys2Proof
end

section
/-! SUPPORT. Conversions of elements, nibbles (R87, R124, R125), and the settling of O15. -/

namespace Sys2Proof

/-! ## CVT and CVTEF -/

theorem Fmt.bits_le (f : Fmt) : f.bits ≤ 32 := by cases f <;> decide

/-- The element that a conversion reads: the one named, or the whole lane. -/
theorem getElem_source (f : Fmt) (i : Nat) (x : Word) :
    getElem f.bits (if f.bits < 32 then i else 0) x =
      if f.bits < 32 then x.toNat / 2 ^ (f.bits * i) % 2 ^ f.bits else x.toNat := by
  by_cases h : f.bits < 32
  · rw [if_pos h, if_pos h]; rfl
  · have hbits : f.bits = 32 := Nat.le_antisymm f.bits_le (Nat.le_of_not_lt h)
    rw [if_neg h, if_neg h, hbits, getElem, Nat.mul_zero, Nat.pow_zero, Nat.div_one, Nat.mod_eq_of_lt x.isLt]

/-- The lane that a conversion writes, by the code of its element. -/
theorem cvtLane_eq (src dst : Fmt) (rm : RMode) (sat : Bool) (i : Nat) (a d : Word) :
    cvtLane src dst rm sat i a d =
      let c := dst.narrow rm sat (src.valOf (if src.bits < 32 then a.toNat / 2 ^ (src.bits * i) % 2 ^ src.bits else a.toNat))
      if dst.bits < 32 then setElem dst.bits i d c else BitVec.ofNat 32 c := by
  rw [cvtLane, getElem_source]

/-- What a conversion with a residual leaves over (R125). -/
def residual (x n : FVal) : FVal :=
  match x, n with
  | .nan, _ => .nan
  | _, .inf b => .inf (!b)
  | x, n => FVal.sum .rne [x, n.flip true]

theorem cvtefResidual_eq (dst : Fmt) (sat : Bool) (a : Word) :
    cvtefResidual dst sat a = toF32 .rne false (residual (f32 a) (dst.valOf (dst.narrow .rne sat (f32 a)))) := by
  unfold cvtefResidual residual
  generalize dst.valOf (dst.narrow .rne sat (f32 a)) = n
  cases f32 a <;> cases n <;> simp [FVal.flip]

namespace Machine

/-! ## Nibbles -/

/-- A byte limited to ±7, as a nibble. -/
def packNibble (w : Word) (j : Nat) : BitVec 4 :=
  let n := (w.extractLsb' (8 * j) 8).toInt
  BitVec.ofInt 4 (if n < -7 then -7 else if 7 < n then 7 else n)

theorem packNibble_eq (w : Word) (j : Nat) : BitVec.ofNat 4 (clampInt (-7) 7 (elemInt false 8 j w) % 16).toNat = packNibble w j := by
  have h := ofNat_emod_toNat 4 (clampInt (-7) 7 (elemInt false 8 j w))
  rw [clampInt_eq (by decide), elemInt_eq false (by decide)] at h ⊢
  exact h

theorem pack4_eq (a b : Word) : pack4 a b = packNibble b 3 ++ packNibble b 2 ++ packNibble b 1 ++ packNibble b 0 ++ packNibble a 3 ++
    packNibble a 2 ++ packNibble a 1 ++ packNibble a 0 := by
  rw [pack4, foldl_setElem_nibbles]
  simp only [packNibble_eq]
  rfl

/-- A nibble as a number: the reserved code is 0 (R87). -/
theorem nib_eq (i : Nat) (x : Word) :
    nib i x = if x.extractLsb' (4 * i) 4 = 8 then 0 else (x.extractLsb' (4 * i) 4).toInt := by
  rw [nib, getElem_eq]
  generalize x.extractLsb' (4 * i) 4 = c
  revert c
  decide

theorem getElem_nibble_reserved (i : Nat) (x : Word) : (getElem 4 i x == 8) = (x.extractLsb' (4 * i) 4 == 8) := by
  rw [getElem_eq]
  generalize x.extractLsb' (4 * i) 4 = c
  revert c
  decide

theorem unpk4_eq (f : Bool) (n : Nat) (x : Word) : unpk4 f n x =
    if f then toF32 .rne false (.fin (nib n x < 0) (nib n x).natAbs 0)
    else BitVec.ofInt 8 (nib (4 * n + 3) x) ++ BitVec.ofInt 8 (nib (4 * n + 2) x) ++ BitVec.ofInt 8 (nib (4 * n + 1) x) ++
      BitVec.ofInt 8 (nib (4 * n + 0) x) := by
  have hbyte (v : Int) : BitVec.ofNat 8 (v % 256).toNat = BitVec.ofInt 8 v := ofNat_emod_toNat 8 v
  rw [unpk4, foldl_setElem_bytes]
  simp only [hbyte]
  rfl

/-! ## The instructions -/

/-- CVT writes the converted lane, marked by the lane it goes into too when it keeps other elements of it. -/
theorem vectorResult_cvt {x : CvtA} {s : State} {I : Iss}
    (hr : Ready s x.h { reads := if x.dst.bits < 32 then [x.a, x.d] else [x.a], dsts := [x.d] } I) :
    VectorResult (.cvt x) s I 1 x.d (VReg.of fun l =>
      ⟨cvtLane x.src x.dst x.rm x.sat x.eix.toNat ((I.csrc x.src x.a).at l).val ((I.vsrc false x.d).at l).val,
        ((I.csrc x.src x.a).at l).k || (decide (x.dst.bits < 32) && ((I.vsrc false x.d).at l).k)⟩) :=
  vectorResult_of hr rfl rfl (Iss.passes_pos hr.issuer)

/-- CVTEF writes the converted lane and its residual. -/
theorem computes_cvtef {x : CvtA} {s : State} {I : Iss} (hr : Ready s x.h { reads := [x.a, x.d], dsts := [x.d, x.b] } I) :
    Computes (.cvtef x) s I (I.t + I.P + 1)
      (Iss.wvec x.d I.active (VReg.of fun l =>
          ⟨cvtLane .f32 x.dst .rne x.sat x.eix.toNat ((I.csrc .f32 x.a).at l).val ((I.vsrc false x.d).at l).val,
            ((I.csrc .f32 x.a).at l).k || ((I.vsrc false x.d).at l).k⟩) ++
        Iss.wvec x.b I.active (VReg.of fun l =>
          ⟨cvtefResidual x.dst x.sat ((I.csrc .f32 x.a).at l).val, ((I.csrc .f32 x.a).at l).k⟩)) := by
  have hP := Iss.passes_pos hr.issuer
  have h : Computes (.cvtef x) s I (I.t + I.P + 1) _ :=
    computes_of hr rfl rfl (.inr ⟨1, rfl, by simp only [Iss.last]; omega⟩) rfl rfl rfl
  exact h

/-- Settles O15: each conversion by the rule of its shape and the equation of its lane; UNPK4 as a conversion that may set N8. -/
theorem conversionResults : Obligations.ConversionResults := by
  refine ⟨fun x s I => ?cvt, fun x s I hx hr => ?cvtef, fun x s I hr => ?pack4, fun x s I hx hr => ?unpk4⟩ <;> dsimp only
  case cvt =>
    simp only [decide_eq_true_eq]
    intro hr
    have h := vectorResult_cvt hr
    simp only [cvtLane_eq] at h
    by_cases hx : x.dst.bits < 32
    · simpa only [if_pos hx, decide_eq_true hx, Bool.true_and] using h
    · simpa only [if_neg hx, decide_eq_false hx, Bool.false_and, Bool.or_false] using h
  case cvtef =>
    have h := computes_cvtef hr
    simp only [cvtLane_eq, cvtefResidual_eq, if_pos hx] at h
    exact h
  case pack4 =>
    have h : VectorResult (.pack4 x) s I 1 x.d _ := vectorResult_of hr rfl rfl (Iss.passes_pos hr.issuer)
    simp only [pack4_eq] at h
    exact h
  case unpk4 =>
    have h : Acts (.unpk4 x) s I _ _ := acts_n8 hr rfl rfl
    simpa only [Iss.n8_eq, unpk4_eq, getElem_nibble_reserved, nib_eq] using h

end Machine
end Sys2Proof
end

section
/-! SUPPORT. Segments and the lanes that active lanes name (R116, R129, R130), and the settling of O17. -/

namespace Sys2Proof.Machine

open Sys2Proof

/-! ## Segments -/

theorem segW_eq (seg : Fin 6) : segW seg = segLanes seg := by
  simp only [segW, segLanes, Fin.ext_iff, Fin.val_zero]

theorem segLanes_dvd : ∀ seg, segLanes seg ∣ 96 := by decide

theorem segLanes_pos : ∀ seg, 0 < segLanes seg := by decide

/-- The lowest lane of a segment is a multiple of the segment's lanes. -/
theorem segBase_eq_mul (w l : Nat) : segBase w l = l / w * w := by
  have := Nat.div_add_mod' l w
  rw [segBase]
  omega

/-- The segment that begins at a lane ends within the group. -/
theorem segBase_add_le {w l : Nat} (hw : w ∣ 96) (hl : l < 96) : segBase w l + w ≤ 96 := by
  obtain ⟨k, hk⟩ := hw
  have hlt : l / w < k := Nat.div_lt_of_lt_mul (hk ▸ hl)
  calc segBase w l + w = w * (l / w + 1) := by rw [segBase_eq_mul, Nat.mul_succ, Nat.mul_comm]
    _ ≤ w * k := Nat.mul_le_mul_left _ hlt
    _ = 96 := hk.symm

/-! ## Positions -/

theorem segSrc_natCast (w l n : Nat) : segSrc w l n = if n < w then segBase w l + n else l := by
  simp [segSrc]

/-- A position names a lane of the group. -/
theorem segSrc_lt {w l : Nat} (hw : w ∣ 96) (hl : l < 96) (j : Int) : segSrc w l j < 96 := by
  unfold segSrc
  split
  · rename_i hj
    have hle := segBase_add_le hw hl
    simp only [Bool.and_eq_true, decide_eq_true_eq] at hj
    omega
  · exact hl

/-- The lane that SHFL reads for a lane (R130). -/
def shflFrom (m : ShMode) (w n l : Nat) : Nat :=
  let i := l % w
  let base := l - i
  match m with
  | .idx => if n < w then base + n else l
  | .up => if n ≤ i then l - n else l
  | .down => if i + n < w then l + n else l
  | .xor => if i ^^^ n < w then base + (i ^^^ n) else l

theorem segSrc_pos {w : Nat} (hw : 0 < w) (m : ShMode) (n l : Nat) : segSrc w l (ShMode.pos m (l % w) n) = shflFrom m w n l := by
  have hi := Nat.mod_lt l hw
  have hle := Nat.mod_le l w
  cases m with
  | idx => exact segSrc_natCast w l n
  | xor => exact segSrc_natCast w l (l % w ^^^ n)
  | down =>
    refine (segSrc_natCast w l (l % w + n)).trans ?_
    rw [shflFrom, segBase]
    exact if_congr Iff.rfl (by omega) rfl
  | up =>
    rw [ShMode.pos.eq_def, shflFrom]
    dsimp only
    by_cases hn : n ≤ l % w
    · rw [if_pos hn, ← Int.natCast_sub hn, segSrc_natCast, segBase, if_pos (by omega)]
      omega
    · rw [if_neg hn, segSrc, if_neg (by simp; omega)]

theorem segSrc_mod {w : Nat} (hw : 0 < w) (n l : Nat) : segSrc w l (n % w : Nat) = l - l % w + n % w := by
  rw [segSrc_natCast, if_pos (Nat.mod_lt n hw), segBase]

/-! ## Uncorrectable words in the lanes named (R116, R355) -/

theorem Iss.badLanes_zero (I : Iss) (o : Opnd) : I.badLanes o 0 = false := by
  unfold Iss.badLanes
  split <;> simp

theorem Iss.badLanes_or (I : Iss) (o : Opnd) (m n : Lanes) : I.badLanes o (m ||| n) = (I.badLanes o m || I.badLanes o n) := by
  unfold Iss.badLanes
  split
  · rw [Bool.eq_iff_iff]
    simp only [List.any_eq_true, Bool.or_eq_true, BitVec.getLsbD_or, Bool.and_or_distrib_left, and_or_left, exists_or]
  · rfl

/-- The lanes named are read one by one. -/
theorem Iss.badLanes_named (I : Iss) (o : Opnd) (src : Nat → Nat) :
    I.badLanes o (I.named src) = (bitsOf I.active).any fun l => [src l].any fun j => I.badLanes o (1#96 <<< j) := by
  have hfold (ls : List Nat) (m : Lanes) : I.badLanes o (ls.foldl (fun m l => m ||| (1#96 <<< src l)) m) =
      (I.badLanes o m || ls.any fun l => [src l].any fun j => I.badLanes o (1#96 <<< j)) := by
    induction ls generalizing m with
    | nil => rw [List.foldl_nil, List.any_nil, Bool.or_false]
    | cons l ls ih =>
      rw [List.foldl_cons, ih, I.badLanes_or, List.any_cons, List.any_cons, List.any_nil, Bool.or_false, Bool.or_assoc]
  rw [Iss.named, hfold, I.badLanes_zero, Bool.false_or]

/-- An instruction whose active lanes name the lanes of `o` that it reads: an uncorrectable word in one of them is consumed. -/
theorem longResult_named {i : Instr} {s : State} {h : Hdr} {u : Use} {I : Iss} {body : Iss → Res} {lat ch : Nat} {ws : List RegWrite}
    {o : Opnd} {src : Nat → Nat} (hr : Ready s h u I) (hi : exec i s = issue h u s body) (hsrc : ∀ l < 96, src l < 96)
    (hb : body I = (I.vectorLong lat ch ws).orUeIf I (I.badLanes o (I.named src))) :
    let named (j : Nat) : Prop := ∃ l, l < 96 ∧ I.active.getLsbD l = true ∧ src l = j
    (Uncorrectable I o named → Consumes i s I) ∧ (¬Uncorrectable I o named → LongResult i s I lat ws) := by
  have hbad : I.badLanes o (I.named src) = true ↔ Uncorrectable I o fun j => ∃ l, l < 96 ∧ I.active.getLsbD l = true ∧ src l = j := by
    rw [I.badLanes_named, I.any_badLanes_iff (from_ := fun l => [src l]) (by simpa using hsrc)]
    simp only [List.mem_singleton, eq_comm]
  exact ⟨fun hu => consumes_of hr hi (hb.trans (if_pos (hbad.mpr hu))),
    fun hu => longResult_of hr hi (hb.trans (if_neg fun h => hu (hbad.mp h)))⟩

theorem extractLsb'_position (x : Word) : (x.extractLsb' 0 7).toNat = x.toNat % 128 := by
  simp [BitVec.extractLsb'_toNat]

/-- Settles O17: both by the lanes that they name, SHFL by the lane of each mode, VBCAST by a position within the segment. -/
theorem shuffleResults : Obligations.ShuffleResults := by
  refine ⟨fun x s I hr => ?shfl, fun x s I hr => ?vbcast⟩
  case shfl =>
    have h := longResult_named (i := .shfl x) hr rfl (fun l hl => segSrc_lt (segW_eq x.seg ▸ segLanes_dvd x.seg) hl _) rfl
    simp only [segW_eq, segSrc_pos (segLanes_pos x.seg), extractLsb'_position] at h
    exact h
  case vbcast =>
    have h := longResult_named (i := .vbcast x) hr rfl (fun l hl => segSrc_lt (segW_eq x.seg ▸ segLanes_dvd x.seg) hl _) rfl
    simp only [segW_eq, segSrc_mod (segLanes_pos x.seg)] at h
    exact h

end Sys2Proof.Machine
end

section
/-! SUPPORT. Reductions in the fixed tree, running values and ballots (R131 to R133), and the settling of O18. -/

namespace Sys2Proof.Machine

open Sys2Proof

/-! ## What a list holds under a key -/

section
variable {α : Type} {L : List (Nat × α)} {V : Nat → α} {l : Nat}

/-- A list whose entries are determined by their keys holds the entry of each of its keys. -/
theorem find?_key_of_exists (hV : ∀ p ∈ L, p.2 = V p.1) (hl : ∃ p ∈ L, p.1 = l) : L.find? (fun p => p.1 == l) = some (l, V l) := by
  obtain ⟨q, hq⟩ : ∃ q, L.find? (fun p => p.1 == l) = some q := by
    obtain ⟨p, hp, hpl⟩ := hl
    exact Option.isSome_iff_exists.mp (List.find?_isSome.mpr ⟨p, hp, beq_iff_eq.mpr hpl⟩)
  have hkey : q.1 = l := by simpa using List.find?_some hq
  rw [hq, ← hkey, ← hV q (List.mem_of_find?_eq_some hq)]

theorem find?_key_of_forall (hl : ∀ p ∈ L, p.1 ≠ l) : L.find? (fun p => p.1 == l) = none :=
  List.find?_eq_none.mpr fun p hp => by simpa using hl p hp

end

/-! ## Reductions -/

theorem RedOp.apply_eq (o : RedOp) (rm : RMode) (a b : Word) : RedOp.apply o rm a b = redSays o rm a b := by
  cases o <;> simp [RedOp.apply, redSays, minW, maxW, fadd32]

theorem RedOp.combine_eq (o : RedOp) (rm : RMode) (p q : Option Elem) : RedOp.combine o rm p q = redPair (redSays o rm) p q := by
  cases p <;> cases q <;> simp [RedOp.combine, redPair, RedOp.apply_eq]

theorem RedOp.tree_eq (o : RedOp) (rm : RMode) (f : Nat → Option Elem) (n base : Nat) :
    RedOp.tree o rm f n base = redTree (redSays o rm) f n base := by
  induction n generalizing base with
  | zero => rfl
  | succ n ih => rw [RedOp.tree, redTree, RedOp.combine_eq, ih, ih]

theorem RedOp.segment_eq (o : RedOp) (rm : RMode) (seg : Fin 6) (f : Nat → Option Elem) (base : Nat) :
    RedOp.segment o rm seg f base =
      let g := redSays o rm
      if seg.val = 0 then redPair g (redPair g (redTree g f 5 0) (redTree g f 5 32)) (redTree g f 5 64)
      else redTree g f seg.val base := by
  simp only [RedOp.segment, RedOp.combine_eq, RedOp.tree_eq, Fin.ext_iff, Fin.val_zero]

/-- The segments of a group by their lowest lanes. -/
theorem find?_segment {α : Type} (F : Nat → α) {w l : Nat} (hw : w ∣ 96) (hl : l < 96) :
    (((List.range (96 / w)).map fun j => (j * w, F (j * w))).find? fun p => p.1 == segBase w l) =
      some (segBase w l, F (segBase w l)) := by
  refine find?_key_of_exists (V := F) (fun p hp => ?_) ⟨(segBase w l, F (segBase w l)), ?_, rfl⟩
  · obtain ⟨j, -, rfl⟩ := List.mem_map.mp hp
    rfl
  · rw [segBase_eq_mul]
    exact List.mem_map.mpr ⟨l / w, List.mem_range.mpr (Nat.div_lt_div_of_lt_of_dvd hw hl), rfl⟩

/-! ## The active lanes of a source -/

theorem Iss.live_of_active {I : Iss} {l : Nat} (a : VReg) (h : I.active.getLsbD l = true) : I.live a l = some (a.at l) := if_pos h

theorem Iss.live_of_inactive {I : Iss} {l : Nat} (a : VReg) (h : I.active.getLsbD l = false) : I.live a l = none := by
  rw [Iss.live, h]; rfl

/-! ## Running values -/

/-- What VSCAN gives an active lane. -/
def scanValue (o : RedOp) (rm : RMode) (excl : Bool) (f : Nat → Option Elem) (base i : Nat) : Elem :=
  if excl then (scanBefore (redSays o rm) f base i).getD ⟨RedOp.identity o, false⟩
  else (scanBefore (redSays o rm) f base (i + 1)).getD ⟨0, false⟩

theorem redPair_none_right (f : Word → Word → Word) (x : Option Elem) : redPair f x none = x := by cases x <;> rfl

theorem redPair_some_right (f : Word → Word → Word) (x : Option Elem) (e : Elem) : ∃ r, redPair f x (some e) = some r := by
  cases x <;> exact ⟨_, rfl⟩

/-- The running values through a segment from its lane `k` on. -/
theorem scanFrom_eq (o : RedOp) (rm : RMode) (excl : Bool) (f : Nat → Option Elem) (base k n : Nat) :
    scanFrom o rm excl f (scanBefore (redSays o rm) f base k) ((List.range' k n).map (base + ·)) =
      ((List.range' k n).filter fun i => (f (base + i)).isSome).map fun i => (base + i, scanValue o rm excl f base i) := by
  induction n generalizing k with
  | zero => rfl
  | succ n ih =>
    have hnext : scanBefore (redSays o rm) f base (k + 1) = redPair (redSays o rm) (scanBefore (redSays o rm) f base k) (f (base + k)) := rfl
    rw [List.range'_succ, List.map_cons, scanFrom, List.filter_cons]
    cases hf : f (base + k) with
    | none =>
      rw [hf, redPair_none_right] at hnext
      rw [← hnext]
      exact ih (k + 1)
    | some e =>
      obtain ⟨r, hr⟩ := redPair_some_right (redSays o rm) (scanBefore (redSays o rm) f base k) e
      rw [hf] at hnext
      have hval : (if excl then (scanBefore (redSays o rm) f base k).getD ⟨RedOp.identity o, false⟩
          else (scanBefore (redSays o rm) f base (k + 1)).getD e) = scanValue o rm excl f base k := by
        rw [scanValue, hnext, hr]; rfl
      dsimp only
      rw [RedOp.combine_eq, ← hnext, ih (k + 1), hval]
      rfl

theorem scanFrom_segment (o : RedOp) (rm : RMode) (excl : Bool) (f : Nat → Option Elem) (base w : Nat) :
    scanFrom o rm excl f none ((List.range w).map (base + ·)) =
      ((List.range w).filter fun i => (f (base + i)).isSome).map fun i => (base + i, scanValue o rm excl f base i) := by
  rw [List.range_eq_range']
  exact scanFrom_eq o rm excl f base 0 w

/-- The lanes that VSCAN reaches, each with its value. -/
theorem mem_scan {o : RedOp} {rm : RMode} {excl : Bool} {f : Nat → Option Elem} {w : Nat} {p : Nat × Elem} :
    (p ∈ (List.range (96 / w)).flatMap fun j => scanFrom o rm excl f none ((List.range w).map fun i => j * w + i)) ↔
      ∃ j < 96 / w, ∃ i < w, (f (j * w + i)).isSome = true ∧ p = (j * w + i, scanValue o rm excl f (j * w) i) := by
  simp only [scanFrom_segment, List.mem_flatMap, List.mem_range, List.mem_map, List.mem_filter]
  constructor
  · rintro ⟨j, hj, i, ⟨hi, hf⟩, rfl⟩
    exact ⟨j, hj, i, hi, hf, rfl⟩
  · rintro ⟨j, hj, i, hi, hf, rfl⟩
    exact ⟨j, hj, i, ⟨hi, hf⟩, rfl⟩

/-- What VSCAN finds for a lane. -/
theorem find?_scan (o : RedOp) (rm : RMode) (excl : Bool) (f : Nat → Option Elem) {w l : Nat} (hw : w ∣ 96) (hl : l < 96) :
    (((List.range (96 / w)).flatMap fun j => scanFrom o rm excl f none ((List.range w).map fun i => j * w + i)).find?
        fun p => p.1 == l) =
      if (f l).isSome then some (l, scanValue o rm excl f (l - l % w) (l % w)) else none := by
  have hpos : 0 < w := Nat.pos_of_dvd_of_pos hw (by decide)
  split
  · rename_i hf
    refine find?_key_of_exists (V := fun l => scanValue o rm excl f (l - l % w) (l % w)) (fun p hp => ?_) ⟨_, mem_scan.mpr
      ⟨l / w, Nat.div_lt_div_of_lt_of_dvd hw hl, l % w, Nat.mod_lt l hpos, ?_, rfl⟩, Nat.div_add_mod' l w⟩
    · obtain ⟨j, -, i, hi, -, rfl⟩ := mem_scan.mp hp
      have hmod : (j * w + i) % w = i := Nat.mul_add_mod_of_lt hi
      simp only [hmod, Nat.add_sub_cancel]
    · rwa [Nat.div_add_mod']
  · rename_i hf
    refine find?_key_of_forall fun p hp hpl => hf ?_
    obtain ⟨j, -, i, -, hfi, rfl⟩ := mem_scan.mp hp
    exact hpl ▸ hfi

/-! ## Ballots -/

theorem ballotWord_eq (seg : Fin 6) (bits act : Lanes) (l : Nat) :
    ballotWord (segLanes seg) (bits &&& act) l = maskOf 32 fun i => i < (if segLanes seg = 96 then 32 else segLanes seg) &&
      bits.getLsbD ((if segLanes seg = 96 then 32 * (l / 32) else l - l % segLanes seg) + i) &&
      act.getLsbD ((if segLanes seg = 96 then 32 * (l / 32) else l - l % segLanes seg) + i) := by
  have hmin : min (segLanes seg) 32 = if segLanes seg = 96 then 32 else segLanes seg := by revert seg; decide
  rw [ballotWord, hmin, segBase, Nat.mul_comm]
  refine eq_maskOf fun i hi => ?_
  rw [BitVec.getLsbD_ofNat, Nat.testBit_mod_two_pow, Nat.testBit_div_two_pow, decide_eq_true hi, Bool.true_and, Nat.add_comm, Bool.and_assoc,
    ← BitVec.getLsbD_and]
  rfl

/-! ## The instructions -/

/-- Settles O18: VRED by the segment of a lane in the list of segments, VSCAN by the running value under a lane, BALLOT bit by bit. -/
theorem reductionAndScanResults : Obligations.ReductionAndScanResults := by
  refine ⟨⟨fun x s I hr => ?vred, fun x s I hr => ?ballot⟩, fun x s I hr => ?vscan⟩
  case vred =>
    refine longResult_of (ch := 4) hr rfl (congrArg (fun v => I.vectorLong _ 4 (Iss.wvec x.d _ v)) (VReg.of_congr fun l hl => ?_))
    dsimp only
    rw [segW_eq, find?_segment (RedOp.segment x.op x.rm x.seg _) (segLanes_dvd x.seg) hl, Option.bind_some, RedOp.segment_eq]
    by_cases hseg : x.seg.val = 0
    · simp only [if_pos hseg]; rfl
    · simp only [if_neg hseg, segBase, segLanes]; rfl
  case ballot =>
    have h : LongResult (.ballot x) s I _ _ := longResult_of hr rfl rfl
    simp only [segW_eq, ballotWord_eq] at h
    exact h
  case vscan =>
    refine longResult_of (ch := 4) hr rfl (congrArg (fun v => I.vectorLong _ 4 (Iss.wvec x.d _ v)) (VReg.of_congr fun l hl => ?_))
    rw [segW_eq, find?_scan _ _ _ _ (segLanes_dvd x.seg) hl]
    cases hact : I.active.getLsbD l
    · rw [I.live_of_inactive _ hact]; rfl
    · rw [I.live_of_active _ hact]; rfl

end Sys2Proof.Machine
end

section
/-! SUPPORT. How accesses begin, fail or are stopped at their issue (R144, R153), and the settling of O19, O20 and O21. -/

namespace Sys2Proof.Machine

open Sys2Proof

/-! ## The accesses of an instruction -/

/-- The accesses of the active lanes, their offsets given as words in units of `scale`. -/
theorem Iss.laneAccs_eq (I : Iss) (t : Triple) (scale n : Nat) {f : Nat → Int × Bool} {off : Nat → Word × Bool}
    (h : ∀ l, f l = ((off l).1.toInt * scale, (off l).2)) : I.laneAccs t f n = lanesOf I t off scale n := by
  refine List.map_congr_left fun l _ => ?_
  simp only [h]
  rfl

/-- The same in bytes. -/
theorem Iss.laneAccs_bytes (I : Iss) (t : Triple) (n : Nat) (b : VReg) :
    I.laneAccs t (fun l => ((b.at l).val.toInt, (b.at l).k)) n = lanesOf I t (fun l => ((b.at l).val, (b.at l).k)) 1 n :=
  I.laneAccs_eq t 1 n fun l => by rw [Nat.cast_one, mul_one]

/-- The accesses of LD and LDG (R147, R148). -/
theorem Iss.laneAccs_load (I : Iss) (x : LdA) :
    I.laneAccs x.a (fun l => if x.lsel = 7 then (x.ofs8.toInt * x.width.bytes, false)
      else (((I.vsrc false x.b).at l).val.toInt, ((I.vsrc false x.b).at l).k)) x.width.bytes =
      lanesOf I x.a (loadOffset I x) (if x.lsel = 7 then x.width.bytes else 1) x.width.bytes := by
  refine I.laneAccs_eq x.a _ _ fun l => ?_
  by_cases h : x.lsel = 7
  · simp only [if_pos h, loadOffset]
    rw [BitVec.toInt_signExtend_of_le (by decide)]
  · simp only [if_neg h, loadOffset, Nat.cast_one, mul_one]

/-- A report reads of the accesses their lanes and pointers alone. -/
theorem accReport_map (i : Instr) (pc : Word) {f : Acc → Acc} (hl : ∀ a, (f a).lane = a.lane) (hp : ∀ a, (f a).ptr = a.ptr)
    (accs : List Acc) (cs : List (Nat × Cause)) : accReport i pc (accs.map f) cs = accReport i pc accs cs := by
  have hfind (l : Nat) : ((accs.map f).find? fun a => a.lane == l).map (·.ptr) = (accs.find? fun a => a.lane == l).map (·.ptr) := by
    simp only [List.find?_map, Option.map_map, Function.comp_def, hl, hp]
  unfold accReport
  simp only [hfind]

/-! ## Beginning the checks -/

theorem Iss.startChecks_addOp (I : Iss) (s : State) {o : Op} (ho : o.id = I.id) :
    Iss.startChecks (s.addOp I.c o) I.c I.t o = begins I s o := by
  unfold Iss.startChecks begins
  rw [ho]
  dsimp only
  split <;> rfl

@[simp] theorem group_begins (I : Iss) (s : State) (o : Op) (c g : Nat) : (begins I s o).group? c g = s.group? c g := by
  unfold begins
  dsimp only
  split <;> exact State.group_addOp s c I.c g o

/-! ## How an access issues -/

/-- What happens beside an access that issues: `more` once it is under way or logged, `ahead` once it is under way. -/
def Res.besides (more ahead : State → State) : Res → Res
  | .done s e => .done (if e.serviced.isSome then more s else ahead (more s)) e
  | r => r

theorem Res.besides_id (r : Res) : r.besides id id = r := by
  cases r with
  | done s e => exact congrArg (Res.done · e) (ite_self s)
  | _ => rfl

/-- An access that remembers whether its data is marked (R171). -/
def Acc.marking (marked : List Nat) (a : Acc) : Acc := { a with mark := marked.contains a.lane }

section
variable {I : Iss} {o : Op} {store : Bool} {marked : List Nat} {e : Eff}

theorem Iss.access_nil (h : o.accs = []) : I.access o store marked e = I.ok { e with comp := .flag I.t } := by
  simp [Iss.access, h]

/-- The operation with the marks on the data of its accesses. -/
def Op.marking (o : Op) (marked : List Nat) : Op := { o with accs := o.accs.map (Acc.marking marked) }

@[simp] theorem accReport_marking (i : Instr) (pc : Word) (o : Op) (marked : List Nat) (cs : List (Nat × Cause)) :
    accReport i pc (o.marking marked).accs cs = accReport i pc o.accs cs :=
  accReport_map i pc (f := Acc.marking marked) (fun _ => rfl) (fun _ => rfl) ..

/-- How an instruction with accesses issues. -/
theorem Iss.access_cons (h : o.accs ≠ []) : I.access o store marked e =
    match accReport o.ins I.S.pc o.accs (I.accCauses o.accs (accAlign o.ins) store marked) with
    | none => .done (Iss.startChecks (I.s.addOp I.c (o.marking marked)) I.c I.t (o.marking marked)) e
    | some r =>
      if r.cause.serviced then .done (I.s.addOp I.c { o.marking marked with stage := .logged }) { e with serviced := some r }
      else .stop r := by
  rw [← accReport_marking (marked := marked)]
  exact if_neg (by simpa using h)

theorem Iss.access_begun (ho : o.id = I.id) (h : o.accs ≠ [])
    (hr : accReport o.ins I.S.pc o.accs (I.accCauses o.accs (accAlign o.ins) store marked) = none) :
    I.access o store marked e = .done (begins I I.s (o.marking marked)) e := by
  rw [Iss.access_cons h, hr]
  exact congrArg (Res.done · e) (I.startChecks_addOp I.s (o := o.marking marked) ho)

theorem Iss.access_failed (h : o.accs ≠ []) {r : Report}
    (hr : accReport o.ins I.S.pc o.accs (I.accCauses o.accs (accAlign o.ins) store marked) = some r) :
    I.access o store marked e = if r.cause.serviced then
      .done (I.s.addOp I.c { o.marking marked with stage := .logged }) { e with serviced := some r } else .stop r := by
  rw [Iss.access_cons h, hr]

end

/-- An effect in its run whose operation completes it, and that no fault goes with; `result` says whether it writes a register. -/
structure Eff.Later (e : Eff) (result : Bool) : Prop where
  comp : e.comp = .later result
  flow : e.flow = .next
  after : e.after = none
  serviced : e.serviced = none

/-- A serviced exception is taken once the effect is there. -/
theorem Iss.commit_serviced {I : Iss} {e : Eff} {result : Bool} (he : e.Later result) (s : State) (r : Report) :
    I.commit s { e with serviced := some r } = (I.commit s e).takeServiced I.c I.g r := by
  obtain ⟨-, hf, ha, hs⟩ := he
  obtain ⟨ws, comp, flow, occ, unit, charge, lset, after, serviced, claims⟩ := e
  cases hf; cases ha; cases hs
  rfl

/-- An access instruction issues as its accesses fare (R144). -/
theorem accessIssues_of {i : Instr} {s : State} {h : Hdr} {u : Use} {I : Iss} {body : Iss → Res} {o : Op} {store : Bool} {marked : List Nat}
    {more ahead : State → State} {e : Eff} {result : Bool} (hr : Ready s h u I) (hi : exec i s = issue h u s body)
    (hnil : o.accs = [] → body I = I.access o store marked e)
    (hb : o.accs ≠ [] → body I = (I.access o store marked e).besides more ahead)
    (hins : o.ins = i) (hid : o.id = I.id) (he : e.Later result)
    (hm : o.accs ≠ [] → ∀ s, (more s).cores = s.cores) (hh : ∀ s, (ahead s).cores = s.cores) :
    AccessIssues i s I o store marked more ahead := by
  obtain ⟨hc, hf, ha, hs⟩ := he
  have hg := Iss.group_at hr.issuer
  have hmore (h0 : o.accs ≠ []) (s : State) : (more s).group? I.c I.g = s.group? I.c I.g := State.group_congr (hm h0 s) _ _
  have hahead (s : State) : (ahead s).group? I.c I.g = s.group? I.c I.g := State.group_congr (hh s) _ _
  subst hins
  unfold AccessIssues
  dsimp only
  split
  · rename_i h0
    exact acts_fresh hr.issuer (acts_flag hr hi ((hnil h0).trans (Iss.access_nil h0)) hg rfl hf ha hs rfl)
  · rename_i h0
    split
    · rename_i hrep
      have hb' : body I = .done (ahead (more (begins I I.s (o.marking marked)))) e := by
        rw [hb h0, Iss.access_begun hid h0 hrep]
        exact congrArg (Res.done · e) (if_neg (by simp [hs]))
      exact acts_later hr hi hb' (by rw [hahead, hmore h0, group_begins]; exact hg) rfl hf ha hs hc
    · rename_i r hrep
      have hb' := hb h0
      rw [Iss.access_failed h0 hrep] at hb'
      split
      · rename_i hserv
        let t := I.commit (more (I.s.addOp I.c { o.marking marked with stage := .logged })) e
        obtain ⟨-, -, hS, -⟩ := State.issuer_spec hr.issuer
        obtain ⟨hat, -, halone, -⟩ := Iss.commit_next (e := e)
          (s' := more (I.s.addOp I.c { o.marking marked with stage := .logged })) (by rw [hmore h0, State.group_addOp]; exact hg) rfl hS hf ha hs
        refine ⟨t, hat, halone, ?_⟩
        rw [hi, issue_ready hr, hb', if_pos hserv]
        exact congrArg _ (Iss.commit_serviced ⟨hc, hf, ha, hs⟩ _ r)
      · rename_i hserv
        rw [if_neg hserv] at hb'
        exact stops_of hr hi hb'

/-- The same for an instruction that does nothing besides. -/
theorem accessIssues_plain {i : Instr} {s : State} {h : Hdr} {u : Use} {I : Iss} {body : Iss → Res} {o : Op} {store : Bool} {marked : List Nat}
    {e : Eff} {result : Bool} (hr : Ready s h u I) (hi : exec i s = issue h u s body) (hb : body I = I.access o store marked e)
    (hins : o.ins = i) (hid : o.id = I.id) (he : e.Later result) :
    AccessIssues i s I o store marked id id :=
  accessIssues_of hr hi (fun _ => hb) (fun _ => hb.trans (Res.besides_id _).symm) hins hid he (fun _ _ => rfl) fun _ => rfl

/-! ## Loads -/

section
variable {i : Instr} {x : LdA} {s : State} {u : Use} {I : Iss} {body : Iss → Res} {accs : List Acc} {lim : Nat → Nat} {occ : Nat}

/-- What a load hands over. -/
def loadEff (x : LdA) (occ : Nat) : Eff := { comp := .later (gdest x.d != .none), occ := occ, unit := .lsu, charge := 2 + 2 * occ }

theorem Iss.load_demand (h : isDemand I x = true) : I.load i x accs lim occ = I.access (I.op i accs) false [] (loadEff x occ) := by
  have h' : (decide (x.lsel = 0) || I.s.exactAt I.c I.G.ctx) = true := h
  simp only [Iss.load, h', if_true]
  rfl

theorem accessIssues_load (hr : Ready s x.h u I) (hi : exec i s = issue x.h u s body) (hb : body I = I.load i x accs lim occ)
    (hd : isDemand I x = true) : AccessIssues i s I (opOf i I accs) false [] id id :=
  accessIssues_plain hr hi (hb.trans (Iss.load_demand hd)) rfl rfl ⟨rfl, rfl, rfl, rfl⟩

/-- A fold of events to come leaves every group. -/
theorem State.group_foldl_postQ (c : Nat) (ev : Instr) (ts : List Nat) (s : State) (d g : Nat) :
    (ts.foldl (fun s t => s.postQ c t ev) s).group? d g = s.group? d g :=
  State.group_congr (State.foldl_cores (fun _ _ => State.postQ_cores ..) ts s) d g

/-- The access of a lane of a limited load: its limit, and the cause that its guess hides. -/
def Acc.limiting (I : Iss) (cs : List (Nat × Cause)) (lim : Nat → Nat) (a : Acc) : Acc :=
  { a with lim := some (I.t + max 4 (lim a.lane)), cause := (cs.find? fun p => p.1 == a.lane).map (·.2) }

/-- What a limited load with accesses leaves begun. -/
def Iss.limitedBegun (I : Iss) (i : Instr) (x : LdA) (accs : List Acc) (lim : Nat → Nat) : State :=
  let set := Acc.limiting I (I.accCauses accs (fun n => n) false []) lim
  (((accs.map fun a => I.t + max 4 (lim a.lane)).dedup.foldl (fun s t => s.postQ I.c t (.limitExpiry I.c I.id))
    (begins I I.s { opOf i I (accs.map set) with args := exited0 I x.d })).modGroup I.c I.g fun G =>
      { G with guesses := G.guesses ++ [⟨I.id, gdest x.d, x.width.regs, x.slot, x.fp, x.width, false, []⟩] })

theorem Iss.group_limitedBegun {G : Group} (hg : I.s.group? I.c I.g = some G) : (I.limitedBegun i x accs lim).group? I.c I.g =
    some { G with guesses := G.guesses ++ [⟨I.id, gdest x.d, x.width.regs, x.slot, x.fp, x.width, false, []⟩] } := by
  refine State.group_modGroup _ ?_
  rw [State.group_foldl_postQ, group_begins, hg]

theorem filterMap_lim_limiting (I : Iss) (cs : List (Nat × Cause)) (lim : Nat → Nat) (accs : List Acc) :
    (accs.map (Acc.limiting I cs lim)).filterMap (fun a => a.lim) = accs.map fun a => I.t + max 4 (lim a.lane) := by
  rw [List.filterMap_map]
  exact congrFun (List.filterMap_eq_map (f := fun a : Acc => I.t + max 4 (lim a.lane))) accs

theorem Iss.load_limited_nil (h : isDemand I x = false) (h0 : accs = []) :
    I.load i x accs lim occ = I.ok { loadEff x occ with comp := .flag I.t } := by
  have h' : (decide (x.lsel = 0) || I.s.exactAt I.c I.G.ctx) = false := h
  subst h0
  unfold Iss.load
  rw [if_neg (by simp [h'])]
  rfl

theorem Iss.load_limited_cons (h : isDemand I x = false) (h0 : accs ≠ []) : I.load i x accs lim occ =
    let cs := I.accCauses accs (fun n => n) false []
    match accReport i I.S.pc accs (cs.filter fun p => !p.2.hides) with
    | some r => .stop (if r.scalar then r else { r with omask := (maskOf 96 fun l => cs.any fun p => p.1 == l) &&& ~~~r.cmask })
    | none => if 16 ≤ I.G.guesses.length then .hold I.s else .done (I.limitedBegun i x accs lim) (loadEff x occ) := by
  have h' : (decide (x.lsel = 0) || I.s.exactAt I.c I.G.ctx) = false := h
  unfold Iss.load
  rw [if_neg (by simp [h'])]
  dsimp only
  generalize accReport i I.S.pc accs _ = rep
  cases rep with
  | some r => rfl
  | none =>
    dsimp only
    rw [if_neg (by simpa using h0)]
    refine if_congr Iff.rfl rfl ?_
    rw [I.startChecks_addOp I.s rfl, Iss.limitedBegun,
      ← filterMap_lim_limiting I (I.accCauses accs (fun n => n) false []) lim accs]
    rfl

/-- A limited load issues, held back by the open guesses or stopped by a cause that no guess hides (R148, R164, R167). -/
theorem limitedIssues_of (hr : Ready s x.h u I) (hi : exec i s = issue x.h u s body) (hb : body I = I.load i x accs lim occ)
    (hd : isDemand I x = false) : LimitedIssues i x s I accs lim := by
  have hg := Iss.group_at hr.issuer
  unfold LimitedIssues
  dsimp only
  split
  · rename_i h0
    exact acts_fresh hr.issuer (acts_flag hr hi (hb.trans (Iss.load_limited_nil hd h0)) hg rfl rfl rfl rfl rfl)
  · rename_i h0
    rw [Iss.load_limited_cons hd h0] at hb
    dsimp only at hb
    split
    · rename_i r hrep
      rw [hrep] at hb
      refine ⟨_, ?_, ?_, ?_, ?_, ?_, stops_of hr hi hb⟩ <;> split <;> rfl
    · rename_i hrep
      rw [hrep] at hb
      dsimp only at hb
      split
      · rename_i hfull
        rw [if_pos hfull] at hb
        exact exec_held hr hi hb
      · rename_i hfull
        rw [if_neg hfull] at hb
        exact acts_later hr hi hb (Iss.group_limitedBegun hg) rfl rfl rfl rfl rfl

/-- The accesses of LDS and STS: one, of lane 0, while a lane is active (R153). -/
theorem Iss.oneAcc_eq (I : Iss) (r n : Nat) (off : Elem) : I.oneAcc r off n =
    if I.active = 0 then [] else [accOf 0 I.t (Ptr.advance (I.striple r).1 off.val.toInt) n ((I.striple r).2 || off.k)] := rfl

end

/-- What LD and LDG do. -/
theorem Iss.loadV_eq (I : Iss) (i : Instr) (x : LdA) : ∃ occ, I.loadV i x =
    I.load i x (lanesOf I x.a (loadOffset I x) (if x.lsel = 7 then x.width.bytes else 1) x.width.bytes)
      (fun l => if x.lsel = 7 then ((I.vsrc false x.b).at l).val.toNat else I.wlim x.lsel.val) occ := by
  rw [← I.laneAccs_load]
  exact ⟨_, rfl⟩

/-- What LDS does. -/
theorem execLds_eq {x : LdA} {r : Fin 126} (ha : x.a = .s r) (s : State) :
    execLds x s = issue x.h (Use.ofTriple { reads := [x.b] } x.a) s fun I =>
      I.load (.lds x) x (I.oneAcc r (I.sval false x.b) x.width.bytes) (fun _ => I.wlim x.lsel.val) 1 := by
  unfold execLds
  rw [ha]

/-- Settles O19: LD, LDG and LDS are one load of their accesses, which issues as its accesses fare or with limits. -/
theorem loadsIssue : Obligations.LoadsIssue := by
  refine ⟨fun x s I => ⟨fun hr hd => ?demand, fun r ha hr hd => ?demandOne⟩,
    fun x s I => ⟨fun hr hd => ?limited, fun r ha hr hd => ?limitedOne⟩⟩
  case demand =>
    obtain ⟨_, hld⟩ := I.loadV_eq (.ld x) x
    obtain ⟨_, hldg⟩ := I.loadV_eq (.ldg x) x
    exact ⟨accessIssues_load hr rfl hld hd, accessIssues_load hr rfl hldg hd⟩
  case demandOne => exact accessIssues_load hr (execLds_eq ha s) rfl hd
  case limited =>
    obtain ⟨_, hld⟩ := I.loadV_eq (.ld x) x
    obtain ⟨_, hldg⟩ := I.loadV_eq (.ldg x) x
    exact ⟨limitedIssues_of hr rfl hld hd, limitedIssues_of hr rfl hldg hd⟩
  case limitedOne => exact limitedIssues_of hr (execLds_eq ha s) rfl hd

/-! ## Stores -/

theorem State.commit_cores (s : State) (ctx crew : Nat) (w : BitVec 4) : (s.commit ctx crew w).cores = s.cores := by
  unfold State.commit
  split
  · rfl
  · split
    · rfl
    · dsimp only; split <;> rfl

theorem State.commitAhead_cores (s : State) (w : Who) (i : Instr) (accs : List Acc) : (s.commitAhead w i accs).cores = s.cores := by
  unfold State.commitAhead
  dsimp only
  split
  · rfl
  · split
    · exact s.commit_cores ..
    · rfl

/-- The commitment of a crew by a release beyond its core (R152). -/
def Iss.releases (I : Iss) (i : Instr) (s : State) : State :=
  match (accMode i).bind (·.rel) with
  | some sc => if scopeWide sc then s.commit I.G.ctx I.G.crew 1 else s
  | none => s

theorem Iss.releases_cores (I : Iss) (i : Instr) (s : State) : (I.releases i s).cores = s.cores := by
  unfold Iss.releases
  split
  · split
    · exact s.commit_cores ..
    · rfl
  · rfl

/-- A store or an atomic with accesses commits its crew by its release, and ahead of its accesses when they are to go through. -/
theorem Iss.commits_cons (I : Iss) (i : Instr) {accs : List Acc} (h : accs ≠ []) (r : Res) :
    I.commits i accs r = r.besides (I.releases i) fun s => s.commitAhead I.who i accs := by
  cases r with
  | done s e => exact if_neg (by simpa using h)
  | _ => rfl

theorem Iss.commits_nil (I : Iss) (i : Instr) {accs : List Acc} (h : accs = []) (r : Res) : I.commits i accs r = r := by
  cases r with
  | done s e => exact if_pos (by simpa using h)
  | _ => rfl

section
variable {i : Instr} {s : State} {h : Hdr} {u : Use} {I : Iss} {body : Iss → Res} {accs : List Acc} {marked : List Nat} {occ : Nat}

theorem accessIssues_store {more : State → State} (hr : Ready s h u I) (hi : exec i s = issue h u s body)
    (hb : body I = I.store i accs marked occ) (hm : accs ≠ [] → more = I.releases i) :
    AccessIssues i s I { opOf i I accs with args := if I.uses 2 && !marked.isEmpty then [1] else [] } true
      (if I.uses 2 then [] else marked) more fun s => s.commitAhead I.who i accs :=
  accessIssues_of hr hi (fun h0 => hb.trans (I.commits_nil i h0 _)) (fun h0 => by rw [hm h0]; exact hb.trans (I.commits_cons i h0 _))
    rfl rfl ⟨rfl, rfl, rfl, rfl⟩ (fun h0 s => by rw [hm h0]; exact I.releases_cores i s) fun s => s.commitAhead_cores ..

end

/-- What a release of ST and STS commits. -/
theorem Iss.releases_eq (I : Iss) {i : Instr} {rel : Bool} {sc : Scope} {accs : List Acc}
    (hi : (accMode i).bind (·.rel) = if rel then some sc else none) (h : accs ≠ []) :
    (fun s : State => if rel && (sc == .gang || sc == .dev || sc == .sys) && !accs.isEmpty then s.commit I.G.ctx I.G.crew 1 else s) =
      I.releases i := by
  have hne : accs.isEmpty = false := by simpa using h
  funext s
  unfold Iss.releases
  rw [hi, hne]
  cases rel
  · rfl
  · cases sc <;> rfl

/-- The accesses of ST and STG with their data, and the lanes whose data is marked. -/
theorem Iss.storeV_eq (I : Iss) (i : Instr) (x : StA) : let b := I.vsrc false x.b
    let accs := (lanesOf I x.a (fun l => ((b.at l).val, (b.at l).k)) 1 x.width.bytes).map fun a =>
      { a with data := (I.dataV x.d x.width.regs a.lane).1 }
    ∃ occ, I.storeV i x = I.store i accs ((accs.filter fun a => (I.dataV x.d x.width.regs a.lane).2).map (·.lane)) occ := by
  intro b accs
  have hacc : accs = (I.laneAccs x.a (fun l => ((b.at l).val.toInt, (b.at l).k)) x.width.bytes).map fun a =>
      { a with data := (I.dataV x.d x.width.regs a.lane).1 } := by
    rw [I.laneAccs_bytes]
  rw [hacc]
  exact ⟨_, rfl⟩

theorem Iss.oneAcc_data (I : Iss) (r n : Nat) (off : Elem) (v : BitVec 128) : (I.oneAcc r off n).map (fun a => { a with data := v }) =
    if I.active = 0 then [] else
      [{ accOf 0 I.t (Ptr.advance (I.striple r).1 off.val.toInt) n ((I.striple r).2 || off.k) with data := v }] := by
  rw [I.oneAcc_eq]
  split <;> rfl

/-- Instructions whose bodies say the same issue alike. -/
theorem issue_congr {h : Hdr} {u : Use} {s : State} {f g : Iss → Res} (hfg : ∀ I, f I = g I) : issue h u s f = issue h u s g :=
  congrArg (issue h u s) (funext hfg)

/-- What STS does. -/
theorem execSts_eq {x : StA} {r : Fin 126} (ha : x.a = .s r) (s : State) :
    exec (.sts x) s = issue x.h (Use.ofTriple { reads := [x.b, x.d], sr := match x.d with
        | .s k => [(k.val, x.width.regs)]
        | _ => [] } x.a) s fun I =>
      let b := I.sval false x.b
      let d := I.dataS x.d x.width.regs
      let accs := if I.active = 0 then [] else
        [{ accOf 0 I.t (Ptr.advance (I.striple r).1 b.val.toInt) x.width.bytes ((I.striple r).2 || b.k) with data := d.1 }]
      I.store (.sts x) accs (if d.2 then accs.map (·.lane) else []) 1 := by
  have h : execSts x s = exec (.sts x) s := rfl
  rw [← h, execSts, ha]
  refine issue_congr fun I => ?_
  dsimp only
  rw [I.oneAcc_data]

/-- Settles O20: ST, STG and STS are one store of their accesses with their data, which issues as its accesses fare and commits the crew
beside it. -/
theorem storesIssue : Obligations.StoresIssue := by
  refine fun x s I => ⟨fun hr => ?lanes, fun r ha hr => ?one⟩
  case lanes =>
    obtain ⟨_, hst⟩ := I.storeV_eq (.st x) x
    obtain ⟨_, hstg⟩ := I.storeV_eq (.stg x) x
    exact ⟨accessIssues_store hr rfl hst (I.releases_eq rfl), accessIssues_store hr rfl hstg fun _ => rfl⟩
  case one => exact accessIssues_store (i := .sts x) hr (execSts_eq ha s) rfl (I.releases_eq rfl)

/-! ## Rows, prefetches and limits -/

@[simp] theorem State.group_homeWrite (s : State) (xs : List (Nat × Byte)) (c g : Nat) : (s.homeWrite xs).group? c g = s.group? c g :=
  State.group_congr (State.note_cores ..) c g

@[simp] theorem State.group_setL1 (s : State) (d : Nat) (ls : List Line) (c g : Nat) : (s.setL1 d ls).group? c g = s.group? c g :=
  State.group_modCore (f := fun k => { k with caches := { k.caches with l1 := ls } }) fun _ => rfl

/-- A line brought into an L1 leaves every group (R385). -/
@[simp] theorem State.group_fillL1 (s : State) (d ctx va pa c g : Nat) : (s.fillL1 d ctx va pa).group? c g = s.group? c g := by
  unfold State.fillL1
  split
  · rfl
  · dsimp only
    split
    · exact State.group_setL1 ..
    · split
      · rw [State.group_setL1]
        split
        · exact State.group_homeWrite ..
        · rfl
      · exact State.group_setL1 ..

/-- A line prefetched leaves every group (R159). -/
theorem State.group_prefetchLine (s : State) (w : Who) (home : Bool) (p : Ptr) (c g : Nat) :
    (s.prefetchLine w home p).group? c g = s.group? c g := by
  unfold State.prefetchLine
  split
  · split
    · rfl
    · exact State.group_fillL1 ..
  · rfl

theorem State.group_foldl_prefetchLine (w : Who) (home : Bool) (accs : List Acc) (s : State) (c g : Nat) :
    (accs.foldl (fun (s : State) a => s.prefetchLine w home a.ptr) s).group? c g = s.group? c g := by
  induction accs generalizing s with
  | nil => rfl
  | cons a accs ih => exact (ih _).trans (s.group_prefetchLine ..)

/-- What PREF hands over, its accesses holding the unit for some cycles. -/
def prefEff (I : Iss) (occ : Nat) : Eff := { comp := .flag I.t, occ := occ, unit := .lsu, charge := 2 + 2 * occ }

/-- PREF is stopped by a marked address, or brings its lines in (R159). -/
theorem pref_spec {x : PrefA} {s : State} {I : Iss} (hr : Ready s x.h (Use.ofTriple { reads := [x.b] } x.a) I) :
    let b := I.vsrc false x.b
    let accs := lanesOf I x.a (fun l => ((b.at l).val, (b.at l).k)) 1 1
    match accReport (.pref x) I.S.pc accs (accs.filterMap fun a => a.cause.map fun c => (a.lane, c)) with
    | some r => Stops (.pref x) s I r
    | none => Acts (.pref x) s I (accs.foldl (fun (s : State) a => s.prefetchLine I.who x.home a.ptr) I.s) (I.Flags · (I.t + 1)) := by
  intro b accs
  have hacc : accs = I.laneAccs x.a (fun l => ((b.at l).val.toInt, (b.at l).k)) 1 := (I.laneAccs_bytes ..).symm
  have hg := (State.group_foldl_prefetchLine I.who x.home accs I.s I.c I.g).trans (Iss.group_at hr.issuer)
  rw [hacc] at hg ⊢
  split
  · rename_i r hrep
    refine stops_of hr rfl ?_
    dsimp only
    rw [hrep]
  · rename_i hrep
    let occ := match x.a with
      | .s _ => 1
      | .v _ => I.occupancy (I.laneAccs x.a (fun l => ((b.at l).val.toInt, (b.at l).k)) 1)
    refine acts_flag (e := prefEff I occ) hr rfl ?_ hg rfl rfl rfl rfl rfl
    dsimp only
    rw [hrep]
    rfl

/-- LIMSET (R160). -/
theorem limset_spec {x : LimA} {s : State} {I : Iss} (hr : Ready s x.h { reads := [x.a], all := true } I) :
    let a := I.sval true x.a
    if I.qok = true ∧ a.k = true then Stops (.limset x) s I I.kAll
    else Computes (.limset x) s I (I.t + 1) (I.guarded [.spec .wl x.n.val a.val]) := by
  intro a
  split
  · rename_i h
    refine stops_of hr rfl ?_
    rw [h.1]
    exact if_pos h.2
  · rename_i h
    rw [Iss.guarded]
    cases hq : I.qok with
    | false =>
      refine computes_of (e := { unit := .lsu, charge := 4 }) hr rfl ?_ (.inr ⟨0, rfl, rfl⟩) rfl rfl rfl
      rw [hq]
      rfl
    | true =>
      have hk : ¬ a.k = true := fun hk => h ⟨hq, hk⟩
      refine computes_of (e := { ws := [.spec .wl x.n.val a.val], unit := .lsu, charge := 4 }) hr rfl ?_ (.inr ⟨0, rfl, rfl⟩) rfl rfl rfl
      rw [hq]
      exact if_neg hk

/-- Settles O21: LDL and STL as accesses, PREF line by line, LIMSET as a write of a limit register. -/
theorem rowPrefetchAndLimitIssue : Obligations.RowPrefetchAndLimitIssue := by
  refine ⟨fun x s I => ⟨fun hr => ?ldl, fun hr => ?stl⟩, fun x s I hr => pref_spec hr, fun x s I hr => limset_spec hr⟩
  case ldl => exact accessIssues_plain hr rfl rfl rfl rfl ⟨rfl, rfl, rfl, rfl⟩
  case stl => exact accessIssues_plain hr rfl rfl rfl rfl ⟨rfl, rfl, rfl, rfl⟩

end Sys2Proof.Machine
end

section
/-! SUPPORT. Page walks that end and operations that are asked again (R140, R141, R144, R187), and the settling of O41. -/

namespace Sys2Proof.Machine

open Sys2Proof

/-! ## What changes no table -/

/-- What a walk reads is as it was, and so are the cores. -/
structure State.SameTables (s t : State) : Prop where
  mem : t.mem = s.mem
  ueLines : t.ueLines = s.ueLines
  poisoned : t.poisoned = s.poisoned
  ctxs : t.ctxs = s.ctxs
  cores : t.cores = s.cores

theorem State.SameTables.refl (s : State) : s.SameTables s := ⟨rfl, rfl, rfl, rfl, rfl⟩

theorem State.SameTables.trans {s t u : State} (a : s.SameTables t) (b : t.SameTables u) : s.SameTables u :=
  ⟨b.mem.trans a.mem, b.ueLines.trans a.ueLines, b.poisoned.trans a.poisoned, b.ctxs.trans a.ctxs, b.cores.trans a.cores⟩

/-- A walk reads memory, its uncorrectable lines, the poisoned tables and the root of its context. -/
theorem State.SameTables.walk {s t : State} (h : s.SameTables t) (n va : Nat) : t.walk n va = s.walk n va := by
  unfold State.walk
  rw [h.mem, h.ueLines, h.poisoned, State.ctx_congr h.ctxs]

theorem State.sameTables_modQuad (s : State) (q : Nat) (f : Quad → Quad) : s.SameTables (s.modQuad q f) := ⟨rfl, rfl, rfl, rfl, rfl⟩

theorem State.sameTables_freeNat (s : State) : s.SameTables s.freeNat.2 := ⟨rfl, rfl, rfl, rfl, rfl⟩

theorem State.sameTables_beginWalk (s : State) (w : Walk) (n : Nat) : s.SameTables (s.beginWalk w n) := by
  unfold State.beginWalk
  dsimp only
  split <;> exact ⟨rfl, rfl, rfl, rfl, rfl⟩

/-! ## Room for the miss queued longest -/

theorem State.nextWalk_nil {s : State} {q : Nat} (h : (s.quad q).walkQ = []) : s.nextWalk q = s := by
  unfold State.nextWalk
  rw [h]

theorem State.nextWalk_cons {s : State} {q : Nat} {v : Walk} {vs : List Walk} (h : (s.quad q).walkQ = v :: vs) :
    s.nextWalk q = (s.freeNat.2.modQuad q fun x => { x with walkQ := vs }).beginWalk v s.freeNat.1 := by
  unfold State.nextWalk
  rw [h]

theorem State.sameTables_nextWalk (s : State) (q : Nat) : s.SameTables (s.nextWalk q) := by
  cases h : (s.quad q).walkQ with
  | nil => rw [State.nextWalk_nil h]; exact .refl s
  | cons v vs =>
    rw [State.nextWalk_cons h]
    exact (s.sameTables_freeNat.trans (State.sameTables_modQuad ..)).trans (State.sameTables_beginWalk ..)

/-- A walk that begins while the walker has room. -/
theorem State.beginWalk_quad {s : State} {w : Walk} (n : Nat) (hq : quadOf w.core < 16)
    (h : (s.quad (quadOf w.core)).walks.length < State.walkers) : (s.beginWalk w n).quad (quadOf w.core) =
      { s.quad (quadOf w.core) with walks := (s.quad (quadOf w.core)).walks ++ [w] } := by
  unfold State.beginWalk
  dsimp only
  rw [if_pos h]
  exact State.quad_modQuad s _ (fun x => { x with walks := x.walks ++ [w] }) hq

/-- The quadrant without a walk that has ended. -/
def Quad.endWalk (x : Quad) (id : Nat) : Quad := { x with walks := x.walks.filter fun v => v.id != id }

theorem Quad.length_endWalk {x : Quad} {w : Walk} (h : w ∈ x.walks) : (x.endWalk w.id).walks.length < x.walks.length :=
  List.length_filter_lt_length_iff_exists.mpr ⟨w, h, by simp⟩

/-- The state in which a walk that has ended has made room. -/
def State.walkRoom (s : State) (q id : Nat) : State := (s.modQuad q (Quad.endWalk · id)).nextWalk q

theorem State.sameTables_walkRoom (s : State) (q id : Nat) : s.SameTables (s.walkRoom q id) :=
  (s.sameTables_modQuad q (Quad.endWalk · id)).trans (State.sameTables_nextWalk ..)

theorem State.quad_lt {s : State} {q : Nat} {w : Walk} (h : w ∈ (s.quad q).walks) : q < 16 := by
  by_contra hq
  have hreset : s.quad q = Quad.reset := by rw [State.quad, Vector.getElem?_eq_none (by omega)]; rfl
  rw [hreset] at h
  cases h

/-- With an empty queue nothing follows a walk. -/
theorem State.walkRoom_nil {s : State} {q : Nat} (id : Nat) (hq : q < 16) (h : (s.quad q).walkQ = []) :
    (s.walkRoom q id).quad q = (s.quad q).endWalk id := by
  have hquad := State.quad_modQuad s q (Quad.endWalk · id) hq
  rw [State.walkRoom, State.nextWalk_nil (by rw [hquad]; exact h), hquad]

/-- A miss queued takes the walk that has come free. -/
theorem State.walkRoom_cons {s : State} {w v : Walk} {vs : List Walk} (hw : w ∈ (s.quad (quadOf v.core)).walks)
    (h : (s.quad (quadOf v.core)).walkQ = v :: vs) (hlen : (s.quad (quadOf v.core)).walks.length ≤ State.walkers) :
    (s.walkRoom (quadOf v.core) w.id).quad (quadOf v.core) =
      { s.quad (quadOf v.core) with walkQ := vs, walks := ((s.quad (quadOf v.core)).endWalk w.id).walks ++ [v] } := by
  have hq := State.quad_lt hw
  have hquad := State.quad_modQuad s (quadOf v.core) (Quad.endWalk · w.id) hq
  let s1 := s.modQuad (quadOf v.core) (Quad.endWalk · w.id)
  have hquad' := State.quad_modQuad s1.freeNat.2 (quadOf v.core) (fun x => { x with walkQ := vs }) hq
  have hsame : s1.freeNat.2.quad (quadOf v.core) = (s.quad (quadOf v.core)).endWalk w.id := hquad
  rw [hsame] at hquad'
  rw [State.walkRoom, State.nextWalk_cons (by rw [hquad]; exact h), State.beginWalk_quad _ hq, hquad']
  · rfl
  · rw [hquad']
    exact Nat.lt_of_lt_of_le (Quad.length_endWalk hw) hlen

/-! ## What a walk finds -/

/-- A walk with its marking answers as the walk does. -/
theorem State.walkMark_fst (s : State) (n va : Nat) : (s.walkMark n va).1 = s.walk n va := by
  obtain ⟨f, hf⟩ : ∃ f, f = @State.walkMark := ⟨_, rfl⟩
  rw [← hf]
  delta State.walkMark at hf
  rw [congrFun (congrFun (congrFun hf s) n) va]
  generalize s.walk n va = w
  rcases w with e | ⟨k, _ | ⟨b, z⟩⟩ <;> rfl

theorem State.poison_quads (s : State) (n b z : Nat) : (s.poison n b z).quads = s.quads := by
  unfold State.poison
  split
  · rfl
  · split <;> rfl

theorem State.walkMark_quads (s : State) (n va : Nat) : (s.walkMark n va).2.quads = s.quads := by
  rcases s.walkMark_cases n va with h | ⟨k, b, z, h⟩
  · rw [h]
  · rw [h]; exact s.poison_quads n b z

/-- An operation of a core whose walk has found a fault: its accesses that wait for the page fail (R140). -/
def State.failWalk (s : State) (w : Walk) (k : Cause) (o : Op) : Op :=
  if (s.opWho w.core o).ctx = w.ctx && (o.stage == .check || o.stage == .lent || o.stage == .performed) then
    { o with accs := o.accs.map fun a =>
        if a.cause.isNone && a.arr.isNone && Ptr.space a.ptr == 0 && Ptr.module a.ptr == Config.thisModule &&
          Ptr.local a.ptr / 4096 == w.va / 4096 then { a with cause := some k } else a }
  else o

/-- A page walk that ends, by what it finds. In the proof a variable stands for `walkMark`, whose walk of a variable memory the kernel would
run. -/
theorem execPageWalkComplete_eq {s : State} {q id : Nat} {w : Walk} (h : (s.quad q).walks.find? (fun v => v.id == id) = some w) :
    exec (.pageWalkComplete q id) s = .next (let m := (s.walkRoom q id).walkMark w.ctx w.va
      match m.1 with
      | .ok e => m.2.fillTlb w.core e
      | .fault k _ =>
        if w.keep then m.2.modCore w.core fun x =>
          { x with badWalks := ⟨w.ctx, w.va, k, m.2.now w.core⟩ :: x.badWalks.filter fun b => m.2.now w.core ≤ b.at' + 1 }
        else m.2.modCore w.core fun x => { x with ops := x.ops.map (m.2.failWalk w k) }) := by
  have hx : exec (.pageWalkComplete q id) s = execPageWalkComplete q id s := rfl
  obtain ⟨f, hf⟩ : ∃ f, f = @State.walkMark := ⟨_, rfl⟩
  rw [hx, execPageWalkComplete, ← hf, h]
  unfold State.walkRoom Quad.endWalk
  dsimp only
  generalize f _ w.ctx w.va = m
  rcases m with ⟨e | ⟨k, b⟩, u⟩
  · rfl
  · dsimp only
    split <;> rfl

/-! ## The TLBs -/

theorem State.mem_keep {α : Type} (n cap : Nat) (x : α) (xs : List α) : x ∈ State.keep n cap x xs := by
  unfold State.keep
  split <;> exact List.mem_cons_self

theorem State.mem_fillTlb (s : State) {c : Nat} (hc : c < 768) (e : Tlbe) : e ∈ ((s.fillTlb c e).core c).caches.tlb := by
  unfold State.fillTlb
  dsimp only
  rw [State.core_congr (State.modQuad_cores ..), State.core_modCore _ _ _ hc]
  exact State.mem_keep ..

/-- The walker of a quadrant and its queue are as they were. -/
def State.SameWalks (s t : State) : Prop := ∀ q, (t.quad q).walks = (s.quad q).walks ∧ (t.quad q).walkQ = (s.quad q).walkQ

theorem State.sameWalks_of_quads {s t : State} (h : t.quads = s.quads) : s.SameWalks t := fun q => by
  rw [State.quad, State.quad, h]
  exact ⟨rfl, rfl⟩

theorem State.sameWalks_fillTlb (s : State) (c : Nat) (e : Tlbe) : s.SameWalks (s.fillTlb c e) := by
  intro q
  unfold State.fillTlb
  dsimp only
  by_cases h : q = quadOf c
  · subst h
    by_cases hq : quadOf c < 16
    · rw [State.quad_modQuad _ _ _ hq]
      exact ⟨rfl, rfl⟩
    · simp only [State.quad, Vector.getElem?_eq_none (by omega : 16 ≤ quadOf c), and_self]
  · rw [State.quad_modQuad_ne _ _ _ _ h]
    exact ⟨rfl, rfl⟩

/-! ## Operations whose accesses wait for a page -/

section
variable (s : State) (w : Walk) (k : Cause) (o : Op)

@[simp] theorem State.failWalk_stage : (s.failWalk w k o).stage = o.stage := by
  unfold State.failWalk
  split <;> rfl

@[simp] theorem State.opWho_failWalk (t : State) (c : Nat) : t.opWho c (s.failWalk w k o) = t.opWho c o := by
  unfold State.failWalk
  split <;> rfl

end

theorem State.opWho_congr {s t : State} (h : t.cores = s.cores) (c : Nat) (o : Op) : t.opWho c o = s.opWho c o := by
  unfold State.opWho
  rw [State.group_congr h]

/-- An access that waits for the page fails with the walk. -/
theorem State.failWalk_cause {s : State} {w : Walk} {o : Op} {a : Acc} (k : Cause) (hst : o.stage = .check)
    (hctx : (s.opWho w.core o).ctx = w.ctx) (ha : a ∈ (s.failWalk w k o).accs) (harr : a.arr = none) (hsp : Ptr.space a.ptr = 0)
    (hm : Ptr.module a.ptr = Config.thisModule) (hp : Ptr.local a.ptr / 4096 = w.va / 4096) : a.cause.isSome = true := by
  rw [State.failWalk, if_pos (by simp [hctx, hst])] at ha
  obtain ⟨b, -, rfl⟩ := List.mem_map.mp ha
  split
  · rfl
  · rename_i h
    rw [if_neg h] at harr hsp hm hp
    simp only [harr, hsp, hm, hp, Option.isNone_none, beq_self_eq_true, Bool.and_true, Option.isNone_iff_eq_none] at h
    exact Option.ne_none_iff_isSome.mp h

/-- What a page walk that ends leaves of the walker, and finds (R140, R141). -/
theorem pageWalkComplete_runs {s : State} {q id : Nat} {w : Walk} (h : (s.quad q).walks.find? (fun v => v.id == id) = some w)
    (hc : w.core < 768) :
    Runs (.pageWalkComplete q id) s fun t => t.mem = s.mem ∧ (s.walkRoom q id).SameWalks t ∧
      match s.walk w.ctx w.va with
      | .ok e => e ∈ (t.core w.core).caches.tlb
      | .fault k _ => if w.keep then ∃ b ∈ (t.core w.core).badWalks, b.ctx = w.ctx ∧ b.va = w.va ∧ b.cause = k
        else ∀ o ∈ (t.core w.core).ops, o.stage = .check → (s.opWho w.core o).ctx = w.ctx → ∀ a ∈ o.accs, a.arr = none →
          Ptr.space a.ptr = 0 → Ptr.module a.ptr = Config.thisModule → Ptr.local a.ptr / 4096 = w.va / 4096 → a.cause.isSome = true := by
  have htab := s.sameTables_walkRoom q id
  obtain ⟨hmem, -, hcores⟩ := (s.walkRoom q id).walkMark_frame w.ctx w.va
  have hquads := State.sameWalks_of_quads ((s.walkRoom q id).walkMark_quads w.ctx w.va)
  refine ⟨_, execPageWalkComplete_eq h, ?_⟩
  rw [← htab.walk w.ctx w.va, ← State.walkMark_fst]
  generalize (s.walkRoom q id).walkMark w.ctx w.va = m at hmem hcores hquads ⊢
  have hwho (c : Nat) (o : Op) : m.2.opWho c o = s.opWho c o := State.opWho_congr (hcores.trans htab.cores) c o
  rcases m with ⟨e | ⟨k, b⟩, u⟩
  · refine ⟨hmem.trans htab.mem, fun r => ?_, u.mem_fillTlb hc e⟩
    exact ⟨(u.sameWalks_fillTlb w.core e r).1.trans (hquads r).1, (u.sameWalks_fillTlb w.core e r).2.trans (hquads r).2⟩
  · dsimp only
    split
    · refine ⟨hmem.trans htab.mem, hquads, ⟨w.ctx, w.va, k, u.now w.core⟩, ?_, rfl, rfl, rfl⟩
      rw [State.core_modCore _ _ _ hc]
      exact List.mem_cons_self
    · refine ⟨hmem.trans htab.mem, hquads, fun o ho hst hctx a ha => ?_⟩
      rw [State.core_modCore _ _ _ hc] at ho
      obtain ⟨o, -, rfl⟩ := List.mem_map.mp ho
      rw [State.failWalk_stage] at hst
      rw [State.opWho_failWalk, ← hwho] at hctx
      exact State.failWalk_cause k hst hctx ha

/-! ## Operations asked again -/

/-- A core changed twice. -/
theorem State.modCore_modCore (s : State) (c : Nat) (f g : Core → Core) : (s.modCore c f).modCore c g = s.modCore c fun k => g (f k) := by
  by_cases hc : c < 768
  · rw [State.modCore, State.core_modCore _ _ _ hc]
    exact congrArg (fun v => { s with cores := v }) (Vector.setIfInBounds_setIfInBounds ..)
  · have h (s : State) (k : Core) : s.setCore c k = s :=
      congrArg (fun v => { s with cores := v }) (Vector.setIfInBounds_eq_of_size_le (by omega))
    simp only [State.modCore, h]

/-- An operation changed twice. -/
theorem State.modOp_modOp (s : State) (c id : Nat) (f : Op → Op) {g : Op → Op} (hg : ∀ o, (g o).id = o.id) :
    (s.modOp c id g).modOp c id f = s.modOp c id fun o => f (g o) := by
  refine (s.modCore_modCore c _ _).trans (congrArg (s.modCore c) (funext fun k => ?_))
  refine congrArg (fun l => { k with ops := l }) ?_
  rw [List.map_map]
  refine List.map_congr_left fun o _ => ?_
  by_cases h : o.id = id
  · simp only [Function.comp_apply, if_pos h, hg]
  · simp only [Function.comp_apply, if_neg h]

/-- R187: an access that has waited on a LENT region checks again from this cycle on. -/
theorem execLentStallRelease_eq {s : State} {c id : Nat} {o : Op} (ho : s.op? c id = some o) (hst : o.stage = .lent) :
    exec (.lentStallRelease c id) s = .next ((s.modOp c id fun o =>
      { o with stage := .check, accs := o.accs.map fun a => { a with start := max a.start (s.now c) } }).postQ c (s.now c)
        (.accessCheckComplete c id)) := by
  have hx : exec (.lentStallRelease c id) s = execLentStallRelease c id s := rfl
  rw [hx, execLentStallRelease, ho]
  dsimp only
  rw [if_pos hst, State.restartOp, State.modOp_modOp]
  · rfl
  · exact fun _ => rfl

/-- An operation whose cycle has come is asked. -/
theorem execAccessCheckComplete_eq {s : State} {c id : Nat} {o : Op} (ho : s.op? c id = some o)
    (hst : o.stage = .check ∨ o.stage = .waiting ∨ o.stage = .performed) :
    exec (.accessCheckComplete c id) s = .next (s.askOp c o) := by
  have hx : exec (.accessCheckComplete c id) s = execAccessCheckComplete c id s := rfl
  rw [hx, execAccessCheckComplete, ho]
  exact if_pos (by rcases hst with h | h | h <;> rw [h] <;> rfl)

/-- Settles O41: what a walk that ends leaves of the walker, by its queue, and finds, by the walk; the operations asked again. -/
theorem accessEvents : Obligations.AccessEvents := by
  refine ⟨fun s q id w hw hc => ?_, fun s c id o ho => ⟨execLentStallRelease_eq ho, execAccessCheckComplete_eq ho⟩⟩
  have hmem := List.mem_of_find?_eq_some hw
  have hid : w.id = id := by simpa using List.find?_some hw
  obtain ⟨t, hx, hm, hwalks, hfound⟩ := pageWalkComplete_runs hw hc
  refine ⟨t, hx, hm, fun h => ?_, fun v vs h hv hlen => ?_, hfound⟩
  · rw [(hwalks q).1, State.walkRoom_nil id (State.quad_lt hmem) h]
    rfl
  · subst hv hid
    rw [(hwalks _).1, (hwalks _).2, State.walkRoom_cons hmem h hlen]
    exact ⟨List.mem_append_right _ List.mem_cons_self, rfl⟩

end Sys2Proof.Machine
end

section
/-! SUPPORT. Marks, open guesses by the states of their lanes (R164, R176, R177), and the settling of O22 and O23. -/

namespace Sys2Proof.Machine

open Sys2Proof

/-! ## Effects that are visible after their last pass -/

/-- E + 1 is the cycle that follows all passes (R61, R62). -/
theorem Iss.last_add_one (I : Iss) {e : Eff} {n : Nat} (he : e.occ = n) (h : 0 < n) : I.t + n = I.last e + 1 + 0 := by
  simp only [Iss.last]; omega

/-- Marks are written in the short class, and nothing else becomes of the instruction that writes them. -/
theorem Iss.markEff_spec {I : Iss} (hP : 0 < I.P) (d : KReg) :
    (I.markEff d).comp = .short 0 ∧ (I.markEff d).flow = .next ∧ (I.markEff d).after = none ∧ (I.markEff d).serviced = none ∧
      0 < (I.markEff d).occ := by
  unfold Iss.markEff
  split
  · exact ⟨rfl, rfl, rfl, rfl, Nat.one_pos⟩
  · exact ⟨rfl, rfl, rfl, rfl, hP⟩

/-! ## KTEST -/

/-- KTEST: the marks of the active lanes, or whether one of them is set. -/
theorem Iss.ktestWrites_eq (I : Iss) (x : KtestA) (k : Lanes) :
    (if !x.anyLane then [.pred x.d I.active k 0] else if I.qok then [.qbit x.d (k &&& I.active != 0)] else []) =
      if x.anyLane then I.guarded [.qbit x.d ((List.range 96).any fun l => I.active.getLsbD l && k.getLsbD l)]
      else [RegWrite.pred x.d I.active k 0] := by
  rw [and_ne_zero_eq_any]
  cases x.anyLane <;> rfl

/-! ## KACCEPT, KABANDON, KMARK -/

/-- Closing guesses leaves the splits of the group. -/
theorem Iss.group_closes {I : Iss} (ps : List (Nat × Nat)) (hg : I.s.group? I.c I.g = some I.G) :
    ∃ G, (I.s.modGroup I.c I.g fun G => G.closeLanes ps).group? I.c I.g = some G ∧ G.splits = I.G.splits :=
  ⟨_, State.group_modGroup _ hg, rfl⟩

section
variable {x : KsetA} {s : State} {I : Iss} (hr : Ready s x.h (KReg.use x.d) I)
include hr

theorem kmark_spec : Computes (.kmark x) s I (I.t + (I.markEff x.d).occ) (I.setMark x.d true) := by
  obtain ⟨hc, hf, ha, hs, ho⟩ := Iss.markEff_spec (Iss.passes_pos hr.issuer) x.d
  exact computes_of (e := { I.markEff x.d with ws := I.setMark x.d true }) hr rfl rfl (.inr ⟨0, hc, I.last_add_one rfl ho⟩) hf ha hs

theorem kaccept_spec : Acts (.kaccept x) s I (I.s.modGroup I.c I.g fun G => G.closeLanes (I.closes x.d))
    (I.Flies · (I.t + (I.markEff x.d).occ) (I.setMark x.d false)) := by
  obtain ⟨hc, hf, ha, hs, ho⟩ := Iss.markEff_spec (Iss.passes_pos hr.issuer) x.d
  obtain ⟨G, hG, hsp⟩ := Iss.group_closes (I.closes x.d) (Iss.group_at hr.issuer)
  exact acts_flies (e := { I.markEff x.d with ws := I.setMark x.d false }) hr rfl rfl hG hsp (.inr ⟨0, hc, I.last_add_one rfl ho⟩)
    hf ha hs

theorem kabandon_spec : Acts (.kabandon x) s I (I.s.modGroup I.c I.g fun G => G.closeLanes (I.closes x.d)) (I.Flags · (I.t + 2)) := by
  obtain ⟨G, hG, hsp⟩ := Iss.group_closes (I.closes x.d) (Iss.group_at hr.issuer)
  exact acts_flag hr rfl rfl hG hsp rfl rfl rfl rfl

end

/-! ## Guessed lanes by their states -/

theorem GState.outstanding?_eq (x : GState) : x.outstanding? = (x == .outstanding) := by
  cases x <;> rfl

/-- Table 9 of chapter 8: KSTAT.SUM counts among the entries that have landed. -/
theorem Group.kstatSum_eq (G : Group) :
    let gs := G.guesses.filter fun e => e.landed
    G.kstatSum = BitVec.ofNat 32 ((if 16 ≤ G.guesses.length then 2 ^ 31 else 0) +
      gs.countP (fun e => e.lanes.any fun l => l.st == .outstanding) * 2 ^ 24 +
      gs.countP (fun e => !e.lanes.isEmpty && e.lanes.all fun l => l.st.value?.isSome) * 2 ^ 16 +
      gs.countP (fun e => e.lanes.any fun l => l.st.fault?.isSome) * 2 ^ 8 + G.guesses.length) := by
  simp only [Group.kstatSum, List.countP_filter, GState.outstanding?_eq, Bool.and_assoc, Bool.and_comm (Guess.landed _)]

/-- Settles O22: KTEST, KMARK and KSTAT as computations, KACCEPT and KABANDON on the state with the guesses closed. -/
theorem guessMarkResults : Obligations.GuessMarkResults := by
  refine ⟨?ktest, ?kset, ?kstat⟩
  case ktest =>
    intro x s I hr k
    rw [← I.ktestWrites_eq x k]
    have hP := Iss.passes_pos hr.issuer
    exact computes_of (e := { ws := _, occ := I.P, unit := .vec, charge := _ }) hr rfl rfl
      (.inr ⟨0, rfl, I.last_add_one rfl hP⟩) rfl rfl rfl
  case kset =>
    intro x s I hr marks due cut
    have hmarks (k : Bool) : I.setMark x.d k = marks k := by
      dsimp only [marks, Iss.setMark]
      rcases x.d with a | i
      · cases a <;> rfl
      · rfl
    have hdue : I.t + (I.markEff x.d).occ = due := by
      dsimp only [due, Iss.markEff]
      rcases x.d with a | i
      · cases a <;> rfl
      · rfl
    rw [← hmarks, ← hmarks, ← hdue]
    exact ⟨kmark_spec hr, kaccept_spec hr, kabandon_spec hr⟩
  case kstat =>
    intro x s I hr
    dsimp only
    rw [← I.G.kstatSum_eq]
    obtain ⟨h, fn, d, a⟩ := x
    cases fn <;> exact computes_scalar hr rfl rfl

/-! ## KDEMAND -/

@[simp] theorem State.group_stepIssued (s : State) (c g d n : Nat) : (s.stepIssued c g).group? d n = s.group? d n := by
  unfold State.stepIssued
  split
  · split <;> rfl
  · rfl

/-- R176: K_FAULTED carries the worst of the lanes' causes as ORIG. -/
theorem Iss.kFaulted_spec (I : Iss) {fs : List (Nat × Cause)} (hfs : fs ≠ []) (p : Ptr) :
    ∃ r, I.kFaulted fs p = some r ∧ r.cause = .kFaulted ∧ some r.orig = (worst fs).map Cause.code ∧ r.pc = I.S.pc := by
  obtain ⟨x, xs, rfl⟩ := List.exists_cons_of_ne_nil hfs
  obtain ⟨q, -, hw, -⟩ := worst_cons x xs
  rw [Iss.kFaulted, Report.ofLanes, hw]
  exact ⟨_, rfl, rfl, rfl, rfl⟩

/-- What KDEMAND hands over that delivers. -/
def Iss.deliveryEff (I : Iss) (ps : List (Guess × GLane)) : Eff :=
  { comp := .long (I.t + 2), ws := deliveries ps, unit := .lsu, charge := 4, claims := ps.map fun p => (p.1.id, p.2.lane) }

/-- How KDEMAND ends whose lanes are neither waited for, nor uncorrectable, nor read again: by the report of its FAULTED lanes, or by
the delivery. -/
def Iss.demandEnds (I : Iss) (ps : List (Guess × GLane)) : Option Report → Res
  | some r => .stopOn (I.s.modGroup I.c I.g fun G => { G with kretry := some I.S.pc }) r
  | none => .done ((I.s.modGroup I.c I.g fun G => { G with kretry := none }).stepIssued I.c I.g) (I.deliveryEff ps)

/-- An instruction that a fault stops, on a state that remembers something for the next issue. -/
theorem exec_stopOn {i : Instr} {s t : State} {h : Hdr} {u : Use} {I : Iss} {body : Iss → Res} {r : Report} (hr : Ready s h u I)
    (hi : exec i s = issue h u s body) (hb : body I = .stopOn t r) : exec i s = .next (t.clearIssue.takeStop I.c I.g r) := by
  rw [hi, issue_ready hr, hb]; rfl

/-- Settles O23: KDEMAND branch by branch, by the states of the open lanes that it names. -/
theorem demandDeliversGuesses : Obligations.DemandDeliversGuesses := by
  intro x s I hr ps fs keep
  have hout : (ps.any fun p => p.2.st.outstanding?) = ps.any fun p => p.2.st == .outstanding := by simp only [GState.outstanding?_eq]
  have hue : (fs.any fun f => f.2 == .ueData) = true ↔ .ueData ∈ fs.map (·.2) := by simp
  have hagain : (!fs.isEmpty && I.G.kretry == some I.S.pc) = true ↔ fs ≠ [] ∧ I.G.kretry = some I.S.pc := by simp
  let ptr : Ptr := ((ps.find? fun p => p.2.st.fault?.isSome).map fun p => p.2.ptr).getD 0
  by_cases hwait : (ps.any fun p => p.2.st == .outstanding) = true
  · rw [if_pos hwait]
    exact exec_held hr rfl (if_pos (hout.trans hwait))
  rw [if_neg hwait]
  rw [← hout] at hwait
  by_cases hbad : .ueData ∈ fs.map (·.2)
  · rw [if_pos hbad]
    exact consumes_of hr rfl ((if_neg hwait).trans (if_pos (hue.mpr hbad)))
  rw [if_neg hbad]
  rw [← hue] at hbad
  by_cases hfs : fs = []
  · rw [if_pos hfs]
    have hnone : I.demandEnds ps (I.kFaulted fs ptr) = I.demandEnds ps none := by rw [hfs]; rfl
    have hgo := fun h => (hagain.mp h).1 hfs
    have hg : ((keep none).stepIssued I.c I.g).group? I.c I.g = some { I.G with kretry := none } :=
      (State.group_stepIssued ..).trans (State.group_modGroup _ (Iss.group_at hr.issuer))
    exact acts_flies (e := I.deliveryEff ps) hr rfl ((if_neg hwait).trans ((if_neg hbad).trans ((if_neg hgo).trans hnone))) hg rfl
      (.inl rfl) rfl rfl rfl
  rw [if_neg hfs]
  by_cases hretry : I.G.kretry = some I.S.pc
  · rw [if_pos hretry]
    exact exec_held hr rfl ((if_neg hwait).trans ((if_neg hbad).trans (if_pos (hagain.mpr ⟨hfs, hretry⟩))))
  · rw [if_neg hretry]
    obtain ⟨r, hk, hcause, horig, hpc⟩ := I.kFaulted_spec hfs ptr
    have hsome : I.demandEnds ps (I.kFaulted fs ptr) = I.demandEnds ps (some r) := by rw [hk]
    have hgo := fun h => hretry (hagain.mp h).2
    exact ⟨r, hcause, horig, hpc, exec_stopOn hr rfl ((if_neg hwait).trans ((if_neg hbad).trans ((if_neg hgo).trans hsome)))⟩

end Sys2Proof.Machine
end

section
/-! SUPPORT. What stands in the state right after reset (R182, R333, R359, R362, R365, R367, R371), and the settling of O53. -/

namespace Sys2Proof.Machine

open Sys2Proof

/-! ## The parts of the module at reset -/

/-- Every place of a vector of copies reads the same, and so does one past its end. -/
theorem getD_getElem?_replicate {α : Type} (n i : Nat) (a : α) : (Vector.replicate n a)[i]?.getD a = a := by
  rw [Vector.getElem?_replicate]
  split <;> rfl

/-- A vector of empty places holds nothing anywhere. -/
theorem join_getElem?_replicate {α : Type} (n i : Nat) : ((Vector.replicate n (none : Option α))[i]?).join = none := by
  rw [Vector.getElem?_replicate]
  split <;> rfl

@[simp] theorem State.core_reset (c : Nat) : State.reset.core c = Core.reset := getD_getElem?_replicate ..

@[simp] theorem State.quad_reset (q : Nat) : State.reset.quad q = Quad.reset := getD_getElem?_replicate ..

@[simp] theorem State.ctx_reset (n : Nat) : State.reset.ctx n = Ctx.reset := getD_getElem?_replicate ..

@[simp] theorem State.clock_quad_reset (q : Nat) : State.reset.clock (.quad q) = 0 := getD_getElem?_replicate ..

/-- No slot of a core holds a group. -/
@[simp] theorem State.group_reset (c g : Nat) : State.reset.group? c g = none := by
  rw [State.group?, State.core_reset]
  exact join_getElem?_replicate ..

/-- No engine slot is in use. -/
@[simp] theorem State.eng_reset (c i : Nat) : State.reset.eng? c i = none := by
  rw [State.eng?, State.core_reset]
  exact join_getElem?_replicate ..

@[simp] theorem Core.bank_reset (b : Nat) : Core.reset.bank b = Bank.reset := getD_getElem?_replicate ..

@[simp] theorem Core.tile_reset (t : Nat) : Core.reset.tile t = Tile.reset := getD_getElem?_replicate ..

/-- Settles O53: each part of the module is the record that reset gives it, whose fields are read off. -/
theorem resetLeaves : Obligations.ResetLeaves := by
  refine ⟨State.reset_mem_wf, fun _ => rfl, rfl, fun c => ?core, fun q => ?quad, fun x => ?ctx, fun i => Vector.getElem_replicate _⟩
  case core =>
    dsimp only
    rw [State.core_reset]
    refine ⟨fun g => State.group_reset c g, rfl, rfl, rfl, rfl, rfl, fun b => ?_, fun t => ?_, fun i => State.eng_reset c i⟩
    · rw [Core.bank_reset]; rfl
    · rw [Core.tile_reset]; rfl
  case quad =>
    dsimp only
    rw [State.quad_reset]
    exact ⟨rfl, rfl, rfl, rfl, rfl, rfl, rfl, rfl, State.clock_quad_reset q⟩
  case ctx =>
    dsimp only
    rw [State.ctx_reset]
    simp [Ctx.reset, CtxRegs.reset]

end Sys2Proof.Machine
end

section
/-! SUPPORT. How token instructions set out for home (R189, R196, R197), and the settling of O24. -/

namespace Sys2Proof.Machine

open Sys2Proof

/-! ## Setting out for home -/

/-- The access of a token instruction at the pointer in a triple, marked as its B is (R197). -/
def Iss.tokAcc (I : Iss) (a : Fin 126) (b : Elem) : Acc := { accOf 0 I.t (I.striple a).1 1 (I.striple a).2 with mark := b.k }

/-- The operation of a token instruction. -/
def Iss.tokOp (I : Iss) (i : Instr) (a : Fin 126) (b : Elem) : Op :=
  { opOf i I [I.tokAcc a b] with args := [b.val], last := BitVec.ofNat 32 I.G.ctx }

/-- The state in which a token instruction has set out for home, its crew committed where R189 says. -/
def Iss.tokBegun (I : Iss) (i : Instr) (a : Fin 126) (b : Elem) : State :=
  let s := (I.s.addOp I.c (I.tokOp i a b)).postQ I.c (I.t + 1) (.accessCheckComplete I.c I.id)
  if I.tokCommits i b.val then s.commit I.G.ctx I.G.crew 4 else s

@[simp] theorem Iss.group_tokBegun (I : Iss) (i : Instr) (a : Fin 126) (b : Elem) (c g : Nat) :
    (I.tokBegun i a b).group? c g = I.s.group? c g := by
  unfold Iss.tokBegun
  dsimp only
  split
  · rw [State.group_congr (State.commit_cores ..), State.group_postQ, State.group_addOp]
  · rw [State.group_postQ, State.group_addOp]

/-- What a token instruction hands over that goes on its way; `result` says whether it writes a register. -/
def tokEff (result : Bool) : Eff := { comp := .later result, unit := .lsu, charge := 4 }

theorem tokEff_later (result : Bool) : (tokEff result).Later result := ⟨rfl, rfl, rfl, rfl⟩

section
variable {I : Iss} {i : Instr} {a : Fin 126} {b : Elem} {root : Bool}

/-- A false guard (R197). -/
theorem Iss.token_guarded (hq : I.qok = false) : ∃ e : Eff, e.comp = .flag I.t ∧ e.flow = .next ∧ e.after = none ∧ e.serviced = none ∧
    I.token i a b root = I.ok e := by
  unfold Iss.token
  rw [hq]
  exact ⟨_, rfl, rfl, rfl, rfl, rfl⟩

/-- A TKADOPT of a crew that is not root (R208). -/
theorem Iss.token_priv (hq : I.qok = true) (hr : root = true) (hc : (I.crew.map (·.root)).getD false = false) :
    I.token i a b root = .stop (I.scalar .priv) := by
  unfold Iss.token
  rw [hq, hr, hc]
  rfl

/-- What the causes of its operands make of a token instruction that may issue. -/
theorem Iss.token_checked (hq : I.qok = true) (hc : ¬(root = true ∧ (I.crew.map (·.root)).getD false = false)) : ∃ result,
    I.token i a b root = match worst (I.s.tokCauses I.who i (I.tokAcc a b) b.val) with
      | some .kConsume => .stop I.kAll
      | some c =>
        if c.serviced then .done (I.s.addOp I.c { I.tokOp i a b with stage := .logged })
          { tokEff result with serviced := some (I.scalar c (I.striple a).1) }
        else .stop (I.scalar c (I.striple a).1)
      | none => .done (I.tokBegun i a b) (tokEff result) := by
  have hroot : (root && !((I.crew.map (·.root)).getD false)) = false := by
    rw [Bool.eq_false_iff]; simpa using hc
  unfold Iss.token
  rw [hq, hroot]
  exact ⟨_, rfl⟩

end

/-- An instruction that a serviced cause puts into the operand log takes its exception after its effect (R144). -/
theorem serviced_of {i : Instr} {s s' : State} {h : Hdr} {u : Use} {I : Iss} {body : Iss → Res} {e : Eff} {result : Bool} {r : Report}
    (hr : Ready s h u I) (hi : exec i s = issue h u s body) (he : e.Later result) (hb : body I = .done s' { e with serviced := some r })
    (hg : s'.group? I.c I.g = some I.G) :
    ∃ t, I.At t (I.S.pc + 1) ∧ I.Alone s' t ∧ exec i s = .next (t.takeServiced I.c I.g r) := by
  obtain ⟨-, -, hS, -⟩ := State.issuer_spec hr.issuer
  obtain ⟨hat, -, halone, -⟩ := Iss.commit_next hg rfl hS he.flow he.after he.serviced
  refine ⟨I.commit s' e, hat, halone, ?_⟩
  rw [hi, issue_ready hr, hb]
  exact congrArg _ (Iss.commit_serviced he s' r)

/-- A token instruction issues as its guard and the causes of its operands say (R197). -/
theorem tokenIssues_of {i : Instr} {s : State} {h : Hdr} {u : Use} {I : Iss} {body : Iss → Res} {a : Fin 126} {b : Elem} {root : Bool}
    (hr : Ready s h u I) (hi : exec i s = issue h u s body) (hb : body I = I.token i a b root) : TokenIssues i s I a b root := by
  have hg := Iss.group_at hr.issuer
  unfold TokenIssues
  dsimp only
  by_cases hq : I.qok = false
  · rw [if_pos hq]
    obtain ⟨e, hc, hf, ha, hs, he⟩ := Iss.token_guarded (i := i) (a := a) (b := b) (root := root) hq
    exact acts_fresh hr.issuer (acts_flag hr hi (hb.trans he) hg rfl hf ha hs hc)
  rw [if_neg hq]
  rw [Bool.not_eq_false] at hq
  by_cases hroot : root = true ∧ (I.crew.map (·.root)).getD false = false
  · rw [if_pos hroot]
    exact stops_of hr hi (hb.trans (Iss.token_priv hq hroot.1 hroot.2))
  rw [if_neg hroot]
  obtain ⟨result, he⟩ := Iss.token_checked (i := i) (a := a) (b := b) hq hroot
  replace hb := hb.trans he
  rw [Iss.tokAcc] at hb
  split
  case h_1 hw =>
    rw [hw] at hb
    exact stops_of hr hi hb
  case h_2 hw =>
    rw [hw] at hb
    exact acts_later hr hi hb ((I.group_tokBegun ..).trans hg) rfl rfl rfl rfl rfl
  case h_3 c hc hw =>
    rw [hw] at hb
    split at hb
    · rename_i hk; exact (hc (Option.some.inj hk)).elim
    · rename_i c' _ hk
      obtain rfl := Option.some.inj hk
      split
      · rename_i hserv
        exact serviced_of hr hi (tokEff_later result) (hb.trans (if_pos hserv)) ((State.group_addOp ..).trans hg)
      · rename_i hserv
        exact stops_of hr hi (hb.trans (if_neg hserv))
    · rename_i hk; cases hk

/-! ## TKTAKE and TKQUERY -/

/-- Whether the core's token cache shows a caller holding the region of a TKTAKE already (R201, Table 5). -/
def Iss.heldHere (I : Iss) (x : TkA) : Bool :=
  let p := (I.striple x.a).1
  let caches := (I.s.core I.c).caches
  ((I.s.ctx I.G.ctx).region? (Ptr.local p)).any fun r =>
    Ptr.space p == 0 && Ptr.rank p == 0 && Ptr.module p == Config.thisModule &&
    I.s.holdsNow I.who (I.s.holderOf I.who x.hc) r && I.s.inFlight I.who r == .none &&
    (caches.tok.any (fun e => e.ctx == I.G.ctx && e.base == r.base && e.ready ≤ I.t) || caches.pins.any fun q => q.ctx == I.G.ctx && q.base == r.base) &&
    ((I.s.cached I.c I.G.ctx (Ptr.local p)).any fun e => e.w && !e.h)

/-- TKTAKE completes in its core while the token cache shows the caller holding; else it sets out as the others do (R201). -/
theorem tktake_spec {x : TkA} {s : State} {I : Iss} (hr : Ready s x.h { all := true, sr := [(x.a.val, 3)] } I) :
    if I.qok = true ∧ (I.striple x.a).2 = false ∧ I.heldHere x = true then LongResult (.tktake x) s I 20 (Iss.wstat x.d true)
    else TokenIssues (.tktake x) s I x.a ⟨0, false⟩ false := by
  have hnow : (I.qok && !(I.striple x.a).2 && I.heldHere x) = true ↔
      I.qok = true ∧ (I.striple x.a).2 = false ∧ I.heldHere x = true := by simp [and_assoc]
  split
  · rename_i h
    exact computes_of (e := { ws := Iss.wstat x.d true, comp := .long (I.t + 20), unit := .lsu, charge := 4 }) hr rfl
      (if_pos (hnow.mpr h)) (.inl rfl) rfl rfl rfl
  · rename_i h
    exact tokenIssues_of hr rfl (if_neg (hnow.not.mpr h))

/-- TKQUERY.SELF answers in the core (R207). -/
theorem tkquerySelf_spec {x : TkqA} {s : State} {I : Iss} {h : HC} (hx : x.self = some h) (hr : Ready s x.h {} I) :
    LongResult (.tkquery x) s I 2 (I.guarded [I.wsreg x.d ⟨I.s.holderOf I.who h, false⟩]) := by
  obtain ⟨hdr, self, d, a⟩ := x
  obtain rfl := hx
  exact computes_of (e := { ws := I.guarded [I.wsreg d ⟨I.s.holderOf I.who h, false⟩], comp := .long (I.t + 2), unit := .lsu, charge := 4 })
    hr rfl rfl (.inl rfl) rfl rfl rfl

/-- TKQUERY of a region sets out as the others do (R207). -/
theorem tkquery_spec {x : TkqA} {s : State} {I : Iss} (hx : x.self = none)
    (hr : Ready s x.h { all := true, sr := [(x.a.val, 3)] } I) : TokenIssues (.tkquery x) s I x.a ⟨0, false⟩ false := by
  obtain ⟨hdr, self, d, a⟩ := x
  obtain rfl := hx
  exact tokenIssues_of hr rfl rfl

/-- Settles O24: each token instruction by the rule of those that set out for home, but where TKTAKE and TKQUERY answer in the core. -/
theorem tokenInstructionsIssue : Obligations.TokenInstructionsIssue := by
  refine ⟨fun x s I => ⟨fun hr => ?binary, fun hr => ?unary⟩, fun x s I => ⟨fun h hx hr => tkquerySelf_spec hx hr, tkquery_spec⟩⟩
  case binary => exact ⟨tokenIssues_of hr rfl rfl, tokenIssues_of hr rfl rfl, tokenIssues_of hr rfl rfl, tokenIssues_of hr rfl rfl⟩
  case unary =>
    exact ⟨tokenIssues_of hr rfl rfl, tokenIssues_of hr rfl rfl, tokenIssues_of hr rfl rfl, tokenIssues_of hr rfl rfl,
      tokenIssues_of hr rfl rfl, tktake_spec hr⟩

end Sys2Proof.Machine
end

section
/-! SUPPORT. What updates leave of the contexts, the regions and the operations (R182 to R185, R203, R204). -/

namespace Sys2Proof.Machine

open Sys2Proof

/-! ## Updates that leave the contexts and the clocks -/

theorem State.onlyBytes_modCore (s : State) (c : Nat) (f : Core → Core) : s.OnlyBytes (s.modCore c f) := ⟨rfl, rfl⟩

theorem State.onlyBytes_flushRegion (s : State) (c ctx base k : Nat) (d : Bool) : s.OnlyBytes (s.flushRegion c ctx base k d) :=
  (State.foldl_onlyBytes (fun s _ => s.onlyBytes_homeWrite _) _ s).trans (State.onlyBytes_setL1 ..)

theorem State.onlyBytes_dropTok (s : State) (ctx : Nat) (r : Region) : s.OnlyBytes (s.dropTok ctx r) := by
  unfold State.dropTok
  split
  · exact s.onlyBytes_modCore ..
  · exact .refl s

theorem State.onlyBytes_dropPins (s : State) (c : Nat) (f : Pin → Bool) : s.OnlyBytes (s.dropPins c f) := by
  unfold State.dropPins
  refine State.OnlyBytes.trans (State.foldl_onlyBytes (fun s p => ?_) _ s) (State.onlyBytes_modCore ..)
  split
  · exact s.onlyBytes_setL1 ..
  · exact .refl s

theorem State.onlyBytes_releasePins (s : State) (ctx : Nat) (r : Region) (h : Word) : s.OnlyBytes (s.releasePins ctx r h) :=
  State.foldl_onlyBytes (fun s _ => s.onlyBytes_dropPins ..) _ s

/-- Events are put on the agenda, and nothing else changes. -/
def State.Posts (s t : State) : Prop := ∃ l, t = s.modSch fun h => { h with agenda := h.agenda ++ l }

theorem State.Posts.refl (s : State) : s.Posts s := ⟨[], by simp [State.modSch]⟩

theorem State.Posts.trans {s t u : State} (a : s.Posts t) (b : t.Posts u) : s.Posts u := by
  obtain ⟨k, rfl⟩ := a
  obtain ⟨l, rfl⟩ := b
  exact ⟨k ++ l, by simp [State.modSch]⟩

theorem State.posts_postQ (s : State) (c t : Nat) (e : Instr) : s.Posts (s.postQ c t e) := ⟨_, rfl⟩

theorem State.posts_postNow (s : State) (e : Instr) : s.Posts (s.postNow e) := ⟨_, rfl⟩

theorem State.foldl_posts {α : Type} {f : State → α → State} (hf : ∀ (s : State) x, s.Posts (f s x)) (xs : List α) (s : State) :
    s.Posts (xs.foldl f s) := by
  induction xs generalizing s with
  | nil => exact .refl s
  | cons x xs ih => exact (hf s x).trans (ih _)

theorem State.Posts.cores {s t : State} (h : s.Posts t) : t.cores = s.cores := by obtain ⟨l, rfl⟩ := h; rfl

theorem State.Posts.mem {s t : State} (h : s.Posts t) : t.mem = s.mem := by obtain ⟨l, rfl⟩ := h; rfl

theorem State.Posts.onlyBytes {s t : State} (h : s.Posts t) : s.OnlyBytes t := by obtain ⟨l, rfl⟩ := h; exact ⟨rfl, rfl⟩

/-- What waits on a region's state is told by events (R187, R201). -/
theorem State.posts_wakeRegions (s : State) : s.Posts s.wakeRegions := by
  unfold State.wakeRegions
  generalize List.range 768 = cs
  refine State.foldl_posts (fun s c => ?_) cs s
  exact State.foldl_posts (fun s e => s.posts_postQ c (s.now c) e) _ s

theorem State.posts_retryGangs (s : State) (n : Nat) : s.Posts (s.retryGangs n) := by
  unfold State.retryGangs
  exact (State.foldl_posts (fun s _ => s.posts_postNow _) _ s).trans (State.foldl_posts (fun s _ => s.posts_postNow _) _ _)

/-- The state in which a token instruction is performed, its writes landing in cycle `lam`. -/
theorem State.posts_tokenEnd (s : State) (c : Nat) (o : Op) (ws : List RegWrite) (h : Nat) :
    (s.freeNat.2.perform c o ws (max (s.now c) (o.due + h + s.freeNat.1))).Posts (s.tokenEnd c o ws h) := State.posts_wakeRegions _

theorem State.onlyBytes_tokenEnd (s : State) (c : Nat) (o : Op) (ws : List RegWrite) (h : Nat) : s.OnlyBytes (s.tokenEnd c o ws h) := by
  have hp : s.OnlyBytes (s.freeNat.2.perform c o ws (max (s.now c) (o.due + h + s.freeNat.1))) := ⟨rfl, rfl⟩
  exact hp.trans (s.posts_tokenEnd c o ws h).onlyBytes

/-! ## Regions -/

/-- Every context has the regions that it had. -/
def State.SameRegions (s t : State) : Prop := ∀ n, (t.ctx n).regions = (s.ctx n).regions

theorem State.SameRegions.refl (s : State) : s.SameRegions s := fun _ => rfl

theorem State.SameRegions.trans {s t u : State} (a : s.SameRegions t) (b : t.SameRegions u) : s.SameRegions u :=
  fun n => (b n).trans (a n)

theorem State.OnlyBytes.regions {s t : State} (h : s.OnlyBytes t) : s.SameRegions t := fun n => by rw [State.ctx_congr h.ctxs]

theorem State.foldl_sameRegions {α : Type} {f : State → α → State} (hf : ∀ (s : State) x, s.SameRegions (f s x)) (xs : List α)
    (s : State) : s.SameRegions (xs.foldl f s) := by
  induction xs generalizing s with
  | nil => exact .refl s
  | cons x xs ih => exact (hf s x).trans (ih _)

/-- A region is looked up among the regions alone. -/
theorem Ctx.region_congr {x y : Ctx} (h : y.regions = x.regions) (a : Nat) : y.region? a = x.region? a := by
  rw [Ctx.region?, h]; rfl

theorem State.SameRegions.region {s t : State} (h : s.SameRegions t) (n a : Nat) : (t.ctx n).region? a = (s.ctx n).region? a :=
  Ctx.region_congr (h n) a

/-- A context of the module is one of sixteen. -/
theorem State.ctx_of_le {n : Nat} (h : 16 ≤ n) (s : State) : s.ctx n = Ctx.reset := by
  rw [State.ctx, Vector.getElem?_eq_none h]; rfl

/-- A region stands in a context of the module. -/
theorem State.region_lt {s : State} {n a : Nat} {r : Region} (h : (s.ctx n).region? a = some r) : n < 16 := by
  by_contra hn
  rw [State.ctx_of_le (by omega)] at h
  cases h

theorem State.sameRegions_modCtx {s : State} {n : Nat} {f : Ctx → Ctx} (hf : ∀ x, (f x).regions = x.regions) :
    s.SameRegions (s.modCtx n f) := by
  intro m
  by_cases hm : m < 16
  · by_cases h : m = n
    · subst h; rw [State.ctx_modCtx _ _ _ hm, hf]
    · rw [State.ctx_modCtx_ne _ _ _ _ h]
  · rw [State.ctx_of_le (by omega), State.ctx_of_le (by omega)]

theorem State.sameRegions_settleIdle (s : State) (n : Nat) : s.SameRegions (s.settleIdle n) := by
  unfold State.settleIdle
  dsimp only
  split
  · exact .refl s
  · exact State.sameRegions_modCtx fun _ => rfl

/-- Gangs that ask again leave the regions. -/
theorem State.sameRegions_retryAll (s : State) : s.SameRegions s.retryAll := by
  refine State.foldl_sameRegions (fun s n => ?_) _ s
  split
  · exact .refl s
  · exact (s.sameRegions_settleIdle n).trans (State.posts_retryGangs _ n).onlyBytes.regions

/-- A region replaced by one of the same block is found in its place. -/
theorem Ctx.region_setRegion {x : Ctx} {a : Nat} {r q : Region} (h : x.region? a = some r) (hb : q.base = r.base) (hk : q.k = r.k) :
    (x.setRegion q).region? a = some q := by
  have hq : q.holds a = true := by
    rw [Region.holds, hb, hk]; exact List.find?_some (p := fun r : Region => r.holds a) h
  have key (l : List Region) (h : l.find? (fun r => r.holds a) = some r) :
      (l.map fun p => if p.base = q.base then q else p).find? (fun r => r.holds a) = some q := by
    induction l with
    | nil => cases h
    | cons p l ih =>
      rw [List.map_cons]
      by_cases hp : p.base = q.base
      · rw [if_pos hp, List.find?_cons, hq]
      · rw [if_neg hp, List.find?_cons]
        rw [List.find?_cons] at h
        cases hh : p.holds a with
        | true => rw [hh] at h; exact absurd (by rw [Option.some.inj h, hb]) hp
        | false => rw [hh] at h; exact ih h
  exact key x.regions h

/-- The same in a state. -/
theorem State.region_modCtx {s : State} {n a : Nat} {r q : Region} {f : Ctx → Ctx} (h : (s.ctx n).region? a = some r)
    (hf : (f (s.ctx n)).regions = ((s.ctx n).setRegion q).regions) (hb : q.base = r.base) (hk : q.k = r.k) :
    ((s.modCtx n f).ctx n).region? a = some q := by
  rw [State.ctx_modCtx _ _ _ (State.region_lt h), Ctx.region_congr hf]
  exact Ctx.region_setRegion h hb hk

/-! ## Operations -/

theorem State.op_lt {s : State} {c id : Nat} {o : Op} (h : s.op? c id = some o) : c < 768 := by
  by_contra hc
  have hreset : s.core c = Core.reset := by rw [State.core, Vector.getElem?_eq_none (by omega)]; rfl
  rw [State.op?, hreset] at h
  cases h

theorem State.op_id {s : State} {c id : Nat} {o : Op} (h : s.op? c id = some o) : o.id = id := by
  simpa using List.find?_some h

theorem State.op_modCore {s : State} {c d id : Nat} {f : Core → Core} (hf : ∀ k, (f k).ops = k.ops) :
    (s.modCore d f).op? c id = s.op? c id := by
  unfold State.op?
  by_cases hc : c = d
  · subst hc
    by_cases hl : c < 768
    · rw [State.core_modCore _ _ _ hl, hf]
    · rw [State.core, State.core, Vector.getElem?_eq_none (by omega), Vector.getElem?_eq_none (by omega)]
  · rw [State.core_modCore_ne _ _ _ _ hc]

theorem State.op_congr {s t : State} (h : t.cores = s.cores) (c id : Nat) : t.op? c id = s.op? c id := by
  rw [State.op?, State.core_congr h]; rfl

theorem State.op_modOp {s : State} {c id : Nat} {o : Op} {f : Op → Op} (h : s.op? c id = some o) (hf : ∀ o, (f o).id = o.id) :
    (s.modOp c id f).op? c id = some (f o) := by
  have hg : ∀ q : Op, ((if q.id = id then f q else q).id == id) = (q.id == id) := fun q => by
    split
    · rw [hf]
    · rfl
  rw [State.op?, State.modOp, State.core_modCore _ _ _ (State.op_lt h)]
  dsimp only
  rw [List.find?_map]
  simp only [Function.comp_def, hg]
  change Option.map _ (s.op? c id) = _
  rw [h, Option.map_some, if_pos (State.op_id h)]

@[simp] theorem State.group_modOp (s : State) (c d id g : Nat) (f : Op → Op) : (s.modOp d id f).group? c g = s.group? c g :=
  State.group_modCore (f := fun k => { k with ops := k.ops.map fun o => if o.id = id then f o else o }) fun _ => rfl

theorem State.op_setGroup (s : State) (c d g id : Nat) (x : Option Group) : (s.setGroup d g x).op? c id = s.op? c id :=
  State.op_modCore (f := fun k => { k with groups := k.groups.setIfInBounds g x }) fun _ => rfl

@[simp] theorem State.op_landAt (s : State) (c d g n id : Nat) (setf : Option (Fin 12)) (ws : List RegWrite) (lam : Nat) :
    (s.landAt d g n setf ws lam).op? c id = s.op? c id := State.op_setGroup ..

end Sys2Proof.Machine
end

section
/-! SUPPORT. A token instruction at home, by what its region's state makes of it (R194, R198 to R208), and the settling of O43. -/

namespace Sys2Proof.Machine

open Sys2Proof

/-! ## A token instruction performed -/

/-- An operation that is performed keeps its number and lands not before its cycle. -/
theorem State.op_tokenEnd {s : State} {c : Nat} {o q : Op} (ws : List RegWrite) (h : Nat) (hq : s.op? c o.id = some q) :
    (s.tokenEnd c o ws h).op? c o.id =
      some { q with stage := .performed, due := max (s.now c) (o.due + h + s.freeNat.1) } := by
  let lam := max (s.now c) (o.due + h + s.freeNat.1)
  have hperf := State.op_modOp (s := s.freeNat.2) (f := fun o => { o with stage := .performed, due := lam }) hq fun _ => rfl
  exact (State.op_congr (s.posts_tokenEnd c o ws h).cores ..).trans ((State.op_landAt ..).trans hperf)

theorem State.mem_tokenEnd (s : State) (c : Nat) (o : Op) (ws : List RegWrite) (h : Nat) : (s.tokenEnd c o ws h).mem = s.mem :=
  (s.posts_tokenEnd c o ws h).mem

/-- What lands is in flight in its group. -/
theorem State.pend_landAt {s : State} {c g : Nat} {G : Group} (id : Nat) (setf : Option (Fin 12)) (ws : List RegWrite) (lam : Nat)
    (hG : s.group? c g = some G) :
    ∃ H, (s.landAt c g id setf ws lam).group? c g = some H ∧ (⟨id, lam, ws, setf, lam + 1, []⟩ : Pend) ∈ H.pend := by
  refine ⟨{ G with pend := (G.pend.filter fun p => p.id != id) ++ [⟨id, lam, ws, setf, lam + 1, []⟩] }, ?_, by simp⟩
  exact State.group_modGroup (fun G => { G with pend := (G.pend.filter fun p => p.id != id) ++ [⟨id, lam, ws, setf, lam + 1, []⟩] }) hG

/-- The writes of an operation that is performed are in flight in its group. -/
theorem State.pend_tokenEnd {s : State} {c : Nat} {o : Op} {G : Group} (ws : List RegWrite) (h : Nat)
    (hG : s.group? c o.slot = some G) :
    ∃ H p, (s.tokenEnd c o ws h).group? c o.slot = some H ∧ p ∈ H.pend ∧ p.id = o.id ∧ p.ws = ws := by
  let lam := max (s.now c) (o.due + h + s.freeNat.1)
  obtain ⟨H, hH, hp⟩ := State.pend_landAt o.id o.setf ws lam
    ((State.group_modOp s.freeNat.2 c c o.id o.slot fun o => { o with stage := .performed, due := lam }).trans hG)
  exact ⟨H, _, (State.group_congr (s.posts_tokenEnd c o ws h).cores ..).trans hH, hp, rfl, rfl⟩

/-- Memory, the operations and the clocks of the quadrants are as they were. -/
structure State.SameOps (s t : State) : Prop where
  mem : t.mem = s.mem
  clk : t.sch.quadClk = s.sch.quadClk
  op : ∀ c id, t.op? c id = s.op? c id

theorem State.SameOps.refl (s : State) : s.SameOps s := ⟨rfl, rfl, fun _ _ => rfl⟩

theorem State.SameOps.trans {s t u : State} (a : s.SameOps t) (b : t.SameOps u) : s.SameOps u :=
  ⟨b.mem.trans a.mem, b.clk.trans a.clk, fun c id => (b.op c id).trans (a.op c id)⟩

theorem State.SameOps.now {s t : State} (h : s.SameOps t) (c : Nat) : t.now c = s.now c := by
  rw [State.now, h.clk]; rfl

theorem State.sameOps_modCaches (s : State) (c : Nat) (f : Caches → Caches) : s.SameOps (s.modCaches c f) :=
  ⟨rfl, rfl, fun _ _ => State.op_modCore (f := fun k => { k with caches := f k.caches }) fun _ => rfl⟩

theorem State.sameOps_modCtx (s : State) (n : Nat) (f : Ctx → Ctx) : s.SameOps (s.modCtx n f) := ⟨rfl, rfl, fun _ _ => rfl⟩

theorem State.sameOps_useTok (s : State) (c ctx : Nat) (r : Region) (miss : Nat) : s.SameOps (s.useTok c ctx r miss).2 := by
  unfold State.useTok
  dsimp only
  split
  · exact .refl s
  · dsimp only
    split
    · exact (s.sameOps_modCaches ..).trans (State.sameOps_modCtx ..)
    · exact s.sameOps_modCaches ..

theorem State.sameOps_takePin (s : State) (w : Who) (caller : Word) (r : Region) : s.SameOps (s.takePin w caller r) := by
  unfold State.takePin
  dsimp only
  split
  · exact .refl s
  · split
    · exact s.sameOps_modCaches ..
    · exact .refl s

/-! ## What a token instruction makes of its region at home -/

section
variable {s : State} {c : Nat} {o : Op} {w : Who} {r q : Region} {a : Nat} {far : Nat}

/-- A flush begins with the region as it is meanwhile (R200, R205). -/
theorem State.region_flush {d : Bool} {after : Region} (hr : (s.ctx w.ctx).region? a = some r) (hb : q.base = r.base) (hk : q.k = r.k)
    (hw : s.flushWaits c w o.id q = false) : ((s.tokenAct c o w (.flush d q after) far).ctx w.ctx).region? a = some q := by
  have hsame (old : Region) := (s.onlyBytes_dropTok w.ctx old).trans (State.onlyBytes_flushRegion _ c w.ctx q.base q.k d)
  unfold State.tokenAct
  dsimp only
  rw [hw, if_neg Bool.false_ne_true, State.ctx_congr (State.postQ_ctxs ..), State.ctx_congr (State.modOp_ctxs ..)]
  exact State.region_modCtx (((hsame _).regions.region w.ctx a).trans hr) rfl hb hk

/-- A share is granted (R203). -/
theorem State.region_grantShare (hr : (s.ctx w.ctx).region? a = some r) (h : Word) :
    ((s.grantShare w.ctx r h).ctx w.ctx).region? a = some { r with st := .shared, shares := r.shares + 1 } := by
  have hr' := ((s.onlyBytes_dropTok w.ctx r).regions.region w.ctx a).trans hr
  unfold State.grantShare
  dsimp only
  split
  · exact State.region_modCtx hr' rfl rfl rfl
  · split
    · exact ((State.onlyBytes_modCore ..).regions.region w.ctx a).trans (State.region_modCtx hr' rfl rfl rfl)
    · exact State.region_modCtx hr' rfl rfl rfl

theorem State.region_share (hr : (s.ctx w.ctx).region? a = some r) (hw : s.flushWaits c w o.id r = false) :
    ((s.tokenAct c o w (.share r) far).ctx w.ctx).region? a = some { r with st := .shared, shares := r.shares + 1 } := by
  unfold State.tokenAct
  dsimp only
  rw [hw, if_neg Bool.false_ne_true, (State.onlyBytes_tokenEnd ..).regions.region]
  exact State.region_grantShare (((s.onlyBytes_flushRegion ..).regions.region w.ctx a).trans hr) _

/-- A share is given back (R204). -/
theorem State.region_returnShare {h : Word} {y : Share} (hr : (s.ctx w.ctx).region? a = some r)
    (hy : (s.ctx w.ctx).shares.find? (fun y => y.base == r.base && y.holder == h) = some y) (h1 : 1 ≤ y.count) :
    ((s.returnShare w.ctx r h 1).ctx w.ctx).region? a =
      some { r with shares := r.shares - 1, st := if r.shares - 1 = 0 ∧ r.st = .shared then .owned else r.st } := by
  have hrel : s.OnlyBytes (if y.count ≤ 1 then s.releasePins w.ctx r h else s) := by
    split
    · exact s.onlyBytes_releasePins ..
    · exact .refl s
  have hsame := hrel.trans (State.onlyBytes_dropTok _ w.ctx r)
  unfold State.returnShare
  rw [hy]
  dsimp only
  rw [Nat.min_eq_left h1]
  refine State.region_modCtx ((hsame.regions.region w.ctx a).trans hr) ?_ rfl rfl
  simp only [Ctx.setRegion, Bool.and_eq_true, decide_eq_true_eq]

theorem State.region_unshare {y : Share} (hr : (s.ctx w.ctx).region? a = some r)
    (hy : (s.ctx w.ctx).shares.find? (fun y => y.base == r.base && y.holder == s.holderOf w (tokClass o.ins)) = some y)
    (h1 : 1 ≤ y.count) : ((s.tokenAct c o w (.unshare r) far).ctx w.ctx).region? a =
      some { r with shares := r.shares - 1, st := if r.shares - 1 = 0 ∧ r.st = .shared then .owned else r.st } := by
  unfold State.tokenAct
  dsimp only
  rw [(State.sameRegions_retryAll _).region, (State.onlyBytes_tokenEnd ..).regions.region]
  exact State.region_returnShare hr hy h1

/-- The region is given to the caller (R206, R208). -/
theorem State.region_set (hr : (s.ctx w.ctx).region? a = some r) (hb : q.base = r.base) (hk : q.k = r.k) :
    ((s.tokenAct c o w (.set q) far).ctx w.ctx).region? a = some q := by
  unfold State.tokenAct
  dsimp only
  split
  · rw [State.ctx_congr (State.postQ_ctxs ..), State.ctx_congr (State.modOp_ctxs ..)]
    exact State.region_modCtx hr rfl hb hk
  · rw [(State.onlyBytes_tokenEnd ..).regions.region]
    exact State.region_modCtx hr rfl hb hk

/-- The region is divided (R202). -/
theorem State.regions_split {b : Nat} (hn : w.ctx < 16) :
    ((s.tokenAct c o w (.split r b) far).ctx w.ctx).regions = ((s.ctx w.ctx).splitRegion r b).regions := by
  unfold State.tokenAct
  dsimp only
  rw [(State.onlyBytes_tokenEnd ..).regions, State.ctx_modCtx _ _ _ hn, State.ctx_congr (s.onlyBytes_dropTok w.ctx r).ctxs]

/-- The pieces of a block are joined (R202). -/
theorem State.regions_join {x y : Ctx} {b : Nat} (hn : w.ctx < 16) (hr : x.region? (Ptr.local (((o.accs.head?).map (·.ptr)).getD 0)) = some r)
    (hy : x.joinRegion r b = some y) : ((s.tokenAct c o w (.join x b) far).ctx w.ctx).regions = y.regions := by
  unfold State.tokenAct
  dsimp only
  rw [hr]
  dsimp only
  rw [hy]
  dsimp only
  rw [(State.onlyBytes_tokenEnd ..).regions, State.ctx_modCtx _ _ _ hn]

/-- A refusal changes no region. -/
theorem State.sameRegions_refuse : s.SameRegions (s.tokenAct c o w .refuse far) := by
  unfold State.tokenAct
  exact (s.onlyBytes_tokenEnd c o (State.tokWs o false) (100 + far)).regions

/-- A query changes no region (R207). -/
theorem State.sameRegions_query {e : Option Region} : s.SameRegions (s.tokenAct c o w (.query e) far) := by
  unfold State.tokenAct
  exact (s.onlyBytes_tokenEnd c o _ (80 + far)).regions

/-- The words of the entry are on their way to the group that asked. -/
theorem State.pend_query {e : Option Region} {x : TkqA} {G : Group} (hi : o.ins = .tkquery x) (hG : s.group? c o.slot = some G) :
    ∃ H p, (s.tokenAct c o w (.query e) far).group? c o.slot = some H ∧ p ∈ H.pend ∧ p.id = o.id ∧
      p.ws = (State.entryWords e).zipIdx.map fun e => .sreg (x.d.val + e.2) ⟨e.1, false⟩ := by
  unfold State.tokenAct
  dsimp only
  rw [hi]
  exact State.pend_tokenEnd _ _ hG

theorem State.tokenAct_take : s.tokenAct c o w (.take r) far =
    ((s.useTok c w.ctx r (s.now c + (100 + far))).2.takePin w (s.holderOf w (tokClass o.ins)) r).tokenEnd c o (State.tokWs o true)
      (100 + far) := by
  unfold State.tokenAct
  rfl

/-- A take that is granted leaves memory (R201). -/
theorem State.mem_take : (s.tokenAct c o w (.take r) far).mem = s.mem := by
  rw [State.tokenAct_take, State.mem_tokenEnd]
  exact ((s.sameOps_useTok ..).trans (State.sameOps_takePin ..)).mem

/-- It is performed 100 cycles later or more (R201). -/
theorem State.op_take {p : Op} (hp : s.op? c o.id = some p) (hdue : o.due = s.now c) :
    ∃ q, (s.tokenAct c o w (.take r) far).op? c o.id = some q ∧ q.stage = .performed ∧ s.now c + 100 ≤ q.due := by
  have hsame := (s.sameOps_useTok c w.ctx r (s.now c + (100 + far))).trans
    (State.sameOps_takePin _ w (s.holderOf w (tokClass o.ins)) r)
  rw [State.tokenAct_take, State.op_tokenEnd _ _ ((hsame.op ..).trans hp)]
  exact ⟨_, rfl, rfl, by dsimp only; omega⟩

end

/-! ## What the state of a region makes of an instruction -/

/-- An owner's operation finds its region when it is neither FREE, nor ORPHANED, nor LENT (Table 5). -/
theorem State.ownCause_ok {r : Region} {h : Word} (hst : r.st = .owned ∨ r.st = .shared ∨ r.st = .homed) (ho : r.owner = h) :
    State.ownCause (some r) h = .ok r := by
  rcases hst with hst | hst | hst <;> simp only [State.ownCause, hst, ho, if_true]

/-- TKSPLIT and TKJOIN find an OWNED or a HOMED one (R202). -/
theorem State.splitCause_ok {s : State} {w : Who} {r : Region} {h : Word} (hst : r.st = .owned ∨ r.st = .homed) (ho : r.owner = h) :
    s.splitCause w (some r) h = .ok r := by
  rcases hst with hst | hst <;> simp only [State.splitCause, hst, ho, if_true]

/-- The caller owns the region, which is OWNED and unshared. -/
def State.Mine (s : State) (w : Who) (i : Instr) (r : Region) : Prop := r.st = .owned ∧ r.owner = s.holderOf w (tokClass i) ∧ r.shares = 0

section
variable {s : State} {w : Who} {i : Instr} {x : TkA} {p : Ptr} {b : Word} {r : Region} (hr : (s.ctx w.ctx).region? (Ptr.local p) = some r)
include hr

theorem State.tokDo_tklend (hi : i = .tklend x) (hm : s.Mine w i r) (hl : r.lender = noHolder) (hb : b ≠ s.holderOf w (tokClass i)) :
    let q : Region := { r with st := .lent, owner := b, lender := s.holderOf w (tokClass i), hcore := none }
    s.tokDo w i p b = .flush false q { q with st := .owned } := by
  obtain ⟨hst, ho, hs⟩ := hm
  subst hi
  simp [State.tokDo, hr, State.ownCause_ok (.inl hst) ho, hst, hs, hl, hb]

theorem State.tokDo_tkret (hi : i = .tkret x) (hm : s.Mine w i r) (hl : r.lender ≠ noHolder) :
    let q : Region := { r with st := .lent, owner := r.lender, lender := noHolder, hcore := none }
    s.tokDo w i p b = .flush false q { q with st := .owned } := by
  obtain ⟨hst, ho, hs⟩ := hm
  subst hi
  simp [State.tokDo, hr, State.ownCause_ok (.inl hst) ho, hst, hs, hl]

theorem State.tokDo_tkhome (hi : i = .tkhome x) (hm : s.Mine w i r) (hl : r.lender = noHolder) :
    s.tokDo w i p b = .flush false r { r with st := .homed, hcore := none } := by
  obtain ⟨hst, ho, hs⟩ := hm
  subst hi
  simp [State.tokDo, hr, State.ownCause_ok (.inl hst) ho, hst, hs, hl]

theorem State.tokDo_tkunhome (hi : i = .tkunhome x) (hst : r.st = .homed) (hc : (s.coverOf w (tokClass i)).contains r.owner = true) :
    s.tokDo w i p b = .set { r with st := .owned, owner := s.holderOf w (tokClass i), hcore := some w.c } := by
  subst hi
  simp only [State.tokDo, hr, hst, hc, if_true]

theorem State.tokDo_tkadopt (hi : i = .tkadopt x) (hst : r.st = .free ∨ r.st = .orphaned) :
    s.tokDo w i p b = .set { r with st := .owned, owner := s.holderOf w (tokClass i), lender := noHolder, shares := 0, hcore := some w.c } := by
  subst hi
  simp only [State.tokDo, hr, hst, if_true]

theorem State.tokDo_tksplit (hi : i = .tksplit x) (hm : s.Mine w i r) (h1 : 1 ≤ b.toInt) (h20 : b.toInt ≤ 20)
    (hk : 12 ≤ (r.k : Int) - b.toInt)
    (hroom : (s.ctx w.ctx).regions.length + (2 ^ b.toInt.toNat - 1) ≤ (s.ctx w.ctx).capacity) :
    s.tokDo w i p b = .split r b.toInt.toNat := by
  obtain ⟨hst, ho, hs⟩ := hm
  subst hi
  have hgo : (decide (b.toInt < 1) || decide (20 < b.toInt) || decide ((r.k : Int) - b.toInt < 12) ||
      decide ((s.ctx w.ctx).regions.length + (2 ^ b.toInt.toNat - 1) > (s.ctx w.ctx).capacity)) = false := by
    simp only [Bool.or_eq_false_iff, decide_eq_false_iff_not]; omega
  simp only [State.tokDo, hr, State.splitCause_ok (.inl hst) ho, hs, hgo, lt_irrefl, if_false, Bool.false_eq_true]

/-- TKJOIN of a region that the caller owns, by a number in its range. -/
theorem State.tokDo_tkjoin (hi : i = .tkjoin x) (hst : r.st = .owned ∨ r.st = .homed) (ho : r.owner = s.holderOf w (tokClass i))
    (hs : r.shares = 0) (h1 : 1 ≤ b.toInt) (h20 : b.toInt ≤ 20) (hk : (r.k : Int) + b.toInt ≤ 32) :
    s.tokDo w i p b = if ((s.ctx w.ctx).joinRegion r b.toInt.toNat).isSome then .join (s.ctx w.ctx) b.toInt.toNat else .refuse := by
  subst hi
  have hgo : (decide (b.toInt < 1) || decide (20 < b.toInt) || decide (32 < (r.k : Int) + b.toInt)) = false := by
    simp only [Bool.or_eq_false_iff, decide_eq_false_iff_not]; omega
  simp only [State.tokDo, hr, State.splitCause_ok hst ho, hs, hgo, lt_irrefl, if_false, Bool.false_eq_true]
  split
  · rename_i hj; rw [hj]; rfl
  · rename_i hj; rw [hj]; rfl

theorem State.tokDo_tkshare (hi : i = .tkshare x) (hst : r.st = .owned ∨ r.st = .shared) (ho : r.owner = s.holderOf w (tokClass i)) :
    s.tokDo w i p b = if s.shareRoom w.ctx r b then .share r else .refuse := by
  subst hi
  have hh : r.st ≠ .homed := by rcases hst with h | h <;> rw [h] <;> decide
  simp only [State.tokDo, hr, State.ownCause_ok (hst.imp_right .inl) ho, if_neg hh]

theorem State.tokDo_tkunshare (hi : i = .tkunshare x) (hst : r.st = .owned ∨ r.st = .shared ∨ r.st = .homed)
    (hy : ((s.ctx w.ctx).shares.any fun y => y.base == r.base && y.holder == s.holderOf w (tokClass i)) = true) :
    s.tokDo w i p b = .unshare r := by
  subst hi
  rcases hst with hst | hst | hst <;> simp only [State.tokDo, hr, hst, hy, if_true]

theorem State.tokDo_tkquery {x : TkqA} (hi : i = .tkquery x) : s.tokDo w i p b = .query (some r) := by
  subst hi
  simp only [State.tokDo, hr]

theorem State.tokDo_tktake (hi : i = .tktake x) (hst : r.st ≠ .orphaned) :
    s.tokDo w i p b = if s.holdsNow w (s.holderOf w (tokClass i)) r then .take r else .wait := by
  subst hi
  simp only [State.tokDo, hr, if_neg hst]

end

/-! ## The events -/

/-- A token operation of a core whose access names a region of this module. -/
structure TokenAt (s : State) (c id : Nat) (o : Op) (a : Acc) (r : Region) : Prop where
  op : s.op? c id = some o
  first : o.accs.head? = some a
  module : Ptr.module a.ptr = Config.thisModule
  region : (s.ctx (s.opWho c o).ctx).region? (Ptr.local a.ptr) = some r

/-- What a visit home makes of a token operation (R194). -/
def State.homeVisit (s : State) (c id : Nat) (o : Op) (a : Acc) : State :=
  let w := s.opWho c o
  let far := s.tokFar c w.ctx a.ptr
  match o.firstRead with
  | some n => s.tokenSettle c o w n far
  | none =>
    if s.homeBusy w.ctx o (Ptr.local a.ptr) then s.postQ c (s.now c + 1) (.tokenOpAtHome c id)
    else s.tokenAct c o w (s.tokDo w o.ins a.ptr (o.args.headD 0)) far

section
variable {s : State} {c id : Nat} {o : Op} {a : Acc} {r : Region} (h : TokenAt s c id o a r)
include h

/-- TOKEN_OP_AT_HOME is such a visit. -/
theorem TokenAt.exec_home (hst : o.stage = .home) : exec (.tokenOpAtHome c id) s = .next (s.homeVisit c id o a) := by
  have hx : exec (.tokenOpAtHome c id) s = execTokenOpAtHome c id s := rfl
  rw [hx, execTokenOpAtHome, h.op]
  dsimp only
  rw [if_neg (not_not_intro hst), h.first]
  dsimp only
  rw [if_neg (not_not_intro h.module), State.homeVisit]
  cases o.firstRead with
  | some n => rfl
  | none => dsimp only; split <;> rfl

/-- A token operation waits while another's flush of its region is under way (R194). -/
theorem TokenAt.busy (hst : o.stage = .home) (hf : o.firstRead = none)
    (hb : s.homeBusy (s.opWho c o).ctx o (Ptr.local a.ptr) = true) :
    exec (.tokenOpAtHome c id) s = .next (s.postQ c (s.now c + 1) (.tokenOpAtHome c id)) := by
  rw [h.exec_home hst, State.homeVisit, hf]
  exact congrArg _ (if_pos hb)

/-- Else what home does, once known, says what the state after the event has. -/
theorem TokenAt.acts {P : State → Prop} {d : State.TokDo} (hst : o.stage = .home) (hf : o.firstRead = none)
    (hb : s.homeBusy (s.opWho c o).ctx o (Ptr.local a.ptr) = false) (hd : s.tokDo (s.opWho c o) o.ins a.ptr (o.args.headD 0) = d)
    (hP : ∀ far, P (s.tokenAct c o (s.opWho c o) d far)) : Runs (.tokenOpAtHome c id) s P := by
  refine ⟨_, h.exec_home hst, ?_⟩
  rw [State.homeVisit, hf]
  dsimp only
  rw [hb, if_neg Bool.false_ne_true, hd]
  exact hP _

/-- A later visit (R198, R200, R205). -/
theorem TokenAt.settles {n : Nat} (hst : o.stage = .home) (hf : o.firstRead = some n) :
    ∃ far, exec (.tokenOpAtHome c id) s = .next (s.tokenSettle c o (s.opWho c o) n far) := by
  rw [h.exec_home hst, State.homeVisit, hf]
  exact ⟨_, rfl⟩

/-- A waiting TKTAKE looks at its region again, unless a flush of it is under way (R201). -/
theorem TokenAt.takes (hst : o.stage = .waiting) : ∃ far, exec (.tktakeComplete c id) s =
    .next (if s.homing (s.opWho c o).ctx (Ptr.local a.ptr) then s.postQ c (s.now c + 1) (.tktakeComplete c id)
      else s.tokenAct c { o with due := s.now c } (s.opWho c o) (s.tokDo (s.opWho c o) o.ins a.ptr 0) far) := by
  have hx : exec (.tktakeComplete c id) s = execTktakeComplete c id s := rfl
  refine ⟨s.tokFar c (s.opWho c o).ctx a.ptr, ?_⟩
  rw [hx, execTktakeComplete, h.op]
  dsimp only
  rw [hst, h.first]
  dsimp only
  split <;> rfl

/-- The region named by the access, as a later visit looks it up. -/
theorem TokenAt.regionAgain :
    (s.ctx (s.opWho c o).ctx).region? (Ptr.local (((o.accs.head?).map (·.ptr)).getD 0)) = some r := by
  rw [h.first]
  exact h.region

/-! ## Later visits -/

/-- A TKHOME settles the region that it flushed (R205). -/
theorem TokenAt.region_settle_tkhome {x : TkA} {n far : Nat} (hi : o.ins = .tkhome x) (h1 : o.args[1]? = some 1) :
    ((s.tokenSettle c o (s.opWho c o) n far).ctx (s.opWho c o).ctx).region? (Ptr.local a.ptr) = some
      (if r.st = .owned ∧ r.owner = s.holderOf (s.opWho c o) (tokClass o.ins) ∧ o.limit = some r.base ∧
          o.args[2]? = some (BitVec.ofNat 32 r.k) then { r with st := .homed, hcore := none } else r) := by
  rw [hi]
  unfold State.tokenSettle
  rw [hi, h1]
  dsimp only
  rw [Bool.false_and, if_neg Bool.false_ne_true, (State.onlyBytes_tokenEnd ..).regions.region, h.regionAgain]
  dsimp only
  rw [Option.getD_some, beq_self_eq_true, if_pos rfl]
  simp only [Bool.and_eq_true, decide_eq_true_eq, beq_iff_eq, and_assoc]
  split_ifs with hc
  · exact State.region_modCtx h.region rfl rfl rfl
  · exact h.region

/-- A region lent or returned arrives (R200). -/
theorem TokenAt.region_settle_lend {x : TkA} {n far : Nat} (hi : o.ins = .tklend x ∨ o.ins = .tkret x) (h1 : o.args[1]? = some 0) :
    ((s.tokenSettle c o (s.opWho c o) n far).ctx (s.opWho c o).ctx).region? (Ptr.local a.ptr) =
      some (if r.st = .lent then { r with st := .owned } else r) := by
  have hz : ((some (0 : Word)).getD 0 == 1) = false := rfl
  have harrive : ((if r.st = .lent then s.modCtx (s.opWho c o).ctx fun x => x.setRegion { r with st := .owned } else s).ctx
      (s.opWho c o).ctx).region? (Ptr.local a.ptr) = some (if r.st = .lent then { r with st := .owned } else r) := by
    split
    · exact State.region_modCtx h.region rfl rfl rfl
    · exact h.region
  unfold State.tokenSettle
  rw [h1]
  rcases hi with hi | hi
  all_goals
    rw [hi]
    dsimp only
    rw [Bool.false_and, if_neg Bool.false_ne_true, (State.onlyBytes_tokenEnd ..).regions.region, h.regionAgain]
    dsimp only
    rw [hz, if_neg Bool.false_ne_true]
    exact harrive

/-- A TKUNHOME waits for the accesses that home served before it (R198). -/
theorem TokenAt.settle_tkunhome_waits {x : TkA} {n far : Nat} (hi : o.ins = .tkunhome x)
    (hopen : s.homedOpen (s.opWho c o).ctx (o.limit.getD 0) r = true) :
    s.tokenSettle c o (s.opWho c o) n far = s.postQ c (s.now c + 1) (.tokenOpAtHome c o.id) := by
  unfold State.tokenSettle
  rw [hi, h.regionAgain]
  dsimp only
  rw [Option.any_some, hopen, Bool.true_and, if_pos rfl]

/-- A TKUNHOME for which no such access is open completes. -/
theorem TokenAt.settle_tkunhome_ends {x : TkA} {n far : Nat} (hi : o.ins = .tkunhome x) (h1 : o.args[1]? = none)
    (hopen : s.homedOpen (s.opWho c o).ctx (o.limit.getD 0) r = false) :
    s.tokenSettle c o (s.opWho c o) n far = s.tokenEnd c o (State.tokWs o true) (100 + far + n) := by
  have hz : ((none : Option Word).getD 0 == 1) = false := rfl
  unfold State.tokenSettle
  rw [hi, h.regionAgain, h1]
  dsimp only
  rw [Option.any_some, hopen, Bool.and_false, if_neg Bool.false_ne_true, hz, if_neg Bool.false_ne_true]

end

/-- Settles O43: what each instruction makes of the region, by what home does, and the regions after it. -/
theorem tokenEvents : Obligations.TokenEvents := by
  intro s c id o a rest r ho ha hm w caller there regions arg hr
  have hat : TokenAt s c id o a r := ⟨ho, by rw [ha]; rfl, hm, hr⟩
  have hn : w.ctx < 16 := State.region_lt hr
  have hid : o.id = id := State.op_id ho
  refine ⟨hat.busy, fun hst hf hb => ?first, fun hst n hf => ?later, fun x hi hst => ?take⟩
  case first =>
    refine ⟨fun x hi hm hl hne hw => ?lend, fun x hi hm hl hw => ?ret, fun x hi hm hl hw => ?home, fun x hi hh hc => ?unhome,
      fun x hi hfree => ?adopt, fun x hi hm h1 h20 hk hroom => ?split, fun x hi hj ho' hs h1 h20 hk => ?join,
      fun x hi hj ho' => ⟨fun hroom hw => ?share, fun hroom => ?refused⟩, fun x hi hj y hy h1 => ?unshare, fun x hi G hG => ?query⟩
    case lend => exact hat.acts hst hf hb (State.tokDo_tklend hr hi hm hl hne) fun _ => State.region_flush hr rfl rfl hw
    case ret => exact hat.acts hst hf hb (State.tokDo_tkret hr hi hm hl) fun _ => State.region_flush hr rfl rfl hw
    case home => exact hat.acts hst hf hb (State.tokDo_tkhome hr hi hm hl) fun _ => State.region_flush hr rfl rfl hw
    case unhome => exact hat.acts hst hf hb (State.tokDo_tkunhome hr hi hh hc) fun _ => State.region_set hr rfl rfl
    case adopt => exact hat.acts hst hf hb (State.tokDo_tkadopt hr hi hfree) fun _ => State.region_set hr rfl rfl
    case split => exact hat.acts hst hf hb (State.tokDo_tksplit hr hi hm h1 h20 hk hroom) fun _ => State.regions_split hn
    case join =>
      intro k block piece alike ps
      refine hat.acts hst hf hb (State.tokDo_tkjoin hr hi hj ho' hs h1 h20 hk) fun far => ?_
      by_cases hc : ps.length = 2 ^ arg.toNat ∧ ps.all alike = true
      · let joined := (regions s).filter (fun q => !piece q) ++ [{ r with base := block, k := k, shares := 0, hcore := none }]
        have hy : (s.ctx w.ctx).joinRegion r arg.toNat = some { s.ctx w.ctx with regions := joined } := if_pos hc
        rw [if_pos hc, if_pos (by rw [hy]; rfl)]
        exact State.regions_join hn hat.regionAgain hy
      · have hy : (s.ctx w.ctx).joinRegion r arg.toNat = none := if_neg hc
        rw [if_neg hc, if_neg (by rw [hy]; exact Bool.false_ne_true)]
        exact State.sameRegions_refuse w.ctx
    case share =>
      exact hat.acts hst hf hb ((State.tokDo_tkshare hr hi hj ho').trans (if_pos hroom)) fun _ => State.region_share hr hw
    case refused =>
      exact hat.acts hst hf hb ((State.tokDo_tkshare hr hi hj ho').trans (if_neg (by rw [hroom]; exact Bool.false_ne_true)))
        fun _ => (State.sameRegions_refuse.region ..).trans hr
    case unshare =>
      have hany : ((s.ctx w.ctx).shares.any fun y => y.base == r.base && y.holder == caller) = true :=
        
        List.any_eq_true.mpr ⟨y, List.mem_of_find?_eq_some hy,
          List.find?_some (p := fun y : Share => y.base == r.base && y.holder == caller) hy⟩
      exact hat.acts hst hf hb (State.tokDo_tkunshare hr hi hj hany) fun _ => State.region_unshare hr hy h1
    case query =>
      refine hat.acts hst hf hb (State.tokDo_tkquery hr hi) fun far => ⟨State.sameRegions_query w.ctx, ?_⟩
      rw [← hid]
      exact State.pend_query hi hG
  case later =>
    obtain ⟨far, hx⟩ := hat.settles hst hf
    refine ⟨fun x hi h1 => ⟨_, hx, hat.region_settle_tkhome hi h1⟩, fun x hi h1 => ⟨_, hx, hat.region_settle_lend hi h1⟩,
      fun x hi h1 => ⟨fun hopen => ?waits, fun hopen => ?ends⟩⟩
    case waits => rw [hx, hat.settle_tkunhome_waits hi hopen, hid]
    case ends =>
      rw [hat.settle_tkunhome_ends hi h1 hopen] at hx
      refine ⟨_, hx, ((s.onlyBytes_tokenEnd ..).regions.region ..).trans hr, ?_⟩
      rw [← hid] at ho ⊢
      exact ⟨_, State.op_tokenEnd _ _ ho, rfl⟩
  case take =>
    obtain ⟨far, hx⟩ := hat.takes hst
    refine ⟨fun hb => ?busy, fun hb ho' hno => ?waits, fun hb ho' hyes => ?taken⟩
    case busy => exact hx.trans (congrArg _ (if_pos hb))
    case waits =>
      rw [hb, if_neg Bool.false_ne_true, State.tokDo_tktake hr hi ho', hno, if_neg Bool.false_ne_true] at hx
      rw [hx, ← hid]
      rfl
    case taken =>
      rw [hb, if_neg Bool.false_ne_true, State.tokDo_tktake hr hi ho', if_pos hyes] at hx
      refine ⟨_, hx, State.mem_take, ?_⟩
      rw [← hid] at ho ⊢
      exact State.op_take ho rfl

end Sys2Proof.Machine
end

section
/-! SUPPORT. Atomics at their issue (R209, R215, R220), and the settling of O25. -/

namespace Sys2Proof.Machine

open Sys2Proof

/-- An instruction that does nothing, its guard being false, only sets its flag. -/
theorem acts_idle {i : Instr} {s : State} {h : Hdr} {u : Use} {I : Iss} {body : Iss → Res} (hr : Ready s h u I)
    (hi : exec i s = issue h u s body) (hb : ∃ e : Eff, e.comp = .flag I.t ∧ e.flow = .next ∧ e.after = none ∧ e.serviced = none ∧
      body I = I.ok e) : Acts i s I s (I.Flags · (I.t + 1)) := by
  obtain ⟨e, hc, hf, ha, hs, hb⟩ := hb
  exact acts_fresh hr.issuer (acts_flag hr hi hb (Iss.group_at hr.issuer) rfl hf ha hs hc)

/-! ## Atomics -/

section
variable {i : Instr} {s : State} {h : Hdr} {u : Use} {I : Iss} {body : Iss → Res} {accs : List Acc} {marked : List Nat}

/-- An atomic issues as its accesses fare, and commits its crew beside them as a store does (R152, R354). -/
theorem accessIssues_atomic {more : State → State} (hr : Ready s h u I) (hi : exec i s = issue h u s body)
    (hb : ∃ occ, body I = I.atomic i accs marked occ) (hm : accs ≠ [] → more = I.releases i) :
    AccessIssues i s I (opOf i I accs) true marked more fun s => s.commitAhead I.who i accs := by
  obtain ⟨_, hb⟩ := hb
  exact accessIssues_of hr hi (fun h0 => hb.trans (I.commits_nil i h0 _)) (fun h0 => by rw [hm h0]; exact hb.trans (I.commits_cons i h0 _))
    rfl rfl ⟨rfl, rfl, rfl, rfl⟩ (fun h0 s => by rw [hm h0]; exact I.releases_cores i s) fun s => s.commitAhead_cores ..

end

/-- The accesses of ATOM carry the operands and comparands of their lanes (R215). -/
theorem Iss.laneAccs_operands (I : Iss) (x : AtomA) : let b := I.vsrc false x.b
    (I.laneAccs (.s x.a) (fun l => ((b.at l).val.toInt, (b.at l).k)) (if x.dbl then 8 else 4)).map (fun a =>
      { a with data := (I.laneOperand false x.d x.dbl a.lane).1.zeroExtend 128, cmp := (I.laneOperand x.zx x.cmp x.dbl a.lane).1 }) =
    (lanesOf I (.s x.a) (fun l => ((b.at l).val, (b.at l).k)) 1 (if x.dbl then 8 else 4)).map fun a =>
      { a with data := (I.laneOperand false x.d x.dbl a.lane).1.zeroExtend 128, cmp := (I.laneOperand x.zx x.cmp x.dbl a.lane).1 } := by
  intro b
  rw [I.laneAccs_bytes]

/-- The one access of ATOMS carries the scalar operand and comparand (R215). -/
theorem Iss.oneAcc_operands (I : Iss) (r n : Nat) (off : Elem) (v : BitVec 128) (m : BitVec 64) :
    (I.oneAcc r off n).map (fun a => { a with data := v, cmp := m }) = if I.active = 0 then [] else
      [{ accOf 0 I.t (Ptr.advance (I.striple r).1 off.val.toInt) n ((I.striple r).2 || off.k) with data := v, cmp := m }] := by
  rw [I.oneAcc_eq]
  split <;> rfl

/-- The release of WPARR commits its crew beyond the core (R152, R220). -/
theorem Iss.releases_wparr (I : Iss) (x : WparrA) :
    (fun s : State => if x.scope == .gang || x.scope == .dev || x.scope == .sys then s.commit I.G.ctx I.G.crew 1 else s) =
      I.releases (.wparr x) := by
  funext s
  rw [Iss.releases, show (accMode (.wparr x)).bind (·.rel) = some x.scope from rfl]
  cases x.scope <;> rfl

/-- Settles O25: ATOM, ATOMS and WPARR are one atomic of their accesses with their operands, which issues as its accesses fare and commits
the crew beside it; a WPARR with a false guard only sets its flag. -/
theorem atomicsIssue : Obligations.AtomicsIssue := by
  refine ⟨fun x s I => ⟨fun hr => ?lanes, fun hr => ?one⟩, fun x s I hr => ?arrive⟩
  case lanes =>
    refine accessIssues_atomic hr rfl ?_ (I.releases_eq rfl)
    dsimp only
    rw [I.laneAccs_operands]
    exact ⟨_, rfl⟩
  case one =>
    refine accessIssues_atomic hr rfl ?_ (I.releases_eq rfl)
    dsimp only
    rw [I.oneAcc_operands]
    exact ⟨_, rfl⟩
  case arrive =>
    dsimp only
    split
    · rename_i hq
      exact accessIssues_atomic hr rfl ⟨_, if_neg (by simp [hq])⟩ fun _ => I.releases_wparr x
    · rename_i hq
      exact acts_idle hr rfl ⟨_, rfl, rfl, rfl, rfl, if_pos (by simpa using hq)⟩

end Sys2Proof.Machine
end

section
/-! SUPPORT. Barriers, waits and fences at their issue (R216, R218, R221 to R224), and the settling of O27. -/

namespace Sys2Proof.Machine

open Sys2Proof

/-! ## Barriers -/

/-- A barrier begun: its arrival is to register in the next cycle, or, its group having arrived already, it waits with it (R217). -/
def Iss.arrives (I : Iss) (i ev : Instr) (joined : Bool) (s : State) : State :=
  if joined then s.addOp I.c { opOf i I [] with stage := .waiting } else (s.addOp I.c (opOf i I [])).postQ I.c (I.t + 1) ev

@[simp] theorem Iss.group_arrives (I : Iss) (i ev : Instr) (joined : Bool) (s : State) (c g : Nat) :
    (I.arrives i ev joined s).group? c g = s.group? c g := by
  unfold Iss.arrives
  split
  · exact State.group_addOp ..
  · rw [State.group_postQ, State.group_addOp]

/-- A commitment leaves every group. -/
@[simp] theorem State.group_commit (s : State) (ctx crew : Nat) (w : BitVec 4) (c g : Nat) :
    (s.commit ctx crew w).group? c g = s.group? c g := State.group_congr (s.commit_cores ..) c g

section
variable {x : BarA} {s : State} {I : Iss}

/-- BAR registers its arrival, or waits with that of its group (R216, R217). -/
theorem bar_spec (hr : Ready s x.h {} I) (hq : I.qok = true) : Acts (.bar x) s I (I.arrives (.bar x) (.barArrivalRegister I.c I.id)
    (I.crew.any fun k => (k.bars[x.n.val]?.getD ⟨false, []⟩).arrived.contains I.G.pos) I.s) I.Unset :=
  acts_later (e := { comp := .later false, unit := .lsu, charge := 4 }) hr rfl (if_neg (by simp [hq]))
    ((I.group_arrives ..).trans (Iss.group_at hr.issuer)) rfl rfl rfl rfl rfl

/-- GBAR of an attached crew commits it, and registers its arrival or waits with that of its group (R218). -/
theorem gbar_attached (hr : Ready s x.h {} I) (hq : I.qok = true) (ha : (I.crew.any fun k => k.att.now?) = true) :
    Acts (.gbar x) s I (I.arrives (.gbar x) (.gbarArrivalRegister I.c I.id)
      (I.crew.any fun k => (k.gbars[x.n.val]?.getD ⟨false, []⟩).arrived.contains I.G.pos) (I.s.commit I.G.ctx I.G.crew 1)) I.Unset :=
  acts_later (e := { comp := .later false, unit := .lsu, charge := 4 }) hr rfl ((if_neg (by simp [hq])).trans (if_neg (by simp [ha])))
    ((I.group_arrives ..).trans ((State.group_commit ..).trans (Iss.group_at hr.issuer))) rfl rfl rfl rfl rfl

/-- GBAR of a crew that is not attached commits it and joins no gang (R218). -/
theorem gbar_unattached (hr : Ready s x.h {} I) (hq : I.qok = true) (ha : ¬(I.crew.any fun k => k.att.now?) = true) :
    Acts (.gbar x) s I (I.s.commit I.G.ctx I.G.crew 1) (I.Flags · (I.t + 2)) :=
  acts_flag (e := { comp := .flag (I.t + 1), unit := .lsu, charge := 4 }) hr rfl
    ((if_neg (by simp [hq])).trans (if_pos (by simpa using ha))) ((State.group_commit ..).trans (Iss.group_at hr.issuer)) rfl rfl rfl rfl rfl

end

/-! ## Waits -/

section
variable {i : Instr} {x : WaitA} {s : State} {u : Use} {I : Iss} {body : Iss → Res}

/-- The limit of a wait, of 4 cycles at least (R221). -/
def Iss.waitLimit (I : Iss) (x : WaitA) : Option Nat := if x.lsel = 0 then none else some (I.t + max 4 (I.wlim x.lsel.val))

/-- The operation of a wait. -/
def Iss.waitOp (I : Iss) (i : Instr) (x : WaitA) : Op :=
  { opOf i I [accOf 0 I.t (I.striple x.a).1 4 (I.striple x.a).2] with args := [(I.sval x.zx x.b).val], limit := I.waitLimit x }

/-- The event of a wait's limit. -/
def Iss.waitLimits (I : Iss) (x : WaitA) (s : State) : State :=
  match I.waitLimit x with
  | some t => s.postQ I.c t (.waitLimitExpiry I.c I.id)
  | none => s

theorem Iss.waitLimits_cores (I : Iss) (x : WaitA) (s : State) : (I.waitLimits x s).cores = s.cores := by
  unfold Iss.waitLimits
  split <;> rfl

/-- What a wait hands over. -/
def waitEff (x : WaitA) : Eff := { comp := .later (gdest x.d != .none), unit := .lsu, charge := 4 }

/-- A wait that issues puts its limit on the agenda. -/
theorem besides_waitLimits (I : Iss) (i : Instr) (x : WaitA) (r : Res) : (match r with
    | .done s e => Res.done (s.postWaitLimit I.c (I.waitOp i x)) e
    | r => r) = r.besides (I.waitLimits x) id := by
  cases r with
  | done s e => exact congrArg (Res.done · e) (ite_self _).symm
  | _ => rfl

/-- What the guard, the mark of b and the address monitor make of a wait. -/
theorem wait_cases (I : Iss) (i : Instr) (x : WaitA) : I.wait i x =
    if I.qok = false then I.ok { waitEff x with comp := .flag I.t }
    else if (I.sval x.zx x.b).k then .stop I.kAll
    else if (I.s.core I.c).ops.any fun q => q.slot == I.g && monitors q I.t then .hold I.s
    else (I.access (I.waitOp i x) false [] (waitEff x)).besides (I.waitLimits x) id := by
  unfold Iss.wait
  cases I.qok with
  | false => rfl
  | true =>
    refine (if_neg (by decide)).trans (.trans ?_ (if_neg (by decide)).symm)
    exact if_congr Iff.rfl rfl (if_congr Iff.rfl rfl (besides_waitLimits I i x _))

/-- A wait issues by its guard, the mark of b and the address monitor of its group (R221 to R223). -/
theorem waitIssues_of (hr : Ready s x.h u I) (hi : exec i s = issue x.h u s body) (hb : body I = I.wait i x) :
    if I.qok = false then Acts i s I s (I.Flags · (I.t + 1))
    else if (I.sval x.zx x.b).k then Stops i s I I.kAll
    else if (I.s.core I.c).ops.any fun q => q.slot == I.g && monitors q I.t then exec i s = .next (I.held I.s)
    else AccessIssues i s I (I.waitOp i x) false [] (I.waitLimits x) id := by
  rw [wait_cases I i x] at hb
  split
  · rename_i hq
    rw [if_pos hq] at hb
    exact acts_idle hr hi ⟨_, rfl, rfl, rfl, rfl, hb⟩
  · rename_i hq
    rw [if_neg hq] at hb
    split
    · rename_i hk
      exact stops_of hr hi (hb.trans (if_pos hk))
    · rename_i hk
      rw [if_neg hk] at hb
      split
      · rename_i hm
        exact exec_held hr hi (hb.trans (if_pos hm))
      · rename_i hm
        rw [if_neg hm] at hb
        exact accessIssues_of hr hi (fun h => absurd h (List.cons_ne_nil _ _)) (fun _ => hb) rfl rfl ⟨rfl, rfl, rfl, rfl⟩
          (fun _ s => I.waitLimits_cores x s) fun _ => rfl

end

/-! ## Fences -/

/-- A fence begun, its crew committed by a release beyond the core (R224). -/
theorem fence_spec {x : FenceA} {s : State} {I : Iss} (hr : Ready s x.h {} I) (hq : I.qok = true) :
    let s1 := (I.s.addOp I.c { opOf (.fence x) I [] with stage := .waiting }).postQ I.c (I.t + 1) (.accessCheckComplete I.c I.id)
    Acts (.fence x) s I (if Ord.releases x.ord && scopeWide x.scope then s1.commit I.G.ctx I.G.crew 1 else s1) I.Unset := by
  intro s1
  have hs1 : s1.group? I.c I.g = some I.G := (State.group_postQ ..).trans ((State.group_addOp ..).trans (Iss.group_at hr.issuer))
  refine acts_later (e := { comp := .later false, unit := .lsu, charge := 4 }) hr rfl (if_neg (by simp [hq])) ?_ rfl rfl rfl rfl rfl
  split
  · exact (State.group_commit ..).trans hs1
  · exact hs1

theorem Ord.releases_eq (o : Ord) : Ord.releases o = (o == .rel || o == .ar) := by cases o <;> rfl

theorem scopeWide_eq (sc : Scope) : scopeWide sc = (sc == .gang || sc == .dev || sc == .sys) := by cases sc <;> rfl

/-- Settles O27: a false guard leaves each idle; else BAR and GBAR by the arrival of their group, the waits by their rule, FENCE by its
release. -/
theorem synchronisationIssues : Obligations.SynchronisationIssues := by
  refine ⟨fun x s I hr => ?barriers, fun x s I hr => ?waits, fun x s I hr => ?fence⟩
  case barriers =>
    dsimp only
    split
    · rename_i hq
      have hno : (!I.qok) = true := by rw [hq]; rfl
      exact ⟨acts_idle hr rfl ⟨_, rfl, rfl, rfl, rfl, if_pos hno⟩, acts_idle hr rfl ⟨_, rfl, rfl, rfl, rfl, if_pos hno⟩⟩
    · rename_i hq
      rw [Bool.not_eq_false] at hq
      refine ⟨bar_spec hr hq, ?_⟩
      split
      · rename_i ha
        exact gbar_attached hr hq ha
      · rename_i ha
        exact gbar_unattached hr hq ha
  case waits => exact ⟨waitIssues_of hr rfl rfl, waitIssues_of hr rfl rfl⟩
  case fence =>
    dsimp only
    split
    · rename_i hq
      exact acts_idle hr rfl ⟨_, rfl, rfl, rfl, rfl, if_pos (by rw [hq]; rfl)⟩
    · rename_i hq
      rw [Bool.not_eq_false] at hq
      rw [← Ord.releases_eq, ← scopeWide_eq]
      exact fence_spec hr hq

end Sys2Proof.Machine
end

section
/-! SUPPORT. Barrier phases, monitored words and limits (R216, R218, R221, R223, R239), and the settling of O42. -/

namespace Sys2Proof.Machine

open Sys2Proof

/-! ## Arrivals -/

/-- A barrier at which a group has arrived: once, however often it comes (R217). -/
def Bar.arrive (p : Nat) (b : Bar) : Bar := ⟨b.phase, if p ∈ b.arrived then b.arrived else p :: b.arrived⟩

/-- A barrier whose phase has completed (R216, R218). -/
def Bar.turn (b : Bar) : Bar := ⟨!b.phase, []⟩

theorem Bar.arrive_eq (p : Nat) (b : Bar) :
    (if b.arrived.contains p then b else { b with arrived := p :: b.arrived }) = b.arrive p := by
  unfold Bar.arrive
  by_cases h : p ∈ b.arrived
  · rw [if_pos h, if_pos (by simpa using h)]
  · rw [if_neg h, if_neg (by simpa using h)]

theorem Bar.mem_arrive (p : Nat) (b : Bar) : p ∈ (b.arrive p).arrived := by
  unfold Bar.arrive
  split
  · assumption
  · exact List.mem_cons_self

@[simp] theorem State.group_arriveOps (s : State) (c slot : Nat) (mine : Instr → Bool) (d g : Nat) :
    (s.arriveOps c slot mine).group? d g = s.group? d g :=
  State.group_modCore (f := fun k => { k with
    ops := k.ops.map fun q => if q.slot = slot ∧ mine q.ins ∧ q.stage = .check then { q with stage := .waiting } else q }) fun _ => rfl

/-- The groups that a barrier waits for are told by the crew's slots and the groups in them. -/
theorem State.expected_congr {s t : State} (h : ∀ c g, t.group? c g = s.group? c g) (k : Crew) : t.expected k = s.expected k := by
  unfold State.expected
  rw [show t.group? k.core = s.group? k.core from funext (h k.core)]

theorem State.onlyBytes_finishOp (s : State) (c : Nat) (o : Op) (ws : List RegWrite) (lam : Nat) :
    s.OnlyBytes (s.finishOp c o ws lam) := ⟨rfl, rfl⟩

/-- A place of a vector that is there can be read after it is set. -/
theorem getElem?_setIfInBounds_self_of_some {α : Type} {n i : Nat} {v : Vector α n} {a : α} (h : v[i]? = some a) (b : α) :
    (v.setIfInBounds i b)[i]? = some b := by
  obtain ⟨hi, -⟩ := Vector.getElem?_eq_some_iff.mp h
  exact Vector.getElem?_setIfInBounds_self_of_lt hi

/-! ## Crew barriers -/

/-- A crew at one of whose crew barriers a group has arrived. -/
def Crew.arriveBar (n p : Nat) (k : Crew) : Crew := { k with bars := k.bars.setIfInBounds n (((k.bars[n]?).getD ⟨false, []⟩).arrive p) }

theorem Crew.bars_arriveBar {n : Nat} {k : Crew} {b : Bar} (hb : k.bars[n]? = some b) (p : Nat) :
    (k.arriveBar n p).bars[n]? = some (b.arrive p) := by
  rw [Crew.arriveBar, hb]
  exact getElem?_setIfInBounds_self_of_some hb _

/-- A crew barrier that some group has arrived at completes its phase when every group it waits for has arrived (R216). -/
theorem State.barCheck_spec {s : State} {ctx crew n : Nat} {k : Crew} {b : Bar} (hk : s.crew? ctx crew = some k)
    (hb : k.bars[n]? = some b) (hne : b.arrived ≠ []) : ∃ k', (s.barCheck ctx crew n).crew? ctx crew = some k' ∧
      k'.bars[n]? = some (if s.expected k ≠ [] ∧ ∀ p ∈ s.expected k, p ∈ b.arrived then b.turn else b) := by
  have hwait : ((s.expected k).isEmpty || b.arrived.isEmpty || !(s.expected k).all b.arrived.contains) = true ↔
      ¬(s.expected k ≠ [] ∧ ∀ p ∈ s.expected k, p ∈ b.arrived) := by
    simp [hne, imp_iff_not_or]
  unfold State.barCheck
  rw [hk]
  dsimp only
  rw [hb, Option.getD_some]
  split
  · rename_i h
    rw [if_neg (hwait.mp h)]
    exact ⟨k, hk, hb⟩
  · rename_i h
    rw [if_pos (not_not.mp (hwait.not.mp h))]
    refine ⟨_, (State.crew_congr (State.foldl_onlyBytes (fun s o => s.onlyBytes_finishOp ..) _ _).ctxs ..).trans
      (State.crew_modCrew hk fun _ => rfl), ?_⟩
    exact getElem?_setIfInBounds_self_of_some hb _

/-- R216: an arrival registers, its group's older accesses being performed, and may complete the phase. -/
theorem execBarArrivalRegister_eq {s : State} {c id : Nat} {o : Op} {x : BarA} {G : Group} (ho : s.op? c id = some o)
    (hG : s.group? c o.slot = some G) (hst : o.stage = .check) (hi : o.ins = .bar x) (hold : ∀ q ∈ s.olderOps c o, Op.done q = true) :
    exec (.barArrivalRegister c id) s = .next (((s.arriveOps c o.slot (isBar x.n.val)).modCrew G.ctx G.crew
      (Crew.arriveBar x.n.val G.pos)).barCheck G.ctx G.crew x.n.val) := by
  have hx : exec (.barArrivalRegister c id) s = execBarArrivalRegister c id s := rfl
  rw [hx, execBarArrivalRegister, ho]
  dsimp only
  rw [hi, hG]
  dsimp only
  rw [if_neg (not_not.mpr hst), if_neg (by simpa using hold)]
  simp only [Bar.arrive_eq]
  rfl

/-- What an arrival that registers leaves of its crew's barrier (R216). -/
theorem barArrivalRegister_runs {s : State} {c id : Nat} {o : Op} {x : BarA} {G : Group} {k : Crew} {b : Bar} (ho : s.op? c id = some o)
    (hG : s.group? c o.slot = some G) (hk : s.crew? G.ctx G.crew = some k) (hst : o.stage = .check) (hi : o.ins = .bar x)
    (hold : ∀ q ∈ s.olderOps c o, Op.done q = true) (hb : k.bars[x.n.val]? = some b) :
    Runs (.barArrivalRegister c id) s fun t => ∃ k', t.crew? G.ctx G.crew = some k' ∧ k'.bars[x.n.val]? = some
      (if s.expected k ≠ [] ∧ ∀ p ∈ s.expected k, p ∈ (b.arrive G.pos).arrived then b.turn else b.arrive G.pos) := by
  refine ⟨_, execBarArrivalRegister_eq ho hG hst hi hold, ?_⟩
  have hk1 : (s.arriveOps c o.slot (isBar x.n.val)).crew? G.ctx G.crew = some k := hk
  have hexp : ((s.arriveOps c o.slot (isBar x.n.val)).modCrew G.ctx G.crew (Crew.arriveBar x.n.val G.pos)).expected
      (k.arriveBar x.n.val G.pos) = s.expected k :=
    State.expected_congr (fun c g => (State.group_congr rfl c g).trans (State.group_arriveOps ..)) k
  rw [← hexp]
  exact State.barCheck_spec (State.crew_modCrew hk1 fun _ => rfl) (Crew.bars_arriveBar hb G.pos) (List.ne_nil_of_mem (b.mem_arrive G.pos))

/-! ## Gang barriers -/

/-- A crew changed leaves every other. -/
theorem State.crew_modCrew_ne {s : State} {ctx crew q : Nat} {f : Crew → Crew} (h : crew ≠ q) (hf : ∀ k, (f k).id = k.id) :
    (s.modCrew ctx q f).crew? ctx crew = s.crew? ctx crew := by
  by_cases hctx : ctx < 16
  · rw [State.crew?, State.modCrew, State.ctx_modCtx _ _ _ hctx, List.find?_map]
    have hp : ((fun k : Crew => k.id == crew) ∘ fun k => if k.id = q then f k else k) = fun k => k.id == crew := by
      funext k
      by_cases hk : k.id = q <;> simp [hk, hf]
    rw [hp]
    change Option.map _ (s.crew? ctx crew) = s.crew? ctx crew
    cases hs : s.crew? ctx crew with
    | none => rfl
    | some k =>
      have hid : k.id = crew := by simpa using List.find?_some hs
      rw [Option.map_some, if_neg (hid.trans_ne h)]
  · rw [State.crew?, State.crew?, State.ctx_of_le (by omega), State.ctx_of_le (by omega)]

/-- A crew changed keeps the crews' numbers. -/
theorem State.crewIds_modCrew {s : State} {ctx q : Nat} {f : Crew → Crew} (hf : ∀ k, (f k).id = k.id) :
    ((s.modCrew ctx q f).ctx ctx).crews.map (fun k => k.id) = (s.ctx ctx).crews.map fun k => k.id := by
  by_cases hctx : ctx < 16
  · rw [State.modCrew, State.ctx_modCtx _ _ _ hctx, List.map_map]
    refine List.map_congr_left fun k _ => ?_
    rw [Function.comp_apply]
    split
    · exact hf k
    · rfl
  · rw [State.ctx_of_le (by omega), State.ctx_of_le (by omega)]

/-- Crews changed one after another: one that is named once changes once, and one that is not stays. -/
theorem State.crew_foldl_modCrew {ctx crew : Nat} {f : Crew → Crew} (hf : ∀ k, (f k).id = k.id) {step : State → Crew → State}
    (hstep : ∀ s q, (step s q).ctxs = (s.modCrew ctx q.id f).ctxs) (ms : List Crew) (hn : (ms.map fun q => q.id).Nodup) {s : State}
    {k : Crew} (hk : s.crew? ctx crew = some k) :
    (ms.foldl step s).crew? ctx crew = some (if crew ∈ ms.map fun q => q.id then f k else k) := by
  induction ms generalizing s k with
  | nil => exact hk
  | cons q ms ih =>
    rw [List.map_cons, List.nodup_cons] at hn
    obtain ⟨hq, hn⟩ := hn
    have hs := State.crew_congr (hstep s q) ctx crew
    rw [List.foldl_cons]
    by_cases h : crew = q.id
    · subst h
      rw [ih hn (hs.trans (State.crew_modCrew hk hf)), if_neg hq, if_pos (by simp)]
    · rw [ih hn (hs.trans ((State.crew_modCrew_ne h hf).trans hk))]
      exact congrArg some (if_congr (by simp [h]) rfl rfl)

/-- A crew at one of whose gang barriers a group has arrived. -/
def Crew.arriveGbar (n p : Nat) (k : Crew) : Crew := { k with gbars := k.gbars.setIfInBounds n (((k.gbars[n]?).getD ⟨false, []⟩).arrive p) }

theorem Crew.gbars_arriveGbar {n : Nat} {k : Crew} {b : Bar} (hb : k.gbars[n]? = some b) (p : Nat) :
    (k.arriveGbar n p).gbars[n]? = some (b.arrive p) := by
  rw [Crew.arriveGbar, hb]
  exact getElem?_setIfInBounds_self_of_some hb _

/-- A crew whose gang barrier has completed its phase (R218). -/
def Crew.turned (n : Nat) (k : Crew) : Crew := { k with gbars := k.gbars.setIfInBounds n ((k.gbars[n]?).getD ⟨false, []⟩).turn }

/-- A gang barrier stays in its phase at a crew, or completes it there once (R218). -/
theorem State.gangCheck_spec {s : State} {ctx crew gang n last : Nat} {k : Crew} {b : Bar} (hk : s.crew? ctx crew = some k)
    (hn : ((s.ctx ctx).crews.map fun q => q.id).Nodup) (hb : k.gbars[n]? = some b) :
    ∃ k', (s.gangCheck ctx gang n last).crew? ctx crew = some k' ∧ (k'.gbars[n]? = some b ∨ k'.gbars[n]? = some b.turn) := by
  have hturn : (k.turned n).gbars[n]? = some b.turn := by
    rw [Crew.turned, hb]
    exact getElem?_setIfInBounds_self_of_some hb _
  unfold State.gangCheck
  dsimp only
  split
  · exact ⟨k, hk, .inl hb⟩
  · refine ⟨_, State.crew_foldl_modCrew (f := Crew.turned n) (fun _ => rfl) (fun s q => ?step) _
      (hn.sublist (List.filter_sublist.map _)) hk, ?_⟩
    case step =>
      refine (State.foldl_onlyBytes (fun s o => s.onlyBytes_finishOp ..) _ _).ctxs.trans ?_
      split <;> rfl
    · split
      · exact .inr hturn
      · exact .inl hb

/-- R218: an arrival registers, its group's older accesses being performed at the gang's scope, and may complete the phase. -/
theorem execGbarArrivalRegister_eq {s : State} {c id : Nat} {o : Op} {x : BarA} {G : Group} (ho : s.op? c id = some o)
    (hG : s.group? c o.slot = some G) (hst : o.stage = .check) (hi : o.ins = .gbar x)
    (hrel : s.released (G.who c) (s.olderOps c o) .gang = true) :
    ∃ gang, exec (.gbarArrivalRegister c id) s = .next (((s.arriveOps c o.slot (isGbar x.n.val)).modCrew G.ctx G.crew
      (Crew.arriveGbar x.n.val G.pos)).gangCheck G.ctx gang x.n.val c) := by
  have hx : exec (.gbarArrivalRegister c id) s = execGbarArrivalRegister c id s := rfl
  rw [hx, execGbarArrivalRegister, ho]
  dsimp only
  rw [hi, hG]
  dsimp only
  rw [if_neg (not_not.mpr hst), if_neg (by simp [hrel])]
  simp only [Bar.arrive_eq]
  exact ⟨_, rfl⟩

/-- What an arrival that registers leaves of its crew's part of the gang barrier (R218). -/
theorem gbarArrivalRegister_runs {s : State} {c id : Nat} {o : Op} {x : BarA} {G : Group} {k : Crew} {b : Bar} (ho : s.op? c id = some o)
    (hG : s.group? c o.slot = some G) (hk : s.crew? G.ctx G.crew = some k) (hn : ((s.ctx G.ctx).crews.map fun q => q.id).Nodup)
    (hst : o.stage = .check) (hi : o.ins = .gbar x) (hrel : s.released (G.who c) (s.olderOps c o) .gang = true)
    (hb : k.gbars[x.n.val]? = some b) :
    Runs (.gbarArrivalRegister c id) s fun t => ∃ k', t.crew? G.ctx G.crew = some k' ∧
      (k'.gbars[x.n.val]? = some (b.arrive G.pos) ∨ k'.gbars[x.n.val]? = some b.turn) := by
  obtain ⟨gang, hx⟩ := execGbarArrivalRegister_eq ho hG hst hi hrel
  refine ⟨_, hx, ?_⟩
  have hk1 : (s.arriveOps c o.slot (isGbar x.n.val)).crew? G.ctx G.crew = some k := hk
  refine State.gangCheck_spec (State.crew_modCrew hk1 fun _ => rfl) ?_ (Crew.gbars_arriveGbar hb G.pos)
  rw [State.crewIds_modCrew (f := Crew.arriveGbar x.n.val G.pos) fun _ => rfl]
  exact hn

/-! ## Waits -/

section
variable {s : State} {c : Nat} {o : Op} {n : Nat} {v : Word} {vs : List (Nat × Word)}

/-- No word seen satisfies the wait. -/
theorem State.waitTry_none (p : Option Spot) (h : ∀ y ∈ vs, waitMet o.ins y.2 (o.args.headD 0) = false) : s.waitTry c o p vs = none := by
  unfold State.waitTry
  rw [List.find?_eq_none.mpr fun y hy => by rw [h y hy]; decide]

/-- A word at home satisfies the wait, which ends 80 cycles later or more (R223). -/
theorem State.waitTry_home (pa : Nat) (h : vs.find? (fun y => waitMet o.ins y.2 (o.args.headD 0)) = some (n, v)) :
    ∃ lam, n + 80 ≤ lam ∧ s.waitTry c o (some (.home pa)) vs = some (s.freeNat.2.waitEnd c o v lam) := by
  unfold State.waitTry
  rw [h]
  refine ⟨_, ?_, rfl⟩
  omega

/-- A word in a core satisfies the wait, which ends 4 cycles later (R223). -/
theorem State.waitTry_core {p : Spot} (hp : ∀ pa, p ≠ .home pa)
    (h : vs.find? (fun y => waitMet o.ins y.2 (o.args.headD 0)) = some (n, v)) :
    s.waitTry c o (some p) vs = some (s.waitEnd c o v (max (o.firstRead.getD 0) (n + 4))) := by
  unfold State.waitTry
  rw [h]
  cases p with
  | home pa => exact absurd rfl (hp pa)
  | core => rfl
  | scratch => rfl

end

section
variable {s : State} {c id : Nat} {o : Op} {a : Acc} {rest : List Acc}

/-- What an operation monitors, and the values it has seen there. -/
def State.watched? (s : State) (c id : Nat) : Option Watch := s.watch.find? fun x => x.core == c && x.id == id

/-- R221: a word seen ends the wait. -/
theorem execMonitorReread_seen {t : State} (ho : s.op? c id = some o) (hst : o.stage = .waiting) (ha : o.accs = a :: rest)
    (ht : s.waitTry c o ((s.watched? c id).map (·.spot)) (((s.watched? c id).map (·.seen)).getD []) = some t) :
    exec (.monitorReread c id) s = .next t := by
  have hx : exec (.monitorReread c id) s = execMonitorReread c id s := rfl
  rw [hx, execMonitorReread, ho]
  dsimp only
  rw [hst, ha]
  dsimp only [List.head?_cons]
  rw [State.watched?] at ht
  rw [ht]

/-- A place that its core serves. -/
def Look.inCore : Look → Prop
  | .l1 .. | .scratch .. => True
  | _ => False

theorem State.spotOf_inCore {l : Look} (h : l.inCore) (w : Who) : ∃ p, State.spotOf w l = some p ∧ ∀ pa, p ≠ .home pa := by
  cases l with
  | l1 va pa => exact ⟨_, rfl, fun _ h => by cases h⟩
  | scratch k b => exact ⟨_, rfl, fun _ h => by cases h⟩
  | _ => exact h.elim

/-- R221: the word as it is now is read where the core serves it, and ends the wait or is monitored on. -/
theorem execMonitorReread_read {l : Look} {v : BitVec 128} {sm : BitVec 4} {s1 : State} (ho : s.op? c id = some o)
    (hst : o.stage = .waiting) (ha : o.accs = a :: rest)
    (ht : s.waitTry c o ((s.watched? c id).map (·.spot)) (((s.watched? c id).map (·.seen)).getD []) = none)
    (hl : s.look (s.opWho c o) a.ptr a.nbytes false = l) (hc : l.inCore)
    (hv : s.readAt (s.opWho c o) l a.nbytes = ((v, false, sm), s1)) :
    exec (.monitorReread c id) s = .next
      ((s1.waitTry c o (State.spotOf (s.opWho c o) l) [(s1.now c, v.extractLsb' 0 32)]).getD
        (((s1.setWatch c id (State.spotOf (s.opWho c o) l)).modOp c id fun o => { o with last := v.extractLsb' 0 32 }).postQ c (s1.now c + 1)
          (.monitorReread c id))) := by
  have hx : exec (.monitorReread c id) s = execMonitorReread c id s := rfl
  rw [hx, execMonitorReread, ho]
  dsimp only
  rw [hst, ha]
  dsimp only [List.head?_cons]
  rw [State.watched?] at ht
  rw [ht]
  dsimp only
  rw [hl]
  cases l with
  | l1 va pa =>
    dsimp only
    rw [hv]
    cases s1.waitTry c o (State.spotOf (s.opWho c o) (.l1 va pa)) [(s1.now c, v.extractLsb' 0 32)] <;> rfl
  | scratch k b =>
    dsimp only
    rw [hv]
    cases s1.waitTry c o (State.spotOf (s.opWho c o) (.scratch k b)) [(s1.now c, v.extractLsb' 0 32)] <;> rfl
  | _ => exact hc.elim

/-- R221: a limit that has passed ends a wait with the word last read. -/
theorem execWaitLimitExpiry_eq {n : Nat} (ho : s.op? c id = some o) (hst : o.stage = .waiting)
    (ht : s.waitTry c o ((s.watched? c id).map (·.spot)) (((s.watched? c id).map (·.seen)).getD []) = none)
    (hn : o.limit = some n) (hle : n ≤ s.now c) : exec (.waitLimitExpiry c id) s =
      .next (s.waitEnd c o (((((s.watched? c id).map (·.seen)).getD []).getLast?.map (·.2)).getD o.last) (max n (o.firstRead.getD 0))) := by
  have hx : exec (.waitLimitExpiry c id) s = execWaitLimitExpiry c id s := rfl
  rw [hx, execWaitLimitExpiry, ho]
  dsimp only
  rw [if_pos ⟨hst, by simpa [hn] using hle⟩, hn]
  rw [State.watched?] at ht ⊢
  rw [ht]
  rfl

/-- R239: a limit that has passed ends a TLD.AON with what it has read. -/
theorem execAonLimitExpiry_eq {n : Nat} (ho : s.op? c id = some o) (hst : o.stage = .check ∨ o.stage = .lent) (hn : o.limit = some n)
    (hle : n ≤ s.now c) : exec (.aonLimitExpiry c id) s = .next (s.aonEnd c o o.data false (s.now c)) := by
  have hx : exec (.aonLimitExpiry c id) s = execAonLimitExpiry c id s := rfl
  rw [hx, execAonLimitExpiry, ho]
  exact if_pos ⟨hst, by simpa [hn] using hle⟩

end

/-- Settles O42: arrivals by the phase they may complete, waits by the first word that satisfies them, limits by what they end. -/
theorem waitEvents : Obligations.WaitEvents := by
  refine ⟨fun s c id o x G k ho hG hk hn hst => ⟨fun hi hold b hb => ?bar, fun hi hrel b hb => ?gbar⟩,
    fun s c id o ho => ⟨fun hst a rest ha => ⟨fun x n v hm hv => ?seen, fun hno l hl hc v sm s1 hv => ?read⟩,
      fun hst hno n hn hle => ?limit, fun hst n hn hle => execAonLimitExpiry_eq ho hst hn hle⟩⟩
  case bar => exact barArrivalRegister_runs ho hG hk hst hi hold hb
  case gbar => exact gbarArrivalRegister_runs ho hG hk hn hst hi hrel hb
  case seen =>
    have hw : s.watched? c id = some x := hm
    have hfind : x.seen.find? (fun y => waitMet o.ins y.2 (o.args.headD 0)) = some (n, v) := by rw [hm] at hv; exact hv
    have hends {t : State} (ht : s.waitTry c o (some x.spot) x.seen = some t) : exec (.monitorReread c id) s = .next t :=
      execMonitorReread_seen ho hst ha (by rw [hw]; exact ht)
    split
    · rename_i pa hp
      obtain ⟨lam, hle, ht⟩ := State.waitTry_home pa hfind
      exact ⟨lam, hle, hends (by rw [hp]; exact ht)⟩
    · rename_i hp
      exact hends (State.waitTry_core hp hfind)
  case read =>
    obtain ⟨p, hp, hcore⟩ := State.spotOf_inCore hc (s.opWho c o)
    have hx := execMonitorReread_read ho hst ha (State.waitTry_none _ hno) hl hc hv
    refine ⟨fun hmet => ?ends, fun hmet => ?goesOn⟩
    case ends =>
      have ht := State.waitTry_core (s := s1) (c := c) (o := o) hcore
        (List.find?_cons_of_pos (a := (s1.now c, v.extractLsb' 0 32)) (l := []) hmet)
      rw [hp, ht] at hx
      exact hx
    case goesOn =>
      have ht := State.waitTry_none (s := s1) (c := c) (o := o) (vs := [(s1.now c, v.extractLsb' 0 32)])
        (State.spotOf (s.opWho c o) l) (List.forall_mem_singleton.mpr hmet)
      rw [ht] at hx
      exact hx
  case limit => exact execWaitLimitExpiry_eq ho hst (State.waitTry_none _ hno) hn hle

end Sys2Proof.Machine
end

section
/-! SUPPORT. What atomics and arrivals at a waypoint leave (R214, R220), and the settling of O26. -/

namespace Sys2Proof.Machine

open Sys2Proof

/-! ## Atomic operations -/

/-- Table 2 of chapter 10 on words of any width, but for FADD, which is on 32-bit words alone and stands here for no operation. -/
def AtomOp.word {n : Nat} (op : AtomOp) (m x c : BitVec n) : BitVec n :=
  match op with
  | .add => m + x
  | .and => m &&& x
  | .or => m ||| x
  | .xor => m ^^^ x
  | .min => if x.slt m then x else m
  | .max => if m.slt x then x else m
  | .umin => if x.ult m then x else m
  | .umax => if m.ult x then x else m
  | .xchg => x
  | .cas => if m = c then x else m
  | .fadd => m

/-- The low bits of a doubleword, which the model takes of its number. -/
theorem setWidth_low {n : Nat} {v : BitVec 64} {w : BitVec n} (h : v.setWidth n = w) :
    BitVec.ofNat 64 (v.toNat % 2 ^ n) = w.setWidth 64 := by
  subst h
  apply BitVec.eq_of_toNat_eq
  simp

/-- A word widened and narrowed again. -/
theorem setWidth_narrow {n : Nat} (hn : n ≤ 64) (v : BitVec n) : (v.setWidth 64).setWidth n = v := by
  rw [BitVec.setWidth_setWidth_of_le _ hn, BitVec.setWidth_eq]

theorem setWidth_wide_inj {n : Nat} (hn : n ≤ 64) {v w : BitVec n} : v.setWidth 64 = w.setWidth 64 ↔ v = w :=
  ⟨fun h => by rw [← setWidth_narrow hn v, h, setWidth_narrow hn], fun h => by rw [h]⟩

/-- The new value of an integer atomic is its operation on words of its width (R214). -/
theorem AtomOp.apply_eq {op : AtomOp} (hop : op ≠ .fadd) {n : Nat} (hn : n ≤ 64) (m x c : BitVec n) :
    AtomOp.apply op n (m.setWidth 64) (x.setWidth 64) (c.setWidth 64) = (AtomOp.word op m x c).setWidth 64 := by
  have hnar := setWidth_narrow hn
  have hlow (v : BitVec n) : BitVec.ofNat 64 ((v.setWidth 64).toNat % 2 ^ n) = v.setWidth 64 := setWidth_low (hnar v)
  have hsg (v : BitVec n) : BitVec.ofNat n (v.setWidth 64).toNat = v := (BitVec.ofNat_toNat ..).trans (hnar v)
  have hite {p : Prop} [Decidable p] {q : Bool} (h : p ↔ q = true) (v w : BitVec n) :
      (if p then v.setWidth 64 else w.setWidth 64) = (if q then v else w).setWidth 64 := by
    rw [apply_ite (BitVec.setWidth 64)]
    exact if_congr h rfl rfl
  cases op with
  | add => exact setWidth_low (by rw [BitVec.setWidth_add _ _ hn, hnar, hnar]; rfl)
  | and => exact setWidth_low (by rw [BitVec.setWidth_and, hnar, hnar]; rfl)
  | or => exact setWidth_low (by rw [BitVec.setWidth_or, hnar, hnar]; rfl)
  | xor => exact setWidth_low (by rw [BitVec.setWidth_xor, hnar, hnar]; rfl)
  | xchg => exact hlow x
  | min => simp only [AtomOp.apply, hlow, hsg]; exact hite BitVec.slt_iff_toInt_lt.symm x m
  | max => simp only [AtomOp.apply, hlow, hsg]; exact hite BitVec.slt_iff_toInt_lt.symm x m
  | umin => simp only [AtomOp.apply, hlow]; simp only [BitVec.toNat_setWidth_of_le hn]; exact hite BitVec.ult_iff_lt.symm x m
  | umax => simp only [AtomOp.apply, hlow]; simp only [BitVec.toNat_setWidth_of_le hn]; exact hite BitVec.ult_iff_lt.symm x m
  | cas =>
    simp only [AtomOp.apply, hlow, setWidth_wide_inj hn, AtomOp.word]
    exact (apply_ite (BitVec.setWidth 64) _ _ _).symm
  | fadd => exact absurd rfl hop

/-- FADD adds the words as FP32 numbers, rounding once (R214). -/
theorem AtomOp.apply_fadd (m x : Word) (c : BitVec 64) : AtomOp.apply .fadd 32 (m.setWidth 64) (x.setWidth 64) c =
    (toF32 .rne false (FVal.sum .rne [f32 m, f32 x])).setWidth 64 := by
  have hlow (v : Word) : (v.setWidth 64).extractLsb' 0 32 = v := by
    rw [BitVec.extractLsb'_setWidth_of_le (by decide)]
    exact BitVec.extractLsb'_eq_self
  rw [AtomOp.apply, hlow, hlow]
  rfl

/-! ## Waypoint words -/

/-- A waypoint word by its phase, its target and its count (Table 6 of chapter 10). -/
theorem append_waypoint (w : Word) : w.extractLsb' 31 1 ++ w.extractLsb' 16 15 ++ w.extractLsb' 0 16 = w := by
  rw [BitVec.extractLsb'_append_extractLsb'_eq_extractLsb' (by rfl), BitVec.extractLsb'_append_extractLsb'_eq_extractLsb' (by rfl)]
  exact BitVec.extractLsb'_eq_self

/-- A concatenation as a sum. -/
theorem toNat_append_add {m n : Nat} (x : BitVec m) (y : BitVec n) : (x ++ y).toNat = x.toNat * 2 ^ n + y.toNat := by
  rw [BitVec.toNat_append, ← Nat.shiftLeft_add_eq_or_of_lt y.isLt, Nat.shiftLeft_eq]

/-- The number of a waypoint word by its fields. -/
theorem toNat_waypoint (a : BitVec 1) (t : BitVec 15) (c : BitVec 16) :
    (a ++ t ++ c).toNat = (a.toNat * 32768 + t.toNat) * 65536 + c.toNat := by
  rw [toNat_append_add, toNat_append_add]
  rfl

/-- Its highest bit is its phase. -/
theorem msb_waypoint (a : BitVec 1) (t : BitVec 15) (c : BitVec 16) : BitVec.msb (n := 32) (a ++ t ++ c) = a.msb := by
  have hlow : (a ++ t ++ c).msb = (a ++ t).msb := BitVec.msb_append.trans (if_neg (by decide))
  have hhigh : (a ++ t).msb = a.msb := BitVec.msb_append.trans (if_neg (by decide))
  exact hlow.trans hhigh

/-- A count of a waypoint word as a word. -/
theorem ofNat_count {n : Nat} (hn : n < 65536) : BitVec.ofNat 32 n = 0#1 ++ 0#15 ++ BitVec.ofNat 16 n := by
  apply BitVec.eq_of_toNat_eq
  have h := toNat_waypoint 0#1 0#15 (BitVec.ofNat 16 n)
  simp only [BitVec.toNat_ofNat] at h ⊢
  omega

/-- An arrival by the fields of the word: the phase flips and the count starts again, or the count rises by 1 (R220). -/
theorem wpArrive_append (a : BitVec 1) (t : BitVec 15) (c : BitVec 16) : wpArrive (a ++ t ++ c) =
    if max t.toNat 1 ≤ c.toNat + 1 then ~~~a ++ t ++ 0#16 else a ++ t ++ BitVec.ofNat 16 (c.toNat + 1) := by
  have ht : (a ++ t ++ c).extractLsb' 16 15 = t := by
    rw [BitVec.extractLsb'_append_eq_of_le (by decide)]
    exact BitVec.extractLsb'_append_eq_right
  have hc : (a ++ t ++ c).extractLsb' 0 16 = c := BitVec.extractLsb'_append_eq_right
  unfold wpArrive
  rw [ht, hc]
  dsimp only
  split
  · change ((a ++ t ++ c) &&& (0#1 ++ BitVec.allOnes 15 ++ 0#16) |||
      ~~~(a ++ t ++ c) &&& (BitVec.allOnes 1 ++ 0#15 ++ 0#16) : BitVec (1 + 15 + 16)) = ~~~a ++ t ++ 0#16
    simp only [BitVec.not_append, BitVec.and_append, BitVec.or_append, BitVec.and_zero, BitVec.and_allOnes, BitVec.zero_or, BitVec.or_zero]
  · rename_i h
    rw [ofNat_count (by omega)]
    change ((a ++ t ++ c) &&& (BitVec.allOnes 1 ++ BitVec.allOnes 15 ++ 0#16) ||| (0#1 ++ 0#15 ++ BitVec.ofNat 16 (c.toNat + 1)) :
      BitVec (1 + 15 + 16)) = a ++ t ++ BitVec.ofNat 16 (c.toNat + 1)
    simp only [BitVec.and_append, BitVec.or_append, BitVec.and_zero, BitVec.and_allOnes, BitVec.zero_or, BitVec.or_zero]

/-- Settles O26: each integer operation by its word of any width, FADD by its definition; an arrival by the fields of the word. -/
theorem atomicNewValues : Obligations.AtomicNewValues := by
  refine ⟨fun m x c => ?word, fun m x c => ?double, fun w => ?arrive⟩
  case word =>
    have h {op : AtomOp} (hop : op ≠ .fadd) := AtomOp.apply_eq hop (by decide : 32 ≤ 64) m x c
    exact ⟨h nofun, h nofun, h nofun, h nofun, h nofun, h nofun, h nofun, h nofun, h nofun, h nofun,
      AtomOp.apply_fadd m x (c.setWidth 64)⟩
  case double =>
    have h {op : AtomOp} (hop : op ≠ .fadd) : AtomOp.apply op 64 m x c = AtomOp.word op m x c := by
      have h := AtomOp.apply_eq hop (Nat.le_refl 64) m x c
      simpa only [BitVec.setWidth_eq] using h
    exact ⟨h nofun, h nofun, h nofun, h nofun, h nofun, h nofun, h nofun, h nofun, h nofun, h nofun⟩
  case arrive =>
    obtain ⟨a, t, c, rfl⟩ : ∃ (a : BitVec 1) (t : BitVec 15) (c : BitVec 16), w = a ++ t ++ c := ⟨_, _, _, (append_waypoint w).symm⟩
    have hw := toNat_waypoint a t c
    have hcount : (a ++ t ++ c).toNat % 65536 = c.toNat := by omega
    have htarget : (a ++ t ++ c).toNat / 65536 % 32768 = t.toNat := by omega
    dsimp only
    rw [hcount, htarget, wpArrive_append]
    split
    · have hn := toNat_waypoint (~~~a) t 0#16
      rw [BitVec.toNat_zero] at hn
      refine ⟨?count, ?phase, ?target⟩
      case count => omega
      case phase => rw [msb_waypoint, msb_waypoint]; simp
      case target => omega
    · have hn := toNat_waypoint a t (BitVec.ofNat 16 (c.toNat + 1))
      rw [BitVec.toNat_ofNat] at hn
      omega

end Sys2Proof.Machine
end

section
/-! SUPPORT. How tile instructions issue (R229, R230, R233 to R236, R248, R250, R251), and the settling of O28. -/

namespace Sys2Proof.Machine

open Sys2Proof

/-! ## TLD and TST -/

section
variable (I : Iss) (i : Instr) (x : TileMemA) (accs : List Acc) (lim : Option Nat)

/-- The accesses of a TLD or TST: none while its pointer or its pitch is marked, or its tile raises a cause (R235). -/
def Iss.imageAccs : List Acc :=
  (I.tileAccs x (I.striple x.a).1 (I.cfgOf x.t) (I.sval true x.b).val.toNat).filter fun _ =>
    !((I.striple x.a).2 || (I.sval true x.b).k || (I.tileFault x.t).isSome)

/-- The causes of a TLD or TST: of its tile, of its operands, and of the places of its image (R229, R235, R248). -/
def Iss.tileCauses (store : Bool) : List Cause :=
  let p := (I.striple x.a).1
  let kp := (I.striple x.a).2
  let b := I.sval true x.b
  let cfg := I.cfgOf x.t
  (I.tileFault x.t).toList ++ (if kp || b.k then [.kConsume] else []) ++
    (if (kp = false ∧ Ptr.addr p % (if x.aon then 8 else 4) ≠ 0) ∨ (b.k = false ∧ b.val.toNat % 4 ≠ 0) then [.align] else []) ++
    (if b.k = false ∧ I.tileFault x.t = none ∧ 1 < cfg.r ∧ b.val.toNat < cfg.rowLen then [.tileCfg] else []) ++
    (I.accCauses (I.imageAccs x) (fun _ => 1) store []).map (·.2)

/-- The limit of an .AON form, which EXACT takes away (R236). -/
def Iss.tileLimit : Option Nat := if x.lsel = 0 ∨ exactNow I = true then none else some (I.t + max 4 (I.wlim x.lsel.val))

/-- The operation of a TLD or TST, which remembers its physical tile. -/
def Iss.tileMemOp : Op := { opOf i I accs with args := [BitVec.ofNat 32 (I.phys x.t)], limit := lim }

/-- A TLD or TST begun in its issue cycle, or a free number of cycles later when it leaves its own scratchpad. -/
def Iss.tileMemBegun : State :=
  let (n, s) := if accs.all fun a => Ptr.space a.ptr == 1 then (0, I.s) else I.s.freeNat
  let s := (s.addOp I.c (I.tileMemOp i x accs lim)).postQ I.c (I.t + n) (.accessCheckComplete I.c I.id)
  match lim with
  | some t => s.postQ I.c t (.aonLimitExpiry I.c I.id)
  | none => s

/-- What a TLD or TST hands over. -/
def Iss.tileMemEff : Eff := { comp := .later x.status.isSome, unit := .lsu, charge := 4 + ((I.cfgOf x.t).size + 63) / 64 }

/-- The pointer that a cause of a TLD or TST is reported with: the first place that fails when its image raises it, else its own. -/
def Iss.tileMemPlace (store : Bool) (w : Cause) : Ptr :=
  let at' := if ((I.accCauses accs (fun _ => 1) store []).head?).any fun f => f.2 == w then
      accs.find? fun a => (I.s.early I.who a.ptr a.nbytes 1 store).isSome else none
  (at'.map (·.ptr)).getD (I.striple x.a).1

/-- What the causes of a TLD or TST make of it (R144, R248). -/
def Iss.tileMemRes (store : Bool) (cs : List Cause) : Res :=
  match worst (cs.map fun c => (0, c)) with
  | some .kConsume => .stop I.kAll
  | some w =>
    let r := I.scalar w (I.tileMemPlace x accs store w)
    if w.serviced then
      .done (I.s.addOp I.c { I.tileMemOp i x accs lim with stage := .logged }) { I.tileMemEff x with serviced := some r }
    else .stop r
  | none =>
    if store then I.commits i accs (.done (I.tileMemBegun i x accs lim) (I.tileMemEff x))
    else .done (I.tileMemBegun i x accs lim) (I.tileMemEff x)

end

/-- A list of which all or nothing is kept. -/
theorem filter_const {α : Type} (b : Bool) (xs : List α) : xs.filter (fun _ => !b) = if b then [] else xs := by
  cases b <;> simp

/-- The image is looked at while nothing hides it. -/
theorem Iss.imageAccs_eq (I : Iss) (x : TileMemA) : I.imageAccs x =
    if (I.striple x.a).2 || (I.sval true x.b).k || (I.tileFault x.t).isSome then []
    else I.tileAccs x (I.striple x.a).1 (I.cfgOf x.t) (I.sval true x.b).val.toNat := filter_const ..

/-- The causes of the operands in the order of the checks. -/
theorem Iss.tileCauses_eq (I : Iss) (x : TileMemA) (store : Bool) : I.tileCauses x store =
    (I.tileFault x.t).toList ++
      Iss.tileOperands x (I.striple x.a) (I.sval true x.b) (if (I.tileFault x.t).isNone then some (I.cfgOf x.t) else none) ++
      (I.accCauses (I.imageAccs x) (fun _ => 1) store []).map (·.2) := by
  unfold Iss.tileCauses Iss.tileOperands
  dsimp only
  rw [← List.append_assoc, ← List.append_assoc]
  congr 2
  · congr 1
    exact if_congr (by simp) rfl rfl
  · refine if_congr ?_ rfl rfl
    cases I.tileFault x.t <;> simp

/-- The limit as the issue reckons it. -/
theorem Iss.tileLimit_eq (I : Iss) (x : TileMemA) : I.tileLimit x =
    if x.lsel = 0 || I.s.exactAt I.c I.G.ctx then none else some (I.t + max 4 (I.wlim x.lsel.val)) :=
  if_congr (by simp [exactNow, State.exactAt]) rfl rfl

section
variable {I : Iss} {i : Instr} {x : TileMemA} {accs : List Acc} {lim : Option Nat} {store : Bool}

/-- A false guard (R248). -/
theorem Iss.tileMem_guarded (hq : I.qok = false) : ∃ e : Eff, e.comp = .flag I.t ∧ e.flow = .next ∧ e.after = none ∧ e.serviced = none ∧
    I.tileMem i x store = I.ok e := by
  unfold Iss.tileMem
  rw [hq]
  exact ⟨_, rfl, rfl, rfl, rfl, rfl⟩

/-- A TLD or TST that may issue goes as its causes say. -/
theorem Iss.tileMem_checked (hq : I.qok = true) :
    I.tileMem i x store = I.tileMemRes i x (I.imageAccs x) (I.tileLimit x) store (I.tileCauses x store) := by
  rw [Iss.tileCauses_eq, Iss.tileLimit_eq, Iss.imageAccs_eq]
  unfold Iss.tileMem
  rw [hq]
  rfl

/-- A TLD or TST begun, its cycle and its state told apart. -/
theorem Iss.tileMemBegun_eq : I.tileMemBegun i x accs lim =
    let own := accs.all fun a => Ptr.space a.ptr == 1
    let s0 := if own then I.s else I.s.freeNat.2
    let s1 := (s0.addOp I.c (I.tileMemOp i x accs lim)).postQ I.c (I.t + if own then 0 else I.s.freeNat.1) (.accessCheckComplete I.c I.id)
    match lim with
    | some t => s1.postQ I.c t (.aonLimitExpiry I.c I.id)
    | none => s1 := by
  unfold Iss.tileMemBegun
  cases accs.all fun a => Ptr.space a.ptr == 1 <;> rfl

/-- A TLD or TST begun leaves every group. -/
@[simp] theorem Iss.group_tileMemBegun (c g : Nat) : (I.tileMemBegun i x accs lim).group? c g = I.s.group? c g := by
  rw [Iss.tileMemBegun_eq]
  dsimp only
  have hs : (if accs.all fun a => Ptr.space a.ptr == 1 then I.s else I.s.freeNat.2).cores = I.s.cores := by split <;> rfl
  cases lim
  all_goals simp only [State.group_postQ, State.group_addOp, State.group_congr hs]

/-- The commitments of a store of a tile: of an .AON form beyond the core, and ahead of its accesses (R152, R238, R354). -/
def Iss.tileMemCommits (I : Iss) (i : Instr) (x : TileMemA) (accs : List Acc) (store : Bool) (s : State) : State :=
  let s' := if x.aon && (x.scope == .gang || x.scope == .dev || x.scope == .sys) then s.commit I.G.ctx I.G.crew 1 else s
  if store && !accs.isEmpty then s'.commitAhead I.who i accs else s

/-- A TST commits by its release; a TLD commits nothing. -/
theorem Iss.tileMemCommits_eq (hrel : store = true → (accMode i).bind (·.rel) = if x.aon then some x.scope else none) (s : State) {e : Eff}
    (he : e.serviced = none) : (if store then I.commits i accs (.done s e) else .done s e) = .done (I.tileMemCommits i x accs store s) e := by
  cases store with
  | false => rfl
  | true =>
    rw [if_pos rfl]
    by_cases h : accs = []
    · subst h; rfl
    · have hne : accs.isEmpty = false := by simpa using h
      have hr := congrFun (I.releases_eq (hrel rfl) h) s
      rw [hne, Bool.not_false, Bool.and_true] at hr
      rw [Iss.commits_cons I i h, Res.besides, he, ← hr, Iss.tileMemCommits, hne]
      rfl

/-- The commitments leave every group. -/
theorem Iss.tileMemCommits_cores (s : State) : (I.tileMemCommits i x accs store s).cores = s.cores := by
  unfold Iss.tileMemCommits
  dsimp only
  split
  · rw [State.commitAhead_cores]
    split
    · exact s.commit_cores ..
    · rfl
  · rfl

end

/-- TLD and TST issue as their guard and their causes say (R235, R236, R248). -/
theorem tileMemIssues_of {i : Instr} {x : TileMemA} {store : Bool} {s : State} {u : Use} {I : Iss} {body : Iss → Res}
    (hr : Ready s x.h u I) (hi : exec i s = issue x.h u s body) (hb : body I = I.tileMem i x store)
    (hrel : store = true → (accMode i).bind (·.rel) = if x.aon then some x.scope else none) :
    if I.qok = false then Acts i s I s (I.Flags · (I.t + 1))
    else match worst ((I.tileCauses x store).map fun c => (0, c)) with
      | some .kConsume => Stops i s I I.kAll
      | some w => ∃ r : Report, r.cause = w ∧ r.scalar = true ∧ r.pc = I.S.pc ∧
          if w.serviced then
            ∃ t, I.At t (I.S.pc + 1) ∧ I.Alone (I.s.addOp I.c { I.tileMemOp i x (I.imageAccs x) (I.tileLimit x) with stage := .logged }) t ∧
              exec i s = .next (t.takeServiced I.c I.g r)
          else Stops i s I r
      | none => Acts i s I (I.tileMemCommits i x (I.imageAccs x) store (I.tileMemBegun i x (I.imageAccs x) (I.tileLimit x))) I.Unset := by
  have hg := Iss.group_at hr.issuer
  by_cases hq : I.qok = false
  · rw [if_pos hq]
    obtain ⟨e, hc, hf, ha, hs, he⟩ := Iss.tileMem_guarded (i := i) (x := x) (store := store) hq
    exact acts_idle hr hi ⟨e, hc, hf, ha, hs, hb.trans he⟩
  rw [if_neg hq]
  rw [Bool.not_eq_false] at hq
  replace hb := hb.trans (Iss.tileMem_checked hq)
  unfold Iss.tileMemRes at hb
  split
  case h_1 hw =>
    rw [hw] at hb
    exact stops_of hr hi hb
  case h_2 c hc hw =>
    rw [hw] at hb
    refine ⟨I.scalar c (I.tileMemPlace x (I.imageAccs x) store c), rfl, rfl, rfl, ?_⟩
    split at hb
    · rename_i hk; exact (hc (Option.some.inj hk)).elim
    · rename_i c' _ hk
      obtain rfl := Option.some.inj hk
      split
      · rename_i hserv
        exact serviced_of hr hi (result := x.status.isSome) (e := I.tileMemEff x) ⟨rfl, rfl, rfl, rfl⟩ (hb.trans (if_pos hserv))
          ((State.group_addOp ..).trans hg)
      · rename_i hserv
        exact stops_of hr hi (hb.trans (if_neg hserv))
    · rename_i hk; cases hk
  case h_3 hw =>
    rw [hw] at hb
    refine acts_later hr hi (hb.trans (Iss.tileMemCommits_eq hrel _ rfl)) ?_ rfl rfl rfl rfl rfl
    rw [State.group_congr (Iss.tileMemCommits_cores _), Iss.group_tileMemBegun]
    exact hg

/-! ## TZERO, TMOV and TXP -/

section
variable {I : Iss} {i : Instr} {ts : List Nat} {bad : Bool} {charge : Nat}

/-- A false guard (R248). -/
theorem Iss.tileOp_guarded (hq : I.qok = false) : ∃ e : Eff, e.comp = .flag I.t ∧ e.flow = .next ∧ e.after = none ∧ e.serviced = none ∧
    I.tileOp i ts bad charge = I.ok e := by
  unfold Iss.tileOp
  rw [hq]
  exact ⟨_, rfl, rfl, rfl, rfl, rfl⟩

/-- The operation of a tile-file instruction, which remembers its physical tiles. -/
def Iss.tileFileOp (I : Iss) (i : Instr) (ts : List Nat) : Op :=
  { opOf i I [] with args := ts.map fun n => BitVec.ofNat 32 (I.phys n), stage := .waiting }

/-- An operation of the tile file that may issue stops for its tiles and their configurations, or waits for its turn. -/
theorem Iss.tileOp_checked (hq : I.qok = true) : I.tileOp i ts bad charge =
    if ts.any (fun n => (I.tileFault n).isSome) || bad then .stop (I.scalar .tileCfg)
    else .done ((I.s.addOp I.c (I.tileFileOp i ts)).postQ I.c I.t (.accessCheckComplete I.c I.id))
      { comp := .later false, unit := .acc, charge := charge } := by
  unfold Iss.tileOp
  rw [hq]
  rfl

/-- TZERO, TMOV and TXP issue as their guard, their tiles and their configurations say (R229, R251). -/
theorem tileOpIssues_of {s : State} {h : Hdr} {u : Use} {body : Iss → Res} {unfit : Prop} [Decidable unfit] (hr : Ready s h u I)
    (hi : exec i s = issue h u s body) (hb : body I = I.tileOp i ts bad charge) (hbad : bad = true ↔ unfit) :
    if I.qok = false then Acts i s I s (I.Flags · (I.t + 1))
    else if ts.any (fun n => (I.tileFault n).isSome) = true ∨ unfit then Stops i s I { cause := .tileCfg, scalar := true, pc := I.S.pc }
    else ArrayActs i s I I.s (ts.map fun n => BitVec.ofNat 32 (I.phys n)) [] I.active := by
  by_cases hq : I.qok = false
  · rw [if_pos hq]
    obtain ⟨e, hc, hf, ha, hs, he⟩ := Iss.tileOp_guarded (i := i) (ts := ts) (bad := bad) (charge := charge) hq
    exact acts_idle hr hi ⟨e, hc, hf, ha, hs, hb.trans he⟩
  rw [if_neg hq]
  rw [Bool.not_eq_false] at hq
  replace hb := hb.trans (Iss.tileOp_checked hq)
  have hstops : (ts.any (fun n => (I.tileFault n).isSome) || bad) = true ↔ ts.any (fun n => (I.tileFault n).isSome) = true ∨ unfit := by
    rw [Bool.or_eq_true, hbad]
  split
  · rename_i hstop
    exact stops_of hr hi (hb.trans (if_pos (hstops.mpr hstop)))
  · rename_i hgo
    refine acts_later hr hi (hb.trans (if_neg (hstops.not.mpr hgo))) ?_ rfl rfl rfl rfl rfl
    rw [State.group_postQ, State.group_addOp]
    exact Iss.group_at hr.issuer

end

/-- Settles O28: TLD and TST by their causes, the others by their tiles and configurations. -/
theorem tileInstructionsIssue : Obligations.TileInstructionsIssue := by
  refine ⟨fun x s I hr => ?image, fun x s I hr => ?file⟩
  case image =>
    have htld := tileMemIssues_of (i := .tld x) (store := false) hr rfl rfl nofun
    have htst := tileMemIssues_of (i := .tst x) (store := true) hr rfl rfl fun _ => rfl
    rw [Iss.tileMemBegun_eq] at htld htst
    exact ⟨htld, htst⟩
  case file =>
    refine ⟨tileOpIssues_of hr rfl rfl (by simp), tileOpIssues_of hr rfl rfl ?fits, tileOpIssues_of hr rfl rfl ?turns⟩
    case fits => exact bne_iff_ne
    case turns =>
      simp only [Bool.or_eq_true, beq_iff_eq, bne_iff_ne, or_assoc]
      exact Iff.rfl

end Sys2Proof.Machine
end

section
/-! SUPPORT. How matrix tasks issue (R242, R243, R248, R252, R253), and the settling of O29. -/

namespace Sys2Proof.Machine

open Sys2Proof

/-! ## MTASK -/

/-- The record that an MTASK stands for, by the number of its shape word (R242, R252). -/
theorem MtaskA.record_eq (x : MtaskA) (w : Word) : let n := w.toNat
    MtaskA.record x w = ⟨x.op, x.ta, x.tb, x.acc, x.d, x.a, x.b, n % 32 + 1, n / 32 % 64 + 1, n / 2048 % 256 + 1, n / 524288 % 256, 0, 0,
      x.h.setf, none⟩ := by
  intro n
  unfold MtaskA.record TRec.shaped
  simp only [BitVec.extractLsb'_toNat, Nat.shiftRight_eq_div_pow, Nat.reducePow, Nat.div_one]
  rfl

/-- A shape word with a reserved bit set (R252). -/
theorem shape_reserved (w : Word) : (w >>> 27 != 0) = true ↔ 2 ^ 27 ≤ w.toNat := by
  rw [bne_iff_ne, ne_eq, ← BitVec.toNat_inj, BitVec.toNat_ushiftRight, Nat.shiftRight_eq_div_pow]
  change ¬w.toNat / 2 ^ 27 = 0 ↔ _
  omega

/-- A task accepted changes of its group the flag alone, which it claims (R245). -/
theorem State.group_acceptTask {s : State} {c slot : Nat} {G : Group} (ctx crew id : Nat) (r : TRec) (hG : s.group? c slot = some G) :
    (s.acceptTask c ctx crew slot id r).group? c slot = some (G.claimFlag r.flag id) := by
  unfold State.acceptTask
  dsimp only
  rw [State.group_postQ]
  refine State.group_modGroup _ (.trans ?_ hG)
  exact State.group_modCore (f := fun k => k.modTenant ctx _) fun _ => rfl

/-- What becomes of the task of an MTASK whose operand may be used: its record fails, it is held by a full window, or it enters. -/
def Iss.mtaskTask (I : Iss) (r : TRec) : Res :=
  let k := I.s.core I.c
  match k.taskFault I.G.ctx I.G.crew ((I.crew.map (·.size)).getD 0) r with
  | some c => .stop (I.scalar c)
  | none =>
    if k.windowUse I.G.ctx (I.s.sameCtx I.c I.G.ctx) ≥ 16 then .hold I.s
    else .done (I.s.acceptTask I.c I.G.ctx I.G.crew I.g I.id r) { comp := .later false, unit := .acc, charge := k.taskCharge I.G.ctx r }

/-- An instruction that comes down to the task of an MTASK stops for the record, is held, or lets the task enter (R242, R243, R252). -/
theorem mtaskIssues_of {i : Instr} {s : State} {h : Hdr} {u : Use} {I : Iss} {body : Iss → Res} {r : TRec} (hr : Ready s h u I)
    (hi : exec i s = issue h u s body) (hb : body I = I.mtaskTask r) :
    match (I.s.core I.c).taskFault I.G.ctx I.G.crew ((I.crew.map (·.size)).getD 0) r with
    | some c => Stops i s I { cause := c, scalar := true, pc := I.S.pc }
    | none =>
      if 16 ≤ (I.s.core I.c).windowUse I.G.ctx (I.s.sameCtx I.c I.G.ctx) then exec i s = .next (I.held I.s)
      else Acts i s I (I.s.acceptTask I.c I.G.ctx I.G.crew I.g I.id r) I.Unset := by
  unfold Iss.mtaskTask at hb
  dsimp only at hb
  split
  · rename_i c hf
    rw [hf] at hb
    exact stops_of hr hi hb
  · rename_i hf
    rw [hf] at hb
    split
    · rename_i hfull
      exact exec_held hr hi (hb.trans (if_pos hfull))
    · rename_i hroom
      exact acts_later hr hi (hb.trans (if_neg hroom)) (State.group_acceptTask _ _ _ r (Iss.group_at hr.issuer))
        (Group.claimFlag_splits ..) rfl rfl rfl rfl

/-- MTASK stops for its shape word and its record, is held while the window is full, and else its task enters it (R252). -/
theorem mtask_spec {x : MtaskA} {s : State} {I : Iss} (hr : Ready s x.h { reads := [x.shape], all := true } I) :
    let k := I.s.core I.c
    let w := I.sval false x.shape
    let r := MtaskA.record x w.val
    if I.qok = false then Acts (.mtask x) s I s (I.Flags · (I.t + 1))
    else if w.k then Stops (.mtask x) s I I.kAll
    else if 2 ^ 27 ≤ w.val.toNat then Stops (.mtask x) s I { cause := .tileCfg, scalar := true, pc := I.S.pc }
    else match k.taskFault I.G.ctx I.G.crew ((I.crew.map (·.size)).getD 0) r with
      | some c => Stops (.mtask x) s I { cause := c, scalar := true, pc := I.S.pc }
      | none =>
        if 16 ≤ k.windowUse I.G.ctx (I.s.sameCtx I.c I.G.ctx) then exec (.mtask x) s = .next (I.held I.s)
        else Acts (.mtask x) s I (I.s.acceptTask I.c I.G.ctx I.G.crew I.g I.id r) I.Unset := by
  intro k w r
  split
  · rename_i hq
    exact acts_idle hr rfl ⟨_, rfl, rfl, rfl, rfl, if_pos (by rw [hq]; rfl)⟩
  rename_i hq
  have hgo : ¬(!I.qok) = true := by simpa using hq
  split
  · rename_i hk
    exact stops_of hr rfl ((if_neg hgo).trans (if_pos hk))
  rename_i hk
  split
  · rename_i hw
    exact stops_of hr rfl ((if_neg hgo).trans ((if_neg hk).trans (if_pos ((shape_reserved _).mpr hw))))
  rename_i hw
  exact mtaskIssues_of hr rfl ((if_neg hgo).trans ((if_neg hk).trans (if_neg ((shape_reserved _).not.mpr hw))))

/-! ## MTASKM -/

/-- The pointer of an offset that a word gives. -/
theorem ownPtr_word (a : Word) : ownPtr a.toNat = BitVec.ofNat 96 (2 ^ 80 + a.toNat) := by
  rw [ownPtr, Nat.mod_eq_of_lt (by omega)]

/-- The causes of the operands of an MTASKM (R243). -/
theorem taskmCauses_eq (off n size : Nat) (ka kb : Bool) : taskmCauses off n ka kb size =
    (if ka || kb then [.kConsume] else []) ++ (if ka = false ∧ off % 64 ≠ 0 then [.align] else []) ++
      (if ka = false ∧ kb = false ∧ size < off + 64 * n then [.prot] else []) ++
      (if kb = false ∧ (n = 0 ∨ 16 < n) then [.tileCfg] else []) := by
  have halign : (!ka && off % 64 != 0) = true ↔ ka = false ∧ off % 64 ≠ 0 := by simp
  have hprot : (!ka && !kb && off + 64 * n > size) = true ↔ ka = false ∧ kb = false ∧ size < off + 64 * n := by simp [and_assoc]
  have hcount : (!kb && (n = 0 || n > 16)) = true ↔ kb = false ∧ (n = 0 ∨ 16 < n) := by simp
  simp only [taskmCauses, halign, hprot, hcount]

/-- The reported cause is one of the causes (R336). -/
theorem mem_of_worst {cs : List Cause} {c : Cause} (h : worst (cs.map fun c => (0, c)) = some c) : c ∈ cs := by
  cases cs with
  | nil => cases h
  | cons d ds =>
    obtain ⟨q, hq, hw, -⟩ := worst_cons (0, d) (ds.map fun c => (0, c))
    obtain rfl : q.2 = c := Option.some.inj (hw.symm.trans h)
    have hq' : q ∈ (d :: ds).map fun c => ((0 : Nat), c) := hq
    obtain ⟨e, he, rfl⟩ := List.mem_map.mp hq'
    exact he

/-- Of the causes of an MTASKM PROT alone is serviced (R144, R253). -/
theorem taskmCauses_serviced {off n size : Nat} {ka kb : Bool} {c : Cause} (h : c ∈ taskmCauses off n ka kb size) :
    c.serviced = true ↔ c = .prot := by
  have hc : c = .kConsume ∨ c = .align ∨ c = .prot ∨ c = .tileCfg := by
    simp only [taskmCauses, List.mem_append, List.mem_ite_nil_right, List.mem_singleton] at h
    rcases h with ((⟨-, h⟩ | ⟨-, h⟩) | ⟨-, h⟩) | ⟨-, h⟩ <;> simp [h]
  rcases hc with rfl | rfl | rfl | rfl <;> decide

/-- Numbers drawn leave every group. -/
@[simp] theorem State.group_skipIds (s : State) (n c g : Nat) : (s.skipIds n).group? c g = s.group? c g := rfl

/-- The operation of an MTASKM, which remembers its offset and its count. -/
def Iss.mtaskmOp (I : Iss) (x : MtaskmA) : Op :=
  { opOf (.mtaskm x) I [] with args := [(I.sval true x.a).val, (I.sval true x.b).val] }

/-- The causes of the operands of an MTASKM. -/
def Iss.mtaskmCauses (I : Iss) (x : MtaskmA) : List Cause :=
  taskmCauses (I.sval true x.a).val.toNat (I.sval true x.b).val.toNat (I.sval true x.a).k (I.sval true x.b).k ((I.crew.map (·.size)).getD 0)

/-- What becomes of an MTASKM whose guard holds (R243, R253). -/
def Iss.mtaskmRes (I : Iss) (x : MtaskmA) (e : Eff) : Res :=
  let n := (I.sval true x.b).val.toNat
  match worst ((I.mtaskmCauses x).map fun c => (0, c)) with
  | some .kConsume => .stop I.kAll
  | some c =>
    let r := I.scalar c (ownPtr (I.sval true x.a).val.toNat)
    if c.serviced then .done ((I.s.skipIds (min 16 n)).addOp I.c { I.mtaskmOp x with stage := .logged }) { e with serviced := some r }
    else .stop r
  | none =>
    if (I.s.core I.c).windowUse I.G.ctx (I.s.sameCtx I.c I.G.ctx) + n > 16 then .hold I.s
    else .done (((I.s.skipIds n).addOp I.c (I.mtaskmOp x)).postQ I.c (I.t + 1) (.accessCheckComplete I.c I.id)) e

/-- MTASKM stops for its operands or, PROT being serviced, goes into the operand log; it is held while the window has no room for its
records, and else they are read from the next cycle on (R243, R253). -/
theorem mtaskmIssues_of {s : State} {h : Hdr} {u : Use} {I : Iss} {body : Iss → Res} {x : MtaskmA} {e : Eff} (hr : Ready s h u I)
    (hi : exec (.mtaskm x) s = issue h u s body) (he : e.Later false) (hb : body I = I.mtaskmRes x e) :
    let n := (I.sval true x.b).val.toNat
    match worst ((I.mtaskmCauses x).map fun c => (0, c)) with
    | some .kConsume => Stops (.mtaskm x) s I I.kAll
    | some c =>
      let r := I.scalar c (ownPtr (I.sval true x.a).val.toNat)
      if c = .prot then
        ∃ t, I.At t (I.S.pc + 1) ∧ I.Alone ((I.s.skipIds (min 16 n)).addOp I.c { I.mtaskmOp x with stage := .logged }) t ∧
          exec (.mtaskm x) s = .next (t.takeServiced I.c I.g r)
      else Stops (.mtaskm x) s I r
    | none =>
      if 16 < (I.s.core I.c).windowUse I.G.ctx (I.s.sameCtx I.c I.G.ctx) + n then exec (.mtaskm x) s = .next (I.held I.s)
      else Acts (.mtaskm x) s I (((I.s.skipIds n).addOp I.c (I.mtaskmOp x)).postQ I.c (I.t + 1) (.accessCheckComplete I.c I.id))
        I.Unset := by
  have hg := Iss.group_at hr.issuer
  obtain ⟨hcomp, hflow, hafter, hserviced⟩ := id he
  unfold Iss.mtaskmRes at hb
  dsimp only at hb ⊢
  split
  case h_1 hw =>
    rw [hw] at hb
    exact stops_of hr hi hb
  case h_2 c hc hw =>
    have hserv := taskmCauses_serviced (mem_of_worst hw)
    rw [hw] at hb
    split at hb
    · rename_i hk; exact (hc (Option.some.inj hk)).elim
    · rename_i c' _ hk
      obtain rfl := Option.some.inj hk
      split
      · rename_i hp
        exact serviced_of hr hi he (hb.trans (if_pos (hserv.mpr hp))) ((State.group_addOp ..).trans hg)
      · rename_i hp
        exact stops_of hr hi (hb.trans (if_neg (hserv.not.mpr hp)))
    · rename_i hk; cases hk
  case h_3 hw =>
    rw [hw] at hb
    split
    · rename_i hfull
      exact exec_held hr hi (hb.trans (if_pos hfull))
    · rename_i hroom
      exact acts_later hr hi (hb.trans (if_neg hroom)) ((State.group_addOp ..).trans hg) rfl hflow hafter hserviced hcomp

/-- Settles O29: MTASK by its record, MTASKM by the causes of its operands. -/
theorem matrixTasksIssue : Obligations.MatrixTasksIssue := by
  refine ⟨fun x s I hr => ?task, fun x s I hr => ?records⟩
  case task =>
    have h := mtask_spec hr
    dsimp only at h
    rw [MtaskA.record_eq] at h
    exact h
  case records =>
    dsimp only
    split
    · rename_i hq
      exact acts_idle hr rfl ⟨_, rfl, rfl, rfl, rfl, if_pos (by rw [hq]; rfl)⟩
    · rename_i hq
      have h := mtaskmIssues_of hr rfl ⟨rfl, rfl, rfl, rfl⟩ (if_neg (by simpa using hq))
      rw [Iss.mtaskmCauses, taskmCauses_eq] at h
      simp only [ownPtr_word] at h
      exact h

end Sys2Proof.Machine
end

section
/-! SUPPORT. What the events of the tile file and of the matrix engines do (R234, R243 to R247, R250, R260), and the settling of O44. -/

namespace Sys2Proof.Machine

open Sys2Proof

/-! ## Cores and groups -/

/-- A core outside the module stands as at reset. -/
theorem State.core_of_le {c : Nat} (h : 768 ≤ c) (s : State) : s.core c = Core.reset := by
  rw [State.core, Vector.getElem?_eq_none h]; rfl

/-- A core put back changes nothing. -/
theorem State.setCore_core (s : State) (c : Nat) : s.setCore c (s.core c) = s := by
  refine congrArg (fun v => ({ s with cores := v } : State)) ?_
  by_cases hc : c < 768
  · refine Vector.ext fun i hi => ?_
    rw [Vector.getElem_setIfInBounds]
    split
    · rename_i h
      subst h
      simp [State.core, hi]
    · rfl
  · exact Vector.setIfInBounds_eq_of_size_le (by omega)

/-- A group that does not end stays. -/
theorem State.tryEndGroup_of_living {s : State} {c g : Nat} {G : Group} (hG : s.group? c g = some G) (he : G.ending = false) :
    s.tryEndGroup c g = s := by
  simp only [State.tryEndGroup, hG, he, Bool.false_and, Bool.false_eq_true, if_false]

/-- A group changed leaves the matrix array of its core. -/
theorem State.mx_modGroup (s : State) (c d g : Nat) (f : Group → Group) : ((s.modGroup d g f).core c).mx = (s.core c).mx := by
  by_cases hc : c = d
  · subst hc
    by_cases hl : c < 768
    · rw [State.modGroup, State.setGroup, State.core_modCore _ _ _ hl]
    · rw [State.core_of_le (by omega), State.core_of_le (by omega)]
  · rw [State.modGroup, State.setGroup, State.core_modCore_ne _ _ _ _ hc]

/-! ## A flag that lands -/

/-- A group in which flags may have risen: its other registers, its splits and its ending are as they were. -/
structure Group.FlagsRise (G H : Group) : Prop where
  regs : { H.regs with flags := G.regs.flags } = G.regs
  splits : H.splits = G.splits
  ending : H.ending = G.ending
  set : ∀ f, (G.regs.flag f).isSet = true → (H.regs.flag f).isSet = true

/-- No flag rises where the registers stay. -/
theorem Group.FlagsRise.of_eq {G H : Group} (hr : H.regs = G.regs) (hs : H.splits = G.splits) (he : H.ending = G.ending) :
    G.FlagsRise H := ⟨by rw [hr], hs, he, fun _ h => by rw [hr]; exact h⟩

theorem Group.FlagsRise.trans {G H K : Group} (a : G.FlagsRise H) (b : H.FlagsRise K) : G.FlagsRise K :=
  ⟨(congrArg (fun r => { r with flags := G.regs.flags }) b.regs).trans a.regs, b.splits.trans a.splits, b.ending.trans a.ending,
    fun f h => b.set f (a.set f h)⟩

theorem Group.flagsRise_raiseFlag (G : Group) (f : Option (Fin 12)) (id since : Nat) : G.FlagsRise (G.raiseFlag f id since) := by
  unfold Group.raiseFlag
  split
  · exact .of_eq rfl rfl rfl
  · rename_i f
    split
    · refine ⟨rfl, rfl, rfl, fun i h => ?_⟩
      by_cases hi : f.val = i.val
      · simp [GRegs.flag, hi]
      · simpa [GRegs.flag, hi] using h
    · exact .of_eq rfl rfl rfl

theorem Group.flagsRise_settleTrails (G : Group) (now : Nat) : G.FlagsRise (G.settleTrails now) := by
  refine Group.FlagsRise.trans (H := (G.trails.filter _).foldl (fun G t => G.raiseFlag (some t.flag) t.owner now) G) ?_ (.of_eq rfl rfl rfl)
  exact List.foldlRecOn _ _ (.of_eq rfl rfl rfl) fun H hH t _ => hH.trans (H.flagsRise_raiseFlag ..)

/-- The flag is set that its newest claimant raises (R64). -/
theorem Group.flag_raiseFlag {G : Group} {f : Fin 12} {id : Nat} (h : (G.regs.flag f).owner = id) (since : Nat) :
    ((G.raiseFlag (some f) id since).regs.flag f).isSet = true := by
  unfold Group.raiseFlag
  dsimp only
  rw [if_pos h]
  simp [GRegs.flag]

/-- The landing of a bare flag. -/
def Pend.bare (id now : Nat) (setf : Option (Fin 12)) : Pend := { id := id, due := now, ws := [], setf := setf, flagSince := now, claims := [] }

/-- A bare flag that lands is raised, and trailers' flags may be with it (R64, R70). -/
theorem Group.land_bare (G : Group) (id now : Nat) (setf : Option (Fin 12)) :
    G.FlagsRise (G.land (.bare id now setf)) ∧
      ∀ f, setf = some f → (G.regs.flag f).owner = id → ((G.land (.bare id now setf)).regs.flag f).isSet = true := by
  let H : Group := { G with pend := G.pend.filter fun q => q.id != id }
  have hland : G.land (.bare id now setf) = (((H.raiseFlag setf id now).closeLanes []).closeLanes []).settleTrails (max now now) := by
    unfold Group.land Pend.bare
    simp only [List.isEmpty_nil, if_true, List.flatMap_nil, List.filter_nil, le_refl]
    rfl
  have hH : G.FlagsRise H := .of_eq rfl rfl rfl
  have hclose : (H.raiseFlag setf id now).FlagsRise (G.land (.bare id now setf)) := by
    rw [hland]
    exact Group.FlagsRise.trans (H := ((H.raiseFlag setf id now).closeLanes []).closeLanes []) (.of_eq rfl rfl rfl)
      (Group.flagsRise_settleTrails ..)
  refine ⟨(hH.trans (H.flagsRise_raiseFlag ..)).trans hclose, fun f hf ho => hclose.set f ?_⟩
  subst hf
  exact Group.flag_raiseFlag (G := H) ho now

/-! ## TILE_OP_COMPLETE -/

/-- An operation dropped is not found again. -/
theorem State.op_dropOp (s : State) (c id : Nat) : (s.dropOp c id).op? c id = none := by
  by_cases hc : c < 768
  · rw [State.op?, State.dropOp, State.core_modCore _ _ _ hc]
    simp
  · rw [State.op?, State.core_of_le (by omega)]; rfl

@[simp] theorem State.group_dropOp (s : State) (c d id g : Nat) : (s.dropOp d id).group? c g = s.group? c g :=
  State.group_modCore (f := fun k => { k with ops := k.ops.filter fun o => o.id != id }) fun _ => rfl

/-- An operation of the tile file leaves its core, and its flag is set (R234, R250). -/
theorem tileOpComplete_runs {s : State} {c id : Nat} {o : Op} {G : Group} (ho : s.op? c id = some o) (hst : o.stage = .home)
    (hG : s.group? c o.slot = some G) (he : G.ending = false) :
    Runs (.tileOpComplete c id) s fun t => t.op? c id = none ∧ t.mem = s.mem ∧ ∃ H, t.group? c o.slot = some H ∧ Landed G H [] ∧
      ∀ f, o.setf = some f → (G.regs.flag f).owner = id → (H.regs.flag f).isSet = true := by
  obtain ⟨hrise, hflag⟩ := G.land_bare id (s.now c) o.setf
  have hland := State.group_modGroup (fun G => G.land (.bare id (s.now c) o.setf)) ((State.group_dropOp s c c id o.slot).trans hG)
  have hx : exec (.tileOpComplete c id) s = .next (((s.dropOp c id).modGroup c o.slot fun G =>
      G.land (.bare id (s.now c) o.setf)).tryEndGroup c o.slot) := by
    change execTileOpComplete c id s = _
    rw [execTileOpComplete, ho]
    exact if_neg (not_not_intro hst)
  rw [State.tryEndGroup_of_living hland (hrise.ending.trans he)] at hx
  exact ⟨_, hx, (State.op_setGroup ..).trans (s.op_dropOp c id), rfl, _, hland, ⟨hrise.regs, hrise.splits⟩, hflag⟩

/-! ## TASK_START -/

/-- A core with no strip fence pending stays. -/
theorem Core.fenceDue_of_none {k : Core} (h : k.mx.stripPend = 0) (now : Nat) : k.fenceDue now = k := by
  have hdue : (maskOf 8 fun i => k.mx.stripPend.getLsbD i && decide ((k.engine (i / 4)).freeAt ≤ now)) = 0 := by
    refine BitVec.eq_of_getLsbD_eq fun i hi => ?_
    rw [getLsbD_maskOf, h]
    simp
  unfold Core.fenceDue
  dsimp only
  rw [hdue]
  refine .trans ?_ (congrArg (fun b => ({ k with mx := { k.mx with stripPend := b } } : Core)) h.symm)
  simp [h]

/-- With no fence pending and strips for every tenant nothing is fenced or lost (R228, R348). -/
theorem State.fenceStrips_of_none {s : State} {c : Nat} (h : (s.core c).mx.stripPend = 0) (ha : (s.core c).armless = false) :
    s.fenceStrips c = s := by
  unfold State.fenceStrips
  dsimp only
  rw [Core.fenceDue_of_none h, ha, Bool.and_false, if_neg Bool.false_ne_true, State.setCore_core]

/-- A task is found by its number, in the window of its tenant. -/
theorem Core.task_id {k : Core} {id ctx : Nat} {t : Task} (h : k.task? id = some (ctx, t)) : t.id = id := by
  obtain ⟨x, -, hx⟩ := List.exists_of_findSome?_eq_some h
  obtain ⟨u, hu, heq⟩ := Option.map_eq_some_iff.mp hx
  obtain ⟨-, rfl⟩ := Prod.mk.inj heq
  simpa using List.find?_some hu

/-- A tenant changed. -/
theorem Core.tenant_modTenant {k : Core} {ctx : Nat} {x : Tenant} {f : Tenant → Tenant} (h : k.tenant? ctx = some x)
    (hf : ∀ t, (f t).ctx = t.ctx) : (k.modTenant ctx f).tenant? ctx = some (f x) := by
  have hp : ((fun t : Tenant => t.ctx == ctx) ∘ fun t => if t.ctx = ctx then f t else t) = fun t => t.ctx == ctx := by
    funext t
    by_cases ht : t.ctx = ctx <;> simp [ht, hf]
  have hx : x.ctx = ctx := by simpa using List.find?_some h
  rw [Core.tenant?, Core.modTenant]
  dsimp only
  rw [List.find?_map, hp]
  change Option.map _ (k.tenant? ctx) = _
  rw [h, Option.map_some, if_pos hx]

/-- A tenant stands on a core of the module. -/
theorem State.tenant_lt {s : State} {c ctx : Nat} {x : Tenant} (h : (s.core c).tenant? ctx = some x) : c < 768 := by
  by_contra hc
  rw [State.core_of_le (by omega)] at h
  cases h

/-- A task that starts stands in the window with its engine and its end, and only events follow (R228, R243, R244, R247). -/
theorem State.posts_startTask {s : State} {c ctx e : Nat} {t : Task} (hs : (s.core c).strips e ≠ []) :
    let rows := 8 * ((s.core c).strips e).length
    let ends := s.now c + (t.m + rows - 1) / rows * TaskOp.cycles t.op t.kk (tcfg ((s.core c).tile t.tbi).cfg).e + 70
    ∃ f, ((s.setCore c (((s.core c).modEngine e f).modTenant ctx fun x =>
      { x with window := x.window.map fun w => if w.id = t.id then { w with engine := e, ends := some ends } else w })).postQ c (ends + 1)
        (.taskComplete c t.id)).Posts (s.startTask c ctx t e) := by
  intro rows ends
  have hrows : max 1 rows = rows := by
    have : 0 < ((s.core c).strips e).length := List.length_pos_iff.mpr hs
    omega
  unfold State.startTask
  dsimp only
  rw [hrows]
  split
  · exact ⟨_, State.posts_postQ ..⟩
  · exact ⟨_, State.Posts.refl _⟩

/-- A task that starts (R243, R244). -/
theorem State.startTask_spec {s : State} {c ctx e : Nat} {t : Task} {x : Tenant} (hx : (s.core c).tenant? ctx = some x) (ht : t ∈ x.window)
    (hs : (s.core c).strips e ≠ []) :
    let rows := 8 * ((s.core c).strips e).length
    let ends := s.now c + (t.m + rows - 1) / rows * TaskOp.cycles t.op t.kk (tcfg ((s.core c).tile t.tbi).cfg).e + 70
    Awaits (s.startTask c ctx t e) c (ends + 1) (.taskComplete c t.id) ∧ (s.startTask c ctx t e).mem = s.mem ∧
      ∃ y, ((s.startTask c ctx t e).core c).tenant? ctx = some y ∧ { t with engine := e, ends := some ends } ∈ y.window := by
  intro rows ends
  obtain ⟨f, hposts⟩ := State.posts_startTask (ctx := ctx) (t := t) hs
  refine ⟨?waits, hposts.mem, ?window⟩
  case waits =>
    obtain ⟨l, hl⟩ := hposts
    rw [hl]
    exact List.mem_append_left _ (List.mem_append_right _ List.mem_cons_self)
  case window =>
    rw [State.core_congr hposts.cores, State.core_congr (State.postQ_cores ..), State.core_setCore _ _ _ (State.tenant_lt hx)]
    refine ⟨_, Core.tenant_modTenant (k := (s.core c).modEngine e f) hx fun _ => rfl, ?_⟩
    exact List.mem_map.mpr ⟨t, ht, if_pos rfl⟩

/-- The engine that a task can take has a strip left (R228, R243). -/
theorem Core.strips_of_freeEngine {k : Core} {ctx now e : Nat} (h : k.freeEngine ctx now = some e) : k.strips e ≠ [] := by
  have := List.find?_some h
  simp only [Bool.and_eq_true, Bool.not_eq_true'] at this
  exact fun hnil => by simp [hnil] at this

/-- The oldest task that can start starts, on the lowest engine it can take (R243). -/
theorem execTaskStart_eq {s : State} {c id ctx e : Nat} {t : Task} {x : Tenant} (ht : (s.core c).task? id = some (ctx, t))
    (hends : t.ends = none) (hp : (s.core c).mx.stripPend = 0) (ha : (s.core c).armless = false) (hx : (s.core c).tenant? ctx = some x)
    (hw : x.window.find? ((s.core c).canStart ctx (s.now c)) = some t) (he : (s.core c).freeEngine ctx (s.now c) = some e) :
    exec (.taskStart c id) s = .next (s.startTask c ctx t e) := by
  change execTaskStart c id s = _
  unfold execTaskStart
  dsimp only
  rw [ht]
  dsimp only
  rw [hends, State.fenceStrips_of_none hp ha, hx]
  dsimp only [Option.map_some, Option.getD_some]
  rw [hw, he]
  exact (if_neg Bool.false_ne_true).trans (congrArg Host.Outcome.next (if_pos (Core.task_id ht)))

/-! ## TASK_COMPLETE -/

/-- A bank that a crew owns is among the 32 of its core. -/
theorem Core.bank_lt {k : Core} {n : Nat} {p : Nat × Nat} (h : (k.bank n).owner = some p) : n < 32 := by
  by_contra hn
  rw [Core.bank, Vector.getElem?_eq_none (by omega)] at h
  cases h

/-- A bank changed. -/
theorem Core.bank_modBank {k : Core} {n : Nat} (hn : n < 32) (f : Bank → Bank) : (k.modBank n f).bank n = f (k.bank n) := by
  simp [Core.modBank, Core.bank, hn]

/-- The gangs of every context that ask again leave memory. -/
@[simp] theorem State.retryAll_mem (s : State) : s.retryAll.mem = s.mem := by
  refine List.foldlRecOn (motive := fun t : State => t.mem = s.mem) _ _ rfl fun t ht n _ => ?_
  split
  · exact ht
  · refine (State.posts_retryGangs _ n).mem.trans (.trans ?_ ht)
    unfold State.settleIdle
    dsimp only
    split <;> rfl

/-- A tile read without an uncorrectable word is not noted (R233). -/
theorem State.noteTile_nil (s : State) (c ctx p : Nat) : s.noteTile c ctx p [] = s := rfl

/-- A task has left its tenant's window, its engine's strips being asked for, and a reserved code that it read is noted (R87, R244, R249). -/
def State.taskLeft (s : State) (c id ctx : Nat) (t : Task) (n8 : Bool) : State :=
  let s1 := s.modCore c fun k => k.modTenant ctx fun x => { x with window := x.window.filter fun w => w.id != id }
  let s2 := if t.engine = 1 then s1.retryAll else s1
  if n8 then s2.modCore c fun k => k.modTenant ctx fun x => x.stick 0 else s2

/-- A task completes into the bank that its crew still owns (R244 to R246, R260). -/
theorem execTaskComplete_eq {s : State} {c id ctx : Nat} {t : Task} (ht : (s.core c).task? id = some (ctx, t))
    (hends : t.ends.isSome = true) (hc : t.cancelled = false) (ho : ((s.core c).bank t.bank).owner = some (ctx, t.crew))
    (hu : ((s.core c).bank t.bank).ue = []) (ha : ((s.core c).tile t.tai).ue = []) (hb : ((s.core c).tile t.tbi).ue = []) :
    let p := t.product ((s.core c).tile t.tai) ((s.core c).tile t.tbi) ((s.core c).bank t.bank)
    exec (.taskComplete c id) s =
      .next (((s.taskLeft c id ctx t p.n8).modCore c fun k => k.modBank t.bank fun b => b.after t p).taskSignal c ctx t) := by
  intro p
  have hends' : t.ends.isNone = false := by simpa using hends
  change execTaskComplete c id s = _
  unfold execTaskComplete
  dsimp only
  rw [ht]
  dsimp only
  rw [hends', ha, hb, hc, ho, hu]
  simp only [List.isEmpty_nil, if_true, State.noteTile_nil]
  exact (if_neg Bool.false_ne_true).trans ((if_neg (by simp)).trans (if_neg (by simp)))

/-- No task of a tenant has a number. -/
def Core.NoTask (k : Core) (ctx id : Nat) : Prop := ∀ y ∈ k.mx.tenants, y.ctx = ctx → ∀ w ∈ y.window, w.id ≠ id

/-- A task leaves the window of its tenant (R243). -/
theorem Core.noTask_left (k : Core) (ctx id : Nat) :
    (k.modTenant ctx fun x => { x with window := x.window.filter fun w => w.id != id }).NoTask ctx id := by
  intro y hy hctx w hw
  obtain ⟨x, -, rfl⟩ := List.mem_map.mp hy
  split at hw
  · exact bne_iff_ne.mp (List.mem_filter.mp hw).2
  · rename_i hx
    rw [if_neg hx] at hctx
    exact absurd hctx hx

/-- What changes no window brings no task. -/
theorem Core.NoTask.modTenant {k : Core} {ctx id : Nat} {f : Tenant → Tenant} (h : k.NoTask ctx id) (hw : ∀ x, (f x).window = x.window)
    (hc : ∀ x, (f x).ctx = x.ctx) : (k.modTenant ctx f).NoTask ctx id := by
  intro y hy hctx w hmem
  obtain ⟨x, hx, rfl⟩ := List.mem_map.mp hy
  refine h x hx ?_ w ?_
  · split at hctx
    · exact (hc x).symm.trans hctx
    · exact hctx
  · split at hmem
    · rwa [hw] at hmem
    · exact hmem

/-- A task that has left leaves memory and the banks, and is in no window of its context. -/
theorem State.taskLeft_spec {s : State} {c : Nat} (hc : c < 768) (id ctx : Nat) (t : Task) (n8 : Bool) :
    (s.taskLeft c id ctx t n8).mem = s.mem ∧ ((s.taskLeft c id ctx t n8).core c).mx.banks = (s.core c).mx.banks ∧
      ((s.taskLeft c id ctx t n8).core c).NoTask ctx id := by
  let s1 := s.modCore c fun k => k.modTenant ctx fun x => { x with window := x.window.filter fun w => w.id != id }
  let s2 := if t.engine = 1 then s1.retryAll else s1
  have hmem : s2.mem = s.mem := by
    dsimp only [s2]
    split
    · exact s1.retryAll_mem
    · rfl
  have hcore : s2.core c = (s.core c).modTenant ctx fun x => { x with window := x.window.filter fun w => w.id != id } := by
    refine (State.core_congr (s := s1) ?_ c).trans (State.core_modCore _ _ _ hc)
    dsimp only [s2]
    split
    · exact s1.retryAll_cores
    · rfl
  have hno : (s2.core c).NoTask ctx id := by rw [hcore]; exact Core.noTask_left _ ctx id
  have hbanks : (s2.core c).mx.banks = (s.core c).mx.banks := by rw [hcore]; rfl
  unfold State.taskLeft
  dsimp only
  split
  · rw [State.core_modCore _ _ _ hc]
    exact ⟨hmem, hbanks, hno.modTenant (fun _ => rfl) fun _ => rfl⟩
  · exact ⟨hmem, hbanks, hno⟩

/-- A completion signalled leaves memory and the matrix arrays (R245). -/
theorem State.taskSignal_spec (s : State) (c ctx : Nat) (t : Task) (d : Nat) :
    (s.taskSignal c ctx t).mem = s.mem ∧ ((s.taskSignal c ctx t).core d).mx = (s.core d).mx := by
  unfold State.taskSignal
  dsimp only
  split
  · refine ⟨State.note_mem .., .trans (congrArg Core.mx (State.core_congr (State.note_cores ..) d)) ?_⟩
    exact s.mx_modGroup ..
  · exact ⟨rfl, s.mx_modGroup ..⟩

/-- A task's completion puts its product, its brims and PEND into its bank, and the task is in no window (R244 to R246, R260). -/
theorem taskComplete_runs {s : State} {c id ctx : Nat} {t0 : Task} (ht : (s.core c).task? id = some (ctx, t0))
    (hends : t0.ends.isSome = true) (hc : t0.cancelled = false) (ho : ((s.core c).bank t0.bank).owner = some (ctx, t0.crew))
    (hu : ((s.core c).bank t0.bank).ue = []) (ha : ((s.core c).tile t0.tai).ue = []) (hb : ((s.core c).tile t0.tbi).ue = []) :
    let k := s.core c
    Runs (.taskComplete c id) s fun t => t.mem = s.mem ∧
      (t.core c).bank t0.bank = (k.bank t0.bank).after t0 (t0.product (k.tile t0.tai) (k.tile t0.tbi) (k.bank t0.bank)) ∧
      (t.core c).NoTask ctx id := by
  intro k
  let p := t0.product (k.tile t0.tai) (k.tile t0.tbi) (k.bank t0.bank)
  let s1 := s.taskLeft c id ctx t0 p.n8
  let s2 := s1.modCore c fun k => k.modBank t0.bank fun b => b.after t0 p
  have hcore : c < 768 := by
    by_contra h
    rw [State.core_of_le (by omega)] at ht
    cases ht
  obtain ⟨hmem, hbanks, hno⟩ := s.taskLeft_spec hcore id ctx t0 p.n8
  obtain ⟨hsmem, hmx⟩ := s2.taskSignal_spec c ctx t0 c
  have h2 : s2.core c = (s1.core c).modBank t0.bank fun b => b.after t0 p := State.core_modCore _ _ _ hcore
  have hbank : (s1.core c).bank t0.bank = k.bank t0.bank := by rw [Core.bank, hbanks]; rfl
  refine ⟨_, execTaskComplete_eq ht hends hc ho hu ha hb, hsmem.trans hmem, ?bank, ?window⟩
  case bank =>
    rw [Core.bank, hmx, ← Core.bank, h2, Core.bank_modBank (Core.bank_lt ho), hbank]
  case window =>
    rw [Core.NoTask, hmx, h2]
    exact hno

/-! ## ENGINE_SELF_TEST -/

/-- A matrix engine changed. -/
theorem Core.engine_modEngine {k : Core} {e : Nat} (he : e < 2) (f : MEngine → MEngine) : (k.modEngine e f).engine e = f (k.engine e) := by
  simp [Core.modEngine, Core.engine, he]

/-- A test stands at an engine of a core of the module. -/
theorem State.engine_lt {s : State} {c e : Nat} (h : ((s.core c).engine e).tests ≠ []) : c < 768 ∧ e < 2 := by
  refine ⟨?_, ?_⟩
  · by_contra hc
    rw [State.core_of_le (by omega)] at h
    refine h ?_
    rw [Core.engine, Core.reset, Matrix.reset]
    dsimp only
    rw [getD_getElem?_replicate]
  · by_contra he
    rw [Core.engine, Vector.getElem?_eq_none (by omega)] at h
    exact h rfl

/-- The strips of an engine that fail its test: a free choice among those it has left (R247). -/
def State.failedStrips (s : State) (c e : Nat) : BitVec 8 := maskOf 8 fun i => ((s.core c).strips e).contains i && s.freeBits.1.getLsbD i

/-- A test has left its engine: it is counted for the tenants, with its failures (R247, R276). -/
def State.testLeft (s : State) (c e : Nat) (rest : List Bool) : State :=
  s.freeBits.2.modCore c fun k => (k.modEngine e fun m => { m with tests := rest }).tallyTest e (s.failedStrips c e)

/-- A test that was not forced ends with its failures counted as events (R247, R346). -/
theorem execEngineSelfTest_eq {s : State} {c e : Nat} {rest : List Bool} (h : ((s.core c).engine e).tests = false :: rest) :
    exec (.engineSelfTest c e) s = .next ((bitsOf (s.failedStrips c e)).foldl
      (fun s i => s.postNow (.errorEvent (.strip c (BitVec.ofNat 3 i).toFin) false none)) (s.testLeft c e rest)) := by
  change execEngineSelfTest c e s = _
  unfold execEngineSelfTest
  rw [h]
  exact if_pos rfl

/-- A test that was not forced leaves its engine, and memory and the contexts stay (R247). -/
theorem engineSelfTest_runs {s : State} {c e : Nat} {rest : List Bool} (h : ((s.core c).engine e).tests = false :: rest) :
    Runs (.engineSelfTest c e) s fun t => ((t.core c).engine e).tests = rest ∧ t.mem = s.mem ∧ t.ctxs = s.ctxs := by
  obtain ⟨hc, he⟩ := State.engine_lt (s := s) (c := c) (e := e) (by rw [h]; exact List.cons_ne_nil _ _)
  have hposts := State.foldl_posts (fun s i => s.posts_postNow (.errorEvent (.strip c (BitVec.ofNat 3 i).toFin) false none))
    (bitsOf (s.failedStrips c e)) (s.testLeft c e rest)
  refine ⟨_, execEngineSelfTest_eq h, ?_, hposts.mem, hposts.onlyBytes.ctxs⟩
  rw [State.core_congr hposts.cores, State.testLeft, State.core_modCore _ _ _ hc]
  exact congrArg MEngine.tests (Core.engine_modEngine he fun m => { m with tests := rest })

/-- Settles O44: each event by what it runs to. -/
theorem arrayEvents : Obligations.ArrayEvents := by
  refine ⟨fun s c id o G ho hst hG he => tileOpComplete_runs ho hst hG he, fun s c id ctx e t0 x ht hends hp ha hx hw he => ?start,
    fun s c id ctx t0 ht hends hc ho hu hta htb => taskComplete_runs ht hends hc ho hu hta htb,
    fun s c e rest h => engineSelfTest_runs h⟩
  case start =>
    obtain ⟨hawaits, hmem, hwindow⟩ := State.startTask_spec hx (List.mem_of_find?_eq_some hw) (Core.strips_of_freeEngine he)
    rw [Core.task_id ht] at hawaits
    exact ⟨_, execTaskStart_eq ht hends hp ha hx hw he, hawaits, hmem, hwindow⟩

end Sys2Proof.Machine
end

section
/-! SUPPORT. How accumulator instructions issue (R256 to R258, R267, R270 to R273, R275, R276), and the settling of O30 and O32. -/

namespace Sys2Proof.Machine

open Sys2Proof

/-! ## Banks, their selectors and their rows -/

/-- A bank selector's number is its register's modulo 32 (R256). -/
theorem Iss.bankSel_eq (I : Iss) (b : BankSel) : I.bankSel b = selOf I b := by
  cases b with
  | a n => rfl
  | s n => exact Prod.ext (by simp [Iss.bankSel, selOf, BitVec.extractLsb'_toNat]) rfl

/-- The rows of a range word by its number (R271). -/
theorem rangeRows_eq (w : Word) : rangeRows w = rowsOf w := by
  simp only [rangeRows, rowsOf, BitVec.extractLsb'_toNat, Nat.shiftRight_eq_div_pow, Nat.reducePow, Nat.div_one]

/-- A bank changed leaves every group. -/
theorem State.group_modBank (s : State) (c p d g : Nat) (f : Bank → Bank) :
    (s.modCore c fun k => k.modBank p f).group? d g = s.group? d g :=
  State.group_modCore (f := fun k => k.modBank p f) fun _ => rfl

/-- Banks changed leave every group. -/
theorem State.group_foldl_modBank (c : Nat) (f : Bank → Bank) (ps : List Nat) (s : State) (d g : Nat) :
    (ps.foldl (fun s p => s.modCore c fun k => k.modBank p f) s).group? d g = s.group? d g := by
  induction ps generalizing s with
  | nil => rfl
  | cons p ps ih => exact (ih _).trans (s.group_modBank ..)

/-- Marked data escaped leaves the splits of its group. -/
theorem State.group_escape {s : State} {c g : Nat} {G : Group} (esc : Bool) (hG : s.group? c g = some G) :
    ∃ H, (s.escape c g esc).group? c g = some H ∧ H.splits = G.splits := by
  cases esc with
  | false => exact ⟨G, hG, rfl⟩
  | true => exact ⟨_, State.group_modGroup _ hG, rfl⟩

/-- What lands is in flight in its group, whose splits stay, and its landing is to come. -/
theorem State.group_landAt {s : State} {c g : Nat} {G : Group} (id : Nat) (setf : Option (Fin 12)) (ws : List RegWrite) (lam : Nat)
    (hG : s.group? c g = some G) :
    ∃ H, (s.landAt c g id setf ws lam).group? c g = some H ∧ H.splits = G.splits ∧ (⟨id, lam, ws, setf, lam + 1, []⟩ : Pend) ∈ H.pend ∧
      (⟨.quad (quadOf c), lam, .resultLanding c g id⟩ : Due) ∈ (s.landAt c g id setf ws lam).sch.agenda :=
  ⟨_, State.group_modGroup _ hG, rfl, by simp, by simp [State.landAt, State.postQ, State.post, State.modSch]⟩

/-! ## An instruction that acts for its group -/

section
variable {i : Instr} {s : State} {h : Hdr} {u : Use} {I : Iss} {body : Iss → Res}

/-- An accumulator instruction without effect sets its flag at t + 1 (R267). -/
theorem acts_flag_next {e : Eff} (hr : Ready s h u I) (hi : exec i s = issue h u s body) (hb : body I = I.ok e)
    (hc : e.comp = .flag (I.t + 1)) (hf : e.flow = .next) (ha : e.after = none) (hs : e.serviced = none) :
    Acts i s I s (I.Flags · (I.t + 2)) :=
  acts_fresh hr.issuer (acts_flag hr hi hb (Iss.group_at hr.issuer) rfl hf ha hs hc)

/-- An instruction that acts for its group issues by its guard, its marks and its causes, in this order (R266, R267). -/
theorem accIssues_of {marked : Bool} {cause : Option Cause} {go : Res} {P : Prop} (hr : Ready s h u I) (hi : exec i s = issue h u s body)
    (hb : body I = I.accGroup marked cause go) (hgo : body I = go → P) : AccIssues i s I marked cause P := by
  unfold Iss.accGroup at hb
  unfold AccIssues
  split
  · rename_i hq
    exact acts_flag_next hr hi (hb.trans (if_pos (by rw [hq]; rfl))) rfl rfl rfl rfl
  rename_i hq
  replace hb := hb.trans (if_neg (by simpa using hq))
  split
  · rename_i hm
    exact stops_of hr hi (hb.trans (if_pos hm))
  rename_i hm
  replace hb := hb.trans (if_neg hm)
  cases cause with
  | some c => exact stops_of hr hi hb
  | none => exact hgo hb

/-- An operation of the array waits for its turn on a state that keeps its group's splits. -/
theorem arrayActs_of {s1 : State} {G : Group} {args : List Word} {vargs : List VReg} {act : Lanes} {e : Eff} {result : Bool}
    (hr : Ready s h u I) (hi : exec i s = issue h u s body) (hb : body I = ({ I with s := s1 } : Iss).accOp i args vargs act e)
    (he : e.Later result) (hG : s1.group? I.c I.g = some G) (hsp : G.splits = I.G.splits) : ArrayActs i s I s1 args vargs act := by
  refine acts_later hr hi hb ?_ hsp he.flow he.after he.serviced he.comp
  rw [State.group_postQ, State.group_addOp]
  exact hG

/-- A group whose results are in flight when an instruction takes effect on it: they are still in flight, and to land. -/
theorem Iss.flies_commit {s1 : State} {G : Group} {e : Eff} {due : Nat} {ws : List RegWrite} (hG : s1.group? I.c I.g = some G)
    (hp : (⟨I.id, due, ws, I.h.setf, due + 1, []⟩ : Pend) ∈ G.pend)
    (hd : (⟨.quad (quadOf I.c), due, .resultLanding I.c I.g I.id⟩ : Due) ∈ s1.sch.agenda)
    (hf : e.flow = .next) (ha : e.after = none) (hs : e.serviced = none) : I.Flies (I.commit s1 e) due ws := by
  obtain ⟨-, halone, hgroup⟩ := Iss.commit_alone (I := I) (e := e) hG (by simp [hf]) (by simp [hf]) ha hs
  refine .inr ⟨_, ⟨I.id, due, ws, I.h.setf, due + 1, []⟩, hgroup, ?flying, rfl, rfl, rfl, rfl, ?lands⟩
  case flying =>
    rw [Iss.group_next hf]
    refine (I.sent_spec e _).2.2 _ ?_
    rw [Iss.moved_pend]
    exact hp
  case lands =>
    obtain ⟨l, hl⟩ := halone.sch
    rw [hl]
    exact List.mem_append_left _ hd

/-- An operation that takes effect at its issue, on a state that keeps its group. -/
theorem instantActs_of {s1 : State} {args : List Word} {ws : List RegWrite} (hr : Ready s h u I) (hi : exec i s = issue h u s body)
    (hb : body I = I.instant s1 i args ws (I.t + 2)) (hG : s1.group? I.c I.g = some I.G) : InstantActs i s I s1 args ws := by
  obtain ⟨H, hH, hsp, hp, hd⟩ := State.group_landAt I.id I.h.setf ws (I.t + 2)
    ((State.group_addOp s1 I.c I.c I.g { opOf i I [] with args := args, stage := .performed, due := I.t + 2 }).trans hG)
  obtain ⟨t, ht, hat, hstill, halone, hunset⟩ := acts_later hr hi hb hH hsp rfl rfl rfl rfl
  have hflies := Iss.flies_commit (e := Iss.accEff !ws.isEmpty) hH hp hd rfl rfl rfl
  rw [hi, issue_ready hr, hb] at ht
  cases ht
  exact ⟨_, by rw [hi, issue_ready hr, hb], hat, hstill, halone, hflies, hunset⟩

end

/-! ## ACALLOC and ACFREE -/

/-- A bank is free that lies in the tenant's range and that no crew owns (R270). -/
theorem Core.free_eq (k : Core) (ctx n : Nat) :
    (match k.bankOf ctx n with
      | none => false
      | some p => (k.bank p).owner.isNone) =
    ((k.bankOf ctx n).isSome && (k.bank ((k.bankOf ctx n).getD 0)).owner == none) := by
  cases k.bankOf ctx n with
  | none => rfl
  | some p => exact (Option.beq_none ..).symm

/-- What becomes of an ACALLOC that may issue, by which banks are free (R257, R270). -/
def Iss.allocRes (I : Iss) (x : AcMaskA) (free : Nat → Bool) : Res :=
  let ns := bitsOf (I.sval true x.a).val
  let ps := if ns.all free then ns.map I.physBank else []
  I.instant (ps.foldl (fun s p => s.modCore I.c fun k => k.modBank p fun _ => Bank.alloc I.G.ctx I.G.crew I.G.pos) I.s)
    (.acalloc x) (ps.map bankArg) (Iss.wstat x.d (ns.all free)) (I.t + 2)

/-- ACALLOC takes the banks of its mask when all are free, and its status says so (R257, R270). -/
theorem acalloc_spec {x : AcMaskA} {s : State} {I : Iss} (hr : Ready s x.h { reads := [x.a], all := true } I) :
    let k := I.s.core I.c
    let ns := bitsOf (I.sval true x.a).val
    let free (n : Nat) : Bool := (k.bankOf I.G.ctx n).isSome && (k.bank (I.physBank n)).owner == none
    AccIssues (.acalloc x) s I (I.sval true x.a).k none (
      let ps := if ns.all free then ns.map I.physBank else []
      InstantActs (.acalloc x) s I
        (ps.foldl (fun s p => s.modCore I.c fun k => k.modBank p fun _ => Bank.alloc I.G.ctx I.G.crew I.G.pos) I.s)
        (ps.map bankArg) (Iss.wstat x.d (ns.all free))) := by
  intro k ns free
  have hfree := congrArg (I.accGroup (I.sval true x.a).k none <| I.allocRes x ·) (funext (k.free_eq I.G.ctx))
  exact accIssues_of hr rfl hfree fun hb => instantActs_of hr rfl hb ((State.group_foldl_modBank ..).trans (Iss.group_at hr.issuer))

/-- A bank that ACFREE may give back: the crew's, each of its rows the issuing group's, a gone group's or nobody's (R270). -/
def Iss.mayFree (I : Iss) (n : Nat) : Bool :=
  let live := (I.crew.map I.s.expected).getD []
  I.bankFault n == none && (I.bank n).rows.toList.all fun r => match r with
    | some p => p == I.G.pos || !live.contains p
    | none => true

/-- What becomes of an ACFREE that may issue, by which banks it may give back (R257, R270). -/
def Iss.freeRes (I : Iss) (x : AcMaskA) (mine : Nat → Bool) : Res :=
  let ns := bitsOf (I.sval true x.a).val
  if !ns.all mine || ns.isEmpty then I.instant I.s (.acfree x) [] (Iss.wstat x.d (ns.all mine)) (I.t + 2)
  else
    let ps := ns.map I.physBank
    let s := ps.foldl (fun s p => s.modCore I.c fun k => k.modBank p fun b => { b with freeing := true }) I.s
    let I' : Iss := { I with s := s }
    I'.accOp (.acfree x) (ps.map bankArg) [] I.active (Iss.accEff x.d.isSome)

/-- ACFREE gives back the banks of its mask in its turn when it may give back all; else its status alone lands (R257, R270). -/
theorem acfree_spec {x : AcMaskA} {s : State} {I : Iss} (hr : Ready s x.h { reads := [x.a], all := true } I) :
    let ns := bitsOf (I.sval true x.a).val
    AccIssues (.acfree x) s I (I.sval true x.a).k none (
      if ns.all I.mayFree = false ∨ ns = [] then InstantActs (.acfree x) s I I.s [] (Iss.wstat x.d (ns.all I.mayFree))
      else ArrayActs (.acfree x) s I ((ns.map I.physBank).foldl (fun s p => s.modCore I.c fun k => k.modBank p fun b =>
        { b with freeing := true }) I.s) ((ns.map I.physBank).map bankArg) [] I.active) := by
  intro ns
  have hg := Iss.group_at hr.issuer
  have hmine := congrArg (I.accGroup (I.sval true x.a).k none <| I.freeRes x ·)
    (funext fun n => congrArg (· && _) (Option.beq_none (o := I.bankFault n)).symm : _ = I.mayFree)
  refine accIssues_of hr rfl hmine fun hb => ?_
  have hstat : (!ns.all I.mayFree || ns.isEmpty) = true ↔ ns.all I.mayFree = false ∨ ns = [] := by
    rw [Bool.or_eq_true, Bool.not_eq_true', List.isEmpty_iff]
  split
  · rename_i h
    exact instantActs_of hr rfl (hb.trans (if_pos (hstat.mpr h))) hg
  · rename_i h
    exact arrayActs_of hr rfl (hb.trans (if_neg (hstat.not.mpr h))) ⟨rfl, rfl, rfl, rfl⟩ ((State.group_foldl_modBank ..).trans hg) rfl

/-! ## ACBAND and ACZERO -/

/-- A row that the issuing group may give: its own or nobody's (R271). -/
def Iss.mayBand (I : Iss) (n i : Nat) : Bool :=
  match ((I.bank n).rows[i]?).join with
  | some p => p == I.G.pos
  | none => true

theorem Iss.mayBand_eq (I : Iss) (n i : Nat) : I.mayBand n i = (((I.bank n).rows[i]?).join.isNone || I.holds n i) := by
  unfold Iss.mayBand Iss.holds
  cases ((I.bank n).rows[i]?).join <;> rfl

/-- The cause of an instruction on a bank: the bank's own, else ACM_BAND where its rows do not fit. -/
def Iss.bankCause (I : Iss) (n : Nat) (fits : Bool) : Option Cause :=
  match I.bankFault n with
  | some c => some c
  | none => if fits then none else some .acmBand

/-- ACBAND gives its rows to its target (R271). -/
theorem acband_spec {x : AcBandA} {s : State} {I : Iss} (hr : Ready s x.h { reads := [x.a, x.b], all := true, sr := BankSel.regs x.d } I) :
    let n := I.bankSel x.d
    let rows := rangeRows (I.sval true x.a).val
    let target := bandTarget ((I.crew.map I.s.expected).getD []) I.G.pos (I.sval true x.b).val
    AccIssues (.acband x) s I (n.2 || (I.sval true x.a).k || (I.sval true x.b).k)
      (I.bankCause n.1 (target.isSome && rows.all (I.mayBand n.1)))
      (InstantActs (.acband x) s I (I.s.modCore I.c fun q => q.modBank (I.physBank n.1) fun b =>
        { b with rows := rows.foldl (fun v i => v.setIfInBounds i (target.getD none)) b.rows }) [] []) := by
  intro n rows target
  rw [Bool.and_comm, funext (I.mayBand_eq n.1)]
  exact accIssues_of hr rfl rfl fun hb => instantActs_of hr rfl hb ((State.group_modBank ..).trans (Iss.group_at hr.issuer))

/-- ACZERO zeroes rows of its group in its turn (R258, R271, R273). -/
theorem aczero_spec {x : AcZeroA} {s : State} {I : Iss} (hr : Ready s x.h { reads := [x.a], all := true, sr := BankSel.regs x.d } I) :
    let n := I.bankSel x.d
    AccIssues (.aczero x) s I (n.2 || (I.sval true x.a).k)
      (I.bankCause n.1 ((rangeRows (I.sval true x.a).val).all (I.holds n.1)))
      (ArrayActs (.aczero x) s I I.s [bankArg (I.physBank n.1), (I.sval true x.a).val] [] I.active) :=
  accIssues_of hr rfl rfl fun hb => arrayActs_of hr rfl hb ⟨rfl, rfl, rfl, rfl⟩ (Iss.group_at hr.issuer) rfl

/-- Settles O30: each instruction by its own rule, the statement writing out the banks, the rows and the selectors. -/
theorem bankOwnershipIssues : Obligations.BankOwnershipIssues := by
  refine ⟨fun x s I hr => ⟨acalloc_spec hr, acfree_spec hr⟩, fun x s I hr => ?band, fun x s I hr => ?zero⟩
  case band =>
    have h := acband_spec hr
    rw [I.bankSel_eq, rangeRows_eq] at h
    exact h
  case zero =>
    have h := aczero_spec hr
    rw [I.bankSel_eq, rangeRows_eq] at h
    exact h

/-! ## MSTAT and MCHECK -/

/-- MSTAT's item lands at t + 2, cleared when the word says so (R275). -/
theorem mstat_spec {x : MstatA} {s : State} {I : Iss} (hr : Ready s x.h {} I) :
    let m := (((I.s.core I.c).tenant? I.G.ctx).map (·.mstat)).getD ⟨0, 0, 0, 0, 0, 0⟩
    let s1 := if x.clr then I.s.modCore I.c fun k => k.modTenant I.G.ctx fun t => { t with mstat := t.mstat.clear x.item } else I.s
    AccIssues (.mstat x) s I false none (Acts (.mstat x) s I s1 (I.Flies · (I.t + 2) [I.wsreg x.d ⟨m.item x.item, false⟩])) := by
  intro m s1
  have hg : s1.group? I.c I.g = some I.G := by
    refine .trans ?_ (Iss.group_at hr.issuer)
    dsimp only [s1]
    split
    · exact State.group_modCore (f := fun k => k.modTenant I.G.ctx _) fun _ => rfl
    · rfl
  let e : Eff := { ws := [I.wsreg x.d ⟨m.item x.item, false⟩], comp := .long (I.t + 2), unit := .acc, charge := 4 }
  exact accIssues_of hr rfl rfl fun hb => acts_flies (e := e) hr rfl hb hg rfl (.inl rfl) rfl rfl rfl

/-- Settles O32: MSTAT by its rule, MCHECK of the engines or of a bank in its turn. -/
theorem arrayStatusIssues : Obligations.ArrayStatusIssues := by
  refine ⟨fun x s I hr => mstat_spec hr, fun x s I hr => ?check⟩
  have hg := Iss.group_at hr.issuer
  obtain ⟨h, d, a⟩ := x
  cases a with
  | none => exact accIssues_of hr rfl rfl fun hb => arrayActs_of hr rfl hb ⟨rfl, rfl, rfl, rfl⟩ hg rfl
  | some b =>
    dsimp only
    rw [← I.bankSel_eq]
    exact accIssues_of hr rfl rfl fun hb => arrayActs_of hr rfl hb ⟨rfl, rfl, rfl, rfl⟩ hg rfl

end Sys2Proof.Machine
end

section
/-! SUPPORT. How ACDRAIN, ACLOAD and ACSCALE issue (R256 to R258, R267, R272, R274), and the settling of O31. -/

namespace Sys2Proof.Machine

open Sys2Proof

/-! ## Windows -/

/-- The element of a lane in a window: row FIRST + lane / width, column FIRST + lane mod width, when the bank has it (R272). -/
theorem windowAt_eq (win : Word) (wd l : Nat) : windowAt win wd l =
    if (decide (win.toNat % 32 + l / wd < 32) && decide (win.toNat / 256 % 64 + l % wd < 64)) = true then
      some (win.toNat % 32 + l / wd, win.toNat / 256 % 64 + l % wd) else none := by
  simp only [windowAt, BitVec.extractLsb'_toNat, Nat.shiftRight_eq_div_pow, Nat.reducePow, Nat.div_one]

section
variable (I : Iss) (x : AcMoveA) (load : Bool)

/-- The row of a lane in the window of an ACDRAIN or ACLOAD. -/
def Iss.moveRow (l : Nat) : Nat := (I.sval true x.win).val.toNat % 32 + l / (16 * (x.w.val + 1))

/-- Whether the element of a lane lies in the bank. -/
def Iss.moveInside (l : Nat) : Bool :=
  I.moveRow x l < 32 && (I.sval true x.win).val.toNat / 256 % 64 + l % (16 * (x.w.val + 1)) < 64

/-- The active lanes whose element lies in the bank. -/
def Iss.moveLanes : Lanes := maskOf 96 fun l => I.active.getLsbD l && I.moveInside x l

/-- The register that an ACLOAD reads. -/
def Iss.moveSrc : VReg := if load then I.vsrc false x.r else VReg.zero

/-- The lanes of marked data. -/
def Iss.moveMarked : Lanes := maskOf 96 fun l => (I.moveLanes x).getLsbD l && ((I.moveSrc x load).at l).k

/-- The lanes whose row the group does not hold. -/
def Iss.moveUnheld : Lanes := maskOf 96 fun l => (I.moveLanes x).getLsbD l && !I.holds (selOf I x.bank).1 (I.moveRow x l)

end

section
variable {I : Iss} {x : AcMoveA} {load : Bool}

theorem Iss.windowAt_move (l : Nat) : windowAt (I.sval true x.win).val (windowWidth x.w) l = if I.moveInside x l = true then
    some (I.moveRow x l, (I.sval true x.win).val.toNat / 256 % 64 + l % (16 * (x.w.val + 1))) else none := windowAt_eq ..

theorem Iss.moveLanes_eq :
    (maskOf 96 fun l => I.active.getLsbD l && (windowAt (I.sval true x.win).val (windowWidth x.w) l).isSome) = I.moveLanes x := by
  unfold Iss.moveLanes
  congr 1
  funext l
  rw [Iss.windowAt_move]
  cases I.moveInside x l <;> rfl

/-- A lane that works has its element in the bank. -/
theorem Iss.inside_of_moveLanes {l : Nat} (h : (I.moveLanes x).getLsbD l = true) : I.moveInside x l = true := by
  rw [Iss.moveLanes, getLsbD_maskOf, Bool.and_eq_true, Bool.and_eq_true] at h
  exact h.2.2

theorem Iss.moveMarked_eq : (I.moveSrc x load).marks &&& I.moveLanes x = I.moveMarked x load :=
  eq_maskOf fun l hl => by
    rw [BitVec.getLsbD_and, VReg.marks, getLsbD_maskOf, decide_eq_true hl, Bool.true_and, Bool.and_comm]

/-- ACDRAIN reads no data that could be marked. -/
theorem Iss.moveMarked_drain : I.moveMarked x false = 0 := by
  refine eq_zero_iff_getLsbD.mpr fun l hl => ?_
  have hz : (VReg.zero.at l).k = false := by simp [VReg.zero, VReg.at, hl, Elem.zero]
  rw [Iss.moveMarked, getLsbD_maskOf, Iss.moveSrc, if_neg Bool.noConfusion, hz, Bool.and_false, Bool.and_false]

theorem Iss.load_and_marked : (load && I.moveMarked x load != 0) = (I.moveMarked x load != 0) := by
  cases load with
  | false => rw [Iss.moveMarked_drain]; rfl
  | true => exact Bool.true_and _

/-- A lane that works and whose row the group does not hold. -/
theorem Iss.moveUnheld_eq : (maskOf 96 fun l => (I.moveLanes x).getLsbD l && match windowAt (I.sval true x.win).val (windowWidth x.w) l with
    | some (i, _) => !I.holds (I.bankSel x.bank).1 i
    | none => false) = I.moveUnheld x := by
  refine eq_maskOf fun l hl => ?_
  rw [getLsbD_maskOf, decide_eq_true hl, Bool.true_and, Iss.windowAt_move, I.bankSel_eq]
  cases hact : (I.moveLanes x).getLsbD l with
  | false => rfl
  | true => rw [if_pos (Iss.inside_of_moveLanes hact)]

end

/-! ## ACDRAIN and ACLOAD -/

/-- What a result becomes where an uncorrectable word is read: the causes that stop it stand (R266, R355). -/
theorem Res.orUeIf_stop (I : Iss) (bad : Bool) (r : Report) : Res.orUeIf I bad (.stop r) = .stop r := by
  cases bad <;> rfl

theorem Res.orUeIf_done (I : Iss) (bad : Bool) (s : State) {e : Eff} (hs : e.serviced = none) :
    Res.orUeIf I bad (.done s e) = if bad then .ue .ueData else .done s e := by
  cases bad with
  | false => rfl
  | true => simp [Res.orUeIf, Res.orUe, hs]

/-- What becomes of an ACDRAIN or ACLOAD, by the lanes that work, those of marked data and those whose row the group does not hold. -/
def Iss.moveRes (I : Iss) (i : Instr) (x : AcMoveA) (load : Bool) (act marked unheld : Lanes) : Res :=
  let n := I.bankSel x.bank
  let win := I.sval true x.win
  let e : Eff := { comp := .later (!load), occ := I.P, unit := .vec, charge := 4 * I.P }
  if act = 0 then I.ok { e with comp := .flag (I.t + 1) }
  else Res.orUeIf I (I.badScalars { reads := [x.win], sr := BankSel.regs x.bank } || (load && I.badLanes x.r act)) <|
    if n.2 || win.k then .stop I.kAll
    else if load && marked != 0 && !I.uses 4 then .stop (I.lanes .kConsume marked)
    else match I.bankFault n.1 with
      | some c => .stop (I.scalar c)
      | none =>
        if unheld != 0 then .stop (I.lanes .acmBand unheld)
        else
          let I' : Iss := { I with s := I.s.escape I.c I.g (load && marked != 0) }
          I'.accOp i [bankArg (I.physBank n.1), win.val] (if load then [I.moveSrc x load] else []) act e

theorem Iss.accMove_eq (I : Iss) (i : Instr) (x : AcMoveA) (load : Bool) :
    I.accMove i x load = I.moveRes i x load (I.moveLanes x) (I.moveMarked x load) (I.moveUnheld x) := by
  have h : I.accMove i x load = I.moveRes i x load _ ((I.moveSrc x load).marks &&& _) _ := rfl
  rw [h, Iss.moveLanes_eq, Iss.moveMarked_eq]
  exact congrArg (I.moveRes i x load _ _) Iss.moveUnheld_eq

/-- ACDRAIN and ACLOAD issue by the lanes that work, their marks, their bank, their rows and the words they read (R256 to R258, R267, R272). -/
theorem bankMove_of {i : Instr} {s : State} {h : Hdr} {u : Use} {I : Iss} {body : Iss → Res} {x : AcMoveA} {load : Bool} (hr : Ready s h u I)
    (hi : exec i s = issue h u s body) (hb : body I = I.accMove i x load) :
    let n := selOf I x.bank
    let win := I.sval true x.win
    let act := I.moveLanes x
    let marked := I.moveMarked x load
    let unheld := I.moveUnheld x
    if act = 0 then Acts i s I s (I.Flags · (I.t + 2))
    else if (n.2 || win.k) = true then Stops i s I I.kAll
    else if marked ≠ 0 ∧ I.uses 4 = false then Stops i s I (I.lanes .kConsume marked)
    else match I.bankFault n.1 with
      | some c => Stops i s I (I.scalar c)
      | none =>
        if unheld ≠ 0 then Stops i s I (I.lanes .acmBand unheld)
        else if I.badScalars { reads := [x.win], sr := BankSel.regs x.bank } || (load && I.badLanes x.r act) then Consumes i s I
        else ArrayActs i s I (I.s.escape I.c I.g (marked != 0)) [bankArg (I.physBank n.1), win.val]
          (if load then [I.moveSrc x load] else []) act := by
  intro n win act marked unheld
  rw [Iss.accMove_eq, Iss.moveRes, Iss.load_and_marked, I.bankSel_eq] at hb
  split
  · rename_i hact
    exact acts_flag_next hr hi (hb.trans (if_pos hact)) rfl rfl rfl rfl
  rename_i hact
  obtain ⟨res, hres, hb⟩ : ∃ res, res = _ ∧ body I = Res.orUeIf I _ res := ⟨_, rfl, hb.trans (if_neg hact)⟩
  have hstop {r : Report} (h : res = .stop r) : Stops i s I r := stops_of hr hi (by rw [hb, h, Res.orUeIf_stop])
  split
  · rename_i hk
    exact hstop (hres.trans (if_pos hk))
  rename_i hk
  replace hres := hres.trans (if_neg hk)
  have hmarked : (marked != 0 && !I.uses 4) = true ↔ marked ≠ 0 ∧ I.uses 4 = false := by
    rw [Bool.and_eq_true, bne_iff_ne, Bool.not_eq_true']
  split
  · rename_i hm
    exact hstop (hres.trans (if_pos (hmarked.mpr hm)))
  rename_i hm
  replace hres := hres.trans (if_neg (hmarked.not.mpr hm))
  cases hbank : I.bankFault n.1 with
  | some c =>
    rw [hbank] at hres
    exact hstop hres
  | none =>
    rw [hbank] at hres
    dsimp only
    split
    · rename_i hu
      exact hstop (hres.trans (if_pos (bne_iff_ne.mpr hu)))
    rename_i hu
    replace hb := hb.trans ((congrArg (Res.orUeIf I _) (hres.trans (if_neg (bne_iff_ne.not.mpr hu)))).trans (Res.orUeIf_done I _ _ rfl))
    split
    · rename_i hbad
      exact consumes_of hr hi (hb.trans (if_pos hbad))
    · rename_i hbad
      obtain ⟨G, hG, hsp⟩ := State.group_escape (marked != 0) (Iss.group_at hr.issuer)
      exact arrayActs_of hr hi (hb.trans (if_neg hbad)) ⟨rfl, rfl, rfl, rfl⟩ hG hsp

/-! ## ACSCALE -/

/-- An uncorrectable word ranks after the causes of an instruction that acts for its group (R266). -/
theorem Iss.orUeIf_accGroup (I : Iss) (bad marked : Bool) (cause : Option Cause) (go : Res) :
    Res.orUeIf I (bad && I.qok) (I.accGroup marked cause go) = I.accGroup marked cause (Res.orUeIf I bad go) := by
  unfold Iss.accGroup
  cases I.qok with
  | false => rw [Bool.and_false]; rfl
  | true =>
    rw [Bool.and_true]
    cases marked with
    | true => exact Res.orUeIf_stop ..
    | false =>
      cases cause with
      | some c => exact Res.orUeIf_stop ..
      | none => rfl

/-- Some element of a vector register is marked. -/
theorem VReg.marks_ne_zero (x : VReg) : (x.marks != 0) = (List.range 96).any fun l => (x.at l).k := by
  rw [Bool.eq_iff_iff, bne_iff_ne, ne_eq, eq_zero_iff_getLsbD, List.any_eq_true, not_forall]
  refine exists_congr fun l => ?_
  rw [Classical.not_imp, Bool.not_eq_false, List.mem_range]
  exact and_congr_right fun hl => by rw [VReg.marks, getLsbD_maskOf, decide_eq_true hl, Bool.true_and]

/-- The cause of an ACSCALE: of its destination, of its source, else ACM_BAND where its group does not hold a row of both (R258, R266). -/
def Iss.scaleCause (I : Iss) (d a : Nat) (rows : List Nat) : Option Cause :=
  match I.bankFault d, I.bankFault a with
  | some c, _ | none, some c => some c
  | none, none => if rows.all fun i => I.holds d i && I.holds a i then none else some .acmBand

/-- ACSCALE scales rows of its group in its turn, marked exponents or a marked scale escaping under USE (R258, R267, R274). -/
theorem acscale_spec {x : AcScaleA} {s : State} {I : Iss}
    (hr : Ready s x.h { reads := [x.sc], names := [x.b], all := true, sr := BankSel.regs x.d ++ BankSel.regs x.a } I) :
    let d := I.bankSel x.d
    let a := I.bankSel x.a
    let sc := (I.fsrc .f32 x.sc).at 0
    let rows := ((List.range (x.nM1.toNat + 1)).map (x.f.toNat + ·)).filter (· < 32)
    let ingest := (I.vsrc false x.b).marks != 0 || sc.k
    AccIssues (.acscale x) s I (d.2 || a.2 || (ingest && !I.uses 4)) (I.scaleCause d.1 a.1 rows)
      (if I.badLanes x.b Lanes.all then Consumes (.acscale x) s I
      else ArrayActs (.acscale x) s I (I.s.escape I.c I.g ingest) [bankArg (I.physBank d.1), bankArg (I.physBank a.1), sc.val]
        [I.vsrc false x.b] I.active) := by
  intro d a sc rows ingest
  refine accIssues_of hr rfl (Iss.orUeIf_accGroup ..) fun hb => ?_
  replace hb := hb.trans (Res.orUeIf_done I _ _ rfl)
  split
  · rename_i hbad
    exact consumes_of hr rfl (hb.trans (if_pos hbad))
  · rename_i hbad
    obtain ⟨G, hG, hsp⟩ := State.group_escape ingest (Iss.group_at hr.issuer)
    exact arrayActs_of hr rfl (hb.trans (if_neg hbad)) ⟨rfl, rfl, rfl, rfl⟩ hG hsp

/-- Settles O31: ACDRAIN and ACLOAD by the lanes of their window, ACSCALE by its two banks. -/
theorem bankMovesIssue : Obligations.BankMovesIssue := by
  refine ⟨fun x s I => ?move, fun x s I hr => ?scale⟩
  case move =>
    exact ⟨fun hr => bankMove_of hr rfl rfl, fun hr => bankMove_of hr rfl rfl⟩
  case scale =>
    have h := acscale_spec hr
    rw [I.bankSel_eq, I.bankSel_eq, VReg.marks_ne_zero] at h
    exact h

end Sys2Proof.Machine
end

section
/-! SUPPORT. The codes of fields and how they are read back from a word (R51 to R58, Tables 1 to 4), shape by shape, and the settling of
O57 and O58. -/

namespace Sys2Proof

/-! ## The codes of operand fields -/

@[simp] theorem need_true : need true = some () := rfl

@[simp] theorem setfOf_setfCode (f : Option (Fin 12)) : setfOf (setfCode f) = some f := by
  revert f; decide

@[simp] theorem Guard.ofCode_code (g : Guard) : Guard.ofCode g.code = g := by
  cases g with
  | p n i => revert n i; decide
  | q n i => revert n i; decide

@[simp] theorem Opnd.ofCode_code (x : Opnd) : Opnd.ofCode x.code = some x := by
  cases x with
  | v n => revert n; decide +kernel
  | o n => revert n; decide +kernel
  | l n => revert n; decide +kernel
  | c n => revert n; decide +kernel
  | s n => revert n; decide +kernel
  | imm x => revert x; decide +kernel
  | zero | lane | plane | gid => decide

@[simp] theorem idxOf_ofNat {n w : Nat} (i : Fin n) (h : n ≤ 2 ^ w) : idxOf n (BitVec.ofNat w i.val) = some i := by
  have hi : i.val < 2 ^ w := Nat.lt_of_lt_of_le i.isLt h
  simp [idxOf, Nat.mod_eq_of_lt hi]

@[simp] theorem sOf_sCode {n : Nat} (i : Fin n) (h : n ≤ 0x200) : sOf n (sCode i) = some i := by
  have hi : (sCode i).toNat = 0x200 + i.val := by
    simp only [sCode, BitVec.toNat_ofNat]; omega
  simp [sOf, hi]

@[simp] theorem Triple.ofCode_code (t : Triple) : Triple.ofCode t.code = some t := by
  cases t with
  | s n =>
    have : ¬ (sCode n).toNat < 254 := by simp only [sCode, BitVec.toNat_ofNat]; omega
    simp [Triple.ofCode, Triple.code, this]
  | v n =>
    have : n.val % 1024 = n.val := by omega
    simp [Triple.ofCode, Triple.code, this]

@[simp] theorem tripleOf_code (t : Triple) : tripleOf t.code = some t := Triple.ofCode_code t

@[simp] theorem statusOf_statusCode (d : Option (Fin 7)) : statusOf (statusCode d) = some d := by
  revert d; decide

@[simp] theorem BankSel.ofCode_code (b : BankSel) : BankSel.ofCode b.code = some b := by
  cases b with
  | a n => revert n; decide
  | s n =>
    have : ¬ (sCode n).toNat < 32 := by simp only [sCode, BitVec.toNat_ofNat]; omega
    simp [BankSel.ofCode, BankSel.code, this]

@[simp] theorem KReg.ofCode_code (r : KReg) : KReg.ofCode r.isP r.code = some r := by
  cases r with
  | r x => simp [KReg.ofCode, KReg.isP, KReg.code]
  | p i => simp [KReg.ofCode, KReg.isP, KReg.code]

/-! ## Fields of a word -/

@[simp] theorem Raw.hdr_mk (h : Hdr) (form : BitVec 2) (rsv : BitVec 4) (cls mod : BitVec 12) (b a d : BitVec 10) (fn : BitVec 4)
    (opc : BitVec 8) :
    Raw.hdr ⟨form, rsv, h.wait, setfCode h.setf, h.dist, cls, mod, b, a, d, h.grd.code, fn, opc⟩ = some h := by
  simp [Raw.hdr]

/-- A triple by its code and its kind. -/
@[simp] theorem Triple.kind_code (t : Triple) : Triple.kind t.isV t.code = some t := by
  cases t <;> simp [Triple.kind, Triple.isV]

/-- The halves of a displacement put together (R71). -/
@[simp] theorem extractLsb'_halves (x : BitVec 24) : x.extractLsb' 12 12 ++ x.extractLsb' 0 12 = x := by
  rw [BitVec.extractLsb'_append_extractLsb'_eq_extractLsb' (by rfl)]
  exact BitVec.extractLsb'_eq_self

theorem extractLsb'_ofNat_zero {w k : Nat} (n : Nat) (h : k ≤ w) : (BitVec.ofNat w n).extractLsb' 0 k = BitVec.ofNat k n := by
  apply BitVec.eq_of_toNat_eq
  simp [Nat.mod_mod_of_dvd _ (Nat.pow_dvd_pow 2 h)]

theorem extractLsb'_ofNat_eq_zero {w k j n : Nat} (h : n < 2 ^ k) : (BitVec.ofNat w n).extractLsb' k j = 0#j := by
  apply BitVec.eq_of_toNat_eq
  have : n % 2 ^ w / 2 ^ k = 0 := Nat.div_eq_of_lt (Nat.lt_of_le_of_lt (Nat.mod_le ..) h)
  simp [Nat.shiftRight_eq_div_pow, this]


/-- A field of a concatenation that lies within one part is a field of that part, and a field at the bottom of a number is its low bits. -/
theorem field_append :
    (∀ {v w s n : Nat} {x : BitVec v} {y : BitVec w}, s + n ≤ w → (x ++ y).extractLsb' s n = y.extractLsb' s n) ∧
    (∀ {v w s n : Nat} {x : BitVec v} {y : BitVec w}, w ≤ s → (x ++ y).extractLsb' s n = x.extractLsb' (s - w) n) ∧
    (∀ {v w i : Nat} {x : BitVec v} {y : BitVec w}, i < w → (x ++ y).getLsbD i = y.getLsbD i) ∧
    (∀ {v w i : Nat} {x : BitVec v} {y : BitVec w}, w ≤ i → (x ++ y).getLsbD i = x.getLsbD (i - w)) ∧
    (∀ {w : Nat} {x : BitVec w}, x.extractLsb' 0 w = x) ∧
    (∀ {w k : Nat} (n : Nat), k ≤ w → (BitVec.ofNat w n).extractLsb' 0 k = BitVec.ofNat k n) ∧
    (∀ {w k j n : Nat}, n < 2 ^ k → (BitVec.ofNat w n).extractLsb' k j = 0#j) :=
  ⟨BitVec.extractLsb'_append_eq_of_add_le, BitVec.extractLsb'_append_eq_of_le, fun h => BitVec.getLsbD_append.trans (if_pos h),
    fun h => BitVec.getLsbD_append.trans (if_neg (Nat.not_lt.mpr h)), BitVec.extractLsb'_eq_self, extractLsb'_ofNat_zero,
    extractLsb'_ofNat_eq_zero⟩

/-- What the accessors of a word's fields read. -/
theorem Raw.accessors :
    (∀ r : Raw, r.disp = r.mod ++ r.cls ∧ r.oA = Opnd.ofCode r.a ∧ r.oB = Opnd.ofCode r.b ∧ r.oD = Opnd.ofCode r.d ∧
    (r.oC = do need (r.cls.extractLsb' 10 2 == 0); Opnd.ofCode (r.cls.extractLsb' 0 10)) ∧
    r.plain = (r.fn == 0 && r.mod == 0 && r.cls == 0)) ∧
    (∀ (r : Raw) (lo n : Nat), r.m lo n = r.mod.extractLsb' lo n) ∧ ∀ (r : Raw) (i : Nat), r.mb i = r.mod.getLsbD i :=
  ⟨fun _ => ⟨rfl, rfl, rfl, rfl, rfl, rfl⟩, fun _ _ _ => rfl, fun _ _ => rfl⟩

/-- An operand code in CLS: its two upper bits are zero. -/
theorem extractLsb'_operand (x : BitVec 10) : (0#2 ++ x).extractLsb' 10 2 = 0 ∧ (0#2 ++ x).extractLsb' 0 10 = x := by
  simp -index (disch := omega) only [field_append]
  exact ⟨rfl, trivial⟩

/-- The width code of an atomic is W or D (chapter 10, Table 4). -/
theorem extractLsb'_dbl (y : BitVec 9) (b : Bool) : (y ++ 2#2 ++ bb b).extractLsb' 0 3 = if b then 5#3 else 4#3 := by
  refine BitVec.eq_of_getLsbD_eq fun i hi => ?_
  rw [BitVec.getLsbD_extractLsb', BitVec.getLsbD_append, BitVec.getLsbD_append]
  have : i = 0 ∨ i = 1 ∨ i = 2 := by omega
  rcases this with rfl | rfl | rfl <;> cases b <;> simp

/-- CLS of TLD and TST (chapter 11, Table 8). -/
def TileMemA.cls (i : Option (Fin 7)) (l : Fin 7) : BitVec 12 :=
  0#4 ++ (match i with
    | none => 0#4
    | some i => 1#1 ++ BitVec.ofNat 3 i.val) ++ 0#1 ++ BitVec.ofNat 3 l.val

theorem TileMemA.cls_fields (i : Option (Fin 7)) (l : Fin 7) : (cls i l).extractLsb' 8 4 = 0 ∧ (cls i l).getLsbD 3 = false ∧
    (cls i l).getLsbD 7 = i.isSome ∧ (cls i l).extractLsb' 4 3 = BitVec.ofNat 3 (i.getD 0).val ∧
    (cls i l).extractLsb' 0 3 = BitVec.ofNat 3 l.val := by
  revert i l; decide +kernel

/-! ## The codes of enumerations -/

@[simp] theorem RMode.ofCode_code (x : RMode) : RMode.ofCode x.code = some x := by cases x <;> rfl

@[simp] theorem Cond.ofCode_code (x : Cond) : Cond.ofCode x.code = some x := by cases x <;> rfl

@[simp] theorem FCond.ofCode_code (x : FCond) : FCond.ofCode x.code = some x := by cases x <;> rfl

@[simp] theorem ElemW.ofCode_code (x : ElemW) : ElemW.ofCode x.code = some x := by cases x <;> rfl

@[simp] theorem FType.ofCode_code (x : FType) : FType.ofCode x.code = some x := by cases x <;> rfl

@[simp] theorem Fmt.ofCode_code (x : Fmt) : Fmt.ofCode x.code = some x := by cases x <;> rfl

@[simp] theorem Width.ofCode_code (x : Width) : Width.ofCode x.code = some x := by cases x <;> rfl

@[simp] theorem Scope.ofCode_code (x : Scope) : Scope.ofCode x.code = some x := by cases x <;> rfl

@[simp] theorem Ord.ofCode_code (x : Ord) : Ord.ofCode x.code = some x := by cases x <;> rfl

@[simp] theorem PMode.ofCode_code (x : PMode) : PMode.ofCode x.code = some x := by cases x <;> rfl

@[simp] theorem PFn.ofCode_code (x : PFn) : PFn.ofCode x.code = some x := by cases x <;> rfl

@[simp] theorem PField.ofCode_code (x : PField) : PField.ofCode x.code = some x := by cases x <;> rfl

@[simp] theorem ShMode.ofCode_code (x : ShMode) : ShMode.ofCode x.code = some x := by cases x <;> rfl

@[simp] theorem RedOp.ofCode_code (x : RedOp) : RedOp.ofCode x.code = some x := by cases x <;> rfl

@[simp] theorem AtomOp.ofCode_code (x : AtomOp) : AtomOp.ofCode x.code = some x := by cases x <;> rfl

@[simp] theorem WCond.ofCode_code (x : WCond) : WCond.ofCode x.code = some x := by cases x <;> rfl

@[simp] theorem HC.ofCode_code (x : HC) : HC.ofCode x.code = some x := by cases x <;> rfl

@[simp] theorem TaskOp.ofCode_code (x : TaskOp) : TaskOp.ofCode x.code = some x := by cases x <;> rfl

@[simp] theorem MItem.ofCode_code (x : MItem) : MItem.ofCode x.code = some x := by cases x <;> rfl

@[simp] theorem KFn.ofCode_code (x : KFn) : KFn.ofCode x.code = some x := by cases x <;> rfl

@[simp] theorem FKind.ofCode_code (x : FKind) : FKind.ofCode x.code = some x := by cases x <;> rfl

@[simp] theorem SReg.ofCode_code (x : SReg) : SReg.ofCode x.code = some x := by cases x <;> rfl

/-! ## Each reader reads back what its writer filled in -/

section
variable (f : BitVec 2) (o : BitVec 8)

theorem TrailA.parse_raw (x : TrailA) : TrailA.parse { x.raw with form := f, opc := o } = some x := by
  have hg : (Guard.p false 7).code = 7#5 := rfl
  simp -index (disch := omega) only [TrailA.parse, TrailA.raw, Hdr.raw, Raw.accessors]
  simp [hg]

theorem NoA.parse_raw (x : NoA) : NoA.parse { x.raw with form := f, opc := o } = some x := by
  simp -index (disch := omega) only [NoA.parse, NoA.raw, Hdr.raw, Raw.accessors]
  simp

theorem BrA.parse_raw (x : BrA) : BrA.parse { x.raw with form := f, opc := o } = some x := by
  simp -index (disch := omega) only [BrA.parse, BrA.raw, Hdr.raw, Raw.accessors]
  simp

theorem BrDA.parse_raw (x : BrDA) : BrDA.parse { x.raw with form := f, opc := o } = some x := by
  simp -index (disch := omega) only [BrDA.parse, BrDA.raw, Hdr.raw, Raw.accessors]
  simp

theorem SrcA.parse_raw (x : SrcA) : SrcA.parse { x.raw with form := f, opc := o } = some x := by
  simp -index (disch := omega) only [SrcA.parse, SrcA.raw, Hdr.raw, Raw.accessors]
  simp

theorem DstA.parse_raw (x : DstA) : DstA.parse { x.raw with form := f, opc := o } = some x := by
  simp -index (disch := omega) only [DstA.parse, DstA.raw, Hdr.raw, Raw.accessors]
  simp

theorem UnA.parse_raw (x : UnA) : UnA.parse { x.raw with form := f, opc := o } = some x := by
  simp -index (disch := omega) only [UnA.parse, UnA.raw, Hdr.raw, Raw.accessors]
  simp

theorem BinA.parse_raw (x : BinA) : BinA.parse { x.raw with form := f, opc := o } = some x := by
  simp -index (disch := omega) only [BinA.parse, BinA.raw, Hdr.raw, Raw.accessors]
  simp

theorem SBinA.parse_raw (x : SBinA) : SBinA.parse { x.raw with form := f, opc := o } = some x := by
  simp -index (disch := omega) only [SBinA.parse, SBinA.raw, Hdr.raw, Raw.accessors, field_append]
  simp

theorem MovA.parse_raw (x : MovA) : MovA.parse { x.raw with form := f, opc := o } = some x := by
  simp -index (disch := omega) only [MovA.parse, MovA.raw, Hdr.raw, Raw.accessors, field_append]
  simp

theorem BfA.parse_raw (x : BfA) : BfA.parse { x.raw with form := f, opc := o } = some x := by
  simp -index (disch := omega) only [BfA.parse, BfA.raw, Hdr.raw, Raw.accessors, field_append]
  simp

theorem CmpA.parse_raw (x : CmpA) : CmpA.parse { x.raw with form := f, opc := o } = some x := by
  simp -index (disch := omega) only [CmpA.parse, CmpA.raw, Hdr.raw, Raw.accessors, field_append]
  simp

theorem SelA.parse_raw (x : SelA) : SelA.parse { x.raw with form := f, opc := o } = some x := by
  simp -index (disch := omega) only [SelA.parse, SelA.raw, Hdr.raw, Raw.accessors, field_append]
  simp

theorem PlogA.parse_raw (x : PlogA) : PlogA.parse { x.raw with form := f, opc := o } = some x := by
  simp -index (disch := omega) only [PlogA.parse, PlogA.raw, Hdr.raw, Raw.accessors, field_append]
  simp

theorem PmovA.parse_raw (x : PmovA) : PmovA.parse { x.raw with form := f, opc := o } = some x := by
  obtain ⟨h, ops⟩ := x
  cases ops <;> (simp -index
    (disch := omega) only [PmovA.parse, PmovA.raw, Hdr.raw]; simp [PMovOps.parse, Raw.accessors])

theorem PqA.parse_raw (x : PqA) : PqA.parse { x.raw with form := f, opc := o } = some x := by
  simp -index (disch := omega) only [PqA.parse, PqA.raw, Hdr.raw, Raw.accessors]
  simp

theorem PsA.parse_raw (x : PsA) : PsA.parse { x.raw with form := f, opc := o } = some x := by
  simp -index (disch := omega) only [PsA.parse, PsA.raw, Hdr.raw, Raw.accessors]
  simp

theorem PaddA.parse_raw (x : PaddA) (hk : x.d.isV = x.a.isV) : PaddA.parse { x.raw with form := f, opc := o } = some x := by
  have hd := Triple.kind_code x.d
  rw [hk] at hd
  simp -index (disch := omega) only [PaddA.parse, PaddA.raw, Hdr.raw, Raw.accessors, field_append]
  simp [hd]

theorem PtagA.parse_raw (x : PtagA) (hk : x.d.isV = x.a.isV) : PtagA.parse { x.raw with form := f, opc := o } = some x := by
  have hd := Triple.kind_code x.d
  rw [hk] at hd
  simp -index (disch := omega) only [PtagA.parse, PtagA.raw, Hdr.raw, Raw.accessors, field_append]
  simp [hd]

theorem PfldA.parse_raw (x : PfldA) : PfldA.parse { x.raw with form := f, opc := o } = some x := by
  simp -index (disch := omega) only [PfldA.parse, PfldA.raw, Hdr.raw, Raw.accessors, field_append]
  simp

theorem PcmpA.parse_raw (x : PcmpA) (hk : x.b.isV = x.a.isV) : PcmpA.parse { x.raw with form := f, opc := o } = some x := by
  have hd := Triple.kind_code x.b
  rw [hk] at hd
  simp -index (disch := omega) only [PcmpA.parse, PcmpA.raw, Hdr.raw, Raw.accessors, field_append]
  simp [hd]

theorem VA.parse_raw (x : VA) : VA.parse { x.raw with form := f, opc := o } = some x := by
  simp -index (disch := omega) only [VA.parse, VA.raw, Hdr.raw, Raw.accessors, field_append]
  simp

theorem FA.parse_raw (x : FA) : FA.parse { x.raw with form := f, opc := o } = some x := by
  simp -index (disch := omega) only [FA.parse, FA.raw, Hdr.raw, Raw.accessors, field_append]
  simp

theorem FcmpA.parse_raw (x : FcmpA) : FcmpA.parse { x.raw with form := f, opc := o } = some x := by
  simp -index (disch := omega) only [FcmpA.parse, FcmpA.raw, Hdr.raw, Raw.accessors]
  simp

theorem CvtA.parse_raw (x : CvtA) : CvtA.parse { x.raw with form := f, opc := o } = some x := by
  simp -index (disch := omega) only [CvtA.parse, CvtA.raw, Hdr.raw, Raw.accessors, field_append]
  simp

theorem BlkA.parse_raw (x : BlkA) : BlkA.parse { x.raw with form := f, opc := o } = some x := by
  simp -index (disch := omega) only [BlkA.parse, BlkA.raw, Hdr.raw, Raw.accessors, field_append]
  simp

theorem UnpkA.parse_raw (x : UnpkA) : UnpkA.parse { x.raw with form := f, opc := o } = some x := by
  simp -index (disch := omega) only [UnpkA.parse, UnpkA.raw, Hdr.raw, Raw.accessors, field_append]
  simp

theorem ShflA.parse_raw (x : ShflA) : ShflA.parse { x.raw with form := f, opc := o } = some x := by
  simp -index (disch := omega) only [ShflA.parse, ShflA.raw, Hdr.raw, Raw.accessors, field_append]
  simp

theorem BcastA.parse_raw (x : BcastA) : BcastA.parse { x.raw with form := f, opc := o } = some x := by
  simp -index (disch := omega) only [BcastA.parse, BcastA.raw, Hdr.raw, Raw.accessors, field_append]
  simp

theorem RedA.parse_raw (x : RedA) : RedA.parse { x.raw with form := f, opc := o } = some x := by
  simp -index (disch := omega) only [RedA.parse, RedA.raw, Hdr.raw, Raw.accessors, field_append]
  simp

theorem BallotA.parse_raw (x : BallotA) : BallotA.parse { x.raw with form := f, opc := o } = some x := by
  simp -index (disch := omega) only [BallotA.parse, BallotA.raw, Hdr.raw, Raw.accessors, field_append]
  simp

theorem LdA.parse_raw (x : LdA) (hs : x.lsel = 7 → x.scope = .grp) (ho : x.lsel ≠ 7 → x.ofs8 = 0) :
    LdA.parse { x.raw with form := f, opc := o } = some x := by
  obtain ⟨h, d, a, b, width, acq, scope, train, fp, pmode, slot, lsel, ofs8⟩ := x
  by_cases hl : lsel = 7
  · obtain rfl := hl
    obtain rfl : scope = .grp := hs rfl
    simp -index (disch := omega) only [LdA.parse, LdA.raw, Hdr.raw, Raw.accessors, field_append]
    simp
  · obtain rfl : ofs8 = 0 := ho hl
    simp -index (disch := omega) only [LdA.parse, LdA.raw, Hdr.raw, Raw.accessors, field_append, if_neg hl]
    simp [hl]

theorem StA.parse_raw (x : StA) : StA.parse { x.raw with form := f, opc := o } = some x := by
  simp -index (disch := omega) only [StA.parse, StA.raw, Hdr.raw, Raw.accessors, field_append]
  simp

theorem PrefA.parse_raw (x : PrefA) : PrefA.parse { x.raw with form := f, opc := o } = some x := by
  simp -index (disch := omega) only [PrefA.parse, PrefA.raw, Hdr.raw, Raw.accessors, field_append]
  simp

theorem LimA.parse_raw (x : LimA) : LimA.parse { x.raw with form := f, opc := o } = some x := by
  simp -index (disch := omega) only [LimA.parse, LimA.raw, Hdr.raw, Raw.accessors]
  simp

theorem KtestA.parse_raw (x : KtestA) : KtestA.parse { x.raw with form := f, opc := o } = some x := by
  simp -index (disch := omega) only [KtestA.parse, KtestA.raw, Hdr.raw, Raw.accessors, field_append]
  simp

theorem KsetA.parse_raw (x : KsetA) : KsetA.parse { x.raw with form := f, opc := o } = some x := by
  simp -index (disch := omega) only [KsetA.parse, KsetA.raw, Hdr.raw, Raw.accessors, field_append]
  simp

theorem KstatA.parse_raw (x : KstatA) : KstatA.parse { x.raw with form := f, opc := o } = some x := by
  simp -index (disch := omega) only [KstatA.parse, KstatA.raw, Hdr.raw, Raw.accessors]
  simp

theorem TkA.parse_raw (x : TkA) : TkA.parse { x.raw with form := f, opc := o } = some x := by
  simp -index (disch := omega) only [TkA.parse, TkA.raw, Hdr.raw, Raw.accessors, field_append]
  simp

theorem TkqA.parse_raw (x : TkqA) (ha : x.self ≠ none → x.a = 0) : TkqA.parse { x.raw with form := f, opc := o } = some x := by
  obtain ⟨h, self, d, a⟩ := x
  cases self with
  | none =>
    simp -index (disch := omega) only [TkqA.parse, TkqA.raw, Hdr.raw, Raw.accessors]
    simp
  | some c =>
    obtain rfl : a = 0 := ha (by simp)
    simp -index (disch := omega) only [TkqA.parse, TkqA.raw, Hdr.raw, Raw.accessors, field_append]
    simp

theorem AtomA.parse_raw (x : AtomA) : AtomA.parse { x.raw with form := f, opc := o } = some x := by
  obtain ⟨h, op, d, a, b, dbl, zx, ord, scope, cmp⟩ := x
  simp -index (disch := omega) only [AtomA.parse, AtomA.raw, Hdr.raw, Raw.accessors, field_append]
  simp -index only [extractLsb'_dbl]
  cases dbl <;> simp

theorem BarA.parse_raw (x : BarA) : BarA.parse { x.raw with form := f, opc := o } = some x := by
  simp -index (disch := omega) only [BarA.parse, BarA.raw, Hdr.raw]
  simp

theorem WparrA.parse_raw (x : WparrA) : WparrA.parse { x.raw with form := f, opc := o } = some x := by
  simp -index (disch := omega) only [WparrA.parse, WparrA.raw, Hdr.raw, Raw.accessors, field_append]
  simp

theorem WaitA.parse_raw (x : WaitA) : WaitA.parse { x.raw with form := f, opc := o } = some x := by
  simp -index (disch := omega) only [WaitA.parse, WaitA.raw, Hdr.raw, Raw.accessors, field_append]
  simp

theorem FenceA.parse_raw (x : FenceA) : FenceA.parse { x.raw with form := f, opc := o } = some x := by
  simp -index (disch := omega) only [FenceA.parse, FenceA.raw, Hdr.raw, Raw.accessors, field_append]
  simp

theorem TileMemA.parse_raw (x : TileMemA) : TileMemA.parse { x.raw with form := f, opc := o } = some x := by
  obtain ⟨h, aon, scope, lsel, status, t, a, b⟩ := x
  obtain ⟨h8, h3, h7, h4, h0⟩ := TileMemA.cls_fields status lsel
  have hraw : (⟨h, aon, scope, lsel, status, t, a, b⟩ : TileMemA).raw = { h.raw with
    mod := 0#5 ++ scope.code ++ 0#3 ++ bb aon, cls := cls status lsel, d := BitVec.ofNat 10 t.val, a := sCode a, b := b.code } := rfl
  rw [hraw]
  simp -index (disch := omega) only [TileMemA.parse, Hdr.raw, Raw.accessors, field_append, h8, h3, h7, h4, h0]
  cases status <;> simp

theorem TileA.parse_raw (x : TileA) : TileA.parse { x.raw with form := f, opc := o } = some x := by
  simp -index (disch := omega) only [TileA.parse, TileA.raw, Hdr.raw, Raw.accessors]
  simp

theorem MtaskA.parse_raw (x : MtaskA) : MtaskA.parse { x.raw with form := f, opc := o } = some x := by
  simp -index (disch := omega) only [MtaskA.parse, MtaskA.raw, Hdr.raw, Raw.accessors, field_append]
  simp

theorem MtaskmA.parse_raw (x : MtaskmA) : MtaskmA.parse { x.raw with form := f, opc := o } = some x := by
  simp -index (disch := omega) only [MtaskmA.parse, MtaskmA.raw, Hdr.raw, Raw.accessors]
  simp

theorem AcMaskA.parse_raw (x : AcMaskA) : AcMaskA.parse { x.raw with form := f, opc := o } = some x := by
  simp -index (disch := omega) only [AcMaskA.parse, AcMaskA.raw, Hdr.raw, Raw.accessors]
  simp

theorem AcBandA.parse_raw (x : AcBandA) : AcBandA.parse { x.raw with form := f, opc := o } = some x := by
  simp -index (disch := omega) only [AcBandA.parse, AcBandA.raw, Hdr.raw, Raw.accessors]
  simp

theorem AcZeroA.parse_raw (x : AcZeroA) : AcZeroA.parse { x.raw with form := f, opc := o } = some x := by
  simp -index (disch := omega) only [AcZeroA.parse, AcZeroA.raw, Hdr.raw, Raw.accessors]
  simp

theorem AcScaleA.parse_raw (x : AcScaleA) : AcScaleA.parse { x.raw with form := f, opc := o } = some x := by
  simp -index (disch := omega) only [AcScaleA.parse, AcScaleA.raw, Hdr.raw, Raw.accessors, field_append]
  simp

theorem MstatA.parse_raw (x : MstatA) : MstatA.parse { x.raw with form := f, opc := o } = some x := by
  simp -index (disch := omega) only [MstatA.parse, MstatA.raw, Hdr.raw, Raw.accessors, field_append]
  simp

theorem McheckA.parse_raw (x : McheckA) : McheckA.parse { x.raw with form := f, opc := o } = some x := by
  obtain ⟨h, d, a⟩ := x
  cases a <;> (simp -index (disch := omega) only [McheckA.parse, McheckA.raw, Hdr.raw, Raw.accessors]; simp)

theorem CopyA.parse_raw (x : CopyA) (hc : x.m = false → x.cw = false → x.c = 0) :
    CopyA.parse { x.raw with form := f, opc := o } = some x := by
  obtain ⟨h, m, cw, cdst, scope, d, a, b, c⟩ := x
  by_cases hm : (m || cw) = true
  · simp -index (disch := omega) only [CopyA.parse, CopyA.raw, Hdr.raw, Raw.accessors, field_append]
    simp [hm, extractLsb'_operand]
  · obtain ⟨rfl, rfl⟩ : m = false ∧ cw = false := by simpa using hm
    obtain rfl : c = 0 := hc rfl rfl
    simp -index (disch := omega) only [CopyA.parse, CopyA.raw, Hdr.raw, Raw.accessors, field_append]
    simp

theorem MsendA.parse_raw (x : MsendA) : MsendA.parse { x.raw with form := f, opc := o } = some x := by
  simp -index (disch := omega) only [MsendA.parse, MsendA.raw, Hdr.raw, Raw.accessors, field_append]
  simp

theorem RingA.parse_raw (x : RingA) : RingA.parse { x.raw with form := f, opc := o } = some x := by
  simp -index (disch := omega) only [RingA.parse, RingA.raw, Hdr.raw, Raw.accessors, field_append]
  simp

theorem ArmA.parse_raw (x : ArmA) : ArmA.parse { x.raw with form := f, opc := o } = some x := by
  simp -index (disch := omega) only [ArmA.parse, ArmA.raw, Hdr.raw, Raw.accessors, field_append]
  simp

theorem St1A.parse_raw (x : St1A) : St1A.parse { x.raw with form := f, opc := o } = some x := by
  simp -index (disch := omega) only [St1A.parse, St1A.raw, Hdr.raw, Raw.accessors]
  simp

theorem AsdefA.parse_raw (x : AsdefA) : AsdefA.parse { x.raw with form := f, opc := o } = some x := by
  simp -index (disch := omega) only [AsdefA.parse, AsdefA.raw, Hdr.raw, Raw.accessors, field_append]
  simp

theorem QpopA.parse_raw (x : QpopA) : QpopA.parse { x.raw with form := f, opc := o } = some x := by
  simp -index (disch := omega) only [QpopA.parse, QpopA.raw, Hdr.raw, Raw.accessors, field_append]
  simp

theorem GattA.parse_raw (x : GattA) : GattA.parse { x.raw with form := f, opc := o } = some x := by
  simp -index (disch := omega) only [GattA.parse, GattA.raw, Hdr.raw, Raw.accessors]
  simp

theorem GdetA.parse_raw (x : GdetA) : GdetA.parse { x.raw with form := f, opc := o } = some x := by
  simp -index (disch := omega) only [GdetA.parse, GdetA.raw, Hdr.raw, Raw.accessors]
  simp

theorem SrdA.parse_raw (x : SrdA) : SrdA.parse { x.raw with form := f, opc := o } = some x := by
  simp -index (disch := omega) only [SrdA.parse, SrdA.raw, Hdr.raw, Raw.accessors, field_append]
  simp

theorem SwrA.parse_raw (x : SwrA) : SwrA.parse { x.raw with form := f, opc := o } = some x := by
  simp -index (disch := omega) only [SwrA.parse, SwrA.raw, Hdr.raw, Raw.accessors, field_append]
  simp

theorem TrapA.parse_raw (x : TrapA) : TrapA.parse { x.raw with form := f, opc := o } = some x := by
  simp -index (disch := omega) only [TrapA.parse, TrapA.raw, Hdr.raw, Raw.accessors, field_append]
  simp

theorem SpawnA.parse_raw (x : SpawnA) : SpawnA.parse { x.raw with form := f, opc := o } = some x := by
  simp -index (disch := omega) only [SpawnA.parse, SpawnA.raw, Hdr.raw, Raw.accessors]
  simp

theorem LaunchA.parse_raw (x : LaunchA) : LaunchA.parse { x.raw with form := f, opc := o } = some x := by
  simp -index (disch := omega) only [LaunchA.parse, LaunchA.raw, Hdr.raw, Raw.accessors]
  simp

theorem TbinvA.parse_raw (x : TbinvA) : TbinvA.parse { x.raw with form := f, opc := o } = some x := by
  simp -index (disch := omega) only [TbinvA.parse, TbinvA.raw, Hdr.raw, Raw.accessors]
  simp

theorem PlacewA.parse_raw (x : PlacewA) : PlacewA.parse { x.raw with form := f, opc := o } = some x := by
  simp -index (disch := omega) only [PlacewA.parse, PlacewA.raw, Hdr.raw, Raw.accessors]
  simp

theorem FinjA.parse_raw (x : FinjA) (hk : x.kind = .poison ↔ ∃ n, x.a = .triple n) :
    FinjA.parse { x.raw with form := f, opc := o } = some x := by
  obtain ⟨h, kind, a, b⟩ := x
  simp -index (disch := omega) only [FinjA.parse, FinjA.raw, Hdr.raw, Raw.accessors]
  cases a with
  | key k =>
    have hp : kind ≠ .poison := fun e => by simpa using hk.mp e
    simp [FinjOp.parse, FinjOp.code, hp]
  | triple n =>
    obtain rfl : kind = .poison := hk.mpr ⟨n, rfl⟩
    simp [FinjOp.parse, FinjOp.code]

theorem AcMoveA.parseDrain_rawDrain (x : AcMoveA) : AcMoveA.parseDrain { x.rawDrain with form := f, opc := o } = some x := by
  simp -index (disch := omega) only [AcMoveA.parseDrain, AcMoveA.rawDrain, Hdr.raw, Raw.accessors, field_append]
  simp

theorem AcMoveA.parseLoad_rawLoad (x : AcMoveA) : AcMoveA.parseLoad { x.rawLoad with form := f, opc := o } = some x := by
  simp -index (disch := omega) only [AcMoveA.parseLoad, AcMoveA.rawLoad, Hdr.raw, Raw.accessors, field_append]
  simp

end


/-- The fields of a word written from fields are the fields. -/
theorem Raw.ofWord_toWord (r : Raw) : Raw.ofWord r.toWord = r := by
  cases r
  simp -index (disch := omega) only [Raw.ofWord, Raw.toWord, field_append]


/-! ## Which instructions fill fields that are read back -/

/-- The fields an instruction fills have an assigned opcode, its form and zeros in the reserved bits, and are read as the instruction. -/
def Instr.ReadBack (i : Instr) : Prop :=
  ∃ r, i.raw = some r ∧ assigned r.opc = true ∧ r.form = formOf r.opc ∧ r.rsv = 0 ∧ parse r = some i

/-- The decoder gives back an instruction whose fields are read back. -/
theorem decode_encode_of_readBack {i : Instr} (h : i.ReadBack) (hw : i.wf = true) : decode (encode i) = .ok i := by
  obtain ⟨r, hraw, ha, hf, hr, hp⟩ := h
  simp [encode, hraw, decode, Raw.ofWord_toWord, ha, hf, hr, hp, hw]

/-- An instruction whose opcode the map gives to a reader that reads its fields back. -/
theorem readBack_of {α : Type} {c : α → Instr} {p : Raw → Option α} {w : Raw} {x : α} {o : BitVec 8}
    (hraw : (c x).raw = some { w with form := formOf o, opc := o }) (hp : ∀ f o, p { w with form := f, opc := o } = some x)
    (hv : w.rsv = 0 := by rfl) (ha : assigned o = true := by rfl)
    (hmap : ∀ r : Raw, r.opc = o → parse r = (p r).map c := by intro r h; simp only [parse, h]; rfl) : (c x).ReadBack :=
  ⟨_, hraw, ha, rfl, hv, (hmap _ rfl).trans (congrArg (Option.map c) (hp _ _))⟩

/-- A load with a limit is no acquire (chapter 7, Table 5). -/
theorem reckOk_acq {wd : Width} {acq train fp : Bool} {pm : PMode} {sl : Fin 4} {ls : Nat} {b : Opnd} {g : Bool}
    (h : reckOk wd acq train fp pm sl ls b g = true) (hl : ls ≠ 0) : acq = false := by
  simp_all [reckOk]

/-- The fields that share bits under LSEL 7 and without it are not both used (R155). -/
theorem LdA.readBack_of_wfV {x : LdA} {g : Bool} (h : x.wfV g = true) :
    (x.lsel = 7 → x.scope = .grp) ∧ (x.lsel ≠ 7 → x.ofs8 = 0) := by
  simp only [LdA.wfV, Bool.and_eq_true, Bool.or_eq_true, beq_iff_eq] at h
  obtain ⟨⟨⟨⟨-, hs⟩, -⟩, hr⟩, ho⟩ := h
  refine ⟨fun hl => ?_, fun hl => ho.resolve_left hl⟩
  have := reckOk_acq hr (by simp [hl])
  simpa [this] using hs

theorem LdA.readBack_of_wfS {x : LdA} (h : x.wfS = true) : (x.lsel = 7 → x.scope = .grp) ∧ (x.lsel ≠ 7 → x.ofs8 = 0) := by
  simp only [LdA.wfS, Bool.and_eq_true, Bool.or_eq_true, beq_iff_eq] at h
  obtain ⟨⟨⟨⟨-, hs⟩, -⟩, hr⟩, ho⟩ := h
  refine ⟨fun hl => ?_, fun _ => ho⟩
  have := reckOk_acq hr (by simp [hl])
  simpa [this] using hs

/-- Every well-formed instruction of a code image fills fields that are read back. -/
theorem Instr.readBack_of_wf (i : Instr) (hc : i.isCode = true) (hw : i.wf = true) : i.ReadBack := by
  cases i
  case nop x | exit x => exact readBack_of rfl (NoA.parse_raw · · x)
  case trail x => exact readBack_of rfl (TrailA.parse_raw · · x)
  case bra x | brd x => exact readBack_of rfl (BrA.parse_raw · · x)
  case brx x | ret x => exact readBack_of rfl (SrcA.parse_raw · · x)
  case call x | loop x => exact readBack_of rfl (BrDA.parse_raw · · x)
  case splq x => exact readBack_of rfl (DstA.parse_raw · · x)
  case sadd x | ssub x | smul x | smulh x | smad x | sdiv x | sand x | sor x | sxor x | sshl x | sshr x | ssar x | smin x | smax x =>
    exact readBack_of rfl (SBinA.parse_raw · · x)
  case sabs x | spopc x | sclz x | fclass x | frcp x | frsq x | fsqrt x | fexp2 x | flog2 x | fsin x | fcos x | ftanh x | asstop x =>
    exact readBack_of rfl (UnA.parse_raw · · x)
  case smov x => exact readBack_of rfl (MovA.parse_raw · · x)
  case ssel x | vsel x => exact readBack_of rfl (SelA.parse_raw · · x)
  case scmp x | vcmp x => exact readBack_of rfl (CmpA.parse_raw · · x)
  case sbfe x | sbfi x | vbfe x | vbfi x => exact readBack_of rfl (BfA.parse_raw · · x)
  case plog x => exact readBack_of rfl (PlogA.parse_raw · · x)
  case pany x | pall x => exact readBack_of rfl (PqA.parse_raw · · x)
  case pcnt x => exact readBack_of rfl (PsA.parse_raw · · x)
  case pfld x => exact readBack_of rfl (PfldA.parse_raw · · x)
  case vadd x | vsub x | vmul x | vmulh x | vmad x | vand x | vor x | vxor x | vnot x | vshl x | vshr x | vsar x | vmin x | vmax x |
      vabs x | vneg x | vmov x | vpopc x | vclz x | vdot4 x => exact readBack_of rfl (VA.parse_raw · · x)
  case fadd x | fsub x | fmul x | ffma x | fmin x | fmax x | fscale x | frnd x | fdot2 x => exact readBack_of rfl (FA.parse_raw · · x)
  case fcmp x => exact readBack_of rfl (FcmpA.parse_raw · · x)
  case cvt x | cvtef x => exact readBack_of rfl (CvtA.parse_raw · · x)
  case qblk x | dqblk x => exact readBack_of rfl (BlkA.parse_raw · · x)
  case pack4 x | ldl x | stl x => exact readBack_of rfl (BinA.parse_raw · · x)
  case unpk4 x => exact readBack_of rfl (UnpkA.parse_raw · · x)
  case shfl x => exact readBack_of rfl (ShflA.parse_raw · · x)
  case vbcast x => exact readBack_of rfl (BcastA.parse_raw · · x)
  case vred x | vscan x => exact readBack_of rfl (RedA.parse_raw · · x)
  case ballot x => exact readBack_of rfl (BallotA.parse_raw · · x)
  case st x | sts x | stg x => exact readBack_of rfl (StA.parse_raw · · x)
  case pref x => exact readBack_of rfl (PrefA.parse_raw · · x)
  case limset x => exact readBack_of rfl (LimA.parse_raw · · x)
  case ktest x => exact readBack_of rfl (KtestA.parse_raw · · x)
  case kdemand x | kaccept x | kabandon x | kmark x => exact readBack_of rfl (KsetA.parse_raw · · x)
  case kstat x => exact readBack_of rfl (KstatA.parse_raw · · x)
  case tklend x | tkret x | tktake x | tksplit x | tkjoin x | tkshare x | tkunshare x | tkhome x | tkunhome x | tkadopt x =>
    exact readBack_of rfl (TkA.parse_raw · · x)
  case atom x | atoms x => exact readBack_of rfl (AtomA.parse_raw · · x)
  case bar x | gbar x => exact readBack_of rfl (BarA.parse_raw · · x)
  case wparr x => exact readBack_of rfl (WparrA.parse_raw · · x)
  case wpwait x | waita x => exact readBack_of rfl (WaitA.parse_raw · · x)
  case fence x => exact readBack_of rfl (FenceA.parse_raw · · x)
  case tld x | tst x => exact readBack_of rfl (TileMemA.parse_raw · · x)
  case tzero x | tmov x | txp x => exact readBack_of rfl (TileA.parse_raw · · x)
  case mtask x => exact readBack_of rfl (MtaskA.parse_raw · · x)
  case mtaskm x => exact readBack_of rfl (MtaskmA.parse_raw · · x)
  case acalloc x | acfree x => exact readBack_of rfl (AcMaskA.parse_raw · · x)
  case acband x => exact readBack_of rfl (AcBandA.parse_raw · · x)
  case acdrain x => exact readBack_of rfl (AcMoveA.parseDrain_rawDrain · · x)
  case acload x => exact readBack_of rfl (AcMoveA.parseLoad_rawLoad · · x)
  case aczero x => exact readBack_of rfl (AcZeroA.parse_raw · · x)
  case acscale x => exact readBack_of rfl (AcScaleA.parse_raw · · x)
  case mstat x => exact readBack_of rfl (MstatA.parse_raw · · x)
  case msend x => exact readBack_of rfl (MsendA.parse_raw · · x)
  case ringset x => exact readBack_of rfl (RingA.parse_raw · · x)
  case arm x => exact readBack_of rfl (ArmA.parse_raw · · x)
  case disarm x | asgo x => exact readBack_of rfl (St1A.parse_raw · · x)
  case asdef x => exact readBack_of rfl (AsdefA.parse_raw · · x)
  case qpop x => exact readBack_of rfl (QpopA.parse_raw · · x)
  case gattach x => exact readBack_of rfl (GattA.parse_raw · · x)
  case gdetach x => exact readBack_of rfl (GdetA.parse_raw · · x)
  case srd x => exact readBack_of rfl (SrdA.parse_raw · · x)
  case swr x => exact readBack_of rfl (SwrA.parse_raw · · x)
  case trap x => exact readBack_of rfl (TrapA.parse_raw · · x)
  case spawn x => exact readBack_of rfl (SpawnA.parse_raw · · x)
  case launch x => exact readBack_of rfl (LaunchA.parse_raw · · x)
  case tbinv x => exact readBack_of rfl (TbinvA.parse_raw · · x)
  case placew x => exact readBack_of rfl (PlacewA.parse_raw · · x)
  case pmov x =>
    refine readBack_of rfl (PmovA.parse_raw · · x) ?_
    obtain ⟨h, ops⟩ := x
    cases ops <;> rfl
  case mcheck x =>
    refine readBack_of rfl (McheckA.parse_raw · · x) ?_
    obtain ⟨h, d, a⟩ := x
    cases a <;> rfl
  case tkquery x =>
    refine readBack_of rfl (TkqA.parse_raw · · x fun hs => ?_) ?_
    case refine_2 =>
      obtain ⟨h, self, d, a⟩ := x
      cases self <;> rfl
    · obtain ⟨c, hc⟩ := Option.ne_none_iff_exists'.mp hs
      simp only [Instr.wf, hc, Bool.and_eq_true, beq_iff_eq] at hw
      exact hw.2.2
  case ld x | ldg x =>
    obtain ⟨hs, ho⟩ := LdA.readBack_of_wfV hw
    exact readBack_of rfl (LdA.parse_raw · · x hs ho)
  case lds x =>
    obtain ⟨hs, ho⟩ := LdA.readBack_of_wfS hw
    exact readBack_of rfl (LdA.parse_raw · · x hs ho)
  case copy x =>
    refine readBack_of rfl (CopyA.parse_raw · · x fun hm hcw => ?_)
    simp only [Instr.wf, hm, hcw, Bool.and_eq_true, Bool.false_or, beq_iff_eq] at hw
    exact hw.1.1.2
  case padd x =>
    refine readBack_of rfl (PaddA.parse_raw · · x ?_)
    obtain ⟨h, d, a, b⟩ := x
    cases d <;> cases a <;> simp_all [Instr.wf, Triple.isV]
  case ptag x =>
    refine readBack_of rfl (PtagA.parse_raw · · x ?_)
    obtain ⟨h, d, a, b, sp⟩ := x
    cases d <;> cases a <;> simp_all [Instr.wf, Triple.isV]
  case pcmp x =>
    refine readBack_of rfl (PcmpA.parse_raw · · x ?_)
    obtain ⟨h, c, d, a, b⟩ := x
    cases a <;> cases b <;> simp_all [Instr.wf, Triple.isV]
  case finj x =>
    refine readBack_of rfl (FinjA.parse_raw · · x ?_)
    obtain ⟨h, kind, a, b⟩ := x
    cases kind <;> cases a <;> simp_all [Instr.wf]
  all_goals cases hc

/-- Settles O57: each shape's reader reads back what its writer fills in, and each opcode's row of the map names the reader of the shape
that the encoder writes. -/
theorem decodingInvertsEncoding : Obligations.DecodingInvertsEncoding :=
  fun i hc hw => decode_encode_of_readBack (i.readBack_of_wf hc hw) hw

/-- Settles O58: each of the printed words is decoded. -/
theorem decodesPrintedWords : Obligations.DecodesPrintedWords := by
  unfold Obligations.DecodesPrintedWords
  decide +kernel

end Sys2Proof
end

section
/-! SUPPORT. The words of the one-source instructions and of bit fields (chapter 5, Table 7; chapter 6, Table 5), and the settling of O2, O9
and O10. -/

namespace Sys2Proof.Machine

open Sys2Proof

/-! ## The words -/

theorem absW_eq (a : Word) : absW a = if a.slt 0 then 0 - a else a := by
  rw [absW, show a.slt 0 = a.msb from BitVec.slt_zero_eq_msb, show (0 : Word) - a = -a from BitVec.zero_sub a]

/-- The numbers below `n` pass a test up to the first that does not. -/
theorem takeWhile_range_length {n k : Nat} {p : Nat → Bool} (hk : k ≤ n) (hp : ∀ j < k, p j = true) (hn : k < n → p k = false) :
    ((List.range n).takeWhile p).length = k := by
  obtain ⟨m, rfl⟩ := Nat.exists_eq_add_of_le hk
  rw [List.range_add, List.takeWhile_append_of_pos fun j hj => hp j (List.mem_range.mp hj)]
  cases m with
  | zero => simp
  | succ m => rw [List.range_succ_eq_map, List.map_cons, List.takeWhile_cons_of_neg (by simpa using hn (by omega))]; simp

theorem log2_lt_of_word {a : Word} (h : a ≠ 0) : a.toNat.log2 < 32 :=
  (Nat.log2_lt fun e => h (BitVec.eq_of_toNat_eq e)).mpr a.isLt

/-- The highest set bit of a word stands at its logarithm. -/
theorem clzW_eq (a : Word) : clzW a = BitVec.ofNat 32 ((List.range 32).takeWhile fun i => !a.getMsbD i).length := by
  unfold clzW
  split
  case isTrue h =>
    rw [takeWhile_range_length le_rfl (fun j _ => by simp [h]) (fun hj => absurd hj (lt_irrefl _))]
    rfl
  case isFalse h =>
    have h0 : a.toNat ≠ 0 := fun e => h (BitVec.eq_of_toNat_eq e)
    have hlog := log2_lt_of_word h
    rw [takeWhile_range_length (k := 31 - a.toNat.log2) (by omega) (fun j hj => ?_) (fun _ => ?_)]
    · have hlt : a.toNat < 2 ^ (31 - j) := (Nat.log2_lt h0).mp (by omega)
      rw [BitVec.getMsbD_eq_getLsbD, BitVec.getLsbD, Nat.testBit_lt_two_pow hlt, Bool.and_false, Bool.not_false]
    · have hbit : a.getLsbD (31 - (31 - a.toNat.log2)) = true := by
        rw [show 31 - (31 - a.toNat.log2) = a.toNat.log2 by omega]; exact Nat.testBit_log2 h0
      rw [BitVec.getMsbD_eq_getLsbD, hbit, decide_eq_true (by omega), Bool.true_and, Bool.not_true]

/-! ## Bit fields -/

theorem getLsbD_zextLow {n : Nat} (hn : n ≤ 32) (x : Word) (i : Nat) : (zextLow n x).getLsbD i = (decide (i < n) && x.getLsbD i) := by
  rw [zextLow, BitVec.getLsbD_ushiftRight, BitVec.getLsbD_shiftLeft, Nat.add_sub_cancel_left]
  by_cases hi : i < n
  · simp [hi, show 32 - n + i < 32 by omega]
  · simp [hi, show ¬ 32 - n + i < 32 by omega]

theorem getLsbD_sextLow {n : Nat} (h0 : 0 < n) (hn : n ≤ 32) (x : Word) {i : Nat} (hi : i < 32) :
    (sextLow n x).getLsbD i = x.getLsbD (if i < n then i else n - 1) := by
  rw [sextLow, if_neg h0.ne', BitVec.getLsbD_sshiftRight, decide_eq_false (by omega), Bool.not_false, Bool.true_and]
  by_cases hlt : i < n
  · rw [if_pos (by omega), if_pos hlt, BitVec.getLsbD_shiftLeft, Nat.add_sub_cancel_left]
    simp [show 32 - n + i < 32 by omega]
  · rw [if_neg (by omega), if_neg hlt, BitVec.msb_eq_getLsbD_last, BitVec.getLsbD_shiftLeft, show 32 - 1 - (32 - n) = n - 1 by omega]
    simp [show ¬ 31 < 32 - n by omega]

/-- A bit field taken from a word, named bit by bit. -/
theorem bfe_eq (sgn : Bool) {p l : Nat} (h : p + (l + 1) ≤ 32) (a : Word) :
    bfe sgn p (l + 1) a = maskOf 32 fun i => if i ≤ l then a.getLsbD (p + i) else sgn && a.getLsbD (p + l) := by
  refine eq_maskOf fun i hi => ?_
  cases sgn
  · rw [bfe, if_neg Bool.false_ne_true, getLsbD_zextLow (by omega), BitVec.getLsbD_ushiftRight]
    by_cases hl : i ≤ l <;> simp [hl]
  · rw [bfe, if_pos rfl, getLsbD_sextLow (by omega) (by omega) _ hi, BitVec.getLsbD_ushiftRight]
    by_cases hl : i ≤ l <;> simp [hl]

/-- A bit field placed in a word, named bit by bit. -/
theorem bfi_eq {p l : Nat} (h : p + (l + 1) ≤ 32) (a d : Word) :
    bfi p (l + 1) a d = maskOf 32 fun i => if p ≤ i ∧ i ≤ p + l then a.getLsbD (i - p) else d.getLsbD i := by
  refine eq_maskOf fun i hi => ?_
  have hm : (zextLow (l + 1) 0xFFFFFFFF <<< p).getLsbD i = decide (p ≤ i ∧ i ≤ p + l) := by
    have hones : ∀ j < 32, (0xFFFFFFFF : Word).getLsbD j = true := by decide
    rw [BitVec.getLsbD_shiftLeft, getLsbD_zextLow (by omega), hones _ (by omega), Bool.and_true, decide_eq_true hi, Bool.true_and,
      ← decide_not, ← Bool.decide_and]
    exact decide_eq_decide.mpr (by omega)
  simp only [bfi, BitVec.getLsbD_or, BitVec.getLsbD_and, BitVec.getLsbD_not, hm, decide_eq_true hi, Bool.true_and]
  by_cases hin : p ≤ i ∧ i ≤ p + l
  · simp only [hin, and_self, decide_true, Bool.not_true, Bool.and_false, Bool.false_or, Bool.and_true, if_true]
    rw [BitVec.getLsbD_shiftLeft, decide_eq_true hi, decide_eq_false (by omega), Bool.not_false, Bool.true_and, Bool.true_and]
  · simp only [hin, decide_false, Bool.not_false, Bool.and_true, Bool.and_false, Bool.or_false, if_false]

/-- VDOT4's sum of four products of bytes, limited under SAT. -/
theorem dot4_eq (u ub sat : Bool) (p q r : Word) :
    let byte (u : Bool) (p : Word) (j : Nat) : Int := elemNum u (p.extractLsb' (8 * j) 8)
    dot4 u ub sat p q r = elemOut sat false 32 (r.toInt + byte u p 0 * byte ub q 0 + byte u p 1 * byte ub q 1 +
      byte u p 2 * byte ub q 2 + byte u p 3 * byte ub q 3) := by
  intro byte
  have hsum : (List.range 4).foldl (fun t i => t + elemInt u 8 i p * elemInt ub 8 i q) r.toInt =
      r.toInt + byte u p 0 * byte ub q 0 + byte u p 1 * byte ub q 1 + byte u p 2 * byte ub q 2 + byte u p 3 * byte ub q 3 := by
    simp only [elemInt_eq _ (show 0 < 8 by decide)]; rfl
  rw [dot4, hsum, clampInt_eq (by decide)]
  rfl

/-- A selection made by a bit that is not the one asked for, and by one that is. -/
theorem ite_bne {α : Sort _} (c n : Bool) (x y : α) : (if c != n then x else y) = if c = n then y else x := by
  cases c <;> cases n <;> rfl

/-! ## Instructions by their shape -/

/-- A one-source scalar instruction, and the word it writes. -/
theorem scalarResult_un {i : Instr} {h : Hdr} {a d : Opnd} {zx : Bool} {s : State} {I : Iss} {f : Word → Word} {v : Word}
    (hr : Ready s h { reads := [a], all := true } I) (hi : exec i s = scalarUn h d a zx f s) (hv : f (I.sval zx a).val = v) :
    ScalarResult i s I 1 d ⟨v, (I.sval zx a).k⟩ := by
  subst hv
  exact scalarResult_of hr hi rfl Nat.one_pos

section
variable {i : Instr} {x : VA} {s : State} {I : Iss}

/-- A two-source vector instruction on whole lanes. -/
theorem vectorResult_bin (f : Word → Word → Word) (hr : Ready s x.h { reads := [x.a, x.b], dsts := [x.d] } I)
    (hi : exec i s = vecBin x false (fun a b _ => f a b) s) :
    VectorResult i s I 0 x.d (VReg.of fun l =>
      ⟨f ((I.vsrc x.zx x.a).at l).val ((I.vsrc x.zx x.b).at l).val, ((I.vsrc x.zx x.a).at l).k || ((I.vsrc x.zx x.b).at l).k⟩) := by
  have h := vectorResult_of hr hi rfl (Iss.passes_pos hr.issuer)
  simpa only [Bool.false_and, Bool.or_false] using h

/-- One that reads its destination too. -/
theorem vectorResult_ter (f : Word → Word → Word → Word) (hr : Ready s x.h { reads := [x.a, x.b, x.d], dsts := [x.d] } I)
    (hi : exec i s = vecBin x true f s) :
    VectorResult i s I 0 x.d (VReg.of fun l =>
      ⟨f ((I.vsrc x.zx x.a).at l).val ((I.vsrc x.zx x.b).at l).val ((I.vsrc false x.d).at l).val,
        ((I.vsrc x.zx x.a).at l).k || ((I.vsrc x.zx x.b).at l).k || ((I.vsrc false x.d).at l).k⟩) :=
  vectorResult_of hr hi rfl (Iss.passes_pos hr.issuer)

/-- A one-source vector instruction on whole lanes. -/
theorem vectorResult_un {h : Hdr} {a d : Opnd} {zx : Bool} (f : Word → Word) (hr : Ready s h { reads := [a], dsts := [d] } I)
    (hi : exec i s = vecUn h d a zx f s) :
    VectorResult i s I 0 d (VReg.of fun l => ⟨f ((I.vsrc zx a).at l).val, ((I.vsrc zx a).at l).k⟩) :=
  vectorResult_of hr hi rfl (Iss.passes_pos hr.issuer)

end

/-! ## The statements -/

/-- Settles O2: each instruction by the rule of its shape and the equation of its word. -/
theorem scalarMoveAndFieldResults : Obligations.ScalarMoveAndFieldResults := by
  refine ⟨fun x s I hr => ⟨?sabs, ?spopc, ?sclz⟩, fun x s I hr => ?smov, fun x s I hr => ?ssel, fun x s I hb hr => ?sbfe,
    fun x s I hb hr => ?sbfi⟩
  case sabs => exact scalarResult_un hr rfl (absW_eq _)
  case spopc => exact scalarResult_un (f := popW) hr rfl rfl
  case sclz => exact scalarResult_un hr rfl (clzW_eq _)
  case smov => exact scalarResult_un (f := id) hr rfl rfl
  case ssel =>
    rw [← ite_bne]
    exact scalarResult_of hr rfl rfl Nat.one_pos
  case sbfe => exact scalarResult_un hr rfl (bfe_eq x.sgn hb _)
  case sbfi =>
    dsimp only
    rw [← bfi_eq hb]
    exact scalarResult_of hr rfl rfl Nat.one_pos

/-- Settles O9: each instruction by the rule of its shape and the equation of its word. -/
theorem vectorWordResults : Obligations.VectorWordResults := by
  refine ⟨fun x s I hr => ?two, fun x s I hr => ?three, fun x s I hr => ?one⟩ <;>
    simp only [← mulHigh_eq, ← shl_eq, ← shr_eq, ← sar_eq, ← dot4_eq, ← clzW_eq]
  case two =>
    exact ⟨vectorResult_bin (fun p q => p * q) hr rfl, vectorResult_bin (mulHigh x.u) hr rfl, vectorResult_bin (fun p q => p &&& q) hr rfl,
      vectorResult_bin (fun p q => p ||| q) hr rfl, vectorResult_bin (fun p q => p ^^^ q) hr rfl, vectorResult_bin shl hr rfl,
      vectorResult_bin shr hr rfl, vectorResult_bin sar hr rfl⟩
  case three => exact ⟨vectorResult_ter (fun p q r => p * q + r) hr rfl, vectorResult_ter (dot4 x.u x.ub x.sat) hr rfl⟩
  case one =>
    exact ⟨vectorResult_un (fun p => ~~~p) hr rfl, vectorResult_un id hr rfl, vectorResult_un popW hr rfl, vectorResult_un clzW hr rfl⟩

/-- Settles O10: the fields by their equations in each lane, the selection by the rule of vector results. -/
theorem vectorFieldAndSelectResults : Obligations.VectorFieldAndSelectResults := by
  refine ⟨fun x s I hb => ⟨fun hr => ?vbfe, fun hr => ?vbfi⟩, fun x s I hr => ?vsel⟩
  case vbfe =>
    simp only [← bfe_eq x.sgn hb]
    exact vectorResult_of hr rfl rfl (Iss.passes_pos hr.issuer)
  case vbfi =>
    simp only [← bfi_eq hb]
    exact vectorResult_of hr rfl rfl (Iss.passes_pos hr.issuer)
  case vsel =>
    have h := vectorResult_of (i := .vsel x) hr rfl rfl (Iss.passes_pos hr.issuer)
    simp only [ite_bne] at h
    exact h

end Sys2Proof.Machine
end

section
/-! SUPPORT. SCMP with no lane active and an uncorrectable scalar register (R111, R355), and the refutation of O13. -/

namespace Sys2Proof.Machine

open Sys2Proof

/-! ## A split without lanes

SCMP acts for its whole group (R111): where its q guard holds it reads its scalar registers, and consumes an uncorrectable one, whether or
not a lane is active. The statement asks of SCMP only what it asks of VCMP and FCMP beside it, that no such register is read by an active
lane. A split without lanes whose SCMP names an uncorrectable register tells the two apart. -/

/-- The module with one group, its split without lanes and its s0 uncorrectable, at the issue slot. -/
def stateNoLane : State :=
  (State.reset.withFetchWord 96 0).modGroup 0 0 fun G => { G.modSplit 0 fun S => { S with m := 0 } with ueS := [0] }

/-- An equality of s0 and s1, under a q guard that holds. -/
def scmpNoLane : CmpA := ⟨⟨0, none, 0, .q true 0⟩, .eq, 0, .s 0, .s 1, false⟩

/-- Whether the group is there after a step. -/
def leavesGroup : Host.Outcome State Fault Refusal → Bool
  | .next t => (t.group? 0 0).isSome
  | _ => false

/-- The crew consumes s0: it is rolled back, and its group is gone. -/
theorem scmpNoLane_consumes : leavesGroup (exec (.scmp scmpNoLane) stateNoLane) = false := by decide +kernel

/-- What the statement asks of an issue of SCMP, as a test. -/
def readyNoLane (I : Iss) : Bool :=
  let u : Use := { reads := [scmpNoLane.a, scmpNoLane.b] }
  (I.pre u).isNone && I.guardMarks == 0 && !I.meetsUe u && !(I.sval false scmpNoLane.a).k && !(I.sval false scmpNoLane.b).k &&
    I.c == 0 && I.g == 0

theorem stateNoLane_ready : (stateNoLane.issuer scmpNoLane.h).any readyNoLane = true := by decide +kernel

/-- Refutes O13: an SCMP whose s0 is uncorrectable, at a split without lanes, meets what the statement asks, which is asked of the active
lanes; yet SCMP acts for its group, so that its crew consumes s0 and is rolled back, and no condition is written. The statement, made of
every state, fails on one that lies outside what the instructions make, a split that owns lanes and has none. -/
theorem not_compareAndClassResults : ¬ Obligations.CompareAndClassResults := by
  intro h
  obtain ⟨I, hI, hready⟩ := (Option.any_eq_true _ _).mp stateNoLane_ready
  simp only [readyNoLane, Bool.and_eq_true, Option.isNone_iff_eq_none, beq_iff_eq, Bool.not_eq_true'] at hready
  obtain ⟨⟨⟨⟨⟨⟨hpre, hguard⟩, hsound⟩, ha⟩, hb⟩, hc⟩, hg⟩ := hready
  obtain ⟨hscmp, -⟩ := h.1 scmpNoLane stateNoLane I ⟨hI, hpre, hguard, hsound⟩
  have hk : ((I.sval scmpNoLane.zx scmpNoLane.a).k || (I.sval scmpNoLane.zx scmpNoLane.b).k) = false := by
    rw [show scmpNoLane.zx = false from rfl, ha, hb]; rfl
  dsimp only at hscmp
  rw [if_neg (by simp [hk])] at hscmp
  obtain ⟨t, ht, ⟨-, G, S, hG, -⟩, -⟩ := hscmp
  have hgone := scmpNoLane_consumes
  rw [ht] at hgone
  have hG0 : t.group? 0 0 = some G := by simpa only [Iss.groupIn, hc, hg] using hG
  rw [leavesGroup, hG0] at hgone
  exact Bool.noConfusion hgone

end Sys2Proof.Machine
end

section
/-! SUPPORT. Pointers as words of 96 bits: PADD's sum, PFLD's fields, PCMP's conditions, the registers of a triple (chapter 5, Table 11),
and the settling of O4. -/

namespace Sys2Proof.Machine

open Sys2Proof

/-! ## The pointer that PADD writes -/

/-- A number put in the low `n` bits of a pointer. -/
theorem getLsbD_withLow (p : Ptr) {n v i : Nat} (hv : v < 2 ^ n) (hi : i < 96) :
    ((p &&& ~~~((2 ^ n - 1 : Nat) : Ptr)) ||| BitVec.ofNat 96 v).getLsbD i = if i < n then v.testBit i else p.getLsbD i := by
  have hmask : ((2 ^ n - 1 : Nat) : Ptr).getLsbD i = decide (i < n) := by
    rw [show ((2 ^ n - 1 : Nat) : Ptr) = BitVec.ofNat 96 (2 ^ n - 1) from rfl, BitVec.getLsbD_ofNat, Nat.testBit_two_pow_sub_one,
      decide_eq_true hi, Bool.true_and]
  rw [BitVec.getLsbD_or, BitVec.getLsbD_and, BitVec.getLsbD_not, hmask, BitVec.getLsbD_ofNat, decide_eq_true hi]
  by_cases hn : i < n
  · simp [hn]
  · simp [hn, Nat.testBit_lt_two_pow (hv.trans_le (Nat.pow_le_pow_right two_pos (Nat.le_of_not_lt hn)))]

/-- An offset added modulo 2^n to the low `n` bits of a pointer. -/
theorem getLsbD_low_add (p : Ptr) (b : Word) {n i : Nat} (hn : i < n) :
    (((p.extractLsb' 0 n).toNat + b.toInt) % 2 ^ n : Int).toNat.testBit i = (p.extractLsb' 0 n + b.signExtend n).getLsbD i := by
  have hsum : BitVec.ofNat n (((p.extractLsb' 0 n).toNat + b.toInt) % 2 ^ n : Int).toNat = p.extractLsb' 0 n + b.signExtend n := by
    rw [ofNat_emod_toNat, BitVec.ofInt_add, BitVec.ofInt_natCast, BitVec.ofNat_toNat, BitVec.setWidth_eq]; rfl
  rw [← hsum, BitVec.getLsbD_ofNat, decide_eq_true hn, Bool.true_and]

theorem emod_two_pow_lt (x : Int) (n : Nat) : (x % 2 ^ n).toNat < 2 ^ n := by
  have := Int.emod_lt_of_pos x (show (0 : Int) < 2 ^ n by positivity)
  have := Int.emod_nonneg x (show (2 : Int) ^ n ≠ 0 by positivity)
  zify
  omega

/-- The pointer that has such a sum in its low `n` bits. -/
theorem getLsbD_withSum (p : Ptr) (b : Word) (n : Nat) {i : Nat} (hi : i < 96) :
    ((p &&& ~~~((2 ^ n - 1 : Nat) : Ptr)) ||| BitVec.ofNat 96 (((p.extractLsb' 0 n).toNat + b.toInt) % 2 ^ n : Int).toNat).getLsbD i =
      if i < n then (p.extractLsb' 0 n + b.signExtend n).getLsbD i else p.getLsbD i := by
  rw [getLsbD_withLow p (emod_two_pow_lt _ _) hi]
  split
  · rw [getLsbD_low_add p b (by assumption)]
  · rfl

/-- The high bits of a pointer before `n` others. -/
theorem getLsbD_high_append (p : Ptr) {n w i : Nat} (x : BitVec n) (hi : i < n + w) :
    (p.extractLsb' n w ++ x).getLsbD i = if i < n then x.getLsbD i else p.getLsbD i := by
  rw [BitVec.getLsbD_append, BitVec.getLsbD_extractLsb']
  split
  · rfl
  · rw [decide_eq_true (by omega), Bool.true_and, Nat.add_sub_cancel' (by omega)]

theorem Ptr.advance_eq (p : Ptr) (b : Word) : Ptr.advance p b.toInt = ptrPlus p b := by
  have hs : Ptr.space p = 0 ↔ p.extractLsb' 80 4 = 0 := ⟨fun h => BitVec.eq_of_toNat_eq h, fun h => by rw [Ptr.space, h]; rfl⟩
  unfold Ptr.advance ptrPlus
  simp only [hs]
  split
  · exact BitVec.eq_of_getLsbD_eq fun i hi => (getLsbD_withSum p b 62 hi).trans (getLsbD_high_append p (w := 34) _ hi).symm
  · exact BitVec.eq_of_getLsbD_eq fun i hi => (getLsbD_withSum p b 80 hi).trans (getLsbD_high_append p (w := 16) _ hi).symm

/-! ## Fields and conditions -/

theorem PField.of_eq (f : PField) (p : Ptr) : PField.of f p = BitVec.ofNat 32 (fieldSays f p) := by
  apply BitVec.eq_of_toNat_eq
  have := p.isLt
  cases f <;>
    simp only [PField.of, fieldSays, BitVec.toNat_setWidth, BitVec.truncate_eq_setWidth,
      BitVec.extractLsb'_toNat, BitVec.toNat_ofNat, Nat.shiftRight_eq_div_pow]
  all_goals omega

/-- Two pointers of one SPACE and RANK. -/
theorem Ptr.same_iff (p q : Ptr) : (Ptr.space p == Ptr.space q && Ptr.rank p == Ptr.rank q) =
    decide (p.toNat / 2 ^ 80 = q.toNat / 2 ^ 80) := by
  have hp := p.isLt
  have hq := q.isLt
  rw [Bool.eq_iff_iff]
  simp only [Ptr.space, Ptr.rank, BitVec.extractLsb'_toNat, Nat.shiftRight_eq_div_pow, Bool.and_eq_true, beq_iff_eq, decide_eq_true_eq]
  omega

theorem Ptr.addr_eq (p : Ptr) : Ptr.addr p = p.toNat % 2 ^ 80 := by
  rw [Ptr.addr, BitVec.extractLsb'_toNat, Nat.shiftRight_zero]

theorem ptrHolds_eq (c : Cond) (p q : Ptr) : ptrHolds c p q = ptrSays c p q := by
  cases c <;> simp only [ptrHolds, ptrSays, Ptr.same_iff, Ptr.addr_eq, Bool.and_false]

/-! ## Triples -/

theorem Iss.wptr_eq (I : Iss) (d : Triple) (p : Nat → Ptr) (k : Nat → Nat → Bool) : I.wptr d p k = ptrWrites I d p k := by
  cases d with
  | v n => rfl
  | s n =>
    unfold Iss.wptr ptrWrites Iss.guarded
    cases I.qok <;> rfl

/-- The marked registers of a scalar triple that are xm0, xm1 or xm2. -/
def xmMarked (d : Triple) (k : Nat → Bool) : Bool :=
  match d with
  | .s n => (List.range 3).any fun j => decide (125 ≤ n.val + j) && k j
  | .v _ => false

theorem Iss.ptrXm_eq (I : Iss) (d : Triple) (k : Nat → Bool) :
    I.ptrXm d k = if xmMarked d k = true ∧ I.qok = true ∧ I.uses 0 = false then some I.kAll else none := by
  cases d with
  | v n => rfl
  | s n => simp only [Iss.ptrXm, xmMarked, Bool.and_eq_true, Bool.not_eq_true', and_assoc]; rfl

/-! ## Effects of a pointer instruction -/

theorem ite_not_swap {α : Sort _} (b : Bool) (x y : α) : (if (!b) = true then x else y) = if b = true then y else x := by
  cases b <;> rfl

section
variable {i : Instr} {s : State} {h : Hdr} {u : Use} {I : Iss} {body : Iss → Res}

/-- A pointer instruction computes in one cycle on scalar registers, in the passes of its group on vector registers. -/
theorem computes_ptr {v : Bool} {ws : List RegWrite} (hr : Ready s h u I) (hi : exec i s = issue h u s body)
    (hb : body I = I.ok (I.ptrEff v ws)) : Computes i s I (I.t + if v then I.P else 1) ws := by
  have hP := Iss.passes_pos hr.issuer
  cases v
  · exact computes_scalar hr hi hb
  · refine computes_of hr hi hb (.inr ⟨0, rfl, ?_⟩) rfl rfl rfl
    simp only [Iss.last, Iss.ptrEff, if_true]
    omega

/-- One whose marked result would go to xm0 to xm2 stops under FAULT; else it computes. -/
theorem ptr_spec {d : Triple} {k : Nat → Bool} {v : Bool} {ws : List RegWrite} (hr : Ready s h u I) (hi : exec i s = issue h u s body)
    (hb : body I = match I.ptrXm d k with
      | some r => .stop r
      | none => I.ok (I.ptrEff v ws)) :
    if xmMarked d k = true ∧ I.qok = true ∧ I.uses 0 = false then Stops i s I I.kAll
    else Computes i s I (I.t + if v then I.P else 1) ws := by
  rw [Iss.ptrXm_eq] at hb
  split
  · rename_i hx
    rw [if_pos hx] at hb
    exact stops_of hr hi hb
  · rename_i hx
    rw [if_neg hx] at hb
    exact computes_ptr hr hi hb

/-- One that writes a condition to a q register while its guard holds, unless a mark stops it under FAULT. -/
theorem qbit_spec {d : Fin 8} {r k : Bool} (hr : Ready s h u I) (hi : exec i s = issue h u s body)
    (hb : body I = if !I.qok then I.ok { unit := .scalar } else if k && !I.uses 0 then .stop I.kAll
      else I.ok { ws := [.qbit d r], unit := .scalar }) :
    if I.qok = true ∧ k = true ∧ I.uses 0 = false then Stops i s I I.kAll
    else Computes i s I (I.t + 1) (I.guarded [.qbit d r]) := by
  cases hq : I.qok with
  | false =>
    rw [if_neg (by simp), Iss.guarded, hq]
    exact computes_scalar hr hi (hb.trans (if_pos (by rw [hq]; rfl)))
  | true =>
    rw [Iss.guarded, hq]
    rw [if_neg (by simp [hq])] at hb
    split
    · rename_i hk
      exact stops_of hr hi (hb.trans (if_pos (by simp [hk])))
    · rename_i hk
      exact computes_scalar hr hi (hb.trans (if_neg (by simpa using hk)))

end

/-- The active lanes among some. -/
theorem maskOf_and_active (I : Iss) (f : Nat → Bool) :
    maskOf 96 f &&& I.active = maskOf 96 fun i => I.active.getLsbD i && f i :=
  eq_maskOf fun i hi => by rw [BitVec.getLsbD_and, getLsbD_maskOf, decide_eq_true hi, Bool.true_and, Bool.and_comm]

/-- PTAG: a marked b stops it, in the lanes that are marked where its registers are vector registers. -/
theorem ptag_spec {x : PtagA} {s : State} {I : Iss}
    (hr : Ready s x.h ((Use.ofTriple { reads := [x.b], all := tripleS x.a } x.a).dstTriple x.d) I) :
    let b (i : Nat) : Elem := if tripleS x.a then I.sval false x.b else (I.vsrc false x.b).at i
    let k (i j : Nat) : Bool := match x.a with
      | .s n => (I.sreg (n.val + j)).k
      | .v n => ((I.G.regs.vec (.v (n.val + j))).at i).k
    let marked : Lanes := maskOf 96 fun i => I.active.getLsbD i && (b i).k
    if tripleS x.a = true ∧ I.qok = true ∧ (b 0).k = true then Stops (.ptag x) s I I.kAll
    else if tripleS x.a = false ∧ marked ≠ 0 then Stops (.ptag x) s I { cause := .kConsume, cmask := marked, pc := I.S.pc }
    else if xmMarked x.d (k 0) = true ∧ I.qok = true ∧ I.uses 0 = false then Stops (.ptag x) s I I.kAll
    else Computes (.ptag x) s I (I.t + if tripleS x.d then 1 else I.P)
      (ptrWrites I x.d (fun i => (b i).val.extractLsb' 0 12 ++ x.space ++ (I.triple x.a i).1.extractLsb' 0 80) k) := by
  intro b k marked
  have hmask : maskOf 96 (fun i => (b i).k) &&& I.active = marked := maskOf_and_active I _
  have hb : (tripleS x.a && I.qok && (b 0).k) = true ↔ tripleS x.a = true ∧ I.qok = true ∧ (b 0).k = true := by
    simp only [Bool.and_eq_true, and_assoc]
  have hm : ((if tripleS x.a then 0 else maskOf 96 (fun i => (b i).k) &&& I.active) != 0) = true ↔
      tripleS x.a = false ∧ marked ≠ 0 := by
    rw [hmask]
    cases tripleS x.a <;> simp
  split
  · rename_i h
    exact stops_of hr rfl (if_pos (hb.mpr h))
  · rename_i h
    split
    · rename_i hk
      refine stops_of hr rfl ((if_neg (hb.not.mpr h)).trans ((if_pos (hm.mpr hk)).trans ?_))
      rw [if_neg (by simp [hk.1])]
      exact congrArg (fun m => Res.stop (I.lanes .kConsume m)) hmask
    · rename_i hk
      have hp := ptr_spec (i := .ptag x) (d := x.d) (k := k 0) (v := !tripleS x.d) (ws := I.wptr x.d _ k) hr rfl
        ((if_neg (hb.not.mpr h)).trans (if_neg (hm.not.mpr hk)))
      simp only [Iss.wptr_eq, ite_not_swap] at hp
      exact hp

/-! ## The statement -/

/-- Settles O4: PADD and PTAG by the rule of a pointer result, PFLD by the rules of scalar and vector results, PCMP by the rule of effects;
each pointer, field and condition by its equation. -/
theorem pointerResults : Obligations.PointerResults := by
  refine ⟨⟨fun x s I hty hr => ?padd, fun x s I hty hr => ?ptag⟩, fun x s I hr => ?pfld, fun x s I hty hr => ?pcmp⟩
  case padd =>
    have h := ptr_spec (i := .padd x) (d := x.d) (v := !tripleS x.d) hr rfl rfl
    simp only [Iss.wptr_eq, Ptr.advance_eq, ite_not_swap] at h
    exact h
  case ptag => exact ptag_spec hr
  case pfld =>
    simp only [← PField.of_eq]
    split
    · rename_i ha
      exact scalarResult_of hr rfl (if_pos ha) Nat.one_pos
    · rename_i ha
      exact computes_ptr (v := true) hr rfl (if_neg ha)
  case pcmp =>
    simp only [← ptrHolds_eq]
    split
    · rename_i ha
      exact qbit_spec hr rfl (if_pos ha)
    · rename_i ha
      exact computes_ptr (v := true) hr rfl (if_neg ha)

end Sys2Proof.Machine
end

section
/-! SUPPORT. How engine instructions issue (R277, R280, R282), and the settling of O33 and O34. -/

namespace Sys2Proof.Machine

open Sys2Proof

/-! ## What a start leaves of the groups -/

theorem State.homeReach_cores (s : State) (c pa : Nat) : (s.homeReach c pa).2.cores = s.cores := by
  unfold State.homeReach
  dsimp only
  rfl

theorem State.reach_cores (s : State) (w : Who) (l : Look) (n : Nat) : (s.reach w l n).2.cores = s.cores := by
  unfold State.reach
  split
  · split
    · rfl
    · exact State.homeReach_cores ..
  · exact State.homeReach_cores ..
  · split <;> rfl
  · rfl
  · rfl
  · rfl

theorem State.latency_cores (s : State) (n : Nat) : (s.latency n).2.cores = s.cores := rfl

theorem State.engReach_cores (s : State) (w : Who) (p : Ptr) : (s.engReach w p).2.cores = s.cores := by
  unfold State.engReach
  obtain ⟨walked, hwalked⟩ : ∃ f, s.walk w.ctx = f := ⟨_, rfl⟩
  rw [hwalked]
  dsimp only
  rw [State.latency_cores]
  split
  · split
    · split
      · rfl
      · exact State.homeReach_cores ..
    · rfl
  · rfl
  · exact State.reach_cores ..
  · exact State.reach_cores ..
  · rfl

theorem State.group_engReach (s : State) (w : Who) (p : Ptr) (c g : Nat) : (s.engReach w p).2.group? c g = s.group? c g :=
  State.group_congr (State.engReach_cores ..) c g

theorem State.group_engAsk (s : State) (c e t d g : Nat) : (s.engAsk c e t).group? d g = s.group? d g := by
  unfold State.engAsk
  dsimp only
  split <;> rfl

/-- A COPY that starts leaves every group as it was. -/
theorem State.group_copyStart (s : State) (c : Nat) (o : Op) (x : CopyA) (e d g : Nat) :
    (s.copyStart c o x e).group? d g = s.group? d g := by
  unfold State.copyStart
  dsimp only
  rw [State.group_engAsk, State.group_modCore]
  swap
  · exact fun _ => rfl
  generalize ht : (if (x.cw && x.scope != .grp && x.scope != .crew) = true then
    (s.dropOp c o.id).commit (s.opWho c o).ctx (s.opWho c o).crew 1 else s.dropOp c o.id) = t
  have hcom : t.group? d g = s.group? d g := by
    subst ht
    split
    · rw [State.group_commit, State.group_dropOp]
    · exact State.group_dropOp ..
  split
  · rw [State.group_engReach, State.group_engReach, hcom]
  · rw [State.group_engReach, hcom]

theorem State.group_packetReach (s : State) (c : Nat) (p : Packet) (d g : Nat) : (s.packetReach c p).2.group? d g = s.group? d g := by
  unfold State.packetReach
  split
  · rfl
  · dsimp only
    split
    · split <;> rfl
    · rfl

theorem State.group_packetSend (s : State) (c : Nat) (p : Packet) (d g : Nat) : (s.packetSend c p).group? d g = s.group? d g := by
  unfold State.packetSend
  split
  · rfl
  · dsimp only
    rw [State.group_postQ, State.group_packetReach]
    exact State.group_modCore fun _ => rfl

/-- An MSEND whose payload is sound leaves, as it starts, every group as it was. -/
theorem State.group_msendStart {s : State} {c : Nat} {o : Op} (ho : o.cause ≠ some .ueData) (x : MsendA) (e d g : Nat) :
    (s.msendStart c o x e).group? d g = s.group? d g := by
  unfold State.msendStart
  dsimp only
  rw [if_neg ho]
  have hcom : ∀ (b : Bool) (t : State),
      (if b = true then t.commit (s.opWho c o).ctx (s.opWho c o).crew 1 else t).group? d g = t.group? d g :=
    fun b t => by
      split
      · exact State.group_commit ..
      · rfl
  split
  · rw [State.group_postQ, hcom, State.group_modCore, State.group_dropOp]
    exact fun _ => rfl
  · rw [State.group_packetSend, hcom, State.group_modCore, State.group_dropOp]
    exact fun _ => rfl

/-! ## The issue of an engine instruction -/

/-- The operation of an engine instruction, its marked arguments kept with it. -/
def Iss.engOp (I : Iss) (i : Instr) (args : List Word) (marks : List Nat) (ue : Bool) : Op :=
  { opOf i I (marks.map fun j => accOf j I.t 0 1 true) with args := args, cause := if ue then some .ueData else none }

/-- What an engine instruction hands over; `result` says whether it writes a register. -/
def engEff (charge : Nat) (result : Bool) : Eff := { comp := .later result, unit := .lsu, charge := charge }

theorem engEff_later (charge : Nat) (result : Bool) : (engEff charge result).Later result := ⟨rfl, rfl, rfl, rfl⟩

section
variable {I : Iss} {i : Instr} {marks : List Nat} {ue held : Bool} {args : List Word} {charge : Nat} {result : Bool}

/-- A false guard. -/
theorem Iss.engine_guarded (hq : I.qok = false) :
    I.engine i marks ue held args charge result = I.ok { engEff charge result with comp := .flag (I.t + 1) } := by
  unfold Iss.engine
  rw [hq]
  rfl

/-- What the causes of its operands make of an engine instruction that may issue. -/
theorem Iss.engine_checked (hq : I.qok = true) : I.engine i marks ue held args charge result =
    match State.engReport (I.engOp i args marks ue) (I.s.engCauses I.who i args marks) with
    | some r =>
      if r.cause = .kConsume then .stop I.kAll
      else if r.cause.serviced then .done (I.s.addOp I.c { I.engOp i args marks ue with stage := .logged })
        { engEff charge result with serviced := some r }
      else .stop r
    | none => if held then .hold I.s
      else .done ((I.s.addOp I.c (I.engOp i args marks ue)).engStart I.c (I.engOp i args marks ue)) (engEff charge result) := by
  unfold Iss.engine
  rw [hq]
  rfl

end

/-- An instruction that a serviced cause puts into the operand log of a group whose splits stay takes its exception after its effect. -/
theorem serviced_on {i : Instr} {s s' : State} {h : Hdr} {u : Use} {I : Iss} {body : Iss → Res} {e : Eff} {result : Bool} {r : Report}
    {G : Group} (hr : Ready s h u I) (hi : exec i s = issue h u s body) (he : e.Later result)
    (hb : body I = .done s' { e with serviced := some r }) (hg : s'.group? I.c I.g = some G) (hsp : G.splits = I.G.splits) :
    ∃ t, I.At t (I.S.pc + 1) ∧ I.Alone s' t ∧ exec i s = .next (t.takeServiced I.c I.g r) := by
  obtain ⟨-, -, hS, -⟩ := State.issuer_spec hr.issuer
  obtain ⟨hat, -, halone, -⟩ := Iss.commit_next hg hsp hS he.flow he.after he.serviced
  refine ⟨I.commit s' e, hat, halone, ?_⟩
  rw [hi, issue_ready hr, hb]
  exact congrArg _ (Iss.commit_serviced he s' r)

/-- An engine instruction issues as its guard, the causes of its operands and the engine slots say (R277, R280, R282). -/
theorem engineIssues_of {i : Instr} {s : State} {h : Hdr} {u : Use} {I : Iss} {body : Iss → Res} {args : List Word}
    {operands : List (Nat × Bool)} {ue held : Bool} {charge : Nat} {result : Bool} {more : State → State} {begun : Op → State}
    (hr : Ready s h u I) (hi : exec i s = issue h u s body)
    (hfalse : I.qok = false → body I = I.ok { engEff charge result with comp := .flag (I.t + 1) })
    (hb : I.qok = true → body I = (I.engine i (Iss.marksOf operands) ue held args charge result).besides more id)
    (hmore : ∀ t G, t.group? I.c I.g = some G → ∃ H, (more t).group? I.c I.g = some H ∧ H.splits = G.splits)
    (hbegun : held = false → ∀ o, o = I.engOp i args (Iss.marksOf operands) ue → (I.s.addOp I.c o).engStart I.c o = begun o ∧
      (o.cause ≠ some .ueData → (begun o).group? I.c I.g = some I.G)) :
    EngineIssues i s I args operands ue held more begun := by
  have hg := Iss.group_at hr.issuer
  unfold EngineIssues
  dsimp only
  by_cases hq : I.qok = false
  · rw [if_pos hq]
    exact acts_flag_next hr hi (hfalse hq) rfl rfl rfl rfl
  rw [if_neg hq]
  rw [Bool.not_eq_false] at hq
  replace hb := hb hq
  rw [Iss.engine_checked hq] at hb
  change match State.engReport (I.engOp i args (Iss.marksOf operands) ue) (I.s.engCauses I.who i args (Iss.marksOf operands)) with
    | some r => if r.cause = .kConsume then Stops i s I I.kAll
      else if r.cause.serviced then ∃ t, I.At t (I.S.pc + 1) ∧
        I.Alone (more (I.s.addOp I.c { I.engOp i args (Iss.marksOf operands) ue with stage := .logged })) t ∧
        exec i s = .next (t.takeServiced I.c I.g r)
      else Stops i s I r
    | none => if held then exec i s = .next (I.held I.s)
      else if ue then ∃ e : Eff, e.after = none ∧ e.serviced = none ∧
        exec i s = .next (I.commit (more (begun (I.engOp i args (Iss.marksOf operands) ue))) e)
      else Acts i s I (more (begun (I.engOp i args (Iss.marksOf operands) ue))) I.Unset
  cases hrep : State.engReport (I.engOp i args (Iss.marksOf operands) ue) (I.s.engCauses I.who i args (Iss.marksOf operands)) with
  | some r =>
    rw [hrep] at hb
    dsimp only at hb ⊢
    split
    · rename_i hk
      rw [if_pos hk] at hb
      exact stops_of hr hi hb
    rename_i hk
    rw [if_neg hk] at hb
    split
    · rename_i hserv
      rw [if_pos hserv] at hb
      obtain ⟨G, hG, hsp⟩ := hmore _ _ ((State.group_addOp ..).trans hg)
      exact serviced_on hr hi (engEff_later charge result) hb hG hsp
    · rename_i hserv
      rw [if_neg hserv] at hb
      exact stops_of hr hi hb
  | none =>
    rw [hrep] at hb
    dsimp only at hb ⊢
    cases held with
    | true => exact exec_held hr hi hb
    | false =>
      obtain ⟨heq, hgroup⟩ := hbegun rfl _ rfl
      rw [heq] at hb
      cases ue with
      | true => exact ⟨engEff charge result, rfl, rfl, by rw [hi, issue_ready hr, hb]; rfl⟩
      | false =>
        obtain ⟨G, hG, hsp⟩ := hmore _ _ (hgroup nofun)
        exact acts_later hr hi hb hG hsp rfl rfl rfl rfl

/-! ## What begins -/

theorem Iss.now_addOp {s : State} {h : Hdr} {I : Iss} (hI : s.issuer h = some I) (o : Op) : (I.s.addOp I.c o).now I.c = I.t := by
  obtain ⟨-, -, -, hs, -, ht, -⟩ := State.issuer_spec hI
  rw [hs, ht]
  rfl

theorem State.freeEngSlot_addOp (s : State) (c : Nat) (o : Op) :
    State.freeEngSlot ((s.addOp c o).core c) = State.freeEngSlot (s.core c) := by
  by_cases hc : c < 768
  · rw [State.addOp, State.core_modCore _ _ _ hc]
    rfl
  · rw [State.core_of_le (by omega), State.core_of_le (by omega)]

/-- COPY as it is issued takes the lowest free slot. -/
theorem State.engStart_copy {s : State} {c e : Nat} {o : Op} {x : CopyA} (hins : o.ins = .copy x)
    (hslot : State.freeEngSlot (s.core c) = some e) : (s.addOp c o).engStart c o = (s.addOp c o).copyStart c o x e := by
  unfold State.engStart
  rw [hins]
  dsimp only
  rw [State.freeEngSlot_addOp, hslot]

/-- So does MSEND. -/
theorem State.engStart_msend {s : State} {c e : Nat} {o : Op} {x : MsendA} (hins : o.ins = .msend x)
    (hslot : State.freeEngSlot (s.core c) = some e) : (s.addOp c o).engStart c o = (s.addOp c o).msendStart c o x e := by
  unfold State.engStart
  rw [hins]
  dsimp only
  rw [State.freeEngSlot_addOp, hslot]

/-- Nothing besides. -/
theorem State.keeps_id (c g : Nat) (t : State) (G : Group) (hG : t.group? c g = some G) :
    ∃ H, (id t).group? c g = some H ∧ H.splits = G.splits := ⟨G, hG, rfl⟩

theorem copy_issues {x : CopyA} {s : State} {I : Iss}
    (hr : Ready s x.h
      { reads := [x.b], all := true, sr := [(x.d.val, 3), (x.a.val, 3), (x.c.val, if x.m then 3 else if x.cw then 2 else 0)] } I) :
    let cs := (List.range 3).map fun i => if i < (if x.m then 3 else if x.cw then 2 else 0) then I.sreg (x.c.val + i) else Elem.zero
    let slot := State.freeEngSlot (I.s.core I.c)
    EngineIssues (.copy x) s I
      (ptrArgs (I.striple x.a).1 ++ ptrArgs (I.striple x.d).1 ++ [(I.sval true x.b).val] ++ cs.map fun e => e.val)
      ([(0, (I.striple x.a).2), (3, (I.striple x.d).2), (6, (I.sval true x.b).k)] ++ cs.zipIdx.map fun e => (7 + e.2, e.1.k))
      false slot.isNone id fun o => (I.s.addOp I.c o).copyStart I.c o x (slot.getD 0) := by
  dsimp only
  refine engineIssues_of hr rfl Iss.engine_guarded (fun _ => (Res.besides_id _).symm) (State.keeps_id I.c I.g) fun hheld o ho => ?_
  obtain ⟨e, he⟩ := Option.isSome_iff_exists.mp (Option.isNone_eq_false_iff.mp hheld)
  rw [he, Option.getD_some]
  refine ⟨State.engStart_copy (by rw [ho]; rfl) he, fun _ => ?_⟩
  rw [State.group_copyStart, State.group_addOp]
  exact Iss.group_at hr.issuer

/-- What happens beside an instruction that takes effect, logged or under way. -/
theorem Res.besides_more (more : State → State) (r : Res) : r.besides more id = match r with
    | .done s e => .done (more s) e
    | r => r := by
  cases r with
  | done s e => exact congrArg (Res.done · e) (ite_self (more s))
  | _ => rfl

/-- The registers that an MSEND reads from `a` on. -/
def sendRange (x : MsendA) : List (Nat × Nat) :=
  match x.a with
  | .s a => if x.sp then [(a.val, 1)] else [(a.val, x.wordsM1.toNat + 1)]
  | _ => []

/-- The payload of an MSEND that stands in registers. -/
def Iss.payload (I : Iss) (x : MsendA) : List Elem :=
  match x.a with
  | .s r => if x.sp then [] else (List.range (x.wordsM1.toNat + 1)).map fun i => I.sreg (r.val + i)
  | _ => []

theorem msend_issues {x : MsendA} {s : State} {I : Iss}
    (hr : Ready s x.h { reads := [x.b, x.tagv] ++ if x.sp then [x.a] else [], all := true } I) :
    let b := I.sval true x.b
    let a := I.sval true x.a
    let tag := I.sval true x.tagv
    let pay := I.payload x
    let kp := pay.any fun e => e.k
    let slot := State.freeEngSlot (I.s.core I.c)
    EngineIssues (.msend x) s I ([b.val &&& 63, (b.val >>> 8) &&& 7, b.val, tag.val, BitVec.ofNat 32 (x.wordsM1.toNat + 1),
        if x.sp then a.val else 0] ++ pay.map fun e => e.val)
      [(0, b.k), (3, x.tag && tag.k), (5, x.sp && a.k), (6, kp && !I.uses 2)] (!x.sp && I.badScalars { sr := sendRange x }) slot.isNone
      (fun s => s.escape I.c I.g kp) fun o => (I.s.addOp I.c o).msendStart I.c o x (slot.getD 0) := by
  dsimp only
  refine engineIssues_of (charge := 4 + (4 * (x.wordsM1.toNat + 1) + 63) / 64) (result := x.d.isSome) hr rfl (fun hq => ?unguarded)
    (fun hq => ?guarded) (fun t G hG => State.group_escape _ hG) fun hheld o ho => ?begun
  case begun =>
    obtain ⟨e, he⟩ := Option.isSome_iff_exists.mp (Option.isNone_eq_false_iff.mp hheld)
    rw [he, Option.getD_some]
    refine ⟨State.engStart_msend (by rw [ho]; rfl) he, fun hc => ?_⟩
    rw [State.group_msendStart hc, State.group_addOp]
    exact Iss.group_at hr.issuer
  case unguarded =>
    dsimp only
    rw [Iss.engine_guarded hq, hq]
    rfl
  case guarded =>
    dsimp only
    rw [hq, Bool.and_true, Bool.true_and]
    exact (Res.besides_more ..).symm

/-- Settles O33: COPY and MSEND issue as engine instructions, each into the lowest free slot. -/
theorem copyAndSendIssue : Obligations.CopyAndSendIssue := by
  refine ⟨fun x s I => copy_issues, fun x s I => ?_⟩
  intro n regs sr hr b a tag pay args kp
  have hpay : pay = I.payload x := by
    unfold pay regs Iss.payload
    cases x.sp <;> cases x.a <;> simp [n]
  have hsr : sr = sendRange x := by
    unfold sr sendRange
    cases x.sp <;> cases x.a <;> rfl
  clear_value pay sr
  subst hpay hsr
  exact msend_issues hr

/-! ## RINGSET, ARM, DISARM, GATTACH and GDETACH -/

/-- An operation added that waits for its effect. -/
def Iss.waits (I : Iss) (s : State) (o : Op) (due : Nat) (ev : Instr) : State :=
  ((s.addOp I.c o).modOp I.c o.id fun o => { o with stage := .waiting }).postQ I.c due ev

theorem Iss.group_waits (I : Iss) (s : State) (o : Op) (due : Nat) (ev : Instr) (c g : Nat) :
    (I.waits s o due ev).group? c g = s.group? c g := by
  rw [Iss.waits, State.group_postQ, State.group_modOp, State.group_addOp]

theorem Iss.addOp_waits (I : Iss) (s : State) {o : Op} (hid : o.id = I.id) {n m : Nat} (hm : n ≤ m) :
    ((s.addOp I.c o).modOp I.c o.id fun o => { o with stage := .waiting }).postQ I.c (max n m) (.accessCheckComplete I.c o.id) =
      I.waits s o m (.accessCheckComplete I.c I.id) := by
  rw [Nat.max_eq_right hm, Iss.waits, hid]

section
variable {s : State} {h : Hdr} {I : Iss} {o : Op} (hI : s.issuer h = some I) (hid : o.id = I.id) (ht : o.t = I.t)
include hI hid ht

/-- RINGSET's effect comes two cycles after its issue. -/
theorem Iss.engStart_ringset {x : RingA} (hins : o.ins = .ringset x) :
    (I.s.addOp I.c o).engStart I.c o = I.waits I.s o (I.t + 2) (.accessCheckComplete I.c I.id) := by
  unfold State.engStart
  rw [hins, ht]
  refine I.addOp_waits I.s hid ?_
  rw [Iss.now_addOp hI]
  omega

/-- So does GATTACH's. -/
theorem Iss.engStart_gattach {x : GattA} (hins : o.ins = .gattach x) :
    (I.s.addOp I.c o).engStart I.c o = I.waits I.s o (I.t + 2) (.accessCheckComplete I.c I.id) := by
  unfold State.engStart
  rw [hins, ht]
  refine I.addOp_waits I.s hid ?_
  rw [Iss.now_addOp hI]
  omega

/-- ARM asks for its translations in the next cycle. -/
theorem Iss.engStart_arm {x : ArmA} (hins : o.ins = .arm x) :
    (I.s.addOp I.c o).engStart I.c o = (I.s.addOp I.c o).postQ I.c (I.t + 1) (.accessCheckComplete I.c I.id) := by
  unfold State.engStart State.askAgain
  rw [hins, Iss.now_addOp hI, ht, hid]
  exact if_pos (Nat.le_refl _)

/-- DISARM waits for 80 cycles and a free number more. -/
theorem Iss.engStart_disarm {x : St1A} (hins : o.ins = .disarm x) : (I.s.addOp I.c o).engStart I.c o =
    I.waits I.s.freeNat.2 o (I.t + 80 + I.s.freeNat.1) (.accessCheckComplete I.c I.id) := by
  have hnow := Iss.now_addOp hI o
  unfold State.engStart
  rw [hins, ht]
  refine Eq.trans ?_ (I.addOp_waits I.s.freeNat.2 hid (n := (I.s.addOp I.c o).now I.c) (by omega))
  rfl

end

/-- GDETACH leaves two cycles after its issue. -/
theorem Iss.engStart_gdetach {I : Iss} {o : Op} {x : GdetA} (hid : o.id = I.id) (ht : o.t = I.t) (hins : o.ins = .gdetach x) :
    (I.s.addOp I.c o).engStart I.c o = I.waits I.s o (I.t + 2) (.gdetachComplete I.c I.id) := by
  unfold State.engStart
  rw [hins, ht]
  exact congrArg (State.postQ _ _ _) (congrArg _ hid)

/-- An engine instruction that no slot holds back, and whose start leaves its group. -/
theorem engineIssues_free {i : Instr} {s : State} {h : Hdr} {u : Use} {I : Iss} {body : Iss → Res} {args : List Word}
    {operands : List (Nat × Bool)} {charge : Nat} {result : Bool} {begun : Op → State} (hr : Ready s h u I)
    (hi : exec i s = issue h u s body) (hb : body I = I.engine i (Iss.marksOf operands) false false args charge result)
    (hbegun : ∀ o : Op, o.id = I.id → o.t = I.t → o.ins = i → (I.s.addOp I.c o).engStart I.c o = begun o)
    (hg : ∀ o, (begun o).group? I.c I.g = I.s.group? I.c I.g) :
    EngineIssues i s I args operands false false id begun := by
  refine engineIssues_of hr hi (fun hq => hb.trans (Iss.engine_guarded hq)) (fun _ => hb.trans (Res.besides_id _).symm)
    (State.keeps_id I.c I.g) fun _ o ho => ⟨?_, fun _ => (hg o).trans (Iss.group_at hr.issuer)⟩
  subst ho
  exact hbegun _ rfl rfl rfl

/-- Settles O34: each of the five issues as an engine instruction that no slot holds back. -/
theorem ringAndWindowIssue : Obligations.RingAndWindowIssue := by
  unfold Obligations.RingAndWindowIssue
  intro waits
  refine ⟨fun x s I hr => ?ringset, fun x s I hr => ?arm, fun x s I hr => ?disarm, fun x s I hr => ?gattach, fun x s I hr => ?gdetach⟩
  case ringset => exact engineIssues_free hr rfl rfl (fun o hid ht => Iss.engStart_ringset hr.issuer hid ht) fun o => I.group_waits ..
  case arm => exact engineIssues_free hr rfl rfl (fun o hid ht => Iss.engStart_arm hr.issuer hid ht) fun o => State.group_addOp ..
  case disarm => exact engineIssues_free hr rfl rfl (fun o hid ht => Iss.engStart_disarm hr.issuer hid ht) fun o => I.group_waits ..
  case gattach => exact engineIssues_free hr rfl rfl (fun o hid ht => Iss.engStart_gattach hr.issuer hid ht) fun o => I.group_waits ..
  case gdetach => exact engineIssues_free hr rfl rfl (fun o hid ht => Iss.engStart_gdetach hid ht) fun o => I.group_waits ..

end Sys2Proof.Machine
end

section
/-! SUPPORT. How the instructions of the access slice issue (R294, R296, R299), and the settling of O35. -/

namespace Sys2Proof.Machine

open Sys2Proof

/-! ## An effect two cycles later -/

/-- What begins when an instruction's effect is to come two cycles after its issue. -/
def Iss.begun2 (I : Iss) (i : Instr) (args : List Word) : State :=
  (I.s.addOp I.c { opOf i I [] with args := args, stage := .waiting }).postQ I.c (I.t + 2) (.accessCheckComplete I.c I.id)

/-- What the instructions of the slice hand over; `result` says whether they write a register. -/
def streamEff (result : Bool) : Eff := { comp := .later result, unit := .lsu, charge := 4 }

section
variable {i : Instr} {s : State} {h : Hdr} {u : Use} {I : Iss} {body : Iss → Res} {args : List Word} {result : Bool}

theorem acts_later2 (hr : Ready s h u I) (hi : exec i s = issue h u s body) (hb : body I = I.later2 i args result) :
    Acts i s I (I.begun2 i args) I.Unset :=
  acts_later (s' := I.begun2 i args) hr hi hb ((State.group_postQ ..).trans ((State.group_addOp ..).trans (Iss.group_at hr.issuer)))
    rfl rfl rfl rfl rfl

/-- An instruction of the slice with one operand: a false guard, a marked operand, or its effect two cycles later. -/
theorem streamIssues_of {a : Elem} (hr : Ready s h u I) (hi : exec i s = issue h u s body)
    (hb : body I = if !I.qok then I.ok { comp := .flag (I.t + 1), unit := .lsu, charge := 4 }
      else if a.k then .stop I.kAll else I.later2 i args result) :
    if I.qok = false then Acts i s I s (I.Flags · (I.t + 2))
    else if a.k then Stops i s I I.kAll else Acts i s I (I.begun2 i args) I.Unset := by
  cases hq : I.qok with
  | false =>
    rw [hq] at hb
    exact acts_flag_next hr hi hb rfl rfl rfl rfl
  | true =>
    rw [hq, if_neg Bool.noConfusion] at hb
    rw [if_neg Bool.noConfusion]
    split
    · rename_i hk
      exact stops_of hr hi (hb.trans (if_pos hk))
    · rename_i hk
      exact acts_later2 hr hi (hb.trans (if_neg hk))

end

/-! ## ASDEF -/

/-- The state in which an ASDEF stands in the operand log. -/
def Iss.asdefLogged (I : Iss) (x : AsdefA) : State :=
  I.s.addOp I.c { opOf (.asdef x) I [] with args := [(I.sval true x.a).val], stage := .logged }

/-- An ASDEF whose guard holds and whose operand is not marked goes by the checks of its descriptor's range, then by its words. -/
theorem asdef_checks {x : AsdefA} {s : State} {I : Iss} (hr : Ready s x.h { reads := [x.a], all := true } I) (hq : I.qok = true)
    (hk : (I.sval true x.a).k = false) :
    let a := I.sval true x.a
    let w := I.s.scratchWords I.who a.val.toNat 16
    match I.s.early I.who (ownSpace a.val.toNat) 64 64 false with
    | some .prot => ∃ t, I.At t (I.S.pc + 1) ∧ I.Alone (I.asdefLogged x) t ∧
        exec (.asdef x) s = .next (t.takeServiced I.c I.g { cause := .prot, scalar := true, pc := I.S.pc, ptr := ownSpace a.val.toNat })
    | some k => Stops (.asdef x) s I { cause := k, scalar := true, pc := I.S.pc, ptr := ownSpace a.val.toNat }
    | none =>
      if w.2.2 = true then Stops (.asdef x) s I I.kAll
      else if w.2.1 = true then Consumes (.asdef x) s I
      else Acts (.asdef x) s I (I.begun2 (.asdef x) (a.val :: w.1)) I.Unset := by
  have hg := Iss.group_at hr.issuer
  dsimp only
  split
  case h_1 hearly =>
    exact serviced_of hr rfl (e := streamEff x.d.isSome) ⟨rfl, rfl, rfl, rfl⟩
      (by dsimp only; rw [hq, hk, hearly]; rfl) ((State.group_addOp ..).trans hg)
  case h_2 c hc hearly =>
    refine stops_of hr rfl ?_
    dsimp only
    rw [hq, hk, hearly, if_neg Bool.noConfusion, if_neg Bool.noConfusion]
    split
    · rename_i heq
      exact (hc (Option.some.inj heq)).elim
    · rename_i heq
      rw [Option.some.inj heq]
      rfl
    · rename_i heq
      cases heq
  case h_3 hearly =>
    split
    · rename_i hmark
      refine stops_of hr rfl ?_
      dsimp only
      rw [hq, hk, hearly]
      exact if_pos hmark
    rename_i hmark
    split
    · rename_i hue
      refine consumes_of hr rfl ?_
      dsimp only
      rw [hq, hk, hearly]
      exact (if_neg hmark).trans (if_pos hue)
    · rename_i hue
      refine acts_later2 (result := x.d.isSome) hr rfl ?_
      dsimp only
      rw [hq, hk, hearly]
      exact (if_neg hmark).trans (if_neg hue)

/-! ## QPOP -/

section
variable {x : QpopA} {s : State} {I : Iss}

/-- Whether a QPOP pops within a limit. -/
def Iss.popLimited (I : Iss) (x : QpopA) : Bool := x.lsel != 0 && !exactNow I

/-- The limit of a QPOP. -/
def Iss.popLimit (I : Iss) (x : QpopA) : Nat := I.t + max 4 ((I.G.spec.wl[x.lsel.val - 1]?).getD 0).toNat

/-- The operation of a QPOP. -/
def Iss.popOp (I : Iss) (x : QpopA) : Op :=
  let lanes := if x.vec then (List.range 96).filter fun l => I.active.getLsbD l else [0]
  let accs := lanes.map fun l => { accOf l (I.t + (I.s.core I.c).passOf l) 0 4 false with
    lim := if I.popLimited x then some (I.popLimit x) else none }
  { opOf (.qpop x) I accs with firstRead := some 0, args := exited0 I x.d }

/-- The state in which a QPOP has begun, a limited one with its entry. -/
def Iss.popBegun (I : Iss) (x : QpopA) : State :=
  let s1 := I.s.addOp I.c (I.popOp x)
  let s2 := if I.popLimited x then (s1.postQ I.c (I.popLimit x) (.limitExpiry I.c I.id)).modGroup I.c I.g fun G =>
    { G with guesses := G.guesses ++ [⟨I.id, gdest x.d, 1, x.slot, x.fp, .w, false, []⟩] } else s1
  s2.postQ I.c I.t (.accessCheckComplete I.c I.id)

theorem Iss.group_popBegun (I : Iss) (x : QpopA) (hg : I.s.group? I.c I.g = some I.G) :
    ∃ G, (I.popBegun x).group? I.c I.g = some G ∧ G.splits = I.G.splits := by
  unfold Iss.popBegun
  dsimp only
  split
  · exact ⟨_, State.group_modGroup _ ((State.group_postQ ..).trans ((State.group_addOp ..).trans hg)), rfl⟩
  · exact ⟨_, (State.group_addOp ..).trans hg, rfl⟩

/-- What a QPOP hands over. -/
def Iss.popEff (I : Iss) (x : QpopA) : Eff :=
  let occ := if x.vec then I.P else 1
  { comp := .later (gdest x.d != .none), occ := occ, unit := .lsu, charge := 2 + 2 * occ }

/-- What the body of QPOP gives. -/
theorem qpop_body (x : QpopA) (s : State) : exec (.qpop x) s = issue x.h { dsts := [x.d] } s fun I =>
    if I.active = 0 || !I.qok then I.ok { I.popEff x with comp := .flag I.t }
    else if (I.s.queue I.c x.queue.val).claim.any fun g => g != I.g then
      .done (I.s.addOp I.c { I.popOp x with stage := .logged }) { I.popEff x with serviced := some (I.scalar .prot) }
    else if I.popLimited x && I.G.guesses.length ≥ 16 then .hold I.s
    else .done (I.popBegun x) (I.popEff x) := rfl

/-- A QPOP issues by its guard, its queue's claim and the open guesses. -/
theorem qpop_issues (hr : Ready s x.h { dsts := [x.d] } I) :
    if I.active = 0 ∨ I.qok = false then Acts (.qpop x) s I s (I.Flags · (I.t + 1))
    else if ((I.s.queue I.c x.queue.val).claim.any fun g => g != I.g) = true then
      ∃ t, I.At t (I.S.pc + 1) ∧ I.Alone (I.s.addOp I.c { I.popOp x with stage := .logged }) t ∧
        exec (.qpop x) s = .next (t.takeServiced I.c I.g { cause := .prot, scalar := true, pc := I.S.pc, ptr := 0 })
    else if I.popLimited x = true ∧ 16 ≤ I.G.guesses.length then exec (.qpop x) s = .next (I.held I.s)
    else Acts (.qpop x) s I (I.popBegun x) I.Unset := by
  have hg := Iss.group_at hr.issuer
  have hnone : (decide (I.active = 0) || !I.qok) = true ↔ I.active = 0 ∨ I.qok = false := by simp
  have hfull : (I.popLimited x && decide (16 ≤ I.G.guesses.length)) = true ↔
      I.popLimited x = true ∧ 16 ≤ I.G.guesses.length := by simp
  split
  · rename_i h
    exact acts_idle hr (qpop_body x s) ⟨_, rfl, rfl, rfl, rfl, if_pos (hnone.mpr h)⟩
  rename_i h
  split
  · rename_i hclaim
    exact serviced_of hr (qpop_body x s) (e := I.popEff x) ⟨rfl, rfl, rfl, rfl⟩
      ((if_neg (hnone.not.mpr h)).trans (if_pos hclaim)) ((State.group_addOp ..).trans hg)
  rename_i hclaim
  split
  · rename_i hf
    exact exec_held hr (qpop_body x s) ((if_neg (hnone.not.mpr h)).trans ((if_neg hclaim).trans (if_pos (hfull.mpr hf))))
  · rename_i hf
    obtain ⟨G, hG, hsp⟩ := I.group_popBegun x hg
    exact acts_later hr (qpop_body x s) ((if_neg (hnone.not.mpr h)).trans ((if_neg hclaim).trans (if_neg (hfull.not.mpr hf))))
      hG hsp rfl rfl rfl rfl

end

/-- Settles O35: the three instructions of streams by their operand, ASDEF by its descriptor too, and QPOP by its queue and its guesses. -/
theorem streamInstructionsIssue : Obligations.StreamInstructionsIssue := by
  unfold Obligations.StreamInstructionsIssue
  intro begins serviced
  refine ⟨fun x s I hr => ?asdef, fun x s I hr => streamIssues_of hr rfl rfl, fun x s I hr => streamIssues_of hr rfl rfl,
    fun x s I hr => ?qpop⟩
  case asdef =>
    intro a w
    cases hq : I.qok with
    | false => exact acts_flag_next hr rfl (by dsimp only; rw [hq]; rfl) rfl rfl rfl rfl
    | true =>
      rw [if_neg Bool.noConfusion]
      cases hk : a.k with
      | true => exact stops_of hr rfl (by dsimp only; rw [hq]; exact if_pos hk)
      | false => exact asdef_checks hr hq hk
  case qpop =>
    exact qpop_issues hr

end Sys2Proof.Machine
end

section
/-! SUPPORT. How TRAP, SPAWN, LAUNCH, TBINV, PLACEW and FINJ issue (R338, R340 to R345), and the settling of O37 and O38. -/

namespace Sys2Proof.Machine

open Sys2Proof

/-! ## TRAP -/

/-- What stops a group that its TRAP has taken effect in. -/
def trapReport (x : TrapA) (pc : Word) : Report :=
  { cause := if x.code = 0xBD then .brk else .trap, detail := x.code, scalar := true, pc := pc }

/-- An effect after which the group stops is that effect, then the stop. -/
theorem Iss.commit_after {I : Iss} {e : Eff} (hf : e.flow = .next) (ha : e.after = none) (hs : e.serviced = none) (s : State) (r : Report) :
    I.commit s { e with after := some r } = (I.commit s e).takeStop I.c I.g r := by
  obtain ⟨ws, comp, flow, occ, unit, charge, lset, after, serviced, claims⟩ := e
  cases hf; cases ha; cases hs
  rfl

/-- The flag that an issue sets. -/
theorem Iss.flags_commit {I : Iss} {s : State} {G : Group} {e : Eff} {cyc : Nat} (hg : s.group? I.c I.g = some G) (hf : e.flow = .next)
    (ha : e.after = none) (hs : e.serviced = none) (hc : e.comp = .flag cyc) : I.Flags (I.commit s e) (cyc + 1) := by
  intro f hset
  obtain ⟨-, -, hG⟩ := Iss.commit_alone (I := I) hg (e := e) (by simp [hf]) (by simp [hf]) ha hs
  exact ⟨_, hG, by rw [Iss.group_flag hc (by simp [hf]) hset], by rw [Iss.group_flag hc (by simp [hf]) hset]⟩

/-- What a TRAP hands over besides its stop. -/
def Iss.trapEff (I : Iss) : Eff := { comp := .flag (I.t + 1), unit := .scalar }

/-- TRAP takes effect, then its group stops (R340). -/
theorem trap_issues {x : TrapA} {s : State} {I : Iss} (hr : Ready s x.h {} I) :
    if I.qok = false then Acts (.trap x) s I s (I.Flags · (I.t + 2))
    else ∃ t, I.At t (I.S.pc + 1) ∧ I.Still s t ∧ I.Alone s t ∧ I.Flags t (I.t + 2) ∧
      exec (.trap x) s = .next (t.takeStop I.c I.g (trapReport x I.S.pc)) := by
  have hg := Iss.group_at hr.issuer
  obtain ⟨-, -, hS, hfresh, -⟩ := State.issuer_spec hr.issuer
  cases hq : I.qok with
  | false => exact acts_flag_sys hr rfl (if_pos (by rw [hq]; rfl))
  | true =>
    rw [if_neg Bool.noConfusion]
    obtain ⟨hat, hstill, halone, -⟩ := Iss.commit_next (e := I.trapEff) hg rfl hS rfl rfl rfl
    refine ⟨I.commit I.s I.trapEff, hat, by rw [hfresh] at hstill ⊢; exact hstill, Iss.alone_fresh hr.issuer halone,
      Iss.flags_commit hg rfl rfl rfl rfl, ?_⟩
    have hi : exec (.trap x) s = issue x.h {} s fun I => if !I.qok then I.ok I.trapEff
        else I.ok { I.trapEff with after := some (trapReport x I.S.pc) } := rfl
    rw [hi, issue_ready hr, if_neg (by rw [hq]; exact Bool.noConfusion)]
    exact congrArg _ (Iss.commit_after rfl rfl rfl ..)

/-! ## SPAWN -/

/-- A group that starts leaves every other group. -/
theorem State.group_newGroup (s : State) (ctx : Nat) (k : Crew) (l : Leg) (slot pos : Nat) (pc : Word) (from_ c : Nat) {g : Nat}
    (hne : g ≠ slot) : (s.newGroup ctx k l slot pos pc from_).group? c g = s.group? c g := by
  refine (State.group_congr (State.modCrew_cores ..) c g).trans ?_
  exact State.group_setGroup_ne _ (.inr hne)

/-- A slot that is free is not that of a group. -/
theorem State.ne_free {s : State} {c g slot : Nat} {G : Group} (hg : s.group? c g = some G) (hf : (s.freeSlots c).head? = some slot) :
    g ≠ slot := by
  rintro rfl
  have h := List.mem_of_mem_head? hf
  simp [State.freeSlots, hg] at h

/-- What a SPAWN hands over. -/
def Iss.spawnEff (I : Iss) (x : SpawnA) (b : Bool) : Eff := { ws := Iss.wstat x.d b, comp := .long (I.t + 4), charge := 4 }

/-- The lanes in which one of the eight registers of a SPAWN is marked. -/
def Iss.spawnMarks (I : Iss) (x : SpawnA) : Lanes :=
  (maskOf 96 fun l => (List.range 8).any fun j => ((I.G.regs.vec (.v (x.a.val + j))).at l).k) &&& I.active

/-- Whether there is no place, slot or registers for one more group of a crew. -/
@[reducible] def Iss.noRoom (I : Iss) (k : Crew) : Prop :=
  16 ≤ (State.livePos k).length ∨ (I.s.freeSlots I.c).length ≤ (I.s.reserved I.c).1 ∨
    Config.coreRegs < I.s.regsUsed I.c + (I.s.reserved I.c).2 + I.G.budget

/-- The state with the group that a SPAWN starts. -/
def Iss.spawned (I : Iss) (x : SpawnA) (k : Crew) (l : Leg) (slot pos : Nat) : State :=
  (I.s.newGroup I.G.ctx k l slot pos (I.S.pc + x.disp.signExtend 32) (I.t + 4)).modGroup I.c slot fun G =>
    (List.range 8).foldl (fun (G : Group) j => { G with regs := G.regs.setVec (.v j) I.active (I.G.regs.vec (.v (x.a.val + j))) }) G

section
variable {x : SpawnA} {s : State} {I : Iss}

theorem spawn_status (hr : Ready s x.h { vr := [(x.a.val, 8)] } I) {body : Iss → Res} {b : Bool}
    (hi : exec (.spawn x) s = issue x.h { vr := [(x.a.val, 8)] } s body) (hb : body I = I.ok (I.spawnEff x b)) :
    LongResult (.spawn x) s I 4 (Iss.wstat x.d b) :=
  computes_of hr hi hb (.inl rfl) rfl rfl rfl

/-- What SPAWN does of a crew, by the lowest free slot of its core. -/
def Iss.spawnRes (I : Iss) (x : SpawnA) (k : Crew) (slot : Nat) : Res :=
  if I.spawnMarks x != 0 then .stop (I.lanes .kConsume (I.spawnMarks x))
  else match I.s.leg? I.G.ctx k.leg, (List.range 16).find? fun p => !(State.livePos k).contains p with
    | some l, some pos => .done (I.spawned x k l slot pos) (I.spawnEff x true)
    | _, _ => I.ok (I.spawnEff x false)

/-- The body of SPAWN. -/
def Iss.spawnBody (I : Iss) (x : SpawnA) : Res :=
  if !I.qok then I.ok { comp := .flag (I.t + 1), charge := 4 }
  else if I.active = 0 then I.ok (I.spawnEff x false)
  else match I.crew, (I.s.freeSlots I.c).head? with
    | some k, some slot =>
      if (State.livePos k).length ≥ 16 || (I.s.freeSlots I.c).length ≤ (I.s.reserved I.c).1 ||
          Config.coreRegs < I.s.regsUsed I.c + (I.s.reserved I.c).2 + I.G.budget then I.ok (I.spawnEff x false)
      else I.spawnRes x k slot
    | _, _ => I.ok (I.spawnEff x false)

theorem exec_spawn (x : SpawnA) (s : State) : exec (.spawn x) s = issue x.h { vr := [(x.a.val, 8)] } s fun I => I.spawnBody x := rfl

section
variable {k : Crew} (hq : I.qok = true) (ha : I.active ≠ 0) (hk : I.crew = some k)
include hq ha hk

theorem Iss.spawn_full (h : I.noRoom k) : I.spawnBody x = I.ok (I.spawnEff x false) := by
  unfold Iss.spawnBody
  rw [hq, if_neg Bool.noConfusion, if_neg ha, hk]
  split
  · rename_i hk' _
    obtain rfl := Option.some.inj hk'
    exact if_pos (by simpa [or_assoc] using h)
  · rfl

/-- Where there is room, there is a slot. -/
theorem Iss.spawn_roomy (h : ¬I.noRoom k) : ∃ slot, (I.s.freeSlots I.c).head? = some slot ∧ I.spawnBody x = I.spawnRes x k slot := by
  cases hs : I.s.freeSlots I.c with
  | nil => exact absurd (.inr (.inl (by rw [hs]; exact Nat.zero_le _))) h
  | cons slot rest =>
    refine ⟨slot, rfl, ?_⟩
    unfold Iss.spawnBody
    rw [hq, if_neg Bool.noConfusion, if_neg ha, hk, hs]
    refine if_neg ?_
    rw [← hs]
    simpa [or_assoc] using h

end

/-- SPAWN starts a group where there is room for it (R341). -/
theorem spawn_issues (hr : Ready s x.h { vr := [(x.a.val, 8)] } I) :
    if I.qok = false then Acts (.spawn x) s I s (I.Flags · (I.t + 2))
    else if I.active = 0 then LongResult (.spawn x) s I 4 (Iss.wstat x.d false)
    else ∀ k, I.crew = some k →
      if I.noRoom k then LongResult (.spawn x) s I 4 (Iss.wstat x.d false)
      else if I.spawnMarks x ≠ 0 then Stops (.spawn x) s I { cause := .kConsume, cmask := I.spawnMarks x, pc := I.S.pc }
      else ∀ slot l pos, (I.s.freeSlots I.c).head? = some slot → I.s.leg? I.G.ctx k.leg = some l →
        (List.range 16).find? (fun p => !(State.livePos k).contains p) = some pos →
        Acts (.spawn x) s I (I.spawned x k l slot pos) (I.Flies · (I.t + 4) (Iss.wstat x.d true)) := by
  have hi := exec_spawn x s
  cases hq : I.qok with
  | false => exact acts_flag_next hr hi (if_pos (by rw [hq]; rfl)) rfl rfl rfl rfl
  | true =>
    rw [if_neg Bool.noConfusion]
    split
    · rename_i ha
      exact spawn_status hr hi ((if_neg (by rw [hq]; exact Bool.noConfusion)).trans (if_pos ha))
    rename_i ha
    intro k hk
    split
    · rename_i hfull
      exact spawn_status hr hi (Iss.spawn_full hq ha hk hfull)
    rename_i hroom
    obtain ⟨slot, hslot, hb⟩ := Iss.spawn_roomy (x := x) hq ha hk hroom
    split
    · rename_i hm
      exact stops_of hr hi (hb.trans (if_pos (bne_iff_ne.mpr hm)))
    rename_i hm
    intro slot' l pos hs hl hpos
    rw [hslot] at hs
    obtain rfl := Option.some.inj hs
    have hne := State.ne_free (Iss.group_at hr.issuer) hslot
    replace hb : I.spawnBody x = .done (I.spawned x k l slot pos) (I.spawnEff x true) := by
      rw [hb, Iss.spawnRes, if_neg (by simpa using hm), hl, hpos]
    refine acts_flies hr hi hb ?_ rfl (.inl rfl) rfl rfl rfl
    exact (State.group_modGroup_ne _ (.inr hne)).trans ((State.group_newGroup _ _ _ _ _ _ _ _ _ hne).trans (Iss.group_at hr.issuer))

end

/-- Settles O37: TRAP takes effect and then stops its group; SPAWN by its guard, the room there is, and the marks. -/
theorem trapAndSpawn : Obligations.TrapAndSpawn := by
  exact ⟨fun x s I hr => trap_issues hr, fun x s I hr => spawn_issues hr⟩

end Sys2Proof.Machine
end

section
/-! SUPPORT. How LAUNCH, TBINV, PLACEW and FINJ issue (R338, R342 to R345), and the settling of O38. -/

namespace Sys2Proof.Machine

open Sys2Proof

/-! ## The causes of their operands -/

/-- K_CONSUME, when an operand is marked. -/
def markCauses (b : Bool) : List Cause := if b then [.kConsume] else []

/-- Whether a pointer leaves space 0 or names a rank. -/
def spaceCauses (p : Ptr) : List Cause := if Ptr.space p ≠ 0 ∨ Ptr.rank p ≠ 0 then [.illPtr] else []

theorem spaceCauses_eq (p : Ptr) : (if (Ptr.space p != 0 || Ptr.rank p != 0) = true then [Cause.illPtr] else []) = spaceCauses p :=
  if_congr (by simp) rfl rfl

/-- Whether an address leaves its 64-byte boundary. -/
def alignCauses (n : Nat) : List Cause := if n % 64 ≠ 0 then [.align] else []

theorem alignCauses_eq (n : Nat) : (if (n % 64 != 0) = true then [Cause.align] else []) = alignCauses n := if_congr bne_iff_ne rfl rfl

/-- Whether a block's size or a context slot is out of its range. -/
def blockCauses (k n : Nat) : List Cause := if k < 12 ∨ 62 < k ∨ 15 < n then [.illEnc] else []

theorem blockCauses_eq (k n : Nat) :
    (if (decide (k < 12) || decide (62 < k) || decide (15 < n)) = true then [Cause.illEnc] else []) = blockCauses k n :=
  if_congr (by simp [or_assoc]) rfl rfl

section
variable {i : Instr} {s : State} {h : Hdr} {u : Use} {I : Iss} {body : Iss → Res} {cs : List Cause} {p : Ptr} {go : Res} {P : Prop}

/-- A system instruction that may issue goes by its causes (R338). -/
theorem sysGoes_of (hr : Ready s h u I) (hi : exec i s = issue h u s body) (hb : body I = match I.sysFault cs p with
      | some r => .stop r
      | none => go) (hgo : body I = go → P) : SysStops i s I cs p P :=
  sysStops_of hr hi (fun r h => by rw [hb, h]) fun h => hgo (by rw [hb, h])

/-- An operation of a system instruction begun on a state that keeps the groups. -/
theorem acts_sys {s' : State} {result : Bool} {n : Nat} (hr : Ready s h u I) (hi : exec i s = issue h u s body)
    (hb : body I = .done s' { comp := .later result, charge := n }) (hg : s'.group? I.c I.g = I.s.group? I.c I.g) :
    Acts i s I s' I.Unset :=
  acts_later hr hi hb (hg.trans (Iss.group_at hr.issuer)) rfl rfl rfl rfl rfl

/-- A false guard of an instruction without a unit. -/
theorem acts_flag_bare (hr : Ready s h u I) (hi : exec i s = issue h u s body)
    (hb : body I = I.ok { comp := .flag (I.t + 1), charge := 4 }) : Acts i s I s (I.Flags · (I.t + 2)) :=
  acts_flag_next hr hi hb rfl rfl rfl rfl

end

/-! ## PLACEW -/

/-- A PLACEW under way. -/
def Iss.placing (I : Iss) (x : PlacewA) : State :=
  (I.s.addOp I.c { opOf (.placew x) I [] with args := [(I.sval true x.key).val, (I.sval true x.entry).val], stage := .waiting }).postQ I.c
    (I.t + 20) (.accessCheckComplete I.c I.id)

theorem placew_issues {x : PlacewA} {s : State} {I : Iss} (hr : Ready s x.h { reads := [x.key, x.entry], all := true } I) :
    if I.qok = false then Acts (.placew x) s I s (I.Flags · (I.t + 2))
    else SysStops (.placew x) s I (I.priv ++ markCauses ((I.sval true x.key).k || (I.sval true x.entry).k)) 0
      (Acts (.placew x) s I (I.placing x) I.Unset) := by
  cases hq : I.qok with
  | false => exact acts_flag_bare hr rfl (if_pos (by rw [hq]; rfl))
  | true =>
    rw [if_neg Bool.noConfusion]
    refine sysGoes_of (go := .done (I.placing x) { comp := .later x.d.isSome, charge := 4 }) hr rfl ?_ fun hb => acts_sys hr rfl hb ?_
    · exact if_neg (by rw [hq]; exact Bool.noConfusion)
    · rw [Iss.placing, State.group_postQ, State.group_addOp]

/-! ## LAUNCH -/

/-- A LAUNCH under way, its crew committed. -/
def Iss.launching (I : Iss) (x : LaunchA) : State :=
  ((I.s.addOp I.c { opOf (.launch x) I [] with
      args := ptrArgs (I.striple x.a).1 ++ [(I.sval true x.b).val, (I.s.ctx I.G.ctx).toposeq] }).commit
    I.G.ctx I.G.crew 1).postQ I.c (I.t + 1) (.accessCheckComplete I.c I.id)

/-- The causes of a LAUNCH. -/
def Iss.launchCauses (I : Iss) (x : LaunchA) : List Cause :=
  let p := (I.striple x.a).1
  if (I.striple x.a).2 then [.kConsume]
  else spaceCauses p ++ alignCauses (Ptr.addr p) ++ markCauses (I.sval true x.b).k

theorem launch_issues {x : LaunchA} {s : State} {I : Iss} (hr : Ready s x.h { reads := [x.b], sr := [(x.a.val, 3)] } I) :
    if I.qok = false then Acts (.launch x) s I s (I.Flags · (I.t + 2))
    else if I.active = 0 then LongResult (.launch x) s I 4 (Iss.wstat x.d false)
    else SysStops (.launch x) s I (I.launchCauses x) (I.striple x.a).1 (Acts (.launch x) s I (I.launching x) I.Unset) := by
  cases hq : I.qok with
  | false => exact acts_flag_bare hr rfl (if_pos (by rw [hq]; rfl))
  | true =>
    have hne : ¬(!I.qok) = true := by rw [hq]; exact Bool.noConfusion
    rw [if_neg Bool.noConfusion]
    split
    · rename_i ha
      exact computes_of (e := { ws := Iss.wstat x.d false, comp := .long (I.t + 4), charge := 4 }) hr rfl
        ((if_neg hne).trans (if_pos ha)) (.inl rfl) rfl rfl rfl
    rename_i ha
    refine sysGoes_of (go := .done (I.launching x) { comp := .later x.d.isSome, charge := 4 }) hr rfl ?_ fun hb => acts_sys hr rfl hb ?_
    · refine (if_neg hne).trans ((if_neg ha).trans ?_)
      rw [spaceCauses_eq, alignCauses_eq]
      rfl
    · rw [Iss.launching, State.group_postQ, State.group_commit, State.group_addOp]

/-! ## TBINV -/

/-- The causes of a TBINV. -/
def Iss.tbinvCauses (I : Iss) (x : TbinvA) : List Cause :=
  let n := I.sval true x.ctx
  let k := I.sval true x.k
  if (I.striple x.a).2 then [.kConsume]
  else blockCauses k.val.toNat n.val.toNat ++ I.priv ++ spaceCauses (I.striple x.a).1 ++
    markCauses (n.k || k.k)

/-- A TBINV under way, here or in another module. -/
def Iss.invalidating (I : Iss) (x : TbinvA) : State :=
  let p := (I.striple x.a).1
  let s1 := I.s.addOp I.c { opOf (.tbinv x) I [] with stage := .waiting }
  if Ptr.module p = Config.thisModule then
    s1.startInv (I.sval true x.ctx).val.toNat (Ptr.local p) (I.sval true x.k).val.toNat (some (I.c, I.id)) (quadOf I.c)
  else ((s1.latency 3000).2.emit (.remote I.c I.id)).postQ I.c (I.t + (s1.latency 3000).1) (.accessCheckComplete I.c I.id)

theorem Iss.group_invalidating (I : Iss) (x : TbinvA) : (I.invalidating x).group? I.c I.g = I.s.group? I.c I.g := by
  unfold Iss.invalidating
  dsimp only
  split
  · exact State.group_addOp ..
  · exact State.group_addOp ..

theorem tbinv_issues {x : TbinvA} {s : State} {I : Iss}
    (hr : Ready s x.h { reads := [x.ctx, x.k], all := true, sr := [(x.a.val, 3)] } I) :
    if I.qok = false then Acts (.tbinv x) s I s (I.Flags · (I.t + 2))
    else SysStops (.tbinv x) s I (I.tbinvCauses x) (I.striple x.a).1 (Acts (.tbinv x) s I (I.invalidating x) I.Unset) := by
  cases hq : I.qok with
  | false => exact acts_flag_bare hr rfl (if_pos (by rw [hq]; rfl))
  | true =>
    have hne : ¬(!I.qok) = true := by rw [hq]; exact Bool.noConfusion
    rw [if_neg Bool.noConfusion]
    refine sysGoes_of (go := .done (I.invalidating x) { comp := .later false, charge := 4 }) hr rfl ?_ fun hb =>
      acts_sys hr rfl hb (I.group_invalidating x)
    refine (if_neg hne).trans ?_
    rw [spaceCauses_eq, blockCauses_eq, Iss.invalidating]
    dsimp only
    rw [apply_ite (Res.done · _)]
    rfl

/-! ## FINJ -/

theorem keyOf_eq (w : Word) : keyOf w = (w.toNat / 65536 % 16, w.toNat % 65536) := by
  simp [keyOf, BitVec.extractLsb'_toNat, Nat.shiftRight_eq_div_pow]

theorem Core.fenceDue_groups (k : Core) (now : Nat) : (k.fenceDue now).groups = k.groups := rfl

theorem State.group_setCore {s : State} {c d g : Nat} {k : Core} (hk : k.groups = (s.core d).groups) :
    (s.setCore d k).group? c g = s.group? c g := by
  by_cases hc : c = d
  · subst hc
    by_cases hl : c < 768
    · rw [State.group?, State.core_setCore _ _ _ hl, hk]
      rfl
    · rw [State.group?, State.group?, State.core_of_le (by omega), State.core_of_le (by omega)]
  · rw [State.group?, State.core_setCore_ne _ _ _ _ hc]
    rfl

theorem State.group_fenceStrips (s : State) (d c g : Nat) : (s.fenceStrips d).group? c g = s.group? c g := by
  unfold State.fenceStrips
  dsimp only
  split
  · exact (State.group_congr (State.postNow_cores ..) c g).trans (State.group_setCore (Core.fenceDue_groups ..))
  · exact State.group_setCore (Core.fenceDue_groups ..)

theorem State.tellEvent_cores (s : State) (u : UnitId) (cls : BitVec 8) (n : Nat) : (s.tellEvent u cls n).cores = s.cores := by
  unfold State.tellEvent
  dsimp only
  rw [State.foldl_cores fun _ _ => State.record_cores ..]
  rfl

/-- A lasting fault of a lane, a strip or a core leaves every group until it is fenced. -/
theorem State.group_lasting {u : UnitId} (hu : ∀ d i, u ≠ .slice d i) (s : State) (c g : Nat) :
    (s.lasting u).group? c g = s.group? c g := by
  unfold State.lasting
  cases u with
  | lane d l =>
    refine (State.group_congr (State.postNow_cores ..) c g).trans ?_
    rw [State.group_modCore]
    · rfl
    · exact fun _ => rfl
  | strip d i =>
    dsimp only
    rw [State.group_fenceStrips, State.group_modCore]
    · rfl
    · exact fun _ => rfl
  | core d => rfl
  | slice d i => exact absurd rfl (hu d i)
  | port n => rfl
  | bnd d n => rfl

theorem State.group_inject {u : UnitId} (hu : ∀ d i, u ≠ .slice d i) (s : State) (c g : Nat) :
    (s.inject u).group? c g = s.group? c g := by
  rw [State.inject, State.group_lasting hu]
  exact State.group_congr (State.tellEvent_cores ..) c g

/-- A POISON under way. -/
def Iss.poisoning (I : Iss) (x : FinjA) (n : Nat) : State :=
  (I.s.addOp I.c { opOf (.finj x) I [] with args := ptrArgs (I.striple n).1, setf := none }).postQ I.c
    (I.t + 1) (.accessCheckComplete I.c I.id)

theorem finjPoison_issues {x : FinjA} {n : Fin 126} {s : State} {I : Iss} (hx : x.a = .triple n)
    (hr : Ready s x.h { all := true, sr := [(n.val, 3)] } I) :
    let p := (I.striple n).1
    if I.qok = false then Acts (.finj x) s I s (I.Flags · (I.t + 2))
    else SysStops (.finj x) s I (if (I.striple n).2 then [.kConsume] else I.priv ++ spaceCauses p) p
      (Acts (.finj x) s I (I.poisoning x n) (I.Flags · (I.t + 3))) := by
  obtain ⟨h, kind, a, b⟩ := x
  obtain rfl := hx
  dsimp only
  cases hq : I.qok with
  | false => exact acts_flag_bare hr rfl (if_pos (by rw [hq]; rfl))
  | true =>
    rw [if_neg Bool.noConfusion]
    refine sysGoes_of (go := .done (I.poisoning ⟨h, kind, .triple n, b⟩ n) { comp := .flag (I.t + 2), charge := 4 }) hr rfl ?_ fun hb =>
      acts_flag hr rfl hb ((State.group_postQ ..).trans ((State.group_addOp ..).trans (Iss.group_at hr.issuer))) rfl rfl rfl rfl rfl
    refine (if_neg (by rw [hq]; exact Bool.noConfusion)).trans ?_
    dsimp only
    rw [spaceCauses_eq]
    rfl

/-- Whether a FINJ names a lane or a strip. -/
def FKind.two (k : FKind) : Bool := k == .lane || k == .strip

/-- The highest number of a lane or of a strip. -/
def FKind.top (k : FKind) : Nat := if k = .lane then 31 else 7

/-- The core that the key of a FINJ names. -/
def Iss.finjCore (I : Iss) (a : Word) : Option Nat := (I.s.ctx (a.toNat / 65536 % 16)).physical (a.toNat % 65536)

/-- The second operand of a FINJ. -/
def Iss.finjB (I : Iss) (x : FinjA) : Elem := if FKind.two x.kind then I.sval true x.b else Elem.zero

/-- Whether a FINJ names no core, or a lane or strip that there is not. -/
def Iss.finjOut (I : Iss) (x : FinjA) (a : Elem) : Bool :=
  (I.finjCore a.val).isNone || match x.kind with
    | .lane => (I.finjB x).val.toNat > 31
    | .strip => (I.finjB x).val.toNat > 7
    | _ => false

theorem Iss.finjOut_iff {I : Iss} {x : FinjA} {a : Elem} : I.finjOut x a = true ↔
    I.finjCore a.val = none ∨ FKind.two x.kind = true ∧ FKind.top x.kind < (I.finjB x).val.toNat := by
  unfold Iss.finjOut FKind.two FKind.top
  cases x.kind <;> simp

/-- The causes of a FINJ with a key. -/
def Iss.finjCauses (I : Iss) (x : FinjA) (a : Elem) : List Cause :=
  (if I.finjOut x a then [.illEnc] else []) ++ I.priv ++ markCauses (a.k || (I.finjB x).k)

/-- The unit that a FINJ injects into. -/
def Iss.finjUnit (I : Iss) (x : FinjA) (c : Nat) : UnitId :=
  match x.kind with
  | .lane => .lane c (Fin.ofNat 32 (I.finjB x).val.toNat)
  | .strip => .strip c (Fin.ofNat 8 (I.finjB x).val.toNat)
  | _ => .core c

theorem Iss.finjUnit_ne (I : Iss) (x : FinjA) (c : Nat) (d : Fin 4) (i : Fin 64) : I.finjUnit x c ≠ .slice d i := by
  unfold Iss.finjUnit
  split <;> exact UnitId.noConfusion

/-- What FINJ with a key that may issue does. -/
def Iss.finjRes (I : Iss) (x : FinjA) (a : Elem) : Res :=
  match I.sysFault (I.finjCauses x a) 0, I.finjCore a.val with
  | some r, _ => .stop r
  | none, none => .stop (I.scalar .illEnc)
  | none, some c => .done (I.s.inject (I.finjUnit x c)) { comp := .flag (I.t + 2), charge := 4 }

/-- FINJ with a key, by its body. -/
theorem exec_finjKey {x : FinjA} {o : Opnd} (hx : x.a = .key o) (hk : x.kind ≠ .poison) (s : State) :
    exec (.finj x) s = issue x.h { reads := o :: if FKind.two x.kind then [x.b] else [], all := true } s fun I =>
      if !I.qok then I.ok { comp := .flag (I.t + 1), charge := 4 } else I.finjRes x (I.sval true o) := by
  obtain ⟨h, kind, a, b⟩ := x
  obtain rfl := hx
  refine congrArg (issue h _ s) (funext fun I => ?_)
  dsimp only
  rw [keyOf_eq]
  dsimp only
  cases kind with
  | poison => exact absurd rfl hk
  | core => rfl
  | lane => rfl
  | strip => rfl

theorem finjKey_issues {x : FinjA} {o : Opnd} {s : State} {I : Iss} (hx : x.a = .key o) (hk : x.kind ≠ .poison)
    (hr : Ready s x.h { reads := o :: if FKind.two x.kind then [x.b] else [], all := true } I) :
    let a := I.sval true o
    if I.qok = false then Acts (.finj x) s I s (I.Flags · (I.t + 2))
    else SysStops (.finj x) s I
      ((if I.finjCore a.val = none ∨ FKind.two x.kind = true ∧ FKind.top x.kind < (I.finjB x).val.toNat then [.illEnc]
          else []) ++ I.priv ++ markCauses (a.k || (I.finjB x).k)) 0
      (∀ c, I.finjCore a.val = some c → Acts (.finj x) s I (I.s.inject (I.finjUnit x c)) (I.Flags · (I.t + 3))) := by
  have hi := exec_finjKey hx hk s
  dsimp only
  cases hq : I.qok with
  | false => exact acts_flag_bare hr hi (if_pos (by rw [hq]; rfl))
  | true =>
    rw [if_neg Bool.noConfusion]
    have hne : ¬(!I.qok) = true := by rw [hq]; exact Bool.noConfusion
    rw [← if_congr Iss.finjOut_iff rfl rfl]
    refine sysStops_of hr hi (fun r h => ?_) fun h c hc => acts_flag hr hi (e := { comp := .flag (I.t + 2), charge := 4 }) ?_
      ((State.group_inject (I.finjUnit_ne _ c) ..).trans (Iss.group_at hr.issuer)) rfl rfl rfl rfl rfl
    · exact (if_neg hne).trans (by rw [Iss.finjRes, Iss.finjCauses, h])
    · exact (if_neg hne).trans (by rw [Iss.finjRes, Iss.finjCauses, h, hc])

/-- Settles O38: each instruction by its guard, then by the causes of its operands. -/
theorem systemInstructionsIssue : Obligations.SystemInstructionsIssue := by
  exact ⟨fun x s I hr => launch_issues hr, fun x s I hr => tbinv_issues hr, fun x s I hr => placew_issues hr,
    fun x s I => ⟨fun n hx _ hr => finjPoison_issues hx hr, fun o hx hk hr => finjKey_issues hx hk hr⟩⟩

end Sys2Proof.Machine
end

section
/-! SUPPORT. What becomes of a running COPY and of a packet (R279, R280, R284, R286, R287), and the settling of O45. -/

namespace Sys2Proof.Machine

open Sys2Proof

/-! ## Passing regions on -/

/-- Only regions and what cores keep of them have changed. -/
structure State.OnlyTokens (s t : State) : Prop where
  core : ∀ c, t.core c = { s.core c with caches := (t.core c).caches }
  ctx : ∀ n, t.ctx n = { s.ctx n with regions := (t.ctx n).regions }
  mem : t.mem = s.mem
  sch : t.sch = s.sch

theorem State.OnlyTokens.refl (s : State) : s.OnlyTokens s := ⟨fun _ => rfl, fun _ => rfl, rfl, rfl⟩

theorem State.OnlyTokens.trans {s t u : State} (a : s.OnlyTokens t) (b : t.OnlyTokens u) : s.OnlyTokens u := by
  refine ⟨fun c => ?_, fun n => ?_, b.mem.trans a.mem, b.sch.trans a.sch⟩
  · have h := b.core c
    rw [a.core c] at h
    exact h
  · have h := b.ctx n
    rw [a.ctx n] at h
    exact h

theorem State.core_modCaches (s : State) (c d : Nat) (f : Caches → Caches) :
    (s.modCaches c f).core d = { s.core d with caches := ((s.modCaches c f).core d).caches } := by
  by_cases hd : d = c
  · subst hd
    by_cases hl : d < 768
    · rw [State.modCaches, State.core_modCore _ _ _ hl]
    · rw [State.core_of_le (by omega), State.core_of_le (by omega)]
  · rw [State.modCaches, State.core_modCore_ne _ _ _ _ hd]

theorem State.onlyTokens_dropTok (s : State) (ctx : Nat) (r : Region) : s.OnlyTokens (s.dropTok ctx r) := by
  unfold State.dropTok
  split
  · exact ⟨fun d => State.core_modCaches .., fun _ => rfl, rfl, rfl⟩
  · exact .refl s

theorem State.onlyTokens_regions (s : State) (ctx : Nat) (f : List Region → List Region) :
    s.OnlyTokens (s.modCtx ctx fun x => { x with regions := f x.regions }) := by
  refine ⟨fun _ => rfl, fun n => ?_, rfl, rfl⟩
  by_cases hn : n = ctx
  · subst hn
    by_cases hl : n < 16
    · rw [State.ctx_modCtx _ _ _ hl]
    · rw [State.ctx_of_le (by omega), State.ctx_of_le (by omega)]
  · rw [State.ctx_modCtx_ne _ _ _ _ hn]

theorem State.onlyTokens_passAll (s : State) (ctx : Nat) (h k : Word) : s.OnlyTokens (s.passAll ctx h k) := by
  unfold State.passAll
  dsimp only
  refine State.OnlyTokens.trans ?_ (State.onlyTokens_regions _ ctx fun rs => rs.map fun r =>
    { r with owner := if r.owner = h then k else r.owner, lender := if r.lender = h then k else r.lender })
  exact List.foldlRecOn (motive := fun t : State => s.OnlyTokens t) _ _ (.refl s) fun t ht r _ => ht.trans (t.onlyTokens_dropTok ctx r)

theorem State.onlyTokens_passEng (s : State) (c e ctx crew : Nat) : s.OnlyTokens (s.passEng c e ctx crew) := State.onlyTokens_passAll ..

/-! ## Engine slots -/

theorem State.OnlyTokens.eng {s t : State} (h : s.OnlyTokens t) (c e : Nat) : t.eng? c e = s.eng? c e := by
  rw [State.eng?, h.core c]
  rfl

theorem State.eng_lt {s : State} {c e : Nat} {x : EngOp} (h : s.eng? c e = some x) : c < 768 ∧ e < 64 := by
  refine ⟨?_, ?_⟩
  · by_contra hc
    have hnone := State.eng_reset c e
    rw [State.eng?, State.core_reset] at hnone
    rw [State.eng?, State.core_of_le (by omega), hnone] at h
    cases h
  · by_contra he
    rw [State.eng?, Vector.getElem?_eq_none (by omega)] at h
    cases h

theorem State.eng_congr {s t : State} (h : t.cores = s.cores) (c e : Nat) : t.eng? c e = s.eng? c e := by
  rw [State.eng?, State.core_congr h]
  rfl

/-- A change of a core that keeps its engine slots. -/
theorem State.eng_modCore {s : State} {c d e : Nat} {f : Core → Core} (hf : ∀ k, (f k).eng = k.eng) :
    (s.modCore d f).eng? c e = s.eng? c e := by
  by_cases hc : c = d
  · subst hc
    by_cases hl : c < 768
    · rw [State.eng?, State.core_modCore _ _ _ hl, hf]
      rfl
    · rw [State.eng?, State.eng?, State.core_of_le (by omega), State.core_of_le (by omega)]
  · rw [State.eng?, State.core_modCore_ne _ _ _ _ hc]
    rfl

theorem State.eng_modEng {s : State} {c e : Nat} {x : EngOp} (h : s.eng? c e = some x) (f : EngOp → EngOp) :
    (s.modEng c e f).eng? c e = some (f x) := by
  obtain ⟨hc, he⟩ := State.eng_lt h
  have h' : (s.core c).eng[e] = some x := by simpa [State.eng?, he] using h
  rw [State.eng?, State.modEng, State.core_modCore _ _ _ hc]
  simp [he, h']

theorem State.eng_landAt (s : State) (c g id : Nat) (setf : Option (Fin 12)) (ws : List RegWrite) (lam d e : Nat) :
    (s.landAt c g id setf ws lam).eng? d e = s.eng? d e := by
  unfold State.landAt State.modGroup State.setGroup
  refine (State.eng_congr (State.postQ_cores ..) d e).trans ?_
  rw [State.eng_modCore]
  exact fun _ => rfl

/-- A COPY that leaves its slot is found there no more. -/
theorem State.eng_freeEng {s : State} {c e : Nat} {x : EngOp} (h : s.eng? c e = some x) : (s.freeEng c e x).eng? c e = none := by
  obtain ⟨hc, he⟩ := State.eng_lt h
  unfold State.freeEng
  rw [(State.onlyTokens_passEng ..).eng, State.eng?, State.core_modCore _ _ _ hc]
  simp [he]

theorem State.freeEng_mem (s : State) (c e : Nat) (x : EngOp) : (s.freeEng c e x).mem = s.mem := by
  unfold State.freeEng
  exact (State.onlyTokens_passEng ..).mem

/-! ## A COPY goes on -/

/-- Going on with a COPY in its slot that is not paused. -/
def State.onEng (s : State) (c e : Nat) (f : State → EngOp → State) : State :=
  match s.eng? c e with
  | some y => if y.paused.isSome then s else f s y
  | none => s

theorem State.engineGo_eq (s : State) (c e : Nat) (x : EngOp) : s.engineGo c e x =
    if s.copyLate c e x then s.engAsk c e (s.now c + 1)
    else
      let s := ((s.onEng c e fun s y => s.copyFlit c e y).onEng c e fun s y => s.copySeal c e y).onEng c e fun s y => s.copyArrive c e y
      (s.copyEnd c e).onEng c e fun s y => s.engAsk c e (State.engNext y (s.now c)) := rfl

section
variable {s : State} {c e : Nat} {x : EngOp}

theorem State.onEng_some (h : s.eng? c e = some x) (hp : x.paused = none) (f : State → EngOp → State) : s.onEng c e f = f s x := by
  unfold State.onEng
  rw [h]
  dsimp only
  rw [hp]
  exact if_neg Bool.false_ne_true

theorem State.onEng_none (h : s.eng? c e = none) (f : State → EngOp → State) : s.onEng c e f = s := by
  unfold State.onEng
  rw [h]

/-- A COPY whose words are all on their way moves no flit. -/
theorem State.copyFlit_sent (h : x.sent = x.words) : s.copyFlit c e x = s := by
  unfold State.copyFlit State.wantsFlit
  simp [h]

theorem State.copySeal_empty (h : x.open' = []) : s.copySeal c e x = s := by
  unfold State.copySeal
  simp [h]

/-- A COPY without packets under way only forgets those acknowledged. -/
theorem State.copyArrive_none (h : ∀ f ∈ x.flights, f.forks = []) : s.copyArrive c e x =
    s.modEng c e fun y => { y with flights := y.flights.filter fun f => f.acked.all (s.now c < ·) } := by
  unfold State.copyArrive
  have hfold : x.flights.foldl (fun s f => f.forks.foldl (fun s k => s.forkArrive c e f k) s) s = s :=
    List.foldlRecOn (motive := fun t : State => t = s) _ _ rfl fun t ht f hf => by rw [h f hf, ht]; rfl
  rw [hfold]

/-- The flag of a COPY without completion words, once its last byte is performed (R279). -/
theorem State.copyEnd_plain (h : s.eng? c e = some x) (hp : x.paused = none) (hcw : x.args.cw = false) (ht : x.from' ≤ s.now c)
    (hg : ∀ b ∈ x.branches, x.words ≤ b.got) : s.copyEnd c e = (s.freeEng c e x).landAt c x.slot x.id x.setf [] (s.now c) := by
  unfold State.copyEnd
  rw [h]
  dsimp only
  rw [hp, hcw]
  have hdone : (decide (s.now c < x.from') || x.branches.any fun b => decide (b.got < x.words)) = false := by
    simpa [Nat.not_lt] using ⟨ht, hg⟩
  rw [hdone]
  simp [h]

theorem exec_engineOpComplete (h : s.eng? c e = some x) (hp : x.paused = none) :
    exec (.engineOpComplete c e) s = .next (s.engineGo c e x) := by
  change execEngineOpComplete c e s = _
  unfold execEngineOpComplete
  rw [h]
  dsimp only
  rw [hp]
  exact if_neg Bool.false_ne_true

/-- A COPY that still follows an access is asked again in the next cycle (R278). -/
theorem engineOpComplete_late (h : s.eng? c e = some x) (hp : x.paused = none) {o : Op} (ho : o ∈ s.undone c x.before)
    (hr : o.reached = false) {a : Acc} (ha : a ∈ o.accs) (hit : s.hits (s.engWho c e x) a x.src (4 * x.words) = true ∨
      ∃ b ∈ x.branches, s.hits (s.engWho c e x) a b.dst (4 * x.words) = true) :
    exec (.engineOpComplete c e) s = .next (s.engAsk c e (s.now c + 1)) := by
  have hlate : s.copyLate c e x = true := by
    unfold State.copyLate
    simp only [List.any_eq_true, Bool.and_eq_true, Bool.or_eq_true, Bool.not_eq_true']
    exact ⟨o, ho, hr, a, ha, hit⟩
  rw [exec_engineOpComplete h hp, State.engineGo_eq, if_pos hlate]

/-- A COPY with nothing left to do leaves its slot, and its flag is to land (R279, R284). -/
theorem engineOpComplete_ends (h : s.eng? c e = some x) (hp : x.paused = none) (hcw : x.args.cw = false) (hu : s.undone c x.before = [])
    (ht : x.from' ≤ s.now c) (hs : x.sent = x.words) (ho : x.open' = []) (hf : ∀ f ∈ x.flights, f.forks = [])
    (hg : ∀ b ∈ x.branches, x.words ≤ b.got) :
    Runs (.engineOpComplete c e) s fun t => t.eng? c e = none ∧ t.mem = s.mem ∧ Awaits t c (s.now c) (.resultLanding c x.slot x.id) := by
  have hlate : s.copyLate c e x = false := by
    unfold State.copyLate
    rw [hu]
    rfl
  let y : EngOp := { x with flights := x.flights.filter fun f => f.acked.all (s.now c < ·) }
  let s1 := s.modEng c e fun y => { y with flights := y.flights.filter fun f => f.acked.all (s.now c < ·) }
  have hy : s1.eng? c e = some y := State.eng_modEng h _
  let t := (s1.freeEng c e y).landAt c x.slot x.id x.setf [] (s.now c)
  have hend : s1.copyEnd c e = t := State.copyEnd_plain (x := y) hy hp hcw ht hg
  have hnone : t.eng? c e = none := (State.eng_landAt ..).trans (State.eng_freeEng hy)
  refine ⟨t, ?_, hnone, ?_, ?_⟩
  · rw [exec_engineOpComplete h hp, State.engineGo_eq, hlate, if_neg Bool.false_ne_true]
    rw [State.onEng_some h hp, State.copyFlit_sent hs, State.onEng_some h hp, State.copySeal_empty ho, State.onEng_some h hp,
      State.copyArrive_none hf]
    dsimp only
    rw [hend, State.onEng_none hnone]
  · exact State.freeEng_mem s1 c e y
  · exact List.mem_append_right _ (List.mem_singleton.mpr rfl)

end

/-! ## A COPY that pauses -/

theorem exec_engineFaultPause {s : State} {c e : Nat} {x : EngOp} {k : Cause} {p : Ptr} (h : s.eng? c e = some x)
    (hp : x.paused = some (k, p)) : exec (.engineFaultPause c e) s = .next (
      if k = .ueData then (s.freeEng c e x).consume x.ctx x.crew .ueData
      else s.record x.ctx ({ cause := k, scalar := true, pc := x.pc, ptr := p } : Report).trapinfo[0] x.pc (s.coreNo x.ctx c) e
        (s.crewIdWord x.ctx x.crew) p 4) := by
  change execEngineFaultPause c e s = _
  unfold execEngineFaultPause
  rw [h]
  dsimp only
  rw [hp]
  exact (apply_ite Host.Outcome.next ..).symm

/-! ## Packets -/

theorem backoff_succ (n : Nat) : State.backoff (n + 1) = 2 ^ (2 + min (n + 1) 8) := by
  have h : 2 + min (n + 1) 8 = 3 + (min (n + 1) 8 - 1) := by omega
  rw [State.backoff, h, pow_add]
  rfl

section
variable {s : State} {c id : Nat} {p : Packet}

theorem State.packet_lt (h : s.packet? c id = some p) : c < 768 := by
  by_contra hc
  rw [State.packet?, State.core_of_le (by omega)] at h
  cases h

theorem State.packet_congr {s t : State} (h : t.cores = s.cores) (c id : Nat) : t.packet? c id = s.packet? c id := by
  rw [State.packet?, State.core_congr h]
  rfl

theorem State.packet_id (h : s.packet? c id = some p) : p.id = id := by simpa using List.find?_some h

/-- A packet changed that keeps its number. -/
theorem State.packet_modPacket {f : Packet → Packet} (hf : ∀ q, (f q).id = q.id) (h : s.packet? c id = some p) :
    (s.modPacket c id f).packet? c id = some (f p) := by
  have hg : ∀ q : Packet, ((if q.id = id then f q else q).id == id) = (q.id == id) := fun q => by
    split
    · rw [hf]
    · rfl
  rw [State.packet?, State.modPacket, State.core_modCore _ _ _ (State.packet_lt h)]
  dsimp only
  rw [List.find?_map]
  simp only [Function.comp_def, hg]
  change Option.map _ (s.packet? c id) = _
  rw [h, Option.map_some, if_pos (State.packet_id h)]

theorem State.modPacket_mem (s : State) (c id : Nat) (f : Packet → Packet) : (s.modPacket c id f).mem = s.mem := rfl

/-- What is sent again after its backoff (R286). -/
theorem State.sendAgain_spec (h : s.packet? c id = some p) : (s.sendAgain c p).packet? c id =
      some { p with drops := p.drops + 1, escape := p.escape || decide (8 ≤ p.drops + 1) } ∧
    (s.sendAgain c p).sch.agenda = s.sch.agenda ++
      [⟨.quad (quadOf c), s.now c + 2 ^ (2 + min (p.drops + 1) 8), .packetResend c id⟩] ∧ (s.sendAgain c p).mem = s.mem := by
  obtain rfl := State.packet_id h
  refine ⟨?_, ?_, rfl⟩
  · exact (State.packet_congr (State.postQ_cores ..) c p.id).trans
      (State.packet_modPacket (f := fun q => { q with drops := p.drops + 1, escape := q.escape || decide (8 ≤ p.drops + 1) })
        (fun _ => rfl) h)
  · rw [← backoff_succ]
    rfl

/-- The way of a packet draws a number and changes nothing else. -/
theorem State.packetReach_state (s : State) (c : Nat) (p : Packet) : (s.packetReach c p).2 = s.freeNat.2 := by
  unfold State.packetReach
  split
  · rfl
  · dsimp only
    split
    · split <;> rfl
    · rfl

/-- A packet discarded is sent again after its backoff (R286). -/
theorem packetNack_packet (h : s.packet? c id = some p) (hesc : p.escape = false) (hsent : p.sent = true)
    (hd : ∃ d ∈ s.sch.agenda, d.ev = State.packetEvent c p) (unserved : List Nat) :
    Runs (.packetNack c id unserved) s fun t => t.packet? c id = some { p with drops := p.drops + 1, escape := decide (8 ≤ p.drops + 1) } ∧
      Awaits t c (s.now c + 2 ^ (2 + min (p.drops + 1) 8)) (.packetResend c id) ∧ (∀ d ∈ t.sch.agenda, d.ev ≠ State.packetEvent c p) ∧
      t.mem = s.mem := by
  let u : State := s.modSch fun h => { h with agenda := h.agenda.filter fun d => d.ev != State.packetEvent c p }
  obtain ⟨hpk, hag, hmem⟩ := State.sendAgain_spec (s := u) (c := c) (id := id) (p := p) h
  rw [hesc, Bool.false_or] at hpk
  refine ⟨u.sendAgain c p, ?_, hpk, ?_, ?_, hmem⟩
  · change execPacketNack c id unserved s = _
    unfold execPacketNack
    rw [h]
    dsimp only
    refine if_neg ?_
    · obtain ⟨d, hd, hev⟩ := hd
      have hany : (s.sch.agenda.any fun d => d.ev == State.packetEvent c p) = true := List.any_eq_true.mpr ⟨d, hd, by simp [hev]⟩
      rw [hesc, hsent, hany]
      exact Bool.false_ne_true
  · rw [Awaits, hag]
    exact List.mem_append_right _ (List.mem_singleton.mpr rfl)
  · rw [hag]
    intro d hd
    rcases List.mem_append.mp hd with hd | hd
    · simpa [u, State.modSch] using (List.mem_filter.mp hd).2
    · rw [List.mem_singleton.mp hd, State.packetEvent]
      split <;> exact Instr.noConfusion

/-- A packet is sent again. -/
theorem packetResend_packet (h : s.packet? c id = some p) :
    Runs (.packetResend c id) s fun t => ∃ d, Awaits t c (s.now c + d) (State.packetEvent c p) ∧ t.packet? c id = some p ∧
      t.mem = s.mem := by
  refine ⟨(s.packetReach c p).2.postQ c ((s.packetReach c p).2.now c + (s.packetReach c p).1) (State.packetEvent c p), ?_,
    (s.packetReach c p).1, ?_, ?_, ?_⟩
  · change execPacketResend c id s = _
    unfold execPacketResend
    rw [h]
  · rw [State.packetReach_state]
    exact List.mem_append_right _ (List.mem_singleton.mpr rfl)
  · rw [State.packetReach_state]
    exact h
  · rw [State.packetReach_state]
    rfl

end

/-! ## The packets of a COPY -/

/-- Events put on the agenda one after the other. -/
theorem State.foldl_postQ_eq {α : Type} (c : Nat) (at' : α → Nat) (ev : Instr) (xs : List α) (s : State) :
    xs.foldl (fun s k => s.postQ c (at' k) ev) s =
      s.modSch fun h => { h with agenda := h.agenda ++ xs.map fun k => ⟨.quad (quadOf c), at' k, ev⟩ } := by
  induction xs generalizing s with
  | nil => simp [State.modSch]
  | cons x xs ih =>
    rw [List.foldl_cons, ih]
    simp [State.postQ, State.post, State.modSch]

section
variable {s : State} {c id e : Nat} {x : EngOp} {f : Flight}

/-- The COPY that a packet belongs to. -/
theorem State.flight_spec (h : s.flight? c id = some (e, x, f)) : s.eng? c e = some x ∧ f ∈ x.flights ∧ f.id = id := by
  obtain ⟨i, -, hi⟩ := List.exists_of_findSome?_eq_some h
  obtain ⟨y, hy, hi⟩ := Option.bind_eq_some_iff.mp hi
  obtain ⟨g, hg, hi⟩ := Option.map_eq_some_iff.mp hi
  cases hi
  exact ⟨hy, List.mem_of_find?_eq_some hg, by simpa using List.find?_some hg⟩

/-- Whether a discard of a COPY's packet hits a branch. -/
def forkHit (x : EngOp) (unserved : List Nat) (k : Fork) : Bool :=
  (!x.args.m || unserved.contains k.branch) && k.due.isSome && k.got = 0 && !k.escape

/-- A branch that a discard hits. -/
def forkDropped (now : Nat) (k : Fork) : Fork :=
  { k with due := none, drops := k.drops + 1, back := now + 2 ^ (2 + min (k.drops + 1) 8), escape := k.escape || decide (8 ≤ k.drops + 1) }

theorem forkDropped_eq (now : Nat) (k : Fork) : State.Fork.drop now k = forkDropped now k := by
  unfold State.Fork.drop forkDropped
  dsimp only
  rw [backoff_succ]

/-- A packet of a COPY discarded is sent again to the branches it did not reach (R286, R287). -/
theorem packetNack_flight (hp : s.packet? c id = none) (h : s.flight? c id = some (e, x, f)) {unserved : List Nat}
    (hhit : f.forks.any (forkHit x unserved) = true) : Runs (.packetNack c id unserved) s fun t => t.mem = s.mem ∧
      (∃ y g, t.eng? c e = some y ∧ g ∈ y.flights ∧ g.id = id ∧ g.data = f.data ∧
        g.forks = f.forks.map fun k => if forkHit x unserved k then forkDropped (s.now c) k else k) ∧
      ∀ k ∈ f.forks, forkHit x unserved k = true → Awaits t c (s.now c + 2 ^ (2 + min (k.drops + 1) 8)) (.packetResend c id) := by
  obtain ⟨he, hf, hid⟩ := State.flight_spec h
  let drop (k : Fork) : Fork := if forkHit x unserved k then State.Fork.drop (s.now c) k else k
  let u := s.modForks c e id drop
  let t := (f.forks.filter (forkHit x unserved)).foldl
    (fun (s' : State) k => s'.postQ c (State.Fork.drop (s.now c) k).back (.packetResend c id)) u
  have ht : t = u.modSch fun h => { h with agenda := h.agenda ++ (f.forks.filter (forkHit x unserved)).map fun k =>
      ⟨.quad (quadOf c), (State.Fork.drop (s.now c) k).back, .packetResend c id⟩ } := State.foldl_postQ_eq ..
  refine ⟨t, ?_, by rw [ht]; rfl, ?_, ?_⟩
  · change execPacketNack c id unserved s = _
    unfold execPacketNack
    rw [hp]
    dsimp only
    rw [h]
    dsimp only
    refine if_neg ?_
    rw [show (f.forks.any fun k => (!x.args.m || unserved.contains k.branch) && k.due.isSome && k.got = 0 && !k.escape) = true from hhit]
    exact Bool.false_ne_true
  · have hy : u.eng? c e = some { x with flights := x.flights.map fun g =>
    if g.id = id then { g with forks := g.forks.map drop } else g } :=
      State.eng_modEng he _
    refine ⟨_, { f with forks := f.forks.map drop }, (by rw [ht]; exact hy), ?_, hid, rfl, ?_⟩
    · exact List.mem_map.mpr ⟨f, hf, if_pos hid⟩
    · refine List.map_congr_left fun k _ => ?_
      dsimp only [drop]
      rw [forkDropped_eq]
  · intro k hk hkhit
    rw [ht, Awaits, ← backoff_succ]
    exact List.mem_append_right _ (List.mem_map.mpr ⟨k, List.mem_filter.mpr ⟨hk, hkhit⟩, rfl⟩)

end

/-- Settles O45: the COPY that ends, waits or pauses, then the packets discarded and sent again. -/
theorem engineEvents : Obligations.EngineEvents := by
  refine ⟨fun s c e x h => ⟨fun hp hcw hu ht hs ho hf hg => engineOpComplete_ends h hp hcw hu ht hs ho hf hg,
    fun hp o ho hr a ha hit => engineOpComplete_late h hp ho hr ha hit,
    fun k p hp => ⟨fun hk => (exec_engineFaultPause h hp).trans (congrArg _ (if_neg hk)),
      fun hk => (exec_engineFaultPause h hp).trans (congrArg _ (if_pos hk))⟩⟩,
    fun s c id p h => ⟨fun hesc hsent hd unserved => packetNack_packet h hesc hsent hd unserved, packetResend_packet h⟩,
    fun s c id e x f unserved hp h hhit => packetNack_flight hp h hhit⟩

end Sys2Proof.Machine
end

section
/-! SUPPORT. Messages at their rings (R288 to R294), and the settling of O46. -/

namespace Sys2Proof.Machine

open Sys2Proof

/-! ## A packet that is over -/

theorem ringExps_eq (w : Word) : ringExps w = (w.toNat % 16, w.toNat / 256 % 16) := by
  simp [ringExps, BitVec.extractLsb'_toNat, Nat.shiftRight_eq_div_pow]

theorem State.OnlyTokens.crew {s t : State} (h : s.OnlyTokens t) (ctx id : Nat) : t.crew? ctx id = s.crew? ctx id := by
  rw [State.crew?, h.ctx ctx]
  rfl

theorem State.OnlyTokens.packet {s t : State} (h : s.OnlyTokens t) (c id : Nat) : t.packet? c id = s.packet? c id := by
  rw [State.packet?, h.core c]
  rfl

/-- A change of a core that keeps its packets. -/
theorem State.packet_modCore {s : State} {c d id : Nat} {f : Core → Core} (hf : ∀ k, (f k).packets = k.packets) :
    (s.modCore d f).packet? c id = s.packet? c id := by
  by_cases hc : c = d
  · subst hc
    by_cases hl : c < 768
    · rw [State.packet?, State.core_modCore _ _ _ hl, hf]
      rfl
    · rw [State.packet?, State.packet?, State.core_of_le (by omega), State.core_of_le (by omega)]
  · rw [State.packet?, State.core_modCore_ne _ _ _ _ hc]
    rfl

theorem State.packet_landAt (s : State) (c g id : Nat) (setf : Option (Fin 12)) (ws : List RegWrite) (lam d n : Nat) :
    (s.landAt c g id setf ws lam).packet? d n = s.packet? d n := by
  unfold State.landAt State.modGroup State.setGroup
  refine (State.packet_congr (State.postQ_cores ..) d n).trans ?_
  rw [State.packet_modCore]
  exact fun _ => rfl

theorem State.landAt_mem (s : State) (c g id : Nat) (setf : Option (Fin 12)) (ws : List RegWrite) (lam : Nat) :
    (s.landAt c g id setf ws lam).mem = s.mem := rfl

theorem State.landAt_ctxs (s : State) (c g id : Nat) (setf : Option (Fin 12)) (ws : List RegWrite) (lam : Nat) :
    (s.landAt c g id setf ws lam).ctxs = s.ctxs := rfl

/-- The state in which the end of a packet is reckoned: the way of its acknowledgement has been drawn. -/
theorem State.packetEnd_draws (s : State) (c : Nat) (p : Packet) :
    (if p.tag.any fun x => x.1.toNat != Config.thisModule then (0, s) else s.packetReach c p).2 = s ∨
    (if p.tag.any fun x => x.1.toNat != Config.thisModule then (0, s) else s.packetReach c p).2 = s.freeNat.2 := by
  split
  · exact .inl rfl
  · exact .inr (State.packetReach_state ..)

section
variable {s : State} {c : Nat} {p : Packet} {ok : Bool}

/-- A packet that is over is found no more; no crew changes, and no byte of memory. -/
theorem State.packetEnd_spec (hc : c < 768) : (s.packetEnd c p ok).packet? c p.id = none ∧ (s.packetEnd c p ok).mem = s.mem ∧
    ∀ ctx id, (s.packetEnd c p ok).crew? ctx id = s.crew? ctx id := by
  unfold State.packetEnd
  dsimp only
  generalize hr : (if p.tag.any fun x => x.1.toNat != Config.thisModule then (0, s) else s.packetReach c p) = r
  have hdraw : r.2.mem = s.mem ∧ r.2.ctxs = s.ctxs := by
    rcases State.packetEnd_draws s c p with h | h <;> rw [hr] at h <;> rw [h] <;> exact ⟨rfl, rfl⟩
  refine ⟨?_, ?_, ?_⟩
  · rw [State.packet_landAt, (State.onlyTokens_passEng ..).packet, State.packet?, State.core_modCore _ _ _ hc]
    simp
  · rw [State.landAt_mem, (State.onlyTokens_passEng ..).mem]
    exact hdraw.1
  · intro ctx id
    rw [State.crew_congr (State.landAt_ctxs ..), (State.onlyTokens_passEng ..).crew]
    exact State.crew_congr hdraw.2 ..

end

/-! ## A message at a ring -/

/-- What a message does at its ring: `m` is the crew it goes to and `r` the ring. -/
def State.ringArrival (s : State) (c : Nat) (p : Packet) (me m : Crew) (r : Ring) : State :=
  let e := r.cfg.toNat % 16
  let n := r.cfg.toNat / 256 % 16
  let head := m.scratch.readWord r.base
  let tail := m.scratch.readWord (r.base + 4)
  if m.att == .detached || m.st == .held || m.st == .leaving then s.packetEnd c p false
  else if State.Crew.away m || (tail - head).toNat = 2 ^ n then s.sendAgain c p
  else if !s.packetReleased c p (m.id = p.crew) then s.postQ c (s.now c + 1) (.messageArrival c p.id)
  else
    ((s.scratchWrite p.ctx m.id (r.base + 64 + tail.toNat % 2 ^ n * 2 ^ e) (entryBytes me.grank e p.payload)).scratchWrite p.ctx m.id
      (r.base + 4) (leBytes 4 (tail + 1).toNat)).packetEnd c p true

section
variable {s : State} {c id : Nat} {p : Packet} (hp : s.packet? c id = some p) (ht : p.take = none) (hs : p.sent = true)
include hp ht hs

theorem messageArrival_held (h : s.packetHeld c p = true) :
    exec (.messageArrival c id) s = .next (s.postQ c (s.now c + 1) (.messageArrival c id)) := by
  change execMessageArrival c id s = _
  unfold execMessageArrival
  rw [hp]
  dsimp only
  rw [ht, hs, h]
  rfl

/-- A message to a ring that is not set up is refused (R290). -/
theorem messageArrival_noRing (h : s.packetHeld c p = false) {me m : Crew} (hme : s.crew? p.ctx p.crew = some me)
    (hm : s.member p.ctx me.gang p.rank = some m) (hr : (m.rings[p.ring]?).join = none) :
    exec (.messageArrival c id) s = .next (s.packetEnd c p false) := by
  change execMessageArrival c id s = _
  unfold execMessageArrival
  rw [hp]
  dsimp only
  rw [ht, hs, h, hme]
  dsimp only [Option.bind_some]
  rw [hm]
  dsimp only
  rw [hr]
  rfl

theorem messageArrival_ring (h : s.packetHeld c p = false) {me m : Crew} (hme : s.crew? p.ctx p.crew = some me)
    (hm : s.member p.ctx me.gang p.rank = some m) {r : Ring} (hr : (m.rings[p.ring]?).join = some r) :
    exec (.messageArrival c id) s = .next (s.ringArrival c p me m r) := by
  obtain rfl := State.packet_id hp
  change execMessageArrival c p.id s = _
  unfold execMessageArrival
  rw [hp]
  dsimp only
  rw [ht, hs, h, hme]
  dsimp only [Option.bind_some]
  rw [hm]
  dsimp only
  rw [hr]
  dsimp only
  rw [ringExps_eq]
  unfold State.ringArrival
  simp only [Bool.not_true, Bool.false_eq_true, if_false, apply_ite Host.Outcome.next]
  rfl

/-- A tagged message waits for the earlier ones and for its release (R290, R294). -/
theorem taggedArrival_waits {m : BitVec 18} {tag : BitVec 16} (htag : p.tag = some (m, tag))
    (h : s.packetHeld c p = true ∨ s.packetReleased c p false = false) :
    exec (.taggedMessageArrival c id) s = .next (s.postQ c (s.now c + 1) (.taggedMessageArrival c id)) := by
  change execTaggedMessageArrival c id s = _
  unfold execTaggedMessageArrival
  obtain ⟨word, hword⟩ : ∃ f, State.virtWord = f := ⟨_, rfl⟩
  rw [hword, hp]
  dsimp only
  rw [ht, htag, hs]
  refine (if_neg Bool.false_ne_true).trans (if_pos ?_)
  simpa using h

section
variable {m : BitVec 18} {tag : BitVec 16} (htag : p.tag = some (m, tag)) (hm : m.toNat = Config.thisModule)
  (hh : s.packetHeld c p = false) (hrel : s.packetReleased c p false = true)
include htag hm hh hrel

/-- A tagged message whose tag no launch is bound to is refused (R294). -/
theorem taggedArrival_unbound (h : (s.ctx p.ctx).tags.find? (fun t => t.tag == tag) = none) :
    exec (.taggedMessageArrival c id) s = .next (s.packetEnd c p false) := by
  change execTaggedMessageArrival c id s = _
  unfold execTaggedMessageArrival
  obtain ⟨word, hword⟩ : ∃ f, State.virtWord = f := ⟨_, rfl⟩
  rw [hword, hp]
  dsimp only
  rw [ht, htag, hs]
  refine (if_neg Bool.false_ne_true).trans ((if_neg ?_).trans ((if_neg (not_not.mpr hm)).trans ?_))
  · rw [hh, hrel]
    exact Bool.false_ne_true
  · rw [h]

/-- A tagged message at its armed ring (R294). -/
theorem taggedArrival_bound {t : Tag} {head tail cfg : Word} (h : (s.ctx p.ctx).tags.find? (fun t => t.tag == tag) = some t)
    (h0 : (s.markWalks p.ctx t.ring 12).virtWord p.ctx (Ptr.local t.ring) = some head)
    (h4 : (s.markWalks p.ctx t.ring 12).virtWord p.ctx (Ptr.local t.ring + 4) = some tail)
    (h8 : (s.markWalks p.ctx t.ring 12).virtWord p.ctx (Ptr.local t.ring + 8) = some cfg)
    (he : 4 ≤ cfg.toNat % 16 ∧ cfg.toNat % 16 ≤ 9) (hn : 1 ≤ cfg.toNat / 256 % 16 ∧ cfg.toNat / 256 % 16 ≤ 12) :
    exec (.taggedMessageArrival c id) s = .next (((s.markWalks p.ctx t.ring 12).fireTag c p t (cfg.toNat % 16) (cfg.toNat / 256 % 16)
      head tail).getD ((s.markWalks p.ctx t.ring 12).sendAgain c p)) := by
  change execTaggedMessageArrival c id s = _
  unfold execTaggedMessageArrival
  obtain ⟨word, hword⟩ : ∃ f, State.virtWord = f := ⟨_, rfl⟩
  rw [hword] at h0 h4 h8 ⊢
  rw [hp]
  dsimp only
  rw [ht, htag, hs]
  refine (if_neg Bool.false_ne_true).trans ((if_neg ?_).trans ((if_neg (not_not.mpr hm)).trans ?_))
  · rw [hh, hrel]
    exact Bool.false_ne_true
  · rw [h]
    dsimp only
    rw [h0, h4, h8]
    dsimp only
    rw [ringExps_eq]
    refine if_neg ?_
    simp only [Bool.or_eq_true, decide_eq_true_eq]
    omega

end

end

/-! ## What becomes of a message at its ring -/

section
variable {s : State} {c : Nat} {p : Packet} {me m : Crew} {r : Ring}

theorem State.ringArrival_gone (h : m.att = .detached ∨ m.st = .held ∨ m.st = .leaving) :
    s.ringArrival c p me m r = s.packetEnd c p false := by
  unfold State.ringArrival
  exact if_pos (by simpa [or_assoc] using h)

theorem Crew.away_iff (m : Crew) : State.Crew.away m = true ↔ ∃ sv, m.st = .suspended sv := by
  unfold State.Crew.away
  split <;> simp_all

section
variable (h : ¬(m.att = .detached ∨ m.st = .held ∨ m.st = .leaving))
include h

theorem State.ringArrival_there : s.ringArrival c p me m r =
    let e := r.cfg.toNat % 16
    let n := r.cfg.toNat / 256 % 16
    let tail := m.scratch.readWord (r.base + 4)
    if State.Crew.away m || (tail - m.scratch.readWord r.base).toNat = 2 ^ n then s.sendAgain c p
    else if !s.packetReleased c p (m.id = p.crew) then s.postQ c (s.now c + 1) (.messageArrival c p.id)
    else
      ((s.scratchWrite p.ctx m.id (r.base + 64 + tail.toNat % 2 ^ n * 2 ^ e) (entryBytes me.grank e p.payload)).scratchWrite p.ctx m.id
        (r.base + 4) (leBytes 4 (tail + 1).toNat)).packetEnd c p true := by
  unfold State.ringArrival
  exact if_neg (by simpa [or_assoc] using h)

end

/-- Writing a crew's scratchpad. -/
theorem State.crew_scratchWrite {ctx id : Nat} {k : Crew} (h : s.crew? ctx id = some k) (off : Nat) (bs : List Byte) :
    (s.scratchWrite ctx id off bs).crew? ctx id = some (k.writeScratch off bs) :=
  (State.crew_congr (State.note_ctxs ..) ctx id).trans (State.crew_modCrew h fun _ => rfl)

theorem State.scratchWrite_mem (s : State) (ctx id off : Nat) (bs : List Byte) : (s.scratchWrite ctx id off bs).mem = s.mem :=
  State.note_mem ..

/-- A message appended is over; its entry and the new TAIL stand in the scratchpad of the crew it went to. -/
theorem State.ringArrival_appends (hc : c < 768) (hm : s.crew? p.ctx m.id = some m)
    (h : ¬(m.att = .detached ∨ m.st = .held ∨ m.st = .leaving)) (haway : ¬∃ sv, m.st = .suspended sv) :
    let e := r.cfg.toNat % 16
    let n := r.cfg.toNat / 256 % 16
    let tail := m.scratch.readWord (r.base + 4)
    (tail - m.scratch.readWord r.base).toNat ≠ 2 ^ n → s.packetReleased c p (decide (m.id = p.crew)) = true →
    let t := s.ringArrival c p me m r
    t.packet? c p.id = none ∧ t.mem = s.mem ∧ t.crew? p.ctx m.id =
      some ((m.writeScratch (r.base + 64 + tail.toNat % 2 ^ n * 2 ^ e) (entryBytes me.grank e p.payload)).writeScratch (r.base + 4)
        (leBytes 4 (tail + 1).toNat)) := by
  intro e n tail hfull hrel
  dsimp only
  have haway' : State.Crew.away m = false := Bool.eq_false_iff.mpr fun h => haway ((Crew.away_iff m).mp h)
  rw [State.ringArrival_there h]
  dsimp only
  rw [haway', Bool.false_or, if_neg (by simpa using hfull), hrel, Bool.not_true, if_neg Bool.false_ne_true]
  obtain ⟨hpk, hmem, hcrew⟩ := State.packetEnd_spec (s := (s.scratchWrite p.ctx m.id (r.base + 64 + tail.toNat % 2 ^ n * 2 ^ e)
    (entryBytes me.grank e p.payload)).scratchWrite p.ctx m.id (r.base + 4) (leBytes 4 (tail + 1).toNat)) (p := p) (ok := true) hc
  refine ⟨hpk, ?_, ?_⟩
  · rw [hmem, State.scratchWrite_mem, State.scratchWrite_mem]
  · rw [hcrew]
    exact State.crew_scratchWrite (State.crew_scratchWrite hm ..) ..

/-- A full ring, or a suspended crew's, sends a message back. -/
theorem State.ringArrival_full (h : ¬(m.att = .detached ∨ m.st = .held ∨ m.st = .leaving))
    (hfull : (∃ sv, m.st = .suspended sv) ∨
      (m.scratch.readWord (r.base + 4) - m.scratch.readWord r.base).toNat = 2 ^ (r.cfg.toNat / 256 % 16)) :
    s.ringArrival c p me m r = s.sendAgain c p := by
  rw [State.ringArrival_there h]
  refine if_pos ?_
  rw [Bool.or_eq_true, Crew.away_iff, decide_eq_true_eq]
  exact hfull

/-- A message whose TAIL may not advance yet asks again. -/
theorem State.ringArrival_early (h : ¬(m.att = .detached ∨ m.st = .held ∨ m.st = .leaving))
    (hfull : ¬((∃ sv, m.st = .suspended sv) ∨
      (m.scratch.readWord (r.base + 4) - m.scratch.readWord r.base).toNat = 2 ^ (r.cfg.toNat / 256 % 16)))
    (hrel : s.packetReleased c p (decide (m.id = p.crew)) = false) :
    s.ringArrival c p me m r = s.postQ c (s.now c + 1) (.messageArrival c p.id) := by
  rw [State.ringArrival_there h]
  refine (if_neg ?_).trans (if_pos ?_)
  · rw [Bool.or_eq_true, Crew.away_iff, decide_eq_true_eq]
    exact hfull
  · rw [hrel]
    rfl

end

/-- Settles O46: the message by its ring, then the tagged message by its tag and the armed ring. -/
theorem messageEvents : Obligations.MessageEvents := by
  intro s c id p hp ht hs
  have hid := State.packet_id hp
  refine ⟨fun h => messageArrival_held hp ht hs h, fun h me m hme hm hk => ⟨fun hr => messageArrival_noRing hp ht hs h hme hm hr,
    fun r hr => ?ring⟩, fun _ _ htag h => taggedArrival_waits hp ht hs htag h,
    fun m tag htag hm hh hrel => ⟨fun hnone => taggedArrival_unbound hp ht hs htag hm hh hrel hnone, fun t head tail cfg ht' => ?tagged⟩⟩
  case tagged =>
    intro s1 h0 h4 h8 e n he he' hn hn'
    exact taggedArrival_bound hp ht hs htag hm hh hrel ht' h0 h4 h8 ⟨he, he'⟩ ⟨hn, hn'⟩
  case ring =>
    have hx := messageArrival_ring hp ht hs h hme hm hr
    have hthere (h1 : m.att ≠ .detached) (h2 : m.st ≠ .held) (h3 : m.st ≠ .leaving) :
        ¬(m.att = .detached ∨ m.st = .held ∨ m.st = .leaving) := by simp [h1, h2, h3]
    refine ⟨fun hg => hx.trans (congrArg _ (State.ringArrival_gone hg)),
      fun h1 h2 h3 hfull => hx.trans (congrArg _ (State.ringArrival_full (hthere h1 h2 h3) hfull)),
      fun h1 h2 h3 hfull hrel => hx.trans (congrArg _ ?early), fun h1 h2 h3 hfull hrel => ⟨_, hx, ?appends⟩⟩
    case early => rw [State.ringArrival_early (hthere h1 h2 h3) hfull hrel, hid]
    case appends =>
      rw [← hid]
      exact State.ringArrival_appends (State.packet_lt hp) hk (hthere h1 h2 h3) (fun h => hfull (.inl h)) (fun h => hfull (.inr h)) hrel

end Sys2Proof.Machine
end

section
/-! SUPPORT. Streams at work and the gang window (R296, R299, R303), and the settling of O47. -/

namespace Sys2Proof.Machine

open Sys2Proof

/-! ## The read of an element -/

theorem State.homeReach_mem (s : State) (c pa : Nat) : (s.homeReach c pa).2.mem = s.mem := by
  unfold State.homeReach
  dsimp only
  rfl

theorem State.reach_mem (s : State) (w : Who) (l : Look) (n : Nat) : (s.reach w l n).2.mem = s.mem := by
  unfold State.reach
  split
  · split
    · rfl
    · exact State.homeReach_mem ..
  · exact State.homeReach_mem ..
  · split <;> rfl
  · rfl
  · rfl
  · rfl

theorem State.latency_mem (s : State) (n : Nat) : (s.latency n).2.mem = s.mem := rfl

theorem State.engReach_mem (s : State) (w : Who) (p : Ptr) : (s.engReach w p).2.mem = s.mem := by
  unfold State.engReach
  obtain ⟨walked, hwalked⟩ : ∃ f, s.walk w.ctx = f := ⟨_, rfl⟩
  rw [hwalked]
  dsimp only
  rw [State.latency_mem]
  split
  · split
    · split
      · rfl
      · exact State.homeReach_mem ..
    · rfl
  · rfl
  · exact State.reach_mem ..
  · exact State.reach_mem ..
  · rfl

/-- A QPOP that no operation of the core waits with serves nothing (R299). -/
theorem State.queueServe_none {s : State} {c q : Nat} (h : ∀ o ∈ (s.core c).ops, State.takes q (s.queue c q).claim o = false) :
    s.queueServe c q = s := by
  unfold State.queueServe
  dsimp only
  rw [List.filter_eq_nil_iff.mpr fun o ho => by rw [h o ho]; exact Bool.false_ne_true]
  rfl

section
variable {s : State} {c n : Nat} {x : Stream} {G : Group}

theorem State.stream_lt (h : s.stream? c n = some x) : c < 768 ∧ n < 8 := by
  have hn : n < 8 := by
    by_contra hn
    rw [State.stream?, Vector.getElem?_eq_none (by omega)] at h
    exact absurd h (by simp)
  refine ⟨?_, hn⟩
  by_contra hc
  rw [State.stream?, State.core_of_le (by omega)] at h
  simp [Core.reset, hn] at h

theorem descQueue_lt (d : Vector Word 16) : descQueue d < 8 := by
  unfold descQueue
  omega

/-- A state whose queue takes an element and whose stream goes on (R296). -/
def State.elemAsked (s : State) (c n : Nat) (x : Stream) : State :=
  (s.fresh.2.setQueue c (descQueue x.desc) { s.fresh.2.queue c (descQueue x.desc) with
    elems := (s.fresh.2.queue c (descQueue x.desc)).elems ++
      [⟨s.fresh.1, n, descAddr x.desc x.next, descEsz x.desc, none, false, none⟩] }).setStream c n (some
    { x with next := x.next + 1, running := !decide (x.next + 1 ≥ descCount x.desc),
             finished := decide (x.next + 1 ≥ descCount x.desc) })

theorem State.elemAsked_core (hc : c < 768) : (s.elemAsked c n x).core c = { s.core c with
    queues := (s.core c).queues.setIfInBounds (descQueue x.desc) { s.queue c (descQueue x.desc) with
      elems := (s.queue c (descQueue x.desc)).elems ++
        [⟨s.fresh.1, n, descAddr x.desc x.next, descEsz x.desc, none, false, none⟩] }
    streams := (s.core c).streams.setIfInBounds n (some
      { x with next := x.next + 1, running := !decide (x.next + 1 ≥ descCount x.desc),
               finished := decide (x.next + 1 ≥ descCount x.desc) }) } := by
  rw [State.elemAsked, State.setStream, State.core_modCore _ _ _ hc, State.setQueue, State.core_modCore _ _ _ hc, State.fresh_core]
  rfl

/-- STREAM_ELEMENT_READ of a stream that may read: the element is asked, the answer awaited (R296). -/
theorem exec_streamElementRead (hx : s.stream? c n = some x) (hr : x.running = true) (hG : s.group? c x.slot = some G)
    (hst : ∀ k, s.crew? G.ctx G.crew = some k → k.st ≠ .suspending) (hroom : (s.queue c (descQueue x.desc)).elems.length < 384)
    (hu : s.undone c x.before = []) (hfull : Ptr.space (descAddr x.desc x.next) ≠ 1 → s.bufferFull c = false) :
    ∃ t : State, t.cores = (s.elemAsked c n x).cores ∧ t.mem = s.mem ∧
      exec (.streamElementRead c n) s = .next (t.queueServe c (descQueue x.desc)) := by
  have hpaused : ((s.crew? G.ctx G.crew).any fun k => k.st == .suspending) = false := by
    cases hk : s.crew? G.ctx G.crew with
    | none => rfl
    | some k => simpa using hst k hk
  have hbuf : (s.bufferFull c && Ptr.space (descAddr x.desc x.next) != 1) = false := by
    by_cases h : Ptr.space (descAddr x.desc x.next) = 1
    · simp [h]
    · rw [hfull h, Bool.false_and]
  have hexec : exec (.streamElementRead c n) s = execStreamElementRead c n s := rfl
  have hcores := State.engReach_cores
  have hmem := State.engReach_mem
  obtain ⟨reach, hreach⟩ : ∃ f, State.engReach = f := ⟨_, rfl⟩
  rw [hreach] at hcores hmem
  rw [hexec, execStreamElementRead, hx, hreach]
  dsimp only
  rw [hr, hG]
  dsimp only
  rw [if_neg (by simp), if_neg (by rw [hpaused, hbuf, hu]; simpa using hroom)]
  refine ⟨_, ?_, ?_, rfl⟩
  · split
    · exact hcores ..
    · exact hcores ..
  · split
    · exact hmem ..
    · exact hmem ..

/-- A stream reads its next element: it stands in its queue without a value, and the stream ends after its last (R296). -/
theorem streamElementRead_runs (hx : s.stream? c n = some x) (hr : x.running = true) (hG : s.group? c x.slot = some G)
    (hst : ∀ k, s.crew? G.ctx G.crew = some k → k.st ≠ .suspending) (hroom : (s.queue c (descQueue x.desc)).elems.length < 384)
    (hu : s.undone c x.before = []) (hfull : Ptr.space (descAddr x.desc x.next) ≠ 1 → s.bufferFull c = false)
    (hops : ∀ o ∈ (s.core c).ops, State.takes (descQueue x.desc) (s.queue c (descQueue x.desc)).claim o = false) :
    Runs (.streamElementRead c n) s fun t =>
      t.stream? c n = some { x with next := x.next + 1, running := !decide (descCount x.desc ≤ x.next + 1),
                                    finished := decide (descCount x.desc ≤ x.next + 1) } ∧
      t.mem = s.mem ∧ ∃ e : QElem, (t.queue c (descQueue x.desc)).elems = (s.queue c (descQueue x.desc)).elems ++ [e] ∧ e.stream = n ∧
        e.ptr = descAddr x.desc x.next ∧ e.val = none ∧ e.cause = none := by
  obtain ⟨hc, hn⟩ := State.stream_lt hx
  obtain ⟨t, hcores, hmem, hexec⟩ := exec_streamElementRead hx hr hG hst hroom hu hfull
  have hcore := (State.core_congr hcores c).trans (State.elemAsked_core (s := s) (n := n) (x := x) hc)
  have hqueue : t.queue c (descQueue x.desc) = { s.queue c (descQueue x.desc) with
      elems := (s.queue c (descQueue x.desc)).elems ++
        [⟨s.fresh.1, n, descAddr x.desc x.next, descEsz x.desc, none, false, none⟩] } := by
    rw [State.queue, hcore]
    dsimp only
    rw [Vector.getElem?_setIfInBounds_self_of_lt (descQueue_lt _)]
    rfl
  have hserve : t.queueServe c (descQueue x.desc) = t := by
    refine State.queueServe_none ?_
    rw [hqueue, hcore]
    exact hops
  refine ⟨t, hexec.trans (congrArg _ hserve), ?_, hmem, _, congrArg Queue.elems hqueue, rfl, rfl, rfl, rfl⟩
  rw [State.stream?, hcore]
  dsimp only
  rw [Vector.getElem?_setIfInBounds_self_of_lt hn]
  rfl

/-! ## What an element's read gives -/

theorem streamElementArrival_bad {id : Nat} {e : QElem} {s1 : State} {k : Cause} (he : s.elem? c n id = some (e, none))
    (hx : s.stream? c n = some x) (hG : s.group? c x.slot = some G)
    (h : s.lookNow { G.who c with num := some id } e.ptr (eszBytes e.esz) (eszBytes e.esz) false = (.bad k, s1)) :
    exec (.streamElementArrival c n id) s = .next (s1.putElem c { e with cause := some k } none) := by
  have hexec : exec (.streamElementArrival c n id) s = execStreamElementArrival c n id s := rfl
  obtain ⟨look, hlook⟩ : ∃ f, s.lookNow = f := ⟨_, rfl⟩
  rw [hexec, execStreamElementArrival, he]
  rw [hlook] at h ⊢
  simp only [Option.bind_none, hx, Option.map_some, Option.getD_some, hG, h]

theorem streamElementArrival_scratch {id o k : Nat} {e : QElem} {s1 s2 : State} {v sm} (he : s.elem? c n id = some (e, none))
    (hx : s.stream? c n = some x) (hG : s.group? c x.slot = some G)
    (h : s.lookNow { G.who c with num := some id } e.ptr (eszBytes e.esz) (eszBytes e.esz) false = (.scratch k o, s1))
    (hread : s1.readAt { G.who c with num := some id } (.scratch k o) (eszBytes e.esz) = ((v, false, sm), s2)) :
    exec (.streamElementArrival c n id) s =
      .next (s2.putElem c { e with val := some (eszExtend e.esz v), k := sm.getLsbD 0 } none) := by
  have hexec : exec (.streamElementArrival c n id) s = execStreamElementArrival c n id s := rfl
  obtain ⟨look, hlook⟩ : ∃ f, s.lookNow = f := ⟨_, rfl⟩
  obtain ⟨read, hreads⟩ : ∃ f, s1.readAt = f := ⟨_, rfl⟩
  rw [hexec, execStreamElementArrival, he]
  rw [hlook] at h ⊢
  rw [hreads] at hread
  simp only [Option.bind_none, hx, Option.map_some, Option.getD_some, hG, h, hreads, hread]
  rfl

end

/-! ## A crew that detaches -/

/-- A crew that has left its window. -/
def Crew.detach (k : Crew) : Crew := { k with att := .detached }

/-- An operation is over, and a crew detached. -/
def State.Detached (s : State) (c id ctx crew : Nat) : Prop :=
  s.op? c id = none ∧ ∃ k, s.crew? ctx crew = some k ∧ k.att = .detached

section
variable {s t : State} {c id ctx crew : Nat}

theorem State.Detached.congr (h : s.Detached c id ctx crew) (hcores : t.cores = s.cores) (hctxs : t.ctxs = s.ctxs) :
    t.Detached c id ctx crew := by
  obtain ⟨hop, k, hk, hatt⟩ := h
  exact ⟨(State.op_congr hcores c id).trans hop, k, (State.crew_congr hctxs ctx crew).trans hk, hatt⟩

/-- A change of another crew, or of this one's barriers, leaves it detached. -/
theorem State.Detached.modCrew (h : s.Detached c id ctx crew) (ctx' q : Nat) {f : Crew → Crew} (hf : ∀ k, (f k).id = k.id)
    (ha : ∀ k, (f k).att = k.att) (hctx : ctx' = ctx) : (s.modCrew ctx' q f).Detached c id ctx crew := by
  subst hctx
  obtain ⟨hop, k, hk, hatt⟩ := h
  refine ⟨hop, ?_⟩
  by_cases hq : crew = q
  · subst hq
    exact ⟨f k, State.crew_modCrew hk hf, (ha k).trans hatt⟩
  · exact ⟨k, (State.crew_modCrew_ne hq hf).trans hk, hatt⟩

theorem State.op_dropOp_none (h : s.op? c id = none) (d n : Nat) : (s.dropOp d n).op? c id = none := by
  by_cases hc : c < 768
  · by_cases hcd : c = d
    · subst hcd
      rw [State.op?, State.dropOp, State.core_modCore _ _ _ hc]
      refine List.find?_eq_none.mpr fun o ho => List.find?_eq_none.mp h o ?_
      exact List.mem_of_mem_filter ho
    · rw [State.op?, State.dropOp, State.core_modCore_ne _ _ _ _ hcd]
      exact h
  · rw [State.op?, State.core_of_le (by omega)]; rfl

theorem State.Detached.finishOp (h : s.Detached c id ctx crew) (d : Nat) (o : Op) (ws : List RegWrite) (lam : Nat) :
    (s.finishOp d o ws lam).Detached c id ctx crew := by
  obtain ⟨hop, hk⟩ := h
  exact ⟨(State.op_landAt ..).trans (State.op_dropOp_none hop ..), hk⟩

theorem State.Detached.foldl {α : Type} {f : State → α → State}
    (hf : ∀ s x, s.Detached c id ctx crew → (f s x).Detached c id ctx crew) (xs : List α) (h : s.Detached c id ctx crew) :
    (xs.foldl f s).Detached c id ctx crew := by
  induction xs generalizing s with
  | nil => exact h
  | cons x xs ih => exact ih (hf s x h)

/-- A gang barrier that completes leaves the crew detached (R218). -/
theorem State.Detached.gangCheck (h : s.Detached c id ctx crew) (gang n last : Nat) :
    (s.gangCheck ctx gang n last).Detached c id ctx crew := by
  unfold State.gangCheck
  dsimp only
  split
  · exact h
  · refine State.Detached.foldl (fun s k hs => ?_) _ h
    have hmod := hs.modCrew ctx k.id
      (f := fun k => { k with gbars := k.gbars.setIfInBounds n ⟨!((k.gbars[n]?).getD ⟨false, []⟩).phase, []⟩ })
      (fun _ => rfl) (fun _ => rfl) rfl
    refine State.Detached.foldl (fun s o hs => hs.finishOp ..) _ ?_
    split
    · exact hmod
    · exact hmod.congr rfl rfl

theorem State.Detached.retryHeld (h : s.Detached c id ctx crew) (ctx' gang : Nat) : (s.retryHeld ctx' gang).Detached c id ctx crew := by
  unfold State.retryHeld
  exact State.Detached.foldl (f := fun s q => s.postNow (.crewExitRelease ctx' q)) (fun s q hs => hs.congr rfl rfl) _ h

theorem exec_gdetachComplete {o : Op} {k : Crew} {a b : Nat} (ho : s.op? c id = some o)
    (hk : s.crew? (s.opWho c o).ctx (s.opWho c o).crew = some k) (hatt : k.att = .attached a b)
    (hbusy : s.windowBusy c (s.opWho c o).ctx (s.opWho c o).crew = false) :
    ∃ lam, exec (.gdetachComplete c id) s = .next (([0, 1].foldl (fun t n => t.gangCheck (s.opWho c o).ctx k.gang n c)
      ((s.modCrew (s.opWho c o).ctx (s.opWho c o).crew Crew.detach).finishOp c o (State.statusOf o.ins true) lam)).retryHeld
        (s.opWho c o).ctx k.gang) := by
  have hexec : exec (.gdetachComplete c id) s = execGdetachComplete c id s := rfl
  rw [hexec, execGdetachComplete, ho]
  dsimp only
  rw [hk]
  dsimp only
  rw [hatt]
  dsimp only
  rw [hbusy, if_neg Bool.false_ne_true]
  exact ⟨(s.modCrew (s.opWho c o).ctx (s.opWho c o).crew Crew.detach).now c, rfl⟩

/-- GDETACH with nothing under way in the window: the crew is detached, the operation over (R303). -/
theorem gdetachComplete_runs {o : Op} {k : Crew} {a b : Nat} (ho : s.op? c id = some o)
    (hk : s.crew? (s.opWho c o).ctx (s.opWho c o).crew = some k) (hatt : k.att = .attached a b)
    (hbusy : s.windowBusy c (s.opWho c o).ctx (s.opWho c o).crew = false) :
    Runs (.gdetachComplete c id) s fun t =>
      t.op? c id = none ∧ ∃ k', t.crew? (s.opWho c o).ctx (s.opWho c o).crew = some k' ∧ k'.att = .detached := by
  obtain ⟨lam, hexec⟩ := exec_gdetachComplete ho hk hatt hbusy
  have hleft : State.Detached ((s.modCrew (s.opWho c o).ctx (s.opWho c o).crew Crew.detach).finishOp c o
      (State.statusOf o.ins true) lam) c id (s.opWho c o).ctx (s.opWho c o).crew :=
    ⟨(State.op_landAt ..).trans (State.op_id ho ▸ State.op_dropOp ..), _, State.crew_modCrew hk fun _ => rfl, rfl⟩
  exact ⟨_, hexec, (State.Detached.foldl (fun _ n hs => hs.gangCheck k.gang n c) [0, 1] hleft).retryHeld (s.opWho c o).ctx k.gang⟩

end

/-- Settles O47: a stream's read asks its element and moves on, an answer is put where the element stands, and detaching goes through the
gang's barriers without giving the crew its window back. -/
theorem streamEvents : Obligations.StreamEvents := by
  unfold Obligations.StreamEvents
  refine ⟨?_, ?_, ?_⟩
  · intro s c n x G hx hr hG hst hroom hu hfull hops
    exact streamElementRead_runs hx hr hG hst hroom hu hfull hops
  · intro s c n id e x G he hx hG
    exact ⟨fun k s1 h => streamElementArrival_bad he hx hG h, fun k o s1 v sm s2 h hread => streamElementArrival_scratch he hx hG h hread⟩
  · intro s c id o k a b ho w hk hatt hbusy
    exact gdetachComplete_runs ho hk hatt hbusy

end Sys2Proof.Machine
end

section
/-! SUPPORT. What token, core and schedule operations leave of the crews and the legs of every context (chapters 9 and 15). -/

namespace Sys2Proof.Machine

open Sys2Proof

/-! ## Crews and legs as they were -/

/-- The crews and the legs of every context, and the clocks of the quadrants, are as they were. -/
structure State.SameCrews (s t : State) : Prop where
  crews : ∀ n, (t.ctx n).crews = (s.ctx n).crews
  legs : ∀ n, (t.ctx n).legs = (s.ctx n).legs
  clk : t.sch.quadClk = s.sch.quadClk

section
variable {s t u : State}

theorem State.SameCrews.refl (s : State) : s.SameCrews s := ⟨fun _ => rfl, fun _ => rfl, rfl⟩

theorem State.SameCrews.trans (a : s.SameCrews t) (b : t.SameCrews u) : s.SameCrews u :=
  ⟨fun n => (b.crews n).trans (a.crews n), fun n => (b.legs n).trans (a.legs n), b.clk.trans a.clk⟩

theorem State.SameCrews.crew (h : s.SameCrews t) (ctx crew : Nat) : t.crew? ctx crew = s.crew? ctx crew := by
  rw [State.crew?, h.crews]; rfl

theorem State.SameCrews.leg (h : s.SameCrews t) (ctx leg : Nat) : t.leg? ctx leg = s.leg? ctx leg := by
  rw [State.leg?, h.legs]; rfl

theorem State.SameCrews.now (h : s.SameCrews t) (c : Nat) : t.now c = s.now c := by
  rw [State.now, h.clk]; rfl

theorem State.OnlyBytes.sameCrews (h : s.OnlyBytes t) : s.SameCrews t :=
  ⟨fun n => by rw [State.ctx_congr h.ctxs], fun n => by rw [State.ctx_congr h.ctxs], h.clk⟩

theorem State.Posts.sameCrews (h : s.Posts t) : s.SameCrews t := h.onlyBytes.sameCrews

theorem State.OnlyTokens.sameCrews (h : s.OnlyTokens t) : s.SameCrews t :=
  ⟨fun n => by rw [h.ctx n], fun n => by rw [h.ctx n], by rw [h.sch]⟩

theorem State.foldl_sameCrews {α : Type} {f : State → α → State} (hf : ∀ (s : State) x, s.SameCrews (f s x)) (xs : List α) (s : State) :
    s.SameCrews (xs.foldl f s) := by
  induction xs generalizing s with
  | nil => exact .refl s
  | cons x xs ih => exact (hf s x).trans (ih _)

end

theorem State.ctx_modCtx_crews {s : State} {n : Nat} {f : Ctx → Ctx} (hf : (f (s.ctx n)).crews = (s.ctx n).crews) (m : Nat) :
    ((s.modCtx n f).ctx m).crews = (s.ctx m).crews := by
  by_cases hm : m < 16
  · by_cases h : m = n
    · subst h; rw [State.ctx_modCtx _ _ _ hm, hf]
    · rw [State.ctx_modCtx_ne _ _ _ _ h]
  · rw [State.ctx_of_le (by omega), State.ctx_of_le (by omega)]

theorem State.ctx_modCtx_legs {s : State} {n : Nat} {f : Ctx → Ctx} (hf : (f (s.ctx n)).legs = (s.ctx n).legs) (m : Nat) :
    ((s.modCtx n f).ctx m).legs = (s.ctx m).legs := by
  by_cases hm : m < 16
  · by_cases h : m = n
    · subst h; rw [State.ctx_modCtx _ _ _ hm, hf]
    · rw [State.ctx_modCtx_ne _ _ _ _ h]
  · rw [State.ctx_of_le (by omega), State.ctx_of_le (by omega)]

/-- A context changed in what is neither its crews nor its legs. -/
theorem State.sameCrews_modCtx {s : State} {n : Nat} {f : Ctx → Ctx} (hc : (f (s.ctx n)).crews = (s.ctx n).crews)
    (hl : (f (s.ctx n)).legs = (s.ctx n).legs) : s.SameCrews (s.modCtx n f) :=
  ⟨State.ctx_modCtx_crews hc, State.ctx_modCtx_legs hl, rfl⟩

/-! ## Tokens -/

section
variable (s : State) (c ctx crew : Nat) (r : Region)

theorem State.sameCrews_modCore (f : Core → Core) : s.SameCrews (s.modCore c f) := (s.onlyBytes_modCore c f).sameCrews

theorem State.sameCrews_dropTok : s.SameCrews (s.dropTok ctx r) := (s.onlyBytes_dropTok ctx r).sameCrews

theorem State.sameCrews_dropLines (base k : Nat) : s.SameCrews (s.dropLines c ctx base k) := (s.onlyBytes_setL1 ..).sameCrews

theorem State.sameCrews_dropPins (f : Pin → Bool) : s.SameCrews (s.dropPins c f) := (s.onlyBytes_dropPins c f).sameCrews

theorem State.sameCrews_passAll (h k : Word) : s.SameCrews (s.passAll ctx h k) := (s.onlyTokens_passAll ctx h k).sameCrews

theorem State.sameCrews_wakeRegions : s.SameCrews s.wakeRegions := s.posts_wakeRegions.sameCrews

theorem State.sameCrews_passRegion (owner lender : Word) : s.SameCrews (s.passRegion ctx c r owner lender) :=
  ((s.sameCrews_dropLines ..).trans (State.sameCrews_dropTok ..)).trans (State.sameCrews_modCtx rfl rfl)

theorem State.sameCrews_returnShare (h : Word) (n : Nat) : s.SameCrews (s.returnShare ctx r h n) := by
  unfold State.returnShare
  split
  · exact .refl s
  · dsimp only
    refine State.SameCrews.trans (t := if _ ≤ n then s.releasePins ctx r h else s) ?_
      ((State.sameCrews_dropTok ..).trans (State.sameCrews_modCtx rfl rfl))
    split
    · exact (s.onlyBytes_releasePins ctx r h).sameCrews
    · exact .refl s

/-- Shares returned, each where its region stands. -/
theorem State.sameCrews_returnShares (bs : List Nat) (h : Word) : s.SameCrews (bs.foldl (fun s b => match (s.ctx ctx).regionAt b with
    | some r => s.returnShare ctx r h 65535
    | none => s) s) := by
  refine State.foldl_sameCrews (fun s b => ?_) bs s
  split
  · exact s.sameCrews_returnShare ..
  · exact .refl s

theorem State.sameCrews_groupTokens (pos : Nat) : s.SameCrews (s.groupTokens ctx crew pos) := by
  unfold State.groupTokens
  exact ((s.sameCrews_passAll ..).trans (State.sameCrews_returnShares ..)).trans (State.sameCrews_wakeRegions _)

/-- Regions of a holder passed to their heirs (R191). -/
theorem State.sameCrews_passOwned (h launcher : Word) (rs : List Region) :
    s.SameCrews (rs.foldl (fun s r => if r.owner = h then s.passRegion ctx c r (heir ctx crew launcher r) noHolder else s) s) := by
  refine State.foldl_sameCrews (fun s r => ?_) rs s
  split
  · exact s.sameCrews_passRegion ..
  · exact .refl s

theorem State.sameCrews_crewTokens (launcher : Word) : s.SameCrews (s.crewTokens ctx crew launcher) := by
  unfold State.crewTokens
  split
  · exact .refl s
  · dsimp only
    exact ((((State.foldl_sameCrews (fun s i => s.sameCrews_groupTokens ctx crew i) (List.range 16) s).trans
      (State.sameCrews_passOwned ..)).trans (State.sameCrews_passAll ..)).trans (State.sameCrews_returnShares ..)).trans
        ((State.sameCrews_dropPins ..).trans (State.sameCrews_wakeRegions _))

theorem State.sameCrews_suspendTokens : s.SameCrews (s.suspendTokens ctx crew) := by
  unfold State.suspendTokens
  split
  · exact .refl s
  · refine State.SameCrews.trans (State.foldl_sameCrews (fun s r => ?_) _ s) (State.sameCrews_dropPins ..)
    split
    · exact s.sameCrews_passRegion ..
    · exact .refl s

theorem State.sameCrews_startPins (gang leg : Nat) : s.SameCrews (s.startPins ctx crew gang leg c) := by
  unfold State.startPins
  refine State.foldl_sameCrews (fun s y => ?_) _ s
  split
  · exact ⟨fun _ => rfl, fun _ => rfl, rfl⟩
  · exact .refl s

theorem State.sameCrews_settleLent (bases : List Nat) : s.SameCrews (s.settleLent ctx bases) :=
  (State.sameCrews_modCtx rfl rfl).trans (State.sameCrews_wakeRegions _)

theorem State.onlyBytes_flushAll (rs : List (Region × Bool)) : s.OnlyBytes (s.flushAll c ctx rs).2 := by
  unfold State.flushAll
  exact List.foldlRecOn (motive := fun p : Nat × State => s.OnlyBytes p.2) rs _ (.refl s) fun p hp x _ =>
    hp.trans (p.2.onlyBytes_flushRegion ..)

/-! ## Cores and the schedule -/

theorem State.onlyBytes_ite {s t u : State} {p : Prop} [Decidable p] (ht : s.OnlyBytes t) (hu : s.OnlyBytes u) :
    s.OnlyBytes (if p then t else u) := by
  split
  · exact ht
  · exact hu

theorem State.onlyBytes_rail (q : Nat) : s.OnlyBytes (s.rail q) := by
  unfold State.rail
  dsimp only
  split
  · exact .refl s
  · split
    · exact ⟨rfl, rfl⟩
    · split
      · exact ⟨rfl, rfl⟩
      · split
        · exact .refl s
        · split
          · exact ⟨rfl, rfl⟩
          · exact ⟨rfl, rfl⟩

theorem State.onlyBytes_leaveTenant : s.OnlyBytes (s.leaveTenant c ctx) := by
  unfold State.leaveTenant
  dsimp only
  split
  · exact s.onlyBytes_rail _
  · exact (s.onlyBytes_rail _).trans (State.onlyBytes_ite (State.OnlyBytes.trans (State.onlyBytes_modCore ..) (State.onlyBytes_modCore ..))
      (State.onlyBytes_modCore ..))

theorem State.onlyBytes_releaseArray : s.OnlyBytes (s.releaseArray c ctx crew) := s.onlyBytes_modCore ..

theorem State.sameCrews_settleIdle : s.SameCrews (s.settleIdle ctx) := by
  unfold State.settleIdle
  dsimp only
  split
  · exact .refl s
  · exact State.sameCrews_modCtx rfl rfl

theorem State.sameCrews_retryAll : s.SameCrews s.retryAll := by
  refine State.foldl_sameCrews (fun s n => ?_) _ s
  split
  · exact .refl s
  · exact (s.sameCrews_settleIdle n).trans (State.posts_retryGangs _ n).sameCrews

theorem State.posts_retryHeld (gang : Nat) : s.Posts (s.retryHeld ctx gang) := by
  unfold State.retryHeld
  exact State.foldl_posts (f := fun s q => s.postNow (.crewExitRelease ctx q)) (fun s _ => s.posts_postNow _) _ s

theorem State.onlyBytes_reask (f : Op → Bool) : s.OnlyBytes (s.reask c f) := by
  unfold State.reask
  refine State.foldl_onlyBytes (fun s o => ?_) _ s
  exact ⟨rfl, rfl⟩

theorem State.onlyBytes_stallOver : s.OnlyBytes (s.stallOver c) := by
  unfold State.stallOver
  exact State.onlyBytes_ite (.refl s) ((s.onlyBytes_modCore ..).trans (State.onlyBytes_reask ..))

theorem State.onlyBytes_unstall (g : Nat) : s.OnlyBytes (s.unstall c g) :=
  (s.onlyBytes_modCore ..).trans (State.onlyBytes_stallOver ..)

theorem State.sameCrews_cancelEngines (slots : List Nat) : s.SameCrews (s.cancelEngines c ctx crew slots) := by
  unfold State.cancelEngines
  exact (State.foldl_sameCrews (fun s e => (s.onlyTokens_passEng c e ctx crew).sameCrews) _ s).trans (State.sameCrews_modCore ..)

end

end Sys2Proof.Machine
end

section
/-! SUPPORT. Crews that exit, start, are placed and saved (R304, R321, R325, R329), and the settling of O48. -/

namespace Sys2Proof.Machine

open Sys2Proof

/-! ## What is said of one crew -/

/-- A crew of a context is there and is as a property says. -/
def State.CrewIs (s : State) (ctx crew : Nat) (P : Crew → Prop) : Prop := ∃ k, s.crew? ctx crew = some k ∧ P k

section
variable {s t : State} {ctx crew : Nat} {P Q : Crew → Prop}

theorem State.CrewIs.same (h : s.CrewIs ctx crew P) (hs : s.SameCrews t) : t.CrewIs ctx crew P := by
  obtain ⟨k, hk, hp⟩ := h
  exact ⟨k, (hs.crew ctx crew).trans hk, hp⟩

theorem State.CrewIs.crews (h : s.CrewIs ctx crew P) (hs : ∀ n, (t.ctx n).crews = (s.ctx n).crews) : t.CrewIs ctx crew P := by
  obtain ⟨k, hk, hp⟩ := h
  refine ⟨k, ?_, hp⟩
  rw [State.crew?, hs]
  exact hk

theorem State.CrewIs.mono (h : s.CrewIs ctx crew P) (hPQ : ∀ k, P k → Q k) : s.CrewIs ctx crew Q := by
  obtain ⟨k, hk, hp⟩ := h
  exact ⟨k, hk, hPQ k hp⟩

/-- The crew changed. -/
theorem State.CrewIs.change (h : s.CrewIs ctx crew P) {f : Crew → Crew} (hf : ∀ k, (f k).id = k.id) (hPQ : ∀ k, P k → Q (f k)) :
    (s.modCrew ctx crew f).CrewIs ctx crew Q := by
  obtain ⟨k, hk, hp⟩ := h
  exact ⟨f k, State.crew_modCrew hk hf, hPQ k hp⟩

/-- Some crew of the context changed in what the property does not speak of. -/
theorem State.CrewIs.modCrew (h : s.CrewIs ctx crew P) (q : Nat) {f : Crew → Crew} (hf : ∀ k, (f k).id = k.id)
    (hP : ∀ k, P k → P (f k)) : (s.modCrew ctx q f).CrewIs ctx crew P := by
  by_cases hq : crew = q
  · subst hq
    exact h.change hf hP
  · obtain ⟨k, hk, hp⟩ := h
    exact ⟨k, (State.crew_modCrew_ne hq hf).trans hk, hp⟩

theorem State.CrewIs.foldl {α : Type} {f : State → α → State} (hf : ∀ s x, State.CrewIs s ctx crew P → State.CrewIs (f s x) ctx crew P)
    (xs : List α) (h : s.CrewIs ctx crew P) : (xs.foldl f s).CrewIs ctx crew P := by
  induction xs generalizing s with
  | nil => exact h
  | cons x xs ih => exact ih (hf s x h)

/-- A crew's buffer drained: its entries change what it has sent elsewhere, and nothing else of it. -/
theorem State.CrewIs.drainEntries {w : Who} (h : s.CrewIs w.ctx w.crew P) (hP : ∀ k gone, P k → P { k with gone := gone })
    (es : List SBEntry) : (es.foldl (fun s e => s.drainEntry w e) s).CrewIs w.ctx w.crew P := by
  refine h.foldl (fun s e hs => ?_) es
  obtain ⟨k, hk, hp⟩ := hs
  obtain ⟨-, gone, hgone, -⟩ := State.drainEntry_crew (e := e) hk
  exact ⟨_, hgone, hP k gone hp⟩

theorem State.drainEntry_clk (s : State) (w : Who) (e : SBEntry) : (s.drainEntry w e).sch.quadClk = s.sch.quadClk := by
  by_cases h : State.remoteBlk 0 ≤ e.blk
  · unfold State.drainEntry
    rw [if_pos h]
    rfl
  · exact (State.onlyBytes_drainEntry h).clk

theorem State.drainAll_clk (s : State) (ctx crew : Nat) : (s.drainAll ctx crew).sch.quadClk = s.sch.quadClk := by
  unfold State.drainAll
  split
  · rfl
  · rename_i k _
    change (k.sbuf.foldl (fun s e => s.drainEntry ⟨k.core, ctx, crew, 0, none, none⟩ e) s).sch.quadClk = _
    exact List.foldlRecOn (motive := fun t : State => t.sch.quadClk = s.sch.quadClk) k.sbuf _ rfl
      fun t ht e _ => (t.drainEntry_clk _ e).trans ht

/-- A crew drained keeps what it has but its buffer and what it has sent. -/
theorem State.CrewIs.drainAll (h : s.CrewIs ctx crew P) (hP : ∀ k gone, P k → P { k with gone := gone })
    (hQ : ∀ k, P k → Q { k with sbuf := [] }) : (s.drainAll ctx crew).CrewIs ctx crew Q := by
  obtain ⟨k, hk, hp⟩ := h
  unfold State.drainAll
  rw [hk]
  exact (State.CrewIs.drainEntries (w := ⟨k.core, ctx, crew, 0, none, none⟩) ⟨k, hk, hp⟩ hP k.sbuf).change (fun _ => rfl) hQ

/-- A crew that is there commits, or has (R353). -/
theorem State.CrewIs.commit (h : s.CrewIs ctx crew P) (q : Nat) (reason : BitVec 4)
    (hP : ∀ k, P k → P { k with committed := true, reason := reason }) : (s.commit ctx q reason).CrewIs ctx crew P := by
  unfold State.commit
  split
  · exact h
  · dsimp only
    split
    · exact h
    · have hm := h.modCrew q (f := fun k => { k with committed := true, reason := reason }) (fun _ => rfl) hP
      split
      · exact hm
      · exact hm.same (State.posts_postQ ..).sameCrews

end

theorem awaits_postQ (s : State) (c t : Nat) (e : Instr) : Awaits (s.postQ c t e) c t e := by
  simp [Awaits, State.postQ, State.post, State.modSch]

theorem Awaits.posts {s t : State} {c n : Nat} {e : Instr} (h : Awaits s c n e) (hp : s.Posts t) : Awaits t c n e := by
  obtain ⟨l, rfl⟩ := hp
  exact List.mem_append_left _ h

theorem State.modCrew_regions (s : State) (ctx q : Nat) (f : Crew → Crew) (n : Nat) :
    ((s.modCrew ctx q f).ctx n).regions = (s.ctx n).regions :=
  State.sameRegions_modCtx (s := s) (n := ctx) (f := fun x => { x with crews := x.crews.map fun k => if k.id = q then f k else k })
    (fun _ => rfl) n

/-! ## A crew's exit (R188, R191, R304) -/

section
variable {s : State} {ctx crew : Nat} {k : Crew}

theorem exec_crewExitRelease_held (hk : s.crew? ctx crew = some k) (hst : k.st = .held) (hp : s.heldByPeers ctx k = false) :
    exec (.crewExitRelease ctx crew) s = .next ((s.startLeave ctx crew).retryHeld ctx k.gang) := by
  have hx : exec (.crewExitRelease ctx crew) s = execCrewExitRelease ctx crew s := rfl
  rw [hx, execCrewExitRelease, hk]
  dsimp only
  rw [hst]
  dsimp only
  rw [hp, if_neg Bool.false_ne_true]

theorem exec_crewExitRelease_left (hk : s.crew? ctx crew = some k) (hst : k.st = .leaving) {f : Flushing} (hf : k.flush = some f)
    (he : f.ends ≤ s.now f.core) :
    exec (.crewExitRelease ctx crew) s = .next ((s.settleLent ctx f.bases).releaseCrew ctx crew) := by
  have hx : exec (.crewExitRelease ctx crew) s = execCrewExitRelease ctx crew s := rfl
  rw [hx, execCrewExitRelease, hk]
  dsimp only
  rw [hst, hf]
  dsimp only
  rw [if_neg (Nat.not_lt.mpr he)]

theorem exec_crewExitRelease_waits (hk : s.crew? ctx crew = some k) (hst : k.st = .leaving) (hf : k.flush = none)
    (h : s.crewFlush ctx k = none) :
    exec (.crewExitRelease ctx crew) s = .next (s.postQ k.core (s.now k.core + 1) (.crewExitRelease ctx crew)) := by
  have hx : exec (.crewExitRelease ctx crew) s = execCrewExitRelease ctx crew s := rfl
  rw [hx, execCrewExitRelease, hk]
  dsimp only
  rw [hst, hf]
  dsimp only
  rw [h]

/-- The flush of a leaving crew's regions, which ends after `n` cycles. -/
def State.leaveFlushing (s : State) (ctx crew : Nat) (k : Crew) (n : Nat) : Flushing :=
  ⟨k.core, s.now k.core + n, ((s.crewRegions ctx crew).filter fun r => r.st == .owned).map (·.base)⟩

theorem exec_crewExitRelease_flushes (hk : s.crew? ctx crew = some k) (hst : k.st = .leaving) (hf : k.flush = none) {n : Nat} {u : State}
    (h : s.crewFlush ctx k = some (n, u)) :
    exec (.crewExitRelease ctx crew) s = .next (((u.leaveLend ctx k).modCrew ctx crew fun q =>
      { q with flush := some (s.leaveFlushing ctx crew k n) }).postQ k.core (s.now k.core + n) (.crewExitRelease ctx crew)) := by
  have hx : exec (.crewExitRelease ctx crew) s = execCrewExitRelease ctx crew s := rfl
  rw [hx, execCrewExitRelease, hk]
  dsimp only
  rw [hst, hf]
  dsimp only
  rw [h]
  rfl

/-- A flush of a crew's regions leaves the contexts and the clocks. -/
theorem State.crewFlush_onlyBytes {n : Nat} {u : State} (h : s.crewFlush ctx k = some (n, u)) : s.OnlyBytes u := by
  unfold State.crewFlush at h
  dsimp only at h
  split at h
  · exact absurd h (by simp)
  · rw [Option.some.injEq] at h
    have := State.onlyBytes_flushAll s k.core ctx ((s.crewRegions ctx k.id).map fun r => (r, false))
    rwa [h] at this

/-- What a crew that leaves is. -/
def Crew.Leaving (k : Crew) : Prop := k.st = .leaving ∧ k.committed = true ∧ k.sbuf = [] ∧ k.flush = none ∧ k.att.now? = false

/-- A crew at the beginning of its exit: it detaches, it counts as committed, and no flush has begun (R304, R354). -/
def Crew.beginLeave (k : Crew) : Crew :=
  { k with
    st := .leaving
    att := match k.att with
      | .attached .. => .detached
      | a => a
    committed := true
    flush := none }

/-- A state in which a crew's exit has begun. -/
def State.leaveBegun (s : State) (ctx crew : Nat) : State :=
  (List.range 16).foldl (fun s i => s.groupTokens ctx crew i) ((s.drainAll ctx crew).modCrew ctx crew Crew.beginLeave)

theorem State.startLeave_eq (hk : s.crew? ctx crew = some k) :
    s.startLeave ctx crew = (s.leaveBegun ctx crew).postQ k.core ((s.leaveBegun ctx crew).now k.core) (.crewExitRelease ctx crew) := by
  unfold State.startLeave
  rw [hk]
  rfl

/-- A crew's exit begins: detached and drained, it waits for its flush (R304, R354). -/
theorem State.startLeave_spec (hk : s.crew? ctx crew = some k) :
    (s.startLeave ctx crew).CrewIs ctx crew Crew.Leaving ∧
      Awaits (s.startLeave ctx crew) k.core (s.now k.core) (.crewExitRelease ctx crew) := by
  have hdrained : (s.drainAll ctx crew).CrewIs ctx crew fun k => k.sbuf = [] :=
    State.CrewIs.drainAll (P := fun _ => True) ⟨k, hk, trivial⟩ (fun _ _ h => h) fun _ _ => rfl
  have hleaves := hdrained.change (Q := Crew.Leaving) (f := Crew.beginLeave) (fun _ => rfl) fun k hb =>
    ⟨rfl, rfl, hb, rfl, by unfold Crew.beginLeave; cases k.att <;> rfl⟩
  have htokens : ((s.drainAll ctx crew).modCrew ctx crew Crew.beginLeave).SameCrews (s.leaveBegun ctx crew) :=
    State.foldl_sameCrews (fun s i => s.sameCrews_groupTokens ctx crew i) (List.range 16) _
  have hnow : (s.leaveBegun ctx crew).now k.core = s.now k.core := by
    rw [htokens.now]
    change (((s.drainAll ctx crew).sch.quadClk)[quadOf k.core]?).getD 0 = _
    rw [s.drainAll_clk ctx crew]
    rfl
  rw [State.startLeave_eq hk]
  refine ⟨(hleaves.same htokens).same (State.posts_postQ ..).sameCrews, ?_⟩
  rw [← hnow]
  exact awaits_postQ ..

/-- R304: a held crew's exit begins once no peer holds it back. -/
theorem crewExitRelease_held (hk : s.crew? ctx crew = some k) (hst : k.st = .held) (hp : s.heldByPeers ctx k = false) :
    Runs (.crewExitRelease ctx crew) s fun t => ∃ k', t.crew? ctx crew = some k' ∧
      k'.st = .leaving ∧ k'.committed = true ∧ k'.sbuf = [] ∧ k'.flush = none ∧ k'.att.now? = false ∧
      Awaits t k.core (s.now k.core) (.crewExitRelease ctx crew) := by
  obtain ⟨hleaves, hawaits⟩ := State.startLeave_spec hk
  have hposts := State.posts_retryHeld (s.startLeave ctx crew) ctx k.gang
  obtain ⟨k', hk', hst', hcom, hsbuf, hflush, hatt⟩ := hleaves.same hposts.sameCrews
  exact ⟨_, exec_crewExitRelease_held hk hst hp, k', hk', hst', hcom, hsbuf, hflush, hatt, hawaits.posts hposts⟩

/-! ## Regions replaced one after the other -/

/-- Regions of a context replaced in turn: each region of a replaced one's base is a replacement, every other is as it was. -/
theorem State.regions_foldl {α : Type} {f : State → α → State} {old new : α → Region}
    (hb : ∀ x, (new x).base = (old x).base)
    (hf : ∀ (s : State) x, ((f s x).ctx ctx).regions = ((s.ctx ctx).setRegion (new x)).regions) (xs : List α) (s : State) :
    ∀ r ∈ ((xs.foldl f s).ctx ctx).regions, (∃ x ∈ xs, r = new x) ∨ (r ∈ (s.ctx ctx).regions ∧ ∀ x ∈ xs, (old x).base ≠ r.base) := by
  induction xs generalizing s with
  | nil => exact fun r hr => .inr ⟨hr, by simp⟩
  | cons x xs ih =>
    intro r hr
    rcases ih (f s x) r hr with ⟨y, hy, hry⟩ | ⟨hmem, hne⟩
    · exact .inl ⟨y, List.mem_cons_of_mem _ hy, hry⟩
    · rw [hf, Ctx.setRegion, List.mem_map] at hmem
      obtain ⟨q, hq, hqr⟩ := hmem
      by_cases h : q.base = (new x).base
      · rw [if_pos h] at hqr
        exact .inl ⟨x, List.mem_cons_self, hqr.symm⟩
      · rw [if_neg h] at hqr
        subst hqr
        refine .inr ⟨hq, fun y hy => ?_⟩
        rcases List.mem_cons.mp hy with rfl | hy
        · exact fun h' => h ((hb y).trans h').symm
        · exact hne y hy

/-- A region as a leaving crew's passes to its heir, LENT until the flush is over (R190, R191). -/
def State.leaveRegion (s : State) (ctx : Nat) (k : Crew) (r : Region) : Region :=
  { r with st := .lent, owner := heir ctx k.id (((s.leg? ctx k.leg).map (·.launcher)).getD noHolder) r, lender := noHolder, hcore := none }

/-- What a crew's exit lends on: nothing of the crews changes, and each region of an OWNED one's base goes to an heir. -/
theorem State.leaveLend_spec (s : State) {ctx : Nat} (hctx : ctx < 16) (k : Crew) : s.SameCrews (s.leaveLend ctx k) ∧
    ∀ r ∈ ((s.leaveLend ctx k).ctx ctx).regions,
      (∃ q ∈ (s.crewRegions ctx k.id).filter fun r => r.st == .owned, r = s.leaveRegion ctx k q) ∨
        ∀ q ∈ (s.crewRegions ctx k.id).filter fun r => r.st == .owned, q.base ≠ r.base := by
  refine ⟨State.foldl_sameCrews (fun t r => ?same) _ s, fun r hr => ?_⟩
  case same => exact (t.sameCrews_dropTok ctx r).trans (State.sameCrews_modCtx rfl rfl)
  refine (State.regions_foldl (old := id) (new := s.leaveRegion ctx k) (fun _ => rfl) (fun t q => ?step) _ s r hr).imp_right
    fun h => h.2
  case step =>
    rw [State.ctx_modCtx _ _ _ hctx, State.ctx_congr (t.onlyBytes_dropTok ctx q).ctxs]
    rfl

/-- R190, R191: a leaving crew's regions are flushed, its OWNED ones going to their heirs meanwhile. -/
theorem crewExitRelease_flushes (hk : s.crew? ctx crew = some k) (hst : k.st = .leaving) (hf : k.flush = none) {n : Nat} {u : State}
    (h : s.crewFlush ctx k = some (n, u)) :
    Runs (.crewExitRelease ctx crew) s fun t =>
      Awaits t k.core (s.now k.core + n) (.crewExitRelease ctx crew) ∧
      (∃ k' f, t.crew? ctx crew = some k' ∧ k'.st = .leaving ∧ k'.flush = some f ∧ f.core = k.core ∧ f.ends = s.now k.core + n) ∧
      let own (q : Region) : Prop := q ∈ (s.ctx ctx).regions ∧ ofCrew ctx crew q.owner = true ∧ q.st = .owned
      ∀ r ∈ (t.ctx ctx).regions, (∃ q, own q ∧ q.base = r.base) → r.st = .lent ∧ r.lender = noHolder ∧
        ∃ q, own q ∧ q.base = r.base ∧ r.owner = heir ctx crew (((s.leg? ctx k.leg).map (·.launcher)).getD noHolder) q := by
  have hid : k.id = crew := by simpa using List.find?_some hk
  have hflush := State.crewFlush_onlyBytes h
  obtain ⟨hsame, hregions⟩ := u.leaveLend_spec (State.crew_lt hk) k
  have hcrew : (u.leaveLend ctx k).CrewIs ctx crew fun q => q.st = .leaving :=
    State.CrewIs.same ⟨k, (State.crew_congr hflush.ctxs ctx crew).trans hk, hst⟩ hsame
  obtain ⟨k', hk', hst', hf'⟩ := hcrew.change (f := fun q => { q with flush := some (s.leaveFlushing ctx crew k n) })
    (Q := fun q => q.st = .leaving ∧ q.flush = some (s.leaveFlushing ctx crew k n)) (fun _ => rfl) fun _ hq => ⟨hq, rfl⟩
  refine ⟨_, exec_crewExitRelease_flushes hk hst hf h, awaits_postQ .., ⟨k', _, hk', hst', hf', rfl, rfl⟩, fun r hr hown => ?_⟩
  have hown' : ∀ q, q ∈ ((u.crewRegions ctx k.id).filter fun r => r.st == .owned) ↔
      q ∈ (s.ctx ctx).regions ∧ ofCrew ctx crew q.owner = true ∧ q.st = .owned := by
    intro q
    rw [State.crewRegions, State.ctx_congr hflush.ctxs, hid]
    simp [and_comm]
  have hr' : r ∈ ((u.leaveLend ctx k).ctx ctx).regions := by
    rw [← State.modCrew_regions _ ctx crew fun q => { q with flush := some (s.leaveFlushing ctx crew k n) }]
    exact hr
  rcases hregions r hr' with ⟨q, hq, rfl⟩ | hnone
  · refine ⟨rfl, rfl, q, (hown' q).mp hq, rfl, ?_⟩
    rw [State.leaveRegion, hid, State.leg?, State.ctx_congr hflush.ctxs]
    rfl
  · obtain ⟨q, hq, hb⟩ := hown
    exact absurd hb (hnone q ((hown' q).mpr hq))

/-! ## A crew that has left -/

theorem State.crew_filtered (s : State) (ctx crew : Nat) (x : Ctx → List Tag) :
    (s.modCtx ctx fun y => { y with crews := y.crews.filter fun q => q.id != crew, tags := x y }).crew? ctx crew = none := by
  by_cases hctx : ctx < 16
  · rw [State.crew?, State.ctx_modCtx _ _ _ hctx]
    simp
  · rw [State.crew?, State.ctx_of_le (by omega)]
    rfl

/-- A crew leaves its leg: the crews of every context stay (R326). -/
theorem State.leaveLeg_crew (s : State) (ctx leg n crew : Nat) : (s.leaveLeg ctx leg).crew? n crew = s.crew? n crew := by
  have hmod : (s.modLeg ctx leg fun l => { l with
      alive := l.alive - 1, exited := if l.status = 0 then l.exited + 1 else l.exited }).crew? n crew = s.crew? n crew := by
    rw [State.crew?, State.modLeg, State.ctx_modCtx_crews rfl]
    rfl
  unfold State.leaveLeg
  dsimp only
  split
  · split
    · exact hmod
    · exact hmod
  · exact hmod

theorem State.releaseCrew_crew (hk : s.crew? ctx crew = some k) : (s.releaseCrew ctx crew).crew? ctx crew = none := by
  unfold State.releaseCrew
  rw [hk]
  dsimp only
  rw [(State.sameCrews_retryAll _).crew, State.leaveLeg_crew, (State.onlyBytes_leaveTenant ..).sameCrews.crew]
  exact State.crew_filtered ..

/-- R191, R304: a crew whose flush is over has left. -/
theorem crewExitRelease_left (hk : s.crew? ctx crew = some k) (hst : k.st = .leaving) {f : Flushing} (hf : k.flush = some f)
    (he : f.ends ≤ s.now f.core) : Runs (.crewExitRelease ctx crew) s fun t => t.crew? ctx crew = none :=
  ⟨_, exec_crewExitRelease_left hk hst hf he,
    State.releaseCrew_crew (((s.sameCrews_settleLent ctx f.bases).crew ctx crew).trans hk)⟩

end

/-! ## A crew's start (R190, R321) -/

/-- What a crew that has started is, on the core that its place was on. -/
def Crew.Started (core : Nat) (k : Crew) : Prop := k.st = .resident ∧ k.core = core ∧ k.scratch = [] ∧ k.spill = []

section
variable {s : State} {ctx crew : Nat} {k : Crew} {l : Leg}

/-- R321: a crew with a place stands on its core, its scratchpad clear. -/
theorem State.startCrew_spec {t : State} (h : t.CrewIs ctx crew fun q => q.core = k.core) (hid : k.id = crew) (l : Leg) :
    (t.startCrew ctx k l).CrewIs ctx crew (Crew.Started k.core) := by
  subst hid
  unfold State.startCrew
  dsimp only
  refine State.CrewIs.same (State.CrewIs.crews ?_ (State.ctx_modCtx_crews rfl)) (State.onlyBytes_rail ..).sameCrews
  refine State.CrewIs.same ?_ ((State.sameCrews_startPins ..).trans (State.sameCrews_wakeRegions _))
  refine State.CrewIs.foldl (fun s x hs => ?_) _ ?_
  · exact State.CrewIs.modCrew (hs.same (State.onlyBytes_modCore ..).sameCrews) _ (fun _ => rfl) fun _ h => h
  · refine State.CrewIs.change (P := fun q => q.core = k.core) ?_ (fun _ => rfl) fun q hq => ⟨rfl, hq, rfl, rfl⟩
    exact (h.same (State.sameCrews_modCtx rfl rfl)).same (State.sameCrews_modCtx rfl rfl)

theorem exec_crewStart (hk : s.crew? ctx crew = some k) (hl : s.leg? ctx k.leg = some l) (hst : k.st = .waiting)
    (hres : ∃ r ∈ (s.ctx ctx).reservations, crew ∈ r.2) (hmay : s.mayStart ctx = true) :
    exec (.crewStart ctx crew) s = match k.flush with
      | some f =>
        if s.now f.core < f.ends then .refused (.notEnabled "CREW_START")
        else .next (((s.settleLent ctx f.bases).modCrew ctx crew fun k => { k with flush := none }).startCrew ctx k l)
      | none =>
        let ps := s.piecesFor ctx crew l k.rank
        let c := (s.holderCore l.launcher).getD k.core
        if ps.isEmpty then .next (s.startCrew ctx k l)
        else if s.grantWaits c ctx l.launcher (ps.map (·.2)) then
          .next ((s.grantCommit ctx l.launcher).postQ k.core (s.now k.core + 1) (.crewStart ctx crew))
        else
          let (n, s) := (s.grantCommit ctx l.launcher).lendPieces c ctx crew l ps
          let f : Flushing := ⟨c, s.now c + n, ps.map (·.2.base)⟩
          .next ((s.modCrew ctx crew fun k => { k with flush := some f }).postQ c f.ends (.crewStart ctx crew)) := by
  have hx : exec (.crewStart ctx crew) s = execCrewStart ctx crew s := rfl
  obtain ⟨r, hr, hcrew⟩ := hres
  have hany : (s.ctx ctx).reservations.any (fun r => r.2.contains crew) = true := List.any_eq_true.mpr ⟨r, hr, by simpa using hcrew⟩
  rw [hx, execCrewStart, hk]
  dsimp only
  rw [hl]
  dsimp only
  rw [hst, hany, hmay]
  simp only [bne_self_eq_false, Bool.not_true, Bool.false_and, Bool.or_self, Bool.false_eq_true, if_false] <;> rfl

/-- A crew starts, whether or not its pieces' flush had to be awaited. -/
theorem crewStart_starts {t : State} (hk : s.crew? ctx crew = some k) (h : t.CrewIs ctx crew fun q => q.core = k.core)
    (hx : exec (.crewStart ctx crew) s = .next (t.startCrew ctx k l)) :
    Runs (.crewStart ctx crew) s fun t => ∃ k', t.crew? ctx crew = some k' ∧ k'.st = .resident ∧ k'.core = k.core ∧
        k'.scratch = [] ∧ k'.spill = [] :=
  ⟨_, hx, State.startCrew_spec h (by simpa using List.find?_some hk) l⟩

/-- A starting crew's piece as it is lent to it (R190). -/
def lentTo (ctx crew : Nat) (launcher : Word) (r : Region) : Region :=
  { r with st := .lent, owner := holderId 1 ctx crew, lender := launcher, hcore := none }

/-- One piece lent to a starting crew. -/
def State.lendPiece (s : State) (c ctx crew : Nat) (l : Leg) (x : Nat × Region) : State :=
  (((s.dropTok ctx x.2).flushRegion c ctx x.2.base x.2.k false).modCtx ctx fun y => y.setRegion (lentTo ctx crew l.launcher x.2)).modCrew
    ctx crew fun q => { q with lentPiece := q.lentPiece.setIfInBounds x.1 (some x.2.base) }

theorem State.lendPieces_state (s : State) (c ctx crew : Nat) (l : Leg) (ps : List (Nat × Region)) :
    (s.lendPieces c ctx crew l ps).2 = ps.foldl (fun s x => s.lendPiece c ctx crew l x) s := by
  unfold State.lendPieces
  exact (List.foldl_hom (f := Prod.snd) (init := (0, s)) fun p x => rfl).symm

theorem State.lendPiece_regions {t : State} (hctx : ctx < 16) (c : Nat) (x : Nat × Region) :
    ((t.lendPiece c ctx crew l x).ctx ctx).regions = ((t.ctx ctx).setRegion (lentTo ctx crew l.launcher x.2)).regions := by
  have hbytes := (t.onlyBytes_dropTok ctx x.2).trans (State.onlyBytes_flushRegion _ c ctx x.2.base x.2.k false)
  rw [State.lendPiece, State.modCrew_regions, State.ctx_modCtx _ _ _ hctx,
    State.ctx_congr hbytes.ctxs]

theorem State.CrewIs.lendPiece {t : State} {P : Crew → Prop} (h : t.CrewIs ctx crew P) (c : Nat) (x : Nat × Region)
    (hP : ∀ q v, P q → P { q with lentPiece := v }) : (t.lendPiece c ctx crew l x).CrewIs ctx crew P := by
  have hbytes := (t.onlyBytes_dropTok ctx x.2).trans (State.onlyBytes_flushRegion _ c ctx x.2.base x.2.k false)
  exact ((h.same hbytes.sameCrews).same (State.sameCrews_modCtx rfl rfl)).change (fun _ => rfl) fun q hq => hP q _ hq

/-- R190: pieces that a launcher's core has in its caches are lent first, and flushed; the crew waits meanwhile. -/
theorem crewStart_lends (hk : s.crew? ctx crew = some k) (hl : s.leg? ctx k.leg = some l) (hst : k.st = .waiting)
    (hres : ∃ r ∈ (s.ctx ctx).reservations, crew ∈ r.2) (hmay : s.mayStart ctx = true) (hf : k.flush = none)
    (hps : s.piecesFor ctx crew l k.rank ≠ [])
    (hw : s.grantWaits ((s.holderCore l.launcher).getD k.core) ctx l.launcher ((s.piecesFor ctx crew l k.rank).map (·.2)) = false) :
    Runs (.crewStart ctx crew) s fun t =>
        ∃ k' f, t.crew? ctx crew = some k' ∧ k'.st = .waiting ∧ k'.flush = some f ∧
          f.core = (s.holderCore l.launcher).getD k.core ∧ f.bases = (s.piecesFor ctx crew l k.rank).map (·.2.base) ∧
          Awaits t ((s.holderCore l.launcher).getD k.core) f.ends (.crewStart ctx crew) ∧
          ∀ p ∈ s.piecesFor ctx crew l k.rank, ∀ r ∈ (t.ctx ctx).regions, r.base = p.2.base →
            r.st = .lent ∧ r.owner = holderId 1 ctx crew ∧ r.lender = l.launcher := by
  have hctx := State.crew_lt hk
  have hx := exec_crewStart hk hl hst hres hmay
  rw [hf] at hx
  dsimp only at hx
  rw [if_neg (by simpa using hps), hw, if_neg Bool.false_ne_true, State.lendPieces_state] at hx
  generalize s.piecesFor ctx crew l k.rank = ps at hx ⊢
  generalize (s.holderCore l.launcher).getD k.core = c at hx ⊢
  have hcom : (s.grantCommit ctx l.launcher).CrewIs ctx crew fun q => q.st = .waiting := by
    unfold State.grantCommit
    split
    · exact State.CrewIs.commit ⟨k, hk, hst⟩ _ _ fun _ h => h
    · exact ⟨k, hk, hst⟩
  have hlent := hcom.foldl (f := fun s x => s.lendPiece c ctx crew l x) (fun t x h => h.lendPiece c x fun _ _ h => h) ps
  obtain ⟨k', hk', hst', hf'⟩ := hlent.change (Q := fun q => q.st = .waiting ∧ q.flush = some _) (f := fun q => { q with flush := some _ })
    (fun _ => rfl) fun _ h => ⟨h, rfl⟩
  refine ⟨_, hx, k', _, hk', hst', hf', rfl, rfl, awaits_postQ .., fun p hp r hr hb => ?_⟩
  change r ∈ ((State.modCrew _ ctx crew _).ctx ctx).regions at hr
  rw [State.modCrew_regions] at hr
  rcases State.regions_foldl (old := fun x : Nat × Region => x.2) (new := fun x => lentTo ctx crew l.launcher x.2) (fun _ => rfl)
    (fun t x => State.lendPiece_regions hctx c x) ps _ r hr with ⟨x, -, rfl⟩ | ⟨-, hne⟩
  · exact ⟨rfl, rfl, rfl⟩
  · exact absurd hb.symm (hne p hp)

/-- R350: a rolled-back crew's gang is placed all at once. -/
theorem exec_crewRelaunch (hk : s.crew? ctx crew = some k) (hl : s.leg? ctx k.leg = some l) (hst : k.st = .relaunch)
    (hmay : s.mayStart ctx = true) {u : State}
    (hu : s.placeAll ctx l ((s.ctx ctx).crews.filter fun q => q.gang == k.gang && q.st == .relaunch)
      (fun s q => s.relaunchCores ctx l q) = some u) :
    exec (.crewRelaunch ctx crew) s = .next (u.startAll ctx ((s.ctx ctx).crews.filter fun q => q.gang == k.gang && q.st == .relaunch)) := by
  have hx : exec (.crewRelaunch ctx crew) s = execCrewRelaunch ctx crew s := rfl
  rw [hx, execCrewRelaunch, hk]
  dsimp only
  rw [hl]
  dsimp only
  rw [hst, hmay, if_neg (by decide), hu]

end

/-! ## A crew that is saved (R193, R329) -/

section
variable {s : State} {ctx crew : Nat} {k : Crew} {l : Leg} {i : Nat}

theorem exec_crewSave (hk : s.crew? ctx crew = some k) (hst : k.st = .suspending) (hready : s.saveReady ctx k = true)
    (hi : s.freeSave ctx = some i) (hl : s.leg? ctx k.leg = some l) :
    exec (.crewSave ctx crew) s = match k.flush with
      | some f =>
        if s.now f.core < f.ends then .next (s.postQ f.core f.ends (.crewSave ctx crew))
        else .next ((s.modCrew ctx crew fun q => { q with flush := none }).saveCrew ctx i k l)
      | none => match s.crewFlush ctx k with
        | none => .next (s.postQ k.core (s.now k.core + 1) (.crewSave ctx crew))
        | some (n, t) =>
          if n = 0 then .next (t.saveCrew ctx i k l)
          else .next ((t.modCrew ctx crew fun q => { q with flush := some ⟨k.core, s.now k.core + n, []⟩ }).postQ k.core (s.now k.core + n)
            (.crewSave ctx crew)) := by
  have hx : exec (.crewSave ctx crew) s = execCrewSave ctx crew s := rfl
  rw [hx, execCrewSave, hk]
  dsimp only
  rw [hst, hready, if_neg (by decide), if_neg (by decide), hi, hl] <;> rfl

theorem exec_crewSave_waits (hk : s.crew? ctx crew = some k) (hst : k.st = .suspending) (hready : s.saveReady ctx k = false) :
    exec (.crewSave ctx crew) s = .next (s.postQ k.core (s.now k.core + 1) (.crewSave ctx crew)) := by
  have hx : exec (.crewSave ctx crew) s = execCrewSave ctx crew s := rfl
  rw [hx, execCrewSave, hk]
  dsimp only
  rw [hst, hready, if_neg (by decide), if_pos (by decide)]

theorem State.onlyBytes_dropOp (s : State) (c id : Nat) : s.OnlyBytes (s.dropOp c id) := ⟨rfl, rfl⟩

theorem State.onlyBytes_setGroup (s : State) (c g : Nat) (G : Option Group) : s.OnlyBytes (s.setGroup c g G) := ⟨rfl, rfl⟩

theorem State.onlyBytes_emptySlot (s : State) (c g : Nat) : s.OnlyBytes ((s.setGroup c g none).unstall c g) :=
  (s.onlyBytes_setGroup c g none).trans (State.onlyBytes_unstall (s.setGroup c g none) c g)

/-- Operations of a core dropped. -/
def State.dropOps (s : State) (c : Nat) (os : List Op) : State := os.foldl (fun s o => s.dropOp c o.id) s

theorem State.onlyBytes_dropOps (s : State) (c : Nat) (os : List Op) : s.OnlyBytes (s.dropOps c os) := by
  unfold State.dropOps
  exact State.foldl_onlyBytes (α := Op) (f := fun s o => s.dropOp c o.id) (fun s o => s.onlyBytes_dropOp c o.id) os s

/-- Group slots of a core emptied. -/
def State.emptySlots (s : State) (c : Nat) (slots : List Nat) : State := slots.foldl (fun s g => (s.setGroup c g none).unstall c g) s

theorem State.onlyBytes_emptySlots (s : State) (c : Nat) (slots : List Nat) : s.OnlyBytes (s.emptySlots c slots) := by
  unfold State.emptySlots
  exact State.foldl_onlyBytes (f := fun s g => (s.setGroup c g none).unstall c g) (fun s g => s.onlyBytes_emptySlot c g) slots s

/-- The issue slot changed. -/
theorem State.onlyBytes_modIssue (s : State) (f : Sched → Sched) (hf : ∀ h, (f h).quadClk = h.quadClk) : s.OnlyBytes (s.modSch f) :=
  ⟨rfl, hf _⟩

/-- A crew's groups taken from its core: the crews stay but for the slots of this one. -/
theorem State.dropGroups_eq (hk : s.crew? ctx crew = some k) : ∃ t, s.SameCrews t ∧
    s.dropGroups ctx crew = t.modCrew ctx crew fun q => { q with slots := Vector.replicate 16 none } := by
  have hx : ∃ os slots f, (∀ h : Sched, (f h).quadClk = h.quadClk) ∧ s.dropGroups ctx crew =
      ((((((s.dropOps k.core os).emptySlots k.core slots).modSch f).cancelEngines k.core ctx crew slots).cancelTasks k.core ctx
        crew).modCrew ctx crew fun q => { q with slots := Vector.replicate 16 none }) := by
    unfold State.dropGroups
    rw [hk]
    refine ⟨_, _, _, fun h => ?_, rfl⟩
    split
    · split <;> rfl
    · rfl
  obtain ⟨os, slots, f, hf, hx⟩ := hx
  refine ⟨_, ?_, hx⟩
  have hbytes := ((s.onlyBytes_dropOps k.core os).trans (State.onlyBytes_emptySlots _ k.core slots)).trans
    (State.onlyBytes_modIssue _ f hf)
  exact (hbytes.sameCrews.trans (State.sameCrews_cancelEngines _ k.core ctx crew slots)).trans (State.sameCrews_modCore _ k.core _)

theorem State.CrewIs.dropGroups {P : Crew → Prop} (h : s.CrewIs ctx crew P) (hP : ∀ q v, P q → P { q with slots := v }) :
    (s.dropGroups ctx crew).CrewIs ctx crew P := by
  obtain ⟨k, hk, hp⟩ := h
  obtain ⟨t, ht, hd⟩ := State.dropGroups_eq hk
  rw [hd]
  exact (State.CrewIs.same ⟨k, hk, hp⟩ ht).change (fun _ => rfl) fun q hq => hP q _ hq

/-- Contexts without a crew may have gone idle: STATE and PREEMPT read 0, no deadline runs; nothing else of any context changes (R371). -/
structure State.Settles (s t : State) : Prop where
  ctx : ∀ n, t.ctx n = { s.ctx n with
    regs := { (s.ctx n).regs with state := (t.ctx n).regs.state, preempt := (t.ctx n).regs.preempt }, deadlines := (t.ctx n).deadlines }
  state : ∀ n, (s.ctx n).regs.state = 0 → (t.ctx n).regs.state = 0
  preempt : ∀ n, (s.ctx n).regs.preempt = false → (t.ctx n).regs.preempt = false

theorem State.Settles.of_ctxs {s t : State} (h : t.ctxs = s.ctxs) : s.Settles t :=
  ⟨fun n => by rw [State.ctx_congr h], fun n hn => by rwa [State.ctx_congr h], fun n hn => by rwa [State.ctx_congr h]⟩

theorem State.Settles.trans {s t u : State} (a : s.Settles t) (b : t.Settles u) : s.Settles u := by
  refine ⟨fun n => ?_, fun n h => b.state n (a.state n h), fun n h => b.preempt n (a.preempt n h)⟩
  have h := b.ctx n
  rw [a.ctx n] at h
  exact h

theorem State.settles_settleIdle (s : State) (n : Nat) : s.Settles (s.settleIdle n) := by
  unfold State.settleIdle
  dsimp only
  split
  · exact .of_ctxs rfl
  · have key : ∀ m, let y := { s.ctx m with
        regs := { (s.ctx m).regs with state := 0, preempt := false }, deadlines := [] }
        (s.modCtx n fun x => { x with regs := { x.regs with state := 0, preempt := false }, deadlines := [] }).ctx m = s.ctx m ∨
          (s.modCtx n fun x => { x with regs := { x.regs with state := 0, preempt := false }, deadlines := [] }).ctx m = y := by
      intro m
      by_cases hm : m = n ∧ m < 16
      · obtain ⟨rfl, hm⟩ := hm
        exact .inr (State.ctx_modCtx _ _ _ hm)
      · by_cases hl : m < 16
        · exact .inl (State.ctx_modCtx_ne _ _ _ _ fun h => hm ⟨h, hl⟩)
        · exact .inl (by rw [State.ctx_of_le (by omega), State.ctx_of_le (by omega)])
    refine ⟨fun m => ?_, fun m h => ?_, fun m h => ?_⟩
    · rcases key m with h | h <;> rw [h]
    · rcases key m with h' | h' <;> rw [h']
      exact h
    · rcases key m with h' | h' <;> rw [h']
      exact h

theorem State.settles_retryAll (s : State) : s.Settles s.retryAll := by
  unfold State.retryAll
  generalize List.range 16 = ns
  refine List.foldlRecOn (motive := fun t : State => s.Settles t) ns _ (.of_ctxs rfl) fun t ht n _ => ht.trans ?_
  split
  · exact .of_ctxs rfl
  · exact (t.settles_settleIdle n).trans (.of_ctxs (State.posts_retryGangs _ n).onlyBytes.ctxs)

/-- What the registers of a context say of a suspension that has succeeded into a slot. -/
def Ctx.SavedIn (i : Nat) (x : Ctx) : Prop := x.regs.ctlarg = BitVec.ofNat 32 i ∧ x.regs.cbusy = false ∧ x.regs.cfail = false

theorem Ctx.SavedIn.settles {s t : State} {n : Nat} (h : Ctx.SavedIn i (s.ctx n)) (hs : s.Settles t) : Ctx.SavedIn i (t.ctx n) := by
  rw [hs.ctx n]
  exact h

/-- A crew whose image is in its slot, taken from its core. -/
def State.savedOff (s : State) (ctx i : Nat) (k : Crew) (img : SlotImage) : State :=
  ((((s.suspendTokens ctx k.id).writeSlot ctx i img).dropGroups ctx k.id).releaseArray k.core ctx k.id)

theorem State.savedOff_crew {t : State} (h : t.CrewIs ctx k.id fun _ => True) (img : SlotImage) :
    (t.savedOff ctx i k img).CrewIs ctx k.id fun _ => True := by
  have htokens := h.same (t.sameCrews_suspendTokens ctx k.id)
  have hslot : ((t.suspendTokens ctx k.id).writeSlot ctx i img).CrewIs ctx k.id fun _ => True :=
    htokens.same ⟨fun _ => rfl, fun _ => rfl, rfl⟩
  exact (hslot.dropGroups fun _ _ _ => trivial).same (State.onlyBytes_releaseArray ..).sameCrews

/-- R329: the crew stands on no core, its slot is told. -/
theorem State.saveCrew_spec {t : State} (hctx : ctx < 16) (h : t.CrewIs ctx crew fun _ => True) (hid : k.id = crew) (l : Leg) :
    Ctx.SavedIn i ((t.saveCrew ctx i k l).ctx ctx) ∧ (t.saveCrew ctx i k l).CrewIs ctx crew fun q => q.st = .suspended i := by
  subst hid
  have hoff := State.savedOff_crew (i := i) h (t.slotImage ctx k l)
  have hx : ∃ kept, t.saveCrew ctx i k l = ((((t.savedOff ctx i k (t.slotImage ctx k l)).modCrew ctx k.id fun q =>
      { q with st := .suspended i, core := 768, slots := Vector.replicate 16 none, base := 0, scratch := [], spill := [],
               kept := kept }).modCtx ctx fun x => { x with
        regs := { x.regs with ctlarg := BitVec.ofNat 32 i, cbusy := false, cfail := false } }).leaveTenant k.core ctx).retryAll :=
    ⟨_, rfl⟩
  obtain ⟨kept, hx⟩ := hx
  generalize t.savedOff ctx i k (t.slotImage ctx k l) = u at hoff hx
  rw [hx]
  refine ⟨Ctx.SavedIn.settles ?_ (State.settles_retryAll _), ?_⟩
  · rw [State.ctx_congr (State.onlyBytes_leaveTenant ..).ctxs, State.ctx_modCtx _ _ _ hctx]
    exact ⟨rfl, rfl, rfl⟩
  · refine State.CrewIs.same ?_ (State.sameCrews_retryAll _)
    refine State.CrewIs.same (State.CrewIs.crews ?_ (State.ctx_modCtx_crews rfl)) (State.onlyBytes_leaveTenant ..).sameCrews
    exact hoff.change (fun _ => rfl) fun _ _ => rfl

/-- A suspension that has nothing more to wait for. -/
theorem crewSave_saved {t : State} (hk : s.crew? ctx crew = some k) (h : t.CrewIs ctx crew fun _ => True)
    (hx : exec (.crewSave ctx crew) s = .next (t.saveCrew ctx i k l)) :
    Runs (.crewSave ctx crew) s fun t => (t.ctx ctx).regs.ctlarg = BitVec.ofNat 32 i ∧ (t.ctx ctx).regs.cbusy = false ∧
        (t.ctx ctx).regs.cfail = false ∧ ∃ k', t.crew? ctx crew = some k' ∧ k'.st = .suspended i := by
  obtain ⟨⟨harg, hbusy, hfail⟩, hcrew⟩ := State.saveCrew_spec (i := i) (State.crew_lt hk) h (by simpa using List.find?_some hk) l
  exact ⟨_, hx, harg, hbusy, hfail, hcrew⟩

theorem crewSave_flushed (hk : s.crew? ctx crew = some k) (hst : k.st = .suspending) (hready : s.saveReady ctx k = true)
    (hi : s.freeSave ctx = some i) (hl : s.leg? ctx k.leg = some l) {f : Flushing} (hf : k.flush = some f) (he : f.ends ≤ s.now f.core) :
    exec (.crewSave ctx crew) s = .next ((s.modCrew ctx crew fun q => { q with flush := none }).saveCrew ctx i k l) := by
  rw [exec_crewSave hk hst hready hi hl, hf]
  dsimp only
  rw [if_neg (Nat.not_lt.mpr he)]

/-- A suspending crew whose regions have lines to flush waits for them. -/
theorem crewSave_flushes (hk : s.crew? ctx crew = some k) (hst : k.st = .suspending) (hready : s.saveReady ctx k = true)
    (hi : s.freeSave ctx = some i) (hl : s.leg? ctx k.leg = some l) (hf : k.flush = none) {n : Nat} {u : State}
    (h : s.crewFlush ctx k = some (n + 1, u)) :
    Runs (.crewSave ctx crew) s fun t => Awaits t k.core (s.now k.core + n + 1) (.crewSave ctx crew) ∧
        ∃ k' f, t.crew? ctx crew = some k' ∧ k'.st = .suspending ∧ k'.flush = some f ∧ f.core = k.core ∧ f.ends = s.now k.core + n + 1 := by
  have hx := exec_crewSave hk hst hready hi hl
  rw [hf, h] at hx
  dsimp only at hx
  rw [if_neg (Nat.succ_ne_zero n)] at hx
  have hcrew : u.CrewIs ctx crew fun q => q.st = .suspending :=
    ⟨k, (State.crew_congr (State.crewFlush_onlyBytes h).ctxs ctx crew).trans hk, hst⟩
  obtain ⟨k', hk', hst', hf'⟩ := hcrew.change (f := fun q => { q with flush := some ⟨k.core, s.now k.core + (n + 1), []⟩ })
    (Q := fun q => q.st = .suspending ∧ q.flush = some ⟨k.core, s.now k.core + (n + 1), []⟩) (fun _ => rfl) fun _ h => ⟨h, rfl⟩
  exact ⟨_, hx, awaits_postQ .., k', _, hk', hst', hf', rfl, rfl⟩

end

end Sys2Proof.Machine
end

section
/-! SUPPORT. Legs, resets and quiesce points (R113, R322 to R328), and the settling of O48. -/

namespace Sys2Proof.Machine

open Sys2Proof

/-! ## Legs (R322 to R326) -/

section
variable {s : State} {ctx i : Nat} {l : Leg}

/-- The state in which an admitted leg's record is checked: the leg has left its queue, its record and deal table have been walked to. -/
def State.admitting (s : State) (ctx i : Nat) (l : Leg) : State :=
  let s1 := (s.modCtx ctx fun x => { x with queue := x.queue.eraseIdx i }).markWalks ctx l.lr.addr 512
  match l.lr.deal with
  | some p => s1.markDeal ctx l.launcher p
  | none => s1

theorem exec_legAdmission (hi : (s.ctx ctx).queue[i]? = some l) (hp : l.pending = 0)
    (hfirst : ∀ j, j < i → ∀ m, (s.ctx ctx).queue[j]? = some m → m.pending ≠ 0) (hmay : s.mayStart ctx = true)
    (hf : ∀ f, l.flush = some f → f.ends ≤ s.now f.core) :
    exec (.legAdmission ctx) s = match (s.admitting ctx i l).admitLeg ctx { l with flush := none } with
      | some u => .next (s.admitAfterFlush ctx i l (u.wakeRegions.postNow (.legAdmission ctx)))
      | none => .next ((((s.admitting ctx i l).finishLeg ctx { l with flush := none } 2).wakeRegions).postNow (.legAdmission ctx)) := by
  have hfind : (s.ctx ctx).queue.findIdx? (fun l => l.pending == 0) = some i := by
    obtain ⟨hlt, hget⟩ := List.getElem?_eq_some_iff.mp hi
    rw [List.findIdx?_eq_some_iff_getElem]
    refine ⟨hlt, by simp [hget, hp], fun j hj => ?_⟩
    simpa using hfirst j hj _ (List.getElem?_eq_getElem (by omega))
  have hflush : (l.flush.any fun f => decide (s.now f.core < f.ends)) = false := by
    cases h : l.flush with
    | none => rfl
    | some f => simpa using hf f h
  have hx : exec (.legAdmission ctx) s = execLegAdmission ctx s := rfl
  rw [hx, execLegAdmission, hfind]
  dsimp only
  rw [hi]
  dsimp only
  rw [hmay, hflush, if_neg (by decide)] <;> rfl

/-- A leg without a launcher's core, or whose flush is over, is admitted at once. -/
theorem State.admitAfterFlush_done {done : State} (h : l.flush.isSome = true ∨ s.holderCore l.launcher = none) :
    s.admitAfterFlush ctx i l done = done := by
  unfold State.admitAfterFlush
  split
  · next hc _ =>
    rcases h with h | h
    · rw [if_pos h]
    · rw [h] at hc
      exact absurd hc (by simp)
  · rfl

theorem State.admitAfterFlush_eq {done : State} {c : Nat} {r : LRec} (hf : l.flush = none) (hc : s.holderCore l.launcher = some c)
    (hr : s.launchRecord ctx l.launcher l.lr.addr = some r) :
    s.admitAfterFlush ctx i l done =
      if r.grants.any fun g => s.homingIn ctx (Ptr.local g.ptr) g.k then s.postQ c (s.now c + 1) (.legAdmission ctx)
      else if (s.grantRegions ctx r).isEmpty then done
      else if s.grantWaits c ctx l.launcher ((s.grantRegions ctx r).map (·.1)) then
        (s.grantCommit ctx l.launcher).postQ c ((s.grantCommit ctx l.launcher).now c + 1) (.legAdmission ctx)
      else
        ((((s.grantCommit ctx l.launcher).flushAll c ctx (s.grantRegions ctx r)).2.modQueued ctx i fun q => { q with
          flush := some ⟨c, ((s.grantCommit ctx l.launcher).flushAll c ctx (s.grantRegions ctx r)).2.now c +
            ((s.grantCommit ctx l.launcher).flushAll c ctx (s.grantRegions ctx r)).1, (s.grantRegions ctx r).map (·.1.base)⟩ }).postQ c
          (((s.grantCommit ctx l.launcher).flushAll c ctx (s.grantRegions ctx r)).2.now c +
            ((s.grantCommit ctx l.launcher).flushAll c ctx (s.grantRegions ctx r)).1) (.legAdmission ctx)) := by
  unfold State.admitAfterFlush
  rw [hc, hr]
  dsimp only
  rw [hf, if_neg (by decide)]

theorem State.commit_now (s : State) (ctx crew : Nat) (reason : BitVec 4) (c : Nat) : (s.commit ctx crew reason).now c = s.now c := by
  unfold State.commit
  split
  · rfl
  · dsimp only
    split
    · rfl
    · split <;> rfl

theorem State.grantCommit_now (s : State) (ctx : Nat) (h : Word) (c : Nat) : (s.grantCommit ctx h).now c = s.now c := by
  unfold State.grantCommit
  split
  · exact s.commit_now ..
  · rfl

/-- R325: a waiting gang without a place, which nothing goes ahead of, is placed all at once. -/
theorem exec_gangReservation {gang : Nat} {k : Crew} {ms : List Crew}
    (hms : (s.ctx ctx).crews.filter (fun q => q.gang == gang && q.st == .waiting) = k :: ms) (hl : s.leg? ctx k.leg = some l)
    (hmay : s.mayStart ctx = true) (hres : ∀ r ∈ (s.ctx ctx).reservations, r.1 ≠ gang)
    (hq : ∀ q ∈ (s.ctx ctx).crews, q.st ≠ .relaunch ∧ (q.leg = k.leg → q.st = .waiting → q.gang ≠ gang → q.dealt = none)) {u : State}
    (hu : s.placeAll ctx l (k :: ms) (fun s q => s.startCores ctx l q) = some u) :
    exec (.gangReservation ctx gang) s = .next (u.startAll ctx (k :: ms)) := by
  have hx : exec (.gangReservation ctx gang) s = execGangReservation ctx gang s := rfl
  have hany : ((s.ctx ctx).reservations.any fun r => r.1 == gang) = false := List.any_eq_false.mpr fun r hr => by simpa using hres r hr
  rw [hx, execGangReservation]
  dsimp only
  rw [hms, List.head?_cons]
  dsimp only
  rw [hl]
  dsimp only
  rw [hmay, hany, if_neg ?_, hu]
  rw [Bool.not_true, Bool.false_or, Bool.false_or, Bool.not_eq_true, List.any_eq_false]
  intro q hmem
  obtain ⟨hst, hdealt⟩ := hq q hmem
  by_cases h : q.leg = k.leg ∧ q.st = .waiting ∧ q.gang ≠ gang
  · simp [hst, hdealt h.1 h.2.1 h.2.2]
  · simp only [not_and] at h
    simp only [Bool.or_eq_true, Bool.and_eq_true, beq_iff_eq, bne_iff_ne]
    rintro (h' | ⟨⟨⟨⟨⟨h1, h2⟩, h3⟩, -⟩, -⟩, -⟩)
    · exact hst h'
    · exact h h1 h2 h3

/-! ## A leg that completes (R326) -/

/-- The legs of every context are as they were. -/
structure State.SameLegs (s t : State) : Prop where
  legs : ∀ n, (t.ctx n).legs = (s.ctx n).legs

theorem State.SameLegs.refl (s : State) : s.SameLegs s := ⟨fun _ => rfl⟩

theorem State.SameLegs.trans {s t u : State} (a : s.SameLegs t) (b : t.SameLegs u) : s.SameLegs u :=
  ⟨fun n => (b.legs n).trans (a.legs n)⟩

theorem State.SameLegs.of_ctxs {s t : State} (h : t.ctxs = s.ctxs) : s.SameLegs t := ⟨fun n => by rw [State.ctx_congr h]⟩

theorem State.SameLegs.posts {s t u : State} (h : s.SameLegs t) (hp : t.Posts u) : s.SameLegs u := h.trans (.of_ctxs hp.onlyBytes.ctxs)

theorem State.sameLegs_modCtx (s : State) (n : Nat) {f : Ctx → Ctx} (hf : ∀ x, (f x).legs = x.legs) : s.SameLegs (s.modCtx n f) :=
  ⟨State.ctx_modCtx_legs (hf _)⟩

theorem State.markWalks_ctxs (s : State) (ctx : Nat) (p : Ptr) (n : Nat) : (s.markWalks ctx p n).ctxs = s.ctxs := by
  have hmark : ∀ (t : State) va, (t.walkMark ctx va).2.ctxs = t.ctxs := fun t va => (t.steady_walkMark ctx va).ctxs
  unfold State.markWalks
  obtain ⟨mark, hm⟩ : ∃ f, State.walkMark = f := ⟨_, rfl⟩
  rw [hm] at hmark ⊢
  split
  · rfl
  · dsimp only
    exact List.foldlRecOn (motive := fun t : State => t.ctxs = s.ctxs) _ _ rfl fun t ht i _ => (hmark t _).trans ht

theorem State.onlyBytes_homeWriteAt (s : State) (pa : Nat) (bs : List Byte) : s.OnlyBytes (s.homeWriteAt pa bs) := s.onlyBytes_homeWrite _

/-- A word written at home, and into a line that its writer's core holds, leaves the contexts. -/
theorem State.lineWrite_ctxs (s : State) (launcher : Word) (ctx va pa : Nat) (bs : List Byte) :
    (match s.holderCore launcher with
      | none => s
      | some c => match s.l1? c pa with
        | none => s
        | some l => if l.dirty then s.l1Write c ctx va pa bs else s.setL1 c ((s.core c).caches.l1.filter fun m => m.pa != l.pa)).ctxs =
      s.ctxs := by
  split
  · rfl
  · split
    · rfl
    · split
      · exact (State.onlyBytes_l1Write ..).ctxs
      · rfl

theorem State.launcherWrite_ctxs {t : State} {launcher : Word} {p : Ptr} {x : Word} (h : s.launcherWrite ctx launcher p x = some t) :
    t.ctxs = s.ctxs := by
  have hline := fun pa => State.lineWrite_ctxs (s.homeWriteAt pa (leBytes 4 x.toNat)) launcher ctx (Ptr.local p) pa (leBytes 4 x.toNat)
  have hhome := fun pa => (s.onlyBytes_homeWriteAt pa (leBytes 4 x.toNat)).ctxs
  unfold State.launcherWrite at h
  obtain ⟨walk, hwalk⟩ : ∃ f, s.walk ctx = f := ⟨_, rfl⟩
  rw [hwalk] at h
  dsimp only at h
  split at h
  · exact absurd h (by simp)
  split at h
  · rw [← Option.some.inj h]
    rfl
  split at h
  · exact absurd h (by simp)
  split at h
  · split at h
    · exact absurd h (by simp)
    · rw [← Option.some.inj h]
      exact (hline _).trans (hhome _)
  · split at h
    · exact absurd h (by simp)
    · rw [← Option.some.inj h]
      exact (hline _).trans (hhome _)

theorem State.sameLegs_record (s : State) (ctx : Nat) (w0 pc : Word) (unit : BitVec 16) (slot : Nat) (id : Word) (p : Ptr) (kind : Nat) :
    s.SameLegs (s.record ctx w0 pc unit slot id p kind) := by
  rw [State.record_eq]
  refine State.SameLegs.posts ?_ (State.posts_postNow ..)
  exact State.sameLegs_modCtx _ _ fun _ => rfl

theorem State.sameLegs_writeDone (s : State) (ctx : Nat) (l : Leg) (st : BitVec 4) (n : Nat) : s.SameLegs (s.writeDone ctx l st n) := by
  unfold State.writeDone
  split
  · exact .refl s
  · split
    · next h => exact .of_ctxs ((State.launcherWrite_ctxs h).trans (State.markWalks_ctxs ..))
    · exact s.sameLegs_record ..

/-- HEAD of an armed ring stepped on by any way of walking: `State.stepHead` is the case of the device's walk (R294). -/
def State.stepHeadBy (mark : State → Nat → Nat → Walked × State) : Nat → State → Nat → Tag → State
  | 0, s, _, _ => s
  | n + 1, s, ctx, t => match mark s ctx (Ptr.local t.ring) with
    | (.fault .., s) => s
    | (.ok e, s) =>
      if e.h then s
      else
      let pa := e.phys (Ptr.local t.ring)
      let h := s.mem.readWord pa
      if t.done.contains h.toNat then
        let t := { t with done := t.done.filter (· != h.toNat) }
        let s := s.homeWriteAt pa (leBytes 4 (h + 1).toNat)
        let s := s.modCtx ctx fun x => { x with tags := x.tags.map fun u => if u.tag = t.tag then t else u }
        State.stepHeadBy mark n s ctx t
      else s

/-- The walk is made a variable before the two are compared: the kernel would evaluate it. -/
theorem State.stepHead_eq : State.stepHead = State.stepHeadBy State.walkMark := by
  delta State.stepHead State.stepHead._f
  obtain ⟨mark, hmark⟩ : ∃ f, State.walkMark = f := ⟨_, rfl⟩
  rw [hmark]
  funext n s ctx t
  induction n generalizing s t with
  | zero => rfl
  | succ n ih =>
    unfold State.stepHeadBy
    dsimp only [Nat.brecOn]
    generalize mark s ctx (Ptr.local t.ring) = w
    obtain ⟨w, u⟩ := w
    cases w with
    | fault k p => rfl
    | ok e =>
      dsimp only
      split
      · rfl
      · split
        · exact ih _ _
        · rfl

theorem State.sameLegs_stepHead (n : Nat) (s : State) (ctx : Nat) (t : Tag) : s.SameLegs (State.stepHead n s ctx t) := by
  have hmark : ∀ (s : State) ctx va, (s.walkMark ctx va).2.ctxs = s.ctxs := fun s ctx va => (s.steady_walkMark ctx va).ctxs
  obtain ⟨mark, hm⟩ : ∃ f, State.walkMark = f := ⟨_, rfl⟩
  rw [State.stepHead_eq, hm]
  rw [hm] at hmark
  induction n generalizing s t with
  | zero => exact .refl s
  | succ n ih =>
    have hs := hmark s ctx (Ptr.local t.ring)
    unfold State.stepHeadBy
    generalize mark s ctx (Ptr.local t.ring) = w at hs ⊢
    obtain ⟨w, u⟩ := w
    cases w with
    | fault k p => exact .of_ctxs hs
    | ok e =>
      dsimp only
      split
      · exact .of_ctxs hs
      · split
        · refine State.SameLegs.trans ?_ (ih _ _)
          exact State.SameLegs.trans (t := u.homeWriteAt (e.phys (Ptr.local t.ring))
            (leBytes 4 (u.mem.readWord (e.phys (Ptr.local t.ring)) + 1).toNat))
            (.of_ctxs ((State.onlyBytes_homeWriteAt ..).ctxs.trans hs)) (State.sameLegs_modCtx _ _ fun _ => rfl)
        · exact .of_ctxs hs

theorem State.sameLegs_ringDone (s : State) (ctx : Nat) (e : Option (BitVec 16 × Nat)) : s.SameLegs (s.ringDone ctx e) := by
  unfold State.ringDone
  split
  · exact .refl s
  · split
    · exact .refl s
    · refine State.SameLegs.trans ?_ (State.sameLegs_stepHead ..)
      exact State.sameLegs_modCtx _ _ fun _ => rfl

theorem State.sameLegs_nextEdge (n : Nat) (s : State) (ctx : Nat) (p : Option Ptr) (st : BitVec 4) :
    s.SameLegs (State.nextEdge n s ctx p st) := by
  induction n generalizing s p st with
  | zero => exact .refl s
  | succ n ih =>
    cases p with
    | none => exact .refl s
    | some p =>
      unfold State.nextEdge
      dsimp only
      split
      · exact .refl s
      · split
        · exact .refl s
        · split
          · refine State.SameLegs.posts ?_ (State.posts_postNow ..)
            exact State.sameLegs_modCtx _ _ fun _ => rfl
          · refine State.SameLegs.trans ?_ (ih _ _ _)
            refine State.SameLegs.trans ?_ ((State.sameLegs_writeDone ..).trans (State.sameLegs_ringDone ..))
            exact State.sameLegs_modCtx _ _ fun _ => rfl

theorem State.sameLegs_finishLeg (s : State) (ctx : Nat) (l : Leg) (st : BitVec 4) : s.SameLegs (s.finishLeg ctx l st) :=
  ((State.sameLegs_writeDone ..).trans (State.sameLegs_ringDone ..)).trans (State.sameLegs_nextEdge ..)

theorem State.leg_removed (s : State) (ctx leg : Nat) :
    (s.modCtx ctx fun x => { x with legs := x.legs.filter fun k => k.id != leg }).leg? ctx leg = none := by
  by_cases hctx : ctx < 16
  · rw [State.leg?, State.ctx_modCtx _ _ _ hctx]
    simp
  · rw [State.leg?, State.ctx_of_le (by omega)]
    rfl

theorem exec_legComplete {leg : Nat} (hl : s.leg? ctx leg = some l) (ha : l.alive = 0) :
    exec (.legComplete ctx leg) s = if s.returnWaits ctx l then
        .next (s.postQ ((s.holderCore l.launcher).getD 0) (s.now ((s.holderCore l.launcher).getD 0) + 1) (.legComplete ctx leg))
      else .next ((((s.returnGrants ctx l).modCtx ctx fun x => { x with legs := x.legs.filter fun k => k.id != leg }).finishLeg ctx l
        (if l.status = 0 then 1 else l.status)).wakeRegions.retryAll.postNow (.legAdmission ctx)) := by
  have hx : exec (.legComplete ctx leg) s = execLegComplete ctx leg s := rfl
  rw [hx, execLegComplete, hl]
  dsimp only
  rw [ha, if_neg (by decide)]

/-- A leg whose crews have ended completes, and is no more. -/
theorem legComplete_runs {leg : Nat} (hl : s.leg? ctx leg = some l) (ha : l.alive = 0) (hw : s.returnWaits ctx l = false) :
    Runs (.legComplete ctx leg) s fun t => t.leg? ctx leg = none := by
  have hx := exec_legComplete hl ha
  rw [hw, if_neg Bool.false_ne_true] at hx
  refine ⟨_, hx, ?_⟩
  dsimp only
  rw [(State.posts_postNow ..).sameCrews.leg, (State.sameCrews_retryAll _).leg, (State.sameCrews_wakeRegions _).leg, State.leg?,
    (State.sameLegs_finishLeg ..).legs]
  exact State.leg_removed ..

theorem legComplete_waits {leg : Nat} (hl : s.leg? ctx leg = some l) (ha : l.alive = 0) (hw : s.returnWaits ctx l = true) :
    ∃ c, exec (.legComplete ctx leg) s = .next (s.postQ c (s.now c + 1) (.legComplete ctx leg)) := by
  have hx := exec_legComplete hl ha
  rw [hw, if_pos rfl] at hx
  exact ⟨_, hx⟩

end

/-! ## A pre-emption that a crew outlasts (R327, R328) -/

/-- A context after its reset. -/
def Ctx.Cleared (x : Ctx) : Prop := x.crews = [] ∧ x.legs = [] ∧ x.queue = [] ∧ x.regs.state = 0 ∧ x.regs.preempt = false

theorem Ctx.Cleared.settles {s t : State} {n : Nat} (h : Ctx.Cleared (s.ctx n)) (hs : s.Settles t) : Ctx.Cleared (t.ctx n) := by
  obtain ⟨hcrews, hlegs, hqueue, hstate, hpre⟩ := h
  have hstate' := hs.state n hstate
  have hpre' := hs.preempt n hpre
  rw [hs.ctx n]
  exact ⟨hcrews, hlegs, hqueue, hstate', hpre'⟩

/-- A fault record enters its context's list, and nothing else of the context changes (R371). -/
theorem Ctx.Cleared.record {s : State} {ctx : Nat} (hctx : ctx < 16) (h : Ctx.Cleared (s.ctx ctx)) (w0 pc : Word) (unit : BitVec 16)
    (slot : Nat) (id : Word) (p : Ptr) (kind : Nat) : Ctx.Cleared ((s.record ctx w0 pc unit slot id p kind).ctx ctx) := by
  rw [State.record_eq, State.ctx_congr (State.posts_postNow ..).onlyBytes.ctxs, State.ctx_modCtx _ _ _ hctx]
  exact h

theorem State.resetCtx_cleared (s : State) {ctx : Nat} (hctx : ctx < 16) : Ctx.Cleared ((s.resetCtx ctx).ctx ctx) := by
  have hx : ∃ (u : State) (f : Ctx → Ctx) (ks : List Crew) (g : Sched → Sched), (∀ x, Ctx.Cleared (f x)) ∧ s.resetCtx ctx =
      (((ks.foldl (fun s k => s.leaveTenant k.core ctx) (u.modCtx ctx f)).modSch g).record ctx
        (BitVec.ofNat 32 Cause.preemptKill.code.toNat) 0 0xFFFF 0 0 0 7).wakeRegions.retryAll := by
    refine ⟨_, _, _, _, ?_, rfl⟩
    exact fun x => ⟨rfl, rfl, rfl, rfl, rfl⟩
  obtain ⟨u, f, ks, g, hf, hx⟩ := hx
  have hleft : (ks.foldl (fun s k => s.leaveTenant k.core ctx) (u.modCtx ctx f)).ctxs = (u.modCtx ctx f).ctxs :=
    (State.foldl_onlyBytes (f := fun s (k : Crew) => s.leaveTenant k.core ctx) (fun s k => s.onlyBytes_leaveTenant k.core ctx) ks _).ctxs
  rw [hx]
  refine Ctx.Cleared.settles ?_ (State.settles_retryAll _)
  rw [State.ctx_congr (State.posts_wakeRegions _).onlyBytes.ctxs]
  have hv : (((ks.foldl (fun s k => s.leaveTenant k.core ctx) (u.modCtx ctx f)).modSch g).ctx ctx) = f (u.ctx ctx) := by
    refine Eq.trans ?_ (State.ctx_modCtx u ctx f hctx)
    exact State.ctx_congr (t := State.modSch _ g) hleft ctx
  exact Ctx.Cleared.record hctx (hv ▸ hf _) ..

theorem preemptDeadlineExpiry_runs {s : State} {ctx q n : Nat} (hd : (q, n) ∈ (s.ctx ctx).deadlines) (hn : n ≤ s.clock (.quad q))
    (hk : ∃ k ∈ (s.ctx ctx).crews, Crew.onCore k = true) :
    Runs (.preemptDeadlineExpiry ctx q) s fun t => (t.ctx ctx).crews = [] ∧ (t.ctx ctx).legs = [] ∧ (t.ctx ctx).queue = [] ∧
      (t.ctx ctx).regs.state = 0 ∧ (t.ctx ctx).regs.preempt = false := by
  have hctx : ctx < 16 := by
    by_contra h
    rw [State.ctx_of_le (by omega)] at hd
    cases hd
  have hdue : (s.ctx ctx).deadlines.any (fun d => d.1 == q && decide (d.2 ≤ s.clock (.quad q))) = true :=
    List.any_eq_true.mpr ⟨_, hd, by simpa using hn⟩
  have hon : (s.ctx ctx).crews.any (fun k => k.onCore) = true := List.any_eq_true.mpr hk
  have hx : exec (.preemptDeadlineExpiry ctx q) s = execPreemptDeadlineExpiry ctx q s := rfl
  refine ⟨_, ?_, s.resetCtx_cleared hctx⟩
  rw [hx, execPreemptDeadlineExpiry]
  rw [hdue, hon, if_pos (by decide)]

/-! ## Quiesce points (R113, R117, R172) -/

/-- Memory is as it was, and so is every core but for its operations. -/
structure State.OnlyOps (s t : State) : Prop where
  mem : t.mem = s.mem
  core : ∀ c, ∃ os, t.core c = { s.core c with ops := os }

theorem State.OnlyOps.refl (s : State) : s.OnlyOps s := ⟨rfl, fun _ => ⟨_, rfl⟩⟩

theorem State.OnlyOps.trans {s t u : State} (a : s.OnlyOps t) (b : t.OnlyOps u) : s.OnlyOps u := by
  refine ⟨b.mem.trans a.mem, fun c => ?_⟩
  obtain ⟨os, hos⟩ := a.core c
  obtain ⟨ps, hps⟩ := b.core c
  exact ⟨ps, by rw [hps, hos]⟩

theorem State.onlyOps_modOp (s : State) (c id : Nat) (f : Op → Op) : s.OnlyOps (s.modOp c id f) := by
  refine ⟨rfl, fun d => ?_⟩
  by_cases hd : d = c
  · subst hd
    by_cases hl : d < 768
    · exact ⟨_, by rw [State.modOp, State.core_modCore _ _ _ hl]⟩
    · exact ⟨_, by rw [State.core_of_le (by omega), State.core_of_le (by omega)]⟩
  · exact ⟨_, by rw [State.modOp, State.core_modCore_ne _ _ _ _ hd]⟩

theorem State.onlyOps_postOpLimit (s : State) (c : Nat) (o : Op) : s.OnlyOps (s.postOpLimit c o) := by
  unfold State.postOpLimit
  split <;> exact ⟨rfl, fun _ => ⟨_, rfl⟩⟩

theorem State.onlyOps_rewait (s : State) (c : Nat) (f : Op → Bool) : s.OnlyOps (s.rewait c f) := by
  unfold State.rewait
  refine List.foldlRecOn (motive := fun t : State => s.OnlyOps t) _ _ (.refl s) fun t ht o _ => ht.trans ?_
  have hwatch : ∀ (t : State) id, t.OnlyOps (t.setWatch c id none) := fun t id => ⟨rfl, fun _ => ⟨_, rfl⟩⟩
  have hpost : ∀ (t : State) n e, t.OnlyOps (t.postQ c n e) := fun t n e => ⟨rfl, fun _ => ⟨_, rfl⟩⟩
  exact (((t.onlyOps_modOp ..).trans (hwatch ..)).trans (State.onlyOps_postOpLimit ..)).trans (hpost ..)

/-- A core at its quiesce point: its pending lanes fenced, EXACT as each context has it. -/
def State.atQuiesce (s : State) (c : Nat) : State := s.modCore c fun k =>
  { k with lmap := k.lmap &&& ~~~k.lanePend, lanePend := 0, exact := Vector.ofFn fun i => s.exactOf i.val }

/-- A core quiet for what it waits for: its lanes are fenced, EXACT has its value. -/
theorem quiescePoint_runs {s : State} {c : Nat} (hc : c < 768) (hq : s.quiescing c = true) (hquiet : s.quiet c = true) :
    Runs (.quiescePoint c) s fun t => (t.core c).lanePend = 0 ∧ (t.core c).lmap = (s.core c).lmap &&& ~~~(s.core c).lanePend ∧
      t.mem = s.mem ∧ ∀ i : Fin 16, (t.core c).exact[i] = s.exactOf i.val := by
  have hx : exec (.quiescePoint c) s = execQuiescePoint c s := rfl
  have hrun : ∃ u, exec (.quiescePoint c) s = .next u ∧ (s.atQuiesce c).OnlyOps u := by
    rw [hx, execQuiescePoint, hq, if_neg (by decide), hquiet, if_neg (by decide)]
    refine ⟨_, rfl, ?_⟩
    have hops := (s.atQuiesce c).onlyOps_rewait c fun _ => true
    split
    · exact hops.trans ⟨rfl, fun _ => ⟨_, rfl⟩⟩
    · exact hops
  obtain ⟨u, hu, hmem, hcore⟩ := hrun
  obtain ⟨os, hos⟩ := hcore c
  refine ⟨u, hu, ?_⟩
  rw [State.atQuiesce, State.core_modCore _ _ _ hc] at hos
  dsimp only
  rw [hos]
  refine ⟨rfl, rfl, hmem, fun i => ?_⟩
  simp

/-! ## The obligation -/

section
variable {s : State} {ctx crew : Nat} {k : Crew} {l : Leg}

/-- R190, R321: whether a crew with a place starts at once, waits for its launcher, has its pieces flushed, or starts after that. -/
theorem crewStart_all (hk : s.crew? ctx crew = some k) (hl : s.leg? ctx k.leg = some l) (hst : k.st = .waiting)
    (hres : ∃ r ∈ (s.ctx ctx).reservations, crew ∈ r.2) (hmay : s.mayStart ctx = true) :
    let starts : Prop := Runs (.crewStart ctx crew) s fun t => ∃ k', t.crew? ctx crew = some k' ∧ k'.st = .resident ∧ k'.core = k.core ∧
        k'.scratch = [] ∧ k'.spill = []
    let ps := s.piecesFor ctx crew l k.rank
    let c := (s.holderCore l.launcher).getD k.core
    let u := s.grantCommit ctx l.launcher
    (k.flush = none → ps = [] → starts) ∧
    (k.flush = none → ps ≠ [] → s.grantWaits c ctx l.launcher (ps.map (·.2)) = true →
      exec (.crewStart ctx crew) s = .next (u.postQ k.core (s.now k.core + 1) (.crewStart ctx crew))) ∧
    (k.flush = none → ps ≠ [] → s.grantWaits c ctx l.launcher (ps.map (·.2)) = false → c < 768 → Runs (.crewStart ctx crew) s fun t =>
      ∃ k' f, t.crew? ctx crew = some k' ∧ k'.st = .waiting ∧ k'.flush = some f ∧ f.core = c ∧ f.bases = ps.map (·.2.base) ∧
        Awaits t c f.ends (.crewStart ctx crew) ∧ ∀ p ∈ ps, ∀ r ∈ (t.ctx ctx).regions, r.base = p.2.base →
          r.st = .lent ∧ r.owner = holderId 1 ctx crew ∧ r.lender = l.launcher) ∧
    (∀ f, k.flush = some f → f.ends ≤ s.now f.core → starts) := by
  have hx := exec_crewStart hk hl hst hres hmay
  refine ⟨fun hf hps => ?_, fun hf hps hw => ?_, fun hf hps hw _ => crewStart_lends hk hl hst hres hmay hf hps hw, fun f hf he => ?_⟩
  · rw [hf] at hx
    dsimp only at hx
    rw [hps, List.isEmpty_nil, if_pos rfl] at hx
    exact crewStart_starts hk ⟨k, hk, rfl⟩ hx
  · rw [hf] at hx
    dsimp only at hx
    rw [if_neg (by simpa using hps), hw, if_pos rfl] at hx
    exact hx
  · rw [hf] at hx
    dsimp only at hx
    rw [if_neg (Nat.not_lt.mpr he)] at hx
    refine crewStart_starts hk ?_ hx
    have hcrew : s.CrewIs ctx crew fun q => q.core = k.core := ⟨k, hk, rfl⟩
    exact (hcrew.same (s.sameCrews_settleLent ctx f.bases)).change (fun _ => rfl) fun _ h => h

/-- R329: a suspending crew that may be saved waits, is flushed, or is saved. -/
theorem crewSave_all (hk : s.crew? ctx crew = some k) (hst : k.st = .suspending) (hready : s.saveReady ctx k = true) {i : Nat}
    (hi : s.freeSave ctx = some i) (hl : s.leg? ctx k.leg = some l) :
    let saved : Prop := Runs (.crewSave ctx crew) s fun t => (t.ctx ctx).regs.ctlarg = BitVec.ofNat 32 i ∧ (t.ctx ctx).regs.cbusy = false ∧
      (t.ctx ctx).regs.cfail = false ∧ ∃ k', t.crew? ctx crew = some k' ∧ k'.st = .suspended i
    (k.flush = none → s.crewFlush ctx k = none →
      exec (.crewSave ctx crew) s = .next (s.postQ k.core (s.now k.core + 1) (.crewSave ctx crew))) ∧
    (∀ u, k.flush = none → s.crewFlush ctx k = some (0, u) → saved) ∧
    (∀ n u, k.flush = none → s.crewFlush ctx k = some (n + 1, u) → Runs (.crewSave ctx crew) s fun t =>
      Awaits t k.core (s.now k.core + n + 1) (.crewSave ctx crew) ∧
      ∃ k' f, t.crew? ctx crew = some k' ∧ k'.st = .suspending ∧ k'.flush = some f ∧ f.core = k.core ∧ f.ends = s.now k.core + n + 1) ∧
    (∀ f, k.flush = some f → f.ends ≤ s.now f.core → saved) := by
  have hx := exec_crewSave hk hst hready hi hl
  refine ⟨fun hf hn => ?_, fun u hf hu => ?_, fun n u hf hu => crewSave_flushes hk hst hready hi hl hf hu, fun f hf he => ?_⟩
  · rw [hf, hn] at hx
    exact hx
  · rw [hf, hu] at hx
    dsimp only at hx
    rw [if_pos rfl] at hx
    exact crewSave_saved hk ⟨k, (State.crew_congr (State.crewFlush_onlyBytes hu).ctxs ctx crew).trans hk, trivial⟩ hx
  · have hcrew : s.CrewIs ctx crew fun _ => True := ⟨k, hk, trivial⟩
    exact crewSave_saved hk (hcrew.change (f := fun q => { q with flush := none }) (fun _ => rfl) fun _ h => h)
      (crewSave_flushed hk hst hready hi hl hf he)

/-- What an admission that passes its checks does, by what its grants flush (R188 to R190). -/
theorem legAdmission_admits {i : Nat} {u : State}
    (hx : exec (.legAdmission ctx) s = .next (s.admitAfterFlush ctx i l (u.wakeRegions.postNow (.legAdmission ctx)))) :
    let admitted : Prop := exec (.legAdmission ctx) s = .next (u.wakeRegions.postNow (.legAdmission ctx))
    (l.flush.isSome = true ∨ s.holderCore l.launcher = none → admitted) ∧
    (∀ c r, l.flush = none → s.holderCore l.launcher = some c → s.launchRecord ctx l.launcher l.lr.addr = some r →
      let homing : Bool := r.grants.any fun g => s.homingIn ctx (Ptr.local g.ptr) g.k
      (homing = true → exec (.legAdmission ctx) s = .next (s.postQ c (s.now c + 1) (.legAdmission ctx))) ∧
      (homing = false →
      let rs := s.grantRegions ctx r
      let v := s.grantCommit ctx l.launcher
      let held := s.grantWaits c ctx l.launcher (rs.map (·.1))
      (rs = [] → admitted) ∧
      (rs ≠ [] → held = true → exec (.legAdmission ctx) s = .next (v.postQ c (s.now c + 1) (.legAdmission ctx))) ∧
      (rs ≠ [] → held = false → ∀ n z, v.flushAll c ctx rs = (n, z) → exec (.legAdmission ctx) s = .next
        ((z.modQueued ctx i fun l => { l with flush := some ⟨c, z.now c + n, rs.map (·.1.base)⟩ }).postQ c (z.now c + n)
          (.legAdmission ctx))))) := by
  refine ⟨fun h => by rw [hx, State.admitAfterFlush_done h], fun c r hf hc hr => ?_⟩
  rw [State.admitAfterFlush_eq hf hc hr, State.grantCommit_now] at hx
  refine ⟨fun hh => by rw [hx, if_pos hh], fun hh => ?_⟩
  rw [if_neg (by rw [hh]; exact Bool.false_ne_true)] at hx
  refine ⟨fun hrs => ?_, fun hrs hw => ?_, fun hrs hw n z hz => ?_⟩
  · rw [hrs, List.isEmpty_nil, if_pos rfl] at hx
    exact hx
  · rw [if_neg (by simpa using hrs), hw, if_pos rfl] at hx
    exact hx
  · rw [if_neg (by simpa using hrs), hw, if_neg Bool.false_ne_true, hz] at hx
    exact hx

end

/-- Settles O48: each of a crew's and a leg's events by its own lemma, what the tokens, the cores and the schedule do leaving crews
and legs as they were. -/
theorem crewAndLegEvents : Obligations.CrewAndLegEvents := by
  unfold Obligations.CrewAndLegEvents
  refine ⟨?_, ?_, ?_, ?_, ?_, ?_⟩
  · intro s ctx crew k hk
    refine ⟨fun hst hp => crewExitRelease_held hk hst hp, fun hst => ⟨fun hf h => exec_crewExitRelease_waits hk hst hf h,
      fun n u hf h => crewExitRelease_flushes hk hst hf h, fun f hf he => crewExitRelease_left hk hst hf he⟩,
      fun l hl hst hres hmay => crewStart_all hk hl hst hres hmay, ?_,
      fun hst hready i l hi hl => crewSave_all hk hst hready hi hl, fun hst hready => exec_crewSave_waits hk hst hready⟩
    intro l hl hst hmay ms u hu
    exact exec_crewRelaunch hk hl hst hmay hu
  · intro s ctx i l hi hp hfirst hmay hf s1 t l'
    have hx := exec_legAdmission hi hp hfirst hmay hf
    refine ⟨fun u hu => legAdmission_admits ?_, fun hu => ?_⟩
    · exact hx.trans (by rw [show (s.admitting ctx i l).admitLeg ctx { l with flush := none } = some u from hu])
    · exact hx.trans (by rw [show (s.admitting ctx i l).admitLeg ctx { l with flush := none } = none from hu]; rfl)
  · intro s ctx gang k ms l hms hl hmay hres hq u hu
    exact exec_gangReservation hms hl hmay hres hq hu
  · intro s ctx leg l hl ha
    exact ⟨legComplete_runs hl ha, legComplete_waits hl ha⟩
  · intro s ctx q n hd hn hk
    exact preemptDeadlineExpiry_runs hd hn hk
  · intro s c hc hq hquiet
    exact quiescePoint_runs hc hq hquiet

end Sys2Proof.Machine
end

section
/-! SUPPORT. What the ends of groups, crews, legs and contexts leave of the reliability state, the place tables and the cores in service. -/

namespace Sys2Proof.Machine

open Sys2Proof

/-- What the controllers have counted, which slices are fenced, which cores are in service, the place tables and the SYSTEM bits are as they
were. -/
structure State.Fixed (s t : State) : Prop where
  rel : t.rel = s.rel
  slices : t.slices = s.slices
  enabled : ∀ c, (t.core c).enabled = (s.core c).enabled
  place : ∀ n, (t.ctx n).place = (s.ctx n).place
  system : ∀ n, (t.ctx n).regs.system = (s.ctx n).regs.system

section
variable {s t u : State}

theorem State.Fixed.refl (s : State) : s.Fixed s := ⟨rfl, rfl, fun _ => rfl, fun _ => rfl, fun _ => rfl⟩

theorem State.Fixed.trans (a : s.Fixed t) (b : t.Fixed u) : s.Fixed u :=
  ⟨b.rel.trans a.rel, b.slices.trans a.slices, fun c => (b.enabled c).trans (a.enabled c), fun n => (b.place n).trans (a.place n),
    fun n => (b.system n).trans (a.system n)⟩

theorem State.foldl_fixed {α : Type} {f : State → α → State} (hf : ∀ (s : State) x, s.Fixed (f s x)) (xs : List α) (s : State) :
    s.Fixed (xs.foldl f s) := by
  induction xs generalizing s with
  | nil => exact .refl s
  | cons x xs ih => exact (hf s x).trans (ih _)

theorem State.Fixed.ite {p : Prop} [Decidable p] (ht : s.Fixed t) (hu : s.Fixed u) : s.Fixed (if p then t else u) := by
  split
  · exact ht
  · exact hu

theorem State.Posts.fixed (h : s.Posts t) : s.Fixed t := by
  obtain ⟨l, rfl⟩ := h
  exact ⟨rfl, rfl, fun _ => rfl, fun _ => rfl, fun _ => rfl⟩

end

/-! ## The parts of the state -/

section
variable (s : State) (c ctx crew n pa va : Nat)

theorem State.fixed_modCore {f : Core → Core} (hf : ∀ k, (f k).enabled = k.enabled := by intro _; rfl) : s.Fixed (s.modCore c f) := by
  refine ⟨rfl, rfl, fun d => ?_, fun _ => rfl, fun _ => rfl⟩
  by_cases hd : d = c
  · subst hd
    by_cases hl : d < 768
    · rw [State.core_modCore _ _ _ hl, hf]
    · rw [State.core_of_le (by omega), State.core_of_le (by omega)]
  · rw [State.core_modCore_ne _ _ _ _ hd]

theorem State.fixed_modCtx {f : Ctx → Ctx} (hp : (f (s.ctx n)).place = (s.ctx n).place := by rfl)
    (hs : (f (s.ctx n)).regs.system = (s.ctx n).regs.system := by rfl) : s.Fixed (s.modCtx n f) := by
  have key : ∀ m, (s.modCtx n f).ctx m = s.ctx m ∨ m = n ∧ (s.modCtx n f).ctx m = f (s.ctx n) := by
    intro m
    by_cases hm : m < 16
    · by_cases h : m = n
      · subst h; exact .inr ⟨rfl, State.ctx_modCtx _ _ _ hm⟩
      · exact .inl (State.ctx_modCtx_ne _ _ _ _ h)
    · exact .inl (by rw [State.ctx_of_le (by omega), State.ctx_of_le (by omega)])
  refine ⟨rfl, rfl, fun _ => rfl, fun m => ?_, fun m => ?_⟩
  · rcases key m with h | ⟨rfl, h⟩
    · rw [h]
    · rw [h, hp]
  · rcases key m with h | ⟨rfl, h⟩
    · rw [h]
    · rw [h, hs]

theorem State.fixed_modSch (f : Sched → Sched) : s.Fixed (s.modSch f) := ⟨rfl, rfl, fun _ => rfl, fun _ => rfl, fun _ => rfl⟩

theorem State.fixed_freeNat : s.Fixed s.freeNat.2 := ⟨rfl, rfl, fun _ => rfl, fun _ => rfl, fun _ => rfl⟩

theorem State.fixed_post (k : Clk) (e : Instr) : s.Fixed (s.post k n e) := s.fixed_modSch _

theorem State.fixed_modQuad (q : Nat) (f : Quad → Quad) : s.Fixed (s.modQuad q f) := ⟨rfl, rfl, fun _ => rfl, fun _ => rfl, fun _ => rfl⟩

theorem State.fixed_modCrew (f : Crew → Crew) : s.Fixed (s.modCrew ctx crew f) := s.fixed_modCtx ctx

theorem State.fixed_record (w0 pc : Word) (unit : BitVec 16) (slot : Nat) (id : Word) (p : Ptr) (kind : Nat) :
    s.Fixed (s.record ctx w0 pc unit slot id p kind) := by
  rw [State.record_eq]
  refine State.Fixed.trans ?_ (State.posts_postNow ..).fixed
  exact s.fixed_modCtx ctx

/-! ## Memory and the caches -/

theorem State.fixed_note (hit : Spot → Bool) (value : State → Spot → Word) : s.Fixed (s.note hit value) := by
  unfold State.note
  exact State.Fixed.ite (.refl s) ⟨rfl, rfl, fun _ => rfl, fun _ => rfl, fun _ => rfl⟩

theorem State.fixed_homeWrite (xs : List (Nat × Byte)) : s.Fixed (s.homeWrite xs) := by
  unfold State.homeWrite
  refine State.Fixed.trans ?_ (State.fixed_note ..)
  exact ⟨rfl, rfl, fun _ => rfl, fun _ => rfl, fun _ => rfl⟩

theorem State.fixed_homeWriteAt (bs : List Byte) : s.Fixed (s.homeWriteAt pa bs) := s.fixed_homeWrite _

theorem State.fixed_setL1 (ls : List Line) : s.Fixed (s.setL1 c ls) := s.fixed_modCore c

theorem State.fixed_modCaches (f : Caches → Caches) : s.Fixed (s.modCaches c f) := s.fixed_modCore c

theorem State.fixed_fillL1 : s.Fixed (s.fillL1 c ctx va pa) := by
  have hn := s.fixed_freeNat
  unfold State.fillL1
  split
  · exact .refl s
  · dsimp only
    split
    · exact s.fixed_setL1 ..
    · split
      · exact (hn.trans (State.Fixed.ite (State.fixed_homeWrite ..) (.refl _))).trans (State.fixed_setL1 ..)
      · exact hn.trans (State.fixed_setL1 ..)

theorem State.fixed_l1Write (bs : List Byte) : s.Fixed (s.l1Write c ctx va pa bs) := by
  unfold State.l1Write
  refine State.Fixed.trans ?_ (State.fixed_note ..)
  exact (s.fixed_fillL1 ..).trans (State.fixed_setL1 ..)

theorem State.fixed_dropLines (base k : Nat) : s.Fixed (s.dropLines c ctx base k) := s.fixed_setL1 ..

theorem State.fixed_drainEntry (w : Who) (e : SBEntry) : s.Fixed (s.drainEntry w e) := by
  have hl : ∀ s : State, s.Fixed (e.bytes.foldl (fun s x => s.l1Write w.c w.ctx (e.blk + x.1) (e.pa + x.1) [x.2]) s) :=
    State.foldl_fixed (fun s x => s.fixed_l1Write ..) _
  unfold State.drainEntry
  dsimp only
  split
  · exact State.Fixed.trans (State.fixed_modSch ..) (State.fixed_modCrew ..)
  · exact State.Fixed.ite (hl s) ((s.fixed_homeWrite _).trans (State.Fixed.ite (hl _) (.refl _)))

theorem State.fixed_drainAll : s.Fixed (s.drainAll ctx crew) := by
  unfold State.drainAll
  split
  · exact .refl s
  · exact (State.foldl_fixed (fun s e => s.fixed_drainEntry _ e) _ s).trans (State.fixed_modCrew ..)

theorem State.fixed_flushRegion (base k : Nat) (d : Bool) : s.Fixed (s.flushRegion c ctx base k d) :=
  (State.foldl_fixed (fun s l => s.fixed_homeWrite _) _ s).trans (State.fixed_setL1 ..)

theorem State.fixed_walkMark : s.Fixed (s.walkMark ctx va).2 := by
  rcases s.walkMark_cases ctx va with h | ⟨k, b, z, h⟩
  · rw [h]; exact .refl s
  · rw [h]
    unfold State.poison
    split
    · exact ⟨rfl, rfl, fun _ => rfl, fun _ => rfl, fun _ => rfl⟩
    · exact State.Fixed.ite (.refl s) ⟨rfl, rfl, fun _ => rfl, fun _ => rfl, fun _ => rfl⟩

/-! ## Tokens -/

theorem State.fixed_dropTok (r : Region) : s.Fixed (s.dropTok ctx r) := by
  unfold State.dropTok
  split
  · exact s.fixed_modCaches ..
  · exact .refl s

theorem State.fixed_dropPins (f : Pin → Bool) : s.Fixed (s.dropPins c f) := by
  unfold State.dropPins
  refine State.Fixed.trans (State.foldl_fixed (fun s p => ?_) _ s) (State.fixed_modCaches ..)
  split
  · exact s.fixed_dropLines ..
  · exact .refl s

theorem State.fixed_releasePins (r : Region) (h : Word) : s.Fixed (s.releasePins ctx r h) :=
  State.foldl_fixed (fun s c => s.fixed_dropPins ..) _ s

theorem State.fixed_passAll (h k : Word) : s.Fixed (s.passAll ctx h k) := by
  unfold State.passAll
  dsimp only
  refine State.Fixed.trans ?_ (State.fixed_modCtx _ _)
  exact State.foldl_fixed (f := fun s r => s.dropTok ctx r) (fun s r => s.fixed_dropTok ctx r) _ s

theorem State.fixed_passRegion (r : Region) (owner lender : Word) : s.Fixed (s.passRegion ctx c r owner lender) :=
  ((s.fixed_dropLines ..).trans (State.fixed_dropTok ..)).trans (State.fixed_modCtx _ _)

theorem State.fixed_returnShare (r : Region) (h : Word) : s.Fixed (s.returnShare ctx r h n) := by
  unfold State.returnShare
  split
  · exact .refl s
  · exact ((State.Fixed.ite (s.fixed_releasePins ctx r h) (.refl s)).trans (State.fixed_dropTok ..)).trans (State.fixed_modCtx _ _)

theorem State.fixed_returnShares (bs : List Nat) (h : Word) : s.Fixed (bs.foldl (fun s b => match (s.ctx ctx).regionAt b with
    | some r => s.returnShare ctx r h 65535
    | none => s) s) := by
  refine State.foldl_fixed (fun s b => ?_) bs s
  split
  · exact s.fixed_returnShare ..
  · exact .refl s

theorem State.fixed_wakeRegions : s.Fixed s.wakeRegions := s.posts_wakeRegions.fixed

theorem State.fixed_groupTokens (pos : Nat) : s.Fixed (s.groupTokens ctx crew pos) := by
  unfold State.groupTokens
  exact ((s.fixed_passAll ..).trans (State.fixed_returnShares ..)).trans (State.fixed_wakeRegions _)

theorem State.fixed_passOwned (h launcher : Word) (rs : List Region) :
    s.Fixed (rs.foldl (fun s r => if r.owner = h then s.passRegion ctx c r (heir ctx crew launcher r) noHolder else s) s) :=
  State.foldl_fixed (f := fun s r => if r.owner = h then s.passRegion ctx c r (heir ctx crew launcher r) noHolder else s)
    (fun s r => State.Fixed.ite (s.fixed_passRegion ..) (.refl s)) rs s

theorem State.fixed_crewTokens (launcher : Word) : s.Fixed (s.crewTokens ctx crew launcher) := by
  unfold State.crewTokens
  split
  · exact .refl s
  · exact ((((State.foldl_fixed (fun s i => s.fixed_groupTokens ctx crew i) (List.range 16) s).trans
      (State.fixed_passOwned ..)).trans (State.fixed_passAll ..)).trans (State.fixed_returnShares ..)).trans
        ((State.fixed_dropPins ..).trans (State.fixed_wakeRegions _))

theorem State.fixed_orphan (r : Region) : s.Fixed (s.orphan ctx r) := by
  unfold State.orphan
  dsimp only
  refine State.Fixed.trans ?_ (State.fixed_modCtx _ _)
  refine State.Fixed.trans (s.fixed_dropTok ctx r) ?_
  exact State.foldl_fixed (f := fun s (y : Share) => s.releasePins ctx r y.holder) (fun s y => s.fixed_releasePins ..) _ _

/-! ## Cores and the schedule -/

theorem State.fixed_rail (q : Nat) : s.Fixed (s.rail q) := by
  have hquad : ∀ f, s.Fixed (s.modQuad q f) := s.fixed_modQuad q
  unfold State.rail
  dsimp only
  split
  · exact .refl s
  · split
    · exact (hquad _).trans (State.fixed_post ..)
    · split
      · exact hquad _
      · split
        · exact .refl s
        · split
          · exact ((s.fixed_modSch _).trans (State.fixed_modQuad ..)).trans (State.fixed_post ..)
          · exact (((s.fixed_modSch _).trans (State.fixed_modQuad ..)).trans (State.fixed_freeNat _)).trans (State.fixed_post ..)

theorem State.fixed_leaveTenant : s.Fixed (s.leaveTenant c ctx) := by
  unfold State.leaveTenant
  dsimp only
  split
  · exact s.fixed_rail _
  · exact (s.fixed_rail _).trans (State.Fixed.ite ((State.fixed_modCore _ _).trans (State.fixed_modCore _ _))
      (State.fixed_modCore _ _))

theorem State.fixed_releaseArray : s.Fixed (s.releaseArray c ctx crew) := s.fixed_modCore c

theorem State.fixed_settleIdle : s.Fixed (s.settleIdle ctx) := by
  unfold State.settleIdle
  exact State.Fixed.ite (.refl s) (s.fixed_modCtx _)

theorem State.fixed_retryGangs : s.Fixed (s.retryGangs ctx) := (s.posts_retryGangs ctx).fixed

theorem State.fixed_retryAll : s.Fixed s.retryAll :=
  State.foldl_fixed (fun s n => State.Fixed.ite (.refl s) ((s.fixed_settleIdle n).trans (State.fixed_retryGangs _ n))) _ s

theorem State.fixed_modOp (f : Op → Op) : s.Fixed (s.modOp c n f) := s.fixed_modCore c

theorem State.fixed_restartOp : s.Fixed (s.restartOp c n) := s.fixed_modOp ..

theorem State.fixed_dropOp : s.Fixed (s.dropOp c n) := by
  unfold State.dropOp
  dsimp only
  refine State.Fixed.trans ?_ (State.fixed_modCore _ c)
  exact ⟨rfl, rfl, fun _ => rfl, fun _ => rfl, fun _ => rfl⟩

theorem State.fixed_dropOps (os : List Op) : s.Fixed (s.dropOps c os) := by
  unfold State.dropOps
  exact State.foldl_fixed (α := Op) (f := fun s o => s.dropOp c o.id) (fun s o => s.fixed_dropOp ..) os s

theorem State.fixed_reask (f : Op → Bool) : s.Fixed (s.reask c f) := by
  unfold State.reask
  refine State.foldl_fixed (fun s o => ?_) _ s
  exact ((s.fixed_modOp ..).trans (State.fixed_restartOp ..)).trans (State.posts_postQ ..).fixed

theorem State.fixed_unstall (g : Nat) : s.Fixed (s.unstall c g) := by
  unfold State.unstall State.stallOver
  exact (s.fixed_modCore c).trans (State.Fixed.ite (.refl _) ((State.fixed_modCore _ c).trans (State.fixed_reask ..)))

theorem State.fixed_emptySlots (slots : List Nat) : s.Fixed (s.emptySlots c slots) := by
  unfold State.emptySlots
  exact State.foldl_fixed (f := fun s g => (s.setGroup c g none).unstall c g)
    (fun s g => (s.fixed_modCore c (f := fun k => { k with groups := k.groups.setIfInBounds g none })).trans
      (State.fixed_unstall ..)) slots s

theorem State.fixed_cancelEngines (slots : List Nat) : s.Fixed (s.cancelEngines c ctx crew slots) := by
  unfold State.cancelEngines
  dsimp only
  refine State.Fixed.trans (State.foldl_fixed (fun s e => ?_) _ s) (State.fixed_modCore _ c)
  exact s.fixed_passAll ..

end

end Sys2Proof.Machine
end

section
/-! SUPPORT. Crews rolled back, legs aborted, tokens of a lost core and contexts reset leave the reliability state, the place tables and
the cores in service (R192, R328, R349, R356 to R358). -/

namespace Sys2Proof.Machine

open Sys2Proof

section
variable (s : State) (c ctx crew n pa va : Nat)

/-! ## Groups and crews -/

theorem State.fixed_cancelTasks : s.Fixed (s.cancelTasks c ctx crew) := s.fixed_modCore c

theorem State.fixed_dropGroups : s.Fixed (s.dropGroups ctx crew) := by
  unfold State.dropGroups
  split
  · exact .refl s
  · next k _ =>
    dsimp only
    refine State.Fixed.trans ?_ (State.fixed_modCrew ..)
    refine State.Fixed.trans ?_ (State.fixed_cancelTasks ..)
    refine State.Fixed.trans ?_ (State.fixed_cancelEngines ..)
    refine State.Fixed.trans ?_ (State.fixed_modSch ..)
    exact (s.fixed_dropOps k.core _).trans (State.fixed_emptySlots _ k.core _)

theorem State.fixed_leaveBegun : s.Fixed (s.leaveBegun ctx crew) := by
  unfold State.leaveBegun
  refine State.Fixed.trans ?_ (State.foldl_fixed (fun s i => s.fixed_groupTokens ..) _ _)
  exact (s.fixed_drainAll ctx crew).trans (State.fixed_modCrew ..)

theorem State.fixed_startLeave : s.Fixed (s.startLeave ctx crew) := by
  cases hk : s.crew? ctx crew with
  | none => rw [State.startLeave, hk]; exact .refl s
  | some k => rw [State.startLeave_eq hk]; exact (s.fixed_leaveBegun ctx crew).trans (State.posts_postQ ..).fixed

theorem State.fixed_abortCrew (k : Crew) (launcher : Word) (lost : Option Nat) : s.Fixed (s.abortCrew ctx k launcher lost) := by
  have hdrop := s.fixed_dropGroups ctx k.id
  unfold State.abortCrew
  dsimp only
  split
  · exact .refl s
  split
  · exact hdrop.trans (State.fixed_startLeave ..)
  have htok : ∀ p q : Prop, [Decidable p] → [Decidable q] → s.Fixed (if p then (s.dropGroups ctx k.id).crewTokens ctx k.id launcher
      else if q then s.dropGroups ctx k.id
      else ((s.dropGroups ctx k.id).modCrew ctx k.id fun k => { k with sbuf := [] }).crewTokens ctx k.id launcher) := fun p q _ _ =>
    hdrop.trans (State.Fixed.ite (State.fixed_crewTokens ..)
      (State.Fixed.ite (.refl _) ((State.fixed_modCrew ..).trans (State.fixed_crewTokens ..))))
  have hleave : ∀ u : State, u.Fixed (if k.onCore then u.leaveTenant k.core ctx else u) := fun u =>
    State.Fixed.ite (u.fixed_leaveTenant ..) (.refl u)
  have harray : ∀ u : State, u.Fixed (if k.onCore then u.releaseArray k.core ctx k.id else u) := fun u =>
    State.Fixed.ite (u.fixed_releaseArray ..) (.refl u)
  refine State.Fixed.trans ?_ (hleave _)
  refine State.Fixed.trans ?_ (State.fixed_modCtx _ ctx)
  exact (htok ..).trans (harray _)

theorem State.fixed_modLeg (leg : Nat) (f : Leg → Leg) : s.Fixed (s.modLeg ctx leg f) := s.fixed_modCtx ctx

theorem State.fixed_abortLeg (leg : Nat) (cause : Cause) (lost : Option Nat) : s.Fixed (s.abortLeg ctx leg crew cause lost) := by
  unfold State.abortLeg
  split
  · exact .refl s
  · next l _ =>
    dsimp only
    refine State.Fixed.trans ?_ (State.fixed_retryAll _)
    refine State.Fixed.trans ?_ (State.Fixed.ite (State.posts_postNow ..).fixed (.refl _))
    refine State.Fixed.trans ?_ (State.Fixed.ite (.refl _) (State.fixed_record ..))
    refine State.Fixed.trans ?_ (State.fixed_modLeg ..)
    refine State.Fixed.trans ?_ (State.fixed_modCtx _ ctx)
    exact State.foldl_fixed (fun s k => s.fixed_abortCrew ctx k l.launcher lost) _ s

theorem State.fixed_homeless (r : Region) :
    s.Fixed (((s.dropLines c ctx r.base r.k).dropTok ctx r).modCtx ctx fun x => x.setRegion { r with hcore := none }) := by
  refine State.Fixed.trans ?_ (State.fixed_modCtx _ ctx)
  exact (s.fixed_dropLines ..).trans (State.fixed_dropTok ..)

theorem State.fixed_rollOne : s.Fixed (s.rollOne ctx crew) := by
  unfold State.rollOne
  split
  · exact .refl s
  · next k _ =>
    dsimp only
    refine State.Fixed.trans ?_ (State.foldl_fixed (fun s x => s.fixed_retryGangs x) _ _)
    refine State.Fixed.trans ?_ (State.fixed_leaveTenant ..)
    refine State.Fixed.trans ?_ (State.fixed_modCrew ..)
    refine State.Fixed.trans ?_ (State.fixed_modCtx _ ctx)
    refine State.Fixed.trans ?_ (State.foldl_fixed (fun s r => State.Fixed.ite (s.fixed_homeless ..) (.refl s)) _ _)
    exact ((s.fixed_dropGroups ..).trans (State.fixed_releaseArray ..)).trans (State.fixed_dropPins ..)

theorem State.fixed_rollback (cause : Cause) (lost : Option Nat) : s.Fixed (s.rollback ctx crew cause lost) := by
  unfold State.rollback
  split
  · exact .refl s
  · exact State.Fixed.ite (s.fixed_abortLeg ..) (State.foldl_fixed (fun s (m : Crew) => s.fixed_rollOne ctx m.id) _ s)

/-! ## Tokens (R192, R199) -/

theorem State.fixed_modCtxTo {x : Ctx} (hp : x.place = (s.ctx n).place) (hs : x.regs.system = (s.ctx n).regs.system) :
    s.Fixed (s.modCtx n fun _ => x) := s.fixed_modCtx n hp hs

theorem State.fixed_returnPair (b : Nat) (h : Word) : s.Fixed (match (s.ctx ctx).regionAt b with
    | some r => s.returnShare ctx r h 65535
    | none => s) := by
  split
  · exact s.fixed_returnShare ..
  · exact .refl s

theorem State.fixed_failTokens (keeps lost flushing : List Nat) : s.Fixed (s.failTokens ctx c keeps lost flushing) := by
  unfold State.failTokens
  dsimp only
  refine State.Fixed.trans ?_ (State.fixed_modCaches ..)
  refine State.Fixed.trans ?_ (State.foldl_fixed (fun s (y : Share) => s.fixed_returnPair ctx y.base y.holder) _ _)
  refine State.foldl_fixed (fun s r => ?_) _ s
  split
  · exact s.fixed_orphan ..
  · split
    · exact s.fixed_modCtx ctx
    · exact .refl s

theorem State.fixed_resetTokens (k : Crew) (cut : List Nat) : s.Fixed (s.resetTokens ctx k cut) := by
  unfold State.resetTokens
  dsimp only
  refine State.Fixed.trans ?_ (State.fixed_modCaches ..)
  refine State.Fixed.trans ?_ (State.foldl_fixed (fun s (p : Nat × Word) => s.fixed_returnPair ctx p.1 p.2) _ _)
  refine State.Fixed.trans ?_ (State.foldl_fixed (fun s r => (s.fixed_dropTok ctx r).trans (State.fixed_modCtx _ ctx)) _ _)
  refine State.foldl_fixed (fun s r => ?_) _ s
  split
  · exact s.fixed_orphan ..
  · split
    · exact .refl s
    · exact State.Fixed.ite ((s.fixed_dropLines ..).trans (State.fixed_orphan ..)) (s.fixed_passRegion ..)

theorem Ctx.joinRegion_keeps {x y : Ctx} {r : Region} {b : Nat} (h : x.joinRegion r b = some y) : y.place = x.place ∧ y.regs = x.regs := by
  unfold Ctx.joinRegion at h
  dsimp only at h
  split at h
  · rw [← Option.some.inj h]
    exact ⟨rfl, rfl⟩
  · exact absurd h (by simp)

theorem State.fixed_returnGrants (l : Leg) : s.Fixed (s.returnGrants ctx l) := by
  unfold State.returnGrants
  refine State.foldl_fixed (fun s g => ?_) _ s
  dsimp only
  split
  · split
    · exact .refl s
    · split
      · exact .refl s
      · split
        · exact .refl s
        · next y hy =>
          obtain ⟨hplace, hregs⟩ := Ctx.joinRegion_keeps hy
          have hdrop : ∀ qs : List Region, s.Fixed (qs.foldl (fun s q => s.dropTok ctx q) s) := fun qs =>
            State.foldl_fixed (fun s q => s.fixed_dropTok ctx q) qs s
          refine State.Fixed.trans (hdrop _) (State.fixed_modCtxTo _ ctx ?_ ?_)
          · rw [hplace, (hdrop _).place]
          · rw [hregs, (hdrop _).system]
  · split
    · exact s.fixed_returnShare ..
    · exact .refl s
  · split
    · exact State.Fixed.ite (s.fixed_modCtx ctx) (.refl s)
    · exact .refl s

/-! ## Completion words and the reset -/

theorem State.fixed_markWalks (p : Ptr) (k : Nat) : s.Fixed (s.markWalks ctx p k) := by
  have hmark : ∀ (t : State) va, t.Fixed (t.walkMark ctx va).2 := fun t va => t.fixed_walkMark ctx va
  unfold State.markWalks
  obtain ⟨mark, hm⟩ : ∃ f, State.walkMark = f := ⟨_, rfl⟩
  rw [hm] at hmark ⊢
  split
  · exact .refl s
  · exact State.foldl_fixed (fun t i => hmark t _) _ s

/-- A word written at home, and into a line that its writer's core holds. -/
theorem State.fixed_lineWrite (launcher : Word) (bs : List Byte) :
    s.Fixed (match s.holderCore launcher with
      | none => s
      | some c => match s.l1? c pa with
        | none => s
        | some l => if l.dirty then s.l1Write c ctx va pa bs else s.setL1 c ((s.core c).caches.l1.filter fun m => m.pa != l.pa)) := by
  split
  · exact .refl s
  · split
    · exact .refl s
    · exact State.Fixed.ite (s.fixed_l1Write ..) (s.fixed_setL1 ..)

theorem State.Fixed.launcherWrite {s t : State} {ctx : Nat} {launcher : Word} {p : Ptr} {x : Word}
    (h : s.launcherWrite ctx launcher p x = some t) : s.Fixed t := by
  have hwrite := fun pa => (s.fixed_homeWriteAt pa (leBytes 4 x.toNat)).trans
    (State.fixed_lineWrite (s.homeWriteAt pa (leBytes 4 x.toNat)) ctx pa (Ptr.local p) launcher (leBytes 4 x.toNat))
  unfold State.launcherWrite at h
  obtain ⟨walk, hwalk⟩ : ∃ f, s.walk ctx = f := ⟨_, rfl⟩
  rw [hwalk] at h
  dsimp only at h
  split at h
  · exact absurd h (by simp)
  split at h
  · rw [← Option.some.inj h]
    exact s.fixed_modSch _
  split at h
  · exact absurd h (by simp)
  split at h
  · split at h
    · exact absurd h (by simp)
    · rw [← Option.some.inj h]
      exact hwrite _
  · split at h
    · exact absurd h (by simp)
    · rw [← Option.some.inj h]
      exact hwrite _

theorem State.fixed_writeDone (l : Leg) (st : BitVec 4) (k : Nat) : s.Fixed (s.writeDone ctx l st k) := by
  unfold State.writeDone
  split
  · exact .refl s
  · split
    · next h => exact (s.fixed_markWalks ..).trans (.launcherWrite h)
    · exact s.fixed_record ..

/-- A context's reset leaves its place table and its SYSTEM bit, and the other contexts theirs (R328). -/
theorem State.fixed_resetCtx : s.Fixed (s.resetCtx ctx) := by
  unfold State.resetCtx
  dsimp only
  refine State.Fixed.trans ?_ (State.fixed_retryAll _)
  refine State.Fixed.trans ?_ (State.fixed_wakeRegions _)
  refine State.Fixed.trans ?_ (State.fixed_record ..)
  refine State.Fixed.trans ?_ (State.fixed_modSch ..)
  refine State.Fixed.trans ?_ (State.foldl_fixed (fun s (k : Crew) => s.fixed_leaveTenant k.core ctx) _ _)
  refine State.Fixed.trans ?_ (State.fixed_modCtx _ ctx)
  refine State.Fixed.trans ?_ (State.foldl_fixed (fun s l => s.fixed_returnGrants ctx _) _ _)
  refine State.Fixed.trans ?_ (State.foldl_fixed (fun s (p : Crew × List Nat) => s.fixed_resetTokens ctx p.1 p.2) _ _)
  refine State.Fixed.trans ?_ (State.foldl_fixed (fun s (k : Crew) =>
    State.Fixed.ite ((s.fixed_dropGroups ctx k.id).trans (State.fixed_releaseArray ..)) (.refl s)) _ _)
  exact State.foldl_fixed (fun s (l : Leg) => s.fixed_writeDone ctx l 4 l.exited) _ s

end

end Sys2Proof.Machine
end

section
/-! SUPPORT. Error events and lost cores (R346 to R349). -/

namespace Sys2Proof.Machine

open Sys2Proof

/-- Contexts changed and steps set down for later, and nothing else. -/
def State.OnlyRecords (s t : State) : Prop :=
  ∃ cs l, t = { s with ctxs := cs, sch := { s.sch with agenda := s.sch.agenda ++ l } }

section
variable {s t u : State}

theorem State.OnlyRecords.refl (s : State) : s.OnlyRecords s := ⟨s.ctxs, [], by rw [List.append_nil]⟩

theorem State.OnlyRecords.trans (a : s.OnlyRecords t) (b : t.OnlyRecords u) : s.OnlyRecords u := by
  obtain ⟨cs, l, rfl⟩ := a
  obtain ⟨ds, m, rfl⟩ := b
  exact ⟨ds, l ++ m, by simp only [List.append_assoc]⟩

theorem State.foldl_onlyRecords {α : Type} {f : State → α → State} (hf : ∀ (s : State) x, s.OnlyRecords (f s x)) (xs : List α)
    (s : State) : s.OnlyRecords (xs.foldl f s) := by
  induction xs generalizing s with
  | nil => exact .refl s
  | cons x xs ih => exact (hf s x).trans (ih _)

theorem State.onlyRecords_record (s : State) (ctx : Nat) (w0 pc : Word) (unit : BitVec 16) (slot : Nat) (id : Word) (p : Ptr)
    (kind : Nat) : s.OnlyRecords (s.record ctx w0 pc unit slot id p kind) := by
  rw [State.record_eq]
  exact ⟨_, _, rfl⟩

theorem State.OnlyRecords.rel (h : s.OnlyRecords t) : t.rel = s.rel := by obtain ⟨cs, l, rfl⟩ := h; rfl

theorem State.OnlyRecords.cores (h : s.OnlyRecords t) : t.cores = s.cores := by obtain ⟨cs, l, rfl⟩ := h; rfl

theorem State.OnlyRecords.mem (h : s.OnlyRecords t) : t.mem = s.mem := by obtain ⟨cs, l, rfl⟩ := h; rfl

theorem State.OnlyRecords.quads (h : s.OnlyRecords t) : t.quads = s.quads := by obtain ⟨cs, l, rfl⟩ := h; rfl

theorem State.OnlyRecords.mgmt (h : s.OnlyRecords t) : t.mgmt = s.mgmt := by obtain ⟨cs, l, rfl⟩ := h; rfl

theorem State.OnlyRecords.slices (h : s.OnlyRecords t) : t.slices = s.slices := by obtain ⟨cs, l, rfl⟩ := h; rfl

theorem State.OnlyRecords.extClk (h : s.OnlyRecords t) : t.sch.extClk = s.sch.extClk := by obtain ⟨cs, l, rfl⟩ := h; rfl

theorem State.OnlyRecords.now (h : s.OnlyRecords t) (c : Nat) : t.now c = s.now c := by obtain ⟨cs, l, rfl⟩ := h; rfl

end

/-! ## Events counted (R346, R347) -/

section
variable (s : State) (u : UnitId)

/-- The number an event of a unit has in its window, no more than 3. -/
def State.eventNumber : Nat := min 3 (((s.rel.counts.find? fun x => x.1 == u).map fun x => x.2).getD 0 + 1)

/-- The event of a number counted. -/
def State.counted (n : Nat) : State :=
  { s with rel := { s.rel with counts := (u, n) :: s.rel.counts.filter fun x => x.1 != u } }

/-- What the controller has after an event: the counts and the lasting faults as they are in the state, the event the last one. -/
structure State.Tells (t : State) (n : Nat) : Prop where
  lasting : t.rel.lasting = s.rel.lasting
  counts : t.rel.counts = (u, n) :: (s.rel.counts.filter fun x => x.1 != u)
  event : ∃ e, t.rel.events.getLast? = some e ∧ (e.unit, e.die, e.number) = UnitId.code u ∧ e.count = BitVec.ofNat 8 n

theorem State.tellEvent_spec (cls : BitVec 8) (n : Nat) : ∃ e : EvRec, (e.unit, e.die, e.number) = UnitId.code u ∧
    e.count = BitVec.ofNat 8 n ∧ (s.keepEvent e).OnlyRecords (s.tellEvent u cls n) :=
  ⟨_, rfl, rfl, State.foldl_onlyRecords (fun s x => s.onlyRecords_record ..) _ _⟩

theorem State.keepEvent_last (e : EvRec) : (s.keepEvent e).rel.events.getLast? = some e := by
  unfold State.keepEvent
  dsimp only
  rw [List.getLast?_append, List.getLast?_singleton]
  rfl

theorem State.tells_tellEvent (cls : BitVec 8) (n : Nat) : s.Tells u ((s.counted u n).tellEvent u cls n) n := by
  obtain ⟨e, hcode, hcount, h⟩ := (s.counted u n).tellEvent_spec u cls n
  have hrel := h.rel
  exact ⟨by rw [hrel]; rfl, by rw [hrel]; rfl, e, by rw [hrel]; exact State.keepEvent_last .., hcode, hcount⟩

theorem State.tellEvent_mem (cls : BitVec 8) (n : Nat) : (s.tellEvent u cls n).mem = s.mem := by
  obtain ⟨e, -, -, h⟩ := s.tellEvent_spec u cls n
  exact h.mem

theorem State.tellEvent_slices (cls : BitVec 8) (n : Nat) : (s.tellEvent u cls n).slices = s.slices := by
  obtain ⟨e, -, -, h⟩ := s.tellEvent_spec u cls n
  exact h.slices

theorem State.tellEvent_extClk (cls : BitVec 8) (n : Nat) : (s.tellEvent u cls n).sch.extClk = s.sch.extClk := by
  obtain ⟨e, -, -, h⟩ := s.tellEvent_spec u cls n
  exact h.extClk

theorem State.tellEvent_now (cls : BitVec 8) (n c : Nat) : (s.tellEvent u cls n).now c = s.now c := by
  obtain ⟨e, -, -, h⟩ := s.tellEvent_spec u cls n
  exact h.now c

theorem exec_errorEvent (b : Bool) : exec (.errorEvent u b none) s = .next (s.countEvent u b) := by
  have hx : exec (.errorEvent u b none) s = execErrorEvent u b none s := rfl
  rw [hx]
  unfold execErrorEvent
  cases u <;> rfl

end

section
variable {s : State} {u : UnitId}

/-- An event of a unit whose fault lasts already, or one that is not the third of its window, is counted and told. -/
theorem errorEvent_counts (b : Bool) (h : u ∈ s.rel.lasting ∨ s.eventNumber u < 3) :
    ∃ cls, exec (.errorEvent u b none) s = .next ((s.counted u (s.eventNumber u)).tellEvent u cls (s.eventNumber u)) := by
  by_cases hn : s.eventNumber u < 3
  · refine ⟨if b then 0 else 1, (exec_errorEvent s u b).trans ?_⟩
    exact congrArg _ (if_pos hn)
  · refine ⟨2, (exec_errorEvent s u b).trans (congrArg _ ((if_neg hn).trans (if_pos ?_)))⟩
    exact List.contains_iff_mem.mpr (h.resolve_right hn)

/-- The third event of a window makes the fault lasting. -/
theorem errorEvent_lasts (b : Bool) (hu : u ∉ s.rel.lasting) (hn : s.eventNumber u = 3) :
    exec (.errorEvent u b none) s = .next (((s.counted u 3).tellEvent u 2 3).lasting u) := by
  refine (exec_errorEvent s u b).trans ?_
  have hx : s.countEvent u b = (((s.counted u (s.eventNumber u)).tellEvent u 2 (s.eventNumber u)).lasting u) :=
    (if_neg (by omega : ¬s.eventNumber u < 3)).trans (if_neg fun h => hu (List.contains_iff_mem.mp h))
  rw [hx, hn]

end

/-! ## Lasting faults -/

/-- A state whose controller has a unit's fault among the lasting ones. -/
def State.keepLasting (s : State) (u : UnitId) : State :=
  { s with rel := { s.rel with lasting := if s.rel.lasting.contains u then s.rel.lasting else u :: s.rel.lasting } }

theorem State.mem_keepLasting (s : State) (u : UnitId) : u ∈ (s.keepLasting u).rel.lasting := by
  show u ∈ (if s.rel.lasting.contains u then s.rel.lasting else u :: s.rel.lasting)
  split
  · next h => exact List.contains_iff_mem.mp h
  · exact List.mem_cons_self

theorem State.mem_postNow (s : State) (e : Instr) : (⟨.ext, s.sch.extClk, e⟩ : Due) ∈ (s.postNow e).sch.agenda :=
  List.mem_append_right _ (List.mem_singleton_self _)

/-- The strips whose fence is pending, as the strip's fault leaves them. -/
def Core.pendStrip (k : Core) (i : Fin 8) : Core := { k with mx := { k.mx with stripPend := k.mx.stripPend ||| (1#8 <<< i.val) } }

theorem Core.pendStrip_bit (k : Core) (i : Fin 8) : (k.pendStrip i).mx.stripPend.getLsbD i.val = true := by
  have hi := i.isLt
  simp [Core.pendStrip, hi]

/-- The strips that the fence of the free engines reaches. -/
theorem Core.getLsbD_fenced_fenceDue (k : Core) (now : Nat) {i : Nat} (hi : i < 8) :
    (k.fenceDue now).mx.fenced.getLsbD i =
      (k.mx.fenced.getLsbD i || (k.mx.stripPend.getLsbD i && decide ((k.engine (i / 4)).freeAt ≤ now))) := by
  show (k.mx.fenced ||| maskOf 8 fun i => k.mx.stripPend.getLsbD i && decide ((k.engine (i / 4)).freeAt ≤ now)).getLsbD i = _
  rw [BitVec.getLsbD_or, getLsbD_maskOf, decide_eq_true hi, Bool.true_and]

/-- A strip whose fence is pending is fenced or still pending once the free engines are. -/
theorem Core.fenceDue_keeps (k : Core) (now : Nat) {i : Nat} (hi : i < 8) (h : k.mx.stripPend.getLsbD i = true) :
    ((k.fenceDue now).mx.stripPend ||| (k.fenceDue now).mx.fenced).getLsbD i = true := by
  rw [BitVec.getLsbD_or, Core.getLsbD_fenced_fenceDue _ _ hi, h, Bool.true_and]
  show ((k.mx.stripPend &&& ~~~maskOf 8 fun i => k.mx.stripPend.getLsbD i && decide ((k.engine (i / 4)).freeAt ≤ now)).getLsbD i ||
    (_ || _)) = true
  rw [BitVec.getLsbD_and, BitVec.getLsbD_not, getLsbD_maskOf, decide_eq_true hi, h]
  cases decide ((k.engine (i / 4)).freeAt ≤ now) <;> simp

theorem State.core_fenceStrips (s : State) {c : Nat} (hc : c < 768) : (s.fenceStrips c).core c = (s.core c).fenceDue (s.now c) := by
  unfold State.fenceStrips
  dsimp only
  split
  · exact (State.core_congr (State.postNow_cores ..) c).trans (State.core_setCore _ _ _ hc)
  · exact State.core_setCore _ _ _ hc

theorem State.fenceStrips_rel (s : State) (c : Nat) : (s.fenceStrips c).rel = s.rel := by
  unfold State.fenceStrips
  dsimp only
  split <;> rfl

/-! ## Slices and dies (R13) -/

/-- A die without a slice: the controllers keep what they have counted, and which slices are fenced. -/
theorem State.fixed_dieGone (s : State) (die : Nat) : s.Fixed (s.dieGone die) := by
  unfold State.dieGone
  dsimp only
  refine State.Fixed.trans ?_ (State.foldl_fixed (fun s x => s.fixed_record ..) _ _)
  exact (State.foldl_fixed (fun s x => s.fixed_resetCtx x) _ s).trans (State.fixed_modSch ..)

theorem State.fixed_slicesGone (s : State) (d : Nat) (b : Bool) : s.Fixed (if b = true then s.dieGone d else s) := by
  split
  · exact s.fixed_dieGone d
  · exact .refl s

theorem State.fixed_coresLost (s : State) (b : Bool) (f : Nat → Nat) :
    s.Fixed (if b = true then (List.range 48).foldl (fun (s : State) j => s.postNow (.coreLoss (f j))) s else s) := by
  split
  · exact State.foldl_fixed (fun s j => (State.posts_postNow s (.coreLoss (f j))).fixed) _ s
  · exact .refl s

/-- A slice's lasting fault fences it, whatever is lost with it. -/
theorem State.lasting_slice (s : State) (d : Fin 4) (i : Fin 64) :
    State.Fixed { s.keepLasting (.slice d i) with slices := s.slices ||| (1#256 <<< (64 * d.val + i.val)) } (s.lasting (.slice d i)) := by
  unfold State.lasting
  exact (State.fixed_slicesGone _ d.val _).trans (State.fixed_coresLost _ _ fun j => d.val * 192 + i.val / 16 * 48 + j)

/-! ## What a lasting fault does -/

section
variable {s t : State} {u : UnitId}

/-- The state in which the third event of a unit has been told. -/
def State.thirdTold (s : State) (u : UnitId) : State := (s.counted u 3).tellEvent u 2 3

theorem State.thirdTold_core (s : State) (u : UnitId) (c : Nat) : (s.thirdTold u).core c = s.core c :=
  State.core_congr (State.tellEvent_cores ..) c

theorem State.thirdTold_now (s : State) (u : UnitId) (c : Nat) : (s.thirdTold u).now c = s.now c := State.tellEvent_now ..

theorem State.thirdTold_extClk (s : State) (u : UnitId) : (s.thirdTold u).sch.extClk = s.sch.extClk := State.tellEvent_extClk ..

theorem laneLasting_spec {c : Nat} {l : Fin 32} (hc : c < 768) (ht : t = (s.thirdTold (.lane c l)).lasting (.lane c l)) :
    .lane c l ∈ t.rel.lasting ∧ (t.core c).lanePend = (s.core c).lanePend ||| 1#32 <<< l.val ∧
      (⟨.ext, s.sch.extClk, .quiescePoint c⟩ : Due) ∈ t.sch.agenda := by
  have hx : t = (((s.thirdTold (.lane c l)).keepLasting (.lane c l)).modCore c fun k =>
      { k with lanePend := k.lanePend ||| (1#32 <<< l.val) }).postNow (.quiescePoint c) := ht
  have hcore : ((s.thirdTold (.lane c l)).keepLasting (.lane c l)).core c = s.core c := s.thirdTold_core ..
  refine ⟨?_, ?_, ?_⟩
  · rw [hx]
    exact State.mem_keepLasting ..
  · rw [hx, State.core_congr (State.postNow_cores ..), State.core_modCore _ _ _ hc, hcore]
  · rw [hx, ← State.thirdTold_extClk s (.lane c l)]
    exact State.mem_postNow ..

theorem stripLasting_spec {c : Nat} {i : Fin 8} (hc : c < 768) (ht : t = (s.thirdTold (.strip c i)).lasting (.strip c i)) :
    .strip c i ∈ t.rel.lasting ∧ ((t.core c).mx.stripPend ||| (t.core c).mx.fenced).getLsbD i.val = true ∧
      (((s.core c).engine (i.val / 4)).freeAt ≤ s.now c → (t.core c).mx.fenced.getLsbD i.val = true) := by
  have hx : t = ((((s.thirdTold (.strip c i)).keepLasting (.strip c i)).modCore c fun k => k.pendStrip i)).fenceStrips c := ht
  have hcore : ((s.thirdTold (.strip c i)).keepLasting (.strip c i)).core c = s.core c := s.thirdTold_core ..
  have hnow : (((s.thirdTold (.strip c i)).keepLasting (.strip c i)).modCore c fun k => k.pendStrip i).now c = s.now c :=
    s.thirdTold_now ..
  have ht' : t.core c = ((s.core c).pendStrip i).fenceDue (s.now c) := by
    rw [hx, State.core_fenceStrips _ hc, State.core_modCore _ _ _ hc, hcore, hnow]
  have hbit := Core.pendStrip_bit (s.core c) i
  refine ⟨?_, ?_, fun hfree => ?_⟩
  · rw [hx, State.fenceStrips_rel]
    exact State.mem_keepLasting ..
  · rw [ht']
    exact Core.fenceDue_keeps _ _ i.isLt hbit
  · rw [ht', Core.getLsbD_fenced_fenceDue _ _ i.isLt, hbit]
    have : decide ((((s.core c).pendStrip i).engine (i.val / 4)).freeAt ≤ s.now c) = true := decide_eq_true hfree
    rw [this, Bool.and_self, Bool.or_true]

theorem coreLasting_spec {c : Nat} (ht : t = (s.thirdTold (.core c)).lasting (.core c)) :
    .core c ∈ t.rel.lasting ∧ (⟨.ext, s.sch.extClk, .coreLoss c⟩ : Due) ∈ t.sch.agenda := by
  have hx : t = ((s.thirdTold (.core c)).keepLasting (.core c)).postNow (.coreLoss c) := ht
  refine ⟨?_, ?_⟩
  · rw [hx]
    exact State.mem_keepLasting ..
  · rw [hx, ← State.thirdTold_extClk s (.core c)]
    exact State.mem_postNow ..

theorem sliceLasting_spec {d : Fin 4} {i : Fin 64} (ht : t = (s.thirdTold (.slice d i)).lasting (.slice d i)) :
    .slice d i ∈ t.rel.lasting ∧ t.slices = s.slices ||| 1#256 <<< (64 * d.val + i.val) := by
  have h := (s.thirdTold (.slice d i)).lasting_slice d i
  rw [ht]
  refine ⟨?_, ?_⟩
  · rw [h.rel]
    exact State.mem_keepLasting ..
  · rw [h.slices]
    exact congrArg (· ||| _) (State.tellEvent_slices ..)

/-- A port or a lane group that is not used any more. -/
theorem linkLasting_spec (hu : (∃ m, u = .port m) ∨ ∃ d g, u = .bnd d g) (ht : t = (s.thirdTold u).lasting u) :
    u ∈ t.rel.lasting ∧ t.cores = s.cores ∧ t.mem = s.mem := by
  have hx : t = (s.thirdTold u).keepLasting u := by
    rcases hu with ⟨m, rfl⟩ | ⟨d, g, rfl⟩
    · exact ht
    · exact ht
  rw [hx]
  exact ⟨State.mem_keepLasting .., State.tellEvent_cores .., State.tellEvent_mem ..⟩

end

/-! ## A core lost (R349) -/

/-- A core with no group, out of service. -/
def State.Lost (s : State) (c : Nat) : Prop := (s.core c).enabled = false ∧ (s.core c).groups = Vector.replicate 32 none

section
variable {s t : State} {c : Nat}

theorem State.Lost.group (h : s.Lost c) (g : Nat) : s.group? c g = none := by
  rw [State.group?, h.2, Vector.getElem?_replicate]
  split <;> rfl

theorem State.Lost.congr (h : s.Lost c) (hc : t.cores = s.cores) : t.Lost c := by
  unfold State.Lost
  rw [State.core_congr hc]
  exact h

/-- A group of a context whose place table has changed. -/
def topoMark (ctx : Nat) (g : Option Group) : Option Group :=
  g.map fun G => if G.ctx = ctx then { G with spec := { G.spec with topochg := true } } else G

/-- A change of a place table marks the groups of its cores; where there is none, nothing changes (R335). -/
theorem State.Lost.topoChange (h : s.Lost c) (ctx : Nat) : (s.topoChange ctx).Lost c := by
  obtain ⟨hen, hgroups⟩ := h
  have hx : (s.topoChange ctx).cores = s.cores.map fun k =>
      if k.groups.toList.any fun g => g.any fun G => G.ctx == ctx then { k with groups := k.groups.map (topoMark ctx) } else k := rfl
  by_cases hc : c < 768
  · have hcore : (s.topoChange ctx).core c = if (s.core c).groups.toList.any fun g => g.any fun G => G.ctx == ctx then
        { s.core c with groups := (s.core c).groups.map (topoMark ctx) } else s.core c := by
      simp [State.core, hx, hc]
    unfold State.Lost
    rw [hcore]
    split
    · refine ⟨hen, ?_⟩
      rw [hgroups, Vector.map_replicate, topoMark, Option.map_none]
    · exact ⟨hen, hgroups⟩
  · unfold State.Lost at *
    rw [State.core_of_le (by omega)] at *
    exact ⟨hen, hgroups⟩

theorem State.Lost.placeRemove (h : s.Lost c) (ctx d : Nat) : (s.placeRemove ctx d).Lost c := by
  unfold State.placeRemove
  split
  · exact h
  · exact State.Lost.topoChange (h.congr (t := s.modCtx ctx _) rfl) ctx

end

end Sys2Proof.Machine
end

section
/-! SUPPORT. A lost core, and the steps of power, temperatures and bring-up (R349, R359 to R370, R380). -/

namespace Sys2Proof.Machine

open Sys2Proof

/-! ## CORE_LOSS -/

section
variable {s : State} {c : Nat}

/-- A crew of a lost core rolled back or its leg aborted, or a place that was reserved for it given up. -/
theorem State.fixed_crewLost (s : State) (c : Nat) (p : Nat × Crew) : s.Fixed (match p with
    | (x, k) => if k.onCore then s.rollback x k.id .ueData (some c)
      else s.modCtx x fun y => { y with reservations := y.reservations.filter fun r => !r.2.contains k.id }) :=
  State.Fixed.ite (s.fixed_rollback ..) (s.fixed_modCtx p.1)

theorem State.lost_placeRemoves (h : s.Lost c) (xs : List Nat) : (xs.foldl (fun (s : State) x => s.placeRemove x c) s).Lost c := by
  induction xs generalizing s with
  | nil => exact h
  | cons x xs ih => exact ih (h.placeRemove x c)

theorem State.lost_emptied (h : (s.core c).enabled = false) (hc : c < 768) (m : Core → Matrix) :
    (s.modCore c fun k => { k with groups := Vector.replicate 32 none, mx := m k }).Lost c := by
  unfold State.Lost
  rw [State.core_modCore _ _ _ hc]
  exact ⟨h, rfl⟩

theorem State.enabled_modCore (s : State) (hc : c < 768) {f : Core → Core} (hf : (f (s.core c)).enabled = false) :
    ((s.modCore c f).core c).enabled = false := by
  rw [State.core_modCore _ _ _ hc, hf]

theorem coreLoss_runs (hc : c < 768) (hen : (s.core c).enabled = true) :
    Runs (.coreLoss c) s fun t => (t.core c).enabled = false ∧ ∀ g, t.group? c g = none := by
  have key : ∃ (w : State) (m : Core → Matrix) (ys : List Nat), (w.core c).enabled = false ∧
      exec (.coreLoss c) s = .next ((ys.foldl (fun (s : State) x => s.placeRemove x c)
        (w.modCore c fun k => { k with groups := Vector.replicate 32 none, mx := m k })).wakeRegions.retryAll) := by
    have hx : exec (.coreLoss c) s = execCoreLoss c s := rfl
    rw [hx, execCoreLoss, hen, if_neg (by simp [hc])]
    refine ⟨_, _, _, ?enabled, rfl⟩
    rw [(State.foldl_fixed (fun s x => s.fixed_failTokens ..) _ _).enabled,
      (State.foldl_fixed (fun s p => s.fixed_crewLost c p) _ _).enabled]
    exact State.enabled_modCore _ hc rfl
  obtain ⟨w, m, ys, hmid, hx⟩ := key
  have hlost := State.lost_placeRemoves (State.lost_emptied hmid hc m) ys
  have hend := (hlost.congr (State.posts_wakeRegions _).cores).congr (State.retryAll_cores _)
  exact ⟨_, hx, hend.1, hend.group⟩

end

/-! ## GRANT_UPDATE (R359) -/

/-- A core's GRANT set. -/
def State.setGrant (s : State) (c : Nat) (g : BitVec 8) : State := s.modCore c fun k => { k with grant := g }

theorem State.setGrants_mem (ps : List (Nat × BitVec 8)) (s : State) : (ps.foldl (fun s p => s.setGrant p.1 p.2) s).mem = s.mem := by
  induction ps generalizing s with
  | nil => rfl
  | cons p ps ih => exact (ih _).trans rfl

theorem State.setGrants_core {ps : List (Nat × BitVec 8)} {c : Nat} (hc : ∀ g, (c, g) ∉ ps) (s : State) :
    (ps.foldl (fun s p => s.setGrant p.1 p.2) s).core c = s.core c := by
  induction ps generalizing s with
  | nil => rfl
  | cons p ps ih =>
    have hp : c ≠ p.1 := fun h => hc p.2 (h ▸ List.mem_cons_self)
    exact (ih (fun g hg => hc g (List.mem_cons_of_mem _ hg)) _).trans (State.core_modCore_ne _ _ _ _ hp)

/-- GRANTs set one after the other, each core once: every one has its own. -/
theorem State.setGrants_grant {ps : List (Nat × BitVec 8)} {c : Nat} {g : BitVec 8} (hnd : (ps.map Prod.fst).Nodup) (hp : (c, g) ∈ ps)
    (hc : c < 768) (s : State) : ((ps.foldl (fun s p => s.setGrant p.1 p.2) s).core c).grant = g := by
  induction ps generalizing s with
  | nil => cases hp
  | cons p ps ih =>
    obtain ⟨hout, hnd⟩ := List.nodup_cons.mp hnd
    rcases List.mem_cons.mp hp with rfl | hp
    · show ((ps.foldl (fun s p => s.setGrant p.1 p.2) (s.setGrant c g)).core c).grant = g
      rw [State.setGrants_core (fun _ hg => hout (List.mem_map.mpr ⟨_, hg, rfl⟩)), State.setGrant, State.core_modCore _ _ _ hc]
    · exact ih hnd hp _

theorem nodup_quadCores (q : Nat) : (State.quadCores q).Nodup :=
  List.Nodup.map (fun i j (h : 48 * q + i = 48 * q + j) => Nat.add_left_cancel h) List.nodup_range

theorem grantUpdate_runs (s : State) (q : Fin 16) {gs : List (BitVec 8)} (hgs : gs.length = 48) :
    Runs (.grantUpdate q.val gs) s fun t => t.mem = s.mem ∧ ∀ i : Fin 48, some (t.core (48 * q.val + i.val)).grant = gs[i.val]? := by
  have hx : exec (.grantUpdate q.val gs) s = execGrantUpdate q.val gs s := rfl
  have hfold : execGrantUpdate q.val gs s = .next (((State.quadCores q.val).zip gs).foldl (fun s p => s.setGrant p.1 p.2) s) :=
    if_pos q.isLt
  have hlen : (State.quadCores q.val).length = 48 := by simp [State.quadCores]
  refine ⟨_, hx.trans hfold, State.setGrants_mem .., fun i => ?_⟩
  have hi := i.isLt
  have hq := q.isLt
  have hmem : (48 * q.val + i.val, gs[i.val]'(by omega)) ∈ (State.quadCores q.val).zip gs := by
    rw [List.mem_iff_getElem]
    exact ⟨i.val, by rw [List.length_zip]; omega, by simp [State.quadCores]⟩
  have hfst : ((State.quadCores q.val).zip gs).map Prod.fst = State.quadCores q.val := List.map_fst_zip (by omega)
  have hnd : (((State.quadCores q.val).zip gs).map Prod.fst).Nodup := by
    rw [hfst]
    exact nodup_quadCores q.val
  rw [State.setGrants_grant hnd hmem (by omega), List.getElem?_eq_getElem]

/-! ## Steps (R363) -/

/-- A quadrant but for the raise of its rail. -/
def Quad.still (x : Quad) : Quad := { x with raising := none, raiseAt := 0 }

theorem State.still_modQuad (s : State) (q n : Nat) {f : Quad → Quad} (hf : ∀ x, (f x).still = x.still) :
    ((s.modQuad q f).quad n).still = (s.quad n).still := by
  by_cases hn : n = q
  · subst hn
    by_cases hl : n < 16
    · rw [State.quad_modQuad _ _ _ hl, hf]
    · rw [State.quad, State.quad, Vector.getElem?_eq_none (by omega), Vector.getElem?_eq_none (by omega)]
  · rw [State.quad_modQuad_ne _ _ _ _ hn]

/-- A rail that is looked at again: a quadrant's raise may begin or be given up, and nothing else of it changes. -/
theorem State.still_rail (s : State) (q n : Nat) : ((s.rail q).quad n).still = (s.quad n).still := by
  unfold State.rail
  dsimp only
  split
  · rfl
  · split
    · exact s.still_modQuad q n (f := fun x => { x with raising := none }) fun _ => rfl
    · split
      · exact s.still_modQuad q n fun _ => rfl
      · split
        · rfl
        · have hraise := fun u : State => u.still_modQuad q n (f := fun x =>
            { x with raising := some (s.target q), raiseAt := s.clock (.quad q) }) fun _ => rfl
          split
          · exact hraise (s.modSch _)
          · exact hraise (s.modSch _)

theorem State.rail_cur (s : State) (q n : Nat) : ((s.rail q).quad n).cur = (s.quad n).cur := (congrArg Quad.cur (s.still_rail q n) :)

theorem State.rail_volt (s : State) (q n : Nat) : ((s.rail q).quad n).volt = (s.quad n).volt := (congrArg Quad.volt (s.still_rail q n) :)

theorem State.rail_temp (s : State) (q n : Nat) : ((s.rail q).quad n).temp = (s.quad n).temp := (congrArg Quad.temp (s.still_rail q n) :)

theorem State.rail_thermCap (s : State) (q n : Nat) : ((s.rail q).quad n).thermCap = (s.quad n).thermCap :=
  (congrArg Quad.thermCap (s.still_rail q n) :)

theorem State.rail_calibrated (s : State) (q n : Nat) : ((s.rail q).quad n).calibrated = (s.quad n).calibrated :=
  (congrArg Quad.calibrated (s.still_rail q n) :)

section
variable {s : State} {q : Fin 16}

theorem stepRaise_runs {n : BitVec 5} (hj : (s.quad q.val).joined = true) (hn : (s.quad q.val).raising = some n) :
    let x := s.quad q.val
    let step := if s.target q.val < n then s.target q.val else n
    Runs (.stepRaise q.val) s fun t => (t.quad q.val).cur = (if x.cur < step then step else x.cur) ∧
      (t.quad q.val).volt = (if x.volt < n then n else x.volt) := by
  intro x step
  let u : State := s.modQuad q.val fun x => { x with raising := none, volt := if x.volt < n then n else x.volt }
  have hu : u.quad q.val = { x with raising := none, volt := if x.volt < n then n else x.volt } := State.quad_modQuad _ _ _ q.isLt
  have hx : exec (.stepRaise q.val) s = .next ((if x.cur < step then u.applyStep q.val step else u).rail q.val) := by
    have hx : exec (.stepRaise q.val) s = execStepRaise q.val s := rfl
    rw [hx, execStepRaise]
    dsimp only
    rw [hn]
    dsimp only
    rw [hj, if_neg (by simp)]
  refine ⟨_, hx, ?_⟩
  beta_reduce
  rw [State.rail_cur, State.rail_volt]
  split
  · rw [State.applyStep, State.quad_modQuad _ _ _ q.isLt, hu]
    exact ⟨rfl, rfl⟩
  · rw [hu]
    exact ⟨rfl, rfl⟩

theorem stepLower_runs (hj : (s.quad q.val).joined = true) (hlt : s.target q.val < (s.quad q.val).cur) :
    Runs (.stepLower q.val) s fun t => (t.quad q.val).cur = s.target q.val ∧ (t.quad q.val).volt = (s.quad q.val).volt ∧
      (t.quad q.val).falling = (s.quad q.val).falling ++ [s.target q.val] ∧
      (⟨.reg q.val, s.regNow q.val + 4096, .voltageFall q.val⟩ : Due) ∈ t.sch.agenda := by
  let u : State := (s.applyStep q.val (s.target q.val)).modQuad q.val fun x =>
    { x with raising := none, falling := x.falling ++ [s.target q.val] }
  have hx : exec (.stepLower q.val) s = .next (u.post (.reg q.val) (s.regNow q.val + 4096) (.voltageFall q.val)) := by
    have hx : exec (.stepLower q.val) s = execStepLower q.val s := rfl
    rw [hx, execStepLower]
    dsimp only
    rw [hj, decide_eq_true hlt, if_neg (by simp)]
    rfl
  have hu : (u.post (.reg q.val) (s.regNow q.val + 4096) (.voltageFall q.val)).quad q.val = u.quad q.val := rfl
  refine ⟨_, hx, ?_⟩
  beta_reduce
  rw [hu, State.quad_modQuad _ _ _ q.isLt, State.applyStep, State.quad_modQuad _ _ _ q.isLt]
  exact ⟨rfl, rfl, rfl, List.mem_append_right _ (List.mem_singleton_self _)⟩

theorem voltageFall_runs {v : BitVec 5} {rest : List (BitVec 5)} (hv : (s.quad q.val).falling = v :: rest) :
    Runs (.voltageFall q.val) s fun t => t.mem = s.mem ∧
      t.quad q.val = { s.quad q.val with volt := (s.quad q.val).fallen v, falling := rest } := by
  have hx : exec (.voltageFall q.val) s = execVoltageFall q.val s := rfl
  refine ⟨s.modQuad q.val fun x => { x with volt := x.fallen v, falling := rest }, ?_, rfl, State.quad_modQuad _ _ _ q.isLt⟩
  rw [hx, execVoltageFall, hv]
  exact if_neg (by have := q.isLt; omega)

end

/-! ## Temperatures (R366 to R368) -/

theorem State.tellThermal_spec (s : State) (die n : Nat) : ∃ e : EvRec, (s.keepEvent e).OnlyRecords (s.tellThermal die n) :=
  ⟨_, State.foldl_onlyRecords (fun s x => s.onlyRecords_record ..) _ _⟩

theorem State.tellThermal_quad (s : State) (die n q : Nat) : (s.tellThermal die n).quad q = s.quad q := by
  obtain ⟨e, h⟩ := s.tellThermal_spec die n
  rw [State.quad, h.quads]
  rfl

theorem State.tellThermal_mem (s : State) (die n : Nat) : (s.tellThermal die n).mem = s.mem := by
  obtain ⟨e, h⟩ := s.tellThermal_spec die n
  exact h.mem

theorem State.tellThermal_mgmt (s : State) (die n : Nat) : (s.tellThermal die n).mgmt = s.mgmt := by
  obtain ⟨e, h⟩ := s.tellThermal_spec die n
  exact h.mgmt

/-- The hottest of some junctions. -/
def hottest (js : List (BitVec 8)) : BitVec 8 := js.foldl (fun m j => if m ≤ j then j else m) 0

theorem thermalCapStep_runs {s : State} {q : Fin 16} (js : List (BitVec 8)) (hj : (s.quad q.val).joined = true) :
    let x := s.quad q.val
    Runs (.thermalCapStep q.val js) s fun t => (t.quad q.val).temp = hottest js ∧ (t.quad q.val).thermCap =
      (if x.hotlim < hottest js then (if 4 < x.thermCap then x.thermCap - 1 else x.thermCap)
      else if (hottest js).toNat + 5 < x.hotlim.toNat ∧ x.thermCap < x.hostCap then x.thermCap + 1 else x.thermCap) := by
  intro x
  have hm : (s.measure q.val js).quad q.val = { x with temp := hottest js, heat := js, cool := coolOf js x.hotlim } :=
    State.quad_modQuad _ _ _ q.isLt
  have hx : exec (.thermalCapStep q.val js) s = execThermalCapStep q.val js s := rfl
  unfold Runs
  rw [hx, execThermalCapStep]
  dsimp only
  rw [hj, if_neg (by simp), hm]
  dsimp only
  split
  · refine ⟨_, rfl, ?_⟩
    rw [State.rail_temp, State.rail_thermCap, State.tellThermal_quad, State.quad_modQuad _ _ _ q.isLt, hm]
    exact ⟨rfl, rfl⟩
  · simp only [Bool.and_eq_true, decide_eq_true_eq]
    split
    · refine ⟨_, rfl, ?_⟩
      rw [State.rail_temp, State.rail_thermCap, State.quad_modQuad _ _ _ q.isLt, hm]
      exact ⟨rfl, rfl⟩
    · exact ⟨_, rfl, by rw [hm], by rw [hm]⟩

theorem getLsbD_bit32 (d : Fin 32) : (1#32 <<< d.val).getLsbD d.val = true := by
  simp

theorem gddrTempReport_runs (s : State) (d : Fin 32) (x : BitVec 8) :
    Runs (.gddrTempReport d.val x) s fun t => t.mgmt.gddrTemp[d] = x ∧ t.mem = s.mem ∧
      t.mgmt.gddrDouble.getLsbD d.val = (if 85 < x then true else if x < 80 then false else s.mgmt.gddrDouble.getLsbD d.val) := by
  have hx : exec (.gddrTempReport d.val x) s = execGddrTempReport d.val x s := rfl
  have hd := d.isLt
  have key : ∀ t : State, t.mgmt = { s.mgmt with
      gddrTemp := s.mgmt.gddrTemp.setIfInBounds d.val x,
      gddrDouble := if 85 < x then s.mgmt.gddrDouble ||| (1#32 <<< d.val) else if x < 80 then s.mgmt.gddrDouble &&& ~~~(1#32 <<< d.val)
        else s.mgmt.gddrDouble } → t.mgmt.gddrTemp[d] = x ∧
      t.mgmt.gddrDouble.getLsbD d.val = (if 85 < x then true else if x < 80 then false else s.mgmt.gddrDouble.getLsbD d.val) := by
    intro t ht
    rw [ht]
    refine ⟨by simp, ?_⟩
    dsimp only
    split
    · rw [BitVec.getLsbD_or, getLsbD_bit32, Bool.or_true]
    · split
      · rw [BitVec.getLsbD_and, BitVec.getLsbD_not, getLsbD_bit32, Bool.not_true, Bool.and_false, Bool.and_false]
      · rfl
  unfold Runs
  rw [hx, execGddrTempReport, if_neg (by omega)]
  dsimp only
  split
  · exact ⟨_, rfl, (key _ (State.tellThermal_mgmt ..)).1, State.tellThermal_mem .., (key _ (State.tellThermal_mgmt ..)).2⟩
  · exact ⟨_, rfl, (key _ rfl).1, rfl, (key _ rfl).2⟩

/-! ## Bring-up (R370, R380) -/

/-- Free numbers drawn, and nothing else. -/
theorem State.freeBytes_spec (s : State) (n : Nat) : ∃ k, (s.freeBytes n).2 = { s with sch := { s.sch with free := k } } := by
  induction n generalizing s with
  | zero => exact ⟨_, rfl⟩
  | succ n ih =>
    obtain ⟨k, hk⟩ := ih s.freeNat.2
    exact ⟨k, hk⟩

theorem State.freeBytes_quads (s : State) (n : Nat) : (s.freeBytes n).2.quads = s.quads := by
  obtain ⟨k, hk⟩ := s.freeBytes_spec n
  rw [hk]

section
variable {s : State} {q : Fin 16}

theorem quadrantJoin_runs (js : List (BitVec 8)) (hb : s.mgmt.booted = true) (hj : (s.quad q.val).joined = false)
    (hall : ∀ i, i < q.val → (s.quad i).joined = true) :
    Runs (.quadrantJoin q.val js) s fun t => (t.quad q.val).joined = true ∧ (t.quad q.val).calibrated = false ∧ (t.quad q.val).cur = 8 := by
  have hx : exec (.quadrantJoin q.val js) s = execQuadrantJoin q.val js s := rfl
  have hq := q.isLt
  have hbefore : (List.range q.val).all (fun i => (s.quad i).joined) = true :=
    List.all_eq_true.mpr fun i hi => hall i (List.mem_range.mp hi)
  have key : ∀ t : State, t.quads = ((s.modQuad q.val fun x => { x with
      joined := true, calibrated := false, cur := 8, volt := 8, raising := none, falling := [] }).measure q.val js).quads →
      (t.quad q.val).joined = true ∧ (t.quad q.val).calibrated = false ∧ (t.quad q.val).cur = 8 := by
    intro t ht
    have h := State.quad_modQuad (s.modQuad q.val fun x => { x with
      joined := true, calibrated := false, cur := 8, volt := 8, raising := none, falling := [] }) q.val
      (fun x => { x with temp := hottest js, heat := js, cool := coolOf js x.hotlim }) hq
    have ht : t.quad q.val = _ := (congrArg (fun v => v[q.val]?.getD Quad.reset) ht).trans h
    rw [ht, State.quad_modQuad _ _ _ hq]
    exact ⟨rfl, rfl, rfl⟩
  unfold Runs
  rw [hx, execQuadrantJoin, if_neg (by rw [hb, hj, hbefore]; simp)]
  dsimp only
  split
  · exact ⟨_, rfl, key _ rfl⟩
  · exact ⟨_, rfl, key _ (State.freeBytes_quads ..)⟩

theorem State.forced_setForced (u : State) (xs : List Nat) (b : Bool) {i : Nat} (hi : i ∈ xs) (hl : i < 16) :
    ((u.setForced xs b).ctx i).forced = b := by
  have key : ∀ (xs : List Nat) (u : State), (i ∈ xs ∨ (u.ctx i).forced = b) →
      ((xs.foldl (fun (s : State) x => s.modCtx x fun y => { y with forced := b }) u).ctx i).forced = b := by
    intro xs
    induction xs with
    | nil => exact fun u h => h.resolve_left (by simp)
    | cons x xs ih =>
      intro u h
      refine ih _ ?_
      by_cases hx : i = x
      · subst hx
        exact .inr (by rw [State.ctx_modCtx _ _ _ hl])
      · rcases h with h | h
        · exact .inl ((List.mem_cons.mp h).resolve_left hx)
        · exact .inr (by rw [State.ctx_modCtx_ne _ _ _ _ hx, h])
  unfold State.setForced
  dsimp only
  rw [State.ctx_congr (State.foldl_posts (fun s c => State.posts_postNow ..) _ _).onlyBytes.ctxs]
  exact key xs u (.inl hi)

theorem State.setForced_quads (u : State) (xs : List Nat) (b : Bool) : (u.setForced xs b).quads = u.quads := by
  have key : ∀ (xs : List Nat) (u : State),
      (xs.foldl (fun (s : State) x => s.modCtx x fun y => { y with forced := b }) u).quads = u.quads := by
    intro xs
    induction xs with
    | nil => exact fun u => rfl
    | cons x xs ih => exact fun u => (ih _).trans rfl
  unfold State.setForced
  obtain ⟨l, hl⟩ := State.foldl_posts (f := fun (s : State) c => s.postNow (.quiescePoint c)) (fun s c => State.posts_postNow ..)
    ((List.range 768).filter (xs.foldl (fun (s : State) x => s.modCtx x fun y => { y with forced := b }) u).quiescing)
    (xs.foldl (fun (s : State) x => s.modCtx x fun y => { y with forced := b }) u)
  exact (congrArg State.quads hl).trans (key xs u)

theorem quadrantCalibrated_runs (hj : (s.quad q.val).joined = true) (hc : (s.quad q.val).calibrated = false) :
    Runs (.quadrantCalibrated q.val) s fun t => (t.quad q.val).calibrated = true ∧
      ((∀ i : Fin 16, i ≠ q → (s.quad i.val).calibrated = true) → ∀ i : Fin 16, (t.ctx i.val).forced = false) := by
  have hx : exec (.quadrantCalibrated q.val) s = execQuadrantCalibrated q.val s := rfl
  have hq := q.isLt
  let u : State := s.modQuad q.val fun x => { x with calibrated := true }
  have hu : (u.quad q.val).calibrated = true := by rw [State.quad_modQuad _ _ _ hq]
  have hstep : exec (.quadrantCalibrated q.val) s =
      .next ((if u.inService then u.setForced (List.range 16) false else u).rail q.val) := by
    rw [hx, execQuadrantCalibrated, if_neg (by rw [hj, hc]; simp)]
  refine ⟨_, hstep, ?_, fun hall i => ?_⟩
  · rw [State.rail_calibrated]
    split
    · rw [State.quad, State.setForced_quads]
      exact hu
    · exact hu
  · have hserve : u.inService = true := List.all_eq_true.mpr fun n hn => by
      by_cases h : n = q.val
      · rw [h, hu]
      · rw [State.quad_modQuad_ne _ _ _ _ h]
        exact hall ⟨n, List.mem_range.mp hn⟩ fun he => h (congrArg Fin.val he)
    rw [hserve, if_pos rfl, State.ctx_congr (State.onlyBytes_rail ..).ctxs]
    exact u.forced_setForced _ _ (List.mem_range.mpr i.isLt) i.isLt

end

/-- A stage that the chain runs: signed, and of a leaf beyond the counter. -/
def GoodStage (counter : Nat) (i : Image) : Prop := Config.xmssAccepts i.bytes i.sig i.leaf = true ∧ counter < i.leaf

theorem State.bootChain_keeps (is : List Image) (m : Mgmt) :
    (State.bootChain m is).counter = m.counter ∧ (State.bootChain m is).flash = m.flash := by
  induction is generalizing m with
  | nil => exact ⟨rfl, rfl⟩
  | cons i is ih =>
    unfold State.bootChain
    split
    · exact ih _
    · exact ⟨rfl, rfl⟩

/-- The chain measures its stages, while each is good. -/
theorem State.bootChain_log (is : List Image) (m : Mgmt) (h : ∀ i ∈ is, GoodStage m.counter i) :
    (State.bootChain m is).log = m.log ++ is.map fun i => Config.shake256 i.bytes := by
  induction is generalizing m with
  | nil => exact (List.append_nil _).symm
  | cons i is ih =>
    obtain ⟨hi, his⟩ := List.forall_mem_cons.mp h
    unfold State.bootChain
    rw [hi.1, decide_eq_true hi.2, Bool.and_self, if_pos rfl]
    refine (ih _ ?_).trans ?_
    · exact his
    rw [List.map_cons, List.append_assoc]
    rfl

/-- The chain boots the module when there are stages and all of them are good. -/
theorem State.bootChain_booted (is : List Image) (m : Mgmt) (hm : m.booted = false) :
    (State.bootChain m is).booted = true ↔ is ≠ [] ∧ ∀ i ∈ is, GoodStage m.counter i := by
  induction is generalizing m with
  | nil => simp [State.bootChain, hm]
  | cons i is ih =>
    unfold State.bootChain
    by_cases hi : GoodStage m.counter i
    · rw [hi.1, decide_eq_true hi.2, Bool.and_self, if_pos rfl]
      cases is with
      | nil => simp [State.bootChain, hi]
      | cons j js =>
        rw [ih _ rfl]
        simp [hi]
    · have hno : (Config.xmssAccepts i.bytes i.sig i.leaf && decide (m.counter < i.leaf)) = false := by
        rw [Bool.eq_false_iff]
        intro h
        rw [Bool.and_eq_true, decide_eq_true_eq] at h
        exact hi h
      rw [hno, if_neg Bool.false_ne_true, hm]
      simp [hi]

theorem State.joinAll_spec (s : State) : (s.joinAll).mem = s.mem ∧ (s.joinAll).mgmt = s.mgmt ∧
    ∃ js, (⟨.ext, s.sch.extClk, .quadrantJoin 0 js⟩ : Due) ∈ s.joinAll.sch.agenda := by
  obtain ⟨k, hk⟩ := s.freeBytes_spec 12
  have hx : s.joinAll = ((s.freeBytes 12).2).postNow (.quadrantJoin 0 (s.freeBytes 12).1) := rfl
  rw [hx, hk]
  exact ⟨rfl, rfl, _, List.mem_append_right _ (List.mem_singleton_self _)⟩

theorem powerUp_runs {s : State} (is : List Image) (hb : s.mgmt.booted = false) :
    let flash := if is = [] then s.mgmt.flash else is
    Runs (.powerUp is) s fun t => t.mem = s.mem ∧ t.mgmt.counter = s.mgmt.counter ∧ t.mgmt.flash = flash ∧
      (t.mgmt.booted = true ↔ flash ≠ [] ∧ ∀ i ∈ flash, GoodStage s.mgmt.counter i) ∧
      ((∀ i ∈ flash, GoodStage s.mgmt.counter i) → t.mgmt.log = flash.map fun i => Config.shake256 i.bytes) ∧
      (t.mgmt.booted = true → ∃ js, (⟨.ext, s.sch.extClk, .quadrantJoin 0 js⟩ : Due) ∈ t.sch.agenda) := by
  intro flash
  let m : Mgmt := State.bootChain { s.mgmt with flash := flash, log := [] } flash
  let u : State := s.modMgmt fun _ => m
  have hx : exec (.powerUp is) s = .next (if u.mgmt.booted then u.joinAll else u) := by
    have hx : exec (.powerUp is) s = execPowerUp is s := rfl
    rw [hx, execPowerUp, hb, if_neg Bool.false_ne_true]
    cases is <;> rfl
  obtain ⟨hcounter, hflash⟩ := State.bootChain_keeps flash { s.mgmt with flash := flash, log := [] }
  have hbooted := State.bootChain_booted flash { s.mgmt with flash := flash, log := [] } hb
  have hlog := State.bootChain_log flash { s.mgmt with flash := flash, log := [] }
  obtain ⟨hjmem, hjmgmt, hjoin⟩ := u.joinAll_spec
  refine ⟨_, hx, ?_⟩
  cases hm : u.mgmt.booted with
  | true =>
    rw [if_pos rfl, hjmem, hjmgmt]
    exact ⟨rfl, hcounter, hflash, hbooted, hlog, fun _ => hjoin⟩
  | false =>
    rw [if_neg Bool.false_ne_true]
    exact ⟨rfl, hcounter, hflash, hbooted, hlog, fun h => absurd (hm.symm.trans h) (by simp)⟩

/-- Settles O49: the events of a unit and its lasting fault, windows, the loss of a core, GRANTs, steps and voltages, temperatures,
quadrants that join and the boot chain, each as its own lemma above has it. -/
theorem reliabilityAndPowerEvents : Obligations.ReliabilityAndPowerEvents := by
  unfold Obligations.ReliabilityAndPowerEvents
  refine ⟨fun s u corrected => ⟨fun h => ?counts, fun hu hn => ?lasts⟩, fun s die => ?window, fun s c hc hen => coreLoss_runs hc hen,
    fun s q gs hgs => grantUpdate_runs s q hgs, fun s q hj => ⟨fun n hn => stepRaise_runs hj hn, fun h => stepLower_runs hj h,
      fun v rest hv => voltageFall_runs hv, fun js => thermalCapStep_runs js hj, fun hc => quadrantCalibrated_runs hj hc⟩,
    fun s q js hb hj hall => quadrantJoin_runs js hb hj hall, fun s d x => gddrTempReport_runs s d x,
    fun s is hb => powerUp_runs is hb⟩
  case counts =>
    obtain ⟨cls, hx⟩ := errorEvent_counts corrected h
    have htells := s.tells_tellEvent u cls (s.eventNumber u)
    exact ⟨_, hx, htells.lasting, State.tellEvent_mem .., htells.counts, htells.event⟩
  case lasts =>
    have hx := errorEvent_lasts corrected hu hn
    refine ⟨?_, ?_, ?_, ?_, ?_, ?_⟩
    · rintro c l rfl hc
      exact ⟨_, hx, laneLasting_spec hc rfl⟩
    · rintro c i rfl hc
      exact ⟨_, hx, stripLasting_spec hc rfl⟩
    · rintro c rfl
      exact ⟨_, hx, coreLasting_spec rfl⟩
    · rintro d i rfl
      exact ⟨_, hx, sliceLasting_spec rfl⟩
    · rintro m rfl
      exact ⟨_, hx, linkLasting_spec (.inl ⟨m, rfl⟩) rfl⟩
    · rintro d g rfl
      exact ⟨_, hx, linkLasting_spec (.inr ⟨d, g, rfl⟩) rfl⟩
  case window =>
    have hx : exec (.errorWindowExpiry die.val) s = execErrorWindowExpiry die.val s := rfl
    exact ⟨_, hx.trans (if_pos die.isLt), rfl, rfl, rfl, rfl⟩

end Sys2Proof.Machine
end

section
/-! SUPPORT. The host's steps on a context slot (R114, R322, R327, R328, R343, R344, R371 to R375). -/

namespace Sys2Proof.Machine

open Sys2Proof

/-! ## A context's registers -/

section
variable (s : State) (x : Fin 16)

theorem State.ctx_modRegs (f : CtxRegs → CtxRegs) : (s.modRegs x.val f).ctx x.val = { s.ctx x.val with regs := f (s.ctx x.val).regs } :=
  State.ctx_modCtx _ _ _ x.isLt

theorem State.modCtx_self {n : Nat} {f : Ctx → Ctx} (hf : f (s.ctx n) = s.ctx n) : s.modCtx n f = s := by
  have hctxs : s.ctxs.setIfInBounds n (f (s.ctx n)) = s.ctxs := by
    rw [hf]
    refine Vector.ext fun i hi => ?_
    rw [Vector.getElem_setIfInBounds]
    split
    · next h => subst h; simp [State.ctx, hi]
    · rfl
  show { s with ctxs := s.ctxs.setIfInBounds n (f (s.ctx n)) } = s
  rw [hctxs]

theorem State.modRegs_self {n : Nat} {f : CtxRegs → CtxRegs} (hf : f (s.ctx n).regs = (s.ctx n).regs) : s.modRegs n f = s :=
  s.modCtx_self (by rw [hf])

end

/-! ## Bytes at home -/

theorem Memory.foldl_write_writeBytes (m : Memory) (a : Nat) (bs : List Byte) (n : Nat) :
    ((bs.zipIdx n).map fun (b, i) => (a + i, b)).foldl (fun (m : Memory) x => m.write x.1 x.2) m = m.writeBytes (a + n) bs := by
  induction bs generalizing m n with
  | nil => rfl
  | cons b bs ih => exact (ih (m.write (a + n) b) (n + 1)).trans rfl

/-- Bytes stored at home are in memory. -/
theorem State.homeWriteAt_mem (s : State) (pa : Nat) (bs : List Byte) : (s.homeWriteAt pa bs).mem = s.mem.writeBytes pa bs := by
  unfold State.homeWriteAt State.homeWrite
  rw [State.note_mem]
  exact Memory.foldl_write_writeBytes s.mem pa bs 0

/-! ## Fault records (R375) -/

section
variable {s : State} {x : Fin 16}

theorem State.posts_writeRecords (s : State) (n : Nat) : s.Posts (s.writeRecords n) :=
  State.foldl_posts (f := fun s (_ : FRec) => s.postNow (.faultRecordWrite n)) (fun s _ => s.posts_postNow _) _ s

theorem length_leBytes (n v : Nat) : (leBytes n v).length = n := by
  induction n generalizing v with
  | zero => rfl
  | succ n ih => exact congrArg Nat.succ (ih (v / 256))

theorem FRec.bytes_length (f : FRec) : (f.w.toList.flatMap fun w => leBytes 4 w.toNat).length = 32 := by
  have hlen : ∀ ws : List Word, (ws.flatMap fun w => leBytes 4 w.toNat).length = 4 * ws.length := by
    intro ws
    induction ws with
    | nil => rfl
    | cons w ws ih => rw [List.flatMap_cons, List.length_append, ih, length_leBytes, List.length_cons]; omega
  rw [hlen, Vector.length_toList]

theorem faultRecordWrite_runs {f : FRec} {rest : List FRec} (hf : (s.ctx x.val).records = f :: rest)
    (ho : State.frOpen (s.ctx x.val).regs = true) (hwf : s.mem.wf = true) :
    let r := (s.ctx x.val).regs
    Runs (.faultRecordWrite x.val) s fun t => (t.ctx x.val).records = rest ∧ (t.ctx x.val).regs = { r with frtail := r.frtail + 1 } ∧
      t.mem.readBytes (State.frBase r + 32 * (r.frtail.toNat % State.frCap r)) 32 = f.w.toList.flatMap fun w => leBytes 4 w.toNat := by
  intro r
  let a := State.frBase r + 32 * (r.frtail.toNat % State.frCap r)
  let u : State := (s.homeWriteAt a (f.w.toList.flatMap fun w => leBytes 4 w.toNat)).modCtx x.val fun x =>
    { x with records := rest, regs := { x.regs with frtail := x.regs.frtail + 1 } }
  have hx : exec (.faultRecordWrite x.val) s = .next (if r.msidata &&& 0x7FF = 0 then u
      else u.emit (.msi (r.msiaddrh ++ r.msiaddr) (r.msidata &&& 0x7FF))) := by
    have hx : exec (.faultRecordWrite x.val) s = execFaultRecordWrite x.val s := rfl
    rw [hx, execFaultRecordWrite]
    dsimp only
    rw [hf]
    dsimp only
    rw [ho, if_neg (by decide)]
  have hctx : u.ctx x.val = { s.ctx x.val with records := rest, regs := { r with frtail := r.frtail + 1 } } := by
    rw [State.ctx_modCtx _ _ _ x.isLt, State.ctx_congr (State.onlyBytes_homeWriteAt ..).ctxs]
  have hmem : u.mem.readBytes a 32 = f.w.toList.flatMap fun w => leBytes 4 w.toNat := by
    have h := Memory.readBytes_writeBytes a (f.w.toList.flatMap fun w => leBytes 4 w.toNat) hwf
    rw [FRec.bytes_length] at h
    exact (congrArg (fun m => Memory.readBytes m a 32) (State.homeWriteAt_mem ..)).trans h
  have key : ∀ t : State, t.ctxs = u.ctxs → t.mem = u.mem → (t.ctx x.val).records = rest ∧
      (t.ctx x.val).regs = { r with frtail := r.frtail + 1 } ∧
      t.mem.readBytes a 32 = f.w.toList.flatMap fun w => leBytes 4 w.toNat := by
    intro t hc hm
    rw [State.ctx_congr hc, hctx, hm]
    exact ⟨rfl, rfl, hmem⟩
  refine ⟨_, hx, key _ ?_ ?_⟩
  · split <;> rfl
  · split <;> rfl

theorem faultRecordEnable_runs (s : State) (x : Fin 16) (v : Word) : Runs (.faultRecordEnable x.val v) s fun t => t.mem = s.mem ∧
    (t.ctx x.val).regs = { (s.ctx x.val).regs with frbase := v &&& 0xFFFFF001 } := by
  have hx : exec (.faultRecordEnable x.val v) s = execFaultRecordEnable x.val v s := rfl
  have hp := State.posts_writeRecords (s.modRegs x.val fun r => { r with frbase := v &&& 0xFFFFF001 }) x.val
  refine ⟨_, hx.trans (if_pos x.isLt), ?_, ?_⟩
  · obtain ⟨l, hl⟩ := hp
    rw [hl]
    rfl
  · rw [State.ctx_congr hp.onlyBytes.ctxs, State.ctx_modRegs]

/-! ## Reset and pre-emption (R327, R328) -/

theorem contextReset_runs (s : State) (x : Fin 16) : Runs (.contextReset x.val) s fun t => (t.ctx x.val).crews = [] ∧
    (t.ctx x.val).legs = [] ∧ (t.ctx x.val).queue = [] ∧ (t.ctx x.val).regs.state = 0 ∧ (t.ctx x.val).place = (s.ctx x.val).place := by
  have hx : exec (.contextReset x.val) s = execContextReset x.val s := rfl
  obtain ⟨hcrews, hlegs, hqueue, hstate, -⟩ := s.resetCtx_cleared x.isLt
  exact ⟨_, hx.trans (if_pos x.isLt), hcrews, hlegs, hqueue, hstate, (s.fixed_resetCtx x.val).place _⟩

theorem State.mem_foldl_post {α : Type} (clk : α → Clk) (at' : α → Nat) (ev : α → Instr) {xs : List α} {y : α} (hy : y ∈ xs) (s : State) :
    (⟨clk y, at' y, ev y⟩ : Due) ∈ (xs.foldl (fun (s : State) z => s.post (clk z) (at' z) (ev z)) s).sch.agenda := by
  induction xs generalizing s with
  | nil => cases hy
  | cons z xs ih =>
    rcases List.mem_cons.mp hy with rfl | hy
    · obtain ⟨l, hl⟩ := State.foldl_posts (f := fun (s : State) z => s.post (clk z) (at' z) (ev z)) (fun s z => ⟨_, rfl⟩) xs
        (s.post (clk y) (at' y) (ev y))
      show _ ∈ (xs.foldl (fun (s : State) z => s.post (clk z) (at' z) (ev z)) (s.post (clk y) (at' y) (ev y))).sch.agenda
      rw [hl]
      exact List.mem_append_left _ (List.mem_append_right _ (List.mem_singleton_self _))
    · exact ih hy _

/-- A context with a crew on a core stays as it is when it is asked whether it is idle. -/
theorem State.settleIdle_busy {n : Nat} (hk : ∃ k ∈ (s.ctx n).crews, Crew.onCore k = true) : s.settleIdle n = s := by
  obtain ⟨k, hk, hon⟩ := hk
  refine if_pos (List.any_eq_true.mpr ⟨k, hk, ?_⟩)
  rw [hon, Bool.true_or]

theorem preemptRequest_runs (hp : (s.ctx x.val).regs.preempt = false) (hk : ∃ k ∈ (s.ctx x.val).crews, Crew.onCore k = true) :
    let r := (s.ctx x.val).regs
    Runs (.preemptRequest x.val) s fun t => t.mem = s.mem ∧ (t.ctx x.val).regs = { r with preempt := true, state := 2 } ∧ ∀ q : Fin 16,
      (⟨.quad q.val, s.clock (.quad q.val) + r.deadline.toNat, .preemptDeadlineExpiry x.val q.val⟩ : Due) ∈ t.sch.agenda := by
  intro r
  let ends := (List.range 16).map fun q => (q, s.clock (.quad q) + r.deadline.toNat)
  let u : State := s.modCtx x.val fun x => { x with regs := { x.regs with preempt := true, state := 2 }, deadlines := ends }
  let t : State := ends.foldl (fun (s : State) p => s.post (.quad p.1) p.2 (.preemptDeadlineExpiry x.val p.1)) u
  have hposts : u.Posts t := State.foldl_posts (f := fun (s : State) (p : Nat × Nat) =>
    s.post (.quad p.1) p.2 (.preemptDeadlineExpiry x.val p.1)) (fun s p => ⟨_, rfl⟩) ends u
  have hctx : t.ctx x.val = { s.ctx x.val with regs := { r with preempt := true, state := 2 }, deadlines := ends } := by
    rw [State.ctx_congr hposts.onlyBytes.ctxs, State.ctx_modCtx _ _ _ x.isLt]
  have hidle : t.settleIdle x.val = t := State.settleIdle_busy (by rw [hctx]; exact hk)
  have hx : exec (.preemptRequest x.val) s = .next (t.settleIdle x.val) := by
    have hx : exec (.preemptRequest x.val) s = execPreemptRequest x.val s := rfl
    rw [hx, execPreemptRequest, if_pos x.isLt, State.preempt, hp, if_neg Bool.false_ne_true]
  refine ⟨t, hx.trans (congrArg _ hidle), ?_, by rw [hctx], fun q => ?_⟩
  · obtain ⟨l, hl⟩ := hposts
    rw [hl]
    rfl
  · exact State.mem_foldl_post (fun p : Nat × Nat => Clk.quad p.1) (fun p => p.2) (fun p => Instr.preemptDeadlineExpiry x.val p.1)
      (List.mem_map.mpr ⟨q.val, List.mem_range.mpr q.isLt, rfl⟩) u

/-! ## Legs, invalidations, places -/

theorem exec_queueLeg {hart : Fin 16} {v : Word} {lr : LRec} {u : State}
    (hl : (s.markWalks x.val (ptrOf (s.ctx x.val).regs.qptr0 (s.ctx x.val).regs.qptr1 v) 512).launchRecord x.val (holderId 7 x.val hart.val)
      (ptrOf (s.ctx x.val).regs.qptr0 (s.ctx x.val).regs.qptr1 v) = some lr)
    (hu : (s.markWalks x.val (ptrOf (s.ctx x.val).regs.qptr0 (s.ctx x.val).regs.qptr1 v) 512).pushLeg x.val
      (Leg.queued lr (holderId 7 x.val hart.val) 0 none none) = some u) : exec (.queueLeg x.val hart.val v) s = .next u := by
  have hx : exec (.queueLeg x.val hart.val v) s = execQueueLeg x.val hart.val v s := rfl
  rw [hx, execQueueLeg, if_neg (by simp)]
  dsimp only
  rw [hl]
  dsimp only
  rw [hu]
  rfl

theorem hostTbinv_runs (s : State) (x : Fin 16) (v : Word) :
    let r := (s.ctx x.val).regs
    let k := v.toNat % 64
    let p := ptrOf r.iptr[0] r.iptr[1] r.iptr[2]
    12 ≤ k → k ≤ 62 → Ptr.module p = Config.thisModule → Runs (.hostTbinv x.val v) s fun t => (t.ctx x.val).regs.ibusy = true ∧
      ∃ i : Inv, t.invs = s.invs ++ [i] ∧ i.ctx = x.val ∧ i.base = Ptr.local p / 2 ^ k * 2 ^ k ∧ i.log2 = k ∧ i.asker = none := by
  intro r k p h12 h62 hm
  have hk : (v.extractLsb' 0 6).toNat = k := by simp [k]
  have hx : exec (.hostTbinv x.val v) s =
      .next ((s.modRegs x.val fun r => { r with ibusy := true }).startInv x.val (Ptr.local p) k none 0) := by
    have hx : exec (.hostTbinv x.val v) s = execHostTbinv x.val v s := rfl
    rw [hx, execHostTbinv, if_pos x.isLt, State.hostTbinv]
    rw [hk, if_neg (by simp; omega), if_neg (by rw [hm]; exact fun h => h rfl)]
  have hctx : ∀ u : State, (u.startInv x.val (Ptr.local p) k none 0).ctxs = u.ctxs := fun u => rfl
  refine ⟨_, hx, ?_, _, rfl, rfl, rfl, rfl, rfl⟩
  rw [State.ctx_congr (hctx _), State.ctx_modRegs]

theorem exec_placeValueWrite (s : State) (x : Fin 16) (v : Word) : exec (.placeValueWrite x.val v) s = .next (s.hostPlace x.val v) := by
  have hx : exec (.placeValueWrite x.val v) s = execPlaceValueWrite x.val v s := rfl
  exact hx.trans (if_pos x.isLt)

theorem hostPlace_stored {u : State} {v : Word} (h : s.placeWrite x.val (s.ctx x.val).regs.plidx.toNat v = some u) :
    s.hostPlace x.val v = u.modRegs x.val fun r => { r with plval := v, plstat := true } := by
  rw [State.hostPlace, h]

theorem hostPlace_refused {v : Word} (h : s.placeWrite x.val (s.ctx x.val).regs.plidx.toNat v = none) :
    s.hostPlace x.val v = s.modRegs x.val fun r => { r with plval := v, plstat := false } := by
  rw [State.hostPlace, h]

end

end Sys2Proof.Machine
end

section
/-! SUPPORT. Tokens, steps, control commands and the register window of a context slot (R114, R371 to R373), and the settling of O50. -/

namespace Sys2Proof.Machine

open Sys2Proof

/-! ## Token commands (R372) -/

section
variable {s : State} {x : Fin 16}

/-- A context whose TK differs. -/
def Ctx.withTk (C : Ctx) (k : BitVec 6) : Ctx := { C with regs := { C.regs with tk := k } }

/-- What a condition lets through, changed before or after. -/
theorem guard_map {α β : Type} (f : α → β) (p : Prop) [Decidable p] (a : α) :
    (if p then some (f a) else none) = (if p then some a else none).map f := by
  split <;> rfl

/-- A token command does the same to a context whatever its TK. -/
theorem State.tokCmd_withTk (C : Ctx) (tk : BitVec 6) (op : State.TokCmd) (b k : Nat) (h : Word) :
    State.tokCmd (C.withTk tk) op b k h = (State.tokCmd C op b k h).map fun y => y.withTk tk := by
  have hregion : (C.withTk tk).regionAt b = C.regionAt b := rfl
  cases op with
  | own =>
    unfold State.tokCmd State.ownBlock
    dsimp only
    have hregions : (C.withTk tk).regions = C.regions := rfl
    rw [hregions]
    split
    · rfl
    · cases (C.regions.filter fun r => decide (r.base < b + 2 ^ k) && decide (b < r.base + 2 ^ r.k)).find? fun r => decide (k < r.k) with
      | none => exact guard_map (fun y => Ctx.withTk y tk) _ { C with regions := List.filter _ C.regions ++ [_] }
      | some r => exact guard_map (fun y => Ctx.withTk y tk) _ (State.divideFree C r b k _)
  | release =>
    unfold State.tokCmd
    dsimp only
    rw [hregion]
    cases (C.regionAt b).filter fun r => r.k == k with
    | none => rfl
    | some r => exact guard_map (fun y => Ctx.withTk y tk) _ (C.setRegion _)
  | home =>
    unfold State.tokCmd
    dsimp only
    rw [hregion]
    cases (C.regionAt b).filter fun r => r.k == k with
    | none => rfl
    | some r =>
      dsimp only [Option.bind]
      split
      · rfl
      · exact guard_map (fun y => Ctx.withTk y tk) _ (C.setRegion _)
  | unhome =>
    unfold State.tokCmd
    dsimp only
    rw [hregion]
    cases (C.regionAt b).filter fun r => r.k == k with
    | none => rfl
    | some r => exact guard_map (fun y => Ctx.withTk y tk) _ (C.setRegion _)

/-- What a token command of a hart leaves of the context. -/
theorem State.hostToken_spec (s : State) (x : Fin 16) (hart : Nat) (op : State.TokCmd) (v : Word) :
    let C := s.ctx x.val
    let k := v.toNat / 256 % 64
    let p := ptrOf C.regs.tptr[0] C.regs.tptr[1] C.regs.tptr[2]
    Ptr.space p = 0 → Ptr.rank p = 0 → 12 ≤ k → k ≤ 32 → Ptr.module p = Config.thisModule →
    match State.tokCmd C op (Ptr.local p / 2 ^ k * 2 ^ k) k (holderId 7 x.val hart) with
    | some y => ((s.hostToken x.val hart op v).ctx x.val).regions = y.regions ∧ ((s.hostToken x.val hart op v).ctx x.val).regs.tfail = false
    | none => ((s.hostToken x.val hart op v).ctx x.val).regions = C.regions ∧
      ((s.hostToken x.val hart op v).ctx x.val).regs.tfail = true := by
  intro C k p hspace hrank h12 h32 hmod
  let tk := v.extractLsb' 8 6
  have hk : tk.toNat = k := by simp [tk, k, BitVec.extractLsb'_toNat, Nat.shiftRight_eq_div_pow]
  have hC : (s.modRegs x.val fun r => { r with tk := tk }).ctx x.val = C.withTk tk := State.ctx_modRegs ..
  have hp : ptrOf (C.withTk tk).regs.tptr[0] (C.withTk tk).regs.tptr[1] (C.withTk tk).regs.tptr[2] = p := rfl
  have hx : s.hostToken x.val hart op v =
      match State.tokCmd (C.withTk tk) op (Ptr.local p / 2 ^ k * 2 ^ k) k (holderId 7 x.val hart) with
      | none => (s.modRegs x.val fun r => { r with tk := tk }).modRegs x.val fun r => { r with tbusy := false, tfail := true }
      | some y => (((s.modRegs x.val fun r => { r with tk := tk }).modCtx x.val fun _ => y).modRegs x.val fun r =>
          { r with tbusy := false, tfail := false }).wakeRegions := by
    unfold State.hostToken
    dsimp only
    rw [hC, hp]
    have htk : (C.withTk tk).regs.tk.toNat = k := hk
    rw [htk, hspace, hrank, hmod, if_neg (by simp; omega), if_neg (fun h => h rfl)] <;> rfl
  rw [hx, State.tokCmd_withTk]
  cases State.tokCmd C op (Ptr.local p / 2 ^ k * 2 ^ k) k (holderId 7 x.val hart) with
  | none =>
    dsimp only [Option.map]
    rw [State.ctx_modRegs, hC]
    exact ⟨rfl, rfl⟩
  | some y =>
    dsimp only [Option.map]
    rw [State.ctx_congr (State.posts_wakeRegions _).onlyBytes.ctxs, State.ctx_modRegs, State.ctx_modCtx _ _ _ x.isLt]
    exact ⟨rfl, rfl⟩

end

/-! ## The Sextant step (R114) -/

theorem State.stepOn_setStep (s : State) (c : Nat) (y : Slot × Option Nat) (hy : y.1.core = c) :
    (s.setStep c (some y)).stepOn c = some y := by
  have hnone : (s.sch.steps.filter fun t => t.1.core != c).find? (fun t => t.1.core == c) = none := by
    rw [List.find?_eq_none]
    intro t ht
    have := (List.mem_filter.mp ht).2
    simpa using this
  show ((s.sch.steps.filter fun t => t.1.core != c) ++ [y]).find? (fun t => t.1.core == c) = some y
  rw [List.find?_append, hnone, Option.none_or, List.find?_cons_of_pos (by simp [hy])]

theorem debugStep_runs {s : State} {x : Fin 16} {v : Word} {c : Nat} {G : Group} {i : Fin 4} {seed : BitVec 16}
    (hc : (s.ctx x.val).physical (v.toNat / 65536) = some c) (hG : s.group? c (v.toNat / 256 % 32) = some G) (hx : G.ctx = x.val)
    (hstep : s.stepOn c = none) (hen : (s.core c).enabled = true) (hst : (s.core c).stalled = none)
    (hs : State.stepSplit G (v.extractLsb' 0 3) (s.now c) = some (i, seed)) :
    Runs (.debugStep x.val v) s fun t => t.stepOn c = some (⟨c, v.toNat / 256 % 32, i⟩, none) := by
  have hexec : exec (.debugStep x.val v) s = .next (s.hostStep x.val v) :=
    (rfl : exec (.debugStep x.val v) s = execDebugStep x.val v s).trans (if_pos x.isLt)
  let n := v.extractLsb' 16 16
  let u : State := s.modRegs x.val fun r => { r with dscore := n, dsgrp := v.extractLsb' 8 5, dsspl := v.extractLsb' 0 3 }
  have hn : n.toNat = v.toNat / 65536 := by
    have := v.isLt
    simp only [n, BitVec.extractLsb'_toNat, Nat.shiftRight_eq_div_pow]
    omega
  have hg : (v.extractLsb' 8 5).toNat = v.toNat / 256 % 32 := by simp [BitVec.extractLsb'_toNat, Nat.shiftRight_eq_div_pow]
  have hphys : (u.ctx x.val).physical n.toNat = some c := by
    rw [hn, State.ctx_modRegs]
    exact hc
  have hgroup : u.group? c (v.toNat / 256 % 32) = some G := hG
  have hbusy : (G.ctx != x.val || (u.stepOn c).isSome || !(u.core c).enabled || (u.core c).stalled.isSome) = false := by
    have h1 : u.stepOn c = none := hstep
    have h2 : (u.core c).enabled = true := hen
    have h3 : (u.core c).stalled = none := hst
    rw [h1, h2, h3, hx, bne_self_eq_false]
    rfl
  have hsplit : State.stepSplit G (v.extractLsb' 0 3) (u.now c) = some (i, seed) := hs
  have hhost : s.hostStep x.val v = (u.modGroup c (v.toNat / 256 % 32) fun G =>
      { G with spec := { G.spec with splseed := seed } }).setStep c (some (⟨c, v.toNat / 256 % 32, i⟩, none)) := by
    unfold State.hostStep
    dsimp only
    rw [hphys]
    dsimp only
    rw [hg, hgroup]
    dsimp only
    rw [hbusy, if_neg Bool.false_ne_true, hsplit]
  exact ⟨_, hexec, by rw [hhost]; exact State.stepOn_setStep _ c _ rfl⟩

/-! ## Control commands (R373) -/

theorem State.onlyOps_reask (s : State) (c : Nat) (f : Op → Bool) : s.OnlyOps (s.reask c f) := by
  unfold State.reask
  refine List.foldlRecOn (motive := fun t : State => s.OnlyOps t) _ _ (.refl s) fun t ht o _ => ht.trans ?_
  have hpost : ∀ (t : State) n e, t.OnlyOps (t.postQ c n e) := fun t n e => ⟨rfl, fun _ => ⟨_, rfl⟩⟩
  exact ((t.onlyOps_modOp ..).trans (State.onlyOps_modOp ..)).trans (hpost ..)

theorem State.OnlyOps.group {s t : State} (h : s.OnlyOps t) (c g : Nat) : t.group? c g = s.group? c g := by
  obtain ⟨os, hos⟩ := h.core c
  rw [State.group?, hos]
  rfl

section
variable {s : State} {x : Fin 16} {c g : Nat}

/-- A command that is done leaves what it has done and its two bits. -/
theorem State.cmdDone_regs (s : State) (x : Fin 16) (b : Bool) : ((s.cmdDone x.val b).ctx x.val).regs.cbusy = false ∧
    ((s.cmdDone x.val b).ctx x.val).regs.cfail = b := by
  rw [State.cmdDone, State.ctx_modRegs]
  exact ⟨rfl, rfl⟩

theorem State.command_runs (hb : (s.ctx x.val).regs.cbusy = false) (f : State → State) : s.command x.val f = f s := by
  rw [State.command, hb, if_neg Bool.false_ne_true]

theorem exec_resumeGroup (s : State) (x : Fin 16) :
    exec (.resumeGroup x.val) s = .next (s.command x.val fun s => s.resumeGroupCmd x.val) :=
  (rfl : exec (.resumeGroup x.val) s = execResumeGroup x.val s).trans (if_pos x.isLt)

theorem exec_resumeCore (s : State) (x : Fin 16) :
    exec (.resumeCore x.val) s = .next (s.command x.val fun s => s.resumeCoreCmd x.val) :=
  (rfl : exec (.resumeCore x.val) s = execResumeCore x.val s).trans (if_pos x.isLt)

theorem exec_resumeEngine (s : State) (x : Fin 16) :
    exec (.resumeEngine x.val) s = .next (s.command x.val fun s => s.resumeEngineCmd x.val) :=
  (rfl : exec (.resumeEngine x.val) s = execResumeEngine x.val s).trans (if_pos x.isLt)

theorem exec_suspendCrew (s : State) (x : Fin 16) :
    exec (.suspendCrew x.val) s = .next (s.command x.val fun s => s.suspendCmd x.val) :=
  (rfl : exec (.suspendCrew x.val) s = execSuspendCrew x.val s).trans (if_pos x.isLt)

theorem exec_restoreCrew (s : State) (x : Fin 16) :
    exec (.restoreCrew x.val) s = .next (s.command x.val fun s => s.restoreCmd x.val) :=
  (rfl : exec (.restoreCrew x.val) s = execRestoreCrew x.val s).trans (if_pos x.isLt)

theorem resumeGroup_runs (hb : (s.ctx x.val).regs.cbusy = false) (ht : s.cmdTarget x.val = some (c, g)) {G : Group}
    (hG : s.group? c g = some G) (hctx : G.ctx = x.val) (hstop : G.stopped = true) (hw : s.recordWaits x.val c 0 (some g) = false) :
    Runs (.resumeGroup x.val) s fun t => ((t.ctx x.val).regs.cbusy = false ∧ (t.ctx x.val).regs.cfail = false ∧ t.mem = s.mem) ∧
      t.group? c g = some { G with stopped := false, resuming := true } := by
  let u : State := s.resumeStop c g
  let w : State := if (u.core c).stalled.isSome then u else u.reask c fun o => o.slot == g
  have hx : exec (.resumeGroup x.val) s = .next (w.cmdDone x.val false) := by
    rw [exec_resumeGroup, State.command_runs hb, State.resumeGroupCmd, ht]
    dsimp only
    rw [hG]
    dsimp only
    rw [hctx, hstop, hw, bne_self_eq_false, Bool.not_true, Bool.or_self, Bool.or_self, if_neg Bool.false_ne_true]
  have hops : u.OnlyOps w := by
    show u.OnlyOps (if (u.core c).stalled.isSome then u else u.reask c fun o => o.slot == g)
    split
    · exact .refl u
    · exact u.onlyOps_reask ..
  obtain ⟨hbusy, hfail⟩ := State.cmdDone_regs w x false
  refine ⟨_, hx, ⟨hbusy, hfail, hops.mem⟩, ?_⟩
  have hgroup : w.group? c g = some { G with stopped := false, resuming := true } :=
    (hops.group c g).trans (State.group_modGroup (fun G => { G with stopped := false, resuming := true }) hG)
  exact hgroup

theorem resumeCore_runs (hb : (s.ctx x.val).regs.cbusy = false) (ht : s.cmdTarget x.val = some (c, g)) :
    let mine (h : Nat) : Bool := (s.group? c h).any fun G => G.ctx == x.val
    let others := (s.core c).stallers.filter fun h => !mine h
    (s.core c).stalled.isSome = true → (s.core c).stallers.any mine = true → s.recordWaits x.val c 1 none = false →
    Runs (.resumeCore x.val) s fun t => ((t.ctx x.val).regs.cbusy = false ∧ (t.ctx x.val).regs.cfail = false ∧ t.mem = s.mem) ∧
      (t.core c).stallers = others ∧ (t.core c).stalled = if others = [] then none else (s.core c).stalled := by
  intro mine others hst hany hw
  have hc : c < 768 := by
    by_contra h
    rw [State.core_of_le (by omega)] at hst
    cases hst
  let u : State := s.modCore c fun k => { k with stallers := k.stallers.filter fun g => !mine g }
  have hx : exec (.resumeCore x.val) s = .next ((u.stallOver c).cmdDone x.val false) := by
    have hsome : (s.core c).stalled.isNone = false := by rw [← Option.not_isSome, hst, Bool.not_true]
    rw [exec_resumeCore, State.command_runs hb, State.resumeCoreCmd, ht]
    dsimp only
    rw [hsome, hany, hw, Bool.not_true, Bool.or_self, Bool.or_self, if_neg Bool.false_ne_true]
  have hu : u.core c = { s.core c with stallers := others } := State.core_modCore _ _ _ hc
  have hover : (u.stallOver c).mem = s.mem ∧ ((u.stallOver c).core c).stallers = others ∧
      ((u.stallOver c).core c).stalled = if others = [] then none else (s.core c).stalled := by
    unfold State.stallOver
    rw [hu]
    dsimp only
    have hsome : (s.core c).stalled.isNone = false := by rw [← Option.not_isSome, hst, Bool.not_true]
    rw [hsome, Bool.false_or]
    by_cases ho : others = []
    · rw [ho, List.isEmpty_nil, Bool.not_true, if_neg Bool.false_ne_true, if_pos rfl]
      have hops := State.onlyOps_reask (u.modCore c fun k => { k with stalled := none }) c fun o =>
        !(u.group? c o.slot).any fun G => G.stopped
      obtain ⟨os, hos⟩ := hops.core c
      refine ⟨hops.mem, ?_, ?_⟩
      · rw [hos, State.core_modCore _ _ _ hc, hu]
        exact ho
      · rw [hos, State.core_modCore _ _ _ hc]
    · have he : others.isEmpty = false := by
        rw [Bool.eq_false_iff]
        exact fun h => ho (List.isEmpty_iff.mp h)
      rw [he, Bool.not_false, if_pos rfl, if_neg ho, hu]
      exact ⟨rfl, rfl, rfl⟩
  obtain ⟨hmem, hstallers, hstalled⟩ := hover
  obtain ⟨hbusy, hfail⟩ := State.cmdDone_regs (u.stallOver c) x false
  exact ⟨_, hx, ⟨hbusy, hfail, hmem⟩, hstallers, hstalled⟩

theorem resumeEngine_runs (hb : (s.ctx x.val).regs.cbusy = false) (ht : s.cmdTarget x.val = some (c, g)) {e : EngOp}
    (he : s.eng? c g = some e) (hctx : e.ctx = x.val) (hp : e.paused.isSome = true) :
    Runs (.resumeEngine x.val) s fun t => ((t.ctx x.val).regs.cbusy = false ∧ (t.ctx x.val).regs.cfail = false ∧ t.mem = s.mem) ∧
      t.eng? c g = some { e with paused := none } ∧ Awaits t c (s.now c) (.engineOpComplete c g) := by
  let u : State := s.modCore c fun k => { k with eng := k.eng.setIfInBounds g (some { e with paused := none }) }
  obtain ⟨hc, hg⟩ := State.eng_lt he
  have hx : exec (.resumeEngine x.val) s = .next ((u.postQ c (s.now c) (.engineOpComplete c g)).cmdDone x.val false) := by
    have hnone : e.paused.isNone = false := by rw [← Option.not_isSome, hp, Bool.not_true]
    rw [exec_resumeEngine, State.command_runs hb, State.resumeEngineCmd, ht]
    dsimp only
    rw [show ((s.core c).eng[g]?).join = some e from he]
    dsimp only
    have hmine : (e.ctx != x.val || e.paused.isNone) = false := by rw [hctx, hnone, bne_self_eq_false, Bool.or_self]
    exact congrArg Host.Outcome.next (if_neg (by rw [hmine]; exact Bool.false_ne_true))
  have hu : u.eng? c g = some { e with paused := none } := by
    rw [State.eng?, State.core_modCore _ _ _ hc]
    simp [hg]
  obtain ⟨hbusy, hfail⟩ := State.cmdDone_regs (u.postQ c (s.now c) (.engineOpComplete c g)) x false
  exact ⟨_, hx, ⟨hbusy, hfail, rfl⟩, hu, List.mem_append_right _ (List.mem_singleton_self _)⟩

theorem State.commit_mem (s : State) (ctx crew : Nat) (reason : BitVec 4) : (s.commit ctx crew reason).mem = s.mem := by
  unfold State.commit
  split
  · rfl
  · split
    · rfl
    · dsimp only
      split <;> rfl

theorem State.commit_committed {ctx crew : Nat} {k : Crew} (hk : s.crew? ctx crew = some k) (reason : BitVec 4) :
    (s.commit ctx crew reason).CrewIs ctx crew fun k => k.committed = true := by
  unfold State.commit
  rw [hk]
  dsimp only
  split
  · next h => exact ⟨k, hk, h⟩
  · have hcrew : ∀ t : State, t.ctxs = (s.modCrew ctx crew fun k => { k with committed := true, reason := reason }).ctxs →
        t.CrewIs ctx crew fun k => k.committed = true := fun t ht =>
      ⟨_, (State.crew_congr ht ctx crew).trans (State.crew_modCrew hk fun _ => rfl), rfl⟩
    split
    · exact hcrew _ rfl
    · exact hcrew _ rfl

theorem State.crew_id {ctx crew : Nat} {k : Crew} (hk : s.crew? ctx crew = some k) : k.id = crew := by
  simpa using List.find?_some hk

theorem suspendCrew_runs (hb : (s.ctx x.val).regs.cbusy = false) {k : Crew}
    (hk : s.crew? x.val ((s.ctx x.val).regs.ctlarg.toNat % 2 ^ 20) = some k) (hst : k.st = .resident)
    (hstall : (s.core k.core).stalled = none) (hfree : (s.freeSave x.val).isSome = true) :
    Runs (.suspendCrew x.val) s fun t => t.mem = s.mem ∧ (t.ctx x.val).regs.cbusy = true ∧
      ∃ k', t.crew? x.val k.id = some k' ∧ k'.st = .suspending ∧ k'.committed = true := by
  have hid : ((s.ctx x.val).regs.ctlarg.extractLsb' 0 20).toNat = k.id := by
    rw [State.crew_id hk]
    simp
  have hk' : s.crew? x.val k.id = some k := by
    rw [State.crew_id hk]
    exact hk
  let v : State := (s.commit x.val k.id 6).modCrew x.val k.id fun k => { k with st := .suspending }
  let u : State := v.modRegs x.val fun r => { r with cbusy := true, cfail := false }
  have hx : exec (.suspendCrew x.val) s = .next (u.postQ k.core (u.now k.core + 1) (.crewSave x.val k.id)) := by
    have hnone : (s.freeSave x.val).isNone = false := by rw [← Option.not_isSome, hfree, Bool.not_true]
    rw [exec_suspendCrew, State.command_runs hb, State.suspendCmd]
    dsimp only
    rw [hid, hk']
    dsimp only
    rw [hst, hstall, hnone, if_neg (by decide)]
  have hcrew : v.CrewIs x.val k.id fun k => k.st = .suspending ∧ k.committed = true :=
    (State.commit_committed hk' 6).change (fun _ => rfl) fun q hq => ⟨rfl, hq⟩
  have hu : u.CrewIs x.val k.id fun k => k.st = .suspending ∧ k.committed = true :=
    hcrew.crews (State.ctx_modCtx_crews rfl)
  obtain ⟨k', hk', hst', hcom⟩ := hu
  refine ⟨_, hx, State.commit_mem .., ?_, k', hk', hst', hcom⟩
  have hregs : (u.ctx x.val).regs.cbusy = true := by rw [State.ctx_modRegs]
  exact hregs

theorem restoreCmd_back {u : State} (h : s.restoreCrew x.val (s.ctx x.val).regs.ctlarg.toNat = some u) :
    s.restoreCmd x.val = u.cmdDone x.val false := by
  rw [State.restoreCmd, h]

theorem restoreCmd_refused (h : s.restoreCrew x.val (s.ctx x.val).regs.ctlarg.toNat = none) :
    s.restoreCmd x.val = s.cmdDone x.val true := by
  rw [State.restoreCmd, h]

end

/-! ## The register window (R371) -/

/-- A field of a context block in the window. -/
def blockAt (x : Fin 16) (off : Nat) : Nat := 0x10000 + 0x1000 * x.val + off

section
variable {s : State} {x : Fin 16} {off : Nat} {v : Word}

theorem exec_registerWrite (h4 : off % 4 = 0) (hoff : off < 0x1000) :
    exec (.registerWrite (blockAt x off) v) s = .next (s.writeBlock x.val off v) := by
  have hx : exec (.registerWrite (blockAt x off) v) s = execRegisterWrite (blockAt x off) v s := rfl
  have hl := x.isLt
  have hblock : (blockAt x off - 0x10000) / 0x1000 = x.val := by unfold blockAt; omega
  have hfield : blockAt x off % 0x1000 = off := by unfold blockAt; omega
  have hin : (decide (0x10000 ≤ blockAt x off) && decide (blockAt x off < 0x20000)) = true := by
    unfold blockAt
    simp only [Bool.and_eq_true, decide_eq_true_eq]
    omega
  have h4' : blockAt x off % 4 = 0 := by unfold blockAt; omega
  rw [hx, execRegisterWrite, h4', if_neg (by decide), if_neg (by unfold blockAt; omega), hin, if_pos rfl, hblock, hfield]

/-- A field that only keeps what is written. -/
theorem exec_registerWrite_plain {f : CtxRegs → CtxRegs} (h4 : off % 4 = 0) (hoff : off < 0x1000)
    (h : s.writeBlock x.val off v = s.modRegs x.val f) : exec (.registerWrite (blockAt x off) v) s = .next (s.modRegs x.val f) := by
  rw [exec_registerWrite h4 hoff, h]

/-- Fields of no effect leave everything, whatever is written. -/
theorem State.writeBlock_reserved (hoff : 0x0A8 ≤ off) : s.writeBlock x.val off v = s := by
  have hput : ∀ r : CtxRegs, r.put off v = r := by
    intro r
    unfold CtxRegs.put
    split
    case h_30 => rfl
    all_goals omega
  unfold State.writeBlock
  have hself : s.modRegs x.val (fun r => r.put off v) = s := State.modRegs_self s (hput _)
  rw [hself]
  dsimp only
  split
  case h_10 => rfl
  all_goals omega

/-- A field that only starts something. -/
theorem State.modRegs_id (s : State) (n : Nat) : s.modRegs n (fun r => r) = s := State.modRegs_self s rfl

/-- The first of the records that wait is written next, when any does. -/
theorem State.mem_writeRecords {n : Nat} (h : (s.ctx n).records ≠ []) :
    (⟨.ext, s.sch.extClk, .faultRecordWrite n⟩ : Due) ∈ (s.writeRecords n).sch.agenda := by
  unfold State.writeRecords
  cases hr : (s.ctx n).records with
  | nil => exact absurd hr h
  | cons r rs =>
    obtain ⟨l, hl⟩ := State.foldl_posts (f := fun s (_ : FRec) => s.postNow (.faultRecordWrite n)) (fun s _ => s.posts_postNow _) rs
      (s.postNow (.faultRecordWrite n))
    rw [List.foldl_cons, hl]
    exact List.mem_append_left _ (State.mem_postNow ..)

/-- A field of the fault-record area: kept, and the records that wait are looked at. -/
theorem registerWrite_records {f : CtxRegs → CtxRegs} (h4 : off % 4 = 0) (hoff : off < 0x1000)
    (h : s.writeBlock x.val off v = (s.modRegs x.val f).writeRecords x.val) :
    Runs (.registerWrite (blockAt x off) v) s fun t => (t.ctx x.val).regs = f (s.ctx x.val).regs ∧ t.mem = s.mem ∧
      ((s.ctx x.val).records ≠ [] → (⟨.ext, s.sch.extClk, .faultRecordWrite x.val⟩ : Due) ∈ t.sch.agenda) := by
  have hp := State.posts_writeRecords (s.modRegs x.val f) x.val
  have hctx : ((s.modRegs x.val f).ctx x.val).records = (s.ctx x.val).records := by rw [State.ctx_modRegs]
  refine ⟨_, (exec_registerWrite h4 hoff).trans (congrArg _ h), ?_, ?_, fun hr => ?_⟩
  · rw [State.ctx_congr hp.onlyBytes.ctxs, State.ctx_modRegs]
  · obtain ⟨l, hl⟩ := hp
    rw [hl]
    rfl
  · exact State.mem_writeRecords (by rw [hctx]; exact hr)

/-- A context block after a write of CONTROL's SYSTEM and EN. -/
def CtxRegs.control (v : Word) (r : CtxRegs) : CtxRegs :=
  { r with system := v.getLsbD 3, en := if r.state = 0 then v.getLsbD 0 else r.en }

/-- A write of CONTROL: what it asks for is done in turn, and the queue is looked at. -/
theorem State.writeBlock_control (s : State) (n : Nat) (v : Word) : s.writeBlock n 0x000 v =
    (if v.getLsbD 1 = true then (if v.getLsbD 2 = true then (s.modRegs n (CtxRegs.control v)).resetCtx n
        else s.modRegs n (CtxRegs.control v)).preempt n
      else if v.getLsbD 2 = true then (s.modRegs n (CtxRegs.control v)).resetCtx n
      else s.modRegs n (CtxRegs.control v)).postNow (.legAdmission n) := rfl

/-- CONTROL's SYSTEM and EN, where neither a reset nor a pre-emption is asked for. -/
theorem registerWrite_control (h2 : v.getLsbD 2 = false) (h1 : v.getLsbD 1 = false) :
    Runs (.registerWrite (blockAt x 0x000) v) s fun t => (t.ctx x.val).regs = CtxRegs.control v (s.ctx x.val).regs ∧ t.mem = s.mem ∧
      (⟨.ext, s.sch.extClk, .legAdmission x.val⟩ : Due) ∈ t.sch.agenda := by
  refine ⟨_, exec_registerWrite rfl (by decide), ?_⟩
  beta_reduce
  rw [State.writeBlock_control, h1, h2, if_neg Bool.false_ne_true, if_neg Bool.false_ne_true, State.ctx_congr (State.postNow_ctxs ..),
    State.ctx_modRegs]
  exact ⟨rfl, rfl, State.mem_postNow ..⟩

/-- A reset asked for by CONTROL. -/
theorem registerWrite_reset (h2 : v.getLsbD 2 = true) (h1 : v.getLsbD 1 = false) :
    Runs (.registerWrite (blockAt x 0x000) v) s fun t => (t.ctx x.val).crews = [] ∧ (t.ctx x.val).legs = [] ∧ (t.ctx x.val).queue = [] ∧
      (t.ctx x.val).regs.state = 0 ∧ (t.ctx x.val).regs.system = v.getLsbD 3 := by
  have hclear := (s.modRegs x.val (CtxRegs.control v)).resetCtx_cleared x.isLt
  have hfixed := (s.modRegs x.val (CtxRegs.control v)).fixed_resetCtx x.val
  obtain ⟨hcrews, hlegs, hqueue, hstate, -⟩ := hclear
  have hsystem := hfixed.system x.val
  rw [State.ctx_modRegs] at hsystem
  refine ⟨_, exec_registerWrite rfl (by decide), ?_⟩
  beta_reduce
  rw [State.writeBlock_control, h1, h2, if_neg Bool.false_ne_true, if_pos rfl, State.ctx_congr (State.postNow_ctxs ..)]
  exact ⟨hcrews, hlegs, hqueue, hstate, hsystem⟩

/-- The control command of a number started. -/
def State.startCommand (s : State) (n k : Nat) : State :=
  match k with
  | 1 => s.command n fun s => s.resumeGroupCmd n
  | 2 => s.command n fun s => s.resumeCoreCmd n
  | 3 => s.command n fun s => s.resumeEngineCmd n
  | 4 => s.command n fun s => s.suspendCmd n
  | 5 => s.command n fun s => s.restoreCmd n
  | _ => s

/-- CMD starts the command it names. -/
theorem State.writeBlock_cmd (s : State) (n : Nat) (v : Word) : s.writeBlock n 0x0A0 v = s.startCommand n (v.extractLsb' 0 4).toNat := by
  have hx : s.writeBlock n 0x0A0 v = (s.modRegs n fun r => r).startCommand n (v.extractLsb' 0 4).toNat := rfl
  rw [hx, State.modRegs_id]

theorem registerWrite_command {i : Instr} {k : Nat} (hk : (v.extractLsb' 0 4).toNat = k) (hi : exec i s = .next (s.startCommand x.val k)) :
    exec (.registerWrite (blockAt x 0x0A0) v) s = exec i s := by
  rw [exec_registerWrite rfl (by decide), hi, State.writeBlock_cmd, hk]

theorem registerWrite_frbase : exec (.registerWrite (blockAt x 0x028) v) s = exec (.faultRecordEnable x.val v) s :=
  (exec_registerWrite rfl (by decide)).trans
    ((rfl : exec (.faultRecordEnable x.val v) s = execFaultRecordEnable x.val v s).trans (if_pos x.isLt)).symm

theorem registerWrite_tbinv : exec (.registerWrite (blockAt x 0x074) v) s = exec (.hostTbinv x.val v) s := by
  have hx : exec (.hostTbinv x.val v) s = .next (s.hostTbinv x.val v) :=
    (rfl : exec (.hostTbinv x.val v) s = execHostTbinv x.val v s).trans (if_pos x.isLt)
  rw [exec_registerWrite rfl (by decide), hx]
  exact congrArg (fun u : State => Host.Outcome.next (u.hostTbinv x.val v)) (s.modRegs_id x.val)

theorem registerWrite_place : exec (.registerWrite (blockAt x 0x07C) v) s = exec (.placeValueWrite x.val v) s := by
  rw [exec_registerWrite rfl (by decide), exec_placeValueWrite]
  exact congrArg (fun u : State => Host.Outcome.next (u.hostPlace x.val v)) (s.modRegs_id x.val)

theorem registerWrite_step : exec (.registerWrite (blockAt x 0x094) v) s = exec (.debugStep x.val v) s := by
  have hx : exec (.debugStep x.val v) s = .next (s.hostStep x.val v) :=
    (rfl : exec (.debugStep x.val v) s = execDebugStep x.val v s).trans (if_pos x.isLt)
  rw [exec_registerWrite rfl (by decide), hx]
  exact congrArg (fun u : State => Host.Outcome.next (u.hostStep x.val v)) (s.modRegs_id x.val)

theorem registerWrite_misaligned (s : State) (off : Nat) (v : Word) (h : off % 4 ≠ 0) : exec (.registerWrite off v) s = .next s := by
  have hx : exec (.registerWrite off v) s = execRegisterWrite off v s := rfl
  rw [hx, execRegisterWrite, if_pos (by simpa using h)]

theorem registerWrite_inbound (s : State) (i : Fin 256) (v : Word) :
    exec (.registerWrite (4 * i.val) v) s = .next { s with inbound := s.inbound.set i.val (v &&& 0x801FFFFF) } := by
  have hx : exec (.registerWrite (4 * i.val) v) s = execRegisterWrite (4 * i.val) v s := rfl
  have hi := i.isLt
  have h4 : 4 * i.val / 4 = i.val := by omega
  have hset : s.inbound.setIfInBounds i.val (v &&& 0x801FFFFF) = s.inbound.set i.val (v &&& 0x801FFFFF) := by
    refine Vector.ext fun j hj => ?_
    rw [Vector.getElem_setIfInBounds, Vector.getElem_set]
  rw [hx, execRegisterWrite, if_neg (by simp), if_pos (by omega), h4, hset]

end

/-! ## An invalidation complete (R343) -/

/-- Memory, the invalidations under way, the quadrants and every core's translations are as they were. -/
structure State.SameTlbs (s t : State) : Prop where
  mem : t.mem = s.mem
  invs : t.invs = s.invs
  quads : t.quads = s.quads
  tlb : ∀ c, (t.core c).caches.tlb = (s.core c).caches.tlb

theorem State.SameTlbs.refl (s : State) : s.SameTlbs s := ⟨rfl, rfl, rfl, fun _ => rfl⟩

theorem State.SameTlbs.trans {s t u : State} (a : s.SameTlbs t) (b : t.SameTlbs u) : s.SameTlbs u :=
  ⟨b.mem.trans a.mem, b.invs.trans a.invs, b.quads.trans a.quads, fun c => (b.tlb c).trans (a.tlb c)⟩

theorem State.sameTlbs_modCore (s : State) (c : Nat) {f : Core → Core} (hf : ∀ k, (f k).caches = k.caches := by intro _; rfl) :
    s.SameTlbs (s.modCore c f) := by
  refine ⟨rfl, rfl, rfl, fun d => ?_⟩
  by_cases hd : d = c
  · subst hd
    by_cases hl : d < 768
    · rw [State.core_modCore _ _ _ hl, hf]
    · rw [State.core_of_le (by omega), State.core_of_le (by omega)]
  · rw [State.core_modCore_ne _ _ _ _ hd]

theorem State.sameTlbs_finishOp (s : State) (c : Nat) (o : Op) (ws : List RegWrite) (lam : Nat) :
    s.SameTlbs (s.finishOp c o ws lam) := by
  have hdrop : s.SameTlbs (s.dropOp c o.id) := by
    unfold State.dropOp
    dsimp only
    refine State.SameTlbs.trans ?_ (State.sameTlbs_modCore _ c)
    exact ⟨rfl, rfl, rfl, fun _ => rfl⟩
  have hland : ∀ u : State, u.SameTlbs (u.landAt c o.slot o.id o.setf ws lam) := by
    intro u
    refine State.SameTlbs.trans ?_ ⟨rfl, rfl, rfl, fun _ => rfl⟩ (t := u.modGroup c o.slot fun G =>
      { G with pend := (G.pend.filter fun p => p.id != o.id) ++ [⟨o.id, lam, ws, o.setf, lam + 1, []⟩] })
    exact u.sameTlbs_modCore c (f := fun k => { k with groups := k.groups.setIfInBounds o.slot _ })
  exact hdrop.trans (hland _)

/-- An invalidation done leaves no translation of its block in any core or quadrant. -/
theorem State.invalidate_clears (s : State) (v : Inv) :
    (∀ c e, e ∈ ((s.invalidate v).core c).caches.tlb → v.covers e.ctx e.va e.log2 = false) ∧
    ∀ q e, e ∈ ((s.invalidate v).quad q).tlb → v.covers e.ctx e.va e.log2 = false := by
  refine ⟨fun c e he => ?_, fun q e he => ?_⟩
  · by_cases hc : c < 768
    · have hcore : (s.invalidate v).core c = if (s.core c).caches.tlb.all fun e => !v.covers e.ctx e.va e.log2 then s.core c
          else { s.core c with caches := { (s.core c).caches with
            tlb := (s.core c).caches.tlb.filter fun e => !v.covers e.ctx e.va e.log2 } } := by
        simp [State.invalidate, State.core, hc]
      rw [hcore] at he
      split at he
      · next h => simpa using List.all_eq_true.mp h e he
      · simpa using (List.mem_filter.mp he).2
    · rw [State.core_of_le (by omega)] at he
      cases he
  · by_cases hq : q < 16
    · have hquad : ((s.invalidate v).quad q).tlb = (s.quad q).tlb.filter fun e => !v.covers e.ctx e.va e.log2 := by
        simp [State.invalidate, State.quad, hq]
      rw [hquad] at he
      simpa using (List.mem_filter.mp he).2
    · rw [State.quad, Vector.getElem?_eq_none (by omega)] at he
      cases he

theorem tlbInvalidateComplete_runs {s : State} {id : Nat} {v : Inv} (hv : s.invs.find? (fun i => i.id == id) = some v) :
    Runs (.tlbInvalidateComplete id) s fun t => t.mem = s.mem ∧ (∀ i ∈ t.invs, i.id ≠ id) ∧
      (∀ c e, e ∈ (t.core c).caches.tlb → v.covers e.ctx e.va e.log2 = false) ∧
      ∀ q e, e ∈ (t.quad q).tlb → v.covers e.ctx e.va e.log2 = false := by
  let u : State := { s with invs := s.invs.filter fun u => u.id != id }
  have hinvs : ∀ i ∈ (u.invalidate v).invs, i.id ≠ id := fun i hi => by simpa using (List.mem_filter.mp hi).2
  obtain ⟨hcores, hquads⟩ := u.invalidate_clears v
  have key : ∀ t : State, (u.invalidate v).SameTlbs t → t.mem = s.mem ∧ (∀ i ∈ t.invs, i.id ≠ id) ∧
      (∀ c e, e ∈ (t.core c).caches.tlb → v.covers e.ctx e.va e.log2 = false) ∧
      ∀ q e, e ∈ (t.quad q).tlb → v.covers e.ctx e.va e.log2 = false := by
    intro t ht
    refine ⟨ht.mem, ht.invs ▸ hinvs, fun c e he => hcores c e (ht.tlb c ▸ he), fun q e he => hquads q e ?_⟩
    rw [State.quad, ← ht.quads]
    exact he
  have hx : exec (.tlbInvalidateComplete id) s = execTlbInvalidateComplete id s := rfl
  unfold Runs
  rw [hx, execTlbInvalidateComplete, hv]
  dsimp only
  refine ⟨_, rfl, key _ ?_⟩
  split
  · exact ⟨rfl, rfl, rfl, fun _ => rfl⟩
  · split
    · exact State.sameTlbs_finishOp ..
    · exact .refl _

/-! ## The whole -/

theorem hostTokens_run (s : State) (x hart : Fin 16) (v : Word) (i : Instr) (op : State.TokCmd)
    (hi : (i, op) ∈ [(Instr.tokenOwn x.val hart.val v, State.TokCmd.own), (.tokenRelease x.val hart.val v, .release),
      (.tokenHome x.val hart.val v, .home), (.tokenUnhome x.val hart.val v, .unhome)]) :
    exec i s = .next (s.hostToken x.val hart.val op v) := by
  have hin : (decide (x.val < 16) && decide (hart.val < 16)) = true := by simp
  simp only [List.mem_cons, Prod.mk.injEq, List.not_mem_nil, or_false] at hi
  rcases hi with ⟨rfl, rfl⟩ | ⟨rfl, rfl⟩ | ⟨rfl, rfl⟩ | ⟨rfl, rfl⟩
  · exact (rfl : exec _ s = execTokenOwn x.val hart.val v s).trans (if_pos hin)
  · exact (rfl : exec _ s = execTokenRelease x.val hart.val v s).trans (if_pos hin)
  · exact (rfl : exec _ s = execTokenHome x.val hart.val v s).trans (if_pos hin)
  · exact (rfl : exec _ s = execTokenUnhome x.val hart.val v s).trans (if_pos hin)

/-- Settles O50: each of the host's steps on a context slot, and each field of its window, by the lemma above that speaks of it. -/
theorem hostCommandEvents : Obligations.HostCommandEvents := by
  unfold Obligations.HostCommandEvents
  refine ⟨fun s x => ⟨fun f rest hf ho hwf => faultRecordWrite_runs hf ho hwf, fun v => faultRecordEnable_runs s x v,
    contextReset_runs s x, fun hp hk => preemptRequest_runs hp hk, fun hart v lr u hl hu => exec_queueLeg hl hu,
    fun v => hostTbinv_runs s x v, fun v => ⟨fun u h => ?stored, fun h => ?refused⟩, fun hart v i op hi => ?token,
    fun v c G i seed hc hG hx hstep hen hst hs => debugStep_runs hc hG hx hstep hen hst hs, fun hb c g ht => ?resume,
    fun hb k hk hst hstall hfree => suspendCrew_runs hb hk hst hstall hfree, fun hb => ⟨fun u h => ?back, fun h => ?gone⟩, ?window⟩,
    registerWrite_misaligned, registerWrite_inbound, fun s id v hv => tlbInvalidateComplete_runs hv⟩
  case stored => rw [exec_placeValueWrite, hostPlace_stored h]
  case refused => rw [exec_placeValueWrite, hostPlace_refused h]
  case token =>
    intro k p hspace hrank h12 h32 hmod
    exact ⟨_, hostTokens_run s x hart v i op hi, s.hostToken_spec x hart.val op v hspace hrank h12 h32 hmod⟩
  case resume =>
    exact ⟨fun G hG hctx hstop hw => resumeGroup_runs hb ht hG hctx hstop hw, resumeCore_runs hb ht,
      fun e he hctx hp => resumeEngine_runs hb ht he hctx hp⟩
  case back => rw [exec_restoreCrew, State.command_runs hb, restoreCmd_back h]; rfl
  case gone => rw [exec_restoreCrew, State.command_runs hb, restoreCmd_refused h]; rfl
  case window =>
    intro at' v
    have hcmd : ∀ n, v.toNat % 16 = n → (v.extractLsb' 0 4).toNat = n := fun n hn => by
      rw [BitVec.extractLsb'_toNat, Nat.shiftRight_zero]
      exact hn
    refine ⟨fun p hp => ?plain, fun p hp => ?area, fun h2 h1 => registerWrite_control h2 h1, fun h2 h1 => registerWrite_reset h2 h1,
      fun p hp => ?starts, fun p hp hv => ?commands, fun off hoff => ?ignored, fun off hlo hhi => ?reserved⟩
    case plain => fin_cases hp <;> exact exec_registerWrite_plain (by simp) (by simp) rfl
    case area => fin_cases hp <;> exact registerWrite_records (by simp) (by simp) rfl
    case starts =>
      simp only [List.mem_cons, List.not_mem_nil, or_false] at hp
      rcases hp with rfl | rfl | rfl | rfl
      · exact registerWrite_frbase
      · exact registerWrite_tbinv
      · exact registerWrite_place
      · exact registerWrite_step
    case commands =>
      simp only [List.mem_cons, List.not_mem_nil, or_false] at hp
      rcases hp with rfl | rfl | rfl | rfl | rfl
      · exact registerWrite_command (hcmd 1 hv) (exec_resumeGroup s x)
      · exact registerWrite_command (hcmd 2 hv) (exec_resumeCore s x)
      · exact registerWrite_command (hcmd 3 hv) (exec_resumeEngine s x)
      · exact registerWrite_command (hcmd 4 hv) (exec_suspendCrew s x)
      · exact registerWrite_command (hcmd 5 hv) (exec_restoreCrew s x)
    case ignored =>
      fin_cases hoff <;> exact (exec_registerWrite rfl (by decide)).trans (congrArg _ (State.modRegs_id s x.val))
    case reserved =>
      by_cases h4 : off % 4 = 0
      · exact (exec_registerWrite h4 hhi).trans (congrArg _ (State.writeBlock_reserved hlo))
      · exact registerWrite_misaligned s _ v (by show (0x10000 + 0x1000 * x.val + off) % 4 ≠ 0; omega)

end Sys2Proof.Machine
end

section
/-! SUPPORT. The refutation of O51. -/

namespace Sys2Proof.Machine

open Sys2Proof

/-- A datagram to no address: its version is none that the controller knows, and its OP is that of READ TEMPERATURES. -/
def strayDatagram : Dgram :=
  { dst := 0, udp := 5170, ver := 0, op := 1, len := 0, seq := 0, status := 0, payload := [], tag := [] }

/-- A module whose port is up and has that datagram at its head. -/
def strayState : State := { State.reset with mgmt := { State.reset.mgmt with linkUp := true, inbox := [.dgram strayDatagram] } }

/-- Refutes O51: the last clause has every datagram that is not accepted dropped, but one that is not sent to the port's address (R382) is
no request at all, and the step of its OP is not enabled: with the link up and a datagram to address 0, of version 0 and OP 1, alone at the
port, MGMT_READ_TEMPERATURES is refused and takes no frame. -/
theorem not_portEvents : ¬ Obligations.PortEvents := by
  unfold Obligations.PortEvents
  rintro ⟨-, -, -, -, -, -, -, -, h⟩
  obtain ⟨-, -, -, -, -, -, -, -, -, -, hdrop⟩ := h strayState strayDatagram []
  have hnext := hdrop rfl rfl rfl
  have hexec : exec .mgmtReadTemperatures strayState = .refused (.notEnabled "MGMT_READ_TEMPERATURES") := rfl
  exact absurd (hexec.symm.trans hnext) (by simp)

end Sys2Proof.Machine
end

section
/-! SUPPORT. Every instruction at the issue slot answers, and so does every event that finds what it names: the settling of O55. -/

namespace Sys2Proof.Machine

open Sys2Proof

/-- An answer that is a next state. -/
def IsNext (o : Host.Outcome State Fault Refusal) : Prop := ∃ t, o = .next t

theorem isNext (t : State) : IsNext (.next t) := ⟨t, rfl⟩

theorem IsNext.ite {p : Prop} [Decidable p] {a b : Host.Outcome State Fault Refusal} (ha : IsNext a) (hb : IsNext b) :
    IsNext (if p then a else b) := by
  split
  · exact ha
  · exact hb

/-- A guard that does not refuse. -/
theorem IsNext.guard {p : Prop} [Decidable p] {a b : Host.Outcome State Fault Refusal} (hp : ¬p) (hb : IsNext b) :
    IsNext (if p then a else b) := by
  rw [if_neg hp]
  exact hb

/-! ## Instructions -/

/-- An instruction of a program is an issue with a body. -/
theorem exec_isIssue {i : Instr} (s : State) (h : i.isCode = true) : ∃ hd u body, exec i s = issue hd u s body := by
  cases i
  all_goals simp only [Instr.isCode, Bool.false_eq_true] at h
  all_goals exact ⟨_, _, _, rfl⟩

/-- What stands at the issue slot does not depend on the header. -/
theorem State.issuer_header {s : State} {h h' : Hdr} (hs : s.issuer h ≠ none) : s.issuer h' ≠ none := by
  unfold State.issuer at *
  split
  · next hi => rw [hi] at hs; exact absurd rfl hs
  · next i hi =>
    rw [hi] at hs
    dsimp only at hs
    split
    · next hG => rw [hG] at hs; exact absurd rfl hs
    · next G hG =>
      rw [hG] at hs
      dsimp only at hs
      split
      · next hS => rw [hS] at hs; exact absurd rfl hs
      · exact Option.some_ne_none _

theorem isNext_issue {s : State} {h h' : Hdr} {u : Use} {body : Iss → Res} (hs : s.issuer h' ≠ none) : IsNext (issue h u s body) := by
  cases hI : s.issuer h with
  | none => exact absurd hI (State.issuer_header hs)
  | some I => exact ⟨_, by rw [issue, hI]⟩

theorem isNext_code {s : State} {i : Instr} {h : Hdr} (hi : i.isCode = true) (hs : s.issuer h ≠ none) : IsNext (exec i s) := by
  obtain ⟨hd, u, body, hx⟩ := exec_isIssue s hi
  rw [hx]
  exact isNext_issue hs

theorem isNext_unassignedOpcode {s : State} (hs : s.issuer ⟨0, none, 0, .p false 7⟩ ≠ none) : IsNext (exec .unassignedOpcode s) := by
  obtain ⟨I, hI⟩ := Option.ne_none_iff_exists'.mp hs
  have hx : exec .unassignedOpcode s = illegal s .illOp := rfl
  exact ⟨_, by rw [hx, illegal, hI]⟩

end Sys2Proof.Machine
end

section
/-! SUPPORT. Each event that finds what it names answers, and the settling of O55. -/

namespace Sys2Proof.Machine

open Sys2Proof

section
variable {s : State} {c g id ctx crew n : Nat}

/-! ## Groups, loads and operations -/

theorem isNext_groupPick (h : Finds s (.groupPick c)) : IsNext (exec (.groupPick c) s) := by
  obtain ⟨hissue, hstep, hen, hst, hfr⟩ := h
  show IsNext (execGroupPick c s)
  unfold execGroupPick
  dsimp only
  rw [hissue, hstep, hen, hst, hfr]
  exact isNext _

theorem isNext_runLimitEnd (h : Finds s (.runLimitEnd c g)) : IsNext (exec (.runLimitEnd c g) s) := by
  obtain ⟨G, sp, S, hG, hcur, hS, hlen⟩ := h
  show IsNext (execRunLimitEnd c g s)
  unfold execRunLimitEnd
  rw [hG]
  dsimp only
  rw [hcur]
  dsimp only
  have hlong : Option.any (fun S => decide (S.runLen ≥ 24)) G.splits[sp] = true := by
    rw [hS]
    exact decide_eq_true hlen
  rw [hlong]
  exact isNext _

theorem isNext_icacheLineArrival (h : Finds s (.icacheLineArrival c)) : IsNext (exec (.icacheLineArrival c) s) := by
  obtain ⟨l, hl⟩ := Option.ne_none_iff_exists'.mp h
  show IsNext (execIcacheLineArrival c s)
  unfold execIcacheLineArrival
  rw [hl]
  exact isNext _

theorem isNext_resultLanding (h : Finds s (.resultLanding c g id)) : IsNext (exec (.resultLanding c g id) s) := by
  obtain ⟨G, hG, p, hp, hid⟩ := h
  have hsome : (G.pend.find? fun p => p.id == id).isSome = true := List.find?_isSome.mpr ⟨p, hp, beq_iff_eq.mpr hid⟩
  obtain ⟨q, hq⟩ := Option.isSome_iff_exists.mp hsome
  show IsNext (execResultLanding c g id s)
  unfold execResultLanding
  rw [hG]
  dsimp only
  rw [hq]
  exact isNext _

theorem isNext_limitExpiry (h : Finds s (.limitExpiry c id)) : IsNext (exec (.limitExpiry c id) s) := by
  obtain ⟨o, ho⟩ := Option.ne_none_iff_exists'.mp h
  show IsNext (execLimitExpiry c id s)
  unfold execLimitExpiry
  rw [ho]
  exact isNext _

theorem isNext_lateValueArrival (h : Finds s (.lateValueArrival c id)) : IsNext (exec (.lateValueArrival c id) s) := by
  obtain ⟨o, ho⟩ := Option.ne_none_iff_exists'.mp h
  show IsNext (execLateValueArrival c id s)
  unfold execLateValueArrival
  rw [ho]
  exact isNext _

theorem isNext_loadLanding (h : Finds s (.loadLanding c id)) : IsNext (exec (.loadLanding c id) s) := by
  obtain ⟨o, o', i, ho, ho', hi, hG, hlim, hans⟩ := h
  obtain ⟨G, hG⟩ := Option.ne_none_iff_exists'.mp hG
  show IsNext (execLoadLanding c id s)
  unfold execLoadLanding
  rw [ho]
  dsimp only
  rw [ho']
  dsimp only
  rw [hi, hG]
  dsimp only
  rw [hlim, hans]
  exact isNext _

theorem isNext_accessCheckComplete (h : Finds s (.accessCheckComplete c id)) : IsNext (exec (.accessCheckComplete c id) s) := by
  obtain ⟨o, ho, hst⟩ := h
  show IsNext (execAccessCheckComplete c id s)
  unfold execAccessCheckComplete
  rw [ho]
  dsimp only
  rcases hst with hst | hst | hst <;> rw [hst] <;> exact isNext _

theorem isNext_storeBufferDrain (h : Finds s (.storeBufferDrain ctx crew)) : IsNext (exec (.storeBufferDrain ctx crew) s) := by
  obtain ⟨k, hk, hcom, hbuf⟩ := h
  show IsNext (execStoreBufferDrain ctx crew s)
  unfold execStoreBufferDrain
  rw [hk]
  dsimp only
  rw [hcom, List.isEmpty_eq_false_iff.mpr hbuf]
  exact isNext _

theorem isNext_barArrivalRegister (h : Finds s (.barArrivalRegister c id)) : IsNext (exec (.barArrivalRegister c id) s) := by
  obtain ⟨o, x, ho, hins, hst, hG⟩ := h
  obtain ⟨G, hG⟩ := Option.ne_none_iff_exists'.mp hG
  show IsNext (execBarArrivalRegister c id s)
  unfold execBarArrivalRegister
  rw [ho]
  dsimp only
  rw [hins, hG]
  exact .guard (fun hne => hne hst) (.ite (isNext _) (isNext _))

theorem isNext_gbarArrivalRegister (h : Finds s (.gbarArrivalRegister c id)) : IsNext (exec (.gbarArrivalRegister c id) s) := by
  obtain ⟨o, x, ho, hins, hst, hG⟩ := h
  obtain ⟨G, hG⟩ := Option.ne_none_iff_exists'.mp hG
  show IsNext (execGbarArrivalRegister c id s)
  unfold execGbarArrivalRegister
  rw [ho]
  dsimp only
  rw [hins, hG]
  exact .guard (fun hne => hne hst) (.ite (isNext _) (isNext _))

theorem isNext_waitLimitExpiry (h : Finds s (.waitLimitExpiry c id)) : IsNext (exec (.waitLimitExpiry c id) s) := by
  obtain ⟨o, k, ho, hst, hlim, hk⟩ := h
  show IsNext (execWaitLimitExpiry c id s)
  unfold execWaitLimitExpiry
  rw [ho]
  dsimp only
  rw [if_pos ⟨hst, by rw [hlim]; exact decide_eq_true hk⟩]
  split
  · exact isNext _
  · exact isNext _

theorem isNext_aonLimitExpiry (h : Finds s (.aonLimitExpiry c id)) : IsNext (exec (.aonLimitExpiry c id) s) := by
  obtain ⟨o, k, ho, hst, hlim, hk⟩ := h
  show IsNext (execAonLimitExpiry c id s)
  unfold execAonLimitExpiry
  rw [ho]
  dsimp only
  rw [if_pos ⟨hst, by rw [hlim]; exact decide_eq_true hk⟩]
  exact isNext _

theorem isNext_tokenOpAtHome (h : Finds s (.tokenOpAtHome c id)) : IsNext (exec (.tokenOpAtHome c id) s) := by
  obtain ⟨o, ho, hst, haccs⟩ := h
  have ha := List.head?_eq_some_head haccs
  show IsNext (execTokenOpAtHome c id s)
  unfold execTokenOpAtHome
  rw [ho]
  dsimp only
  rw [if_neg fun hne => hne hst, ha]
  dsimp only
  refine .ite (isNext _) ?_
  split
  · exact isNext _
  · exact .ite (isNext _) (isNext _)

theorem isNext_tktakeComplete (h : Finds s (.tktakeComplete c id)) : IsNext (exec (.tktakeComplete c id) s) := by
  obtain ⟨o, ho, hst, haccs⟩ := h
  have ha := List.head?_eq_some_head haccs
  show IsNext (execTktakeComplete c id s)
  unfold execTktakeComplete
  rw [ho]
  dsimp only
  rw [hst, ha]
  exact .ite (isNext _) (isNext _)

theorem isNext_lentStallRelease (h : Finds s (.lentStallRelease c id)) : IsNext (exec (.lentStallRelease c id) s) := by
  obtain ⟨o, ho, hst⟩ := h
  show IsNext (execLentStallRelease c id s)
  unfold execLentStallRelease
  rw [ho]
  dsimp only
  rw [if_pos hst]
  exact isNext _

theorem isNext_tileOpComplete (h : Finds s (.tileOpComplete c id)) : IsNext (exec (.tileOpComplete c id) s) := by
  obtain ⟨o, ho, hst⟩ := h
  show IsNext (execTileOpComplete c id s)
  unfold execTileOpComplete
  rw [ho]
  exact .guard (fun hne => hne hst) (isNext _)

/-! ## Tasks and engines -/

theorem isNext_taskStart (h : Finds s (.taskStart c id)) : IsNext (exec (.taskStart c id) s) := by
  obtain ⟨x, t, ht, hends⟩ := h
  show IsNext (execTaskStart c id s)
  unfold execTaskStart
  dsimp only
  rw [ht]
  dsimp only
  rw [hends]
  refine .guard Bool.false_ne_true ?_
  split
  · exact isNext _
  · exact isNext _

theorem isNext_taskComplete (h : Finds s (.taskComplete c id)) : IsNext (exec (.taskComplete c id) s) := by
  obtain ⟨x, t, ht, hends⟩ := h
  show IsNext (execTaskComplete c id s)
  unfold execTaskComplete
  dsimp only
  rw [ht]
  dsimp only
  obtain ⟨k, hk⟩ := Option.ne_none_iff_exists'.mp hends
  rw [hk]
  refine .guard Bool.false_ne_true ?_
  exact .ite (isNext _) (.ite (isNext _) (isNext _))

theorem isNext_engineSelfTest (h : Finds s (.engineSelfTest c n)) : IsNext (exec (.engineSelfTest c n) s) := by
  show IsNext (execEngineSelfTest c n s)
  unfold execEngineSelfTest
  dsimp only
  split
  · next hnil => exact absurd hnil h
  · refine .ite (isNext _) ?_
    split
    · exact isNext _
    · refine .ite ?_ (isNext _)
      split
      · split
        · exact isNext _
        · exact isNext _
      · exact isNext _

theorem isNext_engineFaultPause (h : Finds s (.engineFaultPause c n)) : IsNext (exec (.engineFaultPause c n) s) := by
  obtain ⟨x, hx, hp⟩ := h
  obtain ⟨k, hk⟩ := Option.ne_none_iff_exists'.mp hp
  show IsNext (execEngineFaultPause c n s)
  unfold execEngineFaultPause
  rw [hx]
  dsimp only
  rw [hk]
  exact .ite (isNext _) (isNext _)

theorem isNext_engineOpComplete (h : Finds s (.engineOpComplete c n)) : IsNext (exec (.engineOpComplete c n) s) := by
  obtain ⟨x, hx, hp⟩ := h
  show IsNext (execEngineOpComplete c n s)
  unfold execEngineOpComplete
  rw [hx]
  dsimp only
  rw [hp]
  exact isNext _

/-! ## Packets and streams -/

theorem isNext_packetNack {us : List Nat} (h : Finds s (.packetNack c id us)) : IsNext (exec (.packetNack c id us) s) := by
  show IsNext (execPacketNack c id us s)
  unfold execPacketNack
  rcases h with ⟨p, hp, hesc, hsent, d, hd, hev⟩ | ⟨hp, e, x, f, hf, k, hk, hserved, hdue, hgot, hesc⟩
  · rw [hp]
    dsimp only
    have hany : s.sch.agenda.any (fun d => d.ev == State.packetEvent c p) = true := List.any_eq_true.mpr ⟨d, hd, beq_iff_eq.mpr hev⟩
    rw [hesc, hsent, hany]
    exact isNext _
  · rw [hp]
    dsimp only
    rw [hf]
    dsimp only
    have hhit : f.forks.any (fun k => (!x.args.m || us.contains k.branch) && k.due.isSome && k.got == 0 && !k.escape) = true := by
      refine List.any_eq_true.mpr ⟨k, hk, ?_⟩
      rw [hgot, hesc, Option.isSome_iff_ne_none.mpr hdue]
      rcases hserved with hm | hb
      · rw [hm]
        rfl
      · rw [List.contains_iff_mem.mpr hb, Bool.or_true]
        rfl
    have hhit' : (!f.forks.any fun k => (!x.args.m || us.contains k.branch) && k.due.isSome && k.got == 0 && !k.escape) = false := by
      rw [hhit]
      rfl
    exact .guard (fun hh => Bool.false_ne_true (hhit'.symm.trans hh)) (isNext _)

theorem isNext_packetResend (h : Finds s (.packetResend c id)) : IsNext (exec (.packetResend c id) s) := by
  show IsNext (execPacketResend c id s)
  unfold execPacketResend
  split
  · exact isNext _
  · next hp =>
    rcases h with h | h
    · exact absurd hp h
    · obtain ⟨⟨e, x, f⟩, hf⟩ := Option.ne_none_iff_exists'.mp h
      rw [hf]
      exact isNext _

theorem isNext_messageArrival (h : Finds s (.messageArrival c id)) : IsNext (exec (.messageArrival c id) s) := by
  obtain ⟨p, hp⟩ := Option.ne_none_iff_exists'.mp h
  show IsNext (execMessageArrival c id s)
  unfold execMessageArrival
  rw [hp]
  dsimp only
  split
  · exact isNext _
  · refine .ite (isNext _) (.ite (isNext _) ?_)
    split
    · exact isNext _
    · split
      · exact isNext _
      · exact .ite (isNext _) (.ite (isNext _) (.ite (isNext _) (isNext _)))

theorem isNext_streamElementRead (h : Finds s (.streamElementRead c n)) : IsNext (exec (.streamElementRead c n) s) := by
  obtain ⟨x, hx, hrun⟩ := h
  show IsNext (execStreamElementRead c n s)
  unfold execStreamElementRead
  obtain ⟨reach, hr⟩ : ∃ f, State.engReach = f := ⟨_, rfl⟩
  rw [hr]
  rw [hx]
  dsimp only
  rw [hrun]
  exact .guard Bool.false_ne_true (.ite (isNext _) (isNext _))

theorem isNext_gdetachComplete (h : Finds s (.gdetachComplete c id)) : IsNext (exec (.gdetachComplete c id) s) := by
  obtain ⟨o, ho, hk⟩ := h
  obtain ⟨k, hk⟩ := Option.ne_none_iff_exists'.mp hk
  show IsNext (execGdetachComplete c id s)
  unfold execGdetachComplete
  rw [ho]
  dsimp only
  rw [hk]
  dsimp only
  split
  · exact .ite (isNext _) (isNext _)
  · exact isNext _

end

end Sys2Proof.Machine
end

section
/-! SUPPORT. Events that walk a page table, and those of crews, power, the host and the ports, answer; the settling of O55. -/

namespace Sys2Proof.Machine

open Sys2Proof

section
variable {s : State} {c g id ctx crew leg n q : Nat}

/-! ## What walks a page table -/

theorem isNext_pageWalkComplete (h : Finds s (.pageWalkComplete q id)) : IsNext (exec (.pageWalkComplete q id) s) := by
  obtain ⟨w, hw, hid⟩ := h
  have hsome : ((s.quad q).walks.find? fun w => w.id == id).isSome = true := List.find?_isSome.mpr ⟨w, hw, beq_iff_eq.mpr hid⟩
  obtain ⟨v, hv⟩ := Option.isSome_iff_exists.mp hsome
  show IsNext (execPageWalkComplete q id s)
  unfold execPageWalkComplete
  obtain ⟨mark, hm⟩ : ∃ f, State.walkMark = f := ⟨_, rfl⟩
  rw [hm, hv]
  dsimp only
  split
  · exact isNext _
  · exact .ite (isNext _) (isNext _)

theorem isNext_monitorReread (h : Finds s (.monitorReread c id)) : IsNext (exec (.monitorReread c id) s) := by
  obtain ⟨o, ho, hst, haccs⟩ := h
  have ha := List.head?_eq_some_head haccs
  show IsNext (execMonitorReread c id s)
  unfold execMonitorReread
  obtain ⟨look, hl⟩ : ∃ f, State.look = f := ⟨_, rfl⟩
  rw [hl, ho]
  dsimp only
  rw [hst, ha]
  dsimp only
  split
  · exact isNext _
  · split
    · exact isNext _
    · exact isNext _
    · exact isNext _
    · exact isNext _
    · refine .ite (isNext _) ?_
      split
      · exact isNext _
      · exact isNext _

theorem isNext_taggedMessageArrival (h : Finds s (.taggedMessageArrival c id)) : IsNext (exec (.taggedMessageArrival c id) s) := by
  obtain ⟨p, hp, hsome⟩ := h
  show IsNext (execTaggedMessageArrival c id s)
  unfold execTaggedMessageArrival
  obtain ⟨mark, hm⟩ : ∃ f, State.markWalks = f := ⟨_, rfl⟩
  obtain ⟨word, hw⟩ : ∃ f, State.virtWord = f := ⟨_, rfl⟩
  rw [hm, hw, hp]
  dsimp only
  split
  · exact isNext _
  · next htake htag => exact absurd hsome (by rw [htake, htag]; simp)
  · refine .ite (isNext _) (.ite (isNext _) (.ite (isNext _) ?_))
    split
    · exact isNext _
    · split
      · exact .ite (isNext _) (isNext _)
      · exact isNext _

theorem isNext_streamElementArrival (h : Finds s (.streamElementArrival c n id)) : IsNext (exec (.streamElementArrival c n id) s) := by
  obtain ⟨⟨e, op⟩, he⟩ := Option.ne_none_iff_exists'.mp h
  show IsNext (execStreamElementArrival c n id s)
  unfold execStreamElementArrival
  obtain ⟨look, hl⟩ : ∃ f, State.lookNow = f := ⟨_, rfl⟩
  rw [hl, he]
  dsimp only
  split
  · exact isNext _
  · exact isNext _
  · exact isNext _
  · exact isNext _
  · exact isNext _

/-! ## Crews and legs -/

theorem isNext_crewExitRelease (h : Finds s (.crewExitRelease ctx crew)) : IsNext (exec (.crewExitRelease ctx crew) s) := by
  obtain ⟨k, hk, hcase⟩ := h
  show IsNext (execCrewExitRelease ctx crew s)
  unfold execCrewExitRelease
  rw [hk]
  dsimp only
  rcases hcase with ⟨hst, hpeers⟩ | ⟨hst, hflush⟩
  · rw [hst]
    dsimp only
    rw [hpeers]
    exact isNext _
  · rw [hst]
    cases hf : k.flush with
    | some f => exact .guard (Nat.not_lt.mpr (hflush f hf)) (isNext _)
    | none =>
      dsimp only
      split
      · exact isNext _
      · exact isNext _

/-- The first leg without pending edges. -/
theorem findIdx?_first {α : Type} {p : α → Bool} {xs : List α} {i : Nat} {x : α} (hx : xs[i]? = some x) (hp : p x = true)
    (hfirst : ∀ j, j < i → ∀ y, xs[j]? = some y → p y = false) : xs.findIdx? p = some i := by
  rw [List.findIdx?_eq_some_iff_getElem]
  obtain ⟨hi, hxi⟩ := List.getElem?_eq_some_iff.mp hx
  exact ⟨hi, by rw [hxi]; exact hp, fun j hj => by simp [hfirst j hj _ (List.getElem?_eq_getElem (by omega))]⟩

theorem isNext_legAdmission (h : Finds s (.legAdmission ctx)) : IsNext (exec (.legAdmission ctx) s) := by
  obtain ⟨hmay, i, l, hl, hpend, hfirst, hflush⟩ := h
  have hidx : (s.ctx ctx).queue.findIdx? (fun l => l.pending == 0) = some i :=
    findIdx?_first hl (beq_iff_eq.mpr hpend) fun j hj m hm => beq_eq_false_iff_ne.mpr (hfirst j hj m hm)
  have hended : l.flush.any (fun f => decide (s.now f.core < f.ends)) = false := by
    cases hf : l.flush with
    | none => rfl
    | some f => exact decide_eq_false (Nat.not_lt.mpr (hflush f hf))
  show IsNext (execLegAdmission ctx s)
  unfold execLegAdmission
  dsimp only
  rw [hidx]
  dsimp only
  rw [hl]
  dsimp only
  rw [hmay, hended]
  refine .guard (by decide) ?_
  split
  · exact isNext _
  · exact isNext _

theorem isNext_crewStart (h : Finds s (.crewStart ctx crew)) : IsNext (exec (.crewStart ctx crew) s) := by
  obtain ⟨k, l, hk, hl, hst, ⟨r, hr, hcrew⟩, hflush⟩ := h
  have hany : (s.ctx ctx).reservations.any (fun r => r.2.contains crew) = true := List.any_eq_true.mpr ⟨r, hr, by simpa using hcrew⟩
  show IsNext (execCrewStart ctx crew s)
  unfold execCrewStart
  rw [hk]
  dsimp only
  rw [hl]
  dsimp only
  rw [hst, hany]
  refine .guard (by decide) ?_
  cases hf : k.flush with
  | some f => exact .guard (Nat.not_lt.mpr (hflush f hf)) (isNext _)
  | none => exact .ite (isNext _) (.ite (isNext _) (isNext _))

theorem isNext_gangReservation (h : Finds s (.gangReservation ctx g)) : IsNext (exec (.gangReservation ctx g) s) := by
  obtain ⟨k, ms, l, u, hms, hl, hmay, hres, hahead, hplace⟩ := h
  show IsNext (execGangReservation ctx g s)
  unfold execGangReservation
  dsimp only
  rw [hms]
  dsimp only [List.head?]
  rw [hl]
  dsimp only
  refine .guard ?_ ?_
  · rw [hmay, Bool.not_true, Bool.false_or, Bool.or_eq_true, List.any_eq_true, List.any_eq_true]
    rintro (⟨r, hr, hg⟩ | ⟨q, hq, hbad⟩)
    · exact hres r hr (beq_iff_eq.mp hg)
    · obtain ⟨hrel, hnone⟩ := hahead q hq
      simp only [Bool.or_eq_true, Bool.and_eq_true, beq_iff_eq, bne_iff_ne] at hbad
      rcases hbad with hbad | ⟨⟨⟨⟨⟨hleg, hwait⟩, hgang⟩, hdealt⟩, -⟩, -⟩
      · exact hrel hbad
      · rw [hnone hleg hwait hgang] at hdealt
        exact absurd hdealt (by simp)
  · rw [hplace]
    exact isNext _

theorem isNext_legComplete (h : Finds s (.legComplete ctx leg)) : IsNext (exec (.legComplete ctx leg) s) := by
  obtain ⟨l, hl, halive⟩ := h
  show IsNext (execLegComplete ctx leg s)
  unfold execLegComplete
  rw [hl]
  dsimp only
  rw [halive]
  exact .guard (by decide) (.ite (isNext _) (isNext _))

theorem isNext_preemptDeadlineExpiry (h : Finds s (.preemptDeadlineExpiry ctx q)) : IsNext (exec (.preemptDeadlineExpiry ctx q) s) := by
  obtain ⟨⟨k, hd, hk⟩, hon⟩ := h
  obtain ⟨t, ht, -⟩ := preemptDeadlineExpiry_runs hd hk hon
  exact ⟨t, ht⟩

theorem isNext_quiescePoint (h : Finds s (.quiescePoint c)) : IsNext (exec (.quiescePoint c) s) := by
  have hq : s.quiescing c = true := h
  show IsNext (execQuiescePoint c s)
  unfold execQuiescePoint
  rw [hq]
  exact .guard Bool.false_ne_true (.ite (isNext _) (isNext _))

theorem isNext_crewSave : IsNext (exec (.crewSave ctx crew) s) := by
  show IsNext (execCrewSave ctx crew s)
  unfold execCrewSave
  dsimp only
  split
  · exact isNext _
  · refine .ite (isNext _) (.ite (isNext _) ?_)
    split
    · split
      · exact .ite (isNext _) (isNext _)
      · split
        · exact isNext _
        · exact .ite (isNext _) (isNext _)
    · exact isNext _

theorem isNext_crewRelaunch (h : Finds s (.crewRelaunch ctx crew)) : IsNext (exec (.crewRelaunch ctx crew) s) := by
  obtain ⟨k, l, u, hk, hl, hst, hmay, hplace⟩ := h
  show IsNext (execCrewRelaunch ctx crew s)
  unfold execCrewRelaunch
  rw [hk]
  dsimp only
  rw [hl]
  dsimp only
  rw [hst, hmay]
  refine .guard (by decide) ?_
  rw [hplace]
  exact isNext _

theorem isNext_groupUnpark (h : Finds s (.groupUnpark c)) : IsNext (exec (.groupUnpark c) s) := by
  obtain ⟨g, G, hg, hG, hp⟩ := h
  obtain ⟨t, ht⟩ := Option.ne_none_iff_exists'.mp hp
  show IsNext (execGroupUnpark c s)
  unfold execGroupUnpark
  dsimp only
  split
  · next hnone =>
    rw [List.min?_eq_none_iff, List.map_eq_nil_iff, List.filterMap_eq_nil_iff] at hnone
    have := hnone g (List.mem_range.mpr hg)
    rw [hG] at this
    dsimp only at this
    rw [ht] at this
    cases this
  · next m hm =>
    obtain ⟨p, hp, hpm⟩ := List.mem_map.mp (List.min?_mem hm)
    split
    · next hnone => exact absurd hpm (by simpa using List.find?_eq_none.mp hnone p hp)
    · exact isNext _

/-! ## Reliability, power and the management port -/

theorem isNext_errorEvent {u : UnitId} {b : Bool} {loc : Option ErrLoc} : IsNext (exec (.errorEvent u b loc) s) := by
  show IsNext (execErrorEvent u b loc s)
  unfold execErrorEvent
  split
  · exact isNext _
  · exact isNext _
  · exact isNext _

theorem isNext_stepRaise (h : Finds s (.stepRaise q)) : IsNext (exec (.stepRaise q) s) := by
  obtain ⟨hq, hj, hr⟩ := h
  obtain ⟨r, hr⟩ := Option.ne_none_iff_exists'.mp hr
  obtain ⟨t, ht, -⟩ := stepRaise_runs (q := ⟨q, hq⟩) hj hr
  exact ⟨t, ht⟩

theorem isNext_stepLower (h : Finds s (.stepLower q)) : IsNext (exec (.stepLower q) s) := by
  obtain ⟨hq, hj, ht⟩ := h
  obtain ⟨t, ht, -⟩ := stepLower_runs (q := ⟨q, hq⟩) hj ht
  exact ⟨t, ht⟩

theorem isNext_voltageFall (h : Finds s (.voltageFall q)) : IsNext (exec (.voltageFall q) s) := by
  obtain ⟨hq, hf⟩ := h
  cases hv : (s.quad q).falling with
  | nil => exact absurd hv hf
  | cons v rest =>
    obtain ⟨t, ht, -⟩ := voltageFall_runs (q := ⟨q, hq⟩) hv
    exact ⟨t, ht⟩

theorem isNext_thermalCapStep {js : List (BitVec 8)} (h : Finds s (.thermalCapStep q js)) : IsNext (exec (.thermalCapStep q js) s) := by
  obtain ⟨hq, hj⟩ := h
  obtain ⟨t, ht, -⟩ := thermalCapStep_runs (q := ⟨q, hq⟩) js hj
  exact ⟨t, ht⟩

theorem isNext_quadrantJoin {js : List (BitVec 8)} (h : Finds s (.quadrantJoin q js)) : IsNext (exec (.quadrantJoin q js) s) := by
  obtain ⟨hq, hb, hj, hall⟩ := h
  obtain ⟨t, ht, -⟩ := quadrantJoin_runs (q := ⟨q, hq⟩) js hb hj hall
  exact ⟨t, ht⟩

theorem isNext_quadrantCalibrated (h : Finds s (.quadrantCalibrated q)) : IsNext (exec (.quadrantCalibrated q) s) := by
  obtain ⟨hq, hj, hc⟩ := h
  obtain ⟨t, ht, -⟩ := quadrantCalibrated_runs (q := ⟨q, hq⟩) hj hc
  exact ⟨t, ht⟩

theorem isNext_gddrTempReport {x : BitVec 8} (h : Finds s (.gddrTempReport n x)) : IsNext (exec (.gddrTempReport n x) s) := by
  obtain ⟨t, ht, -⟩ := gddrTempReport_runs s ⟨n, h⟩ x
  exact ⟨t, ht⟩

theorem isNext_coreLoss (h : Finds s (.coreLoss c)) : IsNext (exec (.coreLoss c) s) := by
  obtain ⟨hc, hen⟩ := h
  obtain ⟨t, ht, -⟩ := coreLoss_runs hc hen
  exact ⟨t, ht⟩

theorem isNext_powerUp {is : List Image} (h : Finds s (.powerUp is)) : IsNext (exec (.powerUp is) s) := by
  obtain ⟨t, ht, -⟩ := powerUp_runs is h
  exact ⟨t, ht⟩

/-- A request at the head of the port's frames is taken. -/
theorem isNext_manage {p : BitVec 8 → Prop} {f : BitVec 8 → Bool} {name : String} {work : Dgram → State → BitVec 8 × List Byte × State}
    (h : asks s p) (hf : ∀ op, p op → f op = true) : IsNext (s.manage name f work) := by
  obtain ⟨hup, y, rest, hbox, x, rfl, hop, hdst, hne, hudp⟩ := h
  refine ⟨s.serve x (work x), ?_⟩
  have hreq : s.request f = some x := by
    unfold State.request
    rw [hbox]
    dsimp only
    refine if_pos ?_
    rw [hf _ hop, hup, State.isOurs, hdst, hudp, beq_self_eq_true]
    simpa [State.mgmtPort, hdst] using hne
  rw [State.manage, hreq]

theorem isNext_mgmtResetModule (h : Finds s .mgmtResetModule) : IsNext (exec .mgmtResetModule s) := by
  obtain ⟨hup, y, rest, hbox, x, rfl, hop, hdst, hne, hudp⟩ := h
  have hreq : s.request (· == 0x05) = some x := by
    unfold State.request
    rw [hbox]
    dsimp only
    refine if_pos ?_
    rw [beq_iff_eq.mpr hop, hup, State.isOurs, hdst, hudp, beq_self_eq_true]
    simpa [State.mgmtPort, hdst] using hne
  show IsNext (execMgmtResetModule s)
  unfold execMgmtResetModule
  rw [hreq]
  exact isNext _

theorem isNext_mgmtArp (h : Finds s .mgmtArp) : IsNext (exec .mgmtArp s) := by
  obtain ⟨hup, x, rest, hbox, ip, mac, rfl⟩ := h
  show IsNext (execMgmtArp s)
  unfold execMgmtArp
  rw [hbox]
  dsimp only
  rw [hup]
  exact isNext _

theorem isNext_mgmtIcmpEcho (h : Finds s .mgmtIcmpEcho) : IsNext (exec .mgmtIcmpEcho s) := by
  obtain ⟨hup, x, rest, hbox, dst, src, data, rfl⟩ := h
  show IsNext (execMgmtIcmpEcho s)
  unfold execMgmtIcmpEcho
  rw [hbox]
  dsimp only
  rw [hup]
  exact isNext _

theorem isNext_mgmtDhcp (h : Finds s .mgmtDhcp) : IsNext (exec .mgmtDhcp s) := by
  obtain ⟨hup, x, rest, hbox, ip, n, rfl⟩ := h
  show IsNext (execMgmtDhcp s)
  unfold execMgmtDhcp
  rw [hbox]
  dsimp only
  rw [hup]
  exact isNext _

/-! ## The host and PCI Express -/

theorem isNext_faultRecordWrite (h : Finds s (.faultRecordWrite ctx)) : IsNext (exec (.faultRecordWrite ctx) s) := by
  obtain ⟨hr, ho⟩ := h
  show IsNext (execFaultRecordWrite ctx s)
  unfold execFaultRecordWrite
  dsimp only
  split
  · next hnil => exact absurd hnil hr
  · rw [ho]
    exact isNext _

theorem isNext_queueLeg {hart : Nat} {v : Word} (h : Finds s (.queueLeg ctx hart v)) : IsNext (exec (.queueLeg ctx hart v) s) := by
  obtain ⟨hctx, hhart⟩ := h
  show IsNext (execQueueLeg ctx hart v s)
  unfold execQueueLeg
  refine .guard (by simp; omega) ?_
  dsimp only
  split
  · exact isNext _
  · exact isNext _

theorem isNext_tlbInvalidateComplete (h : Finds s (.tlbInvalidateComplete id)) : IsNext (exec (.tlbInvalidateComplete id) s) := by
  obtain ⟨w, hw, hid⟩ := h
  have hsome : (s.invs.find? fun v => v.id == id).isSome = true := List.find?_isSome.mpr ⟨w, hw, beq_iff_eq.mpr hid⟩
  obtain ⟨v, hv⟩ := Option.isSome_iff_exists.mp hsome
  obtain ⟨t, ht, -⟩ := tlbInvalidateComplete_runs hv
  exact ⟨t, ht⟩

theorem isNext_registerWrite {off : Nat} {v : Word} : IsNext (exec (.registerWrite off v) s) :=
  .ite (isNext _) (.ite (isNext _) (.ite (isNext _) (isNext _)))

theorem isNext_hostMemoryAccess {hart pa len : Nat} {wr : Option (List Byte)} (h : Finds s (.hostMemoryAccess hart pa wr len)) :
    IsNext (exec (.hostMemoryAccess hart pa wr len) s) := by
  obtain ⟨hn, hlo, hhi⟩ := h
  show IsNext (execHostMemoryAccess hart pa wr len s)
  unfold execHostMemoryAccess
  cases wr with
  | some bs =>
    refine .guard ?_ (isNext _)
    simpa [hlo, show inMap (pa + bs.length - 1) = true from hhi] using hn
  | none =>
    refine .guard ?_ (.ite (isNext _) (isNext _))
    simpa [hlo, show inMap (pa + len - 1) = true from hhi] using hn

theorem isNext_inboundRequest {x : Tlp} : IsNext (exec (.inboundRequest x) s) := by
  show IsNext (execInboundRequest x s)
  unfold execInboundRequest
  refine .ite (isNext _) ?_
  split
  · exact isNext _
  · dsimp only
    split
    · exact .ite (isNext _) (isNext _)
    · exact .ite (isNext _) (.ite (isNext _) (isNext _))

theorem isNext_postedWriteRelease (h : Finds s (.postedWriteRelease id)) : IsNext (exec (.postedWriteRelease id) s) := by
  obtain ⟨p, hp, hid⟩ := h
  have hsome : (s.posted.find? fun p => p.id == id).isSome = true := List.find?_isSome.mpr ⟨p, hp, beq_iff_eq.mpr hid⟩
  obtain ⟨v, hv⟩ := Option.isSome_iff_exists.mp hsome
  show IsNext (execPostedWriteRelease id s)
  unfold execPostedWriteRelease
  rw [hv]
  exact .ite (isNext _) (isNext _)

theorem isNext_pcieLinkTraining {port : Fin 2} {up err : Bool} {rate lanes : Nat} (h : Finds s (.pcieLinkTraining port up rate lanes err)) :
    IsNext (exec (.pcieLinkTraining port up rate lanes err) s) := by
  show IsNext (execPcieLinkTraining port up rate lanes err s)
  unfold execPcieLinkTraining
  cases up with
  | false => exact isNext _
  | true =>
    obtain ⟨hrate, hlanes⟩ := h rfl
    rw [List.contains_iff_mem.mpr hrate, List.contains_iff_mem.mpr hlanes]
    exact isNext _

end

end Sys2Proof.Machine
end

section
/-! SUPPORT. Every event that finds what it names answers, and the settling of O55. -/

namespace Sys2Proof.Machine

open Sys2Proof

/-- An event that finds what it names answers a next state. -/
theorem isNext_event {s : State} {e : Instr} (hcode : e.isCode = false) (h : Finds s e) : IsNext (exec e s) := by
  cases e
  case groupPick => exact isNext_groupPick h
  case runLimitEnd => exact isNext_runLimitEnd h
  case icacheLineArrival => exact isNext_icacheLineArrival h
  case resultLanding => exact isNext_resultLanding h
  case limitExpiry => exact isNext_limitExpiry h
  case lateValueArrival => exact isNext_lateValueArrival h
  case loadLanding => exact isNext_loadLanding h
  case pageWalkComplete => exact isNext_pageWalkComplete h
  case accessCheckComplete => exact isNext_accessCheckComplete h
  case storeBufferDrain => exact isNext_storeBufferDrain h
  case barArrivalRegister => exact isNext_barArrivalRegister h
  case gbarArrivalRegister => exact isNext_gbarArrivalRegister h
  case monitorReread => exact isNext_monitorReread h
  case waitLimitExpiry => exact isNext_waitLimitExpiry h
  case aonLimitExpiry => exact isNext_aonLimitExpiry h
  case tokenOpAtHome => exact isNext_tokenOpAtHome h
  case tktakeComplete => exact isNext_tktakeComplete h
  case lentStallRelease => exact isNext_lentStallRelease h
  case tileOpComplete => exact isNext_tileOpComplete h
  case taskStart => exact isNext_taskStart h
  case taskComplete => exact isNext_taskComplete h
  case engineSelfTest => exact isNext_engineSelfTest h
  case engineFaultPause => exact isNext_engineFaultPause h
  case engineOpComplete => exact isNext_engineOpComplete h
  case packetNack => exact isNext_packetNack h
  case packetResend => exact isNext_packetResend h
  case messageArrival => exact isNext_messageArrival h
  case taggedMessageArrival => exact isNext_taggedMessageArrival h
  case streamElementRead => exact isNext_streamElementRead h
  case streamElementArrival => exact isNext_streamElementArrival h
  case gdetachComplete => exact isNext_gdetachComplete h
  case crewExitRelease => exact isNext_crewExitRelease h
  case legAdmission => exact isNext_legAdmission h
  case crewStart => exact isNext_crewStart h
  case gangReservation => exact isNext_gangReservation h
  case legComplete => exact isNext_legComplete h
  case preemptDeadlineExpiry => exact isNext_preemptDeadlineExpiry h
  case quiescePoint => exact isNext_quiescePoint h
  case coreLoss => exact isNext_coreLoss h
  case crewRelaunch => exact isNext_crewRelaunch h
  case groupUnpark => exact isNext_groupUnpark h
  case stepRaise => exact isNext_stepRaise h
  case stepLower => exact isNext_stepLower h
  case voltageFall => exact isNext_voltageFall h
  case gddrTempReport => exact isNext_gddrTempReport h
  case thermalCapStep => exact isNext_thermalCapStep h
  case quadrantJoin => exact isNext_quadrantJoin h
  case quadrantCalibrated => exact isNext_quadrantCalibrated h
  case powerUp => exact isNext_powerUp h
  case faultRecordWrite => exact isNext_faultRecordWrite h
  case queueLeg => exact isNext_queueLeg h
  case tlbInvalidateComplete => exact isNext_tlbInvalidateComplete h
  case hostMemoryAccess => exact isNext_hostMemoryAccess h
  case postedWriteRelease => exact isNext_postedWriteRelease h
  case pcieLinkTraining => exact isNext_pcieLinkTraining h
  case mgmtResetModule => exact isNext_mgmtResetModule h
  case mgmtArp => exact isNext_mgmtArp h
  case mgmtIcmpEcho => exact isNext_mgmtIcmpEcho h
  case mgmtDhcp => exact isNext_mgmtDhcp h
  case crewSave => exact isNext_crewSave
  case errorEvent => exact isNext_errorEvent
  case registerWrite => exact isNext_registerWrite
  case inboundRequest => exact isNext_inboundRequest
  case faultRecordEnable | contextReset | preemptRequest | hostTbinv | placeValueWrite | debugStep | resumeGroup | resumeCore |
      resumeEngine | suspendCrew | restoreCrew | errorWindowExpiry | grantUpdate =>
    exact ⟨_, if_pos h⟩
  case tokenOwn | tokenRelease | tokenHome | tokenUnhome => exact ⟨_, if_pos (by simpa [Finds] using h)⟩
  case mgmtReadTemperatures | mgmtReadEvents | mgmtSetStepCap | mgmtSetHotlim | mgmtFirmwareChunk | mgmtFirmwareCommit | mgmtQuote |
      mgmtSetAddress =>
    simp only [Finds] at h
    exact isNext_manage h fun _ => beq_iff_eq.mpr
  case mgmtUnknownOp =>
    simp only [Finds] at h
    exact isNext_manage h fun _ hop => by simpa using hop
  case mgmtAutoNegotiation => exact isNext _
  case unassignedOpcode => exact isNext_unassignedOpcode h
  all_goals cases hcode

/-- An instruction finds what it needs when a group and a split stand at the issue slot. -/
theorem Finds.issuer {s : State} {e : Instr} (hcode : e.isCode = true) (h : Finds s e) : s.issuer ⟨0, none, 0, .p false 7⟩ ≠ none := by
  cases e
  all_goals simp only [Instr.isCode, Bool.false_eq_true] at hcode
  all_goals exact h

theorem isNext_finds {s : State} {e : Instr} (h : Finds s e) : IsNext (exec e s) := by
  cases hcode : e.isCode with
  | true => exact isNext_code hcode (h.issuer hcode)
  | false => exact isNext_event hcode h

/-- Settles O55: an instruction is an issue, which answers whatever its operands; an event answers by its own guard, which `Finds` meets. -/
theorem everyEventAnswers : Obligations.EveryEventAnswers := by
  unfold Obligations.EveryEventAnswers
  refine ⟨fun i s I hcode hI => ?_, fun s hall d hd => isNext_finds (hall d hd), fun s e hcode h => isNext_event hcode h⟩
  exact isNext_code hcode (by rw [hI]; exact Option.some_ne_none I)

end Sys2Proof.Machine
end

section
/-! SUPPORT. The canonical form of memory as a property of states: what leaves memory alone keeps it, and so do the operations that write
bytes at home. -/

namespace Sys2Proof.Machine

open Sys2Proof

/-- Memory is in its canonical form. -/
structure State.Formed (s : State) : Prop where
  wf : s.mem.wf = true

namespace State

/-! ## What leaves memory alone -/

theorem formed_of_mem {s t : State} (h : t.mem = s.mem) : t.Formed ↔ s.Formed :=
  ⟨fun ht => ⟨by rw [← h]; exact ht.wf⟩, fun hs => ⟨by rw [h]; exact hs.wf⟩⟩

/-- Of a state written out field by field its memory alone counts. -/
@[simp] theorem formed_mk {sch cores quads ctxs mem ueLines poisoned slices inbound posted invs watch rel mgmt pcie} :
    (State.mk sch cores quads ctxs mem ueLines poisoned slices inbound posted invs watch rel mgmt pcie).Formed ↔ mem.wf = true :=
  ⟨fun h => h.wf, fun h => ⟨h⟩⟩

/-- Of two states one is chosen, and its form counts. -/
@[simp] theorem formed_ite {p : Prop} [Decidable p] {s t : State} : (if p then s else t).Formed ↔ if p then s.Formed else t.Formed := by
  split <;> rfl

/-- Of two states one is chosen, and both keep the form. -/
theorem ite_formed {p : Prop} [Decidable p] {s t : State} (hs : s.Formed) (ht : t.Formed) : (if p then s else t).Formed := by
  split
  · exact hs
  · exact ht

section
variable (s : State)

@[simp] theorem formed_setCore (c : Nat) (k : Core) : (s.setCore c k).Formed ↔ s.Formed := formed_of_mem rfl
@[simp] theorem formed_modCore (c : Nat) (f : Core → Core) : (s.modCore c f).Formed ↔ s.Formed := formed_of_mem rfl
@[simp] theorem formed_modQuad (q : Nat) (f : Quad → Quad) : (s.modQuad q f).Formed ↔ s.Formed := formed_of_mem rfl
@[simp] theorem formed_modCtx (n : Nat) (f : Ctx → Ctx) : (s.modCtx n f).Formed ↔ s.Formed := formed_of_mem rfl
@[simp] theorem formed_modSch (f : Sched → Sched) : (s.modSch f).Formed ↔ s.Formed := formed_of_mem rfl
@[simp] theorem formed_setGroup (c g : Nat) (x : Option Group) : (s.setGroup c g x).Formed ↔ s.Formed := formed_of_mem rfl
@[simp] theorem formed_modGroup (c g : Nat) (f : Group → Group) : (s.modGroup c g f).Formed ↔ s.Formed := formed_of_mem rfl
@[simp] theorem formed_modCrew (n id : Nat) (f : Crew → Crew) : (s.modCrew n id f).Formed ↔ s.Formed := formed_of_mem rfl
@[simp] theorem formed_modLeg (n id : Nat) (f : Leg → Leg) : (s.modLeg n id f).Formed ↔ s.Formed := formed_of_mem rfl
@[simp] theorem formed_modOp (c id : Nat) (f : Op → Op) : (s.modOp c id f).Formed ↔ s.Formed := formed_of_mem rfl
@[simp] theorem formed_dropOp (c id : Nat) : (s.dropOp c id).Formed ↔ s.Formed := formed_of_mem rfl
@[simp] theorem formed_addOp (c : Nat) (o : Op) : (s.addOp c o).Formed ↔ s.Formed := formed_of_mem rfl
@[simp] theorem formed_insertOp (c : Nat) (o : Op) : (s.insertOp c o).Formed ↔ s.Formed := formed_of_mem rfl
@[simp] theorem formed_setStep (c : Nat) (x : Option (Slot × Option Nat)) : (s.setStep c x).Formed ↔ s.Formed := formed_of_mem rfl
@[simp] theorem formed_post (k : Clk) (t : Nat) (e : Instr) : (s.post k t e).Formed ↔ s.Formed := formed_of_mem rfl
@[simp] theorem formed_postQ (c t : Nat) (e : Instr) : (s.postQ c t e).Formed ↔ s.Formed := formed_of_mem rfl
@[simp] theorem formed_postNow (e : Instr) : (s.postNow e).Formed ↔ s.Formed := formed_of_mem rfl
@[simp] theorem formed_emit (o : Output) : (s.emit o).Formed ↔ s.Formed := formed_of_mem rfl
@[simp] theorem formed_fresh : s.fresh.2.Formed ↔ s.Formed := formed_of_mem rfl
@[simp] theorem formed_freeNat : s.freeNat.2.Formed ↔ s.Formed := formed_of_mem rfl
@[simp] theorem formed_freeBits : s.freeBits.2.Formed ↔ s.Formed := formed_of_mem rfl
@[simp] theorem formed_latency (n : Nat) : (s.latency n).2.Formed ↔ s.Formed := formed_of_mem rfl
@[simp] theorem formed_record (n : Nat) (w pc : Word) (unit : BitVec 16) (slot : Nat) (id : Word) (p : Ptr) (kind : Nat) :
    (s.record n w pc unit slot id p kind).Formed ↔ s.Formed := formed_of_mem (record_mem ..)
@[simp] theorem formed_note (hit : Spot → Bool) (value : State → Spot → Word) : (s.note hit value).Formed ↔ s.Formed :=
  formed_of_mem (s.note_mem hit value)
@[simp] theorem formed_setWatch (c id : Nat) (p : Option Spot) : (s.setWatch c id p).Formed ↔ s.Formed := formed_of_mem rfl
@[simp] theorem formed_modQueued (n i : Nat) (f : Leg → Leg) : (s.modQueued n i f).Formed ↔ s.Formed := formed_of_mem rfl
@[simp] theorem formed_clearIssue : s.clearIssue.Formed ↔ s.Formed := formed_of_mem rfl
@[simp] theorem formed_setL1 (c : Nat) (ls : List Line) : (s.setL1 c ls).Formed ↔ s.Formed := formed_of_mem rfl
@[simp] theorem formed_modCaches (c : Nat) (f : Caches → Caches) : (s.modCaches c f).Formed ↔ s.Formed := formed_of_mem rfl
@[simp] theorem formed_fillIcache (q : Nat) (ls : List Nat) : (s.fillIcache q ls).Formed ↔ s.Formed := formed_of_mem rfl
@[simp] theorem formed_dropTok (n : Nat) (r : Region) : (s.dropTok n r).Formed ↔ s.Formed := formed_of_mem (s.dropTok_mem n r)
@[simp] theorem formed_passRegion (n c : Nat) (r : Region) (owner lender : Word) : (s.passRegion n c r owner lender).Formed ↔ s.Formed :=
  formed_of_mem (s.passRegion_mem n c r owner lender)
@[simp] theorem formed_retryAll : s.retryAll.Formed ↔ s.Formed := formed_of_mem s.retryAll_mem
@[simp] theorem formed_freeBytes (n : Nat) : (s.freeBytes n).2.Formed ↔ s.Formed := formed_of_mem (s.freeBytes_mem n)
@[simp] theorem formed_joinAll : s.joinAll.Formed ↔ s.Formed := formed_of_mem s.joinAll_mem
@[simp] theorem formed_walkMark (n va : Nat) : (s.walkMark n va).2.Formed ↔ s.Formed := formed_of_mem (s.walkMark_frame n va).1
@[simp] theorem formed_translate (c n va : Nat) : (s.translate c n va).2.Formed ↔ s.Formed := formed_of_mem (s.steady_translate c n va).mem
@[simp] theorem formed_codeSpan (c n crew : Nat) (pc : Word) : (s.codeSpan c n crew pc).2.Formed ↔ s.Formed :=
  formed_of_mem (s.steady_codeSpan c n crew pc).mem
@[simp] theorem formed_fillTlb (c : Nat) (e : Tlbe) : (s.fillTlb c e).Formed ↔ s.Formed := formed_of_mem (s.steady_fillTlb c e).mem
@[simp] theorem formed_beginWalk (w : Walk) (n : Nat) : (s.beginWalk w n).Formed ↔ s.Formed := formed_of_mem (s.steady_beginWalk w n).mem
@[simp] theorem formed_missing (c n crew : Nat) (pc : Word) : (s.missing c n crew pc).2.Formed ↔ s.Formed :=
  formed_of_mem (s.steady_missing c n crew pc).mem
@[simp] theorem formed_icacheMiss (c l : Nat) : (s.icacheMiss c l).Formed ↔ s.Formed := formed_of_mem (s.steady_icacheMiss c l).mem
@[simp] theorem formed_wakeRegions : s.wakeRegions.Formed ↔ s.Formed := formed_of_mem s.posts_wakeRegions.mem
@[simp] theorem formed_retryGangs (n : Nat) : (s.retryGangs n).Formed ↔ s.Formed := formed_of_mem (s.posts_retryGangs n).mem
@[simp] theorem formed_tokenEnd (c : Nat) (o : Op) (ws : List RegWrite) (h : Nat) : (s.tokenEnd c o ws h).Formed ↔ s.Formed :=
  formed_of_mem (s.posts_tokenEnd c o ws h).mem
@[simp] theorem formed_landAt (c g id : Nat) (f : Option (Fin 12)) (ws : List RegWrite) (t : Nat) :
    (s.landAt c g id f ws t).Formed ↔ s.Formed := formed_of_mem rfl
@[simp] theorem formed_finishOp (c : Nat) (o : Op) (ws : List RegWrite) (t : Nat) : (s.finishOp c o ws t).Formed ↔ s.Formed :=
  formed_of_mem rfl
@[simp] theorem formed_perform (c : Nat) (o : Op) (ws : List RegWrite) (t : Nat) : (s.perform c o ws t).Formed ↔ s.Formed :=
  formed_of_mem rfl
@[simp] theorem formed_askAgain (c : Nat) (o : Op) : (s.askAgain c o).Formed ↔ s.Formed := formed_of_mem rfl

end

/-! ## Folds -/

/-- A fold whose every step keeps the form keeps it. -/
theorem foldl_formed {α : Type} {f : State → α → State} (hf : ∀ s x, s.Formed → (f s x).Formed) {xs : List α} {s : State} (h : s.Formed) :
    (xs.foldl f s).Formed := by
  induction xs generalizing s with
  | nil => exact h
  | cons x xs ih => exact ih (hf s x h)

/-- A fold whose every step leaves memory alone leaves it alone. -/
@[simp] theorem formed_foldl {α : Type} {f : State → α → State} (hf : ∀ s x, (f s x).Formed ↔ s.Formed) {xs : List α} {s : State} :
    (xs.foldl f s).Formed ↔ s.Formed := by
  induction xs generalizing s with
  | nil => rfl
  | cons x xs ih => exact ih.trans (hf s x)

@[simp] theorem formed_foldl_snd {α β : Type} {f : β × State → α → β × State} (hf : ∀ p x, (f p x).2.Formed ↔ p.2.Formed) {xs : List α}
    {p : β × State} : (xs.foldl f p).2.Formed ↔ p.2.Formed := by
  induction xs generalizing p with
  | nil => rfl
  | cons x xs ih => exact ih.trans (hf p x)

/-- The same of a fold over something that holds the state. -/
theorem foldl_proj_formed {α β : Type} (π : β → State) {f : β → α → β} (hf : ∀ b x, (π b).Formed → (π (f b x)).Formed) {xs : List α}
    {b : β} (h : (π b).Formed) : (π (xs.foldl f b)).Formed := by
  induction xs generalizing b with
  | nil => exact h
  | cons x xs ih => exact ih (hf b x h)

theorem foldl_snd_formed {α β : Type} {f : β × State → α → β × State} (hf : ∀ p x, p.2.Formed → (f p x).2.Formed) {xs : List α}
    {p : β × State} (h : p.2.Formed) : (xs.foldl f p).2.Formed :=
  foldl_proj_formed Prod.snd hf h

/-- A fold that may stop, whose every step keeps the form, keeps it. -/
theorem foldl_bind_formed {α : Type} {f : State → α → Option State} (hf : ∀ s x, s.Formed → ∀ t ∈ f s x, t.Formed) (xs : List α)
    {o : Option State} (h : ∀ s ∈ o, s.Formed) : ∀ t ∈ xs.foldl (fun o x => o.bind fun s => f s x) o, t.Formed := by
  induction xs generalizing o with
  | nil => exact h
  | cons x xs ih =>
    refine ih fun t ht => ?_
    obtain ⟨s, hs, ht⟩ := Option.bind_eq_some_iff.mp ht
    exact hf s x (h s hs) t ht

/-! ## What writes memory -/

section
variable {s : State} (hw : s.Formed)
include hw

@[simp] theorem homeWrite_formed (xs : List (Nat × Byte)) : (s.homeWrite xs).Formed := ⟨s.homeWrite_wf xs hw.wf⟩
@[simp] theorem flushRegion_formed (c n base k : Nat) (d : Bool) : (s.flushRegion c n base k d).Formed :=
  ⟨s.flushRegion_wf c n base k d hw.wf⟩
@[simp] theorem flushAll_formed (c n : Nat) (rs : List (Region × Bool)) : (s.flushAll c n rs).2.Formed := ⟨s.flushAll_wf c n rs hw.wf⟩
@[simp] theorem fillL1_formed (c n va pa : Nat) : (s.fillL1 c n va pa).Formed := ⟨s.fillL1_wf c n va pa hw.wf⟩
@[simp] theorem l1Write_formed (c n va pa : Nat) (bs : List Byte) : (s.l1Write c n va pa bs).Formed := ⟨s.l1Write_wf c n va pa bs hw.wf⟩
@[simp] theorem drainEntry_formed (w : Who) (e : SBEntry) : (s.drainEntry w e).Formed := ⟨s.drainEntry_wf w e hw.wf⟩
@[simp] theorem drainOne_formed (n crew : Nat) : (s.drainOne n crew).Formed := ⟨s.drainOne_wf n crew hw.wf⟩
@[simp] theorem drainAll_formed (n crew : Nat) : (s.drainAll n crew).Formed := ⟨s.drainAll_wf n crew hw.wf⟩
@[simp] theorem storeThrough_formed (w : Who) (va pa : Nat) (bs : List Byte) (b : Bool) : (s.storeThrough w va pa bs b).Formed :=
  ⟨s.storeThrough_wf w va pa bs b hw.wf⟩
@[simp] theorem writeSlot_formed (n i : Nat) (m : SlotImage) : (s.writeSlot n i m).Formed := ⟨s.writeSlot_wf n i m hw.wf⟩
@[simp] theorem moduleReset_formed (cold : Bool) : (s.moduleReset cold).Formed := ⟨s.moduleReset_wf cold hw.wf⟩

end

end State

end Sys2Proof.Machine
end

section
/-! SUPPORT. What leaves memory alone keeps its canonical form, function by function of the model in its order. -/

namespace Sys2Proof.Machine

open Sys2Proof

section
variable (s : State)

@[simp] theorem State.formed_takeStop (c g : Nat) (r : Report) : (s.takeStop c g r).Formed ↔ s.Formed := by
  unfold State.takeStop
  split <;> simp

@[simp] theorem State.formed_takeServiced (c g : Nat) (r : Report) : (s.takeServiced c g r).Formed ↔ s.Formed := by
  unfold State.takeServiced
  split <;> simp

@[simp] theorem State.formed_restartOp (c id : Nat) : (s.restartOp c id).Formed ↔ s.Formed := by simp [State.restartOp]

@[simp] theorem State.formed_reask (c : Nat) (f : Op → Bool) : (s.reask c f).Formed ↔ s.Formed := by
  unfold State.reask
  refine State.formed_foldl fun s x => ?_
  simp

@[simp] theorem State.formed_stallOver (c : Nat) : (s.stallOver c).Formed ↔ s.Formed := by simp [State.stallOver]

@[simp] theorem State.formed_unstall (c g : Nat) : (s.unstall c g).Formed ↔ s.Formed := by simp [State.unstall]

@[simp] theorem State.formed_resumeStop (c g : Nat) : (s.resumeStop c g).Formed ↔ s.Formed := by simp [State.resumeStop]

@[simp] theorem State.formed_rail (q : Nat) : (s.rail q).Formed ↔ s.Formed := by simp [State.rail]

@[simp] theorem State.formed_applyStep (q : Nat) (step : BitVec 5) : (s.applyStep q step).Formed ↔ s.Formed := by simp [State.applyStep]

@[simp] theorem State.formed_startWalk (c ctx va : Nat) : (s.startWalk c ctx va).Formed ↔ s.Formed := by simp [State.startWalk]

@[simp] theorem State.formed_dropLines (c ctx base k : Nat) : (s.dropLines c ctx base k).Formed ↔ s.Formed := by simp [State.dropLines]

@[simp] theorem State.formed_commit (ctx crew : Nat) (reason : BitVec 4) : (s.commit ctx crew reason).Formed ↔ s.Formed := by
  unfold State.commit
  split <;> simp

@[simp] theorem State.formed_scratchWrite (ctx crew off : Nat) (bs : List Byte) : (s.scratchWrite ctx crew off bs).Formed ↔ s.Formed := by
  simp [State.scratchWrite]

@[simp] theorem State.formed_useTok (c ctx : Nat) (r : Region) (miss : Nat) : (s.useTok c ctx r miss).2.Formed ↔ s.Formed := by
  unfold State.useTok
  split <;> simp

@[simp] theorem State.formed_addPin (c : Nat) (p : Pin) : (s.addPin c p).Formed ↔ s.Formed := by simp [State.addPin]

@[simp] theorem State.formed_dropPins (c : Nat) (f : Pin → Bool) : (s.dropPins c f).Formed ↔ s.Formed := by
  unfold State.dropPins
  rw [State.formed_modCaches]
  refine State.formed_foldl fun s p => ?_
  split <;> simp

@[simp] theorem State.formed_grantShare (ctx : Nat) (r : Region) (h : Word) : (s.grantShare ctx r h).Formed ↔ s.Formed := by
  unfold State.grantShare
  dsimp only
  repeat' split
  all_goals simp

@[simp] theorem State.formed_releasePins (ctx : Nat) (r : Region) (h : Word) : (s.releasePins ctx r h).Formed ↔ s.Formed := by
  unfold State.releasePins
  refine State.formed_foldl fun s x => ?_
  simp

@[simp] theorem State.formed_returnShare (ctx : Nat) (r : Region) (h : Word) (n : Nat) : (s.returnShare ctx r h n).Formed ↔ s.Formed := by
  unfold State.returnShare
  split <;> simp

@[simp] theorem State.formed_passAll (ctx : Nat) (h k : Word) : (s.passAll ctx h k).Formed ↔ s.Formed := by simp [State.passAll]

@[simp] theorem State.formed_passEng (c e ctx crew : Nat) : (s.passEng c e ctx crew).Formed ↔ s.Formed := by simp [State.passEng]

@[simp] theorem State.formed_groupTokens (ctx crew pos : Nat) : (s.groupTokens ctx crew pos).Formed ↔ s.Formed := by
  unfold State.groupTokens
  rw [State.formed_wakeRegions, ← State.formed_passAll s]
  refine State.formed_foldl fun s b => ?_
  split <;> simp

@[simp] theorem State.formed_crewTokens (ctx crew : Nat) (launcher : Word) : (s.crewTokens ctx crew launcher).Formed ↔ s.Formed := by
  unfold State.crewTokens
  split
  · rfl
  · dsimp only
    rw [State.formed_wakeRegions, State.formed_dropPins, State.formed_foldl fun s b => by split <;> simp, State.formed_passAll,
      State.formed_foldl fun s r => by split <;> simp]
    exact State.formed_foldl fun s i => s.formed_groupTokens ..

@[simp] theorem State.formed_orphan (ctx : Nat) (r : Region) : (s.orphan ctx r).Formed ↔ s.Formed := by simp [State.orphan]

@[simp] theorem State.formed_failTokens (ctx c : Nat) (keeps lost flushing : List Nat) :
    (s.failTokens ctx c keeps lost flushing).Formed ↔ s.Formed := by
  unfold State.failTokens
  dsimp only
  rw [State.formed_modCaches, State.formed_foldl fun s b => by split <;> simp]
  refine State.formed_foldl fun s r => ?_
  repeat' split
  all_goals simp

@[simp] theorem State.formed_suspendTokens (ctx crew : Nat) : (s.suspendTokens ctx crew).Formed ↔ s.Formed := by
  unfold State.suspendTokens
  split <;> simp

@[simp] theorem State.formed_restoreTokens (ctx crew c : Nat) : (s.restoreTokens ctx crew c).Formed ↔ s.Formed := by
  simp [State.restoreTokens]

@[simp] theorem State.formed_startPins (ctx crew gang leg c : Nat) : (s.startPins ctx crew gang leg c).Formed ↔ s.Formed := by
  unfold State.startPins
  refine State.formed_foldl fun s x => ?_
  simp

@[simp] theorem State.formed_clearTiles (c : Nat) (ts : List Nat) : (s.clearTiles c ts).Formed ↔ s.Formed := by simp [State.clearTiles]

@[simp] theorem State.formed_joinTenant (c ctx : Nat) : (s.joinTenant c ctx).Formed ↔ s.Formed := by simp [State.joinTenant]

@[simp] theorem State.formed_leaveTenant (c ctx : Nat) : (s.leaveTenant c ctx).Formed ↔ s.Formed := by simp [State.leaveTenant]

@[simp] theorem State.formed_barCheck (ctx crew n : Nat) : (s.barCheck ctx crew n).Formed ↔ s.Formed := by
  unfold State.barCheck
  split <;> simp

@[simp] theorem State.formed_gangCheck (ctx gang n last : Nat) : (s.gangCheck ctx gang n last).Formed ↔ s.Formed := by
  unfold State.gangCheck
  dsimp only
  repeat' split
  all_goals simp

@[simp] theorem State.formed_releaseArray (c ctx crew : Nat) : (s.releaseArray c ctx crew).Formed ↔ s.Formed := by simp [State.releaseArray]

@[simp] theorem State.formed_cancelTasks (c ctx crew : Nat) : (s.cancelTasks c ctx crew).Formed ↔ s.Formed := by simp [State.cancelTasks]

@[simp] theorem State.formed_cancelEngines (c ctx crew : Nat) (slots : List Nat) :
    (s.cancelEngines c ctx crew slots).Formed ↔ s.Formed := by
  simp [State.cancelEngines]

@[simp] theorem State.formed_dropStreams (c g : Nat) : (s.dropStreams c g).Formed ↔ s.Formed := by simp [State.dropStreams]

@[simp] theorem State.formed_dropGroups (ctx crew : Nat) : (s.dropGroups ctx crew).Formed ↔ s.Formed := by
  unfold State.dropGroups
  split <;> simp

@[simp] theorem State.formed_settleIdle (ctx : Nat) : (s.settleIdle ctx).Formed ↔ s.Formed := by simp [State.settleIdle]

@[simp] theorem State.formed_leaveLeg (ctx leg : Nat) : (s.leaveLeg ctx leg).Formed ↔ s.Formed := by
  unfold State.leaveLeg
  dsimp only
  split <;> simp

@[simp] theorem State.formed_releaseCrew (ctx crew : Nat) : (s.releaseCrew ctx crew).Formed ↔ s.Formed := by
  unfold State.releaseCrew
  split <;> simp

@[simp] theorem State.formed_retryHeld (ctx gang : Nat) : (s.retryHeld ctx gang).Formed ↔ s.Formed := by
  unfold State.retryHeld
  refine State.formed_foldl fun s x => ?_
  simp

@[simp] theorem State.formed_rollOne (ctx crew : Nat) : (s.rollOne ctx crew).Formed ↔ s.Formed := by
  unfold State.rollOne
  split <;> simp

@[simp] theorem Iss.formed_agenda (I : Iss) (e : Eff) : (I.agenda e s).Formed ↔ s.Formed := by
  unfold Iss.agenda
  repeat' split
  all_goals simp

@[simp] theorem Iss.formed_took (I : Iss) (e : Eff) : (I.took s e).Formed ↔ s.Formed := by simp [Iss.took]

@[simp] theorem Iss.formed_limit (I : Iss) : (I.limit s).Formed ↔ s.Formed := by
  unfold Iss.limit
  split <;> simp

@[simp] theorem Iss.formed_faults (I : Iss) (e : Eff) : (I.faults s e).Formed ↔ s.Formed := by
  unfold Iss.faults
  repeat' split
  all_goals simp

@[simp] theorem Iss.formed_logMarks (I : Iss) (k : Lanes) : (I.logMarks s k).Formed ↔ s.Formed := by simp [Iss.logMarks]

@[simp] theorem State.formed_unstep (c g : Nat) : (s.unstep c g).Formed ↔ s.Formed := by simp [State.unstep]

@[simp] theorem State.formed_stepVoid (c g : Nat) : (s.stepVoid c g).Formed ↔ s.Formed := by
  unfold State.stepVoid
  split <;> simp

@[simp] theorem State.formed_stepIssued (c g : Nat) : (s.stepIssued c g).Formed ↔ s.Formed := by
  unfold State.stepIssued
  split <;> simp

@[simp] theorem Iss.formed_held (I : Iss) : (I.held s).Formed ↔ s.Formed := by simp [Iss.held]

@[simp] theorem State.formed_homeReach (c pa : Nat) : (s.homeReach c pa).2.Formed ↔ s.Formed := by simp [State.homeReach]

@[simp] theorem State.formed_reach (w : Who) (l : Look) (n : Nat) : (s.reach w l n).2.Formed ↔ s.Formed := by
  unfold State.reach
  repeat' split
  all_goals simp

@[simp] theorem State.formed_tokenStart (w : Who) (l : Look) (start : Nat) : (s.tokenStart w l start).2.Formed ↔ s.Formed := by
  unfold State.tokenStart
  dsimp only
  repeat' split
  all_goals simp

@[simp] theorem State.formed_filling (c : Nat) (l : Look) (t id start : Nat) : (s.filling c l t id start).Formed ↔ s.Formed := by
  unfold State.filling
  split <;> simp

@[simp] theorem Iss.formed_startChecks (c t : Nat) (o : Op) : (Iss.startChecks s c t o).Formed ↔ s.Formed := by
  unfold Iss.startChecks
  dsimp only
  split <;> simp

@[simp] theorem State.formed_gate (c : Nat) (o : Op) (m : AccMode) : (s.gate c o m).2.Formed ↔ s.Formed := by
  unfold State.gate
  dsimp only
  repeat' split
  all_goals simp

@[simp] theorem State.formed_demandFault (c : Nat) (o : Op) (cs : List (Nat × Cause)) : (s.demandFault c o cs).Formed ↔ s.Formed := by
  unfold State.demandFault
  split <;> simp

@[simp] theorem State.formed_nextWalk (q : Nat) : (s.nextWalk q).Formed ↔ s.Formed := by
  unfold State.nextWalk
  split <;> simp

@[simp] theorem State.formed_postArrivals (c id : Nat) (accs : List Acc) : (s.postArrivals c id accs).Formed ↔ s.Formed := by
  unfold State.postArrivals
  refine State.formed_foldl fun s x => ?_
  simp

@[simp] theorem State.formed_hardFault (c : Nat) (o : Op) (cs : List (Nat × Cause)) : (s.hardFault c o cs).Formed ↔ s.Formed := by
  unfold State.hardFault
  split <;> simp

@[simp] theorem State.formed_deliver (c g : Nat) : (s.deliver c g).Formed ↔ s.Formed := by
  unfold State.deliver
  refine State.formed_foldl fun s x => ?_
  dsimp only
  repeat' split
  all_goals simp

@[simp] theorem State.formed_storeLam (c : Nat) (w : Who) (xs : List (Acc × Look)) (wide : Bool) :
    (s.storeLam c w xs wide).2.Formed ↔ s.Formed := by
  simp [State.storeLam]

@[simp] theorem State.formed_commitAhead (w : Who) (ins : Instr) (accs : List Acc) : (s.commitAhead w ins accs).Formed ↔ s.Formed := by
  unfold State.commitAhead
  dsimp only
  repeat' split
  all_goals simp

@[simp] theorem State.formed_escape (c g : Nat) (esc : Bool) : (s.escape c g esc).Formed ↔ s.Formed := by simp [State.escape]

@[simp] theorem Iss.formed_retryLane (I : Iss) (p : Guess × GLane) : (I.retryLane s p).Formed ↔ s.Formed := by
  unfold Iss.retryLane
  dsimp only
  split <;> simp

@[simp] theorem State.formed_tokenCheck (c : Nat) (o : Op) : (s.tokenCheck c o).Formed ↔ s.Formed := by
  unfold State.tokenCheck
  dsimp only
  repeat' split
  all_goals simp

@[simp] theorem State.formed_takePin (w : Who) (caller : Word) (r : Region) : (s.takePin w caller r).Formed ↔ s.Formed := by
  unfold State.takePin
  dsimp only
  repeat' split
  all_goals simp

@[simp] theorem State.formed_tokenSettle (c : Nat) (o : Op) (w : Who) (n far : Nat) : (s.tokenSettle c o w n far).Formed ↔ s.Formed := by
  unfold State.tokenSettle
  repeat' split
  all_goals simp

@[simp] theorem State.formed_atomCommit (w : Who) (l : Look) : (s.atomCommit w l).Formed ↔ s.Formed := by
  unfold State.atomCommit
  split <;> simp

@[simp] theorem State.formed_arriveOps (c slot : Nat) (mine : Instr → Bool) : (s.arriveOps c slot mine).Formed ↔ s.Formed := by
  simp [State.arriveOps]

@[simp] theorem State.formed_waitEnd (c : Nat) (o : Op) (w : Word) (lam : Nat) : (s.waitEnd c o w lam).Formed ↔ s.Formed := by
  simp [State.waitEnd]

@[simp] theorem State.formed_postWaitLimit (c : Nat) (o : Op) : (s.postWaitLimit c o).Formed ↔ s.Formed := by
  unfold State.postWaitLimit
  split <;> simp

@[simp] theorem State.formed_fenceCheck (c : Nat) (o : Op) : (s.fenceCheck c o).Formed ↔ s.Formed := by
  unfold State.fenceCheck
  split <;> simp

@[simp] theorem State.formed_noteTile (c ctx p : Nat) (ps : List Nat) : (s.noteTile c ctx p ps).Formed ↔ s.Formed := by
  unfold State.noteTile
  split <;> simp

@[simp] theorem State.formed_readTile (c ctx p : Nat) (ps : List Nat) : (s.readTile c ctx p ps).2.Formed ↔ s.Formed := by
  simp [State.readTile]

@[simp] theorem State.formed_tileDone (c : Nat) (o : Op) (lam : Nat) : (s.tileDone c o lam).Formed ↔ s.Formed := by simp [State.tileDone]

@[simp] theorem State.formed_tileReach (w : Who) (xs : List (Acc × Look)) (store : Bool) :
    (s.tileReach w xs store).2.Formed ↔ s.Formed := by
  unfold State.tileReach
  split <;> simp

@[simp] theorem State.formed_tileTime (w : Who) (xs : List (Acc × Look)) (size : Nat) (store aon : Bool) :
    (s.tileTime w xs size store aon).2.Formed ↔ s.Formed := by
  simp [State.tileTime]

@[simp] theorem State.formed_phase (c : Nat) (o : Op) (n : Nat) (last : Word) (data : List Byte) :
    (s.phase c o n last data).Formed ↔ s.Formed := by
  simp [State.phase]

@[simp] theorem State.formed_aonEnd (c : Nat) (o : Op) (data : List Byte) (status : Bool) (lam : Nat) :
    (s.aonEnd c o data status lam).Formed ↔ s.Formed := by
  simp [State.aonEnd]

@[simp] theorem State.formed_tileWork (c : Nat) (o : Op) : (s.tileWork c o).Formed ↔ s.Formed := by
  unfold State.tileWork
  repeat' split
  all_goals simp

@[simp] theorem State.formed_acceptTask (c ctx crew slot id : Nat) (r : TRec) : (s.acceptTask c ctx crew slot id r).Formed ↔ s.Formed := by
  simp [State.acceptTask]

@[simp] theorem State.formed_opFault (c : Nat) (o : Op) (r : Report) : (s.opFault c o r).Formed ↔ s.Formed := by simp [State.opFault]

@[simp] theorem State.formed_skipIds (n : Nat) : (s.skipIds n).Formed ↔ s.Formed := by simp [State.skipIds]

@[simp] theorem State.formed_startTask (c ctx : Nat) (t : Task) (e : Nat) : (s.startTask c ctx t e).Formed ↔ s.Formed := by
  simp [State.startTask]

@[simp] theorem State.formed_fenceStrips (c : Nat) : (s.fenceStrips c).Formed ↔ s.Formed := by simp [State.fenceStrips]

@[simp] theorem State.formed_taskSignal (c ctx : Nat) (t : Task) : (s.taskSignal c ctx t).Formed ↔ s.Formed := by
  unfold State.taskSignal
  split <;> simp

@[simp] theorem State.formed_bankCheck (c ctx p : Nat) : (s.bankCheck c ctx p).1.Formed ↔ s.Formed := by
  unfold State.bankCheck
  dsimp only
  repeat' split
  all_goals simp

@[simp] theorem State.formed_accDone (c : Nat) (o : Op) (ws : List RegWrite) (lam : Nat) : (s.accDone c o ws lam).Formed ↔ s.Formed := by
  simp [State.accDone]

@[simp] theorem State.formed_scaleBanks (c ctx : Nat) (rows : List Nat) (d a : Nat) (sc : Word) (e : VReg) :
    (s.scaleBanks c ctx rows d a sc e).Formed ↔ s.Formed := by
  simp [State.scaleBanks]

@[simp] theorem State.formed_markWalks (ctx : Nat) (p : Ptr) (n : Nat) : (s.markWalks ctx p n).Formed ↔ s.Formed := by
  simp [State.markWalks]

@[simp] theorem State.formed_markDeal (ctx : Nat) (launcher : Word) (p : Ptr) : (s.markDeal ctx launcher p).Formed ↔ s.Formed := by
  unfold State.markDeal
  split <;> simp

@[simp] theorem State.formed_grantCommit (ctx : Nat) (launcher : Word) : (s.grantCommit ctx launcher).Formed ↔ s.Formed := by
  simp [State.grantCommit]

@[simp] theorem State.formed_settleLent (ctx : Nat) (bases : List Nat) : (s.settleLent ctx bases).Formed ↔ s.Formed := by
  simp [State.settleLent]

@[simp] theorem State.formed_startAll (ctx : Nat) (ks : List Crew) : (s.startAll ctx ks).Formed ↔ s.Formed := by
  unfold State.startAll
  refine State.formed_foldl fun s x => ?_
  simp

@[simp] theorem State.formed_newGroup (ctx : Nat) (k : Crew) (l : Leg) (g pos : Nat) (pc : Word) (from_ : Nat) :
    (s.newGroup ctx k l g pos pc from_).Formed ↔ s.Formed := by
  simp [State.newGroup]

@[simp] theorem State.formed_engAsk (c e t : Nat) : (s.engAsk c e t).Formed ↔ s.Formed := by simp [State.engAsk]

@[simp] theorem State.formed_packetReach (c : Nat) (p : Packet) : (s.packetReach c p).2.Formed ↔ s.Formed := by
  unfold State.packetReach
  dsimp only
  repeat' split
  all_goals simp

@[simp] theorem State.formed_modPacket (c id : Nat) (f : Packet → Packet) : (s.modPacket c id f).Formed ↔ s.Formed := by
  simp [State.modPacket]

@[simp] theorem State.formed_packetSend (c : Nat) (p : Packet) : (s.packetSend c p).Formed ↔ s.Formed := by simp [State.packetSend]

@[simp] theorem State.formed_ringDo (w : Who) (k : Crew) (n : Nat) (a b : Word) : (s.ringDo w k n a b).2.Formed ↔ s.Formed := by
  unfold State.ringDo
  dsimp only
  repeat' split
  all_goals simp

@[simp] theorem State.formed_engDo (c : Nat) (o : Op) : (s.engDo c o).Formed ↔ s.Formed := by
  unfold State.engDo
  dsimp only
  repeat' split
  all_goals simp

@[simp] theorem State.formed_modEng (c e : Nat) (f : EngOp → EngOp) : (s.modEng c e f).Formed ↔ s.Formed := by simp [State.modEng]

@[simp] theorem State.formed_freeEng (c e : Nat) (x : EngOp) : (s.freeEng c e x).Formed ↔ s.Formed := by simp [State.freeEng]

@[simp] theorem State.formed_engPause (c e : Nat) (h : State.Halt) : (s.engPause c e h).Formed ↔ s.Formed := by
  unfold State.engPause
  split <;> simp

@[simp] theorem State.formed_sendAgain (c : Nat) (p : Packet) : (s.sendAgain c p).Formed ↔ s.Formed := by simp [State.sendAgain]

@[simp] theorem State.formed_modForks (c e id : Nat) (g : Fork → Fork) : (s.modForks c e id g).Formed ↔ s.Formed := by simp [State.modForks]

@[simp] theorem State.formed_packetEnd (c : Nat) (p : Packet) (ok : Bool) : (s.packetEnd c p ok).Formed ↔ s.Formed := by
  unfold State.packetEnd
  dsimp only
  split <;> simp

@[simp] theorem State.formed_setStream (c n : Nat) (x : Option Stream) : (s.setStream c n x).Formed ↔ s.Formed := by simp [State.setStream]

@[simp] theorem State.formed_setQueue (c q : Nat) (x : Queue) : (s.setQueue c q x).Formed ↔ s.Formed := by simp [State.setQueue]

@[simp] theorem State.formed_postOpLimit (c : Nat) (o : Op) : (s.postOpLimit c o).Formed ↔ s.Formed := by
  unfold State.postOpLimit
  split <;> simp

@[simp] theorem State.formed_rewait (c : Nat) (f : Op → Bool) : (s.rewait c f).Formed ↔ s.Formed := by
  unfold State.rewait
  refine State.formed_foldl fun s x => ?_
  simp

@[simp] theorem State.formed_putVec (c g : Nat) (r : VecName) (lane : Nat) : (s.putVec c g r lane).Formed ↔ s.Formed := by
  simp [State.putVec]

@[simp] theorem State.formed_lostOp (lost c : Nat) (o : Op) : (s.lostOp lost c o).Formed ↔ s.Formed := by simp [State.lostOp]

@[simp] theorem State.formed_lostCopy (lost c e : Nat) : (s.lostCopy lost c e).Formed ↔ s.Formed := by
  unfold State.lostCopy
  dsimp only
  repeat' split
  all_goals simp

@[simp] theorem State.formed_lostStreams (lost c : Nat) : (s.lostStreams lost c).Formed ↔ s.Formed := by simp [State.lostStreams]

@[simp] theorem State.formed_fetchFault (c g : Nat) (pc : Word) (k : Cause) (va : Nat) : (s.fetchFault c g pc k va).Formed ↔ s.Formed := by
  simp [State.fetchFault]

@[simp] theorem State.formed_takePlaces (c : Nat) : (s.takePlaces c).Formed ↔ s.Formed := by
  unfold State.takePlaces
  refine State.formed_foldl fun s x => ?_
  split <;> simp

@[simp] theorem State.formed_withhold (c : Nat) (gs : List Nat) : (s.withhold c gs).Formed ↔ s.Formed := by
  unfold State.withhold
  refine State.formed_foldl fun s x => ?_
  dsimp only
  repeat' split
  all_goals simp

@[simp] theorem State.formed_endStep (c : Nat) (issued : Bool) : (s.endStep c issued).Formed ↔ s.Formed := by simp [State.endStep]

@[simp] theorem State.formed_leaveLend (ctx : Nat) (k : Crew) : (s.leaveLend ctx k).Formed ↔ s.Formed := by
  unfold State.leaveLend
  refine State.formed_foldl fun s x => ?_
  simp

@[simp] theorem State.formed_saveRefused (ctx : Nat) : (s.saveRefused ctx).Formed ↔ s.Formed := by simp [State.saveRefused]

@[simp] theorem State.formed_restoreOp (c g : Nat) (o : Op) : (s.restoreOp c g o).Formed ↔ s.Formed := by
  unfold State.restoreOp
  dsimp only
  repeat' split
  all_goals simp

@[simp] theorem State.formed_restoreStreams (ctx crew c : Nat) (kept : Saved) (r : SlotRead) :
    (s.restoreStreams ctx crew c kept r).Formed ↔ s.Formed := by
  unfold State.restoreStreams
  refine State.formed_foldl fun s x => ?_
  dsimp only
  repeat' split
  all_goals simp

@[simp] theorem State.formed_measure (q : Nat) (js : List (BitVec 8)) : (s.measure q js).Formed ↔ s.Formed := by simp [State.measure]

@[simp] theorem State.formed_regCycle (q : Nat) : (s.regCycle q).Formed ↔ s.Formed := by simp [State.regCycle]

@[simp] theorem State.formed_modRegs (ctx : Nat) (f : CtxRegs → CtxRegs) : (s.modRegs ctx f).Formed ↔ s.Formed := by simp [State.modRegs]

@[simp] theorem State.formed_writeRecords (ctx : Nat) : (s.writeRecords ctx).Formed ↔ s.Formed := by
  unfold State.writeRecords
  refine State.formed_foldl fun s x => ?_
  simp

@[simp] theorem State.formed_hostToken (ctx hart : Nat) (op : State.TokCmd) (val : Word) :
    (s.hostToken ctx hart op val).Formed ↔ s.Formed := by
  unfold State.hostToken
  dsimp only
  repeat' split
  all_goals simp

@[simp] theorem State.formed_hostStep (ctx : Nat) (val : Word) : (s.hostStep ctx val).Formed ↔ s.Formed := by
  unfold State.hostStep
  dsimp only
  repeat' split
  all_goals simp

@[simp] theorem State.formed_cmdDone (ctx : Nat) (fail : Bool) : (s.cmdDone ctx fail).Formed ↔ s.Formed := by simp [State.cmdDone]

@[simp] theorem State.formed_resumeGroupCmd (ctx : Nat) : (s.resumeGroupCmd ctx).Formed ↔ s.Formed := by
  unfold State.resumeGroupCmd
  repeat' split
  all_goals simp

@[simp] theorem State.formed_resumeCoreCmd (ctx : Nat) : (s.resumeCoreCmd ctx).Formed ↔ s.Formed := by
  unfold State.resumeCoreCmd
  split <;> simp

@[simp] theorem State.formed_resumeEngineCmd (ctx : Nat) : (s.resumeEngineCmd ctx).Formed ↔ s.Formed := by
  unfold State.resumeEngineCmd
  repeat' split
  all_goals simp

@[simp] theorem State.formed_suspendCmd (ctx : Nat) : (s.suspendCmd ctx).Formed ↔ s.Formed := by
  unfold State.suspendCmd
  dsimp only
  split <;> simp

@[simp] theorem State.formed_inboundWalks (ctx a n : Nat) : (s.inboundWalks ctx a n).Formed ↔ s.Formed := by simp [State.inboundWalks]

@[simp] theorem State.formed_reply (x : Dgram) (status : BitVec 8) (payload : List Byte) :
    (s.reply x status payload).Formed ↔ s.Formed := by
  simp [State.reply]

@[simp] theorem State.formed_badPayload : (s.badPayload).2.2.Formed ↔ s.Formed := by simp [State.badPayload]

end

end Sys2Proof.Machine
end

section
/-! SUPPORT. Groups, accesses, tokens, tiles and tasks keep the canonical form of memory. -/

namespace Sys2Proof.Machine

open Sys2Proof

section
variable {s : State} (hw : s.Formed)
include hw

@[simp] theorem State.homeWriteAt_formed (pa : Nat) (bs : List Byte) : (s.homeWriteAt pa bs).Formed := by simp [State.homeWriteAt, hw]

@[simp] theorem State.store0_formed (w : Who) (va pa : Nat) (bs : List Byte) (homed : Bool) : (s.store0 w va pa bs homed).Formed := by
  unfold State.store0
  dsimp only
  repeat' split
  all_goals simp [hw]

@[simp] theorem State.startLeave_formed (ctx crew : Nat) : (s.startLeave ctx crew).Formed := by
  unfold State.startLeave
  split
  · exact hw
  · dsimp only
    rw [State.formed_postQ, State.formed_foldl fun s i => s.formed_groupTokens .., State.formed_modCrew]
    exact State.drainAll_formed hw ..

@[simp] theorem State.crewEnd_formed (ctx crew : Nat) : (s.crewEnd ctx crew).Formed := by
  unfold State.crewEnd
  split
  · exact hw
  · split
    · rw [State.formed_retryHeld, State.formed_foldl fun s n => s.formed_gangCheck .., State.formed_modCrew]
      exact hw
    · rw [State.formed_retryHeld]
      exact State.startLeave_formed hw ..

@[simp] theorem State.leaveGroup_formed (c g : Nat) : (s.leaveGroup c g).Formed := by
  unfold State.leaveGroup
  split
  · exact hw
  · dsimp only
    split
    · rw [State.formed_foldl fun s n => s.formed_barCheck ..]
      simp [hw]
    · rw [State.formed_foldl fun s n => s.formed_gangCheck .., State.formed_foldl fun s n => s.formed_barCheck ..]
      simp [hw]

@[simp] theorem State.endGroup_formed (c g : Nat) : (s.endGroup c g).Formed := by
  unfold State.endGroup
  split
  · exact hw
  · dsimp only
    split
    · simp [hw]
    · split <;> simp [hw]

@[simp] theorem State.tryEndGroup_formed (c g : Nat) : (s.tryEndGroup c g).Formed := by
  unfold State.tryEndGroup
  repeat' split
  all_goals simp [hw]

@[simp] theorem State.abortCrew_formed (ctx : Nat) (k : Crew) (launcher : Word) (lost : Option Nat) :
    (s.abortCrew ctx k launcher lost).Formed := by
  unfold State.abortCrew
  dsimp only
  split
  · exact hw
  · split
    · simp [hw]
    · repeat' split
      all_goals simp [hw]

@[simp] theorem State.abortLeg_formed (ctx leg crew : Nat) (cause : Cause) (lost : Option Nat) :
    (s.abortLeg ctx leg crew cause lost).Formed := by
  unfold State.abortLeg
  split
  · exact hw
  · rename_i l _
    have hk := State.foldl_formed (f := fun s k => s.abortCrew ctx k l.launcher lost) (fun s k hw => State.abortCrew_formed hw ..)
      (xs := (s.ctx ctx).crews.filter fun k => k.leg == leg) hw
    simp [hk]

@[simp] theorem State.rollback_formed (ctx crew : Nat) (cause : Cause) (lost : Option Nat) : (s.rollback ctx crew cause lost).Formed := by
  unfold State.rollback
  split
  · exact hw
  · exact State.ite_formed (State.abortLeg_formed hw ..) (State.foldl_formed (fun s m hw => (s.formed_rollOne ctx m.id).mpr hw) hw)

@[simp] theorem State.consume_formed (ctx crew : Nat) (cause : Cause) : (s.consume ctx crew cause).Formed := by
  unfold State.consume
  repeat' split
  all_goals simp [hw]

@[simp] theorem Iss.ended_formed (I : Iss) (e : Eff) : (I.ended s e).Formed := by
  unfold Iss.ended
  repeat' split
  all_goals simp [hw]

@[simp] theorem Iss.commit_formed (I : Iss) (e : Eff) : (I.commit s e).Formed := by simp [Iss.commit, hw]

@[simp] theorem State.readAt_formed (w : Who) (l : Look) (n : Nat) : (s.readAt w l n).2.Formed := by
  unfold State.readAt
  dsimp only
  repeat' split
  all_goals simp [hw]

@[simp] theorem State.writeAt_formed (w : Who) (l : Look) (bs : List Byte) : (s.writeAt w l bs).Formed := by
  unfold State.writeAt
  split <;> simp [hw]

@[simp] theorem State.writeHomed_formed (w : Who) (xs : List (Nat × Nat × List Byte)) : (s.writeHomed w xs).Formed := by
  unfold State.writeHomed
  split
  · exact hw
  · refine State.homeWrite_formed ?_ _
    dsimp only
    split
    · simp [hw]
    · rw [State.formed_modCrew]
      exact State.foldl_formed (fun s e hw => State.drainEntry_formed hw ..) (by simp [hw])

theorem State.demand_formed {k : State → List (Acc × Look) → State} (hk : ∀ t xs, t.Formed → (k t xs).Formed) (c : Nat) (o : Op)
    (m : AccMode) : (s.demand c o m k).Formed := by
  have hg := (s.formed_gate c o m).mpr hw
  unfold State.demand
  generalize s.gate c o m = g at hg ⊢
  obtain ⟨_ | _ | _ | _, t⟩ := g
  · exact State.ite_formed (State.consume_formed hg ..) (hk _ _ hg)
  all_goals simpa using hg

@[simp] theorem State.readAcc_formed (c : Nat) (w : Who) (id : Nat) (a : Acc) (l : Look) : (s.readAcc c w id a l).2.Formed := by
  have hread := State.readAt_formed (s := ((s.reach w l a.nbytes).2.tokenStart w l a.start).2.freeNat.2)
    (by simp [hw]) w l a.nbytes
  unfold State.readAcc
  dsimp only
  split <;> simp [hread]

@[simp] theorem State.loadGo_formed (c : Nat) (o : Op) (i : LdInfo) (xs : List (Acc × Look)) : (s.loadGo c o i xs).Formed := by
  have hread := State.foldl_snd_formed (f := fun (p : List Acc × State) (x : Acc × Look) =>
      (p.1 ++ [(p.2.readAcc c (s.opWho c o) o.id x.1 x.2).1], (p.2.readAcc c (s.opWho c o) o.id x.1 x.2).2))
    (fun p x hp => State.readAcc_formed hp ..) (xs := xs) (p := ([], s)) hw
  unfold State.loadGo
  dsimp only
  split
  · exact State.consume_formed hread ..
  · simp [hread]

@[simp] theorem State.ldlGo_formed (c : Nat) (o : Op) (dest : GDest) (xs : List (Acc × Look)) : (s.ldlGo c o dest xs).Formed := by
  have hread := State.foldl_snd_formed (f := fun (p : List Acc × State) (x : Acc × Look) =>
      (p.1 ++ [{ (p.2.readAcc c (s.opWho c o) o.id x.1 x.2).1 with dlv := true }], (p.2.readAcc c (s.opWho c o) o.id x.1 x.2).2))
    (fun p x hp => State.readAcc_formed hp ..) (xs := xs) (p := ([], s)) hw
  unfold State.ldlGo
  dsimp only
  split
  · exact State.consume_formed hread ..
  · simpa using hread

@[simp] theorem State.tryLane_formed (c : Nat) (w : Who) (o : Op) (older toks : List Op) (a : Acc) :
    (s.tryLane c w o older toks a).2.2.Formed := by
  unfold State.tryLane
  dsimp only
  repeat' split
  all_goals simp [hw]

@[simp] theorem State.limitedGo_formed (c : Nat) (o : Op) : (s.limitedGo c o).Formed := by
  unfold State.limitedGo
  dsimp only
  repeat' split
  all_goals
    simp only [State.formed_hardFault, State.formed_askAgain, State.formed_modGroup, State.formed_postArrivals, State.formed_modOp]
    refine State.foldl_proj_formed (fun p : _ × _ × State => p.2.2) (fun p a hp => ?_) ?_
    · exact State.tryLane_formed hp ..
    · exact hw

@[simp] theorem State.retireOps_formed (c g : Nat) : (s.retireOps c g).Formed := by simp [State.retireOps, hw]

@[simp] theorem State.storeBytes_formed (w : Who) (xs : List (Acc × Look)) : (s.storeBytes w xs).Formed :=
  State.writeHomed_formed (State.foldl_formed (fun _ _ hw => State.writeAt_formed hw ..) hw) ..

@[simp] theorem State.storeGo_formed (c : Nat) (o : Op) (xs : List (Acc × Look)) : (s.storeGo c o xs).Formed := by simp [State.storeGo, hw]

@[simp] theorem State.stlGo_formed (c : Nat) (o : Op) (xs : List (Acc × Look)) : (s.stlGo c o xs).Formed := by simp [State.stlGo, hw]

@[simp] theorem State.prefetchLine_formed (w : Who) (home : Bool) (p : Ptr) : (s.prefetchLine w home p).Formed := by
  unfold State.prefetchLine
  split <;> simp [hw]

@[simp] theorem State.tokenAct_formed (c : Nat) (o : Op) (w : Who) (d : State.TokDo) (far : Nat) : (s.tokenAct c o w d far).Formed := by
  unfold State.tokenAct
  dsimp only
  repeat' split
  all_goals simp [hw]

@[simp] theorem State.tokenRemote_formed (c : Nat) (o : Op) (a : Acc) : (s.tokenRemote c o a).Formed := by
  unfold State.tokenRemote
  dsimp only
  repeat' split
  all_goals simp [hw]

@[simp] theorem State.atomOne_formed (c : Nat) (w : Who) (i : Instr) (before : Nat) (a : Acc) (l : Look) :
    (s.atomOne c w i before a l).2.Formed := by
  unfold State.atomOne
  dsimp only
  split <;> simp [hw]

@[simp] theorem State.atomGo_formed (c : Nat) (o : Op) (xs : List (Acc × Look)) : (s.atomGo c o xs).Formed := by
  unfold State.atomGo
  refine State.ite_formed (State.consume_formed hw ..) ?_
  dsimp only
  rw [State.formed_perform, State.formed_modOp]
  refine State.foldl_snd_formed (fun p x hp => ?_) ?_
  · dsimp only
    exact State.atomOne_formed hp ..
  · exact hw

@[simp] theorem State.waitTry_formed (c : Nat) (o : Op) (p : Option Spot) (vs : List (Nat × Word)) :
    ∀ t ∈ s.waitTry c o p vs, t.Formed := by
  unfold State.waitTry
  dsimp only
  repeat' split
  all_goals simp [hw]

@[simp] theorem State.waitGo_formed (c : Nat) (o : Op) (xs : List (Acc × Look)) : (s.waitGo c o xs).Formed := by
  unfold State.waitGo
  split <;> simp [hw]

@[simp] theorem State.readParts_formed (w : Who) (xs : List (Acc × Look)) : (s.readParts w xs).2.Formed := by
  unfold State.readParts
  refine State.foldl_snd_formed (fun p x hp => ?_) ?_
  · simp [hp]
  · exact hw

theorem State.ingest_formed {k : State → State} (hk : ∀ t, t.Formed → (k t).Formed) (c : Nat) (o : Op) (marked : Bool) :
    (s.ingest c o marked k).Formed :=
  State.ite_formed ((s.formed_demandFault ..).mpr hw) (hk _ ((s.formed_escape ..).mpr hw))

@[simp] theorem State.tileGo_formed (c : Nat) (o : Op) (xs : List (Acc × Look)) : (s.tileGo c o xs).Formed := by
  unfold State.tileGo
  dsimp only
  split
  · simp [hw]
  · have hr := State.readParts_formed ((s.formed_tileTime (s.opWho c o) xs (s.opTile c o).2.size false false).mpr hw) (s.opWho c o) xs
    refine State.ite_formed (State.consume_formed hr ..) (State.ingest_formed hr (fun t ht => ?_) ..)
    simp [ht]

@[simp] theorem State.tstAon_formed (c : Nat) (o : Op) (sc : Scope) (xs : List (Acc × Look)) : (s.tstAon c o sc xs).Formed := by
  unfold State.tstAon
  repeat' split
  all_goals simp [hw]

@[simp] theorem State.tldAon_formed (c : Nat) (o : Op) (xs : List (Acc × Look)) : (s.tldAon c o xs).Formed := by
  unfold State.tldAon
  dsimp only
  split
  · next v cw rows =>
    refine State.ite_formed (by simp [hw]) (State.ingest_formed (by simp [hw]) (fun t ht => ?_) ..)
    split
    · refine State.ite_formed (by simp [ht]) (State.ite_formed (by simp [ht]) (State.ingest_formed (by simp [ht]) (fun u hu => ?_) ..))
      split <;> simp [hu]
    · have hr := State.readParts_formed hw (s.opWho c o) rows
      exact State.ite_formed (State.consume_formed hr ..) (State.ingest_formed hr (fun u hu => by simp [hu]) ..)
    · repeat' split
      all_goals simp [ht]
  · exact hw

@[simp] theorem State.tileCheck_formed (c : Nat) (o : Op) (x : TileMemA) (store : Bool) : (s.tileCheck c o x store).Formed := by
  unfold State.tileCheck
  refine State.ite_formed (by simp [hw]) ?_
  split
  · simp [hw]
  · simp [hw]
  · refine State.demand_formed hw (fun t xs ht => ?_) ..
    split
    · exact State.tileGo_formed ht ..
    · split <;> simp [ht]

@[simp] theorem State.taskmWork_formed (c : Nat) (o : Op) : (s.taskmWork c o).Formed := by
  unfold State.taskmWork
  dsimp only
  repeat' split
  all_goals simp [hw]

theorem State.withChecks_formed {k : State → Nat → State} (hk : ∀ t n, t.Formed → (k t n).Formed) (c : Nat) (o : Op) (banks : List Nat) :
    (s.withChecks c o banks k).Formed := by
  unfold State.withChecks
  refine State.ite_formed (State.consume_formed hw ..) ?_
  dsimp only
  have hb : (banks.foldl (fun (a : State × Nat × Option Cause) p =>
      if a.2.2.isSome || !((a.1.core c).bank p).pend then a
      else ((a.1.bankCheck c (s.opWho c o).ctx p).1,
        if (a.1.bankCheck c (s.opWho c o).ctx p).2.1.ran then a.2.1 + 1 else a.2.1, (a.1.bankCheck c (s.opWho c o).ctx p).2.2))
      (s, 0, none)).1.Formed := by
    refine State.foldl_proj_formed Prod.fst (fun b x hb => ?_) hw
    split
    · exact hb
    · simpa using hb
  split
  · exact State.consume_formed hb ..
  · refine hk _ _ ?_
    split
    · exact hb
    · simpa using hb

@[simp] theorem State.forceTests_formed (c ctx : Nat) (o : Op) : (s.forceTests c ctx o).Formed := by simp [State.forceTests, hw]

@[simp] theorem State.accGo_formed (c : Nat) (o : Op) : (s.accGo c o).Formed := by
  unfold State.accGo
  dsimp only
  split
  · simp [hw]
  · refine State.withChecks_formed hw (fun t n ht => ?_) ..
    split <;> simp [ht]
  · refine State.withChecks_formed hw (fun t n ht => ?_) ..
    simp [ht]
  · split
    · simp [hw]
    · refine State.withChecks_formed hw (fun t n ht => ?_) ..
      simp [ht]
  · refine State.withChecks_formed hw (fun t n ht => ?_) ..
    split <;> simp [ht]
  · split
    · simp [hw]
    · split
      · simp [hw]
      · have hb := (s.formed_bankCheck c (s.opWho c o).ctx ((o.args[0]?).getD 0).toNat).mpr hw
        split
        · next hx => 
          rw [hx] at hb
          simpa using State.consume_formed hb ..
        · next hx =>
          rw [hx] at hb
          simpa using hb
  · exact hw

@[simp] theorem State.accWork_formed (c : Nat) (o : Op) : (s.accWork c o).Formed := by
  unfold State.accWork
  repeat' split
  all_goals simp [hw]

end

end Sys2Proof.Machine
end

section
/-! SUPPORT. Legs, crews and engines keep the canonical form of memory. -/

namespace Sys2Proof.Machine

open Sys2Proof

section
variable {s : State} (hw : s.Formed)
include hw

@[simp] theorem State.pushLeg_formed (ctx : Nat) (l : Leg) : ∀ t ∈ s.pushLeg ctx l, t.Formed := by
  unfold State.pushLeg
  simp [hw]

@[simp] theorem State.launcherWrite_formed (ctx : Nat) (launcher : Word) (p : Ptr) (x : Word) :
    ∀ t ∈ s.launcherWrite ctx launcher p x, t.Formed := by
  unfold State.launcherWrite
  obtain ⟨walk, hwalk⟩ : ∃ f, State.walk = f := ⟨_, rfl⟩
  rw [hwalk]
  dsimp only
  repeat' split
  all_goals simp [hw]

theorem State.stepHead_formed (n ctx : Nat) (t : Tag) : (State.stepHead n s ctx t).Formed := by
  have hmark (s : State) (ctx va : Nat) : (s.walkMark ctx va).2.Formed ↔ s.Formed := s.formed_walkMark ctx va
  obtain ⟨mark, hm⟩ : ∃ f, State.walkMark = f := ⟨_, rfl⟩
  rw [State.stepHead_eq, hm]
  rw [hm] at hmark
  induction n generalizing s t with
  | zero => exact hw
  | succ n ih =>
    have hs := (hmark s ctx (Ptr.local t.ring)).mpr hw
    unfold State.stepHeadBy
    generalize mark s ctx (Ptr.local t.ring) = w at hs ⊢
    obtain ⟨w, u⟩ := w
    cases w with
    | fault k p => exact hs
    | ok e => exact State.ite_formed hs (State.ite_formed (ih (by simp [State.homeWriteAt_formed hs]) _) hs)

@[simp] theorem State.ringDone_formed (ctx : Nat) (e : Option (BitVec 16 × Nat)) : (s.ringDone ctx e).Formed := by
  unfold State.ringDone
  split
  · exact hw
  · split
    · exact hw
    · exact State.stepHead_formed ((s.formed_modCtx ..).mpr hw) ..

@[simp] theorem State.writeDone_formed (ctx : Nat) (l : Leg) (status : BitVec 4) (exited : Nat) :
    (s.writeDone ctx l status exited).Formed := by
  unfold State.writeDone
  split
  · exact hw
  · split
    · next h => exact State.launcherWrite_formed ((s.formed_markWalks ..).mpr hw) _ _ _ _ _ h
    · simp [hw]

theorem State.nextEdge_formed (n ctx : Nat) (p : Option Ptr) (st : BitVec 4) : (State.nextEdge n s ctx p st).Formed := by
  induction n generalizing s p st with
  | zero => exact hw
  | succ n ih =>
    cases p with
    | none => exact hw
    | some p =>
      unfold State.nextEdge
      dsimp only
      split
      · exact hw
      · split
        · exact hw
        · refine State.ite_formed (by simp [hw]) (ih (State.ringDone_formed (State.writeDone_formed ?_ ..) ..) ..)
          simp [hw]

@[simp] theorem State.finishLeg_formed (ctx : Nat) (l : Leg) (status : BitVec 4) : (s.finishLeg ctx l status).Formed :=
  State.nextEdge_formed (State.ringDone_formed (State.writeDone_formed hw ..) ..) ..

@[simp] theorem State.applyGrant_formed (ctx : Nat) (launcher : Word) (leg crews : Nat) (g : Grant) :
    ∀ t ∈ s.applyGrant ctx launcher leg crews g, t.Formed := by
  unfold State.applyGrant
  dsimp only
  repeat' split
  all_goals simp [hw]

@[simp] theorem State.applyGrants_formed (ctx : Nat) (launcher : Word) (leg crews : Nat) (gs : List Grant) :
    ∀ t ∈ s.applyGrants ctx launcher leg crews gs, t.Formed := by
  refine State.foldl_bind_formed (f := fun s g => s.applyGrant ctx launcher leg crews g)
    (fun s g hs => State.applyGrant_formed hs ctx launcher leg crews g) gs ?_
  simpa using hw

@[simp] theorem State.lendPieces_formed (c ctx crew : Nat) (l : Leg) (ps : List (Nat × Region)) :
    (s.lendPieces c ctx crew l ps).2.Formed := by
  unfold State.lendPieces
  refine State.foldl_snd_formed (fun p x hp => ?_) ?_
  · simp [hp]
  · exact hw

@[simp] theorem State.returnGrants_formed (ctx : Nat) (l : Leg) : (s.returnGrants ctx l).Formed := by
  unfold State.returnGrants
  refine State.foldl_formed (fun s g hw => ?_) hw
  dsimp only
  repeat' split
  all_goals simp [hw]

@[simp] theorem State.dealCrews_formed (ctx : Nat) (l : Leg) : (s.dealCrews ctx l).Formed := by
  unfold State.dealCrews
  refine State.foldl_formed (fun s rank hw => ?_) hw
  exact State.ite_formed ((State.formed_postNow ..).mpr ((State.formed_modCtx ..).mpr hw)) ((State.formed_modCtx ..).mpr hw)

@[simp] theorem State.admitLeg_formed (ctx : Nat) (l : Leg) : ∀ t ∈ s.admitLeg ctx l, t.Formed := by
  intro u hu
  unfold State.admitLeg at hu
  dsimp only at hu
  split at hu
  · cases hu
  · split at hu
    · cases hu
    · next t ht =>
      have htf := State.applyGrants_formed hw _ _ _ _ _ t ht
      split at hu
      · cases hu
      · cases hu
        exact State.dealCrews_formed ((t.formed_modCtx ..).mpr htf) ..

@[simp] theorem State.placeCrew_formed (ctx : Nat) (l : Leg) (k : Crew) (cs : List Nat) : ∀ t ∈ s.placeCrew ctx l k cs, t.Formed := by
  unfold State.placeCrew
  simp [hw]

@[simp] theorem State.placeAll_formed (ctx : Nat) (l : Leg) (ks : List Crew) (cores : State → Crew → List Nat) :
    ∀ t ∈ s.placeAll ctx l ks cores, t.Formed := by
  refine State.foldl_bind_formed (f := fun s k => s.placeCrew ctx l k (cores s k))
    (fun s k hs => State.placeCrew_formed hs ctx l k (cores s k)) ks ?_
  simpa using hw

@[simp] theorem State.startCrew_formed (ctx : Nat) (k : Crew) (l : Leg) : (s.startCrew ctx k l).Formed := by simp [State.startCrew, hw]

@[simp] theorem State.engReach_formed (w : Who) (p : Ptr) : (s.engReach w p).2.Formed :=
  (State.formed_of_mem (State.engReach_mem ..)).mpr hw

@[simp] theorem State.copyStart_formed (c : Nat) (o : Op) (x : CopyA) (e : Nat) : (s.copyStart c o x e).Formed := by
  unfold State.copyStart
  dsimp only
  repeat' split
  all_goals simp [hw]

@[simp] theorem State.msendStart_formed (c : Nat) (o : Op) (x : MsendA) (e : Nat) : (s.msendStart c o x e).Formed := by
  simp [State.msendStart, hw]

@[simp] theorem State.armCheck_formed (c : Nat) (o : Op) : (s.armCheck c o).Formed := by
  unfold State.armCheck
  dsimp only
  split
  · next p _ =>
    have ht := (s.formed_translate c (s.opWho c o).ctx (Ptr.local p)).mpr hw
    generalize s.translate c (s.opWho c o).ctx (Ptr.local p) = r at ht ⊢
    obtain ⟨_ | _ | _, t⟩ := r <;> simpa using ht
  · split
    · simp [hw]
    · split <;> simp [hw]

@[simp] theorem State.engStart_formed (c : Nat) (o : Op) : (s.engStart c o).Formed := by
  unfold State.engStart
  dsimp only
  repeat' split
  all_goals simp [hw]

@[simp] theorem State.engineCheck_formed (c : Nat) (o : Op) : (s.engineCheck c o).Formed := by
  unfold State.engineCheck
  dsimp only
  repeat' split
  all_goals simp [hw]

@[simp] theorem State.lookNow_formed (w : Who) (p : Ptr) (n al : Nat) (store : Bool) : (s.lookNow w p n al store).2.Formed := by
  unfold State.lookNow
  split
  · next va _ =>
    have ht := (s.formed_translate w.c w.ctx va).mpr hw
    generalize s.translate w.c w.ctx va = r at ht ⊢
    obtain ⟨_ | _ | _, t⟩ := r <;> exact ht
  · exact hw

@[simp] theorem State.putWord_formed (w : Who) (l : Look) (x : Word) : (s.putWord w l x).Formed := by
  unfold State.putWord
  split <;> simp [hw]

@[simp] theorem State.engWord_formed (w : Who) (p : Ptr) (store : Bool) : (s.engWord w p store).2.Formed := by
  have hl := State.lookNow_formed hw w p 4 4 store
  unfold State.engWord
  generalize s.lookNow w p 4 4 store = r at hl ⊢
  obtain ⟨l, t⟩ := r
  cases l <;> exact hl

theorem State.eachWord_formed {f : State → Nat → State.Halt × State} (hf : ∀ s i, s.Formed → (f s i).2.Formed) (n : Nat) :
    (State.eachWord n f s).2.2.Formed := by
  refine State.foldl_proj_formed (fun r : Nat × State.Halt × State => r.2.2) (fun r i hr => ?_) hw
  split
  · have hx := hf r.2.2 i hr
    generalize f r.2.2 i = x at hx ⊢
    obtain ⟨_ | _ | _, t⟩ := x <;> exact hx
  · exact hr

@[simp] theorem State.copyRead_formed (w : Who) (e : Nat) (x : EngOp) (i : Nat) : (State.copyRead w e x s i).2.Formed := by
  have he := State.engWord_formed hw w (Ptr.advance x.src (4 * (x.sent + i) : Nat)) false
  unfold State.copyRead
  dsimp only
  generalize s.engWord w (Ptr.advance x.src (4 * (x.sent + i) : Nat)) false = r at he ⊢
  obtain ⟨⟨l, h⟩, t⟩ := r
  cases h
  · dsimp only at he ⊢
    split <;> simp [he]
  all_goals exact he

@[simp] theorem State.copyLoop_formed (w : Who) (e : Nat) (x : EngOp) (i : Nat) : (State.copyLoop w e x s i).2.Formed := by
  unfold State.copyLoop
  dsimp only
  generalize hr : List.foldl _ _ _ = r
  have hd : r.2.2.Formed := by
    rw [← hr]
    refine State.foldl_proj_formed (fun r : List Look × State.Halt × State => r.2.2) (fun r b hr => ?_) hw
    split
    · exact State.engWord_formed hr ..
    · exact hr
  obtain ⟨ds, h₀, u⟩ := r
  have he := State.engWord_formed hd w (Ptr.advance x.src (4 * (x.sent + i) : Nat)) false
  generalize State.engWord _ w (Ptr.advance x.src (4 * (x.sent + i) : Nat)) false = q at he ⊢
  obtain ⟨⟨l, h⟩, t⟩ := q
  cases h₀
  · cases h
    · have ha := State.readAt_formed he w l 4
      dsimp only at ha ⊢
      split
      · exact ha
      · rw [State.formed_escape, State.formed_modEng]
        exact State.foldl_formed (fun s d hw => State.putWord_formed hw ..) ha
    all_goals exact he
  all_goals exact hd

@[simp] theorem State.copyFlit_formed (c e : Nat) (x : EngOp) : (s.copyFlit c e x).Formed := by
  unfold State.copyFlit
  refine State.ite_formed hw ?_
  dsimp only
  rw [State.formed_engPause]
  split
  · exact State.eachWord_formed (by simp [hw]) (fun s i hs => State.copyLoop_formed hs ..) _
  · exact State.eachWord_formed (by simp [hw]) (fun s i hs => State.copyRead_formed hs ..) _

@[simp] theorem State.copySeal_formed (c e : Nat) (x : EngOp) : (s.copySeal c e x).Formed := by
  unfold State.copySeal
  refine State.ite_formed hw ?_
  dsimp only
  rw [State.formed_modEng]
  refine State.foldl_snd_formed (fun r b hr => ?_) ?_
  · exact State.engReach_formed hr ..
  · simpa using hw

@[simp] theorem State.forkArrive_formed (c e : Nat) (f : Flight) (k : Fork) : (s.forkArrive c e f k).Formed := by
  have hput (w : Who) (q : Nat → Ptr) (v : Nat → Word) : (State.eachWord (f.data.length - k.got)
      (fun s i => match s.engWord w (q i) true with
        | ((l, .none), s) => (.none, s.putWord w l (v i))
        | ((_, h), s) => (h, s)) s).2.2.Formed := by
    refine State.eachWord_formed hw (fun s i hw => ?_) _
    have he := State.engWord_formed hw w (q i) true
    generalize s.engWord w (q i) true = r at he ⊢
    obtain ⟨⟨l, h⟩, t⟩ := r
    cases h
    · exact State.putWord_formed he ..
    all_goals exact he
  unfold State.forkArrive
  split
  · exact hw
  · split
    · refine State.ite_formed hw ?_
      dsimp only
      simp only [State.formed_engPause, State.formed_modEng]
      split
      · exact State.engReach_formed (hput ..) ..
      · exact hput ..
    · exact hw

@[simp] theorem State.copyArrive_formed (c e : Nat) (x : EngOp) : (s.copyArrive c e x).Formed := by
  unfold State.copyArrive
  rw [State.formed_modEng]
  exact State.foldl_formed (fun s f hw => State.foldl_formed (fun s k hw => State.forkArrive_formed hw ..) hw) hw

@[simp] theorem State.copyWord_formed (c : Nat) (w : Who) (x : EngOp) (p : Ptr) (at' : Nat) : (s.copyWord c w x p at').2.2.Formed := by
  unfold State.copyWord
  split
  · exact hw
  · have he := State.engWord_formed hw w p true
    generalize s.engWord w p true = r at he ⊢
    obtain ⟨⟨l, h⟩, t⟩ := r
    cases h
    · exact State.putWord_formed he ..
    all_goals exact he

@[simp] theorem State.copyWordAt_formed (c : Nat) (w : Who) (d p : Ptr) : (s.copyWordAt c w d p).2.Formed := by
  have hreach {s : State} (hw : s.Formed) (p : Ptr) : (s.engReach w p).2.Formed := State.engReach_formed hw ..
  obtain ⟨reach, hr⟩ : ∃ f, State.engReach = f := ⟨_, rfl⟩
  unfold State.copyWordAt
  rw [hr] at hreach ⊢
  exact hreach (hreach hw d) p

@[simp] theorem State.branchWord_formed (c e i : Nat) : (s.branchWord c e i).Formed := by
  unfold State.branchWord
  repeat' split
  all_goals simp [hw]

@[simp] theorem State.copyEnd_formed (c e : Nat) : (s.copyEnd c e).Formed := by
  have hfin (t : State) (ht : t.Formed) : (match t.eng? c e with
      | some x => (t.freeEng c e x).landAt c x.slot x.id x.setf [] (t.now c)
      | none => t).Formed := by
    split
    · simp [ht]
    · exact ht
  unfold State.copyEnd
  split
  · exact hw
  · next x _ =>
    refine State.ite_formed hw (State.ite_formed ?_ (State.ite_formed hw (State.ite_formed (hfin _ hw) ?_)))
    · have hb := State.foldl_formed (f := fun s i => s.branchWord c e i) (fun s i hs => State.branchWord_formed hs ..)
        (xs := List.range x.branches.length) hw
      exact State.ite_formed (hfin _ hb) hb
    · dsimp only
      split
      · exact (State.formed_modEng ..).mpr (State.copyWordAt_formed hw ..)
      · next t _ =>
        have hc := State.copyWord_formed hw c (s.engWho c e x) x (ownSpace x.cOff) t
        exact State.ite_formed (hfin _ hc) ((State.formed_engPause ..).mpr hc)

@[simp] theorem State.engineGo_formed (c e : Nat) (x : EngOp) : (s.engineGo c e x).Formed := by
  have hon {f : State → EngOp → State} (hf : ∀ t y, t.Formed → (f t y).Formed) {t : State} (ht : t.Formed) : (t.onEng c e f).Formed := by
    unfold State.onEng
    split
    · exact State.ite_formed ht (hf _ _ ht)
    · exact ht
  have hcopy := hon (fun t y ht => State.copyArrive_formed ht c e y) (hon (fun t y ht => State.copySeal_formed ht c e y)
    (hon (fun t y ht => State.copyFlit_formed ht c e y) hw))
  rw [State.engineGo_eq]
  exact State.ite_formed (by simp [hw]) (hon (fun t y ht => by simp [ht]) (State.copyEnd_formed hcopy ..))

end

end Sys2Proof.Machine
end

section
/-! SUPPORT. Messages, streams, system instructions, the pick, the host and the ports keep the canonical form of memory. -/

namespace Sys2Proof.Machine

open Sys2Proof

section
variable {s : State} (hw : s.Formed)
include hw

@[simp] theorem State.packetTake_formed (c : Nat) (p : Packet) (off : Nat) : (s.packetTake c p off).Formed := by simp [State.packetTake, hw]

@[simp] theorem State.virtWrite_formed (ctx va : Nat) (bs : List Byte) : ∀ t ∈ s.virtWrite ctx va bs, t.Formed := by
  unfold State.virtWrite
  obtain ⟨walk, hwalk⟩ : ∃ f, State.walk = f := ⟨_, rfl⟩
  rw [hwalk]
  refine State.foldl_bind_formed (f := fun s (p : Byte × Nat) => match walk s ctx (va + p.2) with
    | .fault .. => none
    | .ok e => if e.h || !e.w then none else some (s.homeWriteAt (e.phys (va + p.2)) [p.1])) (fun s p hs t ht => ?_) bs.zipIdx ?_
  · split at ht
    · cases ht
    · split at ht
      · cases ht
      · cases ht
        exact State.homeWriteAt_formed hs ..
  · simpa using hw

theorem State.fireTag_formed (c : Nat) (p : Packet) (t : Tag) (e n : Nat) (head tail : Word) :
    ∀ u ∈ s.fireTag c p t e n head tail, u.Formed := by
  have hwrite {s t : State} (hs : s.Formed) {ctx va : Nat} {bs : List Byte} (h : s.virtWrite ctx va bs = some t) : t.Formed :=
    State.virtWrite_formed hs ctx va bs t h
  intro u hu
  unfold State.fireTag at hu
  obtain ⟨write, hvirt⟩ : ∃ f, State.virtWrite = f := ⟨_, rfl⟩
  obtain ⟨read, hread⟩ : ∃ f, State.launchRecord = f := ⟨_, rfl⟩
  rw [hvirt] at hwrite hu
  rw [hread] at hu
  dsimp only at hu
  split at hu
  · cases hu
  · split at hu
    · cases hu
      simp [hw]
    · next v hv =>
      have hvf := hwrite ((s.formed_markWalks ..).mpr hw) hv
      split at hu
      · cases hu
        simp [hvf]
      · next x hx =>
        have hxf := hwrite hvf hx
        split at hu
        · cases hu
          simp [hxf]
        · obtain ⟨y, hy, rfl⟩ := Option.map_eq_some_iff.mp hu
          exact (State.formed_packetEnd ..).mpr (State.pushLeg_formed ((x.formed_markWalks ..).mpr hxf) _ _ y hy)

@[simp] theorem State.qpopSettle_formed (c id : Nat) : (s.qpopSettle c id).Formed := by
  unfold State.qpopSettle
  repeat' split
  all_goals simp [hw]

@[simp] theorem State.queueServe_formed (c q : Nat) : (s.queueServe c q).Formed := by
  unfold State.queueServe
  refine State.foldl_formed (fun s x hw => ?_) hw
  simp [hw]

@[simp] theorem State.popDirect_formed (c : Nat) (w : Who) (o : Op) (a : Acc) : (s.popDirect c w o a).2.2.Formed := by
  unfold State.popDirect
  dsimp only
  repeat' split
  all_goals simp [hw]

@[simp] theorem State.qpopReissue_formed (c : Nat) (o : Op) : ∀ t ∈ s.qpopReissue c o, t.Formed := by
  unfold State.qpopReissue
  dsimp only
  repeat' split
  all_goals simp [hw]

@[simp] theorem State.qpopCheck_formed (c : Nat) (o : Op) (q : Nat) : (s.qpopCheck c o q).Formed := by
  unfold State.qpopCheck
  refine State.ite_formed (by simp [hw]) ?_
  split
  · simp [hw]
  · next t ht =>
    have htf := State.qpopReissue_formed hw _ _ t ht
    dsimp only
    generalize hr : List.foldl _ _ _ = r
    have hrf : r.2.2.Formed := by
      rw [← hr]
      refine State.foldl_proj_formed (fun r : List Acc × Bool × State => r.2.2) (fun p a hp => ?_) htf
      exact State.popDirect_formed hp ..
    split <;> simp [hrf]

@[simp] theorem State.putElem_formed (c : Nat) (e : QElem) (op : Option Nat) : (s.putElem c e op).Formed := by
  unfold State.putElem
  repeat' split
  all_goals simp [hw]

@[simp] theorem State.streamDo_formed (c : Nat) (o : Op) : (s.streamDo c o).Formed := by
  unfold State.streamDo
  split <;> simp [hw]

@[simp] theorem State.streamCheck_formed (c : Nat) (o : Op) : (s.streamCheck c o).Formed := by
  unfold State.streamCheck
  dsimp only
  repeat' split
  all_goals simp [hw]

@[simp] theorem State.topoChange_formed (ctx : Nat) : (s.topoChange ctx).Formed := by simp [State.topoChange, hw.wf]

@[simp] theorem State.placeWrite_formed (ctx i : Nat) (e : Word) : ∀ t ∈ s.placeWrite ctx i e, t.Formed := by
  unfold State.placeWrite
  dsimp only
  repeat' split
  all_goals simp [hw]

@[simp] theorem State.placeRemove_formed (ctx c : Nat) : (s.placeRemove ctx c).Formed := by
  unfold State.placeRemove
  split <;> simp [hw]

@[simp] theorem State.resetTokens_formed (ctx : Nat) (k : Crew) (cut : List Nat) : (s.resetTokens ctx k cut).Formed := by
  unfold State.resetTokens
  dsimp only
  rw [State.formed_modCaches]
  refine State.foldl_formed (fun s b hs => ?_) (State.foldl_formed (fun s r hs => ?_) (State.foldl_formed (fun s r hs => ?_) hw))
  · split <;> simp [hs]
  · simp [hs]
  · repeat' split
    all_goals simp [hs]

@[simp] theorem State.resetCtx_formed (ctx : Nat) : (s.resetCtx ctx).Formed := by
  unfold State.resetCtx
  dsimp only
  rw [State.formed_retryAll, State.formed_wakeRegions, State.formed_record, State.formed_modSch]
  refine State.foldl_formed (fun s k hs => (s.formed_leaveTenant ..).mpr hs) ((State.formed_modCtx ..).mpr ?_)
  refine State.foldl_formed (fun s l hs => State.returnGrants_formed hs ..) ?_
  refine State.foldl_formed (fun s p hs => State.resetTokens_formed hs ..) ?_
  refine State.foldl_formed (fun s k hs => by split <;> simp [hs]) ?_
  exact State.foldl_formed (fun s l hs => State.writeDone_formed hs ..) hw

@[simp] theorem State.keepEvent_formed (e : EvRec) : (s.keepEvent e).Formed := by simp [State.keepEvent, hw.wf]

@[simp] theorem State.tellEvent_formed (u : UnitId) (cls : BitVec 8) (n : Nat) : (s.tellEvent u cls n).Formed := by
  simp [State.tellEvent, hw]

@[simp] theorem State.dieGone_formed (die : Nat) : (s.dieGone die).Formed := by
  unfold State.dieGone
  refine State.foldl_formed (fun s x hs => (s.formed_record ..).mpr hs) ((State.formed_emit ..).mpr ?_)
  exact State.foldl_formed (fun s x hs => State.resetCtx_formed hs x) hw

@[simp] theorem State.lasting_formed (u : UnitId) : (s.lasting u).Formed := by
  unfold State.lasting
  dsimp only
  split <;> simp [hw.wf]

@[simp] theorem State.countEvent_formed (u : UnitId) (corrected : Bool) : (s.countEvent u corrected).Formed := by
  simp [State.countEvent, hw.wf]

@[simp] theorem State.putError_formed (c : Nat) (l : ErrLoc) : (s.putError c l).Formed := by
  unfold State.putError
  split <;> simp [hw, hw.wf]

@[simp] theorem State.answerLost_formed (lost : Nat) : (s.answerLost lost).Formed := by simp [State.answerLost, hw]

@[simp] theorem State.swrDo_formed (c : Nat) (o : Op) (sel : SReg) : (s.swrDo c o sel).Formed := by
  unfold State.swrDo
  split <;> simp [hw]

@[simp] theorem State.launchAt_formed (c : Nat) (o : Op) (x : LaunchA) (pa : Nat) : (s.launchAt c o x pa).Formed := by
  unfold State.launchAt
  dsimp only
  split
  · simp [hw]
  · refine State.ite_formed (by simp [hw]) ?_
    split
    · simp [hw]
    · refine State.ite_formed (by simp [hw]) ?_
      split
      · simp [hw]
      · next h =>
        exact (State.formed_finishOp ..).mpr (State.pushLeg_formed ((State.formed_markWalks ..).mpr ((s.formed_latency _).mpr hw)) _ _ _ h)

@[simp] theorem State.launchCheck_formed (c : Nat) (o : Op) (x : LaunchA) : (s.launchCheck c o x).Formed := by
  unfold State.launchCheck
  dsimp only
  split
  · refine State.ite_formed ?_ ?_ <;> simp [hw]
  · split
    · next v _ =>
      have ht := (s.formed_translate c (s.opWho c o).ctx v).mpr hw
      generalize s.translate c (s.opWho c o).ctx v = r at ht ⊢
      obtain ⟨_ | _ | _, t⟩ := r <;> simpa using ht
    · refine State.ite_formed ?_ (State.ite_formed ?_ ?_) <;> simp [hw]

@[simp] theorem State.startInv_formed (ctx a k : Nat) (asker : Option (Nat × Nat)) (q : Nat) : (s.startInv ctx a k asker q).Formed := by
  unfold State.startInv
  dsimp only
  rw [State.formed_post]
  exact ⟨(((s.fresh.2.formed_latency 300).mpr (s.formed_fresh.mpr hw))).wf⟩

@[simp] theorem State.invalidate_formed (v : Inv) : (s.invalidate v).Formed := by simp [State.invalidate, hw.wf]

@[simp] theorem State.placewDo_formed (c : Nat) (o : Op) (x : PlacewA) : (s.placewDo c o x).Formed := by
  unfold State.placewDo
  dsimp only
  split
  · next h => exact (State.formed_finishOp ..).mpr (State.placeWrite_formed hw _ _ _ _ h)
  · simp [hw]

@[simp] theorem State.poisonLine_formed (c : Nat) (o : Op) : (s.poisonLine c o).Formed := by
  unfold State.poisonLine
  dsimp only
  split
  · simp [hw]
  · have ht := (s.formed_translate c (s.opWho c o).ctx (Ptr.local (argPtr o.args 0))).mpr hw
    generalize s.translate c (s.opWho c o).ctx (Ptr.local (argPtr o.args 0)) = r at ht ⊢
    obtain ⟨_ | _ | _, t⟩ := r
    · refine State.ite_formed (by simpa using ht) (State.tryEndGroup_formed ((State.formed_dropOp ..).mpr ?_) ..)
      exact ⟨ht.wf⟩
    all_goals simpa using ht

@[simp] theorem State.inject_formed (u : UnitId) : (s.inject u).Formed := by simp [State.inject, hw]

@[simp] theorem State.sysCheck_formed (c : Nat) (o : Op) : (s.sysCheck c o).Formed := by
  unfold State.sysCheck
  split <;> simp [hw]

@[simp] theorem State.loadCheck_formed (c : Nat) (o : Op) : (s.loadCheck c o).Formed := by
  unfold State.loadCheck
  refine State.ite_formed (by simp [hw]) ?_
  split
  · exact State.demand_formed hw (fun t xs ht => State.loadGo_formed ht ..) ..
  · exact hw

theorem State.demandCheck_formed {k : State → List (Acc × Look) → State} (hk : ∀ t xs, t.Formed → (k t xs).Formed) (c : Nat) (o : Op) :
    (s.demandCheck c o k).Formed :=
  State.demand_formed hw hk ..

@[simp] theorem State.askOp_formed (c : Nat) (o : Op) : (s.askOp c o).Formed := by
  have hdemand {k : State → List (Acc × Look) → State} (hk : ∀ t xs, t.Formed → (k t xs).Formed) := State.demandCheck_formed hw hk c o
  unfold State.askOp
  split
  case h_4 => exact hdemand fun t xs ht => State.ldlGo_formed ht ..
  case h_5 | h_6 | h_7 => exact hdemand fun t xs ht => State.storeGo_formed ht ..
  case h_8 => exact hdemand fun t xs ht => State.stlGo_formed ht ..
  case h_9 | h_10 | h_11 => exact hdemand fun t xs ht => State.atomGo_formed ht ..
  case h_12 | h_13 => exact hdemand fun t xs ht => State.waitGo_formed ht ..
  all_goals simp [hw]

@[simp] theorem State.fetch_formed (c ctx crew : Nat) (pc : Word) : (s.fetch c ctx crew pc).2.Formed := by
  unfold State.fetch
  split
  · simp [hw]
  · have ht := (s.formed_codeSpan c ctx crew pc).mpr hw
    generalize s.codeSpan c ctx crew pc = r at ht ⊢
    obtain ⟨_ | _, t⟩ := r <;> exact ht

@[simp] theorem State.prefetch_formed (c ctx crew : Nat) (pc : Word) : (s.prefetch c ctx crew pc).Formed :=
  (State.formed_of_mem (s.prefetch_frame c ctx crew pc).1).mpr hw

@[simp] theorem State.popAll_formed (c : Nat) : (s.popAll c).Formed := by
  unfold State.popAll
  refine State.foldl_formed (fun s g hs => ?_) hw
  split
  · exact hs
  · split
    · exact hs
    · split <;> simpa using hs

@[simp] theorem State.toSlot_formed (c g : Nat) (sp : Fin 4) (G : Group) (S : Split) (f : Group → Group) (h : Core → Core) :
    (s.toSlot c g sp G S f h).Formed := by
  have hm := (s.formed_missing c G.ctx G.crew S.pc).mpr hw
  unfold State.toSlot
  generalize s.missing c G.ctx G.crew S.pc = r at hm ⊢
  obtain ⟨_ | _ | _, t⟩ := r
  · dsimp only
    split
    · split <;> simpa using hm
    · simpa using hm
  all_goals simpa using hm

@[simp] theorem State.pick_formed (c : Nat) : (s.pick c).Formed := by
  unfold State.pick
  dsimp only
  repeat' split
  all_goals simp [hw]

@[simp] theorem State.stepPick_formed (c : Nat) (t : Slot) (id? : Option Nat) : (s.stepPick c t id?).Formed := by
  unfold State.stepPick
  repeat' split
  all_goals simp [hw]

@[simp] theorem State.saveCrew_formed (ctx i : Nat) (k : Crew) (l : Leg) : (s.saveCrew ctx i k l).Formed := by simp [State.saveCrew, hw]

@[simp] theorem State.restoreGroup_formed (ctx c g : Nat) (k : Crew) (l : Leg) (budget : Nat) (r : SlotRead) (x : SavedG) :
    (s.restoreGroup ctx c g k l budget r x).Formed := by
  simp [State.restoreGroup, hw]

@[simp] theorem State.restoreOn_formed (ctx c i : Nat) (k : Crew) (l : Leg) (r : SlotRead) : (s.restoreOn ctx c i k l r).Formed := by
  unfold State.restoreOn
  dsimp only
  rw [State.formed_rail, State.formed_modCtx, State.formed_foldl fun s n => s.formed_gangCheck ..,
    State.formed_foldl fun s n => s.formed_barCheck ..]
  refine State.homeWriteAt_formed ((State.formed_restoreTokens ..).mpr (State.foldl_formed (fun s j hs => by simpa using hs) ?_)) ..
  rw [State.formed_modCore, State.formed_modCore]
  refine (State.formed_restoreStreams ..).mpr (State.foldl_formed (fun s x hs => State.restoreGroup_formed hs ..) ?_)
  exact (State.formed_modCrew ..).mpr hw

@[simp] theorem State.restoreCrew_formed (ctx i : Nat) : ∀ t ∈ s.restoreCrew ctx i, t.Formed := by
  unfold State.restoreCrew
  dsimp only
  repeat' split
  all_goals simp [hw]

@[simp] theorem State.tellThermal_formed (die number : Nat) : (s.tellThermal die number).Formed := by simp [State.tellThermal, hw]

@[simp] theorem State.setForced_formed (xs : List Nat) (b : Bool) : (s.setForced xs b).Formed := by simp [State.setForced, hw]

@[simp] theorem State.quadCycle_formed (q : Nat) : (s.quadCycle q).Formed := by simp [State.quadCycle, hw]

@[simp] theorem State.refCycle_formed (d : Nat) : (s.refCycle d).Formed := by simp [State.refCycle, hw]

@[simp] theorem State.extCycle_formed (choice : Nat) : (s.extCycle choice).Formed := by simp [State.extCycle, hw]

@[simp] theorem State.tick_formed : (s.tick).Formed := by simp [State.tick, hw]

@[simp] theorem State.preempt_formed (ctx : Nat) : (s.preempt ctx).Formed := by simp [State.preempt, hw]

@[simp] theorem State.hostTbinv_formed (ctx : Nat) (val : Word) : (s.hostTbinv ctx val).Formed := by simp [State.hostTbinv, hw]

@[simp] theorem State.hostPlace_formed (ctx : Nat) (val : Word) : (s.hostPlace ctx val).Formed := by
  unfold State.hostPlace
  split
  · next h => exact (State.formed_modRegs ..).mpr (State.placeWrite_formed hw _ _ _ _ h)
  · simp [hw]

@[simp] theorem State.restoreCmd_formed (ctx : Nat) : (s.restoreCmd ctx).Formed := by
  unfold State.restoreCmd
  split
  · simp [hw]
  · next h => exact (State.formed_cmdDone ..).mpr (State.restoreCrew_formed hw _ _ _ h)

theorem State.command_formed {f : State → State} (hf : ∀ t, t.Formed → (f t).Formed) (ctx : Nat) : (s.command ctx f).Formed :=
  State.ite_formed hw (hf s hw)

@[simp] theorem State.writeBlock_formed (ctx off : Nat) (v : Word) : (s.writeBlock ctx off v).Formed := by
  unfold State.writeBlock
  dsimp only
  split
  · rw [State.formed_postNow]
    split
    · refine State.preempt_formed ?_ ..
      split <;> simp [hw]
    · split <;> simp [hw]
  case h_9 =>
    have hr : (s.modRegs ctx fun r => r.put 0x0A0 v).Formed := by simp [hw]
    split
    case h_6 => exact hr
    all_goals exact State.command_formed hr (fun t ht => by simp [ht]) _
  all_goals simp [hw]

@[simp] theorem State.hostStore_formed (pa : Nat) (bs : List Byte) : (s.hostStore pa bs).Formed := ⟨(State.homeWriteAt_formed hw pa bs).wf⟩

@[simp] theorem State.inboundWrite_formed (ctx a : Nat) (bs : List Byte) : ∀ t ∈ s.inboundWrite ctx a bs, t.Formed := by
  intro t ht
  unfold State.inboundWrite at ht
  obtain ⟨byte, hb⟩ : ∃ f, State.inboundByte = f := ⟨_, rfl⟩
  rw [hb] at ht
  dsimp only at ht
  split at ht
  · cases ht
    exact State.homeWrite_formed hw _
  · cases ht

@[simp] theorem State.modMgmt_formed (f : Mgmt → Mgmt) : (s.modMgmt f).Formed := by simp [State.modMgmt, hw.wf]

@[simp] theorem State.takeFrame_formed : (s.takeFrame).Formed := by simp [State.takeFrame, hw]

theorem State.serve_formed {work : State → BitVec 8 × List Byte × State} (hf : ∀ t, t.Formed → (work t).2.2.Formed) (x : Dgram) :
    (s.serve x work).Formed := by
  have ht := State.takeFrame_formed hw
  exact State.ite_formed ht ((State.formed_reply ..).mpr (hf _ (State.modMgmt_formed ht _)))

end

end Sys2Proof.Machine
end

section
/-! SUPPORT. An issue whose body keeps the canonical form of memory keeps it, and the shapes of bodies that do. -/

namespace Sys2Proof.Machine

open Sys2Proof

/-- Whatever next state an outcome gives, its memory is in its canonical form. -/
structure FormedNext (o : Host.Outcome State Fault Refusal) : Prop where
  formed : ∀ t, o = .next t → t.Formed

@[simp] theorem formedNext_next {t : State} : FormedNext (.next t) ↔ t.Formed :=
  ⟨fun h => h.formed t rfl, fun h => ⟨fun u hu => by
    cases hu
    exact h⟩⟩

@[simp] theorem formedNext_refused (r : Refusal) : FormedNext (.refused r) := ⟨fun _ hu => by cases hu⟩

@[simp] theorem formedNext_fault (f : Fault) : FormedNext (.fault f) := ⟨fun _ hu => by cases hu⟩

theorem FormedNext.ite {p : Prop} [Decidable p] {a b : Host.Outcome State Fault Refusal} (ha : FormedNext a) (hb : FormedNext b) :
    FormedNext (if p then a else b) := by
  split
  · exact ha
  · exact hb

/-- The state a body ends its issue on, where it names one, has its memory in its canonical form. -/
def Res.Formed : Res → Prop
  | .stop _ | .ue _ => True
  | .stopOn s _ | .hold s | .done s _ => s.Formed

@[simp] theorem Res.formed_stop (r : Report) : (Res.stop r).Formed := trivial
@[simp] theorem Res.formed_ue (c : Cause) : (Res.ue c).Formed := trivial
@[simp] theorem Res.formed_stopOn {s : State} {r : Report} : (Res.stopOn s r).Formed ↔ s.Formed := Iff.rfl
@[simp] theorem Res.formed_hold {s : State} : (Res.hold s).Formed ↔ s.Formed := Iff.rfl
@[simp] theorem Res.formed_done {s : State} {e : Eff} : (Res.done s e).Formed ↔ s.Formed := Iff.rfl

theorem Res.ite_formed {p : Prop} [Decidable p] {a b : Res} (ha : a.Formed) (hb : b.Formed) : (if p then a else b).Formed := by
  split
  · exact ha
  · exact hb

/-! ## From the body to the issue -/

section
variable {I : Iss}

theorem Res.orUe_formed {r : Res} (h : r.Formed) : (r.orUe I).Formed := by
  cases r with
  | done s e => exact Res.ite_formed ((s.formed_modOp ..).mpr h) trivial
  | stop | stopOn | ue | hold => exact h

@[simp] theorem Res.orUeIf_formed (b : Bool) {r : Res} (h : r.Formed) : (r.orUeIf I b).Formed := Res.ite_formed (Res.orUe_formed h) h

theorem Iss.markedGuard_formed {k : Lanes} {body : Iss → Res} (hI : I.s.Formed) (hb : ∀ J : Iss, J.s.Formed → (body J).Formed) :
    (I.markedGuard k body).Formed := by
  unfold Iss.markedGuard
  split
  · exact hb I hI
  · have hr := hb { I with off := k } hI
    generalize body { I with off := k } = r at hr ⊢
    cases r with
    | stop | ue | hold => trivial
    | stopOn s r => exact hr
    | done s e =>
      dsimp only
      split
      · exact (I.formed_logMarks ..).mpr hr
      · trivial

theorem Iss.outcome_formed {u : Use} {body : Iss → Res} (hI : I.s.Formed) (hb : ∀ J : Iss, J.s.Formed → (body J).Formed) :
    (I.outcome u body).Formed := by
  unfold Iss.outcome
  split
  · trivial
  · exact Res.orUeIf_formed _ (Iss.markedGuard_formed hI hb)

theorem Iss.finish_formed {r : Res} (hI : I.s.Formed) (h : r.Formed) : (I.finish r).Formed := by
  cases r with
  | stop r => exact (State.formed_takeStop ..).mpr (I.s.formed_clearIssue.mpr hI)
  | stopOn s r => exact (State.formed_takeStop ..).mpr (s.formed_clearIssue.mpr h)
  | ue c => exact State.consume_formed (I.s.formed_clearIssue.mpr hI) ..
  | hold s => exact (I.formed_held s).mpr h
  | done s e => exact Iss.commit_formed h I e

end

/-- An instruction keeps the form of memory when its body does, whatever state it is issued on. -/
theorem issue_formed {h : Hdr} {u : Use} {s : State} {body : Iss → Res} (hw : s.Formed)
    (hb : ∀ J : Iss, J.s.Formed → (body J).Formed) : FormedNext (issue h u s body) := by
  unfold issue
  split
  · exact formedNext_fault _
  · next I hI =>
    have hI : I.s.Formed := by
      obtain ⟨-, -, -, hfresh, -⟩ := State.issuer_spec hI
      rw [hfresh]
      exact s.formed_fresh.mpr hw
    exact formedNext_next.mpr (Iss.finish_formed hI (Iss.outcome_formed hI hb))

end Sys2Proof.Machine
end

section
/-! SUPPORT. The shapes of an instruction's body, each of which keeps the canonical form of memory. -/

namespace Sys2Proof.Machine

open Sys2Proof

section
variable {I : Iss} (hI : I.s.Formed)
include hI

@[simp] theorem Iss.ok_formed (e : Eff) : (I.ok e).Formed := hI

@[simp] theorem Iss.scalarOp_formed (occ : Nat) (d : Opnd) (e : Elem) : (I.scalarOp occ d e).Formed := by
  refine Res.ite_formed hI ?_
  split
  · trivial
  · exact hI

@[simp] theorem Iss.vectorLong_formed (lat charge : Nat) (ws : List RegWrite) : (I.vectorLong lat charge ws).Formed := hI

@[simp] theorem Iss.access_formed (o : Op) (store : Bool) (extra : List Nat) (e : Eff) : (I.access o store extra e).Formed := by
  unfold Iss.access
  refine Res.ite_formed hI ?_
  dsimp only
  split
  · simpa using hI
  · split
    · simpa using hI
    · trivial

omit hI in
@[simp] theorem Iss.commits_formed {ins : Instr} {accs : List Acc} {r : Res} (hr : r.Formed) : (I.commits ins accs r).Formed := by
  cases r with
  | done s e =>
    refine Res.ite_formed hr ?_
    rw [Res.formed_done]
    repeat' split
    all_goals simpa using hr
  | stop | stopOn | ue | hold => exact hr

@[simp] theorem Iss.load_formed (ins : Instr) (x : LdA) (accs : List Acc) (lim : Nat → Nat) (occ : Nat) :
    (I.load ins x accs lim occ).Formed := by
  unfold Iss.load
  refine Res.ite_formed (Iss.access_formed hI ..) ?_
  dsimp only
  split
  · trivial
  · refine Res.ite_formed (Iss.access_formed hI ..) (Res.ite_formed hI ?_)
    simp [hI]

@[simp] theorem Iss.loadV_formed (ins : Instr) (x : LdA) : (I.loadV ins x).Formed := by
  unfold Iss.loadV
  exact Iss.load_formed hI ..

@[simp] theorem Iss.store_formed (ins : Instr) (accs : List Acc) (marked : List Nat) (occ : Nat) : (I.store ins accs marked occ).Formed :=
  Iss.commits_formed (Iss.access_formed hI ..)

@[simp] theorem Iss.atomic_formed (ins : Instr) (accs : List Acc) (marked : List Nat) (occ : Nat) : (I.atomic ins accs marked occ).Formed :=
  Iss.commits_formed (Iss.access_formed hI ..)

@[simp] theorem Iss.token_formed (ins : Instr) (a : Fin 126) (b : Elem) (root : Bool) : (I.token ins a b root).Formed := by
  refine Res.ite_formed hI (Res.ite_formed trivial ?_)
  dsimp only
  split
  · trivial
  · split
    · simpa using hI
    · trivial
  · split <;> simpa using hI

@[simp] theorem Iss.wait_formed (ins : Instr) (x : WaitA) : (I.wait ins x).Formed := by
  refine Res.ite_formed hI (Res.ite_formed trivial (Res.ite_formed hI ?_))
  dsimp only
  split
  · next s e h =>
    have ha := Iss.access_formed hI { I.op ins (I.wordAcc x.a) with
      args := [(I.sval x.zx x.b).val], limit := if x.lsel = 0 then none else some (I.t + max 4 (I.wlim x.lsel.val)) } false []
      { comp := .later (gdest x.d != .none), unit := .lsu, charge := 4 }
    rw [h] at ha
    exact (State.formed_postWaitLimit ..).mpr ha
  · exact Iss.access_formed hI ..

@[simp] theorem Iss.tileMem_formed (ins : Instr) (x : TileMemA) (store : Bool) : (I.tileMem ins x store).Formed := by
  unfold Iss.tileMem
  refine Res.ite_formed hI ?_
  dsimp only
  split
  · trivial
  · exact Res.ite_formed ((State.formed_addOp ..).mpr hI) trivial
  · generalize hn : (if List.all _ _ = true then ((0 : Nat), I.s) else I.s.freeNat) = n
    have hf : n.2.Formed := by
      rw [← hn]
      cases List.all _ _
      · exact I.s.formed_freeNat.mpr hI
      · exact hI
    split
    · refine Iss.commits_formed ?_
      rw [Res.formed_done]
      split <;> simpa using hf
    · rw [Res.formed_done]
      split <;> simpa using hf

@[simp] theorem Iss.tileOp_formed (ins : Instr) (ts : List Nat) (bad : Bool) (charge : Nat) : (I.tileOp ins ts bad charge).Formed :=
  Res.ite_formed hI (Res.ite_formed trivial (by simpa using hI))

@[simp] theorem Iss.accGroup_formed (marked : Bool) (cause : Option Cause) {go : Res} (hgo : go.Formed) :
    (I.accGroup marked cause go).Formed := by
  refine Res.ite_formed hI (Res.ite_formed trivial ?_)
  split
  · trivial
  · exact hgo

@[simp] theorem Iss.accOp_formed (ins : Instr) (args : List Word) (vargs : List VReg) (act : Lanes) (e : Eff) :
    (I.accOp ins args vargs act e).Formed := by
  simpa [Iss.accOp] using hI

omit hI in
@[simp] theorem Iss.instant_formed {s : State} (hs : s.Formed) (ins : Instr) (args : List Word) (ws : List RegWrite) (lam : Nat) :
    (I.instant s ins args ws lam).Formed := by
  simpa [Iss.instant] using hs

@[simp] theorem Iss.accMove_formed (ins : Instr) (x : AcMoveA) (load : Bool) : (I.accMove ins x load).Formed := by
  refine Res.ite_formed hI (Res.orUeIf_formed _ (Res.ite_formed trivial (Res.ite_formed trivial ?_)))
  dsimp only
  split
  · trivial
  · refine Res.ite_formed trivial (Iss.accOp_formed ?_ ..)
    simpa using hI

@[simp] theorem Iss.engine_formed (ins : Instr) (marks : List Nat) (ue held : Bool) (args : List Word) (charge : Nat) (result : Bool) :
    (I.engine ins marks ue held args charge result).Formed := by
  refine Res.ite_formed hI ?_
  dsimp only
  split
  · exact Res.ite_formed trivial (Res.ite_formed ((State.formed_addOp ..).mpr hI) trivial)
  · exact Res.ite_formed hI (State.engStart_formed ((State.formed_addOp ..).mpr hI) ..)

@[simp] theorem Iss.later2_formed (ins : Instr) (args : List Word) (result : Bool) : (I.later2 ins args result).Formed := by
  simpa [Iss.later2] using hI

@[simp] theorem Iss.swrTile_formed (i : Nat) (w : Word) (cs : List Cause) : (I.swrTile i w cs).Formed := by
  unfold Iss.swrTile
  dsimp only
  split
  · trivial
  · trivial
  · split
    · split <;> simpa using hI
    · exact hI

end

end Sys2Proof.Machine
end

section
/-! SUPPORT. Every instruction of a program keeps the canonical form of memory. -/

namespace Sys2Proof.Machine

open Sys2Proof

@[simp] theorem Iss.n8_formed {I : Iss} (hI : I.s.Formed) (bad : Nat → Bool) : (I.n8 bad).Formed := by
  unfold Iss.n8
  split <;> simp [hI]

section
variable {s : State} (hw : s.Formed)
include hw

theorem execDqblk_formed (x : BlkA) : FormedNext (execDqblk x s) :=
  issue_formed hw fun _ hJ => Res.orUeIf_formed _ (Iss.n8_formed hJ _)

theorem execUnpk4_formed (x : UnpkA) : FormedNext (execUnpk4 x s) :=
  issue_formed hw fun _ hJ => Iss.n8_formed hJ _

theorem execPref_formed (x : PrefA) : FormedNext (execPref x s) := by
  refine issue_formed hw fun J hJ => ?_
  dsimp only
  split
  · trivial
  · exact State.foldl_formed (fun s a hs => State.prefetchLine_formed hs ..) hJ

theorem execAcalloc_formed (x : AcMaskA) : FormedNext (execAcalloc x s) :=
  issue_formed hw fun J hJ => Iss.accGroup_formed hJ _ _ (Iss.instant_formed (State.foldl_formed (fun s p hs => by simpa using hs) hJ) ..)

theorem execAcfree_formed (x : AcMaskA) : FormedNext (execAcfree x s) :=
  issue_formed hw fun J hJ => Iss.accGroup_formed hJ _ _ (Res.ite_formed (Iss.instant_formed hJ ..)
    (Iss.accOp_formed (State.foldl_formed (fun s p hs => by simpa using hs) hJ) ..))

theorem execAcscale_formed (x : AcScaleA) : FormedNext (execAcscale x s) :=
  issue_formed hw fun _ hJ => Res.orUeIf_formed _ (Iss.accGroup_formed hJ _ _ (Iss.accOp_formed ((State.formed_escape ..).mpr hJ) ..))

theorem execMsend_formed (x : MsendA) : FormedNext (execMsend x s) := by
  refine issue_formed hw fun J hJ => ?_
  dsimp only
  split
  · next t e h =>
    have he : (Res.done t e).Formed := by
      rw [← h]
      exact Iss.engine_formed hJ ..
    exact (State.formed_escape ..).mpr he
  · exact Iss.engine_formed hJ ..

theorem execBrd_formed (x : BrA) : FormedNext (execBrd x s) := by
  refine issue_formed hw fun J hJ => ?_
  split <;> simp [hJ]

theorem execCall_formed (x : BrDA) : FormedNext (execCall x s) := by
  refine issue_formed hw fun J hJ => ?_
  split <;> simp [hJ]

theorem execPlog_formed (x : PlogA) : FormedNext (execPlog x s) := by
  refine issue_formed hw fun J hJ => ?_
  split <;> simp [hJ]

theorem execPany_formed (x : PqA) : FormedNext (execPany x s) := by
  refine issue_formed hw fun J hJ => ?_
  split <;> simp [hJ]

theorem execPall_formed (x : PqA) : FormedNext (execPall x s) := by
  refine issue_formed hw fun J hJ => ?_
  split <;> simp [hJ]

theorem execPfld_formed (x : PfldA) : FormedNext (execPfld x s) := by
  refine issue_formed hw fun J hJ => ?_
  split <;> simp [hJ]

theorem execLds_formed (x : LdA) : FormedNext (execLds x s) := by
  refine issue_formed hw fun J hJ => ?_
  split <;> simp [hJ]

theorem execSts_formed (x : StA) : FormedNext (execSts x s) := by
  refine issue_formed hw fun J hJ => ?_
  split <;> simp [hJ]

theorem execTkquery_formed (x : TkqA) : FormedNext (execTkquery x s) := by
  refine issue_formed hw fun J hJ => ?_
  split <;> simp [hJ]

theorem execBar_formed (x : BarA) : FormedNext (execBar x s) := by
  refine issue_formed hw fun J hJ => ?_
  split <;> simp [hJ]

theorem execWparr_formed (x : WparrA) : FormedNext (execWparr x s) := by
  refine issue_formed hw fun J hJ => ?_
  split <;> simp [hJ]

theorem execFence_formed (x : FenceA) : FormedNext (execFence x s) := by
  refine issue_formed hw fun J hJ => ?_
  split <;> simp [hJ]

theorem execMcheck_formed (x : McheckA) : FormedNext (execMcheck x s) := by
  refine issue_formed hw fun J hJ => ?_
  split <;> simp [hJ]

theorem execTrap_formed (x : TrapA) : FormedNext (execTrap x s) := by
  refine issue_formed hw fun J hJ => ?_
  split <;> simp [hJ]

theorem execBrx_formed (x : SrcA) : FormedNext (execBrx x s) := by
  refine issue_formed hw fun J hJ => ?_
  dsimp only
  repeat' split
  all_goals simp [hJ]

theorem execRet_formed (x : SrcA) : FormedNext (execRet x s) := by
  refine issue_formed hw fun J hJ => ?_
  dsimp only
  repeat' split
  all_goals simp [hJ]

theorem execLoop_formed (x : BrDA) : FormedNext (execLoop x s) := by
  refine issue_formed hw fun J hJ => ?_
  dsimp only
  repeat' split
  all_goals simp [hJ]

theorem execScmp_formed (x : CmpA) : FormedNext (execScmp x s) := by
  refine issue_formed hw fun J hJ => ?_
  dsimp only
  repeat' split
  all_goals simp [hJ]

theorem execPmov_formed (x : PmovA) : FormedNext (execPmov x s) := by
  refine issue_formed hw fun J hJ => ?_
  dsimp only
  repeat' split
  all_goals simp [hJ]

theorem execPadd_formed (x : PaddA) : FormedNext (execPadd x s) := by
  refine issue_formed hw fun J hJ => ?_
  dsimp only
  repeat' split
  all_goals simp [hJ]

theorem execPtag_formed (x : PtagA) : FormedNext (execPtag x s) := by
  refine issue_formed hw fun J hJ => ?_
  dsimp only
  repeat' split
  all_goals simp [hJ]

theorem execPcmp_formed (x : PcmpA) : FormedNext (execPcmp x s) := by
  refine issue_formed hw fun J hJ => ?_
  dsimp only
  repeat' split
  all_goals simp [hJ]

theorem execLimset_formed (x : LimA) : FormedNext (execLimset x s) := by
  refine issue_formed hw fun J hJ => ?_
  dsimp only
  repeat' split
  all_goals simp [hJ]

theorem execKdemand_formed (x : KsetA) : FormedNext (execKdemand x s) := by
  refine issue_formed hw fun J hJ => ?_
  dsimp only
  repeat' split
  all_goals simp [hJ]

theorem execTktake_formed (x : TkA) : FormedNext (execTktake x s) := by
  refine issue_formed hw fun J hJ => ?_
  dsimp only
  repeat' split
  all_goals simp [hJ]

theorem execGbar_formed (x : BarA) : FormedNext (execGbar x s) := by
  refine issue_formed hw fun J hJ => ?_
  dsimp only
  repeat' split
  all_goals simp [hJ]

theorem execMtask_formed (x : MtaskA) : FormedNext (execMtask x s) := by
  refine issue_formed hw fun J hJ => ?_
  dsimp only
  repeat' split
  all_goals simp [hJ]

theorem execMtaskm_formed (x : MtaskmA) : FormedNext (execMtaskm x s) := by
  refine issue_formed hw fun J hJ => ?_
  dsimp only
  repeat' split
  all_goals simp [hJ]

theorem execAsdef_formed (x : AsdefA) : FormedNext (execAsdef x s) := by
  refine issue_formed hw fun J hJ => ?_
  dsimp only
  repeat' split
  all_goals simp [hJ]

theorem execAsgo_formed (x : St1A) : FormedNext (execAsgo x s) := by
  refine issue_formed hw fun J hJ => ?_
  dsimp only
  repeat' split
  all_goals simp [hJ]

theorem execAsstop_formed (x : UnA) : FormedNext (execAsstop x s) := by
  refine issue_formed hw fun J hJ => ?_
  dsimp only
  repeat' split
  all_goals simp [hJ]

theorem execQpop_formed (x : QpopA) : FormedNext (execQpop x s) := by
  refine issue_formed hw fun J hJ => ?_
  dsimp only
  repeat' split
  all_goals simp [hJ]

theorem execSrd_formed (x : SrdA) : FormedNext (execSrd x s) := by
  refine issue_formed hw fun J hJ => ?_
  dsimp only
  repeat' split
  all_goals simp [hJ]

theorem execSwr_formed (x : SwrA) : FormedNext (execSwr x s) := by
  refine issue_formed hw fun J hJ => ?_
  dsimp only
  repeat' split
  all_goals simp [hJ]

theorem execSpawn_formed (x : SpawnA) : FormedNext (execSpawn x s) := by
  refine issue_formed hw fun J hJ => ?_
  dsimp only
  repeat' split
  all_goals simp [hJ]

theorem execLaunch_formed (x : LaunchA) : FormedNext (execLaunch x s) := by
  refine issue_formed hw fun J hJ => ?_
  dsimp only
  repeat' split
  all_goals simp [hJ]

theorem execTbinv_formed (x : TbinvA) : FormedNext (execTbinv x s) := by
  refine issue_formed hw fun J hJ => ?_
  dsimp only
  repeat' split
  all_goals simp [hJ]

theorem execPlacew_formed (x : PlacewA) : FormedNext (execPlacew x s) := by
  refine issue_formed hw fun J hJ => ?_
  dsimp only
  repeat' split
  all_goals simp [hJ]

theorem execFinj_formed (x : FinjA) : FormedNext (execFinj x s) := by
  refine issue_formed hw fun J hJ => ?_
  dsimp only
  repeat' split
  all_goals simp [hJ]

/-- An instruction of a program keeps the form: its body takes effect on the state it is issued on, or stops, or is held there. -/
theorem exec_code_formed {i : Instr} (hi : i.isCode = true) : FormedNext (exec i s) := by
  cases i
  case brd => exact execBrd_formed hw ..
  case call => exact execCall_formed hw ..
  case plog => exact execPlog_formed hw ..
  case pany => exact execPany_formed hw ..
  case pall => exact execPall_formed hw ..
  case pfld => exact execPfld_formed hw ..
  case lds => exact execLds_formed hw ..
  case sts => exact execSts_formed hw ..
  case tkquery => exact execTkquery_formed hw ..
  case bar => exact execBar_formed hw ..
  case wparr => exact execWparr_formed hw ..
  case fence => exact execFence_formed hw ..
  case mcheck => exact execMcheck_formed hw ..
  case trap => exact execTrap_formed hw ..
  case brx => exact execBrx_formed hw ..
  case ret => exact execRet_formed hw ..
  case loop => exact execLoop_formed hw ..
  case scmp => exact execScmp_formed hw ..
  case pmov => exact execPmov_formed hw ..
  case padd => exact execPadd_formed hw ..
  case ptag => exact execPtag_formed hw ..
  case pcmp => exact execPcmp_formed hw ..
  case limset => exact execLimset_formed hw ..
  case kdemand => exact execKdemand_formed hw ..
  case tktake => exact execTktake_formed hw ..
  case gbar => exact execGbar_formed hw ..
  case mtask => exact execMtask_formed hw ..
  case mtaskm => exact execMtaskm_formed hw ..
  case asdef => exact execAsdef_formed hw ..
  case asgo => exact execAsgo_formed hw ..
  case asstop => exact execAsstop_formed hw ..
  case qpop => exact execQpop_formed hw ..
  case srd => exact execSrd_formed hw ..
  case swr => exact execSwr_formed hw ..
  case spawn => exact execSpawn_formed hw ..
  case launch => exact execLaunch_formed hw ..
  case tbinv => exact execTbinv_formed hw ..
  case placew => exact execPlacew_formed hw ..
  case finj => exact execFinj_formed hw ..
  case dqblk => exact execDqblk_formed hw ..
  case unpk4 => exact execUnpk4_formed hw ..
  case pref => exact execPref_formed hw ..
  case acalloc => exact execAcalloc_formed hw ..
  case acfree => exact execAcfree_formed hw ..
  case acscale => exact execAcscale_formed hw ..
  case msend => exact execMsend_formed hw ..
  case nop | bra | splq | exit | vadd | vsub | vmul | vmulh | vmad | vand | vor | vxor | vnot | vshl | vshr | vsar | vmin | vmax | vabs |
      vneg | vcmp | vsel | vmov | vpopc | vclz | vbfe | vbfi | vdot4 | fadd | fsub | fmul | ffma | fmin | fmax | fcmp | fclass | fscale |
      frnd | fdot2 | frcp | frsq | fsqrt | fexp2 | flog2 | fsin | fcos | ftanh | cvt | cvtef | qblk | pack4 | vred | vscan | ballot |
      ktest | kmark | kstat =>
    exact issue_formed hw fun _ hJ => Iss.ok_formed hJ _
  case sadd | ssub | smul | smulh | smad | sdiv | sand | sor | sxor | sshl | sshr | ssar | smin | smax | sabs | smov | ssel | spopc |
      sclz | sbfe | sbfi | pcnt =>
    exact issue_formed hw fun _ hJ => Iss.scalarOp_formed hJ ..
  case ld | ldg =>
    exact issue_formed hw fun _ hJ => Iss.loadV_formed hJ ..
  case st | stg =>
    exact issue_formed hw fun _ hJ => Iss.store_formed hJ ..
  case ldl | stl =>
    exact issue_formed hw fun _ hJ => Iss.access_formed hJ ..
  case tklend | tkret | tksplit | tkjoin | tkshare | tkunshare | tkhome | tkunhome | tkadopt =>
    exact issue_formed hw fun _ hJ => Iss.token_formed hJ ..
  case wpwait | waita =>
    exact issue_formed hw fun _ hJ => Iss.wait_formed hJ ..
  case tzero | tmov | txp =>
    exact issue_formed hw fun _ hJ => Iss.tileOp_formed hJ ..
  case trail | shfl | vbcast | kaccept | kabandon | atom | atoms | tld | tst | acband | acdrain | acload | aczero | mstat | copy |
      ringset | arm | disarm | gattach | gdetach =>
    refine issue_formed hw fun J hJ => ?_
    simp [hJ]
  all_goals simp only [Instr.isCode, Bool.false_eq_true] at hi

end

end Sys2Proof.Machine
end

section
/-! SUPPORT. Every event of the module keeps the canonical form of memory. -/

namespace Sys2Proof.Machine

open Sys2Proof

section
variable {s : State} (hw : s.Formed)
include hw

omit hw in
theorem State.getD_formed {o : Option State} {d : State} (ho : ∀ t ∈ o, t.Formed) (hd : d.Formed) : (o.getD d).Formed := by
  cases o with
  | none => exact hd
  | some t => exact ho t rfl

theorem State.crewFlush_formed (ctx : Nat) (k : Crew) : ∀ p ∈ s.crewFlush ctx k, p.2.Formed := by
  intro p hp
  unfold State.crewFlush at hp
  dsimp only at hp
  split at hp
  · cases hp
  · cases hp
    exact State.flushAll_formed hw ..

theorem State.admitAfterFlush_formed (ctx i : Nat) (l : Leg) {t : State} (ht : t.Formed) : (s.admitAfterFlush ctx i l t).Formed := by
  unfold State.admitAfterFlush
  split
  · dsimp only
    repeat' split
    all_goals simp [hw, ht]
  · exact ht

theorem State.manage_formed {name : String} {f : BitVec 8 → Bool} {work : Dgram → State → BitVec 8 × List Byte × State}
    (hf : ∀ x t, t.Formed → (work x t).2.2.Formed) : FormedNext (s.manage name f work) := by
  unfold State.manage
  split
  · simp
  · exact formedNext_next.mpr (State.serve_formed hw (hf _) _)

theorem illegal_formed (k : Cause) : FormedNext (illegal s k) := by
  unfold illegal
  split
  · simp
  · next I hI =>
    obtain ⟨-, -, -, hfresh, -⟩ := State.issuer_spec hI
    rw [formedNext_next, Iss.halt, hfresh]
    simp [hw]

theorem execGroupPick_formed (c : Nat) : FormedNext (execGroupPick c s) := by
  unfold execGroupPick
  dsimp only
  repeat' split
  all_goals simp [hw]

theorem execRunLimitEnd_formed (c g : Nat) : FormedNext (execRunLimitEnd c g s) := by
  unfold execRunLimitEnd
  repeat' split
  all_goals simp [hw]

theorem execIcacheLineArrival_formed (c : Nat) : FormedNext (execIcacheLineArrival c s) := by
  unfold execIcacheLineArrival
  split <;> simp [hw]

theorem execResultLanding_formed (c g id : Nat) : FormedNext (execResultLanding c g id s) := by
  unfold execResultLanding
  repeat' split
  all_goals simp [hw]

theorem execLimitExpiry_formed (c id : Nat) : FormedNext (execLimitExpiry c id s) := by
  unfold execLimitExpiry
  split <;> simp [hw]

theorem execLoadLanding_formed (c id : Nat) : FormedNext (execLoadLanding c id s) := by
  unfold execLoadLanding
  dsimp only
  repeat' split
  all_goals simp [hw]

theorem execLateValueArrival_formed (c id : Nat) : FormedNext (execLateValueArrival c id s) := by
  unfold execLateValueArrival
  split <;> simp [hw]

theorem execPageWalkComplete_formed (q id : Nat) : FormedNext (execPageWalkComplete q id s) := by
  have hmark (s : State) (ctx va : Nat) (hs : s.Formed) : (s.walkMark ctx va).2.Formed := (s.formed_walkMark ctx va).mpr hs
  obtain ⟨mark, hm⟩ : ∃ f, State.walkMark = f := ⟨_, rfl⟩
  unfold execPageWalkComplete
  rw [hm] at hmark ⊢
  split
  · simp
  · next w _ =>
    have hs : ((s.modQuad q fun x => { x with walks := x.walks.filter fun v => v.id != id }).nextWalk q).Formed := by simp [hw]
    have ht := hmark _ w.ctx w.va hs
    dsimp only
    generalize mark _ w.ctx w.va = r at ht ⊢
    obtain ⟨_ | _, t⟩ := r
    · simpa using ht
    · exact FormedNext.ite (by simpa using ht) (by simpa using ht)

theorem execAccessCheckComplete_formed (c id : Nat) : FormedNext (execAccessCheckComplete c id s) := by
  unfold execAccessCheckComplete
  repeat' split
  all_goals simp [hw]

theorem execStoreBufferDrain_formed (ctx crew : Nat) : FormedNext (execStoreBufferDrain ctx crew s) := by
  unfold execStoreBufferDrain
  repeat' split
  all_goals simp [hw]

theorem execBarArrivalRegister_formed (c id : Nat) : FormedNext (execBarArrivalRegister c id s) := by
  unfold execBarArrivalRegister
  repeat' split
  all_goals simp [hw]

theorem execGbarArrivalRegister_formed (c id : Nat) : FormedNext (execGbarArrivalRegister c id s) := by
  unfold execGbarArrivalRegister
  repeat' split
  all_goals simp [hw]

theorem execMonitorReread_formed (c id : Nat) : FormedNext (execMonitorReread c id s) := by
  have hread (w : Who) (l : Look) (n : Nat) : (s.readAt w l n).2.Formed := State.readAt_formed hw w l n
  unfold execMonitorReread
  obtain ⟨look, hl⟩ : ∃ f, State.look = f := ⟨_, rfl⟩
  rw [hl]
  split
  · simp
  · split
    · dsimp only
      split
      · next h => exact formedNext_next.mpr (State.waitTry_formed hw _ _ _ _ _ h)
      · split
        · simp [hw]
        · simp [hw]
        · simp [hw]
        · simp [hw]
        · refine FormedNext.ite (by simp [hread]) ?_
          split
          · next h => exact formedNext_next.mpr (State.waitTry_formed (hread ..) _ _ _ _ _ h)
          · simp [hread]
    · simp

theorem execWaitLimitExpiry_formed (c id : Nat) : FormedNext (execWaitLimitExpiry c id s) := by
  unfold execWaitLimitExpiry
  split
  · simp
  · refine FormedNext.ite ?_ (by simp)
    dsimp only
    split
    · next h => exact formedNext_next.mpr (State.waitTry_formed hw _ _ _ _ _ h)
    · simp [hw]

theorem execAonLimitExpiry_formed (c id : Nat) : FormedNext (execAonLimitExpiry c id s) := by
  unfold execAonLimitExpiry
  repeat' split
  all_goals simp [hw]

theorem execTokenOpAtHome_formed (c id : Nat) : FormedNext (execTokenOpAtHome c id s) := by
  unfold execTokenOpAtHome
  dsimp only
  repeat' split
  all_goals simp [hw]

theorem execTktakeComplete_formed (c id : Nat) : FormedNext (execTktakeComplete c id s) := by
  unfold execTktakeComplete
  dsimp only
  repeat' split
  all_goals simp [hw]

theorem execLentStallRelease_formed (c id : Nat) : FormedNext (execLentStallRelease c id s) := by
  unfold execLentStallRelease
  repeat' split
  all_goals simp [hw]

theorem execTileOpComplete_formed (c id : Nat) : FormedNext (execTileOpComplete c id s) := by
  unfold execTileOpComplete
  repeat' split
  all_goals simp [hw]

theorem execTaskStart_formed (c id : Nat) : FormedNext (execTaskStart c id s) := by
  unfold execTaskStart
  dsimp only
  repeat' split
  all_goals simp [hw]

theorem execTaskComplete_formed (c id : Nat) : FormedNext (execTaskComplete c id s) := by
  unfold execTaskComplete
  dsimp only
  split
  · simp
  · refine FormedNext.ite (by simp) (FormedNext.ite ?_ (FormedNext.ite ?_ ?_))
    all_goals simp [hw]

theorem execEngineSelfTest_formed (c e : Nat) : FormedNext (execEngineSelfTest c e s) := by
  unfold execEngineSelfTest
  dsimp only
  repeat' split
  all_goals simp [hw]

theorem execEngineFaultPause_formed (c e : Nat) : FormedNext (execEngineFaultPause c e s) := by
  unfold execEngineFaultPause
  repeat' split
  all_goals simp [hw]

theorem execEngineOpComplete_formed (c e : Nat) : FormedNext (execEngineOpComplete c e s) := by
  unfold execEngineOpComplete
  repeat' split
  all_goals simp [hw]

theorem execPacketNack_formed (c id : Nat) (unserved : List Nat) : FormedNext (execPacketNack c id unserved s) := by
  unfold execPacketNack
  dsimp only
  repeat' split
  all_goals simp [hw]

theorem execPacketResend_formed (c id : Nat) : FormedNext (execPacketResend c id s) := by
  unfold execPacketResend
  split
  · simp [hw]
  · split
    · simp
    · refine formedNext_next.mpr ((State.formed_engAsk ..).mpr (State.foldl_formed (fun s k hs => ?_) hw))
      exact (State.formed_modForks ..).mpr (State.engReach_formed hs ..)

theorem execMessageArrival_formed (c id : Nat) : FormedNext (execMessageArrival c id s) := by
  unfold execMessageArrival
  dsimp only
  repeat' split
  all_goals simp [hw]

theorem execTaggedMessageArrival_formed (c id : Nat) : FormedNext (execTaggedMessageArrival c id s) := by
  unfold execTaggedMessageArrival
  obtain ⟨word, hword⟩ : ∃ f, State.virtWord = f := ⟨_, rfl⟩
  rw [hword]
  split
  · simp
  · next q _ =>
    split
    · simp [hw]
    · simp
    · refine FormedNext.ite (by simp [hw]) (FormedNext.ite (by simp [hw]) (FormedNext.ite (by simp [hw]) ?_))
      split
      · simp [hw]
      · next t _ =>
        dsimp only
        split
        · refine FormedNext.ite (by simp [hw]) (formedNext_next.mpr ?_)
          have hm := (s.formed_markWalks q.ctx t.ring 12).mpr hw
          exact State.getD_formed (State.fireTag_formed hm _ _ _ _ _ _ _) ((State.formed_sendAgain ..).mpr hm)
        · simp [hw]

theorem execStreamElementRead_formed (c n : Nat) : FormedNext (execStreamElementRead c n s) := by
  have hreach {s : State} (hw : s.Formed) (w : Who) (p : Ptr) : (s.engReach w p).2.Formed := State.engReach_formed hw ..
  obtain ⟨reach, hr⟩ : ∃ f, State.engReach = f := ⟨_, rfl⟩
  unfold execStreamElementRead
  rw [hr] at hreach ⊢
  split
  · simp
  · refine FormedNext.ite (by simp) (FormedNext.ite (by simp [hw]) ?_)
    dsimp only
    simp [hw, hreach]

theorem execStreamElementArrival_formed (c n id : Nat) : FormedNext (execStreamElementArrival c n id s) := by
  unfold execStreamElementArrival
  split
  · simp
  · next e op _ =>
    dsimp only
    generalize ({ (Option.map (fun G : Group => G.who c) _).getD _ with num := some id } : Who) = w
    have hl := State.lookNow_formed hw w e.ptr (eszBytes e.esz) (eszBytes e.esz) false
    generalize s.lookNow w e.ptr (eszBytes e.esz) (eszBytes e.esz) false = r at hl ⊢
    obtain ⟨l, t⟩ := r
    cases l <;> simp [show t.Formed from hl]

theorem execGdetachComplete_formed (c id : Nat) : FormedNext (execGdetachComplete c id s) := by
  unfold execGdetachComplete
  dsimp only
  repeat' split
  all_goals simp [hw]

theorem execCrewExitRelease_formed (ctx crew : Nat) : FormedNext (execCrewExitRelease ctx crew s) := by
  unfold execCrewExitRelease
  split
  · simp
  · next k _ =>
    split
    · exact FormedNext.ite (formedNext_refused _) (by simp [hw])
    · exact FormedNext.ite (formedNext_refused _) (by simp [hw])
    · split
      · simp [hw]
      · next h =>
        have ht := State.crewFlush_formed hw ctx k _ h
        simpa using ht
    · simp

theorem execLegAdmission_formed (ctx : Nat) : FormedNext (execLegAdmission ctx s) := by
  unfold execLegAdmission
  dsimp only
  split
  · simp
  · split
    · simp
    · next l _ =>
      refine FormedNext.ite (formedNext_refused _) ?_
      generalize ht : State.markWalks _ ctx l.lr.addr 512 = t
      have hm : t.Formed := by simp [← ht, hw]
      have hd : (match l.lr.deal with
          | some p => t.markDeal ctx l.launcher p
          | none => t).Formed := by
        split
        · exact (State.formed_markDeal ..).mpr hm
        · exact hm
      split
      · next u hu =>
        have huf := State.admitLeg_formed hd _ _ u hu
        refine formedNext_next.mpr (State.admitAfterFlush_formed hw _ _ _ ?_)
        simpa using huf
      · exact formedNext_next.mpr ((State.formed_postNow ..).mpr ((State.formed_wakeRegions _).mpr (State.finishLeg_formed hd ..)))

theorem execCrewStart_formed (ctx crew : Nat) : FormedNext (execCrewStart ctx crew s) := by
  unfold execCrewStart
  dsimp only
  repeat' split
  all_goals simp [hw]

theorem execGangReservation_formed (ctx gang : Nat) : FormedNext (execGangReservation ctx gang s) := by
  unfold execGangReservation
  dsimp only
  split
  · simp
  · split
    · simp
    · refine FormedNext.ite (formedNext_refused _) ?_
      split
      · simp
      · next h => exact formedNext_next.mpr ((State.formed_startAll ..).mpr (State.placeAll_formed hw _ _ _ _ _ h))

theorem execLegComplete_formed (ctx leg : Nat) : FormedNext (execLegComplete ctx leg s) := by
  unfold execLegComplete
  repeat' split
  all_goals simp [hw]

theorem execPreemptDeadlineExpiry_formed (ctx quad : Nat) : FormedNext (execPreemptDeadlineExpiry ctx quad s) := by
  unfold execPreemptDeadlineExpiry
  dsimp only
  repeat' split
  all_goals simp [hw]

theorem execQuiescePoint_formed (c : Nat) : FormedNext (execQuiescePoint c s) := by
  unfold execQuiescePoint
  repeat' split
  all_goals simp [hw]

theorem execCrewSave_formed (ctx crew : Nat) : FormedNext (execCrewSave ctx crew s) := by
  unfold execCrewSave
  dsimp only
  split
  · simp [hw]
  · next k _ =>
    refine FormedNext.ite (by simp [hw]) (FormedNext.ite (by simp [hw]) ?_)
    split
    · split
      · exact FormedNext.ite (by simp [hw]) (by simp [hw])
      · split
        · simp [hw]
        · next h =>
          have ht := State.crewFlush_formed hw ctx k _ h
          exact FormedNext.ite (by simpa using State.saveCrew_formed ht ..) (by simpa using ht)
    · simp [hw]

theorem execErrorEvent_formed (u : UnitId) (corrected : Bool) (loc : Option ErrLoc) : FormedNext (execErrorEvent u corrected loc s) := by
  unfold execErrorEvent
  split <;> simp [hw]

theorem execErrorWindowExpiry_formed (die : Nat) : FormedNext (execErrorWindowExpiry die s) :=
  FormedNext.ite (formedNext_next.mpr ⟨hw.wf⟩) (formedNext_refused _)

theorem execCoreLoss_formed (c : Nat) : FormedNext (execCoreLoss c s) := by
  unfold execCoreLoss
  refine FormedNext.ite (formedNext_refused _) (formedNext_next.mpr ?_)
  dsimp only
  rw [State.formed_retryAll, State.formed_wakeRegions]
  refine State.foldl_formed (fun s x hs => State.placeRemove_formed hs ..) ((State.formed_modCore ..).mpr ?_)
  refine State.foldl_formed (fun s x hs => (State.formed_failTokens ..).mpr hs) ?_
  refine State.foldl_formed (fun s p hs => State.ite_formed (State.rollback_formed hs ..) ((State.formed_modCtx ..).mpr hs)) ?_
  have ha := State.answerLost_formed hw c
  refine (State.formed_modCore ..).mpr ?_
  rw [State.formed_mk]
  exact ha.wf

theorem execCrewRelaunch_formed (ctx crew : Nat) : FormedNext (execCrewRelaunch ctx crew s) := by
  unfold execCrewRelaunch
  split
  · simp
  · split
    · simp
    · refine FormedNext.ite (formedNext_refused _) ?_
      split
      · simp
      · next h => exact formedNext_next.mpr ((State.formed_startAll ..).mpr (State.placeAll_formed hw _ _ _ _ _ h))

theorem execGrantUpdate_formed (quad : Nat) (grants : List (BitVec 8)) : FormedNext (execGrantUpdate quad grants s) := by
  unfold execGrantUpdate
  split <;> simp [hw]

theorem execGroupUnpark_formed (c : Nat) : FormedNext (execGroupUnpark c s) := by
  unfold execGroupUnpark
  dsimp only
  repeat' split
  all_goals simp [hw]

theorem execStepRaise_formed (q : Nat) : FormedNext (execStepRaise q s) := by
  unfold execStepRaise
  dsimp only
  repeat' split
  all_goals simp [hw]

theorem execStepLower_formed (q : Nat) : FormedNext (execStepLower q s) := by
  unfold execStepLower
  dsimp only
  repeat' split
  all_goals simp [hw]

theorem execVoltageFall_formed (q : Nat) : FormedNext (execVoltageFall q s) := by
  unfold execVoltageFall
  repeat' split
  all_goals simp [hw]

theorem execGddrTempReport_formed (dev : Nat) (t : BitVec 8) : FormedNext (execGddrTempReport dev t s) := by
  refine FormedNext.ite (formedNext_refused _) (formedNext_next.mpr (State.ite_formed (State.tellThermal_formed ?_ ..) ⟨hw.wf⟩))
  exact ⟨hw.wf⟩

theorem execThermalCapStep_formed (q : Nat) (js : List (BitVec 8)) : FormedNext (execThermalCapStep q js s) := by
  unfold execThermalCapStep
  dsimp only
  repeat' split
  all_goals simp [hw]

theorem execQuadrantJoin_formed (q : Nat) (js : List (BitVec 8)) : FormedNext (execQuadrantJoin q js s) := by
  unfold execQuadrantJoin
  repeat' split
  all_goals simp [hw]

theorem execQuadrantCalibrated_formed (q : Nat) : FormedNext (execQuadrantCalibrated q s) := by
  unfold execQuadrantCalibrated
  split <;> simp [hw]

theorem execPowerUp_formed (stages : List Image) : FormedNext (execPowerUp stages s) := by
  unfold execPowerUp
  split <;> simp [hw]

theorem execFaultRecordWrite_formed (ctx : Nat) : FormedNext (execFaultRecordWrite ctx s) := by
  unfold execFaultRecordWrite
  dsimp only
  repeat' split
  all_goals simp [hw]

theorem execFaultRecordEnable_formed (ctx : Nat) (val : Word) : FormedNext (execFaultRecordEnable ctx val s) := by
  unfold execFaultRecordEnable
  split <;> simp [hw]

theorem execContextReset_formed (ctx : Nat) : FormedNext (execContextReset ctx s) := by
  unfold execContextReset
  split <;> simp [hw]

theorem execPreemptRequest_formed (ctx : Nat) : FormedNext (execPreemptRequest ctx s) := by
  unfold execPreemptRequest
  split <;> simp [hw]

theorem execQueueLeg_formed (ctx hart : Nat) (val : Word) : FormedNext (execQueueLeg ctx hart val s) := by
  unfold execQueueLeg
  refine FormedNext.ite (by simp) ?_
  dsimp only
  have hm := (s.formed_markWalks ctx (ptrOf (s.ctx ctx).regs.qptr0 (s.ctx ctx).regs.qptr1 val) 512).mpr hw
  split
  · exact formedNext_next.mpr hm
  · next lr _ => 
    refine formedNext_next.mpr (State.getD_formed (State.pushLeg_formed hm _ _) hm)

theorem execHostTbinv_formed (ctx : Nat) (val : Word) : FormedNext (execHostTbinv ctx val s) := by
  unfold execHostTbinv
  split <;> simp [hw]

theorem execTlbInvalidateComplete_formed (id : Nat) : FormedNext (execTlbInvalidateComplete id s) := by
  unfold execTlbInvalidateComplete
  split
  · simp
  · next v _ =>
    have hs : State.Formed { s with invs := s.invs.filter fun u => u.id != id } := ⟨hw.wf⟩
    have hi := State.invalidate_formed hs v
    refine formedNext_next.mpr ?_
    split
    · exact (State.formed_modCtx ..).mpr hi
    · split
      · exact (State.formed_finishOp ..).mpr hi
      · exact hi

theorem execPlaceValueWrite_formed (ctx : Nat) (val : Word) : FormedNext (execPlaceValueWrite ctx val s) := by
  unfold execPlaceValueWrite
  split <;> simp [hw]

theorem execTokenOwn_formed (ctx hart : Nat) (val : Word) : FormedNext (execTokenOwn ctx hart val s) := by
  unfold execTokenOwn
  split <;> simp [hw]

theorem execTokenRelease_formed (ctx hart : Nat) (val : Word) : FormedNext (execTokenRelease ctx hart val s) := by
  unfold execTokenRelease
  split <;> simp [hw]

theorem execTokenHome_formed (ctx hart : Nat) (val : Word) : FormedNext (execTokenHome ctx hart val s) := by
  unfold execTokenHome
  split <;> simp [hw]

theorem execTokenUnhome_formed (ctx hart : Nat) (val : Word) : FormedNext (execTokenUnhome ctx hart val s) := by
  unfold execTokenUnhome
  split <;> simp [hw]

theorem execDebugStep_formed (ctx : Nat) (val : Word) : FormedNext (execDebugStep ctx val s) := by
  unfold execDebugStep
  split <;> simp [hw]

theorem execResumeGroup_formed (ctx : Nat) : FormedNext (execResumeGroup ctx s) :=
  FormedNext.ite (formedNext_next.mpr (State.command_formed hw (fun t ht => by simp [ht]) ctx)) (formedNext_refused _)

theorem execResumeCore_formed (ctx : Nat) : FormedNext (execResumeCore ctx s) :=
  FormedNext.ite (formedNext_next.mpr (State.command_formed hw (fun t ht => by simp [ht]) ctx)) (formedNext_refused _)

theorem execResumeEngine_formed (ctx : Nat) : FormedNext (execResumeEngine ctx s) :=
  FormedNext.ite (formedNext_next.mpr (State.command_formed hw (fun t ht => by simp [ht]) ctx)) (formedNext_refused _)

theorem execSuspendCrew_formed (ctx : Nat) : FormedNext (execSuspendCrew ctx s) :=
  FormedNext.ite (formedNext_next.mpr (State.command_formed hw (fun t ht => by simp [ht]) ctx)) (formedNext_refused _)

theorem execRestoreCrew_formed (ctx : Nat) : FormedNext (execRestoreCrew ctx s) :=
  FormedNext.ite (formedNext_next.mpr (State.command_formed hw (fun t ht => by simp [ht]) ctx)) (formedNext_refused _)

theorem execRegisterWrite_formed (off : Nat) (val : Word) : FormedNext (execRegisterWrite off val s) := by
  refine FormedNext.ite (formedNext_next.mpr hw) (FormedNext.ite (formedNext_next.mpr ⟨hw.wf⟩) (FormedNext.ite ?_ (formedNext_next.mpr hw)))
  exact formedNext_next.mpr (State.writeBlock_formed hw ..)

theorem execHostMemoryAccess_formed (hart pa : Nat) (wr : Option (List Byte)) (len : Nat) :
    FormedNext (execHostMemoryAccess hart pa wr len s) := by
  unfold execHostMemoryAccess
  dsimp only
  repeat' split
  all_goals simp [hw]

theorem execInboundRequest_formed (x : Tlp) : FormedNext (execInboundRequest x s) := by
  unfold execInboundRequest
  refine FormedNext.ite (by simp [hw]) ?_
  split
  · split <;> simp [hw]
  · next ctx _ =>
    dsimp only
    split
    · refine FormedNext.ite (by simp [hw]) (formedNext_next.mpr ((State.formed_post ..).mpr ?_))
      rw [State.formed_mk]
      exact (show State.Formed (State.latency _ _).2 by simp [hw]).wf
    · have ht : (match x.admitted with
        | some a => (a.2, s.inboundWalks ctx x.addr x.len)
        | none => (s.inboundWalks ctx x.addr x.len).fresh).2.Formed := by
        split <;> simp [hw]
      refine FormedNext.ite (formedNext_next.mpr ((State.formed_post ..).mpr ht)) (FormedNext.ite (by simp [hw]) (by simp [hw]))

theorem execPostedWriteRelease_formed (id : Nat) : FormedNext (execPostedWriteRelease id s) := by
  unfold execPostedWriteRelease
  split
  · simp
  · next p _ =>
    have hwalk := (s.formed_inboundWalks p.ctx p.addr p.data.length).mpr hw
    refine FormedNext.ite (formedNext_next.mpr ((State.formed_post ..).mpr hwalk)) (formedNext_next.mpr ?_)
    have hs : State.Formed { s.inboundWalks p.ctx p.addr p.data.length with
      posted := (s.inboundWalks p.ctx p.addr p.data.length).posted.filter fun q => q.id != id } := ⟨hwalk.wf⟩
    exact State.getD_formed (State.inboundWrite_formed hs _ _ _) ((State.formed_emit ..).mpr hs)

theorem execPcieLinkTraining_formed (port : Fin 2) (up : Bool) (rate lanes : Nat) (err : Bool) :
    FormedNext (execPcieLinkTraining port up rate lanes err s) := by
  refine FormedNext.ite (formedNext_refused _) (formedNext_next.mpr (State.ite_formed ((State.formed_emit ..).mpr ⟨hw.wf⟩) ⟨hw.wf⟩))

theorem execMgmtAutoNegotiation_formed (up : Bool) : FormedNext (execMgmtAutoNegotiation up s) := by simp [execMgmtAutoNegotiation, hw]

theorem execMgmtReadTemperatures_formed : FormedNext (execMgmtReadTemperatures s) := by
  refine State.manage_formed hw fun x t ht => ?_
  dsimp only
  split <;> simp [ht]

theorem execMgmtReadEvents_formed : FormedNext (execMgmtReadEvents s) := by
  refine State.manage_formed hw fun x t ht => ?_
  dsimp only
  split <;> simp [ht]

theorem execMgmtSetStepCap_formed : FormedNext (execMgmtSetStepCap s) := by
  refine State.manage_formed hw fun x t ht => ?_
  dsimp only
  split <;> simp [ht]

theorem execMgmtSetHotlim_formed : FormedNext (execMgmtSetHotlim s) := by
  refine State.manage_formed hw fun x t ht => ?_
  dsimp only
  split <;> simp [ht]

theorem execMgmtResetModule_formed : FormedNext (execMgmtResetModule s) := by
  unfold execMgmtResetModule
  split
  · simp
  · have hs (st : BitVec 8) (x : Dgram) := State.serve_formed hw (work := fun s => (st, [], s)) (fun t ht => ht) x
    exact formedNext_next.mpr (State.ite_formed (State.moduleReset_formed (hs ..) _) (hs ..))

theorem execMgmtFirmwareChunk_formed : FormedNext (execMgmtFirmwareChunk s) := by
  refine State.manage_formed hw fun x t ht => ?_
  dsimp only
  split <;> simp [ht]

theorem execMgmtFirmwareCommit_formed : FormedNext (execMgmtFirmwareCommit s) := by
  refine State.manage_formed hw fun x t ht => ?_
  dsimp only
  split
  · simp [ht]
  · split <;> simp [ht]

theorem execMgmtQuote_formed : FormedNext (execMgmtQuote s) := by
  refine State.manage_formed hw fun x t ht => ?_
  dsimp only
  split
  · simp [ht]
  · split
    · exact ht
    · split <;> simp [ht]

theorem execMgmtSetAddress_formed : FormedNext (execMgmtSetAddress s) := by
  refine State.manage_formed hw fun x t ht => ?_
  dsimp only
  split <;> simp [ht]

theorem execMgmtUnknownOp_formed : FormedNext (execMgmtUnknownOp s) := State.manage_formed hw fun _ t ht => t.formed_badPayload.mpr ht

theorem execMgmtArp_formed : FormedNext (execMgmtArp s) := by
  unfold execMgmtArp
  repeat' split
  all_goals simp [hw]

theorem execMgmtIcmpEcho_formed : FormedNext (execMgmtIcmpEcho s) := by
  unfold execMgmtIcmpEcho
  repeat' split
  all_goals simp [hw]

theorem execMgmtDhcp_formed : FormedNext (execMgmtDhcp s) := by
  unfold execMgmtDhcp
  repeat' split
  all_goals simp [hw]

theorem execUnassignedOpcode_formed : FormedNext (execUnassignedOpcode s) := illegal_formed hw _

/-- An event keeps the form. -/
theorem exec_event_formed {e : Instr} (he : e.isCode = false) : FormedNext (exec e s) := by
  cases e
  case groupPick => exact execGroupPick_formed hw ..
  case runLimitEnd => exact execRunLimitEnd_formed hw ..
  case icacheLineArrival => exact execIcacheLineArrival_formed hw ..
  case resultLanding => exact execResultLanding_formed hw ..
  case limitExpiry => exact execLimitExpiry_formed hw ..
  case loadLanding => exact execLoadLanding_formed hw ..
  case lateValueArrival => exact execLateValueArrival_formed hw ..
  case pageWalkComplete => exact execPageWalkComplete_formed hw ..
  case accessCheckComplete => exact execAccessCheckComplete_formed hw ..
  case storeBufferDrain => exact execStoreBufferDrain_formed hw ..
  case barArrivalRegister => exact execBarArrivalRegister_formed hw ..
  case gbarArrivalRegister => exact execGbarArrivalRegister_formed hw ..
  case monitorReread => exact execMonitorReread_formed hw ..
  case waitLimitExpiry => exact execWaitLimitExpiry_formed hw ..
  case aonLimitExpiry => exact execAonLimitExpiry_formed hw ..
  case tokenOpAtHome => exact execTokenOpAtHome_formed hw ..
  case tktakeComplete => exact execTktakeComplete_formed hw ..
  case lentStallRelease => exact execLentStallRelease_formed hw ..
  case tileOpComplete => exact execTileOpComplete_formed hw ..
  case taskStart => exact execTaskStart_formed hw ..
  case taskComplete => exact execTaskComplete_formed hw ..
  case engineSelfTest => exact execEngineSelfTest_formed hw ..
  case engineFaultPause => exact execEngineFaultPause_formed hw ..
  case engineOpComplete => exact execEngineOpComplete_formed hw ..
  case packetNack => exact execPacketNack_formed hw ..
  case packetResend => exact execPacketResend_formed hw ..
  case messageArrival => exact execMessageArrival_formed hw ..
  case taggedMessageArrival => exact execTaggedMessageArrival_formed hw ..
  case streamElementRead => exact execStreamElementRead_formed hw ..
  case streamElementArrival => exact execStreamElementArrival_formed hw ..
  case gdetachComplete => exact execGdetachComplete_formed hw ..
  case crewExitRelease => exact execCrewExitRelease_formed hw ..
  case legAdmission => exact execLegAdmission_formed hw ..
  case crewStart => exact execCrewStart_formed hw ..
  case gangReservation => exact execGangReservation_formed hw ..
  case legComplete => exact execLegComplete_formed hw ..
  case preemptDeadlineExpiry => exact execPreemptDeadlineExpiry_formed hw ..
  case quiescePoint => exact execQuiescePoint_formed hw ..
  case crewSave => exact execCrewSave_formed hw ..
  case errorEvent => exact execErrorEvent_formed hw ..
  case errorWindowExpiry => exact execErrorWindowExpiry_formed hw ..
  case coreLoss => exact execCoreLoss_formed hw ..
  case crewRelaunch => exact execCrewRelaunch_formed hw ..
  case grantUpdate => exact execGrantUpdate_formed hw ..
  case groupUnpark => exact execGroupUnpark_formed hw ..
  case stepRaise => exact execStepRaise_formed hw ..
  case stepLower => exact execStepLower_formed hw ..
  case voltageFall => exact execVoltageFall_formed hw ..
  case gddrTempReport => exact execGddrTempReport_formed hw ..
  case thermalCapStep => exact execThermalCapStep_formed hw ..
  case quadrantJoin => exact execQuadrantJoin_formed hw ..
  case quadrantCalibrated => exact execQuadrantCalibrated_formed hw ..
  case powerUp => exact execPowerUp_formed hw ..
  case faultRecordWrite => exact execFaultRecordWrite_formed hw ..
  case faultRecordEnable => exact execFaultRecordEnable_formed hw ..
  case contextReset => exact execContextReset_formed hw ..
  case preemptRequest => exact execPreemptRequest_formed hw ..
  case queueLeg => exact execQueueLeg_formed hw ..
  case hostTbinv => exact execHostTbinv_formed hw ..
  case tlbInvalidateComplete => exact execTlbInvalidateComplete_formed hw ..
  case placeValueWrite => exact execPlaceValueWrite_formed hw ..
  case tokenOwn => exact execTokenOwn_formed hw ..
  case tokenRelease => exact execTokenRelease_formed hw ..
  case tokenHome => exact execTokenHome_formed hw ..
  case tokenUnhome => exact execTokenUnhome_formed hw ..
  case debugStep => exact execDebugStep_formed hw ..
  case resumeGroup => exact execResumeGroup_formed hw ..
  case resumeCore => exact execResumeCore_formed hw ..
  case resumeEngine => exact execResumeEngine_formed hw ..
  case suspendCrew => exact execSuspendCrew_formed hw ..
  case restoreCrew => exact execRestoreCrew_formed hw ..
  case registerWrite => exact execRegisterWrite_formed hw ..
  case hostMemoryAccess => exact execHostMemoryAccess_formed hw ..
  case inboundRequest => exact execInboundRequest_formed hw ..
  case postedWriteRelease => exact execPostedWriteRelease_formed hw ..
  case pcieLinkTraining => exact execPcieLinkTraining_formed hw ..
  case mgmtAutoNegotiation => exact execMgmtAutoNegotiation_formed hw ..
  case mgmtReadTemperatures => exact execMgmtReadTemperatures_formed hw
  case mgmtReadEvents => exact execMgmtReadEvents_formed hw
  case mgmtSetStepCap => exact execMgmtSetStepCap_formed hw
  case mgmtSetHotlim => exact execMgmtSetHotlim_formed hw
  case mgmtResetModule => exact execMgmtResetModule_formed hw
  case mgmtFirmwareChunk => exact execMgmtFirmwareChunk_formed hw
  case mgmtFirmwareCommit => exact execMgmtFirmwareCommit_formed hw
  case mgmtQuote => exact execMgmtQuote_formed hw
  case mgmtSetAddress => exact execMgmtSetAddress_formed hw
  case mgmtUnknownOp => exact execMgmtUnknownOp_formed hw
  case mgmtArp => exact execMgmtArp_formed hw
  case mgmtIcmpEcho => exact execMgmtIcmpEcho_formed hw
  case mgmtDhcp => exact execMgmtDhcp_formed hw
  case unassignedOpcode => exact execUnassignedOpcode_formed hw
  all_goals cases he

theorem exec_formed (i : Instr) : FormedNext (exec i s) := by
  cases hi : i.isCode with
  | true => exact exec_code_formed hw hi
  | false => exact exec_event_formed hw hi

end

end Sys2Proof.Machine
end

section
/-! SUPPORT. A step keeps the canonical form of memory: the settling of O54. -/

namespace Sys2Proof.Machine

open Sys2Proof

section
variable {s : State} (hw : s.Formed)
include hw

theorem settle_formed {o : Host.Outcome State Fault Refusal} (ho : FormedNext o) : FormedNext (settle o s) := by
  unfold settle
  split
  · exact ho
  · exact formedNext_next.mpr hw
  · split
    · exact formedNext_next.mpr hw
    · exact formedNext_refused _

theorem issueStep_formed (i : Slot) : FormedNext (issueStep s i) := by
  unfold issueStep
  split
  · exact formedNext_next.mpr (s.formed_clearIssue.mpr hw)
  · next G S _ =>
    have hf := State.fetch_formed hw i.core G.ctx G.crew S.pc
    generalize s.fetch i.core G.ctx G.crew S.pc = r at hf ⊢
    obtain ⟨(_ | k) | w, t⟩ := r
    · simpa using hf
    · simpa using hf
    · have hc : t.clearIssue.Formed := t.formed_clearIssue.mpr hf
      dsimp only
      split
      · exact settle_formed hc (exec_formed hf _)
      · exact settle_formed hc (illegal_formed hf _)

/-- Every step between instructions is an event of the module, run on what it finds or on the state it was taken from, or a clock's. -/
theorem eventStep_formed : FormedNext (eventStep s) := by
  have hsch (f : Sched → Sched) : (s.modSch f).Formed := (s.formed_modSch f).mpr hw
  unfold eventStep
  split
  · exact settle_formed (hsch _) (exec_formed (hsch _) _)
  · split
    · exact settle_formed (State.takeFrame_formed hw) (exec_formed hw _)
    · split
      · split
        · exact settle_formed (hsch _) (exec_formed (hsch _) _)
        · exact formedNext_next.mpr hw
      · split
        · exact settle_formed (hsch _) (exec_formed (hsch _) _)
        · exact formedNext_next.mpr (State.tick_formed hw)

theorem step_formed : FormedNext (step s) := by
  unfold step
  split
  · exact issueStep_formed hw _
  · exact eventStep_formed hw

end

/-- Settles O54: whatever a step runs is an instruction, an event or a clock, and each leaves memory alone or writes bytes at home. -/
theorem memoryKeepsItsForm : Obligations.MemoryKeepsItsForm := by
  unfold Obligations.MemoryKeepsItsForm
  intro s t hwf hstep
  exact ((step_formed ⟨hwf⟩).formed t hstep).wf

end Sys2Proof.Machine
end
